-- ==== Sys2Proof/Word.lean ====
section
/-!
DEFINITION. The word types of the module: 64-bit register words, 128-bit memory words, 512-bit descriptor
registers (spec 10 R272, 08 R217), and the indexes that name Benches, partitions and ports.
-/

namespace Sys2Proof

/-- A 64-bit register word (R272, R559). -/
abbrev Word := BitVec 64
/-- One byte of memory. -/
abbrev Byte := BitVec 8
/-- A 16-byte memory word (R202). -/
abbrev Line16 := BitVec 128
/-- A descriptor register's 64 bytes (R217, R272). -/
abbrev Desc := BitVec 512
/-- A Bench number (R17). -/
abbrev Bid := Fin 16
/-- A partition number (R415). -/
abbrev Part := Fin 4
/-- An optical port number (R19). -/
abbrev PortNo := Fin 16
/-- A sparse table: strictly rising keys, and no entry equal to its key's default. -/
abbrev Tab (α : Type) := List (Nat × α)

end Sys2Proof
end

