-- ==== Sys2Proof/Syntax.lean ====
section
/-!
DEFINITION. The commands of the module: `Instr`, one constructor per row of the opcode table, with the operands each
row takes. A Foreman instruction carries its issue header (Bench, PRED, PNEG: 10 R274, R275) and the fields of its layout
(10 R276, 11 R310-R334). An event names the unit it happens at, and carries what comes from outside the block: sensor
readings, hardware upsets, a host's answers, frames from the fabric, mailbox contents.
-/

namespace Sys2Proof

/-- The header a Foreman instruction issues under: its Bench, PRED and PNEG (R274, R275). -/
structure Issue where
  bench : Bid
  pred : BitVec 3
  pneg : Bool
  deriving DecidableEq, Repr

/-- A vote, weakest first (R293, R395). -/
inductive Vote | pass | skip | abort | halt
  deriving DecidableEq, Repr

/-- The outcome of an attempt (R294). -/
inductive Result | commit | skip | abort | halt
  deriving DecidableEq, Repr

/-- Fields of CUT.MM and DRS.MM (R324). -/
structure MMFields where
  usel : BitVec 4
  da : BitVec 4
  db : BitVec 4
  dc : BitVec 4
  ra : BitVec 5
  rb : BitVec 5
  ta : Bool
  tb : Bool
  acc : Bool
  drain : Bool
  reuse : Bool
  passes : BitVec 2
  spl : Bool
  deriving DecidableEq, Repr

/-- Fields of WDG.CVT (R327). -/
structure CvtFields where
  wsel : BitVec 3
  da : BitVec 4
  db : BitVec 4
  dc : BitVec 4
  dual : Bool
  exp : Bool
  tid0 : BitVec 32
  tid1 : BitVec 32
  deriving DecidableEq, Repr

/-- Fields of WDG.ROT (R327). -/
structure RotFields where
  wsel : BitVec 3
  da : BitVec 4
  db : BitVec 4
  rslot : BitVec 4
  inv : Bool
  deriving DecidableEq, Repr

/-- The operations of SCR.MAP (R181); a reserved OP is refused at the head of the queue (R313). -/
inductive MapOp
  | copy | add | sub | mul | fma | max | min | abs | neg | scale | sqrt | recip | rsqrt | rsum | rssq | rmax | ramax
  | reserved
  deriving DecidableEq, Repr

/-- The Screen operations with the modes their fields select (R328). -/
inductive ScrOp
  | map (o : MapOp)
  | curve (slot : BitVec 5) (mulb : Bool)
  | dcurve (slot : BitVec 5) (gated : Bool)
  | smax (eslot : BitVec 5) (mask : Bool)
  | topk (key comp : Bool)
  | opt (norm : Bool)
  deriving DecidableEq, Repr

/-- Which of the four Hauler instructions an entry is (R330). -/
inductive HaulOp | ld | st | gth | sct
  deriving DecidableEq, Repr

/-- What an engine instruction is once it stands in its queue: its operation and the fields that are no register names. -/
inductive EngOp
  | mm (dresser : Bool) (f : MMFields)
  | cvt (f : CvtFields)
  | rot (f : RotFields)
  | scr (o : ScrOp) (tid0 tid1 : BitVec 32)
  | haul (o : HaulOp) (gd : BitVec 3) (remote : BitVec 2) (perm : BitVec 15)
  | red (axis : BitVec 3) (noise : Bool)
  | sparse (axis : BitVec 3)
  | push (tid : BitVec 32)
  | pop
  deriving DecidableEq, Repr

/-- A fabric packet: the four header words of R344 and the payload. -/
structure Packet where
  w0 : Word
  w1 : Word
  w2 : Word
  w3 : Word
  payload : List Byte
  deriving DecidableEq, Repr

/-- A frame on a port: a packet, the trailer's sequence number and CRC (R344), whether a codeword of it was
uncorrectable (R347), how many the FEC corrected (R545), and the credits of each class that its trailer returns (R345). -/
structure Frame where
  pkt : Packet
  seq : BitVec 12
  crc : BitVec 32
  badCodeword : Bool
  corrected : Nat
  credits : Vector Nat 5
  deriving DecidableEq, Repr

/-- What an upset of a stored 144-bit word looks like to its reader (R207, R209): none, one symbol, more than one symbol, or one
of the three full/empty cells. -/
inductive Upset
  | clean
  | symbol (sym : Fin 36) (flips : BitVec 4)
  | multi
  | cell
  deriving DecidableEq, Repr

/-- An upset within an array at one row update: the cell's row, the column, the segment, the residues expected and found,
and the bits that flipped in the column's tree result (R440, R441, R445). -/
structure ArrayUpset where
  cellRow : Nat
  col : Nat
  segment : Nat
  expected : BitVec 3
  found : BitVec 3
  flips : BitVec 32
  onPartner : Bool
  deriving DecidableEq, Repr

/-- An upset in the arithmetic of a Wedge, Screen or Stockpile: the destination, by its place among the descriptors, and the
element it reached, and the residues expected and found (R443). -/
structure UnitUpset where
  dest : Nat
  elem : Nat
  expected : BitVec 3
  found : BitVec 3
  deriving DecidableEq, Repr

/-- Who asks a bank or stack for words (R205). -/
inductive Requester
  | cutter (n : Fin 4) | dresser (n : Fin 8) | wedge (n : Fin 4) | screen (n : Fin 2) | hauler (n : Fin 8)
  | weighbridge | stockpile | foreman | proof | network
  deriving DecidableEq, Repr

/-- A function's mailbox, an MCTP endpoint or the I3C endpoint, numbered as in R534. -/
abbrev Chan := Fin 9

/-- A management request (R531): its channel, header fields and payload. -/
structure MbReq where
  chan : Chan
  msg : BitVec 16
  tag : BitVec 16
  len : BitVec 20
  arg0 : Word
  arg1 : Word
  zero : Word
  payload : List Byte
  deriving DecidableEq, Repr

/-- An access to a function's BAR4 (R433): its doorbell, with the request as its regions hold it, also for a request over MCTP or
I3C; a one written to MB_STATUS.ANSWERED; a read of some bytes; and, at an endpoint, an SPDM request that the module does not
support: KEY_EXCHANGE, PSK_EXCHANGE, SET_CERTIFICATE, GET_CSR or a secure session (R526). -/
inductive Bar4
  | submit (m : MbReq)
  | clear (p : Part)
  | read (p : Part) (off size : Nat)
  | unsupported (c : Chan)
  deriving DecidableEq, Repr

/-- What a host sets up in the PCIe configuration space and the MSI-X table of its function (R414, R416, R430): Max_Payload_Size and
Max_Read_Request_Size in bytes, the Completion Timeout range, 0 to 3 for A to D, BAR2's size as a power of two, and the entries it
writes, as entry, address and data. -/
structure PcieCfg where
  mps : Nat
  mrrs : Nat
  cto : Fin 4
  barLog2 : Nat
  msix : List (Fin 512 × Word × BitVec 32)
  deriving DecidableEq, Repr

/-- An uncorrectable error in the state of a Foreman or core: its Bench, class and index, and the check syndrome (R443, R451). -/
structure CoreUpset where
  bench : Nat
  cls : Nat
  index : Nat
  syndrome : BitVec 16
  deriving DecidableEq, Repr

/-- What a Proof's arrays or core added to the signature that the operands give: the bits in which the unit's own signature differs
from it, and, for an array, the reference array and the third array with theirs (R459). -/
structure ProofRun where
  own : Word
  ref : Option ((Nat × Nat × Nat) × Word)
  third : Option ((Nat × Nat × Nat) × Word)
  deriving DecidableEq, Repr

/-- Who asks for a Bench or engine reset: RST_CMD, or error recovery by the Bench error controller or the management controller
(R477). -/
inductive ResetBy
  | command
  | recovery
  deriving DecidableEq, Repr

/-- An entry of a firmware image's segment table (R512): a core class, and the segment's offset, length and SHA-512 digest. -/
structure Segment where
  cls : Nat
  offset : Nat
  len : Nat
  digest : BitVec 512
  deriving DecidableEq, Repr

/-- A firmware image as its bytes spell it (R512): version, SVN, compatible order codes (true for AETQ16-384L), segment table, and
the public key, if any, under which its signature over the digest of header, table and segments holds. -/
structure Image where
  version : Nat
  svn : Nat
  orders : List Bool
  segments : List Segment
  signer : Option (BitVec 256)
  deriving DecidableEq, Repr

/-- A build record as its bytes spell it (R508): sequence, whether a maker root key's signature holds, serial, order code (true for
AETQ16-384L), the as-built floor plan in the layouts of R540 and R541, the maker's envelope, the default BIFUR, trims, baseline link
and stack settings, the public keys of MAKER and INSTALLER, the identity certificate chain, whether that certifies the key derived
from this module's silicon (R525), and the new PUF helper data of its write, if it has any (R506). -/
structure BuildRec where
  seq : Nat
  signedOk : Bool
  serial : Word
  order384 : Bool
  module : Word
  hubCores : Word
  benches : List (Word × Word)
  envelope : Nat
  bifur : Nat
  trims : List Word
  baseline : List Word
  makerKeys : List (BitVec 256)
  installerKeys : List (BitVec 256)
  chain : List Byte
  certified : Bool
  helper : Option (List Byte)
  deriving DecidableEq, Repr

/-- A site record (R509): sequence, the PUF helper data under whose site key its HMAC holds, and the INSTALLER fields by register
key. -/
structure SiteRec where
  seq : Nat
  auth : List Byte
  regs : List (Nat × Word)
  deriving DecidableEq, Repr

/-- A host's answer to a read or flush of the module (R429, R432): the bytes of a successful completion, or UR or CA. -/
inductive HostAnswer
  | ok (bytes : List Byte)
  | refused
  deriving DecidableEq, Repr

/-- What a stack's training found (R248, R517): the saved lane map passed, or full training with the lanes that failed in
order, working lanes and spares alike. -/
structure TrainResult where
  savedOk : Bool
  badLanes : List Nat
  badSpares : List Nat
  deriving DecidableEq, Repr

/-- Sensor readings of one thermal sample (R501), in 1/8 degree: sensors 0 to 26. -/
abbrev Temps := List Int

/-- An SPDM answer of the module's responder (R526, R527). -/
inductive SpdmAnswer
  | version (v : Nat)
  | capabilities (cert chal meas : Bool)
  | algorithms (asymEd25519 hashSha512 : Bool)
  | digests (slotMask : Nat) (digest : BitVec 512)
  | certificate (slot : Nat) (offset : Nat) (bytes : List Byte)
  | challengeAuth (nonce : BitVec 256) (signature : List Byte)
  | measurements (first count : Nat) (blocks : List (Nat × BitVec 512)) (signature : List Byte)
  | error (code : Nat)
  deriving DecidableEq, Repr

/-- The commands of the module (opcode_table.json); each constructor's docstring names its row's rule. -/
inductive Instr
  /-- NOP (R315): Foreman NOP retires in one cycle with no effect. -/
  | nop (h : Issue)
  /-- ADD (R316): ALU ADD writes s[RA] + s[RB] mod 2^64 to s[RD]. -/
  | add (h : Issue) (rd ra rb : BitVec 5)
  /-- SUB (R316): ALU SUB writes s[RA] - s[RB] to s[RD]. -/
  | sub (h : Issue) (rd ra rb : BitVec 5)
  /-- AND (R316): ALU AND writes the bitwise and to s[RD]. -/
  | and_ (h : Issue) (rd ra rb : BitVec 5)
  /-- OR (R316): ALU OR writes the bitwise or to s[RD]. -/
  | or_ (h : Issue) (rd ra rb : BitVec 5)
  /-- XOR (R316): ALU XOR writes the bitwise xor to s[RD]. -/
  | xor_ (h : Issue) (rd ra rb : BitVec 5)
  /-- SHL (R316): ALU SHL shifts s[RA] left by s[RB][5:0]. -/
  | shl (h : Issue) (rd ra rb : BitVec 5)
  /-- SHR (R316): ALU SHR shifts s[RA] right logically by s[RB][5:0]. -/
  | shr (h : Issue) (rd ra rb : BitVec 5)
  /-- SAR (R316): ALU SAR shifts s[RA] right arithmetically. -/
  | sar (h : Issue) (rd ra rb : BitVec 5)
  /-- MUL (R316): ALU MUL writes the low 64 bits of the product, usable four cycles later. -/
  | mul (h : Issue) (rd ra rb : BitVec 5)
  /-- MULHU (R316): ALU MULHU writes the high 64 bits of the unsigned product. -/
  | mulhu (h : Issue) (rd ra rb : BitVec 5)
  /-- MIN (R316): ALU MIN writes the signed minimum. -/
  | min_ (h : Issue) (rd ra rb : BitVec 5)
  /-- MINU (R316): ALU MINU writes the unsigned minimum. -/
  | minu (h : Issue) (rd ra rb : BitVec 5)
  /-- MAX (R316): ALU MAX writes the signed maximum. -/
  | max_ (h : Issue) (rd ra rb : BitVec 5)
  /-- MAXU (R316): ALU MAXU writes the unsigned maximum. -/
  | maxu (h : Issue) (rd ra rb : BitVec 5)
  /-- DIVU (R316): ALU DIVU writes the unsigned quotient, all ones for a zero divisor. -/
  | divu (h : Issue) (rd ra rb : BitVec 5)
  /-- REMU (R316): ALU REMU writes the unsigned remainder, s[RA] for a zero divisor. -/
  | remu (h : Issue) (rd ra rb : BitVec 5)
  /-- CEQ (R317): Compare equal into a predicate. -/
  | ceq (h : Issue) (pd : BitVec 3) (ra rb : BitVec 5)
  /-- CNE (R317): Compare not equal into a predicate. -/
  | cne (h : Issue) (pd : BitVec 3) (ra rb : BitVec 5)
  /-- CLT (R317): Signed less-than compare into a predicate. -/
  | clt (h : Issue) (pd : BitVec 3) (ra rb : BitVec 5)
  /-- CLTU (R317): Unsigned less-than compare into a predicate. -/
  | cltu (h : Issue) (pd : BitVec 3) (ra rb : BitVec 5)
  /-- CGE (R317): Signed greater-or-equal compare into a predicate. -/
  | cge (h : Issue) (pd : BitVec 3) (ra rb : BitVec 5)
  /-- CGEU (R317): Unsigned greater-or-equal compare into a predicate. -/
  | cgeu (h : Issue) (pd : BitVec 3) (ra rb : BitVec 5)
  /-- PAND (R317): Predicate and. -/
  | pand (h : Issue) (pd pa pb : BitVec 3)
  /-- POR (R317): Predicate or. -/
  | por (h : Issue) (pd pa pb : BitVec 3)
  /-- PXOR (R317): Predicate xor. -/
  | pxor (h : Issue) (pd pa pb : BitVec 3)
  /-- PANDN (R317): Predicate and-not. -/
  | pandn (h : Issue) (pd pa pb : BitVec 3)
  /-- ADDI (R318): Add sign-extended immediate. -/
  | addi (h : Issue) (rd ra : BitVec 5) (imm : BitVec 39)
  /-- ANDI (R318): And with immediate. -/
  | andi (h : Issue) (rd ra : BitVec 5) (imm : BitVec 39)
  /-- ORI (R318): Or with immediate. -/
  | ori (h : Issue) (rd ra : BitVec 5) (imm : BitVec 39)
  /-- XORI (R318): Xor with immediate. -/
  | xori (h : Issue) (rd ra : BitVec 5) (imm : BitVec 39)
  /-- SHLI (R318): Shift left by immediate. -/
  | shli (h : Issue) (rd ra : BitVec 5) (imm : BitVec 6)
  /-- SHRI (R318): Logical shift right by immediate. -/
  | shri (h : Issue) (rd ra : BitVec 5) (imm : BitVec 6)
  /-- SARI (R318): Arithmetic shift right by immediate. -/
  | sari (h : Issue) (rd ra : BitVec 5) (imm : BitVec 6)
  /-- MULI (R318): Multiply by immediate with MUL latency. -/
  | muli (h : Issue) (rd ra : BitVec 5) (imm : BitVec 39)
  /-- CEQI (R318): Compare equal to immediate into a predicate. -/
  | ceqi (h : Issue) (pd : BitVec 3) (ra : BitVec 5) (imm : BitVec 39)
  /-- CLTI (R318): Signed less-than immediate into a predicate. -/
  | clti (h : Issue) (pd : BitVec 3) (ra : BitVec 5) (imm : BitVec 39)
  /-- CLTUI (R318): Unsigned less-than immediate into a predicate. -/
  | cltui (h : Issue) (pd : BitVec 3) (ra : BitVec 5) (imm : BitVec 39)
  /-- IMM64 (R318): Load the 64-bit extension word into s[RD]. -/
  | imm64 (h : Issue) (rd : BitVec 5) (imm : Word)
  /-- LD (R320): Foreman load of 8 bytes into a scalar register under FE. -/
  | ld (h : Issue) (rd ra : BitVec 5) (fe : BitVec 2) (off : BitVec 37)
  /-- ST (R320): Foreman store of 8 bytes from a scalar register under FE. -/
  | st (h : Issue) (rs ra : BitVec 5) (fe : BitVec 2) (off : BitVec 37)
  /-- TLD (R321): Load a 64-byte descriptor from Bench SRAM into t[RD]. -/
  | tld (h : Issue) (td : BitVec 4) (ra : BitVec 5) (fe : BitVec 2) (off : BitVec 37)
  /-- TST (R321): Store a descriptor register to Bench SRAM. -/
  | tst (h : Issue) (ts : BitVec 4) (ra : BitVec 5) (fe : BitVec 2) (off : BitVec 37)
  /-- TMOV (R321): Copy one descriptor register to another. -/
  | tmov (h : Issue) (td ta : BitVec 4)
  /-- TSET (R321): Write one descriptor word from a scalar register. -/
  | tset (h : Issue) (td : BitVec 4) (ra : BitVec 5) (w : BitVec 3)
  /-- TGET (R321): Read one descriptor word into a scalar register. -/
  | tget (h : Issue) (rd : BitVec 5) (ta : BitVec 4) (w : BitVec 3)
  /-- PENDING_VALUE_ARRIVES (R319): A pending load, multiply, divide, wait or vote result arrives in its register and releases
  stalls. -/
  | pendingValueArrives (b : Bid) (desc : Bool) (r : BitVec 5)
  /-- BR (R322): Branch to pc + OFF. -/
  | br (h : Issue) (off : BitVec 20)
  /-- CALL (R322): Write the link to s31 and branch. -/
  | call (h : Issue) (off : BitVec 20)
  /-- JR (R322): Branch to s[RA]. -/
  | jr (h : Issue) (ra : BitVec 5)
  /-- CALLR (R322): Branch to s[RA] and write the link. -/
  | callr (h : Issue) (ra : BitVec 5)
  /-- END (R322): The Foreman enters DRAINING. -/
  | end_ (h : Issue)
  /-- FOREMAN_DRAIN_COMPLETE (R298): A DRAINING Foreman enters STOPPED once every dispatched instruction completes. -/
  | foremanDrainComplete (b : Bid)
  /-- CUT_MM (R326): Dispatch a Cutter matrix product into the CUT queue, capturing its registers. -/
  | cutMm (h : Issue) (f : MMFields)
  /-- DRS_MM (R326): Dispatch a Dresser matrix product into the DRS queue, capturing its registers. -/
  | drsMm (h : Issue) (f : MMFields)
  /-- ARRAY_HEAD_CHECK (R84): An array instruction reaches the head of the queue for its array and is checked. -/
  | arrayHeadCheck (b : Bid) (u : Fin 12)
  /-- TILE_LOAD_START (R80): Loading of a B tile into the back buffer begins when the buffer is free and the first load group is
  full. -/
  | tileLoadStart (b : Bid) (u : Fin 12)
  /-- TILE_LOAD_DONE (R81): A tile load completes and the tile becomes ready in the back buffer. -/
  | tileLoadDone (b : Bid) (u : Fin 12)
  /-- STREAM_START (R85): Streaming begins, the back buffer becomes front and scales and tables are read. -/
  | streamStart (b : Bid) (u : Fin 12)
  /-- ACCUM_ROW_UPDATE (R75): An accumulator row receives its segment-and-tree result after the pipeline latency. -/
  | accumRowUpdate (b : Bid) (u : Fin 12) (upset : Option ArrayUpset)
  /-- ACCUM_DRAIN_ROW (R78): An updated accumulator row is drained to the drain descriptor and marked full. -/
  | accumDrainRow (b : Bid) (u : Fin 12)
  /-- ARRAY_INSTR_COMPLETE (R85): An array instruction completes after its last update or drained row and its checks. -/
  | arrayInstrComplete (b : Bid) (u : Fin 12)
  /-- OPERAND_WAIT_RETRY (R213): A parked request is retried when a request changes the word's full/empty bit. -/
  | operandWaitRetry (b : Bid) (who : Requester)
  /-- CUT_CTL_MODE_WRITE (R86): The Foreman writes CUT_CTL.MODE, setting SWITCHING and holding further CUT dispatch. -/
  | cutCtlModeWrite (b : Bid) (v : Word)
  /-- CUT_MODE_SWITCH_DONE (R86): 16 cycles after queued CUT work completes MODE_ACT takes the new mode. -/
  | cutModeSwitchDone (b : Bid)
  /-- WDG_CVT (R114): Dispatch a conversion, capturing step, seed, rotation slots, export mode and descriptors. -/
  | wdgCvt (h : Issue) (f : CvtFields)
  /-- WDG_ROT (R120): Dispatch an F32 forward or inverse rotation. -/
  | wdgRot (h : Issue) (f : RotFields)
  /-- WDG_BEGIN (R112): A WDG instruction reaches the head of its queue, is assigned a Wedge, checked, and reads scales and
  tables. -/
  | wdgBegin (b : Bid)
  /-- WDG_COMPLETE (R129): A Wedge instruction completes with all destination words and planes written. -/
  | wdgComplete (b : Bid) (u : Fin 4) (upset : Option UnitUpset)
  /-- VTAB_ENTRY_WRITE (R136): A write to a value table's entries, ignored while the table is valid. -/
  | vtabEntryWrite (b : Bid) (t : BitVec 6) (q : BitVec 2) (v : Word)
  /-- VALIDATE (R127): VTAB_CMD VALIDATE checks a table and makes it valid or faults. -/
  | validate (b : Bid) (t : BitVec 6) (w : BitVec 2)
  /-- INVALIDATE (R127): VTAB_CMD INVALIDATE clears a table's valid bit. -/
  | invalidate (b : Bid) (t : BitVec 6)
  /-- EXPORT_OPEN (R126): Setting EXPORT_CTLp.OPEN makes an export session pending. -/
  | exportOpen (p : Part)
  /-- EXPORT_CLOSE (R126): Setting EXPORT_CTLp.CLOSE requests closing or cancelling the session. -/
  | exportClose (p : Part)
  /-- EXPORT_SESSION_ACTIVATE (R126): A pending session becomes active when no sweep is in progress, arming set 0 and recording
  STEP. -/
  | exportSessionActivate (p : Part)
  /-- EXPORT_SESSION_CLOSED (R126): The close takes effect once earlier export conversions complete and captured pages are
  released. -/
  | exportSessionClosed (p : Part)
  /-- PLM_EVAL (R146): Dispatch PLM.EVAL for the current attempt. -/
  | plmEval (h : Issue)
  /-- PLM_SNAPSHOT (R146): Once preceding counting work and stores complete the Bench takes its Tally snapshot. -/
  | plmSnapshot (b : Bid)
  /-- PLM_PARTITION_SUMS (R147): With every in-service Bench's snapshot the Hub forms and broadcasts partition sums. -/
  | plmPartitionSums (p : Part)
  /-- PLM_EVALUATE (R149): Each Plumb evaluates the classes on the sums and stages its result and vote. -/
  | plmEvaluate (p : Part) (differs : Option Bid)
  /-- APPLY (R153): PLM_CMD.APPLY installs the shadow when no step is open, else sets APPLY_REFUSED. -/
  | apply (p : Part)
  /-- RESET_LOSS (R167): PLM_CMD.RESET_LOSS zeroes the loss statistics at the next install. -/
  | resetLoss (p : Part)
  /-- PLM_LOSS_WRITE (R157): Writing PLM_LOSS sets LOSS_VALID for the attempt. -/
  | plmLossWrite (p : Part) (v : Word)
  /-- PLM_SET_CMD (R169): Copies the selected fields of PLM_SET_VAL into one class's shadow entry. -/
  | plmSetCmd (p : Part) (v : Word)
  /-- SCR_MAP_COPY (R181): SCR.MAP COPY writes a. -/
  | scrMapCopy (h : Issue) (ssel : BitVec 2) (da dd : BitVec 4) (tid : BitVec 32)
  /-- SCR_MAP_ADD (R181): SCR.MAP ADD writes a + b. -/
  | scrMapAdd (h : Issue) (ssel : BitVec 2) (da db dd : BitVec 4) (tid : BitVec 32)
  /-- SCR_MAP_SUB (R181): SCR.MAP SUB writes a - b. -/
  | scrMapSub (h : Issue) (ssel : BitVec 2) (da db dd : BitVec 4) (tid : BitVec 32)
  /-- SCR_MAP_MUL (R181): SCR.MAP MUL writes a × b. -/
  | scrMapMul (h : Issue) (ssel : BitVec 2) (da db dd : BitVec 4) (tid : BitVec 32)
  /-- SCR_MAP_FMA (R181): SCR.MAP FMA writes a × b + c rounded once. -/
  | scrMapFma (h : Issue) (ssel : BitVec 2) (da db dc dd : BitVec 4) (tid : BitVec 32)
  /-- SCR_MAP_MAX (R181): SCR.MAP MAX writes the larger, NaN if either is NaN. -/
  | scrMapMax (h : Issue) (ssel : BitVec 2) (da db dd : BitVec 4) (tid : BitVec 32)
  /-- SCR_MAP_MIN (R181): SCR.MAP MIN writes the smaller, NaN if either is NaN. -/
  | scrMapMin (h : Issue) (ssel : BitVec 2) (da db dd : BitVec 4) (tid : BitVec 32)
  /-- SCR_MAP_ABS (R181): SCR.MAP ABS writes |a|. -/
  | scrMapAbs (h : Issue) (ssel : BitVec 2) (da dd : BitVec 4) (tid : BitVec 32)
  /-- SCR_MAP_NEG (R181): SCR.MAP NEG writes -a. -/
  | scrMapNeg (h : Issue) (ssel : BitVec 2) (da dd : BitVec 4) (tid : BitVec 32)
  /-- SCR_MAP_SCALE (R181): SCR.MAP SCALE writes a × f. -/
  | scrMapScale (h : Issue) (ssel : BitVec 2) (da dd : BitVec 4) (ra : BitVec 5) (tid : BitVec 32)
  /-- SCR_MAP_SQRT (R181): SCR.MAP SQRT writes the correctly rounded root. -/
  | scrMapSqrt (h : Issue) (ssel : BitVec 2) (da dd : BitVec 4) (tid : BitVec 32)
  /-- SCR_MAP_RECIP (R181): SCR.MAP RECIP writes 1/a. -/
  | scrMapRecip (h : Issue) (ssel : BitVec 2) (da dd : BitVec 4) (tid : BitVec 32)
  /-- SCR_MAP_RSQRT (R181): SCR.MAP RSQRT writes 1/sqrt(a). -/
  | scrMapRsqrt (h : Issue) (ssel : BitVec 2) (da dd : BitVec 4) (tid : BitVec 32)
  /-- SCR_MAP_RSUM (R183): Row sum in the fixed lane-then-tree order. -/
  | scrMapRsum (h : Issue) (ssel : BitVec 2) (da dd : BitVec 4) (tid : BitVec 32)
  /-- SCR_MAP_RSSQ (R183): Row sum of squares in the fixed order. -/
  | scrMapRssq (h : Issue) (ssel : BitVec 2) (da dd : BitVec 4) (tid : BitVec 32)
  /-- SCR_MAP_RMAX (R183): Row maximum in the fixed order. -/
  | scrMapRmax (h : Issue) (ssel : BitVec 2) (da dd : BitVec 4) (tid : BitVec 32)
  /-- SCR_MAP_RAMAX (R183): Row maximum magnitude in the fixed order. -/
  | scrMapRamax (h : Issue) (ssel : BitVec 2) (da dd : BitVec 4) (tid : BitVec 32)
  /-- SCR_CURVE (R187): Evaluate a curve slot on each element, optionally times b. -/
  | scrCurve (h : Issue) (ssel : BitVec 2) (da : BitVec 4) (db : Option (BitVec 4)) (dd : BitVec 4) (slot : BitVec 5) (tid : BitVec 32)
  /-- SCR_DCURVE (R188): Evaluate the derivative curve at the saved input times the gradient, optionally gated. -/
  | scrDcurve (h : Issue) (ssel : BitVec 2) (da db : BitVec 4) (gate : Option (BitVec 4 × BitVec 32)) (dd : BitVec 4) (slot : BitVec 5) (tid : BitVec 32)
  /-- SCR_SMAX (R189): Online softmax step updating m, l, P and ALPHA per row. -/
  | scrSmax (h : Issue) (ssel : BitVec 2) (da db dc dd : BitVec 4) (ra : BitVec 5) (mask : Option (BitVec 5 × BitVec 5)) (eslot : BitVec 5) (tid : BitVec 32)
  /-- SCR_TOPK (R190): Select the k largest keys per row with indices and complement. -/
  | scrTopk (h : Issue) (ssel : BitVec 2) (da db dc : BitVec 4) (comp : Option (BitVec 4)) (ra rb : BitVec 5) (key : Bool) (tid : BitVec 32)
  /-- SCR_OPT (R192): Optimiser update of masters and moments, only while PHASE is COMMITTED. -/
  | scrOpt (h : Issue) (ssel : BitVec 2) (da : BitVec 4) (ra : BitVec 5) (norm : Bool) (tid0 tid1 : BitVec 32)
  /-- SCR_BEGIN (R176): A Screen instruction reaches the head of its queue, is assigned and checked, and captures slots and
  parameters. -/
  | scrBegin (b : Bid)
  /-- SCR_COMPLETE (R195): A Screen instruction completes, depositing optimiser partials where NORM is set. -/
  | scrComplete (b : Bid) (u : Fin 2) (upset : Option UnitUpset)
  /-- CRV_VALIDATE (R186): CRV_CMD VALIDATE checks a curve slot and makes it valid or faults. -/
  | crvValidate (b : Bid) (slot : BitVec 5)
  /-- CRV_INVALIDATE (R186): CRV_CMD INVALIDATE clears a curve slot's valid bit. -/
  | crvInvalidate (b : Bid) (slot : BitVec 5)
  /-- CRV_SLOT_WRITE (R200): Writes to a curve header or segments, ignored while the slot is valid. -/
  | crvSlotWrite (b : Bid) (off : Nat) (v : Word)
  /-- HAUL_LD (R331): Dispatch a Hauler copy counted as load traffic. -/
  | haulLd (h : Issue) (hsel da db : BitVec 4) (perm : BitVec 15)
  /-- HAUL_ST (R331): Dispatch a Hauler copy, possibly to a host or fabric destination. -/
  | haulSt (h : Issue) (hsel da db : BitVec 4) (remote : BitVec 2) (ra : BitVec 5) (perm : BitVec 15)
  /-- HAUL_GTH (R227): Dispatch an indexed gather. -/
  | haulGth (h : Issue) (hsel da db dc : BitVec 4) (gd : BitVec 3)
  /-- HAUL_SCT (R227): Dispatch an indexed scatter. -/
  | haulSct (h : Issue) (hsel da db dc : BitVec 4) (gd : BitVec 3)
  /-- HAUL_BEGIN (R223): A HAUL instruction reaches the head of its queue, is assigned and checked. -/
  | haulBegin (b : Bid)
  /-- HAUL_COMPLETE (R229): A HAUL instruction completes, for remote writes when all are acknowledged. -/
  | haulComplete (b : Bid) (u : Fin 8)
  /-- STK_PUSH (R232): Dispatch a stash push, capturing the drop list. -/
  | stkPush (h : Issue) (da db : BitVec 4) (ra : BitVec 5) (tid : BitVec 32)
  /-- STK_POP (R235): Dispatch a stash pop. -/
  | stkPop (h : Issue) (da : BitVec 4) (ra rb : BitVec 5)
  /-- STK_PUSH_PLACE (R233): At execution the push is placed in a tier, dropping eligible entries if needed. -/
  | stkPushPlace (b : Bid) (upset : Option UnitUpset)
  /-- STK_POP_EXECUTE (R235): A pop restores or reports dropped, frees the entry and writes the status word. -/
  | stkPopExecute (b : Bid)
  /-- STK_POP_ESCALATE (R236): Once a request parks on the pop's destination its remaining bulk reads go CRITICAL. -/
  | stkPopEscalate (b : Bid)
  /-- STK_TIER_WRITE (R230): A tier register write, ignored with CFG_REFUSED while the catalogue holds entries. -/
  | stkTierWrite (b : Bid) (bulk : Bool) (v : Word)
  /-- BANK_REQUEST_GRANT (R205): A bank grants its least recently granted waiting requester each NCK cycle. -/
  | bankRequestGrant (b : Bid) (bank : Fin 64) (upset : Upset)
  /-- CORRECTED_WORD_REWRITE (R208): The corrected word is rewritten in the bank's next idle cycle unless written meanwhile. -/
  | correctedWordRewrite (b : Bid) (bank : Fin 64)
  /-- SRAM_PATROL_READ (R211): Every 4,096 NCK cycles a bank patrols one word. -/
  | sramPatrolRead (b : Bid) (bank : Fin 64) (upset : Upset)
  /-- WAIT_TIMEOUT (R215): A request parked beyond the wait limit ends its instruction with WAIT_TIMEOUT. -/
  | waitTimeout (b : Bid) (who : Requester)
  /-- STACK_SLOT_GRANT (R256): Each slot the stack serves a class under the minimum shares and priority. -/
  | stackSlotGrant (k : Fin 8) (upset : Upset)
  /-- STACK_PATROL_READ (R258): Every BMC_SCRUB.INTERVAL µs a stack patrols one granule. -/
  | stackPatrolRead (k : Fin 8) (at_ : Fin 32) (upset : Upset)
  /-- COW_PAGE_COPY (R261): The first write to a protected page copies it to a reserve page before the write. -/
  | cowPageCopy (page : Nat)
  /-- COW_COPY_DONE (R261): The page copy completes and held writes to the page proceed. -/
  | cowCopyDone (page : Nat)
  /-- VIEW_READ (R262): A view read returns a set's recorded copy or the live page. -/
  | viewRead (p : Part) (n : Fin 4) (addr : Nat)
  /-- ARM (R260): COW_CTLp_n.ARM arms a protection set at one point in each stack's order. -/
  | arm (p : Part) (n : Fin 4)
  /-- RELEASE (R263): COW_CTLp_n.RELEASE requests release of a protection set. -/
  | release (p : Part) (n : Fin 4)
  /-- COW_RELEASE_EFFECT (R263): Release takes effect once issued view reads complete and reserve pages are freed. -/
  | cowReleaseEffect (p : Part) (n : Fin 4)
  /-- BMC_ROW_WRITE (R253): An INSTALLER write of a row's OWNER or VALID, taking effect when conditions hold or refused. -/
  | bmcRowWrite (row : Fin 96) (v : Word)
  /-- ROW_ZERO_DONE (R253): A row leaving a partition finishes being zeroed and the write takes effect. -/
  | rowZeroDone (row : Fin 96)
  /-- BMC_PART_WRITE (R251): A write of IMODE or the reserve pool, judged field by field. -/
  | bmcPartWrite (p : Part) (v : Word)
  /-- BMC_SHARE_WRITE (R256): A write of the minimum shares, ignored if they sum above 256. -/
  | bmcShareWrite (v : Word)
  /-- SYNC_FENCE (R285): Dispatch a fence with COVER and GATE masks. -/
  | syncFence (h : Issue) (cover gate : BitVec 8)
  /-- FENCE_RETIRE (R270): A fence retires the cycle after its covered instructions complete, opening its gates. -/
  | fenceRetire (b : Bid)
  /-- SET (R282): SYNC.SIG SET writes the signal image and fills the word. -/
  | set_ (h : Issue) (ra rb : BitVec 5)
  /-- SIG_ADD (R282): SYNC.SIG ADD adds VALUE to the word and fills it. -/
  | sigAdd (h : Issue) (ra rb : BitVec 5)
  /-- CLEAR (R282): SYNC.SIG CLEAR zeroes the word and empties it. -/
  | clear (h : Issue) (ra : BitVec 5)
  /-- SIGNAL_ISSUE (R283): A held signal leaves the buffer after the last preceding fence retires. -/
  | signalIssue (b : Bid)
  /-- FULL (R284): SYNC.WAIT FULL places gates until the word is full. -/
  | full (h : Issue) (rd ra : BitVec 5) (gate : BitVec 8)
  /-- TAKE (R284): SYNC.WAIT TAKE places gates until the word is full and empties it. -/
  | take (h : Issue) (rd ra : BitVec 5) (gate : BitVec 8)
  /-- EMPTY (R284): SYNC.WAIT EMPTY places gates until the word is empty. -/
  | empty (h : Issue) (rd ra : BitVec 5) (gate : BitVec 8)
  /-- GE (R284): SYNC.WAIT GE places gates until the word is full and at least the value. -/
  | ge (h : Issue) (rd ra rb : BitVec 5) (gate : BitVec 8)
  /-- WAIT_GATES_OPEN (R284): The wait condition is found to hold and all its gates open together. -/
  | waitGatesOpen (b : Bid) (g : Nat)
  /-- SYNC_BAR (R289): Dispatch a barrier arrival with gates. -/
  | syncBar (h : Issue) (fabric : Bool) (bid : Fin 16) (gate : BitVec 8)
  /-- BARRIER_ARRIVAL (R289): The barrier unit counts an arrival and releases a complete generation. -/
  | barrierArrival (p : Part) (bid : Fin 16)
  /-- BARRIER_TIMEOUT (R291): A barrier gate closed beyond BAR_CTLp.TIMEOUT faults its Bench. -/
  | barrierTimeout (p : Part) (bid : Fin 16)
  /-- STEP_BEGIN (R292): Open step k on the Bench if admissible, freeing the catalogue. -/
  | stepBegin (h : Issue) (ra : BitVec 5)
  /-- STEP_VOTE (R293): Dispatch the Bench's vote, making RD pending. -/
  | stepVote (h : Issue) (rd : BitVec 5) (vote : Vote) (cover : BitVec 8)
  /-- STEP_VOTE_SEND (R293): The Bench vote goes to the step controller once covered work, evaluation and buckets are done. -/
  | stepVoteSend (b : Bid)
  /-- MARK_BEGIN (R296): Push a marker identifier. -/
  | markBegin (h : Issue) (id : BitVec 32)
  /-- MARK_END (R296): Pop a marker identifier. -/
  | markEnd (h : Issue)
  /-- START (R298): FM_CTL.START begins fetch at ENTRY in a STOPPED Foreman. -/
  | start (b : Bid)
  /-- STOP (R298): FM_CTL.STOP stops dispatch and drains. -/
  | stop (b : Bid)
  /-- FM_CLEAR (R303): FM_CTL.CLEAR discards queued work of a FAULTED or HALTED Foreman. -/
  | fmClear (b : Bid)
  /-- FM_CLEAR_DONE (R303): Once begun instructions complete the cleared Foreman enters STOPPED. -/
  | fmClearDone (b : Bid)
  /-- IMEM_WRITE (R299): A write to instruction memory, refused unless the Foreman is STOPPED. -/
  | imemWrite (b : Bid) (w : BitVec 15) (v : Word)
  /-- GO (R300): PROG_LOADp.GO copies program words to the named Benches or sets ERROR. -/
  | go (p : Part)
  /-- PROG_LOAD_DONE (R300): Every program copy completes and DONE is set. -/
  | progLoadDone (p : Part)
  /-- PROGRAM_FAULT (R301): A fault stops its queue, puts the Foreman in FAULTED, records and votes. -/
  | programFault (b : Bid) (code : Nat) (q : Fin 8) (unit : Nat) (pc : BitVec 15) (mark : BitVec 32)
  /-- WGH_RED (R365): Dispatch a dense reduction of a bucket. -/
  | wghRed (h : Issue) (da db : BitVec 4) (ra rb : BitVec 5) (axis : BitVec 3) (noise : Bool)
  /-- WGH_SPARSE (R366): Dispatch a thinned reduction with residual write. -/
  | wghSparse (h : Issue) (da db dc dd : BitVec 4) (ra rb : BitVec 5) (axis : BitVec 3)
  /-- BUCKET_OPEN (R369): A WGH instruction opens when stage space is free, capturing the group and sending GRANTs. -/
  | bucketOpen (b : Bid)
  /-- GRANT (R369): A GRANT arrives, letting the member send its part to the owner, or is recorded. -/
  | grant (b : Bid)
  /-- CONTRIB (R369): A CONTRIB packet arrives at the owner and is staged. -/
  | contrib (b : Bid)
  /-- SUMS (R371): A SUMS packet arrives and the completed copy is checked and taken. -/
  | sums (b : Bid)
  /-- SHARD_RESULT_SEND (R372): With every slot taken the owner sums, checks and sends RESULT and RSUMS. -/
  | shardResultSend (b : Bid) (upset : Option UnitUpset)
  /-- RESULT (R370): A RESULT packet arrives and its bytes are written. -/
  | result (b : Bid)
  /-- RSUMS (R373): An RSUMS packet arrives and the receiver checks the shard exactly. -/
  | rsums (b : Bid)
  /-- ABANDON (R375): An ABANDON arrives and the shard is written poisoned with an ABORT vote. -/
  | abandon (b : Bid)
  /-- DRAIN (R377): A DRAIN arrives marking the end of a peer's aborted-attempt packets. -/
  | drain (b : Bid)
  /-- REDUCE_DEADLINE_EXPIRY (R374): A slot's deadline expires and the next backup is granted or the shard abandoned. -/
  | reduceDeadlineExpiry (b : Bid) (bucket : BitVec 32) (shard slot : Nat)
  /-- REDUCE_TIMEOUT (R376): A bucket open beyond HARD_LIMIT faults. -/
  | reduceTimeout (b : Bid) (bucket : BitVec 32)
  /-- WGH_COMPLETE (R369): A WGH instruction completes when every result shard is written and checked. -/
  | wghComplete (b : Bid) (bucket : BitVec 32)
  /-- WGH_STAGE_WRITE (R384): A WGH_STAGE write, refused while buckets are open. -/
  | wghStageWrite (b : Bid) (v : Word)
  /-- INSTALL (R391): MAP_CTLp.INSTALL reads, checks and installs a mapping epoch or refuses it. -/
  | install (p : Part)
  /-- VOTE (R397): A STEP VOTE packet arrives and is counted, forwarded or decided. -/
  | vote (p : Part)
  /-- VOTE_TIMEOUT (R398): The root lacking votes beyond VOTE_LIMIT decides HALT. -/
  | voteTimeout (p : Part)
  /-- OUTCOME (R399): An OUTCOME arrives, is adopted and forwarded. -/
  | outcome (p : Part)
  /-- STEP_OUTCOME_ACT (R401): The module installs Plumbs, acts in Weighbridges, sets PHASE and retires STEP.VOTE. -/
  | stepOutcomeAct (p : Part)
  /-- CANCEL (R400): A CANCEL arrives, is forwarded and abandons open buckets. -/
  | cancel (p : Part)
  /-- ALERT (R400): An ALERT arrives and is forwarded, the root sending CANCEL. -/
  | alert (p : Part)
  /-- ALERT_SEND (R396): A module's vote first becoming ABORT or HALT sends ALERT at once. -/
  | alertSend (p : Part)
  /-- MIR_START (R406): MIR_CTLp.START begins mirroring a protection set to the buddy. -/
  | mirStart (p : Part)
  /-- MIRROR_BEGIN_RECEIVE (R406): The buddy receives BEGIN and marks a bank WRITING. -/
  | mirrorBeginReceive
  /-- MIRROR_PAGE_RECEIVE (R406): The buddy receives and stores one mirrored page. -/
  | mirrorPageReceive
  /-- MIRROR_MANIFEST_RECEIVE (R406): The buddy checks the digest, writes COMPLETE and acknowledges. -/
  | mirrorManifestReceive
  /-- MIRROR_ACK_RECEIVE (R406): The sender receives the acknowledgement and sets DONE. -/
  | mirrorAckReceive (p : Part)
  /-- MIRROR_ACK_TIMEOUT (R484): No manifest acknowledgement within 1 s sets FAILED. -/
  | mirrorAckTimeout (p : Part)
  /-- MIR_RX_WRITE (R408): An INSTALLER write of the mirror area, refused if it names an owned row. -/
  | mirRxWrite (v : Word)
  /-- PORT_TRAINING (R338): A port trains, qualifying lanes and switching spares. -/
  | portTraining (n : PortNo) (errors : List Nat) (peerMod : BitVec 13) (peerPort : BitVec 4)
  /-- LANE_WINDOW_END (R339): An in-service 10^10-bit window ends and a lane at threshold sets MARGINAL. -/
  | laneWindowEnd (n : PortNo) (lane : Nat) (errors : Nat)
  /-- FRAME_RECEIVE (R347): A frame arrives and is accepted or dropped with a NAK. -/
  | frameReceive (n : PortNo) (fr : Frame)
  /-- NAK_RECEIVE (R347): A NAK arrives and the transmitter resends from the expected frame. -/
  | nakReceive (n : PortNo) (expected : BitVec 12)
  /-- FRAME_TRANSMIT (R346): The transmitter chooses and sends its next frame by class priority and credits. -/
  | frameTransmit (n : PortNo)
  /-- CREDIT_RETURN (R345): Returned credits arrive and release a waiting class. -/
  | creditReturn (n : PortNo) (cls : Fin 5) (units : Nat)
  /-- PORT_DOWN (R348): Loss of signal, idle silence or repeated resends take a port DOWN and lose its peer. -/
  | portDown (n : PortNo) (cause : Fin 3)
  /-- WRITE (R350): A DATA WRITE is performed and answered ACK, or REJECT. -/
  | write
  /-- ACK (R350): An ACK arrives and the sender's write counts as performed. -/
  | ack
  /-- REJECT (R350): A REJECT arrives and the HAUL.ST faults FABRIC_REJECT. -/
  | reject
  /-- FABRIC_ACK_TIMEOUT (R350): An unanswered remote write beyond ACK_LIMIT ends in WAIT_TIMEOUT. -/
  | fabricAckTimeout (b : Bid) (u : Fin 8)
  /-- ARRIVE (R351): A tree ARRIVE arrives from a child and is propagated upward. -/
  | arrive (p : Part)
  /-- BARRIER_TREE_RELEASE (R351): A RELEASE arrives, is forwarded and opens the generation's gates. -/
  | barrierTreeRelease (p : Part)
  /-- LOST (R352): A LOST notice arrives and the module marks the peer lost and floods the notice. -/
  | lost
  /-- FAB_ROUTE_WRITE (R360): A route-table write, refusing entries naming unowned ports. -/
  | fabRouteWrite (p : Part) (i : BitVec 10) (v : Word)
  /-- FAB_TREE_WRITE (R351): A tree write, refused while an epoch is in force. -/
  | fabTreeWrite (p : Part) (v : Word)
  /-- BAR0_ACCESS (R418): A host BAR0 access is decoded, performed or refused. -/
  | bar0Access (p : Part) (off size : Nat) (v : Option (List Byte))
  /-- BAR2_ACCESS (R420): A host BAR2 read or write is translated and performed or refused. -/
  | bar2Access (p : Part) (off size : Nat) (v : Option (List (Option Byte))) (ep : Bool)
  /-- SQ_TAIL (R425): An SQ_TAIL doorbell advances the submission tail. -/
  | sqTail (p : Part) (q : BitVec 8) (v : BitVec 32)
  /-- CQ_HEAD (R425): A CQ_HEAD doorbell frees completion entries. -/
  | cqHead (p : Part) (q : BitVec 8) (v : BitVec 32)
  /-- QUEUE_ENABLE_WRITE (R424): Setting ENABLE resets a queue's heads, tails and phase. -/
  | queueEnableWrite (q : BitVec 8) (v : Word)
  /-- QUEUE_ENTRY_FETCH (R424): The host-queue core reads a submission entry from host memory. -/
  | queueEntryFetch (q : BitVec 8) (ans : HostAnswer)
  /-- QUEUE_NOP (R427): Queue NOP completes at once. -/
  | queueNop (q : BitVec 8)
  /-- QUEUE_START (R427): Queue START starts the named Foremen. -/
  | queueStart (q : BitVec 8)
  /-- COPY_IN (R427): Copy host bytes to a device range. -/
  | copyIn (q : BitVec 8) (i : Nat) (ans : HostAnswer)
  /-- COPY_OUT (R427): Copy a device range to host memory. -/
  | copyOut (q : BitVec 8) (i : Nat)
  /-- SIGNAL (R427): Queue SIGNAL writes a signal image. -/
  | signal (q : BitVec 8)
  /-- WAIT (R427): Queue WAIT waits for a word condition. -/
  | wait (q : BitVec 8)
  /-- QUEUE_WAIT_TIMEOUT (R428): A queue WAIT times out and sets ERROR after its completion. -/
  | queueWaitTimeout (q : BitVec 8)
  /-- QUEUE_COMMAND_COMPLETE (R429): A completed command posts its completion entry. -/
  | queueCommandComplete (q : BitVec 8) (i : Nat) (ans : HostAnswer)
  /-- COMPLETION_COALESCE_TIMER (R431): COAL_TIME after the first unsignalled completion raises the vector. -/
  | completionCoalesceTimer (q : BitVec 8)
  /-- HOST_FLUSH_COMPLETE (R432): The flushing zero-length read completes and host writes are performed. -/
  | hostFlushComplete (b : Bid) (u : Fin 8) (ans : HostAnswer)
  /-- HOST_ACK_TIMEOUT (R432): No flush answer within ACK_LIMIT ends the HAUL.ST with WAIT_TIMEOUT. -/
  | hostAckTimeout (b : Bid) (u : Fin 8)
  /-- MB_DOORBELL (R433): A mailbox doorbell submits a request to the management controller. -/
  | mbDoorbell (a : Bar4)
  /-- QUEUE_ABORT (R435): A partition's queues are aborted within 2 ms of a trigger. -/
  | queueAbort (p : Part)
  /-- PART_CFG_WRITE (R422): An INSTALLER PART_CFGp write, accepted with Bench resets or refused. -/
  | partCfgWrite (p : Part) (v : Word)
  /-- HOST_LINK_DOWN (R435): A host port's link goes down and its partition's queues abort. -/
  | hostLinkDown (p : Part)
  /-- ERR_BCTL_MODE_WRITE (R446): A write of ERR_BCTL.MODE starts a check-mode switch. -/
  | errBctlModeWrite (b : Bid) (v : Word)
  /-- CHECK_MODE_SWITCH_DONE (R446): 16 cycles after earlier array work completes MODE_ACT takes the new mode. -/
  | checkModeSwitchDone (b : Bid)
  /-- ERROR_RECORD_DELIVERY (R452): The aggregator delivers a record to rings and the module log. -/
  | errorRecordDelivery (refused : BitVec 4)
  /-- RECORD_MERGE_WINDOW_END (R454): A merged record's 1 ms window ends and it is written. -/
  | recordMergeWindowEnd (i : Nat) (refused : BitVec 4)
  /-- ERR_HEAD_WRITE (R453): The host writes HEAD and held records are written into freed space. -/
  | errHeadWrite (p : Part) (v : Word) (refused : Bool)
  /-- FAULT_HISTORY_ENTRY (R456): A fault is entered in flash history and classified. -/
  | faultHistoryEntry (core : Option CoreUpset)
  /-- UNIT_RETIRED (R458): A pending unit is retired once its partition's Foremen are STOPPED or a reset comes. -/
  | unitRetired (b : Nat) (cls index : Nat)
  /-- PROOF_PERIODIC_TIMER (R460): INTERVAL operating hours pass and a Proof becomes pending. -/
  | proofPeriodicTimer
  /-- PROOF_START (R460): A pending Proof begins in an idle slot. -/
  | proofStart (b : Nat) (cls index : Nat)
  /-- PROOF_YIELD (R460): An instruction naming the unit stops the Proof within 64 cycles. -/
  | proofYield (b : Nat) (cls index : Nat)
  /-- PROOF_PREEMPT (R461): A Proof pending beyond DEADLINE preempts the unit. -/
  | proofPreempt (b : Nat) (cls index : Nat)
  /-- PROOF_COMPLETE (R459): A Proof ends and signatures are compared. -/
  | proofComplete (b : Nat) (cls index : Nat) (run : ProofRun)
  /-- VIEW_DISAGREE (R462): The two views of a unit differ; it is held failed and a Proof is requested. -/
  | viewDisagree (b : Nat) (cls index : Nat) (mgmtFailed : Bool)
  /-- BCK_RATE_COMMAND (R469): The management controller commands a new Bench clock rate. -/
  | bckRateCommand (b : Bid)
  /-- BCK_RATE_SWITCH (R469): The locked second PLL output takes over at a cycle boundary. -/
  | bckRateSwitch (b : Bid)
  /-- RST_ENGINE (R480): RST_CMD engine scope resets one unit with its core. -/
  | rstEngine (b : Bid) (cls : BitVec 6) (index : BitVec 4) (by_ : ResetBy)
  /-- RST_BENCH (R480): RST_CMD Bench scope resets a compute die. -/
  | rstBench (b : Bid) (by_ : ResetBy)
  /-- RST_PARTITION (R480): RST_CMD partition scope resets a partition. -/
  | rstPartition (p : Part)
  /-- RST_MODULE (R480): RST_CMD module scope resets the module. -/
  | rstModule
  /-- PERST (R478): PERST# of a port causes a partition or module reset. -/
  | perst (port : Fin 4) (asserted : BitVec 4)
  /-- FUNCTION_LEVEL_RESET (R435): FLR or Hot Reset of a function resets its partition. -/
  | functionLevelReset (p : Part)
  /-- RESET_COMPLETE (R477): A reset of any scope completes within its bound. -/
  | resetComplete
  /-- INPUT_VOLTAGE_FAULT (R489): Input below 40 V for 1 ms, below 36 V or above 58 V triggers power-off. -/
  | inputVoltageFault (mv : Nat)
  /-- OVERCURRENT_TRIP (R490): Input current above limits trips the main switch. -/
  | overcurrentTrip (ma : Nat)
  /-- PRSNT_ASSERT (R494): PRSNT# assertion starts the 100 ms debounce. -/
  | prsntAssert
  /-- PRSNT_DEBOUNCE_DONE (R494): After 100 ms of PRSNT# the main switch closes and bring-up begins. -/
  | prsntDebounceDone (bus vin : Nat)
  /-- PRSNT_BREAK (R499): Surprise removal sends LOST within 5 µs and stops all work. -/
  | prsntBreak
  /-- ATTN_BTN (R495): The attention button starts or cancels a removal window. -/
  | attnBtn
  /-- ATTN_WINDOW_EXPIRY (R495): The 5 s button window ends and the removal request stands. -/
  | attnWindowExpiry
  /-- REM_RELEASE_WRITE (R495): A partition sets its RELEASE bit, removal standing when all have. -/
  | remReleaseWrite (p : Part)
  /-- REMOVAL_GRACE_END (R496): GRACE ends and the module quiesces, sending its own LOST notice. -/
  | removalGraceEnd
  /-- REMOVAL_FLUSH_DONE (R496): FLUSH completes and the module opens its main switch. -/
  | removalFlushDone
  /-- THERMAL_SAMPLE (R501): Every 100 µs temperatures are read and thermal caps adjusted. -/
  | thermalSample (ts : Temps)
  /-- POWER_SAMPLE (R502): Every 100 µs input power is measured and power caps adjusted. -/
  | powerSample (vin pin iin : Nat)
  /-- PWR_LIMIT_WRITE (R502): An INSTALLER write of LIMIT_W, refused above ENVELOPE_W. -/
  | pwrLimitWrite (v : Word)
  /-- GATE (R497): BENCH_PWRb.GATE gates or wakes a Bench, or is refused. -/
  | gate (b : Bid) (v : Word)
  /-- BENCH_WAKE_DONE (R497): A Bench wake completes with Bench-scope reset effects. -/
  | benchWakeDone (b : Bid)
  /-- IDLE_ENTRY_TIMER (R497): 10 ms after the last ACTIVE condition the module enters IDLE. -/
  | idleEntryTimer
  /-- BOOT (R511): The boot ROM derives keys, selects records and verifies firmware. -/
  | boot (pufOk : Bool) (failed : List (Nat × Nat × Nat))
  /-- PENDING_BOOT_TIMEOUT (R513): A PENDING image not READY within 30 s falls back to ACTIVE. -/
  | pendingBootTimeout
  /-- STARTUP_PROGRAM_DONE (R515): Every start-up program has ENDed and instruction memory is zeroed. -/
  | startupProgramDone (failed : List (Nat × Nat × Nat))
  /-- STACK_TRAINING (R517): A stack checks saved settings or trains fully and is zeroed. -/
  | stackTraining (k : Fin 8) (r : TrainResult)
  /-- PORT_PEER_WINDOW_END (R518): The 1.5 s peer window ends for a port still DOWN. -/
  | portPeerWindowEnd (n : PortNo)
  /-- READY (R520): All bring-up conditions hold; site record applied and floor plan published. -/
  | ready (ms : Nat)
  /-- SAVED_SETTINGS_WRITE (R519): After READY changed training settings are written to flash. -/
  | savedSettingsWrite
  /-- GET_INFO (R532): Return serial, order code, boot status, versions and identity key. -/
  | getInfo
  /-- GET_FLOORPLAN (R532): Return the FP registers as one image. -/
  | getFloorplan
  /-- SET_HOST_TIME (R532): Write a partition's host time word. -/
  | setHostTime
  /-- READ_RECORDS (R532): Return module-log records. -/
  | readRecords
  /-- REQUEST_PROOF (R532): Make a Proof of a partition unit pending. -/
  | requestProof
  /-- REQUEST_REMOVAL (R532): Set the partition's REM_CTL.RELEASE bit. -/
  | requestRemoval
  /-- AUTH_BEGIN (R529): Answer a role request with a nonce. -/
  | authBegin (lockOver : Bool)
  /-- AUTH_PROVE (R529): Verify a signature and grant the role to the channel. -/
  | authProve (ok fresh : Bool) (older : Nat)
  /-- AUTH_END (R529): End the channel's role. -/
  | authEnd
  /-- AUTH_IDLE_EXPIRY (R529): 15 minutes without a request end a channel's role. -/
  | authIdleExpiry (c : Chan)
  /-- REG_WRITE (R509): Write INSTALLER fields through the site record and counter. -/
  | regWrite
  /-- FW_STAGE (R533): Write image bytes to the inactive slot. -/
  | fwStage
  /-- FW_ACTIVATE (R533): Verify the staged image and set PENDING. -/
  | fwActivate (img : Image)
  /-- FW_COMMIT (R532): Raise SVN_MIN to the running image's SVN. -/
  | fwCommit
  /-- RETIRE_UNIT (R532): Make a unit RETIRE_PENDING. -/
  | retireUnit
  /-- RETRAIN_PORT (R532): Retrain a port when its partition has no epoch. -/
  | retrainPort
  /-- STANDBY (R497): Enter or leave STANDBY. -/
  | standby
  /-- REMOVE (R495): INSTALLER request for orderly removal. -/
  | remove
  /-- AUDIT_READ (R532): Return audit entries. -/
  | auditRead
  /-- WRITE_BUILD_RECORD (R532): Verify and write a build record. -/
  | writeBuildRecord (r : BuildRec)
  /-- CLEAR_HISTORY (R532): Clear fault history and restore retired units at the next reset. -/
  | clearHistory
  /-- TEST_MODE (R532): Enable or disable a maker test mode. -/
  | testMode
  /-- GET_VERSION (R526): SPDM version request. -/
  | getVersion (c : Chan)
  /-- GET_CAPABILITIES (R526): SPDM capabilities request. -/
  | getCapabilities (c : Chan)
  /-- NEGOTIATE_ALGORITHMS (R526): SPDM algorithm negotiation. -/
  | negotiateAlgorithms (c : Chan)
  /-- GET_DIGESTS (R526): SPDM certificate digests request. -/
  | getDigests (c : Chan)
  /-- GET_CERTIFICATE (R526): SPDM certificate request for slot 0. -/
  | getCertificate (c : Chan) (slot off len : Nat)
  /-- CHALLENGE (R526): SPDM challenge signed by the identity key. -/
  | challenge (c : Chan) (slot : Nat) (nonce : BitVec 256)
  /-- GET_MEASUREMENTS (R527): Return signed measurement blocks. -/
  | getMeasurements (c : Chan) (index : Nat) (nonce : BitVec 256)
  /-- AUDIT_CHECKPOINT_TIMER (R537): Hourly a signed checkpoint entry is written if entries were added. -/
  | auditCheckpointTimer
  /-- TRACE_EN_WRITE (R554): Setting TRC_CTL.EN resets pointers and writes an ANCHOR, or is refused. -/
  | traceEnWrite (b : Fin 17) (v : Word)
  /-- TRACE_SAMPLE_TIMER (R549): Every SAMPLE_PERIOD × 1,024 cycles a SAMPLE entry is made. -/
  | traceSampleTimer (b : Bid)
  /-- TRACE_FLUSH_TIMER (R548): 65,536 idle cycles flush a partial granule with PAD entries. -/
  | traceFlushTimer (b : Fin 17)
  /-- TRACE_GRANULE_WRITE (R548): A full staged granule is written to the ring and TAIL advances. -/
  | traceGranuleWrite (b : Fin 17)
  /-- MK_SLOT_ID_WRITE (R546): Writing a marker slot's ID clears its counters. -/
  | mkSlotIdWrite (b : Bid) (slot : Fin 8) (v : Word)
  /-- POWER_MAX_READ (R545): Reading Hub counter 416 returns and clears the peak power. -/
  | powerMaxRead (p : Part)
  /-- COUNTER_LOW_HALF_READ (R13): A lower-half counter read latches the upper half. -/
  | counterLowHalfRead (p : Part) (key : Nat)
  /-- REGISTER_WRITE (R10): A write to a register with no behaviour of its own, per its access types. -/
  | registerWrite (key : Nat) (v : Word)
  /-- HOST_LINK_TRAINED (R439): A host port's PCIe link trains, HIF_LINKn.UP becomes 1 and records held in the Hub for its
  partition are written once the ring is reachable again. -/
  | hostLinkTrained (p : Part) (rate width : Nat) (flit : Bool) (cfg : PcieCfg)
  /-- MAILBOX_OPERATION_END (R433): A long mailbox operation answered as in progress ends, and its end is answered by writing the
  response, setting ANSWERED and raising the mailbox vector. -/
  | mailboxOperationEnd (c : Chan)
  /-- HOST_READ_COMPLETION_TIMEOUT (R429): A host read made for a queue command gets no completion within the Completion Timeout
  range and the command ends with HOST_ERROR. -/
  | hostReadCompletionTimeout (q : BitVec 8)
  /-- CYCLES_LOW_WRAP_ANCHOR (R549): Whenever CYCLES[31:0] passes zero, a Bench or the Hub writes an ANCHOR entry into its trace
  ring. -/
  | cyclesLowWrapAnchor (b : Fin 17)
  /-- REMOVAL_QUIESCE_DONE (R496): The QUIESCE phase of an orderly removal ends, PHASE becomes FLUSH, and the module starts
  writing its pending flash entries and the audit checkpoint. -/
  | removalQuiesceDone
  deriving DecidableEq, Repr

end Sys2Proof
end

