-- ==== Sys2Proof/Decode.lean ====
section
/-!
DEFINITION. Decoding. The rows of spec/opcode_table.json give no bits, so `decodeTableWord` spells no command. A Foreman's
instruction words have an encoding of their own (10 R274-R276, 11 R310-R334), and `decodeInstr` reads it: total on any word, with
every reserved code, wrong X and non-zero zero field refused, for which the Foreman faults with INSTR_INVALID.
-/

namespace Sys2Proof

/-- The command that a word spells by the table's bits: no row of the table gives any. -/
def decodeTableWord (_nbits _w : Nat) : Option Instr := none

/-- A field of a word (R274). -/
def wf (w : Word) (lo n : Nat) : BitVec n := w.extractLsb' lo n
/-- A field as a number. -/
def wn (w : Word) (lo n : Nat) : Nat := (wf w lo n).toNat
/-- Whether a field is zero (R311). -/
def wz (w : Word) (lo n : Nat) : Bool := wn w lo n == 0

/-- The issue header of an instruction word (R274). -/
def issueOf (b : Bid) (w : Word) : Issue := ⟨b, wf w 11 3, w.getLsbD 14⟩

/-- An instruction, if its field rules hold (R310, R311). -/
def given (ok : Bool) (i : Instr) : Option Instr := if ok then some i else none

/-! ## Foreman instructions (R276, R315-R322) -/

def decodeAlu (h : Issue) (w : Word) : Option Instr :=
  let rd := wf w 15 5
  let ra := wf w 20 5
  let rb := wf w 25 5
  if !wz w 38 26 then none
  else
    match wn w 30 8 with
    | 0x00 => some (.add h rd ra rb)
    | 0x01 => some (.sub h rd ra rb)
    | 0x02 => some (.and_ h rd ra rb)
    | 0x03 => some (.or_ h rd ra rb)
    | 0x04 => some (.xor_ h rd ra rb)
    | 0x05 => some (.shl h rd ra rb)
    | 0x06 => some (.shr h rd ra rb)
    | 0x07 => some (.sar h rd ra rb)
    | 0x08 => some (.mul h rd ra rb)
    | 0x09 => some (.mulhu h rd ra rb)
    | 0x0A => some (.min_ h rd ra rb)
    | 0x0B => some (.minu h rd ra rb)
    | 0x0C => some (.max_ h rd ra rb)
    | 0x0D => some (.maxu h rd ra rb)
    | 0x0E => some (.divu h rd ra rb)
    | 0x0F => some (.remu h rd ra rb)
    | _ => none

/-- CMP: RD names a predicate (R317). -/
def decodeCmp (h : Issue) (w : Word) : Option Instr :=
  let pd := wf w 15 3
  let ra := wf w 20 5
  let rb := wf w 25 5
  if !wz w 38 26 || !wz w 18 2 then none
  else
    match wn w 30 8 with
    | 0x00 => some (.ceq h pd ra rb)
    | 0x01 => some (.cne h pd ra rb)
    | 0x02 => some (.clt h pd ra rb)
    | 0x03 => some (.cltu h pd ra rb)
    | 0x04 => some (.cge h pd ra rb)
    | 0x05 => some (.cgeu h pd ra rb)
    | _ => none

/-- PLOG: three predicates (R317). -/
def decodePlog (h : Issue) (w : Word) : Option Instr :=
  let pd := wf w 15 3
  let pa := wf w 20 3
  let pb := wf w 25 3
  if !wz w 38 26 || !wz w 18 2 || !wz w 23 2 || !wz w 28 2 then none
  else
    match wn w 30 8 with
    | 0x00 => some (.pand h pd pa pb)
    | 0x01 => some (.por h pd pa pb)
    | 0x02 => some (.pxor h pd pa pb)
    | 0x03 => some (.pandn h pd pa pb)
    | _ => none

/-- The immediate instructions (R318). -/
def decodeImm (h : Issue) (op : Nat) (w : Word) : Option Instr :=
  let rd := wf w 15 5
  let ra := wf w 20 5
  let imm := wf w 25 39
  let sh := wf w 25 6
  let pred := wz w 18 2
  match op with
  | 0x08 => some (.addi h rd ra imm)
  | 0x09 => some (.andi h rd ra imm)
  | 0x0A => some (.ori h rd ra imm)
  | 0x0B => some (.xori h rd ra imm)
  | 0x0C => given (wz w 31 33) (.shli h rd ra sh)
  | 0x0D => given (wz w 31 33) (.shri h rd ra sh)
  | 0x0E => given (wz w 31 33) (.sari h rd ra sh)
  | 0x0F => some (.muli h rd ra imm)
  | 0x10 => given pred (.ceqi h (wf w 15 3) ra imm)
  | 0x11 => given pred (.clti h (wf w 15 3) ra imm)
  | 0x12 => given pred (.cltui h (wf w 15 3) ra imm)
  | _ => none

/-- Loads, stores and branches (R320-R322). -/
def decodeMemBranch (h : Issue) (op : Nat) (w : Word) : Option Instr :=
  let r := wf w 15 5
  let ra := wf w 20 5
  let fe := wf w 25 2
  let off := wf w 27 37
  let desc := wz w 19 1
  let b0 := wz w 15 5 && wz w 45 19
  match op with
  | 0x18 => given (fe != 3) (.ld h r ra fe off)
  | 0x19 => given (fe != 3) (.st h r ra fe off)
  | 0x1A => given (desc && fe != 3) (.tld h (wf w 15 4) ra fe off)
  | 0x1B => given (desc && fe != 3) (.tst h (wf w 15 4) ra fe off)
  | 0x20 => given (b0 && wz w 20 5) (.br h (wf w 25 20))
  | 0x21 => given (b0 && wz w 20 5) (.call h (wf w 25 20))
  | 0x22 => given (b0 && wz w 25 20) (.jr h ra)
  | 0x23 => given (b0 && wz w 25 20) (.callr h ra)
  | 0x24 => given (b0 && wz w 20 25) (.end_ h)
  | _ => none

/-- ENG 0x0; `x` is the extension word (R315-R322). -/
def decodeForeman (h : Issue) (op : Nat) (w x : Word) : Option Instr :=
  if op = 0x13 then given (w.getLsbD 10 && wz w 20 44) (.imm64 h (wf w 15 5) x)
  else if w.getLsbD 10 then none
  else if op = 0x00 then given (wz w 15 49) (.nop h)
  else if op = 0x01 then decodeAlu h w
  else if op = 0x02 then decodeCmp h w
  else if op = 0x03 then decodePlog h w
  else if op = 0x04 then given (wz w 19 1 && wz w 24 40) (.tmov h (wf w 15 4) (wf w 20 4))
  else if op = 0x05 then given (wz w 19 1 && wz w 25 5 && wz w 33 31) (.tset h (wf w 15 4) (wf w 20 5) (wf w 30 3))
  else if op = 0x06 then given (wz w 24 6 && wz w 33 31) (.tget h (wf w 15 5) (wf w 20 4) (wf w 30 3))
  else if 0x08 ≤ op ∧ op ≤ 0x12 then decodeImm h op w
  else decodeMemBranch h op w

/-! ## Engine instructions (R323-R332) -/

/-- HAUL (R330). -/
def decodeHaul (h : Issue) (op : Nat) (w : Word) : Option Instr :=
  let sel := wf w 15 4
  let da := wf w 19 4
  let db := wf w 23 4
  let perm := wf w 41 15
  let top := wz w 56 8
  match op with
  | 1 => given (top && wz w 27 14) (.haulLd h sel da db perm)
  | 2 => given (top && wz w 27 7 && (!wz w 34 2 || wz w 36 5)) (.haulSt h sel da db (wf w 34 2) (wf w 36 5) perm)
  | 3 => given (top && wz w 34 22) (.haulGth h sel da db (wf w 27 4) (wf w 31 3))
  | 4 => given (top && wz w 34 22) (.haulSct h sel da db (wf w 27 4) (wf w 31 3))
  | _ => none

/-- The fields of CUT.MM and DRS.MM; those that REUSE ignores, and SPL where PASSES does not use it, read as zero (R311, R324). -/
def mmOf (w : Word) : MMFields :=
  let reuse := w.getLsbD 54
  let passes := if reuse then 0 else wf w 55 2
  { usel := wf w 15 4, da := wf w 19 4, db := if reuse then 0 else wf w 23 4, dc := wf w 27 4, ra := wf w 35 5, rb := wf w 40 5
    ta := w.getLsbD 50, tb := !reuse && w.getLsbD 51, acc := w.getLsbD 52, drain := w.getLsbD 53, reuse := reuse
    passes := passes, spl := passes == 1 && w.getLsbD 57 }

/-- CUT.MM and DRS.MM (R324). -/
def decodeMm (h : Issue) (dresser : Bool) (op : Nat) (w : Word) : Option Instr :=
  let common := wz w 31 4 && wz w 45 5 && wz w 58 6 && (w.getLsbD 53 || wz w 27 4)
  if op ≠ 1 then none
  else if dresser then given common (.drsMm h (mmOf w))
  else given (common && wz w 55 3) (.cutMm h (mmOf w))

/-- WDG (R327). -/
def decodeWdg (h : Issue) (op : Nat) (w x : Word) : Option Instr :=
  let dual := w.getLsbD 50
  match op with
  | 1 =>
    given (w.getLsbD 10 && wz w 18 1 && wz w 31 19 && wz w 52 12)
      (.wdgCvt h ⟨wf w 15 3, wf w 19 4, wf w 23 4, if dual then wf w 27 4 else 0, dual, w.getLsbD 51, wf x 0 32,
        if dual then wf x 32 32 else 0⟩)
  | 2 =>
    given (!w.getLsbD 10 && wz w 18 1 && wz w 27 23 && wz w 55 9) (.wdgRot h ⟨wf w 15 3, wf w 19 4, wf w 23 4, wf w 50 4, w.getLsbD 54⟩)
  | _ => none

/-- SCR.MAP by its operation: which operands it takes is its own (R181, R328). -/
def decodeMap (h : Issue) (w x : Word) : Option Instr :=
  let sel := wf w 15 2
  let a := wf w 19 4
  let b := wf w 23 4
  let c := wf w 27 4
  let d := wf w 31 4
  let t := wf x 0 32
  let nb := wz w 23 4
  let nc := wz w 27 4
  let nr := wz w 35 5
  if !wz w 40 10 || !wz w 55 1 || !wz x 32 32 then none
  else
    match wn w 50 5 with
    | 0x00 => given (nb && nc && nr) (.scrMapCopy h sel a d t)
    | 0x01 => given (nc && nr) (.scrMapAdd h sel a b d t)
    | 0x02 => given (nc && nr) (.scrMapSub h sel a b d t)
    | 0x03 => given (nc && nr) (.scrMapMul h sel a b d t)
    | 0x04 => given nr (.scrMapFma h sel a b c d t)
    | 0x05 => given (nc && nr) (.scrMapMax h sel a b d t)
    | 0x06 => given (nc && nr) (.scrMapMin h sel a b d t)
    | 0x07 => given (nb && nc && nr) (.scrMapAbs h sel a d t)
    | 0x08 => given (nb && nc && nr) (.scrMapNeg h sel a d t)
    | 0x09 => given (nb && nc) (.scrMapScale h sel a d (wf w 35 5) t)
    | 0x0A => given (nb && nc && nr) (.scrMapSqrt h sel a d t)
    | 0x0B => given (nb && nc && nr) (.scrMapRecip h sel a d t)
    | 0x0C => given (nb && nc && nr) (.scrMapRsqrt h sel a d t)
    | 0x10 => given (nb && nc && nr) (.scrMapRsum h sel a d t)
    | 0x11 => given (nb && nc && nr) (.scrMapRssq h sel a d t)
    | 0x12 => given (nb && nc && nr) (.scrMapRmax h sel a d t)
    | 0x13 => given (nb && nc && nr) (.scrMapRamax h sel a d t)
    | _ => none

/-- Whether OP of SCR.MAP is an operation of the table (R181). -/
def mapListed (op : Nat) : Bool := op ≤ 0x0C || (0x10 ≤ op && op ≤ 0x13)

/-- SCR.MAP with a reserved OP, whose other fields hold what their rules ask: SSEL, DA, DD and the tensor identifier. It is no
instruction of the table, and it is refused only at the head of its queue (R181, R311, R313). (assumption 41, DEDUCED) -/
def reservedMap (w x : Word) : Option (BitVec 2 × BitVec 4 × BitVec 4 × BitVec 32) :=
  if wn w 0 4 == 5 && wn w 4 6 == 1 && w.getLsbD 10 && wz w 17 2 && wz w 23 8 && wz w 35 15 && !mapListed (wn w 50 5)
      && wz w 55 9 && wz x 32 32 then
    some (wf w 15 2, wf w 19 4, wf w 31 4, wf x 0 32)
  else none

/-- SCR (R328). -/
def decodeScr (h : Issue) (op : Nat) (w x : Word) : Option Instr :=
  let sel := wf w 15 2
  let a := wf w 19 4
  let b := wf w 23 4
  let c := wf w 27 4
  let d := wf w 31 4
  let slot := wf w 50 5
  let m := w.getLsbD 55
  let t := wf x 0 32
  let x0 := wz x 32 32
  if !w.getLsbD 10 || !wz w 17 2 || !wz w 56 8 then none
  else
    match op with
    | 1 => decodeMap h w x
    | 2 => given (wz w 27 4 && wz w 35 15 && x0 && (m || wz w 23 4)) (.scrCurve h sel a (if m then some b else none) d slot t)
    | 3 =>
      given (wz w 35 15 && (m || (wz w 27 4 && x0)))
        (.scrDcurve h sel a b (if m then some (c, wf x 32 32) else none) d slot t)
    | 4 =>
      given (x0 && (m || wz w 40 10))
        (.scrSmax h sel a b c d (wf w 35 5) (if m then some (wf w 40 5, wf w 45 5) else none) slot t)
    | 5 =>
      let comp := w.getLsbD 51
      given (wz w 45 5 && wz w 52 4 && x0 && (comp || wz w 31 4))
        (.scrTopk h sel a b c (if comp then some d else none) (wf w 35 5) (wf w 40 5) (w.getLsbD 50) t)
    | 6 => given (wz w 23 12 && wz w 40 10 && wz w 51 5) (.scrOpt h sel a (wf w 35 5) (w.getLsbD 50) t (wf x 32 32))
    | _ => none

/-- WGH (R332). -/
def decodeWgh (h : Issue) (op : Nat) (w : Word) : Option Instr :=
  let common := wz w 15 4 && wz w 45 5 && wz w 54 10
  match op with
  | 1 => given (common && wz w 27 8) (.wghRed h (wf w 19 4) (wf w 23 4) (wf w 35 5) (wf w 40 5) (wf w 50 3) (w.getLsbD 53))
  | 2 =>
    given (common && wz w 53 1)
      (.wghSparse h (wf w 19 4) (wf w 23 4) (wf w 27 4) (wf w 31 4) (wf w 35 5) (wf w 40 5) (wf w 50 3))
  | _ => none

/-- STK (R332). -/
def decodeStk (h : Issue) (op : Nat) (w x : Word) : Option Instr :=
  match op with
  | 1 =>
    given (w.getLsbD 10 && wz w 15 4 && wz w 27 8 && wz w 40 24 && wz x 32 32)
      (.stkPush h (wf w 19 4) (wf w 23 4) (wf w 35 5) (wf x 0 32))
  | 2 => given (!w.getLsbD 10 && wz w 15 4 && wz w 23 12 && wz w 45 19) (.stkPop h (wf w 19 4) (wf w 35 5) (wf w 40 5))
  | _ => none

/-! ## SYNC, STEP, MARK and PLM (R334) -/

/-- A vote's code (R293). -/
def voteCoded (n : Nat) : Vote := if n = 0 then .pass else if n = 1 then .skip else if n = 2 then .abort else .halt

/-- SYNC (R334). -/
def decodeSync (h : Issue) (op : Nat) (w : Word) : Option Instr :=
  let rd := wf w 15 5
  let ra := wf w 20 5
  let rb := wf w 25 5
  match op with
  | 1 => given (wz w 31 33) (.syncFence h (wf w 15 8) (wf w 23 8))
  | 2 =>
    if !wz w 15 5 || !wz w 32 32 then none
    else
      match wn w 30 2 with
      | 0 => some (.set_ h ra rb)
      | 1 => some (.sigAdd h ra rb)
      | 2 => given (wz w 25 5) (.clear h ra)
      | _ => none
  | 3 =>
    let gate := wf w 32 8
    if !wz w 40 24 || gate = 0 || (!gate.getLsbD 0 && !wz w 15 5) then none
    else
      match wn w 30 2 with
      | 0 => given (wz w 25 5) (.full h rd ra gate)
      | 1 => given (wz w 25 5) (.take h rd ra gate)
      | 2 => given (wz w 25 5) (.empty h rd ra gate)
      | _ => some (.ge h rd ra rb gate)
  | 4 => given (wz w 28 36) (.syncBar h (w.getLsbD 15) ⟨(wf w 16 4).toNat, (wf w 16 4).isLt⟩ (wf w 20 8))
  | _ => none

/-- STEP, MARK and PLM (R334). -/
def decodeStep (h : Issue) (op : Nat) (w : Word) : Option Instr :=
  match op with
  | 1 => given (wz w 15 5 && wz w 25 39) (.stepBegin h (wf w 20 5))
  | 2 => given (wz w 30 34) (.stepVote h (wf w 15 5) (voteCoded (wn w 20 2)) (wf w 22 8))
  | _ => none

def decodeMark (h : Issue) (op : Nat) (w x : Word) : Option Instr :=
  match op with
  | 1 => given (w.getLsbD 10 && wz w 15 49 && wz x 32 32) (.markBegin h (wf x 0 32))
  | 2 => given (!w.getLsbD 10 && wz w 15 49) (.markEnd h)
  | _ => none

/-- The instruction that a Foreman's word and the word behind it spell on Bench b, or none where the encoding is refused (R274,
R310, R311). -/
def decodeInstr (b : Bid) (w x : Word) : Option Instr :=
  let h := issueOf b w
  let op := wn w 4 6
  let one (i : Option Instr) : Option Instr := if w.getLsbD 10 then none else i
  match wn w 0 4 with
  | 0x0 => decodeForeman h op w x
  | 0x1 => one (decodeHaul h op w)
  | 0x2 => one (decodeMm h false op w)
  | 0x3 => one (decodeMm h true op w)
  | 0x4 => decodeWdg h op w x
  | 0x5 => decodeScr h op w x
  | 0x6 => one (decodeWgh h op w)
  | 0x7 => decodeStk h op w x
  | 0x8 => one (decodeSync h op w)
  | 0x9 => one (decodeStep h op w)
  | 0xA => decodeMark h op w x
  | 0xB => one (if op = 1 then given (wz w 15 49) (.plmEval h) else none)
  | _ => none

/-- A word with the reserved operand codes that are neither register fields nor zero fields replaced by codes in use: FUNC of ALU,
CMP and PLOG (R316, R317), FE 0b11 (R281), MODE 0b11 of SYNC.SIG (R282) and a zero GATE of SYNC.WAIT (R284). Where it decodes, the
word breaks no check that is made under a false guard (R275). (assumption 42, DEDUCED) -/
def codesMended (w : Word) : Word :=
  let op := wn w 4 6
  let cleared (lo n : Nat) : Word := w &&& ~~~(BitVec.ofNat 64 ((2 ^ n - 1) * 2 ^ lo))
  if wn w 0 4 = 0 then
    if op = 1 ∨ op = 2 ∨ op = 3 then cleared 30 8
    else if 0x18 ≤ op ∧ op ≤ 0x1B then cleared 25 2
    else w
  else if wn w 0 4 = 8 then
    if op = 2 ∧ wn w 30 2 = 3 then cleared 30 2
    else if op = 3 ∧ wn w 32 8 = 0 then w ||| 0x200000000#64
    else w
  else w

/-! ## Encoding (R274, R276, R310-R334) -/

/-- Fields, each by its lowest bit and value, laid into a word (R7, R274). -/
def lay (fs : List (Nat × Nat)) : Word := BitVec.ofNat 64 (fs.foldr (fun f a => f.2 * 2 ^ f.1 + a) 0)

/-- The header's fields: ENG, OP, X, PRED and PNEG (R274). -/
def header (eng op : Nat) (x : Bool) (h : Issue) : List (Nat × Nat) :=
  [(0, eng), (4, op), (10, x.toNat), (11, h.pred.toNat), (14, h.pneg.toNat)]

/-- An encoded instruction: the Bench it runs on, its word, and its extension word where it has one (R274). -/
abbrev Encoded := Option (Bid × Word × Option Word)

/-- An instruction of one word. -/
def enc1 (eng op : Nat) (h : Issue) (fs : List (Nat × Nat)) : Encoded := some (h.bench, lay (header eng op false h ++ fs), none)
/-- An instruction with an extension word. -/
def enc2 (eng op : Nat) (h : Issue) (fs : List (Nat × Nat)) (x : List (Nat × Nat)) : Encoded :=
  some (h.bench, lay (header eng op true h ++ fs), some (lay x))

/-- RD, RA, RB and FUNC of a Foreman instruction (R276). -/
def encF (op : Nat) (h : Issue) (rd ra rb func : Nat) : Encoded :=
  enc1 0 op h [(15, rd), (20, ra), (25, rb), (30, func)]
/-- RD, RA and an immediate (R276). -/
def encI (op : Nat) (h : Issue) (rd ra imm : Nat) : Encoded := enc1 0 op h [(15, rd), (20, ra), (25, imm)]
/-- A register, a base, FE and an offset (R276). -/
def encM (op : Nat) (h : Issue) (r ra fe off : Nat) : Encoded := enc1 0 op h [(15, r), (20, ra), (25, fe), (27, off)]
/-- CUT.MM and DRS.MM (R324). -/
def encMm (eng : Nat) (h : Issue) (f : MMFields) : Encoded :=
  enc1 eng 1 h [(15, f.usel.toNat), (19, f.da.toNat), (23, f.db.toNat), (27, f.dc.toNat), (35, f.ra.toNat), (40, f.rb.toNat),
    (50, f.ta.toNat), (51, f.tb.toNat), (52, f.acc.toNat), (53, f.drain.toNat), (54, f.reuse.toNat), (55, f.passes.toNat),
    (57, f.spl.toNat)]
/-- SCR.MAP (R328). -/
def encMap (func : Nat) (h : Issue) (sel : BitVec 2) (a b c d : Nat) (ra : Nat) (t : BitVec 32) : Encoded :=
  enc2 5 1 h [(15, sel.toNat), (19, a), (23, b), (27, c), (31, d), (35, ra), (50, func)] [(0, t.toNat)]
/-- SYNC.SIG (R334). -/
def encSig (mode : Nat) (h : Issue) (ra rb : Nat) : Encoded := enc1 8 2 h [(20, ra), (25, rb), (30, mode)]
/-- SYNC.WAIT (R334). -/
def encWait (cond : Nat) (h : Issue) (rd ra rb gate : Nat) : Encoded :=
  enc1 8 3 h [(15, rd), (20, ra), (25, rb), (30, cond), (32, gate)]
/-- A vote's code (R293). -/
def voteCode : Vote → Nat
  | .pass => 0
  | .skip => 1
  | .abort => 2
  | .halt => 3

/-- The encoding of a Foreman's instruction, from the same tables as `decodeInstr`; no other command has one. -/
def encode : Instr → Encoded
  | .nop h => enc1 0 0x00 h []
  | .add h rd ra rb => encF 0x01 h rd.toNat ra.toNat rb.toNat 0x00
  | .sub h rd ra rb => encF 0x01 h rd.toNat ra.toNat rb.toNat 0x01
  | .and_ h rd ra rb => encF 0x01 h rd.toNat ra.toNat rb.toNat 0x02
  | .or_ h rd ra rb => encF 0x01 h rd.toNat ra.toNat rb.toNat 0x03
  | .xor_ h rd ra rb => encF 0x01 h rd.toNat ra.toNat rb.toNat 0x04
  | .shl h rd ra rb => encF 0x01 h rd.toNat ra.toNat rb.toNat 0x05
  | .shr h rd ra rb => encF 0x01 h rd.toNat ra.toNat rb.toNat 0x06
  | .sar h rd ra rb => encF 0x01 h rd.toNat ra.toNat rb.toNat 0x07
  | .mul h rd ra rb => encF 0x01 h rd.toNat ra.toNat rb.toNat 0x08
  | .mulhu h rd ra rb => encF 0x01 h rd.toNat ra.toNat rb.toNat 0x09
  | .min_ h rd ra rb => encF 0x01 h rd.toNat ra.toNat rb.toNat 0x0A
  | .minu h rd ra rb => encF 0x01 h rd.toNat ra.toNat rb.toNat 0x0B
  | .max_ h rd ra rb => encF 0x01 h rd.toNat ra.toNat rb.toNat 0x0C
  | .maxu h rd ra rb => encF 0x01 h rd.toNat ra.toNat rb.toNat 0x0D
  | .divu h rd ra rb => encF 0x01 h rd.toNat ra.toNat rb.toNat 0x0E
  | .remu h rd ra rb => encF 0x01 h rd.toNat ra.toNat rb.toNat 0x0F
  | .ceq h pd ra rb => encF 0x02 h pd.toNat ra.toNat rb.toNat 0x00
  | .cne h pd ra rb => encF 0x02 h pd.toNat ra.toNat rb.toNat 0x01
  | .clt h pd ra rb => encF 0x02 h pd.toNat ra.toNat rb.toNat 0x02
  | .cltu h pd ra rb => encF 0x02 h pd.toNat ra.toNat rb.toNat 0x03
  | .cge h pd ra rb => encF 0x02 h pd.toNat ra.toNat rb.toNat 0x04
  | .cgeu h pd ra rb => encF 0x02 h pd.toNat ra.toNat rb.toNat 0x05
  | .pand h pd pa pb => encF 0x03 h pd.toNat pa.toNat pb.toNat 0x00
  | .por h pd pa pb => encF 0x03 h pd.toNat pa.toNat pb.toNat 0x01
  | .pxor h pd pa pb => encF 0x03 h pd.toNat pa.toNat pb.toNat 0x02
  | .pandn h pd pa pb => encF 0x03 h pd.toNat pa.toNat pb.toNat 0x03
  | .tmov h td ta => enc1 0 0x04 h [(15, td.toNat), (20, ta.toNat)]
  | .tset h td ra w => enc1 0 0x05 h [(15, td.toNat), (20, ra.toNat), (30, w.toNat)]
  | .tget h rd ta w => enc1 0 0x06 h [(15, rd.toNat), (20, ta.toNat), (30, w.toNat)]
  | .addi h rd ra imm => encI 0x08 h rd.toNat ra.toNat imm.toNat
  | .andi h rd ra imm => encI 0x09 h rd.toNat ra.toNat imm.toNat
  | .ori h rd ra imm => encI 0x0A h rd.toNat ra.toNat imm.toNat
  | .xori h rd ra imm => encI 0x0B h rd.toNat ra.toNat imm.toNat
  | .shli h rd ra imm => encI 0x0C h rd.toNat ra.toNat imm.toNat
  | .shri h rd ra imm => encI 0x0D h rd.toNat ra.toNat imm.toNat
  | .sari h rd ra imm => encI 0x0E h rd.toNat ra.toNat imm.toNat
  | .muli h rd ra imm => encI 0x0F h rd.toNat ra.toNat imm.toNat
  | .ceqi h pd ra imm => encI 0x10 h pd.toNat ra.toNat imm.toNat
  | .clti h pd ra imm => encI 0x11 h pd.toNat ra.toNat imm.toNat
  | .cltui h pd ra imm => encI 0x12 h pd.toNat ra.toNat imm.toNat
  | .imm64 h rd imm => enc2 0 0x13 h [(15, rd.toNat)] [(0, imm.toNat)]
  | .ld h r ra fe off => encM 0x18 h r.toNat ra.toNat fe.toNat off.toNat
  | .st h r ra fe off => encM 0x19 h r.toNat ra.toNat fe.toNat off.toNat
  | .tld h r ra fe off => encM 0x1A h r.toNat ra.toNat fe.toNat off.toNat
  | .tst h r ra fe off => encM 0x1B h r.toNat ra.toNat fe.toNat off.toNat
  | .br h off => enc1 0 0x20 h [(25, off.toNat)]
  | .call h off => enc1 0 0x21 h [(25, off.toNat)]
  | .jr h ra => enc1 0 0x22 h [(20, ra.toNat)]
  | .callr h ra => enc1 0 0x23 h [(20, ra.toNat)]
  | .end_ h => enc1 0 0x24 h []
  | .haulLd h sel da db perm => enc1 1 1 h [(15, sel.toNat), (19, da.toNat), (23, db.toNat), (41, perm.toNat)]
  | .haulSt h sel da db rem ra perm =>
    enc1 1 2 h [(15, sel.toNat), (19, da.toNat), (23, db.toNat), (34, rem.toNat), (36, ra.toNat), (41, perm.toNat)]
  | .haulGth h sel da db dc gd =>
    enc1 1 3 h [(15, sel.toNat), (19, da.toNat), (23, db.toNat), (27, dc.toNat), (31, gd.toNat)]
  | .haulSct h sel da db dc gd =>
    enc1 1 4 h [(15, sel.toNat), (19, da.toNat), (23, db.toNat), (27, dc.toNat), (31, gd.toNat)]
  | .cutMm h f => encMm 2 h f
  | .drsMm h f => encMm 3 h f
  | .wdgCvt h f =>
    enc2 4 1 h [(15, f.wsel.toNat), (19, f.da.toNat), (23, f.db.toNat), (27, f.dc.toNat), (50, f.dual.toNat), (51, f.exp.toNat)]
      [(0, f.tid0.toNat), (32, f.tid1.toNat)]
  | .wdgRot h f =>
    enc1 4 2 h [(15, f.wsel.toNat), (19, f.da.toNat), (23, f.db.toNat), (50, f.rslot.toNat), (54, f.inv.toNat)]
  | .scrMapCopy h sel a d t => encMap 0x00 h sel a.toNat 0 0 d.toNat 0 t
  | .scrMapAbs h sel a d t => encMap 0x07 h sel a.toNat 0 0 d.toNat 0 t
  | .scrMapNeg h sel a d t => encMap 0x08 h sel a.toNat 0 0 d.toNat 0 t
  | .scrMapSqrt h sel a d t => encMap 0x0A h sel a.toNat 0 0 d.toNat 0 t
  | .scrMapRecip h sel a d t => encMap 0x0B h sel a.toNat 0 0 d.toNat 0 t
  | .scrMapRsqrt h sel a d t => encMap 0x0C h sel a.toNat 0 0 d.toNat 0 t
  | .scrMapRsum h sel a d t => encMap 0x10 h sel a.toNat 0 0 d.toNat 0 t
  | .scrMapRssq h sel a d t => encMap 0x11 h sel a.toNat 0 0 d.toNat 0 t
  | .scrMapRmax h sel a d t => encMap 0x12 h sel a.toNat 0 0 d.toNat 0 t
  | .scrMapRamax h sel a d t => encMap 0x13 h sel a.toNat 0 0 d.toNat 0 t
  | .scrMapAdd h sel a b d t => encMap 0x01 h sel a.toNat b.toNat 0 d.toNat 0 t
  | .scrMapSub h sel a b d t => encMap 0x02 h sel a.toNat b.toNat 0 d.toNat 0 t
  | .scrMapMul h sel a b d t => encMap 0x03 h sel a.toNat b.toNat 0 d.toNat 0 t
  | .scrMapMax h sel a b d t => encMap 0x05 h sel a.toNat b.toNat 0 d.toNat 0 t
  | .scrMapMin h sel a b d t => encMap 0x06 h sel a.toNat b.toNat 0 d.toNat 0 t
  | .scrMapFma h sel a b c d t => encMap 0x04 h sel a.toNat b.toNat c.toNat d.toNat 0 t
  | .scrMapScale h sel a d ra t => encMap 0x09 h sel a.toNat 0 0 d.toNat ra.toNat t
  | .scrCurve h sel a b d slot t =>
    enc2 5 2 h [(15, sel.toNat), (19, a.toNat), (23, (b.map BitVec.toNat).getD 0), (31, d.toNat), (50, slot.toNat),
      (55, b.isSome.toNat)] [(0, t.toNat)]
  | .scrDcurve h sel a b g d slot t =>
    enc2 5 3 h [(15, sel.toNat), (19, a.toNat), (23, b.toNat), (27, (g.map fun x => x.1.toNat).getD 0), (31, d.toNat),
      (50, slot.toNat), (55, g.isSome.toNat)] [(0, t.toNat), (32, (g.map fun x => x.2.toNat).getD 0)]
  | .scrSmax h sel a b c d ra mask slot t =>
    enc2 5 4 h [(15, sel.toNat), (19, a.toNat), (23, b.toNat), (27, c.toNat), (31, d.toNat), (35, ra.toNat),
      (40, (mask.map fun x => x.1.toNat).getD 0), (45, (mask.map fun x => x.2.toNat).getD 0), (50, slot.toNat),
      (55, mask.isSome.toNat)] [(0, t.toNat)]
  | .scrTopk h sel a b c comp ra rb key t =>
    enc2 5 5 h [(15, sel.toNat), (19, a.toNat), (23, b.toNat), (27, c.toNat), (31, (comp.map BitVec.toNat).getD 0),
      (35, ra.toNat), (40, rb.toNat), (50, key.toNat), (51, comp.isSome.toNat)] [(0, t.toNat)]
  | .scrOpt h sel a ra norm t0 t1 =>
    enc2 5 6 h [(15, sel.toNat), (19, a.toNat), (35, ra.toNat), (50, norm.toNat)] [(0, t0.toNat), (32, t1.toNat)]
  | .wghRed h da db ra rb axis noise =>
    enc1 6 1 h [(19, da.toNat), (23, db.toNat), (35, ra.toNat), (40, rb.toNat), (50, axis.toNat), (53, noise.toNat)]
  | .wghSparse h da db dc dd ra rb axis =>
    enc1 6 2 h [(19, da.toNat), (23, db.toNat), (27, dc.toNat), (31, dd.toNat), (35, ra.toNat), (40, rb.toNat),
      (50, axis.toNat)]
  | .stkPush h da db ra t => enc2 7 1 h [(19, da.toNat), (23, db.toNat), (35, ra.toNat)] [(0, t.toNat)]
  | .stkPop h da ra rb => enc1 7 2 h [(19, da.toNat), (35, ra.toNat), (40, rb.toNat)]
  | .syncFence h cover gate => enc1 8 1 h [(15, cover.toNat), (23, gate.toNat)]
  | .set_ h ra rb => encSig 0 h ra.toNat rb.toNat
  | .sigAdd h ra rb => encSig 1 h ra.toNat rb.toNat
  | .clear h ra => encSig 2 h ra.toNat 0
  | .full h rd ra gate => encWait 0 h rd.toNat ra.toNat 0 gate.toNat
  | .take h rd ra gate => encWait 1 h rd.toNat ra.toNat 0 gate.toNat
  | .empty h rd ra gate => encWait 2 h rd.toNat ra.toNat 0 gate.toNat
  | .ge h rd ra rb gate => encWait 3 h rd.toNat ra.toNat rb.toNat gate.toNat
  | .syncBar h fabric bid gate => enc1 8 4 h [(15, fabric.toNat), (16, bid.val), (20, gate.toNat)]
  | .stepBegin h ra => enc1 9 1 h [(20, ra.toNat)]
  | .stepVote h rd vote cover => enc1 9 2 h [(15, rd.toNat), (20, voteCode vote), (22, cover.toNat)]
  | .markBegin h id => enc2 0xA 1 h [] [(0, id.toNat)]
  | .markEnd h => enc1 0xA 2 h []
  | .plmEval h => enc1 0xB 1 h []
  | _ => none

end Sys2Proof
end

