-- ==== Sys2Proof/Machine/Bits.lean ====
section
/-!
DEFINITION. Bit fields of register words, sign extension, and little-endian byte strings (spec 00 R7, R8).
-/

namespace Sys2Proof.Machine

/-- The field of `n` bits from bit `lo` of a number (R7). -/
def bits (w lo n : Nat) : Nat := (w >>> lo) % 2 ^ n

/-- The field [lo+n-1:lo] of a register word, as a number (R7). -/
def fld (w : Word) (lo n : Nat) : Nat := bits w.toNat lo n

/-- One bit of a register word. -/
def bit (w : Word) (i : Nat) : Bool := w.getLsbD i

/-- The word with ones in [lo+n-1:lo]. -/
def maskAt (lo n : Nat) : Word := BitVec.ofNat 64 ((2 ^ n - 1) <<< lo)

/-- The register word with field [lo+n-1:lo] replaced by `v` reduced to its width. -/
def setFld (w : Word) (lo n v : Nat) : Word :=
  (w &&& ~~~ maskAt lo n) ||| BitVec.ofNat 64 ((v % 2 ^ n) <<< lo)

/-- A number's low `n` bits read as two's complement. -/
def sext (n v : Nat) : Int := if (v % 2 ^ n) < 2 ^ (n - 1) then (v % 2 ^ n : Nat) else ((v % 2 ^ n : Nat) : Int) - 2 ^ n

/-- The little-endian bytes of a number (R8). -/
def toBytes : Nat → Nat → List Byte
  | 0, _ => []
  | n + 1, v => BitVec.ofNat 8 v :: toBytes n (v / 256)

/-- The number that little-endian bytes spell (R8). -/
def ofBytes : List Byte → Nat
  | [] => 0
  | b :: bs => b.toNat + 256 * ofBytes bs

/-- Number of ones among the low `n` bits. -/
def popcount : Nat → Nat → Nat
  | 0, _ => 0
  | n + 1, v => v % 2 + popcount n (v / 2)

/-- Smallest multiple of `k` at or above `n`. -/
def roundUp (n k : Nat) : Nat := (n + k - 1) / k * k

/-- Ceiling of a quotient. -/
def ceilDiv (n k : Nat) : Nat := (n + k - 1) / k

end Sys2Proof.Machine
end

