-- ==== Sys2Proof/Machine/Num.lean ====
section
/-!
DEFINITION. Exact dyadic numbers with infinities and NaN, and the correctly rounded binary formats built on them
(spec 02 R31-R47, R55-R65): every operation is formed exactly and rounded once.
-/

namespace Sys2Proof.Machine

/-- An exact value: a NaN with its sign, an infinity, or (-1)^neg * m * 2^e. A zero keeps its sign. -/
inductive X
  | nan (neg : Bool)
  | inf (neg : Bool)
  | fin (neg : Bool) (m : Nat) (e : Int)
  deriving DecidableEq, Repr

def X.zero : X := .fin false 0 0

def X.isNan : X → Bool
  | .nan _ => true
  | _ => false

def X.isFinite : X → Bool
  | .fin .. => true
  | _ => false

def X.isZero : X → Bool
  | .fin _ m _ => m == 0
  | _ => false

def X.neg : X → Bool
  | .nan n => n
  | .inf n => n
  | .fin n _ _ => n

/-- The value with its sign flipped. -/
def X.opp : X → X
  | .nan n => .nan (!n)
  | .inf n => .inf (!n)
  | .fin n m e => .fin (!n) m e

/-- The magnitude. -/
def X.abs : X → X
  | .nan _ => .nan false
  | .inf _ => .inf false
  | .fin _ m e => .fin false m e

/-- The value times 2^k. -/
def X.scale (x : X) (k : Int) : X :=
  match x with
  | .fin n m e => .fin n m (e + k)
  | x => x

/-- The exact product; infinity times zero is NaN (R76). -/
def X.mul : X → X → X
  | .nan n, y => .nan (n != y.neg)
  | x, .nan n => .nan (n != x.neg)
  | .inf n, y => if y.isZero then .nan false else .inf (n != y.neg)
  | x, .inf n => if x.isZero then .nan false else .inf (n != x.neg)
  | .fin n m e, .fin n' m' e' => .fin (n != n') (m * m') (e + e')

/-- A signed integer significand over 2^e as an exact value; zero is +0. -/
def X.ofInt (v : Int) (e : Int) : X := .fin (decide (v < 0)) v.natAbs e

/-- The significand of a finite value as a signed integer. -/
def sgnInt (n : Bool) (m : Nat) : Int := if n then - (m : Int) else m

/-- The exact sum; opposite infinities give NaN, and an exact zero is +0 unless both addends are -0. -/
def X.add : X → X → X
  | .nan n, _ => .nan n
  | _, .nan n => .nan n
  | .inf n, .inf n' => if n = n' then .inf n else .nan false
  | .inf n, _ => .inf n
  | _, .inf n => .inf n
  | .fin n m e, .fin n' m' e' =>
    let lo := min e e'
    let v := sgnInt n m * 2 ^ (e - lo).toNat + sgnInt n' m' * 2 ^ (e' - lo).toNat
    if v = 0 then .fin (n && n') 0 lo else X.ofInt v lo

def X.sub (x y : X) : X := x.add y.opp

/-- Number of bits of a significand. -/
def bitLen (m : Nat) : Nat := if m = 0 then 0 else Nat.log2 m + 1

/-- Sign of the exact difference of two finite values: below, equal or above. -/
def X.cmp (x y : X) : Ordering :=
  match x, y with
  | .fin n m e, .fin n' m' e' =>
    let lo := min e e'
    compare (sgnInt n m * 2 ^ (e - lo).toNat) (sgnInt n' m' * 2 ^ (e' - lo).toNat)
  | .inf a, .inf b => if a = b then .eq else if a then .lt else .gt
  | .inf a, _ => if a then .lt else .gt
  | _, .inf b => if b then .gt else .lt
  | _, _ => .eq

def X.lt (x y : X) : Bool := x.cmp y == .lt
def X.le (x y : X) : Bool := x.cmp y != .gt

/-! ## Formats with a binary exponent -/

/-- A format whose magnitude codes are 0, 1, 2, … in value order: `p` explicit significand bits and 2^q between the
smallest values. Integer formats take q = 0 and a p no value reaches. -/
structure Fmt where
  p : Nat
  q : Int
  deriving DecidableEq, Repr

/-- The value of magnitude code `c` (R34, R36, R40-R42). -/
def Fmt.mag (f : Fmt) (c : Nat) : Nat × Int :=
  let eb := c / 2 ^ f.p
  if eb = 0 then (c, f.q) else (2 ^ f.p + c % 2 ^ f.p, f.q + (eb - 1 : Nat))

/-- The largest magnitude code at or below m * 2^e, with the part above it: (code, remainder, divisor), the remainder
counted in parts of the step to the next code. -/
def Fmt.floorMag (f : Fmt) (m : Nat) (e : Int) : Nat × Nat × Nat :=
  if m = 0 then (0, 0, 1) else
  let top := e + (Nat.log2 m : Int)
  let u := max (top - (f.p : Int)) f.q
  let base := (u - f.q).toNat * 2 ^ f.p
  if u ≤ e then (base + m * 2 ^ (e - u).toNat, 0, 1)
  else
    let d := 2 ^ (u - e).toNat
    (base + m / d, m % d, d)

/-- Rounding modes (R55). -/
inductive Rnd | rne | sr (r : Nat) | rz
  deriving DecidableEq, Repr

/-- The magnitude code that a value m * 2^e of the given sign rounds to (R56-R58): under SR the larger of the two
neighbours in signed order is taken when r < floor(2^32 * fraction). -/
def Fmt.roundMag (f : Fmt) (mode : Rnd) (neg : Bool) (m : Nat) (e : Int) : Nat :=
  let (c, rem, d) := f.floorMag m e
  if rem = 0 then c else
  match mode with
  | .rne => if 2 * rem > d then c + 1 else if 2 * rem = d then c + c % 2 else c
  | .sr r =>
    if neg then (if r < 2 ^ 32 * (d - rem) / d then c else c + 1)
    else (if r < 2 ^ 32 * rem / d then c + 1 else c)
  | .rz => c

/-! ## The IEEE formats -/

/-- An IEEE 754 interchange format: explicit significand bits and exponent bits. -/
structure Ieee where
  p : Nat
  w : Nat
  deriving DecidableEq, Repr

def f64I : Ieee := ⟨52, 11⟩
def f32I : Ieee := ⟨23, 8⟩
def f16I : Ieee := ⟨10, 5⟩
def bf16I : Ieee := ⟨7, 8⟩
/-- F8R is E5M2 with infinity (R41), B10 a 6-bit exponent and 3-bit mantissa (R42). -/
def f8rI : Ieee := ⟨2, 5⟩
def b10I : Ieee := ⟨3, 6⟩

def Ieee.bias (f : Ieee) : Int := 2 ^ (f.w - 1) - 1
def Ieee.fmt (f : Ieee) : Fmt := ⟨f.p, 1 - f.bias - f.p⟩
/-- Magnitude code of infinity. -/
def Ieee.infCode (f : Ieee) : Nat := (2 ^ f.w - 1) * 2 ^ f.p
def Ieee.signBit (f : Ieee) : Nat := 2 ^ (f.p + f.w)

/-- The exact value of a code. -/
def Ieee.dec (f : Ieee) (c : Nat) : X :=
  let neg := decide (c / f.signBit % 2 = 1)
  let mag := c % f.signBit
  if mag > f.infCode then .nan neg
  else if mag = f.infCode then .inf neg
  else let (m, e) := f.fmt.mag mag; .fin neg m e

/-- The written NaN pattern: quiet, empty payload (R63). -/
def Ieee.nanCode (f : Ieee) (neg : Bool) : Nat := (if neg then f.signBit else 0) + f.infCode + 2 ^ (f.p - 1)

/-- IEEE round-to-nearest-even of an exact value into the format. -/
def Ieee.enc (f : Ieee) (x : X) : Nat :=
  match x with
  | .nan neg => f.nanCode neg
  | .inf neg => (if neg then f.signBit else 0) + f.infCode
  | .fin neg m e => (if neg then f.signBit else 0) + min (f.fmt.roundMag .rne neg m e) f.infCode

/-- An exact value as the binary32 number nearest to it. -/
def X.f32 (x : X) : X := f32I.dec (f32I.enc x)
/-- An exact value as the binary64 number nearest to it. -/
def X.f64 (x : X) : X := f64I.dec (f64I.enc x)

/-- The one NaN pattern the arrays, Screens and Weighbridge write (R76, R370). -/
def enc32 (x : X) : Nat := if x.isNan then 0x7FC00000 else f32I.enc x
def enc64 (x : X) : Nat := if x.isNan then 0x7FF8000000000000 else f64I.enc x
def dec32 (c : Nat) : X := f32I.dec c
def dec64 (c : Nat) : X := f64I.dec c

/-- The exact quotient with enough bits, and a sticky bit below them, that one rounding to 53 bits or fewer is correct. -/
def X.div : X → X → X
  | .nan n, y => .nan (n != y.neg)
  | x, .nan n => .nan (n != x.neg)
  | .inf n, y => if y.isFinite then .inf (n != y.neg) else .nan false
  | x, .inf n => .fin (x.neg != n) 0 0
  | .fin n m e, .fin n' m' e' =>
    if m' = 0 then (if m = 0 then .nan false else .inf (n != n'))
    else
      let k := 64 + bitLen m'
      let num := m * 2 ^ k
      .fin (n != n') (2 * (num / m') + (if num % m' = 0 then 0 else 1)) (e - e' - (k : Int) - 1)

/-- Integer square root by successive bits, from 2^(b-1) down. -/
def isqrt : Nat → Nat → Nat → Nat
  | 0, _, r => r
  | b + 1, n, r => isqrt b n (if (r + 2 ^ b) * (r + 2 ^ b) ≤ n then r + 2 ^ b else r)

/-- The square root with a sticky bit; -0 gives -0 and a negative value NaN. -/
def X.sqrt : X → X
  | .nan n => .nan n
  | .inf n => if n then .nan false else .inf false
  | .fin n m e =>
    if m = 0 then .fin n 0 0
    else if n then .nan false
    else
      let k : Nat := 130 + (if (e % 2 = 0) then 0 else 1)
      let v := m * 2 ^ k
      let r := isqrt (bitLen v / 2 + 1) v 0
      .fin false (2 * r + (if r * r = v then 0 else 1)) ((e - (k : Int)) / 2 - 1)

def X.max (x y : X) : X := if x.lt y then y else x

/-- The exact sum of a list, from +0. -/
def X.sum (xs : List X) : X := xs.foldl X.add X.zero

end Sys2Proof.Machine
end

