-- ==== Sys2Proof/Machine/Formats.lean ====
section
/-!
DEFINITION. The fourteen number formats: widths, element values, block exponents, and the narrowing of binary32 values
with its events (spec 02 R31-R65, 05 R115 for the key function).
-/

namespace Sys2Proof.Machine

/-! Format codes (R31). -/
def Q4F : Nat := 0
def Q4I : Nat := 1
def Q4T : Nat := 2
def Q3T : Nat := 3
def Q2T : Nat := 4
def F8E : Nat := 5
def F8R : Nat := 6
def B10 : Nat := 7
def BF16 : Nat := 8
def F16 : Nat := 9
def F32 : Nat := 10
def M8L : Nat := 11
def M8Q : Nat := 12
def I32 : Nat := 13

/-- Element width in bits (R31). -/
def fmtWidth (f : Nat) : Nat := [4, 4, 4, 3, 2, 8, 8, 10, 16, 16, 32, 8, 8, 32].getD f 0

/-- Table formats (R37). -/
def isTable (f : Nat) : Bool := f == Q4T || f == Q3T || f == Q2T
/-- Entries a table format uses (R39). -/
def tableSize (f : Nat) : Nat := if f = Q4T then 16 else if f = Q3T then 8 else 4
/-- Formats without a tensor scale (R46, R49). -/
def isWide (f : Nat) : Bool := f == BF16 || f == F16 || f == F32
/-- Formats that must have a block size (R51). -/
def mustBlock (f : Nat) : Bool := f ≤ 4 || f == M8L || f == M8Q
/-- Formats that may have a block size (R51). -/
def mayBlock (f : Nat) : Bool := mustBlock f || f == F8E || f == F8R || f == B10
/-- Block size selected by BSIZE (R51). -/
def blockSize (bs : Nat) : Nat := if bs = 0 then 0 else 2 ^ (bs + 3)

/-- The magnitude codes of the fixed narrow formats: Q4F, Q4I, F8E, F8R, B10, M8L, M8Q and the wide ones. -/
def fmtOf (f : Nat) : Fmt :=
  if f = Q4F then ⟨1, -1⟩ else if f = F8E then ⟨3, -9⟩ else if f = F8R then f8rI.fmt
  else if f = B10 then b10I.fmt else if f = BF16 then bf16I.fmt else if f = F16 then f16I.fmt
  else if f = F32 then f32I.fmt else ⟨64, 0⟩

/-- Largest finite magnitude code (R31). -/
def vmaxCode (f : Nat) : Nat :=
  if f = Q4F then 7 else if f = Q4I then 7 else if f = F8E then 0x7E else if f = F8R then 0x7B
  else if f = B10 then 0x1F7 else if f = BF16 then 0x7F7F else if f = F16 then 0x7BFF
  else if f = F32 then 0x7F7FFFFF else if f = M8L then 127 else 255

/-- Weight of the sign bit of a sign-magnitude format. -/
def signWeight (f : Nat) : Nat :=
  if f = Q4F then 8 else if f = F8E then 0x80 else if f = F8R then 0x80 else if f = B10 then 0x200
  else if f = BF16 then 0x8000 else if f = F16 then 0x8000 else 0x80000000

/-- The written NaN of a format (R40-R42, R63). -/
def nanOf (f : Nat) (neg : Bool) : Nat :=
  (if neg then signWeight f else 0) +
    (if f = F8E then 0x7F else if f = F8R then 0x7E else if f = B10 then 0x1FC else if f = BF16 then 0x7FC0
     else if f = F16 then 0x7E00 else 0x7FC00000)

/-- The written infinity; F8E has none and takes its NaN (R63). -/
def infOf (f : Nat) (neg : Bool) : Nat :=
  if f = F8E then nanOf f neg else
  (if neg then signWeight f else 0) +
    (if f = F8R then 0x7C else if f = B10 then 0x1F8 else if f = BF16 then 0x7F80 else if f = F16 then 0x7C00
     else 0x7F800000)

/-- A value table: its F16 entries as codes (R37). -/
abbrev VTable := List Nat

/-- The value of a table entry. -/
def entryX (t : VTable) (i : Nat) : X := f16I.dec (t.getD i 0)

/-- element(code): the value of a code before any scale (R34, R36, R39-R42, R44, R46). -/
def elemX (f : Nat) (t : VTable) (code : Nat) : X :=
  let c := code % 2 ^ fmtWidth f
  if f = Q4F then (let (m, e) := (fmtOf Q4F).mag (c % 8); .fin (decide (8 < c)) m e)
  else if f = Q4I then (if c = 8 then X.zero else if c < 8 then .fin false c 0 else .fin true (16 - c) 0)
  else if isTable f then entryX t c
  else if f = F8E then
    (if c % 128 = 127 then .nan (decide (128 ≤ c))
     else let (m, e) := (fmtOf F8E).mag (c % 128); .fin (decide (128 ≤ c)) m e)
  else if f = F8R then f8rI.dec c
  else if f = B10 then b10I.dec c
  else if f = BF16 then bf16I.dec c
  else if f = F16 then f16I.dec c
  else if f = F32 then f32I.dec c
  else if f = M8L then (if c = 128 then X.zero else if c < 128 then .fin false c 0 else .fin true (256 - c) 0)
  else .fin false c 0

/-- An element with its block exponent and without its tensor scale: zero in a zero block, NaN in a non-finite one (R48),
M8Q in the square (R45). `se` is 127 where the tensor has no block exponent (R49). -/
def blkX (f : Nat) (t : VTable) (code se : Nat) : X :=
  if se = 0 then X.zero
  else if se = 255 then .nan false
  else
    let v := (elemX f t code).scale ((se : Int) - 127)
    if f = M8Q then v.mul v else v

/-- Reading a narrow element as binary32 (R65): the value of R49, rounded once, and whether it saturated. In a tensor with a block
size a code of zero stands for zero, whatever its sign bit (R35). -/
def readX (f : Nat) (blocked : Bool) (t : VTable) (code se : Nat) (scale : X) : X × Bool :=
  let v := blkX f t code se
  let v := if blocked && !isTable f && v.isZero then X.zero else v
  let x := if isWide f then v else v.mul scale
  match x with
  | .fin n _ _ =>
    let r := x.f32
    if r.isFinite then (r, false) else (f32I.dec ((if n then 0x80000000 else 0) + 0x7F7FFFFF), true)
  | x => (x, false)

/-! ## Stochastic rounding -/

def kdfK1 : Nat := 0xC2B17E355A0D93E7
def kdfK2 : Nat := 0x8F36D4C127AB0E59

/-- kdf(a, b): the mixing function of R57 and R115, all 64 bits. -/
def kdf (a b : Word) : Word :=
  let x := a ^^^ (b * BitVec.ofNat 64 kdfK1)
  let x := x ^^^ (x >>> 31)
  let x := x * BitVec.ofNat 64 kdfK2
  let x := x ^^^ (x >>> 29)
  let x := x * BitVec.ofNat 64 kdfK1
  x ^^^ (x >>> 32)

/-- The rounding mode of an element: SR draws r from the key and the element's index (R57). -/
def rndOf (mode : Nat) (key : Word) (i : Nat) : Rnd :=
  if mode = 1 then .sr ((kdf key (BitVec.ofNat 64 i)).toNat % 2 ^ 32) else if mode = 2 then .rz else .rne

/-! ## Events -/

/-- Event counts of a Tally (R64, R140): NONFIN, SAT, UFZ, VAN, ZBLK, ELEM, NZ and the largest finite magnitude. -/
structure Ev where
  nonfin : Nat
  sat : Nat
  ufz : Nat
  van : Nat
  zblk : Nat
  elem : Nat
  nz : Nat
  amax : Nat
  deriving DecidableEq, Repr

def Ev.none : Ev := ⟨0, 0, 0, 0, 0, 0, 0, 0⟩
def Ev.plus (a b : Ev) : Ev :=
  ⟨a.nonfin + b.nonfin, a.sat + b.sat, a.ufz + b.ufz, a.van + b.van, a.zblk + b.zblk, a.elem + b.elem, a.nz + b.nz,
    Nat.max a.amax b.amax⟩

/-! ## Narrowing -/

/-- How a tensor is written (R54): format, block size in elements (0 for none), RND, INF, value table, tensor scale,
stochastic-rounding key. -/
structure Enc where
  fmt : Nat
  bsize : Nat
  rnd : Nat
  inf : Bool
  table : VTable
  scale : X
  key : Word
  deriving DecidableEq, Repr

/-- Indices of the table entries at or below z, highest first, among the first n. -/
def tableFloor (t : VTable) (z : X) : Nat → Option Nat
  | 0 => none
  | n + 1 => if (entryX t n).le z then some n else tableFloor t z n

/-- Rounding into a value table (R56-R59): (code, saturated). -/
def roundTable (t : VTable) (n : Nat) (mode : Rnd) (z : X) : Nat × Bool :=
  match tableFloor t z n with
  | none => (0, true)
  | some a =>
    if (entryX t a).cmp z == .eq then (a, false)
    else if a + 1 = n then (a, true)
    else
      let va := entryX t a
      let vb := entryX t (a + 1)
      let lo := z.sub va
      let hi := vb.sub z
      let nearest := match lo.cmp hi with
        | .lt => a
        | .gt => a + 1
        | .eq => if a % 2 = 0 then a else a + 1
      match mode with
      | .rne => (nearest, false)
      | .sr r =>
        match lo, vb.sub va with
        | .fin _ m e, .fin _ m' e' =>
          let k := min e e'
          let num := m * 2 ^ (e - k).toNat
          let den := m' * 2 ^ (e' - k).toNat
          (if r < 2 ^ 32 * num / den then a + 1 else a, false)
        | _, _ => (a, false)
      | .rz =>
        if X.zero.le va then (a, false)
        else if vb.le X.zero then (a + 1, false)
        else if z.isZero then (nearest, false)
        else (if z.neg then a else a + 1, false)

/-- Vmax of a format as an exact value (R31, R39). -/
def vmaxX (f : Nat) (t : VTable) : X :=
  if isTable f then (List.range (tableSize f)).foldl (fun m i => X.max m (entryX t i).abs) X.zero
  else let (m, e) := (fmtOf f).mag (vmaxCode f); .fin false m e

/-- The code of a signed magnitude code: two's complement for Q4I and M8L, none for M8Q, a sign bit elsewhere. `keepZero`
keeps the sign of zero (R35, R62). -/
def signCode (f : Nat) (keepZero neg : Bool) (c : Nat) : Nat :=
  if f = Q4I then (if neg && c != 0 then 16 - c else c)
  else if f = M8L then (if neg && c != 0 then 256 - c else c)
  else if f = M8Q then c
  else if c = 0 && !keepZero then 0
  else (if neg then signWeight f else 0) + c

/-- Round one finite scaled value into its format under the limit rules (R56-R60): (code, saturated, made infinite).
`honour` is whether the INF bit acts. -/
def roundElem (f : Nat) (t : VTable) (keepZero honour : Bool) (mode : Rnd) (z : X) : Nat × Bool × Bool :=
  if isTable f then (let (c, s) := roundTable t (tableSize f) mode z; (c, s, false))
  else
    match z with
    | .fin neg m e =>
      let vmax := vmaxX f t
      if (vmax.cmp (X.fin false m e)) == .lt then
        if honour then
          match mode with
          | .rz => (signCode f keepZero neg (vmaxCode f), false, false)
          | _ =>
            let (vm, ve) := (fmtOf f).mag (vmaxCode f)
            let threshold := (X.fin false (2 * vm + 1) (ve - 1))
            if threshold.le (X.fin false m e) then (infOf f neg, false, true)
            else (signCode f keepZero neg (vmaxCode f), false, false)
        else (signCode f keepZero neg (vmaxCode f), true, false)
      else (signCode f keepZero neg ((fmtOf f).roundMag mode neg m e), false, false)
    | .inf neg => (infOf f neg, false, true)
    | .nan neg => (nanOf f neg, false, false)

/-- Smallest integer e with m * 2^me <= vmax * 2^e (R54). -/
def blockExp (x vmax : X) : Int :=
  match x, vmax with
  | .fin _ m e, .fin _ vm ve =>
    let est := (e + (Nat.log2 m : Int)) - (ve + (Nat.log2 vm : Int))
    if (X.fin false m e).le (X.fin false vm (ve + est)) then est else est + 1
  | _, _ => 0

/-- inv = f32(1 / s) (R54). -/
def invScale (s : X) : X := ((X.fin false 1 0).div s).f32

/-- The scaled value y of R54 (the square root of R45 for M8Q), with whether it raised SAT. -/
def scaleElem (f : Nat) (honour : Bool) (inv x : X) : X × Bool :=
  let p := (x.mul inv)
  let y := p.f32
  let (y, sat) :=
    if y.isFinite then (y, false)
    else if honour then (X.inf x.neg, false)
    else (f32I.dec ((if x.neg then 0x80000000 else 0) + 0x7F7FFFFF), true)
  if f = M8Q then
    (if x.neg then (X.zero, !x.isZero) else (y.sqrt.f32, sat))
  else (y, sat)

/-- Largest finite magnitude among the inputs, as a binary32 code (R140); a negative M8Q input counts as zero. -/
def amaxOf (f : Nat) (xs : List X) : Nat :=
  xs.foldl (fun a x => if x.isFinite && !(f == M8Q && x.neg) then Nat.max a (f32I.enc x.abs) else a) 0

/-- One element of a block as it was narrowed: its code, and whether it saturated, came out zero, was lost from a non-zero
input, and lost below the block's range. -/
structure ElemOut where
  code : Nat
  sat : Bool
  zero : Bool
  lost : Bool
  under : Bool
  deriving DecidableEq, Repr

/-- One block narrowed (R54): inputs with their element indices, tail slots left out. Answers SE8, the codes and the events. -/
def encBlock (c : Enc) (xs : List (Nat × X)) : Nat × List Nat × Ev :=
  let base : Ev := { Ev.none with elem := xs.length, amax := amaxOf c.fmt (xs.map Prod.snd) }
  if xs.any (fun e => !e.2.isFinite) then
    (255, xs.map fun _ => 0, { base with nonfin := (xs.filter fun e => !e.2.isFinite).length })
  else
    let inv := invScale c.scale
    let ys := xs.map fun e => (e.1, e.2, scaleElem c.fmt false inv e.2)
    let m := ys.foldl (fun m e => X.max m e.2.2.1.abs) X.zero
    let sat0 := (ys.filter fun e => e.2.2.2).length
    if m.isZero then
      (0, xs.map fun _ => 0,
        { base with sat := sat0, zblk := 1, ufz := (ys.filter fun e => !e.2.1.isZero && !e.2.2.2).length })
    else
      let e0 := blockExp m (vmaxX c.fmt c.table)
      let e := min (max e0 (-126)) 127
      let rs : List ElemOut := ys.map fun e1 =>
        let (code, s, _) := roundElem c.fmt c.table false false (rndOf c.rnd c.key e1.1) (e1.2.2.1.scale (-e))
        let zero := (elemX c.fmt c.table code).isZero
        let lost := !e1.2.1.isZero && zero && !(s || e1.2.2.2) && !(c.fmt == M8Q && e1.2.1.neg)
        ⟨code, s || e1.2.2.2, zero, lost, lost && (e1.2.2.1.isZero || e0 < -126)⟩
      let ev := { base with
        sat := (rs.filter fun (r : ElemOut) => r.sat).length
        ufz := (rs.filter fun (r : ElemOut) => r.under).length
        van := (rs.filter fun (r : ElemOut) => r.lost && !r.under).length }
      if rs.all (fun (r : ElemOut) => r.zero) then (0, rs.map fun _ => 0, { ev with zblk := 1 })
      else ((e + 127).toNat, rs.map fun (r : ElemOut) => r.code, { ev with nz := (rs.filter fun (r : ElemOut) => !r.zero).length })

/-- One element narrowed into a tensor without a block size (R46, R54, R60-R63): its code and events. -/
def encPlain (c : Enc) (i : Nat) (x : X) : Nat × Ev :=
  let base : Ev := { Ev.none with elem := 1, amax := if isWide c.fmt then 0 else amaxOf c.fmt [x] }
  let honour := c.inf && (c.fmt == F8R || c.fmt == B10 || isWide c.fmt)
  match x with
  | .nan neg => (nanOf c.fmt neg, { base with nonfin := 1 })
  | .inf neg => (infOf c.fmt neg, { base with nonfin := 1 })
  | .fin neg _ _ =>
    if c.fmt = F32 then (f32I.enc x, { base with nz := if x.isZero then 0 else 1 })
    else
      let (y, sat0) := if isWide c.fmt then (x, false) else scaleElem c.fmt honour (invScale c.scale) x
      let (code, sat, inf) :=
        match y with
        | .inf _ =>
          (match rndOf c.rnd c.key i with
           | .rz => (signCode c.fmt true neg (vmaxCode c.fmt), false, false)
           | _ => (infOf c.fmt neg, false, true))
        | y => roundElem c.fmt c.table true honour (rndOf c.rnd c.key i) y
      let zero := (elemX c.fmt c.table code).isZero
      (code, { base with
        sat := if sat || sat0 then 1 else 0
        nonfin := if inf then 1 else 0
        ufz := if !x.isZero && zero && !(sat || sat0) then 1 else 0
        nz := if zero || inf then 0 else 1 })

end Sys2Proof.Machine
end

