-- ==== Sys2Proof/Machine/ArrayMath.lean ====
section
/-!
DEFINITION. The arithmetic of the Cutters and Dressers: segments, trees, pass modes and the hidden checksum columns
(spec 03 R75, R76; 04 R94, R95, R98, R99; 16 R440, R441).
-/

namespace Sys2Proof.Machine

/-- r4: the nearest value with at most four significant bits, ties to an even fourth bit (R94). -/
def r4 : X → X
  | .fin n m e =>
    let l := bitLen m
    if l ≤ 4 then .fin n m e
    else
      let k := l - 4
      let c := m / 2 ^ k
      let rem := m % 2 ^ k
      let up := decide (2 * rem > 2 ^ k) || (2 * rem == 2 ^ k && c % 2 == 1)
      .fin n (if up then c + 1 else c) (e + (k : Int))
  | x => x

/-- The parts of an element under a pass mode (R98). -/
def parts (passes : Nat) (split table : Bool) (v : X) : List X :=
  if passes = 0 then (if table then [r4 v] else [v])
  else
    let h := r4 v
    if split then [h, r4 (v.sub h)] else [h]

/-- The element product of a Dresser (R98); a Cutter's is the plain product. -/
def dresserProd (passes : Nat) (spl : Bool) (tableA tableB : Bool) (a b : X) : X :=
  if !a.isFinite || !b.isFinite then a.mul b
  else
    let pa := parts passes (passes == 2 || (passes == 1 && !spl)) tableA a
    let pb := parts passes (passes == 2 || (passes == 1 && spl)) tableB b
    if passes = 2 then
      let ah := pa.getD 0 X.zero
      let al := pa.getD 1 X.zero
      let bh := pb.getD 0 X.zero
      let bl := pb.getD 1 X.zero
      X.sum [ah.mul bh, ah.mul bl, al.mul bh]
    else X.sum (pa.flatMap fun x => pb.map fun y => x.mul y)

/-- Consecutive pairs added in binary32 (one level of the tree of R75). -/
def treeLevel : List X → List X
  | a :: b :: rest => (a.add b).f32 :: treeLevel rest
  | xs => xs

/-- `n` levels of the tree. -/
def tree : Nat → List X → List X
  | 0, xs => xs
  | n + 1, xs => tree n (treeLevel xs)

/-- The exact segment sums of 16 products each, scaled by sab and rounded once, then zeros up to `segs` segments (R75). -/
def segments : Nat → X → List X → List X
  | 0, _, _ => []
  | n + 1, sab, ps =>
    (if ps.isEmpty then X.zero else ((X.sum (ps.take 16)).mul sab).f32) :: segments n sab (ps.drop 16)

/-- The tree result t of one row and column: 32 segments and five levels for a Cutter, 16 and four for a Dresser. -/
def treeResult (dresser : Bool) (sab : X) (ps : List X) : X :=
  if dresser then (tree 4 (segments 16 sab ps)).getD 0 X.zero else (tree 5 (segments 32 sab ps)).getD 0 X.zero

/-- The exact value of a finite product times an exact scale, as the checksum columns carry it (R441). -/
def checkRow (ts : List X) (prods : List X) (absProds : List X) (sab : X) : Bool × X :=
  let s := (X.sum ts).f64
  let chk := ((X.sum prods).mul sab).f64
  let a := ((X.sum absProds).mul sab.abs).f64
  if s.isFinite && chk.isFinite && a.isFinite then
    let d := ((s.sub chk).f64).abs
    (d.le ((a.scale (-17)).f64), d)
  else (true, X.zero)

end Sys2Proof.Machine
end

