-- ==== Sys2Proof/Config.lean ====
section
/-!
DEFINITION. What the specification leaves without a value (opaque constants: no proof can see them), and what one
part fixes for its life (the order code, R1).
-/

namespace Sys2Proof.Config

/-- A 64-bit value the specification leaves open, drawn at the n-th such event (assumption 4, DESIGN CHOICE). -/
opaque freeWord : Nat → Word
/-- A 128-bit value the specification leaves open (assumption 4, DESIGN CHOICE). -/
opaque freeLine : Nat → Line16
/-- The choice of accepted words that a partly refused access performed (R252, assumption 5, DESIGN CHOICE).
(assumption 4, DESIGN CHOICE) -/
opaque freeBool : Nat → Bool
/-- The SHA-512 digest of a byte string; the specification names the function and gives no definition
(R406, R512, assumption 6, DESIGN CHOICE). -/
opaque sha512 : List Byte → BitVec 512
/-- The 256-bit secret that the Hub's PUF gives with helper data (R524, assumption 6, DESIGN CHOICE). -/
opaque pufSecret : List Byte → BitVec 256
/-- The Ed25519 signature that the key of a seed makes over a message (R524, R526, assumption 6, DESIGN CHOICE). -/
opaque sign : BitVec 256 → List Byte → List Byte
/-- The bytes of content whose layout the specification does not give: the answers of mailbox messages by number (R532), and from
0x100 what the measurement blocks digest (R527, assumption 6, DESIGN CHOICE). -/
opaque layout : Nat → List Word → List Byte

/-- The carrier's slot number as the SLOT_ID pins show it (18 R492, R532, assumption 6, DESIGN CHOICE). -/
opaque slotId : BitVec 3
/-- The Ed25519 public key of a seed, and what GET_INFO shows in its place without one (R525, R532, assumption 6, DESIGN CHOICE). -/
opaque publicKey : Option (BitVec 256) → BitVec 256

/-- Bulk rows installed on the AETQ16-768L, the order code this model takes (R1, R249, assumption 1, DESIGN CHOICE). -/
def installedRows : Nat := 96

end Sys2Proof.Config
end

