-- ==== Sys2Proof/Machine/RegMap.lean ====
section
/-!
DEFINITION. The register map of the module as data: every register of the Bench control blocks (21 R563) and of the
Hub control block (21 R564), each with its offset, its instances, who writes it, and its fields with access kind and
reset value as the chapters lay them down (10 R304-R309 and the other register rules named at each row). A register's
key is its offset from 0xFF00_0000_0000 in a Bench's block, so that Bench b's begins at b * 0x0100_0000, and in the Hub's block
0x1000_0000 more than its offset there.
-/

namespace Sys2Proof.Machine

/-- The access kinds of R10; `rwi` is an RW field that only INSTALLER writes reach (R436, R505). -/
inductive Acc | ro | rw | w1c | w1s | wo | rc | rwi
  deriving DecidableEq, Repr

/-- The "Written by" column of R563 and R564. -/
inductive Writer | foreman | foremanHost | host | partition | ownerHost | queueHost | installer | none | special
  deriving DecidableEq, Repr

/-- A field's place: lowest bit and width (R7). -/
structure Fld where
  lo : Nat
  w : Nat
  deriving DecidableEq, Repr

/-- One field of a register map. -/
structure FieldRow where
  f : Fld
  acc : Acc
  reset : Nat
  deriving DecidableEq, Repr

/-- One register, or one family of registers: `idx` lists (stride, instances), outermost first. `counter` marks a 64-bit counter,
whose halves are read together (R13): those of R542's set, and of the other counts DB_DROPPED, ERR_LOST and FAB_DROP; PLM_LOSS_N
and OPT_PART.COUNT are taken as no counters. (assumption 75, DESIGN CHOICE) -/
structure RegRow where
  name : String
  base : Nat
  idx : List (Nat × Nat)
  writer : Writer
  counter : Bool
  fields : List FieldRow
  deriving DecidableEq, Repr

/-- A row of the map, its fields written as (lowest bit, width, access, reset). -/
def mkRow (name : String) (base : Nat) (idx : List (Nat × Nat)) (w : Writer) (c : Bool)
    (fs : List (Nat × Nat × Acc × Nat)) : RegRow :=
  ⟨name, base, idx, w, c, fs.map fun e => ⟨⟨e.1, e.2.1⟩, e.2.2.1, e.2.2.2⟩⟩

/-- Device address 0xFF00_0000_0000, where the control blocks begin (R557). -/
def ctrlBase : Nat := 0xFF0000000000
/-- Device address 0xFF10_0000_0000, where the Hub control block begins (R557). -/
def hubBase : Nat := 0xFF1000000000
/-- The key at which the Hub block begins. -/
def hubKey : Nat := 0x10000000

/-- Rows 0 to 19 of the register map. -/
def regRows0 : List RegRow := [
  -- 10 R304
  mkRow "FM_CTL" 0x0 [(0x1000000, 16)] .host false
    [(0, 1, .wo, 0), (1, 1, .wo, 0), (2, 1, .wo, 0), (3, 1, .rw, 0), (16, 15, .rw, 0)],
  -- 10 R305
  mkRow "FM_STAT" 0x8 [(0x1000000, 16)] .host false
    [(0, 3, .ro, 0), (3, 1, .w1c, 0), (4, 1, .w1c, 0), (8, 4, .ro, 0), (12, 4, .ro, 0), (16, 15, .ro, 0)],
  -- 10 R306
  mkRow "FM_FAULT" 0x10 [(0x1000000, 16)] .host false
    [(0, 8, .ro, 0), (8, 1, .ro, 0), (9, 3, .ro, 0), (12, 4, .ro, 0), (16, 15, .ro, 0), (32, 32, .ro, 0)],
  -- 10 R307
  mkRow "STEP_STATE" 0x20 [(0x1000000, 16)] .none false
    [(0, 48, .ro, 0), (48, 4, .ro, 0), (52, 3, .ro, 0)],
  -- 10 R307
  mkRow "MARK_STAT" 0x28 [(0x1000000, 16)] .none false
    [(0, 32, .ro, 0), (32, 4, .ro, 0)],
  -- 08 R239
  mkRow "BMEM_CTL" 0x20000 [(0x1000000, 16)] .foreman false
    [(0, 16, .rw, 0), (16, 1, .rw, 1)],
  -- 08 R240
  mkRow "BMEM_STAT" 0x20008 [(0x1000000, 16)] .foreman false
    [(0, 1, .w1c, 0), (1, 1, .w1c, 0), (2, 1, .w1c, 0), (3, 1, .w1c, 0), (4, 1, .w1c, 0)],
  -- 08 R241
  mkRow "HAUL_CTL" 0x30000 [(0x1000000, 16)] .none false
    [(0, 8, .ro, 0)],
  -- 08 R242
  mkRow "HAUL_STAT" 0x30100 [(0x1000000, 16), (0x40, 8)] .none false
    [(0, 1, .ro, 0), (1, 1, .ro, 0), (2, 1, .ro, 0), (16, 5, .ro, 0)],
  -- 03 R88
  mkRow "CUT_CTL" 0x40000 [(0x1000000, 16)] .foreman false
    [(0, 1, .rw, 0), (1, 1, .ro, 0), (2, 1, .ro, 0), (8, 4, .ro, 0)],
  -- 03 R89
  mkRow "CUT_STAT" 0x40100 [(0x1000000, 16), (0x40, 4)] .none false
    [(0, 1, .ro, 0), (1, 1, .ro, 0), (2, 1, .ro, 0), (3, 1, .ro, 0), (4, 1, .ro, 0), (5, 1, .ro, 0), (16, 5, .ro, 0)],
  -- 04 R107
  mkRow "DRS_CTL" 0x50000 [(0x1000000, 16)] .none false
    [(0, 8, .ro, 0)],
  -- 04 R108
  mkRow "DRS_STAT" 0x50100 [(0x1000000, 16), (0x40, 8)] .none false
    [(0, 1, .ro, 0), (1, 1, .ro, 0), (2, 1, .ro, 0), (3, 1, .ro, 0), (4, 1, .ro, 0), (5, 1, .ro, 0), (6, 2, .ro, 0), (16, 5, .ro, 0)],
  -- 05 R130
  mkRow "WDG_CTL" 0x60000 [(0x1000000, 16)] .none false
    [(0, 4, .ro, 0)],
  -- 05 R131
  mkRow "WDG_STAT" 0x60100 [(0x1000000, 16), (0x40, 4)] .none false
    [(0, 1, .ro, 0), (1, 1, .ro, 0), (2, 1, .ro, 0), (16, 5, .ro, 0)],
  -- 05 R132
  mkRow "WDG_JOB_SEED" 0x60200 [(0x1000000, 16)] .foreman false
    [(0, 64, .rw, 0)],
  -- 05 R133
  mkRow "VTAB_CMD" 0x60300 [(0x1000000, 16)] .foreman false
    [(0, 6, .wo, 0), (8, 2, .wo, 0), (16, 1, .wo, 0), (17, 1, .wo, 0)],
  -- 05 R134
  mkRow "VTAB_VALID" 0x60308 [(0x1000000, 16)] .foreman false
    [(0, 64, .ro, 0)],
  -- 05 R135
  mkRow "WDG_ROT" 0x60408 [(0x1000000, 16), (0x8, 15)] .foreman false
    [(0, 3, .rw, 0), (4, 3, .rw, 0), (7, 1, .rw, 0), (8, 32, .rw, 0)],
  -- 05 R136
  mkRow "VTAB_ENTRY" 0x61000 [(0x1000000, 16), (0x40, 64), (0x8, 4)] .foreman false
    [(0, 64, .rw, 0)]]

/-- Rows 20 to 39 of the register map. -/
def regRows1 : List RegRow := [
  -- 05 R136
  mkRow "VTAB_INFO" 0x61020 [(0x1000000, 16), (0x40, 64)] .foreman false
    [(0, 1, .ro, 0), (8, 2, .ro, 0)],
  -- 07 R196
  mkRow "SCR_CTL" 0x70000 [(0x1000000, 16)] .none false
    [(0, 2, .ro, 0)],
  -- 07 R197
  mkRow "SCR_STAT" 0x70100 [(0x1000000, 16), (0x40, 2)] .none false
    [(0, 1, .ro, 0), (1, 1, .ro, 0), (8, 4, .ro, 0), (16, 5, .ro, 0)],
  -- 07 R198
  mkRow "CRV_CMD" 0x70300 [(0x1000000, 16)] .foreman false
    [(0, 5, .wo, 0), (16, 1, .wo, 0), (17, 1, .wo, 0)],
  -- 07 R199
  mkRow "CRV_VALID" 0x70308 [(0x1000000, 16)] .foreman false
    [(0, 32, .ro, 0)],
  -- 07 R200
  mkRow "CRV_HDR0" 0x71000 [(0x1000000, 16), (0x20, 32)] .foreman false
    [(0, 32, .rw, 0), (32, 8, .rw, 0), (40, 4, .rw, 0), (44, 5, .rw, 0), (49, 1, .rw, 0)],
  -- 07 R200
  mkRow "CRV_HDR1" 0x71008 [(0x1000000, 16), (0x20, 32)] .foreman false
    [(0, 32, .rw, 0), (32, 32, .rw, 0)],
  -- 07 R200
  mkRow "CRV_HDR2" 0x71010 [(0x1000000, 16), (0x20, 32)] .foreman false
    [(0, 32, .rw, 0), (32, 32, .rw, 0)],
  -- 08 R243
  mkRow "STK_SRAM_TIER" 0x80008 [(0x1000000, 16)] .foreman false
    [(0, 13, .rw, 0), (16, 14, .rw, 0)],
  -- 08 R243
  mkRow "STK_BULK_TIER" 0x80010 [(0x1000000, 16)] .foreman false
    [(0, 32, .rw, 0), (32, 24, .rw, 0)],
  -- 08 R244
  mkRow "STK_STATUS" 0x80018 [(0x1000000, 16)] .foreman false
    [(0, 1, .w1c, 0), (1, 1, .w1c, 0), (16, 13, .ro, 0), (32, 14, .ro, 0)],
  -- 08 R245
  mkRow "STK_DROP" 0x80100 [(0x1000000, 16), (0x8, 16)] .foreman false
    [(0, 10, .rw, 0), (15, 1, .rw, 0), (16, 10, .rw, 0), (31, 1, .rw, 0), (32, 10, .rw, 0), (47, 1, .rw, 0), (48, 10, .rw, 0), (63, 1, .rw, 0)],
  -- 08 R246
  mkRow "STK_RECOMP" 0x80200 [(0x1000000, 16), (0x8, 16)] .none false
    [(0, 64, .ro, 0)],
  -- 13 R383
  mkRow "WGH_CTL" 0x90000 [(0x1000000, 16)] .foreman false
    [(0, 5, .rw, 8), (8, 16, .rw, 0), (24, 16, .rw, 16)],
  -- 13 R384
  mkRow "WGH_STAGE" 0x90008 [(0x1000000, 16)] .foreman false
    [(0, 13, .rw, 0), (16, 14, .rw, 0)],
  -- 13 R385
  mkRow "WGH_STAT" 0x90010 [(0x1000000, 16)] .foreman false
    [(0, 5, .ro, 0), (8, 1, .ro, 0), (9, 1, .w1c, 0), (10, 1, .w1c, 0), (11, 1, .w1c, 0), (12, 1, .w1c, 0), (13, 1, .w1c, 0), (32, 14, .ro, 0)],
  -- 13 R386
  mkRow "WGH_RESID" 0x90018 [(0x1000000, 16)] .foreman false
    [(0, 1, .ro, 0), (16, 48, .ro, 0)],
  -- 13 R387
  mkRow "WGH_NOISE_P" 0x90020 [(0x1000000, 16)] .foreman false
    [(0, 64, .ro, 0)],
  -- 13 R387
  mkRow "WGH_NOISE_Q" 0x90028 [(0x1000000, 16)] .foreman false
    [(0, 64, .ro, 0)],
  -- 13 R387
  mkRow "WGH_NOISE_INFO" 0x90030 [(0x1000000, 16)] .foreman false
    [(0, 16, .ro, 0), (16, 48, .ro, 0)]]

/-- Rows 40 to 59 of the register map. -/
def regRows2 : List RegRow := [
  -- 16 R463
  mkRow "ERR_BCTL" 0xA0000 [(0x1000000, 16)] .foremanHost false
    [(0, 1, .rw, 0), (1, 1, .ro, 0), (2, 1, .ro, 0)],
  -- 16 R464
  mkRow "ERR_BSTAT" 0xA0008 [(0x1000000, 16)] .foremanHost false
    [(0, 1, .w1c, 0), (1, 1, .ro, 0), (2, 1, .ro, 0), (3, 1, .ro, 0), (4, 1, .ro, 0), (16, 5, .ro, 0), (32, 15, .ro, 0)],
  -- 20 R554
  mkRow "TRC_CTL" 0xB0000 [(0x1000000, 16)] .foremanHost false
    [(0, 1, .rw, 0), (1, 1, .rw, 0), (4, 12, .rw, 0), (16, 13, .rw, 0)],
  -- 20 R554
  mkRow "TRC_RING" 0xB0008 [(0x1000000, 16)] .foremanHost false
    [(0, 5, .rw, 12), (12, 36, .rw, 0)],
  -- 20 R554
  mkRow "TRC_PTR" 0xB0010 [(0x1000000, 16)] .foremanHost false
    [(0, 28, .rw, 0), (32, 28, .ro, 0)],
  -- 20 R554
  mkRow "TRC_STAT" 0xB0018 [(0x1000000, 16)] .foremanHost false
    [(0, 1, .w1c, 0), (1, 1, .w1c, 0), (2, 1, .w1c, 0)],
  -- 20 R554
  mkRow "TRC_SEL" 0xB0020 [(0x1000000, 16)] .foremanHost false
    [(0, 16, .rw, 0), (16, 16, .rw, 0), (32, 16, .rw, 0), (48, 16, .rw, 0)],
  -- 20 R555
  mkRow "MK_ID" 0xB0100 [(0x1000000, 16), (0x20, 8)] .foremanHost false
    [(0, 32, .rw, 0)],
  -- 20 R555
  mkRow "MK_CNT" 0xB0108 [(0x1000000, 16), (0x20, 8), (0x8, 3)] .foremanHost true
    [(0, 64, .ro, 0)],
  -- 20 R544
  mkRow "BENCH_CTR" 0xC0000 [(0x1000000, 16), (0x8, 512)] .none true
    [(0, 64, .ro, 0)],
  -- 06 R173
  mkRow "TALLY" 0x100000 [(0x1000000, 16), (0x40, 4096), (0x8, 7)] .none true
    [(0, 64, .ro, 0)],
  -- 06 R173
  mkRow "TALLY_AMAX" 0x100038 [(0x1000000, 16), (0x40, 4096)] .none false
    [(0, 32, .ro, 0)],
  -- 07 R201
  mkRow "OPT_PART" 0x140000 [(0x1000000, 16), (0x20, 4096), (0x8, 3)] .none false
    [(0, 64, .ro, 0)],
  -- 10 R308
  mkRow "IMEM" 0x400000 [(0x1000000, 16), (0x8, 32768)] .host false
    [(0, 64, .rw, 0)],
  -- 07 R200
  mkRow "CRV_SEG" 0x800000 [(0x1000000, 16), (0x4000, 32), (0x8, 2048)] .foreman false
    [(0, 64, .rw, 0)],
  -- 09 R264
  mkRow "BMC_ROW" 0x10200000 [(0x8, 96)] .installer false
    [(0, 2, .rw, 0), (2, 1, .rw, 0), (3, 1, .w1c, 0)],
  -- 09 R265
  mkRow "BMC_PART" 0x10200400 [(0x40, 4)] .installer false
    [(0, 1, .rw, 0), (1, 1, .w1c, 0), (8, 20, .rw, 0), (32, 20, .rw, 0)],
  -- 09 R266
  mkRow "BMC_SHARE" 0x10200800 [] .installer false
    [(0, 8, .rw, 0), (8, 8, .rw, 96), (16, 8, .rw, 16), (24, 8, .rw, 1), (32, 1, .w1c, 0)],
  -- 09 R266
  mkRow "BMC_SCRUB" 0x10200808 [] .installer false
    [(0, 16, .rw, 429)],
  -- 09 R267
  mkRow "BMC_STAT" 0x10200900 [(0x40, 8)] .none false
    [(0, 7, .ro, 0), (7, 1, .ro, 0), (8, 1, .w1c, 0), (9, 1, .w1c, 0), (10, 1, .w1c, 0), (32, 32, .ro, 0)]]

/-- Rows 60 to 79 of the register map. -/
def regRows3 : List RegRow := [
  -- 09 R268
  mkRow "COW_CTL" 0x10201000 [(0x400, 4), (0x80, 4)] .partition false
    [(0, 1, .w1s, 0), (1, 1, .w1s, 0), (2, 1, .ro, 0), (16, 20, .ro, 0)],
  -- 09 R268
  mkRow "COW_RGN" 0x10201040 [(0x400, 4), (0x80, 4), (0x8, 8)] .partition false
    [(0, 20, .rw, 0), (24, 20, .rw, 0)],
  -- 05 R137
  mkRow "EXPORT_CTL" 0x10300000 [(0x40, 4)] .partition false
    [(0, 1, .w1s, 0), (1, 1, .w1s, 0), (2, 1, .ro, 0), (3, 1, .ro, 0), (16, 48, .ro, 0)],
  -- 06 R164
  mkRow "PLM_CTL" 0x10400000 [(0x40000, 4)] .partition false
    [(0, 8, .rw, 64), (8, 4, .rw, 4), (12, 1, .rw, 1)],
  -- 06 R165
  mkRow "PLM_STATUS" 0x10400008 [(0x40000, 4)] .partition false
    [(0, 1, .ro, 0), (1, 1, .ro, 0), (2, 1, .w1c, 0), (3, 1, .w1c, 0), (4, 1, .ro, 0), (8, 4, .ro, 0), (16, 48, .ro, 0)],
  -- 06 R166
  mkRow "PLM_ALARM" 0x10400010 [(0x40000, 4)] .partition false
    [(0, 10, .w1c, 0)],
  -- 06 R166
  mkRow "PLM_ALARM_EN" 0x10400018 [(0x40000, 4)] .partition false
    [(0, 10, .rw, 0x3ff)],
  -- 06 R167
  mkRow "PLM_CMD" 0x10400020 [(0x40000, 4)] .partition false
    [(0, 1, .wo, 0), (1, 1, .wo, 0)],
  -- 06 R168
  mkRow "PLM_LOSS" 0x10400028 [(0x40000, 4)] .partition false
    [(0, 32, .rw, 0)],
  -- 06 R168
  mkRow "PLM_LOSS_CFG" 0x10400030 [(0x40000, 4)] .partition false
    [(0, 32, .rw, 0x40c00000), (32, 4, .rw, 7), (36, 1, .rw, 0), (40, 16, .rw, 128)],
  -- 06 R168
  mkRow "PLM_LOSS_MEAN" 0x10400038 [(0x40000, 4)] .partition false
    [(0, 64, .ro, 0)],
  -- 06 R168
  mkRow "PLM_LOSS_VAR" 0x10400040 [(0x40000, 4)] .partition false
    [(0, 64, .ro, 0)],
  -- 06 R168
  mkRow "PLM_LOSS_N" 0x10400048 [(0x40000, 4)] .partition false
    [(0, 64, .ro, 0)],
  -- 06 R169
  mkRow "PLM_SET_VAL" 0x10400050 [(0x40000, 4)] .partition false
    [(0, 32, .rw, 0x3f800000), (32, 4, .rw, 0), (36, 2, .rw, 3), (38, 1, .rw, 0), (40, 6, .rw, 0), (48, 16, .rw, 0)],
  -- 06 R169
  mkRow "PLM_SET_CMD" 0x10400058 [(0x40000, 4)] .partition false
    [(0, 12, .wo, 0), (16, 1, .wo, 0), (17, 1, .wo, 0), (18, 1, .wo, 0), (19, 1, .wo, 0), (20, 1, .wo, 0), (21, 1, .wo, 0)],
  -- 06 R170
  mkRow "PLM_RULE" 0x10401000 [(0x40000, 4), (0x8, 128)] .partition false
    [(0, 6, .rw, 0), (8, 24, .rw, 0), (32, 14, .rw, 0)],
  -- 06 R170
  mkRow "PLM_PROFILE" 0x10402000 [(0x40000, 4), (0x8, 64)] .partition false
    [(0, 24, .rw, 16384), (24, 16, .rw, 64), (40, 8, .rw, 0xe8), (48, 8, .rw, 0xfb), (56, 8, .rw, 8)],
  -- 06 R171
  mkRow "PLM_FBMAP" 0x10403000 [(0x40000, 4), (0x8, 64)] .none false
    [(0, 64, .ro, 0)],
  -- 06 R172
  mkRow "PLM_CLASS0" 0x10410000 [(0x40000, 4), (0x20, 4096)] .none false
    [(0, 32, .ro, 0x3f800000), (32, 4, .ro, 0), (36, 2, .ro, 3), (38, 1, .ro, 0), (40, 6, .ro, 0), (48, 16, .ro, 0)],
  -- 06 R172
  mkRow "PLM_CLASS1" 0x10410008 [(0x40000, 4), (0x20, 4096)] .none false
    [(0, 32, .ro, 0), (32, 16, .ro, 0), (48, 1, .ro, 0)]]

/-- Rows 80 to 99 of the register map. -/
def regRows4 : List RegRow := [
  -- 06 R172
  mkRow "PLM_CLASS2" 0x10410010 [(0x40000, 4), (0x20, 4096)] .none false
    [(0, 32, .ro, 0), (32, 16, .ro, 0)],
  -- 10 R309
  mkRow "BAR_MASK" 0x10600000 [(0x100, 4)] .host false
    [(0, 16, .rw, 0)],
  -- 10 R309
  mkRow "BAR_CTL" 0x10600008 [(0x100, 4)] .host false
    [(0, 16, .rw, 0)],
  -- 10 R309
  mkRow "PROG_LOAD0" 0x10600010 [(0x100, 4)] .host false
    [(0, 48, .rw, 0)],
  -- 10 R309
  mkRow "PROG_LOAD1" 0x10600018 [(0x100, 4)] .host false
    [(0, 16, .rw, 0), (16, 16, .rw, 0), (32, 1, .wo, 0), (33, 1, .w1c, 0), (34, 1, .w1c, 0)],
  -- 10 R309
  mkRow "BAR_GEN" 0x10600040 [(0x100, 4), (0x8, 16)] .host false
    [(0, 16, .ro, 0)],
  -- 12 R356
  mkRow "FAB_ID" 0x10700000 [] .installer false
    [(0, 13, .rw, 0), (16, 13, .rw, 0), (29, 1, .rw, 0)],
  -- 12 R357
  mkRow "FAB_PORT" 0x10700100 [(0x40, 16)] .none false
    [(0, 3, .ro, 0), (3, 2, .ro, 0), (5, 1, .w1c, 0), (8, 13, .ro, 0), (24, 4, .ro, 0), (28, 1, .ro, 0)],
  -- 12 R358
  mkRow "FAB_PART" 0x10701000 [(0x40, 4)] .host false
    [(0, 12, .rw, 0), (16, 16, .ro, 0), (32, 16, .rw, 1000), (48, 1, .w1c, 0), (49, 1, .ro, 0)],
  -- 12 R358
  mkRow "FAB_TREE" 0x10701008 [(0x40, 4)] .host false
    [(0, 16, .rw, 0), (16, 4, .rw, 0), (20, 1, .rw, 0)],
  -- 12 R358
  mkRow "FAB_DROP" 0x10701010 [(0x40, 4), (0x8, 4)] .host true
    [(0, 64, .ro, 0)],
  -- 12 R359
  mkRow "FAB_LOST" 0x10710000 [(0x400, 4), (0x8, 128)] .none false
    [(0, 64, .ro, 0)],
  -- 12 R360
  mkRow "FAB_ROUTE" 0x10720000 [(0x2000, 4), (0x8, 1024)] .host false
    [(0, 4, .rw, 0), (7, 1, .rw, 0), (8, 4, .rw, 0), (15, 1, .rw, 0), (16, 4, .rw, 0), (23, 1, .rw, 0), (24, 4, .rw, 0), (31, 1, .rw, 0), (32, 4, .rw, 0), (39, 1, .rw, 0), (40, 4, .rw, 0), (47, 1, .rw, 0), (48, 4, .rw, 0), (55, 1, .rw, 0), (56, 4, .rw, 0), (63, 1, .rw, 0)],
  -- 14 R409
  mkRow "MAP_ADDR" 0x10800000 [(0x100, 4)] .host false
    [(0, 48, .rw, 0)],
  -- 14 R409
  mkRow "MAP_CTL" 0x10800008 [(0x100, 4)] .host false
    [(0, 1, .wo, 0), (1, 1, .w1c, 0), (2, 1, .w1c, 0), (4, 4, .ro, 0), (16, 16, .ro, 0), (32, 1, .ro, 0)],
  -- 14 R409
  mkRow "MAP_ID" 0x10800010 [(0x100, 4)] .host false
    [(0, 64, .ro, 0)],
  -- 14 R410
  mkRow "STEP_CTL" 0x10800018 [(0x100, 4)] .host false
    [(0, 16, .rw, 0)],
  -- 14 R410
  mkRow "STEP_STAT" 0x10800020 [(0x100, 4)] .host false
    [(0, 48, .ro, 0), (48, 1, .ro, 0), (49, 1, .ro, 0), (50, 2, .ro, 0), (52, 4, .ro, 0)],
  -- 14 R410
  mkRow "STEP_CAUSE" 0x10800028 [(0x100, 4)] .host false
    [(0, 11, .ro, 0), (32, 13, .ro, 0), (45, 1, .ro, 0)],
  -- 14 R411
  mkRow "MIR_CTL" 0x10800040 [(0x100, 4)] .host false
    [(0, 1, .wo, 0), (1, 1, .ro, 0), (2, 1, .w1c, 0), (3, 1, .w1c, 0), (4, 2, .rw, 0), (8, 8, .rw, 40), (16, 48, .rw, 0)]]

/-- Rows 100 to 119 of the register map. -/
def regRows5 : List RegRow := [
  -- 14 R411
  mkRow "MIR_STAT" 0x10800048 [(0x100, 4)] .host false
    [(0, 32, .ro, 0), (32, 32, .ro, 0)],
  -- 14 R412
  mkRow "MIR_RX" 0x10810000 [] .installer false
    [(0, 7, .rw, 0), (8, 7, .rw, 0), (16, 13, .rw, 0), (29, 1, .rw, 0)],
  -- 15 R436
  mkRow "HQ_SQ" 0x10900000 [(0x40, 256)] .queueHost false
    [(0, 5, .rw, 4), (12, 52, .rw, 0)],
  -- 15 R436
  mkRow "HQ_CQ" 0x10900008 [(0x40, 256)] .queueHost false
    [(12, 52, .rw, 0)],
  -- 15 R436
  mkRow "HQ_CTL" 0x10900010 [(0x40, 256)] .queueHost false
    [(0, 1, .rw, 0), (1, 1, .w1c, 0), (2, 1, .w1c, 0), (3, 2, .rwi, 0), (5, 1, .rwi, 0), (8, 8, .rw, 0), (16, 16, .rw, 0)],
  -- 15 R436
  mkRow "HQ_PTR" 0x10900018 [(0x40, 256)] .queueHost false
    [(0, 16, .ro, 0), (16, 16, .ro, 0), (32, 16, .ro, 0), (48, 16, .ro, 0)],
  -- 15 R437
  mkRow "PART_CFG" 0x10910000 [(0x40, 4)] .installer false
    [(0, 16, .rw, 0), (16, 1, .rw, 0), (17, 1, .w1c, 0)],
  -- 15 R437
  mkRow "HQ_STAT" 0x10910008 [(0x40, 4)] .none false
    [(0, 1, .w1c, 0), (1, 1, .w1c, 0), (2, 1, .w1c, 0), (3, 1, .w1c, 0), (4, 1, .w1c, 0)],
  -- 15 R437
  mkRow "HQ_LIM" 0x10910010 [(0x40, 4)] .ownerHost false
    [(0, 16, .rw, 1000)],
  -- 15 R437
  mkRow "DB_DROPPED" 0x10910018 [(0x40, 4)] .none true
    [(0, 64, .ro, 0)],
  -- 15 R438
  mkRow "BAR2_SEG" 0x10920000 [(0x200, 4), (0x8, 64)] .ownerHost false
    [(0, 1, .rw, 0), (1, 1, .rw, 0), (24, 24, .rw, 0)],
  -- 15 R439
  mkRow "HIF_CFG" 0x10930000 [] .installer false
    [(0, 2, .rw, 0), (2, 2, .ro, 0)],
  -- 15 R439
  mkRow "HIF_LINK" 0x10930100 [(0x40, 4)] .none false
    [(0, 1, .ro, 0), (1, 3, .ro, 0), (4, 5, .ro, 0), (9, 1, .ro, 0)],
  -- 16 R465
  mkRow "ERR_RING" 0x10A00000 [(0x40, 4)] .ownerHost false
    [(0, 5, .rw, 6), (12, 52, .rw, 0)],
  -- 16 R465
  mkRow "ERR_HEAD" 0x10A00008 [(0x40, 4)] .ownerHost false
    [(0, 16, .rw, 0), (16, 16, .ro, 0), (32, 1, .rw, 0)],
  -- 16 R465
  mkRow "ERR_STAT" 0x10A00010 [(0x40, 4)] .ownerHost false
    [(0, 1, .w1c, 0), (1, 1, .w1c, 0), (16, 9, .ro, 0)],
  -- 16 R465
  mkRow "ERR_LOST" 0x10A00018 [(0x40, 4)] .ownerHost true
    [(0, 64, .ro, 0)],
  -- 16 R466
  mkRow "RETIRE_POLICY" 0x10A10000 [] .installer false
    [(0, 4, .rw, 3), (4, 1, .rw, 1), (16, 16, .rw, 1000)],
  -- 16 R466
  mkRow "PROOF_POLICY" 0x10A10008 [] .installer false
    [(0, 16, .rw, 168), (16, 16, .rw, 100), (32, 16, .rw, 16)],
  -- 16 R467
  mkRow "PROOF_STAT" 0x10A10100 [(0x8, 4)] .none false
    [(0, 16, .ro, 0), (16, 16, .ro, 0), (32, 1, .w1c, 0), (33, 1, .w1c, 0)]]

/-- Rows 120 to 139 of the register map. -/
def regRows6 : List RegRow := [
  -- 17 R486
  mkRow "RST_CMD" 0x10B00000 [] .special false
    [(0, 3, .wo, 0), (4, 4, .wo, 0), (8, 2, .wo, 0), (10, 6, .wo, 0), (16, 4, .wo, 0), (20, 1, .wo, 0)],
  -- 17 R487
  mkRow "RST_STAT" 0x10B00008 [] .none false
    [(0, 3, .ro, 0), (3, 4, .ro, 0), (7, 1, .ro, 0), (8, 1, .w1c, 0), (32, 32, .ro, 0)],
  -- 17 R488
  mkRow "CLK_BENCH" 0x10B00100 [(0x8, 16)] .none false
    [(0, 11, .ro, 1700), (16, 11, .ro, 1700), (27, 1, .ro, 0), (28, 1, .ro, 0)],
  -- 18 R503
  mkRow "PWR_STAT" 0x10C00000 [] .none false
    [(0, 2, .ro, 0), (16, 16, .ro, 0), (32, 16, .ro, 0), (48, 16, .ro, 0)],
  -- 18 R503
  mkRow "PWR_LIMIT" 0x10C00008 [] .installer false
    [(0, 12, .rw, 3400), (16, 12, .ro, 3400), (32, 1, .ro, 0), (33, 1, .w1c, 0)],
  -- 18 R504
  mkRow "BENCH_PWR" 0x10C00100 [(0x8, 16)] .special false
    [(0, 1, .rw, 0), (1, 1, .ro, 0), (2, 1, .ro, 0), (3, 1, .w1c, 0), (4, 1, .w1c, 0), (5, 1, .w1c, 0), (16, 11, .ro, 1700), (32, 16, .ro, 0)],
  -- 18 R505
  mkRow "REM_CTL" 0x10C00200 [] .special false
    [(0, 4, .w1s, 0), (4, 1, .ro, 0), (5, 3, .ro, 0), (8, 16, .rwi, 10)],
  -- 18 R505
  mkRow "COOL_STAT" 0x10C00208 [] .none false
    [(0, 16, .ro, 0), (16, 16, .ro, 0)],
  -- 19 R538
  mkRow "BOOT_STAT" 0x10D00000 [] .none false
    [(0, 3, .ro, 0), (3, 1, .ro, 0), (4, 1, .ro, 0), (5, 1, .w1c, 0), (6, 1, .ro, 0), (7, 1, .ro, 0), (8, 1, .ro, 0), (9, 1, .ro, 0), (10, 1, .ro, 0), (11, 1, .ro, 0), (16, 16, .ro, 0), (32, 16, .ro, 0)],
  -- 19 R539
  mkRow "HOST_TIME" 0x10D00010 [(0x8, 4)] .special false
    [(0, 64, .ro, 0)],
  -- 19 R540
  mkRow "FP_MODULE" 0x10D00100 [] .none false
    [(0, 16, .ro, 0), (16, 7, .ro, 0), (24, 8, .ro, 0), (32, 16, .ro, 0), (48, 1, .ro, 0)],
  -- 19 R540
  mkRow "FP_HUBCORES" 0x10D00108 [] .none false
    [(0, 32, .ro, 0)],
  -- 19 R541
  mkRow "FP_BENCH0" 0x10D00200 [(0x10, 16)] .none false
    [(0, 1, .ro, 0), (1, 1, .ro, 0), (2, 1, .ro, 0), (3, 4, .ro, 0), (7, 8, .ro, 0), (15, 4, .ro, 0), (19, 2, .ro, 0), (21, 8, .ro, 0), (29, 1, .ro, 0), (30, 1, .ro, 0), (31, 1, .ro, 0), (32, 1, .ro, 0), (33, 1, .ro, 0)],
  -- 19 R541
  mkRow "FP_BENCH1" 0x10D00208 [(0x10, 16)] .none false
    [(0, 64, .ro, 0)],
  -- 20 R545
  mkRow "HUB_CTR" 0x10E00000 [(0x8, 512)] .none true
    [(0, 64, .ro, 0)],
  -- 20 R545
  mkRow "PART_CTR" 0x10E10000 [(0x1000, 4), (0x8, 20)] .none true
    [(0, 64, .ro, 0)],
  -- 20 R556
  mkRow "TRC_HUB" 0x10E20000 [] .installer false
    [(0, 32, .rw, 0), (32, 2, .rw, 0), (34, 1, .rw, 0), (35, 1, .rw, 0)],
  -- 20 R548
  mkRow "TRC_HUB_RING" 0x10E20008 [] .installer false
    [(0, 5, .rw, 12), (12, 36, .rw, 0)],
  -- 20 R548
  mkRow "TRC_HUB_PTR" 0x10E20010 [] .installer false
    [(0, 28, .rw, 0), (32, 28, .ro, 0)],
  -- 20 R548
  mkRow "TRC_HUB_STAT" 0x10E20018 [] .installer false
    [(0, 1, .w1c, 0), (1, 1, .w1c, 0), (2, 1, .w1c, 0)]]

/-- The whole register map. -/
def regMap : List RegRow := regRows0 ++ regRows1 ++ regRows2 ++ regRows3 ++ regRows4 ++ regRows5 ++ regRows6

/-! Keys of the registers: Bench registers take the Bench first, then the instance numbers. -/

/-- Key of FM_CTL (10 R304). -/
def K.FM_CTL (i : Nat) : Nat := 0x0 + i * 0x1000000
/-- Key of FM_STAT (10 R305). -/
def K.FM_STAT (i : Nat) : Nat := 0x8 + i * 0x1000000
/-- Key of FM_FAULT (10 R306). -/
def K.FM_FAULT (i : Nat) : Nat := 0x10 + i * 0x1000000
/-- Key of STEP_STATE (10 R307). -/
def K.STEP_STATE (i : Nat) : Nat := 0x20 + i * 0x1000000
/-- Key of MARK_STAT (10 R307). -/
def K.MARK_STAT (i : Nat) : Nat := 0x28 + i * 0x1000000
/-- Key of BMEM_CTL (08 R239). -/
def K.BMEM_CTL (i : Nat) : Nat := 0x20000 + i * 0x1000000
/-- Key of BMEM_STAT (08 R240). -/
def K.BMEM_STAT (i : Nat) : Nat := 0x20008 + i * 0x1000000
/-- Key of HAUL_CTL (08 R241). -/
def K.HAUL_CTL (i : Nat) : Nat := 0x30000 + i * 0x1000000
/-- Key of HAUL_STAT (08 R242). -/
def K.HAUL_STAT (i : Nat) (j : Nat) : Nat := 0x30100 + i * 0x1000000 + j * 0x40
/-- Key of CUT_CTL (03 R88). -/
def K.CUT_CTL (i : Nat) : Nat := 0x40000 + i * 0x1000000
/-- Key of CUT_STAT (03 R89). -/
def K.CUT_STAT (i : Nat) (j : Nat) : Nat := 0x40100 + i * 0x1000000 + j * 0x40
/-- Key of DRS_CTL (04 R107). -/
def K.DRS_CTL (i : Nat) : Nat := 0x50000 + i * 0x1000000
/-- Key of DRS_STAT (04 R108). -/
def K.DRS_STAT (i : Nat) (j : Nat) : Nat := 0x50100 + i * 0x1000000 + j * 0x40
/-- Key of WDG_CTL (05 R130). -/
def K.WDG_CTL (i : Nat) : Nat := 0x60000 + i * 0x1000000
/-- Key of WDG_STAT (05 R131). -/
def K.WDG_STAT (i : Nat) (j : Nat) : Nat := 0x60100 + i * 0x1000000 + j * 0x40
/-- Key of WDG_JOB_SEED (05 R132). -/
def K.WDG_JOB_SEED (i : Nat) : Nat := 0x60200 + i * 0x1000000
/-- Key of VTAB_CMD (05 R133). -/
def K.VTAB_CMD (i : Nat) : Nat := 0x60300 + i * 0x1000000
/-- Key of VTAB_VALID (05 R134). -/
def K.VTAB_VALID (i : Nat) : Nat := 0x60308 + i * 0x1000000
/-- Key of WDG_ROT (05 R135). -/
def K.WDG_ROT (i : Nat) (j : Nat) : Nat := 0x60408 + i * 0x1000000 + j * 0x8
/-- Key of VTAB_ENTRY (05 R136). -/
def K.VTAB_ENTRY (i : Nat) (j : Nat) (k : Nat) : Nat := 0x61000 + i * 0x1000000 + j * 0x40 + k * 0x8
/-- Key of VTAB_INFO (05 R136). -/
def K.VTAB_INFO (i : Nat) (j : Nat) : Nat := 0x61020 + i * 0x1000000 + j * 0x40
/-- Key of SCR_CTL (07 R196). -/
def K.SCR_CTL (i : Nat) : Nat := 0x70000 + i * 0x1000000
/-- Key of SCR_STAT (07 R197). -/
def K.SCR_STAT (i : Nat) (j : Nat) : Nat := 0x70100 + i * 0x1000000 + j * 0x40
/-- Key of CRV_CMD (07 R198). -/
def K.CRV_CMD (i : Nat) : Nat := 0x70300 + i * 0x1000000
/-- Key of CRV_VALID (07 R199). -/
def K.CRV_VALID (i : Nat) : Nat := 0x70308 + i * 0x1000000
/-- Key of CRV_HDR0 (07 R200). -/
def K.CRV_HDR0 (i : Nat) (j : Nat) : Nat := 0x71000 + i * 0x1000000 + j * 0x20
/-- Key of CRV_HDR1 (07 R200). -/
def K.CRV_HDR1 (i : Nat) (j : Nat) : Nat := 0x71008 + i * 0x1000000 + j * 0x20
/-- Key of CRV_HDR2 (07 R200). -/
def K.CRV_HDR2 (i : Nat) (j : Nat) : Nat := 0x71010 + i * 0x1000000 + j * 0x20
/-- Key of STK_SRAM_TIER (08 R243). -/
def K.STK_SRAM_TIER (i : Nat) : Nat := 0x80008 + i * 0x1000000
/-- Key of STK_BULK_TIER (08 R243). -/
def K.STK_BULK_TIER (i : Nat) : Nat := 0x80010 + i * 0x1000000
/-- Key of STK_STATUS (08 R244). -/
def K.STK_STATUS (i : Nat) : Nat := 0x80018 + i * 0x1000000
/-- Key of STK_DROP (08 R245). -/
def K.STK_DROP (i : Nat) (j : Nat) : Nat := 0x80100 + i * 0x1000000 + j * 0x8
/-- Key of STK_RECOMP (08 R246). -/
def K.STK_RECOMP (i : Nat) (j : Nat) : Nat := 0x80200 + i * 0x1000000 + j * 0x8
/-- Key of WGH_CTL (13 R383). -/
def K.WGH_CTL (i : Nat) : Nat := 0x90000 + i * 0x1000000
/-- Key of WGH_STAGE (13 R384). -/
def K.WGH_STAGE (i : Nat) : Nat := 0x90008 + i * 0x1000000
/-- Key of WGH_STAT (13 R385). -/
def K.WGH_STAT (i : Nat) : Nat := 0x90010 + i * 0x1000000
/-- Key of WGH_RESID (13 R386). -/
def K.WGH_RESID (i : Nat) : Nat := 0x90018 + i * 0x1000000
/-- Key of WGH_NOISE_P (13 R387). -/
def K.WGH_NOISE_P (i : Nat) : Nat := 0x90020 + i * 0x1000000
/-- Key of WGH_NOISE_Q (13 R387). -/
def K.WGH_NOISE_Q (i : Nat) : Nat := 0x90028 + i * 0x1000000
/-- Key of WGH_NOISE_INFO (13 R387). -/
def K.WGH_NOISE_INFO (i : Nat) : Nat := 0x90030 + i * 0x1000000
/-- Key of ERR_BCTL (16 R463). -/
def K.ERR_BCTL (i : Nat) : Nat := 0xA0000 + i * 0x1000000
/-- Key of ERR_BSTAT (16 R464). -/
def K.ERR_BSTAT (i : Nat) : Nat := 0xA0008 + i * 0x1000000
/-- Key of TRC_CTL (20 R554). -/
def K.TRC_CTL (i : Nat) : Nat := 0xB0000 + i * 0x1000000
/-- Key of TRC_RING (20 R554). -/
def K.TRC_RING (i : Nat) : Nat := 0xB0008 + i * 0x1000000
/-- Key of TRC_PTR (20 R554). -/
def K.TRC_PTR (i : Nat) : Nat := 0xB0010 + i * 0x1000000
/-- Key of TRC_STAT (20 R554). -/
def K.TRC_STAT (i : Nat) : Nat := 0xB0018 + i * 0x1000000
/-- Key of TRC_SEL (20 R554). -/
def K.TRC_SEL (i : Nat) : Nat := 0xB0020 + i * 0x1000000
/-- Key of MK_ID (20 R555). -/
def K.MK_ID (i : Nat) (j : Nat) : Nat := 0xB0100 + i * 0x1000000 + j * 0x20
/-- Key of MK_CNT (20 R555). -/
def K.MK_CNT (i : Nat) (j : Nat) (k : Nat) : Nat := 0xB0108 + i * 0x1000000 + j * 0x20 + k * 0x8
/-- Key of BENCH_CTR (20 R544). -/
def K.BENCH_CTR (i : Nat) (j : Nat) : Nat := 0xC0000 + i * 0x1000000 + j * 0x8
/-- Key of TALLY (06 R173). -/
def K.TALLY (i : Nat) (j : Nat) (k : Nat) : Nat := 0x100000 + i * 0x1000000 + j * 0x40 + k * 0x8
/-- Key of TALLY_AMAX (06 R173). -/
def K.TALLY_AMAX (i : Nat) (j : Nat) : Nat := 0x100038 + i * 0x1000000 + j * 0x40
/-- Key of OPT_PART (07 R201). -/
def K.OPT_PART (i : Nat) (j : Nat) (k : Nat) : Nat := 0x140000 + i * 0x1000000 + j * 0x20 + k * 0x8
/-- Key of IMEM (10 R308). -/
def K.IMEM (i : Nat) (j : Nat) : Nat := 0x400000 + i * 0x1000000 + j * 0x8
/-- Key of CRV_SEG (07 R200). -/
def K.CRV_SEG (i : Nat) (j : Nat) (k : Nat) : Nat := 0x800000 + i * 0x1000000 + j * 0x4000 + k * 0x8
/-- Key of BMC_ROW (09 R264). -/
def K.BMC_ROW (i : Nat) : Nat := 0x10200000 + i * 0x8
/-- Key of BMC_PART (09 R265). -/
def K.BMC_PART (i : Nat) : Nat := 0x10200400 + i * 0x40
/-- Key of BMC_SHARE (09 R266). -/
def K.BMC_SHARE : Nat := 0x10200800
/-- Key of BMC_SCRUB (09 R266). -/
def K.BMC_SCRUB : Nat := 0x10200808
/-- Key of BMC_STAT (09 R267). -/
def K.BMC_STAT (i : Nat) : Nat := 0x10200900 + i * 0x40
/-- Key of COW_CTL (09 R268). -/
def K.COW_CTL (i : Nat) (j : Nat) : Nat := 0x10201000 + i * 0x400 + j * 0x80
/-- Key of COW_RGN (09 R268). -/
def K.COW_RGN (i : Nat) (j : Nat) (k : Nat) : Nat := 0x10201040 + i * 0x400 + j * 0x80 + k * 0x8
/-- Key of EXPORT_CTL (05 R137). -/
def K.EXPORT_CTL (i : Nat) : Nat := 0x10300000 + i * 0x40
/-- Key of PLM_CTL (06 R164). -/
def K.PLM_CTL (i : Nat) : Nat := 0x10400000 + i * 0x40000
/-- Key of PLM_STATUS (06 R165). -/
def K.PLM_STATUS (i : Nat) : Nat := 0x10400008 + i * 0x40000
/-- Key of PLM_ALARM (06 R166). -/
def K.PLM_ALARM (i : Nat) : Nat := 0x10400010 + i * 0x40000
/-- Key of PLM_ALARM_EN (06 R166). -/
def K.PLM_ALARM_EN (i : Nat) : Nat := 0x10400018 + i * 0x40000
/-- Key of PLM_CMD (06 R167). -/
def K.PLM_CMD (i : Nat) : Nat := 0x10400020 + i * 0x40000
/-- Key of PLM_LOSS (06 R168). -/
def K.PLM_LOSS (i : Nat) : Nat := 0x10400028 + i * 0x40000
/-- Key of PLM_LOSS_CFG (06 R168). -/
def K.PLM_LOSS_CFG (i : Nat) : Nat := 0x10400030 + i * 0x40000
/-- Key of PLM_LOSS_MEAN (06 R168). -/
def K.PLM_LOSS_MEAN (i : Nat) : Nat := 0x10400038 + i * 0x40000
/-- Key of PLM_LOSS_VAR (06 R168). -/
def K.PLM_LOSS_VAR (i : Nat) : Nat := 0x10400040 + i * 0x40000
/-- Key of PLM_LOSS_N (06 R168). -/
def K.PLM_LOSS_N (i : Nat) : Nat := 0x10400048 + i * 0x40000
/-- Key of PLM_SET_VAL (06 R169). -/
def K.PLM_SET_VAL (i : Nat) : Nat := 0x10400050 + i * 0x40000
/-- Key of PLM_SET_CMD (06 R169). -/
def K.PLM_SET_CMD (i : Nat) : Nat := 0x10400058 + i * 0x40000
/-- Key of PLM_RULE (06 R170). -/
def K.PLM_RULE (i : Nat) (j : Nat) : Nat := 0x10401000 + i * 0x40000 + j * 0x8
/-- Key of PLM_PROFILE (06 R170). -/
def K.PLM_PROFILE (i : Nat) (j : Nat) : Nat := 0x10402000 + i * 0x40000 + j * 0x8
/-- Key of PLM_FBMAP (06 R171). -/
def K.PLM_FBMAP (i : Nat) (j : Nat) : Nat := 0x10403000 + i * 0x40000 + j * 0x8
/-- Key of PLM_CLASS0 (06 R172). -/
def K.PLM_CLASS0 (i : Nat) (j : Nat) : Nat := 0x10410000 + i * 0x40000 + j * 0x20
/-- Key of PLM_CLASS1 (06 R172). -/
def K.PLM_CLASS1 (i : Nat) (j : Nat) : Nat := 0x10410008 + i * 0x40000 + j * 0x20
/-- Key of PLM_CLASS2 (06 R172). -/
def K.PLM_CLASS2 (i : Nat) (j : Nat) : Nat := 0x10410010 + i * 0x40000 + j * 0x20
/-- Key of BAR_MASK (10 R309). -/
def K.BAR_MASK (i : Nat) : Nat := 0x10600000 + i * 0x100
/-- Key of BAR_CTL (10 R309). -/
def K.BAR_CTL (i : Nat) : Nat := 0x10600008 + i * 0x100
/-- Key of PROG_LOAD0 (10 R309). -/
def K.PROG_LOAD0 (i : Nat) : Nat := 0x10600010 + i * 0x100
/-- Key of PROG_LOAD1 (10 R309). -/
def K.PROG_LOAD1 (i : Nat) : Nat := 0x10600018 + i * 0x100
/-- Key of BAR_GEN (10 R309). -/
def K.BAR_GEN (i : Nat) (j : Nat) : Nat := 0x10600040 + i * 0x100 + j * 0x8
/-- Key of FAB_ID (12 R356). -/
def K.FAB_ID : Nat := 0x10700000
/-- Key of FAB_PORT (12 R357). -/
def K.FAB_PORT (i : Nat) : Nat := 0x10700100 + i * 0x40
/-- Key of FAB_PART (12 R358). -/
def K.FAB_PART (i : Nat) : Nat := 0x10701000 + i * 0x40
/-- Key of FAB_TREE (12 R358). -/
def K.FAB_TREE (i : Nat) : Nat := 0x10701008 + i * 0x40
/-- Key of FAB_DROP (12 R358). -/
def K.FAB_DROP (i : Nat) (j : Nat) : Nat := 0x10701010 + i * 0x40 + j * 0x8
/-- Key of FAB_LOST (12 R359). -/
def K.FAB_LOST (i : Nat) (j : Nat) : Nat := 0x10710000 + i * 0x400 + j * 0x8
/-- Key of FAB_ROUTE (12 R360). -/
def K.FAB_ROUTE (i : Nat) (j : Nat) : Nat := 0x10720000 + i * 0x2000 + j * 0x8
/-- Key of MAP_ADDR (14 R409). -/
def K.MAP_ADDR (i : Nat) : Nat := 0x10800000 + i * 0x100
/-- Key of MAP_CTL (14 R409). -/
def K.MAP_CTL (i : Nat) : Nat := 0x10800008 + i * 0x100
/-- Key of MAP_ID (14 R409). -/
def K.MAP_ID (i : Nat) : Nat := 0x10800010 + i * 0x100
/-- Key of STEP_CTL (14 R410). -/
def K.STEP_CTL (i : Nat) : Nat := 0x10800018 + i * 0x100
/-- Key of STEP_STAT (14 R410). -/
def K.STEP_STAT (i : Nat) : Nat := 0x10800020 + i * 0x100
/-- Key of STEP_CAUSE (14 R410). -/
def K.STEP_CAUSE (i : Nat) : Nat := 0x10800028 + i * 0x100
/-- Key of MIR_CTL (14 R411). -/
def K.MIR_CTL (i : Nat) : Nat := 0x10800040 + i * 0x100
/-- Key of MIR_STAT (14 R411). -/
def K.MIR_STAT (i : Nat) : Nat := 0x10800048 + i * 0x100
/-- Key of MIR_RX (14 R412). -/
def K.MIR_RX : Nat := 0x10810000
/-- Key of HQ_SQ (15 R436). -/
def K.HQ_SQ (i : Nat) : Nat := 0x10900000 + i * 0x40
/-- Key of HQ_CQ (15 R436). -/
def K.HQ_CQ (i : Nat) : Nat := 0x10900008 + i * 0x40
/-- Key of HQ_CTL (15 R436). -/
def K.HQ_CTL (i : Nat) : Nat := 0x10900010 + i * 0x40
/-- Key of HQ_PTR (15 R436). -/
def K.HQ_PTR (i : Nat) : Nat := 0x10900018 + i * 0x40
/-- Key of PART_CFG (15 R437). -/
def K.PART_CFG (i : Nat) : Nat := 0x10910000 + i * 0x40
/-- Key of HQ_STAT (15 R437). -/
def K.HQ_STAT (i : Nat) : Nat := 0x10910008 + i * 0x40
/-- Key of HQ_LIM (15 R437). -/
def K.HQ_LIM (i : Nat) : Nat := 0x10910010 + i * 0x40
/-- Key of DB_DROPPED (15 R437). -/
def K.DB_DROPPED (i : Nat) : Nat := 0x10910018 + i * 0x40
/-- Key of BAR2_SEG (15 R438). -/
def K.BAR2_SEG (i : Nat) (j : Nat) : Nat := 0x10920000 + i * 0x200 + j * 0x8
/-- Key of HIF_CFG (15 R439). -/
def K.HIF_CFG : Nat := 0x10930000
/-- Key of HIF_LINK (15 R439). -/
def K.HIF_LINK (i : Nat) : Nat := 0x10930100 + i * 0x40
/-- Key of ERR_RING (16 R465). -/
def K.ERR_RING (i : Nat) : Nat := 0x10A00000 + i * 0x40
/-- Key of ERR_HEAD (16 R465). -/
def K.ERR_HEAD (i : Nat) : Nat := 0x10A00008 + i * 0x40
/-- Key of ERR_STAT (16 R465). -/
def K.ERR_STAT (i : Nat) : Nat := 0x10A00010 + i * 0x40
/-- Key of ERR_LOST (16 R465). -/
def K.ERR_LOST (i : Nat) : Nat := 0x10A00018 + i * 0x40
/-- Key of RETIRE_POLICY (16 R466). -/
def K.RETIRE_POLICY : Nat := 0x10A10000
/-- Key of PROOF_POLICY (16 R466). -/
def K.PROOF_POLICY : Nat := 0x10A10008
/-- Key of PROOF_STAT (16 R467). -/
def K.PROOF_STAT (i : Nat) : Nat := 0x10A10100 + i * 0x8
/-- Key of RST_CMD (17 R486). -/
def K.RST_CMD : Nat := 0x10B00000
/-- Key of RST_STAT (17 R487). -/
def K.RST_STAT : Nat := 0x10B00008
/-- Key of CLK_BENCH (17 R488). -/
def K.CLK_BENCH (i : Nat) : Nat := 0x10B00100 + i * 0x8
/-- Key of PWR_STAT (18 R503). -/
def K.PWR_STAT : Nat := 0x10C00000
/-- Key of PWR_LIMIT (18 R503). -/
def K.PWR_LIMIT : Nat := 0x10C00008
/-- Key of BENCH_PWR (18 R504). -/
def K.BENCH_PWR (i : Nat) : Nat := 0x10C00100 + i * 0x8
/-- Key of REM_CTL (18 R505). -/
def K.REM_CTL : Nat := 0x10C00200
/-- Key of COOL_STAT (18 R505). -/
def K.COOL_STAT : Nat := 0x10C00208
/-- Key of BOOT_STAT (19 R538). -/
def K.BOOT_STAT : Nat := 0x10D00000
/-- Key of HOST_TIME (19 R539). -/
def K.HOST_TIME (i : Nat) : Nat := 0x10D00010 + i * 0x8
/-- Key of FP_MODULE (19 R540). -/
def K.FP_MODULE : Nat := 0x10D00100
/-- Key of FP_HUBCORES (19 R540). -/
def K.FP_HUBCORES : Nat := 0x10D00108
/-- Key of FP_BENCH0 (19 R541). -/
def K.FP_BENCH0 (i : Nat) : Nat := 0x10D00200 + i * 0x10
/-- Key of FP_BENCH1 (19 R541). -/
def K.FP_BENCH1 (i : Nat) : Nat := 0x10D00208 + i * 0x10
/-- Key of HUB_CTR (20 R545). -/
def K.HUB_CTR (i : Nat) : Nat := 0x10E00000 + i * 0x8
/-- Key of PART_CTR (20 R545). -/
def K.PART_CTR (i : Nat) (j : Nat) : Nat := 0x10E10000 + i * 0x1000 + j * 0x8
/-- Key of TRC_HUB (20 R556). -/
def K.TRC_HUB : Nat := 0x10E20000
/-- Key of TRC_HUB_RING (20 R548). -/
def K.TRC_HUB_RING : Nat := 0x10E20008
/-- Key of TRC_HUB_PTR (20 R548). -/
def K.TRC_HUB_PTR : Nat := 0x10E20010
/-- Key of TRC_HUB_STAT (20 R548). -/
def K.TRC_HUB_STAT : Nat := 0x10E20018

/-! Places of the fields. -/

/-- FM_CTL.START (10 R304). -/
def F.FM_CTL_START : Fld := ⟨0, 1⟩
/-- FM_CTL.STOP (10 R304). -/
def F.FM_CTL_STOP : Fld := ⟨1, 1⟩
/-- FM_CTL.CLEAR (10 R304). -/
def F.FM_CTL_CLEAR : Fld := ⟨2, 1⟩
/-- FM_CTL.JOB (10 R304). -/
def F.FM_CTL_JOB : Fld := ⟨3, 1⟩
/-- FM_CTL.ENTRY (10 R304). -/
def F.FM_CTL_ENTRY : Fld := ⟨16, 15⟩
/-- FM_STAT.STATE (10 R305). -/
def F.FM_STAT_STATE : Fld := ⟨0, 3⟩
/-- FM_STAT.ENDED (10 R305). -/
def F.FM_STAT_ENDED : Fld := ⟨3, 1⟩
/-- FM_STAT.IMEM_REFUSED (10 R305). -/
def F.FM_STAT_IMEM_REFUSED : Fld := ⟨4, 1⟩
/-- FM_STAT.FENCES (10 R305). -/
def F.FM_STAT_FENCES : Fld := ⟨8, 4⟩
/-- FM_STAT.SIGNALS (10 R305). -/
def F.FM_STAT_SIGNALS : Fld := ⟨12, 4⟩
/-- FM_STAT.PC (10 R305). -/
def F.FM_STAT_PC : Fld := ⟨16, 15⟩
/-- FM_FAULT.CODE (10 R306). -/
def F.FM_FAULT_CODE : Fld := ⟨0, 8⟩
/-- FM_FAULT.MORE (10 R306). -/
def F.FM_FAULT_MORE : Fld := ⟨8, 1⟩
/-- FM_FAULT.QUEUE (10 R306). -/
def F.FM_FAULT_QUEUE : Fld := ⟨9, 3⟩
/-- FM_FAULT.UNIT (10 R306). -/
def F.FM_FAULT_UNIT : Fld := ⟨12, 4⟩
/-- FM_FAULT.PC (10 R306). -/
def F.FM_FAULT_PC : Fld := ⟨16, 15⟩
/-- FM_FAULT.MARK (10 R306). -/
def F.FM_FAULT_MARK : Fld := ⟨32, 32⟩
/-- STEP_STATE.STEP (10 R307). -/
def F.STEP_STATE_STEP : Fld := ⟨0, 48⟩
/-- STEP_STATE.ATTEMPT (10 R307). -/
def F.STEP_STATE_ATTEMPT : Fld := ⟨48, 4⟩
/-- STEP_STATE.PHASE (10 R307). -/
def F.STEP_STATE_PHASE : Fld := ⟨52, 3⟩
/-- MARK_STAT.ID (10 R307). -/
def F.MARK_STAT_ID : Fld := ⟨0, 32⟩
/-- MARK_STAT.DEPTH (10 R307). -/
def F.MARK_STAT_DEPTH : Fld := ⟨32, 4⟩
/-- BMEM_CTL.WAIT_LIMIT (08 R239). -/
def F.BMEM_CTL_WAIT_LIMIT : Fld := ⟨0, 16⟩
/-- BMEM_CTL.PATROL (08 R239). -/
def F.BMEM_CTL_PATROL : Fld := ⟨16, 1⟩
/-- BMEM_STAT.CORRECTED (08 R240). -/
def F.BMEM_STAT_CORRECTED : Fld := ⟨0, 1⟩
/-- BMEM_STAT.POISONED (08 R240). -/
def F.BMEM_STAT_POISONED : Fld := ⟨1, 1⟩
/-- BMEM_STAT.POISON_READ (08 R240). -/
def F.BMEM_STAT_POISON_READ : Fld := ⟨2, 1⟩
/-- BMEM_STAT.WAIT_TIMEOUT (08 R240). -/
def F.BMEM_STAT_WAIT_TIMEOUT : Fld := ⟨3, 1⟩
/-- BMEM_STAT.INDEX_RANGE (08 R240). -/
def F.BMEM_STAT_INDEX_RANGE : Fld := ⟨4, 1⟩
/-- HAUL_CTL.PRESENT (08 R241). -/
def F.HAUL_CTL_PRESENT : Fld := ⟨0, 8⟩
/-- HAUL_STAT.BUSY (08 R242). -/
def F.HAUL_STAT_BUSY : Fld := ⟨0, 1⟩
/-- HAUL_STAT.WAITING (08 R242). -/
def F.HAUL_STAT_WAITING : Fld := ⟨1, 1⟩
/-- HAUL_STAT.REMOTE (08 R242). -/
def F.HAUL_STAT_REMOTE : Fld := ⟨2, 1⟩
/-- HAUL_STAT.QUEUED (08 R242). -/
def F.HAUL_STAT_QUEUED : Fld := ⟨16, 5⟩
/-- CUT_CTL.MODE (03 R88). -/
def F.CUT_CTL_MODE : Fld := ⟨0, 1⟩
/-- CUT_CTL.MODE_ACT (03 R88). -/
def F.CUT_CTL_MODE_ACT : Fld := ⟨1, 1⟩
/-- CUT_CTL.SWITCHING (03 R88). -/
def F.CUT_CTL_SWITCHING : Fld := ⟨2, 1⟩
/-- CUT_CTL.PRESENT (03 R88). -/
def F.CUT_CTL_PRESENT : Fld := ⟨8, 4⟩
/-- CUT_STAT.BUSY (03 R89). -/
def F.CUT_STAT_BUSY : Fld := ⟨0, 1⟩
/-- CUT_STAT.FRONT (03 R89). -/
def F.CUT_STAT_FRONT : Fld := ⟨1, 1⟩
/-- CUT_STAT.LOADING (03 R89). -/
def F.CUT_STAT_LOADING : Fld := ⟨2, 1⟩
/-- CUT_STAT.BACK_READY (03 R89). -/
def F.CUT_STAT_BACK_READY : Fld := ⟨3, 1⟩
/-- CUT_STAT.DRAINING (03 R89). -/
def F.CUT_STAT_DRAINING : Fld := ⟨4, 1⟩
/-- CUT_STAT.TILE_VALID (03 R89). -/
def F.CUT_STAT_TILE_VALID : Fld := ⟨5, 1⟩
/-- CUT_STAT.QUEUED (03 R89). -/
def F.CUT_STAT_QUEUED : Fld := ⟨16, 5⟩
/-- DRS_CTL.PRESENT (04 R107). -/
def F.DRS_CTL_PRESENT : Fld := ⟨0, 8⟩
/-- DRS_STAT.BUSY (04 R108). -/
def F.DRS_STAT_BUSY : Fld := ⟨0, 1⟩
/-- DRS_STAT.FRONT (04 R108). -/
def F.DRS_STAT_FRONT : Fld := ⟨1, 1⟩
/-- DRS_STAT.LOADING (04 R108). -/
def F.DRS_STAT_LOADING : Fld := ⟨2, 1⟩
/-- DRS_STAT.BACK_READY (04 R108). -/
def F.DRS_STAT_BACK_READY : Fld := ⟨3, 1⟩
/-- DRS_STAT.DRAINING (04 R108). -/
def F.DRS_STAT_DRAINING : Fld := ⟨4, 1⟩
/-- DRS_STAT.TILE_VALID (04 R108). -/
def F.DRS_STAT_TILE_VALID : Fld := ⟨5, 1⟩
/-- DRS_STAT.PASSES_ACT (04 R108). -/
def F.DRS_STAT_PASSES_ACT : Fld := ⟨6, 2⟩
/-- DRS_STAT.QUEUED (04 R108). -/
def F.DRS_STAT_QUEUED : Fld := ⟨16, 5⟩
/-- WDG_CTL.PRESENT (05 R130). -/
def F.WDG_CTL_PRESENT : Fld := ⟨0, 4⟩
/-- WDG_STAT.BUSY (05 R131). -/
def F.WDG_STAT_BUSY : Fld := ⟨0, 1⟩
/-- WDG_STAT.EXPORT (05 R131). -/
def F.WDG_STAT_EXPORT : Fld := ⟨1, 1⟩
/-- WDG_STAT.WAITING (05 R131). -/
def F.WDG_STAT_WAITING : Fld := ⟨2, 1⟩
/-- WDG_STAT.QUEUED (05 R131). -/
def F.WDG_STAT_QUEUED : Fld := ⟨16, 5⟩
/-- WDG_JOB_SEED.SEED (05 R132). -/
def F.WDG_JOB_SEED_SEED : Fld := ⟨0, 64⟩
/-- VTAB_CMD.TABLE (05 R133). -/
def F.VTAB_CMD_TABLE : Fld := ⟨0, 6⟩
/-- VTAB_CMD.WIDTH (05 R133). -/
def F.VTAB_CMD_WIDTH : Fld := ⟨8, 2⟩
/-- VTAB_CMD.VALIDATE (05 R133). -/
def F.VTAB_CMD_VALIDATE : Fld := ⟨16, 1⟩
/-- VTAB_CMD.INVALIDATE (05 R133). -/
def F.VTAB_CMD_INVALIDATE : Fld := ⟨17, 1⟩
/-- VTAB_VALID.VALID (05 R134). -/
def F.VTAB_VALID_VALID : Fld := ⟨0, 64⟩
/-- WDG_ROT.ORDER (05 R135). -/
def F.WDG_ROT_ORDER : Fld := ⟨0, 3⟩
/-- WDG_ROT.AXIS (05 R135). -/
def F.WDG_ROT_AXIS : Fld := ⟨4, 3⟩
/-- WDG_ROT.FIXED (05 R135). -/
def F.WDG_ROT_FIXED : Fld := ⟨7, 1⟩
/-- WDG_ROT.ROT_ID (05 R135). -/
def F.WDG_ROT_ROT_ID : Fld := ⟨8, 32⟩
/-- VTAB_ENTRY.ENTRIES (05 R136). -/
def F.VTAB_ENTRY_ENTRIES : Fld := ⟨0, 64⟩
/-- VTAB_INFO.VALID (05 R136). -/
def F.VTAB_INFO_VALID : Fld := ⟨0, 1⟩
/-- VTAB_INFO.WIDTH (05 R136). -/
def F.VTAB_INFO_WIDTH : Fld := ⟨8, 2⟩
/-- SCR_CTL.PRESENT (07 R196). -/
def F.SCR_CTL_PRESENT : Fld := ⟨0, 2⟩
/-- SCR_STAT.BUSY (07 R197). -/
def F.SCR_STAT_BUSY : Fld := ⟨0, 1⟩
/-- SCR_STAT.WAITING (07 R197). -/
def F.SCR_STAT_WAITING : Fld := ⟨1, 1⟩
/-- SCR_STAT.KIND (07 R197). -/
def F.SCR_STAT_KIND : Fld := ⟨8, 4⟩
/-- SCR_STAT.QUEUED (07 R197). -/
def F.SCR_STAT_QUEUED : Fld := ⟨16, 5⟩
/-- CRV_CMD.SLOT (07 R198). -/
def F.CRV_CMD_SLOT : Fld := ⟨0, 5⟩
/-- CRV_CMD.VALIDATE (07 R198). -/
def F.CRV_CMD_VALIDATE : Fld := ⟨16, 1⟩
/-- CRV_CMD.INVALIDATE (07 R198). -/
def F.CRV_CMD_INVALIDATE : Fld := ⟨17, 1⟩
/-- CRV_VALID.VALID (07 R199). -/
def F.CRV_VALID_VALID : Fld := ⟨0, 32⟩
/-- CRV_HDR0.LO (07 R200). -/
def F.CRV_HDR0_LO : Fld := ⟨0, 32⟩
/-- CRV_HDR0.WEXP (07 R200). -/
def F.CRV_HDR0_WEXP : Fld := ⟨32, 8⟩
/-- CRV_HDR0.NSEG_LOG2 (07 R200). -/
def F.CRV_HDR0_NSEG_LOG2 : Fld := ⟨40, 4⟩
/-- CRV_HDR0.DERIV (07 R200). -/
def F.CRV_HDR0_DERIV : Fld := ⟨44, 5⟩
/-- CRV_HDR0.DERIV_EN (07 R200). -/
def F.CRV_HDR0_DERIV_EN : Fld := ⟨49, 1⟩
/-- CRV_HDR1.LA (07 R200). -/
def F.CRV_HDR1_LA : Fld := ⟨0, 32⟩
/-- CRV_HDR1.LB (07 R200). -/
def F.CRV_HDR1_LB : Fld := ⟨32, 32⟩
/-- CRV_HDR2.RA (07 R200). -/
def F.CRV_HDR2_RA : Fld := ⟨0, 32⟩
/-- CRV_HDR2.RB (07 R200). -/
def F.CRV_HDR2_RB : Fld := ⟨32, 32⟩
/-- STK_SRAM_TIER.BASE (08 R243). -/
def F.STK_SRAM_TIER_BASE : Fld := ⟨0, 13⟩
/-- STK_SRAM_TIER.SIZE (08 R243). -/
def F.STK_SRAM_TIER_SIZE : Fld := ⟨16, 14⟩
/-- STK_BULK_TIER.BASE (08 R243). -/
def F.STK_BULK_TIER_BASE : Fld := ⟨0, 32⟩
/-- STK_BULK_TIER.SIZE (08 R243). -/
def F.STK_BULK_TIER_SIZE : Fld := ⟨32, 24⟩
/-- STK_STATUS.EXHAUSTED (08 R244). -/
def F.STK_STATUS_EXHAUSTED : Fld := ⟨0, 1⟩
/-- STK_STATUS.CFG_REFUSED (08 R244). -/
def F.STK_STATUS_CFG_REFUSED : Fld := ⟨1, 1⟩
/-- STK_STATUS.ENTRIES (08 R244). -/
def F.STK_STATUS_ENTRIES : Fld := ⟨16, 13⟩
/-- STK_STATUS.SRAM_FREE (08 R244). -/
def F.STK_STATUS_SRAM_FREE : Fld := ⟨32, 14⟩
/-- STK_DROP.TAG0 (08 R245). -/
def F.STK_DROP_TAG0 : Fld := ⟨0, 10⟩
/-- STK_DROP.VALID0 (08 R245). -/
def F.STK_DROP_VALID0 : Fld := ⟨15, 1⟩
/-- STK_DROP.TAG1 (08 R245). -/
def F.STK_DROP_TAG1 : Fld := ⟨16, 10⟩
/-- STK_DROP.VALID1 (08 R245). -/
def F.STK_DROP_VALID1 : Fld := ⟨31, 1⟩
/-- STK_DROP.TAG2 (08 R245). -/
def F.STK_DROP_TAG2 : Fld := ⟨32, 10⟩
/-- STK_DROP.VALID2 (08 R245). -/
def F.STK_DROP_VALID2 : Fld := ⟨47, 1⟩
/-- STK_DROP.TAG3 (08 R245). -/
def F.STK_DROP_TAG3 : Fld := ⟨48, 10⟩
/-- STK_DROP.VALID3 (08 R245). -/
def F.STK_DROP_VALID3 : Fld := ⟨63, 1⟩
/-- STK_RECOMP.BITS (08 R246). -/
def F.STK_RECOMP_BITS : Fld := ⟨0, 64⟩
/-- WGH_CTL.MAX_OPEN (13 R383). -/
def F.WGH_CTL_MAX_OPEN : Fld := ⟨0, 5⟩
/-- WGH_CTL.HARD_LIMIT (13 R383). -/
def F.WGH_CTL_HARD_LIMIT : Fld := ⟨8, 16⟩
/-- WGH_CTL.SPARSE_CAP (13 R383). -/
def F.WGH_CTL_SPARSE_CAP : Fld := ⟨24, 16⟩
/-- WGH_STAGE.BASE (13 R384). -/
def F.WGH_STAGE_BASE : Fld := ⟨0, 13⟩
/-- WGH_STAGE.SIZE (13 R384). -/
def F.WGH_STAGE_SIZE : Fld := ⟨16, 14⟩
/-- WGH_STAT.OPEN (13 R385). -/
def F.WGH_STAT_OPEN : Fld := ⟨0, 5⟩
/-- WGH_STAT.VOTE_ABORT (13 R385). -/
def F.WGH_STAT_VOTE_ABORT : Fld := ⟨8, 1⟩
/-- WGH_STAT.CHECK_FAIL (13 R385). -/
def F.WGH_STAT_CHECK_FAIL : Fld := ⟨9, 1⟩
/-- WGH_STAT.COPY_INVALID (13 R385). -/
def F.WGH_STAT_COPY_INVALID : Fld := ⟨10, 1⟩
/-- WGH_STAT.GRANTED_BACKUP (13 R385). -/
def F.WGH_STAT_GRANTED_BACKUP : Fld := ⟨11, 1⟩
/-- WGH_STAT.ABANDONED (13 R385). -/
def F.WGH_STAT_ABANDONED : Fld := ⟨12, 1⟩
/-- WGH_STAT.CFG_REFUSED (13 R385). -/
def F.WGH_STAT_CFG_REFUSED : Fld := ⟨13, 1⟩
/-- WGH_STAT.STAGE_FREE (13 R385). -/
def F.WGH_STAT_STAGE_FREE : Fld := ⟨32, 14⟩
/-- WGH_RESID.PAR (13 R386). -/
def F.WGH_RESID_PAR : Fld := ⟨0, 1⟩
/-- WGH_RESID.STEP (13 R386). -/
def F.WGH_RESID_STEP : Fld := ⟨16, 48⟩
/-- WGH_NOISE_P.P (13 R387). -/
def F.WGH_NOISE_P_P : Fld := ⟨0, 64⟩
/-- WGH_NOISE_Q.Q (13 R387). -/
def F.WGH_NOISE_Q_Q : Fld := ⟨0, 64⟩
/-- WGH_NOISE_INFO.BUCKETS (13 R387). -/
def F.WGH_NOISE_INFO_BUCKETS : Fld := ⟨0, 16⟩
/-- WGH_NOISE_INFO.STEP (13 R387). -/
def F.WGH_NOISE_INFO_STEP : Fld := ⟨16, 48⟩
/-- ERR_BCTL.MODE (16 R463). -/
def F.ERR_BCTL_MODE : Fld := ⟨0, 1⟩
/-- ERR_BCTL.MODE_ACT (16 R463). -/
def F.ERR_BCTL_MODE_ACT : Fld := ⟨1, 1⟩
/-- ERR_BCTL.SWITCHING (16 R463). -/
def F.ERR_BCTL_SWITCHING : Fld := ⟨2, 1⟩
/-- ERR_BSTAT.SWEEP_ERROR (16 R464). -/
def F.ERR_BSTAT_SWEEP_ERROR : Fld := ⟨0, 1⟩
/-- ERR_BSTAT.VOTE_ABORT (16 R464). -/
def F.ERR_BSTAT_VOTE_ABORT : Fld := ⟨1, 1⟩
/-- ERR_BSTAT.VOTE_HALT (16 R464). -/
def F.ERR_BSTAT_VOTE_HALT : Fld := ⟨2, 1⟩
/-- ERR_BSTAT.RETIRE_PENDING (16 R464). -/
def F.ERR_BSTAT_RETIRE_PENDING : Fld := ⟨3, 1⟩
/-- ERR_BSTAT.SUSPECT (16 R464). -/
def F.ERR_BSTAT_SUSPECT : Fld := ⟨4, 1⟩
/-- ERR_BSTAT.POISON_ADDRS (16 R464). -/
def F.ERR_BSTAT_POISON_ADDRS : Fld := ⟨16, 5⟩
/-- ERR_BSTAT.SWEEP_PC (16 R464). -/
def F.ERR_BSTAT_SWEEP_PC : Fld := ⟨32, 15⟩
/-- TRC_CTL.EN (20 R554). -/
def F.TRC_CTL_EN : Fld := ⟨0, 1⟩
/-- TRC_CTL.WRAP (20 R554). -/
def F.TRC_CTL_WRAP : Fld := ⟨1, 1⟩
/-- TRC_CTL.SAMPLE_PERIOD (20 R554). -/
def F.TRC_CTL_SAMPLE_PERIOD : Fld := ⟨4, 12⟩
/-- TRC_CTL.STAGE (20 R554). -/
def F.TRC_CTL_STAGE : Fld := ⟨16, 13⟩
/-- TRC_RING.SIZE_LOG2 (20 R554). -/
def F.TRC_RING_SIZE_LOG2 : Fld := ⟨0, 5⟩
/-- TRC_RING.BASE (20 R554). -/
def F.TRC_RING_BASE : Fld := ⟨12, 36⟩
/-- TRC_PTR.HEAD (20 R554). -/
def F.TRC_PTR_HEAD : Fld := ⟨0, 28⟩
/-- TRC_PTR.TAIL (20 R554). -/
def F.TRC_PTR_TAIL : Fld := ⟨32, 28⟩
/-- TRC_STAT.FULL (20 R554). -/
def F.TRC_STAT_FULL : Fld := ⟨0, 1⟩
/-- TRC_STAT.REFUSED (20 R554). -/
def F.TRC_STAT_REFUSED : Fld := ⟨1, 1⟩
/-- TRC_STAT.DROPPED (20 R554). -/
def F.TRC_STAT_DROPPED : Fld := ⟨2, 1⟩
/-- TRC_SEL.SEL0 (20 R554). -/
def F.TRC_SEL_SEL0 : Fld := ⟨0, 16⟩
/-- TRC_SEL.SEL1 (20 R554). -/
def F.TRC_SEL_SEL1 : Fld := ⟨16, 16⟩
/-- TRC_SEL.SEL2 (20 R554). -/
def F.TRC_SEL_SEL2 : Fld := ⟨32, 16⟩
/-- TRC_SEL.SEL3 (20 R554). -/
def F.TRC_SEL_SEL3 : Fld := ⟨48, 16⟩
/-- MK_ID.ID (20 R555). -/
def F.MK_ID_ID : Fld := ⟨0, 32⟩
/-- MK_CNT.COUNT (20 R555). -/
def F.MK_CNT_COUNT : Fld := ⟨0, 64⟩
/-- BENCH_CTR.COUNT (20 R544). -/
def F.BENCH_CTR_COUNT : Fld := ⟨0, 64⟩
/-- TALLY.COUNT (06 R173). -/
def F.TALLY_COUNT : Fld := ⟨0, 64⟩
/-- TALLY_AMAX.AMAX (06 R173). -/
def F.TALLY_AMAX_AMAX : Fld := ⟨0, 32⟩
/-- OPT_PART.SUM (07 R201). -/
def F.OPT_PART_SUM : Fld := ⟨0, 64⟩
/-- IMEM.WORD (10 R308). -/
def F.IMEM_WORD : Fld := ⟨0, 64⟩
/-- CRV_SEG.COEFFS (07 R200). -/
def F.CRV_SEG_COEFFS : Fld := ⟨0, 64⟩
/-- BMC_ROW.OWNER (09 R264). -/
def F.BMC_ROW_OWNER : Fld := ⟨0, 2⟩
/-- BMC_ROW.VALID (09 R264). -/
def F.BMC_ROW_VALID : Fld := ⟨2, 1⟩
/-- BMC_ROW.REFUSED (09 R264). -/
def F.BMC_ROW_REFUSED : Fld := ⟨3, 1⟩
/-- BMC_PART.IMODE (09 R265). -/
def F.BMC_PART_IMODE : Fld := ⟨0, 1⟩
/-- BMC_PART.REFUSED (09 R265). -/
def F.BMC_PART_REFUSED : Fld := ⟨1, 1⟩
/-- BMC_PART.RSV_BASE (09 R265). -/
def F.BMC_PART_RSV_BASE : Fld := ⟨8, 20⟩
/-- BMC_PART.RSV_PAGES (09 R265). -/
def F.BMC_PART_RSV_PAGES : Fld := ⟨32, 20⟩
/-- BMC_SHARE.CRIT (09 R266). -/
def F.BMC_SHARE_CRIT : Fld := ⟨0, 8⟩
/-- BMC_SHARE.NORM (09 R266). -/
def F.BMC_SHARE_NORM : Fld := ⟨8, 8⟩
/-- BMC_SHARE.BULK (09 R266). -/
def F.BMC_SHARE_BULK : Fld := ⟨16, 8⟩
/-- BMC_SHARE.SCRUB (09 R266). -/
def F.BMC_SHARE_SCRUB : Fld := ⟨24, 8⟩
/-- BMC_SHARE.REFUSED (09 R266). -/
def F.BMC_SHARE_REFUSED : Fld := ⟨32, 1⟩
/-- BMC_SCRUB.INTERVAL (09 R266). -/
def F.BMC_SCRUB_INTERVAL : Fld := ⟨0, 16⟩
/-- BMC_STAT.SPARED (09 R267). -/
def F.BMC_STAT_SPARED : Fld := ⟨0, 7⟩
/-- BMC_STAT.ABSENT (09 R267). -/
def F.BMC_STAT_ABSENT : Fld := ⟨7, 1⟩
/-- BMC_STAT.CORRECTED (09 R267). -/
def F.BMC_STAT_CORRECTED : Fld := ⟨8, 1⟩
/-- BMC_STAT.POISONED (09 R267). -/
def F.BMC_STAT_POISONED : Fld := ⟨9, 1⟩
/-- BMC_STAT.UNMAPPED (09 R267). -/
def F.BMC_STAT_UNMAPPED : Fld := ⟨10, 1⟩
/-- BMC_STAT.PASSES (09 R267). -/
def F.BMC_STAT_PASSES : Fld := ⟨32, 32⟩
/-- COW_CTL.ARM (09 R268). -/
def F.COW_CTL_ARM : Fld := ⟨0, 1⟩
/-- COW_CTL.RELEASE (09 R268). -/
def F.COW_CTL_RELEASE : Fld := ⟨1, 1⟩
/-- COW_CTL.BROKEN (09 R268). -/
def F.COW_CTL_BROKEN : Fld := ⟨2, 1⟩
/-- COW_CTL.COPIED (09 R268). -/
def F.COW_CTL_COPIED : Fld := ⟨16, 20⟩
/-- COW_RGN.BASE (09 R268). -/
def F.COW_RGN_BASE : Fld := ⟨0, 20⟩
/-- COW_RGN.PAGES (09 R268). -/
def F.COW_RGN_PAGES : Fld := ⟨24, 20⟩
/-- EXPORT_CTL.OPEN (05 R137). -/
def F.EXPORT_CTL_OPEN : Fld := ⟨0, 1⟩
/-- EXPORT_CTL.CLOSE (05 R137). -/
def F.EXPORT_CTL_CLOSE : Fld := ⟨1, 1⟩
/-- EXPORT_CTL.PENDING (05 R137). -/
def F.EXPORT_CTL_PENDING : Fld := ⟨2, 1⟩
/-- EXPORT_CTL.ACTIVE (05 R137). -/
def F.EXPORT_CTL_ACTIVE : Fld := ⟨3, 1⟩
/-- EXPORT_CTL.STEP (05 R137). -/
def F.EXPORT_CTL_STEP : Fld := ⟨16, 48⟩
/-- PLM_CTL.GF_SHARE (06 R164). -/
def F.PLM_CTL_GF_SHARE : Fld := ⟨0, 8⟩
/-- PLM_CTL.MAX_ATTEMPTS (06 R164). -/
def F.PLM_CTL_MAX_ATTEMPTS : Fld := ⟨8, 4⟩
/-- PLM_CTL.ENABLE (06 R164). -/
def F.PLM_CTL_ENABLE : Fld := ⟨12, 1⟩
/-- PLM_STATUS.EVAL (06 R165). -/
def F.PLM_STATUS_EVAL : Fld := ⟨0, 1⟩
/-- PLM_STATUS.STAGED (06 R165). -/
def F.PLM_STATUS_STAGED : Fld := ⟨1, 1⟩
/-- PLM_STATUS.APPLY_REFUSED (06 R165). -/
def F.PLM_STATUS_APPLY_REFUSED : Fld := ⟨2, 1⟩
/-- PLM_STATUS.TABLE_BAD (06 R165). -/
def F.PLM_STATUS_TABLE_BAD : Fld := ⟨3, 1⟩
/-- PLM_STATUS.LOSS_VALID (06 R165). -/
def F.PLM_STATUS_LOSS_VALID : Fld := ⟨4, 1⟩
/-- PLM_STATUS.ATTEMPT (06 R165). -/
def F.PLM_STATUS_ATTEMPT : Fld := ⟨8, 4⟩
/-- PLM_STATUS.STEP (06 R165). -/
def F.PLM_STATUS_STEP : Fld := ⟨16, 48⟩
/-- PLM_ALARM.KINDS (06 R166). -/
def F.PLM_ALARM_KINDS : Fld := ⟨0, 10⟩
/-- PLM_ALARM_EN.KINDS (06 R166). -/
def F.PLM_ALARM_EN_KINDS : Fld := ⟨0, 10⟩
/-- PLM_CMD.APPLY (06 R167). -/
def F.PLM_CMD_APPLY : Fld := ⟨0, 1⟩
/-- PLM_CMD.RESET_LOSS (06 R167). -/
def F.PLM_CMD_RESET_LOSS : Fld := ⟨1, 1⟩
/-- PLM_LOSS.VALUE (06 R168). -/
def F.PLM_LOSS_VALUE : Fld := ⟨0, 32⟩
/-- PLM_LOSS_CFG.K_LOSS (06 R168). -/
def F.PLM_LOSS_CFG_K_LOSS : Fld := ⟨0, 32⟩
/-- PLM_LOSS_CFG.ALPHA_SH (06 R168). -/
def F.PLM_LOSS_CFG_ALPHA_SH : Fld := ⟨32, 4⟩
/-- PLM_LOSS_CFG.LOSS_VOTE (06 R168). -/
def F.PLM_LOSS_CFG_LOSS_VOTE : Fld := ⟨36, 1⟩
/-- PLM_LOSS_CFG.WARM (06 R168). -/
def F.PLM_LOSS_CFG_WARM : Fld := ⟨40, 16⟩
/-- PLM_LOSS_MEAN.MEAN (06 R168). -/
def F.PLM_LOSS_MEAN_MEAN : Fld := ⟨0, 64⟩
/-- PLM_LOSS_VAR.VAR (06 R168). -/
def F.PLM_LOSS_VAR_VAR : Fld := ⟨0, 64⟩
/-- PLM_LOSS_N.N_LOSS (06 R168). -/
def F.PLM_LOSS_N_N_LOSS : Fld := ⟨0, 64⟩
/-- PLM_SET_VAL.SCALE (06 R169). -/
def F.PLM_SET_VAL_SCALE : Fld := ⟨0, 32⟩
/-- PLM_SET_VAL.STATE (06 R169). -/
def F.PLM_SET_VAL_STATE : Fld := ⟨32, 4⟩
/-- PLM_SET_VAL.MODE (06 R169). -/
def F.PLM_SET_VAL_MODE : Fld := ⟨36, 2⟩
/-- PLM_SET_VAL.FB (06 R169). -/
def F.PLM_SET_VAL_FB : Fld := ⟨38, 1⟩
/-- PLM_SET_VAL.PROFILE (06 R169). -/
def F.PLM_SET_VAL_PROFILE : Fld := ⟨40, 6⟩
/-- PLM_SET_VAL.CAL_LEFT (06 R169). -/
def F.PLM_SET_VAL_CAL_LEFT : Fld := ⟨48, 16⟩
/-- PLM_SET_CMD.CLASS (06 R169). -/
def F.PLM_SET_CMD_CLASS : Fld := ⟨0, 12⟩
/-- PLM_SET_CMD.W_SCALE (06 R169). -/
def F.PLM_SET_CMD_W_SCALE : Fld := ⟨16, 1⟩
/-- PLM_SET_CMD.W_STATE (06 R169). -/
def F.PLM_SET_CMD_W_STATE : Fld := ⟨17, 1⟩
/-- PLM_SET_CMD.W_MODE (06 R169). -/
def F.PLM_SET_CMD_W_MODE : Fld := ⟨18, 1⟩
/-- PLM_SET_CMD.W_FB (06 R169). -/
def F.PLM_SET_CMD_W_FB : Fld := ⟨19, 1⟩
/-- PLM_SET_CMD.W_PROFILE (06 R169). -/
def F.PLM_SET_CMD_W_PROFILE : Fld := ⟨20, 1⟩
/-- PLM_SET_CMD.W_CAL (06 R169). -/
def F.PLM_SET_CMD_W_CAL : Fld := ⟨21, 1⟩
/-- PLM_RULE.TEST (06 R170). -/
def F.PLM_RULE_TEST : Fld := ⟨0, 6⟩
/-- PLM_RULE.THR (06 R170). -/
def F.PLM_RULE_THR : Fld := ⟨8, 24⟩
/-- PLM_RULE.ACTION (06 R170). -/
def F.PLM_RULE_ACTION : Fld := ⟨32, 14⟩
/-- PLM_PROFILE.SIL_THR (06 R170). -/
def F.PLM_PROFILE_SIL_THR : Fld := ⟨0, 24⟩
/-- PLM_PROFILE.SIL_N (06 R170). -/
def F.PLM_PROFILE_SIL_N : Fld := ⟨24, 16⟩
/-- PLM_PROFILE.UWR_LO (06 R170). -/
def F.PLM_PROFILE_UWR_LO : Fld := ⟨40, 8⟩
/-- PLM_PROFILE.UWR_HI (06 R170). -/
def F.PLM_PROFILE_UWR_HI : Fld := ⟨48, 8⟩
/-- PLM_PROFILE.TARGET (06 R170). -/
def F.PLM_PROFILE_TARGET : Fld := ⟨56, 8⟩
/-- PLM_FBMAP.BITS (06 R171). -/
def F.PLM_FBMAP_BITS : Fld := ⟨0, 64⟩
/-- PLM_CLASS0.SCALE (06 R172). -/
def F.PLM_CLASS0_SCALE : Fld := ⟨0, 32⟩
/-- PLM_CLASS0.STATE (06 R172). -/
def F.PLM_CLASS0_STATE : Fld := ⟨32, 4⟩
/-- PLM_CLASS0.MODE (06 R172). -/
def F.PLM_CLASS0_MODE : Fld := ⟨36, 2⟩
/-- PLM_CLASS0.FB (06 R172). -/
def F.PLM_CLASS0_FB : Fld := ⟨38, 1⟩
/-- PLM_CLASS0.PROFILE (06 R172). -/
def F.PLM_CLASS0_PROFILE : Fld := ⟨40, 6⟩
/-- PLM_CLASS0.RUN (06 R172). -/
def F.PLM_CLASS0_RUN : Fld := ⟨48, 16⟩
/-- PLM_CLASS1.UWR (06 R172). -/
def F.PLM_CLASS1_UWR : Fld := ⟨0, 32⟩
/-- PLM_CLASS1.SILENT (06 R172). -/
def F.PLM_CLASS1_SILENT : Fld := ⟨32, 16⟩
/-- PLM_CLASS1.UWR_FRESH (06 R172). -/
def F.PLM_CLASS1_UWR_FRESH : Fld := ⟨48, 1⟩
/-- PLM_CLASS2.CAL_MAX (06 R172). -/
def F.PLM_CLASS2_CAL_MAX : Fld := ⟨0, 32⟩
/-- PLM_CLASS2.CAL_LEFT (06 R172). -/
def F.PLM_CLASS2_CAL_LEFT : Fld := ⟨32, 16⟩
/-- BAR_MASK.MASK (10 R309). -/
def F.BAR_MASK_MASK : Fld := ⟨0, 16⟩
/-- BAR_CTL.TIMEOUT (10 R309). -/
def F.BAR_CTL_TIMEOUT : Fld := ⟨0, 16⟩
/-- PROG_LOAD0.SRC (10 R309). -/
def F.PROG_LOAD0_SRC : Fld := ⟨0, 48⟩
/-- PROG_LOAD1.LEN (10 R309). -/
def F.PROG_LOAD1_LEN : Fld := ⟨0, 16⟩
/-- PROG_LOAD1.MASK (10 R309). -/
def F.PROG_LOAD1_MASK : Fld := ⟨16, 16⟩
/-- PROG_LOAD1.GO (10 R309). -/
def F.PROG_LOAD1_GO : Fld := ⟨32, 1⟩
/-- PROG_LOAD1.DONE (10 R309). -/
def F.PROG_LOAD1_DONE : Fld := ⟨33, 1⟩
/-- PROG_LOAD1.ERROR (10 R309). -/
def F.PROG_LOAD1_ERROR : Fld := ⟨34, 1⟩
/-- BAR_GEN.RELEASED (10 R309). -/
def F.BAR_GEN_RELEASED : Fld := ⟨0, 16⟩
/-- FAB_ID.MODULE (12 R356). -/
def F.FAB_ID_MODULE : Fld := ⟨0, 13⟩
/-- FAB_ID.BUDDY (12 R356). -/
def F.FAB_ID_BUDDY : Fld := ⟨16, 13⟩
/-- FAB_ID.BUDDY_VALID (12 R356). -/
def F.FAB_ID_BUDDY_VALID : Fld := ⟨29, 1⟩
/-- FAB_PORT.STATE (12 R357). -/
def F.FAB_PORT_STATE : Fld := ⟨0, 3⟩
/-- FAB_PORT.SPARED (12 R357). -/
def F.FAB_PORT_SPARED : Fld := ⟨3, 2⟩
/-- FAB_PORT.MARGINAL (12 R357). -/
def F.FAB_PORT_MARGINAL : Fld := ⟨5, 1⟩
/-- FAB_PORT.PEER_MOD (12 R357). -/
def F.FAB_PORT_PEER_MOD : Fld := ⟨8, 13⟩
/-- FAB_PORT.PEER_PORT (12 R357). -/
def F.FAB_PORT_PEER_PORT : Fld := ⟨24, 4⟩
/-- FAB_PORT.PEER_VALID (12 R357). -/
def F.FAB_PORT_PEER_VALID : Fld := ⟨28, 1⟩
/-- FAB_PART.JOB_TAG (12 R358). -/
def F.FAB_PART_JOB_TAG : Fld := ⟨0, 12⟩
/-- FAB_PART.EPOCH (12 R358). -/
def F.FAB_PART_EPOCH : Fld := ⟨16, 16⟩
/-- FAB_PART.ACK_LIMIT (12 R358). -/
def F.FAB_PART_ACK_LIMIT : Fld := ⟨32, 16⟩
/-- FAB_PART.REFUSED (12 R358). -/
def F.FAB_PART_REFUSED : Fld := ⟨48, 1⟩
/-- FAB_PART.SELF_LOST (12 R358). -/
def F.FAB_PART_SELF_LOST : Fld := ⟨49, 1⟩
/-- FAB_TREE.CHILDREN (12 R358). -/
def F.FAB_TREE_CHILDREN : Fld := ⟨0, 16⟩
/-- FAB_TREE.PARENT (12 R358). -/
def F.FAB_TREE_PARENT : Fld := ⟨16, 4⟩
/-- FAB_TREE.ROOT (12 R358). -/
def F.FAB_TREE_ROOT : Fld := ⟨20, 1⟩
/-- FAB_DROP.COUNT (12 R358). -/
def F.FAB_DROP_COUNT : Fld := ⟨0, 64⟩
/-- FAB_LOST.LOST (12 R359). -/
def F.FAB_LOST_LOST : Fld := ⟨0, 64⟩
/-- FAB_ROUTE.PORT0 (12 R360). -/
def F.FAB_ROUTE_PORT0 : Fld := ⟨0, 4⟩
/-- FAB_ROUTE.VALID0 (12 R360). -/
def F.FAB_ROUTE_VALID0 : Fld := ⟨7, 1⟩
/-- FAB_ROUTE.PORT1 (12 R360). -/
def F.FAB_ROUTE_PORT1 : Fld := ⟨8, 4⟩
/-- FAB_ROUTE.VALID1 (12 R360). -/
def F.FAB_ROUTE_VALID1 : Fld := ⟨15, 1⟩
/-- FAB_ROUTE.PORT2 (12 R360). -/
def F.FAB_ROUTE_PORT2 : Fld := ⟨16, 4⟩
/-- FAB_ROUTE.VALID2 (12 R360). -/
def F.FAB_ROUTE_VALID2 : Fld := ⟨23, 1⟩
/-- FAB_ROUTE.PORT3 (12 R360). -/
def F.FAB_ROUTE_PORT3 : Fld := ⟨24, 4⟩
/-- FAB_ROUTE.VALID3 (12 R360). -/
def F.FAB_ROUTE_VALID3 : Fld := ⟨31, 1⟩
/-- FAB_ROUTE.PORT4 (12 R360). -/
def F.FAB_ROUTE_PORT4 : Fld := ⟨32, 4⟩
/-- FAB_ROUTE.VALID4 (12 R360). -/
def F.FAB_ROUTE_VALID4 : Fld := ⟨39, 1⟩
/-- FAB_ROUTE.PORT5 (12 R360). -/
def F.FAB_ROUTE_PORT5 : Fld := ⟨40, 4⟩
/-- FAB_ROUTE.VALID5 (12 R360). -/
def F.FAB_ROUTE_VALID5 : Fld := ⟨47, 1⟩
/-- FAB_ROUTE.PORT6 (12 R360). -/
def F.FAB_ROUTE_PORT6 : Fld := ⟨48, 4⟩
/-- FAB_ROUTE.VALID6 (12 R360). -/
def F.FAB_ROUTE_VALID6 : Fld := ⟨55, 1⟩
/-- FAB_ROUTE.PORT7 (12 R360). -/
def F.FAB_ROUTE_PORT7 : Fld := ⟨56, 4⟩
/-- FAB_ROUTE.VALID7 (12 R360). -/
def F.FAB_ROUTE_VALID7 : Fld := ⟨63, 1⟩
/-- MAP_ADDR.ADDR (14 R409). -/
def F.MAP_ADDR_ADDR : Fld := ⟨0, 48⟩
/-- MAP_CTL.INSTALL (14 R409). -/
def F.MAP_CTL_INSTALL : Fld := ⟨0, 1⟩
/-- MAP_CTL.DONE (14 R409). -/
def F.MAP_CTL_DONE : Fld := ⟨1, 1⟩
/-- MAP_CTL.REFUSED (14 R409). -/
def F.MAP_CTL_REFUSED : Fld := ⟨2, 1⟩
/-- MAP_CTL.REASON (14 R409). -/
def F.MAP_CTL_REASON : Fld := ⟨4, 4⟩
/-- MAP_CTL.EPOCH (14 R409). -/
def F.MAP_CTL_EPOCH : Fld := ⟨16, 16⟩
/-- MAP_CTL.IN_FORCE (14 R409). -/
def F.MAP_CTL_IN_FORCE : Fld := ⟨32, 1⟩
/-- MAP_ID.MAP_ID (14 R409). -/
def F.MAP_ID_MAP_ID : Fld := ⟨0, 64⟩
/-- STEP_CTL.VOTE_LIMIT (14 R410). -/
def F.STEP_CTL_VOTE_LIMIT : Fld := ⟨0, 16⟩
/-- STEP_STAT.LAST_COMMIT (14 R410). -/
def F.STEP_STAT_LAST_COMMIT : Fld := ⟨0, 48⟩
/-- STEP_STAT.COMMIT_VALID (14 R410). -/
def F.STEP_STAT_COMMIT_VALID : Fld := ⟨48, 1⟩
/-- STEP_STAT.CANCELLED (14 R410). -/
def F.STEP_STAT_CANCELLED : Fld := ⟨49, 1⟩
/-- STEP_STAT.OUTCOME (14 R410). -/
def F.STEP_STAT_OUTCOME : Fld := ⟨50, 2⟩
/-- STEP_STAT.ATTEMPT (14 R410). -/
def F.STEP_STAT_ATTEMPT : Fld := ⟨52, 4⟩
/-- STEP_CAUSE.CAUSE (14 R410). -/
def F.STEP_CAUSE_CAUSE : Fld := ⟨0, 11⟩
/-- STEP_CAUSE.FIRST_MOD (14 R410). -/
def F.STEP_CAUSE_FIRST_MOD : Fld := ⟨32, 13⟩
/-- STEP_CAUSE.FIRST_VALID (14 R410). -/
def F.STEP_CAUSE_FIRST_VALID : Fld := ⟨45, 1⟩
/-- MIR_CTL.START (14 R411). -/
def F.MIR_CTL_START : Fld := ⟨0, 1⟩
/-- MIR_CTL.BUSY (14 R411). -/
def F.MIR_CTL_BUSY : Fld := ⟨1, 1⟩
/-- MIR_CTL.DONE (14 R411). -/
def F.MIR_CTL_DONE : Fld := ⟨2, 1⟩
/-- MIR_CTL.FAILED (14 R411). -/
def F.MIR_CTL_FAILED : Fld := ⟨3, 1⟩
/-- MIR_CTL.SET (14 R411). -/
def F.MIR_CTL_SET : Fld := ⟨4, 2⟩
/-- MIR_CTL.RATE (14 R411). -/
def F.MIR_CTL_RATE : Fld := ⟨8, 8⟩
/-- MIR_CTL.STEP (14 R411). -/
def F.MIR_CTL_STEP : Fld := ⟨16, 48⟩
/-- MIR_STAT.PAGES_SENT (14 R411). -/
def F.MIR_STAT_PAGES_SENT : Fld := ⟨0, 32⟩
/-- MIR_STAT.SEQ (14 R411). -/
def F.MIR_STAT_SEQ : Fld := ⟨32, 32⟩
/-- MIR_RX.BASE_ROW (14 R412). -/
def F.MIR_RX_BASE_ROW : Fld := ⟨0, 7⟩
/-- MIR_RX.ROWS (14 R412). -/
def F.MIR_RX_ROWS : Fld := ⟨8, 7⟩
/-- MIR_RX.SOURCE (14 R412). -/
def F.MIR_RX_SOURCE : Fld := ⟨16, 13⟩
/-- MIR_RX.VALID (14 R412). -/
def F.MIR_RX_VALID : Fld := ⟨29, 1⟩
/-- HQ_SQ.SIZE_LOG2 (15 R436). -/
def F.HQ_SQ_SIZE_LOG2 : Fld := ⟨0, 5⟩
/-- HQ_SQ.SQ_BASE (15 R436). -/
def F.HQ_SQ_SQ_BASE : Fld := ⟨12, 52⟩
/-- HQ_CQ.CQ_BASE (15 R436). -/
def F.HQ_CQ_CQ_BASE : Fld := ⟨12, 52⟩
/-- HQ_CTL.ENABLE (15 R436). -/
def F.HQ_CTL_ENABLE : Fld := ⟨0, 1⟩
/-- HQ_CTL.ERROR (15 R436). -/
def F.HQ_CTL_ERROR : Fld := ⟨1, 1⟩
/-- HQ_CTL.ABORTED (15 R436). -/
def F.HQ_CTL_ABORTED : Fld := ⟨2, 1⟩
/-- HQ_CTL.OWNER (15 R436). -/
def F.HQ_CTL_OWNER : Fld := ⟨3, 2⟩
/-- HQ_CTL.OWNED (15 R436). -/
def F.HQ_CTL_OWNED : Fld := ⟨5, 1⟩
/-- HQ_CTL.COAL_COUNT (15 R436). -/
def F.HQ_CTL_COAL_COUNT : Fld := ⟨8, 8⟩
/-- HQ_CTL.COAL_TIME (15 R436). -/
def F.HQ_CTL_COAL_TIME : Fld := ⟨16, 16⟩
/-- HQ_PTR.SQ_HEAD (15 R436). -/
def F.HQ_PTR_SQ_HEAD : Fld := ⟨0, 16⟩
/-- HQ_PTR.SQ_TAIL (15 R436). -/
def F.HQ_PTR_SQ_TAIL : Fld := ⟨16, 16⟩
/-- HQ_PTR.CQ_TAIL (15 R436). -/
def F.HQ_PTR_CQ_TAIL : Fld := ⟨32, 16⟩
/-- HQ_PTR.CQ_HEAD (15 R436). -/
def F.HQ_PTR_CQ_HEAD : Fld := ⟨48, 16⟩
/-- PART_CFG.BENCHES (15 R437). -/
def F.PART_CFG_BENCHES : Fld := ⟨0, 16⟩
/-- PART_CFG.VALID (15 R437). -/
def F.PART_CFG_VALID : Fld := ⟨16, 1⟩
/-- PART_CFG.REFUSED (15 R437). -/
def F.PART_CFG_REFUSED : Fld := ⟨17, 1⟩
/-- HQ_STAT.BAR0_REFUSED (15 R437). -/
def F.HQ_STAT_BAR0_REFUSED : Fld := ⟨0, 1⟩
/-- HQ_STAT.BAR2_UNMAPPED (15 R437). -/
def F.HQ_STAT_BAR2_UNMAPPED : Fld := ⟨1, 1⟩
/-- HQ_STAT.LINK_DOWN (15 R437). -/
def F.HQ_STAT_LINK_DOWN : Fld := ⟨2, 1⟩
/-- HQ_STAT.QUEUES_ABORTED (15 R437). -/
def F.HQ_STAT_QUEUES_ABORTED : Fld := ⟨3, 1⟩
/-- HQ_STAT.CONFIG_CHANGED (15 R437). -/
def F.HQ_STAT_CONFIG_CHANGED : Fld := ⟨4, 1⟩
/-- HQ_LIM.ACK_LIMIT (15 R437). -/
def F.HQ_LIM_ACK_LIMIT : Fld := ⟨0, 16⟩
/-- DB_DROPPED.COUNT (15 R437). -/
def F.DB_DROPPED_COUNT : Fld := ⟨0, 64⟩
/-- BAR2_SEG.VALID (15 R438). -/
def F.BAR2_SEG_VALID : Fld := ⟨0, 1⟩
/-- BAR2_SEG.FE_FILL (15 R438). -/
def F.BAR2_SEG_FE_FILL : Fld := ⟨1, 1⟩
/-- BAR2_SEG.BASE (15 R438). -/
def F.BAR2_SEG_BASE : Fld := ⟨24, 24⟩
/-- HIF_CFG.BIFUR (15 R439). -/
def F.HIF_CFG_BIFUR : Fld := ⟨0, 2⟩
/-- HIF_CFG.BIFUR_ACT (15 R439). -/
def F.HIF_CFG_BIFUR_ACT : Fld := ⟨2, 2⟩
/-- HIF_LINK.UP (15 R439). -/
def F.HIF_LINK_UP : Fld := ⟨0, 1⟩
/-- HIF_LINK.RATE (15 R439). -/
def F.HIF_LINK_RATE : Fld := ⟨1, 3⟩
/-- HIF_LINK.WIDTH (15 R439). -/
def F.HIF_LINK_WIDTH : Fld := ⟨4, 5⟩
/-- HIF_LINK.FLIT (15 R439). -/
def F.HIF_LINK_FLIT : Fld := ⟨9, 1⟩
/-- ERR_RING.SIZE_LOG2 (16 R465). -/
def F.ERR_RING_SIZE_LOG2 : Fld := ⟨0, 5⟩
/-- ERR_RING.BASE (16 R465). -/
def F.ERR_RING_BASE : Fld := ⟨12, 52⟩
/-- ERR_HEAD.HEAD (16 R465). -/
def F.ERR_HEAD_HEAD : Fld := ⟨0, 16⟩
/-- ERR_HEAD.TAIL (16 R465). -/
def F.ERR_HEAD_TAIL : Fld := ⟨16, 16⟩
/-- ERR_HEAD.ENABLE (16 R465). -/
def F.ERR_HEAD_ENABLE : Fld := ⟨32, 1⟩
/-- ERR_STAT.PENDING (16 R465). -/
def F.ERR_STAT_PENDING : Fld := ⟨0, 1⟩
/-- ERR_STAT.RING_ERROR (16 R465). -/
def F.ERR_STAT_RING_ERROR : Fld := ⟨1, 1⟩
/-- ERR_STAT.HELD (16 R465). -/
def F.ERR_STAT_HELD : Fld := ⟨16, 9⟩
/-- ERR_LOST.COUNT (16 R465). -/
def F.ERR_LOST_COUNT : Fld := ⟨0, 64⟩
/-- RETIRE_POLICY.RETIRE_N (16 R466). -/
def F.RETIRE_POLICY_RETIRE_N : Fld := ⟨0, 4⟩
/-- RETIRE_POLICY.PERM_IMMEDIATE (16 R466). -/
def F.RETIRE_POLICY_PERM_IMMEDIATE : Fld := ⟨4, 1⟩
/-- RETIRE_POLICY.HOURS (16 R466). -/
def F.RETIRE_POLICY_HOURS : Fld := ⟨16, 16⟩
/-- PROOF_POLICY.INTERVAL (16 R466). -/
def F.PROOF_POLICY_INTERVAL : Fld := ⟨0, 16⟩
/-- PROOF_POLICY.DEADLINE (16 R466). -/
def F.PROOF_POLICY_DEADLINE : Fld := ⟨16, 16⟩
/-- PROOF_POLICY.IDLE_MIN (16 R466). -/
def F.PROOF_POLICY_IDLE_MIN : Fld := ⟨32, 16⟩
/-- PROOF_STAT.PENDING (16 R467). -/
def F.PROOF_STAT_PENDING : Fld := ⟨0, 16⟩
/-- PROOF_STAT.DONE (16 R467). -/
def F.PROOF_STAT_DONE : Fld := ⟨16, 16⟩
/-- PROOF_STAT.PREEMPTED (16 R467). -/
def F.PROOF_STAT_PREEMPTED : Fld := ⟨32, 1⟩
/-- PROOF_STAT.FAILED (16 R467). -/
def F.PROOF_STAT_FAILED : Fld := ⟨33, 1⟩
/-- RST_CMD.SCOPE (17 R486). -/
def F.RST_CMD_SCOPE : Fld := ⟨0, 3⟩
/-- RST_CMD.BENCH (17 R486). -/
def F.RST_CMD_BENCH : Fld := ⟨4, 4⟩
/-- RST_CMD.PART (17 R486). -/
def F.RST_CMD_PART : Fld := ⟨8, 2⟩
/-- RST_CMD.UCLASS (17 R486). -/
def F.RST_CMD_UCLASS : Fld := ⟨10, 6⟩
/-- RST_CMD.INDEX (17 R486). -/
def F.RST_CMD_INDEX : Fld := ⟨16, 4⟩
/-- RST_CMD.GO (17 R486). -/
def F.RST_CMD_GO : Fld := ⟨20, 1⟩
/-- RST_STAT.LAST_SCOPE (17 R487). -/
def F.RST_STAT_LAST_SCOPE : Fld := ⟨0, 3⟩
/-- RST_STAT.LAST_CAUSE (17 R487). -/
def F.RST_STAT_LAST_CAUSE : Fld := ⟨3, 4⟩
/-- RST_STAT.BUSY (17 R487). -/
def F.RST_STAT_BUSY : Fld := ⟨7, 1⟩
/-- RST_STAT.REFUSED (17 R487). -/
def F.RST_STAT_REFUSED : Fld := ⟨8, 1⟩
/-- RST_STAT.COUNT (17 R487). -/
def F.RST_STAT_COUNT : Fld := ⟨32, 32⟩
/-- CLK_BENCH.MHZ (17 R488). -/
def F.CLK_BENCH_MHZ : Fld := ⟨0, 11⟩
/-- CLK_BENCH.TARGET_MHZ (17 R488). -/
def F.CLK_BENCH_TARGET_MHZ : Fld := ⟨16, 11⟩
/-- CLK_BENCH.LOCKED (17 R488). -/
def F.CLK_BENCH_LOCKED : Fld := ⟨27, 1⟩
/-- CLK_BENCH.STOPPED (17 R488). -/
def F.CLK_BENCH_STOPPED : Fld := ⟨28, 1⟩
/-- PWR_STAT.STATE (18 R503). -/
def F.PWR_STAT_STATE : Fld := ⟨0, 2⟩
/-- PWR_STAT.VIN (18 R503). -/
def F.PWR_STAT_VIN : Fld := ⟨16, 16⟩
/-- PWR_STAT.PIN (18 R503). -/
def F.PWR_STAT_PIN : Fld := ⟨32, 16⟩
/-- PWR_STAT.IIN (18 R503). -/
def F.PWR_STAT_IIN : Fld := ⟨48, 16⟩
/-- PWR_LIMIT.LIMIT_W (18 R503). -/
def F.PWR_LIMIT_LIMIT_W : Fld := ⟨0, 12⟩
/-- PWR_LIMIT.ENVELOPE_W (18 R503). -/
def F.PWR_LIMIT_ENVELOPE_W : Fld := ⟨16, 12⟩
/-- PWR_LIMIT.THROTTLED (18 R503). -/
def F.PWR_LIMIT_THROTTLED : Fld := ⟨32, 1⟩
/-- PWR_LIMIT.REFUSED (18 R503). -/
def F.PWR_LIMIT_REFUSED : Fld := ⟨33, 1⟩
/-- BENCH_PWR.GATE (18 R504). -/
def F.BENCH_PWR_GATE : Fld := ⟨0, 1⟩
/-- BENCH_PWR.GATED (18 R504). -/
def F.BENCH_PWR_GATED : Fld := ⟨1, 1⟩
/-- BENCH_PWR.WAKING (18 R504). -/
def F.BENCH_PWR_WAKING : Fld := ⟨2, 1⟩
/-- BENCH_PWR.REFUSED (18 R504). -/
def F.BENCH_PWR_REFUSED : Fld := ⟨3, 1⟩
/-- BENCH_PWR.HOT (18 R504). -/
def F.BENCH_PWR_HOT : Fld := ⟨4, 1⟩
/-- BENCH_PWR.CRIT (18 R504). -/
def F.BENCH_PWR_CRIT : Fld := ⟨5, 1⟩
/-- BENCH_PWR.THERMAL_CAP_MHZ (18 R504). -/
def F.BENCH_PWR_THERMAL_CAP_MHZ : Fld := ⟨16, 11⟩
/-- BENCH_PWR.TEMP (18 R504). -/
def F.BENCH_PWR_TEMP : Fld := ⟨32, 16⟩
/-- REM_CTL.RELEASE (18 R505). -/
def F.REM_CTL_RELEASE : Fld := ⟨0, 4⟩
/-- REM_CTL.PENDING (18 R505). -/
def F.REM_CTL_PENDING : Fld := ⟨4, 1⟩
/-- REM_CTL.PHASE (18 R505). -/
def F.REM_CTL_PHASE : Fld := ⟨5, 3⟩
/-- REM_CTL.GRACE_S (18 R505). -/
def F.REM_CTL_GRACE_S : Fld := ⟨8, 16⟩
/-- COOL_STAT.INLET (18 R505). -/
def F.COOL_STAT_INLET : Fld := ⟨0, 16⟩
/-- COOL_STAT.OUTLET (18 R505). -/
def F.COOL_STAT_OUTLET : Fld := ⟨16, 16⟩
/-- BOOT_STAT.STAGE (19 R538). -/
def F.BOOT_STAT_STAGE : Fld := ⟨0, 3⟩
/-- BOOT_STAT.FAST (19 R538). -/
def F.BOOT_STAT_FAST : Fld := ⟨3, 1⟩
/-- BOOT_STAT.IDENTITY_FAIL (19 R538). -/
def F.BOOT_STAT_IDENTITY_FAIL : Fld := ⟨4, 1⟩
/-- BOOT_STAT.FW_FALLBACK (19 R538). -/
def F.BOOT_STAT_FW_FALLBACK : Fld := ⟨5, 1⟩
/-- BOOT_STAT.TEST (19 R538). -/
def F.BOOT_STAT_TEST : Fld := ⟨6, 1⟩
/-- BOOT_STAT.SITE_APPLIED (19 R538). -/
def F.BOOT_STAT_SITE_APPLIED : Fld := ⟨7, 1⟩
/-- BOOT_STAT.SLOT_ACTIVE (19 R538). -/
def F.BOOT_STAT_SLOT_ACTIVE : Fld := ⟨8, 1⟩
/-- BOOT_STAT.PENDING_VALID (19 R538). -/
def F.BOOT_STAT_PENDING_VALID : Fld := ⟨9, 1⟩
/-- BOOT_STAT.SLOT_PENDING (19 R538). -/
def F.BOOT_STAT_SLOT_PENDING : Fld := ⟨10, 1⟩
/-- BOOT_STAT.TRIED (19 R538). -/
def F.BOOT_STAT_TRIED : Fld := ⟨11, 1⟩
/-- BOOT_STAT.BOOT_MS (19 R538). -/
def F.BOOT_STAT_BOOT_MS : Fld := ⟨16, 16⟩
/-- BOOT_STAT.SVN_MIN (19 R538). -/
def F.BOOT_STAT_SVN_MIN : Fld := ⟨32, 16⟩
/-- HOST_TIME.TIME (19 R539). -/
def F.HOST_TIME_TIME : Fld := ⟨0, 64⟩
/-- FP_MODULE.GEN (19 R540). -/
def F.FP_MODULE_GEN : Fld := ⟨0, 16⟩
/-- FP_MODULE.ROWS (19 R540). -/
def F.FP_MODULE_ROWS : Fld := ⟨16, 7⟩
/-- FP_MODULE.STACKS (19 R540). -/
def F.FP_MODULE_STACKS : Fld := ⟨24, 8⟩
/-- FP_MODULE.PORTS (19 R540). -/
def F.FP_MODULE_PORTS : Fld := ⟨32, 16⟩
/-- FP_MODULE.ORDER (19 R540). -/
def F.FP_MODULE_ORDER : Fld := ⟨48, 1⟩
/-- FP_HUBCORES.CORES (19 R540). -/
def F.FP_HUBCORES_CORES : Fld := ⟨0, 32⟩
/-- FP_BENCH0.COMPUTE (19 R541). -/
def F.FP_BENCH0_COMPUTE : Fld := ⟨0, 1⟩
/-- FP_BENCH0.LOWER (19 R541). -/
def F.FP_BENCH0_LOWER : Fld := ⟨1, 1⟩
/-- FP_BENCH0.UPPER (19 R541). -/
def F.FP_BENCH0_UPPER : Fld := ⟨2, 1⟩
/-- FP_BENCH0.CUTTERS (19 R541). -/
def F.FP_BENCH0_CUTTERS : Fld := ⟨3, 4⟩
/-- FP_BENCH0.DRESSERS (19 R541). -/
def F.FP_BENCH0_DRESSERS : Fld := ⟨7, 8⟩
/-- FP_BENCH0.WEDGES (19 R541). -/
def F.FP_BENCH0_WEDGES : Fld := ⟨15, 4⟩
/-- FP_BENCH0.SCREENS (19 R541). -/
def F.FP_BENCH0_SCREENS : Fld := ⟨19, 2⟩
/-- FP_BENCH0.HAULERS (19 R541). -/
def F.FP_BENCH0_HAULERS : Fld := ⟨21, 8⟩
/-- FP_BENCH0.WEIGHBRIDGE (19 R541). -/
def F.FP_BENCH0_WEIGHBRIDGE : Fld := ⟨29, 1⟩
/-- FP_BENCH0.STOCKPILE (19 R541). -/
def F.FP_BENCH0_STOCKPILE : Fld := ⟨30, 1⟩
/-- FP_BENCH0.PROOF (19 R541). -/
def F.FP_BENCH0_PROOF : Fld := ⟨31, 1⟩
/-- FP_BENCH0.FOREMAN (19 R541). -/
def F.FP_BENCH0_FOREMAN : Fld := ⟨32, 1⟩
/-- FP_BENCH0.GATED (19 R541). -/
def F.FP_BENCH0_GATED : Fld := ⟨33, 1⟩
/-- FP_BENCH1.BANKS (19 R541). -/
def F.FP_BENCH1_BANKS : Fld := ⟨0, 64⟩
/-- HUB_CTR.COUNT (20 R545). -/
def F.HUB_CTR_COUNT : Fld := ⟨0, 64⟩
/-- PART_CTR.COUNT (20 R545). -/
def F.PART_CTR_COUNT : Fld := ⟨0, 64⟩
/-- TRC_HUB.CORES (20 R556). -/
def F.TRC_HUB_CORES : Fld := ⟨0, 32⟩
/-- TRC_HUB.PART (20 R556). -/
def F.TRC_HUB_PART : Fld := ⟨32, 2⟩
/-- TRC_HUB.EN (20 R556). -/
def F.TRC_HUB_EN : Fld := ⟨34, 1⟩
/-- TRC_HUB.WRAP (20 R556). -/
def F.TRC_HUB_WRAP : Fld := ⟨35, 1⟩
/-- TRC_HUB_RING.SIZE_LOG2 (20 R548). -/
def F.TRC_HUB_RING_SIZE_LOG2 : Fld := ⟨0, 5⟩
/-- TRC_HUB_RING.BASE (20 R548). -/
def F.TRC_HUB_RING_BASE : Fld := ⟨12, 36⟩
/-- TRC_HUB_PTR.HEAD (20 R548). -/
def F.TRC_HUB_PTR_HEAD : Fld := ⟨0, 28⟩
/-- TRC_HUB_PTR.TAIL (20 R548). -/
def F.TRC_HUB_PTR_TAIL : Fld := ⟨32, 28⟩
/-- TRC_HUB_STAT.FULL (20 R548). -/
def F.TRC_HUB_STAT_FULL : Fld := ⟨0, 1⟩
/-- TRC_HUB_STAT.REFUSED (20 R548). -/
def F.TRC_HUB_STAT_REFUSED : Fld := ⟨1, 1⟩
/-- TRC_HUB_STAT.DROPPED (20 R548). -/
def F.TRC_HUB_STAT_DROPPED : Fld := ⟨2, 1⟩

/-- The instance numbers of an offset within a family, or none where it falls between them. -/
def idxOf : List (Nat × Nat) → Nat → Option (List Nat)
  | [], off => if off = 0 then some [] else none
  | (st, n) :: rest, off =>
    if off / st < n then (idxOf rest (off % st)).map (off / st :: ·) else none

/-- The register at a key, with its instance numbers. -/
def regAt : List RegRow → Nat → Option (RegRow × List Nat)
  | [], _ => none
  | r :: rest, k =>
    if r.base ≤ k then
      match idxOf r.idx (k - r.base) with
      | some is => some (r, is)
      | none => regAt rest k
    else regAt rest k

/-- A register family's reset image: each field at its Reset column. -/
def resetImage (fs : List FieldRow) : Nat := fs.foldr (fun r acc => acc + r.reset <<< r.f.lo) 0

end Sys2Proof.Machine
end

