-- ==== Sys2Proof/Machine/Sparse.lean ====
section
/-!
DEFINITION. Sparse tables in one canonical form: strictly rising keys and no entry equal to what an unlisted key reads
as. Memory is such a table of bytes, keyed by device address (spec 01 R21, 21 R557).
-/

namespace Sys2Proof.Machine

/-- What a table holds at a key; `d` is what unlisted keys read as. -/
def tget {α : Type} (d : α) : Tab α → Nat → α
  | [], _ => d
  | (k, v) :: rest, a => if k = a then v else tget d rest a

/-- A table with one key's value put in its place, the order kept. -/
def tput {α : Type} : Tab α → Nat → α → Tab α
  | [], a, b => [(a, b)]
  | (k, v) :: rest, a, b =>
    if k < a then (k, v) :: tput rest a b
    else if k = a then (a, b) :: rest
    else (a, b) :: (k, v) :: rest

/-- A table with one key unlisted. -/
def tdrop {α : Type} (t : Tab α) (a : Nat) : Tab α := t.filter fun e => e.1 != a

/-- Write one key; writing the default removes the entry, so that equal tables are equal lists. -/
def tset {α : Type} [DecidableEq α] (d : α) (t : Tab α) (a : Nat) (v : α) : Tab α :=
  if v = d then tdrop t a else tput t a v

/-- Every key within [lo, hi) unlisted: it reads as its default again. -/
def tclear {α : Type} (t : Tab α) (lo hi : Nat) : Tab α := t.filter fun e => e.1 < lo || hi ≤ e.1

/-- The entries whose keys satisfy `moved` put at their keys' images under `g`, the others left where they are. -/
def relocate {α : Type} [DecidableEq α] (d : α) (t : Tab α) (moved : Nat → Bool) (g : Nat → Nat) : Tab α :=
  (t.filter fun e => moved e.1).foldl (fun t e => tset d t (g e.1) e.2) (t.filter fun e => !moved e.1)

/-- The canonical form of a table: keys strictly rising, no entry equal to the default at its key. -/
abbrev twf {α : Type} (d : Nat → α) (t : Tab α) : Prop :=
  (t.map Prod.fst).Pairwise (· < ·) ∧ ∀ e ∈ t, e.2 ≠ d e.1

/-- One byte of memory; a byte that nothing has written reads zero (R480, assumption 2, DEDUCED). -/
def mget (m : List Host.Cell) (a : Nat) : Byte := tget 0 m a

/-- Write one byte of memory. -/
def mset (m : List Host.Cell) (a : Nat) (b : Byte) : List Host.Cell := tset 0 m a b

/-- `n` bytes from address `a`. (assumption 2, DEDUCED) -/
def mread (m : List Host.Cell) (a : Nat) : Nat → List Byte
  | 0 => []
  | n + 1 => mget m a :: mread m (a + 1) n

/-- Bytes written from address `a` up. (assumption 2, DEDUCED) -/
def mwrite (m : List Host.Cell) (a : Nat) : List Byte → List Host.Cell
  | [] => m
  | b :: bs => mwrite (mset m a b) (a + 1) bs

/-- The canonical form of memory. (assumption 2, DEDUCED) -/
abbrev Memory.wf (m : List Host.Cell) : Prop := twf (fun _ => (0 : Byte)) m

end Sys2Proof.Machine
end

