-- ==== Sys2Proof/Machine/State.lean ====
section
/-!
DEFINITION. The state of one TQ-16 module as plain data: every register, queue, buffer, memory and mode the
specification gives it, and the queue of commands that wait; `State.reset` is the module right after power-on reset.
-/

namespace Sys2Proof.Machine

/-! ## Memory words -/

/-- What a 16-byte word carries beside its data: the three full/empty cells (R207), poison (R209), a stored error not yet
rewritten (R208), and whether a correction of it was already recorded or rewritten in this patrol interval (R208, R456). -/
structure WordMark where
  cells : BitVec 3
  poison : Bool
  upset : Upset
  noted : Bool
  rewritten : Bool
  deriving DecidableEq, Repr

/-- A word no event has touched: empty, not poisoned, no error (R480). (assumption 2, DEDUCED) -/
def WordMark.clear : WordMark := ⟨0, false, .clean, false, false⟩

/-! ## Foreman -/

/-- The five Foreman states (R298). -/
inductive FmState | stopped | running | draining | halted | faulted
  deriving DecidableEq, Repr

/-- A register whose value is still to arrive (R319). -/
inductive Pend
  | s (r : BitVec 5) (v : Word)
  | t (r : BitVec 4) (v : Desc)
  deriving DecidableEq, Repr

/-- An entry of the signal buffer: a SYNC.SIG or the arrival of a SYNC.BAR, with the fences that precede it and its place (R283). -/
inductive SigKind
  | sig (mode : BitVec 2) (addr : Nat) (image : Line16)
  | bar (fabric : Bool) (bid : Fin 16)
  deriving DecidableEq, Repr

structure Sig where
  kind : SigKind
  part : Part
  after : List Nat
  pc : BitVec 15
  mark : BitVec 32
  deriving DecidableEq, Repr

/-- An outstanding SYNC.FENCE: its number, the instructions it still covers, and its PC and marker (R285). -/
structure Fence where
  id : Nat
  covers : List Nat
  pc : BitVec 15
  mark : BitVec 32
  deriving DecidableEq, Repr

/-- What a gate waits for. -/
inductive GateKind
  | word (addr : Nat) (cond : BitVec 2) (cmp : Word)
  | fence (id : Nat)
  | barrier (part : Part) (fabric : Bool) (bid : Fin 16) (gen : BitVec 16)
  deriving DecidableEq, Repr

/-- A gate that has not opened: its number, what it waits for, whether the Foreman stalls on it and which register its
word's bits [63:0] go to (R284), and the PC and marker of the instruction that placed it (R291). -/
structure Gate where
  id : Nat
  kind : GateKind
  fmStall : Bool
  rd : BitVec 5
  pc : BitVec 15
  mark : BitVec 32
  deriving DecidableEq, Repr

/-- A STEP.VOTE that has not retired: the program's vote, the covered instructions still outstanding, the fences before it,
its destination, whether the Bench's vote was sent, and its PC and marker (R293, R294). -/
structure VoteReq where
  vote : Vote
  covers : List Nat
  after : List Nat
  rd : BitVec 5
  sent : Bool
  pc : BitVec 15
  mark : BitVec 32
  deriving DecidableEq, Repr

/-- What a waiting Foreman access does (R281, R320, R321). -/
inductive FmOp | ld | st | tld | tst
  deriving DecidableEq, Repr

/-- A Foreman access that waits on a full/empty bit (R281): what it does, its register, address and FE, what it stores, the
words it has read so far, how many it has performed, and the PC, marker and OP of its instruction. -/
structure FmAccess where
  op : FmOp
  reg : BitVec 5
  addr : Nat
  fe : BitVec 2
  value : Desc
  got : List Line16
  done : Nat
  pc : BitVec 15
  mark : BitVec 32
  opcode : BitVec 10
  deriving DecidableEq, Repr

/-- A Foreman's architectural state (R272) and its outstanding work. `ninth` is the fence whose retiring a ninth one stalls for
(R285). `evalReq` lists what a PLM.EVAL's snapshot still waits
for, and `evalAt` is the number of the first instruction dispatched after it (R146). -/
structure Foreman where
  st : FmState
  s : Vector Word 32
  t : Vector Desc 16
  p : BitVec 8
  pc : BitVec 15
  marks : List (BitVec 32)
  pend : List Pend
  sigs : List Sig
  fences : List Fence
  ninth : Option Nat
  gates : List Gate
  voteReq : Option VoteReq
  parked : Option FmAccess
  ending : Bool
  clearing : Bool
  nextId : Nat
  evalReq : Option (List Nat)
  evalAt : Nat
  evalSent : Bool
  evalDone : Bool
  faultVote : Option Vote
  deriving DecidableEq, Repr

def Foreman.reset : Foreman :=
  { st := .stopped, s := Vector.replicate 32 0, t := Vector.replicate 16 0, p := 1, pc := 0, marks := [], pend := [],
    sigs := [], fences := [], ninth := none, gates := [], voteReq := none, parked := none, ending := false, clearing := false,
    nextId := 0, evalReq := none, evalAt := 0, evalSent := false, evalDone := false, faultVote := none }

/-! ## Engine queues and units -/

/-- An engine instruction in its queue: what it is, the registers it copied (R273), and the state it captured at dispatch (R111,
R175, R233): step and attempt in force, job seed, rotation slots, drop list, PAR, whether an export session was active, and
whether its work belongs to the open attempt (R447). -/
structure Entry where
  id : Nat
  op : EngOp
  sel : Nat
  unit : Option Nat
  ds : List Desc
  rs : List Word
  step : Nat
  attempt : Nat
  seed : Word
  rots : List Word
  drops : List Word
  par : Bool
  exp : Bool
  stepWork : Bool
  pc : BitVec 15
  mark : BitVec 32
  opcode : BitVec 10
  deriving DecidableEq, Repr

/-- What stands in an engine queue (R279). -/
inductive QItem
  | instr (e : Entry)
  | gate (id : Nat)
  | freeCat (id : Nat)
  | modeSwitch (pair : Bool)
  deriving DecidableEq, Repr

/-- A word an instruction has read: data, poison. -/
structure Got where
  data : Line16
  poison : Bool
  deriving DecidableEq, Repr

/-- A word an instruction is to read: its word number, FE_RD, the protection set it views through (R262), and its class at a
stack: 0 CRITICAL, 1 NORMAL, 2 BULK, 3 SCRUB (R255). -/
structure RdReq where
  word : Nat
  fe : BitVec 2
  view : Option (Fin 4)
  cls : Nat
  deriving DecidableEq, Repr

/-- A word an instruction is to write: the bits written, FE_WR, whether it is written poisoned, and its class at a stack
(R255). -/
structure WrReq where
  word : Nat
  data : Line16
  mask : Line16
  fe : BitVec 2
  poison : Bool
  cls : Nat
  deriving DecidableEq, Repr

/-- An instruction in progress on a unit: its words still to read, the words read, its writes once they are computed, and
the packets or host writes still to be acknowledged (R278, R350, R432), an upset of its unit's arithmetic (R443), and whether a
pop's remaining bulk reads go CRITICAL (R236). -/
structure Running where
  e : Entry
  q : Fin 8
  unit : Nat
  parked : Bool
  scales : List Word
  tables : List (List Word)
  reads : List RdReq
  got : Tab Got
  computed : Bool
  writes : List WrReq
  remote : List (Nat × Nat)
  upset : Option UnitUpset
  critical : Bool
  deriving DecidableEq, Repr

/-! ## Arrays -/

/-- A stationary tile: the B fields of the instruction that loaded it, its elements as (code, SE8) column by column, and
whether any word of it was poisoned (R80, R442). -/
structure Tile where
  desc : Desc
  n : Nat
  k : Nat
  n0 : Nat
  k0 : Nat
  tb : Bool
  passes : Nat
  spl : Bool
  cols : List (List (Nat × Nat))
  poison : Bool
  deriving DecidableEq, Repr

/-- An array instruction on its unit: its shape, the scale and tables it captured (R74), its mode (R26), whether it runs on a
pair (R445), and how far its updates and drains have come. -/
structure ArrJob where
  e : Entry
  f : MMFields
  m : Nat
  n : Nat
  k : Nat
  a0 : Nat
  d0 : Nat
  m0 : Nat
  n0 : Nat
  k0 : Nat
  sab : Word
  tabA : List Nat
  tabB : List Nat
  decode : Bool
  pair : Bool
  updated : Nat
  drained : Nat
  deriving DecidableEq, Repr

/-- One Cutter or Dresser (R77, R80, R100): accumulator words keyed row * 256 + column, the rows written clean since a
reset (every other row is poisoned, R480), its two tile buffers, and the instructions loading, streaming and draining. -/
structure ArrayUnit where
  acc : Tab (BitVec 32)
  good : List Nat
  checked : Option Nat
  load : Option ArrJob
  back : Option (ArrJob × Tile)
  front : Option Tile
  frontIdx : Bool
  stream : Option ArrJob
  drains : List ArrJob
  lastPasses : Nat
  loadReads : List RdReq
  loadGot : Tab Got
  rowReads : List RdReq
  rowGot : Tab Got
  rowPlanned : Bool
  drainWrites : List WrReq
  drainPlanned : Bool
  parked : Bool
  deriving DecidableEq, Repr

def ArrayUnit.reset : ArrayUnit :=
  { acc := [], good := [], checked := none, load := none, back := none, front := none, frontIdx := false, stream := none,
    drains := [], lastPasses := 0, loadReads := [], loadGot := [], rowReads := [], rowGot := [], rowPlanned := false,
    drainWrites := [], drainPlanned := false, parked := false }

/-! ## Stockpile -/

/-- State of a catalogue entry (R231); an unlisted entry is FREE. -/
inductive CatState | free | stashed | dropped
  deriving DecidableEq, Repr

/-- A catalogue entry: its tag, the stash descriptor as the push fixed it, its tier, first 64 KiB unit and size in units, and
the order of its push (R231-R235). -/
structure CatEntry where
  st : CatState
  tag : Nat
  desc : Desc
  bulk : Bool
  unit : Nat
  units : Nat
  order : Nat
  deriving DecidableEq, Repr

/-! ## Weighbridge -/

/-- A copy of a slot's part of a shard as its owner holds it (R369, R371, R374): which listed member was last granted, whether
that GRANT was sent, the payloads received by their offset, the SUMS words once they came, and whether the copy was taken. -/
structure SlotCopy where
  member : Nat
  granted : Bool
  parts : Tab (List Byte)
  sums : Option (List Word)
  taken : Bool
  deriving DecidableEq, Repr

/-- One shard of an open bucket (R364, R369). Its owner holds a copy per slot, its stage units and whether the result was sent;
every member holds the CAP its owner granted it, how many CONTRIB packets of its part and whether all of it was sent, the result
payloads received by their offset, whether they passed the check, whether the shard was abandoned, and the RSUMS words. -/
structure Shard where
  copies : List SlotCopy
  units : Nat
  granted : Option Nat
  sent : Nat
  partSent : Bool
  resultSent : Bool
  got : Tab (List Byte)
  resultDone : Bool
  abandoned : Bool
  rsums : List Word
  deriving DecidableEq, Repr

def Shard.fresh : Shard :=
  { copies := [], units := 0, granted := none, sent := 0, partSent := false, resultSent := false, got := [], resultDone := false,
    abandoned := false, rsums := [] }

/-- An open bucket (R361-R366): its identifier, this module's slot, its group's slots with their members (module, partition),
the owners fixed at opening, its element count and shard length, its shards; the words of its operands still to read and those
read, whether its indices were looked at, the writes still to perform, whether the remainder was planned, whether its time is up
(R376), its requests that were counted as parked (R213), and the bytes of words that later instructions have written (R216). -/
structure Bucket where
  e : Entry
  id : BitVec 32
  slot : Nat
  slots : List (List (Nat × Nat))
  owners : List (Nat × Nat)
  elems : Nat
  lsize : Nat
  sparse : Bool
  noise : Bool
  cap : Nat
  shards : List Shard
  reads : List RdReq
  got : Tab Got
  idxRead : Bool
  writes : List WrReq
  remDone : Bool
  late : Bool
  held : List (Bool × Nat)
  shadow : Tab Line16
  deriving DecidableEq, Repr

/-- A GRANT that came before its bucket: bucket, step, granting module and partition, CAP (R369). -/
structure GrantRec where
  bucket : BitVec 32
  step : Nat
  src : Nat × Nat
  cap : Nat
  deriving DecidableEq, Repr

/-- One Weighbridge (R361-R379): open buckets, the grant record, the peers whose DRAIN is awaited in a step's replay and those
whose DRAIN came before this module acted, its vote, the noise sums of completed buckets as (instruction, P, Q), the instructions
still queued when their attempt ended without effect, and whether a HALT has ended the step in force (R377). -/
structure Weighbridge where
  buckets : List Bucket
  grants : List GrantRec
  awaitDrain : List (Nat × Nat)
  drained : List (Nat × Nat)
  voteAbort : Bool
  noise : List (Nat × Word × Word)
  ended : List Nat
  quiet : Bool
  deriving DecidableEq, Repr

def Weighbridge.reset : Weighbridge :=
  { buckets := [], grants := [], awaitDrain := [], drained := [], voteAbort := false, noise := [],
    ended := [], quiet := false }

/-! ## Bench -/

/-- One Bench: its Foreman, its seven queues in ENG order (index 1 HAUL to 7 STK; 0 unused), which of them a fault stopped (R301),
its twelve arrays (C0 to C3, then D0 to D7), the instructions in progress on its other units, the Stockpile's catalogue, the
Weighbridge, the poisoned addresses read in the step's attempts with the attempt that first read each (R447), its error
controller's vote, its clock's count (R470), the optimiser deposits that wait for an older instruction's (R194), the Tally counts
of instructions behind a PLM.EVAL whose snapshot is still to come (R146), and the register writes held in the crossing into its
stopped clock domain, by key (R476). -/
structure Bench where
  fm : Foreman
  q : Vector (List QItem) 8
  stopped : BitVec 8
  arr : Vector ArrayUnit 12
  run : List Running
  cat : Tab CatEntry
  pushes : Nat
  wgh : Weighbridge
  poisoned : List (Nat × Nat)
  errVote : Vote
  lru : Tab Nat
  grantNo : Nat
  patrol : Tab Nat
  cycles : BitVec 48
  wrap : BitVec 16
  trace : List (List Word)
  traceAt : Nat
  traceIn : Nat
  tracePhase : Bool
  traceLost : Nat
  latch : Tab (BitVec 32)
  deposits : List (Nat × Nat × List Word)
  after : Tab Word
  xing : List (Nat × Word)
  deriving DecidableEq, Repr

def CatEntry.none : CatEntry := ⟨.free, 0, 0, false, 0, 0, 0⟩

def Bench.reset : Bench :=
  { fm := Foreman.reset, q := Vector.replicate 8 [], stopped := 0, arr := Vector.replicate 12 ArrayUnit.reset,
    run := [], cat := [], pushes := 0, wgh := Weighbridge.reset, poisoned := [], errVote := .pass,
    lru := [], grantNo := 0, patrol := [],
    cycles := 0, wrap := 0, trace := [], traceAt := 0, traceIn := 0, tracePhase := true, traceLost := 0, latch := [], deposits := [],
    after := [], xing := [] }

/-! ## Step control and barriers -/

/-- An entry of the installed tree table (R389). -/
structure TreeEnt where
  mod : Nat
  part : Nat
  root : Bool
  parent : Nat
  deriving DecidableEq, Repr

/-- The image an install copied into the Hub (R392): the tree table and the five axes' groups, each a list of slots, each slot
its members (module, partition), primary first. -/
structure Mapping where
  tree : List TreeEnt
  groups : List (Option (List (List (Nat × Nat))))
  deriving DecidableEq, Repr

/-- Whether a step is open at the controller (R292). -/
inductive StepPhase | idle | opened | voting
  deriving DecidableEq, Repr

/-- A partition's step controller (R292, R395-R401): the last outcome with its step and attempt, the step in progress, the votes
gathered for it, what it has sent, the OUTCOME it holds, the last step whose optimiser sweep has begun, the last whose sweep had
completed before that one began and what is left of it as (Bench, instruction) (R126), and the ALERT (step, attempt, origin) and
the CANCEL (step, attempt) that went on for an attempt not yet open here (R400). -/
structure StepCtl where
  last : Option (Result × Nat × Nat)
  phase : StepPhase
  step : Nat
  attempt : Nat
  benchVotes : List (Nat × Vote)
  plumbVote : Option Vote
  diverged : Bool
  lostNow : Bool
  kids : List (Nat × Vote)
  causes : BitVec 11
  sentVote : Option Vote
  alerted : Bool
  cancelled : Bool
  outcome : Option Result
  firstMod : Option Nat
  mapping : Option Mapping
  swept : Option Nat
  sweptBefore : Option Nat
  sweepLeft : List (Nat × Nat)
  early : Option (Nat × Nat × Nat)
  earlyCancel : Option (Nat × Nat)
  deriving DecidableEq, Repr

def StepCtl.reset : StepCtl :=
  { last := none, phase := .idle, step := 0, attempt := 0, benchVotes := [], plumbVote := none, diverged := false,
    lostNow := false, kids := [], causes := 0, sentVote := none, alerted := false, cancelled := false, outcome := none,
    firstMod := none, mapping := none, swept := none, sweptBefore := none, sweepLeft := [], early := none, earlyCancel := none }

/-- The step history emptied: no outcome is remembered and no attempt is in progress; the mapping and the sweeps stay (R292).
(assumption 55, DEDUCED) -/
def StepCtl.emptied (c : StepCtl) : StepCtl :=
  { StepCtl.reset with mapping := c.mapping, swept := c.swept, sweptBefore := c.sweptBefore, sweepLeft := c.sweepLeft }

/-- The last step whose optimiser sweep has completed (R126). (assumption 25, DEDUCED) -/
def StepCtl.sweptDone (c : StepCtl) : Option Nat := if c.sweepLeft.isEmpty then c.swept else c.sweptBefore

/-- A partition's barrier counts (R289, R290, R351): arrivals on their way to the Hub (Bench, scope, BID), arrivals keyed
BID * 16 + Bench, the generations of FABRIC scope as (BID, generation), generations that came from child ports keyed
BID * 16 + port, and the last generation sent up the tree, keyed by BID. -/
structure Barrier where
  coming : List (Bid × Bool × Fin 16)
  arrived : Tab (BitVec 16)
  fabric : List (Nat × Nat)
  kids : Tab (BitVec 16)
  sentUp : Tab (BitVec 16)
  deriving DecidableEq, Repr

def Barrier.reset : Barrier := ⟨[], [], [], [], []⟩

/-! ## Error aggregator -/

/-- A record in the making: its eight words (R449), with the partitions it goes to besides those its unit belongs to. -/
abbrev Rec := List Word

/-- A 1 ms merge window (R454): the identity of the record written, and the held record with its count. -/
structure MergeWin where
  key : Word
  held : Option Rec
  count : Nat
  deriving DecidableEq, Repr

/-- The global error aggregator (R452-R455): records on their way, records held per partition, ring phases, merge windows,
and the module log. -/
structure ErrAgg where
  coming : List Rec
  held : Vector (List Rec) 4
  phase : Vector Bool 4
  wins : List MergeWin
  log : List Rec
  deriving DecidableEq, Repr

def ErrAgg.reset : ErrAgg :=
  { coming := [], held := Vector.replicate 4 [], phase := Vector.replicate 4 true, wins := [], log := [] }

/-! ## Plumbs -/

/-- Fields of a class entry that PLM_SET_CMD has put into the shadow (R153, R169). -/
structure ShadowEnt where
  scale : Option Nat
  state : Option Nat
  mode : Option Nat
  fb : Option Nat
  profile : Option Nat
  cal : Option Nat
  deriving DecidableEq, Repr

def ShadowEnt.none : ShadowEnt := ⟨.none, .none, .none, .none, .none, .none⟩

/-- A class's deltas in a snapshot, and its optimiser partials (R146, R156). -/
structure ClassDelta where
  cls : Nat
  ev : Ev
  part : Option (Word × Word)
  deriving DecidableEq, Repr

/-- The staged result of an evaluation (R149): the three words of every class entry that changed, the protective classes, the
vote, and the loss statistics to install. -/
structure Staged where
  entries : Tab (Word × Word × Word)
  protect : List Nat
  vote : Vote
  loss : Option (Word × Word × Word)
  deriving DecidableEq, Repr

/-- A partition's Plumbs, which hold identical copies (R139): the rules and profiles in force (the registers hold the shadow,
R170), the shadow's class fields, the last readings of every counter, the snapshots gathered, the sums broadcast, and the
staged result. -/
structure Plumb where
  rules : Tab Word
  profiles : Tab Word
  shadow : Tab ShadowEnt
  resetLoss : Bool
  base : Tab Word
  snaps : List (Nat × List ClassDelta)
  sums : Option (List ClassDelta)
  staged : Option Staged
  gfStep : Option Nat
  deriving DecidableEq, Repr

def Plumb.reset : Plumb :=
  { rules := [], profiles := [], shadow := [], resetLoss := false, base := [], snaps := [], sums := none, staged := none,
    gfStep := none }

/-! ## Bulk memory -/

/-- A protection set's images (R259-R263): the reserve page that holds the copy recorded for each page. -/
structure CowSet where
  copies : Tab Nat
  deriving DecidableEq, Repr

/-- One bulk stack (R248, R256, R258): its window slot, the grants of each class in the window, the requests waiting with the
oldest first, as (port of a unit, word), patrol position, whether a patrol read waits for its slot, and its lane map. -/
structure Stack where
  slot : Nat
  grants : List Nat
  waiting : List (Nat × Nat)
  patrol : Nat
  due : Bool
  lanes : List (Nat × Nat)
  deriving DecidableEq, Repr

def Stack.reset : Stack := { slot := 0, grants := [0, 0, 0, 0], waiting := [], patrol := 0, due := false, lanes := [] }

/-- A snapshot mirror in progress (R406): its set, the pages still to send, those sent, whether it began, and whether its manifest
is sent. -/
structure MirrorTx where
  set : Nat
  todo : List Nat
  sent : List Nat
  begun : Bool
  manifestSent : Bool
  deriving DecidableEq, Repr

/-- A mirror being received (R406-R408): the bank written, the bytes of pages received, the source partition and module. -/
structure MirrorRx where
  bank : Nat
  bytes : Nat
  srcPart : Nat
  srcMod : Nat
  deriving DecidableEq, Repr

/-- Bulk memory's controllers: the protection sets keyed partition * 4 + set, pages being copied, rows being zeroed with the
BMC_ROW value to come, the stacks, the mirrors, and the export conversions (Bench, instruction) that each closing session
waits for (R126). -/
structure Bulk where
  cow : Vector CowSet 16
  copying : List Nat
  zeroing : List (Nat × Word)
  stk : Vector Stack 8
  tx : Vector (Option MirrorTx) 4
  rx : Option MirrorRx
  closing : Vector (List (Nat × Nat)) 4
  deriving DecidableEq, Repr

def Bulk.reset : Bulk :=
  { cow := Vector.replicate 16 ⟨[]⟩, copying := [], zeroing := [], stk := Vector.replicate 8 Stack.reset,
    tx := Vector.replicate 4 none, rx := none, closing := Vector.replicate 4 [] }

/-! ## Links -/

/-- One port (R345-R348): queued packets and credits of each class, the credits owed to the peer and those that went to it in
idle symbols, the next sequence numbers, the frames not yet known received, the returned credits of each class not yet set
against a frame (below zero where a NAK proved a receipt first), how often the first frame was resent, whose turn DATA and REDUCE
have, and its lane map. -/
structure PortSt where
  sendq : Vector (List Packet) 5
  credits : Vector Nat 5
  owed : Vector Nat 5
  idles : Vector Nat 5
  known : Vector Int 5
  txSeq : BitVec 12
  rxSeq : BitVec 12
  resend : List Frame
  outbox : List Frame
  nak : Option (BitVec 12)
  resends : Nat
  reduceTurn : Bool
  lanes : List Nat
  deriving DecidableEq, Repr

/-- Receive-buffer credits of each class in 64-byte units (R345). -/
def fullCredits : Vector Nat 5 := #v[8192, 8192, 256, 256, 256]

def PortSt.reset : PortSt :=
  { sendq := Vector.replicate 5 [], credits := fullCredits, owed := Vector.replicate 5 0,
    idles := Vector.replicate 5 0, known := Vector.replicate 5 0, txSeq := 0, rxSeq := 0,
    resend := [], outbox := [], nak := none, resends := 0, reduceTurn := false, lanes := [] }

/-- The fabric interface: the ports, and delivered packets waiting for the unit that serves their class, with the port they
came by (none for a packet the module sent itself, R343). -/
structure Fabric where
  ports : Vector PortSt 16
  inbox : List (Option PortNo × Packet)
  deriving DecidableEq, Repr

def Fabric.reset : Fabric := { ports := Vector.replicate 16 PortSt.reset, inbox := [] }

/-! ## Host interface -/

/-- A queue command that was fetched and has not posted its completion (R426-R429): its entry, SQ_HEAD after its fetch,
whether it began, units moved, result word, whether it read poison, its final status once it ended, the address of a flushing read
that is out (R432), the Benches that a START took out of STOPPED, its place among the ended commands of its queue, and whether its
next request is parked at a bank (R213). An entry that the host did not deliver has no words. -/
structure QCmd where
  words : List Word
  head : Nat
  begun : Bool
  moved : Nat
  result : Word
  poison : Bool
  status : Option Nat
  flushing : Option Nat
  left : BitVec 16
  doneNo : Nat
  parked : Bool
  deriving DecidableEq, Repr

/-- A submission queue beside its registers (R424-R431): its commands, the next completion's phase, completions held for
room, and completions posted but not signalled. -/
structure QState where
  cmds : List QCmd
  phase : Bool
  held : List (Word × Word)
  unsignalled : Nat
  deriving DecidableEq, Repr

def QState.idle : QState := ⟨[], true, [], 0⟩

/-- What a host's last BAR read answered: bytes with the TLP's poison, or a Completer Abort (R418, R420). -/
inductive BarAnswer
  | data (v : Nat) (poison : Bool)
  | abort
  deriving DecidableEq, Repr

/-- A function's mailbox (R433). -/
structure Mailbox where
  busy : Bool
  answered : Bool
  result : Nat
  msg : BitVec 16
  tag : BitVec 16
  resp : List Byte
  deriving DecidableEq, Repr

/-- One host port: the host bytes the module has written, host bytes it wrote with the Poisoned attribute, the MSI-X vectors
raised, the last BAR answer, the mailbox, BAR2's size as a power of two (R416), Max_Payload_Size and Max_Read_Request_Size in
bytes, the Completion Timeout range, 0 to 3 for A to D (R414), and the entries written in the MSI-X table, as (address, data)
(R430). (assumption 10, DESIGN CHOICE) -/
structure HostPort where
  mem : Tab Byte
  ep : List Nat
  msix : List Nat
  answer : Option BarAnswer
  mbx : Mailbox
  barLog2 : Nat
  mps : Nat
  mrrs : Nat
  ctoRange : Nat
  vectors : Tab (Word × BitVec 32)
  deriving DecidableEq, Repr

/-- BAR2 resets to 16 GiB (R416) and the Completion Timeout to range B (R414). The sizes of payload and read request reset to the
family's 128 and 512 bytes (assumption 78, PRESUMED). -/
def HostPort.reset : HostPort :=
  { mem := [], ep := [], msix := [], answer := none, mbx := ⟨false, false, 0, 0, 0, []⟩, barLog2 := 34, mps := 128, mrrs := 512,
    ctoRange := 1, vectors := [] }

/-- The host interface: the four ports, the queues beside their registers, and the partitions whose queues are being aborted
(R435). -/
structure HostIf where
  ports : Vector HostPort 4
  queues : Tab QState
  aborting : BitVec 4
  deriving DecidableEq, Repr

def HostIf.reset : HostIf := { ports := Vector.replicate 4 HostPort.reset, queues := [], aborting := 0 }

/-! ## Fault history, retirement, Proof runs -/

/-- A unit of the floor plan: Bench (16 for the Hub, 31 for none), class and index (R449, R450). -/
structure UnitId where
  bench : Nat
  cls : Nat
  index : Nat
  deriving DecidableEq, Repr

/-- A fault history entry (R456). -/
structure HistEnt where
  event : Nat
  hour : Nat
  step : Nat
  attempt : Nat
  rc : Option (Nat × Nat)
  perm : Bool
  deriving DecidableEq, Repr

/-- A pending or running Proof (R459-R462): its unit and partition, whether it runs, whether its deadline passed, and whether it
decides a disagreement of the two views. -/
structure ProofReq where
  u : UnitId
  part : Option Part
  running : Bool
  late : Bool
  views : Bool
  deriving DecidableEq, Repr

/-- Fault history and unit health: faults found and not yet entered, entries per unit, the environment log, units pending
retirement, retired, failed for this boot, failed in the management view and in the Bench view, units whose core has stopped
(R443), the Proofs, and the hour of each unit's last one, keyed by `UnitId.no`. -/
structure Health where
  faults : List Rec
  hist : List (UnitId × List HistEnt)
  env : List Rec
  pending : List UnitId
  retired : List UnitId
  restore : List UnitId
  bootFailed : List UnitId
  mgmtFailed : List UnitId
  benchFailed : List UnitId
  stopped : List UnitId
  proofs : List ProofReq
  proofDone : Tab Nat
  deriving DecidableEq, Repr

def Health.reset : Health :=
  { faults := [], hist := [], env := [], pending := [], retired := [], restore := [], bootFailed := [], mgmtFailed := [],
    benchFailed := [], stopped := [], proofs := [], proofDone := [] }

/-! ## Clocks, resets, power -/

/-- Reset scopes, encoded as RST_CMD.SCOPE (R486). -/
inductive Scope | engine | bench | partition | module
  deriving DecidableEq, Repr

/-- A reset in progress or waiting for its Foreman (R477-R479). -/
structure ResetReq where
  scope : Scope
  bench : Nat
  part : Nat
  u : UnitId
  cause : Nat
  waiting : Bool
  deriving DecidableEq, Repr

/-- Power, presence and removal (R489-R502): the main switch, PRSNT# and its debounce, the button window, the indicators, the
power cap, the Hub and stack sensors that hold every Bench's thermal cap down, samples in which the outlet was hot, samples
taken of the sensors and of the input, the module's powered hours, and the last temperatures. -/
structure Power where
  mainOn : Bool
  prsnt : Bool
  debouncing : Bool
  attnWindow : Bool
  attnLed : Nat
  safeLed : Bool
  powerCap : Nat
  capBy : List Nat
  outletHot : Nat
  thermSamples : Nat
  powSamples : Nat
  hours : Nat
  temps : List Int
  deriving DecidableEq, Repr

/-- The module as power arrives: PRSNT# debounced and the main switch closed (R494).
(assumption 7, DESIGN CHOICE) -/
def Power.reset : Power :=
  { mainOn := true, prsnt := true, debouncing := false, attnWindow := false, attnLed := 0, safeLed := false,
    powerCap := 1700, capBy := [], outletHot := 0, thermSamples := 0, powSamples := 0, hours := 0, temps := [] }

/-! ## Management -/

/-- Roles a channel can hold (R528). -/
inductive Role | installer | maker
  deriving DecidableEq, Repr

/-- A channel's authentication (R529): the role it holds and the key that proved it, the nonce outstanding with the role it is
for, failed proofs in the last 10 minutes, and whether it is locked. -/
structure ChanSt where
  role : Option Role
  key : Nat
  nonce : Option (BitVec 256 × Role)
  fails : Nat
  locked : Bool
  deriving DecidableEq, Repr

def ChanSt.reset : ChanSt := ⟨none, 0, none, 0, false⟩

/-- An audit entry (R536). -/
structure AuditEnt where
  seq : Nat
  hostTime : Word
  cycles : Word
  role : Nat
  chan : Nat
  key : Nat
  checkpoint : Bool
  msg : Nat
  result : Nat
  arg0 : Word
  arg1 : Word
  digest : BitVec 512
  prev : BitVec 512
  signature : List Byte
  deriving DecidableEq, Repr

/-- Saved settings (R509): sequence, the PUF helper data under whose site key their HMAC holds, and by stack (keys 0 to 7) and
port (keys 16 to 31) the lane map with its spares and the equalisation values. -/
structure SavedRec where
  seq : Nat
  auth : List Byte
  sets : Tab (List Nat × Word)
  deriving DecidableEq, Repr

/-- PUF helper data (R506, R507). -/
structure HelperRec where
  seq : Nat
  bytes : List Byte
  deriving DecidableEq, Repr

/-- The flash (R506): both copies of the build and site records, of the saved settings and of the PUF helper data, the firmware
slots, the boot control word, the replay-protected counters, and whether the next audit entry cannot be written (R535), which
the specification leaves open. -/
structure Flash where
  build : Vector (Option BuildRec) 2
  site : Vector (Option SiteRec) 2
  saved : Vector (Option SavedRec) 2
  helper : Vector (Option HelperRec) 2
  failing : Bool
  slots : Vector (Option Image) 2
  active : Bool
  pendingSlot : Option Bool
  tried : Bool
  svnMin : Nat
  siteCtr : Nat
  auditCtr : Nat
  audit : List AuditEnt
  sinceCheckpoint : Nat
  deriving DecidableEq, Repr

/-- The management controller and security core: the flash, the image running, the bytes staged, channels, requests waiting in
arrival order, operations answered as in progress, REG_WRITEs that are answered once a row is zeroed (R253), SPDM answers per
channel, the last answers to requests that came over MCTP and I3C, the build record, helper data and PUF secret this boot took,
equalisation values in use by key, and boot progress. -/
structure Mgmt where
  flash : Flash
  running : Option Image
  identityOk : Bool
  secret : Option (BitVec 256)
  helper : List Byte
  equal : Tab Word
  staged : List (Nat × List Byte)
  stageOpen : Bool
  chans : Vector ChanSt 9
  service : List MbReq
  working : List (Chan × MbReq)
  zeroReq : List (Nat × MbReq)
  spdm : Tab (List SpdmAnswer)
  mctp : Tab Mailbox
  inForce : Option BuildRec
  testMode : Nat
  startupDone : BitVec 16
  stacksDone : BitVec 8
  portsDone : BitVec 16
  allSaved : Bool
  newSettings : Bool
  buildWritten : Bool
  lastTime : Word
  resetsBusy : List ResetReq
  qcycles : BitVec 48
  qwrap : BitVec 16
  hubTrace : List (List Word)
  hubPhase : Bool
  hubLost : Nat
  hubLatch : Tab (BitVec 32)
  deriving DecidableEq, Repr

/-- The as-built plan this model's flash holds: every unit of every Bench present (assumption 7, DESIGN CHOICE). -/
def builtBench : Word × Word := (0x1FFFFFFFF, 0xFFFFFFFFFFFFFFFF)

/-- The build record this model's flash holds: an AETQ16-768L with every unit present (assumption 7, DESIGN CHOICE).
(assumption 1, DESIGN CHOICE) -/
def builtRecord : BuildRec :=
  { seq := 1, signedOk := true, serial := 0, order384 := false, module := 0x0000FFFFFF600000, hubCores := 0xFFFFFFFF,
    benches := List.replicate 16 builtBench, envelope := 3400, bifur := 0, trims := [], baseline := [], makerKeys := [1],
    installerKeys := [2], chain := [], certified := true, helper := none }

def Flash.reset : Flash :=
  { build := #v[some builtRecord, none], site := #v[none, none], saved := #v[none, none],
    helper := #v[some ⟨1, []⟩, none], failing := false, slots := #v[some ⟨1, 0, [false], [], some 1⟩, none],
    active := false, pendingSlot := none, tried := false, svnMin := 0, siteCtr := 0, auditCtr := 0, audit := [], sinceCheckpoint := 0 }

def Mgmt.reset : Mgmt :=
  { flash := Flash.reset, running := none, identityOk := true, secret := none, helper := [], equal := [], staged := [],
    stageOpen := false,
    chans := Vector.replicate 9 ChanSt.reset, service := [], working := [], zeroReq := [], spdm := [], mctp := [],
    inForce := none, testMode := 0,
    startupDone := 0, stacksDone := 0, portsDone := 0, allSaved := true, newSettings := false, buildWritten := false,
    lastTime := 0, resetsBusy := [], qcycles := 0, qwrap := 0, hubTrace := [], hubPhase := true, hubLost := 0, hubLatch := [] }

/-! ## The module -/

/-- A program copy in progress, as GO took it: the Benches it fills, its source and its length in words (R300, R309). -/
structure ProgLoad where
  mask : Nat
  src : Nat
  len : Nat
  deriving DecidableEq, Repr

/-- The state of the module: the queue of commands that wait; the registers, keyed by `K` (R563, R564); device memory bytes and
word marks, keyed by device address and word number; and the units' own state. `loads` holds the program copies in progress,
oldest first (R300). `turn` is the Bench whose clock the next idle step advances and `freeCtr` counts the free values drawn:
both are the model's own. -/
structure State where
  pending : List Instr
  regs : Tab Word
  mem : List Host.Cell
  marks : Tab WordMark
  benches : Vector Bench 16
  steps : Vector StepCtl 4
  bars : Vector Barrier 4
  loads : Vector (List ProgLoad) 4
  plumbs : Vector Plumb 4
  bulk : Bulk
  fab : Fabric
  host : HostIf
  errs : ErrAgg
  health : Health
  pwr : Power
  mgmt : Mgmt
  turn : Bid
  freeCtr : Nat
  deriving DecidableEq, Repr

/-- The module right after power-on reset: every register at its Reset column, SRAM and bulk memory zero, empty and clean,
every unit idle (R12, R480), the boot ROM about to run (R511). (assumption 2, DEDUCED) -/
def State.reset : State :=
  { pending := [], regs := [], mem := [], marks := [], benches := Vector.replicate 16 Bench.reset,
    steps := Vector.replicate 4 StepCtl.reset, bars := Vector.replicate 4 Barrier.reset, loads := Vector.replicate 4 [],
    plumbs := Vector.replicate 4 Plumb.reset, bulk := Bulk.reset, fab := Fabric.reset, host := HostIf.reset,
    errs := ErrAgg.reset, health := Health.reset, pwr := Power.reset, mgmt := Mgmt.reset, turn := 0, freeCtr := 0 }

/-! ## Outcomes -/

/-- Why a step could stop with a fault. The specification takes every fault as a recorded next state (R301), so this model
raises none: the type is empty. -/
inductive Fault
  deriving DecidableEq, Repr

/-- Why a step could be refused. `notModelled` is raised only by an arm of `exec` that has no meaning yet, by name; it is safe,
because nothing is concluded about such a command. -/
inductive Refusal
  | notModelled (mnemonic : String)
  deriving DecidableEq, Repr

/-- What a command answers. -/
abbrev Out := Host.Outcome State Fault Refusal

end Sys2Proof.Machine
end

