-- ==== Sys2Proof/Machine/Access.lean ====
section
/-!
DEFINITION. Reading and writing the pieces of the state: units of a Bench, registers and their fields, who owns what, and
which units are in service (spec 15 R415, 19 R523, 21 R563, R564).
-/

namespace Sys2Proof.Machine

/-! ## Pieces of the state -/

def State.bench (s : State) (b : Bid) : Bench := s.benches[b]
def State.setBench (s : State) (b : Bid) (x : Bench) : State := { s with benches := s.benches.set b x }
def State.onBench (s : State) (b : Bid) (f : Bench → Bench) : State := s.setBench b (f (s.bench b))
def State.fm (s : State) (b : Bid) : Foreman := (s.bench b).fm
def State.onFm (s : State) (b : Bid) (f : Foreman → Foreman) : State := s.onBench b fun x => { x with fm := f x.fm }
def State.wgh (s : State) (b : Bid) : Weighbridge := (s.bench b).wgh
def State.onWgh (s : State) (b : Bid) (f : Weighbridge → Weighbridge) : State :=
  s.onBench b fun x => { x with wgh := f x.wgh }
def State.arr (s : State) (b : Bid) (u : Fin 12) : ArrayUnit := (s.bench b).arr[u]
def State.setArr (s : State) (b : Bid) (u : Fin 12) (a : ArrayUnit) : State :=
  s.onBench b fun x => { x with arr := x.arr.set u a }
def State.queue (s : State) (b : Bid) (q : Fin 8) : List QItem := (s.bench b).q[q]
def State.setQueue (s : State) (b : Bid) (q : Fin 8) (l : List QItem) : State :=
  s.onBench b fun x => { x with q := x.q.set q l }
def State.ctl (s : State) (p : Part) : StepCtl := s.steps[p]
def State.onCtl (s : State) (p : Part) (f : StepCtl → StepCtl) : State :=
  { s with steps := s.steps.set p (f s.steps[p]) }
def State.bar (s : State) (p : Part) : Barrier := s.bars[p]
def State.onBar (s : State) (p : Part) (f : Barrier → Barrier) : State := { s with bars := s.bars.set p (f s.bars[p]) }
def State.plumb (s : State) (p : Part) : Plumb := s.plumbs[p]
def State.onPlumb (s : State) (p : Part) (f : Plumb → Plumb) : State :=
  { s with plumbs := s.plumbs.set p (f s.plumbs[p]) }
def State.port (s : State) (n : PortNo) : PortSt := s.fab.ports[n]
def State.onPort (s : State) (n : PortNo) (f : PortSt → PortSt) : State :=
  { s with fab := { s.fab with ports := s.fab.ports.set n (f s.fab.ports[n]) } }
def State.hport (s : State) (p : Part) : HostPort := s.host.ports[p]
def State.onHport (s : State) (p : Part) (f : HostPort → HostPort) : State :=
  { s with host := { s.host with ports := s.host.ports.set p (f s.host.ports[p]) } }
def State.hq (s : State) (q : Nat) : QState := tget QState.idle s.host.queues q
def State.setHq (s : State) (q : Nat) (x : QState) : State :=
  { s with host := { s.host with queues := tset QState.idle s.host.queues q x } }
def State.onBulk (s : State) (f : Bulk → Bulk) : State := { s with bulk := f s.bulk }
def State.onMgmt (s : State) (f : Mgmt → Mgmt) : State := { s with mgmt := f s.mgmt }
def State.stk (s : State) (k : Fin 8) : Stack := s.bulk.stk[k]
def State.onStk (s : State) (k : Fin 8) (f : Stack → Stack) : State :=
  s.onBulk fun b => { b with stk := b.stk.set k (f b.stk[k]) }
def State.cowIdx (p : Part) (n : Fin 4) : Fin 16 := ⟨p.val * 4 + n.val, by omega⟩
def State.cow (s : State) (p : Part) (n : Fin 4) : CowSet := s.bulk.cow[State.cowIdx p n]
def State.onCow (s : State) (p : Part) (n : Fin 4) (f : CowSet → CowSet) : State :=
  s.onBulk fun b => { b with cow := b.cow.set (State.cowIdx p n) (f b.cow[State.cowIdx p n]) }

/-- The next free value and the state that has drawn it (assumption 4, DESIGN CHOICE). -/
def State.drawWord (s : State) : Word × State := (Config.freeWord s.freeCtr, { s with freeCtr := s.freeCtr + 1 })
def State.drawLine (s : State) : Line16 × State := (Config.freeLine s.freeCtr, { s with freeCtr := s.freeCtr + 1 })
def State.drawBool (s : State) : Bool × State := (Config.freeBool s.freeCtr, { s with freeCtr := s.freeCtr + 1 })

/-! ## Registers -/

/-- The rule words of the default state table (R150), by rule index 8 * state + rule. -/
def ruleReset (i : Nat) : Word :=
  match i with
  | 0 => 0x000021F100000001
  | 1 => 0x000021F100000002
  | 2 => 0x0000201000400023
  | 3 => 0x000020120000FE09
  | 8 => 0x000021F300000001
  | 9 => 0x000021F300000002
  | 10 => 0x0000200000000E09
  | 16 => 0x000021F300000001
  | 17 => 0x000021F300000002
  | 18 => 0x0000200000000E09
  | 24 => 0x000035F400000001
  | 25 => 0x000035F400000002
  | 26 => 0x000020000000FE09
  | 32 => 0x000021F400000001
  | 33 => 0x000021F400000002
  | 34 => 0x000028000003FE09
  | _ => 0

/-- Offsets of a key within the rule area of a Plumb block, or none (R170). -/
def ruleIdx (k : Nat) : Option Nat :=
  let o := k - (hubKey + 0x400000)
  if hubKey + 0x400000 ≤ k ∧ o < 0x100000 ∧ 0x1000 ≤ o % 0x40000 ∧ o % 0x40000 < 0x1400 then some ((o % 0x40000 - 0x1000) / 8)
  else none

/-- The build record in force, which the last boot took (R508, R532). -/
def State.buildRec (s : State) : Option BuildRec := s.mgmt.inForce

/-- The build record of the flash: the signed copy of the higher sequence number (R507, R508). -/
def State.flashBuild (s : State) : Option BuildRec :=
  let ok (r : Option BuildRec) : Option BuildRec := r.filter fun x => x.signedOk
  match ok s.mgmt.flash.build[0], ok s.mgmt.flash.build[1] with
  | some a, some b => some (if a.seq < b.seq then b else a)
  | some a, none => some a
  | none, b => b

/-- Installed bulk rows of the module: 48 on the AETQ16-384L, else 96 (R1, R249).
(assumption 1, DESIGN CHOICE) -/
def State.rowsInstalled (s : State) : Nat :=
  match s.buildRec with
  | some r => if r.order384 then 48 else Config.installedRows
  | none => Config.installedRows

/-- What a register holds after power-on reset: each field at its Reset column (R12); the rules at R150. -/
def regReset (k : Nat) : Word :=
  match ruleIdx k with
  | some i => ruleReset i
  | none =>
    match regAt regMap k with
    | some (r, _) => BitVec.ofNat 64 (resetImage r.fields)
    | none => 0

/-- A register's stored word. -/
def State.reg (s : State) (k : Nat) : Word := tget (regReset k) s.regs k
def State.setReg (s : State) (k : Nat) (v : Word) : State := { s with regs := tset (regReset k) s.regs k v }
/-- A register's field, as a number. -/
def State.rf (s : State) (k : Nat) (f : Fld) : Nat := fld (s.reg k) f.lo f.w
def State.setRf (s : State) (k : Nat) (f : Fld) (v : Nat) : State := s.setReg k (setFld (s.reg k) f.lo f.w v)
/-- A one-bit field. -/
def State.rb (s : State) (k : Nat) (f : Fld) : Bool := s.rf k f != 0
def State.setRb (s : State) (k : Nat) (f : Fld) (v : Bool) : State := s.setRf k f (if v then 1 else 0)
/-- A word written over a register's fields by their access kinds (R10). `inst` is an INSTALLER's write: where a register has fields
of its own for that role, it writes those and no other RW field (R436). -/
def applyWrite (fs : List FieldRow) (inst : Bool) (old v : Word) : Word :=
  let theirs := inst && fs.any fun r => r.acc == .rwi
  fs.foldl (fun w r =>
    let n := fld v r.f.lo r.f.w
    let o := fld w r.f.lo r.f.w
    match r.acc with
    | .rw => if theirs then w else setFld w r.f.lo r.f.w n
    | .rwi => if inst then setFld w r.f.lo r.f.w n else w
    | .w1c => setFld w r.f.lo r.f.w (o &&& (2 ^ r.f.w - 1 - n))
    | .w1s => setFld w r.f.lo r.f.w (o ||| n)
    | _ => w) old
/-- A register written field by field (R10, R11). -/
def State.writeReg (s : State) (k : Nat) (inst : Bool) (v : Word) : State :=
  match regAt regMap k with
  | some (r, _) => s.setReg k (applyWrite r.fields inst (s.reg k) v)
  | none => s
/-- Every register with a key in [lo, hi) back at its reset value. -/
def State.resetRegs (s : State) (lo hi : Nat) : State := { s with regs := tclear s.regs lo hi }
/-- A counter advanced; it wraps modulo 2^64 (R542). -/
def State.count (s : State) (k n : Nat) : State := s.setReg k (s.reg k + BitVec.ofNat 64 n)
/-- Bench counter n advanced (R544). -/
def State.countB (s : State) (b : Bid) (n k : Nat) : State := s.count (K.BENCH_CTR b n) k
/-- Hub counter n advanced (R545). -/
def State.countH (s : State) (n k : Nat) : State := s.count (K.HUB_CTR n) k
/-- Partition counter n advanced (R545). -/
def State.countP (s : State) (p : Part) (n k : Nat) : State := s.count (K.PART_CTR p n) k

/-! ## Ownership -/

def allBids : List Bid := List.finRange 16
def allParts : List Part := List.finRange 4

/-- Whether partition p is valid (R422). -/
def State.partValid (s : State) (p : Part) : Bool := s.rb (K.PART_CFG p) F.PART_CFG_VALID
/-- Whether partition p owns Bench b (R422). -/
def State.owns (s : State) (p : Part) (b : Bid) : Bool :=
  s.partValid p && (s.rf (K.PART_CFG p) F.PART_CFG_BENCHES).testBit b
/-- The partition that owns Bench b. -/
def State.partOf (s : State) (b : Bid) : Option Part := allParts.find? fun p => s.owns p b
/-- The Benches of a partition. -/
def State.benchesOf (s : State) (p : Part) : List Bid := allBids.filter fun b => s.owns p b
/-- The owner of a bulk row (R249, R264). -/
def State.rowOwner (s : State) (r : Nat) : Option Part :=
  if r < s.rowsInstalled ∧ s.rb (K.BMC_ROW r) F.BMC_ROW_VALID then some ⟨s.rf (K.BMC_ROW r) F.BMC_ROW_OWNER % 4, by omega⟩ else none
/-- Whether a bulk page lies in a partition's reserve pool (R259, R265). -/
def State.inReserve (s : State) (p : Part) (page : Nat) : Bool :=
  let b := s.rf (K.BMC_PART p) F.BMC_PART_RSV_BASE
  b ≤ page && page < b + s.rf (K.BMC_PART p) F.BMC_PART_RSV_PAGES

/-! ## Presence -/

/-- Stages of bring-up (R538): the module has published its floor plan from READY on. -/
def stageReady : Nat := 4

/-- Whether a unit is counted in a list. -/
def hasUnit (l : List UnitId) (b c i : Nat) : Bool := l.contains ⟨b, c, i⟩

/-- A Bench's compute die is in service: it and the lower base die are in the floor plan, the Bench is not gated
and the module is not in STANDBY (R20, R497, R523). -/
def State.computeOk (s : State) (b : Bid) : Bool :=
  s.rb (K.FP_BENCH0 b) F.FP_BENCH0_COMPUTE && s.rb (K.FP_BENCH0 b) F.FP_BENCH0_LOWER
    && !s.rb (K.BENCH_PWR b) F.BENCH_PWR_GATED && s.rf K.PWR_STAT F.PWR_STAT_STATE != 2

/-- A unit that one of the two views, or both, take as failed (R462), or failed for this boot. -/
def State.heldFailed (s : State) (b c i : Nat) : Bool :=
  let h := s.health
  hasUnit h.mgmtFailed b c i || hasUnit h.benchFailed b c i || hasUnit h.bootFailed b c i

/-- Unit classes of R450. -/
def ucCutter : Nat := 1
def ucDresser : Nat := 2
def ucWedge : Nat := 3
def ucScreen : Nat := 4
def ucHauler : Nat := 5
def ucWeighbridge : Nat := 6
def ucStockpile : Nat := 7
def ucForeman : Nat := 8
def ucProof : Nat := 9
def ucBank : Nat := 10
def ucRouter : Nat := 11
def ucPort : Nat := 12
def ucStack : Nat := 13
def ucPlumb : Nat := 14
def ucHostPort : Nat := 15
def ucQueue : Nat := 16
def ucHubCore : Nat := 17
def ucPower : Nat := 18
def ucThermal : Nat := 19
def ucBaseDie : Nat := 20

/-- The floor plan's bit of a compute-die unit (R541). -/
def State.planUnit (s : State) (b : Bid) (c i : Nat) : Bool :=
  let at_ (f : Fld) : Bool := i < f.w && (s.rf (K.FP_BENCH0 b) f).testBit i
  if c = ucCutter then at_ F.FP_BENCH0_CUTTERS else if c = ucDresser then at_ F.FP_BENCH0_DRESSERS
  else if c = ucWedge then at_ F.FP_BENCH0_WEDGES else if c = ucScreen then at_ F.FP_BENCH0_SCREENS
  else if c = ucHauler then at_ F.FP_BENCH0_HAULERS else if c = ucWeighbridge then at_ F.FP_BENCH0_WEIGHBRIDGE
  else if c = ucStockpile then at_ F.FP_BENCH0_STOCKPILE else if c = ucForeman then at_ F.FP_BENCH0_FOREMAN
  else if c = ucProof then at_ F.FP_BENCH0_PROOF else false

/-- A compute-die unit's PRESENT bit (R523). -/
def State.present (s : State) (b : Bid) (c i : Nat) : Bool :=
  s.planUnit b c i && s.computeOk b && !s.heldFailed b c i

/-- Whether the Bench runs in PAIR mode (R444). -/
def State.pairMode (s : State) (b : Bid) : Bool := s.rb (K.ERR_BCTL b) F.ERR_BCTL_MODE_ACT

/-- Units of the Hub carry Bench 16 (R449). -/
def hubNo : Nat := 16

/-- Whether an SRAM bank is in service: in the floor plan, its base dies too, and in both views (R20, R462, R523). -/
def State.bankOk (s : State) (b : Bid) (bank : Nat) : Bool :=
  (s.rf (K.FP_BENCH1 b) F.FP_BENCH1_BANKS).testBit bank && s.rb (K.FP_BENCH0 b) F.FP_BENCH0_LOWER
    && (bank < 32 || s.rb (K.FP_BENCH0 b) F.FP_BENCH0_UPPER) && !s.heldFailed b ucBank bank

/-- Whether a bulk stack is in service: in the floor plan, not absent for this boot, its controller's base die in service, and in
both views (R20, R248, R462). -/
def State.stackOk (s : State) (k : Nat) : Bool :=
  (s.rf K.FP_MODULE F.FP_MODULE_STACKS).testBit k && !s.rb (K.BMC_STAT k) F.BMC_STAT_ABSENT
    && s.rb (K.FP_BENCH0 (2 * k)) F.FP_BENCH0_LOWER && !s.heldFailed hubNo ucStack k

/-- Whether the core of a unit has stopped on an uncorrectable error of its own state (R443). -/
def State.coreStopped (s : State) (b c i : Nat) : Bool := hasUnit s.health.stopped b c i

/-- Whether one of the Hub's cores runs (R443). -/
def State.hubCore (s : State) (i : Nat) : Bool := !s.coreStopped hubNo ucHubCore i

/-- The Hub's cores but the link cores (R450): the bulk memory core of a stack and the host-queue core of a partition, then the
management controller, the security core, the barrier unit and the step controller. -/
def stackCore (k : Nat) : Nat := 16 + k
def queueCore (p : Part) : Nat := 24 + p.val
def mgmtCore : Nat := 28
def securityCore : Nat := 29
def barrierCore : Nat := 30
def stepCore : Nat := 31

/-- What one of the Hub's cores does, if it runs: a stopped core does nothing until a reset covers it (R443).
(assumption 74, DESIGN CHOICE) -/
def State.byCore (s : State) (i : Nat) (f : State → Out) : Out := if s.hubCore i then f s else .next s

/-- The bring-up stage (R538). -/
def State.stage (s : State) : Nat := s.rf K.BOOT_STAT F.BOOT_STAT_STAGE
/-- Whether the endpoints are configured: from the broadcast of the firmware on, or in RECOVERY and FAILED; until then configuration
requests receive Request Retry Status and nothing reaches a function (R514, R516). (assumption 82, DEDUCED) -/
def State.endpointUp (s : State) : Bool := 2 ≤ s.stage
/-- IDLE ends at a START or a queue command (R497). -/
def State.leaveIdle (s : State) : State :=
  if s.rf K.PWR_STAT F.PWR_STAT_STATE = 1 then s.setRf K.PWR_STAT F.PWR_STAT_STATE 0 else s
/-- Whether a reset of Bench scope or wider holds a Bench (R477). -/
def State.inReset (s : State) (b : Bid) : Bool :=
  s.mgmt.resetsBusy.any fun r => !r.waiting
    && (r.scope == .module || (r.scope == .bench && r.bench == b.val)
      || (r.scope == .partition && (match s.partOf b with | some p => p.val == r.part | none => false)))
/-- Whether a reset waits for a Bench's Foreman (R479). -/
def State.resetWaits (s : State) (b : Bid) : Bool := s.mgmt.resetsBusy.any fun r => r.waiting && r.bench == b.val
/-- The module is powered and READY. -/
def State.ready (s : State) : Bool := s.pwr.mainOn && s.stage == stageReady

end Sys2Proof.Machine
end

