-- ==== Sys2Proof/Machine/Ops.lean ====
section
/-!
DEFINITION. The operations every unit shares: windows and addresses, 16-byte words with their full/empty bit and poison,
error records, error-controller votes, and the taking of a program fault (spec 08 R202-R216, 09 R249-R258, 10 R301, R302,
16 R447-R451).
-/

namespace Sys2Proof.Machine

/-! ## Addresses and windows -/

/-- One past the last SRAM byte (R202, R557). -/
def sramEnd : Nat := 0x200000000
def sramSize : Nat := 0x20000000
/-- The bulk window's first byte (R249, R557). -/
def bulkBase : Nat := 0x010000000000
def rowSize : Nat := 0x200000000
def pageSize : Nat := 0x200000

/-- The Bench an SRAM address lies in (R202). -/
def benchOf (a : Nat) : Bid := ⟨a / sramSize % 16, by omega⟩
/-- The bank an SRAM address lies in (R202). -/
def bankOf (a : Nat) : Nat :=
  let line := a % sramSize / 512
  (line % 64) ^^^ (line / 64 % 64)
/-- The bulk row of an address (R249). -/
def rowOf (a : Nat) : Nat := (a - bulkBase) / rowSize
/-- The bulk page of an address (R259). -/
def pageOf (a : Nat) : Nat := (a - bulkBase) / pageSize

/-- Whether an address is an SRAM address. -/
def inSram (a : Nat) : Bool := a < sramEnd
/-- Whether an address is an installed bulk address. -/
def State.inBulk (s : State) (a : Nat) : Bool := bulkBase ≤ a && a < bulkBase + s.rowsInstalled * rowSize

/-- The stack and stack offset of a bulk address under partition p's mode (R250). -/
def State.stackOf (s : State) (p : Part) (a : Nat) : Nat × Nat :=
  let row := rowOf a
  let q := (a - bulkBase) % rowSize
  if s.rb (K.BMC_PART p) F.BMC_PART_IMODE then
    let u := q / 65536
    (u % 8, row * 2 ^ 30 + u / 8 * 65536 + q % 65536)
  else (q / 2 ^ 30, row * 2 ^ 30 + q % 2 ^ 30)

/-- Whether a row's owner interleaves it; a row without an owner is in local order (R250). (assumption 46, DEDUCED) -/
def State.rowInter (s : State) (r : Nat) : Bool :=
  match s.rowOwner r with
  | some p => s.rb (K.BMC_PART p) F.BMC_PART_IMODE
  | none => false

/-- The stack that holds a bulk address under its row's owner's mode (R250). -/
def State.stackAt (s : State) (a : Nat) : Nat :=
  let q := (a - bulkBase) % rowSize
  if s.rowInter (rowOf a) then q / 65536 % 8 else q / 2 ^ 30

/-- The place in a row, under the interleaved mode, of the byte that lies at place q under the local mode (R250). -/
def interPlace (q : Nat) : Nat := (q % 2 ^ 30 / 65536 * 8 + q / 2 ^ 30) * 65536 + q % 65536

/-- The place in a row, under the local mode, of the byte that lies at place q under the interleaved mode (R250). -/
def localPlace (q : Nat) : Nat := q / 65536 % 8 * 2 ^ 30 + q / 65536 / 8 * 65536 + q % 65536

/-- Whether the mode of a bulk address's row differs between two states. -/
def State.modeMoves (old new : State) (a : Nat) : Bool :=
  bulkBase ≤ a && old.rowInter (rowOf a) != new.rowInter (rowOf a)

/-- The device address at which `new` finds the byte that `old` found at `a`: the same stack and stack offset (R250, R251). -/
def State.newPlace (old new : State) (a : Nat) : Nat :=
  if old.modeMoves new a then
    let q := (a - bulkBase) % rowSize
    bulkBase + rowOf a * rowSize + (if new.rowInter (rowOf a) then interPlace q else localPlace q)
  else a

/-- A change of mode moves no data: the bytes and marks of every row whose mode changed are read back in the rearrangement that
R250 gives (R251). (assumption 46, DEDUCED) -/
def State.reseat (old new : State) : State :=
  { new with
    mem := relocate 0 new.mem (fun a => old.modeMoves new a) (fun a => old.newPlace new a)
    marks := relocate WordMark.clear new.marks (fun w => old.modeMoves new (16 * w))
      (fun w => old.newPlace new (16 * w) / 16) }

/-- Whether an address lies in a window of partition p (R249, R415). -/
def State.inWindow (s : State) (p : Part) (a : Nat) : Bool :=
  if inSram a then s.owns p (benchOf a)
  else s.inBulk a && s.rowOwner (rowOf a) == some p && !s.inReserve p (pageOf a)

/-- Whether the word at an address is served: no absent bank or stack holds it (R252, R523).
(assumption 26, DEDUCED) -/
def State.served (s : State) (p : Part) (a : Nat) : Bool :=
  if inSram a then s.bankOk (benchOf a) (bankOf a) else s.stackOk (s.stackOf p a).1

/-- Whether a word access of partition p is performed (R252, R423). (assumption 26, DEDUCED) -/
def State.mayAccess (s : State) (p : Part) (a : Nat) : Bool := s.inWindow p a && s.served p a

/-- Whether [lo, lo + len) lies in one window of partition p: one Bench's SRAM, or the bulk window (R218, R350). -/
def State.rangeOk (s : State) (p : Part) (lo len : Nat) : Bool :=
  let hi := lo + len - 1
  if len = 0 then true
  else if inSram lo then inSram hi && benchOf lo == benchOf hi && s.owns p (benchOf lo)
  else
    s.inBulk lo && s.inBulk hi
      && (List.range (rowOf hi + 1 - rowOf lo)).all (fun i => s.rowOwner (rowOf lo + i) == some p)
      && (let b := s.rf (K.BMC_PART p) F.BMC_PART_RSV_BASE
          let n := s.rf (K.BMC_PART p) F.BMC_PART_RSV_PAGES
          n == 0 || pageOf hi < b || b + n ≤ pageOf lo)

/-! ## Words -/

/-- The 16-byte word at word number wn. -/
def State.word (s : State) (wn : Nat) : Line16 := BitVec.ofNat 128 (ofBytes (mread s.mem (16 * wn) 16))
/-- A word's marks. -/
def State.mark (s : State) (wn : Nat) : WordMark := tget WordMark.clear s.marks wn
def State.setMark (s : State) (wn : Nat) (m : WordMark) : State := { s with marks := tset WordMark.clear s.marks wn m }
/-- The masked bits of a word replaced. -/
def State.putWord (s : State) (wn : Nat) (data mask : Line16) : State :=
  let new := (s.word wn &&& ~~~ mask) ||| (data &&& mask)
  { s with mem := mwrite s.mem (16 * wn) (toBytes 16 new.toNat) }

/-- A full/empty bit, by majority of its three cells (R207). -/
def WordMark.full (m : WordMark) : Bool := decide (2 ≤ popcount 3 m.cells.toNat)
def WordMark.setFull (m : WordMark) (f : Bool) : WordMark := { m with cells := if f then 7 else 0 }
def State.full (s : State) (wn : Nat) : Bool := (s.mark wn).full
/-- The bits of a whole word. -/
def allBits : Line16 := BitVec.allOnes 128

/-! ## Error records -/

/-- The instruction a record names: bits [9:0] of its word, its PC and its marker (R449). -/
structure OpInfo where
  opcode : BitVec 10
  pc : BitVec 15
  mark : BitVec 32
  deriving DecidableEq, Repr

/-- What a record says beside what the module adds to it (R449). -/
structure RecInfo where
  level : Nat
  bench : Nat
  ucls : Nat
  index : Nat
  rc : Option (Nat × Nat)
  event : Nat
  fault : Nat
  part : Option Part
  op : Option OpInfo
  vote : Nat
  addr : Nat
  syn : Word
  deriving DecidableEq, Repr

/-- The fields of a word laid end to end: (lowest bit, width, value). -/
def pack (fs : List (Nat × Nat × Nat)) : Word :=
  BitVec.ofNat 64 (fs.foldl (fun a f => a + (f.2.2 % 2 ^ f.2.1) <<< f.1) 0)

/-- The two's complement of a temperature in 1/8 degree, in 16 bits. (assumption 8, DESIGN CHOICE) -/
def temp16 (t : Int) : Nat := (BitVec.ofInt 16 t).toNat

/-- The eight words of a record with COUNT 1 (R449). The core rail's reading is a free value (assumption 8, DESIGN CHOICE). -/
def State.recordWords (s : State) (r : RecInfo) (volt : Word) : Rec :=
  let hub := decide (16 ≤ r.bench)
  let b : Bid := ⟨r.bench % 16, by omega⟩
  let t := match r.part with | some p => s.reg (K.HOST_TIME p) | none => s.mgmt.lastTime
  let (step, att) :=
    if hub then (match r.part with | some p => ((s.ctl p).step, (s.ctl p).attempt) | none => (0, 0))
    else (s.rf (K.STEP_STATE b) F.STEP_STATE_STEP, s.rf (K.STEP_STATE b) F.STEP_STATE_ATTEMPT)
  let (cyc, wr) := if hub then (s.mgmt.qcycles, s.mgmt.qwrap) else ((s.bench b).cycles, (s.bench b).wrap)
  let rc := match r.rc with | some (x, y) => (x, y, 1) | none => (0, 0, 0)
  [ pack [(0, 2, r.level), (2, 5, r.bench), (8, 6, r.ucls), (14, 12, r.index), (26, 8, rc.1), (34, 8, rc.2.1),
      (42, 1, rc.2.2), (44, 8, r.event), (52, 8, r.fault), (60, 2, match r.part with | some p => p.val | none => 0),
      (62, 1, if r.part.isSome then 1 else 0)],
    (match r.op with
     | some o => pack [(0, 10, o.opcode.toNat), (10, 15, o.pc.toNat), (25, 1, 1), (32, 32, o.mark.toNat)]
     | none => 0),
    t,
    pack [(0, 48, step), (48, 4, att), (52, 2, r.vote)],
    pack [(0, 48, cyc.toNat), (48, 16, wr.toNat)],
    pack [(0, 16, temp16 (s.pwr.temps.getD (if hub then 16 else b.val) 0)), (16, 16, volt.toNat), (32, 16, 1)],
    BitVec.ofNat 64 (r.addr % 2 ^ 48),
    r.syn ]

/-- Whether an event is a fault of its unit (R456). -/
def isFault (ucls event : Nat) : Bool :=
  event == 1 || event == 2 || event == 3 || event == 0x13 || event == 0x14
    || (event == 0x05 && (ucls == ucBank || ucls == ucStack))

/-- A fault found: it waits to be entered in the history (R456). -/
def State.noteFault (s : State) (r : RecInfo) : State :=
  { s with health := { s.health with faults := s.health.faults ++ [s.recordWords r 0] } }

/-- A record written by its checker: it sets out for the global aggregator (R452); a Bench counts its own (R544).
(assumption 8, DESIGN CHOICE; assumption 32, DEDUCED) -/
def State.emit (s : State) (r : RecInfo) : State :=
  let (v, s) := s.drawWord
  let s := { s with errs := { s.errs with coming := s.errs.coming ++ [s.recordWords r v] } }
  let s := if isFault r.ucls r.event then s.noteFault r else s
  if r.bench < 16 then s.countB ⟨r.bench % 16, by omega⟩ (256 + r.event) 1 else s

/-- A record that represents `n` occurrences (R160, R449). -/
def State.emitCount (s : State) (r : RecInfo) (n : Nat) : State :=
  let (v, s) := s.drawWord
  let ws := s.recordWords r v
  let ws := ws.set 5 (setFld (ws.getD 5 0) 32 16 (min n 65535))
  { s with errs := { s.errs with coming := s.errs.coming ++ [ws] } }

/-- An MSI-X vector of partition p's function raised (R430). -/
def State.raise (s : State) (p : Part) (vec : Nat) : State := s.onHport p fun h => { h with msix := h.msix ++ [vec] }
/-- The alarm, mailbox and event vectors of partition p (R430). -/
def alarmVec (p : Part) : Nat := 257 + 4 * p.val
def mailboxVec (p : Part) : Nat := 258 + 4 * p.val
def eventVec (p : Part) : Nat := 259 + 4 * p.val
/-- The error vector of partition p (R301, R430). -/
def errorVec (p : Part) : Nat := 256 + 4 * p.val

/-- A record of a Bench's unit that names no instruction. -/
def benchRec (level : Nat) (b : Bid) (ucls index event : Nat) (p : Option Part) : RecInfo :=
  ⟨level, b, ucls, index, none, event, 0, p, none, 0, 0, 0⟩
/-- A record of a Hub or chip-level unit. -/
def hubRec (ucls index event : Nat) (p : Option Part) : RecInfo := ⟨3, 16, ucls, index, none, event, 0, p, none, 0, 0, 0⟩

/-! ## Votes -/

def voteRank : Vote → Nat
  | .pass => 0
  | .skip => 1
  | .abort => 2
  | .halt => 3
/-- The stronger of two votes (R395). -/
def voteMax (a b : Vote) : Vote := if voteRank a < voteRank b then b else a
/-- A vote's encoding (R293). -/
def voteOf (n : Nat) : Vote := if n = 0 then .pass else if n = 1 then .skip else if n = 2 then .abort else .halt
/-- The VOTE field of a record (R449). -/
def voteRec : Vote → Nat
  | .abort => 1
  | .halt => 2
  | _ => 0

/-- Cause bits of STEP_CAUSEp (R410). -/
def causeProgram : Nat := 0
def causeFault : Nat := 1
def causePlumb : Nat := 2
def causeWeighbridge : Nat := 3
def causePeerLost : Nat := 4
def causeSelfLost : Nat := 5
def causeDiverge : Nat := 6
def causeAttemptLimit : Nat := 7
def causeVoteTimeout : Nat := 8
def causeMismatch : Nat := 9
def causeController : Nat := 10

/-- A cause added. -/
def StepCtl.cause (c : StepCtl) (i : Nat) : StepCtl := { c with causes := c.causes ||| BitVec.ofNat 11 (2 ^ i) }
/-- A Bench's vote entered with the controller; a Bench's vote only strengthens (R293, R395). -/
def StepCtl.cast (c : StepCtl) (b : Bid) (v : Vote) : StepCtl :=
  match c.benchVotes.find? (fun e => e.1 == b.val) with
  | some e => { c with benchVotes := c.benchVotes.map fun x => if x.1 == b.val then (x.1, voteMax e.2 v) else x }
  | none => { c with benchVotes := c.benchVotes ++ [(b.val, v)] }
/-- Whether an attempt is OPEN or VOTING at the controller (R301). -/
def StepCtl.live (c : StepCtl) : Bool := c.phase != .idle

/-- The error controller's vote strengthened for the attempt in progress (R447).
(assumption 55, DEDUCED) -/
def State.errVote (s : State) (b : Bid) (v : Vote) : State :=
  match s.partOf b with
  | none => s
  | some p => if (s.ctl p).live then s.onBench b fun x => { x with errVote := voteMax x.errVote v } else s

/-- A Bench's vote entered with the controller: never weaker than its error controller's, which adds its own cause (R293,
R447). -/
def State.castVote (s : State) (p : Part) (b : Bid) (v : Vote) : State :=
  let e := (s.bench b).errVote
  s.onCtl p fun c =>
    let c := c.cast b (voteMax v e)
    if e = .pass then c else c.cause causeController

/-- A Bench's vote sent at once for the attempt in progress, with its cause (R301, R482). -/
def State.voteNow (s : State) (b : Bid) (v : Vote) (cause : Nat) : State :=
  match s.partOf b with
  | none => s
  | some p => if (s.ctl p).live then (s.castVote p b v).onCtl p fun c => c.cause cause else s

/-! ## Program faults -/

/-- Fault codes (R302, R355, R382). -/
inductive FCode
  | instrInvalid | unitAbsent | descInvalid | shapeInvalid | operandFormat | formatUnsupported | scaleInvalid
  | valueTableInvalid | curveInvalid | copyOverlap | exportClosed | stashEntry | stashExhausted | waitTimeout
  | addrUnmapped | plmSequence | stepSequence | optUncommitted | markSequence | barrierTimeout | barrierMember
  | pcRange | addrAlign | bucketBench | slotInvalid | bucketBusy | reduceUnreachable | stageTooSmall | sparseOverflow
  | reduceTimeout | fabricReject | peerLost
  deriving DecidableEq, Repr

/-- A fault's code (R302, R355, R382). -/
def FCode.code : FCode → Nat
  | .instrInvalid => 0x01 | .unitAbsent => 0x02 | .descInvalid => 0x03 | .shapeInvalid => 0x04
  | .operandFormat => 0x05 | .formatUnsupported => 0x06 | .scaleInvalid => 0x07 | .valueTableInvalid => 0x08
  | .curveInvalid => 0x09 | .copyOverlap => 0x0A | .exportClosed => 0x0B | .stashEntry => 0x0C
  | .stashExhausted => 0x0D | .waitTimeout => 0x0E | .addrUnmapped => 0x0F | .plmSequence => 0x10
  | .stepSequence => 0x11 | .optUncommitted => 0x12 | .markSequence => 0x13 | .barrierTimeout => 0x14
  | .barrierMember => 0x15 | .pcRange => 0x16 | .addrAlign => 0x17
  | .bucketBench => 0x20 | .slotInvalid => 0x21 | .bucketBusy => 0x22 | .reduceUnreachable => 0x23
  | .reduceTimeout => 0x24 | .sparseOverflow => 0x25 | .stageTooSmall => 0x26
  | .fabricReject => 0x28 | .peerLost => 0x29

/-- A fault's place in the order of R573; faults that arise while running have none. -/
def FCode.order : FCode → Nat
  | .instrInvalid => 1 | .unitAbsent => 2 | .descInvalid => 3 | .formatUnsupported => 4 | .operandFormat => 5
  | .shapeInvalid => 6 | .copyOverlap => 7 | .addrAlign => 8 | .addrUnmapped => 9
  | .optUncommitted => 10 | .stepSequence => 10 | .plmSequence => 10 | .markSequence => 10 | .barrierMember => 10
  | .stashEntry => 11 | .bucketBench => 12 | .slotInvalid => 13 | .bucketBusy => 14 | .reduceUnreachable => 15
  | .stageTooSmall => 16 | .valueTableInvalid => 17 | .curveInvalid => 18 | .scaleInvalid => 19 | .exportClosed => 20
  | _ => 21

/-- Where a program fault arises: its Bench, its queue (0 the Foreman, then HAUL to STK), its unit's index, and its
instruction (R306). -/
structure FaultAt where
  b : Bid
  q : Fin 8
  unit : Nat
  op : OpInfo
  deriving DecidableEq, Repr

/-- The unit class a queue's faults name (R450): Foreman, Hauler, Cutter, Dresser, Wedge, Screen, Weighbridge, Stockpile.
(assumption 43, DEDUCED) -/
def queueUclass (q : Fin 8) : Nat :=
  [ucForeman, ucHauler, ucCutter, ucDresser, ucWedge, ucScreen, ucWeighbridge, ucStockpile].getD q.val ucForeman

/-- The vote a fault sends, by its code (R302, R355, R382). -/
def codeVote (code : Nat) : Vote :=
  if code = 0x0E ∨ code = 0x14 ∨ code = 0x24 ∨ code = 0x29 then .abort else .halt

/-- FM_FAULT with a further fault: the first is kept, a later one sets MORE (R301, R306).
(assumption 43, DEDUCED) -/
def faultWord (old : Word) (f : FaultAt) (code : Nat) : Word :=
  if fld old 0 8 = 0 then
    pack [(0, 8, code), (9, 3, f.q.val), (12, 4, f.unit), (16, 15, f.op.pc.toNat), (32, 32, f.op.mark.toNat)]
  else setFld old 8 1 1

/-- Taking a program fault, by its code (R301): the queue begins nothing further, the Foreman is FAULTED, FM_FAULT captures
it, a record is written, and the Bench votes for the attempt in progress and, while it stays FAULTED, for later ones. The record
carries LEVEL 2: R22 does not list program faults (assumption 77, DESIGN CHOICE). -/
def State.faultCode (s : State) (f : FaultAt) (code : Nat) : State :=
  let v := codeVote code
  let s := s.onBench f.b fun x =>
    { x with
      stopped := if f.q = 0 then x.stopped else x.stopped ||| BitVec.ofNat 8 (2 ^ f.q.val)
      fm := { x.fm with st := .faulted, faultVote := some (x.fm.faultVote.getD v) } }
  let s := s.setReg (K.FM_FAULT f.b) (faultWord (s.reg (K.FM_FAULT f.b)) f code)
  let s := s.emit { benchRec 2 f.b (queueUclass f.q) f.unit 0x0A (s.partOf f.b) with
    fault := code, op := some f.op
    vote := if (match s.partOf f.b with | some p => (s.ctl p).live | none => false) then voteRec v else 0 }
  s.voteNow f.b v causeFault

/-- Taking a program fault (R301, R302). (assumption 17, DEDUCED) -/
def State.fault (s : State) (f : FaultAt) (c : FCode) : State := s.faultCode f c.code

/-! ## Poison -/

/-- Who makes an access: its Bench and partition, the unit class and index and the instruction its records name, and
whether its work belongs to the open attempt (R447). -/
structure Who where
  b : Bid
  part : Part
  ucls : Nat
  index : Nat
  op : Option OpInfo
  stepWork : Bool
  deriving DecidableEq, Repr

/-- The record a unit's access writes. -/
def Who.rec_ (w : Who) (event addr : Nat) (vote : Vote) : RecInfo :=
  ⟨1, w.b, w.ucls, w.index, none, event, 0, some w.part, w.op, voteRec vote, addr, 0⟩

/-- The error controller's vote on reading a poisoned address in the attempt (R447). -/
def poisonVote (seen : List (Nat × Nat)) (addr att : Nat) : Vote :=
  match seen.find? (fun e => e.1 == addr) with
  | some e => if e.2 < att then .halt else .abort
  | none => .abort

/-- A poisoned word was consumed: a POISON_CONSUMED record naming it, the table of the 16 most recent poisoned addresses, each with
the attempt that first read it, and the error controller's vote (R447, R451). -/
def State.consumed (s : State) (w : Who) (wn : Nat) : State :=
  let addr := 16 * wn
  let att := s.rf (K.STEP_STATE w.b) F.STEP_STATE_ATTEMPT
  let v := if w.stepWork then poisonVote (s.bench w.b).poisoned addr att else .pass
  let s := s.emit (w.rec_ 0x06 addr v)
  let s := if w.stepWork then
      s.onBench w.b fun x =>
        let seen := ((x.poisoned.find? fun e => e.1 == addr).map Prod.snd).getD att
        let rest := x.poisoned.filter fun e => e.1 != addr
        { x with poisoned := (rest ++ [(addr, seen)]).drop (rest.length + 1 - 16) }
    else s
  s.errVote w.b v

/-! ## Stored words: upsets, reads and writes -/

/-- Two upsets of one word together (R207). (assumption 45, DESIGN CHOICE; assumption 47, DEDUCED) -/
def upsetJoin : Upset → Upset → Upset
  | .clean, u => u
  | u, .clean => u
  | .cell, u => u
  | u, .cell => u
  | .symbol a x, .symbol b y => if a = b then .symbol a (x ^^^ y) else .multi
  | _, _ => .multi

/-- The record of a memory event at a word: of its bank for SRAM, of its stack for bulk memory (R208, R209, R240, R258, R267). -/
def State.memRec (s : State) (wn event : Nat) (syn : Word) : RecInfo :=
  let a := 16 * wn
  if inSram a then
    let b := benchOf a
    { benchRec 2 b ucBank (bankOf a) event (s.partOf b) with addr := a, syn := syn }
  else
    { hubRec ucStack (s.stackAt a) event (s.rowOwner (rowOf a)) with addr := a, syn := syn }
/-- A memory event recorded. -/
def State.memEvent (s : State) (wn event : Nat) (syn : Word) : State := s.emit (s.memRec wn event syn)

/-- A sticky memory status bit set: bit i of BMEM_STAT, or bit 8 + i of the stack's BMC_STAT. -/
def State.memStat (s : State) (wn i : Nat) : State :=
  let a := 16 * wn
  if inSram a then s.setRf (K.BMEM_STAT (benchOf a)) ⟨i, 1⟩ 1
  else s.setRf (K.BMC_STAT (s.stackAt a)) ⟨8 + i, 1⟩ 1

/-- POISON_READ of the Bench whose bank answered a read with a poisoned word (R240). -/
def State.poisonRead (s : State) (wn : Nat) : State :=
  if inSram (16 * wn) && (s.mark wn).poison then s.memStat wn 2 else s

/-- The check syndrome of an error, which the specification gives no code for (assumption 8, DESIGN CHOICE). -/
def synOf (free : Word) (u : Upset) : Word :=
  match u with
  | .symbol sym _ => pack [(0, 16, free.toNat), (16, 6, sym.val)]
  | _ => pack [(0, 16, free.toNat)]

/-- The bank or stack decodes a word that a request reads (R207-R209, R258): a correctable error is corrected, counted, and
recorded once in a patrol interval; an uncorrectable one is recorded and marks the word poisoned; disagreeing full/empty
cells are rewritten from their majority and counted. (assumption 47, DEDUCED) -/
def State.decodeWord (s : State) (wn : Nat) (u : Upset) : State :=
  let m := s.mark wn
  let count := fun (s : State) => if inSram (16 * wn) then s.countB (benchOf (16 * wn)) 119 1 else s
  if u = .cell then
    if inSram (16 * wn) then
      (((s.setMark wn (m.setFull m.full)).memStat wn 0).memEvent wn 0x07 0).countB (benchOf (16 * wn)) 119 1
    else s
  else
    match upsetJoin m.upset u with
    | .clean => s
    | .cell => s
    | .symbol sym x =>
      if m.poison then (if u = .clean then s else
        let (f, s) := s.drawWord
        ((s.setMark wn { m with upset := .multi }).memStat wn 1).memEvent wn 0x05 (synOf f .multi))
      else
        let s' := count (s.setMark wn { m with upset := .symbol sym x, noted := true, rewritten := false })
        let s' := s'.memStat wn 0
        if m.noted then (if m.rewritten then s'.noteFault (s'.memRec wn 0x04 0) else s')
        else
          let (f, s') := s'.drawWord
          s'.memEvent wn 0x04 (synOf f (.symbol sym x))
    | .multi =>
      if m.poison && u = .clean then s
      else
        let (f, s) := s.drawWord
        ((s.setMark wn { m with upset := .clean, poison := true }).memStat wn 1).memEvent wn 0x05 (synOf f .multi)

/-- How an access of a word answers: done, or it must wait for the full/empty bit. -/
inductive Acc1 (α : Type)
  | ok (x : α) (s : State)
  | wait
  deriving DecidableEq, Repr

/-- A read of one word under FE_RD (R212): outside Bench SRAM it acts as PLAIN (R214). -/
def State.readWord (s : State) (wn : Nat) (fe : BitVec 2) : Acc1 Got :=
  let s := s.decodeWord wn .clean
  let m := s.mark wn
  if !inSram (16 * wn) || fe = 2 then .ok ⟨s.word wn, m.poison⟩ s
  else if !m.full then .wait
  else if fe = 1 then .ok ⟨s.word wn, m.poison⟩ (s.setMark wn (m.setFull false))
  else .ok ⟨s.word wn, m.poison⟩ s

/-- The words of a range decoded as a request reads them: those that bear a mark (R208, R209, R258). -/
def State.decodeRange (s : State) (lo hi : Nat) : State :=
  (s.marks.filter fun e => lo ≤ e.1 && e.1 < hi).foldl (fun s e => s.decodeWord e.1 .clean) s

/-- A write of one word under FE_WR (R209, R212): a write of the whole word leaves it clean or as poisoned as it is written; a
write of part of a poisoned word leaves it poisoned. An `fe` of 3, which no descriptor holds, waits for the word to be empty and
leaves it so: a later write of the same instruction fills it. -/
def State.writeWord (s : State) (w : WrReq) : Acc1 Unit :=
  let sram := inSram (16 * w.word)
  if sram && w.fe.getLsbD 0 && s.full w.word then .wait
  else
    let whole := decide (w.mask = allBits)
    let s := if whole then s else s.decodeWord w.word .clean
    let m := s.mark w.word
    let m : WordMark := { m with
      poison := w.poison || (!whole && m.poison), upset := .clean
      rewritten := m.rewritten && !whole }
    let m := if sram && !w.fe.getLsbD 1 then m.setFull true else m
    .ok () ((s.putWord w.word w.data w.mask).setMark w.word m)

/-- The record of an access that a router or a stack controller refuses: the unit that refused it, the requesting partition and,
for an instruction's access, the instruction (R252, R449, R452, R523, R560). A router's record carries LEVEL 2 and a stack's LEVEL
3: R22 lists neither check (assumption 77, DESIGN CHOICE). -/
def State.refusal (s : State) (p : Part) (op : Option OpInfo) (a : Nat) : RecInfo :=
  let of (b : Bid) : RecInfo := { benchRec 2 b ucRouter b 0x0F (some p) with addr := a, op := op }
  if inSram a then of (benchOf a)
  else if ctrlBase ≤ a then of ⟨(a - ctrlBase) / 0x1000000 % 16, by omega⟩
  else { hubRec ucStack (s.stackAt a) 0x0F (some p) with addr := a, op := op }

/-- UNMAPPED of the stack that holds a refused bulk address set (R252, R267). -/
def State.unmapped (s : State) (a : Nat) : State :=
  if bulkBase ≤ a && a < ctrlBase then s.setRf (K.BMC_STAT (s.stackAt a)) F.BMC_STAT_UNMAPPED 1 else s

/-- A refused access's record and status (R252, R523). (assumption 26, DEDUCED) -/
def State.refuseAt (s : State) (p : Part) (op : Option OpInfo) (a : Nat) : State := (s.emit (s.refusal p op a)).unmapped a
/-- A refusal by a stack of a request that belongs to no partition (R252, R408). -/
def State.refuseHub (s : State) (a : Nat) : State :=
  (s.emit { hubRec ucStack (s.stackAt a) 0x0F none with addr := a }).unmapped a
def State.refuse (s : State) (w : Who) (a : Nat) : State := s.refuseAt w.part w.op a

end Sys2Proof.Machine
end

