-- ==== Sys2Proof/Machine/Issue.lean ====
section
/-!
DEFINITION. How a Foreman issues: registers and pending values, the guard, stalls, retirement and its trace entry, dispatch
into the seven queues, gates and fences, and completion (spec 10 R272-R285, R296-R298; 11 R310-R319; 20 R546-R549).
-/

namespace Sys2Proof.Machine

/-! ## Registers of a Foreman -/

/-- A scalar register (R272); s0 holds zero. -/
def Foreman.getS (f : Foreman) (r : BitVec 5) : Word := f.s[r.toNat]
/-- A scalar register written; s0 ignores writes (R272). -/
def Foreman.setS (f : Foreman) (r : BitVec 5) (v : Word) : Foreman :=
  if r = 0 then f else { f with s := f.s.set r.toNat v }
def Foreman.getT (f : Foreman) (r : BitVec 4) : Desc := f.t[r.toNat]
def Foreman.setT (f : Foreman) (r : BitVec 4) (v : Desc) : Foreman := { f with t := f.t.set r.toNat v }
/-- A predicate (R272). -/
def Foreman.getP (f : Foreman) (r : BitVec 3) : Bool := f.p.getLsbD r.toNat
/-- A predicate written; p0 ignores writes (R272). -/
def Foreman.setP (f : Foreman) (r : BitVec 3) (v : Bool) : Foreman :=
  if r = 0 then f
  else { f with p := if v then f.p ||| ((1 : BitVec 8) <<< r.toNat) else f.p &&& ~~~ ((1 : BitVec 8) <<< r.toNat) }

/-- Whether a scalar register's value is still to arrive (R319). -/
def Foreman.pendS (f : Foreman) (r : BitVec 5) : Bool :=
  r != 0 && (f.pend.any (fun e => match e with | .s q _ => q == r | _ => false)
    || (match f.voteReq with | some v => v.rd == r | none => false)
    || f.gates.any fun g => g.fmStall && g.rd == r)
/-- Whether a descriptor register's value is still to arrive (R319). -/
def Foreman.pendT (f : Foreman) (r : BitVec 4) : Bool :=
  f.pend.any fun e => match e with | .t q _ => q == r | _ => false

/-- The marker attached to an instruction (R296); 0 while FM_CTL.JOB is 0 (R297). -/
def State.markOf (s : State) (b : Bid) : BitVec 32 :=
  if s.rb (K.FM_CTL b) F.FM_CTL_JOB then (s.fm b).marks.headD 0 else 0

/-- Whether the Foreman issues: RUNNING, and not stalled on a gate (R284, R285, R289) or a waiting access (R281).
(assumption 41, DEDUCED) -/
def State.canIssue (s : State) (b : Bid) : Bool :=
  s.pwr.mainOn && (s.fm b).st == .running && (s.fm b).parked.isNone && !((s.fm b).gates.any fun g => g.fmStall)

/-! ## Trace -/

/-- Whether a Bench traces (R554). -/
def State.traceOn (s : State) (b : Bid) : Bool := s.rb (K.TRC_CTL b) F.TRC_CTL_EN

/-- A trace entry's header words without its PHASE (R549). -/
def traceHead (kind len : Nat) (taken : Bool) (source pc opcode mark cyc : Nat) : List Word :=
  [pack [(0, 4, kind), (4, 2, len), (7, 1, if taken then 1 else 0), (8, 6, source), (14, 15, pc), (29, 10, opcode)],
    pack [(0, 32, mark), (32, 32, cyc)]]

/-- An ANCHOR entry of a Bench (R549). -/
def State.anchor (s : State) (b : Bid) : List Word :=
  let x := s.bench b
  let t := match s.partOf b with | some p => s.reg (K.HOST_TIME p) | none => 0
  traceHead 2 2 false b 0 0 0 x.cycles.toNat ++
    [pack [(0, 48, x.cycles.toNat), (48, 16, x.wrap.toNat)],
      pack [(0, 48, s.rf (K.STEP_STATE b) F.STEP_STATE_STEP), (48, 4, s.rf (K.STEP_STATE b) F.STEP_STATE_ATTEMPT)], t, 0]

/-- 16-byte units that staged entries take. -/
def traceUnits (l : List (List Word)) : Nat := l.foldl (fun a e => a + e.length / 2) 0

/-- PHASE of the entry that begins `pos` units into the ring's pass: inverted at each wrap (R549). -/
def phaseAt (phase : Bool) (size pos : Nat) : Bool := phase != ((pos / size) % 2 == 1)

/-- Entries with their PHASE bits, the first of them `pos` units into the ring's pass (R549).
(assumption 61, DEDUCED) -/
def stampAll (phase : Bool) (size : Nat) : Nat → List (List Word) → List (List Word)
  | _, [] => []
  | pos, [] :: rest => stampAll phase size pos rest
  | pos, (w :: ws) :: rest =>
    (setFld w 6 1 (if phaseAt phase size pos then 1 else 0) :: ws) :: stampAll phase size (pos + (ws.length + 1) / 2) rest

/-- Entries laid behind those a Bench has staged. -/
def State.stamped (s : State) (b : Bid) (new : List (List Word)) : List (List Word) :=
  stampAll (s.bench b).tracePhase (2 ^ s.rf (K.TRC_RING b) F.TRC_RING_SIZE_LOG2)
    (s.rf (K.TRC_PTR b) F.TRC_PTR_TAIL + traceUnits (s.bench b).trace) new

/-- A trace entry staged, or dropped where the 64 KiB staging unit has no room (R548, R550); the first entry after a drop
follows a GAP and an ANCHOR (R549). -/
def State.traceAdd (s : State) (b : Bid) (e : List Word) : State :=
  if !s.traceOn b then s else
  let x := s.bench b
  let gap := if x.traceLost = 0 then [] else
    [traceHead 4 0 false b 0 0 (min x.traceLost 0xFFFFFFFF) x.cycles.toNat, s.anchor b]
  let new := gap ++ [e]
  if traceUnits x.trace + traceUnits new > 4096 then
    ((s.onBench b fun x => { x with traceLost := x.traceLost + 1 }).countB b 141 1).setRf (K.TRC_STAT b) F.TRC_STAT_DROPPED 1
  else
    let new := s.stamped b new
    (s.onBench b fun x => { x with trace := x.trace ++ new, traceLost := 0 }).countB b 140 new.length

/-! ## Issue -/

/-- An instruction at issue: its Bench, its partition, and what its faults and records name (R296, R306). -/
structure Fm where
  b : Bid
  part : Part
  op : OpInfo
  deriving DecidableEq, Repr

def Fm.at_ (c : Fm) : FaultAt := ⟨c.b, 0, 0, c.op⟩
def Fm.who (s : State) (c : Fm) : Who :=
  ⟨c.b, c.part, ucForeman, 0, some c.op, s.rf (K.STEP_STATE c.b) F.STEP_STATE_PHASE == 1⟩

/-- What the body of an instruction answers: a stall, a fault at dispatch with no effect (R313), a fault with what its refused
access left behind (R252), or its effect, with the
fetch going on behind the instruction or at a target word index (R322). `later` is an effect whose instruction retires only when
what it waits for has come (R270, R294); `marked` names the identifier that its trace entry carries in place of the attached one
(R549). -/
inductive Disp
  | stall
  | fault (c : FCode)
  | failed (s : State) (c : FCode)
  | done (s : State)
  | later (s : State)
  | marked (s : State) (mark : BitVec 32)
  | jump (s : State) (target : Int)

/-- The header word's bits [9:0] of an instruction (R274). -/
def opcodeOf (eng op : Nat) : BitVec 10 := BitVec.ofNat 10 (eng + 16 * op)

/-- The marker slots of a Bench that hold an identifier count an event of their counter k (R546). -/
def State.slotCount (s : State) (b : Bid) (mark : BitVec 32) (k n : Nat) : State :=
  if mark = 0 then s
  else (List.range 8).foldl (fun s i =>
    if s.rf (K.MK_ID b i) F.MK_ID_ID = mark.toNat then s.count (K.MK_CNT b i k) n else s) s

/-- An instruction dispatched, counted in the marker slots that hold its identifier; one of ENG 0x0 in its ENG's counter, and one
of ENG 0x1 to 0x7 where it enters its queue (R313, R544, R546). (assumption 81, DEDUCED) -/
def State.dispatched (s : State) (c : Fm) : State :=
  (if c.op.opcode.toNat % 16 = 0 then s.countB c.b 120 1 else s).slotCount c.b c.op.mark 0 1

/-- An instruction's retirement at a Bench, counted and traced (R544, R549). -/
def State.retireOp (s : State) (b : Bid) (taken : Bool) (op : OpInfo) : State :=
  (s.countB b 136 1).traceAdd b (traceHead 0 0 taken b op.pc.toNat op.opcode.toNat op.mark.toNat (s.bench b).cycles.toNat)

/-- The issuing instruction retires in its dispatch. -/
def State.retired (s : State) (c : Fm) (taken : Bool) (mark : BitVec 32) : State :=
  (if taken then s.dispatched c else s).retireOp c.b taken { c.op with mark := mark }

/-- Fetch goes on at a word index; a RUNNING Foreman that would fetch outside 0 to 32,767 faults with PC_RANGE (R276). -/
def State.goto (s : State) (c : Fm) (target : Int) : State :=
  let pc := BitVec.ofInt 15 target
  let s := s.onFm c.b fun f => { f with pc := pc }
  if (0 ≤ target ∧ target < 32768) ∨ (s.fm c.b).st ≠ .running then s
  else s.fault ⟨c.b, 0, 0, { c.op with pc := pc }⟩ .pcRange

/-- The guard: p[PRED] xor PNEG (R275). (assumption 42, DEDUCED) -/
def Foreman.guard (f : Foreman) (h : Issue) : Bool := f.getP h.pred != h.pneg

/-- The issuing instruction's context. -/
def State.fmCtx (s : State) (h : Issue) (opcode : BitVec 10) : Fm :=
  ⟨h.bench, (s.partOf h.bench).getD 0, ⟨opcode, (s.fm h.bench).pc, s.markOf h.bench⟩⟩

/-- An instruction of `n` words issued under its header (R274, R275, R314): nothing happens while the Foreman does not issue
or stalls; a false guard retires without effect; a fault at dispatch has no effect but the fault (R301, R313).
(assumption 41, DEDUCED; assumption 42, DEDUCED) -/
def issue (h : Issue) (n : Nat) (opcode : BitVec 10) (body : Fm → State → Disp) (s : State) : Out :=
  if !s.canIssue h.bench then .next s
  else
    let c := s.fmCtx h opcode
    let after : Int := (c.op.pc.toNat : Int) + n
    if after > 32768 then .next (s.fault ⟨c.b, 0, 0, c.op⟩ .pcRange)
    else if !(s.fm h.bench).guard h then .next ((s.retired c false c.op.mark).goto c after)
    else
      match body c s with
      | .stall => .next s
      | .fault code => .next (s.fault c.at_ code)
      | .failed s' code => .next (s'.fault c.at_ code)
      | .done s' => .next ((s'.retired c true c.op.mark).goto c after)
      | .later s' => .next ((s'.dispatched c).goto c after)
      | .marked s' mark => .next ((s'.retired c true mark).goto c after)
      | .jump s' target => .next ((s'.retired c true c.op.mark).goto c target)

/-- An instruction whose register or zero fields break an encoding rule faults whatever its guard; else it issues (R275, R310,
R311). -/
def issueIf (ok : Bool) (h : Issue) (n : Nat) (opcode : BitVec 10) (body : Fm → State → Disp) (s : State) : Out :=
  if ok || !s.canIssue h.bench then issue h n opcode body s
  else .next (s.fault (s.fmCtx h opcode).at_ .instrInvalid)

/-- A body under a check of an operand code that a false guard does not make (R275, R314). (assumption 42, DEDUCED) -/
def valid (ok : Bool) (body : Fm → State → Disp) (c : Fm) (s : State) : Disp :=
  if ok then body c s else .fault .instrInvalid

/-- A body that waits for scalar registers first (R319). -/
def waitS (rs : List (BitVec 5)) (body : Fm → State → Disp) (c : Fm) (s : State) : Disp :=
  if rs.any fun r => (s.fm c.b).pendS r then .stall else body c s

/-! ## Queues -/

/-- Entries a queue holds: instructions and closed gates (R279). -/
def queueLoad (l : List QItem) : Nat :=
  (l.filter fun x => match x with | .instr _ => true | .gate _ => true | _ => false).length

/-- Whether a queue has room for one more entry (R279). -/
def State.hasRoom (s : State) (b : Bid) (q : Fin 8) : Bool := queueLoad (s.queue b q) < 16

/-- The queues an 8-bit mask names, bit 0 left out (R284). -/
def maskQueues (m : BitVec 8) : List (Fin 8) := (List.finRange 8).filter fun q => q != 0 && m.getLsbD q.val

/-- Bit MODE_ACT of CUT_CTL: decode mode (R88). -/
def State.decodeMode (s : State) (b : Bid) : Bool := s.rb (K.CUT_CTL b) F.CUT_CTL_MODE_ACT

/-- The drop list in order: the tags of its valid positions (R245). -/
def State.dropList (s : State) (b : Bid) : List Word := (List.range 16).map fun i => s.reg (K.STK_DROP b i)

/-- A queue entry with all it captures at dispatch (R111, R175, R233, R273). -/
def State.newEntry (s : State) (c : Fm) (op : EngOp) (sel : Nat) (ds : List (BitVec 4)) (rs : List (BitVec 5)) : Entry :=
  let f := s.fm c.b
  { id := f.nextId, op := op, sel := sel, unit := none, ds := ds.map f.getT, rs := rs.map f.getS
    step := s.rf (K.STEP_STATE c.b) F.STEP_STATE_STEP, attempt := s.rf (K.STEP_STATE c.b) F.STEP_STATE_ATTEMPT
    seed := s.reg (K.WDG_JOB_SEED c.b)
    rots := (List.range 15).map fun i => s.reg (K.WDG_ROT c.b i)
    drops := s.dropList c.b
    par := s.rb (K.WGH_RESID c.b) F.WGH_RESID_PAR
    exp := s.rb (K.EXPORT_CTL c.part) F.EXPORT_CTL_ACTIVE
    stepWork := s.rf (K.STEP_STATE c.b) F.STEP_STATE_PHASE == 1
    pc := c.op.pc, mark := c.op.mark, opcode := c.op.opcode }

/-- An engine instruction dispatched into its queue; it stalls on a full queue or a pending register that it names
(R273, R278, R279, R319). (assumption 41, DEDUCED) -/
def dispatch (q : Fin 8) (op : EngOp) (sel : Nat) (ds : List (BitVec 4)) (rs : List (BitVec 5)) (c : Fm) (s : State) :
    Disp :=
  if (ds.any fun d => (s.fm c.b).pendT d) || (rs.any fun r => (s.fm c.b).pendS r) then .stall
  else if !s.hasRoom c.b q then .stall
  else
    let e := s.newEntry c op sel ds rs
    let s := s.setQueue c.b q (s.queue c.b q ++ [.instr e])
    let s := s.onFm c.b fun f => { f with nextId := f.nextId + 1 }
    .done (s.countB c.b (120 + q.val) 1)

/-! ## Outstanding instructions -/

/-- Instructions of an array that are loading, streaming or draining. -/
def ArrayUnit.jobs (a : ArrayUnit) : List ArrJob :=
  a.load.toList ++ (a.back.map Prod.fst).toList ++ a.stream.toList ++ a.drains

def Entry.descA (e : Entry) : Desc := e.ds.headD 0
def Entry.descB (e : Entry) : Desc := e.ds.getD 1 0
/-- The drain descriptor is the last register named (R324). -/
def Entry.descDrain (e : Entry) : Desc := e.ds.getLastD 0

/-- The queue of an array unit (R273). -/
def arrQueue (u : Fin 12) : Fin 8 := if u.val < 4 then 2 else 3

/-- The dispatched instructions of a queue that have not completed (R270, R285). -/
def Bench.outstanding (x : Bench) (q : Fin 8) : List Nat :=
  (x.q[q].filterMap fun i => match i with | .instr e => some e.id | _ => none)
    ++ ((x.run.filter fun r => r.q == q).map fun r => r.e.id)
    ++ ((List.finRange 12).flatMap fun u => if arrQueue u = q then (x.arr[u].jobs.map fun j => j.e.id) else [])
    ++ (if q = 6 then x.wgh.buckets.map fun k => k.e.id else [])

/-- The instructions a COVER mask names (R285). -/
def Bench.covered (x : Bench) (cover : BitVec 8) : List Nat := (maskQueues cover).flatMap x.outstanding

/-- Instruction `id` completes: no fence, vote or evaluation waits for it any longer (R270, R293).
(assumption 3, DEDUCED) -/
def State.completed (s : State) (b : Bid) (id : Nat) : State :=
  s.onFm b fun f =>
    { f with
      fences := f.fences.map fun e => { e with covers := e.covers.filter (· != id) }
      voteReq := f.voteReq.map fun v => { v with covers := v.covers.filter (· != id) }
      evalReq := f.evalReq.map fun l => l.filter (· != id) }

/-! ## Gates -/

/-- A gate opened: it leaves every queue and the Foreman's list (R284). -/
def State.openGate (s : State) (b : Bid) (id : Nat) : State :=
  s.onBench b fun x =>
    { x with
      q := x.q.map fun l => l.filter fun i => match i with | .gate g => g != id | _ => true
      fm := { x.fm with gates := x.fm.gates.filter fun g => g.id != id } }

/-- A gate placed in each queue a GATE mask names (R284). -/
def State.placeGate (s : State) (c : Fm) (kind : GateKind) (gate : BitVec 8) (rd : BitVec 5) : State :=
  let id := (s.fm c.b).nextId
  s.onBench c.b fun x =>
    { x with
      q := (maskQueues gate).foldl (fun (q : Vector (List QItem) 8) (i : Fin 8) => q.set i (q[i] ++ [.gate id])) x.q
      fm := { x.fm with
        nextId := id + 1
        gates := x.fm.gates ++ [⟨id, kind, gate.getLsbD 0, rd, c.op.pc, c.op.mark⟩] } }

/-- Whether every queue a GATE mask names has room (R279). -/
def State.gateRoom (s : State) (b : Bid) (gate : BitVec 8) : Bool := (maskQueues gate).all fun q => s.hasRoom b q

end Sys2Proof.Machine
end

