-- ==== Sys2Proof/Machine/Tensor.lean ====
section
/-!
DEFINITION. Tensor descriptors: their fields, the checks that need no window, element addresses, block-exponent planes,
footprints and the bits a row writes (spec 08 R217-R222; 02 R51, R53, R66, R67).
-/

namespace Sys2Proof.Machine

/-- A decoded descriptor (R217). Dimensions at or above NDIM have extent 1, no stride and no pad. -/
structure Tensor where
  base : Nat
  fmt : Nat
  bs : Nat
  baxis : Nat
  rnd : Nat
  inf : Bool
  ndim : Nat
  cls : Nat
  rotsel : Nat
  vtab : Nat
  feRd : Nat
  feWr : Nat
  prio : Nat
  ext : List Nat
  stride : List Nat
  pad : List Nat
  deriving DecidableEq, Repr

/-- Word w of a descriptor image. -/
def descWord (d : Desc) (w : Nat) : Nat := bits d.toNat (64 * w) 64

/-- The fields of a descriptor image (R217). -/
def tensorOf (d : Desc) : Tensor :=
  let w0 := descWord d 0
  let w1 := descWord d 1
  let nd := bits w0 61 3
  let within (v dflt : Nat) (i : Nat) : Nat := if i < nd then v else dflt
  { base := bits w0 0 48, fmt := bits w0 48 4, bs := bits w0 52 3, baxis := bits w0 55 3, rnd := bits w0 58 2,
    inf := bits w0 60 1 == 1, ndim := nd, cls := bits w1 0 12, rotsel := bits w1 12 4, vtab := bits w1 16 6,
    feRd := bits w1 22 2, feWr := bits w1 24 2, prio := bits w1 26 2,
    ext := (List.range 5).map fun i => within (bits (descWord d (2 + i)) 0 28) 1 i,
    stride := (List.range 5).map fun i => within (bits (descWord d (2 + i)) 28 36) 0 i,
    pad := (List.range 5).map fun i => within (bits (descWord d 7) (12 * i) 12) 0 i }

/-- The class of a descriptor's accesses to a stack: PRIO 0b01 CRITICAL, 0b10 BULK, else NORMAL (R217, R255). -/
def prioClass (n : Nat) : Nat := if n = 1 then 0 else if n = 2 then 2 else 1
def Tensor.memClass (t : Tensor) : Nat := prioClass t.prio

def Tensor.n (t : Tensor) (d : Nat) : Nat := t.ext.getD d 1
def Tensor.st (t : Tensor) (d : Nat) : Nat := t.stride.getD d 0
/-- Padded extent (R220). -/
def Tensor.padded (t : Tensor) (d : Nat) : Nat := t.n d + t.pad.getD d 0
/-- Block size in elements, 0 for none. -/
def Tensor.blk (t : Tensor) : Nat := blockSize t.bs
/-- Stored extent: rounded up to whole blocks on the block axis (R221). -/
def Tensor.s (t : Tensor) (d : Nat) : Nat := if t.bs ≠ 0 ∧ d = t.baxis then roundUp (t.n d) t.blk else t.n d

/-- Bytes of a row of `k` elements (R66, R43). -/
def rowLen (fmt k : Nat) : Nat := if fmt = B10 then 4 * ceilDiv k 3 else ceilDiv (k * fmtWidth fmt) 8

def Tensor.rowbytes (t : Tensor) : Nat := rowLen t.fmt (t.s 0)

/-- Byte length from BASE to the end of the last stored row (R221). -/
def Tensor.footprint (t : Tensor) : Nat :=
  t.rowbytes + (List.range 4).foldl (fun a i => a + (t.s (i + 1) - 1) * t.st (i + 1)) 0

/-- First byte of the exponent plane (R67). -/
def Tensor.plane (t : Tensor) : Nat := t.base + 512 * ceilDiv t.footprint 512

/-- Extents of the exponent plane (R67). -/
def Tensor.planeExt (t : Tensor) (d : Nat) : Nat := if d = t.baxis then ceilDiv (t.n d) t.blk else t.n d

/-- Bytes of the exponent plane; none without a block exponent. -/
def Tensor.planeLen (t : Tensor) : Nat :=
  if t.bs = 0 then 0 else (List.range 5).foldl (fun a d => a * t.planeExt d) 1

/-- One past the last byte of the tensor's storage (R218). -/
def Tensor.limit (t : Tensor) : Nat := if t.bs = 0 then t.base + t.footprint else t.plane + t.planeLen

/-- Number of valid elements. -/
def Tensor.count (t : Tensor) : Nat := t.ext.foldl (· * ·) 1

/-- The index vector of element i, dimension 0 innermost (R57). -/
def unrank : List Nat → Nat → List Nat
  | [], _ => []
  | n :: ns, i => i % n :: unrank ns (i / n)

/-- The element index of an index vector (R57). -/
def rank : List Nat → List Nat → Nat
  | n :: ns, i :: is => i + n * rank ns is
  | _, _ => 0

/-- Kind of an index vector (R219): valid, tail slot or pad. -/
inductive ElemKind | valid | tail | pad
  deriving DecidableEq, Repr

def Tensor.kind (t : Tensor) (ix : List Nat) : ElemKind :=
  let out := (List.range 5).filter fun d => t.n d ≤ ix.getD d 0
  if out.isEmpty then .valid
  else if t.bs ≠ 0 ∧ out = [t.baxis] ∧ ix.getD t.baxis 0 < t.s t.baxis then .tail
  else .pad

/-- First byte of the row of an index vector (R219). -/
def Tensor.rowAddr (t : Tensor) (ix : List Nat) : Nat :=
  (List.range 4).foldl (fun a d => a + ix.getD (d + 1) 0 * t.st (d + 1)) t.base

/-- Bit address of an element of the tensor: eight times the byte address, plus the bit (R66, R43). -/
def Tensor.bitAddr (t : Tensor) (ix : List Nat) : Nat :=
  let i0 := ix.getD 0 0
  8 * t.rowAddr ix + (if t.fmt = B10 then 32 * (i0 / 3) + 10 * (i0 % 3) else fmtWidth t.fmt * i0)

/-- Byte of the exponent plane that holds an element's SE8 (R67). -/
def Tensor.seAddr (t : Tensor) (ix : List Nat) : Nat :=
  let jx := (List.range 5).map fun d => if d = t.baxis then ix.getD d 0 / t.blk else ix.getD d 0
  t.plane + rank ((List.range 5).map t.planeExt) jx

/-- The 16-byte words an element's bits lie in. -/
def Tensor.codeWords (t : Tensor) (ix : List Nat) : List Nat :=
  let b := t.bitAddr ix
  let lo := b / 128
  let hi := (b + fmtWidth t.fmt - 1) / 128
  if lo = hi then [lo] else [lo, hi]

/-- The 16-byte words an element's bits and exponent lie in. -/
def Tensor.elemWords (t : Tensor) (ix : List Nat) : List Nat :=
  t.codeWords ix ++ (if t.bs = 0 then [] else [t.seAddr ix / 16])

/-- The checks of R218 that need no window, and those of R51: every field legal, every extent set. -/
def Tensor.fieldsOk (d : Desc) : Bool :=
  let t := tensorOf d
  t.fmt < 14 && t.bs < 5 && t.baxis < 5 && t.rnd < 3 && 1 ≤ t.ndim && t.ndim ≤ 5
    && t.feRd != 3 && t.feWr != 3 && t.prio != 3
    && bits (descWord d 1) 28 36 == 0 && bits (descWord d 7) 60 4 == 0
    && (List.range t.ndim).all (fun i => t.n i != 0)
    && t.st 0 == 0
    && (t.fmt != B10 || (List.range t.ndim).all (fun i => t.st i % 4 == 0))
    && (t.bs == 0 || t.baxis < t.ndim)
    && (if mustBlock t.fmt then t.bs != 0 else true)
    && (if mayBlock t.fmt then true else t.bs == 0)

/-- span_d of R222. -/
def Tensor.span (t : Tensor) : Nat → Nat
  | 0 => t.rowbytes
  | d + 1 => (t.s (d + 1) - 1) * t.st (d + 1) + t.span d

/-- A destination that addresses no byte twice (R222). -/
def Tensor.distinct (t : Tensor) : Bool :=
  (List.range 4).all fun d => t.n (d + 1) ≤ 1 || t.span d ≤ t.st (d + 1)

/-- The bytes of a tensor's stored elements, its tail slots and its exponent plane, as (first byte, length) (R113, R179, R226):
the bytes between rows, and those before the plane, are none of them; without a block exponent there is no plane. -/
def Tensor.spans (t : Tensor) : List (Nat × Nat) :=
  let ns := (List.range 4).map fun d => t.s (d + 1)
  ((List.range (ns.foldl (· * ·) 1)).map fun i => (t.rowAddr (0 :: unrank ns i), t.rowbytes))
    ++ if t.bs = 0 then [] else [(t.plane, t.planeLen)]

/-- Whether two tensors share a byte of their elements, tail slots or exponent planes (R113, R179, R226). -/
def Tensor.overlaps (a b : Tensor) : Bool :=
  a.base < b.limit && b.base < a.limit
    && a.spans.any fun x => b.spans.any fun y => x.1 < y.1 + y.2 && y.1 < x.1 + x.2

/-! ## Bits to write -/

/-- A word under construction: its data, the bits written, and whether it is written poisoned. -/
structure WordBits where
  data : Line16
  mask : Line16
  poison : Bool
  deriving DecidableEq, Repr

def WordBits.empty : WordBits := ⟨0, 0, false⟩

/-- The mark of each bit of a code of `w` bits: poisoned as a whole, or clean. -/
def marksOf (w : Nat) (psn : Bool) : Nat := if psn then 2 ^ w - 1 else 0

/-- `w` bits of `v` written from a bit address up; a word that receives a bit marked in `psn` is written poisoned (R210). -/
def putMarked : Nat → Tab WordBits → Nat → Nat → Nat → Tab WordBits
  | 0, ws, _, _, _ => ws
  | w + 1, ws, b, v, psn =>
    let o := tgetW ws (b / 128)
    let i := b % 128
    let one : Line16 := (1 : Line16) <<< i
    let o' : WordBits :=
      ⟨if v % 2 = 1 then o.data ||| one else o.data &&& ~~~ one, o.mask ||| one, o.poison || psn % 2 = 1⟩
    putMarked w (tputW ws (b / 128) o') (b + 1) (v / 2) (psn / 2)
where
  tgetW : Tab WordBits → Nat → WordBits
    | [], _ => WordBits.empty
    | (k, x) :: rest, a => if k = a then x else tgetW rest a
  tputW : Tab WordBits → Nat → WordBits → Tab WordBits
    | [], a, x => [(a, x)]
    | (k, y) :: rest, a, x =>
      if k < a then (k, y) :: tputW rest a x else if k = a then (a, x) :: rest else (a, x) :: (k, y) :: rest

/-- `w` bits of `v` written from a bit address up, poisoned together or clean. -/
def putBits (w : Nat) (ws : Tab WordBits) (b v : Nat) (psn : Bool) : Tab WordBits := putMarked w ws b v (marksOf w psn)

/-- An element's code put in its place, each bit with its mark; a row's last element also writes the zero bits up to the row's end,
poisoned where `rest` says so (R66, R210). -/
def Tensor.putCode (t : Tensor) (ws : Tab WordBits) (ix : List Nat) (code psn : Nat) (rest : Bool) : Tab WordBits :=
  let b := t.bitAddr ix
  let ws := putMarked (fmtWidth t.fmt) ws b code psn
  let i0 := ix.getD 0 0
  let e := b + fmtWidth t.fmt
  if i0 + 1 = t.s 0 then putBits (8 * (t.rowAddr ix + t.rowbytes) - e) ws e 0 rest
  else if t.fmt = B10 ∧ i0 % 3 = 2 then putBits 2 ws e 0 rest
  else ws

/-- An element's code put in its place, poisoned as a whole or clean, with the zero bits that end its row (R66). -/
def Tensor.putElem (t : Tensor) (ws : Tab WordBits) (ix : List Nat) (code : Nat) (psn : Bool) : Tab WordBits :=
  t.putCode ws ix code (marksOf (fmtWidth t.fmt) psn) psn

/-- An element's block exponent put in its place. -/
def Tensor.putSe (t : Tensor) (ws : Tab WordBits) (ix : List Nat) (se : Nat) (psn : Bool) : Tab WordBits :=
  putBits 8 ws (8 * t.seAddr ix) se psn

end Sys2Proof.Machine
end

