-- ==== Sys2Proof/Machine/Engine.lean ====
section
/-!
DEFINITION. What the engines share: their accesses to memory words, protected pages, tensors read and written word by
word, tensor scales and value tables, Tally counts, the choice of a unit and the release of a queue (spec 02 R50, R65;
05 R121, R124, R127, R128; 06 R140, R141; 08 R210-R222; 09 R259-R262; 10 R279, R301, R572, R573).
-/

namespace Sys2Proof.Machine

/-! ## Protected pages (R259-R262) -/

/-- Whether a protection set is armed, and its broken bit (R268). -/
def State.armed (s : State) (p : Part) (n : Fin 4) : Bool := s.rb (K.COW_CTL p n) F.COW_CTL_ARM
def State.broken (s : State) (p : Part) (n : Fin 4) : Bool := s.rb (K.COW_CTL p n) F.COW_CTL_BROKEN
/-- Whether a set names a page (R259, R268). -/
def State.setNames (s : State) (p : Part) (n : Fin 4) (page : Nat) : Bool :=
  (List.range 8).any fun j =>
    let b := s.rf (K.COW_RGN p n j) F.COW_RGN_BASE
    b ≤ page && page < b + s.rf (K.COW_RGN p n j) F.COW_RGN_PAGES
/-- A set's recorded copy of a page: the reserve page, one above it so that 0 is none. -/
def CowSet.copyOf (c : CowSet) (page : Nat) : Nat := tget 0 c.copies page
/-- The armed sets of a partition that protect a page and hold no copy of it (R261). -/
def State.needCopy (s : State) (p : Part) (page : Nat) : List (Fin 4) :=
  (List.finRange 4).filter fun n =>
    s.armed p n && s.setNames p n page && (s.cow p n).copyOf page == 0
/-- Reserve pages of a partition that hold a copy. -/
def State.usedReserve (s : State) (p : Part) : List Nat :=
  (List.finRange 4).flatMap fun n => (s.cow p n).copies.map fun e => e.2 - 1
/-- The lowest free page of a partition's reserve pool. -/
def State.freeReserve (s : State) (p : Part) : Option Nat :=
  let b := s.rf (K.BMC_PART p) F.BMC_PART_RSV_BASE
  ((List.range (s.rf (K.BMC_PART p) F.BMC_PART_RSV_PAGES)).map (b + ·)).find? fun x => !(s.usedReserve p).contains x

/-- The bytes and marks of page `src` put in place of those of page `dst`.
(assumption 24, DEDUCED) -/
def State.copyPage (s : State) (src dst : Nat) : State :=
  let a := bulkBase + src * pageSize
  let d := bulkBase + dst * pageSize
  let wa := a / 16
  let wd := d / 16
  let n := pageSize / 16
  let mem := (s.mem.filter fun e => a ≤ e.1 && e.1 < a + pageSize).foldl (fun m e => mset m (d + (e.1 - a)) e.2)
    (tclear s.mem d (d + pageSize))
  let marks := (s.marks.filter fun e => wa ≤ e.1 && e.1 < wa + n).foldl
    (fun m e => tset WordMark.clear m (wd + (e.1 - wa)) e.2) (tclear s.marks wd (wd + n))
  { s with mem := mem, marks := marks }

/-- The mirror of a partition in progress. -/
def State.setTx (s : State) (p : Part) (t : Option MirrorTx) : State := s.onBulk fun b => { b with tx := b.tx.set p t }

/-- A mirror ends: BUSY clears, and DONE or FAILED is set (R406, R411). -/
def State.mirEnd (s : State) (p : Part) (ok : Bool) : State :=
  let k := K.MIR_CTL p
  ((s.setTx p none).setRb k F.MIR_CTL_BUSY false).setRb k (if ok then F.MIR_CTL_DONE else F.MIR_CTL_FAILED) true

/-- A set broken for want of a free reserve page; one that is broken already stays so (R262). -/
def State.breakSet (s : State) (p : Part) (n : Fin 4) : State :=
  if s.broken p n then s else
  let s := s.setRb (K.COW_CTL p n) F.COW_CTL_BROKEN true
  let s := match s.bulk.tx[p] with
    | some t => if t.set = n.val then s.mirEnd p false else s
    | none => s
  s.emit { hubRec ucStack 0 0x10 (some p) with syn := BitVec.ofNat 64 n.val }

/-! ## Slots of a stack (R254-R256) -/

/-- Slots spent in a stack's window, which ends after 256; what runs over counts in the next window (R256).
(assumption 22, DEDUCED) -/
def Stack.spend (x : Stack) (cls cost : Nat) : Stack :=
  let n := x.slot + cost
  if 256 ≤ n then { x with slot := n % 256, grants := [0, 0, 0, 0].set cls (n % 256) }
  else { x with slot := n, grants := x.grants.modify cls (· + cost) }

/-- A slot that no request takes: it passes, and no class is granted it (R256). -/
def Stack.idle (x : Stack) : Stack :=
  if 256 ≤ x.slot + 1 then { x with slot := 0, grants := [0, 0, 0, 0] } else { x with slot := x.slot + 1 }

/-- Slots of stack k granted to a class: spent in its window and counted, with the bytes of them left unused (R254, R256, R545).
(assumption 22, DEDUCED) -/
def State.slotsUsed (s : State) (k : Fin 8) (cls cost bytes : Nat) : State :=
  ((s.countH (256 + 16 * k.val + cls) cost).countH (256 + 16 * k.val + 4) (512 * cost - bytes)).onStk k fun x => x.spend cls cost

/-- The slots that a request to one granule takes: a read or a write of the whole granule one, a write of part of it two (R254). -/
def granuleCost (read : Bool) (bytes : Nat) : Nat := if read || bytes = 512 then 1 else 2

/-- The stack of partition p's address as an index. -/
def State.stackNo (s : State) (p : Part) (a : Nat) : Fin 8 := ⟨(s.stackOf p a).1 % 8, by omega⟩

/-- One granule's request charged its slots. -/
def State.chargeGranule (s : State) (p : Part) (granule cls : Nat) (read : Bool) (bytes : Nat) : State :=
  s.slotsUsed (s.stackNo p (512 * granule)) cls (granuleCost read bytes) bytes

/-- Accesses performed to bulk memory, as (word, class, bytes), charged by granule (R254).
(assumption 22, DEDUCED) -/
def State.charge (s : State) (p : Part) (read : Bool) (l : List (Nat × Nat × Nat)) : State :=
  let l := l.filter fun x => !inSram (16 * x.1)
  ((l.map fun x => (x.1 / 32, x.2.1)).eraseDups).foldl (fun s g =>
    s.chargeGranule p g.1 g.2 read ((l.filter fun x => x.1 / 32 == g.1 && x.2.1 == g.2).map fun x => x.2.2).sum) s

/-- Bytes that a word's write covers. -/
def WrReq.bytes (w : WrReq) : Nat := popcount 128 w.mask.toNat / 8

/-- The first write to a protected page: the page is copied to a free reserve page for every armed set that needs it, in slots of
the write's class; with no free page, each of those sets breaks (R255, R261, R262). (assumption 24, DEDUCED) -/
def State.protect (s : State) (p : Part) (cls page : Nat) : State :=
  let need := s.needCopy p page
  if need.isEmpty then s
  else
    match s.freeReserve p with
    | none => need.foldl (fun s n => s.breakSet p n) s
    | some r =>
      let s := s.copyPage page r
      let one (n : Nat) (s : State) (k : Fin 8) : State :=
        ((s.countH (256 + 16 * k.val + 5) 1).countH (256 + 16 * k.val + 6) n).slotsUsed k cls n (512 * n)
      let s := if s.rb (K.BMC_PART p) F.BMC_PART_IMODE then (List.finRange 8).foldl (one 1024) s
        else one 8192 s (s.stackNo p (bulkBase + page * pageSize))
      need.foldl (fun s n =>
        (s.onCow p n fun c => { c with copies := tset 0 c.copies page (r + 1) }).setRf (K.COW_CTL p n) F.COW_CTL_COPIED
          (s.rf (K.COW_CTL p n) F.COW_CTL_COPIED + 1)) s

/-- What a view read of set n reads at a word: poison where the set is broken, its recorded copy, or the live page (R262). -/
def State.viewRead (s : State) (p : Part) (n : Fin 4) (wn : Nat) : Got × State :=
  let a := 16 * wn
  if s.broken p n then (⟨s.word wn, true⟩, s)
  else
    let c := (s.cow p n).copyOf (pageOf a)
    let wn' := if inSram a || c = 0 then wn else (bulkBase + (c - 1) * pageSize + (a - bulkBase) % pageSize) / 16
    let s := s.decodeWord wn' .clean
    (⟨s.word wn', (s.mark wn').poison⟩, s)

/-! ## Accesses of an instruction -/

/-- How an access answers its requester: performed, parked until a word's bit changes (R213), or refused (R252). -/
inductive Perf (α : Type)
  | ok (x : α) (s : State)
  | wait (s : State)
  | refused (s : State)

/-- One word read for an instruction (R212, R252, R262, R447): a poisoned word is recorded as consumed, and so is a refused one,
which reads as poisoned (R452). -/
def State.access (s : State) (w : Who) (r : RdReq) : Perf Got :=
  let a := 16 * r.word
  if !s.mayAccess w.part a then .refused ((s.refuse w a).consumed w r.word)
  else
    let done (g : Got) (s : State) : Perf Got :=
      let s := if inSram a then
          (match w.op with | some o => s.slotCount w.b o.mark 2 1 | none => s) else s
      if g.poison then .ok g ((if inSram a then s.memStat r.word 2 else s).consumed w r.word) else .ok g s
    match r.view with
    | some n => let (g, s) := s.viewRead w.part n r.word; done g s
    | none =>
      match s.readWord r.word r.fe with
      | .ok g s => done g s
      | .wait => .wait s

/-- One word written for an instruction; a write to a protected page copies it first (R252, R261).
(assumption 24, DEDUCED) -/
def State.store (s : State) (w : Who) (r : WrReq) : Perf Unit :=
  let a := 16 * r.word
  if !s.mayAccess w.part a then .refused (s.refuse w a)
  else if !inSram a && s.bulk.copying.contains (pageOf a) then .wait s
  else
    let s := if inSram a then s else s.protect w.part r.cls (pageOf a)
    match s.writeWord r with
    | .ok _ s =>
      .ok () (if inSram a then (match w.op with | some o => s.slotCount w.b o.mark 2 1 | none => s) else s)
    | .wait => .wait s

/-- Reads performed in order until one waits or is refused. -/
def State.readSeq (w : Who) : List RdReq → Tab Got → State → Perf (Tab Got) × List RdReq
  | [], g, s => (.ok g s, [])
  | r :: rest, g, s =>
    match s.access w r with
    | .ok x s' => State.readSeq w rest (tput g r.word x) s'
    | .wait s' => (.ok g s', r :: rest)
    | .refused s' => (.refused s', r :: rest)

/-- Writes performed in order until one waits or is refused. -/
def State.writeSeq (w : Who) : List WrReq → State → Perf Unit × List WrReq
  | [], s => (.ok () s, [])
  | r :: rest, s =>
    match s.store w r with
    | .ok _ s' => State.writeSeq w rest s'
    | .wait s' => (.ok () s', r :: rest)
    | .refused s' => (.refused s', r :: rest)

/-- Where accesses leave the state, changed. -/
def Perf.map {α : Type} (f : State → State) : Perf α → Perf α
  | .ok x s => .ok x (f s)
  | .wait s => .wait (f s)
  | .refused s => .refused (f s)

/-- Reads performed in order until one waits or is refused, and charged their slots: what was read, and what remains.
(assumption 18, DEDUCED) -/
def State.readAll (w : Who) (l : List RdReq) (g : Tab Got) (s : State) : Perf (Tab Got) × List RdReq :=
  let (x, rest) := State.readSeq w l g s
  (x.map fun s => s.charge w.part true ((l.take (l.length - rest.length)).map fun r => (r.word, r.cls, 16)), rest)

/-- Writes performed in order until one waits or is refused, and charged their slots; and what remains.
(assumption 18, DEDUCED) -/
def State.writeAll (w : Who) (l : List WrReq) (s : State) : Perf Unit × List WrReq :=
  let (x, rest) := State.writeSeq w l s
  (x.map fun s => s.charge w.part false ((l.take (l.length - rest.length)).map fun r => (r.word, r.cls, r.bytes)), rest)

/-! ## Tensors -/

/-- Whether a tensor's storage lies in one window of the partition, and its fields are legal (R51, R218). -/
def State.descOk (s : State) (p : Part) (d : Desc) : Bool :=
  Tensor.fieldsOk d && s.rangeOk p (tensorOf d).base ((tensorOf d).limit - (tensorOf d).base)

/-- Word numbers that bytes [lo, lo + len) lie in. -/
def wordsOf (lo len : Nat) : List Nat :=
  if len = 0 then [] else (List.range ((lo + len - 1) / 16 + 1 - lo / 16)).map (lo / 16 + ·)

/-- The stored rows of a tensor: valid elements and tail slots (R219). -/
def Tensor.rows (t : Tensor) : List (List Nat) :=
  let ns := (List.range 4).map fun d => t.s (d + 1)
  (List.range (ns.foldl (· * ·) 1)).map fun i => 0 :: unrank ns i

/-- The words of a tensor's elements, then those of its exponent plane. -/
def Tensor.words (t : Tensor) : List Nat :=
  ((t.rows.flatMap fun ix => wordsOf (t.rowAddr ix) t.rowbytes) ++ wordsOf t.plane t.planeLen).eraseDups

/-- Every read of a tensor, each word once, under its FE_RD. -/
def Tensor.reads (t : Tensor) (view : Option (Fin 4)) : List RdReq :=
  t.words.map fun w => ⟨w, BitVec.ofNat 2 t.feRd, view, t.memClass⟩

/-- `w` bits at a bit address among the words read. -/
def gotBits (g : Tab Got) (b w : Nat) : Nat :=
  let lo := (tget ⟨0, false⟩ g (b / 128)).data.toNat
  let hi := if b % 128 + w ≤ 128 then 0 else (tget ⟨0, false⟩ g (b / 128 + 1)).data.toNat
  bits (lo + hi * 2 ^ 128) (b % 128) w

/-- An element's code among the words read. -/
def Tensor.code (t : Tensor) (g : Tab Got) (ix : List Nat) : Nat := gotBits g (t.bitAddr ix) (fmtWidth t.fmt)
/-- An element's block exponent; 127 without one (R49). -/
def Tensor.se (t : Tensor) (g : Tab Got) (ix : List Nat) : Nat :=
  if t.bs = 0 then 127 else gotBits g (8 * t.seAddr ix) 8
/-- Whether an element's value depends on a poisoned word. -/
def Tensor.poisonedAt (t : Tensor) (g : Tab Got) (ix : List Nat) : Bool :=
  (t.elemWords ix).any fun w => (tget ⟨0, false⟩ g w).poison

/-- The index vectors of a tensor's valid elements, in element order (R57). -/
def Tensor.indices (t : Tensor) : List (List Nat) := (List.range t.count).map (unrank t.ext)

/-- Writes of a tensor's finished words, each once and full under its FE_WR (R121, R212). -/
def Tensor.writes (t : Tensor) (ws : Tab WordBits) : List WrReq :=
  ws.map fun e => ⟨e.1, e.2.data, e.2.mask, BitVec.ofNat 2 t.feWr, e.2.poison, t.memClass⟩

/-! ## Scales, tables, Tallies -/

/-- The tensor scale in force at a class, as its binary32 code (R49, R172). -/
def State.scaleCode (s : State) (p : Part) (cls : Nat) : Nat := s.rf (K.PLM_CLASS0 p cls) F.PLM_CLASS0_SCALE
/-- A scale a conversion takes: positive, normal and finite (R50). -/
def scaleOk (c : Nat) : Bool := 0x00800000 ≤ c && c < 0x7F800000
/-- Whether a format carries a tensor scale (R49). -/
def hasScale (f : Nat) : Bool := !(isWide f || f == I32)
/-- A tensor's scale; 1.0 where its format has none (R46, R93). -/
def State.scaleOf (s : State) (p : Part) (t : Tensor) : Nat :=
  if hasScale t.fmt then s.scaleCode p t.cls else 0x3F800000

/-- The sixteen entries of a Bench's value table (R37, R136). -/
def State.table (s : State) (b : Bid) (t : Nat) : VTable :=
  (List.range 16).map fun n => bits (s.reg (K.VTAB_ENTRY b t (n / 4))).toNat (16 * (n % 4)) 16
/-- A declared width's encoding as a number of entries (R133). -/
def tableWidth (w : Nat) : Nat := if w = 0 then 4 else if w = 1 then 8 else if w = 2 then 16 else 0
/-- Whether a tensor's value table is valid and wide enough, where its format needs one (R38). -/
def State.tableOk (s : State) (b : Bid) (t : Tensor) : Bool :=
  !isTable t.fmt || (s.rb (K.VTAB_INFO b t.vtab) F.VTAB_INFO_VALID
    && tableSize t.fmt ≤ tableWidth (s.rf (K.VTAB_INFO b t.vtab) F.VTAB_INFO_WIDTH))
/-- The table an instruction reads for a tensor; empty where its format has none. -/
def State.tableFor (s : State) (b : Bid) (t : Tensor) : VTable := if isTable t.fmt then s.table b t.vtab else []

/-- Events that instruction `id` counts against a class in its Bench's Tally (R140, R141). What follows a PLM.EVAL in program
order counts towards the next evaluation: it is noted beside the counters until the snapshot is taken (R146).
(assumption 44, DEDUCED) -/
def State.tally (s : State) (b : Bid) (id cls : Nat) (e : Ev) : State :=
  let f := s.fm b
  let late := f.evalReq.isSome && !f.evalSent && decide (f.evalAt ≤ id)
  let counts := ([e.nonfin, e.sat, e.ufz, e.van, e.zblk, e.elem, e.nz].zipIdx).filter fun x => x.1 != 0
  let s := counts.foldl (fun s x => s.count (K.TALLY b cls x.2) x.1) s
  let top (s : State) : State :=
    if s.rf (K.TALLY_AMAX b cls) F.TALLY_AMAX_AMAX < e.amax then s.setRf (K.TALLY_AMAX b cls) F.TALLY_AMAX_AMAX e.amax else s
  if !late then top s
  else s.onBench b fun x =>
    let t := counts.foldl (fun t c => tset 0 t (8 * cls + c.2) (tget 0 t (8 * cls + c.2) + BitVec.ofNat 64 c.1)) x.after
    { x with after := tset 0 t (8 * cls + 7) (BitVec.ofNat 64 (Nat.max e.amax (tget 0 t (8 * cls + 7)).toNat)) }

/-- What instructions behind a PLM.EVAL counted, once its snapshot will not be taken: their maxima join AMAX, and the counters hold
the rest already (R140, R146). -/
def State.joinLate (s : State) (b : Bid) : State :=
  let s := (s.bench b).after.foldl (fun (s : State) e =>
    if e.1 % 8 = 7 ∧ s.rf (K.TALLY_AMAX b (e.1 / 8)) F.TALLY_AMAX_AMAX < e.2.toNat then
      s.setRf (K.TALLY_AMAX b (e.1 / 8)) F.TALLY_AMAX_AMAX e.2.toNat
    else s) s
  s.onBench b fun x => { x with after := [] }

/-! ## Queues and units -/

/-- A queue entry's instruction info. -/
def Entry.info (e : Entry) : OpInfo := ⟨e.opcode, e.pc, e.mark⟩

/-- The instructions of a queue that no closed gate and no waiting mode switch holds back, oldest first (R284, R446, R572). -/
def openItems : List QItem → List Entry
  | [] => []
  | .instr e :: rest => e :: openItems rest
  | .freeCat _ :: _ => []
  | _ => []

/-- The first of a Bench's checks that an instruction breaks, in the order they are listed (R573). -/
def firstFault (l : List (Bool × FCode)) : Option FCode := (l.find? fun e => e.1).map Prod.snd

/-- An entry taken out of its queue as it begins (R279). -/
def State.dequeue (s : State) (b : Bid) (q : Fin 8) (id : Nat) : State :=
  s.setQueue b q ((s.queue b q).filter fun i => match i with | .instr e => e.id != id | _ => true)

/-- Whether a queue still begins instructions: no fault has stopped it (R301). -/
def State.queueRuns (s : State) (b : Bid) (q : Fin 8) : Bool := !(s.bench b).stopped.getLsbD q.val

/-- Unit classes of the engines by queue: how many units, and the select value that means any (R110, R174, R223). -/
def queueUnits (q : Fin 8) : Nat := if q = 1 then 8 else if q = 4 then 4 else if q = 5 then 2 else 1
def queueAny (q : Fin 8) : Nat := if q = 1 then 8 else if q = 4 then 4 else if q = 5 then 2 else 0

/-- The unit an entry names: its assigned unit, or the one its select names. -/
def Entry.names (e : Entry) (q : Fin 8) : Option Nat :=
  match e.unit with
  | some u => some u
  | none =>
    let n := if q = 2 then 4 else if q = 3 then 8 else queueUnits q
    if n = 1 then some 0 else if e.sel < n then some e.sel else none

/-- Whether a unit has an instruction in progress. -/
def Bench.busy (x : Bench) (q : Fin 8) (u : Nat) : Bool := x.run.any fun r => r.q == q && r.unit == u

/-- Whether a Proof runs on a unit or holds it, so that no instruction begins there (R460, R461). -/
def State.proofOn (s : State) (b : Bid) (c u : Nat) : Bool :=
  s.health.proofs.any fun r => (r.running || r.late) && r.u == ⟨b, c, u⟩

/-- Whether a unit can take no instruction now. -/
def State.unitBusy (s : State) (b : Bid) (q : Fin 8) (u : Nat) : Bool :=
  (s.bench b).busy q u || s.proofOn b (queueUclass q) u || s.coreStopped b (queueUclass q) u

/-- Whether an instruction that names a unit stays at the head of its queue: the unit is busy, or it is a Weighbridge or Stockpile
that is not in service, for which R336 lists no fault (assumption 52, DEDUCED). -/
def State.headWaits (s : State) (b : Bid) (q : Fin 8) (u : Nat) : Bool :=
  if s.present b (queueUclass q) u then s.unitBusy b q u else 6 ≤ q.val

/-- The units of a queue in service. -/
def State.unitsOf (s : State) (b : Bid) (q : Fin 8) : List Nat :=
  (List.range (queueUnits q)).filter fun u => s.present b (queueUclass q) u

/-- The units of a queue that can be assigned: in service, with no instruction in progress (R572). A Proof yields (R460). -/
def State.idleUnits (s : State) (b : Bid) (q : Fin 8) : List Nat :=
  (s.unitsOf b q).filter fun u => !(s.bench b).busy q u

/-- The instructions of a queue that mean any unit assigned, in order, to the lowest idle unit that no older one names; a gate
holds back what stands behind it (R572). -/
def assignItems (q : Fin 8) (idle : List Nat) : List QItem → List QItem
  | .instr e :: rest =>
    match e.names q with
    | some u => .instr e :: assignItems q (idle.filter (· != u)) rest
    | none =>
      match (if e.sel = queueAny q then idle.head? else none) with
      | some u => .instr { e with unit := some u } :: assignItems q (idle.filter (· != u)) rest
      | none => .instr e :: assignItems q idle rest
  | l => l

/-- A queue as its instructions stand assigned (R572). What can be assigned is settled where it is read; it is stored before a unit
comes free, a unit comes into service or leaves it, or an instruction leaves the queue, so that an assignment once made stands. -/
def State.assignedQueue (s : State) (b : Bid) (q : Fin 8) : List QItem := assignItems q (s.idleUnits b q) (s.queue b q)

/-- The assignments made in a queue's entries. -/
def State.assign (s : State) (b : Bid) (q : Fin 8) : State := s.setQueue b q (s.assignedQueue b q)

/-- The assignments made in every queue of a Bench that has a select for any unit (R572). -/
def State.assignAll (s : State) (b : Bid) : State := ((s.assign b 1).assign b 4).assign b 5

/-- The instruction of a queue that begins next and the unit it begins on (R572): the oldest that names, or was assigned, a free
unit that no older instruction names. A reserved select, a named unit that is absent, and the select that means any unit where
none is in service, are taken to the head check whatever runs. -/
def State.nextHead (s : State) (b : Bid) (q : Fin 8) : Option (Entry × Nat) :=
  go (openItems (s.assignedQueue b q)) []
where
  go : List Entry → List Nat → Option (Entry × Nat)
    | [], _ => none
    | e :: rest, named =>
      match e.names q with
      | some u =>
        if named.contains u then go rest named
        else if s.headWaits b q u then go rest (u :: named)
        else some (e, u)
      | none => if e.sel = queueAny q && !(s.unitsOf b q).isEmpty then go rest named else some (e, queueUnits q)

/-- Who an entry's accesses are made by, on unit u of queue q. -/
def Entry.who (s : State) (b : Bid) (q : Fin 8) (u : Nat) (e : Entry) : Who :=
  ⟨b, (s.partOf b).getD 0, queueUclass q, u, some e.info, e.stepWork⟩

/-- Where an entry's fault arises. -/
def Entry.at_ (b : Bid) (q : Fin 8) (u : Nat) (e : Entry) : FaultAt := ⟨b, q, u, e.info⟩

/-- The instruction in progress on a unit. -/
def Bench.running (x : Bench) (q : Fin 8) (u : Nat) : Option Running := x.run.find? fun r => r.q == q && r.unit == u
/-- The instruction in progress on a unit, where it can go on: a stopped core takes it no further (R443). -/
def State.active (s : State) (b : Bid) (q : Fin 8) (u : Nat) : Option Running :=
  if s.coreStopped b (queueUclass q) u then none else (s.bench b).running q u
/-- The instruction in progress on a unit rewritten. -/
def State.setRunning (s : State) (b : Bid) (r : Running) : State :=
  s.onBench b fun x => { x with run := x.run.map fun y => if y.q == r.q && y.unit == r.unit then r else y }
/-- An instruction ended: it leaves its unit; those assigned while it ran stay assigned (R572). -/
def State.dropRunning (s : State) (b : Bid) (q : Fin 8) (u : Nat) : State :=
  (s.assign b q).onBench b fun x => { x with run := x.run.filter fun y => !(y.q == q && y.unit == u) }

/-- The instructions that wait in a Bench's queue. -/
def Bench.queued (x : Bench) (q : Fin 8) : List Entry := x.q[q].filterMap fun i => match i with | .instr e => some e | _ => none
/-- Instructions of a Bench's queue and units, oldest first. -/
def Bench.entries (x : Bench) (q : Fin 8) : List Entry :=
  ((x.run.filter fun r => r.q == q).map fun r => r.e) ++ x.queued q

/-- A deposit added in binary64 to the Bench's partials of a class (R194). -/
def State.addPartial (s : State) (b : Bid) (cls : Nat) (v : List Word) : State :=
  let add (s : State) (i : Nat) : State :=
    s.setReg (K.OPT_PART b cls i)
      (BitVec.ofNat 64 (enc64 (((dec64 (s.reg (K.OPT_PART b cls i)).toNat).add (dec64 (v.getD i 0).toNat)).f64)))
  let s := add (add s 0) 1
  s.setReg (K.OPT_PART b cls 2) (s.reg (K.OPT_PART b cls 2) + v.getD 2 0)

/-- Whether an instruction is SCR.OPT with NORM. -/
def Entry.isNorm (e : Entry) : Bool := match e.op with | .scr (.opt n) _ _ => n | _ => false
/-- The SCR.OPT instructions with NORM of a Bench that may still deposit: those in progress and, unless a fault has stopped their
queue, those that wait in it (R194, R301). -/
def Bench.normsOpen (x : Bench) : List Nat :=
  (((x.run.filter fun r => r.q == 5).map fun r => r.e) ++ (if x.stopped.getLsbD 5 then [] else x.queued 5)).filterMap fun e =>
    if e.isNorm then some e.id else none

/-- The deposits that no older instruction holds back are added, in dispatch order (R194). -/
def State.flushDeposits (s : State) (b : Bid) : State :=
  let x := s.bench b
  let ready := x.deposits.filter fun d => x.normsOpen.all fun i => d.1 < i
  let s := s.onBench b fun x => { x with deposits := x.deposits.filter fun d => !(x.normsOpen.all fun i => d.1 < i) }
  ready.foldl (fun s d => s.addPartial b d.2.1 d.2.2) s

/-- A fault taken at the head of a queue; deposits that the queue's instructions held back go on (R194, R301). -/
def State.faultHead (s : State) (f : FaultAt) (c : FCode) : State := (s.fault f c).flushDeposits f.b

/-- An instruction in progress ends with a fault; what it has written remains, and no fence takes it as complete (R215,
R252, R278, R301). -/
def State.failRunning (s : State) (b : Bid) (r : Running) (c : FCode) : State :=
  (s.dropRunning b r.q r.unit).faultHead (r.e.at_ b r.q r.unit) c

/-- A request that parks at a bank is counted once, at the Bench whose bank it is (R213, R544). (assumption 81, DEDUCED) -/
def State.park (s : State) (wn : Nat) (was : Bool) : State := if was then s else s.countB (benchOf (16 * wn)) 118 1

/-- The word that the first of the reads left waits for. -/
def firstWord (l : List RdReq) : Nat := ((l.map fun r => r.word).head?).getD 0

/-- The first of the writes left parks at its bank; one that waits in bulk memory for a page's copy parks at none (R213, R261). -/
def State.parkWrite (s : State) (l : List WrReq) (was : Bool) : State :=
  match l with
  | w :: _ => if inSram (16 * w.word) then s.park w.word was else s
  | [] => s

/-- A bank's grant of a requester: its own Bench's units by their numbers, those of other Benches as one (R205).
(assumption 27, DEDUCED; assumption 40, DESIGN CHOICE) -/
def State.noteGrant (s : State) (c : Bid) (n wn : Nat) : State :=
  let a := 16 * wn
  if !inSram a then s
  else s.onBench (benchOf a) fun x =>
    { x with
      lru := tset 0 x.lru (bankOf a * 31 + if c = benchOf a then n else 30) (x.grantNo + 1)
      grantNo := x.grantNo + 1 }

/-! ## Requests and their order (R205, R206, R213, R257) -/

/-- A request: one word read or written. -/
inductive Ask
  | rd (r : RdReq)
  | wr (w : WrReq)
  deriving DecidableEq, Repr

def Ask.word : Ask → Nat
  | .rd r => r.word
  | .wr w => w.word
def Ask.addr (a : Ask) : Nat := 16 * a.word
def Ask.isRead : Ask → Bool
  | .rd _ => true
  | .wr _ => false

/-- Whether a requester's later request is held behind an earlier one: to the same word, or to the same granule of a stack (R206,
R257). -/
def Ask.behind (earlier a : Ask) : Bool :=
  if inSram a.addr then earlier.word == a.word else earlier.word / 32 == a.word / 32

/-- The requests of a list that none before them in it, or in `before`, holds back. -/
def openAsks : List Ask → List Ask → List Ask
  | _, [] => []
  | before, a :: rest =>
    let l := openAsks (a :: before) rest
    if before.any fun x => x.behind a then l else a :: l

/-- The requests of a bucket that are out: its Weighbridge waits for none of them before the next.
(assumption 19, DEDUCED) -/
def Bucket.wants (k : Bucket) : List Ask := k.reads.map .rd ++ k.writes.map .wr

/-- Whether a request would be performed now: its word's full/empty bit allows it, and no copy of its page is in progress (R212,
R214, R261). (assumption 19, DEDUCED) -/
def State.performable (s : State) : Ask → Bool
  | .rd r => !inSram (16 * r.word) || r.view.isSome || r.fe == 2 || s.full r.word
  | .wr w =>
    if inSram (16 * w.word) then !(w.fe.getLsbD 0 && s.full w.word) else !s.bulk.copying.contains (pageOf (16 * w.word))

end Sys2Proof.Machine
end

