-- ==== Sys2Proof/Machine/Arrays.lean ====
section
/-!
DEFINITION. Cutters and Dressers: the dispatch of CUT.MM and DRS.MM, the head check, tile loads, streams, accumulator
updates with their checks, drains and completion, and the switches of mode and check mode (spec 03 R68-R88;
04 R90-R106; 16 R440-R446).
-/

namespace Sys2Proof.Machine

/-! ## Dispatch -/

/-- Zero fields of the two instructions (R324). -/
def mmFieldsOk (dresser : Bool) (f : MMFields) : Bool :=
  (dresser || (f.passes == 0 && !f.spl)) && (f.drain || f.dc == 0)

/-- Descriptor registers an array instruction names: A, B without REUSE, the drain with DRAIN (R324). -/
def mmRegs (f : MMFields) : List (BitVec 4) :=
  [f.da] ++ (if f.reuse then [] else [f.db]) ++ (if f.drain then [f.dc] else [])

/-- CUT.MM dispatched; it stalls while a mode switch is in progress (R83, R86, R273). -/
def execCutMm (h : Issue) (f : MMFields) (s : State) : Out :=
  issueIf (mmFieldsOk false f) h 1 (opcodeOf 2 1)
    (fun c s =>
      if s.rb (K.CUT_CTL c.b) F.CUT_CTL_SWITCHING then .stall
      else dispatch 2 (.mm false f) f.usel.toNat (mmRegs f) [f.ra, f.rb] c s) s

/-- DRS.MM dispatched (R105, R273). -/
def execDrsMm (h : Issue) (f : MMFields) (s : State) : Out :=
  issueIf (mmFieldsOk true f) h 1 (opcodeOf 3 1) (dispatch 3 (.mm true f) f.usel.toNat (mmRegs f) [f.ra, f.rb]) s

/-! ## Fields of an array instruction -/

def isDresser (u : Fin 12) : Bool := 4 ≤ u.val
/-- The unit's number among its kind. (assumption 43, DEDUCED) -/
def arrNum (u : Fin 12) : Nat := if u.val < 4 then u.val else u.val - 4
def arrClass (u : Fin 12) : Nat := if u.val < 4 then ucCutter else ucDresser
/-- Columns and reduction elements of the grid (R69, R91). -/
def arrCols (u : Fin 12) : Nat := if u.val < 4 then 192 else 256
def arrDepth (u : Fin 12) : Nat := if u.val < 4 then 512 else 256

def Entry.r (e : Entry) (i : Nat) : Word := e.rs.getD i 0
/-- An entry's array fields. -/
def Entry.mm (e : Entry) : Option MMFields := match e.op with | .mm _ f => some f | _ => none

/-- Shape and origin words unpacked, with a tile's fields in their place under REUSE (R80, R325). -/
def mkJob (e : Entry) (f : MMFields) (tile : Option Tile) : ArrJob :=
  let sh := e.r 0
  let org := e.r 1
  let base : ArrJob :=
    { e := e, f := f, m := fld sh 0 11, n := fld sh 11 9, k := fld sh 20 10, a0 := fld sh 30 10, d0 := fld sh 40 21
      m0 := fld org 0 21, n0 := fld org 21 21, k0 := fld org 42 21, sab := 0, tabA := [], tabB := [], decode := false
      pair := false, updated := 0, drained := 0 }
  match tile with
  | some t =>
    if f.reuse then
      { base with
        n := t.n, k := t.k, n0 := t.n0, k0 := t.k0
        f := { f with tb := t.tb, passes := BitVec.ofNat 2 t.passes, spl := t.spl } }
    else base
  | none => base

/-- The B descriptor of a job: its own, or the front tile's under REUSE (R80). -/
def ArrJob.b (j : ArrJob) (tile : Option Tile) : Desc :=
  if j.f.reuse then (match tile with | some t => t.desc | none => 0) else j.e.descB

/-- The partner of an even array (R445). -/
def partner (u : Fin 12) : Fin 12 := if u.val + 1 < 12 then ⟨(u.val + 1) % 12, by omega⟩ else u

/-! ## Head check (R84, R105, R573) -/

/-- Formats the arrays accept (R71, R93). -/
def arrAccepts (dresser : Bool) (f : Nat) : Bool := f ≤ F8R || (dresser && (f == B10 || isWide f))

/-- The rule of R52 and R70: no block exponent, or blocks of 16 or 32 along the reduction dimension. -/
def arrBlockOk (t : Tensor) (transposed : Bool) : Bool :=
  t.bs == 0 || ((t.bs == 1 || t.bs == 2) && t.baxis == (if transposed then 1 else 0))

/-- The alignment of the reduction chunk (R73, R97). -/
def chunkOk (a b : Tensor) (k0 : Nat) : Bool :=
  let blk := Nat.max a.blk b.blk
  k0 % (if blk = 0 then 16 else blk) == 0

/-- Extents of an operand along its rows and its reduction, pads included (R69, R220). -/
def operandFits (t : Tensor) (transposed : Bool) (row red : Nat) : Bool :=
  let (dr, dk) := if transposed then (0, 1) else (1, 0)
  row ≤ t.padded dr && red ≤ t.padded dk && (List.range 3).all fun d => t.padded (d + 2) == 1

/-- The scales an array reads: sab as a binary32 code, where both scales and it are in order (R50, R74). -/
def State.sab (s : State) (p : Part) (a b : Tensor) : Option Nat :=
  let sa := s.scaleOf p a
  let sb := s.scaleOf p b
  let c := enc32 ((dec32 sa).mul (dec32 sb))
  if scaleOk sa && scaleOk sb && scaleOk c then some c else none

/-- The faults of an array instruction in the order of R573. Above its second dimension a drain's extents are tested without their
pads, those of A and B with them: R78 does not say which a drain's are (assumption 84, DESIGN CHOICE). -/
def State.arrayChecks (s : State) (b : Bid) (u : Fin 12) (j : ArrJob) (tile : Option Tile) : List (Bool × FCode) :=
  let p := (s.partOf b).getD 0
  let d := isDresser u
  let a := tensorOf j.e.descA
  let bt := tensorOf (j.b tile)
  let dr := tensorOf j.e.descDrain
  let pair := s.pairMode b
  let here (n : Nat) : Bool := s.present b (arrClass u) n
  [ ((if d then 8 else 4) ≤ j.e.sel || fld (j.e.r 0) 61 3 != 0 || fld (j.e.r 1) 63 1 != 0
        || (d && !j.f.reuse && j.f.passes == 3), .instrInvalid),
    (!here j.e.sel || (pair && (j.e.sel % 2 == 1 || !here (j.e.sel + 1))), .unitAbsent),
    (!s.descOk p j.e.descA || (!j.f.reuse && !s.descOk p j.e.descB)
        || (j.f.drain && (!s.descOk p j.e.descDrain || !dr.distinct || dr.fmt != F32 || dr.bs != 0)), .descInvalid),
    (!arrAccepts d a.fmt || !arrBlockOk a j.f.ta
        || ((!j.f.reuse || tile.isSome) && (!arrAccepts d bt.fmt || !arrBlockOk bt j.f.tb || !chunkOk a bt j.k0)),
      .operandFormat),
    ((j.f.reuse && tile.isNone) || j.m = 0 || 1024 < j.m || j.n = 0 || arrCols u < j.n || j.k = 0 || arrDepth u < j.k
        || 1024 < j.a0 + j.m || !operandFits a j.f.ta (j.m0 + j.m) (j.k0 + j.k)
        || (!j.f.reuse && !operandFits bt j.f.tb (j.n0 + j.n) (j.k0 + j.k))
        || (j.f.drain && (dr.padded 0 < j.n || dr.padded 1 < j.d0 + j.m
              || !((List.range 3).all fun i => dr.n (i + 2) == 1))), .shapeInvalid),
    (!s.tableOk b a || !s.tableOk b bt, .valueTableInvalid),
    ((s.sab p a bt).isNone, .scaleInvalid) ]

/-- The next instruction for an array: the oldest no gate holds back that names it, or that names none (R83, R310, R572). -/
def State.arrHead (s : State) (b : Bid) (u : Fin 12) : Option Entry :=
  (openItems (s.queue b (arrQueue u))).find? fun e =>
    e.sel == arrNum u || (if isDresser u then 8 else 4) ≤ e.sel

/-- Whether an array may begin an instruction: no Proof holds it, and its core has not stopped (R443, R460, R461). -/
def State.arrIdle (s : State) (b : Bid) (u : Fin 12) : Bool :=
  !s.proofOn b (arrClass u) (arrNum u) && !s.coreStopped b (arrClass u) (arrNum u)

/-- Whether an array instruction is being checked or may load: its queue runs, and the array, in PAIR mode its partner too, may
begin it (R445). -/
def State.arrFree (s : State) (b : Bid) (u : Fin 12) : Bool :=
  s.pwr.mainOn && s.queueRuns b (arrQueue u) && s.arrIdle b u && (!s.pairMode b || s.arrIdle b (partner u))

/-- ARRAY_HEAD_CHECK: the instruction at the head of the queue for array u is checked (R84, R105); a REUSE waits for the
preceding tile to come to the front (R80). -/
def execArrayHeadCheck (b : Bid) (u : Fin 12) (s : State) : Out :=
  match s.arrHead b u with
  | none => .next s
  | some e =>
    match e.mm with
    | none => .next s
    | some f =>
      let a := s.arr b u
      if !s.arrFree b u || a.checked = some e.id then .next s
      else if f.reuse && (a.load.isSome || a.back.isSome) then .next s
      else
        let j := mkJob e f a.front
        match firstFault (s.arrayChecks b u j a.front) with
        | some c => .next (s.fault (e.at_ b (arrQueue u) (arrNum u)) c)
        | none => .next (s.setArr b u { a with checked := some e.id })

/-! ## Operand elements -/

/-- The index vector of row i and reduction index k under an orientation (R70). -/
def opIndex (transposed : Bool) (i k : Nat) : List Nat := if transposed then [i, k, 0, 0, 0] else [k, i, 0, 0, 0]

/-- The words an operand element lies in; none for pad (R219). -/
def opWords (t : Tensor) (ix : List Nat) : List Nat := if t.kind ix = .pad then [] else t.elemWords ix

/-- The class of an array's accesses: CRITICAL for a Cutter in decode mode, whatever its descriptors say (R29, R87, R105, R255). -/
def ArrJob.memClass (j : ArrJob) : Nat := if j.decode then 0 else 1

/-- Reads of the words of a list of index vectors that are not yet held. -/
def planReads (cls : Nat) (t : Tensor) (ixs : List (List Nat)) (held : Tab Got) : List RdReq :=
  let ws := ((ixs.flatMap (opWords t)).eraseDups).filter fun w => !held.any fun e => e.1 == w
  ws.map fun w => ⟨w, BitVec.ofNat 2 t.feRd, none, cls⟩

/-- Reduction elements per transposed load group (R82, R103). -/
def groupSize (fmt : Nat) : Nat :=
  if fmt = Q3T then 128 else if fmt = Q2T then 64 else if fmt ≤ Q4T then 32 else if fmt = B10 then 12
  else if fmt = BF16 ∨ fmt = F16 then 8 else if fmt = F32 then 4 else 16

/-- The words of an operand's first load group: the reduction elements of its first row, or, transposed, the elements at the
first reduction index of the first group of rows or columns; block exponents and pad lie in no group (R80, R82, R103). -/
def firstGroup (t : Tensor) (transposed : Bool) (i0 n k0 k : Nat) : List Nat :=
  let ixs := if transposed then (List.range (Nat.min n (groupSize t.fmt))).map fun i => opIndex true (i0 + i) k0
    else (List.range k).map fun x => opIndex false i0 (k0 + x)
  ((ixs.filter fun ix => t.kind ix != .pad).flatMap t.codeWords).eraseDups

/-- Whether a load group that begins at an index is misaligned (R82, R103): one that begins in pad reads nothing and counts as
aligned, and a B10 group that begins within a word counts as misaligned whatever its base and strides are.
(assumption 73, DEDUCED) -/
def misaligned (t : Tensor) (ix : List Nat) : Bool := t.kind ix != .pad && t.bitAddr ix % 128 != 0

/-- Misaligned load groups of `n` rows or columns from `i0`, `k` reduction elements from `k0` (R82).
(assumption 29, DEDUCED) -/
def misalignedGroups (t : Tensor) (transposed : Bool) (i0 n k0 k : Nat) : Nat :=
  if transposed then
    ((List.range k).flatMap fun x =>
      (List.range (ceilDiv n (groupSize t.fmt))).filter fun g => misaligned t (opIndex true (i0 + g * groupSize t.fmt) (k0 + x))).length
  else ((List.range n).filter fun i => misaligned t (opIndex false (i0 + i) k0)).length

/-- An array counter's number: `c` for Cutters, `d` for Dressers, by unit (R544). -/
def arrCounter (u : Fin 12) (c d : Nat) : Nat := if u.val < 4 then c + u.val else d + (u.val - 4)

/-- An array's accesses are made by its unit in its instruction's name. -/
def ArrJob.who (s : State) (b : Bid) (u : Fin 12) (j : ArrJob) : Who :=
  ⟨b, (s.partOf b).getD 0, arrClass u, arrNum u, some j.e.info, j.e.stepWork && !j.decode⟩

/-- An array instruction ends with a fault; what it has done remains (R301). -/
def State.failArr (s : State) (b : Bid) (u : Fin 12) (j : ArrJob) (c : FCode) : State :=
  let a := s.arr b u
  let other (x : Option ArrJob) : Option ArrJob := x.filter fun y => y.e.id != j.e.id
  let a := { a with
    load := other a.load, stream := other a.stream
    back := a.back.filter fun x => x.1.e.id != j.e.id
    drains := a.drains.filter fun x => x.e.id != j.e.id
    drainWrites := [], drainPlanned := false, parked := false }
  (s.setArr b u a).fault (j.e.at_ b (arrQueue u) (arrNum u)) c

/-! ## Tiles (R80-R82, R102) -/

/-- A job with what it reads once: sab, its value tables and, of a Cutter, the mode in force (R26, R74, R93); none where its
scale or table has become invalid (R50, R128). -/
def State.capture (s : State) (b : Bid) (u : Fin 12) (j : ArrJob) (bd : Desc) : Except FCode ArrJob :=
  let a := tensorOf j.e.descA
  let bt := tensorOf bd
  if !s.tableOk b a || !s.tableOk b bt then .error .valueTableInvalid
  else
    match s.sab ((s.partOf b).getD 0) a bt with
    | none => .error .scaleInvalid
    | some c => .ok { j with
        sab := BitVec.ofNat 64 c, tabA := s.tableFor b a, tabB := s.tableFor b bt, decode := !isDresser u && s.decodeMode b
        pair := s.pairMode b }

/-- TILE_LOAD_START: the checked instruction leaves its queue and loads its B tile into the free back buffer once the first
load group's words are full (R74, R80). (assumption 28, DEDUCED) -/
def execTileLoadStart (b : Bid) (u : Fin 12) (s : State) : Out :=
  match s.arrHead b u with
  | none => .next s
  | some e =>
    match e.mm with
    | none => .next s
    | some f =>
      let a := s.arr b u
      if !s.arrFree b u || a.checked != some e.id || f.reuse || a.load.isSome || a.back.isSome then .next s
      else
        let j := mkJob e f none
        let bt := tensorOf e.descB
        if bt.feRd != 2 && (firstGroup bt f.tb j.n0 j.n j.k0 j.k).any fun w => inSram (16 * w) && !s.full w then .next s
        else
          match s.capture b u j e.descB with
          | .error c => .next (s.fault (e.at_ b (arrQueue u) (arrNum u)) c)
          | .ok j =>
            let ixs := (List.range j.n).flatMap fun c => (List.range j.k).map fun x => opIndex f.tb (j.n0 + c) (j.k0 + x)
            let a := { a with checked := none, load := some j, loadReads := planReads j.memClass bt ixs [], loadGot := [] }
            let s := (s.setArr b u a).dequeue b (arrQueue u) e.id
            .next (s.countB b (arrCounter u 8 44) (misalignedGroups bt f.tb j.n0 j.n j.k0 j.k))

/-- The elements of a loaded tile, column by column, as (code, SE8); pad and tail slots read as zero (R53, R219). -/
def tileCols (t : Tensor) (j : ArrJob) (g : Tab Got) : List (List (Nat × Nat)) :=
  (List.range j.n).map fun c => (List.range j.k).map fun x =>
    let ix := opIndex j.f.tb (j.n0 + c) (j.k0 + x)
    if t.kind ix = .valid then (t.code g ix, t.se g ix) else (0, 0)

/-- TILE_LOAD_DONE: the words of the tile still to come are read; with them all, the tile is ready in the back buffer
(R80, R81). (assumption 28, DEDUCED) -/
def execTileLoadDone (b : Bid) (u : Fin 12) (s : State) : Out :=
  let a := s.arr b u
  match a.load with
  | none => .next s
  | some j =>
    match State.readAll (j.who s b u) a.loadReads a.loadGot s with
    | (.refused s', _) => .next (s'.failArr b u j .addrUnmapped)
    | (.wait s', _) => .next s'
    | (.ok g s', rest) =>
      if rest.isEmpty then
        let t := tensorOf j.e.descB
        let tile : Tile :=
          { desc := j.e.descB, n := j.n, k := j.k, n0 := j.n0, k0 := j.k0, tb := j.f.tb, passes := j.f.passes.toNat
            spl := j.f.spl, cols := tileCols t j g, poison := g.any fun e => e.2.poison }
        .next (s'.setArr b u { a with load := none, back := some (j, tile), loadReads := [], loadGot := [], parked := false })
      else .next ((s'.setArr b u { a with loadReads := rest, loadGot := g, parked := true }).park (firstWord rest) a.parked)

/-- The front tile of an array and, in PAIR mode, its partner's, and the passes that both stream (R80, R108, R445). -/
def State.toFront (s : State) (b : Bid) (u : Fin 12) (j : ArrJob) (tile : Tile) (a : ArrayUnit) : State :=
  let go (a : ArrayUnit) : ArrayUnit :=
    { a with front := some tile, frontIdx := !a.frontIdx, lastPasses := j.f.passes.toNat }
  let a := { go a with back := none, stream := some j, rowReads := [], rowGot := [], rowPlanned := false }
  let s := s.setArr b u a
  if j.pair then s.setArr b (partner u) (go (s.arr b (partner u))) else s

/-- STREAM_START: streaming begins when the preceding stream has ended: the back tile becomes the front tile, or a checked
REUSE takes the front tile, in PAIR mode on both arrays (R74, R80, R85, R445). (assumption 28, DEDUCED) -/
def execStreamStart (b : Bid) (u : Fin 12) (s : State) : Out :=
  let a := s.arr b u
  if a.stream.isSome then .next s
  else
    match a.back with
    | some (j, tile) => .next (s.toFront b u j tile a)
    | none =>
      match s.arrHead b u, a.front with
      | some e, some tile =>
        (match e.mm with
         | none => .next s
         | some f =>
           if !f.reuse || !s.arrFree b u || a.checked != some e.id || a.load.isSome then .next s
           else
             match s.capture b u (mkJob e f (some tile)) tile.desc with
             | .error c => .next (s.fault (e.at_ b (arrQueue u) (arrNum u)) c)
             | .ok j =>
               let a := { a with
                 checked := none, stream := some j, rowReads := [], rowGot := [], rowPlanned := false
                 lastPasses := j.f.passes.toNat }
               let s := s.setArr b u a
               let s := if j.pair then
                   s.setArr b (partner u) { s.arr b (partner u) with lastPasses := j.f.passes.toNat }
                 else s
               .next (s.dequeue b (arrQueue u) e.id))
      | _, _ => .next s

/-! ## Updates (R75-R79, R98, R440-R445) -/

/-- Whether the update of an accumulator row waits for an earlier instruction's drain of it (R79). -/
def ArrayUnit.held (a : ArrayUnit) (row : Nat) : Bool :=
  a.drains.any fun d => d.f.drain && d.a0 + d.drained ≤ row && row < d.a0 + d.m

/-- The streamed row's elements without the tensor scale (R75, R98). -/
def rowValues (t : Tensor) (tab : VTable) (j : ArrJob) (r : Nat) (g : Tab Got) : List X :=
  (List.range j.k).map fun x =>
    let ix := opIndex j.f.ta (j.m0 + r) (j.k0 + x)
    if t.kind ix = .valid then blkX t.fmt tab (t.code g ix) (t.se g ix) else X.zero

/-- A column's values from the tile. -/
def colValues (fmt : Nat) (tab : VTable) (col : List (Nat × Nat)) : List X := col.map fun e => blkX fmt tab e.1 e.2

/-- The element products of one column (R75, R98). A tail slot or pad gives 0, as the procedure has it, and its product with an
infinity or a NaN is then NaN (R76). (assumption 73, DEDUCED) -/
def colProducts (dresser : Bool) (j : ArrJob) (fa fb : Nat) (as bs : List X) : List X :=
  List.zipWith (fun a b =>
    if dresser then dresserProd j.f.passes.toNat j.f.spl (isTable fa) (isTable fb) a b else a.mul b) as bs

/-- The products of the magnitudes of a column's parts (R441). -/
def absProducts (dresser : Bool) (j : ArrJob) (fa fb : Nat) (as bs : List X) : List X :=
  List.zipWith (fun a b =>
    if !a.isFinite || !b.isFinite then a.abs.mul b.abs
    else if !dresser then a.abs.mul b.abs
    else
      let q := j.f.passes.toNat
      let pa := (parts q (q == 2 || (q == 1 && !j.f.spl)) (isTable fa) a).map X.abs
      let pb := (parts q (q == 2 || (q == 1 && j.f.spl)) (isTable fb) b).map X.abs
      if q = 2 then
        X.sum [(pa.getD 0 X.zero).mul (pb.getD 0 X.zero), (pa.getD 0 X.zero).mul (pb.getD 1 X.zero),
          (pa.getD 1 X.zero).mul (pb.getD 0 X.zero)]
      else X.sum (pa.flatMap fun x => pb.map fun y => x.mul y)) as bs

/-- What one row's update computes: each column's tree result, and whether the hidden columns pass, with |s - chk|. -/
structure RowOut where
  ts : List (BitVec 32)
  pass : Bool
  diff : X
  deriving DecidableEq, Repr

/-- The tree results of a row, an upset's flipped bits put into its column, and the check of R441. -/
def rowCompute (dresser : Bool) (j : ArrJob) (fa fb : Nat) (as : List X) (tile : Tile) (flip : Option (Nat × BitVec 32)) :
    RowOut :=
  let sab := dec32 j.sab.toNat
  let cols := tile.cols.map fun c => colValues fb j.tabB c
  let prods := cols.map fun bs => colProducts dresser j fa fb as bs
  let abss := cols.map fun bs => absProducts dresser j fa fb as bs
  let ts := (prods.map fun ps => BitVec.ofNat 32 (enc32 (treeResult dresser sab ps))).zipIdx.map fun e =>
    match flip with
    | some (c, x) => if c = e.2 then e.1 ^^^ x else e.1
    | none => e.1
  let chk := checkRow (ts.map fun t => dec32 t.toNat) (prods.map X.sum) (abss.map X.sum) sab
  ⟨ts, chk.1, chk.2⟩

/-- The accumulator with one row's results put in or added (R75, R98), and the row marked poisoned or clean (R442). -/
def ArrayUnit.update (a : ArrayUnit) (acc : Bool) (row : Nat) (ts : List (BitVec 32)) (bad : Bool) : ArrayUnit :=
  let put := ts.zipIdx.foldl (fun t e =>
    let key := row * 256 + e.2
    let v := if acc then BitVec.ofNat 32 (enc32 ((dec32 (tget (0 : BitVec 32) t key).toNat).add (dec32 e.1.toNat)))
      else e.1
    tset (0 : BitVec 32) t key v) a.acc
  { a with
    acc := put
    good := if bad then a.good.filter (· != row)
      else if acc || a.good.contains row then a.good else row :: a.good }

/-- A check's record and vote (R440-R447): cell or block level, the array, the event's syndrome. -/
def State.checkEvent (s : State) (b : Bid) (u : Fin 12) (j : ArrJob) (level event : Nat) (rc : Option (Nat × Nat)) (syn : Word) :
    State :=
  let w := j.who s b u
  let live := match s.partOf b with | some p => (s.ctl p).live | none => false
  let v : Vote := if w.stepWork && live then .abort else .pass
  let s := s.emit ⟨level, b, arrClass u, arrNum u, rc, event, 0, s.partOf b, w.op, voteRec v, 0, syn⟩
  s.errVote b v

/-- ACCUM_ROW_UPDATE: the next streamed row's words are read, and its accumulator row receives its results; an upset within
the array shows at the residue check, the hidden columns and, in PAIR mode, against the partner (R75, R98, R440-R445).
A word that the load groups of two rows share is read, and TAKEn, once in an instruction: it is held from the first row to the last.
(assumption 28, DEDUCED; assumption 84, DESIGN CHOICE) -/
def execAccumRowUpdate (b : Bid) (u : Fin 12) (upset : Option ArrayUpset) (s : State) : Out :=
  let a := s.arr b u
  match a.stream, a.front with
  | some j, some tile =>
    let r := j.updated
    if j.m ≤ r || a.held (j.a0 + r) || s.coreStopped b (arrClass u) (arrNum u) then .next s
    else
      let d := isDresser u
      let ta := tensorOf j.e.descA
      let fb := (tensorOf tile.desc).fmt
      let ixs := (List.range j.k).map fun x => opIndex j.f.ta (j.m0 + r) (j.k0 + x)
      let reads := if a.rowPlanned then a.rowReads else planReads j.memClass ta ixs a.rowGot
      match State.readAll (j.who s b u) reads a.rowGot s with
      | (.refused s', _) => .next (s'.failArr b u j .addrUnmapped)
      | (.wait s', _) => .next s'
      | (.ok g s', rest) =>
        if !rest.isEmpty then
          .next ((s'.setArr b u { a with rowReads := rest, rowGot := g, rowPlanned := true, parked := true }).park (firstWord rest)
            a.parked)
        else
          let poisoned := tile.poison || ixs.any fun ix => (opWords ta ix).any fun w => (tget ⟨0, false⟩ g w).poison
          let as := rowValues ta j.tabA j r g
          let flip := upset.map fun x => (x.col, x.flips)
          let main := rowCompute d j ta.fmt fb as tile (if (upset.map (·.onPartner)).getD false then none else flip)
          let other := rowCompute d j ta.fmt fb as tile (if (upset.map (·.onPartner)).getD false then flip else none)
          let residue := match upset with | some x => x.expected != x.found | none => false
          let differs := j.pair && main.ts != other.ts
          let bad := poisoned || residue || !main.pass || (j.pair && !other.pass) || differs
          let s1 := match upset with
            | some x =>
              if residue then
                let at_ := if x.onPartner then partner u else u
                (s'.checkEvent b at_ j 0 0x01 (some (x.cellRow, x.col))
                  (pack [(0, 3, x.expected.toNat), (4, 3, x.found.toNat), (8, 8, x.segment), (16, 16, r)])).countB b
                  (arrCounter at_ 192 196) 1
              else s'
            | none => s'
          let s2 := if main.pass then s1 else
            (s1.checkEvent b u j 1 0x02 none (BitVec.ofNat 64 (enc64 main.diff))).countB b (arrCounter u 204 208) 1
          let s3 := if !j.pair || other.pass then s2 else
            (s2.checkEvent b (partner u) j 1 0x02 none (BitVec.ofNat 64 (enc64 other.diff))).countB b
              (arrCounter (partner u) 204 208) 1
          let s4 := if differs then
              let c := ((List.zip main.ts other.ts).zipIdx.find? fun e => e.1.1 != e.1.2).map (·.2) |>.getD 0
              s3.checkEvent b u j 1 0x03 none (pack [(0, 32, ((main.ts.getD c 0) ^^^ (other.ts.getD c 0)).toNat), (32, 8, c), (40, 16, r)])
            else s3
          let j' := { j with updated := r + 1 }
          let last := decide (j.m ≤ r + 1)
          let a1 := (a.update j.f.acc (j.a0 + r) main.ts bad)
          let a1 := { a1 with
            rowReads := [], rowGot := if last then [] else g, rowPlanned := false, parked := false
            stream := if last then none else some j'
            drains := if last then a.drains ++ [j'] else a.drains }
          let s5 := s4.setArr b u a1
          let s6 := if j.pair then
              let o := s5.arr b (partner u)
              s5.setArr b (partner u) (o.update j.f.acc (j.a0 + r) other.ts bad)
            else s5
          let mis := if j.f.ta then
              (if r % groupSize ta.fmt = 0 then misalignedGroups ta true (j.m0 + r) 1 j.k0 j.k else 0)
            else misalignedGroups ta false (j.m0 + r) 1 j.k0 j.k
          let s7 := if d then s6.countB b (20 + 3 * arrNum u + j.f.passes.toNat) 1 else s6.countB b (4 + arrNum u) 1
          .next (s7.countB b (arrCounter u 8 44) mis)
  | _, _ => .next s

/-! ## Drains (R78, R79, R101) -/

/-- The instruction whose row drains next: the oldest with an updated row not yet drained. -/
def ArrayUnit.drainJob (a : ArrayUnit) : Option ArrJob :=
  (a.drains ++ a.stream.toList).find? fun j => j.f.drain && j.drained < j.updated

/-- The words that a drain row's columns lie in (R78). -/
def drainWords (t : Tensor) (j : ArrJob) (r : Nat) : List Nat :=
  ((List.range j.n).filter fun c => t.kind [c, j.d0 + r, 0, 0, 0] == .valid).flatMap fun c => t.elemWords [c, j.d0 + r, 0, 0, 0]

/-- The writes of one drained row: binary32 words, poisoned where the row is. A word that a later row of the drain reaches too is
filled by the last of them; under WAITFILL each of them waits for it to be empty (R78, R121, R212, R442).
(assumption 73, DEDUCED) -/
def drainWrites (t : Tensor) (j : ArrJob) (r : Nat) (a : ArrayUnit) : List WrReq :=
  let row := j.a0 + r
  let psn := !a.good.contains row
  let cols := (List.range j.n).filter fun c => t.kind [c, j.d0 + r, 0, 0, 0] == .valid
  let ws := cols.foldl (fun ws c => t.putElem ws [c, j.d0 + r, 0, 0, 0] (tget (0 : BitVec 32) a.acc (row * 256 + c)).toNat psn) []
  let later := (List.range (j.m - r - 1)).flatMap fun i => drainWords t j (r + 1 + i)
  (t.writes ws).map fun w =>
    { w with cls := j.memClass, fe := if later.contains w.word then (if w.fe = 1 then 3 else 2) else w.fe }

/-- Events of a drained row: NONFIN, and the counts of elements written and of non-zero ones (R78, R140, R141). -/
def drainEvents (t : Tensor) (j : ArrJob) (r : Nat) (a : ArrayUnit) : Ev :=
  let row := j.a0 + r
  ((List.range j.n).filter fun c => t.kind [c, j.d0 + r, 0, 0, 0] == .valid).foldl (fun e c =>
    let x := dec32 (tget (0 : BitVec 32) a.acc (row * 256 + c)).toNat
    e.plus { Ev.none with
      nonfin := if x.isFinite then 0 else 1, elem := 1, nz := if x.isFinite && !x.isZero then 1 else 0 }) Ev.none

/-- ACCUM_DRAIN_ROW: the next updated row goes to the drain descriptor (R78, R79).
(assumption 28, DEDUCED) -/
def execAccumDrainRow (b : Bid) (u : Fin 12) (s : State) : Out :=
  let a := s.arr b u
  match a.drainJob with
  | none => .next s
  | some j =>
    let t := tensorOf j.e.descDrain
    let r := j.drained
    let ws := if a.drainPlanned then a.drainWrites else drainWrites t j r a
    match State.writeAll (j.who s b u) ws s with
    | (.refused s', _) => .next (s'.failArr b u j .addrUnmapped)
    | (.wait s', _) => .next s'
    | (.ok _ s', rest) =>
      if !rest.isEmpty then
        .next ((s'.setArr b u { a with drainWrites := rest, drainPlanned := true, parked := true }).parkWrite rest a.parked)
      else
        let step (x : ArrJob) : ArrJob := if x.e.id = j.e.id then { x with drained := r + 1 } else x
        let a1 := { a with
          drainWrites := [], drainPlanned := false, parked := false
          drains := a.drains.map step, stream := a.stream.map step }
        let s1 := s'.setArr b u a1
        .next (if !a.good.contains (j.a0 + r) then s1 else s1.tally b j.e.id t.cls (drainEvents t j r a))

/-- ARRAY_INSTR_COMPLETE: the oldest instruction whose rows are all updated, and drained where it drains, completes
(R85, R442). (assumption 28, DEDUCED) -/
def execArrayInstrComplete (b : Bid) (u : Fin 12) (s : State) : Out :=
  let a := s.arr b u
  match a.drains with
  | [] => .next s
  | j :: rest =>
    if j.f.drain && j.drained < j.m then .next s
    else .next ((s.setArr b u { a with drains := rest }).completed b j.e.id)

/-! ## Mode switches (R86, R446) -/

/-- CUT_CTL.MODE written by the Bench's Foreman: a change of value sets SWITCHING, and CUT dispatch waits (R86, R88). -/
def State.writeCutCtl (s : State) (b : Bid) (v : Word) : State :=
  let m := fld v 0 1
  if m = s.rf (K.CUT_CTL b) F.CUT_CTL_MODE then s
  else (s.setRf (K.CUT_CTL b) F.CUT_CTL_MODE m).setRf (K.CUT_CTL b) F.CUT_CTL_SWITCHING 1

/-- CUT_CTL_MODE_WRITE (R86). -/
def execCutCtlModeWrite (b : Bid) (v : Word) (s : State) : Out := .next (s.writeCutCtl b v)

/-- CUT_MODE_SWITCH_DONE: with no CUT instruction outstanding, MODE_ACT takes MODE (R86). -/
def execCutModeSwitchDone (b : Bid) (s : State) : Out :=
  if s.rb (K.CUT_CTL b) F.CUT_CTL_SWITCHING && ((s.bench b).outstanding 2).isEmpty then
    .next ((s.setRf (K.CUT_CTL b) F.CUT_CTL_MODE_ACT (s.rf (K.CUT_CTL b) F.CUT_CTL_MODE)).setRf (K.CUT_CTL b)
      F.CUT_CTL_SWITCHING 0)
  else .next s

/-- ERR_BCTL.MODE written: instructions dispatched behind it wait for the switch (R446). -/
def State.writeErrBctl (s : State) (b : Bid) (v : Word) : State :=
  let m := fld v 0 1
  if m = s.rf (K.ERR_BCTL b) F.ERR_BCTL_MODE then s
  else
    let s := (s.setRf (K.ERR_BCTL b) F.ERR_BCTL_MODE m).setRf (K.ERR_BCTL b) F.ERR_BCTL_SWITCHING 1
    let put (q : Fin 8) (s : State) : State := s.setQueue b q (s.queue b q ++ [.modeSwitch (m == 1)])
    put 3 (put 2 s)

/-- ERR_BCTL_MODE_WRITE, from the Foreman or the host (R446). -/
def execErrBctlModeWrite (b : Bid) (v : Word) (s : State) : Out := .next (s.writeErrBctl b v)

/-- The part of a queue before its first mode switch, and the switch's value. -/
def beforeSwitch : List QItem → Option (List QItem × Bool × List QItem)
  | [] => none
  | .modeSwitch m :: rest => some ([], m, rest)
  | i :: rest => (beforeSwitch rest).map fun x => (i :: x.1, x.2)

/-- CHECK_MODE_SWITCH_DONE: every CUT and DRS instruction dispatched before the write has completed, and MODE_ACT takes the new
value (R446). -/
def execCheckModeSwitchDone (b : Bid) (s : State) : Out :=
  let x := s.bench b
  let busy := (List.finRange 12).any fun u => !x.arr[u].jobs.isEmpty
  match beforeSwitch (s.queue b 2), beforeSwitch (s.queue b 3) with
  | some (p2, m, r2), some (p3, _, r3) =>
    if busy || (p2 ++ p3).any fun i => match i with | .instr _ => true | _ => false then .next s
    else
      let s := (s.setQueue b 2 (p2 ++ r2)).setQueue b 3 (p3 ++ r3)
      let more := (beforeSwitch r2).isSome
      .next ((s.setRf (K.ERR_BCTL b) F.ERR_BCTL_MODE_ACT (if m then 1 else 0)).setRf (K.ERR_BCTL b) F.ERR_BCTL_SWITCHING
        (if more then 1 else 0))
  | _, _ => .next s

end Sys2Proof.Machine
end

