-- ==== Sys2Proof/Machine/Audit.lean ====
section
/-!
DEFINITION. The audit log: its entries, their chain and the signed checkpoints (spec 19 R535-R537).
-/

namespace Sys2Proof.Machine

/-! ## Keys (R524) -/

/-- A text as the bytes of its characters. -/
def asciiBytes (t : String) : List Byte := t.toList.map fun c => BitVec.ofNat 8 c.toNat

/-- The Ed25519 seed of the identity key: the first 32 bytes of SHA-512(secret ‖ "AETQ-ID"), the first byte lowest (R524).
(assumption 6, DESIGN CHOICE) -/
def identitySeed (secret : BitVec 256) : BitVec 256 := (Config.sha512 (toBytes 32 secret.toNat ++ asciiBytes "AETQ-ID")).setWidth 256

/-- The site key: SHA-512(secret ‖ "AETQ-SITE") (R524). (assumption 6, DESIGN CHOICE) -/
def siteKey (secret : BitVec 256) : BitVec 512 := Config.sha512 (toBytes 32 secret.toNat ++ asciiBytes "AETQ-SITE")

/-- HMAC-SHA-512 (R509). (assumption 91, PRESUMED) -/
def hmac512 (key : BitVec 512) (m : List Byte) : BitVec 512 :=
  let pad (x : Byte) : List Byte := (toBytes 64 key.toNat ++ toBytes 64 0).map (· ^^^ x)
  Config.sha512 (pad 0x5C ++ toBytes 64 (Config.sha512 (pad 0x36 ++ m)).toNat)

/-- The identity key's signature over a message (R524, R526). -/
def State.idSign (s : State) (m : List Byte) : List Byte := Config.sign (identitySeed (s.mgmt.secret.getD 0)) m

/-- The bytes of an audit entry before its signature (R536). (assumption 34, DESIGN CHOICE) -/
def AuditEnt.body (e : AuditEnt) : List Byte :=
  let w3 := e.role % 4 + (e.chan % 16) * 4 + (e.key % 32) * 64 + (if e.checkpoint then 2048 else 0) + (e.msg % 65536) * 65536
    + (e.result % 256) * 2 ^ 32
  toBytes 8 e.seq ++ toBytes 8 e.hostTime.toNat ++ toBytes 8 e.cycles.toNat ++ toBytes 8 w3 ++ toBytes 8 e.arg0.toNat
    ++ toBytes 8 e.arg1.toNat ++ toBytes 16 0 ++ toBytes 64 e.digest.toNat ++ toBytes 64 e.prev.toNat

/-- The 256 bytes of an audit entry (R536). -/
def AuditEnt.bytes (e : AuditEnt) : List Byte := e.body ++ (e.signature ++ List.replicate 64 0).take 64

/-- The digest that the next entry chains to: of the last entry, or zero for the first (R536).
(assumption 34, DESIGN CHOICE) -/
def State.auditPrev (s : State) : BitVec 512 :=
  match s.mgmt.flash.audit.getLast? with
  | some e => Config.sha512 e.bytes
  | none => 0

/-- The log with an entry at its end; when it is full, the oldest 4,096 are erased (R537). -/
def auditPut (l : List AuditEnt) (e : AuditEnt) : List AuditEnt :=
  if 262144 ≤ l.length then l.drop 4096 ++ [e] else l ++ [e]

/-- An entry written: the audit counter advances, and the entries are counted (R506, R536, R545). -/
def State.auditAdd (s : State) (e : AuditEnt) : State :=
  let f := s.mgmt.flash
  let e := { e with
    seq := f.auditCtr + 1, hostTime := s.mgmt.lastTime
    cycles := BitVec.ofNat 64 (s.mgmt.qcycles.toNat + s.mgmt.qwrap.toNat * 2 ^ 48), prev := s.auditPrev }
  let e := if e.checkpoint && s.mgmt.identityOk then { e with signature := s.idSign (toBytes 64 (Config.sha512 e.body).toNat) } else e
  let f := { f with
    auditCtr := f.auditCtr + 1, audit := auditPut f.audit e
    sinceCheckpoint := if e.checkpoint then 0 else f.sinceCheckpoint + 1 }
  (s.onMgmt fun m => { m with flash := f }).countH 426 1

/-- A checkpoint entry: MSG 0, ROLE 0, signed by the identity key; its signature is zero without one (R525, R537). -/
def State.checkpoint (s : State) : State :=
  s.auditAdd ⟨0, 0, 0, 0, 0, 0, true, 0, 0, 0, 0, 0, 0, []⟩

/-- An entry of a request, and a checkpoint after every 256 of them (R535, R537).
(assumption 34, DESIGN CHOICE) -/
def State.auditEntry (s : State) (role chan key msg result : Nat) (arg0 arg1 : Word) (payload : List Byte) : State :=
  let s := s.auditAdd ⟨0, 0, 0, role, chan, key, false, msg, result, arg0, arg1,
    if payload.isEmpty then 0 else Config.sha512 payload, 0, []⟩
  if 256 ≤ s.mgmt.flash.sinceCheckpoint then s.checkpoint else s

/-- AUDIT_CHECKPOINT_TIMER: a checkpoint, when any entry was written since the last (R537); this hourly event also counts the
module's powered hours (R456). (assumption 63, DEDUCED) -/
def execAuditCheckpointTimer (s : State) : Out :=
  if !s.pwr.mainOn then .next s
  else
    let s : State := { s with pwr := { s.pwr with hours := s.pwr.hours + 1 } }
    .next (if s.mgmt.flash.sinceCheckpoint = 0 then s else s.checkpoint)

end Sys2Proof.Machine
end

