-- ==== Sys2Proof/Machine/Convert.lean ====
section
/-!
DEFINITION. Narrowing a whole tensor, rotations, the keys of a conversion, and how an engine instruction begins on its unit
and completes (spec 02 R53, R54, R57; 05 R114-R118, R121, R124; 10 R278, R572).
-/

namespace Sys2Proof.Machine

/-! ## Keys (R115) -/

def stepKey (seed : Word) (step : Nat) : Word := kdf seed (BitVec.ofNat 64 step)
/-- The stochastic-rounding key of a tensor identifier (R115, R177). -/
def srKey (seed : Word) (step tid : Nat) : Word := kdf (stepKey seed step) (BitVec.ofNat 64 (0x100000000 + tid))

/-! ## Rotation slots (R117, R135) -/

/-- A rotation slot's fields: order, axis, FIXED, ROT_ID; none where ORDER or AXIS is reserved. -/
structure Rot where
  n : Nat
  axis : Nat
  fixed : Bool
  id : Nat
  deriving DecidableEq, Repr

def rotOf (w : Word) : Option Rot :=
  if fld w 0 3 ≤ 4 && fld w 4 3 ≤ 4 then some ⟨2 ^ (fld w 0 3 + 4), fld w 4 3, bit w 7, fld w 8 32⟩ else none

/-- The rotation key (R115). -/
def rotKey (seed : Word) (step : Nat) (r : Rot) : Word :=
  kdf (stepKey seed (if r.fixed then 0 else step)) (BitVec.ofNat 64 (0x200000000 + r.id))

/-- The sign of index k along the axis: negative when r[31] is 1 (R118). -/
def rotNeg (key : Word) (k : Nat) : Bool := (kdf key (BitVec.ofNat 64 k)).getLsbD 31

/-- h(a, b) is -1: (a band b) has an odd number of ones (R118). -/
def hadNeg (a b : Nat) : Bool := popcount 8 (a &&& b) % 2 == 1

def X.signed (neg : Bool) (x : X) : X := if neg then x.opp else x

/-- An exact sum over sqrt(n), with enough bits for one correct rounding (R118). -/
def overSqrt (n : Nat) (s : X) : X :=
  let l := Nat.log2 n
  if l % 2 = 0 then s.scale (-((l / 2 : Nat) : Int))
  else X.signed s.neg (((s.mul s).scale 1).sqrt.scale (-(((l + 1) / 2 : Nat) : Int)))

/-- One output of a rotation group, by its place k in the group, from the group's inputs (R118): the value and whether it
saturated. -/
def rotOut (r : Rot) (key : Word) (inverse : Bool) (g k : Nat) (xs : List X) : X × Bool :=
  if xs.any (fun x => !x.isFinite) then (.nan false, false)
  else
    let base := g * r.n
    let terms := xs.zipIdx.map fun e =>
      if inverse then X.signed (hadNeg k e.2) e.1 else X.signed (hadNeg k e.2 != rotNeg key (base + e.2)) e.1
    let sum := X.sum terms
    let sum := if inverse then X.signed (rotNeg key (base + k)) sum else sum
    if sum.isZero then (X.zero, false)
    else
      let y := (overSqrt r.n sum).f32
      if y.isFinite then (y, false) else (f32I.dec ((if sum.neg then 0x80000000 else 0) + 0x7F7FFFFF), true)

/-- The index vectors of an element's rotation group. -/
def rotGroup (r : Rot) (ix : List Nat) : List (List Nat) :=
  let g := ix.getD r.axis 0 / r.n
  (List.range r.n).map fun j => ix.set r.axis (g * r.n + j)

/-! ## Narrowing a tensor (R54, R121, R124) -/

/-- What an element is to be: its binary32 value, whether it is poisoned, and whether it saturated on the way (R118). -/
structure Elem where
  x : X
  bad : Bool
  sat : Bool
  deriving DecidableEq, Repr

/-- Elements narrowed without a block exponent, at some index vectors of a tensor (R54, R124). -/
def Tensor.narrowPlain (t : Tensor) (c : Enc) (ixs : List (List Nat)) (val : List Nat → Elem) : Tab WordBits × Ev :=
  ixs.foldl (fun (acc : Tab WordBits × Ev) ix =>
    let e := val ix
    let (code, ev) := encPlain c (rank t.ext ix) e.x
    (t.putElem acc.1 ix code e.bad, if e.bad then acc.2 else (acc.2.plus ev).plus { Ev.none with sat := if e.sat then 1 else 0 }))
    ([], Ev.none)

/-- A tensor's elements narrowed into its bits, and the events against its class; poisoned blocks write poison and raise
none (R54, R66, R67, R124). An element that saturates on rotation and again on narrowing raises both events that R123 lists.
(assumption 49, DEDUCED) -/
def Tensor.narrow (t : Tensor) (c : Enc) (val : List Nat → Elem) : Tab WordBits × Ev :=
  if t.bs = 0 then t.narrowPlain c t.indices val
  else
    let px := (List.range 5).map t.planeExt
    (List.range t.planeLen).foldl (fun (acc : Tab WordBits × Ev) j =>
      let jx := unrank px j
      let slots := (List.range t.blk).map fun k => jx.set t.baxis (jx.getD t.baxis 0 * t.blk + k)
      let valid := slots.filter fun ix => ix.getD t.baxis 0 < t.n t.baxis
      let es := valid.map val
      let bad := es.any fun e => e.bad
      let (se, codes, ev) := encBlock c ((valid.map (rank t.ext)).zip (es.map fun e => e.x))
      let ws := slots.zipIdx.foldl (fun ws s => t.putElem ws s.1 (codes.getD s.2 0) bad) acc.1
      let ws := t.putSe ws (slots.headD jx) se bad
      (ws, if bad then acc.2
        else (acc.2.plus ev).plus { Ev.none with sat := (es.filter fun e => e.sat).length })) ([], Ev.none)

/-- How a tensor is to be written, from its descriptor (R54). -/
def Tensor.enc (t : Tensor) (tab : VTable) (scale : Nat) (key : Word) : Enc :=
  ⟨t.fmt, t.blk, t.rnd, t.inf, tab, dec32 scale, key⟩

/-- A source element as binary32 (R65), with its poison; the flag says whether it saturated. -/
def Tensor.read (t : Tensor) (tab : VTable) (scale : Nat) (g : Tab Got) (ix : List Nat) : Elem :=
  let (x, sat) := readX t.fmt (t.bs != 0) tab (t.code g ix) (t.se g ix) (dec32 scale)
  ⟨x, t.poisonedAt g ix, sat⟩

/-- Saturations of a source's clean elements on being read (R65, R123): a poisoned element counts none, and a clean one counts
even where a poisoned block holds its result.
(assumption 49, DEDUCED) -/
def Tensor.readSats (t : Tensor) (tab : VTable) (scale : Nat) (g : Tab Got) : Nat :=
  if isWide t.fmt then 0
  else (t.indices.filter fun ix => let e := t.read tab scale g ix; e.sat && !e.bad).length

/-- SAT events of an operand read, against its class (R65). -/
def State.satRead (s : State) (b : Bid) (id cls n : Nat) : State := s.tally b id cls { Ev.none with sat := n }

/-- Whether the unit's residue check caught an upset (R443). -/
def Running.residue (r : Running) : Bool := match r.upset with | some x => x.expected != x.found | none => false
/-- The destination and index vector of the output that a caught upset reached (R443). -/
def Running.hit (r : Running) : Option (Nat × List Nat) :=
  match r.upset with
  | some x => if r.residue then some (x.dest, unrank (tensorOf (r.e.ds.getD x.dest 0)).ext x.elem) else none
  | none => none
/-- Whether a caught upset reaches an element of destination i. -/
def Running.hits (r : Running) (i : Nat) (ix : List Nat) : Bool := r.hit == some (i, ix)
/-- Whether a caught upset reaches an output of the row an index vector lies in, of whatever destination (R180). -/
def Running.hitsRow (r : Running) (ix : List Nat) : Bool :=
  match r.hit with | some x => x.2.set 0 0 == ix.set 0 0 | none => false
/-- Whether a caught upset reaches an element, of whatever destination (R180, R448). -/
def Running.hitsElem (r : Running) (ix : List Nat) : Bool := match r.hit with | some x => x.2 == ix | none => false

/-- A residue mismatch in a unit: its record, of the Block level as a per-engine check (R22), and the error controller's vote
where the instruction belongs to the attempt (R443, R447). -/
def State.residueEvent (s : State) (b : Bid) (w : Who) (r : Running) : State :=
  match r.upset with
  | some x =>
    if r.residue then
      let live := match s.partOf b with | some p => (s.ctl p).live | none => false
      let v : Vote := if w.stepWork && live then .abort else .pass
      let s := s.emit ⟨1, b, w.ucls, w.index, none, 0x01, 0, s.partOf b, w.op, voteRec v, 0,
        pack [(0, 3, x.expected.toNat), (4, 3, x.found.toNat), (16, 16, x.elem)]⟩
      s.errVote b v
    else s
  | none => s

/-! ## Beginning and completing (R278, R572) -/

/-- An instruction as it begins: its words to read, the scales and tables it took. -/
structure Start where
  reads : List RdReq
  scales : List Word
  tables : List (List Word)
  deriving DecidableEq, Repr

/-- A value table as words, and back. -/
def tabWords (t : VTable) : List Word := t.map fun v => BitVec.ofNat 64 v
def wordsTab (t : List Word) : VTable := t.map fun v => v.toNat

/-- The instruction at the head of a queue is checked and begins on its unit; its entry is freed (R279, R573). One that faults
stays at the head, assigned to that unit (R572).
(assumption 18, DEDUCED) -/
def State.beginOn (s : State) (b : Bid) (q : Fin 8) (checks : State → Entry → Nat → List (Bool × FCode))
    (start : State → Entry → Nat → Start) : State :=
  if !s.pwr.mainOn || !s.queueRuns b q then s
  else
    match s.nextHead b q with
    | none => s
    | some (e, u) =>
      match firstFault (checks s e u) with
      | some c => (s.assign b q).faultHead (e.at_ b q u) c
      | none =>
        let x := start s e u
        ((s.assign b q).dequeue b q e.id).onBench b fun y =>
          { y with run := y.run ++ [⟨e, q, u, false, x.scales, x.tables, x.reads, [], false, [], [], none, false⟩] }

/-- What remains of an instruction in progress on a unit: its reads, then its writes as `compute` gives them; with all of them
performed, `after` counts and it completes, unless `after` ended it (R278). A request that must wait parks; a refused one faults
(R213, R252). (assumption 18, DEDUCED) -/
def State.finishOn (s : State) (b : Bid) (q : Fin 8) (u : Nat) (upset : Option UnitUpset)
    (compute : State → Running → List WrReq) (after : State → Running → State) : State :=
  match s.active b q u with
  | none => s
  | some r =>
    let r := { r with upset := if r.computed then r.upset else upset }
    let w := r.e.who s b q u
    match State.readAll w r.reads r.got s with
    | (.refused s', _) => s'.failRunning b r .addrUnmapped
    | (.wait s', _) => s'
    | (.ok g s', rest) =>
      if !rest.isEmpty then
        (s'.setRunning b { r with reads := rest, got := g, parked := true }).park (firstWord rest) r.parked
      else
        let r := { r with reads := [], got := g }
        let ws := if r.computed then r.writes else compute s' r
        match State.writeAll w ws s' with
        | (.refused s'', _) => s''.failRunning b r .addrUnmapped
        | (.wait s'', _) => s''
        | (.ok _ s'', rest) =>
          if !rest.isEmpty then
            (s''.setRunning b { r with computed := true, writes := rest, parked := true }).parkWrite rest r.parked
          else
            let s := after s'' r
            if ((s.bench b).running q u).isNone then s
            else ((s.residueEvent b w r).dropRunning b q u).completed b r.e.id

end Sys2Proof.Machine
end

