-- ==== Sys2Proof/Machine/Wedge.lean ====
section
/-!
DEFINITION. Wedges, value tables and the export session: dispatch, checks and conversion of WDG.CVT and WDG.ROT, the
loading of value tables, and EXPORT_CTL (spec 05 R109-R137).
-/

namespace Sys2Proof.Machine

/-! ## Dispatch (R111, R327) -/

def cvtRegs (f : CvtFields) : List (BitVec 4) := [f.da, f.db] ++ (if f.dual then [f.dc] else [])

/-- WDG.CVT dispatched (R109, R111). -/
def execWdgCvt (h : Issue) (f : CvtFields) (s : State) : Out :=
  issue h 2 (opcodeOf 4 1) (dispatch 4 (.cvt f) f.wsel.toNat (cvtRegs f) []) s

/-- WDG.ROT dispatched (R109, R120). -/
def execWdgRot (h : Issue) (f : RotFields) (s : State) : Out :=
  issue h 1 (opcodeOf 4 2) (dispatch 4 (.rot f) f.wsel.toNat [f.da, f.db] []) s

/-! ## What a Wedge instruction names -/

def Entry.desc (e : Entry) (i : Nat) : Desc := e.ds.getD i 0
def Entry.tensor (e : Entry) (i : Nat) : Tensor := tensorOf (e.desc i)
/-- The word of rotation slot n as captured (R111). -/
def Entry.rotWord (e : Entry) (n : Nat) : Word := e.rots.getD (n - 1) 0
/-- Whether an instruction is an export conversion (R125). -/
def Entry.isExport (e : Entry) : Bool := match e.op with | .cvt f => f.exp | _ => false

/-- A destination's rotation selector; WDG.ROT takes its own slot and ignores the selectors (R117, R120). -/
def wedgeRot (e : Entry) (i : Nat) : Nat :=
  match e.op with
  | .rot f => f.rslot.toNat
  | _ => (e.tensor i).rotsel

/-- Destinations of a Wedge instruction by descriptor index. -/
def wedgeDests (e : Entry) : List Nat := (List.range e.ds.length).drop 1

/-- Whether a tensor lies wholly within the page ranges of set 0 (R125, R259). -/
def State.inSetZero (s : State) (p : Part) (t : Tensor) : Bool :=
  let lo := pageOf t.base
  (List.range (pageOf (t.limit - 1) + 1 - lo)).all fun i => s.setNames p 0 (lo + i)

/-- The breaches of an export conversion that fault with DESC_INVALID (R125). -/
def State.exportBad (s : State) (p : Part) (e : Entry) : Bool :=
  let src := e.tensor 0
  let d := e.tensor 1
  src.fmt != F32 || !s.inBulk src.base || !(d.fmt == Q4F || d.fmt == Q4T) || !(d.bs == 1 || d.bs == 2)
    || (d.rotsel != 0 && !bit (e.rotWord d.rotsel) 7) || (e.exp && !s.inSetZero p src)

/-- The checks of a Wedge instruction (R112, R113, R117, R120, R125). -/
def State.wedgeChecks (b : Bid) (s : State) (e : Entry) (u : Nat) : List (Bool × FCode) :=
  let p := (s.partOf b).getD 0
  let src := e.tensor 0
  let ds := wedgeDests e
  let rots := (ds.filter fun i => wedgeRot e i != 0).map fun i => (e.tensor i, rotOf (e.rotWord (wedgeRot e i)))
  let all := (0 :: ds).map e.tensor
  let isRot := match e.op with | .rot _ => true | _ => false
  [ (5 ≤ e.sel || (match e.op with | .cvt f => f.dual && f.exp | .rot f => f.rslot == 0 | _ => false), .instrInvalid),
    (!s.present b ucWedge u, .unitAbsent),
    (!s.descOk p (e.desc 0) || ds.any (fun i => !s.descOk p (e.desc i) || !(e.tensor i).distinct)
        || rots.any (fun r => r.2.isNone) || (e.isExport && s.exportBad p e), .descInvalid),
    (all.any (fun t => t.fmt == I32) || (isRot && all.any fun t => t.fmt != F32), .formatUnsupported),
    (ds.any (fun i => (e.tensor i).ext != src.ext)
        || rots.any (fun r => match r.2 with
          | some x => r.1.n x.axis % x.n != 0 || (r.1.bs != 0 && r.1.baxis != x.axis)
          | none => false), .shapeInvalid),
    (ds.any (fun i => (e.tensor i).overlaps src || ds.any fun j => i < j && (e.tensor i).overlaps (e.tensor j)), .copyOverlap),
    (all.any (fun t => !s.tableOk b t), .valueTableInvalid),
    (!isRot && ((0 :: ds).any fun i =>
        !(e.isExport && i != 0) && !scaleOk (s.scaleOf p (e.tensor i))), .scaleInvalid),
    (e.isExport && !e.exp, .exportClosed) ]

/-- What a Wedge instruction takes as it begins: its source's words, the scales and the tables (R111); an export reads through
set 0's view and takes the scale 1.0 (R125, R126). -/
def State.wedgeStart (b : Bid) (s : State) (e : Entry) (_ : Nat) : Start :=
  let p := (s.partOf b).getD 0
  let ts := (List.range e.ds.length).map e.tensor
  { reads := (e.tensor 0).reads (if e.isExport then some 0 else none)
    scales := ts.zipIdx.map fun x => BitVec.ofNat 64 (if e.isExport && x.2 != 0 then 0x3F800000 else s.scaleOf p x.1)
    tables := ts.map fun t => tabWords (s.tableFor b t) }

/-- WDG_BEGIN: the WDG instruction at the head of its queue is assigned a Wedge, checked, and takes its scales and tables (R110,
R111, R112). -/
def execWdgBegin (b : Bid) (s : State) : Out := .next (s.beginOn b 4 (State.wedgeChecks b) (State.wedgeStart b))

/-! ## Conversion (R114, R120) -/

def Running.scale (r : Running) (i : Nat) : Nat := (r.scales.getD i 0).toNat
def Running.tab (r : Running) (i : Nat) : VTable := wordsTab (r.tables.getD i [])

/-- A source element of a Wedge instruction as binary32. -/
def wedgeSrc (r : Running) (ix : List Nat) : Elem := (r.e.tensor 0).read (r.tab 0) (r.scale 0) r.got ix

/-- Destination i narrowed, with its events; poison, and an upset caught in a rotation, reach the whole rotation group (R114,
R118, R123, R124, R443). -/
def wedgeDest (r : Running) (i : Nat) : Tab WordBits × Ev :=
  let e := r.e
  let t := e.tensor i
  let (inv, tid) := match e.op with
    | .rot f => (f.inv, 0)
    | .cvt f => (false, if i = 1 then f.tid0.toNat else f.tid1.toNat)
    | _ => (false, 0)
  t.narrow (t.enc (r.tab i) (r.scale i) (srKey e.seed e.step tid)) fun ix =>
    match (if wedgeRot e i = 0 then none else rotOf (e.rotWord (wedgeRot e i))) with
    | none => let a := wedgeSrc r ix; ⟨a.x, a.bad || r.hits i ix, false⟩
    | some x =>
      let g := rotGroup x ix
      let es := g.map (wedgeSrc r)
      let k := ix.getD x.axis 0
      let (y, sat) := rotOut x (rotKey e.seed e.step x) inv (k / x.n) (k % x.n) (es.map fun a => a.x)
      ⟨y, es.any (fun a => a.bad) || g.any (r.hits i), sat⟩

/-- The writes of a Wedge instruction (R114, R121). (assumption 49, DEDUCED) -/
def wedgeWrites (r : Running) : List WrReq :=
  (wedgeDests r.e).flatMap fun i => (r.e.tensor i).writes (wedgeDest r i).1

/-- Rows of a tensor that begin off a 16-byte word: its misaligned load groups in the natural orientation (R82, R129).
(assumption 29, DEDUCED) -/
def Tensor.misrows (t : Tensor) : Nat := (t.rows.filter fun ix => t.rowAddr ix % 16 != 0).length

/-- The events and counts of a finished Wedge instruction (R123, R125, R544). -/
def State.wedgeAfter (b : Bid) (s : State) (r : Running) : State :=
  let src := r.e.tensor 0
  let s := if r.e.isExport then s.countB b (60 + r.unit) 1
    else
      let s := s.satRead b r.e.id src.cls (src.readSats (r.tab 0) (r.scale 0) r.got)
      (wedgeDests r.e).foldl (fun s i => s.tally b r.e.id (r.e.tensor i).cls (wedgeDest r i).2) s
  let mis := ((0 :: wedgeDests r.e).map fun i => (r.e.tensor i).misrows).sum
  (s.countB b (56 + r.unit) src.count).countB b (64 + r.unit) mis

/-- WDG_COMPLETE: the Wedge's reads and writes are performed, exponent planes included, and its instruction completes (R114,
R121, R124, R129). (assumption 29, DEDUCED) -/
def execWdgComplete (b : Bid) (u : Fin 4) (upset : Option UnitUpset) (s : State) : Out :=
  .next (s.finishOn b 4 u upset (fun _ r => wedgeWrites r) (State.wedgeAfter b))

/-! ## Value tables (R127, R133-R136) -/

/-- Whether a table is valid. -/
def State.vtabValid (s : State) (b : Bid) (t : Nat) : Bool := s.rb (K.VTAB_INFO b t) F.VTAB_INFO_VALID

/-- VTAB_ENTRY_WRITE: ignored while the table is valid (R127, R136). -/
def execVtabEntryWrite (b : Bid) (t : BitVec 6) (i : BitVec 2) (v : Word) (s : State) : Out :=
  .next (if s.vtabValid b t.toNat then s else s.setReg (K.VTAB_ENTRY b t.toNat i.toNat) v)

/-- Every adjacent pair of values rises strictly. -/
def strictlyRising : List X → Bool
  | a :: b :: rest => a.lt b && strictlyRising (b :: rest)
  | _ => true

/-- The conditions of R38 on a table's declared entries. -/
def tableLegal (t : VTable) (width : Nat) : Bool :=
  let xs := (t.take width).map f16I.dec
  xs.all X.isFinite && strictlyRising xs && xs.any fun x => !x.isZero

/-- A store's fault, where no instruction is at hand to name: the Foreman's ST at its pc (R127, R186). -/
def State.storeFault (s : State) (b : Bid) : FaultAt := ⟨b, 0, 0, ⟨opcodeOf 0 0x19, (s.fm b).pc, s.markOf b⟩⟩

/-- VTAB_CMD.VALIDATE: a table not yet valid becomes valid with its width, or the store faults (R127, R133). -/
def State.vtabValidate (s : State) (at_ : FaultAt) (t w : Nat) : State :=
  let b := at_.b
  if s.vtabValid b t then s
  else if w = 3 || !tableLegal (s.table b t) (tableWidth w) then s.fault at_ .valueTableInvalid
  else (s.setRf (K.VTAB_INFO b t) F.VTAB_INFO_VALID 1).setRf (K.VTAB_INFO b t) F.VTAB_INFO_WIDTH w

/-- VTAB_CMD.INVALIDATE clears the valid bit (R127); WIDTH, which R136 gives for a valid table, then reads zero (assumption 83,
DESIGN CHOICE). -/
def State.vtabInvalidate (s : State) (b : Bid) (t : Nat) : State := s.setReg (K.VTAB_INFO b t) 0

/-- A store to VTAB_CMD: INVALIDATE takes precedence (R127, R133). -/
def State.writeVtabCmd (s : State) (at_ : FaultAt) (v : Word) : State :=
  let t := fld v 0 6
  if bit v 17 then s.vtabInvalidate at_.b t
  else if bit v 16 then s.vtabValidate at_ t (fld v 8 2) else s

/-- VALIDATE (R127). -/
def execValidate (b : Bid) (t : BitVec 6) (w : BitVec 2) (s : State) : Out :=
  .next (s.vtabValidate (s.storeFault b) t.toNat w.toNat)

/-- INVALIDATE (R127). -/
def execInvalidate (b : Bid) (t : BitVec 6) (s : State) : Out := .next (s.vtabInvalidate b t.toNat)

/-! ## Export sessions (R126, R137) -/

def State.expActive (s : State) (p : Part) : Bool := s.rb (K.EXPORT_CTL p) F.EXPORT_CTL_ACTIVE
def State.expPending (s : State) (p : Part) : Bool := s.rb (K.EXPORT_CTL p) F.EXPORT_CTL_PENDING

/-- OPEN set: a session becomes pending where none is active or pending (R126). -/
def State.exportOpen (s : State) (p : Part) : State :=
  if s.expActive p || s.expPending p then s
  else (s.setRf (K.EXPORT_CTL p) F.EXPORT_CTL_OPEN 1).setRf (K.EXPORT_CTL p) F.EXPORT_CTL_PENDING 1

/-- EXPORT_OPEN (R126). -/
def execExportOpen (p : Part) (s : State) : Out := .next (s.exportOpen p)

/-- The export conversions of a partition dispatched under its session that have not completed.
(assumption 25, DEDUCED) -/
def State.exporting (s : State) (p : Part) : List (Nat × Nat) :=
  (s.benchesOf p).flatMap fun b =>
    (((s.bench b).entries 4).filter fun e => e.isExport && e.exp).map fun e => (b.val, e.id)

/-- CLOSE set: the session closes once the export conversions dispatched before have completed (R126). One dispatched later, while
ACTIVE still reads 1, does not hold the close, and reads the live pages if it runs after it. (assumption 25, DEDUCED) -/
def State.exportClose (s : State) (p : Part) : State :=
  if (s.expActive p || s.expPending p) && !s.rb (K.EXPORT_CTL p) F.EXPORT_CTL_CLOSE then
    (s.setRf (K.EXPORT_CTL p) F.EXPORT_CTL_CLOSE 1).onBulk fun k => { k with closing := k.closing.set p (s.exporting p) }
  else s

/-- EXPORT_CLOSE (R126). -/
def execExportClose (p : Part) (s : State) : Out := .next (s.exportClose p)

/-- A write of EXPORT_CTL: CLOSE takes precedence over OPEN (R126, R137). -/
def State.writeExportCtl (s : State) (p : Part) (v : Word) : State :=
  if bit v 1 then s.exportClose p else if bit v 0 then s.exportOpen p else s

/-- Whether an instruction is SCR.OPT. -/
def Entry.isOpt (e : Entry) : Bool := match e.op with | .scr (.opt _) _ _ => true | _ => false

/-- Whether a Bench may still issue an SCR.OPT of a step: its PHASE is COMMITTED of that step and its program has not ended
(R295, R448, R483). -/
def State.maySweep (s : State) (b : Bid) (step : Nat) : Bool :=
  s.rf (K.STEP_STATE b) F.STEP_STATE_PHASE == 3 && s.rf (K.STEP_STATE b) F.STEP_STATE_STEP == step
    && (s.fm b).st != .stopped

/-- Whether an optimiser sweep of a partition is in progress (R30, R126): an SCR.OPT was dispatched and has not completed, or a
Bench may still issue one for the step whose sweep has begun. (assumption 25, DEDUCED) -/
def State.sweeping (s : State) (p : Part) : Bool :=
  (s.benchesOf p).any fun b =>
    ((s.bench b).entries 5).any Entry.isOpt
      || (match (s.ctl p).swept with | some k => s.maySweep b k | none => false)

/-- EXPORT_SESSION_ACTIVATE: a pending session becomes active when no sweep is in progress: it arms set 0 and records the step
whose masters it captures (R30, R126): the last step whose sweep has completed, not one whose sweep a fault, a CLEAR or a reset
has cut short. (assumption 25, DEDUCED) -/
def execExportSessionActivate (p : Part) (s : State) : Out :=
  if s.expPending p && !s.rb (K.EXPORT_CTL p) F.EXPORT_CTL_CLOSE && !s.sweeping p then
    let s := (s.setRf (K.EXPORT_CTL p) F.EXPORT_CTL_PENDING 0).setRf (K.EXPORT_CTL p) F.EXPORT_CTL_ACTIVE 1
    let s := s.setRf (K.EXPORT_CTL p) F.EXPORT_CTL_STEP ((s.ctl p).sweptDone.getD 0)
    .next ((s.setReg (K.COW_CTL p 0) 0).setRb (K.COW_CTL p 0) F.COW_CTL_ARM true)
  else .next s

/-- EXPORT_SESSION_CLOSED: the close takes effect once the earlier export conversions have completed, and the captured pages
are released (R126, R263). (assumption 25, DEDUCED) -/
def execExportSessionClosed (p : Part) (s : State) : Out :=
  if s.rb (K.EXPORT_CTL p) F.EXPORT_CTL_CLOSE
      && s.bulk.closing[p].all (fun x => !(s.exporting p).contains x) then
    let s := (((s.setRf (K.EXPORT_CTL p) F.EXPORT_CTL_OPEN 0).setRf (K.EXPORT_CTL p) F.EXPORT_CTL_CLOSE 0).setRf
      (K.EXPORT_CTL p) F.EXPORT_CTL_PENDING 0).setRf (K.EXPORT_CTL p) F.EXPORT_CTL_ACTIVE 0
    let s := s.onBulk fun k => { k with closing := k.closing.set p [] }
    .next ((s.setReg (K.COW_CTL p 0) 0).onCow p 0 fun c => { c with copies := [] })
  else .next s

end Sys2Proof.Machine
end

