-- ==== Sys2Proof/Machine/Screen.lean ====
section
/-!
DEFINITION. Screens: the dispatch, checks and arithmetic of SCR.MAP, SCR.CURVE, SCR.DCURVE, SCR.SMAX, SCR.TOPK and
SCR.OPT, the curve slots, and the optimiser's partials (spec 07 R174-R201; 11 R328, R329; 16 R443, R448).
-/

namespace Sys2Proof.Machine

/-! ## Dispatch (R175, R328, R329) -/

/-- SCR.MAP of one operation (R181). -/
def dispatchMap (o : MapOp) (ssel : BitVec 2) (ds : List (BitVec 4)) (rs : List (BitVec 5)) (tid : BitVec 32) :
    Fm → State → Disp := dispatch 5 (.scr (.map o) tid 0) ssel.toNat ds rs

def opMap : BitVec 10 := opcodeOf 5 1

/-- SCR.MAP with a reserved OP dispatched: it faults with INSTR_INVALID at the head of its queue (R181, R313).
(assumption 41, DEDUCED) -/
def execScrMapReserved (h : Issue) (ssel : BitVec 2) (da dd : BitVec 4) (tid : BitVec 32) (s : State) : Out :=
  issue h 2 opMap (dispatchMap .reserved ssel [da, dd] [] tid) s

/-- SCR.MAP COPY dispatched (R175, R181). -/
def execScrMapCopy (h : Issue) (ssel : BitVec 2) (da dd : BitVec 4) (tid : BitVec 32) (s : State) : Out :=
  issue h 2 opMap (dispatchMap .copy ssel [da, dd] [] tid) s

/-- SCR.MAP ADD dispatched (R175, R181). -/
def execScrMapAdd (h : Issue) (ssel : BitVec 2) (da db dd : BitVec 4) (tid : BitVec 32) (s : State) : Out :=
  issue h 2 opMap (dispatchMap .add ssel [da, db, dd] [] tid) s

/-- SCR.MAP SUB dispatched (R175, R181). -/
def execScrMapSub (h : Issue) (ssel : BitVec 2) (da db dd : BitVec 4) (tid : BitVec 32) (s : State) : Out :=
  issue h 2 opMap (dispatchMap .sub ssel [da, db, dd] [] tid) s

/-- SCR.MAP MUL dispatched (R175, R181). -/
def execScrMapMul (h : Issue) (ssel : BitVec 2) (da db dd : BitVec 4) (tid : BitVec 32) (s : State) : Out :=
  issue h 2 opMap (dispatchMap .mul ssel [da, db, dd] [] tid) s

/-- SCR.MAP FMA dispatched (R175, R181). -/
def execScrMapFma (h : Issue) (ssel : BitVec 2) (da db dc dd : BitVec 4) (tid : BitVec 32) (s : State) : Out :=
  issue h 2 opMap (dispatchMap .fma ssel [da, db, dc, dd] [] tid) s

/-- SCR.MAP MAX dispatched (R175, R181). -/
def execScrMapMax (h : Issue) (ssel : BitVec 2) (da db dd : BitVec 4) (tid : BitVec 32) (s : State) : Out :=
  issue h 2 opMap (dispatchMap .max ssel [da, db, dd] [] tid) s

/-- SCR.MAP MIN dispatched (R175, R181). -/
def execScrMapMin (h : Issue) (ssel : BitVec 2) (da db dd : BitVec 4) (tid : BitVec 32) (s : State) : Out :=
  issue h 2 opMap (dispatchMap .min ssel [da, db, dd] [] tid) s

/-- SCR.MAP ABS dispatched (R175, R181). -/
def execScrMapAbs (h : Issue) (ssel : BitVec 2) (da dd : BitVec 4) (tid : BitVec 32) (s : State) : Out :=
  issue h 2 opMap (dispatchMap .abs ssel [da, dd] [] tid) s

/-- SCR.MAP NEG dispatched (R175, R181). -/
def execScrMapNeg (h : Issue) (ssel : BitVec 2) (da dd : BitVec 4) (tid : BitVec 32) (s : State) : Out :=
  issue h 2 opMap (dispatchMap .neg ssel [da, dd] [] tid) s

/-- SCR.MAP SCALE dispatched, with f from a scalar register (R181, R328). -/
def execScrMapScale (h : Issue) (ssel : BitVec 2) (da dd : BitVec 4) (ra : BitVec 5) (tid : BitVec 32) (s : State) : Out :=
  issue h 2 opMap (dispatchMap .scale ssel [da, dd] [ra] tid) s

/-- SCR.MAP SQRT dispatched (R175, R181). -/
def execScrMapSqrt (h : Issue) (ssel : BitVec 2) (da dd : BitVec 4) (tid : BitVec 32) (s : State) : Out :=
  issue h 2 opMap (dispatchMap .sqrt ssel [da, dd] [] tid) s

/-- SCR.MAP RECIP dispatched (R175, R181). -/
def execScrMapRecip (h : Issue) (ssel : BitVec 2) (da dd : BitVec 4) (tid : BitVec 32) (s : State) : Out :=
  issue h 2 opMap (dispatchMap .recip ssel [da, dd] [] tid) s

/-- SCR.MAP RSQRT dispatched (R175, R181). -/
def execScrMapRsqrt (h : Issue) (ssel : BitVec 2) (da dd : BitVec 4) (tid : BitVec 32) (s : State) : Out :=
  issue h 2 opMap (dispatchMap .rsqrt ssel [da, dd] [] tid) s

/-- SCR.MAP RSUM dispatched (R175, R183). -/
def execScrMapRsum (h : Issue) (ssel : BitVec 2) (da dd : BitVec 4) (tid : BitVec 32) (s : State) : Out :=
  issue h 2 opMap (dispatchMap .rsum ssel [da, dd] [] tid) s

/-- SCR.MAP RSSQ dispatched (R175, R183). -/
def execScrMapRssq (h : Issue) (ssel : BitVec 2) (da dd : BitVec 4) (tid : BitVec 32) (s : State) : Out :=
  issue h 2 opMap (dispatchMap .rssq ssel [da, dd] [] tid) s

/-- SCR.MAP RMAX dispatched (R175, R183). -/
def execScrMapRmax (h : Issue) (ssel : BitVec 2) (da dd : BitVec 4) (tid : BitVec 32) (s : State) : Out :=
  issue h 2 opMap (dispatchMap .rmax ssel [da, dd] [] tid) s

/-- SCR.MAP RAMAX dispatched (R175, R183). -/
def execScrMapRamax (h : Issue) (ssel : BitVec 2) (da dd : BitVec 4) (tid : BitVec 32) (s : State) : Out :=
  issue h 2 opMap (dispatchMap .ramax ssel [da, dd] [] tid) s

/-- SCR.CURVE dispatched (R187, R328). -/
def execScrCurve (h : Issue) (ssel : BitVec 2) (da : BitVec 4) (db : Option (BitVec 4)) (dd : BitVec 4) (slot : BitVec 5)
    (tid : BitVec 32) (s : State) : Out :=
  issue h 2 (opcodeOf 5 2) (dispatch 5 (.scr (.curve slot db.isSome) tid 0) ssel.toNat ([da] ++ db.toList ++ [dd]) []) s

/-- SCR.DCURVE dispatched; with GATED it also names t[DD + 1], and DD 15 is invalid (R188, R328, R329). -/
def execScrDcurve (h : Issue) (ssel : BitVec 2) (da db : BitVec 4) (gate : Option (BitVec 4 × BitVec 32)) (dd : BitVec 4)
    (slot : BitVec 5) (tid : BitVec 32) (s : State) : Out :=
  issue h 2 (opcodeOf 5 3)
    (valid (gate.isNone || dd != 15) fun c s =>
      match gate with
      | none => dispatch 5 (.scr (.dcurve slot false) tid 0) ssel.toNat [da, db, dd] [] c s
      | some (dc, tid1) => dispatch 5 (.scr (.dcurve slot true) tid tid1) ssel.toNat [da, db, dc, dd, dd + 1] [] c s) s

/-- SCR.SMAX dispatched (R189, R328). -/
def execScrSmax (h : Issue) (ssel : BitVec 2) (da db dc dd : BitVec 4) (ra : BitVec 5) (mask : Option (BitVec 5 × BitVec 5))
    (eslot : BitVec 5) (tid : BitVec 32) (s : State) : Out :=
  issue h 2 (opcodeOf 5 4)
    (dispatch 5 (.scr (.smax eslot mask.isSome) tid 0) ssel.toNat [da, db, dc, dd]
      ([ra] ++ (match mask with | some (q, k) => [q, k] | none => []))) s

/-- SCR.TOPK dispatched (R190, R328). -/
def execScrTopk (h : Issue) (ssel : BitVec 2) (da db dc : BitVec 4) (comp : Option (BitVec 4)) (ra rb : BitVec 5) (key : Bool)
    (tid : BitVec 32) (s : State) : Out :=
  issue h 2 (opcodeOf 5 5)
    (dispatch 5 (.scr (.topk key comp.isSome) tid 0) ssel.toNat ([da, db, dc] ++ comp.toList) [ra, rb]) s

/-- Whether a STEP.VOTE of the Bench has not retired (R294). -/
def State.voteOut (s : State) (b : Bid) : Bool := (s.fm b).voteReq.isSome
/-- Whether SCR.OPT may be dispatched: PHASE is COMMITTED (R295). -/
def State.optAllowed (s : State) (b : Bid) : Bool := s.rf (K.STEP_STATE b) F.STEP_STATE_PHASE == 3

/-- The sweep of step k with a Bench's SCR.OPT instructions `ids`: what a fault, a CLEAR or a reset took of it on that Bench is
issued again with them, and a first one of k ends what is known of the sweep before (R126, R193, R483).
(assumption 25, DEDUCED) -/
def StepCtl.sweep (c : StepCtl) (k : Nat) (b : Bid) (ids : List Nat) : StepCtl :=
  let c := if c.swept = some k then c else { c with swept := some k, sweptBefore := c.sweptDone, sweepLeft := [] }
  { c with sweepLeft := (c.sweepLeft.filter fun x => x.1 != b.val) ++ ids.map fun i => (b.val, i) }

/-- An SCR.OPT of the sweep has completed (R126). -/
def StepCtl.sweepEnd (c : StepCtl) (b : Bid) (id : Nat) : StepCtl :=
  { c with sweepLeft := c.sweepLeft.filter fun x => x != (b.val, id) }

/-- The SCR.OPT instructions of a Bench that have not completed. -/
def State.optIds (s : State) (b : Bid) : List Nat := (((s.bench b).entries 5).filter Entry.isOpt).map fun e => e.id

/-- SCR.OPT dispatched: DA above 9 is invalid, an outstanding STEP.VOTE stalls it, and a step that has not committed faults
(R191, R294, R295, R329); the sweep of the Bench's step has begun (R126). -/
def execScrOpt (h : Issue) (ssel : BitVec 2) (da : BitVec 4) (ra : BitVec 5) (norm : Bool) (tid0 tid1 : BitVec 32) (s : State) :
    Out :=
  issue h 2 (opcodeOf 5 6)
    (valid (decide (da.toNat ≤ 9)) fun c s =>
      if s.voteOut c.b then .stall
      else if !s.optAllowed c.b then .fault .optUncommitted
      else
        match dispatch 5 (.scr (.opt norm) tid0 tid1) ssel.toNat ((List.range 7).map fun i => da + BitVec.ofNat 4 i) [ra] c s with
        | .done s => .done (s.onCtl c.part fun k => k.sweep (s.rf (K.STEP_STATE c.b) F.STEP_STATE_STEP) c.b (s.optIds c.b))
        | d => d) s

/-! ## Operands -/

/-- Sources of an element operation (R181). -/
def MapArity : MapOp → Nat
  | .add | .sub | .mul | .max | .min => 2
  | .fma => 3
  | _ => 1

def isRowOp : MapOp → Bool
  | .rsum | .rssq | .rmax | .ramax => true
  | _ => false

/-- Descriptors read, by place (R181, R187-R191). -/
def scrSrc : ScrOp → List Nat
  | .map o => List.range (MapArity o)
  | .curve _ mulb => if mulb then [0, 1] else [0]
  | .dcurve _ gated => if gated then [0, 1, 2] else [0, 1]
  | .smax .. => [0, 1]
  | .topk .. => [0]
  | .opt _ => [0, 2, 3, 5]

/-- Descriptors written, by place. -/
def scrDst : ScrOp → List Nat
  | .map o => [MapArity o]
  | .curve _ mulb => [if mulb then 2 else 1]
  | .dcurve _ gated => if gated then [3, 4] else [2]
  | .smax .. => [2, 1, 3]
  | .topk _ comp => if comp then [1, 2, 3] else [1, 2]
  | .opt _ => [1, 4, 6]

/-- Whether destination i may coincide with source j (R179). -/
def mayCoincide (o : ScrOp) (i j : Nat) : Bool :=
  match o with
  | .map m => !isRowOp m
  | .curve .. => true
  | .dcurve .. => true
  | .smax .. => i == 1 && j == 1
  | _ => false

/-- Two descriptors that name the same storage in the same way (R179).
(assumption 50, DEDUCED) -/
def Tensor.same (a b : Tensor) : Bool :=
  a.base == b.base && a.fmt == b.fmt && a.ext == b.ext && a.stride == b.stride && a.bs == b.bs && a.baxis == b.baxis

/-- The operation of a Screen's entry. -/
def Entry.scr (e : Entry) : ScrOp := match e.op with | .scr o _ _ => o | _ => .map .copy
/-- The tensor identifier of destination i (R328). -/
def scrTid (e : Entry) (i : Nat) : Nat :=
  match e.op with
  | .scr (.opt _) t0 t1 => if i = 4 then t0.toNat else if i = 6 then t1.toNat else 0
  | .scr (.dcurve ..) t0 t1 => if i = 4 then t1.toNat else t0.toNat
  | .scr (.smax ..) t0 _ => if i = 2 then t0.toNat else 0
  | .scr (.topk ..) t0 _ => if i = 1 then t0.toNat else 0
  | .scr _ t0 _ => t0.toNat
  | _ => 0

/-! ## Curve slots (R184-R186) -/

def State.crvValid (s : State) (b : Bid) (t : Nat) : Bool := bit (s.reg (K.CRV_VALID b)) t
/-- The curve slots an operation captures: its own, and the derivative slot of SCR.DCURVE (R186). -/
def State.scrCurves (s : State) (b : Bid) (o : ScrOp) : List Nat :=
  match o with
  | .curve t _ => [t.toNat]
  | .dcurve t _ => [t.toNat, s.rf (K.CRV_HDR0 b t.toNat) F.CRV_HDR0_DERIV]
  | .smax t _ => [t.toNat]
  | _ => []
/-- Whether every slot an operation captures is valid (R186). -/
def State.curvesOk (s : State) (b : Bid) (o : ScrOp) : Bool :=
  (s.scrCurves b o).all (s.crvValid b)
    && (match o with | .dcurve t _ => s.rb (K.CRV_HDR0 b t.toNat) F.CRV_HDR0_DERIV_EN | _ => true)

/-- Segments that a header declares. -/
def hdrSegs (h0 : Word) : Nat := 2 ^ fld h0 40 4
/-- A slot's three header words and the two words of each declared segment. -/
def State.curveWords (s : State) (b : Bid) (t : Nat) : List Word :=
  let h0 := s.reg (K.CRV_HDR0 b t)
  [h0, s.reg (K.CRV_HDR1 b t), s.reg (K.CRV_HDR2 b t)]
    ++ (List.range (2 * hdrSegs h0)).map fun i => s.reg (K.CRV_SEG b t i)

def lo32 (w : Word) : X := dec32 (fld w 0 32)
def hi32 (w : Word) : X := dec32 (fld w 32 32)

/-- A Screen's result rounded to binary32, every NaN the positive quiet one (R177). -/
def sc (x : X) : X := if x.isNan then .nan false else x.f32

/-- The floor of a non-negative exact value. -/
def X.floor : X → Nat
  | .fin _ m e => if 0 ≤ e then m * 2 ^ e.toNat else m / 2 ^ (-e).toNat
  | _ => 0

/-- curve(x) of a captured slot (R185). -/
def curveAt (c : List Word) (x : X) : X :=
  let h0 := c.getD 0 0
  let lo := lo32 h0
  let wexp := sext 8 (fld h0 32 8)
  let n := hdrSegs h0
  let hi := lo.add (X.fin false n wexp)
  let line (a b : X) : X := if a.isZero then b else sc ((sc (a.mul x)).add b)
  if x.isNan then .nan false
  else if x.lt lo then line (lo32 (c.getD 1 0)) (hi32 (c.getD 1 0))
  else if hi.le x then line (lo32 (c.getD 2 0)) (hi32 (c.getD 2 0))
  else
    let t := sc ((sc (x.sub lo)).scale (-wexp))
    let seg := min t.floor (n - 1)
    let u := t.sub (X.fin false seg 0)
    let w0 := c.getD (3 + 2 * seg) 0
    let w1 := c.getD (4 + 2 * seg) 0
    let y := sc ((lo32 w1).add (sc ((hi32 w1).mul u)))
    let y := sc ((hi32 w0).add (sc (y.mul u)))
    sc ((lo32 w0).add (sc (y.mul u)))

/-- The conditions on a slot's header and declared segments (R186). -/
def curveLegal (c : List Word) : Bool :=
  let h0 := c.getD 0 0
  let lo := lo32 h0
  let wexp := sext 8 (fld h0 32 8)
  let nl := fld h0 40 4
  let fin (w : Word) : Bool := (lo32 w).isFinite && (hi32 w).isFinite
  lo.isFinite && (c.drop 1).all fin && -30 ≤ wexp && wexp ≤ 30 && 4 ≤ nl && nl ≤ 10
    && (lo.add (X.fin false (2 ^ nl) wexp)).le (dec32 0x7F7FFFFF)

/-- CRV_CMD.VALIDATE: a slot not yet valid becomes valid, or the store faults (R186). -/
def State.crvValidate (s : State) (at_ : FaultAt) (t : Nat) : State :=
  let b := at_.b
  if s.crvValid b t then s
  else if curveLegal (s.curveWords b t) then s.setReg (K.CRV_VALID b) (setFld (s.reg (K.CRV_VALID b)) t 1 1)
  else s.fault at_ .curveInvalid

/-- CRV_CMD.INVALIDATE clears the valid bit (R186). -/
def State.crvInvalidate (s : State) (b : Bid) (t : Nat) : State :=
  s.setReg (K.CRV_VALID b) (setFld (s.reg (K.CRV_VALID b)) t 1 0)

/-- A store to CRV_CMD: INVALIDATE takes precedence (R186, R198). -/
def State.writeCrvCmd (s : State) (at_ : FaultAt) (v : Word) : State :=
  let t := fld v 0 5
  if bit v 17 then s.crvInvalidate at_.b t else if bit v 16 then s.crvValidate at_ t else s

/-- CRV_VALIDATE (R186, R198). -/
def execCrvValidate (b : Bid) (slot : BitVec 5) (s : State) : Out := .next (s.crvValidate (s.storeFault b) slot.toNat)

/-- CRV_INVALIDATE (R186, R198). -/
def execCrvInvalidate (b : Bid) (slot : BitVec 5) (s : State) : Out := .next (s.crvInvalidate b slot.toNat)

/-- The slot that a Bench offset of the header or segment areas belongs to (R200). -/
def crvSlotOf (off : Nat) : Option Nat :=
  if 0x71000 ≤ off ∧ off < 0x71400 then some ((off - 0x71000) / 0x20)
  else if 0x800000 ≤ off ∧ off < 0x880000 then some ((off - 0x800000) / 0x4000)
  else none

/-- A write to a slot's header or segments, ignored while the slot is valid (R186, R200). -/
def State.writeCrvSlot (s : State) (b : Bid) (off : Nat) (v : Word) : State :=
  match crvSlotOf off with
  | some t => if s.crvValid b t then s else s.writeReg (b.val * 0x1000000 + off) false v
  | none => s

/-- CRV_SLOT_WRITE (R186, R200). -/
def execCrvSlotWrite (b : Bid) (off : Nat) (v : Word) (s : State) : Out := .next (s.writeCrvSlot b off v)

/-! ## Checks (R176, R573) -/

/-- Formats a Dresser accepts, as the gradient of SCR.OPT may have (R93, R191). -/
def dresserFmt (f : Nat) : Bool := f ≤ F8R || f == B10 || isWide f

/-- The formats SCR.OPT requires (R191). -/
def optFmtsOk (ts : Nat → Tensor) : Bool :=
  (ts 0).fmt == F32 && (ts 1).fmt == F32 && dresserFmt (ts 2).fmt && (ts 3).fmt == M8L && (ts 4).fmt == M8L
    && (ts 5).fmt == M8Q && (ts 6).fmt == M8Q

/-- Format breaches other than SCR.OPT's (R177, R189, R190). -/
def scrFmtBad (o : ScrOp) (ts : Nat → Tensor) : Bool :=
  match o with
  | .smax .. => (ts 0).fmt != F32 || (ts 1).fmt != F32 || (ts 3).fmt != F32 || (ts 2).fmt == I32
  | .topk _ comp => (ts 0).fmt != F32 || (ts 1).fmt == I32 || (ts 2).fmt != I32 || (comp && (ts 3).fmt != F32)
  | .opt _ => false
  | o => (scrSrc o ++ scrDst o).any fun i => (ts i).fmt == I32

/-- Extents with the innermost replaced. -/
def Tensor.ext0 (t : Tensor) (n : Nat) : List Nat := t.ext.set 0 n

/-- Shape breaches (R182, R187-R191); SCR.TOPK checks k against the padded extent (R220), SCR.SMAX its limit of keys against
the valid extent, of which R189 does not say which it means. (assumption 50, DEDUCED; assumption 85, DESIGN CHOICE) -/
def scrShapeBad (e : Entry) (o : ScrOp) (ts : Nat → Tensor) : Bool :=
  match o with
  | .map m =>
    let d := ts (MapArity m)
    if isRowOp m then d.ext != (ts 0).ext0 1
    else (scrSrc o).any fun i => (List.range 5).any fun k => !((ts i).n k == d.n k || (ts i).n k == 1)
  | .smax .. =>
    let a := ts 0
    4096 < a.n 0 || (ts 2).ext != a.ext || (ts 1).ext != a.ext0 2 || (ts 3).ext != a.ext0 1
  | .topk _ comp =>
    let a := ts 0
    let k := (e.rs.getD 0 0).toNat
    k = 0 || 4096 < k || a.padded 0 < k || 16777216 < a.padded 0 || (ts 1).ext != a.ext0 k || (ts 2).ext != a.ext0 k
      || (comp && (ts 3).ext != a.ext)
  | o =>
    let x := (ts ((scrDst o).headD 0)).ext
    (scrSrc o ++ scrDst o).any fun i => (ts i).ext != x

/-- The checks of a Screen instruction (R176, R179, R191, R193). (assumption 50, DEDUCED) -/
def State.screenChecks (b : Bid) (s : State) (e : Entry) (u : Nat) : List (Bool × FCode) :=
  let p := (s.partOf b).getD 0
  let o := e.scr
  let src := scrSrc o
  let dst := scrDst o
  let all := (src ++ dst).eraseDups
  let isOpt := match o with | .opt _ => true | _ => false
  let pa := (e.rs.getD 0 0).toNat
  let clash (i j : Nat) : Bool := (e.tensor i).overlaps (e.tensor j)
  [ (e.sel == 3 || o == .map .reserved, .instrInvalid),
    (!s.present b ucScreen u, .unitAbsent),
    (all.any (fun i => !s.descOk p (e.desc i)) || dst.any (fun i => !(e.tensor i).distinct)
        || (isOpt && !optFmtsOk e.tensor), .descInvalid),
    (scrFmtBad o e.tensor, .formatUnsupported),
    (scrShapeBad e o e.tensor, .shapeInvalid),
    (dst.any (fun i => (src.any fun j => clash i j && !(mayCoincide o i j && (e.tensor i).same (e.tensor j)))
        || dst.any fun j => i < j && clash i j), .copyOverlap),
    (isOpt && pa % 64 != 0, .addrAlign),
    (isOpt && !(inSram pa && s.owns p (benchOf pa)), .addrUnmapped),
    (all.any (fun i => !s.tableOk b (e.tensor i)), .valueTableInvalid),
    (!s.curvesOk b o, .curveInvalid),
    (all.any (fun i => !scaleOk (s.scaleOf p (e.tensor i))), .scaleInvalid) ]

/-! ## Beginning (R175) -/

/-- A parameter block's values as a captured list: ten binary32 codes, then whether any word was poisoned (R191). -/
def paramWords (g : Tab Got) (a : Nat) : List Word :=
  ((List.range 10).map fun i => BitVec.ofNat 64 (gotBits g (8 * a + 32 * i) 32))
    ++ [if g.any fun x => x.2.poison then 1 else 0]

/-- SCR_STAT.KIND of an operation (R197). -/
def scrKind : ScrOp → Nat
  | .map _ => 0 | .curve .. => 1 | .dcurve .. => 2 | .smax .. => 3 | .topk .. => 4 | .opt _ => 5

/-- SCR_BEGIN: the SCR instruction at the head of its queue is assigned a Screen, checked, and captures its scales, tables,
curve slots and parameter block; a non-finite parameter faults and writes nothing (R174-R176, R191). -/
def execScrBegin (b : Bid) (s : State) : Out :=
  let go (params : List (List Word)) (s : State) : State :=
    s.beginOn b 5 (State.screenChecks b) fun s e _ =>
      let o := e.scr
      let p := (s.partOf b).getD 0
      let ts := (List.range e.ds.length).map e.tensor
      { reads := (scrSrc o).flatMap fun i => (e.tensor i).reads none
        scales := ts.map fun t => BitVec.ofNat 64 (s.scaleOf p t)
        tables := ts.map (fun t => tabWords (s.tableFor b t)) ++ (s.scrCurves b o).map (s.curveWords b) ++ params }
  let began (s : State) (e : Entry) (u : Nat) : Bool :=
    s.pwr.mainOn && s.queueRuns b 5 && (firstFault (s.screenChecks b e u)).isNone
  let kind (ok : Bool) (e : Entry) (u : Nat) (s : State) : State :=
    if ok then s.setRf (K.SCR_STAT b u) F.SCR_STAT_KIND (scrKind e.scr) else s
  match s.nextHead b 5 with
  | some (e, u) =>
    if !e.isOpt || !began s e u then .next (kind (began s e u) e u (go [] s))
    else
      let a := (e.rs.getD 0 0).toNat
      let w := e.who s b 5 u
      match State.readAll w ((wordsOf a 64).map fun n => ⟨n, 2, none, 1⟩) [] s with
      | (.ok g s', _) =>
        let ps := paramWords g a
        if ps.getD 10 0 = 0 && (ps.take 10).any fun v => !(dec32 v.toNat).isFinite then
          .next ((s'.assign b 5).faultHead (e.at_ b 5 u) .descInvalid)
        else .next (kind (began s' e u) e u (go [ps] s'))
      | (.refused s', _) => .next ((s'.assign b 5).faultHead (e.at_ b 5 u) .addrUnmapped)
      | (.wait s', _) => .next s'
  | none => .next s

/-! ## Arithmetic (R177, R181-R183) -/

/-- MAX: NaN if either is; else the larger, +0 above -0 (R181). -/
def scMax (a b : X) : X :=
  if a.isNan || b.isNan then .nan false else if a.lt b then b else if b.lt a then a else if a.neg then b else a
/-- MIN: NaN if either is; else the smaller, -0 below +0 (R181). -/
def scMin (a b : X) : X :=
  if a.isNan || b.isNan then .nan false else if a.lt b then a else if b.lt a then b else if a.neg then a else b

/-- 1 / sqrt(x), with enough bits below for one correct rounding (R181). -/
def X.rsqrt : X → X
  | .nan n => .nan n
  | .inf n => if n then .nan false else X.zero
  | .fin n m e =>
    if m = 0 then .inf n
    else if n then .nan false
    else
      let k0 : Nat := 140 + 2 * bitLen m
      let k : Nat := if (e + (k0 : Int)) % 2 = 0 then k0 else k0 + 1
      let q := 2 ^ k / m
      let r := isqrt (bitLen q / 2 + 1) q 0
      .fin false (2 * r + (if r * r * m = 2 ^ k then 0 else 1)) (-((e + (k : Int)) / 2) - 1)

/-- One element of an element operation (R181). -/
def mapElem (o : MapOp) (f a b c : X) : X :=
  match o with
  | .add => sc (a.add b)
  | .sub => sc (a.sub b)
  | .mul => sc (a.mul b)
  | .fma => sc ((a.mul b).add c)
  | .max => sc (scMax a b)
  | .min => sc (scMin a b)
  | .abs => sc a.abs
  | .neg => sc a.opp
  | .scale => sc (a.mul f)
  | .sqrt => sc a.sqrt
  | .recip => sc ((X.fin false 1 0).div a)
  | .rsqrt => sc a.rsqrt
  | _ => sc a

/-- One level of a reduction tree under an operation. -/
def opLevel (op : X → X → X) : List X → List X
  | a :: b :: rest => op a b :: opLevel op rest
  | xs => xs
def opTree (op : X → X → X) : Nat → List X → List X
  | 0, xs => xs
  | n + 1, xs => opTree op n (opLevel op xs)

/-- The lane-then-tree order over 256 lanes (R183, R194). -/
def laneReduce (op : X → X → X) (id : X) (xs : List X) : X :=
  let lanes := (List.range 256).map fun l =>
    (List.range (ceilDiv (xs.length - l) 256)).foldl (fun a k => op a (xs.getD (l + 256 * k) X.zero)) id
  (opTree op 8 lanes).headD id

/-- A row reduction (R183). -/
def rowReduce (o : MapOp) (xs : List X) : X :=
  match o with
  | .rmax => laneReduce scMax (.inf true) xs
  | .ramax => laneReduce scMax X.zero (xs.map X.abs)
  | .rssq => laneReduce (fun a b => sc (a.add b)) X.zero (xs.map fun x => sc (x.mul x))
  | _ => laneReduce (fun a b => sc (a.add b)) X.zero xs

/-! ## Results -/

/-- A source element as a Screen reads it (R177). -/
def scrRead (r : Running) (i : Nat) (ix : List Nat) : Elem := (r.e.tensor i).read (r.tab i) (r.scale i) r.got ix
/-- A source element under broadcast (R182). -/
def scrBroad (r : Running) (i : Nat) (ix : List Nat) : Elem :=
  scrRead r i (ix.zipIdx.map fun x => if (r.e.tensor i).n x.2 = 1 then 0 else x.1)
/-- The row of source i that an index vector lies in. -/
def scrRow (r : Running) (i : Nat) (ix : List Nat) : List Elem :=
  (List.range ((r.e.tensor i).n 0)).map fun k => scrRead r i (ix.set 0 k)
/-- A captured curve, by its place after the value tables. -/
def Running.curve (r : Running) (n : Nat) : List Word := r.tables.getD (r.e.ds.length + n) []

/-- A destination's narrowing under its own key (R177), with an upset's element poisoned (R443). -/
def scrNarrow (r : Running) (i : Nat) (val : List Nat → Elem) : Tab WordBits × Ev :=
  let t := r.e.tensor i
  t.narrow (t.enc (r.tab i) (r.scale i) (srKey r.e.seed r.e.step (scrTid r.e i))) fun ix =>
    let x := val ix
    { x with bad := x.bad || r.hits i ix }

def okElem (x : X) (bad : Bool) : Elem := ⟨x, bad, false⟩

/-- The destination of SCR.MAP (R181-R183). -/
def mapVal (o : MapOp) (r : Running) (ix : List Nat) : Elem :=
  if isRowOp o then
    let es := scrRow r 0 ix
    okElem (rowReduce o (es.map fun e => e.x)) (es.any fun e => e.bad)
  else
    let f := dec32 (fld (r.e.rs.getD 0 0) 0 32)
    let es := (List.range (MapArity o)).map fun i => scrBroad r i ix
    let at_ (i : Nat) : X := (es.getD i ⟨X.zero, false, false⟩).x
    okElem (mapElem o f (at_ 0) (at_ 1) (at_ 2)) (es.any fun e => e.bad)

/-- The destination of SCR.CURVE (R187). -/
def curveVal (mulb : Bool) (r : Running) (ix : List Nat) : Elem :=
  let a := scrRead r 0 ix
  let y := curveAt (r.curve 0) a.x
  if mulb then
    let b := scrRead r 1 ix
    okElem (sc (y.mul b.x)) (a.bad || b.bad)
  else okElem (sc y) a.bad

/-- The destinations of SCR.DCURVE: dx or da, and db (R188). -/
def dcurveVal (gated second : Bool) (r : Running) (ix : List Nat) : Elem :=
  let a := scrRead r 0 ix
  let g := scrRead r 1 ix
  if second then okElem (sc (g.x.mul (curveAt (r.curve 0) a.x))) (a.bad || g.bad)
  else if gated then
    let b := scrRead r 2 ix
    okElem (sc ((sc (g.x.mul b.x)).mul (curveAt (r.curve 1) a.x))) (a.bad || g.bad || b.bad)
  else okElem (sc (g.x.mul (curveAt (r.curve 1) a.x))) (a.bad || g.bad)

/-! ### SCR.SMAX (R189) -/

/-- One row before its probabilities are narrowed: z, m, mn and l, alpha, and whether anything it reads is poisoned or an upset
reached it. -/
structure SmaxRow where
  z : List X
  mn : X
  l : X
  alpha : X
  live : Bool
  bad : Bool
  deriving DecidableEq, Repr

/-- A row's scores, running maximum and alpha (R189). -/
def smaxRow (mask : Bool) (r : Running) (ix : List Nat) : SmaxRow :=
  let tau := dec32 (fld (r.e.rs.getD 0 0) 0 32)
  let q0 := (r.e.rs.getD 1 0).toNat
  let k0 := (r.e.rs.getD 2 0).toNat
  let row := rank ((r.e.tensor 0).ext0 1) (ix.set 0 0)
  let es := scrRow r 0 ix
  let m := scrRead r 1 (ix.set 0 0)
  let l := scrRead r 1 (ix.set 0 1)
  let z := es.zipIdx.map fun e => if mask && decide (q0 + row < k0 + e.2) then X.inf true else sc (e.1.x.mul tau)
  let mx := z.foldl scMax (.inf true)
  let mn := sc (scMax m.x mx)
  let live := !(mn == .inf true)
  ⟨z, mn, l.x, if live then sc (curveAt (r.curve 0) (sc (m.x.sub mn))) else X.fin false 1 0, live,
    es.any (fun e => e.bad) || m.bad || l.bad || r.hitsRow ix⟩

/-- A probability before it is narrowed; zero in a row without live keys (R189). -/
def smaxP (mask : Bool) (r : Running) (ix : List Nat) : Elem :=
  let w := smaxRow mask r ix
  okElem (if w.live then sc (curveAt (r.curve 0) (sc ((w.z.getD (ix.headD 0) X.zero).sub w.mn))) else X.zero) w.bad

/-- The elements that share a block with an element; itself alone without a block exponent (R51). -/
def Tensor.mates (t : Tensor) (ix : List Nat) : List (List Nat) :=
  if t.bs = 0 then [ix]
  else
    let b := ix.getD t.baxis 0 / t.blk
    ((List.range t.blk).map fun k => ix.set t.baxis (b * t.blk + k)).filter fun jx => jx.getD t.baxis 0 < t.n t.baxis

/-- The state tensor: m, and l with the sum of the probabilities as P holds them; l depends on every row that shares a block of P
with its row (R180, R189). (assumption 50, DEDUCED) -/
def smaxState (mask : Bool) (r : Running) (pg : Tab Got) (ix : List Nat) : Elem :=
  let w := smaxRow mask r ix
  if ix.headD 0 = 0 then okElem w.mn w.bad
  else
    let p := r.e.tensor 2
    let ps := (List.range (p.n 0)).map fun k => (p.read (r.tab 2) (r.scale 2) pg (ix.set 0 k)).x
    okElem (sc ((sc (w.alpha.mul w.l)).add (rowReduce .rsum ps))) ((p.mates (ix.set 0 0)).any fun jx => (smaxRow mask r jx).bad)

/-- The elements of the state tensor that are written: a row without live keys keeps its l (R189). -/
def smaxKept (mask : Bool) (r : Running) : List (List Nat) :=
  (r.e.tensor 1).indices.filter fun ix => ix.headD 0 == 0 || (let w := smaxRow mask r ix; w.live || w.bad)

/-- Finished words as a reader sees them. -/
def wordsGot (ws : Tab WordBits) : Tab Got := ws.map fun w => (w.1, ⟨w.2.data, false⟩)

/-! ### SCR.TOPK (R190) -/

/-- Whether key a ranks strictly above key b (R190). -/
def topAbove (byValue : Bool) (a b : X) : Bool :=
  if a.isNan then !b.isNan
  else if b.isNan then false
  else if byValue then b.lt a else b.abs.lt a.abs

/-- An element put behind every element that it does not rank above. -/
def topInsert (byValue : Bool) (x : Nat × X) : List (Nat × X) → List (Nat × X)
  | [] => [x]
  | y :: rest => if topAbove byValue x.2 y.2 then x :: y :: rest else y :: topInsert byValue x rest

/-- The selected positions and values of a row, in descending key order, ties to the lower position (R190). -/
def topRow (byValue : Bool) (k : Nat) (xs : List X) : List (Nat × X) :=
  ((xs.zipIdx.map fun e => (e.2, e.1)).foldl (fun l x => topInsert byValue x l) []).take k

/-- The selection of the row an index vector lies in, pad elements included, and its poison (R180, R190, R220). -/
def topOf (byValue : Bool) (r : Running) (ix : List Nat) : List (Nat × X) × Bool :=
  let es := scrRow r 0 ix
  let pad := List.replicate ((r.e.tensor 0).padded 0 - (r.e.tensor 0).n 0) X.zero
  (topRow byValue (r.e.rs.getD 0 0).toNat (es.map (fun e => e.x) ++ pad), es.any (fun e => e.bad) || r.hitsRow ix)

/-- The I32 indices: IBASE + position mod 2^32 (R190). (assumption 44, DEDUCED) -/
def topIndices (byValue : Bool) (r : Running) : Tab WordBits :=
  let t := r.e.tensor 2
  let base := fld (r.e.rs.getD 1 0) 0 32
  t.indices.foldl (fun ws ix =>
    let (sel, bad) := topOf byValue r ix
    t.putElem ws ix ((base + ((sel.map Prod.fst).getD (ix.headD 0) 0)) % 2 ^ 32) bad) []

/-! ### SCR.OPT (R191-R194) -/

/-- One element's update: the new master and moments, whether it was refused, and whether it is poisoned (R192). -/
structure OptOut where
  w : X
  w1 : X
  m1 : X
  v1 : X
  refused : Bool
  bad : Bool
  deriving DecidableEq, Repr

/-- The captured parameters: lr, b1, omb1, b2, omb2, eps, wd, gs, c1, c2, and the poison mark (R191). -/
def Running.param (r : Running) (i : Nat) : X := dec32 ((r.tables.getD r.e.ds.length []).getD i 0).toNat
def Running.paramBad (r : Running) : Bool := (r.tables.getD r.e.ds.length []).getD 10 0 != 0

/-- The update of one element (R192); a refused element keeps its old master and moments, and a NaN among them its sign.
(assumption 50, DEDUCED) -/
def optElem (r : Running) (ix : List Nat) : OptOut :=
  let W := scrRead r 0 ix
  let G := scrRead r 2 ix
  let M := scrRead r 3 ix
  let V := scrRead r 5 ix
  let p := r.param
  let g := sc (G.x.mul (p 7))
  let m1 := sc ((sc ((p 1).mul M.x)).add (sc ((p 2).mul g)))
  let v1 := sc ((sc ((p 3).mul V.x)).add (sc ((p 4).mul (sc (g.mul g)))))
  let den := sc ((sc (sc (v1.mul (p 9))).sqrt).add (p 5))
  let u := sc ((sc (m1.mul (p 8))).div den)
  let dw := sc ((p 0).mul (sc (u.add (sc ((p 6).mul W.x)))))
  let w1 := sc (W.x.sub dw)
  let ok := w1.isFinite && m1.isFinite && v1.isFinite
  let bad := r.paramBad || W.bad || G.bad || M.bad || V.bad || r.hitsElem ix
  if ok then ⟨W.x, w1, m1, v1, false, bad⟩ else ⟨W.x, W.x, M.x, V.x, true, bad⟩

/-- The two sums and the count that SCR.OPT deposits (R194, R201). -/
def optDeposit (r : Running) : List Word :=
  let os := (r.e.tensor 0).indices.map (optElem r)
  let term (f : OptOut → X) : X :=
    laneReduce (fun a b => (a.add b).f64) X.zero (os.map fun o => if o.refused || o.bad then X.zero else f o)
  let w2 := term fun o => o.w.mul o.w
  let dw2 := term fun o => let d := (o.w1.sub o.w).f64; (d.mul d).f64
  [BitVec.ofNat 64 (enc64 w2), BitVec.ofNat 64 (enc64 dw2), BitVec.ofNat 64 (os.filter fun o => !o.bad).length]

/-! ### Every destination -/

/-- What a Screen instruction writes to destination i, and its events (R178). -/
def scrDest (r : Running) (i : Nat) : Tab WordBits × Ev :=
  match r.e.scr with
  | .map o => scrNarrow r i (mapVal o r)
  | .curve _ mulb => scrNarrow r i (curveVal mulb r)
  | .dcurve _ gated => scrNarrow r i (dcurveVal gated (i == 4) r)
  | .smax _ mask =>
    if i = 2 then scrNarrow r i (smaxP mask r)
    else if i = 1 then
      let pg := wordsGot (scrNarrow r 2 (smaxP mask r)).1
      let t := r.e.tensor 1
      t.narrowPlain (t.enc (r.tab 1) (r.scale 1) 0) (smaxKept mask r) (smaxState mask r pg)
    else scrNarrow r i fun ix => let w := smaxRow mask r ix; okElem w.alpha w.bad
  | .topk key _ =>
    if i = 2 then (topIndices key r, Ev.none)
    else if i = 1 then scrNarrow r i fun ix =>
      let (sel, bad) := topOf key r ix
      okElem (sc ((sel.map Prod.snd).getD (ix.headD 0) X.zero)) bad
    else scrNarrow r i fun ix =>
      let (sel, bad) := topOf key r ix
      okElem (if (sel.map Prod.fst).contains (ix.headD 0) then X.zero else sc (scrRead r 0 ix).x) bad
  | .opt _ =>
    let (ws, ev) := scrNarrow r i fun ix =>
      let o := optElem r ix
      okElem (if i = 1 then o.w1 else if i = 4 then o.m1 else o.v1) o.bad
    if i = 1 then
      (ws, ev.plus { Ev.none with
        nonfin := ((r.e.tensor 1).indices.filter fun ix => let o := optElem r ix; o.refused && !o.bad).length })
    else (ws, ev)

/-- The writes of a Screen instruction (R177). -/
def scrWrites (r : Running) : List WrReq :=
  (scrDst r.e.scr).flatMap fun i => (r.e.tensor i).writes (scrDest r i).1

/-! ## Partials (R194, R201) -/

/-- A list of deposits with one more, in dispatch order. -/
def putDeposit (d : Nat × Nat × List Word) : List (Nat × Nat × List Word) → List (Nat × Nat × List Word)
  | [] => [d]
  | e :: rest => if d.1 < e.1 then d :: e :: rest else e :: putDeposit d rest

/-- The events and counts of a finished Screen instruction; SCR.OPT deposits its partials, and a residue mismatch in it sets
SWEEP_ERROR (R126, R178, R194, R448, R544). -/
def State.scrAfter (b : Bid) (s : State) (r : Running) : State :=
  let e := r.e
  let o := e.scr
  let s := (scrSrc o).foldl (fun s i =>
    s.satRead b e.id (e.tensor i).cls ((e.tensor i).readSats (r.tab i) (r.scale i) r.got)) s
  let s := (scrDst o).foldl (fun s i => s.tally b e.id (e.tensor i).cls (scrDest r i).2) s
  let s := s.countB b (70 + 6 * r.unit + scrKind o) 1
  match o with
  | .opt norm =>
    let s := match s.partOf b with | some p => s.onCtl p fun c => c.sweepEnd b e.id | none => s
    let s := if norm && !r.paramBad then
        s.onBench b fun x => { x with deposits := putDeposit (e.id, (e.tensor 1).cls, optDeposit r) x.deposits }
      else s
    if r.residue then
      (s.setRf (K.ERR_BSTAT b) F.ERR_BSTAT_SWEEP_ERROR 1).setRf (K.ERR_BSTAT b) F.ERR_BSTAT_SWEEP_PC e.pc.toNat
    else s
  | _ => s

/-- SCR_COMPLETE: the Screen's reads and writes are performed and its instruction completes; a completed SCR.OPT's deposits
join the partials (R177, R194, R195). -/
def execScrComplete (b : Bid) (u : Fin 2) (upset : Option UnitUpset) (s : State) : Out :=
  .next ((s.finishOn b 5 u upset (fun _ r => scrWrites r) (State.scrAfter b)).flushDeposits b)

end Sys2Proof.Machine
end

