-- ==== Sys2Proof/Machine/Plumb.lean ====
section
/-!
DEFINITION. Plumbs: PLM.EVAL, snapshots, partition sums, the evaluation of every class with its rules, alarms, loss check
and global fallback, and what an install puts in force (spec 06 R138-R172).
-/

namespace Sys2Proof.Machine

/-! ## PLM.EVAL and the snapshot (R146) -/

/-- Whether an instruction can count in a Tally (R140, R141, R225). (assumption 44, DEDUCED) -/
def Entry.counts (e : Entry) : Bool :=
  match e.op with
  | .mm _ f => f.drain
  | .cvt f => !f.exp
  | .haul .. => (e.tensor 0).fmt != (e.tensor 1).fmt
  | .pop => false
  | _ => true

/-- Every dispatched instruction of a Bench that has not completed. -/
def Bench.allEntries (x : Bench) : List Entry :=
  ((List.finRange 8).flatMap x.entries)
    ++ ((List.finRange 12).flatMap fun u => x.arr[u].jobs.map fun j => j.e)
    ++ (x.wgh.buckets.map fun k => k.e)

/-- PLM.EVAL: it waits for an outstanding STEP.VOTE, faults when PHASE is not OPEN or the attempt was evaluated already, and
with ENABLE at 0 completes at once with the vote PASS (R146, R294, R335).
(assumption 44, DEDUCED) -/
def execPlmEval (h : Issue) (s : State) : Out :=
  issue h 1 (opcodeOf 0xB 0x01)
    (fun c s =>
      let f := s.fm c.b
      if s.voteOut c.b then .stall
      else if s.rf (K.STEP_STATE c.b) F.STEP_STATE_PHASE != 1 || f.evalReq.isSome || f.evalSent || f.evalDone then
        .fault .plmSequence
      else if !s.rb (K.PLM_CTL c.part) F.PLM_CTL_ENABLE then
        .done ((s.onFm c.b fun f => { f with evalDone := true }).onCtl c.part fun k =>
          { k with plumbVote := some (k.plumbVote.getD .pass) })
      else
        let ids := ((s.bench c.b).allEntries.filter Entry.counts).map fun e => e.id
        .done (s.onFm c.b fun f => { f with evalReq := some ids, evalAt := f.nextId })) s

/-- A number put in its place in a rising list. -/
def insertNat (n : Nat) : List Nat → List Nat
  | [] => [n]
  | m :: rest => if n < m then n :: m :: rest else if n = m then m :: rest else m :: insertNat n rest

/-- Keys of listed registers in [lo, lo + len), as indexes of entries `size` bytes apart. -/
def State.listed (s : State) (lo len size : Nat) : List Nat :=
  (s.regs.filter fun e => lo ≤ e.1 && e.1 < lo + len).map fun e => (e.1 - lo) / size

/-- The classes of a Bench with any reading since reset (R140, R201). -/
def State.tallied (s : State) (p : Part) (b : Bid) : List Nat :=
  let base := (s.plumb p).base.filterMap fun e => if e.1 / 32768 = b.val then some (e.1 % 32768 / 8) else none
  (s.listed (K.TALLY b 0 0) 0x40000 0x40 ++ s.listed (K.OPT_PART b 0 0) 0x20000 0x20 ++ base).foldl (fun l c => insertNat c l) []

/-- A counter's reading without the counts of instructions behind PLM.EVAL (R146). -/
def State.reading (s : State) (b : Bid) (c k : Nat) : Word :=
  s.reg (K.TALLY b c k) - tget 0 (s.bench b).after (8 * c + k)

/-- A class's deltas since the last snapshot (R142, R146). -/
def State.classDelta (s : State) (p : Part) (b : Bid) (c : Nat) : ClassDelta :=
  let d (k : Nat) : Nat := (s.reading b c k - tget 0 (s.plumb p).base ((b.val * 4096 + c) * 8 + k)).toNat
  { cls := c
    ev := ⟨d 0, d 1, d 2, d 3, d 4, d 5, d 6, s.rf (K.TALLY_AMAX b c) F.TALLY_AMAX_AMAX⟩
    part := if s.reg (K.OPT_PART b c 2) = 0 then none else some (s.reg (K.OPT_PART b c 0), s.reg (K.OPT_PART b c 1)) }

/-- The state with a class's snapshot taken: readings become the base, AMAX starts again, the partials clear (R140, R146, R194). -/
def State.takeClass (s : State) (p : Part) (b : Bid) (c : Nat) : State :=
  let s := s.onPlumb p fun m =>
    { m with base := (List.range 7).foldl (fun t k => tset 0 t ((b.val * 4096 + c) * 8 + k) (s.reading b c k)) m.base }
  let s := s.setRf (K.TALLY_AMAX b c) F.TALLY_AMAX_AMAX (tget 0 (s.bench b).after (8 * c + 7)).toNat
  (List.range 3).foldl (fun s k => s.setReg (K.OPT_PART b c k) 0) s

/-- Whether a Bench is in its partition's attempt in progress. -/
def State.inAttempt (s : State) (p : Part) (b : Bid) : Bool :=
  let k := K.STEP_STATE b
  let ph := s.rf k F.STEP_STATE_PHASE
  (s.ctl p).live && (ph == 1 || ph == 2) && s.rf k F.STEP_STATE_STEP == (s.ctl p).step
    && s.rf k F.STEP_STATE_ATTEMPT == (s.ctl p).attempt

/-- PLM_SNAPSHOT: every instruction that precedes PLM.EVAL and can count has completed, and the Bench's snapshot goes to the
Hub, which uses it for the attempt it was taken in and no other (R146, R147). (assumption 44, DEDUCED) -/
def execPlmSnapshot (b : Bid) (s : State) : Out :=
  match (s.fm b).evalReq, s.partOf b with
  | some [], some p =>
    let cs := s.tallied p b
    let snap := cs.map (s.classDelta p b)
    let now := s.inAttempt p b
    let s := cs.foldl (fun s c => s.takeClass p b c) s
    let s := s.onBench b fun x => { x with after := [], fm := { x.fm with evalReq := none, evalSent := true } }
    .next (if now then s.onPlumb p fun m => { m with snaps := m.snaps ++ [(b.val, snap)] } else s)
  | _, _ => .next s

/-! ## Partition sums (R147) -/

/-- Two classes' deltas together: counts modulo 2^64, maxima, partials in binary64 (R147). -/
def ClassDelta.join (a d : ClassDelta) : ClassDelta :=
  let m (x y : Nat) : Nat := (x + y) % 2 ^ 64
  let add (x y : Word) : Word := BitVec.ofNat 64 (enc64 ((dec64 x.toNat).add (dec64 y.toNat)).f64)
  { cls := a.cls
    ev := ⟨m a.ev.nonfin d.ev.nonfin, m a.ev.sat d.ev.sat, m a.ev.ufz d.ev.ufz, m a.ev.van d.ev.van, m a.ev.zblk d.ev.zblk,
      m a.ev.elem d.ev.elem, m a.ev.nz d.ev.nz, Nat.max a.ev.amax d.ev.amax⟩
    part := match a.part, d.part with
      | some x, some y => some (add x.1 y.1, add x.2 y.2)
      | x, none => x
      | none, y => y }

/-- One Bench's deltas joined into the sums, class by class in rising order. -/
def joinDelta (d : ClassDelta) : List ClassDelta → List ClassDelta
  | [] => [d]
  | a :: rest => if d.cls < a.cls then d :: a :: rest else if d.cls = a.cls then a.join d :: rest else a :: joinDelta d rest

/-- The Benches whose Plumbs evaluate (R138). -/
def State.plumbBenches (s : State) (p : Part) : List Bid := (s.benchesOf p).filter s.computeOk

/-- PLM_PARTITION_SUMS: with a snapshot of every in-service Bench, the Hub forms and broadcasts the sums in ascending Bench
order (R147). -/
def execPlmPartitionSums (p : Part) (s : State) : Out :=
  let m := s.plumb p
  let bs := s.plumbBenches p
  if bs.isEmpty || m.sums.isSome || !bs.all fun b => m.snaps.any fun x => x.1 == b.val then .next s
  else
    let snap (b : Bid) : List ClassDelta := ((m.snaps.find? fun x => x.1 == b.val).map Prod.snd).getD []
    let sums := (bs.flatMap snap).foldl (fun l d => joinDelta d l) []
    let s := s.onPlumb p fun m => { m with snaps := [], sums := some sums }
    let s := s.setRf (K.PLM_STATUS p) F.PLM_STATUS_EVAL 1
    .next ((s.setRf (K.PLM_STATUS p) F.PLM_STATUS_ATTEMPT (s.ctl p).attempt).setRf (K.PLM_STATUS p) F.PLM_STATUS_STEP
      (s.ctl p).step)

/-! ## Evaluation (R148, R149) -/

/-- The rule and the profile in force (R153). -/
def Plumb.rule (m : Plumb) (i : Nat) : Word := tget (ruleReset i) m.rules i
def profileReset : Word := 0x08FBE80040004000
def Plumb.profile (m : Plumb) (i : Nat) : Word := tget profileReset m.profiles i

/-- Whether a valid rule's test holds (R148). -/
def ruleHolds (w : Word) (d : Ev) (run : Nat) : Bool :=
  let sel := fld w 0 4
  let q := [0, d.nonfin, d.sat, d.ufz, d.van, d.zblk, d.elem - d.nz, d.nz, d.elem, run].getD sel 0
  let thr := fld w 8 24
  let above := if bit w 5 && sel != 9 then decide (d.elem * thr < q * 2 ^ 24) else decide (thr < q)
  bit w 45 && sel ≤ 9 && (sel == 0 || above != bit w 4)

/-- Whether a rule word holds a reserved encoding (R148, R153). -/
def ruleReserved (w : Word) : Bool := 9 < fld w 0 4 || fld w 40 2 == 3 || fld w 42 2 == 3

/-- A scale times 2^-k, where it stays normal (R144). -/
def stepScale (c : Nat) (k : Int) : Option Nat :=
  let e : Int := (c / 2 ^ 23 % 256 : Nat)
  if 1 ≤ e - k ∧ e - k ≤ 254 then some (((c : Int) - k * 2 ^ 23).toNat) else none

/-- A class as an evaluation leaves it: the three words of its staged entry, the alarm kinds it raised, its rule's vote
(0 pass, 1 skip, 2 replay), whether it is protective, whether its fired rule sets FB while FB is 0, and whether it counts in A
of R161. -/
structure ClassOut where
  cls : Nat
  e : Word × Word × Word
  kinds : List Nat
  vote : Nat
  protective : Bool
  wants : Bool
  active : Bool
  deriving DecidableEq, Repr

/-- f32(sqrt(sum_dw2 / sum_w2)) (R156). -/
def uwrOf (w2 dw2 : Word) : Nat :=
  let a := dec64 w2.toNat
  let b := dec64 dw2.toNat
  if a.isZero && b.isZero then 0 else enc32 ((b.div a).sqrt)

/-- 2^e for a two's complement exponent of a profile. -/
def pow2X (e : Int) : X := X.fin false 1 e

/-- The silent-layer count (R149, R155): the entry's second word, and whether the alarm is raised. -/
def evalSilent (prof : Word) (d : Ev) (w1 : Word) : Word × Bool :=
  let siln := fld prof 24 16
  if d.elem = 0 || siln = 0 then (w1, false)
  else
    let n := if d.nz * 2 ^ 24 < d.elem * fld prof 0 24 then min (fld w1 32 16 + 1) 65535 else 0
    (setFld w1 32 16 n, 0 < n && n % siln == 0)

/-- The update-to-weight field (R149, R156): the entry's second word, and whether the alarm is raised. -/
def evalUwr (prof : Word) (part : Option (Word × Word)) (w1 : Word) : Word × Bool :=
  match part with
  | none => (setFld w1 48 1 0, false)
  | some (w2, dw2) =>
    let u := uwrOf w2 dw2
    let lo := sext 8 (fld prof 40 8)
    let x := dec32 u
    (setFld (setFld w1 0 32 u) 48 1 1, lo != -128 && (x.lt (pow2X lo) || (pow2X (sext 8 (fld prof 48 8))).lt x))

/-- The calibration field of a class in CALIBRATE (R149, R163). -/
def evalCal (mode : Nat) (d : Ev) (w2 : Word) : Word × Bool :=
  let left := fld w2 32 16
  if mode = 2 && left != 0 then
    (setFld (setFld w2 0 32 (Nat.max (fld w2 0 32) d.amax)) 32 16 (left - 1), left == 1)
  else (w2, false)

/-- One class evaluated (R149). -/
def evalClass (m : Plumb) (c : Nat) (cur : Word × Word × Word) (d : ClassDelta) : ClassOut :=
  let (w0, w1, w2) := cur
  let mode := fld w0 36 2
  let nf := if d.ev.nonfin = 0 then [] else [0]
  if mode = 3 then ⟨c, cur, nf, 0, false, false, false⟩
  else
    let prof := m.profile (fld w0 40 6)
    let (w1, sil) := evalSilent prof d.ev w1
    let (w1, uwr) := evalUwr prof d.part w1
    let (w2, cal) := evalCal mode d.ev w2
    let kinds := nf ++ (if sil then [1] else []) ++ (if uwr then [2] else []) ++ (if cal then [8] else [])
    if mode != 0 then ⟨c, (w0, w1, w2), kinds, 0, false, false, false⟩
    else
      let st := fld w0 32 4
      let run := fld w0 48 16
      let fb := bit w0 38
      let active := d.ev.elem != 0
      match ((List.range 8).map fun j => m.rule (8 * st + j)).find? fun r => ruleHolds r d.ev run with
      | none => ⟨c, (setFld w0 48 16 (min (run + 1) 65535), w1, w2), kinds, 0, false, false, active⟩
      | some r =>
        let k := sext 4 (fld r 36 4)
        let next := fld r 32 4
        let vote := if fld r 40 2 = 1 then 1 else if fld r 40 2 = 2 then 2 else 0
        let fset := fld r 42 2 == 1
        let fclr := fld r 42 2 == 2
        let changed := next != st || k != 0 || (fset && !fb) || (fclr && fb)
        let scale := stepScale (fld w0 0 32) k
        let fb' := if fset then true else if fclr then false else fb
        let n0 := setFld (setFld (setFld w0 0 32 (scale.getD (fld w0 0 32))) 38 1 (if fb' then 1 else 0)) 32 4 next
        let differs := n0 != w0
        let n0 := setFld n0 48 16 (if changed then 0 else min (run + 1) 65535)
        ⟨c, (n0, w1, w2), kinds ++ (if scale.isNone then [7] else []) ++ (if bit r 44 then [6] else []), vote,
          (decide (k < 0) || vote != 0 || fset) && differs, fset && !fb, active⟩

/-! ## Loss, global fallback and the attempt limit (R154, R158, R161, R162) -/

/-- What the loss check finds: alarm kinds, whether it spiked, and the statistics to install. -/
structure LossOut where
  kinds : List Nat
  spike : Bool
  stats : Option (Word × Word × Word)
  deriving DecidableEq, Repr

/-- The loss check of an evaluation (R158). -/
def State.lossCheck (s : State) (p : Part) : LossOut :=
  if !s.rb (K.PLM_STATUS p) F.PLM_STATUS_LOSS_VALID then ⟨[], false, none⟩
  else
    let loss := dec32 (s.rf (K.PLM_LOSS p) F.PLM_LOSS_VALUE)
    if !loss.isFinite then ⟨[0], true, none⟩
    else
      let mean := dec64 (s.reg (K.PLM_LOSS_MEAN p)).toNat
      let var := dec64 (s.reg (K.PLM_LOSS_VAR p)).toNat
      let n := (s.reg (K.PLM_LOSS_N p)).toNat
      let k := dec32 (s.rf (K.PLM_LOSS_CFG p) F.PLM_LOSS_CFG_K_LOSS)
      let dl := (loss.sub mean).f64
      let spike := decide (s.rf (K.PLM_LOSS_CFG p) F.PLM_LOSS_CFG_WARM ≤ n) && ((k.mul var.sqrt.f64).f64).lt dl.abs
      if spike then ⟨[3], true, none⟩
      else
        let a := X.fin false 1 (-(s.rf (K.PLM_LOSS_CFG p) F.PLM_LOSS_CFG_ALPHA_SH : Nat))
        let w (x : X) : Word := BitVec.ofNat 64 (enc64 x)
        let n' := BitVec.ofNat 64 (n + 1)
        if n = 0 then ⟨[], false, some (w loss, 0, n')⟩
        else
          let adl := (a.mul dl).f64
          let mean' := (mean.add adl).f64
          let var' := ((((X.fin false 1 0).sub a).f64).mul ((var.add ((adl.mul dl).f64)).f64)).f64
          ⟨[], false, some (w mean', w var', n')⟩

/-- The scale of a rescaled class (R162). -/
def rescale (amax target cur : Nat) : Nat :=
  if amax = 0 then cur
  else
    let e := blockExp (dec32 amax) (X.fin false 1 0) - sext 8 target
    let e := min (max e (-126)) 127
    ((e + 127).toNat) * 2 ^ 23

/-- A class that a global fallback replays: state and FB of its current entry, RUN 0, the scale rescaled (R161, R162). -/
def replayClass (m : Plumb) (cur : Word × Word × Word) (d : ClassDelta) (o : ClassOut) : ClassOut :=
  let w0 := o.e.1
  let c0 := cur.1
  let w0 := setFld (setFld (setFld w0 32 4 (fld c0 32 4)) 38 1 (fld c0 38 1)) 48 16 0
  let w0 := setFld w0 0 32 (rescale d.ev.amax (fld (m.profile (fld c0 40 6)) 56 8) (fld c0 0 32))
  { o with e := (w0, o.e.2), protective := true }

/-- A Plumb vote as a Bench's vote: PASS, SKIP, REPLAY, HALT (R151). -/
def plumbVoteOf (v : Nat) : Vote := if v = 0 then .pass else if v = 1 then .skip else if v = 2 then .abort else .halt

/-- The current entry of a class (R172). -/
def State.classEntry (s : State) (p : Part) (c : Nat) : Word × Word × Word :=
  (s.reg (K.PLM_CLASS0 p c), s.reg (K.PLM_CLASS1 p c), s.reg (K.PLM_CLASS2 p c))

/-- What an evaluation stages and raises: the staged result, the vote, and the alarms with their classes. -/
structure EvalOut where
  staged : Staged
  vote : Nat
  alarms : List (Nat × List Nat)
  gf : Bool
  deriving DecidableEq, Repr

/-- The evaluation of every class on the partition's sums (R149, R154, R158, R161). -/
def State.evaluate (s : State) (p : Part) (sums : List ClassDelta) : EvalOut :=
  let m := s.plumb p
  let cs := (s.listed (K.PLM_CLASS0 p 0) 0x20000 0x20 ++ sums.map fun d => d.cls).foldl (fun l c => insertNat c l) []
  let dOf (c : Nat) : ClassDelta := (sums.find? fun d => d.cls == c).getD ⟨c, Ev.none, none⟩
  let outs := cs.map fun c => evalClass m c (s.classEntry p c) (dOf c)
  let loss := s.lossCheck p
  let vote0 := outs.foldl (fun v o => Nat.max v o.vote) 0
  let vote1 := if loss.spike && s.rb (K.PLM_LOSS_CFG p) F.PLM_LOSS_CFG_LOSS_VOTE then Nat.max vote0 1 else vote0
  let active := (outs.filter fun o => o.active).length
  let ws := outs.filter fun o => o.wants && o.active
  let gf := decide (0 < active) && decide (active * s.rf (K.PLM_CTL p) F.PLM_CTL_GF_SHARE < ws.length * 256)
  let again := m.gfStep == some (s.ctl p).step && (s.ctl p).attempt != 0
  let outs := if gf && !again then
      outs.map fun o => if o.wants && o.active then replayClass m (s.classEntry p o.cls) (dOf o.cls) o else o
    else outs
  let vote2 := if gf then (if again then 3 else Nat.max (min vote1 2) 2) else vote1
  let limit := vote2 == 2 && (s.ctl p).attempt + 1 == s.rf (K.PLM_CTL p) F.PLM_CTL_MAX_ATTEMPTS
  let vote := if limit then 3 else vote2
  let kindOf (k : Nat) : List (Nat × List Nat) :=
    let l := (outs.filter fun o => o.kinds.contains k).map fun o => o.cls
    if !l.isEmpty || loss.kinds.contains k then [(k, l)] else []
  let alarms := kindOf 0 ++ kindOf 1 ++ kindOf 2 ++ kindOf 3
    ++ (if gf && !again then [(4, ws.map fun o => o.cls)] else []) ++ (if gf && again then [(5, ws.map fun o => o.cls)] else [])
    ++ kindOf 6 ++ kindOf 7 ++ kindOf 8 ++ (if limit then [(9, [])] else [])
  { staged :=
      { entries := outs.filterMap fun o => if o.e = s.classEntry p o.cls then none else some (o.cls, o.e)
        protect := (outs.filter fun o => o.protective).map fun o => o.cls
        vote := plumbVoteOf vote, loss := loss.stats }
    vote := vote, alarms := alarms, gf := gf }

/-- The alarms of an evaluation: PLM_ALARM, one record of each kind, and the alarm vector where an enabled bit was raised
(R159, R160). R22 and R160 give those records no LEVEL, BENCH or VOTE: they carry 3, 16 and 0 (assumption 77, DESIGN CHOICE). -/
def State.plumbAlarms (s : State) (p : Part) (l : List (Nat × List Nat)) : State :=
  let s := l.foldl (fun s a =>
    (s.setRf (K.PLM_ALARM p) ⟨a.1, 1⟩ 1).emitCount
      { hubRec ucPlumb (a.2.headD 0) 0x11 (some p) with syn := BitVec.ofNat 64 a.1 } a.2.length) s
  if l.any fun a => s.rb (K.PLM_ALARM_EN p) ⟨a.1, 1⟩ then s.raise p (alarmVec p) else s

/-- PLM_EVALUATE: every Plumb of the partition evaluates and stages its result and vote; where a digest differs, PLUMB_DIVERGE
is recorded by the step controller, in a record of its own unit with LEVEL 3 and BENCH 16, as R404 gives its other record, and it
votes the step to abort (R139, R147, R149, R450). (assumption 77, DESIGN CHOICE) -/
def execPlmEvaluate (p : Part) (differs : Option Bid) (s : State) : Out :=
  match (s.plumb p).sums with
  | none => .next s
  | some sums =>
    let o := s.evaluate p sums
    let s := s.onPlumb p fun m =>
      { m with sums := none, staged := some o.staged, gfStep := if o.gf then some (s.ctl p).step else m.gfStep }
    let s := (s.setRf (K.PLM_STATUS p) F.PLM_STATUS_EVAL 0).setRf (K.PLM_STATUS p) F.PLM_STATUS_STAGED 1
    let s := s.setRf (K.PLM_STATUS p) F.PLM_STATUS_LOSS_VALID 0
    let s := s.plumbAlarms p o.alarms
    let s := s.onCtl p fun c =>
      let c := { c with plumbVote := some o.staged.vote }
      let c := if o.vote = 0 then c else c.cause causePlumb
      if o.alarms.any (fun a => a.1 == 9) then c.cause causeAttemptLimit else c
    let s := (s.benchesOf p).foldl (fun s b => s.onFm b fun f => if f.evalSent then { f with evalDone := true } else f) s
    match differs with
    | none => .next s
    | some b =>
      let s := s.emit { hubRec ucHubCore 31 0x12 (some p) with vote := 1, syn := BitVec.ofNat 64 b.val }
      .next (s.onCtl p fun c => { c.cause causeDiverge with diverged := true })

/-! ## Installing (R152, R153) -/

/-- Entries put in force. -/
def State.installEntries (s : State) (p : Part) (l : Tab (Word × Word × Word)) : State :=
  l.foldl (fun s e =>
    ((s.setReg (K.PLM_CLASS0 p e.1) e.2.1).setReg (K.PLM_CLASS1 p e.1) e.2.2.1).setReg (K.PLM_CLASS2 p e.1) e.2.2.2) s

/-- A shadow entry's written fields put in force: a scale that breaks R50 is not, STATE clears RUN, CAL_LEFT clears CAL_MAX
(R153, R163, R169). -/
def State.installShadow (s : State) (p : Part) (c : Nat) (e : ShadowEnt) : State :=
  let w0 := s.reg (K.PLM_CLASS0 p c)
  let w0 := match e.scale with | some v => if scaleOk v then setFld w0 0 32 v else w0 | none => w0
  let w0 := match e.state with | some v => setFld (setFld w0 32 4 v) 48 16 0 | none => w0
  let w0 := match e.mode with | some v => setFld w0 36 2 v | none => w0
  let w0 := match e.fb with | some v => setFld w0 38 1 v | none => w0
  let w0 := match e.profile with | some v => setFld w0 40 6 v | none => w0
  let s := s.setReg (K.PLM_CLASS0 p c) w0
  match e.cal with
  | some v => s.setReg (K.PLM_CLASS2 p c) (pack [(32, 16, v)])
  | none => s

/-- Listed registers of a range as a table of words. -/
def State.listedWords (s : State) (lo n : Nat) : Tab Word :=
  (s.regs.filter fun e => lo ≤ e.1 && e.1 < lo + 8 * n).map fun e => ((e.1 - lo) / 8, e.2)

/-- The shadow put in force: rules unless a valid one holds a reserved encoding, profiles, class fields (R153). -/
def State.applyShadow (s : State) (p : Part) : State :=
  let rules := s.listedWords (K.PLM_RULE p 0) 128
  let bad := (List.range 128).any fun i => let w := tget (ruleReset i) rules i; bit w 45 && ruleReserved w
  let s := if bad then s.setRf (K.PLM_STATUS p) F.PLM_STATUS_TABLE_BAD 1 else s.onPlumb p fun m => { m with rules := rules }
  let s := s.onPlumb p fun m => { m with profiles := s.listedWords (K.PLM_PROFILE p 0) 64 }
  let s := (s.plumb p).shadow.foldl (fun s e => s.installShadow p e.1 e.2) s
  let s := s.onPlumb p fun m => { m with shadow := [] }
  if (s.plumb p).resetLoss then
    (((s.setReg (K.PLM_LOSS_MEAN p) 0).setReg (K.PLM_LOSS_VAR p) 0).setReg (K.PLM_LOSS_N p) 0).onPlumb p fun m =>
      { m with resetLoss := false }
  else s

/-- No evaluation is in progress and none is staged: its attempt has ended (R147, R152, R165). -/
def State.plumbClear (s : State) (p : Part) : State :=
  let s := s.onPlumb p fun m => { m with staged := none, sums := none, snaps := [] }
  (s.setRf (K.PLM_STATUS p) F.PLM_STATUS_STAGED 0).setRf (K.PLM_STATUS p) F.PLM_STATUS_EVAL 0

/-- What the Plumbs of a partition install at an outcome (R152, R153). -/
def State.plumbInstall (s : State) (p : Part) (r : Result) : State :=
  let staged := (s.plumb p).staged
  let s := s.plumbClear p
  if r = Result.halt then s
  else
    let s := match staged with
      | none => s
      | some x =>
        if r = Result.abort then s.installEntries p (x.entries.filter fun e => x.protect.contains e.1)
        else
          let s := s.installEntries p x.entries
          match x.loss with
          | some (m, v, n) => ((s.setReg (K.PLM_LOSS_MEAN p) m).setReg (K.PLM_LOSS_VAR p) v).setReg (K.PLM_LOSS_N p) n
          | none => s
    s.applyShadow p

/-! ## Commands (R153, R157, R163, R167, R169) -/

/-- PLM_CMD.APPLY: the shadow installs where no step is open; else the command is refused (R153).
(assumption 12, DEDUCED) -/
def State.plumbApply (s : State) (p : Part) : State :=
  if (s.ctl p).live then s.setRf (K.PLM_STATUS p) F.PLM_STATUS_APPLY_REFUSED 1 else s.applyShadow p

/-- APPLY (R153). -/
def execApply (p : Part) (s : State) : Out := .next (s.plumbApply p)

def State.plumbResetLoss (s : State) (p : Part) : State := s.onPlumb p fun m => { m with resetLoss := true }

/-- RESET_LOSS: the loss statistics return to zero at the next install (R167). -/
def execResetLoss (p : Part) (s : State) : Out := .next (s.plumbResetLoss p)

/-- A write of PLM_CMD; RESET_LOSS is noted before an APPLY of the same write installs (R167, assumption 12, DEDUCED). -/
def State.writePlmCmd (s : State) (p : Part) (v : Word) : State :=
  let s := if bit v 1 then s.plumbResetLoss p else s
  if bit v 0 then s.plumbApply p else s

/-- The loss written, and LOSS_VALID set (R157). -/
def State.writePlmLoss (s : State) (p : Part) (v : Word) : State :=
  (s.setRf (K.PLM_LOSS p) F.PLM_LOSS_VALUE (fld v 0 32)).setRf (K.PLM_STATUS p) F.PLM_STATUS_LOSS_VALID 1

/-- PLM_LOSS_WRITE (R157). -/
def execPlmLossWrite (p : Part) (v : Word) (s : State) : Out := .next (s.writePlmLoss p v)

/-- PLM_SET_CMD: the selected fields of PLM_SET_VAL go into the shadow entry of a class (R169). -/
def State.writePlmSet (s : State) (p : Part) (v : Word) : State :=
  let c := fld v 0 12
  let x := s.reg (K.PLM_SET_VAL p)
  let take (i : Nat) (n : Nat) (old : Option Nat) : Option Nat := if bit v i then some n else old
  s.onPlumb p fun m =>
    let e := tget ShadowEnt.none m.shadow c
    let e : ShadowEnt :=
      ⟨take 16 (fld x 0 32) e.scale, take 17 (fld x 32 4) e.state, take 18 (fld x 36 2) e.mode, take 19 (fld x 38 1) e.fb,
        take 20 (fld x 40 6) e.profile, take 21 (fld x 48 16) e.cal⟩
    { m with shadow := tset ShadowEnt.none m.shadow c e }

/-- PLM_SET_CMD (R169). -/
def execPlmSetCmd (p : Part) (v : Word) (s : State) : Out := .next (s.writePlmSet p v)

end Sys2Proof.Machine
end

