-- ==== Sys2Proof/Machine/Packet.lean ====
section
/-!
DEFINITION. Fabric packets: their header fields, the making of a header, routing onto a port, and the checks of a packet at
its destination (spec 12 R341-R344, R349, R352, R353).
-/

namespace Sys2Proof.Machine

/-! ## Header fields (R344) -/

def pktDstMod (p : Packet) : Nat := fld p.w0 0 13
def pktDstPart (p : Packet) : Part := ⟨fld p.w0 13 2 % 4, by omega⟩
def pktSrcMod (p : Packet) : Nat := fld p.w0 15 13
def pktSrcPart (p : Packet) : Part := ⟨fld p.w0 28 2 % 4, by omega⟩
def pktClass (p : Packet) : Nat := fld p.w0 30 3
def pktTag (p : Packet) : Nat := fld p.w0 33 12
def pktEpochValid (p : Packet) : Bool := bit p.w0 45
def pktEpoch (p : Packet) : Nat := fld p.w0 48 16
def pktStep (p : Packet) : Nat := fld p.w1 0 48
def pktSlot (p : Packet) : Nat := fld p.w1 48 16
def pktBucket (p : Packet) : Nat := fld p.w2 0 32
def pktLen (p : Packet) : Nat := fld p.w2 32 9
def pktOp (p : Packet) : Nat := fld p.w2 41 4
def pktFe (p : Packet) : Nat := fld p.w2 45 2
def pktPoison (p : Packet) : Bool := bit p.w2 47
def pktAddr (p : Packet) : Nat := fld p.w3 0 48

/-- The classes (R344, R345). -/
def clsData : Nat := 0
def clsReduce : Nat := 1
def clsBarrier : Nat := 2
def clsStep : Nat := 3
def clsMgmt : Nat := 4

/-- The n-th 64-bit word of a payload (R8). -/
def pktWord (p : Packet) (n : Nat) : Word := BitVec.ofNat 64 (ofBytes ((p.payload.drop (8 * n)).take 8))

/-- What a sender puts into a header beside what the module knows (R344). -/
structure Head where
  dstMod : Nat
  dstPart : Part
  cls : Nat
  op : Nat
  step : Nat
  slot : Nat
  bucket : Nat
  fe : Nat
  poison : Bool
  addr : Nat
  deriving DecidableEq, Repr

/-- The module's own ID (R343, R356). -/
def State.modId (s : State) : Nat := s.rf K.FAB_ID F.FAB_ID_MODULE
/-- Whether a partition has an epoch in force (R344, R392). -/
def State.epochOn (s : State) (p : Part) : Bool := (s.ctl p).mapping.isSome
def State.epoch (s : State) (p : Part) : Nat := s.rf (K.FAB_PART p) F.FAB_PART_EPOCH
def State.jobTag (s : State) (p : Part) : Nat := s.rf (K.FAB_PART p) F.FAB_PART_JOB_TAG

/-- A packet of partition p (R344). -/
def State.packet (s : State) (p : Part) (h : Head) (payload : List Byte) : Packet :=
  { w0 := pack [(0, 13, h.dstMod), (13, 2, h.dstPart.val), (15, 13, s.modId), (28, 2, p.val), (30, 3, h.cls),
      (33, 12, s.jobTag p), (45, 1, if s.epochOn p then 1 else 0), (48, 16, if s.epochOn p then s.epoch p else 0)]
    w1 := pack [(0, 48, h.step), (48, 16, h.slot)]
    w2 := pack [(0, 32, h.bucket), (32, 9, payload.length / 16), (41, 4, h.op), (45, 2, h.fe),
      (47, 1, if h.poison then 1 else 0)]
    w3 := pack [(0, 48, h.addr)]
    payload := payload }

/-! ## Counters of dropped packets (R358) -/

def State.dropFormat (s : State) (p : Part) : State := s.count (K.FAB_DROP p 0) 1
def State.dropRoute (s : State) (p : Part) : State := s.count (K.FAB_DROP p 1) 1
def State.dropLost (s : State) (p : Part) : State := s.count (K.FAB_DROP p 2) 1
def State.dropStale (s : State) (p : Part) : State := s.count (K.FAB_DROP p 3) 1

/-! ## Ports and lost modules -/

/-- The partition a port belongs to (R19, R341). -/
def State.portOwner (s : State) (n : PortNo) : Option Part := s.partOf ⟨n.val, n.isLt⟩
def portDown : Nat := 1
def portReady : Nat := 3
def State.portState (s : State) (n : PortNo) : Nat := s.rf (K.FAB_PORT n) F.FAB_PORT_STATE
/-- Whether a port carries packets: it is READY, its pair of views holds no failure of it, and its link core runs (R342, R443,
R462). -/
def State.portUp (s : State) (n : PortNo) : Bool :=
  s.portState n == portReady && !s.heldFailed hubNo ucPort n.val && !s.coreStopped hubNo ucHubCore n.val
/-- Whether a module is marked lost in a partition (R352, R359). -/
def State.isLost (s : State) (p : Part) (x : Nat) : Bool := bit (s.reg (K.FAB_LOST p (x / 64))) (x % 64)
/-- Modules marked lost in a partition. -/
def State.lostMods (s : State) (p : Part) : List Nat := (List.range 8192).filter (s.isLost p)

/-- A route table entry (R342, R360). -/
def State.route (s : State) (p : Part) (x : Nat) : Option PortNo :=
  let e := bits (s.reg (K.FAB_ROUTE p (x / 8))).toNat (8 * (x % 8)) 8
  if e.testBit 7 then some ⟨e % 16, by omega⟩ else none

/-- A packet queued on a port, in its class's order. (assumption 32, DEDUCED) -/
def State.enqueue (s : State) (n : PortNo) (pkt : Packet) : State :=
  s.onPort n fun q =>
    let c : Fin 5 := ⟨pktClass pkt % 5, by omega⟩
    { q with sendq := q.sendq.set c (q.sendq[c] ++ [pkt]) }

/-- A frame's credits: its bytes, header, payload and trailer, in units of 64 (R344, R345). -/
def frameCost (p : Packet) : Nat := ceilDiv (48 + p.payload.length) 64
def pktCls (p : Packet) : Fin 5 := ⟨pktClass p % 5, by omega⟩

/-- A packet leaves the receive buffer of the port it came by: its credits are owed to the peer (R345). -/
def State.freed (s : State) (arrival : Option PortNo) (pkt : Packet) : State :=
  match arrival with
  | none => s
  | some n => s.onPort n fun q => { q with owed := q.owed.set (pktCls pkt) (q.owed[pktCls pkt] + frameCost pkt) }

/-! ## At the destination (R349) -/

/-- A class and operation that R344 and its chapters assign. -/
def opKnown (c o : Nat) : Bool :=
  if c = clsData then o ≤ 2 else if c = clsReduce then o ≤ 6 else if c = clsBarrier then o ≤ 1 else if c = clsStep then o ≤ 3
  else c == clsMgmt

/-- Whether every field that the class leaves zero is zero; BUCKET of a firmware packet is the firmware's (R344, R367). -/
def zeroFieldsOk (p : Packet) : Bool :=
  let c := pktClass p
  let o := pktOp p
  let z (ok : Bool) (v : Nat) : Bool := ok || v == 0
  fld p.w0 46 2 == 0 && z (pktEpochValid p) (pktEpoch p) && fld p.w2 48 16 == 0 && fld p.w3 48 16 == 0 && pktLen p ≤ 256
    && z ((c == clsReduce && o != 5) || c == clsBarrier) (pktSlot p)
    && (if c = clsReduce ∨ (c = clsMgmt ∧ o ≠ 0) then true
        else if c = clsBarrier ∨ (c = clsData ∧ o = 2) then pktBucket p < 16
        else if c = clsMgmt then pktBucket p < 8192 else pktBucket p == 0)
    && (if c = clsData ∧ o = 0 then pktFe p == 0 || pktFe p == 2 else pktFe p == 0)
    && z (c == clsData && o == 0) (if pktPoison p then 1 else 0)
    && z (c == clsData || (c == clsReduce && (o == 0 || o == 2))) (pktAddr p)

/-- A packet's job tag or epoch is not the one of its destination partition (R349). -/
def State.stalePkt (s : State) (d : Part) (pkt : Packet) : Bool :=
  pktClass pkt != clsMgmt && (pktTag pkt != s.jobTag d || pktEpochValid pkt != s.epochOn d
    || (s.epochOn d && pktEpoch pkt != s.epoch d))

/-- A packet at its destination: the checks of R349 in their order; one that passes waits for its unit, in the receive buffer of
the port it came by. `arrival` is that port and `p` the partition whose counters a drop takes. (assumption 32, DEDUCED) -/
def State.deliver (s : State) (arrival : Option PortNo) (p : Part) (pkt : Packet) : State :=
  let d := pktDstPart pkt
  if !opKnown (pktClass pkt) (pktOp pkt) || !zeroFieldsOk pkt then (s.dropFormat p).freed arrival pkt
  else if !s.partValid d || (match arrival with | some n => s.portOwner n != some d | none => false) then
    (s.dropRoute p).freed arrival pkt
  else if s.isLost d (pktSrcMod pkt) then (s.dropLost d).freed arrival pkt
  else if s.stalePkt d pkt then (s.dropStale d).freed arrival pkt
  else { s with fab := { s.fab with inbox := s.fab.inbox ++ [(arrival, pkt)] } }

/-! ## Sending and transit (R342, R343, R353) -/

/-- A packet sent out by partition p's route table, or dropped; one for a lost module is not sent (R342, R353). -/
def State.forward (s : State) (p : Part) (arrival : Option PortNo) (pkt : Packet) : State :=
  if s.isLost p (pktDstMod pkt) then s.dropLost p
  else
    match s.route p (pktDstMod pkt) with
    | none => s.dropRoute p
    | some n =>
      if !s.portUp n || s.portOwner n != some p || some n == arrival then s.dropRoute p else s.enqueue n pkt

/-- A packet that partition p sends: to itself, or out on its route (R342, R343, R353). -/
def State.send (s : State) (p : Part) (pkt : Packet) : State :=
  if pktDstMod pkt = s.modId then
    (if pktDstPart pkt = p then s.deliver none p pkt else s.dropRoute p)
  else s.forward p none pkt

/-- A packet for the neighbour on a port of partition p: it leaves only by a READY port that p owns, and not to a lost module
(R341, R342, R353). -/
def State.sendPort (s : State) (p : Part) (port : PortNo) (pkt : Packet) : State :=
  if s.isLost p (pktDstMod pkt) then s.dropLost p
  else if !s.portUp port || s.portOwner port != some p then s.dropRoute p
  else s.enqueue port pkt

/-- The first waiting packet that a unit takes, and the state without it: it has left its receive buffer (R345). -/
def State.takePacket (s : State) (want : Option PortNo × Packet → Bool) : Option ((Option PortNo × Packet) × State) :=
  go s.fab.inbox []
where
  go : List (Option PortNo × Packet) → List (Option PortNo × Packet) → Option ((Option PortNo × Packet) × State)
    | [], _ => none
    | x :: rest, seen =>
      if want x then some (x, State.freed { s with fab := { s.fab with inbox := seen ++ rest } } x.1 x.2)
      else go rest (seen ++ [x])

/-- Waiting packets discarded: they leave their receive buffers (R345). -/
def State.discard (s : State) (drop : Option PortNo × Packet → Bool) : State :=
  (s.fab.inbox.filter drop).foldl (fun (s : State) x => s.freed x.1 x.2)
    { s with fab := { s.fab with inbox := s.fab.inbox.filter fun x => !drop x } }

/-- Whether a packet is of a class and operation. -/
def isOp (c o : Nat) (x : Option PortNo × Packet) : Bool := pktClass x.2 == c && pktOp x.2 == o

/-- The bytes of 64-bit words, little-endian (R8). -/
def wordBytes (ws : List Word) : List Byte := ws.flatMap fun w => toBytes 8 w.toNat

end Sys2Proof.Machine
end

