-- ==== Sys2Proof/Machine/Hauler.lean ====
section
/-!
DEFINITION. Haulers: dispatch and checks of HAUL.LD, HAUL.ST, HAUL.GTH and HAUL.SCT, the copies, the one conversion, gathers
and scatters, and destinations in another module or in host memory (spec 08 R223-R229; 11 R330, R331; 12 R350; 15 R432).
-/

namespace Sys2Proof.Machine

/-! ## Dispatch (R223, R330) -/

/-- HAUL.LD dispatched (R223, R331). -/
def execHaulLd (h : Issue) (hsel da db : BitVec 4) (perm : BitVec 15) (s : State) : Out :=
  issue h 1 (opcodeOf 1 1) (dispatch 1 (.haul .ld 0 0 perm) hsel.toNat [da, db] []) s

/-- HAUL.ST dispatched; RA is zero without a remote destination (R311, R330, R331). -/
def execHaulSt (h : Issue) (hsel da db : BitVec 4) (remote : BitVec 2) (ra : BitVec 5) (perm : BitVec 15) (s : State) : Out :=
  issueIf (remote != 0 || ra == 0) h 1 (opcodeOf 1 2)
    (dispatch 1 (.haul .st 0 remote perm) hsel.toNat [da, db] (if remote = 0 then [] else [ra])) s

/-- HAUL.GTH dispatched (R227, R330). -/
def execHaulGth (h : Issue) (hsel da db dc : BitVec 4) (gd : BitVec 3) (s : State) : Out :=
  issue h 1 (opcodeOf 1 3) (dispatch 1 (.haul .gth gd 0 0) hsel.toNat [da, db, dc] []) s

/-- HAUL.SCT dispatched (R227, R330). -/
def execHaulSct (h : Issue) (hsel da db dc : BitVec 4) (gd : BitVec 3) (s : State) : Out :=
  issue h 1 (opcodeOf 1 4) (dispatch 1 (.haul .sct gd 0 0) hsel.toNat [da, db, dc] []) s

/-! ## What a Hauler instruction names -/

def haulOp (e : Entry) : HaulOp := match e.op with | .haul o .. => o | _ => .ld
def haulGd (e : Entry) : Nat := match e.op with | .haul _ g .. => g.toNat | _ => 0
def haulRemote (e : Entry) : Nat := match e.op with | .haul _ _ r _ => r.toNat | _ => 0
/-- The source dimension that feeds destination dimension d (R224). -/
def haulPerm (e : Entry) (d : Nat) : Nat := match e.op with | .haul _ _ _ p => bits p.toNat (3 * d) 3 | _ => 0
def isIndexed (e : Entry) : Bool := haulOp e == .gth || haulOp e == .sct
/-- The remote base word (R331). -/
def haulBase (e : Entry) : Word := e.rs.getD 0 0

/-- The destination tensor, at its remote base where it has one (R331). -/
def haulDst (e : Entry) : Tensor :=
  let t := e.tensor 1
  if haulRemote e = 0 then t
  else { t with base := if haulRemote e = 1 then (haulBase e).toNat else fld (haulBase e) 0 48 }

/-- Permutation entries read: the destination's dimensions (R224). -/
def permList (e : Entry) : List Nat := (List.range (e.tensor 1).ndim).map (haulPerm e)

/-- Whether the copy converts to F32 (R225). -/
def haulConverts (e : Entry) : Bool :=
  (e.tensor 1).fmt == F32 && (e.tensor 0).fmt != F32 && (e.tensor 0).fmt != I32 && !isIndexed e

/-- Whether a copy keeps its codes: same format, block size and value table, and the block axis fed by the source's (R225). -/
def haulCopies (e : Entry) : Bool :=
  let a := e.tensor 0
  let d := e.tensor 1
  a.fmt == d.fmt && a.bs == d.bs && (!isTable a.fmt || a.vtab == d.vtab)
    && (a.bs == 0 || haulPerm e d.baxis == a.baxis)

/-- The in-place transpose that may overlap (R226). -/
def inPlace (e : Entry) : Bool :=
  let a := e.tensor 0
  let d := e.tensor 1
  { a with feRd := 0, feWr := 0 } == { d with feRd := 0, feWr := 0 } && a.bs == 0 && a.n 0 == a.n 1 && a.n 0 ≤ 256
    && (List.range 3).all (fun i => a.n (i + 2) == 1) && haulPerm e 0 == 1 && haulPerm e 1 == 0
    && (List.range (d.ndim - 2)).all (fun i => haulPerm e (i + 2) == i + 2)
    && (a.feRd == 0 || a.feRd == 2) && (d.feWr == 0 || d.feWr == 2)

/-- Shape rules of a copy (R224). -/
def permBad (e : Entry) : Bool :=
  let a := e.tensor 0
  let d := e.tensor 1
  let ps := permList e
  ps.any (fun p => 4 < p) || ps.eraseDups.length != ps.length
    || (List.range 5).any (fun i => !ps.contains i && a.n i != 1)
    || (List.range d.ndim).any (fun i => d.n i != a.n (haulPerm e i))

/-- The rules of R227 on a gather or scatter. For S and D of a value-table format, the same format is read to include the same
table, as for a copy (R225) (assumption 85, DESIGN CHOICE). -/
def indexedBad (e : Entry) : Bool :=
  let a := e.tensor 0
  let d := e.tensor 1
  let i := e.tensor 2
  let g := haulGd e
  i.fmt != I32 || i.ndim != 1 || a.fmt != d.fmt || a.bs != d.bs || (a.bs != 0 && (a.baxis != d.baxis || a.baxis == g))
    || (isTable a.fmt && a.vtab != d.vtab) || d.n g != i.n 0
    || (List.range 5).any fun k => k != g && d.n k != a.n k

/-- The checks of a HAUL instruction (R223-R227, R330, R331, R350). -/
def State.haulChecks (b : Bid) (s : State) (e : Entry) (u : Nat) : List (Bool × FCode) :=
  let p := (s.partOf b).getD 0
  let a := e.tensor 0
  let d := e.tensor 1
  let ix := isIndexed e
  let rem := haulRemote e
  [ (9 ≤ e.sel || (ix && 5 ≤ haulGd e) || rem == 3 || (rem == 2 && bit (haulBase e) 63), .instrInvalid),
    (!s.present b ucHauler u, .unitAbsent),
    (!s.descOk p (e.desc 0) || !d.distinct || (if rem = 0 then !s.descOk p (e.desc 1) else !Tensor.fieldsOk (e.desc 1))
        || (rem == 2 && d.feWr == 1) || (ix && (!s.descOk p (e.desc 2) || indexedBad e)), .descInvalid),
    (!ix && !haulConverts e && !haulCopies e, .formatUnsupported),
    (if ix then a.ndim ≤ haulGd e else permBad e, .shapeInvalid),
    (if ix then d.overlaps a || d.overlaps (e.tensor 2) else rem == 0 && d.overlaps a && !inPlace e, .copyOverlap),
    (haulConverts e && !s.tableOk b a, .valueTableInvalid) ]

/-- What a Hauler instruction takes as it begins: the words of its source, or of its indices first (R223, R228). -/
def State.haulStart (b : Bid) (s : State) (e : Entry) (_ : Nat) : Start :=
  { reads := (e.tensor (if isIndexed e then 2 else 0)).reads none
    scales := []
    tables := [tabWords (s.tableFor b (e.tensor 0))] }

/-- HAUL_BEGIN: the HAUL instruction at the head of its queue is assigned a Hauler, checked, and begins to read (R223). -/
def execHaulBegin (b : Bid) (s : State) : Out := .next (s.beginOn b 1 (State.haulChecks b) (State.haulStart b))

/-! ## What a copy writes (R210, R224, R225) -/

/-- A stored element as it is written: its code, and which of the code's bits come from a poisoned word. -/
abbrev CodeOut := Nat × Nat

/-- The bits of a destination: valid elements and exponents as given, tail slots and the bits that end a row zero (R53, R66),
poisoned where `blank` says so; `pick` says which stored elements are written. -/
def codesOf (t : Tensor) (pick blank : List Nat → Bool) (code se : List Nat → CodeOut) : Tab WordBits :=
  let ws := t.rows.foldl (fun ws row =>
    (List.range (t.s 0)).foldl (fun ws i =>
      let ix := row.set 0 i
      if !pick ix then ws
      else
        let c := if t.kind ix = .valid then code ix else (0, marksOf (fmtWidth t.fmt) (blank ix))
        t.putCode ws ix c.1 c.2 (blank ix)) ws) []
  if t.bs = 0 then ws
  else
    let px := (List.range 5).map t.planeExt
    (List.range t.planeLen).foldl (fun ws j =>
      let jx := unrank px j
      let ix := jx.set t.baxis (jx.getD t.baxis 0 * t.blk)
      if !pick ix then ws else let c := se ix; putMarked 8 ws (8 * t.seAddr ix) c.1 c.2) ws

/-- A source's code, each bit with the poison of the word it lies in, and its exponent with the poison of its plane word (R210). -/
def srcCode (t : Tensor) (g : Tab Got) (ix : List Nat) : CodeOut :=
  let w := fmtWidth t.fmt
  let b := t.bitAddr ix
  let low := min w (128 - b % 128)
  let bad (k : Nat) : Bool := (tget ⟨0, false⟩ g k).poison
  (t.code g ix, marksOf low (bad (b / 128)) + 2 ^ low * marksOf (w - low) (bad (b / 128 + 1)))
def srcSe (t : Tensor) (g : Tab Got) (ix : List Nat) : CodeOut :=
  (t.se g ix, marksOf 8 (tget ⟨0, false⟩ g (t.seAddr ix / 16)).poison)

/-- The source index that feeds a destination index (R224). -/
def srcIndex (e : Entry) (ix : List Nat) : List Nat :=
  (permList e).zipIdx.foldl (fun l p => l.set p.1 (ix.getD p.2 0)) [0, 0, 0, 0, 0]

/-- The bits of a copy or conversion's destination (R224, R225). -/
def copyBits (r : Running) : Tab WordBits :=
  let e := r.e
  let a := e.tensor 0
  let d := haulDst e
  if haulConverts e then
    let c : Enc := ⟨F32, 0, 0, true, [], dec32 0x3F800000, 0⟩
    codesOf d (fun _ => true) (fun _ => false) (fun ix =>
      let x := a.read (r.tab 0) 0x3F800000 r.got (srcIndex e ix)
      ((encPlain c 0 x.x).1, marksOf 32 x.bad)) fun _ => (0, 0)
  else codesOf d (fun _ => true) (fun _ => false) (fun ix => srcCode a r.got (srcIndex e ix)) fun ix => srcSe a r.got (srcIndex e ix)

/-! ## Gathers and scatters (R227, R228) -/

/-- An index as it is used: none where its word is poisoned, else a slice or null; the last part says it was out of range. -/
structure IndexOut where
  poisoned : Bool
  slice : Option Nat
  range : Option Nat
  deriving DecidableEq, Repr

/-- Index j of the index tensor against the extent of the tensor it indexes (R228). -/
def indexAt (t : Tensor) (g : Tab Got) (ext j : Nat) : IndexOut :=
  let ix := [j, 0, 0, 0, 0]
  let v := t.code g ix
  if t.poisonedAt g ix then ⟨true, none, none⟩
  else if v = 0xFFFFFFFF then ⟨false, none, none⟩
  else if v < ext then ⟨false, some v, none⟩ else ⟨false, none, some v⟩

/-- Every index of a gather or scatter. -/
def indexList (r : Running) : List IndexOut :=
  let e := r.e
  let i := e.tensor 2
  let lim := if haulOp e == .gth then (e.tensor 0).n (haulGd e) else (e.tensor 1).n (haulGd e)
  (List.range (i.n 0)).map (indexAt i r.got lim)

/-- The source slices a gather or scatter reads. A scatter's slice j is the j-th slice of S: an index at a position beyond S's
extent moves none (assumption 85, DESIGN CHOICE). -/
def slicesRead (r : Running) : List Nat :=
  let l := indexList r
  if haulOp r.e == .gth then (l.filterMap fun x => x.slice).eraseDups
  else (l.zipIdx.filterMap fun x => if x.1.slice.isSome then some x.2 else none).filter fun j => j < (r.e.tensor 0).n (haulGd r.e)

/-- The words of some slices of a tensor along a dimension. -/
def sliceWords (t : Tensor) (g : Nat) (l : List Nat) : List Nat :=
  let ixs := t.rows.flatMap fun row => (List.range (t.s 0)).map fun i => row.set 0 i
  ((ixs.filter fun ix => l.contains (ix.getD g 0)).flatMap t.elemWords).eraseDups

/-- The reads of the slices once the indices are known (R227). -/
def sliceReads (r : Running) : List RdReq :=
  let t := r.e.tensor 0
  (sliceWords t (haulGd r.e) (slicesRead r)).map fun w => ⟨w, BitVec.ofNat 2 t.feRd, none, t.memClass⟩

/-- The bits of a gather's destination: null slices are zero, slices of a poisoned index poisoned (R228). -/
def gatherBits (r : Running) : Tab WordBits :=
  let e := r.e
  let a := e.tensor 0
  let g := haulGd e
  let l := indexList r
  let at_ (f : List Nat → CodeOut) (ix : List Nat) : CodeOut :=
    match l[ix.getD g 0]? with
    | some x => (match x.slice with | some k => f (ix.set g k) | none => (0, marksOf 32 x.poisoned))
    | none => (0, 0)
  let blank (ix : List Nat) : Bool := match l[ix.getD g 0]? with | some x => x.poisoned | none => false
  codesOf (e.tensor 1) (fun _ => true) blank (at_ (srcCode a r.got)) (at_ (srcSe a r.got))

/-- The bits of a scatter's destination: the slice from the largest j prevails, and others keep their contents (R228). An index at a
position beyond S's extent names no slice of S and writes none (assumption 85, DESIGN CHOICE). -/
def scatterBits (r : Running) : Tab WordBits :=
  let e := r.e
  let a := e.tensor 0
  let g := haulGd e
  let l := (indexList r).zipIdx
  let from_ (k : Nat) : Option Nat :=
    ((l.filter fun x => x.1.slice == some k && x.2 < a.n g).getLast?).map Prod.snd
  let at_ (f : List Nat → CodeOut) (ix : List Nat) : CodeOut :=
    match from_ (ix.getD g 0) with | some j => f (ix.set g j) | none => (0, 0)
  codesOf (e.tensor 1) (fun ix => (from_ (ix.getD g 0)).isSome) (fun _ => false) (at_ (srcCode a r.got)) (at_ (srcSe a r.got))

/-- The bits a Hauler instruction writes. -/
def haulBits (r : Running) : Tab WordBits :=
  match haulOp r.e with
  | .gth => gatherBits r
  | .sct => scatterBits r
  | _ => copyBits r

/-- The writes of a Hauler instruction with a device destination. -/
def haulWrites (r : Running) : List WrReq := (haulDst r.e).writes (haulBits r)

/-- Bytes a list of word masks covers. -/
def maskBytes (ws : Tab WordBits) : Nat := (ws.map fun w => popcount 128 w.2.mask.toNat / 8).sum

/-- Indices out of range: their records and BMEM_STAT's bit (R228, R240, R451).
(assumption 51, DEDUCED) -/
def State.indexRecords (s : State) (b : Bid) (w : Who) (l : List IndexOut) : State :=
  l.zipIdx.foldl (fun s x =>
    match x.1.range with
    | some v => (s.setRf (K.BMEM_STAT b) F.BMEM_STAT_INDEX_RANGE 1).emit
        { w.rec_ 0x0E x.2 .pass with syn := BitVec.ofNat 64 v }
    | none => s) s

/-- The counts of a finished Hauler instruction, the SAT events of a conversion, and the records of indices out of range (R225,
R228, R544). HAUL.LD counts as load traffic, by the bytes it reads, and HAUL.ST as store traffic, by the bytes it writes; a gather
or scatter counts both (R331). (assumption 51, DEDUCED) -/
def State.haulAfter (b : Bid) (s : State) (r : Running) : State :=
  let e := r.e
  let a := e.tensor 0
  let s := if haulConverts e then s.satRead b e.id a.cls (a.readSats (r.tab 0) 0x3F800000 r.got) else s
  let s := if isIndexed e then s.indexRecords b (e.who s b 1 r.unit) (indexList r) else s
  let s := if haulOp e == .st then s else s.countB b (90 + r.unit) (16 * r.got.length)
  if haulOp e == .ld then s else s.countB b (98 + r.unit) (maskBytes (haulBits r))

/-! ## Remote destinations (R350, R432) -/

/-- One run of bytes for a remote destination: first address, bytes, poison of each byte. -/
structure Run where
  addr : Nat
  bytes : List Byte
  bad : Bool
  deriving DecidableEq, Repr

/-- Words of a destination joined into runs of at most `most` words that lie one behind the other. -/
def runsOf (most : Nat) : Tab WordBits → List Run
  | [] => []
  | (k, w) :: rest =>
    let bytes := toBytes 16 w.data.toNat
    match runsOf most rest with
    | [] => [⟨16 * k, bytes, w.poison⟩]
    | r :: rs =>
      if r.addr = 16 * (k + 1) ∧ r.bytes.length < 16 * most then ⟨16 * k, bytes ++ r.bytes, w.poison || r.bad⟩ :: rs
      else ⟨16 * k, bytes, w.poison⟩ :: r :: rs

/-- The bits of a remote word that belong to no destination element are free values (assumption 9, DESIGN CHOICE). -/
def State.fillWords (s : State) : Tab WordBits → Tab WordBits × State
  | [] => ([], s)
  | (k, w) :: rest =>
    let (f, s1) := if w.mask = allBits then (w.data, s) else s.drawLine
    let (l, s2) := State.fillWords s1 rest
    ((k, { w with data := (w.data &&& w.mask) ||| (f &&& ~~~ w.mask), mask := allBits }) :: l, s2)

/-- The WRITE packets of a HAUL.ST with a fabric destination are sent; it waits for each to be answered (R350).
(assumption 9, DESIGN CHOICE) -/
def State.sendWrites (s : State) (b : Bid) (r : Running) : State :=
  let p := (s.partOf b).getD 0
  let w := haulBase r.e
  let mod := fld w 50 13
  let part : Part := ⟨fld w 48 2 % 4, by omega⟩
  let (ws, s) := s.fillWords (haulBits r)
  let runs := runsOf 256 ws
  let s := runs.foldl (fun s x =>
    s.send p (s.packet p ⟨mod, part, clsData, 0, r.e.step, 0, 0, (haulDst r.e).feWr, x.bad, x.addr % 2 ^ 48⟩ x.bytes)) s
  s.setRunning b { r with computed := true, parked := false, remote := runs.map fun x => (x.addr % 2 ^ 48, mod) }

/-- The set bytes of a word for host memory: address, byte, poison. -/
def hostBytes (ws : Tab WordBits) : List (Nat × Byte × Bool) :=
  ws.flatMap fun w => (toBytes 16 w.2.data.toNat).zipIdx.filterMap fun x =>
    if bits w.2.mask.toNat (8 * x.2) 8 = 0 then none else some (16 * w.1 + x.2, x.1, w.2.poison)

/-- Bytes written to host memory through partition p's port, in TLPs that end where an address is a multiple of Max_Payload_Size; a
TLP that holds any poisoned byte carries the EP attribute (R210, R432). (assumption 10, DESIGN CHOICE) -/
def State.hostWrite (s : State) (p : Part) (l : List (Nat × Byte × Bool)) : State :=
  (s.onHport p fun h =>
    let bad := ((l.filter fun x => x.2.2).map fun x => x.1 / h.mps).eraseDups
    { h with
      mem := l.foldl (fun m x => tset 0 m x.1 x.2.1) h.mem
      ep := (h.ep.filter fun a => !l.any fun x => x.1 == a) ++ (l.filter fun x => bad.contains (x.1 / h.mps)).map fun x => x.1 }).countP
    p 10 l.length

/-- The host port of a partition is up. -/
def State.hostUp (s : State) (p : Part) : Bool := s.rb (K.HIF_LINK p) F.HIF_LINK_UP

/-- A HAUL.ST with a host destination writes its bytes and issues its flushing read to the last address written; it ends at once
where the port is down (R432). -/
def State.writeHost (s : State) (b : Bid) (r : Running) : State :=
  let p := (s.partOf b).getD 0
  if !s.hostUp p then s.failRunning b r .waitTimeout
  else
    let l := hostBytes (haulBits r)
    let last := ((l.getLast?).map Prod.fst).getD (haulDst r.e).base
    (s.hostWrite p l).setRunning b { r with computed := true, parked := false, remote := [(last, 0)] }

/-- A HAUL.ST whose remote writes are all performed completes (R278, R350, R432).
(assumption 5, DESIGN CHOICE; assumption 51, DEDUCED) -/
def State.remoteDone (s : State) (b : Bid) (r : Running) : State :=
  ((s.haulAfter b r).dropRunning b 1 r.unit).completed b r.e.id

/-- HAUL_COMPLETE: the Hauler's remaining reads are performed, then its writes, and the instruction completes; a remote
destination's writes set out, and the instruction waits for their answers (R224, R228, R350, R432). -/
def execHaulComplete (b : Bid) (u : Fin 8) (s : State) : Out :=
  match s.active b 1 u with
  | none => .next s
  | some r =>
    if !r.remote.isEmpty then .next s
    else
      let w := r.e.who s b 1 u
      match State.readAll w r.reads r.got s with
      | (.refused s', _) => .next (s'.failRunning b r .addrUnmapped)
      | (.wait s', _) => .next s'
      | (.ok g s', rest) =>
        if !rest.isEmpty then
          .next ((s'.setRunning b { r with reads := rest, got := g, parked := true }).park (firstWord rest) r.parked)
        else
          let r := { r with reads := [], got := g, parked := false }
          if isIndexed r.e && r.scales.isEmpty then
            let r := { r with scales := [1], reads := sliceReads r }
            .next ((s'.setRunning b r).finishOn b 1 u none (fun _ r => haulWrites r) (State.haulAfter b))
          else if haulRemote r.e = 2 then
            (if s'.isLost ((s'.partOf b).getD 0) (fld (haulBase r.e) 50 13) then
              .next ((s'.failRunning b r .peerLost).dropLost ((s'.partOf b).getD 0))
             else .next (s'.sendWrites b r))
          else if haulRemote r.e = 1 then .next (s'.writeHost b r)
          else .next ((s'.setRunning b r).finishOn b 1 u none (fun _ r => haulWrites r) (State.haulAfter b))

/-- The Haulers of a partition that wait for an answer from a module about an address. -/
def State.awaiting (s : State) (p : Part) (addr mod : Nat) : Option (Bid × Running) :=
  ((s.benchesOf p).flatMap fun b => ((s.bench b).run.filter fun r => r.q == 1).map fun r => (b, r)).find? fun x =>
    haulRemote x.2.e == 2 && x.2.remote.contains (addr, mod)

/-- ACK: the write at its address was performed; with the last one answered the HAUL.ST completes (R350). -/
def execAck (s : State) : Out :=
  match s.takePacket (isOp clsData 1) with
  | none => .next s
  | some ((_, pkt), s) =>
    match s.awaiting (pktDstPart pkt) (pktAddr pkt) (pktSrcMod pkt) with
    | none => .next s
    | some (b, r) =>
      let left := r.remote.erase (pktAddr pkt, pktSrcMod pkt)
      if left.isEmpty then .next (s.remoteDone b r) else .next (s.setRunning b { r with remote := left })

/-- REJECT: the HAUL.ST whose write it answers faults (R350). (assumption 51, DEDUCED) -/
def execReject (s : State) : Out :=
  match s.takePacket (isOp clsData 2) with
  | none => .next s
  | some ((_, pkt), s) =>
    match s.awaiting (pktDstPart pkt) (pktAddr pkt) (pktSrcMod pkt) with
    | none => .next s
    | some (b, r) => .next (s.failRunning b r .fabricReject)

/-- FABRIC_ACK_TIMEOUT: a packet still unanswered at ACK_LIMIT; a limit of 0 never passes (R350, R358). -/
def execFabricAckTimeout (b : Bid) (u : Fin 8) (s : State) : Out :=
  match s.active b 1 u with
  | some r =>
    if haulRemote r.e = 2 && !r.remote.isEmpty && s.rf (K.FAB_PART ((s.partOf b).getD 0)) F.FAB_PART_ACK_LIMIT != 0 then
      .next (s.failRunning b r .waitTimeout)
    else .next s
  | none => .next s

/-- HOST_FLUSH_COMPLETE: the flushing read's successful completion performs the writes; UR or CA faults (R432). -/
def execHostFlushComplete (b : Bid) (u : Fin 8) (ans : HostAnswer) (s : State) : Out :=
  match s.active b 1 u with
  | some r =>
    if haulRemote r.e = 1 && !r.remote.isEmpty then
      match ans with
      | .ok _ => .next (s.remoteDone b r)
      | .refused => .next (s.failRunning b r .addrUnmapped)
    else .next s
  | none => .next s

/-- HOST_ACK_TIMEOUT: no answer to the flushing read within ACK_LIMIT; a limit of 0 never passes (R432, R436).
(assumption 31, DESIGN CHOICE) -/
def execHostAckTimeout (b : Bid) (u : Fin 8) (s : State) : Out :=
  match s.active b 1 u with
  | some r =>
    if haulRemote r.e = 1 && !r.remote.isEmpty && s.rf (K.HQ_LIM ((s.partOf b).getD 0)) F.HQ_LIM_ACK_LIMIT != 0 then
      .next (s.failRunning b r .waitTimeout)
    else .next s
  | none => .next s

/-! ## The receiver of a WRITE (R350) -/

/-- The words of an incoming WRITE that are refused. -/
def State.writeRefusals (s : State) (p : Part) (l : List WrReq) : List Nat :=
  (l.map fun r => r.word).filter fun w => !s.mayAccess p (16 * w)

/-- Bytes as words to write: whole or partial words at any byte address, at NORMAL (R210, R212, R255, R350). -/
def bytesReqs (addr : Nat) (bytes : List Byte) (fe : BitVec 2) (psn : Bool) : List WrReq :=
  (bytes.zipIdx.foldl (fun ws x => putBits 8 ws (8 * (addr + x.2)) x.1.toNat psn) ([] : Tab WordBits)).map fun w =>
    ⟨w.1, w.2.data, w.2.mask, fe, w.2.poison, 1⟩

/-- A word written for a Hub unit or a peer, a protected page copied first (R261). -/
def State.hubPut (s : State) (p : Part) (r : WrReq) : Acc1 Unit :=
  let a := 16 * r.word
  (if inSram a then s else s.protect p r.cls (pageOf a)).writeWord r

/-- The accepted words of a WRITE put into memory under FILL or PLAIN. Where some words are refused, which accepted ones are
performed is open: each is or is not, freely (R252, R350, assumption 5, DESIGN CHOICE). -/
def State.writeBytes (s : State) (p : Part) (l : List WrReq) : State :=
  let whole := l.all fun r => s.mayAccess p (16 * r.word)
  let s := l.foldl (fun s r =>
    if !s.mayAccess p (16 * r.word) then s
    else
      let (go, s) := if whole then (true, s) else s.drawBool
      if !go then s else match s.hubPut p r with | .ok _ s => s | .wait => s) s
  s.charge p false ((l.filter fun r => s.mayAccess p (16 * r.word)).map fun r => (r.word, r.cls, r.bytes))

/-- WRITE: a DATA WRITE within one window of its partition is performed and acknowledged; one outside is rejected with reason 1,
and one some of whose words are refused with reason 2, each refusal recorded by its router or stack. It waits while a page it
writes is being copied (R210, R252, R261, R350, assumption 5, DESIGN CHOICE). -/
def execWrite (s : State) : Out :=
  match s.takePacket (isOp clsData 0) with
  | none => .next s
  | some ((_, pkt), s') =>
    let p := pktDstPart pkt
    let answer (s : State) (op reason : Nat) : State :=
      s.send p (s.packet p ⟨pktSrcMod pkt, pktSrcPart pkt, clsData, op, pktStep pkt, 0, reason, 0, false, pktAddr pkt⟩ [])
    let len := 16 * pktLen pkt
    if !s'.rangeOk p (pktAddr pkt) len then .next (answer s' 2 1)
    else
      let l := bytesReqs (pktAddr pkt) (pkt.payload.take len) (BitVec.ofNat 2 (pktFe pkt)) (pktPoison pkt)
      if l.any fun r => !inSram (16 * r.word) && s'.bulk.copying.contains (pageOf (16 * r.word)) then .next s
      else
        let bad := s'.writeRefusals p l
        let s' := s'.writeBytes p l
        if bad.isEmpty then .next (answer s' 1 0)
        else .next (answer (bad.foldl (fun s w => s.refuseAt p none (16 * w)) s') 2 2)

end Sys2Proof.Machine
end

