-- ==== Sys2Proof/Machine/Stockpile.lean ====
section
/-!
DEFINITION. The Stockpile: its tiers and catalogue, STK.PUSH with placement and dropping, STK.POP with its status word
(spec 08 R230-R238, R243-R246; 11 R332, R333).
-/

namespace Sys2Proof.Machine

/-! ## Dispatch (R332) -/

/-- STK.PUSH dispatched, with the drop list as it stands (R232, R233). -/
def execStkPush (h : Issue) (da db : BitVec 4) (ra : BitVec 5) (tid : BitVec 32) (s : State) : Out :=
  issue h 2 (opcodeOf 7 1) (dispatch 7 (.push tid) 0 [da, db] [ra]) s

/-- STK.POP dispatched (R235). -/
def execStkPop (h : Issue) (da : BitVec 4) (ra rb : BitVec 5) (s : State) : Out :=
  issue h 1 (opcodeOf 7 2) (dispatch 7 .pop 0 [da] [ra, rb]) s

/-! ## Tiers and the catalogue (R230, R231, R243) -/

/-- Bytes of an allocation unit. -/
def stashUnit : Nat := 0x10000

/-- The catalogue entry an instruction names, and a push's tag (R333). -/
def stkEntry (e : Entry) : Nat := fld (e.rs.getD 0 0) 0 12
def stkTag (e : Entry) : Nat := fld (e.rs.getD 0 0) 12 10

def State.cat (s : State) (b : Bid) (n : Nat) : CatEntry := tget CatEntry.none (s.bench b).cat n
def State.setCat (s : State) (b : Bid) (n : Nat) (c : CatEntry) : State :=
  s.onBench b fun x => { x with cat := tset CatEntry.none x.cat n c }

/-- A tier's first byte. -/
def State.tierBase (s : State) (b : Bid) (bulk : Bool) : Nat :=
  if bulk then s.rf (K.STK_BULK_TIER b) F.STK_BULK_TIER_BASE * stashUnit
  else sramSize * b.val + s.rf (K.STK_SRAM_TIER b) F.STK_SRAM_TIER_BASE * stashUnit

/-- A tier's units; an SRAM tier that ends beyond the Bench's SRAM takes none (R243). -/
def State.tierSize (s : State) (b : Bid) (bulk : Bool) : Nat :=
  if bulk then s.rf (K.STK_BULK_TIER b) F.STK_BULK_TIER_SIZE
  else
    let n := s.rf (K.STK_SRAM_TIER b) F.STK_SRAM_TIER_SIZE
    if s.rf (K.STK_SRAM_TIER b) F.STK_SRAM_TIER_BASE + n ≤ 8192 then n else 0

/-- Units of a tier that entries hold, other than those a list names. -/
def usedUnits (cat : Tab CatEntry) (bulk : Bool) (without : List Nat) : List (Nat × Nat) :=
  (cat.filter fun e => e.2.st == .stashed && e.2.bulk == bulk && !without.contains e.1).map fun e => (e.2.unit, e.2.units)

/-- The lowest run of `n` free units in a tier of `size` units (R233). -/
def fitAt (used : List (Nat × Nat)) (size n : Nat) : Option Nat :=
  let starts := (0 :: used.map fun u => u.1 + u.2).filter fun a =>
    a + n ≤ size && !used.any fun u => a < u.1 + u.2 && u.1 < a + n
  starts.foldl (fun o a => match o with | some x => some (Nat.min x a) | none => some a) none

/-- Where an entry of `n` units fits, the SRAM tier first (R233). -/
def State.stashFit (s : State) (b : Bid) (without : List Nat) (n : Nat) : Option (Bool × Nat) :=
  let at_ (bulk : Bool) := (fitAt (usedUnits (s.bench b).cat bulk without) (s.tierSize b bulk) n).map fun a => (bulk, a)
  match at_ false with | some x => some x | none => at_ true

/-- Whether the queue holds an STK instruction before the first catalogue clearing. -/
def clearReady : List QItem → Bool
  | [] => false
  | .instr _ :: _ => false
  | .freeCat _ :: _ => true
  | _ :: rest => clearReady rest

/-- A queue without its first catalogue clearing. -/
def dropClear : List QItem → List QItem
  | [] => []
  | .freeCat _ :: rest => rest
  | x :: rest => x :: dropClear rest

/-- A STEP.BEGIN whose place in STK queue order has come frees the catalogue and clears STK_RECOMP (R237).
(assumption 52, DEDUCED) -/
def State.stkSettle (s : State) (b : Bid) : State :=
  if clearReady (s.queue b 7) && !(s.bench b).busy 7 0 then
    let s := (s.setQueue b 7 (dropClear (s.queue b 7))).onBench b fun x => { x with cat := [] }
    s.resetRegs (K.STK_RECOMP b 0) (K.STK_RECOMP b 16)
  else s

/-! ## Descriptors (R232, R235) -/

/-- A stash descriptor with the fields that are ignored put at neutral values: BASE, strides, pads, FE. -/
def stashDesc (d : Desc) : Desc :=
  let w (n : Nat) : Nat := descWord d n
  let ext (n : Nat) : Nat := bits (w n) 0 28
  let ws := [setFld (BitVec.ofNat 64 (w 0)) 0 48 0, setFld (BitVec.ofNat 64 (w 1)) 22 4 0xA] ++
    (List.range 5).map (fun n => BitVec.ofNat 64 (ext (n + 2))) ++ [BitVec.ofNat 64 (w 7 / 2 ^ 60 * 2 ^ 60)]
  BitVec.ofNat 512 (ws.zipIdx.foldl (fun a x => a + x.1.toNat <<< (64 * x.2)) 0)

/-- The stash copy: dense, each stride the span below it (R222, R232). -/
def denseOf (d : Desc) (base : Nat) : Tensor :=
  let t := tensorOf (stashDesc d)
  let s1 := t.rowbytes
  let s2 := t.s 1 * s1
  let s3 := t.s 2 * s2
  let s4 := t.s 3 * s3
  { t with base := base, stride := [0, s1, s2, s3, s4] }

/-- Units an entry takes: the stash copy and its exponent plane (R232). -/
def stashUnits (d : Desc) : Nat := ceilDiv (denseOf d 0).limit stashUnit

/-- The stash copy of a catalogue entry where it stands. (assumption 52, DEDUCED) -/
def State.stash (s : State) (b : Bid) (c : CatEntry) : Tensor := denseOf c.desc (s.tierBase b c.bulk + c.unit * stashUnit)

/-- Whether a pop's destination has the stash's layout as the push fixed it (R235). -/
def stashLike (stash dst : Desc) : Bool :=
  let a := tensorOf (stashDesc stash)
  let d := tensorOf dst
  a.fmt == d.fmt && a.bs == d.bs && (a.bs == 0 || a.baxis == d.baxis) && (!isTable a.fmt || a.vtab == d.vtab) && a.ext == d.ext

/-! ## STK.PUSH (R231-R234) -/

/-- The drop list an instruction captured, in order: the tags of its valid positions (R245). -/
def dropTags (e : Entry) : List Nat :=
  (e.drops.flatMap fun w => (List.range 4).map fun j => fld w (16 * j) 16).filterMap fun v =>
    if v.testBit 15 then some (v % 1024) else none

/-- Entries a push may drop, in the order it drops them: by tag in drop-list order, then the oldest push first. Every STK.POP
before the push has executed already, for the queue executes in issue order (R231, R233). -/
def dropOrder (cat : Tab CatEntry) (tags : List Nat) : List Nat :=
  let of (t : Nat) : List (Nat × CatEntry) := cat.filter fun e => e.2.st == .stashed && e.2.tag == t
  let sorted (l : List (Nat × CatEntry)) : List (Nat × CatEntry) :=
    l.foldl (fun acc e => acc.takeWhile (fun x => x.2.order < e.2.order) ++ e :: acc.dropWhile fun x => x.2.order < e.2.order) []
  (tags.eraseDups.flatMap fun t => sorted (of t)).map fun e => e.1

/-- An entry dropped: its space is free and its tag's bit set in STK_RECOMP (R233). -/
def State.dropStash (s : State) (b : Bid) (n : Nat) : State :=
  let c := s.cat b n
  let k := K.STK_RECOMP b (c.tag / 64)
  ((s.setCat b n { c with st := .dropped }).setReg k (s.reg k ||| BitVec.ofNat 64 (2 ^ (c.tag % 64)))).countB b 116 1

/-- Entries dropped one by one until `n` units fit (R233). -/
def State.dropUntil (s : State) (b : Bid) (n : Nat) : List Nat → State × Option (Bool × Nat)
  | [] => (s, none)
  | e :: rest =>
    let s := s.dropStash b e
    match s.stashFit b [] n with
    | some x => (s, some x)
    | none => s.dropUntil b n rest

/-- Where a push is placed, and what it drops for it; none where even every eligible entry freed leaves no room (R233). -/
def State.stashPlace (s : State) (b : Bid) (e : Entry) (n : Nat) : State × Option (Bool × Nat) :=
  match s.stashFit b [] n with
  | some x => (s, some x)
  | none =>
    let l := dropOrder (s.bench b).cat (dropTags e)
    match s.stashFit b l n with
    | none => (s, none)
    | some _ => s.dropUntil b n l

/-- The checks of a push at the head of its queue (R231, R232, R333, R573). I32 into or out of another format is a conversion that
names I32; I32 into I32 is copied (R32, R47). -/
def State.pushChecks (b : Bid) (s : State) (e : Entry) : List (Bool × FCode) :=
  let p := (s.partOf b).getD 0
  let src := e.tensor 0
  let dst := denseOf (e.desc 1) 0
  [ (fld (e.rs.getD 0 0) 22 42 != 0, .instrInvalid),
    (!s.descOk p (e.desc 0) || !Tensor.fieldsOk (stashDesc (e.desc 1)) || dst.rotsel != 0, .descInvalid),
    ((src.fmt == I32) != (dst.fmt == I32), .formatUnsupported),
    (dst.ext != src.ext, .shapeInvalid),
    ((s.cat b (stkEntry e)).st != .free, .stashEntry),
    (!s.tableOk b src || !s.tableOk b dst, .valueTableInvalid),
    (!scaleOk (s.scaleOf p src) || !scaleOk (s.scaleOf p dst), .scaleInvalid) ]

/-- The stash as a push narrows into it, with its events; I32 is copied, and has none (R47, R54, R232). -/
def State.pushDest (b : Bid) (s : State) (r : Running) : Tab WordBits × Ev :=
  let e := r.e
  let t := s.stash b (s.cat b (stkEntry e))
  let tid := match e.op with | .push t => t.toNat | _ => 0
  if t.fmt = I32 then
    (codesOf t (fun _ => true) (fun _ => false)
      (fun ix => let c := srcCode (e.tensor 0) r.got ix; (c.1, if r.hits 1 ix then 2 ^ 32 - 1 else c.2))
      (srcSe (e.tensor 0) r.got), Ev.none)
  else t.narrow (t.enc (r.tab 1) (r.scale 1) (srKey e.seed e.step tid)) fun ix =>
    let x := wedgeSrc r ix
    { x with sat := false, bad := x.bad || r.hits 1 ix }

/-- Bytes that a list of writes covers. -/
def reqBytes (l : List WrReq) : Nat := (l.map fun w => popcount 128 w.mask.toNat / 8).sum

/-- The events and counts of a finished push (R65, R232, R544). -/
def State.pushAfter (b : Bid) (s : State) (r : Running) : State :=
  let e := r.e
  let c := s.cat b (stkEntry e)
  let src := e.tensor 0
  let d := s.pushDest b r
  let s := s.satRead b e.id src.cls (src.readSats (r.tab 0) (r.scale 0) r.got)
  let s := s.tally b e.id (s.stash b c).cls d.2
  (s.countB b 112 1).countB b (if c.bulk then 115 else 114) (maskBytes d.1)

/-- A push that has its place: the catalogue entry is made, and the push reads its tensor (R232, R233). -/
def State.pushRun (s : State) (b : Bid) (e : Entry) (bulk : Bool) (unit : Nat) : State :=
  let p := (s.partOf b).getD 0
  let s := s.setCat b (stkEntry e)
    ⟨.stashed, stkTag e, stashDesc (e.desc 1), bulk, unit, stashUnits (e.desc 1), (s.bench b).pushes⟩
  let src := e.tensor 0
  let dst := denseOf (e.desc 1) 0
  let scales := [BitVec.ofNat 64 (s.scaleOf p src), BitVec.ofNat 64 (s.scaleOf p dst)]
  let tables := [tabWords (s.tableFor b src), tabWords (s.tableFor b dst)]
  (s.dequeue b 7 e.id).onBench b fun x =>
    { x with
      pushes := x.pushes + 1
      run := x.run ++ [⟨e, 7, 0, false, scales, tables, src.reads none, [], false, [], [], none, false⟩] }

/-- A push as its place was found, or STASH_EXHAUSTED where there is none (R233, R234). -/
def State.pushAt (b : Bid) (e : Entry) : State × Option (Bool × Nat) → State
  | (s, none) => (s.setRb (K.STK_STATUS b) F.STK_STATUS_EXHAUSTED true).fault (e.at_ b 7 0) .stashExhausted
  | (s, some (bulk, unit)) => s.pushRun b e bulk unit

/-- A push placed and begun, or left at the head of its queue with STASH_EXHAUSTED (R233, R234). -/
def State.pushBegin (s : State) (b : Bid) (e : Entry) : State := State.pushAt b e (s.stashPlace b e (stashUnits (e.desc 1)))

/-- A push in progress goes on: its reads, then the stash's words (R232). -/
def State.pushOn (s : State) (b : Bid) (upset : Option UnitUpset) : State :=
  (s.finishOn b 7 0 upset (fun s r => (s.stash b (s.cat b (stkEntry r.e))).writes (s.pushDest b r).1)
    (State.pushAfter b)).stkSettle b

def isPush (e : Entry) : Bool := match e.op with | .push _ => true | _ => false

/-- STK_PUSH_PLACE: the push at the head of the STK queue is checked and placed, dropping eligible entries where it must, and
writes the stash; one that waits on its source goes on here (R231-R234). -/
def execStkPushPlace (b : Bid) (upset : Option UnitUpset) (s : State) : Out :=
  let s := s.stkSettle b
  match s.active b 7 0 with
  | some r => .next (if isPush r.e then s.pushOn b upset else s)
  | none =>
    if !s.pwr.mainOn || !s.queueRuns b 7 then .next s
    else
      match s.nextHead b 7 with
      | none => .next s
      | some (e, _) =>
        if !isPush e then .next s
        else
          match firstFault (s.pushChecks b e) with
          | some c => .next (s.faultHead (e.at_ b 7 0) c)
          | none => .next ((s.pushBegin b e).pushOn b upset)

/-! ## STK.POP (R235, R236) -/

/-- The checks of a pop at the head of its queue (R231, R235, R333, R573). -/
def State.popChecks (b : Bid) (s : State) (e : Entry) (_ : Nat) : List (Bool × FCode) :=
  let p := (s.partOf b).getD 0
  let c := s.cat b (stkEntry e)
  let st := (e.rs.getD 1 0).toNat
  [ (fld (e.rs.getD 0 0) 12 52 != 0, .instrInvalid),
    (!s.descOk p (e.desc 0) || !(e.tensor 0).distinct || (c.st != .free && !stashLike c.desc (e.desc 0)), .descInvalid),
    (st % 16 != 0, .addrAlign),
    (!inSram st || benchOf st != b, .addrUnmapped),
    (c.st == .free, .stashEntry) ]

/-- What a pop reads: the stash's words, where its entry still holds one, at NORMAL (R235, R236). -/
def State.popStart (b : Bid) (s : State) (e : Entry) (_ : Nat) : Start :=
  let c := s.cat b (stkEntry e)
  ⟨if c.st = .stashed then ((s.stash b c).reads none).map fun r => { r with cls := 1 } else [], [], []⟩

/-- The writes of a pop to its destination; a dropped entry writes nothing (R235). -/
def State.popWrites (b : Bid) (s : State) (r : Running) : List WrReq :=
  let c := s.cat b (stkEntry r.e)
  if c.st != .stashed then []
  else
    let a := s.stash b c
    let d := r.e.tensor 0
    d.writes (codesOf d (fun _ => true) (fun _ => false) (srcCode a r.got) (srcSe a r.got))

/-- The status word of a pop (R235). (assumption 52, DEDUCED) -/
def popStatus (c : CatEntry) (entry step : Nat) : Line16 :=
  BitVec.ofNat 128 ((if c.st = .stashed then 1 else 2) + entry <<< 16 + c.tag <<< 28 + (step % 2 ^ 48) <<< 64)

/-- A pop frees its entry and then fills its status word (R235). (assumption 52, DEDUCED) -/
def State.popAfter (b : Bid) (s : State) (r : Running) : State :=
  let e := r.e
  let n := stkEntry e
  let c := s.cat b n
  let s := s.countB b 113 1
  let s := if c.st = .stashed then s.countB b (if c.bulk then 115 else 114) (16 * r.got.length) else s
  let s := s.setCat b n CatEntry.none
  let w : WrReq := ⟨(e.rs.getD 1 0).toNat / 16, popStatus c n e.step, allBits, 0, false, 1⟩
  match s.store (e.who s b 7 0) w with
  | .ok _ s => s
  | .wait s => s
  | .refused s => s.failRunning b r .addrUnmapped

/-- A pop in progress goes on. -/
def State.popOn (s : State) (b : Bid) : State :=
  (s.finishOn b 7 0 none (State.popWrites b) (State.popAfter b)).stkSettle b

/-- STK_POP_EXECUTE: the pop at the head of the STK queue is checked, copies its stash or writes nothing where it was dropped,
frees its entry and fills its status word; one that waits goes on here (R235). -/
def execStkPopExecute (b : Bid) (s : State) : Out :=
  let s := s.stkSettle b
  match s.active b 7 0 with
  | some r => .next (if isPush r.e then s else s.popOn b)
  | none =>
    match s.nextHead b 7 with
    | some (e, _) => .next (if isPush e then s else (s.beginOn b 7 (State.popChecks b) (State.popStart b)).popOn b)
    | none => .next s

/-! ## Tiers (R230) -/

/-- A write of a tier register: ignored, with CFG_REFUSED, while the catalogue holds any entry (R230). -/
def State.writeTier (s : State) (b : Bid) (bulk : Bool) (v : Word) : State :=
  if (s.bench b).cat.isEmpty then s.writeReg (if bulk then K.STK_BULK_TIER b else K.STK_SRAM_TIER b) false v
  else s.setRb (K.STK_STATUS b) F.STK_STATUS_CFG_REFUSED true

/-- STK_TIER_WRITE (R230). -/
def execStkTierWrite (b : Bid) (bulk : Bool) (v : Word) (s : State) : Out := .next (s.writeTier b bulk v)

end Sys2Proof.Machine
end

