-- ==== Sys2Proof/Machine/Bulk.lean ====
section
/-!
DEFINITION. Control of the memories: rewrites and patrols of banks and stacks, protection sets, and the rows, reserve
pools, interleave mode and shares of bulk memory (spec 08 R208, R211; 09 R250-R253, R256-R268).
-/

namespace Sys2Proof.Machine

/-! ## Rewrites and patrols (R208, R211, R258) -/

/-- Whether a word waits for the rewrite of its corrected data. -/
def WordMark.waits (m : WordMark) : Bool := match m.upset with | .symbol .. => true | _ => false

/-- A corrected word rewritten with fresh check bits (R208). -/
def State.rewrite (s : State) (wn : Nat) : State :=
  let m := s.mark wn
  s.setMark wn { m with upset := .clean, rewritten := true }

/-- The first word of a bank that waits for a rewrite. -/
def State.bankWaits (s : State) (b : Bid) (bank : Nat) : Option Nat :=
  (s.marks.find? fun e =>
    e.2.waits && inSram (16 * e.1) && benchOf (16 * e.1) == b && bankOf (16 * e.1) == bank).map Prod.fst

/-- CORRECTED_WORD_REWRITE: the bank rewrites a corrected word, unless a write has been performed meanwhile (R208). -/
def execCorrectedWordRewrite (b : Bid) (bank : Fin 64) (s : State) : Out :=
  match s.bankWaits b bank.val with
  | some wn => .next (s.rewrite wn)
  | none => .next s

/-- Words of a bank, and the word number of its i-th in increasing row order (R202, R211). -/
def bankWords : Nat := 524288
def bankWord (b : Bid) (bank i : Nat) : Nat :=
  let row := i / 32
  let line := row * 64 + (bank ^^^ (row % 64))
  (sramSize * b.val + line * 512) / 16 + i % 32

/-- The words that satisfy `p` forget that their correction was recorded: a new patrol interval begins (R208, R258).
(assumption 45, DESIGN CHOICE) -/
def State.newInterval (s : State) (p : Nat → Bool) : State :=
  { s with
    marks := s.marks.filterMap fun e =>
      let m : WordMark := if p e.1 then { e.2 with noted := false, rewritten := false } else e.2
      if m = WordMark.clear then none else some (e.1, m) }

/-- SRAM_PATROL_READ: with PATROL set, the bank reads its next word, corrects it or poisons it, and goes on (R211).
(assumption 45, DESIGN CHOICE) -/
def execSramPatrolRead (b : Bid) (bank : Fin 64) (upset : Upset) (s : State) : Out :=
  if !s.rb (K.BMEM_CTL b) F.BMEM_CTL_PATROL || !s.bankOk b bank.val then .next s
  else
    let i := tget 0 (s.bench b).patrol bank.val
    let s := s.decodeWord (bankWord b bank.val i) upset
    let s := s.onBench b fun x => { x with patrol := tset 0 x.patrol bank.val ((i + 1) % bankWords) }
    .next (if i + 1 < bankWords then s
      else s.newInterval fun w => inSram (16 * w) && benchOf (16 * w) == b && bankOf (16 * w) == bank.val)

/-- The device address at an offset of stack k: the inverse of R250 under the mode of the row's owner. -/
def State.stackAddr (s : State) (k so : Nat) : Nat :=
  let row := so / 2 ^ 30
  let o := so % 2 ^ 30
  bulkBase + row * rowSize + (if s.rowInter row then (o / 65536 * 8 + k) * 65536 + o % 65536 else k * 2 ^ 30 + o)

/-! ## Protection sets (R259-R263, R268) -/

/-- A set armed: no copy recorded, not broken (R260). -/
def State.armSet (s : State) (p : Part) (n : Fin 4) : State :=
  if s.armed p n then s
  else
    ((s.setReg (K.COW_CTL p n) 0).setRb (K.COW_CTL p n) F.COW_CTL_ARM true).onCow p n fun c => { c with copies := [] }

/-- A set's release requested: RELEASE reads 1 until it takes effect (R263, R268). -/
def State.releaseSet (s : State) (p : Part) (n : Fin 4) : State :=
  if s.armed p n then s.setRb (K.COW_CTL p n) F.COW_CTL_RELEASE true else s

/-- A write of COW_CTL: of sets 1 to 3 only, and with both bits only RELEASE acts (R259, R268). -/
def State.writeCowCtl (s : State) (p : Part) (n : Fin 4) (v : Word) : State :=
  if n = 0 then s else if bit v 1 then s.releaseSet p n else if bit v 0 then s.armSet p n else s

/-- ARM: COW_CTLp_n.ARM arms a set (R260). -/
def execArm (p : Part) (n : Fin 4) (s : State) : Out := .next (s.writeCowCtl p n 1)

/-- RELEASE: COW_CTLp_n.RELEASE requests a set's release (R263). -/
def execRelease (p : Part) (n : Fin 4) (s : State) : Out := .next (s.writeCowCtl p n 2)

/-- A set no longer armed; its reserve pages are free (R263). Its BROKEN and COPIED then read zero: R268 says what they tell of an
armed set (assumption 86, DESIGN CHOICE). -/
def State.freeSet (s : State) (p : Part) (n : Fin 4) : State :=
  (s.setReg (K.COW_CTL p n) 0).onCow p n fun c => { c with copies := [] }

/-- COW_RELEASE_EFFECT: the release takes effect, every view read of the set having completed (R263). -/
def execCowReleaseEffect (p : Part) (n : Fin 4) (s : State) : Out :=
  .next (if s.rb (K.COW_CTL p n) F.COW_CTL_RELEASE then s.freeSet p n else s)

/-- A write of a page range: ignored while its set is armed, and for set 0 while an export session is pending or active (R268,
R564). -/
def State.writeCowRgn (s : State) (p : Part) (n : Fin 4) (j : Nat) (v : Word) : State :=
  if s.armed p n || (n == 0 && (s.expActive p || s.expPending p)) then s else s.writeReg (K.COW_RGN p n j) false v

/-! ## Rows, reserve pools, interleave mode and shares (R251, R253, R256) -/

/-- Whether a queue belongs to a partition (R421, R436). -/
def State.queueOf (s : State) (p : Part) (q : Nat) : Bool :=
  s.rb (K.HQ_CTL q) F.HQ_CTL_OWNED && s.rf (K.HQ_CTL q) F.HQ_CTL_OWNER == p.val

/-- Word n of a queue entry, its OPC, whether it is a COPY, and a COPY's device address and length (R426). -/
def QCmd.w (c : QCmd) (n : Nat) : Word := c.words.getD n 0
def QCmd.opc (c : QCmd) : Nat := fld (c.w 0) 0 8
def QCmd.isCopy (c : QCmd) : Bool := c.opc == 2 || c.opc == 3
def QCmd.dev (c : QCmd) : Nat := fld (c.w 2) 0 48
def QCmd.len (c : QCmd) : Nat := fld (c.w 3) 0 32
/-- A COPY's FE, a SIGNAL's MODE, a WAIT's COND; a COPY's class at a stack and host address; a word's address (R255, R426). -/
def QCmd.mode (c : QCmd) : Nat := fld (c.w 0) 9 2
def QCmd.memClass (c : QCmd) : Nat := prioClass (fld (c.w 0) 11 2)
def QCmd.hostAddr (c : QCmd) : Nat := (c.w 1).toNat
def QCmd.wordAt (c : QCmd) : Nat := fld (c.w 1) 0 48

/-- Whether an instruction names storage in bulk memory: by a descriptor whose BASE it uses, or as a stash of the bulk tier. -/
def State.touchesBulk (s : State) (b : Bid) (e : Entry) : Bool :=
  (e.ds.zipIdx.any fun x => !(x.2 == 1 && (haulRemote e != 0 || isPush e)) && !inSram (tensorOf x.1).base)
    || (match e.op with
        | .push _ => let c := s.cat b (stkEntry e); c.st == .stashed && c.bulk
        | .pop => let c := s.cat b (stkEntry e); c.st == .stashed && c.bulk
        | _ => false)

/-- Whether an instruction in progress has requests to bulk memory that are still to be performed: one whose writes are computed has
those of them that remain, and a remote store has none once its packets are out. -/
def State.runOnBulk (s : State) (b : Bid) (r : Running) : Bool :=
  let bulk (w : Nat) : Bool := !inSram (16 * w)
  r.reads.any (fun x => bulk x.word) || r.writes.any (fun x => bulk x.word) || (!r.computed && s.touchesBulk b r.e)

/-- Whether an array has requests to bulk memory that are still to be performed: those of B while a tile loads, of A until the last
row has streamed, and of a drain until its last row is written (R78, R80). -/
def ArrayUnit.onBulk (x : ArrayUnit) : Bool :=
  let bulk (d : Desc) : Bool := !inSram (tensorOf d).base
  let drain (j : ArrJob) : Bool := j.f.drain && bulk j.e.descDrain
  let streams (j : ArrJob) : Bool := bulk j.e.descA || drain j
  x.load.any (fun j => (!j.f.reuse && bulk j.e.descB) || streams j) || x.back.any (fun y => streams y.1)
    || x.stream.any streams || x.drains.any drain

/-- Whether a bucket has requests to bulk memory out. -/
def Bucket.onBulk (k : Bucket) : Bool := k.wants.any fun a => !inSram a.addr

/-- Whether a WRITE from the fabric waits for a page of bulk memory that is being copied (R261, R350). -/
def State.writeHeld (s : State) (p : Part) : Bool :=
  s.fab.inbox.any fun x => isOp clsData 0 x && pktDstPart x.2 == p
    && (wordsOf (pktAddr x.2) (16 * pktLen x.2)).any fun w => !inSram (16 * w) && s.bulk.copying.contains (pageOf (16 * w))

/-- Whether a Bench has an instruction in progress, or a Foreman access, that requests bulk memory. -/
def State.benchOnBulk (s : State) (b : Bid) : Bool :=
  let x := s.bench b
  (x.run.any (s.runOnBulk b)) || (x.wgh.buckets.any Bucket.onBulk)
    || ((List.finRange 12).any fun u => x.arr[u].onBulk)
    || (match x.fm.parked with | some f => !inSram f.addr | none => false)

/-- Whether no request of a partition to bulk memory is outstanding: no instruction or Foreman access in progress, no COPY of its
queues, no program copy and no mirror of it names bulk memory, and no WRITE for it waits for a page's copy (R251, R253).
(assumption 46, DEDUCED) -/
def State.bulkIdle (s : State) (p : Part) : Bool :=
  (s.benchesOf p).all (fun b => !s.benchOnBulk b)
    && s.host.queues.all (fun e => !s.queueOf p e.1
      || e.2.cmds.all fun c => !(c.isCopy && c.begun && c.status.isNone && c.moved < c.len && !inSram c.dev))
    && (s.loads[p].all fun l => inSram l.src) && s.bulk.tx[p].isNone
    && !s.writeHeld p

/-- The conditions on a partition whose rows or reserve pool change (R253). -/
def State.rowsFree (s : State) (p : Part) : Bool :=
  !s.epochOn p && ((s.benchesOf p).all fun b => (s.fm b).st == .stopped) && s.bulkIdle p
    && ((List.finRange 4).all fun n => !s.armed p n) && !s.expActive p && !s.expPending p

/-- Whether a partition's reserve pool has a page in a row. -/
def State.poolIn (s : State) (p : Part) (r : Nat) : Bool :=
  let b := s.rf (K.BMC_PART p) F.BMC_PART_RSV_BASE
  let n := s.rf (K.BMC_PART p) F.BMC_PART_RSV_PAGES
  n != 0 && b < (r + 1) * 4096 && r * 4096 < b + n

/-- Whether a row belongs to the mirror area while MIR_RX is valid (R408). -/
def State.mirrorRow (s : State) (r : Nat) : Bool :=
  let b := s.rf K.MIR_RX F.MIR_RX_BASE_ROW
  s.rb K.MIR_RX F.MIR_RX_VALID && b ≤ r && r < b + s.rf K.MIR_RX F.MIR_RX_ROWS

/-- A row's image in a BMC_ROW word: its owner, or none. (assumption 46, DEDUCED) -/
def rowImage (v : Word) : Option Part := if bit v 2 then some ⟨fld v 0 2 % 4, by omega⟩ else none

/-- A row's new owner put in force. -/
def State.setRow (s : State) (r : Nat) (v : Word) : State :=
  (s.setRf (K.BMC_ROW r) F.BMC_ROW_OWNER (fld v 0 2)).setRf (K.BMC_ROW r) F.BMC_ROW_VALID (fld v 2 1)

/-- Whether a row's change of owner is refused: a partition it affects is not quiet, or it would leave a reserve page in a row that
its partition no longer owns, or give away a row of the mirror area (R253). -/
def State.rowBad (s : State) (r : Nat) (v : Word) : Bool :=
  let old := s.rowOwner r
  let new := rowImage v
  (old.toList ++ new.toList).any (fun p => !s.rowsFree p)
    || (match old with | some p => new != some p && s.poolIn p r | none => false) || (new.isSome && s.mirrorRow r)

/-- A write of BMC_ROW: one that changes the owner takes effect when every partition it affects is quiet, else it is refused; a
row that leaves a partition is zeroed first, and a second write to it meanwhile takes the first one's place: both requests are
answered when the zeroing is done (R253, R264). (assumption 46, DEDUCED; assumption 86, DESIGN CHOICE) -/
def State.writeBmcRow (s : State) (r : Nat) (v : Word) : State :=
  if s.rowsInstalled ≤ r then s
  else
    let k := K.BMC_ROW r
    let s := if bit v 3 then s.setRb k F.BMC_ROW_REFUSED false else s
    if fld v 0 3 = fld (s.reg k) 0 3 then s
    else
      let old := s.rowOwner r
      let new := rowImage v
      if s.rowBad r v then s.setRb k F.BMC_ROW_REFUSED true
      else if old.isSome && new != old then
        s.onBulk fun b => { b with zeroing := (b.zeroing.filter fun e => e.1 != r) ++ [(r, v)] }
      else s.reseat (s.setRow r v)

/-- BMC_ROW_WRITE by the INSTALLER (R253). -/
def execBmcRowWrite (row : Fin 96) (v : Word) (s : State) : Out := .next (s.writeBmcRow row.val v)

/-- A row's bytes and marks back at zero, empty and clean. (assumption 46, DEDUCED) -/
def State.zeroRow (s : State) (r : Nat) : State :=
  let a := bulkBase + r * rowSize
  { s with mem := tclear s.mem a (a + rowSize), marks := tclear s.marks (a / 16) ((a + rowSize) / 16) }

/-- A write of BMC_PART, judged field by field (R251, R253, R265). -/
def State.writeBmcPart (s : State) (p : Part) (v : Word) : State :=
  let k := K.BMC_PART p
  let s := if bit v 1 then s.setRb k F.BMC_PART_REFUSED false else s
  let s :=
    if fld v 0 1 = s.rf k F.BMC_PART_IMODE then s
    else if !s.epochOn p && s.bulkIdle p then s.reseat (s.setRf k F.BMC_PART_IMODE (fld v 0 1))
    else s.setRb k F.BMC_PART_REFUSED true
  let base := fld v 8 20
  let n := fld v 32 20
  if base = s.rf k F.BMC_PART_RSV_BASE ∧ n = s.rf k F.BMC_PART_RSV_PAGES then s
  else
    let inRows := n == 0 || (List.range ((base + n - 1) / 4096 + 1 - base / 4096)).all fun i =>
      s.rowOwner (base / 4096 + i) == some p
    if s.rowsFree p && inRows then (s.setRf k F.BMC_PART_RSV_BASE base).setRf k F.BMC_PART_RSV_PAGES n
    else s.setRb k F.BMC_PART_REFUSED true

/-- BMC_PART_WRITE by the INSTALLER (R251, R253). -/
def execBmcPartWrite (p : Part) (v : Word) (s : State) : Out := .next (s.writeBmcPart p v)

/-- A write of BMC_SHARE: one whose minimums sum above 256 is ignored (R256, R266). -/
def State.writeBmcShare (s : State) (v : Word) : State :=
  if 256 < fld v 0 8 + fld v 8 8 + fld v 16 8 + fld v 24 8 then s.setRb K.BMC_SHARE F.BMC_SHARE_REFUSED true
  else s.writeReg K.BMC_SHARE false v

/-- BMC_SHARE_WRITE by the INSTALLER (R256). -/
def execBmcShareWrite (v : Word) (s : State) : Out := .next (s.writeBmcShare v)

end Sys2Proof.Machine
end

