-- ==== Sys2Proof/Machine/Errors.lean ====
section
/-!
DEFINITION. The global error aggregator with its rings, holds, merge windows and module log; the fault history, retirement
and the published floor plan; Proof runs and the two views of a unit (spec 16 R449-R467; 19 R521, R540, R541).
-/

namespace Sys2Proof.Machine

/-! ## Rings (R453, R455) -/

/-- Bytes that the module writes into a host's memory without counting them as an engine's.
(assumption 10, DESIGN CHOICE) -/
def State.hostPut (s : State) (p : Part) (a : Nat) (l : List Byte) : State :=
  s.onHport p fun h =>
    { h with
      mem := l.zipIdx.foldl (fun m x => tset 0 m (a + x.2) x.1) h.mem
      ep := h.ep.filter fun e => e < a || a + l.length ≤ e }

/-- Records in a ring, and whether it can take one more (R453). -/
def State.ringSize (s : State) (p : Part) : Nat := 2 ^ s.rf (K.ERR_RING p) F.ERR_RING_SIZE_LOG2
def State.ringUsed (s : State) (p : Part) : Nat :=
  let k := K.ERR_HEAD p
  (s.rf k F.ERR_HEAD_TAIL + s.ringSize p - s.rf k F.ERR_HEAD_HEAD % s.ringSize p) % s.ringSize p
def State.ringOpen (s : State) (p : Part) : Bool :=
  s.rb (K.ERR_HEAD p) F.ERR_HEAD_ENABLE && s.hostUp p && s.ringUsed p < s.ringSize p - 1

/-- PENDING set; the error vector is signalled if it was clear (R455). -/
def State.ringPending (s : State) (p : Part) : State :=
  if s.rb (K.ERR_STAT p) F.ERR_STAT_PENDING then s
  else (s.setRb (K.ERR_STAT p) F.ERR_STAT_PENDING true).raise p (errorVec p)

/-- A record written at TAIL with the pass's PHASE (R449, R453). -/
def State.ringWrite (s : State) (p : Part) (r : Rec) : State :=
  let k := K.ERR_HEAD p
  let t := s.rf k F.ERR_HEAD_TAIL
  let ph := s.errs.phase[p]
  let r := r.set 0 (setFld (r.getD 0 0) 63 1 (if ph then 1 else 0))
  let s := s.hostPut p ((s.reg (K.ERR_RING p)).toNat / 4096 * 4096 + 64 * t) (wordBytes r)
  let n := (t + 1) % s.ringSize p
  let s := s.setRf k F.ERR_HEAD_TAIL n
  if n = 0 then { s with errs := { s.errs with phase := s.errs.phase.set p !ph } } else s

/-- A record held for a partition, which sets PENDING, or lost when 256 are held (R453, R455). -/
def State.hold (s : State) (p : Part) (r : Rec) : State :=
  if 256 ≤ s.errs.held[p].length then s.count (K.ERR_LOST p) 1
  else ({ s with errs := { s.errs with held := s.errs.held.set p (s.errs.held[p] ++ [r]) } } : State).ringPending p

/-- A host write of a ring that the host answers with UR or CA: RING_ERROR is set and ENABLE clears (R453). -/
def State.ringFails (s : State) (p : Part) : State :=
  (s.setRb (K.ERR_STAT p) F.ERR_STAT_RING_ERROR true).setRb (K.ERR_HEAD p) F.ERR_HEAD_ENABLE false

/-- The oldest held record written while the ring takes it; one that the host refuses stays held (R453, R455). -/
def State.drainOne (s : State) (p : Part) (refused : Bool) : State :=
  match s.errs.held[p] with
  | r :: rest =>
    if !s.ringOpen p then s
    else if refused then s.ringFails p
    else (({ s with errs := { s.errs with held := s.errs.held.set p rest } } : State).ringWrite p r).ringPending p
  | [] => s

/-- Held records written in order (R453, R455). -/
def State.drainHeld (s : State) (p : Part) (refused : Bool) : State :=
  (List.range 256).foldl (fun s _ => s.drainOne p refused) s

/-- Held records written in order, each of which the host may refuse: no command says what it answers (R453, R455).
(assumption 90, DESIGN CHOICE) -/
def State.drainDrawn (s : State) (p : Part) : State :=
  (List.range 256).foldl (fun (s : State) _ =>
    if s.errs.held[p].isEmpty then s else let (refused, s) := s.drawBool; s.drainOne p refused) s

/-- A record for partition p: behind those held, into the ring or the hold; one whose write the host refuses is held (R453,
R455). -/
def State.ringPut (s : State) (p : Part) (refused : Bool) (r : Rec) : State :=
  let s := s.drainHeld p refused
  if s.errs.held[p].isEmpty && s.ringOpen p then
    (if refused then (s.ringFails p).hold p r else (s.ringWrite p r).ringPending p)
  else s.hold p r

/-! ## Delivery (R452, R454) -/

/-- The partitions a record goes to (R452). (assumption 59, DEDUCED) -/
def State.affected (s : State) (r : Rec) : List Part :=
  let w := r.getD 0 0
  let named : Option Part := if bit w 62 then some ⟨fld w 60 2 % 4, by omega⟩ else none
  let event := fld w 44 8
  let ucls := fld w 8 6
  let index := fld w 14 12
  if event = 0x0F then named.toList
  else
    let bench := if fld w 2 5 < 16 then s.partOf ⟨fld w 2 5 % 16, by omega⟩ else none
    let port := if ucls = ucPort then s.portOwner ⟨index % 16, by omega⟩ else none
    let rows := if ucls = ucStack then (List.range s.rowsInstalled).filterMap s.rowOwner else []
    allParts.filter fun p => named == some p || bench == some p || port == some p || rows.contains p

/-- What a record is merged by: LEVEL, BENCH, UCLASS, INDEX and EVENT (R454). -/
def recKey (r : Rec) : Word := let w := r.getD 0 0; pack [(0, 26, fld w 0 26), (44, 8, fld w 44 8)]
/-- Corrections and Plumb records are never merged (R454). (assumption 59, DEDUCED) -/
def merges (r : Rec) : Bool := let e := fld (r.getD 0 0) 44 8; e != 0x04 && e != 0x11

/-- A record in every ring it belongs to and in the module log of the 4,096 most recent (R452, R453). -/
def State.deliverRec (s : State) (refused : BitVec 4) (r : Rec) : State :=
  let s := (s.affected r).foldl (fun s p => s.ringPut p (refused.getLsbD p.val) r) s
  { s with errs := { s.errs with log := (s.errs.log ++ [r]).drop (s.errs.log.length + 1 - 4096) } }

/-- ERROR_RECORD_DELIVERY: the next record on its way is delivered, or merged into its open window (R452, R454).
(assumption 32, DEDUCED) -/
def execErrorRecordDelivery (refused : BitVec 4) (s : State) : Out :=
  match s.errs.coming with
  | [] => .next s
  | r :: rest =>
    let s : State := { s with errs := { s.errs with coming := rest } }
    let key := recKey r
    if !merges r then .next (s.deliverRec refused r)
    else if s.errs.wins.any fun w => w.key == key then
      .next { s with
        errs := { s.errs with
          wins := s.errs.wins.map fun w =>
            if w.key = key then { w with held := some (w.held.getD r), count := w.count + 1 } else w } }
    else
      .next (({ s with errs := { s.errs with wins := s.errs.wins ++ [⟨key, none, 0⟩] } } : State).deliverRec refused r)

/-- RECORD_MERGE_WINDOW_END: a window ends; its held record is written with its COUNT, and is itself one written in the last
millisecond (R454). -/
def execRecordMergeWindowEnd (i : Nat) (refused : BitVec 4) (s : State) : Out :=
  match s.errs.wins[i]? with
  | none => .next s
  | some w =>
    let rest := s.errs.wins.eraseIdx i
    match w.held with
    | none => .next { s with errs := { s.errs with wins := rest } }
    | some r =>
      let r := r.set 5 (setFld (r.getD 5 0) 32 16 (Nat.min w.count 65535))
      .next (({ s with errs := { s.errs with wins := rest ++ [⟨w.key, none, 0⟩] } } : State).deliverRec refused r)

/-- A write of ERR_HEAD: setting ENABLE empties the ring (R453, R465). -/
def State.writeErrHead (s : State) (p : Part) (v : Word) : State :=
  let k := K.ERR_HEAD p
  if bit v 32 && !s.rb k F.ERR_HEAD_ENABLE then
    let s : State := { s with errs := { s.errs with phase := s.errs.phase.set p true } }
    s.setReg k (pack [(32, 1, 1)])
  else (s.setRf k F.ERR_HEAD_HEAD (fld v 0 16)).setRb k F.ERR_HEAD_ENABLE (bit v 32)

/-- ERR_HEAD_WRITE: space that HEAD frees takes held records, which the host may refuse (R453). -/
def execErrHeadWrite (p : Part) (v : Word) (refused : Bool) (s : State) : Out :=
  .next ((s.writeErrHead p v).drainHeld p refused)

/-- A write of ERR_RING: SIZE_LOG2 only while ENABLE is 0, and only 6 to 16 (R465). -/
def State.writeErrRing (s : State) (p : Part) (v : Word) : State :=
  let k := K.ERR_RING p
  let n := fld v 0 5
  let size := if s.rb (K.ERR_HEAD p) F.ERR_HEAD_ENABLE || n < 6 || 16 < n then s.rf k F.ERR_RING_SIZE_LOG2 else n
  (s.writeReg k false v).setRf k F.ERR_RING_SIZE_LOG2 size

/-! ## The published floor plan (R20, R521, R540, R541) -/

/-- Units left out of the plan: retired, or failed for this boot (R458, R514, R515). -/
def State.unitGone (s : State) (b c i : Nat) : Bool :=
  hasUnit s.health.retired b c i || hasUnit s.health.bootFailed b c i

/-- The bits of a mask whose units are in the plan. -/
def State.keepBits (s : State) (mask n b c : Nat) : Nat :=
  (List.range n).foldl (fun m i => if mask.testBit i && !s.unitGone b c i then m + 2 ^ i else m) 0

/-- Whether a Bench's lower or upper base die is in the plan. -/
def State.dieOk (s : State) (r : BuildRec) (b up : Nat) : Bool :=
  bit (r.benches.getD b (0, 0)).1 (1 + up) && !s.unitGone hubNo ucBaseDie (2 * b + up)

/-- FP_BENCHb word 0: a Bench without its lower base die keeps no compute-die unit (R20, R541). -/
def State.planBench0 (s : State) (r : BuildRec) (b : Nat) : Word :=
  let w := (r.benches.getD b (0, 0)).1
  let low := s.dieOk r b 0
  let up := if s.dieOk r b 1 then 1 else 0
  let k (f : Fld) (c : Nat) : Nat × Nat × Nat := (f.lo, f.w, if low && bit w 0 then s.keepBits (fld w f.lo f.w) f.w b c else 0)
  pack [(0, 1, if low then fld w 0 1 else 0), (1, 1, if low then 1 else 0), (2, 1, up),
    k F.FP_BENCH0_CUTTERS ucCutter, k F.FP_BENCH0_DRESSERS ucDresser, k F.FP_BENCH0_WEDGES ucWedge,
    k F.FP_BENCH0_SCREENS ucScreen, k F.FP_BENCH0_HAULERS ucHauler, k F.FP_BENCH0_WEIGHBRIDGE ucWeighbridge,
    k F.FP_BENCH0_STOCKPILE ucStockpile, k F.FP_BENCH0_PROOF ucProof, k F.FP_BENCH0_FOREMAN ucForeman,
    (33, 1, s.rf (K.BENCH_PWR b) F.BENCH_PWR_GATED)]

/-- FP_BENCHb word 1: the banks whose base die is in the plan (R20, R523, R541). -/
def State.planBench1 (s : State) (r : BuildRec) (b : Nat) : Word :=
  let w := (r.benches.getD b (0, 0)).2
  let m := s.keepBits w.toNat 64 b ucBank
  BitVec.ofNat 64 (if !s.dieOk r b 0 then 0 else if s.dieOk r b 1 then m else m % 2 ^ 32)

/-- Whether a port is in the plan, FAILED or not: built, its base die and its core there (R19, R20, R514, R521). -/
def State.portBuilt (s : State) (r : BuildRec) (n : Nat) : Bool :=
  r.module.getLsbD (32 + n) && !s.unitGone hubNo ucPort n && !s.unitGone hubNo ucHubCore n && s.dieOk r n 0

/-- FP_MODULE (R540): a stack needs the base die of its controller and its core and is not absent for this boot, a port its base
die and its core, and a port that is FAILED is not present. -/
def State.planModule (s : State) (r : BuildRec) (gen : Nat) : Word :=
  let stackBits := (List.range 8).foldl (fun m k =>
    if r.module.getLsbD (24 + k) && !s.unitGone hubNo ucStack k && !s.unitGone hubNo ucHubCore (16 + k) && s.dieOk r (2 * k) 0
        && !s.rb (K.BMC_STAT k) F.BMC_STAT_ABSENT
    then m + 2 ^ k else m) 0
  let ports := (List.range 16).foldl (fun m n =>
    if s.portBuilt r n && s.rf (K.FAB_PORT n) F.FAB_PORT_STATE != 4 then m + 2 ^ n else m) 0
  pack [(0, 16, gen), (16, 7, s.rowsInstalled), (24, 8, stackBits), (32, 16, ports), (48, 1, if r.order384 then 1 else 0)]

/-- Every FP register written from the build record, with a generation (R521). -/
def State.publish (s : State) (gen : Nat) : State :=
  match s.buildRec with
  | none => s
  | some r =>
    let s := (s.setReg K.FP_MODULE (s.planModule r gen)).setReg K.FP_HUBCORES
      (BitVec.ofNat 64 (s.keepBits r.hubCores.toNat 32 hubNo ucHubCore))
    (List.range 16).foldl (fun s b =>
      (s.setReg (K.FP_BENCH0 b) (s.planBench0 r b)).setReg (K.FP_BENCH1 b) (s.planBench1 r b)) s

/-- A plan that was published and has changed: GEN increments (R521). (assumption 63, DEDUCED) -/
def State.planChanged (s : State) : State :=
  let g := s.rf K.FP_MODULE F.FP_MODULE_GEN
  if g = 0 || (s.publish g).regs = s.regs then s else s.publish (g + 1)

/-! ## Fault history and retirement (R456-R458) -/

/-- The Bench whose error controller answers for a unit: its own, its port's, or its stack controller's (R19, R248, R458). -/
def unitBench (u : UnitId) : Option Bid :=
  if u.bench < 16 then some ⟨u.bench % 16, by omega⟩
  else if u.cls = ucPort then some ⟨u.index % 16, by omega⟩
  else if u.cls = ucStack then some ⟨2 * u.index % 16, by omega⟩
  else if u.cls = ucBaseDie then some ⟨u.index / 2 % 16, by omega⟩
  else none

def State.histOf (s : State) (u : UnitId) : List HistEnt :=
  match s.health.hist.find? fun e => e.1 == u with
  | some e => e.2
  | none => []

/-- A unit's history replaced by its 16 latest entries (R456). -/
def State.setHist (s : State) (u : UnitId) (l : List HistEnt) : State :=
  let l := l.drop (l.length - 16)
  { s with health := { s.health with hist := (s.health.hist.filter fun e => e.1 != u) ++ [(u, l)] } }

/-- A unit's health record. -/
def State.unitRec (s : State) (u : UnitId) (event : Nat) (syn : Word) : RecInfo :=
  ⟨if u.bench < 16 then 2 else 3, u.bench, u.cls, u.index, none, event, 0,
    (unitBench u).bind s.partOf, none, 0, 0, syn⟩

/-- The port that goes out of service with a unit: the unit itself, its link core, or the lower base die of its Bench (R19, R20). -/
def portOf (u : UnitId) : Option PortNo :=
  if u.cls = ucPort ∨ (u.cls = ucHubCore ∧ u.index < 16) then some ⟨u.index % 16, by omega⟩
  else if u.cls = ucBaseDie ∧ u.index % 2 = 0 then some ⟨u.index / 2 % 16, by omega⟩
  else none

/-- A unit leaves the plan for good, its port with it, and UNIT_RETIRED is recorded (R20, R458). -/
def State.retire (s : State) (u : UnitId) : State :=
  let s : State := { s with
    health := { s.health with pending := s.health.pending.filter (· != u), retired := s.health.retired ++ [u] } }
  let s := match portOf u with
    | some n => (s.setRf (K.FAB_PORT n) F.FAB_PORT_STATE 0).onPort n fun q => { PortSt.reset with lanes := q.lanes, outbox := q.outbox }
    | none => s
  (s.emit (s.unitRec u 0x16 2)).planChanged

/-- A unit becomes RETIRE_PENDING: recorded, and its Bench votes HALT; a unit of no partition is retired at once (R447, R458). -/
def State.pendUnit (s : State) (u : UnitId) : State :=
  if s.health.pending.contains u || s.health.retired.contains u then s
  else
    let s : State := { s with health := { s.health with pending := s.health.pending ++ [u] } }
    match unitBench u with
    | none => s.retire u
    | some b =>
      if (s.partOf b).isNone then s.retire u
      else (s.emit { s.unitRec u 0x16 1 with vote := 2 }).errVote b .halt

/-- Whether a unit of a Bench is pending retirement (R458, R464). -/
def State.benchPending (s : State) (b : Bid) : Bool := s.health.pending.any fun u => unitBench u == some b

/-- RESIDUE, CHECKSUM and PAIR_MISMATCH (R456). -/
def isCheckEvent (e : Nat) : Bool := e == 1 || e == 2 || e == 3
/-- Events that count as faults in the history; a disagreement of views is kept but does not count (R456, R462). -/
def HistEnt.counts (e : HistEnt) : Bool := e.event != 0x17
/-- Two hours within 24 operating hours. -/
def within24 (a b : Nat) : Bool := a ≤ b + 24 && b ≤ a + 24

/-- Whether an earlier entry and a new one make each other PERMANENT (R457).
(assumption 59, DEDUCED) -/
def HistEnt.repeats (o n : HistEnt) : Bool :=
  (o.event == n.event && o.step == n.step && o.attempt < n.attempt)
    || ((o.event == 0x14 || n.event == 0x14) && within24 o.hour n.hour)
    || (o.rc.isSome && o.rc == n.rc && within24 o.hour n.hour)

/-- A fault entered in its unit's history, classified, and held against the retirement policy (R456-R458). -/
def State.enterFault (s : State) (r : Rec) : State :=
  let w := r.getD 0 0
  let u : UnitId := ⟨fld w 2 5, fld w 8 6, fld w 14 12⟩
  let old := s.histOf u
  let step := fld (r.getD 3 0) 0 48
  let att := fld (r.getD 3 0) 48 4
  let event := fld w 44 8
  if isCheckEvent event && old.any fun e => isCheckEvent e.event && e.step == step && e.attempt == att then s
  else
    let e : HistEnt := ⟨event, s.pwr.hours, step, att, if bit w 42 then some (fld w 26 8, fld w 34 8) else none, event == 0x14⟩
    let e := { e with perm := e.perm || old.any fun o => o.counts && o.repeats e }
    let old := old.map fun o => if o.counts && o.repeats e then { o with perm := true } else o
    let s := s.setHist u (old ++ [e])
    let n := s.rf K.RETIRE_POLICY F.RETIRE_POLICY_RETIRE_N
    let recent := (s.histOf u).filter fun x => x.counts && s.pwr.hours ≤ x.hour + s.rf K.RETIRE_POLICY F.RETIRE_POLICY_HOURS
    if (n != 0 && n ≤ recent.length)
        || (s.rb K.RETIRE_POLICY F.RETIRE_POLICY_PERM_IMMEDIATE && (s.histOf u).any fun x => x.counts && x.perm) then s.pendUnit u
    else s

/-- A core whose own state takes an uncorrectable error raises CORE_CHECK and stops; its Bench's vote is HALT and is cast at once,
for what the core was doing is never voted on. A Foreman is HALTED; any other unit takes no work until it is reset (R443, R447,
R480). (assumption 74, DESIGN CHOICE) -/
def State.coreCheck (s : State) (c : CoreUpset) : State :=
  let u : UnitId := ⟨c.bench, c.cls, c.index⟩
  let s := s.emit { s.unitRec u 0x13 (c.syndrome.setWidth 64) with vote := 2 }
  let s : State := { s with health := { s.health with stopped := (s.health.stopped.filter (· != u)) ++ [u] } }
  if c.bench < 16 then
    let b : Bid := ⟨c.bench % 16, by omega⟩
    let s := if c.cls = ucForeman then s.onBench b fun x => { x with fm := { x.fm with st := .halted } } else s
    let s := s.errVote b .halt
    match s.partOf b with
    | some p => if (s.ctl p).live then s.castVote p b .pass else s
    | none => s
  else s

/-- FAULT_HISTORY_ENTRY: the next fault found is entered in the flash history; a core that has just failed raises its CORE_CHECK
first (R443, R456). -/
def execFaultHistoryEntry (core : Option CoreUpset) (s : State) : Out :=
  let s := match core with | some c => s.coreCheck c | none => s
  match s.health.faults with
  | [] => .next s
  | r :: rest => .next (({ s with health := { s.health with faults := rest } } : State).enterFault r)

/-- Whether every Foreman of a unit's partition is STOPPED (R458). (assumption 69, DEDUCED) -/
def State.unitAtRest (s : State) (u : UnitId) : Bool :=
  match (unitBench u).bind s.partOf with
  | none => true
  | some p => (s.benchesOf p).all fun b => (s.fm b).st == .stopped

/-- UNIT_RETIRED: a unit pending retirement is retired once its partition's Foremen are all STOPPED (R458).
(assumption 69, DEDUCED) -/
def execUnitRetired (b : Nat) (cls index : Nat) (s : State) : Out :=
  let u : UnitId := ⟨b, cls, index⟩
  .next (if s.health.pending.contains u && s.unitAtRest u then s.retire u else s)

/-! ## Proof runs (R459-R461) -/

/-- The units of a Bench that a Proof tests, as the plan has them (R459, R460). -/
def State.proofUnits (s : State) (b : Bid) : List UnitId :=
  [(ucCutter, 4), (ucDresser, 8), (ucWedge, 4), (ucScreen, 2), (ucHauler, 8), (ucWeighbridge, 1), (ucStockpile, 1),
    (ucForeman, 1), (ucProof, 1)].flatMap fun c =>
    ((List.range c.2).filter (s.planUnit b c.1)).map fun i => ⟨b.val, c.1, i⟩

/-- The cores of the Hub in the plan, which a Proof tests too (R459, R460, R540). -/
def State.proofCores (s : State) : List UnitId :=
  ((List.range 32).filter fun i => (s.reg K.FP_HUBCORES).getLsbD i).map fun i => ⟨hubNo, ucHubCore, i⟩

/-- A Proof requested, once per unit: a request that must begin at once, or decides between two views, makes one that waits do so
(R460, R462). -/
def State.askProof (s : State) (r : ProofReq) : State :=
  let h := s.health
  if h.proofs.any fun x => x.u == r.u then
    { s with health := { h with
        proofs := h.proofs.map fun x =>
          if x.u = r.u then { x with late := x.late || r.late, views := x.views || r.views } else x } }
  else { s with health := { h with proofs := h.proofs ++ [r] } }

def State.onProof (s : State) (u : UnitId) (f : ProofReq → ProofReq) : State :=
  { s with health := { s.health with proofs := s.health.proofs.map fun r => if r.u = u then f r else r } }
def State.proofOf (s : State) (u : UnitId) : Option ProofReq := s.health.proofs.find? fun r => r.u == u

/-- PROOF_PERIODIC_TIMER: with INTERVAL set, a Proof of every unit becomes pending (R460).
(assumption 69, DEDUCED) -/
def execProofPeriodicTimer (s : State) : Out :=
  if s.rf K.PROOF_POLICY F.PROOF_POLICY_INTERVAL = 0 then .next s
  else
    let s := allBids.foldl (fun s b =>
      (s.proofUnits b).foldl (fun s u => s.askProof ⟨u, s.partOf b, false, false, false⟩) s) s
    .next (s.proofCores.foldl (fun s u => s.askProof ⟨u, none, false, false, false⟩) s)

/-- The queue of a unit class. -/
def ucQueueOf (c : Nat) : Option (Fin 8) :=
  if c = ucHauler then some 1 else if c = ucCutter then some 2 else if c = ucDresser then some 3 else if c = ucWedge then some 4
  else if c = ucScreen then some 5 else if c = ucWeighbridge then some 6 else if c = ucStockpile then some 7 else none

/-- The arrays an instruction's job occupies. -/
def State.arrayBusy (s : State) (b : Bid) (c i : Nat) : Bool :=
  (List.finRange 12).any fun u =>
    let own := if c = ucCutter then u.val == i else u.val == i + 4
    let even := if c = ucCutter then u.val + 1 == i else u.val + 1 == i + 4
    (s.arr b u).jobs.any fun j => own || (even && j.pair && i % 2 == 1)

/-- Whether an instruction of a queue uses a unit: it names it, or in PAIR mode the even array whose partner it is (R445, R460). -/
def State.uses (s : State) (b : Bid) (q : Fin 8) (e : Entry) (i : Nat) : Bool :=
  let paired := (q == 2 || q == 3) && i % 2 == 1 && (s.pairMode b || (s.queue b q).any fun x => x == .modeSwitch true)
  e.names q == some i || (paired && e.names q == some (i - 1))

/-- Whether an instruction is in progress on a unit. A core of the Hub runs none. -/
def State.unitWorks (s : State) (b : Bid) (c i : Nat) : Bool :=
  match ucQueueOf c with
  | none => c == ucForeman && decide ((s.fm b).st ≠ FmState.stopped)
  | some q =>
    if q = 2 ∨ q = 3 then s.arrayBusy b c i
    else if q = 6 then !(s.wgh b).buckets.isEmpty
    else (s.bench b).busy q i

/-- Whether a queued instruction names a unit. -/
def State.unitNamed (s : State) (b : Bid) (c i : Nat) : Bool :=
  match ucQueueOf c with
  | none => false
  | some q => (s.assignedQueue b q).any fun x => match x with | .instr e => s.uses b q e i | _ => false

/-- Whether an instruction that nothing holds back in its queue names a unit. -/
def State.headNames (s : State) (b : Bid) (c i : Nat) : Bool :=
  match ucQueueOf c with
  | none => false
  | some q => (openItems (s.assignedQueue b q)).any fun e => s.uses b q e i

def bidOf (b : Nat) : Bid := ⟨b % 16, by omega⟩

/-- A Bench that runs no Proof: it is gated, or its Proof core has stopped (R443, R461). -/
def State.proofBlocked (s : State) (b : Bid) : Bool := s.rb (K.BENCH_PWR b) F.BENCH_PWR_GATED || s.coreStopped b ucProof 0

/-- PROOF_START: a pending Proof begins in an idle slot of its unit, or on a unit held for it; a gated Bench is not tested (R460,
R461). -/
def execProofStart (b : Nat) (cls index : Nat) (s : State) : Out :=
  let u : UnitId := ⟨b, cls, index⟩
  match s.proofOf u with
  | none => .next s
  | some r =>
    if r.running || (b < 16 && (s.proofBlocked (bidOf b) || s.unitWorks (bidOf b) cls index
        || (!r.late && s.unitNamed (bidOf b) cls index))) then .next s
    else .next (s.onProof u fun r => { r with running := true })

/-- PROOF_YIELD: an instruction that names the unit has come to the head of its queue, and the Proof stops to be retried; one
past its deadline does not (R460, R461). -/
def execProofYield (b : Nat) (cls index : Nat) (s : State) : Out :=
  .next (if s.headNames (bidOf b) cls index then
    s.onProof ⟨b, cls, index⟩ fun r => if r.late then r else { r with running := false } else s)

/-- PROOF_PREEMPT: past DEADLINE the unit is held: no instruction begins on it, and the Proof runs once the one in progress has
completed (R461). -/
def execProofPreempt (b : Nat) (cls index : Nat) (s : State) : Out :=
  .next (if b < 16 && s.proofBlocked (bidOf b) then s
    else s.onProof ⟨b, cls, index⟩ fun r =>
      { r with late := true, running := r.running || 16 ≤ b || !s.unitWorks (bidOf b) cls index })

/-- The event vector of a partition with a sticky bit of a register set. -/
def State.proofStat (s : State) (p : Option Part) (f : Fld) : State :=
  match p with
  | some p => s.setRb (K.PROOF_STAT p) f true
  | none => s

/-- A unit leaves both views, or both views take it back (R462). (assumption 69, DEDUCED) -/
def State.settleView (s : State) (u : UnitId) (ok : Bool) : State :=
  let s := match unitBench u with | some b => s.assignAll b | none => s
  let m := s.health.mgmtFailed.filter (· != u)
  let v := s.health.benchFailed.filter (· != u)
  { s with health := { s.health with
      mgmtFailed := if ok then m else m ++ [u], benchFailed := if ok then v else v ++ [u] } }

/-- Both views, as a VIEW_DISAGREE record lays them out, and their place in the history (R451, R462). -/
def State.viewSyn (s : State) (u : UnitId) : Word :=
  pack [(0, 1, if s.health.mgmtFailed.contains u then 0 else 1), (1, 1, if s.health.benchFailed.contains u then 0 else 1)]
def State.viewHist (s : State) (u : UnitId) : State :=
  s.setHist u (s.histOf u ++ [⟨0x17, s.pwr.hours, 0, 0, none, false⟩])

/-- A Bench's array of a unit, numbered C0 to C3, then D0 to D7 (R544). -/
def arrayNo (c i : Nat) : Option Nat := if c = ucCutter then some (i % 4) else if c = ucDresser then some (4 + i % 8) else none

/-- Whether an array can serve a Proof of another: it is of the same class, in service, and in an idle slot (R459, R460). -/
def State.proofPeer (s : State) (u : UnitId) (x : Nat × Nat × Nat) : Bool :=
  x.1 < 16 && x.2.1 == u.cls && (⟨x.1, x.2.1, x.2.2⟩ : UnitId) != u && s.present (bidOf x.1) x.2.1 x.2.2
    && !s.unitWorks (bidOf x.1) x.2.1 x.2.2 && !s.unitNamed (bidOf x.1) x.2.1 x.2.2

/-- Whether an array besides a unit and its reference can decide between them (R459). -/
def State.proofThird (s : State) (u : UnitId) (x : Nat × Nat × Nat) : Bool :=
  allBids.any fun b => (List.range 8).any fun i => (b.val, u.cls, i) != x && s.proofPeer u (b.val, u.cls, i)

/-- What a Proof finds: its units that fail, and the XOR of the two signatures that differ; none while an array has no reference
array, or lacks the signature of a third that is there to decide. A core's signature is held against the one its firmware carries.
Of two arrays that differ, the one whose signature a third does not share fails; both fail where no third is available, and where no
two agree (R459). (assumption 69, DEDUCED) -/
def State.proofResult (s : State) (u : UnitId) (run : ProofRun) : Option (List UnitId × Word) :=
  let unit (x : Nat × Nat × Nat) : UnitId := ⟨x.1, x.2.1, x.2.2⟩
  if (arrayNo u.cls u.index).isNone then some (if run.own = 0 then [] else [u], run.own)
  else
    match run.ref.filter fun x => s.proofPeer u x.1 with
    | none => none
    | some (x, d) =>
      let syn := run.own ^^^ d
      if syn = 0 then some ([], 0)
      else
        match run.third.filter fun y => y.1 != x && s.proofPeer u y.1 with
        | some (_, t) => some (if t = run.own then [unit x] else if t = d then [u] else [u, unit x], syn)
        | none => if s.proofThird u x then none else some ([u, unit x], syn)

/-- A unit as one number. -/
def UnitId.no (u : UnitId) : Nat := (u.bench * 64 + u.cls) * 4096 + u.index

/-- PROOF_COMPLETE: the Proof ends, and its hour is kept; each unit whose signature disagreed records PROOF_FAIL, a preemption is
recorded and signalled, and a disagreement of views is resolved (R451, R459, R461, R462, R467). (assumption 69, DEDUCED) -/
def execProofComplete (b : Nat) (cls index : Nat) (run : ProofRun) (s : State) : Out :=
  let u : UnitId := ⟨b, cls, index⟩
  match s.proofOf u, s.proofResult u run with
  | some r, some (failed, syn) =>
    if !r.running then .next s
    else
      let h := s.health
      let s : State := { s with health := { h with
        proofs := h.proofs.filter fun x => x.u != u
        proofDone := tput h.proofDone u.no s.pwr.hours } }
      let s := if 16 ≤ b then s else match arrayNo cls index with
        | some n => s.countB (bidOf b) (216 + n) 1
        | none => s.countB (bidOf b) 228 1
      let s := match r.part with
        | some p => s.setRf (K.PROOF_STAT p) F.PROOF_STAT_DONE (Nat.min (s.rf (K.PROOF_STAT p) F.PROOF_STAT_DONE + 1) 65535)
        | none => s
      let s := failed.foldl (fun (s : State) x =>
        (s.emit (s.unitRec x 0x14 syn)).proofStat ((unitBench x).bind s.partOf) F.PROOF_STAT_FAILED) s
      let s :=
        if r.late then
          let (f, s) := s.drawWord
          let s := s.emit (s.unitRec u 0x15 f)
          let s := if 16 ≤ b then s else
            match arrayNo cls index with | some n => s.countB (bidOf b) (229 + n) 1 | none => s
          let s := s.proofStat r.part F.PROOF_STAT_PREEMPTED
          match r.part with | some p => s.raise p (eventVec p) | none => s
        else s
      .next (if r.views then (s.settleView u (!failed.contains u)).viewHist u else s)
  | _, _ => .next s

/-- VIEW_DISAGREE: one of the two views takes a unit as failed; it is held failed, recorded, and a Proof is requested at once
(R462). (assumption 59, DEDUCED) -/
def execViewDisagree (b : Nat) (cls index : Nat) (mgmtFailed : Bool) (s : State) : Out :=
  let u : UnitId := ⟨b, cls, index⟩
  let s := match unitBench u with | some b => s.assignAll b | none => s
  let h := s.health
  let s : State := { s with health :=
    if mgmtFailed then { h with mgmtFailed := (h.mgmtFailed.filter (· != u)) ++ [u] }
    else { h with benchFailed := (h.benchFailed.filter (· != u)) ++ [u] } }
  if s.health.mgmtFailed.contains u = s.health.benchFailed.contains u then .next s
  else
    let s := (s.emit (s.unitRec u 0x17 (s.viewSyn u))).viewHist u
    .next (s.askProof ⟨u, (unitBench u).bind s.partOf, false, true, true⟩)

end Sys2Proof.Machine
end

