-- ==== Sys2Proof/Machine/Foreman.lean ====
section
/-!
DEFINITION. The Foreman's own instructions but for its memory accesses: arithmetic, compares, predicates, immediates,
descriptor-register moves, the arrival of pending values, branches, END, markers and draining (spec 11 R315-R322;
10 R296-R298).
-/

namespace Sys2Proof.Machine

/-! ## Shared forms -/

/-- s[RD] := f(s[RA], s[RB]), usable by the next instruction (R316). -/
def alu (f : Word → Word → Word) (rd ra rb : BitVec 5) : Fm → State → Disp :=
  waitS [ra, rb, rd] fun c s => .done (s.onFm c.b fun x => x.setS rd (f (x.getS ra) (x.getS rb)))

/-- A result that arrives later: s[RD] is pending with its value (R316, R319); s0 takes none. -/
def State.pendWrite (s : State) (b : Bid) (rd : BitVec 5) (v : Word) : State :=
  s.onFm b fun x => if rd = 0 then x else { x with pend := x.pend ++ [.s rd v] }

/-- s[RD] := f(s[RA], s[RB]), pending (R316, R319). -/
def aluLate (f : Word → Word → Word) (rd ra rb : BitVec 5) : Fm → State → Disp :=
  waitS [ra, rb, rd] fun c s => .done (s.pendWrite c.b rd (f ((s.fm c.b).getS ra) ((s.fm c.b).getS rb)))

/-- s[RD] := f(s[RA], imm) (R318). -/
def aluImm (f : Word → Word) (rd ra : BitVec 5) : Fm → State → Disp :=
  waitS [ra, rd] fun c s => .done (s.onFm c.b fun x => x.setS rd (f (x.getS ra)))

/-- p[RD] := f(s[RA], s[RB]) (R317). -/
def cmp (f : Word → Word → Bool) (pd : BitVec 3) (ra rb : BitVec 5) : Fm → State → Disp :=
  waitS [ra, rb] fun c s => .done (s.onFm c.b fun x => x.setP pd (f (x.getS ra) (x.getS rb)))

/-- p[RD] := f(p[RA], p[RB]) (R317). -/
def plog (f : Bool → Bool → Bool) (pd pa pb : BitVec 3) (c : Fm) (s : State) : Disp :=
  .done (s.onFm c.b fun x => x.setP pd (f (x.getP pa) (x.getP pb)))

/-- The 39-bit immediate, sign-extended (R318). -/
def imm39 (i : BitVec 39) : Word := i.signExtend 64
/-- Low six bits of a shift register (R316). -/
def sh6 (v : Word) : Nat := v.toNat % 64

def opAlu : BitVec 10 := opcodeOf 0 0x01
def opCmp : BitVec 10 := opcodeOf 0 0x02
def opPlog : BitVec 10 := opcodeOf 0 0x03

/-! ## NOP -/

/-- NOP changes nothing but the fetch (R315). -/
def execNop (h : Issue) (s : State) : Out := issue h 1 (opcodeOf 0 0) (fun _ s => .done s) s

/-! ## Arithmetic (R316) -/

/-- ADD: the sum modulo 2^64 (R316). -/
def execAdd (h : Issue) (rd ra rb : BitVec 5) (s : State) : Out :=
  issue h 1 opAlu (alu (fun a b => a + b) rd ra rb) s

/-- SUB: the difference modulo 2^64 (R316). -/
def execSub (h : Issue) (rd ra rb : BitVec 5) (s : State) : Out :=
  issue h 1 opAlu (alu (fun a b => a - b) rd ra rb) s

/-- AND: the bitwise and (R316). -/
def execAnd (h : Issue) (rd ra rb : BitVec 5) (s : State) : Out :=
  issue h 1 opAlu (alu (fun a b => a &&& b) rd ra rb) s

/-- OR: the bitwise or (R316). -/
def execOr (h : Issue) (rd ra rb : BitVec 5) (s : State) : Out :=
  issue h 1 opAlu (alu (fun a b => a ||| b) rd ra rb) s

/-- XOR: the bitwise exclusive or (R316). -/
def execXor (h : Issue) (rd ra rb : BitVec 5) (s : State) : Out :=
  issue h 1 opAlu (alu (fun a b => a ^^^ b) rd ra rb) s

/-- SHL: a shift left by s[RB][5:0] (R316). -/
def execShl (h : Issue) (rd ra rb : BitVec 5) (s : State) : Out :=
  issue h 1 opAlu (alu (fun a b => a <<< sh6 b) rd ra rb) s

/-- SHR: a logical shift right by s[RB][5:0] (R316). -/
def execShr (h : Issue) (rd ra rb : BitVec 5) (s : State) : Out :=
  issue h 1 opAlu (alu (fun a b => a >>> sh6 b) rd ra rb) s

/-- SAR: an arithmetic shift right by s[RB][5:0] (R316). -/
def execSar (h : Issue) (rd ra rb : BitVec 5) (s : State) : Out :=
  issue h 1 opAlu (alu (fun a b => a.sshiftRight (sh6 b)) rd ra rb) s

/-- MUL: the low 64 bits of the product, arriving later (R316). -/
def execMul (h : Issue) (rd ra rb : BitVec 5) (s : State) : Out :=
  issue h 1 opAlu (aluLate (fun a b => a * b) rd ra rb) s

/-- MULHU: the high 64 bits of the unsigned product, arriving later (R316). -/
def execMulhu (h : Issue) (rd ra rb : BitVec 5) (s : State) : Out :=
  issue h 1 opAlu (aluLate (fun a b => BitVec.ofNat 64 (a.toNat * b.toNat / 2 ^ 64)) rd ra rb) s

/-- MIN: the signed minimum (R316). -/
def execMin (h : Issue) (rd ra rb : BitVec 5) (s : State) : Out :=
  issue h 1 opAlu (alu (fun a b => if a.toInt < b.toInt then a else b) rd ra rb) s

/-- MINU: the unsigned minimum (R316). -/
def execMinu (h : Issue) (rd ra rb : BitVec 5) (s : State) : Out :=
  issue h 1 opAlu (alu (fun a b => if a.toNat < b.toNat then a else b) rd ra rb) s

/-- MAX: the signed maximum (R316). -/
def execMax (h : Issue) (rd ra rb : BitVec 5) (s : State) : Out :=
  issue h 1 opAlu (alu (fun a b => if a.toInt < b.toInt then b else a) rd ra rb) s

/-- MAXU: the unsigned maximum (R316). -/
def execMaxu (h : Issue) (rd ra rb : BitVec 5) (s : State) : Out :=
  issue h 1 opAlu (alu (fun a b => if a.toNat < b.toNat then b else a) rd ra rb) s

/-- DIVU: the unsigned quotient, all ones for a zero divisor, arriving later (R316). -/
def execDivu (h : Issue) (rd ra rb : BitVec 5) (s : State) : Out :=
  issue h 1 opAlu (aluLate (fun a b => if b = 0 then BitVec.allOnes 64 else BitVec.ofNat 64 (a.toNat / b.toNat)) rd ra rb) s

/-- REMU: the unsigned remainder, s[RA] for a zero divisor, arriving later (R316). -/
def execRemu (h : Issue) (rd ra rb : BitVec 5) (s : State) : Out :=
  issue h 1 opAlu (aluLate (fun a b => if b = 0 then a else BitVec.ofNat 64 (a.toNat % b.toNat)) rd ra rb) s

/-! ## Compares and predicate logic (R317) -/

/-- CEQ: equal (R317). -/
def execCeq (h : Issue) (pd : BitVec 3) (ra rb : BitVec 5) (s : State) : Out :=
  issue h 1 opCmp (cmp (fun a b => a == b) pd ra rb) s

/-- CNE: not equal (R317). -/
def execCne (h : Issue) (pd : BitVec 3) (ra rb : BitVec 5) (s : State) : Out :=
  issue h 1 opCmp (cmp (fun a b => a != b) pd ra rb) s

/-- CLT: signed less (R317). -/
def execClt (h : Issue) (pd : BitVec 3) (ra rb : BitVec 5) (s : State) : Out :=
  issue h 1 opCmp (cmp (fun a b => decide (a.toInt < b.toInt)) pd ra rb) s

/-- CLTU: unsigned less (R317). -/
def execCltu (h : Issue) (pd : BitVec 3) (ra rb : BitVec 5) (s : State) : Out :=
  issue h 1 opCmp (cmp (fun a b => decide (a.toNat < b.toNat)) pd ra rb) s

/-- CGE: signed greater or equal (R317). -/
def execCge (h : Issue) (pd : BitVec 3) (ra rb : BitVec 5) (s : State) : Out :=
  issue h 1 opCmp (cmp (fun a b => decide (b.toInt ≤ a.toInt)) pd ra rb) s

/-- CGEU: unsigned greater or equal (R317). -/
def execCgeu (h : Issue) (pd : BitVec 3) (ra rb : BitVec 5) (s : State) : Out :=
  issue h 1 opCmp (cmp (fun a b => decide (b.toNat ≤ a.toNat)) pd ra rb) s

/-- PAND (R317). -/
def execPand (h : Issue) (pd pa pb : BitVec 3) (s : State) : Out :=
  issue h 1 opPlog (plog (fun a b => a && b) pd pa pb) s

/-- POR (R317). -/
def execPor (h : Issue) (pd pa pb : BitVec 3) (s : State) : Out :=
  issue h 1 opPlog (plog (fun a b => a || b) pd pa pb) s

/-- PXOR (R317). -/
def execPxor (h : Issue) (pd pa pb : BitVec 3) (s : State) : Out :=
  issue h 1 opPlog (plog (fun a b => a != b) pd pa pb) s

/-- PANDN (R317). -/
def execPandn (h : Issue) (pd pa pb : BitVec 3) (s : State) : Out :=
  issue h 1 opPlog (plog (fun a b => a && !b) pd pa pb) s

/-! ## Immediates (R318) -/

/-- ADDI: with the sign-extended immediate (R318). -/
def execAddi (h : Issue) (rd ra : BitVec 5) (imm : BitVec 39) (s : State) : Out :=
  issue h 1 (opcodeOf 0 8) (aluImm (fun a => a + imm39 imm) rd ra) s

/-- ANDI: with the sign-extended immediate (R318). -/
def execAndi (h : Issue) (rd ra : BitVec 5) (imm : BitVec 39) (s : State) : Out :=
  issue h 1 (opcodeOf 0 9) (aluImm (fun a => a &&& imm39 imm) rd ra) s

/-- ORI: with the sign-extended immediate (R318). -/
def execOri (h : Issue) (rd ra : BitVec 5) (imm : BitVec 39) (s : State) : Out :=
  issue h 1 (opcodeOf 0 10) (aluImm (fun a => a ||| imm39 imm) rd ra) s

/-- XORI: with the sign-extended immediate (R318). -/
def execXori (h : Issue) (rd ra : BitVec 5) (imm : BitVec 39) (s : State) : Out :=
  issue h 1 (opcodeOf 0 11) (aluImm (fun a => a ^^^ imm39 imm) rd ra) s

/-- SHLI: a shift by imm[5:0] (R318). -/
def execShli (h : Issue) (rd ra : BitVec 5) (imm : BitVec 6) (s : State) : Out :=
  issue h 1 (opcodeOf 0 12) (aluImm (fun a => a <<< imm.toNat) rd ra) s

/-- SHRI: a shift by imm[5:0] (R318). -/
def execShri (h : Issue) (rd ra : BitVec 5) (imm : BitVec 6) (s : State) : Out :=
  issue h 1 (opcodeOf 0 13) (aluImm (fun a => a >>> imm.toNat) rd ra) s

/-- SARI: a shift by imm[5:0] (R318). -/
def execSari (h : Issue) (rd ra : BitVec 5) (imm : BitVec 6) (s : State) : Out :=
  issue h 1 (opcodeOf 0 14) (aluImm (fun a => a.sshiftRight imm.toNat) rd ra) s

/-- MULI: the low 64 bits of the product with the immediate, with MUL's latency (R318). -/
def execMuli (h : Issue) (rd ra : BitVec 5) (imm : BitVec 39) (s : State) : Out :=
  issue h 1 (opcodeOf 0 15) (aluLate (fun a _ => a * imm39 imm) rd ra 0) s

/-- CEQI (R318). -/
def execCeqi (h : Issue) (pd : BitVec 3) (ra : BitVec 5) (imm : BitVec 39) (s : State) : Out :=
  issue h 1 (opcodeOf 0 16) (cmp (fun a _ => a == imm39 imm) pd ra 0) s

/-- CLTI (R318). -/
def execClti (h : Issue) (pd : BitVec 3) (ra : BitVec 5) (imm : BitVec 39) (s : State) : Out :=
  issue h 1 (opcodeOf 0 17) (cmp (fun a _ => decide (a.toInt < (imm39 imm).toInt)) pd ra 0) s

/-- CLTUI (R318). -/
def execCltui (h : Issue) (pd : BitVec 3) (ra : BitVec 5) (imm : BitVec 39) (s : State) : Out :=
  issue h 1 (opcodeOf 0 18) (cmp (fun a _ => decide (a.toNat < (imm39 imm).toNat)) pd ra 0) s

/-- IMM64: s[RD] := the extension word (R318). -/
def execImm64 (h : Issue) (rd : BitVec 5) (imm : Word) (s : State) : Out :=
  issue h 2 (opcodeOf 0 19) (aluImm (fun _ => imm) rd 0) s

/-! ## Descriptor registers (R321) -/

/-- A body that waits for descriptor registers first (R319). -/
def waitT (ts : List (BitVec 4)) (body : Fm → State → Disp) (c : Fm) (s : State) : Disp :=
  if ts.any fun r => (s.fm c.b).pendT r then .stall else body c s

/-- Word w of a descriptor register replaced. -/
def setDescWord (d : Desc) (w : Nat) (v : Word) : Desc :=
  (d &&& ~~~ (((BitVec.allOnes 64).setWidth 512) <<< (64 * w))) ||| ((v.setWidth 512) <<< (64 * w))

/-- Word w of a descriptor register. -/
def getDescWord (d : Desc) (w : Nat) : Word := BitVec.ofNat 64 (descWord d w)

/-- TMOV: t[RD] := t[RA] (R321). -/
def execTmov (h : Issue) (td ta : BitVec 4) (s : State) : Out :=
  issue h 1 (opcodeOf 0 0x04)
    (waitT [td, ta] fun c s => .done (s.onFm c.b fun x => x.setT td (x.getT ta))) s

/-- TSET: word FUNC[2:0] of t[RD] := s[RA] (R321). -/
def execTset (h : Issue) (td : BitVec 4) (ra : BitVec 5) (w : BitVec 3) (s : State) : Out :=
  issue h 1 (opcodeOf 0 0x05)
    (waitT [td] (waitS [ra] fun c s =>
      .done (s.onFm c.b fun x => x.setT td (setDescWord (x.getT td) w.toNat (x.getS ra))))) s

/-- TGET: s[RD] := word FUNC[2:0] of t[RA] (R321). -/
def execTget (h : Issue) (rd : BitVec 5) (ta : BitVec 4) (w : BitVec 3) (s : State) : Out :=
  issue h 1 (opcodeOf 0 0x06)
    (waitT [ta] (waitS [rd] fun c s =>
      .done (s.onFm c.b fun x => x.setS rd (getDescWord (x.getT ta) w.toNat)))) s

/-! ## Pending values (R319) -/

/-- The pending value of a register leaves the list, oldest first. -/
def takePend : List Pend → Bool → BitVec 5 → Option (Pend × List Pend)
  | [], _, _ => none
  | e :: rest, desc, r =>
    let hit := match e with
      | .s q _ => !desc && q == r
      | .t q _ => desc && q.setWidth 5 == r
    if hit then some (e, rest) else (takePend rest desc r).map fun x => (x.1, e :: x.2)

/-- PENDING_VALUE_ARRIVES: the value that a load, multiply or divide left pending arrives in its register (R277, R319). -/
def execPendingValueArrives (b : Bid) (desc : Bool) (r : BitVec 5) (s : State) : Out :=
  match takePend (s.fm b).pend desc r with
  | none => .next s
  | some (e, rest) =>
    .next (s.onFm b fun f =>
      let f := { f with pend := rest }
      match e with
      | .s q v => f.setS q v
      | .t q v => f.setT q v)

/-! ## Branches and END (R322) -/

/-- The target pc + OFF of a direct branch, OFF sign-extended (R322). -/
def branchTarget (pc : BitVec 15) (off : BitVec 20) : Int := (pc.toNat : Int) + off.toInt

/-- BR: fetch continues at pc + OFF (R322). -/
def execBr (h : Issue) (off : BitVec 20) (s : State) : Out :=
  issue h 1 (opcodeOf 0 0x20) (fun c s => .jump s (branchTarget c.op.pc off)) s

/-- The link of CALL and CALLR: s31 := pc + 1 (R322). -/
def State.link (s : State) (c : Fm) : State :=
  s.onFm c.b fun x => x.setS 31 (BitVec.ofNat 64 (c.op.pc.toNat + 1))

/-- CALL: s31 := pc + 1, then fetch continues at pc + OFF (R322). -/
def execCall (h : Issue) (off : BitVec 20) (s : State) : Out :=
  issue h 1 (opcodeOf 0 0x21) (waitS [31] fun c s => .jump (s.link c) (branchTarget c.op.pc off)) s

/-- JR: fetch continues at s[RA] (R322). -/
def execJr (h : Issue) (ra : BitVec 5) (s : State) : Out :=
  issue h 1 (opcodeOf 0 0x22) (waitS [ra] fun c s => .jump s (((s.fm c.b).getS ra).toNat : Int)) s

/-- CALLR: fetch continues at s[RA] as read before the link is written (R322). -/
def execCallr (h : Issue) (ra : BitVec 5) (s : State) : Out :=
  issue h 1 (opcodeOf 0 0x23) (waitS [ra, 31] fun c s => .jump (s.link c) (((s.fm c.b).getS ra).toNat : Int)) s

/-- END: the Foreman enters DRAINING (R298, R322). -/
def execEnd (h : Issue) (s : State) : Out :=
  issue h 1 (opcodeOf 0 0x24)
    (fun c s => .done (s.onFm c.b fun x => { x with st := .draining, ending := true })) s

/-- Whether a Bench has any dispatched instruction, signal, fence, gate or vote outstanding. -/
def Bench.idle (x : Bench) : Bool :=
  ((List.finRange 8).all fun q => (x.outstanding q).isEmpty && x.q[q].isEmpty)
    && x.fm.sigs.isEmpty && x.fm.fences.isEmpty && x.fm.gates.isEmpty && x.fm.voteReq.isNone && x.fm.parked.isNone

/-- A partition's barrier counts and BAR_GEN cleared once every Foreman of it is STOPPED (R481). -/
def State.barsRest (s : State) (b : Bid) : State :=
  match s.partOf b with
  | none => s
  | some p =>
    if (s.benchesOf p).all fun x => (s.fm x).st == .stopped then
      (s.onBar p fun _ => Barrier.reset).resetRegs (K.BAR_GEN p 0) (K.BAR_GEN p 16)
    else s

/-- FOREMAN_DRAIN_COMPLETE: a DRAINING Foreman whose dispatched instructions have all completed enters STOPPED; ENDED says
whether END brought it there (R298, R305). -/
def execForemanDrainComplete (b : Bid) (s : State) : Out :=
  if (s.fm b).st = .draining ∧ (s.bench b).idle then
    let s' := (s.onFm b fun x => { x with st := .stopped, ending := false }).setRb (K.FM_STAT b) F.FM_STAT_ENDED (s.fm b).ending
    .next (s'.barsRest b)
  else .next s

/-! ## Range markers (R296, R297) -/

/-- MARK.BEGIN: pushes its identifier; on a full stack it faults; with JOB at 0 it does nothing (R296, R297, R335). -/
def execMarkBegin (h : Issue) (id : BitVec 32) (s : State) : Out :=
  issue h 2 (opcodeOf 0xA 0x01)
    (fun c s =>
      if !s.rb (K.FM_CTL c.b) F.FM_CTL_JOB then .done s
      else if 8 ≤ (s.fm c.b).marks.length then .fault .markSequence
      else .marked (s.onFm c.b fun x => { x with marks := id :: x.marks }) id) s

/-- MARK.END: pops the marker stack; on an empty stack it faults; with JOB at 0 it does nothing (R296, R297, R335). -/
def execMarkEnd (h : Issue) (s : State) : Out :=
  issue h 1 (opcodeOf 0xA 0x02)
    (fun c s =>
      if !s.rb (K.FM_CTL c.b) F.FM_CTL_JOB then .done s
      else if (s.fm c.b).marks.isEmpty then .fault .markSequence
      else .marked (s.onFm c.b fun x => { x with marks := x.marks.tail }) ((s.fm c.b).marks.headD 0)) s

end Sys2Proof.Machine
end

