-- ==== Sys2Proof/Machine/Sync.lean ====
section
/-!
DEFINITION. Fences, signals, waits and barriers; the start, stop and clearing of a Foreman, its instruction memory and
program loads; program faults found outside an instruction's own check (spec 10 R269, R270, R281-R291, R298-R301,
R303; 11 R334, R335; 12 R351).
-/

namespace Sys2Proof.Machine

/-! ## Fences (R270, R285) -/

/-- Numbers of the outstanding fences. -/
def Foreman.fenceIds (f : Foreman) : List Nat := f.fences.map fun e => e.id

/-- Whether the fence whose retirement a ninth SYNC.FENCE waits for is still outstanding (R285). -/
def Foreman.ninthWaits (f : Foreman) : Bool :=
  match f.ninth with
  | some o => f.fenceIds.contains o
  | none => false

/-- SYNC.FENCE: it covers the outstanding instructions of the queues COVER names and places its gates; a ninth
outstanding fence stalls until the oldest retires, and one on a full queue stalls (R279, R285). Foreman stores are performed as
they issue, so bit 0 of COVER covers none outstanding. -/
def execSyncFence (h : Issue) (cover gate : BitVec 8) (s : State) : Out :=
  let f := s.fm h.bench
  if s.canIssue h.bench && f.guard h && !f.ninthWaits && 8 ≤ f.fences.length then
    .next (s.onFm h.bench fun x => { x with ninth := f.fenceIds.head? })
  else issue h 1 (opcodeOf 8 1)
    (fun c s =>
      let f := s.fm c.b
      if f.ninthWaits || 8 ≤ f.fences.length || !s.gateRoom c.b gate then .stall
      else
        let id := f.nextId
        let s := s.onFm c.b fun x => { x with
          nextId := id + 1
          ninth := none
          fences := x.fences ++ [⟨id, (s.bench c.b).covered cover, c.op.pc, c.op.mark⟩] }
        .later (if gate = 0 then s else s.placeGate c (.fence id) gate 0)) s

/-- Gates of a Bench of some kind opened. -/
def State.openGates (s : State) (b : Bid) (want : GateKind → Bool) : State :=
  ((s.fm b).gates.filter fun g => want g.kind).foldl (fun s g => s.openGate b g.id) s

/-- FENCE_RETIRE: a fence whose covered instructions have completed retires, counted and traced; its gates open, and signals and
votes wait for it no longer (R269, R270, R285, R544, R549). -/
def execFenceRetire (b : Bid) (s : State) : Out :=
  match (s.fm b).fences.find? fun e => e.covers.isEmpty with
  | none => .next s
  | some e =>
    let s := s.onFm b fun f =>
      { f with
        fences := f.fences.filter fun x => x.id != e.id
        sigs := f.sigs.map fun g => { g with after := g.after.filter (· != e.id) }
        voteReq := f.voteReq.map fun v => { v with after := v.after.filter (· != e.id) } }
    .next ((s.openGates b fun k => k == .fence e.id).retireOp b true ⟨opcodeOf 8 1, e.pc, e.mark⟩)

/-! ## Signals (R269, R282, R283) -/

/-- The signal image of R282. -/
def signalImage (value : Word) (step : Nat) (bench : Nat) : Line16 :=
  BitVec.ofNat 128 (value.toNat + (step % 2 ^ 48) <<< 64 + bench <<< 112)

/-- A signal or wait address: 16-byte aligned, in the Bench SRAM of the partition (R282, R284). -/
def State.sigAddr (s : State) (p : Part) (a : Word) : Option FCode :=
  if a.toNat % 16 ≠ 0 then some .addrAlign
  else if inSram a.toNat && s.owns p (benchOf a.toNat) then none else some .addrUnmapped

/-- A signal put into the buffer of 8 entries; the Foreman stalls while it is full (R283). -/
def State.pushSig (s : State) (c : Fm) (k : SigKind) : State :=
  s.onFm c.b fun f => { f with sigs := f.sigs ++ [⟨k, c.part, f.fenceIds, c.op.pc, c.op.mark⟩] }

/-- SYNC.SIG in one of its modes (R282, R283, R335). -/
def signalOp (mode : BitVec 2) (ra rb : BitVec 5) : Fm → State → Disp :=
  waitS [ra, rb] fun c s =>
    let f := s.fm c.b
    let a := f.getS ra
    match s.sigAddr c.part a with
    | some code => .fault code
    | none =>
      if 8 ≤ f.sigs.length then .stall
      else
        let image := signalImage (f.getS rb) (s.rf (K.STEP_STATE c.b) F.STEP_STATE_STEP) c.b.val
        .done (s.pushSig c (.sig mode a.toNat image))

/-- SET: SYNC.SIG SET (R282). -/
def execSet (h : Issue) (ra rb : BitVec 5) (s : State) : Out := issue h 1 (opcodeOf 8 2) (signalOp 0 ra rb) s

/-- SIG_ADD: SYNC.SIG ADD (R282). -/
def execSigAdd (h : Issue) (ra rb : BitVec 5) (s : State) : Out := issue h 1 (opcodeOf 8 2) (signalOp 1 ra rb) s

/-- CLEAR: SYNC.SIG CLEAR (R282). -/
def execClear (h : Issue) (ra : BitVec 5) (s : State) : Out := issue h 1 (opcodeOf 8 2) (signalOp 2 ra 0) s

/-- A signal's one bank access; an ADD reads its word (R240, R282). -/
def State.signalWord (s : State) (mode : BitVec 2) (wn : Nat) (image : Line16) : State :=
  if mode = 2 then (s.putWord wn 0 allBits).setMark wn { (s.mark wn) with cells := 0, poison := false, upset := .clean }
  else if mode = 1 then
    let s := (s.decodeWord wn .clean).poisonRead wn
    let sum := (s.word wn).setWidth 64 + image.setWidth 64
    let v : Line16 := ((image >>> 64) <<< 64) ||| sum.setWidth 128
    (s.putWord wn v allBits).setMark wn { (s.mark wn).setFull true with upset := .clean }
  else (s.putWord wn image allBits).setMark wn { (s.mark wn).setFull true with poison := false, upset := .clean }

/-- SIGNAL_ISSUE: the oldest signal leaves the buffer once every fence before it has retired: a SYNC.SIG acts on its word, a
SYNC.BAR's arrival sets out for the Hub (R269, R282, R283, R289, R546). -/
def execSignalIssue (b : Bid) (s : State) : Out :=
  match (s.fm b).sigs with
  | [] => .next s
  | g :: rest =>
    if !g.after.isEmpty then .next s
    else
      let s := s.onFm b fun f => { f with sigs := rest }
      match g.kind with
      | .sig mode a image =>
        if s.mayAccess g.part a then .next ((s.signalWord mode (a / 16) image).slotCount b g.mark 2 1)
        else
          let op : OpInfo := ⟨opcodeOf 8 2, g.pc, g.mark⟩
          .next ((s.refuse ⟨b, g.part, ucForeman, 0, some op, false⟩ a).fault ⟨b, 0, 0, op⟩ .addrUnmapped)
      | .bar fabric bid => .next (s.onBar g.part fun k => { k with coming := k.coming ++ [(b, fabric, bid)] })

/-! ## Waits (R284) -/

/-- Whether a wait's condition holds at its word (R284). -/
def State.waitHolds (s : State) (a : Nat) (cond : BitVec 2) (cmp : Word) : Bool :=
  let full := s.full (a / 16)
  if cond = 2 then !full else full && (cond != 3 || decide (cmp.toNat ≤ ((s.word (a / 16)).setWidth 64 : Word).toNat))

/-- SYNC.WAIT under one of its conditions (R284, R335). -/
def waitOp (cond : BitVec 2) (rd ra rb : BitVec 5) (gate : BitVec 8) : Fm → State → Disp :=
  waitS [ra, rb, rd] fun c s =>
    let f := s.fm c.b
    match s.sigAddr c.part (f.getS ra) with
    | some code => .fault code
    | none =>
      if !s.gateRoom c.b gate then .stall
      else
        let a := (f.getS ra).toNat
        let s := s.park (a / 16) (s.waitHolds a cond (f.getS rb))
        .done (s.placeGate c (.word a cond (f.getS rb)) gate rd)

/-- RD is zero unless the Foreman waits (R284, R311, R334). -/
def waitFieldsOk (rd : BitVec 5) (gate : BitVec 8) : Bool := gate.getLsbD 0 || rd == 0

/-- FULL: SYNC.WAIT FULL (R284). -/
def execFull (h : Issue) (rd ra : BitVec 5) (gate : BitVec 8) (s : State) : Out :=
  issueIf (waitFieldsOk rd gate) h 1 (opcodeOf 8 3) (valid (gate != 0) (waitOp 0 rd ra 0 gate)) s

/-- TAKE: SYNC.WAIT TAKE (R284). -/
def execTake (h : Issue) (rd ra : BitVec 5) (gate : BitVec 8) (s : State) : Out :=
  issueIf (waitFieldsOk rd gate) h 1 (opcodeOf 8 3) (valid (gate != 0) (waitOp 1 rd ra 0 gate)) s

/-- EMPTY: SYNC.WAIT EMPTY (R284). -/
def execEmpty (h : Issue) (rd ra : BitVec 5) (gate : BitVec 8) (s : State) : Out :=
  issueIf (waitFieldsOk rd gate) h 1 (opcodeOf 8 3) (valid (gate != 0) (waitOp 2 rd ra 0 gate)) s

/-- GE: SYNC.WAIT GE (R284). -/
def execGe (h : Issue) (rd ra rb : BitVec 5) (gate : BitVec 8) (s : State) : Out :=
  issueIf (waitFieldsOk rd gate) h 1 (opcodeOf 8 3) (valid (gate != 0) (waitOp 3 rd ra rb gate)) s

/-- The retry of a SYNC.WAIT: in the one access in which its condition is found to hold, all its gates open, TAKE empties the
word, and a waiting Foreman takes the word's low half (R240, R284, R546). A poisoned word's bits are a free value (R281, assumption
4, DESIGN CHOICE). -/
def State.waitTry (s : State) (b : Bid) (g : Nat) : State :=
  match (s.fm b).gates.find? fun x => x.id == g with
  | none => s
  | some x =>
    match x.kind with
    | .word a cond cmp =>
      if s.waitHolds a cond cmp && s.mayAccess ((s.partOf b).getD 0) a then
        let wn := a / 16
        let s := ((s.decodeWord wn .clean).poisonRead wn).slotCount b x.mark 2 1
        let m := s.mark wn
        let (v, s) : Word × State := if m.poison && x.fmStall then s.drawWord else ((s.word wn).setWidth 64, s)
        let s := if cond = 1 then s.setMark wn (m.setFull false) else s
        let s := s.openGate b g
        if x.fmStall then s.onFm b fun f => f.setS x.rd v else s
      else s
    | _ => s

/-- WAIT_GATES_OPEN: the gates of a SYNC.WAIT open where its condition holds (R284). -/
def execWaitGatesOpen (b : Bid) (g : Nat) (s : State) : Out := .next (s.waitTry b g)

/-! ## Barriers (R288-R291, R351) -/

/-- The generation of a Bench's next arrival at a barrier: one more than it has made, counting those on their way (R289). -/
def State.nextGen (s : State) (p : Part) (b : Bid) (bid : Fin 16) : BitVec 16 :=
  let k := s.bar p
  let inBuf := ((s.fm b).sigs.filter fun g => match g.kind with | .bar _ i => g.part == p && i == bid | _ => false).length
  let coming := (k.coming.filter fun x => x.1 == b && x.2.2 == bid).length
  tget 0 k.arrived (bid.val * 16 + b.val) + BitVec.ofNat 16 (inBuf + coming + 1)

/-- Whether a Bench takes part in its partition's barriers (R288). -/
def State.inBarrier (s : State) (p : Part) (b : Bid) : Bool := (s.rf (K.BAR_MASK p) F.BAR_MASK_MASK).testBit b.val

/-- SYNC.BAR: gates for its generation and an arrival in the signal buffer (R288, R289, R335). -/
def execSyncBar (h : Issue) (fabric : Bool) (bid : Fin 16) (gate : BitVec 8) (s : State) : Out :=
  issue h 1 (opcodeOf 8 4)
    (fun c s =>
      if !s.inBarrier c.part c.b || (fabric && !s.epochOn c.part) then .fault .barrierMember
      else if !s.gateRoom c.b gate || 8 ≤ (s.fm c.b).sigs.length then .stall
      else
        let gen := s.nextGen c.part c.b bid
        let s := if gate = 0 then s else s.placeGate c (.barrier c.part fabric bid gen) gate 0
        .done (s.pushSig c (.bar fabric bid))) s

/-- Count `a` is at generation `n` or beyond it, modulo 2^16 (R290). -/
def genReached (a n : BitVec 16) : Bool := decide ((a - n).toNat < 32768)

/-- The participants of a partition's barriers. -/
def State.barBenches (s : State) (p : Part) : List Bid := allBids.filter fun b => s.inBarrier p b

/-- Every participant has made its n-th arrival. -/
def State.barHere (s : State) (p : Part) (bid : Fin 16) (n : BitVec 16) : Bool :=
  (s.barBenches p).all fun b => genReached (tget 0 (s.bar p).arrived (bid.val * 16 + b.val)) n

/-- The child ports of a partition's tree place (R351). -/
def State.treeKids (s : State) (p : Part) : List PortNo :=
  (List.finRange 16).filter fun n => (s.rf (K.FAB_TREE p) F.FAB_TREE_CHILDREN).testBit n.val

/-- A count that lags behind a released generation follows it, so that comparison modulo 2^16 holds (R290). -/
def genFollow (a n : BitVec 16) : BitVec 16 := if genReached a n then a else n

/-- A generation released: every gate of it opens, and BAR_GEN shows it (R289, R309).
(assumption 53, DEDUCED) -/
def State.barRelease (s : State) (p : Part) (bid : Fin 16) (n : BitVec 16) : State :=
  let s := s.setRf (K.BAR_GEN p bid.val) F.BAR_GEN_RELEASED n.toNat
  let s := s.onBar p fun k =>
    { k with
      fabric := k.fabric.filter (· != (bid.val, n.toNat))
      sentUp := tset 0 k.sentUp bid.val (genFollow (tget 0 k.sentUp bid.val) n)
      kids := (s.treeKids p).foldl (fun t c =>
        let i := bid.val * 16 + c.val
        tset 0 t i (genFollow (tget 0 t i) n)) k.kids }
  (s.benchesOf p).foldl (fun s b => s.openGates b fun k =>
    match k with | .barrier q _ i g => q == p && i == bid && g == n | _ => false) s

def State.treeRoot (s : State) (p : Part) : Bool := s.rb (K.FAB_TREE p) F.FAB_TREE_ROOT

/-- The partition in which a module works for this partition's job, by the tree table (R389). -/
def State.jobPart (s : State) (p : Part) (mod : Nat) : Part :=
  match (s.ctl p).mapping.bind fun m => m.tree.find? fun e => e.mod == mod with
  | some e => ⟨e.part % 4, by omega⟩
  | none => p

/-- A BARRIER packet sent to the peer of a tree port (R344, R351). -/
def State.sendBar (s : State) (p : Part) (port : PortNo) (op : Nat) (bid : Fin 16) (n : BitVec 16) : State :=
  let mod := s.rf (K.FAB_PORT port) F.FAB_PORT_PEER_MOD
  let pkt := s.packet p ⟨mod, s.jobPart p mod, clsBarrier, op, (s.ctl p).step, n.toNat, bid.val, 0, false, 0⟩ []
  s.sendPort p port pkt

/-- RELEASE of a generation sent to every child (R351). -/
def State.barDown (s : State) (p : Part) (bid : Fin 16) (n : BitVec 16) : State :=
  (s.treeKids p).foldl (fun s c => s.sendBar p c 1 bid n) s

/-- The generation that the barrier unit looks at: the one after the last released, or after the last one sent up the tree
(R289, R290, R351). -/
def State.barNext (s : State) (p : Part) (bid : Fin 16) : BitVec 16 :=
  let n : BitVec 16 := BitVec.ofNat 16 (s.rf (K.BAR_GEN p bid.val) F.BAR_GEN_RELEASED + 1)
  let up := tget 0 (s.bar p).sentUp bid.val
  if genReached up n then up + 1 else n

/-- A generation is the fabric's: a participant arrived in FABRIC scope, or the module has children and no participant, and
only passes arrivals up (R289, R351). (assumption 53, DEDUCED) -/
def State.barFabric (s : State) (p : Part) (bid : Fin 16) (n : BitVec 16) : Bool :=
  (s.bar p).fabric.contains (bid.val, n.toNat) || ((s.barBenches p).isEmpty && !(s.treeKids p).isEmpty)

/-- The barrier's next generation: released when it is complete and those before it are released; in FABRIC scope it goes up the
tree once every child's ARRIVE for it has come, and the root releases it (R289, R351). (assumption 53, DEDUCED) -/
def State.barAdvance (s : State) (p : Part) (bid : Fin 16) : State :=
  let n := s.barNext p bid
  let k := s.bar p
  if !s.barHere p bid n then s
  else if !s.barFabric p bid n then
    if (s.barBenches p).isEmpty || n.toNat ≠ (s.rf (K.BAR_GEN p bid.val) F.BAR_GEN_RELEASED + 1) % 65536 then s
    else s.barRelease p bid n
  else if !(s.treeKids p).all fun c => genReached (tget 0 k.kids (bid.val * 16 + c.val)) n then s
  else if s.treeRoot p then (s.barDown p bid n).barRelease p bid n
  else
    (s.sendBar p ⟨s.rf (K.FAB_TREE p) F.FAB_TREE_PARENT % 16, by omega⟩ 0 bid n).onBar p fun k =>
      { k with sentUp := tset 0 k.sentUp bid.val n }

/-- The first arrival at a barrier that is on its way, and the others. -/
def takeComing (bid : Fin 16) : List (Bid × Bool × Fin 16) → Option ((Bid × Bool × Fin 16) × List (Bid × Bool × Fin 16))
  | [] => none
  | x :: rest => if x.2.2 = bid then some (x, rest) else (takeComing bid rest).map fun y => (y.1, x :: y.2)

/-- BARRIER_ARRIVAL: the Hub's barrier unit counts an arrival, and releases or passes up a complete generation (R289).
(assumption 53, DEDUCED) -/
def execBarrierArrival (p : Part) (bid : Fin 16) (s : State) : Out := s.byCore barrierCore fun s =>
  match takeComing bid (s.bar p).coming with
  | none => .next (s.barAdvance p bid)
  | some ((b, fabric, _), rest) =>
    let s := s.onBar p fun k =>
      let n := tget 0 k.arrived (bid.val * 16 + b.val) + 1
      { k with
        coming := rest
        arrived := tset 0 k.arrived (bid.val * 16 + b.val) n
        fabric := if fabric && !k.fabric.contains (bid.val, n.toNat) then k.fabric ++ [(bid.val, n.toNat)] else k.fabric }
    .next (s.barAdvance p bid)

/-- BARRIER_TIMEOUT: every Bench that holds a closed gate of the barrier faults; a TIMEOUT of 0 never passes (R291). -/
def execBarrierTimeout (p : Part) (bid : Fin 16) (s : State) : Out := s.byCore barrierCore fun s =>
  if s.rf (K.BAR_CTL p) F.BAR_CTL_TIMEOUT = 0 then .next s
  else
    .next ((s.benchesOf p).foldl (fun s b =>
      match (s.fm b).gates.find? fun g => match g.kind with | .barrier q _ i _ => q == p && i == bid | _ => false with
      | some g => s.fault ⟨b, 0, 0, ⟨opcodeOf 8 4, g.pc, g.mark⟩⟩ .barrierTimeout
      | none => s) s)

/-- ARRIVE: a child's generation counts, and a complete one goes on (R351). -/
def execArrive (p : Part) (s : State) : Out := s.byCore barrierCore fun s =>
  match s.takePacket fun x => isOp clsBarrier 0 x && pktDstPart x.2 == p with
  | none => .next s
  | some ((port, pkt), s) =>
    let bid : Fin 16 := ⟨pktBucket pkt % 16, by omega⟩
    match port with
    | none => .next s
    | some n =>
      .next ((s.onBar p fun k =>
        { k with kids := tset 0 k.kids (bid.val * 16 + n.val) (BitVec.ofNat 16 (pktSlot pkt)) }).barAdvance p bid)

/-- BARRIER_TREE_RELEASE: a RELEASE is forwarded to the children, and its generation's gates open; the next may then be due (R351).
(assumption 53, DEDUCED) -/
def execBarrierTreeRelease (p : Part) (s : State) : Out := s.byCore barrierCore fun s =>
  match s.takePacket fun x => isOp clsBarrier 1 x && pktDstPart x.2 == p with
  | none => .next s
  | some ((_, pkt), s) =>
    let bid : Fin 16 := ⟨pktBucket pkt % 16, by omega⟩
    let n := BitVec.ofNat 16 (pktSlot pkt)
    .next (((s.barDown p bid n).barRelease p bid n).barAdvance p bid)

/-! ## Start, stop, clear (R298, R303, R304) -/

/-- A program copy in progress names a Bench (R300). -/
def State.loading (s : State) (b : Bid) : Bool :=
  allParts.any fun p => s.loads[p].any fun l => l.mask.testBit b.val

/-- A partition's step history emptied: no attempt is in progress any longer, so no Bench shows one (R292).
(assumption 55, DEDUCED) -/
def State.emptyHistory (s : State) (p : Part) : State :=
  (s.benchesOf p).foldl (fun (s : State) b =>
    let ph := s.rf (K.STEP_STATE b) F.STEP_STATE_PHASE
    if ph = 1 ∨ ph = 2 then s.setRf (K.STEP_STATE b) F.STEP_STATE_PHASE 0 else s) (s.onCtl p StepCtl.emptied)

/-- START: a STOPPED Foreman of a READY module, outside a test mode, begins to fetch at ENTRY; with every Foreman of the partition
STOPPED the step history is emptied (R292, R298, R300, R477, R520, R532). -/
def State.fmStart (s : State) (b : Bid) : State :=
  if (s.fm b).st != .stopped || s.loading b || !s.present b ucForeman 0 || !s.ready || s.mgmt.testMode != 0 || s.inReset b
  then s
  else
    let s := s.leaveIdle
    let s := match s.partOf b with
      | some p =>
        if (s.benchesOf p).all (fun x => decide ((s.fm x).st = FmState.stopped)) then s.emptyHistory p else s
      | none => s
    s.onFm b fun f => { f with st := .running, pc := BitVec.ofNat 15 (s.rf (K.FM_CTL b) F.FM_CTL_ENTRY) }

/-- STOP: a RUNNING Foreman stops dispatch and drains (R298). -/
def State.fmStop (s : State) (b : Bid) : State :=
  if (s.fm b).st = .running then s.onFm b fun f => { f with st := .draining, ending := false } else s

/-- What a queue keeps of what has not begun: nothing but mode switches and catalogue clearings.
(assumption 17, DEDUCED) -/
def keepItems (l : List QItem) : List QItem :=
  l.filter fun i => match i with | .instr _ => false | .gate _ => false | _ => true

/-- CLEAR: queued instructions and gates of a FAULTED or HALTED Foreman are discarded, with its fences, signals and vote (R303).
(assumption 17, DEDUCED) -/
def State.fmClear (s : State) (b : Bid) : State :=
  if ((s.fm b).st != .faulted && (s.fm b).st != .halted) || (s.fm b).clearing then s
  else
    let dead := (List.finRange 8).flatMap fun q => (s.queue b q).filterMap fun i => match i with | .instr e => some e.id | _ => none
    let s := dead.foldl (fun s id => s.completed b id) s
    (s.onBench b fun x =>
      { x with
        q := x.q.map keepItems
        arr := x.arr.map fun a => { a with checked := none }
        fm := { x.fm with clearing := true, fences := [], gates := [], sigs := [], voteReq := none, parked := none } }).flushDeposits b

/-- Whether an instruction of a Bench has begun and not completed. -/
def Bench.working (x : Bench) : Bool :=
  !x.run.isEmpty || !x.wgh.buckets.isEmpty || (List.finRange 12).any fun u => !x.arr[u].jobs.isEmpty

/-- FM_CLEAR_DONE: once the instructions that had begun complete, FM_FAULT, the marker stack and the signal buffer are empty and
the Foreman is STOPPED (R303). (assumption 3, DEDUCED; assumption 17, DEDUCED) -/
def execFmClearDone (b : Bid) (s : State) : Out :=
  if !(s.fm b).clearing || (s.bench b).working then .next s
  else
    let s := s.onBench b fun x =>
      { x with
        stopped := 0
        fm := { x.fm with st := .stopped, clearing := false, marks := [], sigs := [], ninth := none, faultVote := none, ending := false } }
    .next (((s.setReg (K.FM_FAULT b) 0).setRb (K.FM_STAT b) F.FM_STAT_ENDED false).barsRest b)

/-- A write of FM_CTL: CLEAR, STOP and START act; JOB and ENTRY are stored first (R298, R303, R304). -/
def State.writeFmCtl (s : State) (b : Bid) (v : Word) : State :=
  let s := s.writeReg (K.FM_CTL b) false v
  let s := if bit v 2 then s.fmClear b else s
  let s := if bit v 1 then s.fmStop b else s
  if bit v 0 then s.fmStart b else s

/-! ## Instruction memory and program loads (R299, R300, R308) -/

/-- A write of an instruction word: accepted only while the Foreman is STOPPED (R299). -/
def State.writeImem (s : State) (b : Bid) (w : Nat) (v : Word) : State :=
  if (s.fm b).st = .stopped then s.setReg (K.IMEM b w) v else s.setRb (K.FM_STAT b) F.FM_STAT_IMEM_REFUSED true

/-- A write from outside to a field of a Bench's own clock domain: performed, or held in the crossing while that clock is stopped;
a START of a gated Bench is lost (R476, R497). (assumption 80, DESIGN CHOICE) -/
def State.cross (s : State) (b : Bid) (k : Nat) (v : Word) (done : State) : State :=
  if s.rb (K.CLK_BENCH b) F.CLK_BENCH_STOPPED then
    let v := if k = K.FM_CTL b && s.rb (K.BENCH_PWR b) F.BENCH_PWR_GATED then setFld v 0 1 0 else v
    s.onBench b fun x => { x with xing := x.xing ++ [(k, v)] }
  else done

/-- A write of FM_CTL that leaves its fields and sets the bit of START, STOP or CLEAR: it acts, or is held (R298, R476). -/
def State.fmCommand (s : State) (b : Bid) (f : Fld) (done : State) : State :=
  s.cross b (K.FM_CTL b) (setFld (s.reg (K.FM_CTL b)) f.lo 1 1) done

/-- START (R298, R476). -/
def execStart (b : Bid) (s : State) : Out := .next (s.fmCommand b F.FM_CTL_START (s.fmStart b))

/-- STOP (R298, R476). -/
def execStop (b : Bid) (s : State) : Out := .next (s.fmCommand b F.FM_CTL_STOP (s.fmStop b))

/-- FM_CLEAR (R303, R476). -/
def execFmClear (b : Bid) (s : State) : Out := .next (s.fmCommand b F.FM_CTL_CLEAR (s.fmClear b))

/-- IMEM_WRITE (R299, R476). -/
def execImemWrite (b : Bid) (w : BitVec 15) (v : Word) (s : State) : Out :=
  .next (s.cross b (K.IMEM b w.toNat) v (s.writeImem b w.toNat v))

/-- Writes held in the crossing are performed, in order, once the clock runs again (R476). -/
def State.crossed (s : State) (b : Bid) : State :=
  if s.rb (K.CLK_BENCH b) F.CLK_BENCH_STOPPED then s
  else
    (s.bench b).xing.foldl (fun (s : State) e =>
      if e.1 = K.FM_CTL b then s.writeFmCtl b e.2
      else if e.1 = K.FM_STAT b then s.writeReg e.1 false e.2
      else s.writeImem b ((e.1 - K.IMEM b 0) / 8) e.2) (s.onBench b fun x => { x with xing := [] })

/-- PROG_LOAD's fields: source, length, Benches (R309). -/
def State.loadSrc (s : State) (p : Part) : Nat := s.rf (K.PROG_LOAD0 p) F.PROG_LOAD0_SRC
def State.loadLen (s : State) (p : Part) : Nat := s.rf (K.PROG_LOAD1 p) F.PROG_LOAD1_LEN
def State.loadMask (s : State) (p : Part) : Nat := s.rf (K.PROG_LOAD1 p) F.PROG_LOAD1_MASK

/-- PROG_LOADp.GO: the copy begins where every condition of R300 holds, with MASK, SRC and LEN as they stand, behind the copies of
the partition in progress; else ERROR is set. -/
def State.progGo (s : State) (p : Part) : State :=
  let m := s.loadMask p
  let ok := (allBids.all fun b => !m.testBit b.val || (s.owns p b && (s.fm b).st == .stopped))
    && s.loadSrc p % 4096 == 0 && 1 ≤ s.loadLen p && s.loadLen p ≤ 32768 && s.rangeOk p (s.loadSrc p) (8 * s.loadLen p)
  if ok then { s with loads := s.loads.set p (s.loads[p] ++ [⟨m, s.loadSrc p, s.loadLen p⟩]) }
  else s.setRb (K.PROG_LOAD1 p) F.PROG_LOAD1_ERROR true

/-- GO (R300). -/
def execGo (p : Part) (s : State) : Out := .next (s.progGo p)

/-- A write of PROG_LOADp's second word: its fields, then GO (R300, R309). -/
def State.writeProgLoad (s : State) (p : Part) (v : Word) : State :=
  let s := s.writeReg (K.PROG_LOAD1 p) false v
  if bit v 32 then s.progGo p else s

/-- One 8-byte word of a program's source (R240); bits of a poisoned word are a free value (R281, assumption 4, DESIGN CHOICE).
(assumption 13, DEDUCED) -/
def State.loadWord (s : State) (a : Nat) : Word × State :=
  let s := (s.decodeWord (a / 16) .clean).poisonRead (a / 16)
  if (s.mark (a / 16)).poison then s.drawWord else (BitVec.ofNat 64 (ofBytes (mread s.mem a 8)), s)

/-- Words copied from a source into the instruction memories of some Benches.
(assumption 13, DEDUCED) -/
def State.loadWords (s : State) (bs : List Bid) (src : Nat) : Nat → State
  | 0 => s
  | n + 1 =>
    let s := s.loadWords bs src n
    let (v, s) := s.loadWord (src + 8 * n)
    bs.foldl (fun s b => s.setReg (K.IMEM b n) v) s

/-- PROG_LOAD_DONE: the oldest copy completes, and DONE is set where no other is left; a source that an absent bank or stack holds
in part copies nothing, records the refusal and sets ERROR (R252, R300). While the clock of a named Bench is stopped, the copy
waits at its full crossing (R473, R476). (assumption 13, DEDUCED; assumption 80, DESIGN CHOICE) -/
def execProgLoadDone (p : Part) (s : State) : Out :=
  match s.loads[p] with
  | [] => .next s
  | l :: rest =>
    if allBids.any fun b => l.mask.testBit b.val && s.rb (K.CLK_BENCH b) F.CLK_BENCH_STOPPED then .next s
    else
    let s := { s with loads := s.loads.set p rest }
    let ws := wordsOf l.src (8 * l.len)
    let bad := ws.filter fun w => !s.served p (16 * w)
    if bad.isEmpty then
      let s := s.charge p true (ws.map fun w => (w, 1, 16))
      let s := s.loadWords (allBids.filter fun b => l.mask.testBit b.val) l.src l.len
      .next (if rest.isEmpty then s.setRb (K.PROG_LOAD1 p) F.PROG_LOAD1_DONE true else s)
    else .next ((bad.foldl (fun s w => s.refuseAt p none (16 * w)) s).setRb (K.PROG_LOAD1 p) F.PROG_LOAD1_ERROR true)

/-! ## Program faults (R301) -/

/-- PROGRAM_FAULT: a fault of a listed code is taken for the instruction at a program counter of the Bench (R301, R302).
(assumption 54, DEDUCED) -/
def execProgramFault (b : Bid) (code : Nat) (q : Fin 8) (unit : Nat) (pc : BitVec 15) (mark : BitVec 32) (s : State) : Out :=
  if (1 ≤ code && code ≤ 0x17) || (0x20 ≤ code && code ≤ 0x26) || code == 0x28 || code == 0x29 then
    .next (s.faultCode ⟨b, q, unit, ⟨(s.reg (K.IMEM b pc.toNat)).setWidth 10, pc, mark⟩⟩ code)
  else .next s

end Sys2Proof.Machine
end

