-- ==== Sys2Proof/Machine/HostQueue.lean ====
section
/-!
DEFINITION. The host interface: host queues with their doorbells, commands, completions and aborts, the BAR2 window, and the
links of the host ports (spec 15 R413-R432, R434-R439).
-/

namespace Sys2Proof.Machine

/-! ## Queue registers -/

def State.qOwner (s : State) (q : Nat) : Option Part :=
  if s.rb (K.HQ_CTL q) F.HQ_CTL_OWNED then some ⟨s.rf (K.HQ_CTL q) F.HQ_CTL_OWNER % 4, by omega⟩ else none
def State.qOn (s : State) (q : Nat) : Bool := s.rb (K.HQ_CTL q) F.HQ_CTL_ENABLE
def State.qSize (s : State) (q : Nat) : Nat := 2 ^ s.rf (K.HQ_SQ q) F.HQ_SQ_SIZE_LOG2
def State.aborting (s : State) (p : Part) : Bool := s.host.aborting.getLsbD p.val
/-- A bit of HQ_STATp set; the event vector follows it (R430, R437). -/
def State.hqStat (s : State) (p : Part) (f : Fld) : State := (s.setRb (K.HQ_STAT p) f true).raise p (eventVec p)

/-- Whether a queue is served: owned, enabled, its port up, the module READY, its partition's core running, and not being aborted
(R424, R435, R443, R520). -/
def State.qServed (s : State) (q : Nat) : Bool :=
  match s.qOwner q with
  | some p => s.qOn q && s.partValid p && s.hostUp p && s.ready && !s.aborting p && s.hubCore (queueCore p)
  | none => false

/-- A write of a queue's bases or size: ignored while ENABLE is 1; sizes outside 4 to 16 are (R424, R436). -/
def State.writeHqSq (s : State) (q : Nat) (v : Word) : State :=
  if s.qOn q then s
  else
    let k := K.HQ_SQ q
    let n := fld v 0 5
    let old := s.rf k F.HQ_SQ_SIZE_LOG2
    (s.writeReg k false v).setRf k F.HQ_SQ_SIZE_LOG2 (if n < 4 || 16 < n then old else n)
def State.writeHqCq (s : State) (q : Nat) (v : Word) : State := if s.qOn q then s else s.writeReg (K.HQ_CQ q) false v

/-- A write of Q_CTL: setting ENABLE sets both heads and tails to 0 and the phase to 1; the INSTALLER's change of owner is
signalled to the partitions it affects (R424, R436, R437). -/
def State.writeHqCtl (s : State) (q : Nat) (inst : Bool) (v : Word) : State :=
  let k := K.HQ_CTL q
  let was := s.qOwner q
  let on := s.qOn q
  let s := s.writeReg k inst v
  let s := if !on && s.qOn q then (s.setReg (K.HQ_PTR q) 0).setHq q QState.idle else s
  let now := s.qOwner q
  if was = now then s else (was.toList ++ now.toList).foldl (fun s p => s.hqStat p F.HQ_STAT_CONFIG_CHANGED) s

/-- QUEUE_ENABLE_WRITE: the owning host's write of Q_CTL (R424). -/
def execQueueEnableWrite (q : BitVec 8) (v : Word) (s : State) : Out := .next (s.writeHqCtl q.toNat false v)

/-! ## Completions (R429, R431) -/

/-- A completion's STATUS (R429). -/
def stOk : Nat := 0
def stInvalid : Nat := 1
def stNotOwned : Nat := 2
def stState : Nat := 3
def stHostError : Nat := 4
def stPoison : Nat := 5
def stTimeout : Nat := 6
def stAborted : Nat := 7
def stForeman : Nat := 8

/-- Fetching stopped (R425, R428). -/
def State.qError (s : State) (q : Nat) : State := s.setRb (K.HQ_CTL q) F.HQ_CTL_ERROR true

/-- A queue's pointers (R436). -/
def State.qp (s : State) (q : Nat) (f : Fld) : Nat := s.rf (K.HQ_PTR q) f
def State.setQp (s : State) (q : Nat) (f : Fld) (v : Nat) : State := s.setRf (K.HQ_PTR q) f v

/-- Whether the completion ring takes another entry: TAIL never comes to equal HEAD (R429). -/
def State.cqRoom (s : State) (q : Nat) : Bool :=
  (s.qp q F.HQ_PTR_CQ_TAIL + 1) % s.qSize q != s.qp q F.HQ_PTR_CQ_HEAD % s.qSize q

/-- A queue's completion vector raised (R430, R431). -/
def State.qVector (s : State) (q : Nat) : State :=
  match s.qOwner q with
  | some p => (s.raise p q).setHq q { s.hq q with unsignalled := 0 }
  | none => s

/-- A completion entry written at the tail, and its vector raised where COAL_COUNT is reached; that of a WAIT that timed out then
sets ERROR (R428, R429, R431). -/
def State.postEntry (s : State) (q : Nat) (w0 w1 : Word) : State :=
  match s.qOwner q with
  | none => s
  | some p =>
    let x := s.hq q
    let t := s.qp q F.HQ_PTR_CQ_TAIL
    let n := (t + 1) % s.qSize q
    let w0 := setFld w0 40 1 (if x.phase then 1 else 0)
    let s := s.hostPut p ((s.reg (K.HQ_CQ q)).toNat / 4096 * 4096 + 16 * t) (wordBytes [w0, w1])
    let s := s.setQp q F.HQ_PTR_CQ_TAIL n
    let s := s.setHq q { x with phase := if n = 0 then !x.phase else x.phase, unsignalled := x.unsignalled + 1 }
    let s := if fld w0 32 8 = stTimeout then s.qError q else s
    let c := s.rf (K.HQ_CTL q) F.HQ_CTL_COAL_COUNT
    if c ≤ (s.hq q).unsignalled then s.qVector q else s

/-- A completion posted, or held while the ring is full (R429). -/
def State.post (s : State) (q : Nat) (w0 w1 : Word) : State :=
  let x := s.hq q
  if x.held.isEmpty && s.cqRoom q then s.postEntry q w0 w1 else s.setHq q { x with held := x.held ++ [(w0, w1)] }

/-- Held completions posted into freed space. -/
def State.postHeld (s : State) (q : Nat) : State :=
  (List.range (s.hq q).held.length).foldl (fun s _ =>
    match (s.hq q).held with
    | e :: rest => if s.cqRoom q then (s.setHq q { s.hq q with held := rest }).postEntry q e.1 e.2 else s
    | [] => s) s

/-- COMPLETION_COALESCE_TIMER: COAL_TIME after the first unsignalled completion the vector is raised (R431). -/
def execCompletionCoalesceTimer (q : BitVec 8) (s : State) : Out :=
  .next (if (s.hq q.toNat).unsignalled = 0 then s else s.qVector q.toNat)

/-! ## Doorbells (R425) -/

/-- A doorbell that is dropped is counted (R425). -/
def State.bellOk (s : State) (p : Part) (q : Nat) : Bool := s.qOwner q == some p && s.qOn q && !s.aborting p
def State.bellDropped (s : State) (p : Part) : State := s.count (K.DB_DROPPED p) 1

/-- An SQ_TAIL doorbell's value (R425). -/
def State.sqTail (s : State) (p : Part) (q : Nat) (v : Nat) : State :=
  if !s.bellOk p q then s.bellDropped p
  else
    let s := s.countP p 0 1
    if s.qSize q ≤ v then s.qError q else s.setQp q F.HQ_PTR_SQ_TAIL v

/-- A CQ_HEAD doorbell's value: it must not pass the completion tail (R425). -/
def State.cqHead (s : State) (p : Part) (q : Nat) (v : Nat) : State :=
  if !s.bellOk p q then s.bellDropped p
  else
    let s := s.countP p 0 1
    let n := s.qSize q
    let h := s.qp q F.HQ_PTR_CQ_HEAD
    let dist (x : Nat) : Nat := (x + n - h % n) % n
    if n ≤ v || dist (s.qp q F.HQ_PTR_CQ_TAIL) < dist v then s.qError q
    else (s.setQp q F.HQ_PTR_CQ_HEAD v).postHeld q

/-- A doorbell's index: bits [15:0] of what is written; through the port of a partition that is not valid it is ignored (R11, R415,
R425). -/
def State.bell (s : State) (p : Part) (v : BitVec 32) (f : Nat → State) : State := if s.partValid p then f (v.toNat % 65536) else s

/-- SQ_TAIL (R425). -/
def execSqTail (p : Part) (q : BitVec 8) (v : BitVec 32) (s : State) : Out := .next (s.bell p v (s.sqTail p q.toNat))
/-- CQ_HEAD (R425). -/
def execCqHead (p : Part) (q : BitVec 8) (v : BitVec 32) (s : State) : Out := .next (s.bell p v (s.cqHead p q.toNat))

/-! ## Commands (R426, R427) -/

/-- Every field that R426 does not define for the command is zero, and those it defines hold what they may. -/
def QCmd.fieldsOk (c : QCmd) : Bool :=
  let z (n lo w : Nat) : Bool := fld (c.w n) lo w == 0
  let tail := z 0 32 32 && (List.range 4).all fun i => c.w (4 + i) == 0
  tail && match c.opc with
    | 0 => z 0 8 8 && c.w 1 == 0 && c.w 2 == 0 && c.w 3 == 0
    | 1 => z 0 9 7 && z 1 16 48 && c.w 2 == 0 && c.w 3 == 0
    | 2 => z 0 13 3 && z 3 32 32 && z 2 48 16 && (c.mode == 0 || c.mode == 2) && fld (c.w 0) 11 2 != 3
            && c.hostAddr % 16 == 0 && c.dev % 16 == 0 && c.len != 0
    | 3 => z 0 13 3 && z 3 32 32 && z 2 48 16 && (c.mode == 0 || c.mode == 2) && fld (c.w 0) 11 2 != 3
            && c.hostAddr % 16 == 0 && c.dev % 16 == 0 && c.len != 0
    | 4 => z 0 8 1 && z 0 11 5 && z 1 48 16 && c.w 3 == 0 && c.mode != 3 && c.wordAt % 16 == 0
    | 5 => z 0 8 1 && z 0 11 5 && z 1 48 16 && z 3 32 32 && (c.mode == 0 || c.mode == 3) && c.wordAt % 16 == 0
    | _ => false

/-- Benches a START names. -/
def QCmd.names (c : QCmd) : List Bid := allBids.filter fun b => (c.w 1).getLsbD b.val

/-- The status with which a command ends as it begins, if it does (R427, R429): an invalid field, a Bench, range or word
outside the partition, a Bench that is not STOPPED or is gated (R497). (assumption 60, DEDUCED) -/
def State.cmdCheck (s : State) (p : Part) (c : QCmd) : Option Nat :=
  if !c.fieldsOk then some stInvalid
  else
    match c.opc with
    | 1 =>
      if c.names.any fun b => !s.owns p b then some stNotOwned
      else if c.names.any fun b => (s.fm b).st != .stopped || s.rb (K.BENCH_PWR b) F.BENCH_PWR_GATED then some stState
      else none
    | 2 => if s.rangeOk p c.dev (16 * c.len) then none else some stNotOwned
    | 3 => if s.rangeOk p c.dev (16 * c.len) then none else some stNotOwned
    | 4 => if inSram c.wordAt && s.owns p (benchOf c.wordAt) then none else some stNotOwned
    | 5 => if inSram c.wordAt && s.owns p (benchOf c.wordAt) then none else some stNotOwned
    | _ => none

/-- A command of a queue rewritten. -/
def State.setCmd (s : State) (q i : Nat) (c : QCmd) : State := s.setHq q { s.hq q with cmds := (s.hq q).cmds.set i c }
/-- Command i of a queue ends, behind those that ended before it (R429). -/
def State.endCmd (s : State) (q i : Nat) (status : Nat) : State :=
  match (s.hq q).cmds[i]? with
  | some c =>
    let n := (s.hq q).cmds.foldl (fun n d => if d.status.isSome then Nat.max n (d.doneNo + 1) else n) 0
    s.setCmd q i { c with begun := true, status := some status, flushing := none, doneNo := n }
  | none => s

/-- Whether command i of a queue may begin: every earlier one has completed, or it is an overlapped COPY behind a COPY that has
begun; none begins while the completion ring is full or a completion is held (R428, R429). -/
def State.mayBegin (s : State) (q i : Nat) : Bool :=
  let x := s.hq q
  match x.cmds[i]? with
  | none => false
  | some c =>
    let before := x.cmds.take i
    !c.begun && c.status.isNone && x.held.isEmpty && s.cqRoom q
      && (before.all (fun d => d.status.isSome)
        || (c.isCopy && bit (c.w 0) 8 && before.all (fun d => d.begun)
            && (match x.cmds[i - 1]? with | some d => d.isCopy && i != 0 | none => false)))

/-- Command i of a queue in hand for an event of its OPC: begun already, or beginning now after its checks; an event of another
command does nothing. `want` says whether the event serves the command's OPC. -/
def State.takeCmd (s : State) (q i : Nat) (want : Nat → Bool) : Option (Part × QCmd × State) ⊕ State :=
  match (s.hq q).cmds[i]?, s.qOwner q with
  | some c, some p =>
    if !s.qServed q || !want c.opc || c.status.isSome then .inr s
    else if c.begun then .inl (some (p, c, s))
    else if !s.mayBegin q i then .inr s
    else
      match s.cmdCheck p c with
      | some st => .inr (s.endCmd q i st)
      | none => let c := { c with begun := true }; .inl (some (p, c, s.setCmd q i c))
  | _, _ => .inr s

/-- The first command of a queue that has not ended. -/
def State.firstCmd (s : State) (q : Nat) : Nat :=
  ((s.hq q).cmds.findIdx? fun c => c.status.isNone).getD (s.hq q).cmds.length

/-- An event of a command that acts on the first one that has not ended. -/
def State.onCmd (s : State) (q i : Nat) (want : Nat → Bool) (f : Part → QCmd → State → State) : State :=
  match s.takeCmd q i want with
  | .inl (some (p, c, s)) => f p c s
  | .inl none => s
  | .inr s => s

/-- QUEUE_ENTRY_FETCH: the next submission entry arrives; a read that the host refuses ends its command with HOST_ERROR
(R424, R429). -/
def State.fetchEntry (s : State) (q : Nat) (ans : HostAnswer) : State :=
  let h := s.qp q F.HQ_PTR_SQ_HEAD
  if !s.qServed q || s.rb (K.HQ_CTL q) F.HQ_CTL_ERROR || h == s.qp q F.HQ_PTR_SQ_TAIL then s
  else
    let n := (h + 1) % s.qSize q
    let s := (s.setQp q F.HQ_PTR_SQ_HEAD n).leaveIdle
    let s := match s.qOwner q with | some p => s.countP p 1 1 | none => s
    let c : QCmd := match ans with
      | .ok l => ⟨(List.range 8).map fun i => BitVec.ofNat 64 (ofBytes ((l.drop (8 * i)).take 8)), n, false, 0, 0, false, none, none, 0, 0,
        false⟩
      | .refused => ⟨[], n, false, 0, 0, false, none, none, 0, 0, false⟩
    let s := s.setHq q { s.hq q with cmds := (s.hq q).cmds ++ [c] }
    match ans with
    | .ok _ => s
    | .refused => s.endCmd q ((s.hq q).cmds.length - 1) stHostError

/-- QUEUE_ENTRY_FETCH (R424). (assumption 60, DEDUCED) -/
def execQueueEntryFetch (q : BitVec 8) (ans : HostAnswer) (s : State) : Out := .next (s.fetchEntry q.toNat ans)

/-- QUEUE_NOP: a NOP completes at once; an entry of a reserved OPC ends INVALID (R426, R427).
(assumption 60, DEDUCED) -/
def execQueueNop (q : BitVec 8) (s : State) : Out :=
  let i := s.firstCmd q.toNat
  .next (s.onCmd q.toNat i (fun o => o == 0 || 5 < o) fun _ _ s => s.endCmd q.toNat i stOk)

/-- QUEUE_START: FM_CTL.START performed on every Bench of MASK, held like every write that enters a Bench whose clocks stand; the
command notes those that left STOPPED (R298, R427, R476). -/
def execQueueStart (q : BitVec 8) (s : State) : Out :=
  let i := s.firstCmd q.toNat
  let fresh := match (s.hq q.toNat).cmds[i]? with | some c => !c.begun | none => false
  .next (s.onCmd q.toNat i (fun o => o == 1) fun _ c s => if !fresh then s else
    let s := c.names.foldl (fun s b => s.fmCommand b F.FM_CTL_START (s.fmStart b)) s
    s.setCmd q.toNat i { c with left := BitVec.ofNat 16 ((c.names.filter fun b => (s.fm b).st != .stopped).map fun b => 2 ^ b.val).sum })

/-! ## Accesses of the Hub for a host -/

/-- A refused access of a Hub unit recorded: outside the partition's windows by that unit, on an absent bank or stack by its
router or stack controller (R252, R420, R523). (assumption 26, DEDUCED) -/
def State.hubRefuse (s : State) (p : Part) (ucls index a : Nat) : State :=
  let r := if s.inWindow p a then s.refusal p none a else { hubRec ucls index 0x0F (some p) with addr := a }
  (s.emit r).unmapped a

/-- A word read by a Hub unit for partition p (R209, R212). -/
def State.hubRead (s : State) (p : Part) (ucls index wn : Nat) (fe : BitVec 2) : Perf Got :=
  if !s.mayAccess p (16 * wn) then .refused (s.hubRefuse p ucls index (16 * wn))
  else
    match s.readWord wn fe with
    | .wait => .wait s
    | .ok g s =>
      if g.poison then
        .ok g ((if inSram (16 * wn) then s.memStat wn 2 else s).emit { hubRec ucls index 0x06 (some p) with addr := 16 * wn })
      else .ok g s

/-- A word written by a Hub unit for partition p; a protected page is copied first, and a page that is being copied is waited for
(R212, R261). -/
def State.hubWrite (s : State) (p : Part) (ucls index : Nat) (r : WrReq) : Perf Unit :=
  let a := 16 * r.word
  if !s.mayAccess p a then .refused (s.hubRefuse p ucls index a)
  else if !inSram a && s.bulk.copying.contains (pageOf a) then .wait s
  else match s.hubPut p r with | .ok _ s => .ok () s | .wait => .wait s

/-! ## COPY (R427) -/

/-- Units of 16 bytes in one transfer (R435). -/
def copyUnits : Nat := 256

/-- Command i of a queue as it stands. -/
def State.cmd (s : State) (q i : Nat) : Option QCmd := (s.hq q).cmds[i]?

/-- The units that a COPY has moved since it stood at `from_` charged their slots, in the class of its PRIO (R254, R255). -/
def State.chargeCopy (s : State) (q i : Nat) (p : Part) (read : Bool) (from_ : Nat) : State :=
  match s.cmd q i with
  | some c => s.charge p read ((List.range (c.moved - from_)).map fun n => (c.dev / 16 + from_ + n, c.memClass, 16))
  | none => s

/-- Host words written to the device range from unit `c.moved` up. -/
def State.copyWords (s : State) (q i : Nat) (p : Part) (c : QCmd) : List Byte → Nat → State
  | _, 0 => s
  | l, n + 1 =>
    let wn := c.dev / 16 + c.moved
    let data := BitVec.ofNat 128 (ofBytes (l.take 16))
    match s.hubWrite p ucHubCore (queueCore p) ⟨wn, data, allBits, BitVec.ofNat 2 c.mode, false, c.memClass⟩ with
    | .ok _ s => let c := { c with moved := c.moved + 1 }; (s.setCmd q i c).copyWords q i p c (l.drop 16) n
    | .wait s => s
    | .refused s => s.endCmd q i stNotOwned

/-- COPY_IN: the next transfer's host bytes are written; the command ends once every device write has been performed, or with
HOST_ERROR where the host refuses the read (R427, R429). -/
def execCopyIn (q : BitVec 8) (i : Nat) (ans : HostAnswer) (s : State) : Out :=
  .next (s.onCmd q.toNat i (fun o => o == 2) fun p c s =>
    match ans with
    | .refused => s.endCmd q.toNat i stHostError
    | .ok l =>
      let n := Nat.min copyUnits (Nat.min (c.len - c.moved) (l.length / 16))
      let s := (s.copyWords q.toNat i p c l n).chargeCopy q.toNat i p false c.moved
      match (s.hq q.toNat).cmds[i]? with
      | some c => if c.status.isNone && c.len ≤ c.moved then s.endCmd q.toNat i stOk else s
      | none => s)

/-- A command's request parked at a bank, counted once (R213, R544). -/
def State.parkCmd (s : State) (q i wn : Nat) (c : QCmd) : State := (s.park wn c.parked).setCmd q i { c with parked := true }

/-- Device words read from unit `c.moved` up, as bytes for the host with their poison (R429). -/
def State.copyRead (s : State) (q i : Nat) (p : Part) (c : QCmd) : Nat → List (Nat × Byte × Bool) × State
  | 0 => ([], s)
  | n + 1 =>
    let wn := c.dev / 16 + c.moved
    match s.hubRead p ucHubCore (queueCore p) wn (BitVec.ofNat 2 c.mode) with
    | .ok g s =>
      let a := c.hostAddr + 16 * c.moved
      let c := { c with moved := c.moved + 1, poison := c.poison || g.poison, parked := false }
      let (l, s) := (s.setCmd q i c).copyRead q i p c n
      ((toBytes 16 g.data.toNat).zipIdx.map (fun x => (a + x.2, x.1, g.poison)) ++ l, s)
    | .wait s => ([], s.parkCmd q i wn c)
    | .refused s => ([], s.endCmd q i stNotOwned)

/-- Device words read and written to the host, poisoned ones in poisoned TLPs (R429, R432). -/
def State.copyBack (s : State) (q i : Nat) (p : Part) (c : QCmd) (n : Nat) : State :=
  let (l, s) := s.copyRead q i p c n
  (s.hostWrite p l).chargeCopy q i p true c.moved

/-- COPY_OUT: the next transfer is read and written to the host; after the last write the flushing read of the last address written
is out (R427, R432). -/
def execCopyOut (q : BitVec 8) (i : Nat) (s : State) : Out :=
  .next (s.onCmd q.toNat i (fun o => o == 3) fun p c s =>
    if c.flushing.isSome then s
    else
      let s := s.copyBack q.toNat i p c (Nat.min copyUnits (c.len - c.moved))
      match s.cmd q.toNat i with
      | some c =>
        if c.status.isNone && c.len ≤ c.moved then s.setCmd q.toNat i { c with flushing := some (c.hostAddr + 16 * c.len - 1) } else s
      | none => s)

/-! ## SIGNAL and WAIT (R427) -/

/-- SIGNAL: the signal image with Bench and step 0 is written (R282, R427).
(assumption 60, DEDUCED) -/
def execSignal (q : BitVec 8) (s : State) : Out :=
  let i := s.firstCmd q.toNat
  .next (s.onCmd q.toNat i (fun o => o == 4) fun p c s =>
    if s.mayAccess p c.wordAt then
      (s.signalWord (BitVec.ofNat 2 c.mode) (c.wordAt / 16) (signalImage (c.w 2) 0 0)).endCmd q.toNat i stOk
    else (s.hubRefuse p ucHubCore (queueCore p) c.wordAt).endCmd q.toNat i stNotOwned)

/-- A WAIT ends with its word's bits [63:0]; those of a poisoned word are a free value (R429, assumption 4, DESIGN CHOICE). -/
def State.endWait (s : State) (q i : Nat) (c : QCmd) (status : Nat) : State :=
  let wn := c.wordAt / 16
  let (v, s) : Word × State := if (s.mark wn).poison then s.drawWord else ((s.word wn).setWidth 64, s)
  (s.setCmd q i { c with result := v }).endCmd q i status

/-- WAIT: it ends when the word meets COND; until then its request is parked (R213, R427, R429). (assumption 60, DEDUCED) -/
def execWait (q : BitVec 8) (s : State) : Out :=
  let i := s.firstCmd q.toNat
  .next (s.onCmd q.toNat i (fun o => o == 5) fun p c s =>
    if !s.mayAccess p c.wordAt then (s.hubRefuse p ucHubCore (queueCore p) c.wordAt).endCmd q.toNat i stNotOwned
    else if s.waitHolds c.wordAt (BitVec.ofNat 2 c.mode) (c.w 2) then s.endWait q.toNat i c stOk
    else s.parkCmd q.toNat i (c.wordAt / 16) c)

/-- QUEUE_WAIT_TIMEOUT: a WAIT with a timeout ends with TIMEOUT and the word as it stands (R427-R429). -/
def execQueueWaitTimeout (q : BitVec 8) (s : State) : Out :=
  let i := s.firstCmd q.toNat
  .next (match s.cmd q.toNat i with
    | some c => if c.begun && c.opc == 5 && c.len != 0 then s.endWait q.toNat i c stTimeout else s
    | none => s)

/-- HOST_READ_COMPLETION_TIMEOUT: a host read for a command of the queue got no completion: the COPY that waits, or else the
entry being fetched, ends with HOST_ERROR (R429). -/
def execHostReadCompletionTimeout (q : BitVec 8) (s : State) : Out :=
  match (s.hq q.toNat).cmds.findIdx? fun c => c.begun && c.status.isNone && (c.opc == 2 || c.flushing.isSome) with
  | some i => .next (s.endCmd q.toNat i stHostError)
  | none => .next (s.fetchEntry q.toNat .refused)

/-! ## Completion (R427-R429) -/

/-- What a START's completion says of its Benches: those that stopped through END, those that halted or faulted (R429). -/
def State.startResult (s : State) (c : QCmd) : Nat × Nat :=
  c.names.foldl (fun x b =>
    let st := (s.fm b).st
    (if st = .stopped ∧ s.rb (K.FM_STAT b) F.FM_STAT_ENDED then x.1 + 2 ^ b.val else x.1,
      if st = .halted ∨ st = .faulted then x.2 + 2 ^ b.val else x.2)) (0, 0)

/-- A command that waits to end: a START until every Bench it names has left STOPPED and, with ENDWAIT, has stopped again; a
COPY_OUT on the answer to its flushing read (R427, R432). -/
def State.finishCmd (s : State) (q i : Nat) (c : QCmd) (ans : HostAnswer) : State :=
  if c.status.isSome || !c.begun then s
  else if c.opc = 1 then
    let over_ (b : Bid) : Bool := let st := (s.fm b).st; st == .stopped || st == .halted || st == .faulted
    if !c.names.all (fun b => c.left.getLsbD b.val || (s.fm b).st != .stopped) then s
    else if bit (c.w 0) 8 then
      if c.names.all over_ then
        let (e, h) := s.startResult c
        (s.setCmd q i { c with result := pack [(0, 16, e), (16, 16, h)] }).endCmd q i (if h = 0 then stOk else stForeman)
      else s
    else s.endCmd q i stOk
  else if c.flushing.isSome then
    match ans with
    | .ok _ => s.endCmd q i (if c.poison then stPoison else stOk)
    | .refused => s.endCmd q i stHostError
  else s

/-- A command's completion entry (R429). -/
def QCmd.entry (c : QCmd) : Word × Word :=
  (pack [(0, 16, fld (c.w 0) 16 16), (16, 16, c.head), (32, 8, c.status.getD 0)],
    if c.isCopy then BitVec.ofNat 64 c.moved else c.result)

/-- An ended command leaves its queue once those that ended before it have: its completion is posted, and a command done is counted
by its OPC; an entry that was not delivered has none (R429, R545). -/
def State.postCmd (s : State) (q i : Nat) : State :=
  match (s.hq q).cmds[i]? with
  | none => s
  | some c =>
    match c.status with
    | none => s
    | some _ =>
      if (s.hq q).cmds.any fun d => d.status.isSome && d.doneNo < c.doneNo then s
      else
        let s := s.setHq q { s.hq q with cmds := (s.hq q).cmds.eraseIdx i }
        let s := match s.qOwner q with | some p => if c.opc ≤ 5 && !c.words.isEmpty then s.countP p (2 + c.opc) 1 else s | none => s
        s.post q c.entry.1 c.entry.2

/-- QUEUE_COMMAND_COMPLETE: a completed command posts its completion entry (R429). -/
def execQueueCommandComplete (q : BitVec 8) (i : Nat) (ans : HostAnswer) (s : State) : Out :=
  if !s.qServed q.toNat then .next s
  else
    match (s.hq q.toNat).cmds[i]? with
    | none => .next s
    | some c => .next ((s.finishCmd q.toNat i c ans).postCmd q.toNat i)

/-! ## Aborts (R435) -/

/-- One queue aborted: ABORTED posted for each command begun and not completed when the link is up, ENABLE clear, ABORTED set
(R435). -/
def State.abortQueue (s : State) (p : Part) (q : Nat) : State :=
  let x := s.hq q
  let s := s.setHq q { x with cmds := [] }
  let s := if s.hostUp p && s.qOn q then
      (x.cmds.filter fun c => c.begun).foldl (fun s c =>
        let e := { c with status := some (c.status.getD stAborted) }.entry
        s.post q e.1 e.2) s
    else s
  (s.setRb (K.HQ_CTL q) F.HQ_CTL_ENABLE false).setRb (K.HQ_CTL q) F.HQ_CTL_ABORTED true

/-- Every queue of a partition aborted (R435). -/
def State.abortQueues (s : State) (p : Part) : State :=
  let s := ((List.range 256).filter (s.queueOf p)).foldl (fun s q => s.abortQueue p q) s
  let s : State := { s with host := { s.host with aborting := s.host.aborting &&& ~~~ BitVec.ofNat 4 (2 ^ p.val) } }
  s.hqStat p F.HQ_STAT_QUEUES_ABORTED

/-- A trigger of an abort: from now on entries are not fetched and doorbells are dropped (R435). -/
def State.startAbort (s : State) (p : Part) : State :=
  { s with host := { s.host with aborting := s.host.aborting ||| BitVec.ofNat 4 (2 ^ p.val) } }

/-- QUEUE_ABORT: a partition's queues are aborted after a trigger (R435). -/
def execQueueAbort (p : Part) (s : State) : Out := .next (if s.aborting p then s.abortQueues p else s)

/-- Roles that the channels of a function hold end, and nonces issued to them (R529). -/
def State.dropRoles (s : State) (p : Part) : State :=
  { s with mgmt := { s.mgmt with
      chans := s.mgmt.chans.mapFinIdx fun i c _ => if i = p.val ∨ i = 4 + p.val then { c with role := none, nonce := none } else c } }

/-- A host port's link goes down: LINK_DOWN is set, host-bound HAUL.STs end with WAIT_TIMEOUT, the partition's queues abort, and
roles held over the link end; the Foremen go on (R432, R435, R437, R529). -/
def State.hostLinkDrop (s : State) (p : Part) : State :=
  if !s.hostUp p then s
  else
    let s := s.dropRoles p
    let s := (s.setReg (K.HIF_LINK p) 0).hqStat p F.HQ_STAT_LINK_DOWN
    let s := (s.benchesOf p).foldl (fun (s : State) b =>
      ((s.bench b).run.filter fun r => r.q == 1 && haulRemote r.e == 1 && !r.remote.isEmpty).foldl
        (fun s r => s.failRunning b r .waitTimeout) s) s
    s.startAbort p

/-- HOST_LINK_DOWN (R435). -/
def execHostLinkDown (p : Part) (s : State) : Out := .next (s.hostLinkDrop p)

/-- Host ports of a division (R413). -/
def hostPorts (bifur : Nat) : Nat := if bifur = 0 then 1 else if bifur = 1 then 2 else 4

/-- A host port's function as the host has set it up: payload and read-request sizes, Completion Timeout range, BAR2's size, MSI-X
entries (R414, R416, R430). Values outside what the port supports leave the old ones.
(assumption 79, DESIGN CHOICE) -/
def HostPort.setUp (h : HostPort) (c : PcieCfg) : HostPort :=
  { h with
    mps := if c.mps ∈ [128, 256, 512] then c.mps else h.mps
    mrrs := if c.mrrs ∈ [128, 256, 512, 1024, 2048, 4096] then c.mrrs else h.mrrs
    ctoRange := c.cto.val
    barLog2 := if 30 ≤ c.barLog2 ∧ c.barLog2 ≤ 40 then c.barLog2 else h.barLog2
    vectors := c.msix.foldl (fun t e => tput t e.1.toNat e.2) h.vectors }

/-- A host port with its PCIe controller as it comes from reset: its function's settings and its mailbox; what the host holds is the
host's (R414, R416, R430, R478, R480). -/
def HostPort.fresh (h : HostPort) : HostPort := { HostPort.reset with mem := h.mem, ep := h.ep, msix := h.msix }

/-- HOST_LINK_TRAINED: a host port of the division in force comes up at a rate it supports, in FLIT mode at 64 and 128 GT/s, with
the settings its host gives it once its endpoint is configured, and records held for its partition are written once its ring is
reached again (R413, R414, R416, R430, R439, R453, R516). -/
def execHostLinkTrained (p : Part) (rate width : Nat) (flit : Bool) (cfg : PcieCfg) (s : State) : Out :=
  if hostPorts (s.rf K.HIF_CFG F.HIF_CFG_BIFUR_ACT) ≤ p.val || 6 < rate then .next s
  else
    let k := K.HIF_LINK p
    let s := ((s.setRb k F.HIF_LINK_UP true).setRf k F.HIF_LINK_RATE rate).setRf k F.HIF_LINK_WIDTH width
    let s := if s.endpointUp then s.onHport p fun h => h.setUp cfg else s
    .next ((s.setRb k F.HIF_LINK_FLIT (flit || 5 ≤ rate)).drainDrawn p)

/-! ## BAR2 (R419, R420) -/

/-- The device address that a BAR2 request's segment gives it, or none where the segment does not translate (R419). -/
def State.bar2Form (s : State) (p : Part) (off : Nat) : Option Nat :=
  let seg := 2 ^ (s.hport p).barLog2 / 64
  let k := K.BAR2_SEG p (off / seg)
  let base := s.rf k F.BAR2_SEG_BASE * 2 ^ 24
  if 64 ≤ off / seg || !s.rb k F.BAR2_SEG_VALID || base % seg != 0 then none else some (base + off % seg)

/-- The word numbers that a request of some bytes at an address touches. -/
def bar2Words (a size : Nat) : List Nat := (List.range (ceilDiv (a % 16 + size) 16)).map (a / 16 + ·)

/-- The device address of a BAR2 request, or none where it is refused (R419). -/
def State.bar2Addr (s : State) (p : Part) (off size : Nat) : Option Nat :=
  (s.bar2Form p off).filter fun a => s.rangeOk p a size && (bar2Words a size).all fun w => s.served p (16 * w)

/-- A refused BAR2 request: its record, by the host port, or by the stack or router that refuses a word inside the partition's
window, and HQ_STATp.BAR2_UNMAPPED (R252, R420). -/
def State.bar2Refuse (s : State) (p : Part) (off size : Nat) : State :=
  let s := match s.bar2Form p off with
    | none => s.emit { hubRec ucHostPort p.val 0x0F (some p) with addr := off }
    | some a =>
      if !s.rangeOk p a size then s.emit { hubRec ucHostPort p.val 0x0F (some p) with addr := a }
      else ((bar2Words a size).filter fun w => !s.served p (16 * w)).foldl (fun s w => s.refuseAt p none (16 * w)) s
  s.hqStat p F.HQ_STAT_BAR2_UNMAPPED

/-- The copies of some words' pages end: a host write to them waits for that (R261). (assumption 24, DEDUCED) -/
def State.awaitCopies (s : State) (ws : List Nat) : State :=
  s.onBulk fun b => { b with copying := b.copying.filter fun g => !ws.any fun w => !inSram (16 * w) && pageOf (16 * w) == g }

/-- A BAR2 write of some bytes at a device address, word by word, at NORMAL (R255, R420). -/
def State.bar2Write (s : State) (p : Part) (a : Nat) (fe : BitVec 2) (bytes : List (Option Byte)) (ep : Bool) : State :=
  let ws := bar2Words a bytes.length
  let padded := List.replicate (a % 16) none ++ bytes
  let some_ (i : Nat) : Nat := (((padded.drop (16 * i)).take 16).filter Option.isSome).length
  let s := (s.awaitCopies ws).charge p false (ws.zipIdx.map fun w => (w.1, 1, some_ w.2))
  (List.range ws.length).foldl (fun s i =>
    let l := (padded.drop (16 * i)).take 16
    let data := ofBytes (l.map fun b => b.getD 0)
    let mask := ofBytes (l.map fun b => if b.isSome then 255 else 0)
    if mask = 0 then s
    else
      match s.hubWrite p ucHostPort p.val ⟨a / 16 + i, BitVec.ofNat 128 data, BitVec.ofNat 128 mask, fe, ep, 1⟩ with
      | .ok _ s => s
      | .wait s => s
      | .refused s => s) s

/-- A BAR2 read, at NORMAL: the bytes, and whether any word of them is poisoned (R255, R420). -/
def State.bar2Read (s : State) (p : Part) (a size : Nat) : State :=
  let ws := bar2Words a size
  let (l, bad, s) := ws.foldl (fun (x : List Byte × Bool × State) w =>
    match x.2.2.hubRead p ucHostPort p.val w 2 with
    | .ok g s => (x.1 ++ toBytes 16 g.data.toNat, x.2.1 || g.poison, s)
    | .wait s => (x.1, x.2.1, s)
    | .refused s => (x.1, true, s)) ([], false, s.charge p true (ws.map fun w => (w, 1, 16)))
  (s.countP p 8 size).onHport p fun h => { h with answer := some (.data (ofBytes ((l.drop (a % 16)).take size)) bad) }

/-- BAR2_ACCESS: a request is translated by its segment and performed, or refused; through the port of a partition that is not
valid, reads return zero and writes are ignored; the bytes written are counted (R415, R419, R420, R545). (assumption 37, DEDUCED) -/
def execBar2Access (p : Part) (off size : Nat) (v : Option (List (Option Byte))) (ep : Bool) (s : State) : Out :=
  if !s.partValid p || s.stage != stageReady then
    .next (if v.isNone then s.onHport p fun h => { h with answer := some (.data 0 false) } else s)
  else
    match s.bar2Addr p off size, v with
    | some a, none => .next (s.bar2Read p a size)
    | some a, some bytes =>
      let fe : BitVec 2 := if s.rb (K.BAR2_SEG p (off / (2 ^ (s.hport p).barLog2 / 64))) F.BAR2_SEG_FE_FILL then 0 else 2
      .next ((s.bar2Write p a fe (bytes.take size) ep).countP p 9 ((bytes.take size).filter Option.isSome).length)
    | none, none => .next ((s.bar2Refuse p off size).onHport p fun h => { h with answer := some .abort })
    | none, some _ => .next (s.bar2Refuse p off size)

end Sys2Proof.Machine
end

