-- ==== Sys2Proof/Machine/Trace.lean ====
section
/-!
DEFINITION. Instruction trace: the control registers, samples, padding, granules written to the ring, anchors, and the marker
slots (spec 20 R546-R556). A tracer is named by its Bench, or 16 for the Hub.
-/

namespace Sys2Proof.Machine

/-! ## The two kinds of tracer -/

def isHub (b : Fin 17) : Bool := b.val == 16
/-- A tracer's Bench. -/
def trBench (b : Fin 17) : Bid := ⟨b.val % 16, by omega⟩
def trCtl (b : Fin 17) : Nat := if isHub b then K.TRC_HUB else K.TRC_CTL b
def trRing (b : Fin 17) : Nat := if isHub b then K.TRC_HUB_RING else K.TRC_RING b
def trPtr (b : Fin 17) : Nat := if isHub b then K.TRC_HUB_PTR else K.TRC_PTR b
def trStat (b : Fin 17) : Nat := if isHub b then K.TRC_HUB_STAT else K.TRC_STAT b
def trEn (b : Fin 17) : Fld := if isHub b then F.TRC_HUB_EN else F.TRC_CTL_EN
def trWrap (b : Fin 17) : Fld := if isHub b then F.TRC_HUB_WRAP else F.TRC_CTL_WRAP

/-- Whether a tracer runs (R554, R556). -/
def State.trOn (s : State) (b : Fin 17) : Bool := s.rb (trCtl b) (trEn b)
/-- The partition whose bulk window holds a tracer's ring (R548). -/
def State.trPart (s : State) (b : Fin 17) : Option Part :=
  if isHub b then some ⟨s.rf K.TRC_HUB F.TRC_HUB_PART % 4, by omega⟩ else s.partOf (trBench b)
def State.trSize (s : State) (b : Fin 17) : Nat := 2 ^ s.rf (trRing b) F.TRC_RING_SIZE_LOG2
def State.trBase (s : State) (b : Fin 17) : Nat := 4096 * s.rf (trRing b) F.TRC_RING_BASE
def State.trTail (s : State) (b : Fin 17) : Nat := s.rf (trPtr b) F.TRC_PTR_TAIL
/-- Entries a tracer has staged. -/
def State.staged (s : State) (b : Fin 17) : List (List Word) :=
  if isHub b then s.mgmt.hubTrace else (s.bench (trBench b)).trace
def State.setStaged (s : State) (b : Fin 17) (l : List (List Word)) : State :=
  if isHub b then s.onMgmt fun m => { m with hubTrace := l } else s.onBench (trBench b) fun x => { x with trace := l }
def State.trPhase (s : State) (b : Fin 17) : Bool :=
  if isHub b then s.mgmt.hubPhase else (s.bench (trBench b)).tracePhase
def State.setTrPhase (s : State) (b : Fin 17) (v : Bool) : State :=
  if isHub b then s.onMgmt fun m => { m with hubPhase := v } else s.onBench (trBench b) fun x => { x with tracePhase := v }
def State.setTrLost (s : State) (b : Fin 17) (n : Nat) : State :=
  if isHub b then s.onMgmt fun m => { m with hubLost := n } else s.onBench (trBench b) fun x => { x with traceLost := n }

/-- An ANCHOR of the Hub: QCK, and the step and host time word of the partition its ring lies in (R549).
(assumption 61, DEDUCED) -/
def State.hubAnchor (s : State) : List Word :=
  let p : Part := (s.trPart 16).getD 0
  traceHead 2 2 false 32 0 0 0 s.mgmt.qcycles.toNat ++
    [pack [(0, 48, s.mgmt.qcycles.toNat), (48, 16, s.mgmt.qwrap.toNat)],
      pack [(0, 48, (s.ctl p).step), (48, 4, (s.ctl p).attempt)], s.reg (K.HOST_TIME p), 0]

/-- An entry of the Hub staged in its 256 KiB buffer, or dropped where that is full (R548-R550). -/
def State.hubAdd (s : State) (e : List Word) : State :=
  if !s.trOn 16 then s
  else
    let m := s.mgmt
    let gap := if m.hubLost = 0 then [] else
      [traceHead 4 0 false 32 0 0 (Nat.min m.hubLost 0xFFFFFFFF) m.qcycles.toNat, s.hubAnchor]
    let new := gap ++ [e]
    if 16384 < traceUnits m.hubTrace + traceUnits new then
      (s.setTrLost 16 (m.hubLost + 1)).setRf K.TRC_HUB_STAT F.TRC_STAT_DROPPED 1
    else
      let new := stampAll m.hubPhase (s.trSize 16) (s.trTail 16 + traceUnits m.hubTrace) new
      s.onMgmt fun y => { y with hubTrace := m.hubTrace ++ new, hubLost := 0 }

/-- An ANCHOR entry of a tracer. -/
def State.anchorNow (s : State) (b : Fin 17) : State :=
  if isHub b then s.hubAdd s.hubAnchor else s.traceAdd (trBench b) (s.anchor (trBench b))

/-- The ANCHORs of a STEP.BEGIN on Bench b: in the Bench's trace, and in the Hub's where its ring lies in the Bench's partition
(R549). (assumption 61, DEDUCED) -/
def State.anchorStep (s : State) (b : Bid) : State :=
  let s := s.anchorNow ⟨b.val, by omega⟩
  if s.trPart 16 == s.partOf b then s.anchorNow 16 else s

/-- A core of the Hub that TRC_HUB.CORES selects may have retired an instruction of its firmware, which the specification does not
give: whether it did, whether its guard held, and its word index are a free value (R548, R549, R556).
(assumption 89, DESIGN CHOICE) -/
def State.hubCoreTrace (s : State) (i : Nat) : State :=
  if !s.rb K.TRC_HUB ⟨i, 1⟩ || !s.hubCore i || hasUnit s.health.bootFailed hubNo ucHubCore i then s
  else
    let (w, s) := s.drawWord
    if bit w 0 then s.hubAdd (traceHead 0 0 (bit w 1) (32 + i) (fld w 2 15) 0 0 s.mgmt.qcycles.toNat) else s

/-- The traced cores of the Hub in one cycle of QCK (R548, R549). -/
def State.hubCores (s : State) : State :=
  if s.trOn 16 then (List.range 32).foldl (fun (s : State) i => s.hubCoreTrace i) s else s

/-! ## The staging unit (R216, R548) -/

/-- A 16-byte unit of entries laid end to end. -/
def granUnit (flat : List Word) (i : Nat) : Line16 :=
  BitVec.ofNat 128 ((flat.getD (2 * i) 0).toNat + 2 ^ 64 * (flat.getD (2 * i + 1) 0).toNat)

/-- Who writes a tracer's granules. -/
def trWho (b : Fin 17) (p : Part) : Who :=
  if isHub b then ⟨0, p, ucHubCore, 0, none, false⟩ else ⟨trBench b, p, ucForeman, 0, none, false⟩

/-- The SRAM word that holds the unit i of those a Bench has staged: its 64 KiB staging unit is filled round and round (R548, R554).
(assumption 89, DESIGN CHOICE) -/
def State.stageWord (s : State) (b : Bid) (i : Nat) : Nat :=
  (b.val * sramSize + s.rf (K.TRC_CTL b) F.TRC_CTL_STAGE * 65536) / 16 + ((s.bench b).traceAt + i) % 4096

/-- Entries that a Bench has made written in its staging unit: in a cycle of its clock after the instruction that made them, at the
latest before their granule is read (R548). (assumption 89, DESIGN CHOICE) -/
def State.stageTrace (s : State) (b : Bid) : State :=
  match s.partOf b with
  | none => s
  | some p =>
    let x := s.bench b
    let n := traceUnits x.trace
    let flat := x.trace.flatten
    let s := (List.range (n - x.traceIn)).foldl (fun (s : State) i =>
      match s.store (trWho ⟨b.val, by omega⟩ p) ⟨s.stageWord b (x.traceIn + i), granUnit flat (x.traceIn + i), allBits, 2, false, 2⟩ with
      | .ok _ s => s
      | .wait s => s
      | .refused s => s) s
    s.onBench b fun x => { x with traceIn := n }

/-- What a staging unit gives; one on an absent bank is poisoned, its bits free (R210, R216, R252, R548).
(assumption 89, DESIGN CHOICE) -/
def Perf.gotOrFree : Perf Got → Got × State
  | .ok g s => (g, s)
  | .wait s | .refused s => (⟨s.drawLine.1, true⟩, s.drawLine.2)

/-- A staged unit read back (R548). -/
def State.readUnit (s : State) (b : Bid) (p : Part) (i : Nat) : Got × State :=
  (s.access (trWho ⟨b.val, by omega⟩ p) ⟨s.stageWord b i, 2, none, 2⟩).gotOrFree

/-- The next granule of a Bench as its staging unit holds it (R548). -/
def State.readStage (s : State) (b : Bid) (p : Part) : List Got × State :=
  (List.range 32).foldl (fun (acc : List Got × State) i =>
    (acc.1 ++ [(acc.2.readUnit b p i).1], (acc.2.readUnit b p i).2)) ([], s)

/-! ## Padding and granules (R548, R550) -/

/-- Units of a 512-byte granule. -/
def granule : Nat := 32

/-- A partial granule filled with PAD entries of one unit each (R548, R549).
(assumption 61, DEDUCED) -/
def State.padStaged (s : State) (b : Fin 17) : State :=
  let l := s.staged b
  let n := traceUnits l
  if n % granule = 0 then s
  else
    let cyc := if isHub b then s.mgmt.qcycles.toNat else (s.bench (trBench b)).cycles.toNat
    let src := if isHub b then 32 else b.val
    let pads := List.replicate (granule - n % granule) (traceHead 15 0 false src 0 0 0 cyc)
    s.setStaged b (l ++ stampAll (s.trPhase b) (s.trSize b) (s.trTail b + n) pads)

/-- TRACE_FLUSH_TIMER: no entry for 65,536 cycles (R548). -/
def execTraceFlushTimer (b : Fin 17) (s : State) : Out := .next (if s.trOn b then s.padStaged b else s)

/-- Whether a partial granule is to be written at once: EN is 0, or the Foreman rests (R548). -/
def State.trRests (s : State) (b : Fin 17) : Bool :=
  !s.trOn b || (!isHub b && (let st := (s.fm (trBench b)).st; st == FmState.stopped || st == .halted || st == .faulted))

/-- The units of a tracer's next granule: the Hub's from its buffer, a Bench's from its staging unit (R548). -/
def State.nextGranule (s : State) (b : Fin 17) (p : Part) : List Got × State :=
  if isHub b then ((List.range granule).map fun i => ⟨granUnit s.mgmt.hubTrace.flatten i, false⟩, s) else s.readStage (trBench b) p

/-- Words that a granule writes at a tracer's TAIL, at BULK priority (R548). -/
def State.trWrites (s : State) (b : Fin 17) (units : List Got) : List WrReq :=
  units.zipIdx.map fun u => ⟨s.trBase b / 16 + s.trTail b + u.2, u.1.data, allBits, 2, u.1.poison, 2⟩

/-- A granule gone from a Bench's staging unit. -/
def State.unstage (s : State) (b : Fin 17) : State :=
  if isHub b then s
  else s.onBench (trBench b) fun x => { x with traceAt := (x.traceAt + granule) % 4096, traceIn := x.traceIn - granule }

/-- Whether the ring can take a granule: it never holds 2^SIZE_LOG2 units beyond HEAD, unless WRAP is set (R550). -/
def State.trRoom (s : State) (b : Fin 17) : Bool :=
  let size := s.trSize b
  let used := (s.trTail b + size - s.rf (trPtr b) F.TRC_PTR_HEAD % size) % size
  s.rb (trCtl b) (trWrap b) || used + granule ≤ size - 1

/-- A granule written and TAIL advanced; PHASE inverts at the wrap (R548, R549).
(assumption 61, DEDUCED) -/
def State.putGranule (s : State) (b : Fin 17) (p : Part) : State :=
  let (units, s) := s.nextGranule b p
  match State.writeAll (trWho b p) (s.trWrites b units) s with
  | (.refused s, _) => s
  | (.wait s, _) => s
  | (.ok _ s, _ :: _) => s
  | (.ok _ s, []) =>
    let rest := (s.staged b).flatten.drop (2 * granule)
    let s := (s.setStaged b (if rest.isEmpty then [] else [rest])).unstage b
    let t := (s.trTail b + granule) % s.trSize b
    let s := s.setRf (trPtr b) F.TRC_PTR_TAIL t
    if t = 0 then s.setTrPhase b !(s.trPhase b) else s

/-- TRACE_GRANULE_WRITE: a staged granule goes to the ring; with the ring full and WRAP at 0 it waits, and FULL is set (R548,
R550). -/
def execTraceGranuleWrite (b : Fin 17) (s : State) : Out :=
  let s := if s.trRests b then s.padStaged b else s
  let s := if isHub b then s else s.stageTrace (trBench b)
  if traceUnits (s.staged b) < granule then .next s
  else
    match s.trPart b with
    | none => .next s
    | some p => .next (if s.trRoom b then s.putGranule b p else s.setRf (trStat b) F.TRC_STAT_FULL 1)

/-! ## Control (R554, R556) -/

/-- Whether a tracer's ring lies wholly in its bulk window (R554). -/
def State.trRingOk (s : State) (b : Fin 17) : Bool :=
  match s.trPart b with
  | none => false
  | some p => bulkBase ≤ s.trBase b && s.rangeOk p (s.trBase b) (16 * s.trSize b)

def State.trRefused (s : State) (b : Fin 17) : State := s.setRf (trStat b) F.TRC_STAT_REFUSED 1

/-- A tracer that starts: TAIL and HEAD 0, PHASE 1, nothing staged, an ANCHOR made (R549, R554). -/
def State.trStart (s : State) (b : Fin 17) : State :=
  let s := (((s.setReg (trPtr b) 0).setTrPhase b true).setStaged b []).setTrLost b 0
  let s := if isHub b then s else s.onBench (trBench b) fun x => { x with traceAt := 0, traceIn := 0 }
  s.anchorNow b

/-- A write of a tracer's control word: with EN at 1 only EN changes; EN is set only over a ring in the window (R548, R554).
(assumption 61, DEDUCED) -/
def State.writeTrcCtl (s : State) (b : Fin 17) (v : Word) : State :=
  let k := trCtl b
  let en := trEn b
  let old := s.reg k
  let new := match regAt regMap k with | some (r, _) => applyWrite r.fields true old v | none => old
  if s.trOn b then
    let s := if setFld new en.lo 1 0 = setFld old en.lo 1 0 then s else s.trRefused b
    if bit new en.lo then s else (s.setReg k (setFld old en.lo 1 0)).padStaged b
  else if bit new en.lo then
    let t := s.setReg k new
    if t.trRingOk b then t.trStart b else s.trRefused b
  else s.setReg k new

/-- TRACE_EN_WRITE (R554). -/
def execTraceEnWrite (b : Fin 17) (v : Word) (s : State) : Out := .next (s.writeTrcCtl b v)

/-- A write of a tracer's ring or sample register: ignored while EN is 1 (R554); SIZE_LOG2 takes only 12 to 28. -/
def State.writeTrcCfg (s : State) (b : Fin 17) (k : Nat) (v : Word) : State :=
  if s.trOn b then s.trRefused b
  else
    let n := fld v 0 5
    let size := s.rf k F.TRC_RING_SIZE_LOG2
    let s := s.writeReg k true v
    if k = trRing b && (n < 12 || 28 < n) then s.setRf k F.TRC_RING_SIZE_LOG2 size else s

/-! ## Samples and anchors (R549) -/

/-- The counter a TRC_SEL number names; reserved numbers sample as zero (R549). -/
def State.sampled (s : State) (b : Bid) (n : Nat) : Word :=
  if n < 512 then s.reg (K.BENCH_CTR b n)
  else if 0x8000 ≤ n then
    let c := (n - 0x8000) / 8
    if n % 8 = 7 then s.reg (K.TALLY_AMAX b c) else s.reg (K.TALLY b c (n % 8))
  else 0

/-- TRACE_SAMPLE_TIMER: a SAMPLE entry every SAMPLE_PERIOD × 1,024 cycles (R549). -/
def execTraceSampleTimer (b : Bid) (s : State) : Out :=
  if !s.traceOn b || s.rf (K.TRC_CTL b) F.TRC_CTL_SAMPLE_PERIOD = 0 then .next s
  else
    let sel := s.reg (K.TRC_SEL b)
    let head := traceHead 3 2 false b (s.fm b).pc.toNat 0 (s.markOf b).toNat (s.bench b).cycles.toNat
    .next (s.traceAdd b (head ++ (List.range 4).map fun i => s.sampled b (fld sel (16 * i) 16)))

/-- A clock's count at the next value whose low 32 bits are zero, and WRAP (R470). -/
def nextLowZero (c : BitVec 48) (w : BitVec 16) : BitVec 48 × BitVec 16 :=
  let n := (c.toNat / 2 ^ 32 + 1) * 2 ^ 32
  (BitVec.ofNat 48 n, if n = 2 ^ 48 then w + 1 else w)

/-- CYCLES_LOW_WRAP_ANCHOR: CYCLES[31:0] of a clock that runs passes zero, and its tracer makes an ANCHOR (R470, R549).
(assumption 61, DEDUCED) -/
def execCyclesLowWrapAnchor (b : Fin 17) (s : State) : Out :=
  if !s.pwr.mainOn then .next s
  else if isHub b then
    let (c, w) := nextLowZero s.mgmt.qcycles s.mgmt.qwrap
    .next ((s.onMgmt fun m => { m with qcycles := c, qwrap := w }).anchorNow b)
  else if s.rb (K.CLK_BENCH b) F.CLK_BENCH_STOPPED then .next s
  else
    let (c, w) := nextLowZero (s.bench (trBench b)).cycles (s.bench (trBench b)).wrap
    .next ((s.onBench (trBench b) fun x => { x with cycles := c, wrap := w }).anchorNow b)

/-! ## Marker slots (R546, R555) -/

/-- A write of a marker slot's ID clears its three counters (R546). -/
def State.writeMkId (s : State) (b : Bid) (i : Nat) (v : Word) : State :=
  (s.writeReg (K.MK_ID b i) false v).resetRegs (K.MK_CNT b i 0) (K.MK_CNT b i 2 + 1)

/-- MK_SLOT_ID_WRITE (R546). -/
def execMkSlotIdWrite (b : Bid) (slot : Fin 8) (v : Word) (s : State) : Out := .next (s.writeMkId b slot v)

end Sys2Proof.Machine
end

