-- ==== Sys2Proof/Machine/Weighbridge.lean ====
section
/-!
DEFINITION. The Weighbridge: dispatch and opening of WGH.RED and WGH.SPARSE, grants, contributions and their checks, the
slot-ordered sum, results, backups, abandonment, and the actions at a step's outcome (spec 13 R361-R387; 11 R332,
R333).
-/

namespace Sys2Proof.Machine

/-! ## Dispatch (R332) -/

/-- WGH.RED dispatched (R365). -/
def execWghRed (h : Issue) (da db : BitVec 4) (ra rb : BitVec 5) (axis : BitVec 3) (noise : Bool) (s : State) : Out :=
  issue h 1 (opcodeOf 6 1) (dispatch 6 (.red axis noise) 0 [da, db] [ra, rb]) s

/-- WGH.SPARSE dispatched; PAR is captured (R366). -/
def execWghSparse (h : Issue) (da db dc dd : BitVec 4) (ra rb : BitVec 5) (axis : BitVec 3) (s : State) : Out :=
  issue h 1 (opcodeOf 6 2) (dispatch 6 (.sparse axis) 0 [da, db, dc, dd] [ra, rb]) s

/-! ## What a WGH instruction names -/

def wghSparse (e : Entry) : Bool := match e.op with | .sparse _ => true | _ => false
def wghAxis (e : Entry) : Nat := match e.op with | .red a _ => a.toNat | .sparse a => a.toNat | _ => 0
def wghNoise (e : Entry) : Bool := match e.op with | .red _ n => n | _ => false
/-- BUCKET, SLOT and CYCLES of the packed words (R333). -/
def wghBucket (e : Entry) : BitVec 32 := BitVec.ofNat 32 (fld (e.rs.getD 0 0) 0 32)
def wghSlot (e : Entry) : Nat := fld (e.rs.getD 0 0) 32 16
def wghCycles (e : Entry) : Nat := fld (e.rs.getD 1 0) 0 48
/-- The dense result's descriptor index. -/
def wghRes (e : Entry) : Nat := if wghSparse e then 2 else 1

/-- A residual buffer (R366). -/
def residBuf (e : Entry) (n : Nat) : Tensor :=
  let t := e.tensor 3
  if n = 0 then t else { t with base := t.base + pageSize * ceilDiv t.footprint pageSize }

/-! ## The group (R363, R364) -/

/-- The slots of an instruction's group, each its members in listed order; none without an epoch or a group (R363). -/
def State.wghGroup (s : State) (p : Part) (e : Entry) : Option (List (List (Nat × Nat))) :=
  (s.ctl p).mapping.bind fun m => (m.groups.getD (wghAxis e) none)

/-- This module as a member. -/
def State.me (s : State) (p : Part) : Nat × Nat := (s.modId, p.val)

/-- The first member of a slot that is not lost. -/
def State.firstLive (s : State) (p : Part) (l : List (Nat × Nat)) : Option (Nat × Nat) := l.find? fun m => !s.isLost p m.1

/-- Elements of a bucket and of a shard: L, the first element of shard j and its number of elements (R364). -/
def shardLen (elems slots : Nat) : Nat := 64 * ceilDiv elems (64 * slots)
def Bucket.lo (k : Bucket) (j : Nat) : Nat := Nat.min (j * k.lsize) k.elems
def Bucket.len (k : Bucket) (j : Nat) : Nat := Nat.min ((j + 1) * k.lsize) k.elems - k.lo j

/-- Stage units a bucket takes for each shard it owns (R369). -/
def stageUnits (sparse : Bool) (slots lsize cap : Nat) : Nat :=
  ceilDiv ((if sparse then 8 * (slots - 1) * cap else 4 * (slots - 1) * lsize)) 65536

/-- CAP in pairs, and the stage's size and use in 64 KiB units (R367, R383-R385). -/
def State.wghCap (s : State) (b : Bid) : Nat := 256 * s.rf (K.WGH_CTL b) F.WGH_CTL_SPARSE_CAP
def State.stageSize (s : State) (b : Bid) : Nat := s.rf (K.WGH_STAGE b) F.WGH_STAGE_SIZE
def State.stageUsed (s : State) (b : Bid) : Nat :=
  ((s.wgh b).buckets.map fun k => (k.shards.map fun x => x.units).sum).sum

/-! ## Opening (R361-R366, R369) -/

/-- The shards of a group that this module owns. -/
def ownedShards (me : Nat × Nat) (owners : List (Option (Nat × Nat))) : List Nat :=
  (List.range owners.length).filter fun j => owners.getD j none == some me

/-- The units an instruction's stage space takes. -/
def State.wghUnits (s : State) (b : Bid) (p : Part) (e : Entry) (slots : List (List (Nat × Nat))) : Nat :=
  let n := slots.length
  (ownedShards (s.me p) (slots.map (s.firstLive p))).length
    * stageUnits (wghSparse e) n (shardLen (e.tensor 0).count n) (s.wghCap b)

/-- Whether two descriptors agree except in FE_RD and FE_WR. -/
def sameButFe (a d : Tensor) : Bool := { a with feRd := 0, feWr := 0 } == { d with feRd := 0, feWr := 0 }

/-- The checks of a WGH instruction at the head of its queue (R362-R366, R369, R573). -/
def State.wghChecks (b : Bid) (s : State) (e : Entry) (_ : Nat) : List (Bool × FCode) :=
  let p := (s.partOf b).getD 0
  let sp := wghSparse e
  let a := e.tensor 0
  let r := e.tensor (wghRes e)
  let i := e.tensor 1
  let r0 := residBuf e 0
  let r1 := residBuf e 1
  let dense (t : Tensor) : Bool := t.fmt == F32 && t.bs == 0
  let slots := (s.wghGroup p e).getD []
  let mine := slots.getD (wghSlot e) []
  let clash (l : List Tensor) : Bool := l.zipIdx.any fun x => l.zipIdx.any fun y => x.2 < y.2 && x.1.overlaps y.1
  [ (5 ≤ wghAxis e || fld (e.rs.getD 0 0) 48 16 != 0 || fld (e.rs.getD 1 0) 48 16 != 0, .instrInvalid),
    ((List.range e.ds.length).any (fun n => !s.descOk p (e.desc n)) || !r.distinct
        || (sp && (!r0.distinct || !s.rangeOk p r1.base (r1.limit - r1.base))), .descInvalid),
    (!dense a || !dense r || (sp && (!dense r0 || i.fmt != I32)), .formatUnsupported),
    (r.ext != a.ext || (sp && (r0.ext != a.ext || i.ndim != 1)), .shapeInvalid),
    (if sp then clash [a, i, r, r0, r1] else a.overlaps r && !sameButFe a r, .copyOverlap),
    ((wghBucket e).toNat / 2 ^ 28 != b.val, .bucketBench),
    (!mine.contains (s.me p), .slotInvalid),
    ((s.wgh b).buckets.any fun k => k.id == wghBucket e, .bucketBusy),
    (slots.any fun l => (s.firstLive p l).isNone, .reduceUnreachable),
    (s.stageSize b < s.wghUnits b p e slots, .stageTooSmall) ]

/-- The copies an owner awaits: each slot's first member that is not lost (R369, R374). -/
def State.freshCopies (s : State) (p : Part) (slots : List (List (Nat × Nat))) : List SlotCopy :=
  slots.map fun l => ⟨(l.findIdx? fun m => !s.isLost p m.1).getD 0, false, [], none, false⟩

/-- The reads of a WGH instruction: its contribution, and its index tensor; reduction traffic is NORMAL whatever PRIO is (R29,
R365, R366). -/
def wghReads (e : Entry) : List RdReq :=
  ((if wghSparse e then (e.tensor 1).reads none else []) ++ (e.tensor 0).reads none).map fun r => { r with cls := 1 }

/-- The bucket an instruction opens, with the grants that came before it (R369). -/
def State.newBucket (s : State) (b : Bid) (p : Part) (e : Entry) (slots : List (List (Nat × Nat))) : Bucket :=
  let n := slots.length
  let elems := (e.tensor 0).count
  let owners := slots.map fun l => (s.firstLive p l).getD (0, 0)
  let lsize := shardLen elems n
  let cap := s.wghCap b
  let granted (j : Nat) : Option Nat :=
    ((s.wgh b).grants.find? fun g => g.bucket == wghBucket e && g.step == e.step && g.src == owners.getD j (0, 0)).map (·.cap)
  { e := e, id := wghBucket e, slot := wghSlot e, slots := slots, owners := owners, elems := elems, lsize := lsize
    sparse := wghSparse e, noise := wghNoise e, cap := cap
    shards := (List.range n).map fun j =>
      if owners.getD j (0, 0) = s.me p then
        { Shard.fresh with copies := s.freshCopies p slots, units := stageUnits (wghSparse e) n lsize cap }
      else { Shard.fresh with granted := granted j }
    reads := wghReads e, got := [], idxRead := false, writes := [], remDone := false, late := false,
    held := [], shadow := [] }

/-- The bytes of payloads that follow each other without a gap from offset 0 (R367). -/
def joined (l : Tab (List Byte)) : List Byte :=
  l.foldl (fun acc e => if e.1 ≤ acc.length then acc.take e.1 ++ e.2 else acc) []
/-- The bytes of a copy, and of a shard's result, as far as they have arrived without a gap (R367, R369). -/
def SlotCopy.bytes (c : SlotCopy) : List Byte := joined c.parts
def Shard.result (x : Shard) : List Byte := joined x.got

/-! ## Buckets and shards rewritten -/

def State.bucket (s : State) (b : Bid) (id : BitVec 32) : Option Bucket := (s.wgh b).buckets.find? fun k => k.id == id
def State.setBucket (s : State) (b : Bid) (k : Bucket) : State :=
  s.onWgh b fun w => { w with buckets := w.buckets.map fun x => if x.id = k.id then k else x }
def State.dropBucket (s : State) (b : Bid) (id : BitVec 32) : State :=
  s.onWgh b fun w => { w with buckets := w.buckets.filter fun x => x.id != id }
def State.onBucket (s : State) (b : Bid) (id : BitVec 32) (f : Bucket → Bucket) : State :=
  match s.bucket b id with | some k => s.setBucket b (f k) | none => s
def Bucket.shard (k : Bucket) (j : Nat) : Shard := k.shards.getD j Shard.fresh
def Bucket.onShard (k : Bucket) (j : Nat) (f : Shard → Shard) : Bucket := { k with shards := k.shards.modify j f }
def Shard.onCopy (x : Shard) (i : Nat) (f : SlotCopy → SlotCopy) : Shard := { x with copies := x.copies.modify i f }

/-! ## The order among a Weighbridge's buckets (R205, R206, R216, R257) -/

/-- The requests of the buckets opened before one: they hold back its own to the same words and granules. -/
def State.olderAsks (s : State) (b : Bid) (id : BitVec 32) : List Ask :=
  ((s.wgh b).buckets.takeWhile fun x => x.id != id).flatMap Bucket.wants

/-- What remains of a write that later instructions have overwritten in part (R216). -/
def uncovered (shadow : Tab Line16) (w : WrReq) : Option WrReq :=
  let m := w.mask &&& ~~~ tget 0 shadow w.word
  if m = 0 then none else some { w with mask := m }

/-- Words a bucket is to write, but for the bytes that a later instruction has written already (R216). -/
def Bucket.plan (k : Bucket) (l : List WrReq) : Bucket := { k with writes := k.writes ++ l.filterMap (uncovered k.shadow) }

/-- Writes of a later instruction: they prevail over this bucket's, which have yet to come (R216). -/
def Bucket.shade (k : Bucket) (l : List WrReq) : Bucket :=
  let sh := l.foldl (fun t w => tset 0 t w.word (tget 0 t w.word ||| w.mask)) k.shadow
  { k with shadow := sh, writes := k.writes.filterMap (uncovered sh) }

/-- Writes of a bucket, performed, prevail over those of every bucket opened before it (R216). -/
def State.shadeOlder (s : State) (b : Bid) (id : BitVec 32) (l : List WrReq) : State :=
  s.onWgh b fun w =>
    { w with
      buckets := ((w.buckets.takeWhile fun x => x.id != id).map fun k => k.shade l)
        ++ w.buckets.dropWhile fun x => x.id != id }

/-- The requests of a bucket that now wait at a bank, each counted as it parks (R213, R544). -/
def State.noteParked (s : State) (b : Bid) (id : BitVec 32) : State :=
  match s.bucket b id with
  | none => s
  | some k =>
    let now := (openAsks (s.olderAsks b id) k.wants).filter fun a => inSram a.addr && !s.performable a
    let s := now.foldl (fun s a => s.park a.word (k.held.contains (a.isRead, a.word))) s
    s.setBucket b { k with held := now.map fun a => (a.isRead, a.word) }

/-- A packet or a copy discarded and counted (R369, R371, R374, R377). -/
def State.wghDiscard (s : State) (b : Bid) : State := s.countB b 110 1

/-- Who a bucket's accesses and records name. -/
def Bucket.who (s : State) (b : Bid) (k : Bucket) : Who := k.e.who s b 6 0

/-- A bucket's instruction ends with a fault, and the bucket is closed (R301). -/
def State.wghFail (s : State) (b : Bid) (k : Bucket) (c : FCode) : State :=
  (s.dropBucket b k.id).fault (k.e.at_ b 6 0) c

/-! ## Packets (R367) -/

/-- A REDUCE packet sent to a member (R344, R367). -/
def State.sendReduce (s : State) (p : Part) (k : Bucket) (to_ : Nat × Nat) (op slot addr : Nat) (payload : List Byte) : State :=
  s.send p (s.packet p ⟨to_.1, ⟨to_.2 % 4, by omega⟩, clsReduce, op, k.e.step, slot, k.id.toNat, 0, false, addr⟩ payload)

/-- Bytes padded with zeros to whole 16-byte units. -/
def padUnits (l : List Byte) : List Byte := l ++ List.replicate (roundUp l.length 16 - l.length) 0

/-- Bytes in pieces of at most 4,096, each with its offset. -/
def pieces (l : List Byte) : List (Nat × List Byte) :=
  (List.range (ceilDiv l.length 4096)).map fun i => (4096 * i, padUnits ((l.drop (4096 * i)).take 4096))

/-- Every member of every slot but this module. -/
def State.others (s : State) (p : Part) (k : Bucket) : List (Nat × Nat) := k.slots.flatten.filter fun m => m != s.me p

/-! ## Check words (R368, R371, R372) -/

/-- f64x of a list of exact values: one rounding to binary64. -/
def f64x (xs : List X) : Word := BitVec.ofNat 64 (enc64 (X.sum xs))

/-- The SUMS words of the values sent (R368, R371). -/
def sumsWords (codes : List Nat) (noise poison : Bool) : List Word :=
  let xs := codes.map dec32
  [f64x xs, f64x (xs.map X.abs), if noise then f64x (xs.map fun x => x.mul x) else 0,
    pack [(0, 32, codes.length), (32, 1, if poison then 1 else 0)]]

/-- Binary64 values added in order. -/
def sum64 (l : List Word) : Word :=
  match l with
  | [] => 0
  | x :: rest => rest.foldl (fun a y => BitVec.ofNat 64 (enc64 ((dec64 a.toNat).add (dec64 y.toNat)))) x

/-- Binary32 codes of bytes, and the pairs of a sparse list. -/
def codesFrom (l : List Byte) (n : Nat) : List Nat := (List.range n).map fun i => ofBytes ((l.drop (4 * i)).take 4)
def pairsFrom (l : List Byte) (n : Nat) : List (Nat × Nat) :=
  (List.range n).map fun i => (ofBytes ((l.drop (8 * i)).take 4), ofBytes ((l.drop (8 * i + 4)).take 4))

/-- Count of a SUMS or RSUMS image. -/
def sumsCount (w : Word) : Nat := fld w 0 32

/-! ## Contributions (R365, R366, R369) -/

/-- Element i's index vector, its code and its words in a bucket's contribution. -/
def Bucket.ix (k : Bucket) (i : Nat) : List Nat := unrank (k.e.tensor 0).ext i
def Bucket.code (k : Bucket) (i : Nat) : Nat := (k.e.tensor 0).code k.got (k.ix i)
def Bucket.psn (k : Bucket) (i : Nat) : Bool := (k.e.tensor 0).poisonedAt k.got (k.ix i)
/-- Whether every word of some elements was read. -/
def Bucket.has (k : Bucket) (is : List Nat) : Bool :=
  is.all fun i => ((k.e.tensor 0).elemWords (k.ix i)).all fun w => k.got.any fun g => g.1 == w

/-- The index tensor's entries, once they were read (R228, R366). -/
def Bucket.indexes (k : Bucket) : List IndexOut :=
  let t := k.e.tensor 1
  (List.range (t.n 0)).map (indexAt t k.got k.elems)
def Bucket.indexesIn (k : Bucket) : Bool := (k.e.tensor 1).words.all fun w => k.got.any fun g => g.1 == w

/-- The elements a module sends to the owner of shard j, in order. -/
def Bucket.part (k : Bucket) (j : Nat) : List Nat :=
  if k.sparse then
    (k.indexes.filterMap fun x => x.slice).filter fun i => k.lo j ≤ i && i < k.lo j + k.len j
  else (List.range (k.len j)).map (k.lo j + ·)

/-- Elements, or pairs, in one chunk of a part (R381). -/
def chunkLen : Nat := 64
/-- Bytes of an element, or of a pair (R367). -/
def Bucket.size (k : Bucket) : Nat := if k.sparse then 8 else 4

/-- Whether chunk i of shard j's part can go: the indices and its words were read (R365, R381). -/
def Bucket.chunkReady (k : Bucket) (j i : Nat) : Bool :=
  (!k.sparse || k.indexesIn) && k.has (((k.part j).drop (chunkLen * i)).take chunkLen)

/-- Whether the part of shard j can be sent whole: its indices and its words were read. -/
def Bucket.partReady (k : Bucket) (j : Nat) : Bool := (!k.sparse || k.indexesIn) && k.has (k.part j)

/-- The bytes of a part (R367). -/
def Bucket.partBytes (k : Bucket) (j : Nat) : List Byte :=
  (k.part j).flatMap fun i => if k.sparse then toBytes 4 i ++ toBytes 4 (k.code i) else toBytes 4 (k.code i)

/-- The SUMS words of a part. -/
def Bucket.partSums (k : Bucket) (j : Nat) : List Word :=
  let l := k.part j
  sumsWords (l.map k.code) k.noise (l.any k.psn)

/-! ## Writing results (R365, R366, R375, R380) -/

/-- The result tensor of a bucket. -/
def Bucket.res (k : Bucket) : Tensor := k.e.tensor (wghRes k.e)
def Bucket.rix (k : Bucket) (i : Nat) : List Nat := unrank k.res.ext i

/-- The codes of a shard's result range that this member holds so far, from its first element: received values of a dense
result; of a sparse one all, listed positions with their values and the others +0. -/
def Bucket.values (k : Bucket) (j : Nat) : List Nat :=
  let x := k.shard j
  if k.sparse then
    let ps := pairsFrom x.result (x.result.length / 8)
    (List.range (k.len j)).map fun i => ((ps.find? fun q => q.1 == k.lo j + i).map Prod.snd).getD 0
  else codesFrom x.result (Nat.min (x.result.length / 4) (k.len j))

/-- An element's result as far as it stands: its code, and whether its shard is written poisoned; none while it is to come. -/
def Bucket.outAt (k : Bucket) (vals : List (List Nat)) (i : Nat) : Option (Nat × Bool) :=
  let j := if k.lsize = 0 then 0 else i / k.lsize
  let x := k.shard j
  if x.abandoned then some (0, true) else ((vals.getD j [])[i - k.lo j]?).map fun v => (v, false)

/-- The elements whose results lie in a word. -/
def Bucket.wordElems (k : Bucket) (w : Nat) : List Nat :=
  (List.range k.elems).filter fun i => (k.res.elemWords (k.rix i)).contains w

/-- The writes of the words that some elements reach and whose every element is known: a word is written once it is final
(R212, R365), at NORMAL whatever PRIO is (R29). -/
def Bucket.resultWrites (k : Bucket) (is : List Nat) : List WrReq :=
  let vals := (List.range k.shards.length).map k.values
  let ws := (is.flatMap fun i => k.res.elemWords (k.rix i)).eraseDups
  ws.filterMap fun w =>
    let es := k.wordElems w
    if es.any fun i => (k.outAt vals i).isNone then none
    else
      let bits := es.foldl (fun (t : Tab WordBits) i =>
        let o := (k.outAt vals i).getD (0, false)
        k.res.putElem t (k.rix i) o.1 o.2) []
      (bits.find? fun x => x.1 == w).map fun x => ⟨w, x.2.data, x.2.mask, BitVec.ofNat 2 k.res.feWr, x.2.poison, 1⟩

/-- A shard's whole range planned for writing. (assumption 57, DEDUCED) -/
def Bucket.planShard (k : Bucket) (j : Nat) : Bucket :=
  k.plan (k.resultWrites ((List.range (k.len j)).map (k.lo j + ·)))

/-- NONFIN, ELEM and NZ of some written binary32 codes (R64, R141, R380). -/
def f32Events (codes : List Nat) : Ev :=
  codes.foldl (fun e c =>
    let x := dec32 c
    e.plus { Ev.none with
      nonfin := if x.isFinite then 0 else 1, elem := 1, nz := if x.isFinite && !x.isZero then 1 else 0 }) Ev.none

/-- A Weighbridge's vote is ABORT from now on, reported to the step controller at once (R375, R378). -/
def State.wghAbort (s : State) (b : Bid) (p : Part) : State :=
  let s := s.onWgh b fun w => { w with voteAbort := true }
  if (s.ctl p).live then s.onCtl p fun c => c.cause causeWeighbridge else s

/-- A Weighbridge's record, at chip level (R22, R371-R375). -/
def State.wghRecord (s : State) (b : Bid) (k : Bucket) (event : Nat) (vote : Vote) (syn : Word) : State :=
  s.emit { (k.who s b).rec_ event 0 vote with level := 3, syn := syn }

/-- A shard abandoned on this side: its range is written poisoned; `votes` says whether it votes ABORT, `tells` whether an owner
sends ABANDON (R375, R377). (assumption 14, DEDUCED) -/
def State.abandonShard (s : State) (b : Bid) (p : Part) (id : BitVec 32) (j : Nat) (votes tells : Bool) : State :=
  match s.bucket b id with
  | none => s
  | some k =>
    let x := k.shard j
    if x.abandoned || x.resultDone then s
    else
      let k := (k.onShard j fun x => { x with abandoned := true, units := 0, resultSent := true }).planShard j
      let s := s.setBucket b k
      let s := s.setRb (K.WGH_STAT b) F.WGH_STAT_ABANDONED true
      let s := if votes then (s.wghRecord b k 0x0D .abort (BitVec.ofNat 64 j)).wghAbort b p else s
      if tells && k.owners.getD j (0, 0) == s.me p then
        (s.others p k).foldl (fun s m => s.sendReduce p k m 6 j 0 []) s
      else s

/-! ## Grants (R369, R374) -/

/-- A GRANT sent to the member a slot's copy waits for, unless its DRAIN is still awaited (R369, R377). -/
def State.sendGrant (s : State) (b : Bid) (p : Part) (k : Bucket) (j i : Nat) : State :=
  let c := (k.shard j).copies.getD i ⟨0, false, [], none, false⟩
  let m := (k.slots.getD i []).getD c.member (0, 0)
  if c.granted || c.taken || m = s.me p || (s.wgh b).awaitDrain.contains m then s
  else
    let w : Word := if k.sparse then BitVec.ofNat 64 k.cap else 0
    let s := s.sendReduce p k m 4 i 0 (padUnits (wordBytes [w]))
    let s := if c.member = 0 then s else s.setRb (K.WGH_STAT b) F.WGH_STAT_GRANTED_BACKUP true
    s.onBucket b k.id fun k => k.onShard j fun x => x.onCopy i fun c => { c with granted := true }

/-- Every GRANT that an owner may send. -/
def State.sendGrants (s : State) (b : Bid) (p : Part) (k : Bucket) : State :=
  (List.range k.shards.length).foldl (fun s j =>
    if k.owners.getD j (0, 0) != s.me p || (k.shard j).abandoned then s
    else (List.range k.slots.length).foldl (fun s i => s.sendGrant b p k j i) s) s

/-- The next backup of a slot is granted, its incomplete or invalid copy discarded and counted; with no backup left the shard is
abandoned (R371, R374, R544). -/
def State.nextBackup (s : State) (b : Bid) (p : Part) (id : BitVec 32) (j i : Nat) : State :=
  match s.bucket b id with
  | none => s
  | some k =>
    let x := k.shard j
    let c := x.copies.getD i ⟨0, false, [], none, false⟩
    if c.taken || x.abandoned || x.resultSent then s
    else
      let s := if c.parts.isEmpty && c.sums.isNone then s else s.wghDiscard b
      let l := k.slots.getD i []
      match (List.range l.length).find? fun n => c.member < n && !s.isLost p (l.getD n (0, 0)).1 with
      | none => s.abandonShard b p id j true true
      | some n =>
        let k := k.onShard j fun x => x.onCopy i fun _ => ⟨n, false, [], none, false⟩
        (s.setBucket b k).sendGrant b p k j i

/-! ## Progress: reads, parts, own copies, writes -/

/-- Requests performed each on its own, as a bank's or a stack's grants to the Weighbridge: those that must wait stay, and so do
those that one of `before`, or of their own list, holds back (R205, R206, R257). -/
def State.readEach (w : Who) : List Ask → List RdReq → Tab Got → State → Perf (Tab Got) × List RdReq
  | _, [], g, s => (.ok g s, [])
  | before, r :: rest, g, s =>
    if before.any fun x => x.behind (.rd r) then
      let y := State.readEach w (.rd r :: before) rest g s
      (y.1, r :: y.2)
    else
      match s.access w r with
      | .ok x s' => State.readEach w before rest (tput g r.word x) (s'.noteGrant w.b 26 r.word)
      | .wait s' => let y := State.readEach w (.rd r :: before) rest g s'; (y.1, r :: y.2)
      | .refused s' => (.refused s', r :: rest)
def State.writeEach (w : Who) : List Ask → List WrReq → State → Perf Unit × List WrReq
  | _, [], s => (.ok () s, [])
  | before, r :: rest, s =>
    if before.any fun x => x.behind (.wr r) then
      let y := State.writeEach w (.wr r :: before) rest s
      (y.1, r :: y.2)
    else
      match s.store w r with
      | .ok _ s' => State.writeEach w before rest (s'.noteGrant w.b 26 r.word)
      | .wait s' => let y := State.writeEach w (.wr r :: before) rest s'; (y.1, r :: y.2)
      | .refused s' => (.refused s', r :: rest)

/-- A copy that is complete is taken when valid; an invalid one is recorded, discarded, and its slot's next backup granted
(R371, R374). -/
def State.checkCopy (s : State) (b : Bid) (p : Part) (id : BitVec 32) (j i : Nat) : State :=
  match s.bucket b id with
  | none => s
  | some k =>
    let c := (k.shard j).copies.getD i ⟨0, false, [], none, false⟩
    match c.sums with
    | none => s
    | some ws =>
      let n := sumsCount (ws.getD 3 0)
      let size := k.size
      if c.taken || c.bytes.length < size * n then s
      else
        let codes := if k.sparse then (pairsFrom c.bytes n).map Prod.snd else codesFrom c.bytes n
        let want := sumsWords codes false false
        let ok := ws.getD 0 0 == want.getD 0 0 && ws.getD 1 0 == want.getD 1 0 && !bit (ws.getD 3 0) 32
          && roundUp (size * n) 16 == c.bytes.length && (k.sparse || n == k.len j)
        if ok then s.setBucket b (k.onShard j fun x => x.onCopy i fun c => { c with taken := true })
        else
          let s := (s.wghRecord b k 0x0B .pass (BitVec.ofNat 64 i)).setRb (K.WGH_STAT b) F.WGH_STAT_COPY_INVALID true
          s.nextBackup b p id j i

/-- Whether a sparse part is longer than the CAP it may fill (R369). -/
def Bucket.overCap (k : Bucket) (j cap : Nat) : Bool := k.sparse && k.indexesIn && cap < (k.part j).length

/-- The chunks of shard j's part that can go now leave in CONTRIB packets in ascending ADDR, with SUMS behind the last (R365, R369,
R381). Chunks that can go together share packets of up to 4,096 bytes (assumption 87, DESIGN CHOICE). -/
def State.sendPieces (s : State) (b : Bid) (p : Part) (k : Bucket) (j : Nat) : State :=
  let own := k.owners.getD j (0, 0)
  let base := if k.sparse then 0 else 4 * k.lo j
  let n := ceilDiv (k.part j).length chunkLen
  let first := (k.shard j).sent
  let ready := ((List.range (n - first)).takeWhile fun i => k.chunkReady j (first + i)).length
  let all := k.partReady j
  let s := s.setBucket b (k.onShard j fun x => { x with sent := first + ready, partSent := all })
  let from_ := k.size * chunkLen * first
  let bytes := ((k.partBytes j).drop from_).take (k.size * chunkLen * ready)
  let s := (pieces bytes).foldl (fun s x => s.sendReduce p k own 0 k.slot (base + from_ + x.1) x.2) s
  let s := s.countB b 107 bytes.length
  if all then s.sendReduce p k own 1 k.slot 0 (wordBytes (k.partSums j)) else s

/-- This module's part of shard j goes to its owner, once granted, as it is read; its own shard takes it without a packet when all
of it is, unless a backup was granted for it before: then it is late, discarded and counted (R374). A sparse part above CAP faults
(R365, R369). (assumption 57, DEDUCED) -/
def State.sendPart (s : State) (b : Bid) (p : Part) (id : BitVec 32) (j : Nat) : State :=
  match s.bucket b id with
  | none => s
  | some k =>
    let x := k.shard j
    let mine := k.owners.getD j (0, 0) == s.me p
    if x.partSent || x.abandoned || (!mine && x.granted.isNone) then s
    else if k.overCap j (if mine then k.cap else x.granted.getD 0) then s.wghFail b k .sparseOverflow
    else if !mine then s.sendPieces b p k j
    else if !k.partReady j then s
    else if (k.slots.getD k.slot []).getD (x.copies.getD k.slot ⟨0, false, [], none, false⟩).member (0, 0) != s.me p then
      (s.setBucket b (k.onShard j fun x => { x with partSent := true })).wghDiscard b
    else
      let k' := k.onShard j fun x =>
        { x with partSent := true }.onCopy k.slot fun c => { c with parts := [(0, padUnits (k.partBytes j))], sums := some (k.partSums j) }
      (s.setBucket b k').checkCopy b p id j k.slot

/-- The shards of other owners whose parts may go now, in the order (SLOT + 1) mod S, (SLOT + 2) mod S and so on: a primary member
finishes one before it turns to the next; a backup sends to those that granted it (R369). (assumption 57, DEDUCED) -/
def State.sendParts (s : State) (b : Bid) (p : Part) (id : BitVec 32) : List Nat → State
  | [] => s
  | j :: rest =>
    let s := s.sendPart b p id j
    match s.bucket b id with
    | none => s
    | some k =>
      let done := (k.shard j).partSent || (k.shard j).abandoned || k.owners.getD j (0, 0) == s.me p
      let primary := (k.slots.getD k.slot []).head? == some (s.me p)
      if done || !primary then State.sendParts s b p id rest else s

/-- The remainder of a sparse reduction, once the whole gradient was read (R366): DA with every selected position +0. -/
def Bucket.remainder (k : Bucket) : Tab WordBits × List Nat :=
  let t := residBuf k.e (if k.e.par then 0 else 1)
  let sel := k.indexes.filterMap fun x => x.slice
  (List.range k.elems).foldl (fun (acc : Tab WordBits × List Nat) i =>
    let z := sel.contains i
    let c := if z then 0 else k.code i
    let bad := !z && k.psn i
    (t.putElem acc.1 (unrank t.ext i) c bad, if bad then acc.2 else acc.2 ++ [c])) ([], [])

/-- The remainder planned, with its events against DD's class (R366, R380). -/
def State.planRemainder (s : State) (b : Bid) (id : BitVec 32) : State :=
  match s.bucket b id with
  | none => s
  | some k =>
    if !k.sparse || k.remDone || !k.reads.isEmpty then s
    else
      let t := residBuf k.e (if k.e.par then 0 else 1)
      let (ws, codes) := k.remainder
      let ws := (t.writes ws).map fun w => { w with cls := 1 }
      (s.setBucket b ({ k with remDone := true }.plan ws)).tally b k.e.id t.cls (f32Events codes)

/-- The records of a sparse bucket's indices out of range, once (R228, R366). -/
def State.checkIndexes (s : State) (b : Bid) (id : BitVec 32) : State :=
  match s.bucket b id with
  | none => s
  | some k =>
    if !k.sparse || k.idxRead || !k.indexesIn then s
    else (s.setBucket b { k with idxRead := true }).indexRecords b (k.who s b) k.indexes

/-- A bucket goes on as far as it can: its reads, the parts it may send, its remainder and its writes, with their slots charged;
one whose time is up faults once its writes are performed (R206, R254, R257, R365, R366, R369, R376). -/
def State.pumpBucket (s : State) (b : Bid) (p : Part) (id : BitVec 32) : State :=
  match s.bucket b id with
  | none => s
  | some k =>
    match State.readEach (k.who s b) (s.olderAsks b id) k.reads k.got s with
    | (.refused s', _) => s'.wghFail b k .addrUnmapped
    | (.wait s', _) => s'
    | (.ok g s', rest) =>
      let s' := s'.charge p true ((k.reads.filter fun r => !rest.contains r).map fun r => (r.word, r.cls, 16))
      let s' := (s'.setBucket b { k with reads := rest, got := g }).checkIndexes b id
      let n := k.slots.length
      let s' := s'.sendPart b p id k.slot
      let s' := s'.sendParts b p id ((List.range n).map fun i => (k.slot + 1 + i) % n)
      let s' := s'.planRemainder b id
      match s'.bucket b id with
      | none => s'
      | some k =>
        match State.writeEach (k.who s' b) (s'.olderAsks b id ++ k.reads.map .rd) k.writes s' with
        | (.refused s2, _) => s2.wghFail b k .addrUnmapped
        | (.wait s2, _) => s2
        | (.ok _ s2, rest) =>
          let done := k.writes.filter fun r => !rest.contains r
          let s2 := s2.charge p false (done.map fun r => (r.word, r.cls, r.bytes))
          let k := { k with writes := rest }
          let s2 := (s2.setBucket b k).shadeOlder b id done
          if k.late && rest.isEmpty then s2.wghFail b k .reduceTimeout else s2.noteParked b id

/-- Every open bucket of a Bench goes on. -/
def State.wghPump (s : State) (b : Bid) : State :=
  if s.coreStopped b ucWeighbridge 0 then s else
  let p := (s.partOf b).getD 0
  ((s.wgh b).buckets.map fun k => k.id).foldl (fun s id => s.pumpBucket b p id) s

/-- Every shard of a bucket abandoned on this side without a vote (R375, R377). -/
def State.abandonBucket (s : State) (b : Bid) (p : Part) (k : Bucket) (tells : Bool) : State :=
  (List.range k.shards.length).foldl (fun s j => s.abandonShard b p k.id j false tells) s

/-- Whether an instruction's attempt has ended in ABORT or HALT, or a HALT has ended the step: nothing of it is sent (R377). -/
def State.wghEnded (s : State) (b : Bid) (e : Entry) : Bool := (s.wgh b).quiet || (s.wgh b).ended.contains e.id

/-- BUCKET_OPEN: the WGH instruction at the head of its queue is checked; with a bucket and stage space free it opens, captures
its group and sends its GRANTs (R361-R364, R369). One whose attempt has ended meanwhile opens abandoned: it sends nothing, and its
result is written poisoned (R377). (assumption 57, DEDUCED; assumption 87, DESIGN CHOICE) -/
def execBucketOpen (b : Bid) (s : State) : Out :=
  let p := (s.partOf b).getD 0
  if !s.pwr.mainOn || !s.queueRuns b 6 || s.unitBusy b 6 0 then .next (s.wghPump b)
  else
    match s.nextHead b 6 with
    | none => .next (s.wghPump b)
    | some (e, u) =>
      match firstFault (s.wghChecks b e u) with
      | some c => .next (s.fault (e.at_ b 6 0) c)
      | none =>
        let slots := (s.wghGroup p e).getD []
        if s.rf (K.WGH_CTL b) F.WGH_CTL_MAX_OPEN ≤ (s.wgh b).buckets.length
            || s.stageSize b < s.stageUsed b + s.wghUnits b p e slots then .next (s.wghPump b)
        else
          let k := s.newBucket b p e slots
          let dead := s.wghEnded b e
          let s := (s.dequeue b 6 e.id).onWgh b fun w =>
            { w with
              buckets := w.buckets ++ [k]
              ended := w.ended.filter (· != e.id)
              grants := w.grants.filter fun g => !(g.bucket == k.id && g.step == e.step) }
          .next ((if dead then s.abandonBucket b p k false else s.sendGrants b p k).wghPump b)

/-! ## Packets that arrive (R367, R369) -/

/-- The first REDUCE packet for a Bench's Weighbridge with an operation, none from its sender standing before it (R347). -/
def State.takeReduce (s : State) (b : Bid) (op : Nat) : Option (Packet × State) :=
  go s.fab.inbox [] []
where
  mine (x : Option PortNo × Packet) : Bool :=
    pktClass x.2 == clsReduce && pktBucket x.2 / 2 ^ 28 == b.val && s.partOf b == some (pktDstPart x.2)
  go : List (Option PortNo × Packet) → List (Option PortNo × Packet) → List (Nat × Nat) → Option (Packet × State)
    | [], _, _ => none
    | x :: rest, seen, srcs =>
      let src := (pktSrcMod x.2, (pktSrcPart x.2).val)
      if mine x && !srcs.contains src && pktOp x.2 == op then
        some (x.2, State.freed { s with fab := { s.fab with inbox := seen ++ rest } } x.1 x.2)
      else go rest (seen ++ [x]) (if mine x then src :: srcs else srcs)

def pktSrc (p : Packet) : Nat × Nat := (pktSrcMod p, (pktSrcPart p).val)

/-- Whether a packet belongs to a step below the one in force, or to an aborted attempt whose DRAIN has not come (R369, R377). -/
def State.stale (s : State) (b : Bid) (pkt : Packet) : Bool :=
  pktStep pkt < s.rf (K.STEP_STATE b) F.STEP_STATE_STEP || (s.wgh b).awaitDrain.contains (pktSrc pkt)

/-- The open bucket a packet belongs to. -/
def State.bucketOf (s : State) (b : Bid) (pkt : Packet) : Option Bucket :=
  (s.bucket b (BitVec.ofNat 32 (pktBucket pkt))).filter fun k => k.e.step == pktStep pkt

/-- GRANT: the member may send its part to the owner; one for a bucket not yet begun is recorded, up to 4,096 (R369).
(assumption 57, DEDUCED) -/
def execGrant (b : Bid) (s : State) : Out :=
  match s.takeReduce b 4 with
  | none => .next s
  | some (pkt, s') =>
    let p := pktDstPart pkt
    if s'.stale b pkt then .next (s'.wghDiscard b)
    else
      let src := pktSrc pkt
      let cap := fld (pktWord pkt 0) 0 32
      match (if (s'.wgh b).drained.contains src then none else s'.bucketOf b pkt) with
      | some k =>
        (match k.owners.findIdx? fun o => o == src with
         | some j =>
           .next (((s'.setBucket b (k.onShard j fun x => { x with granted := some cap })).countB b 109 1).pumpBucket b p k.id)
         | none => .next (s'.wghDiscard b))
      | none =>
        if 4096 ≤ (s'.wgh b).grants.length then .next s
        else
          .next ((s'.onWgh b fun w =>
            { w with grants := w.grants ++ [⟨BitVec.ofNat 32 (pktBucket pkt), pktStep pkt, src, cap⟩] }).countB b 109 1)

/-- The shard of an open bucket whose slot's copy a packet of a member belongs to: none unless this module owns a shard and the
sender is the member most recently granted (R374). -/
def State.copyOf (s : State) (b : Bid) (pkt : Packet) : Option (Bucket × Nat) :=
  match s.bucketOf b pkt with
  | none => none
  | some k =>
    let i := pktSlot pkt
    match k.owners.findIdx? fun o => o == s.me (pktDstPart pkt) with
    | none => none
    | some j =>
      let x := k.shard j
      let c := x.copies.getD i ⟨0, false, [], none, true⟩
      if c.taken || !c.granted || x.abandoned || (k.slots.getD i []).getD c.member (0, 0) != pktSrc pkt then none
      else some (k, j)

/-- The offset of a CONTRIB or RESULT packet within its shard's part, or none where ADDR lies before it (R367). -/
def Bucket.offset (k : Bucket) (j : Nat) (pkt : Packet) : Option Nat :=
  let base := if k.sparse then 0 else 4 * k.lo j
  if pktAddr pkt < base then none else some (pktAddr pkt - base)

/-- Words of the stage that a bucket's instruction has written or read, counted for its marker (R369, R546).
(assumption 81, DEDUCED) -/
def State.stageWords (s : State) (b : Bid) (k : Bucket) (n : Nat) : State := s.slotCount b k.e.mark 2 n

/-- CONTRIB: the bytes are staged at their place in the copy of their slot, which is checked if its SUMS came first (R367, R369);
late ones are discarded and counted (R374). -/
def execContrib (b : Bid) (s : State) : Out :=
  match s.takeReduce b 0 with
  | none => .next s
  | some (pkt, s) =>
    if s.stale b pkt then .next (s.wghDiscard b)
    else
      match s.copyOf b pkt with
      | none => .next (s.wghDiscard b)
      | some (k, j) =>
        match k.offset j pkt with
        | none => .next (s.wghDiscard b)
        | some o =>
          let s := s.setBucket b (k.onShard j fun x => x.onCopy (pktSlot pkt) fun c => { c with parts := tput c.parts o pkt.payload })
          let s := s.stageWords b k (pktLen pkt)
          .next (s.checkCopy b (pktDstPart pkt) k.id j (pktSlot pkt))

/-- SUMS: the copy is complete, is checked and taken, or discarded as invalid (R369, R371). -/
def execSums (b : Bid) (s : State) : Out :=
  match s.takeReduce b 1 with
  | none => .next s
  | some (pkt, s) =>
    if s.stale b pkt then .next (s.wghDiscard b)
    else
      match s.copyOf b pkt with
      | none => .next (s.wghDiscard b)
      | some (k, j) =>
        let ws := (List.range 4).map (pktWord pkt)
        let s := s.setBucket b (k.onShard j fun x => x.onCopy (pktSlot pkt) fun c => { c with sums := some ws })
        .next (s.checkCopy b (pktDstPart pkt) k.id j (pktSlot pkt))

/-! ## Reducing and returning (R370, R372) -/

/-- Binary32 codes added from left to right (R370). -/
def fold32 : List Nat → Nat
  | [] => 0
  | x :: rest => enc32 (dec32 (rest.foldl (fun a y => enc32 ((dec32 a).add (dec32 y))) x))

/-- Numbers of a list in rising order, each once. -/
def rising (l : List Nat) : List Nat := l.foldl (fun acc n => insertNat n acc) []

/-- The result of a shard from its taken copies (R370): its elements with their codes, and the most pairs summed at one
position. -/
def Bucket.reduce (k : Bucket) (j : Nat) : List (Nat × Nat) × Nat :=
  let copies := (k.shard j).copies
  if k.sparse then
    let all := copies.flatMap fun c => pairsFrom c.bytes (sumsCount ((c.sums.getD []).getD 3 0))
    let out := (rising (all.map Prod.fst)).map fun i => (i, (all.filter fun q => q.1 == i).map Prod.snd)
    (out.map fun x => (x.1, fold32 x.2), out.foldl (fun m x => Nat.max m x.2.length) 0)
  else
    let cols := copies.map fun c => codesFrom c.bytes (k.len j)
    ((List.range (k.len j)).map fun i => (k.lo j + i, fold32 (cols.map fun c => c.getD i 0)), copies.length)

/-- Words of the stage that the copies of a shard take: every slot's but this module's own (R369). -/
def Bucket.stagedLen (k : Bucket) (j : Nat) : Nat :=
  ((k.shard j).copies.zipIdx.map fun x => if x.2 = k.slot then 0 else x.1.bytes.length / 16).sum

/-- R, C, A, P, Q and the count of a shard's result (R368, R372). -/
def Bucket.rsumsOf (k : Bucket) (j : Nat) (out : List (Nat × Nat)) : List Word :=
  let xs := out.map fun o => dec32 o.2
  let w (n : Nat) : Word := sum64 ((k.shard j).copies.map fun c => (c.sums.getD []).getD n 0)
  [f64x xs, w 0, w 1, w 2, f64x (xs.map fun x => x.mul x), BitVec.ofNat 64 out.length]

/-- The owner's check of a shard's result: |R - C| ≤ n * 2^-23 * A; passed where one of them is not finite. With |R - C|. -/
def resultCheck (r : List Word) (n : Nat) : Bool × X :=
  let x (i : Nat) : X := dec64 (r.getD i 0).toNat
  if (x 0).isFinite && (x 1).isFinite && (x 2).isFinite then
    let d := ((x 0).sub (x 1)).f64.abs
    let lim := ((X.fin false n (-23)).f64.mul (x 2)).f64
    (d.le lim, d)
  else (true, X.zero)

/-- The bytes of a result: values, or pairs (R367). -/
def resultBytes (sparse : Bool) (out : List (Nat × Nat)) : List Byte :=
  out.flatMap fun o => if sparse then toBytes 4 o.1 ++ toBytes 4 o.2 else toBytes 4 o.2

/-- Result bytes of a shard received or formed here, at their offset, written as far as words are final (R365, R367, R369). -/
def State.takeResult (s : State) (b : Bid) (id : BitVec 32) (j o : Nat) (bytes : List Byte) : State :=
  s.onBucket b id fun k =>
    let n0 := (k.shard j).result.length / 4
    let k := k.onShard j fun x => { x with got := tput x.got o bytes }
    if k.sparse then k
    else
      let n1 := Nat.min ((k.shard j).result.length / 4) (k.len j)
      k.plan (k.resultWrites ((List.range (n1 - n0)).map (k.lo j + n0 + ·)))

/-- A shard's result checked against its RSUMS and counted, or written poisoned with an ABORT vote (R373, R380). -/
def State.checkResult (s : State) (b : Bid) (p : Part) (id : BitVec 32) (j : Nat) (r : List Word) : State :=
  match s.bucket b id with
  | none => s
  | some k =>
    let x := k.shard j
    if x.abandoned || x.resultDone then s
    else
      let n := sumsCount (r.getD 5 0)
      let codes := if k.sparse then (pairsFrom x.result (Nat.min n (x.result.length / 8))).map Prod.snd
        else codesFrom x.result (Nat.min (x.result.length / 4) (k.len j))
      let size := k.size
      let ok := f64x (codes.map dec32) == r.getD 0 0 && codes.length == n && roundUp (size * n) 16 == x.result.length
      if ok then
        let k := k.onShard j fun x =>
          { x with got := [(0, x.result.take (size * n))], resultDone := true, rsums := r }
        let k := if k.sparse then k.planShard j else k
        (s.setBucket b k).tally b k.e.id k.res.cls (f32Events (k.values j))
      else
        let s := (s.wghRecord b k 0x0C .abort 0).setRb (K.WGH_STAT b) F.WGH_STAT_CHECK_FAIL true
        let k := (k.onShard j fun x => { x with abandoned := true }).planShard j
        (s.setBucket b k).wghAbort b p

/-- Whether a shard's sum is due: owned here, every slot's copy taken, not yet sent. -/
def Bucket.due (k : Bucket) (me : Nat × Nat) (j : Nat) : Bool :=
  k.owners.getD j (0, 0) == me && !(k.shard j).resultSent && !(k.shard j).abandoned && (k.shard j).copies.all fun c => c.taken

/-- The first open bucket and shard whose sum is due. -/
def State.dueShard (s : State) (b : Bid) (p : Part) : Option (Bucket × Nat) :=
  ((s.wgh b).buckets.flatMap fun k => ((List.range k.shards.length).filter (k.due (s.me p))).map fun j => (k, j)).head?

/-- SHARD_RESULT_SEND: with every slot's copy taken the owner sums the shard in slot order and checks it; it sends RESULT and
RSUMS to every other member and takes the result itself, or abandons the shard (R369, R370, R372). An upset that the adders'
residue check catches abandons it too (R443, assumption 14, DEDUCED). -/
def execShardResultSend (b : Bid) (upset : Option UnitUpset) (s : State) : Out :=
  let s := s.wghPump b
  let p := (s.partOf b).getD 0
  match s.dueShard b p with
  | none => .next s
  | some (k, j) =>
    let s := s.stageWords b k (k.stagedLen j)
    let (out, n) := k.reduce j
    let r := k.rsumsOf j out
    let (pass, d) := resultCheck r n
    let residue := match upset with | some x => x.expected != x.found | none => false
    if residue then
      let run : Running := ⟨k.e, 6, 0, false, [], [], [], [], true, [], [], upset, false⟩
      .next (((s.residueEvent b (k.who s b) run).abandonShard b p k.id j true true).wghPump b)
    else if !pass then
      let s := (s.wghRecord b k 0x0C .abort (BitVec.ofNat 64 (enc64 d))).setRb (K.WGH_STAT b) F.WGH_STAT_CHECK_FAIL true
      .next ((s.abandonShard b p k.id j true true).wghPump b)
    else
      let bytes := resultBytes k.sparse out
      let base := if k.sparse then 0 else 4 * k.lo j
      let s := (s.others p k).foldl (fun s m =>
        ((pieces bytes).foldl (fun s x => s.sendReduce p k m 2 j (base + x.1) x.2) s).sendReduce p k m 3 j 0 (wordBytes r)) s
      let s := s.setBucket b (k.onShard j fun x => { x with resultSent := true, units := 0 })
      let s := s.takeResult b k.id j 0 (padUnits bytes)
      .next ((s.checkResult b p k.id j r).wghPump b)

/-- Whether a packet comes from the owner of its shard. -/
def fromOwner (k : Bucket) (pkt : Packet) : Bool := k.owners.getD (pktSlot pkt) (0, 0) == pktSrc pkt

/-- RESULT: its bytes are written under the result's FE_WR (R365, R370). -/
def execResult (b : Bid) (s : State) : Out :=
  match s.takeReduce b 2 with
  | none => .next s
  | some (pkt, s) =>
    if s.stale b pkt then .next (s.wghDiscard b)
    else
      match s.bucketOf b pkt with
      | none => .next (s.wghDiscard b)
      | some k =>
        let x := k.shard (pktSlot pkt)
        match (if !fromOwner k pkt || x.abandoned || x.resultDone then none else k.offset (pktSlot pkt) pkt) with
        | none => .next (s.wghDiscard b)
        | some o =>
          .next (((s.takeResult b k.id (pktSlot pkt) o pkt.payload).countB b 108 pkt.payload.length).pumpBucket b
            (pktDstPart pkt) k.id)

/-- RSUMS: the receiver checks the shard exactly (R373). -/
def execRsums (b : Bid) (s : State) : Out :=
  match s.takeReduce b 3 with
  | none => .next s
  | some (pkt, s) =>
    if s.stale b pkt then .next (s.wghDiscard b)
    else
      match s.bucketOf b pkt with
      | none => .next (s.wghDiscard b)
      | some k =>
        if !fromOwner k pkt then .next (s.wghDiscard b)
        else
          let r := (List.range 6).map (pktWord pkt)
          .next ((s.checkResult b (pktDstPart pkt) k.id (pktSlot pkt) r).pumpBucket b (pktDstPart pkt) k.id)

/-- ABANDON: the member abandons the shard on its side (R375). -/
def execAbandon (b : Bid) (s : State) : Out :=
  match s.takeReduce b 6 with
  | none => .next s
  | some (pkt, s) =>
    if s.stale b pkt then .next (s.wghDiscard b)
    else
      match s.bucketOf b pkt with
      | none => .next (s.wghDiscard b)
      | some k =>
        if !fromOwner k pkt then .next (s.wghDiscard b)
        else .next ((s.abandonShard b (pktDstPart pkt) k.id (pktSlot pkt) true false).pumpBucket b (pktDstPart pkt) k.id)

/-- DRAIN: the peer's packets of the aborted attempt have ended, and it may be granted again; where it comes before this module
acts, the grants recorded from the peer belong to the aborted attempt and are freed (R377). -/
def execDrain (b : Bid) (s : State) : Out :=
  match s.takeReduce b 5 with
  | none => .next s
  | some (pkt, s) =>
    let src := pktSrc pkt
    let p := pktDstPart pkt
    if (s.wgh b).awaitDrain.contains src then
      let s := s.onWgh b fun w => { w with awaitDrain := w.awaitDrain.filter (· != src) }
      .next ((s.wgh b).buckets.foldl (fun s k => s.sendGrants b p k) s)
    else if pktStep pkt < s.rf (K.STEP_STATE b) F.STEP_STATE_STEP then .next (s.wghDiscard b)
    else
      .next (s.onWgh b fun w =>
        { w with drained := src :: w.drained, grants := w.grants.filter fun g => g.src != src || g.step != pktStep pkt })

/-! ## Late and lost contributions (R374-R376) -/

/-- REDUCE_DEADLINE_EXPIRY: a slot whose copy is not taken by its deadline, counted from the bucket's opening or the last grant,
is granted to its next backup (R374). (assumption 31, DESIGN CHOICE) -/
def execReduceDeadlineExpiry (b : Bid) (bucket : BitVec 32) (shard slot : Nat) (s : State) : Out :=
  let s := s.wghPump b
  let p := (s.partOf b).getD 0
  match s.bucket b bucket with
  | none => .next s
  | some k =>
    if wghCycles k.e = 0 || k.owners.getD shard (0, 0) != s.me p || (k.shard shard).copies[slot]?.isNone then .next s
    else .next ((s.nextBackup b p bucket shard slot).wghPump b)

/-- REDUCE_TIMEOUT: with HARD_LIMIT set, a bucket still open has its unwritten shards written poisoned, and faults once those
writes are performed (R376). -/
def execReduceTimeout (b : Bid) (bucket : BitVec 32) (s : State) : Out :=
  let p := (s.partOf b).getD 0
  match s.bucket b bucket with
  | none => .next s
  | some k =>
    if s.rf (K.WGH_CTL b) F.WGH_CTL_HARD_LIMIT = 0 then .next s
    else
      let left := (List.range k.shards.length).filter fun j => !(k.shard j).resultDone && !(k.shard j).abandoned
      let k := left.foldl (fun k j => (k.onShard j fun x => { x with abandoned := true }).planShard j) k
      .next ((s.setBucket b { k with late := true }).pumpBucket b p bucket)

/-- What a Bench's Weighbridge does when a module is marked lost: its own shards are abandoned, its slots' backups granted, its
DRAIN no longer awaited (R353, R374, R375, R377). -/
def State.wghLost (s : State) (b : Bid) (p : Part) (mod : Nat) : State :=
  let s := s.onWgh b fun w => { w with awaitDrain := w.awaitDrain.filter fun m => m.1 != mod }
  (s.wgh b).buckets.foldl (fun s k =>
    (List.range k.shards.length).foldl (fun s j =>
      if (k.owners.getD j (0, 0)).1 = mod then s.abandonShard b p k.id j true false
      else
        (List.range k.slots.length).foldl (fun s i =>
          let c := (k.shard j).copies[i]?
          match c with
          | some c => if !c.taken && ((k.slots.getD i []).getD c.member (0, 0)).1 = mod then s.nextBackup b p k.id j i else s
          | none => s) s) s) s

/-! ## Completion and outcomes (R369, R377-R379) -/

/-- WGH_COMPLETE: every shard is written and checked or abandoned, and the remainder written: the instruction completes, its noise
sums are noted (R369, R379). (assumption 57, DEDUCED) -/
def execWghComplete (b : Bid) (bucket : BitVec 32) (s : State) : Out :=
  let s := s.wghPump b
  match s.bucket b bucket with
  | none => .next s
  | some k =>
    if !(k.shards.all fun x => x.resultDone || x.abandoned) || !k.writes.isEmpty || (k.sparse && !k.remDone) then .next s
    else
      let w (n : Nat) : Word := sum64 (k.shards.map fun x => x.rsums.getD n 0)
      let s := if k.noise && k.shards.all (fun x => x.resultDone)
        then s.onWgh b fun x => { x with noise := x.noise ++ [(k.e.id, w 3, w 4)] } else s
      .next ((s.dropBucket b bucket).completed b k.e.id)

/-- Every open bucket of a Bench abandoned without further votes (R377, R400). -/
def State.abandonAll (s : State) (b : Bid) (p : Part) (tells : Bool) : State :=
  ((s.wgh b).buckets.foldl (fun s k => s.abandonBucket b p k tells) s).wghPump b

/-- The members of every group of this module but itself and lost modules (R377). -/
def State.groupPeers (s : State) (p : Part) : List (Nat × Nat) :=
  match (s.ctl p).mapping with
  | none => []
  | some m =>
    ((m.groups.flatMap fun g => (g.getD []).flatten).eraseDups).filter fun x => x != s.me p && !s.isLost p x.1

/-- One DRAIN sent to a peer's Weighbridge of the same Bench (R362, R377). -/
def State.sendDrain (s : State) (b : Bid) (p : Part) (m : Nat × Nat) : State :=
  s.send p (s.packet p ⟨m.1, ⟨m.2 % 4, by omega⟩, clsReduce, 5, (s.ctl p).step, 0, b.val * 2 ^ 28, 0, false, 0⟩ [])

/-- The noise sums of a step, added in the order of dispatch (R379). -/
def noiseSums (l : List (Nat × Word × Word)) : Word × Word :=
  let order := rising (l.map fun x => x.1)
  let pick (f : Word × Word → Word) : Word :=
    sum64 (0 :: order.filterMap fun i => (l.find? fun x => x.1 == i).map fun x => f x.2)
  (pick Prod.fst, pick Prod.snd)

/-- A Bench's Weighbridge acts on an outcome (R377, R379). After an ABORT or a HALT, what is still queued of the attempt sends
nothing, and after a HALT nothing of the step does. -/
def State.wghOutcome (s : State) (b : Bid) (p : Part) (r : Result) (step : Nat) : State :=
  let w := s.wgh b
  let s : State := match r with
    | .commit =>
      let (np, nq) := noiseSums w.noise
      let k := K.WGH_RESID b
      let s := (s.setRf k F.WGH_RESID_PAR (1 - s.rf k F.WGH_RESID_PAR)).setRf k F.WGH_RESID_STEP step
      ((s.setReg (K.WGH_NOISE_P b) np).setReg (K.WGH_NOISE_Q b) nq).setReg (K.WGH_NOISE_INFO b)
        (pack [(0, 16, w.noise.length), (16, 48, step)])
    | .skip => s.setRf (K.WGH_RESID b) F.WGH_RESID_STEP step
    | .abort =>
      let s := s.abandonAll b p true
      let peers := s.groupPeers p
      let s : State := peers.foldl (fun (s : State) m => s.sendDrain b p m) s
      s.onWgh b fun w =>
        { w with
          grants := w.grants.filter fun g => g.step != step || w.drained.contains g.src
          awaitDrain := peers.filter fun m => !w.drained.contains m }
    | .halt => s.abandonAll b p false
  let left := ((s.bench b).queued 6).map fun e => e.id
  s.onWgh b fun w =>
    { w with
      noise := [], voteAbort := false, drained := [], quiet := r == .halt
      ended := if r = .abort ∨ r = .halt then left else w.ended }

/-- A write of WGH_STAGE: ignored while a bucket is open (R384). -/
def State.writeStage (s : State) (b : Bid) (v : Word) : State :=
  if (s.wgh b).buckets.isEmpty then s.writeReg (K.WGH_STAGE b) false v
  else s.setRb (K.WGH_STAT b) F.WGH_STAT_CFG_REFUSED true

/-- WGH_STAGE_WRITE (R384). -/
def execWghStageWrite (b : Bid) (v : Word) (s : State) : Out := .next (s.writeStage b v)

end Sys2Proof.Machine
end

