-- ==== Sys2Proof/Machine/Vote.lean ====
section
/-!
DEFINITION. Mapping images and epochs, steps and their attempts: STEP.BEGIN, STEP.VOTE, the votes of Benches and modules
over the effective tree, outcomes, and what a module does at an outcome (spec 10 R292-R295; 14 R387-R404).
-/

namespace Sys2Proof.Machine

/-! ## The effective tree (R397) -/

/-- A module's entry of the tree table. -/
def Mapping.ent (m : Mapping) (x : Nat) : Option TreeEnt := m.tree.find? fun e => e.mod == x

/-- The ancestors of a module, nearest first, at most `fuel` of them. -/
def Mapping.up (m : Mapping) : Nat → Nat → List Nat
  | 0, _ => []
  | fuel + 1, x =>
    match m.ent x with
    | some e => if e.root then [] else e.parent :: m.up fuel e.parent
    | none => []

/-- The acting root: the root unless it is lost, else the not-lost module of least depth, lowest ID first (R397). -/
def Mapping.actingRoot (m : Mapping) (lost : Nat → Bool) : Option Nat :=
  match m.tree.find? fun e => e.root && !lost e.mod with
  | some e => some e.mod
  | none =>
    ((m.tree.filter fun e => !lost e.mod).foldl (fun (best : Option (Nat × Nat)) e =>
      let d := (m.up 17 e.mod).length
      match best with
      | some (bd, bm) => if d < bd then some (d, e.mod) else some (bd, bm)
      | none => some (d, e.mod)) none).map Prod.snd

/-- The effective parent of a module: its nearest ancestor that is not lost, else the acting root (R397). -/
def Mapping.eparent (m : Mapping) (lost : Nat → Bool) (x : Nat) : Option Nat :=
  let root := m.actingRoot lost
  if root = some x then none
  else
    match (m.up 17 x).find? fun y => !lost y with
    | some y => some y
    | none => root

/-- The effective children of a module (R397). -/
def Mapping.children (m : Mapping) (lost : Nat → Bool) (y : Nat) : List Nat :=
  (m.tree.map fun e => e.mod).filter fun x => x != y && !lost x && m.eparent lost x == some y

/-- Whether this module decides outcomes: it is the acting root, or it has no mapping (R292, R397, R398).
(assumption 55, DEDUCED) -/
def State.acting (s : State) (p : Part) : Bool :=
  match (s.ctl p).mapping with
  | none => true
  | some m => m.actingRoot (s.isLost p) == some s.modId

/-- This module's effective parent and children (R397). -/
def State.stepParent (s : State) (p : Part) : Option Nat :=
  (s.ctl p).mapping.bind fun m => m.eparent (s.isLost p) s.modId
def State.stepKids (s : State) (p : Part) : List Nat :=
  match (s.ctl p).mapping with
  | none => []
  | some m => m.children (s.isLost p) s.modId

/-! ## STEP packets (R396) -/

def resultCode : Result → Nat
  | .commit => 0
  | .skip => 1
  | .abort => 2
  | .halt => 3
def resultOf (n : Nat) : Result := if n = 0 then .commit else if n = 1 then .skip else if n = 2 then .abort else .halt
def voteCode : Vote → Nat := voteRank
/-- The outcome a vote gives (R398). -/
def voteResult : Vote → Result
  | .pass => .commit
  | .skip => .skip
  | .abort => .abort
  | .halt => .halt

def stVote (p : Packet) : Nat := fld (pktWord p 0) 0 2
def stAttempt (p : Packet) : Nat := fld (pktWord p 0) 4 4
def stCauses (p : Packet) : BitVec 11 := BitVec.ofNat 11 (fld (pktWord p 0) 16 11)
def stOrigin (p : Packet) : Nat := fld (pktWord p 0) 32 13
def stMapId (p : Packet) : Word := pktWord p 1

/-- STEP operations (R396). -/
def opVote : Nat := 0
def opOutcome : Nat := 1
def opCancel : Nat := 2
def opAlert : Nat := 3

/-- The port of a partition whose peer is a module, if one is READY (R396, R397). -/
def State.neighbour (s : State) (p : Part) (mod : Nat) : Option PortNo :=
  (List.finRange 16).find? fun n =>
    s.portOwner n == some p && s.portUp n && s.rb (K.FAB_PORT n) F.FAB_PORT_PEER_VALID
      && s.rf (K.FAB_PORT n) F.FAB_PORT_PEER_MOD == mod

/-- A STEP packet sent to an effective parent or child: over their common port, else through the route table; to a module marked
lost it is not sent (R353, R396, R397). -/
def State.sendStep (s : State) (p : Part) (mod op step attempt v : Nat) (causes : BitVec 11) (origin : Nat) : State :=
  let body := wordBytes [pack [(0, 2, v), (4, 4, attempt), (16, 11, causes.toNat), (32, 13, origin)], s.reg (K.MAP_ID p), 0, 0]
  let pkt := s.packet p ⟨mod, s.jobPart p mod, clsStep, op, step, 0, 0, 0, false, 0⟩ body
  match s.neighbour p mod with
  | some n => s.sendPort p n pkt
  | none => s.send p pkt

/-- A packet of the attempt in progress sent to several modules. -/
def State.sendStepAll (s : State) (p : Part) (mods : List Nat) (op v : Nat) (origin : Nat) : State :=
  let c := s.ctl p
  mods.foldl (fun s m => s.sendStep p m op c.step c.attempt v c.causes origin) s

/-! ## Votes of a module (R395, R398) -/

/-- The Benches of a partition that vote: those with a Foreman in service (R395). -/
def State.votingBenches (s : State) (p : Part) : List Bid := (s.benchesOf p).filter fun b => s.present b ucForeman 0

def State.selfLost (s : State) (p : Part) : Bool := s.rb (K.FAB_PART p) F.FAB_PART_SELF_LOST

/-- The module's own vote so far: the strongest of its Benches' votes and the Plumbs', at least ABORT when digests disagreed or
a module was lost, and HALT when the module itself was named lost or a step mismatched (R395, R398). -/
def State.ownVote (s : State) (p : Part) : Vote :=
  let c := s.ctl p
  let v := c.benchVotes.foldl (fun v e => voteMax v e.2) (c.plumbVote.getD .pass)
  let v := if c.diverged || c.lostNow then voteMax v .abort else v
  if s.selfLost p || c.causes.getLsbD causeMismatch then .halt else v

/-- An outcome held by this module and sent on (R398, R399). -/
def State.holdOutcome (s : State) (p : Part) (r : Result) (mods : List Nat) : State :=
  let s := s.onCtl p fun c => { c with outcome := some r, phase := .voting }
  s.sendStepAll p mods opOutcome (resultCode r) 0

/-- The acting root decides: the strongest vote, HALT where the attempt limit is reached (R398). -/
def State.decideStep (s : State) (p : Part) (v : Vote) : State :=
  let c := s.ctl p
  let limit := v == .abort && c.attempt + 1 == s.rf (K.PLM_CTL p) F.PLM_CTL_MAX_ATTEMPTS
  let s := if limit then s.onCtl p fun c => c.cause causeAttemptLimit else s
  let s := if s.selfLost p then s.onCtl p fun c => c.cause causeSelfLost else s
  s.holdOutcome p (if limit then .halt else voteResult v) (if s.selfLost p then [] else s.stepKids p)

/-- Once every Bench and every effective child has voted, the acting root decides and any other module sends its vote, once per
attempt (R395, R398). -/
def State.stepAdvance (s : State) (p : Part) : State :=
  let c := s.ctl p
  if !c.live || c.outcome.isSome then s
  else if !((s.votingBenches p).all fun b => c.benchVotes.any fun e => e.1 == b.val) then s
  else if s.selfLost p then s.decideStep p .halt
  else if !((s.stepKids p).all fun m => c.kids.any fun e => e.1 == m) then s
  else
    let v := c.kids.foldl (fun v e => voteMax v e.2) (s.ownVote p)
    if s.acting p then s.decideStep p v
    else if c.sentVote.isSome then s
    else
      let s := s.onCtl p fun c => { c with sentVote := some v, phase := .voting }
      (s.sendStepAll p (s.stepParent p).toList opVote (voteCode v) 0).countP p 11 1

/-! ## STEP.BEGIN (R292) -/

/-- The attempt number at which a partition's controller admits step k, if it does (R292).
(assumption 55, DEDUCED) -/
def StepCtl.admits (c : StepCtl) (k : Nat) : Option Nat :=
  match c.last with
  | none => some 0
  | some (.commit, j, _) => if k = (j + 1) % 2 ^ 48 then some 0 else none
  | some (.skip, j, _) => if k = (j + 1) % 2 ^ 48 then some 0 else none
  | some (.abort, j, a) => if k = j then some (a + 1) else none
  | some (.halt, _, _) => none

/-- The vote a Bench's error controller casts at every attempt: HALT while a unit of it is pending retirement, a reset of it
waits, or a core of it has stopped (R447, R458, R479). -/
def State.standing (s : State) (b : Bid) : Vote :=
  if s.benchPending b || s.resetWaits b || s.health.stopped.any (fun u => u.bench == b.val) then .halt else .pass

/-- The controller opens an attempt, with the ALERT and the CANCEL that came for it before (R400): nothing of an earlier
evaluation is left, and at attempt 0 no earlier attempt of the step was a global fallback (R147, R161); Benches whose Foreman is
FAULTED vote again, never weaker than their error controllers (R292, R301, R447). -/
def State.openStep (s : State) (p : Part) (k att : Nat) : State :=
  let c0 := s.ctl p
  let alert := match c0.early with | some (j, a, o) => if j = k ∧ a = att % 16 then some o else none | none => none
  let s := s.onCtl p fun c =>
    { c.emptied with
      last := c.last, phase := .opened, step := k, attempt := att, alerted := alert.isSome, firstMod := alert
      cancelled := c.earlyCancel == some (k, att % 16) || (alert.isSome && s.acting p) }
  let s := s.plumbClear p
  let s := if att = 0 then s.onPlumb p fun m => { m with gfStep := none } else s
  let s := s.setRb (K.STEP_STAT p) F.STEP_STAT_CANCELLED (c0.earlyCancel == some (k, att % 16))
  let s := (s.setRf (K.STEP_CAUSE p) F.STEP_CAUSE_FIRST_MOD (alert.getD 0)).setRb (K.STEP_CAUSE p) F.STEP_CAUSE_FIRST_VALID
    alert.isSome
  (s.votingBenches p).foldl (fun s b =>
    match (s.fm b).faultVote with
    | some v =>
      let e := s.standing b
      s.onCtl p fun c =>
        let c := (c.cast b (voteMax v e)).cause causeFault
        if e = .pass then c else c.cause causeController
    | none => s) s

/-- A Bench begins step k: its STEP_STATE, its vote, its Weighbridge and its evaluation start afresh (R146, R377), the poisoned
addresses of the last step are forgotten at a new step, the catalogue is freed in STK queue order, and the tracers make an
ANCHOR (R237, R292, R447, R458, R549). (assumption 35, DEDUCED) -/
def State.beginStep (s : State) (b : Bid) (k att : Nat) : State :=
  let key := K.STEP_STATE b
  let s := s.joinLate b
  let s := ((s.setRf key F.STEP_STATE_STEP k).setRf key F.STEP_STATE_ATTEMPT att).setRf key F.STEP_STATE_PHASE 1
  let s := s.onBench b fun x =>
    { x with
      errVote := s.standing b
      poisoned := if att = 0 then [] else x.poisoned
      wgh := { x.wgh with voteAbort := false, quiet := false }
      fm := { x.fm with evalReq := none, evalSent := false, evalDone := false } }
  ((s.setQueue b 7 (s.queue b 7 ++ [.freeCat (s.fm b).nextId])).stkSettle b).anchorStep b

/-- STEP.BEGIN: opens step k on the Bench if the controller admits it; while the step controller's core stands stopped it waits
(R292, R294, R335, R443, R448). (assumption 74, DESIGN CHOICE) -/
def execStepBegin (h : Issue) (ra : BitVec 5) (s : State) : Out :=
  issue h 1 (opcodeOf 9 1)
    (fun c s =>
      if s.voteOut c.b || !s.hubCore stepCore then .stall
      else
        waitS [ra] (fun c s =>
          let k := fld ((s.fm c.b).getS ra) 0 48
          let phase := s.rf (K.STEP_STATE c.b) F.STEP_STATE_PHASE
          let ctl := s.ctl c.part
          if s.rb (K.ERR_BSTAT c.b) F.ERR_BSTAT_SWEEP_ERROR then .fault .stepSequence
          else if ctl.live then
            (if phase = 1 ∨ phase = 2 ∨ k ≠ ctl.step then .fault .stepSequence
              else .done (s.beginStep c.b k ctl.attempt))
          else
            match ctl.admits k with
            | none => .fault .stepSequence
            | some att => .done ((s.openStep c.part k att).beginStep c.b k att)) c s) s

/-! ## STEP.VOTE (R293, R294) -/

/-- STEP.VOTE: the Bench's vote waits for what COVER names and the fences before it; RD becomes pending (R293, R294, R335). -/
def execStepVote (h : Issue) (rd : BitVec 5) (vote : Vote) (cover : BitVec 8) (s : State) : Out :=
  issue h 1 (opcodeOf 9 2)
    (fun c s =>
      if s.voteOut c.b then .stall
      else
        waitS [rd] (fun c s =>
          let f := s.fm c.b
          if s.rf (K.STEP_STATE c.b) F.STEP_STATE_PHASE ≠ 1 then .fault .stepSequence
          else if s.rb (K.PLM_CTL c.part) F.PLM_CTL_ENABLE && f.evalReq.isNone && !f.evalSent && !f.evalDone then
            .fault .plmSequence
          else
            let v : VoteReq := ⟨vote, (s.bench c.b).covered cover, f.fenceIds, rd, false, c.op.pc, c.op.mark⟩
            let s := s.onFm c.b fun f => { f with voteReq := some v }
            .later (s.setRf (K.STEP_STATE c.b) F.STEP_STATE_PHASE 2)) c s) s

/-- Whether the Weighbridge has finished with the buckets of every WGH instruction dispatched in the attempt, after STEP.VOTE too
(R378). -/
def State.wghFinished (s : State) (b : Bid) (k att : Nat) : Bool :=
  !(s.bench b).allEntries.any fun e =>
    (match e.op with | .red .. => true | .sparse _ => true | _ => false) && e.step == k && e.attempt == att

/-- Whether a Bench's evaluation is complete (R146, R293). -/
def Foreman.evalOver (f : Foreman) : Bool := f.evalDone || (f.evalReq.isNone && !f.evalSent)

/-- STEP_VOTE_SEND: a Bench's vote goes to the step controller once covered work, fences, evaluation and buckets are done: the
strongest of the program's vote and the Bench's own checks; then the controller goes on (R293, R378, R395, R447). -/
def execStepVoteSend (b : Bid) (s : State) : Out := s.byCore stepCore fun s =>
  match s.partOf b with
  | none => .next s
  | some p =>
    let f := s.fm b
    let c := s.ctl p
    match f.voteReq with
    | some v =>
      if v.sent || !c.live || !v.covers.isEmpty || !v.after.isEmpty || !f.evalOver
          || !s.wghFinished b c.step c.attempt then .next (s.stepAdvance p)
      else
        let w : Vote := if (s.wgh b).voteAbort then .abort else .pass
        let s := s.onFm b fun f => { f with voteReq := some { v with sent := true } }
        let s := s.castVote p b (voteMax v.vote w)
        let s := if v.vote = .pass then s else s.onCtl p fun c => c.cause causeProgram
        let s := if (s.wgh b).voteAbort then s.onCtl p fun c => c.cause causeWeighbridge else s
        .next (s.stepAdvance p)
    | none => .next (s.stepAdvance p)

/-! ## Votes and outcomes over the tree (R397-R400) -/

/-- How a STEP packet stands to this module's attempt: of it, of the last one acted on, of one not opened here yet, or of
another. -/
inductive StepRel | current | last | ahead | other
  deriving DecidableEq, Repr

def State.stepRel (s : State) (p : Part) (pkt : Packet) : StepRel :=
  let c := s.ctl p
  let k := pktStep pkt
  let a := stAttempt pkt
  if c.live && k == c.step && a == c.attempt % 16 then .current
  else if (match c.last with | some (_, j, b) => j == k && b % 16 == a | none => false) then .last
  else if !c.live || c.outcome.isSome then .ahead
  else .other

/-- A packet of an attempt up to the last one acted on: its step is no later, modulo 2^48 (R399). -/
def State.stepPast (s : State) (p : Part) (pkt : Packet) : Bool :=
  match (s.ctl p).last with
  | none => false
  | some (_, j, b) =>
    let d := (j + 2 ^ 48 - pktStep pkt) % 2 ^ 48
    if d = 0 then stAttempt pkt ≤ b % 16 else d < 2 ^ 47

/-- The first STEP packet of an operation that a partition can act on now; a packet of an attempt that has not opened here
waits. -/
def State.takeStep (s : State) (p : Part) (op : Nat) : Option (Packet × State) :=
  (s.takePacket fun x => isOp clsStep op x && pktDstPart x.2 == p && s.stepRel p x.2 != .ahead).map fun x => (x.1.2, x.2)

/-- The OUTCOME of the last attempt sent to a module (R399). -/
def State.resendLast (s : State) (p : Part) (mod : Nat) : State :=
  match (s.ctl p).last with
  | some (r, k, a) =>
    s.sendStep p mod opOutcome k a (resultCode r) (BitVec.ofNat 11 (s.rf (K.STEP_CAUSE p) F.STEP_CAUSE_CAUSE)) 0
  | none => s

/-- The OUTCOME held for the attempt in progress sent to some modules (R399). -/
def State.resendHeld (s : State) (p : Part) (mods : List Nat) : State :=
  match (s.ctl p).outcome with
  | some r => s.sendStepAll p mods opOutcome (resultCode r) 0
  | none => s

/-- VOTE: a module's vote is counted once; an attempt whose OUTCOME this module holds is answered with it; a vote that names
another step, attempt or mapping makes this module's vote HALT, whether its sender has voted here or not (R397-R399).
(assumption 55, DEDUCED) -/
def execVote (p : Part) (s : State) : Out := s.byCore stepCore fun s =>
  match s.takeStep p opVote with
  | none => .next (s.stepAdvance p)
  | some (pkt, s) =>
    let m := pktSrcMod pkt
    let c := s.ctl p
    match s.stepRel p pkt with
    | .last => .next (s.resendLast p m)
    | .ahead => .next s
    | .current =>
      if c.outcome.isSome then .next (s.resendHeld p [m])
      else if c.kids.any fun e => e.1 == m then .next s
      else
        let s := s.onCtl p fun c =>
          { c with kids := c.kids ++ [(m, voteOf (stVote pkt))], causes := c.causes ||| stCauses pkt }
        let s := if stMapId pkt = s.reg (K.MAP_ID p) then s else s.onCtl p fun c => c.cause causeMismatch
        .next (s.stepAdvance p)
    | .other =>
      let s := s.onCtl p fun c => StepCtl.cause { c with kids := (c.kids.filter fun e => e.1 != m) ++ [(m, Vote.halt)] } causeMismatch
      .next (s.stepAdvance p)

/-- VOTE_TIMEOUT: with VOTE_LIMIT set, an acting root whose own Benches have voted and that still lacks votes decides HALT
(R398). (assumption 31, DESIGN CHOICE) -/
def execVoteTimeout (p : Part) (s : State) : Out := s.byCore stepCore fun s =>
  let c := s.ctl p
  if s.rf (K.STEP_CTL p) F.STEP_CTL_VOTE_LIMIT = 0 || !c.live || c.outcome.isSome || !s.acting p
      || !((s.votingBenches p).all fun b => c.benchVotes.any fun e => e.1 == b.val)
      || (s.stepKids p).all fun m => c.kids.any fun e => e.1 == m then .next s
  else .next ((s.onCtl p fun c => c.cause causeVoteTimeout).decideStep p .halt)

/-- OUTCOME: one for an attempt this module has not acted on is adopted, whichever way it came, and forwarded to every other
effective child and to the parent it did not come from; one of an attempt acted on is a duplicate (R399). An OUTCOME of another
step or attempt than the one open here is adopted where it is HALT, the only outcome that modules at different steps reach (R398).
(assumption 55, DEDUCED) -/
def execOutcome (p : Part) (s : State) : Out := s.byCore stepCore fun s =>
  match s.takePacket fun x => isOp clsStep opOutcome x && pktDstPart x.2 == p with
  | none => .next s
  | some ((_, pkt), s) =>
    let c := s.ctl p
    let r := resultOf (stVote pkt)
    let m := pktSrcMod pkt
    let rel := s.stepRel p pkt
    let fresh := c.outcome.isNone && !s.stepPast p pkt && (rel == .current || rel == .ahead || (rel == .other && r == .halt))
    if !fresh then .next s
    else
      let s := s.onCtl p fun c =>
        let c := if c.live then c else { c.emptied with last := c.last, step := pktStep pkt, attempt := stAttempt pkt }
        { c with causes := stCauses pkt }
      let to_ := ((s.stepKids p).filter (· != m)) ++ ((s.stepParent p).toList.filter (· != m))
      .next (s.holdOutcome p r to_)

/-! ## Acting on an outcome (R294, R401-R404) -/

/-- A Bench's PHASE, its STEP.VOTE, which retires, and, at HALT, its Foreman, at an outcome (R294, R401, R404, R549).
(assumption 35, DEDUCED) -/
def State.benchOutcome (s : State) (r : Result) (b : Bid) : State :=
  let key := K.STEP_STATE b
  let s := s.setRf key F.STEP_STATE_PHASE (3 + resultCode r)
  let w := pack [(0, 2, resultCode r), (4, 4, s.rf key F.STEP_STATE_ATTEMPT), (16, 48, s.rf key F.STEP_STATE_STEP)]
  let s := match (s.fm b).voteReq with
    | some v => s.retireOp b true ⟨opcodeOf 9 2, v.pc, v.mark⟩
    | none => s
  s.onFm b fun f =>
    let f := match f.voteReq with
      | some v => { f.setS v.rd w with voteReq := none }
      | none => f
    if r = Result.halt ∧ (f.st = FmState.running ∨ f.st = FmState.draining) then { f with st := .halted } else f

/-- STEP_OUTCOME_ACT: Plumbs install, Weighbridges act, every Bench's PHASE and STEP.VOTE, then STEP_STAT; a HALT writes a
STEP_HALT record (R401, R404). -/
def execStepOutcomeAct (p : Part) (s : State) : Out := s.byCore stepCore fun s =>
  match (s.ctl p).outcome with
  | none => .next s
  | some r =>
    let c := s.ctl p
    let s := s.plumbInstall p r
    let s := (s.benchesOf p).foldl (fun (s : State) b => s.wghOutcome b p r c.step) s
    let s := (s.benchesOf p).foldl (fun (s : State) b => s.benchOutcome r b) s
    let k := K.STEP_STAT p
    let s := (s.setRf k F.STEP_STAT_OUTCOME (resultCode r)).setRf k F.STEP_STAT_ATTEMPT c.attempt
    let s := if r = Result.commit then (s.setRf k F.STEP_STAT_LAST_COMMIT c.step).setRb k F.STEP_STAT_COMMIT_VALID true else s
    let s := s.setRf (K.STEP_CAUSE p) F.STEP_CAUSE_CAUSE c.causes.toNat
    let s := s.countP p (13 + resultCode r) 1
    let s := s.onCtl p fun c => { c with last := some (r, c.step, c.attempt), phase := .idle, outcome := none }
    .next (if r = Result.halt then
      s.emit { hubRec ucHubCore 31 0x1A (some p) with vote := 2, syn := s.reg (K.STEP_CAUSE p) } else s)

/-! ## Alerts and cancels (R396, R400) -/

/-- The first ALERT's origin shown in STEP_CAUSE (R410). -/
def State.firstAlert (s : State) (p : Part) (origin : Nat) : State :=
  let k := K.STEP_CAUSE p
  if s.rb k F.STEP_CAUSE_FIRST_VALID then s
  else
    ((s.setRf k F.STEP_CAUSE_FIRST_MOD origin).setRb k F.STEP_CAUSE_FIRST_VALID true).onCtl p fun c =>
      { c with firstMod := some origin }

/-- CANCEL goes to the effective children, once per attempt (R400). -/
def State.sendCancel (s : State) (p : Part) : State :=
  if (s.ctl p).cancelled then s
  else (s.onCtl p fun c => { c with cancelled := true }).sendStepAll p (s.stepKids p) opCancel 0 0

/-- A CANCEL received: it goes on, CANCELLED is set, and every open bucket is abandoned without further votes (R400). -/
def State.cancelStep (s : State) (p : Part) : State :=
  if s.rb (K.STEP_STAT p) F.STEP_STAT_CANCELLED then s
  else
    let s := (s.sendCancel p).setRb (K.STEP_STAT p) F.STEP_STAT_CANCELLED true
    (s.benchesOf p).foldl (fun (s : State) b => s.abandonAll b p true) s

/-- An ALERT of the attempt goes towards the root, at most one per attempt; the acting root sends CANCEL instead (R400). -/
def State.passAlert (s : State) (p : Part) (origin v : Nat) : State :=
  let s := (s.firstAlert p origin).onCtl p fun c => { c with alerted := true }
  if s.acting p then s.sendCancel p
  else (s.sendStepAll p (s.stepParent p).toList opAlert v origin).countP p 12 1

/-- The first waiting ALERT or CANCEL of a partition: neither waits for its attempt to open (R400). -/
def State.takeNews (s : State) (p : Part) (op : Nat) : Option (Packet × State) :=
  (s.takePacket fun x => isOp clsStep op x && pktDstPart x.2 == p).map fun x => (x.1.2, x.2)

/-- A STEP packet of an attempt not yet open here sent on to several modules, with a vote and an origin (R396, R400). -/
def State.sendAhead (s : State) (p : Part) (mods : List Nat) (op v origin : Nat) (pkt : Packet) : State :=
  mods.foldl (fun (s : State) m => s.sendStep p m op (pktStep pkt) (stAttempt pkt) v (stCauses pkt) origin) s

/-- A CANCEL of an attempt that is to open here: it goes on at once, and counts for the attempt when it opens (R400). -/
def State.cancelAhead (s : State) (p : Part) (pkt : Packet) : State :=
  let key := (pktStep pkt, stAttempt pkt)
  if (s.ctl p).earlyCancel = some key then s
  else (s.onCtl p fun c => { c with earlyCancel := some key }).sendAhead p (s.stepKids p) opCancel 0 0 pkt

/-- An ALERT of an attempt that is to open here: it goes on at once, one per attempt; the acting root sends CANCEL (R400). -/
def State.alertAhead (s : State) (p : Part) (pkt : Packet) : State :=
  let key := (pktStep pkt, stAttempt pkt, stOrigin pkt)
  if (match (s.ctl p).early with | some (k, a, _) => k == key.1 && a == key.2.1 | none => false) then s
  else
    let s := s.onCtl p fun c => { c with early := some key }
    if s.acting p then s.sendAhead p (s.stepKids p) opCancel 0 0 pkt
    else (s.sendAhead p (s.stepParent p).toList opAlert (stVote pkt) (stOrigin pkt) pkt).countP p 12 1

/-- CANCEL: of the attempt in progress, or of one that is to open here; any other is discarded (R400). -/
def execCancel (p : Part) (s : State) : Out := s.byCore stepCore fun s =>
  match s.takeNews p opCancel with
  | none => .next s
  | some (pkt, s) =>
    .next (if s.stepRel p pkt = .current then s.cancelStep p
      else if s.stepRel p pkt = .ahead && !s.stepPast p pkt then s.cancelAhead p pkt else s)

/-- ALERT: of the attempt in progress, or of one that is to open here; any other is discarded (R400). -/
def execAlert (p : Part) (s : State) : Out := s.byCore stepCore fun s =>
  match s.takeNews p opAlert with
  | none => .next s
  | some (pkt, s) =>
    .next (if s.stepRel p pkt = .current then
        (if (s.ctl p).alerted then s else s.passAlert p (stOrigin pkt) (stVote pkt))
      else if s.stepRel p pkt = .ahead && !s.stepPast p pkt then s.alertAhead p pkt else s)

/-- The vote a module would send now, its Weighbridges' and error controllers' among it. -/
def State.runningVote (s : State) (p : Part) : Vote :=
  (s.benchesOf p).foldl (fun v b =>
    voteMax v (voteMax (s.bench b).errVote (if (s.wgh b).voteAbort then .abort else .pass))) (s.ownVote p)

/-- ALERT_SEND: a module whose vote has first become ABORT or HALT sends an ALERT (R396). -/
def execAlertSend (p : Part) (s : State) : Out := s.byCore stepCore fun s =>
  let c := s.ctl p
  let v := s.runningVote p
  if !c.live || c.alerted || c.outcome.isSome || voteRank v < 2 then .next s
  else .next (s.passAlert p s.modId (voteCode v))

/-! ## Lost modules at the step controller (R353, R397, R399) -/

/-- After a change of the lost set the effective parent may be another: the vote, or the OUTCOME held in its place, is sent
again, and the OUTCOME of the last attempt acted on where this attempt holds none (R397, R399). `was` is the effective parent
before. (assumption 55, DEDUCED) -/
def State.stepRevote (s : State) (p : Part) (was : Option Nat) : State :=
  let now := s.stepParent p
  let c := s.ctl p
  if now = was || now.isNone then s.stepAdvance p
  else
    let m := now.getD 0
    if c.outcome.isSome then s.resendHeld p [m]
    else
      let s := s.resendLast p m
      match c.live, c.sentVote with
      | true, some v => (s.sendStepAll p [m] opVote (voteCode v) 0).countP p 17 1
      | true, none => s.stepAdvance p
      | false, _ => s

/-! ## Mapping images (R387-R393) -/

/-- Whether a word reads as poisoned: marked so, or on an absent bank or stack (R209, R252). -/
def State.readsBad (s : State) (p : Part) (a : Nat) : Bool := (s.mark (a / 16)).poison || !s.served p a

/-- The 64-bit word at an offset of partition p's mapping image; bits of a word that reads as poisoned are a free value
(assumption 4, DESIGN CHOICE). -/
def State.imgWord (s : State) (p : Part) (base off : Nat) : Word :=
  let a := base + off
  if s.readsBad p a then Config.freeWord (s.freeCtr + off) else BitVec.ofNat 64 (ofBytes (mread s.mem a 8))

/-- A structure of the image: its offset and its length in bytes. -/
structure ImgPart where
  off : Nat
  len : Nat
  deriving DecidableEq, Repr

/-- The mapping image's longest length (R388). -/
def imgMax : Nat := 0x100000

/-- S of a group record or shard table that lies where it can be read. -/
def State.imgCount (s : State) (p : Part) (base off lo : Nat) : Nat :=
  if off + 8 ≤ imgMax ∧ s.rangeOk p base (off + 8) then fld (s.imgWord p base off) lo 14 else 0

/-- The shard tables, laid end to end from SHARD_OFF (R393). -/
def State.shardParts (s : State) (p : Part) (base : Nat) : Nat → Nat → List ImgPart
  | 0, _ => []
  | n + 1, off =>
    let len := 8 + 8 * s.imgCount p base off 32
    ⟨off, len⟩ :: s.shardParts p base n (off + len)

/-- The offset of axis a's group record (R388). -/
def State.grpOff (s : State) (p : Part) (base a : Nat) : Nat := fld (s.imgWord p base (32 + 8 * (a / 2))) (32 * (a % 2)) 32

/-- The structures of an image. -/
def State.imgParts (s : State) (p : Part) (base : Nat) : List ImgPart :=
  let nmod := fld (s.imgWord p base 0) 32 14
  let grps := ((List.range 5).map (s.grpOff p base)).filter (· != 0)
  ⟨fld (s.imgWord p base 16) 0 32, 4 * nmod⟩ :: (grps.map fun o => ⟨o, 8 + 8 * s.imgCount p base o 0⟩)
    ++ s.shardParts p base (fld (s.imgWord p base 24) 0 8) (fld (s.imgWord p base 16) 32 32)

/-- The tree table's entries (R389). -/
def State.imgTree (s : State) (p : Part) (base : Nat) : List (TreeEnt × Nat) :=
  let off := fld (s.imgWord p base 16) 0 32
  (List.range (fld (s.imgWord p base 0) 32 14)).map fun i =>
    let a := off + 4 * i
    let w := fld (s.imgWord p base (a / 8 * 8)) (8 * (a % 8)) 32
    (⟨bits w 0 13, bits w 13 2, w.testBit 15, bits w 16 13⟩, bits w 29 3)

/-- A group's slots, every member with its VALID (R390). -/
def State.imgGroup (s : State) (p : Part) (base off : Nat) : List (List (Nat × Nat × Bool)) :=
  (List.range (fld (s.imgWord p base off) 0 14)).map fun i =>
    let w := s.imgWord p base (off + 8 + 8 * i)
    (List.range 4).map fun k => let m := fld w (16 * k) 16; (bits m 0 13, bits m 13 2, m.testBit 15)

/-- REASON 1: what must be at rest (R391). -/
def State.mapBusy (s : State) (p : Part) : Bool :=
  (s.benchesOf p).any fun b =>
    let x := s.bench b
    (s.fm b).st != .stopped || !x.wgh.buckets.isEmpty || !x.q[6].isEmpty || x.run.any fun r => r.q == 1 && !r.remote.isEmpty

/-- REASON 3: the header (R388). -/
def State.mapHeaderBad (s : State) (p : Part) (base : Nat) : Bool :=
  let w (n : Nat) : Word := s.imgWord p base (8 * n)
  let nmod := fld (w 0) 32 14
  let nsh := fld (w 3) 0 8
  let sh := fld (w 2) 32 32
  let tree := fld (w 2) 0 32
  let offBad (o : Nat) : Bool := o % 8 != 0 || o < 64
  fld (w 0) 28 4 != 0 || fld (w 0) 46 18 != 0 || fld (w 3) 8 56 != 0 || fld (w 6) 32 32 != 0 || w 7 != 0
    || nmod == 0 || 8192 < nmod || 64 < nsh || offBad tree
    || (if nsh = 0 then sh != 0 else offBad sh)
    || (List.range 5).any fun a => s.grpOff p base a != 0 && offBad (s.grpOff p base a)

/-- REASON 4: the tree table describes one tree, and this module's entry agrees with its ports (R389). -/
def State.mapTreeBad (s : State) (p : Part) (l : List (TreeEnt × Nat)) : Bool :=
  let m : Mapping := ⟨l.map Prod.fst, []⟩
  let mods := m.tree.map fun e => e.mod
  let rising := (mods.zip (mods.drop 1)).all fun x => x.1 < x.2
  let roots := m.tree.filter fun e => e.root
  let okEnt (e : TreeEnt) : Bool :=
    if e.root then e.parent == 0
    else
      let up := m.up 16 e.mod
      e.parent != e.mod && mods.contains e.parent && (match up.getLast? with | some r => roots.any fun x => x.mod == r | none => false)
  let mine := match m.ent s.modId with
    | none => false
    | some e =>
      e.part == p.val && e.root == s.rb (K.FAB_TREE p) F.FAB_TREE_ROOT
        && (e.root || (let n := s.rf (K.FAB_TREE p) F.FAB_TREE_PARENT
              s.rb (K.FAB_PORT n) F.FAB_PORT_PEER_VALID && s.rf (K.FAB_PORT n) F.FAB_PORT_PEER_MOD == e.parent))
  !rising || roots.length != 1 || l.any (fun x => x.2 != 0) || !m.tree.all okEnt || !mine

/-- REASON 5: a group record (R390). -/
def State.mapGroupBad (s : State) (p : Part) (base off : Nat) (tree : List TreeEnt) : Bool :=
  let w := s.imgWord p base off
  let g := s.imgGroup p base off
  let valid := g.flatten.filter fun m => m.2.2
  let mods := valid.map fun m => m.1
  fld w 14 50 != 0 || fld w 0 14 == 0 || 8192 < fld w 0 14
    || g.any (fun l => !(l.getD 0 (0, 0, false)).2.2)
    || g.any (fun l => (List.range 3).any fun i => !(l.getD i (0, 0, false)).2.2 && (l.getD (i + 1) (0, 0, false)).2.2)
    || valid.any (fun m => !tree.any fun e => e.mod == m.1 && e.part == m.2.1)
    || mods.eraseDups.length != mods.length || !(valid.any fun m => m.1 == s.modId && m.2.1 == p.val)

/-- REASON 6: a shard table (R393). -/
def State.mapShardBad (s : State) (p : Part) (base : Nat) (t : ImgPart) : Bool :=
  let w := s.imgWord p base t.off
  let n := fld w 32 14
  let ent (i : Nat) : Nat × Nat := let e := s.imgWord p base (t.off + 8 + 8 * i); (fld e 0 32, fld e 32 32)
  let g := s.grpOff p base (fld w 0 3)
  fld w 3 13 != 0 || fld w 46 18 != 0 || 5 ≤ fld w 0 3 || g == 0 || n != fld (s.imgWord p base g) 0 14
    || (ent 0).1 != 0 || (List.range (n - 1)).any fun i => (ent (i + 1)).1 != (ent i).1 + (ent i).2

/-- The first check an install fails (R391). (assumption 56, DEDUCED) -/
def State.mapReason (s : State) (p : Part) : Nat :=
  let base := s.rf (K.MAP_ADDR p) F.MAP_ADDR_ADDR
  if s.mapBusy p then 1
  else if base % 4096 != 0 || !s.rangeOk p base 64 then 2
  else if s.mapHeaderBad p base
      || (s.imgParts p base).any fun t => imgMax < t.off + t.len || !s.rangeOk p base (t.off + t.len) then 3
  else
    let tree := s.imgTree p base
    let grps := ((List.range 5).map (s.grpOff p base)).filter (· != 0)
    if s.mapTreeBad p tree then 4
    else if grps.any fun o => s.mapGroupBad p base o (tree.map Prod.fst) then 5
    else if (s.shardParts p base (fld (s.imgWord p base 24) 0 8) (fld (s.imgWord p base 16) 32 32)).any (s.mapShardBad p base) then 6
    else if s.epochOn p && fld (s.imgWord p base 0) 0 16 == s.epoch p then 7
    else 0

/-- Every module of a partition's lost set unmarked. -/
def State.clearLost (s : State) (p : Part) : State :=
  (s.resetRegs (K.FAB_LOST p 0) (K.FAB_LOST p 128)).setRb (K.FAB_PART p) F.FAB_PART_SELF_LOST false

/-- Waiting packets that do not belong to a partition's new epoch dropped: they came before it, and no packet of one epoch is used
in another (R349, R394). -/
def State.dropOld (s : State) (p : Part) : State :=
  let old (x : Option PortNo × Packet) : Bool := pktDstPart x.2 == p && s.stalePkt p x.2
  (s.discard old).count (K.FAB_DROP p 3) (s.fab.inbox.filter old).length

/-- The image put in force at one instant (R392). (assumption 56, DEDUCED) -/
def State.mapInstall (s : State) (p : Part) : State :=
  let base := s.rf (K.MAP_ADDR p) F.MAP_ADDR_ADDR
  let w0 := s.imgWord p base 0
  let groups := (List.range 5).map fun a =>
    if s.grpOff p base a = 0 then none
    else some ((s.imgGroup p base (s.grpOff p base a)).map fun l => (l.filter fun m => m.2.2).map fun m => (m.1, m.2.1))
  let m : Mapping := ⟨(s.imgTree p base).map Prod.fst, groups⟩
  let id := s.imgWord p base 8
  let s := (s.setRf (K.FAB_PART p) F.FAB_PART_EPOCH (fld w0 0 16)).setRf (K.FAB_PART p) F.FAB_PART_JOB_TAG (fld w0 16 12)
  let s := (s.setReg (K.MAP_ID p) id).onCtl p fun c => { c.emptied with mapping := some m }
  let k := K.MAP_CTL p
  let s := ((s.setRf k F.MAP_CTL_EPOCH (fld w0 0 16)).setRb k F.MAP_CTL_IN_FORCE true).setRb k F.MAP_CTL_DONE true
  let s := (s.clearLost p).dropOld p
  (s.benchesOf p).foldl (fun s b => s.onWgh b fun w => { w with grants := [], awaitDrain := [], drained := [] }) s

/-- Bytes of the image read: their words decoded in slots of their stacks, at NORMAL; those of absent banks and stacks refused
(R252, R254, R258). (assumption 56, DEDUCED) -/
def State.imgFetch (s : State) (p : Part) (a len : Nat) : State :=
  let ws := wordsOf a len
  let (ok, bad) := ws.partition fun w => s.served p (16 * w)
  let s := ok.foldl (fun s w => s.decodeWord w .clean) (bad.foldl (fun s w => s.refuseAt p none (16 * w)) s)
  s.charge p true (ok.map fun w => (w, 1, 16))

/-- What an install reads of its image: its header, and its structures where the header and they are in order (R391).
(assumption 56, DEDUCED) -/
def State.imgRead (s : State) (p : Part) : State :=
  let base := s.rf (K.MAP_ADDR p) F.MAP_ADDR_ADDR
  if s.mapBusy p || base % 4096 != 0 || !s.rangeOk p base 64 then s
  else
    let s := s.imgFetch p base 64
    if s.mapHeaderBad p base || (s.imgParts p base).any fun t => imgMax < t.off + t.len || !s.rangeOk p base (t.off + t.len) then s
    else (s.imgParts p base).foldl (fun s t => s.imgFetch p (base + t.off) t.len) s

/-- MAP_CTLp.INSTALL: the image is read, checked and installed, or refused with its reason (R391, R392). -/
def State.mapWrite (s : State) (p : Part) : State :=
  let s := s.imgRead p
  let r := s.mapReason p
  let s' := if r = 0 then s.mapInstall p
    else (s.setRb (K.MAP_CTL p) F.MAP_CTL_REFUSED true).setRf (K.MAP_CTL p) F.MAP_CTL_REASON r
  { s' with freeCtr := s'.freeCtr + imgMax }

/-- INSTALL (R391). (assumption 56, DEDUCED) -/
def execInstall (p : Part) (s : State) : Out := s.byCore stepCore fun s => .next (s.mapWrite p)

end Sys2Proof.Machine
end

