-- ==== Sys2Proof/Machine/Mirror.lean ====
section
/-!
DEFINITION. Snapshot mirrors: their start, the pages and the manifest sent, and the buddy's side (spec 14 R405-R408, R411,
R412; 17 R484). The packets are MGMT firmware packets (R344), whose operations and bodies are this model's own
(assumption 15, DESIGN CHOICE).
-/

namespace Sys2Proof.Machine

/-! ## Packets (assumption 15, DESIGN CHOICE) -/

def opMirBegin : Nat := 1
def opMirPage : Nat := 2
def opMirManifest : Nat := 3
def opMirAck : Nat := 4
def opMirFail : Nat := 5
def opMirMarks : Nat := 6

/-- A mirror packet of partition p to a module, with the step in force there (R344); `off` is the byte offset of its piece of
the pages, and BUCKET the piece's number: ADDR is zero in a MGMT packet (R344). (assumption 15, DESIGN CHOICE) -/
def State.sendMir (s : State) (p : Part) (mod : Nat) (op off : Nat) (payload : List Byte) : State :=
  s.send p (s.packet p ⟨mod, p, clsMgmt, op, (s.ctl p).step, 0, off / 4096, 0, false, 0⟩ payload)
/-- The byte offset of a mirrored piece. (assumption 15, DESIGN CHOICE) -/
def mirOffset (pkt : Packet) : Nat := 4096 * pktBucket pkt

/-! ## Sending (R406) -/

def State.buddy (s : State) : Nat := s.rf K.FAB_ID F.FAB_ID_BUDDY

/-- The pages of a protection set in ascending order (R259, R406). -/
def State.setPages (s : State) (p : Part) (n : Fin 4) : List Nat :=
  let ranges := (List.range 8).map fun j =>
    (List.range (s.rf (K.COW_RGN p n j) F.COW_RGN_PAGES)).map (s.rf (K.COW_RGN p n j) F.COW_RGN_BASE + ·)
  ranges.flatten.foldl (fun l x => insertNat x l) []

/-- START: the mirror begins, or fails where its set, rate or buddy allow none or another partition is mirroring (R406, R411). -/
def State.mirStart (s : State) (p : Part) : State :=
  let k := K.MIR_CTL p
  let set := s.rf k F.MIR_CTL_SET
  let n : Fin 4 := ⟨set % 4, by omega⟩
  if s.bulk.tx[p].isSome then s
  else if set = 0 || s.rf k F.MIR_CTL_RATE = 0 || !s.armed p n || s.broken p n || !s.rb K.FAB_ID F.FAB_ID_BUDDY_VALID
      || s.isLost p s.buddy || (allParts.any fun q => s.bulk.tx[q].isSome) then s.setRb k F.MIR_CTL_FAILED true
  else
    let s := (s.setTx p (some ⟨set, s.setPages p n, [], true, false⟩)).setRb k F.MIR_CTL_BUSY true
    let s := s.setRf (K.MIR_STAT p) F.MIR_STAT_PAGES_SENT 0
    s.sendMir p s.buddy opMirBegin 0 []

/-- MIR_START (R406). -/
def execMirStart (p : Part) (s : State) : Out := .next (s.mirStart p)

/-- A write of MIR_CTL: its fields, then START (R411). -/
def State.writeMirCtl (s : State) (p : Part) (v : Word) : State :=
  let s := s.writeReg (K.MIR_CTL p) false v
  if bit v 0 then s.mirStart p else s

/-- The page that a set's view shows in place of one: its recorded copy, or the live page (R262). -/
def State.viewPageNo (s : State) (p : Part) (n : Fin 4) (page : Nat) : Nat :=
  let c := (s.cow p n).copyOf page
  if c = 0 then page else c - 1

/-- The 64 KiB units of a page that its stacks refuse to a view read: the live page outside the partition's window, or what lies on
an absent stack (R252). -/
def State.viewRefused (s : State) (p : Part) (n : Fin 4) (page : Nat) : List Nat :=
  let a := bulkBase + s.viewPageNo p n page * pageSize
  ((List.range 32).map fun i => a + 65536 * i).filter fun u =>
    if s.viewPageNo p n page = page then !s.mayAccess p u else !s.served p u

/-- The bytes of a page as its set's view shows them; a refused unit shows none of what it holds, but zeros (R252, R262).
(assumption 15, DESIGN CHOICE) -/
def State.viewPage (s : State) (p : Part) (n : Fin 4) (page : Nat) : List Byte :=
  let a := bulkBase + s.viewPageNo p n page * pageSize
  let bad := s.viewRefused p n page
  if bad.isEmpty then mread s.mem a pageSize
  else (List.range 32).flatMap fun i =>
    let u := a + 65536 * i
    if bad.contains u then List.replicate 65536 0 else mread s.mem u 65536

/-- A page of a set's view read for its mirror: its words decoded, refused units recorded, and the words that read as poisoned, as
their places in the page (R209, R252, R258, R262). -/
def State.readView (s : State) (p : Part) (n : Fin 4) (page : Nat) : List Nat × State :=
  let lo := (bulkBase + s.viewPageNo p n page * pageSize) / 16
  let bad := s.viewRefused p n page
  let s := (bad.foldl (fun s u => s.refuseAt p none u) s).decodeRange lo (lo + pageSize / 16)
  let inBad (w : Nat) : Bool := bad.any fun u => u / 16 ≤ w && w < u / 16 + 4096
  let marked := (s.marks.filter fun e => lo ≤ e.1 && e.1 < lo + pageSize / 16 && e.2.poison && !inBad e.1).map Prod.fst
  ((bad.flatMap fun u => (List.range 4096).map (u / 16 + ·)) ++ marked |>.map (· - lo), s)

/-- A byte string in pieces of 4 KiB, each with its offset. -/
def pieces4k (off : Nat) : Nat → List Byte → List (Nat × List Byte)
  | 0, _ => []
  | n + 1, l => (off, l.take 4096) :: pieces4k (off + 4096) n (l.drop 4096)

/-- The manifest of a mirror, its STATE and SEQ left to the buddy (R407). -/
def State.manifest (s : State) (p : Part) (n : Fin 4) (sent : List Nat) : List Byte :=
  let words : List Word :=
    [pack [(2, 2, p.val), (4, 13, s.modId)], 0,
      pack [(0, 48, s.rf (K.MIR_CTL p) F.MIR_CTL_STEP), (48, 16, if s.epochOn p then s.epoch p else 0)],
      BitVec.ofNat 64 sent.length]
    ++ (List.range 8).map fun j => s.reg (K.COW_RGN p n j)
  wordBytes words ++ toBytes 64 (Config.sha512 (sent.flatMap (s.viewPage p n))).toNat

/-- The next page of a mirror read through its set's view and sent, or the manifest after the last page; a broken set or a lost
buddy ends the mirror (R406). The page's slots count as BULK grants (R254, R256). Behind the pieces that hold poisoned words goes
which of their words they are: the bytes of those are as stored, and of refused words zero (assumption 15, DESIGN CHOICE). -/
def State.mirSend (s : State) (p : Part) (n : Fin 4) (page : Nat) : State :=
  match s.bulk.tx[p] with
  | none => s
  | some t =>
    if t.set ≠ n.val then s
    else if s.broken p n || s.isLost p s.buddy then s.mirEnd p false
    else
      match t.todo with
      | [] => s
      | x :: rest =>
        if x ≠ page then s
        else
          let off := t.sent.length * pageSize
          let (bad, s) := s.readView p n x
          let s := (pieces4k off 512 (s.viewPage p n x)).foldl (fun s q => s.sendMir p s.buddy opMirPage q.1 q.2) s
          let s := (bad.map (· / 256)).eraseDups.foldl (fun s i =>
            s.sendMir p s.buddy opMirMarks (off + 4096 * i)
              (toBytes 32 ((bad.filter fun w => w / 256 == i).map fun w => 2 ^ (w % 256)).sum)) s
          let k := (s.stackOf p (bulkBase + x * pageSize)).1
          let s := if s.rb (K.BMC_PART p) F.BMC_PART_IMODE
            then (List.finRange 8).foldl (fun s i => s.slotsUsed i 2 512 (512 * 512)) s
            else s.slotsUsed ⟨k % 8, by omega⟩ 2 4096 (512 * 4096)
          let s := s.countP p 18 pageSize
          let s := s.setRf (K.MIR_STAT p) F.MIR_STAT_PAGES_SENT (t.sent.length + 1)
          s.setTx p (some { t with todo := rest, sent := t.sent ++ [x] })

/-- The manifest sent once every page was (R406). -/
def State.mirManifest (s : State) (p : Part) : State :=
  match s.bulk.tx[p] with
  | none => s
  | some t =>
    let n : Fin 4 := ⟨t.set % 4, by omega⟩
    if !t.todo.isEmpty || t.manifestSent then s
    else if s.broken p n then s.mirEnd p false
    else
      (s.sendMir p s.buddy opMirManifest 0 (s.manifest p n t.sent)).setTx p
        (some { t with manifestSent := true })

/-- A snapshot mirror's view read of a page, by the Hub's bulk memory cores while all of them run (R262, R406, R443).
(assumption 74, DESIGN CHOICE) -/
def State.mirView (s : State) (p : Part) (n : Fin 4) (addr : Nat) : State :=
  if (List.range 8).all fun k => s.hubCore (stackCore k) then (s.mirSend p n (pageOf addr)).mirManifest p else s

/-! ## The buddy's side (R406-R408) -/

/-- The first byte of a bank of the mirror area and a bank's bytes (R408). -/
def State.mirBank (s : State) (bank : Nat) : Nat :=
  bulkBase + s.rf K.MIR_RX F.MIR_RX_BASE_ROW * rowSize + bank * (s.rf K.MIR_RX F.MIR_RX_ROWS / 2 * rowSize)
def State.mirBankLen (s : State) : Nat := s.rf K.MIR_RX F.MIR_RX_ROWS / 2 * rowSize

/-- A word of a bank's manifest. -/
def State.mirWord (s : State) (bank off : Nat) : Word := BitVec.ofNat 64 (ofBytes (mread s.mem (s.mirBank bank + off) 8))
def mirComplete : Nat := 2
def State.mirState (s : State) (bank : Nat) : Nat := fld (s.mirWord bank 0) 0 2

/-- SEQ of a bank that is COMPLETE, else 0 (R407). -/
def State.mirSeq (s : State) (bank : Nat) : Nat :=
  if s.mirState bank = mirComplete then (s.mirWord bank 8).toNat else 0

/-- The bank that does not hold the newest COMPLETE manifest (R406). -/
def State.mirChoose (s : State) : Nat :=
  if s.mirState 0 = mirComplete ∧ (s.mirState 1 ≠ mirComplete ∨ s.mirSeq 1 ≤ s.mirSeq 0) then 1 else 0

/-- The stack of an address of the mirror area. -/
def State.mirStack (s : State) (a : Nat) : Fin 8 := ⟨s.stackAt a % 8, by omega⟩

/-- Bytes written at an address of the mirror area, in NORMAL slots of its stack; the words they fill are clean (R254, R255).
An absent stack performs no write and refuses it (R252, R267). -/
def State.mirPut (s : State) (a : Nat) (l : List Byte) : State :=
  if !s.stackOk (s.stackAt a) then s.refuseHub a else
  let s : State := { s with mem := mwrite s.mem a l, marks := tclear s.marks (a / 16) ((a + l.length) / 16) }
  (List.range ((a + l.length + 511) / 512 - a / 512)).foldl (fun (s : State) i =>
    let g := a / 512 + i
    let n := min (a + l.length) (512 * g + 512) - max a (512 * g)
    s.slotsUsed (s.mirStack (512 * g)) 1 (granuleCost false n) n) s

/-- Bytes of the mirror area read, in NORMAL slots of their stack; their words are decoded, and an absent stack refuses (R252, R254,
R255, R258). -/
def State.mirGet (s : State) (a len : Nat) : State :=
  if !s.stackOk (s.stackAt a) then s.refuseHub a
  else
    let n := ceilDiv (a % 512 + len) 512
    (s.decodeRange (a / 16) ((a + len + 15) / 16)).slotsUsed (s.mirStack a) 1 n (Nat.min len (512 * n))

/-- Whether there is a mirror area: two banks in installed rows that no partition owns (R408). -/
def State.mirArea (s : State) : Bool :=
  let n := s.rf K.MIR_RX F.MIR_RX_ROWS
  2 ≤ n && s.rf K.MIR_RX F.MIR_RX_BASE_ROW + n ≤ s.rowsInstalled
    && (List.range n).all fun i => (s.rowOwner (s.rf K.MIR_RX F.MIR_RX_BASE_ROW + i)).isNone

/-- Whether a mirror packet comes from the module whose mirrors are accepted, and there is an area for it (R408). -/
def State.mirAccepts (s : State) (pkt : Packet) : Bool :=
  s.rb K.MIR_RX F.MIR_RX_VALID && pktSrcMod pkt == s.rf K.MIR_RX F.MIR_RX_SOURCE && s.mirArea

/-- Whether a packet belongs to the mirror being received. -/
def MirrorRx.owns (r : MirrorRx) (pkt : Packet) : Bool := r.srcMod == pktSrcMod pkt && r.srcPart == (pktSrcPart pkt).val

/-- The bytes of a bank up to its first page cleared (R407, R408). (assumption 15, DESIGN CHOICE) -/
def State.mirBlank (s : State) (a : Nat) : State :=
  let s : State := { s with mem := tclear s.mem a (a + pageSize), marks := tclear s.marks (a / 16) ((a + pageSize) / 16) }
  s.slotsUsed (s.mirStack a) 1 (pageSize / 512) pageSize

/-- MIRROR_BEGIN_RECEIVE: a bank is chosen and its manifest marked WRITING; every other byte up to the first page is zero
(R406-R408), after the manifests of both banks were read. (assumption 15, DESIGN CHOICE) -/
def execMirrorBeginReceive (s : State) : Out :=
  match s.takePacket fun x => isOp clsMgmt opMirBegin x with
  | none => .next s
  | some ((_, pkt), s) =>
    if !s.mirAccepts pkt then .next s
    else
      let s := (s.mirGet (s.mirBank 0) 16).mirGet (s.mirBank 1) 16
      let b := s.mirChoose
      let a := s.mirBank b
      let w := pack [(0, 2, 1), (2, 2, (pktSrcPart pkt).val), (4, 13, pktSrcMod pkt)]
      .next (((s.mirBlank a).mirPut a (wordBytes [w])).onBulk fun x =>
        { x with rx := some ⟨b, 0, (pktSrcPart pkt).val, pktSrcMod pkt⟩ })

/-- The words of a stored piece that came from poisoned words are poisoned (R210, assumption 15, DESIGN CHOICE). -/
def State.mirMarks (s : State) (a : Nat) (l : List Byte) : State :=
  let m := ofBytes l
  if !s.stackOk (s.stackAt a) then s
  else ((List.range 256).filter m.testBit).foldl (fun s i =>
    let w := a / 16 + i
    s.setMark w { s.mark w with poison := true }) s

/-- One piece of a mirrored page stored in its bank, or the marks of one (R406, R407). -/
def State.mirPiece (s : State) : State :=
  match s.takePacket fun x => isOp clsMgmt opMirPage x || isOp clsMgmt opMirMarks x with
  | none => s
  | some ((_, pkt), s) =>
    match s.bulk.rx with
    | none => s
    | some r =>
      if !s.mirAccepts pkt || !r.owns pkt || s.mirBankLen < pageSize + mirOffset pkt + pkt.payload.length then s
      else if pktOp pkt = opMirMarks then s.mirMarks (s.mirBank r.bank + pageSize + mirOffset pkt) pkt.payload
      else
        (s.mirPut (s.mirBank r.bank + pageSize + mirOffset pkt) pkt.payload).onBulk fun x =>
          { x with rx := some { r with bytes := r.bytes + pkt.payload.length } }

/-- MIRROR_PAGE_RECEIVE: the pieces of one page that have come are stored, with their marks (R406).
(assumption 15, DESIGN CHOICE) -/
def execMirrorPageReceive (s : State) : Out := .next ((List.range 1024).foldl (fun s _ => s.mirPiece) s)

/-- MIRROR_MANIFEST_RECEIVE: the digest of the pages received decides: the manifest is written, then its STATE COMPLETE with SEQ
one above the other bank's, and the sender hears of it; a digest that disagrees, or a bank on an absent stack, ends the mirror in
WRITING (R406, R407). The answer carries the step in force here (R344).
(assumption 15, DESIGN CHOICE) -/
def execMirrorManifestReceive (s : State) : Out :=
  match s.takePacket fun x => isOp clsMgmt opMirManifest x with
  | none => .next s
  | some ((_, pkt), s) =>
    match s.bulk.rx with
    | none => .next s
    | some r =>
      if !s.mirAccepts pkt || !r.owns pkt then .next s
      else
        let a := s.mirBank r.bank
        let n := fld (pktWord pkt 3) 0 32
        let got := Config.sha512 (mread s.mem (a + pageSize) (n * pageSize))
        let want := BitVec.ofNat 512 (ofBytes ((pkt.payload.drop 96).take 64))
        let p := pktDstPart pkt
        let back (s : State) (op seq : Nat) : State :=
          s.send p (s.packet p ⟨pktSrcMod pkt, pktSrcPart pkt, clsMgmt, op, (s.ctl p).step, 0, 0, 0, false, 0⟩
            (wordBytes [BitVec.ofNat 64 seq, 0]))
        let s := (List.range n).foldl (fun s i => s.mirGet (a + pageSize * (i + 1)) pageSize) s
        let s := s.onBulk fun x => { x with rx := none }
        if got ≠ want ∨ r.bytes ≠ n * pageSize ∨ !s.stackOk (s.stackAt a) then .next (back s opMirFail 0)
        else
          let seq := s.mirSeq (1 - r.bank) + 1
          let s := (s.mirGet (s.mirBank (1 - r.bank)) 16).mirGet a 8
          let s := s.mirPut (a + 16) ((pkt.payload.drop 16).take 144)
          let s := s.mirPut (a + 8) (wordBytes [BitVec.ofNat 64 seq])
          let s := s.mirPut a (wordBytes [setFld (s.mirWord r.bank 0) 0 2 mirComplete])
          .next (back s opMirAck seq)

/-- MIRROR_ACK_RECEIVE: the buddy's answer ends the mirror, DONE or FAILED (R406, R411). -/
def execMirrorAckReceive (p : Part) (s : State) : Out :=
  match s.takePacket fun x => (isOp clsMgmt opMirAck x || isOp clsMgmt opMirFail x) && pktDstPart x.2 == p with
  | none => .next s
  | some ((_, pkt), s) =>
    match s.bulk.tx[p] with
    | none => .next s
    | some t =>
      if !t.manifestSent || pktSrcMod pkt ≠ s.buddy then .next s
      else if pktOp pkt = opMirAck then
        .next ((s.setRf (K.MIR_STAT p) F.MIR_STAT_SEQ (fld (pktWord pkt 0) 0 32)).mirEnd p true)
      else .next (s.mirEnd p false)

/-- MIRROR_ACK_TIMEOUT: no acknowledgement of the manifest within its limit (R484). -/
def execMirrorAckTimeout (p : Part) (s : State) : Out :=
  match s.bulk.tx[p] with
  | some t => .next (if t.manifestSent then s.mirEnd p false else s)
  | none => .next s

/-- A write of MIR_RX: ignored where it names a row that a partition owns (R408). -/
def State.writeMirRx (s : State) (v : Word) : State :=
  let b := fld v 0 7
  if (List.range (fld v 8 7)).any fun i => (s.rowOwner (b + i)).isSome then s else s.writeReg K.MIR_RX false v

/-- MIR_RX.ROWS takes an even number from 2 to 96 (R11, R412). -/
def State.writeMirRxEven (s : State) (v : Word) : State :=
  let n := fld v 8 7
  s.writeMirRx (if n % 2 = 1 || n = 0 || 96 < n then setFld v 8 7 (s.rf K.MIR_RX F.MIR_RX_ROWS) else v)

/-- MIR_RX_WRITE by the INSTALLER (R408, R412). -/
def execMirRxWrite (v : Word) (s : State) : Out := .next (s.writeMirRxEven v)

end Sys2Proof.Machine
end

