-- ==== Sys2Proof/Machine/Links.lean ====
section
/-!
DEFINITION. Optical ports: training and spare lanes, frames with their sequence numbers, CRC, credits and NAKs, ports going
DOWN, lost peers, and the route and tree tables (spec 12 R337-R348, R352-R354, R356-R360).
-/

namespace Sys2Proof.Machine

/-! ## Training (R338, R518) -/

/-- Working lanes with every lane in `bad` replaced by the lowest spare not yet in use that passes; none where the spares run
out. What is left are the unused spares (R248, R338). -/
def fitLanes (bad : List Nat) : List Nat → List Nat → Option (List Nat × List Nat)
  | [], spares => some ([], spares)
  | l :: rest, spares =>
    if !bad.contains l then (fitLanes bad rest spares).map fun x => (l :: x.1, x.2)
    else
      match spares.dropWhile bad.contains with
      | [] => none
      | x :: left => (fitLanes bad rest left).map fun y => (x :: y.1, y.2)

/-- Key of a port's lane map in the saved settings. -/
def savedPort (n : PortNo) : Nat := 16 + n.val

/-- The saved settings in force: the authenticated copy of the greater SEQ; none without the module's keys (R507, R509, R525). -/
def State.savedRec (s : State) : Option SavedRec :=
  let f := s.mgmt.flash
  let ok (r : Option SavedRec) : Option SavedRec := r.filter fun x => s.mgmt.identityOk && x.auth == s.mgmt.helper
  match ok f.saved[0], ok f.saved[1] with
  | some a, some b => some (if a.seq < b.seq then b else a)
  | some a, none => some a
  | none, b => b

/-- The saved lane map and equalisation values at a key (R517, R518). -/
def State.savedSet (s : State) (key : Nat) : Option (List Nat × Word) :=
  s.savedRec.bind fun r => (r.sets.find? fun e => e.1 == key).map Prod.snd

/-- The settings that training found come into use; they differ from the saved ones, or not (R519). -/
def State.noteSettings (s : State) (key : Nat) (lanes : List Nat) (eq : Word) : State :=
  let differ := s.savedSet key != some (lanes, eq)
  s.onMgmt fun m => { m with
    equal := tput m.equal key eq, newSettings := m.newSettings || differ, allSaved := m.allSaved && !differ }

/-! ## Progress of training (R517, R518, R520, R538) -/

/-- Stages of bring-up (R538). -/
def stageRom : Nat := 0
def stageFirmware : Nat := 1
def stageTraining : Nat := 2
def stageChecks : Nat := 3
def stageRecovery : Nat := 5
def stageFailed : Nat := 6
def State.setStage (s : State) (n : Nat) : State := s.setRf K.BOOT_STAT F.BOOT_STAT_STAGE n

/-- A stack or port as the plan of this boot has it (R514, R521). -/
def State.planBit (s : State) (i : Nat) : Bool :=
  match s.buildRec with
  | some r => bit (s.planModule r 0) i
  | none => false
def State.planStack (s : State) (k : Nat) : Bool := s.planBit (24 + k)
def State.planPort (s : State) (n : Nat) : Bool := s.planBit (32 + n)

/-- Whether every stack of the plan is trained or absent, and every port's training or peer window has ended (R520). -/
def State.trained (s : State) : Bool :=
  ((List.range 8).all fun k => !s.planStack k || s.mgmt.stacksDone.getLsbD k || s.rb (K.BMC_STAT k) F.BMC_STAT_ABSENT)
    && ((List.range 16).all fun n => !s.planPort n || s.mgmt.portsDone.getLsbD n)

/-- TRAINING passes to CHECKS when no stack or port is training any more (R538). (assumption 88, DESIGN CHOICE) -/
def State.noteTrained (s : State) : State :=
  if s.stage = stageTraining && s.trained then s.setStage stageChecks else s

/-- A port's training or its peer window ended (R518). -/
def State.portDone (s : State) (n : PortNo) : State :=
  (s.onMgmt fun m => { m with portsDone := m.portsDone ||| BitVec.ofNat 16 (2 ^ n.val) }).noteTrained

/-- Whether a port can train: it trains at bring-up or on command, or it is DOWN and its partition has no epoch (R338, R518). -/
def State.portTrains (s : State) (n : PortNo) : Bool :=
  s.portState n == 2 || (s.portState n == portDown && (match s.portOwner n with | some p => !s.epochOn p | none => true))

/-- A record of a port, its lane in ROW (R449). -/
def State.portRecord (s : State) (n : PortNo) (event lane : Nat) (syn : Word) : State :=
  s.emit { hubRec ucPort n.val event (s.portOwner n) with rc := some (lane, 0), syn := syn }

/-- The lanes that fail qualification: 10^5 bit errors or more in the window (R338). -/
def failedLanes (errors : List Nat) : List Nat := (List.range 18).filter fun l => 100000 ≤ errors.getD l 0

/-- PORT_TRAINING: `errors` are the bit errors of each lane in its last qualification window; the lanes that fail are replaced by
spares; whether a lane had to be adapted first, and the equalisation values of lanes adapted or trained afresh, are free;
READY with 16 passing lanes, else FAILED, a fault that joins the port's history under LINK_DOWN's code (R456); the two ends
exchange module ID and port number (R338, R340, R518). (assumption 88, DESIGN CHOICE) -/
def execPortTraining (n : PortNo) (errors : List Nat) (peerMod : BitVec 13) (peerPort : BitVec 4) (s : State) : Out :=
  if !s.portTrains n then .next s
  else
    let k := K.FAB_PORT n
    let old := s.savedSet (savedPort n)
    let first := (old.map Prod.fst).getD (List.range 16)
    match fitLanes (failedLanes errors) first ([16, 17].filter fun l => !first.contains l) with
    | none =>
      let s := (s.setRf k F.FAB_PORT_STATE 4).setRb k F.FAB_PORT_PEER_VALID false
      .next ((s.noteFault { hubRec ucPort n.val 0x08 (s.portOwner n) with rc := none }).planChanged.portDone n)
    | some (lanes, _) =>
      let (adapted, s) := s.drawBool
      let (w, s) := s.drawWord
      let eq := match old with | some x => if adapted || lanes != x.1 then w else x.2 | none => w
      let s := (s.onPort n fun _ => { PortSt.reset with lanes := lanes }).noteSettings (savedPort n) lanes eq
      let s := s.setRf k F.FAB_PORT_SPARED ((lanes.filter fun l => 16 ≤ l).length)
      let s := ((s.setRf k F.FAB_PORT_PEER_MOD peerMod.toNat).setRf k F.FAB_PORT_PEER_PORT peerPort.toNat).setRb k
        F.FAB_PORT_PEER_VALID true
      .next ((s.setRf k F.FAB_PORT_STATE portReady).planChanged.portDone n)

/-- LANE_WINDOW_END: a lane of a READY port that reached 10^5 errors in its window sets MARGINAL and writes a record (R339). -/
def execLaneWindowEnd (n : PortNo) (lane errors : Nat) (s : State) : Out :=
  if s.portState n != portReady || errors < 100000 then .next s
  else
    .next ((s.setRb (K.FAB_PORT n) F.FAB_PORT_MARGINAL true).portRecord n 0x09 lane (BitVec.ofNat 64 errors))

/-! ## Frames (R344-R347) -/

/-- One bit of the IEEE 802.3 CRC-32. -/
def crcBit (c : BitVec 32) : BitVec 32 := if c.getLsbD 0 then (c >>> 1) ^^^ 0xEDB88320 else c >>> 1
/-- One byte of the IEEE 802.3 CRC-32. -/
def crcByte (c : BitVec 32) (b : Byte) : BitVec 32 :=
  crcBit (crcBit (crcBit (crcBit (crcBit (crcBit (crcBit (crcBit (c ^^^ b.setWidth 32))))))))
/-- The CRC-32 of IEEE 802.3 over a byte string (R344). -/
def crc32 (l : List Byte) : BitVec 32 := ~~~ (l.foldl crcByte (BitVec.allOnes 32))

/-- The bytes of a packet's header and payload (R344). -/
def pktBytes (p : Packet) : List Byte := wordBytes [p.w0, p.w1, p.w2, p.w3] ++ p.payload
/-- Whether a class has a frame ready and the credits to send it (R345). -/
def PortSt.ready (q : PortSt) (c : Fin 5) : Bool :=
  match q.sendq[c] with
  | [] => false
  | p :: _ => frameCost p ≤ q.credits[c]

/-- The class served next: STEP, BARRIER, MGMT, then DATA and REDUCE in turn while both are ready (R346). -/
def PortSt.nextClass (q : PortSt) : Option (Fin 5) :=
  if q.ready 3 then some 3 else if q.ready 2 then some 2 else if q.ready 4 then some 4
  else if q.ready 0 && q.ready 1 then some (if q.reduceTurn then 1 else 0)
  else if q.ready 0 then some 0 else if q.ready 1 then some 1 else none

/-- The credits owed to the peer go to it in idle symbols (R345). -/
def PortSt.idle (q : PortSt) : PortSt :=
  { q with idles := Vector.zipWith (· + ·) q.idles q.owed, owed := Vector.replicate 5 0 }

/-- FRAME_TRANSMIT: the next frame leaves on the fibre and is kept until it is known received; credits owed to the peer go in its
trailer, or in idle symbols where no frame goes (R345-R347). A port of no partition carries no packet, only idle symbols (R341).
(assumptions 32 and 58, DEDUCED) -/
def execFrameTransmit (n : PortNo) (s : State) : Out :=
  let q := s.port n
  if !s.portUp n then .next s
  else if (s.portOwner n).isNone then .next (s.onPort n PortSt.idle)
  else
    match q.nextClass with
    | none => .next (s.onPort n PortSt.idle)
    | some c =>
      match q.sendq[c] with
      | [] => .next s
      | p :: rest =>
        let fr : Frame := ⟨p, q.txSeq, crc32 (pktBytes p), false, 0, q.owed⟩
        let s := s.onPort n fun q =>
          { q with
            sendq := q.sendq.set c rest
            credits := q.credits.set c (q.credits[c] - frameCost p)
            owed := Vector.replicate 5 0
            txSeq := q.txSeq + 1
            resend := q.resend ++ [fr]
            outbox := q.outbox ++ [fr]
            reduceTurn := if c = 0 then true else if c = 1 then false else q.reduceTurn }
        .next ((s.countH (16 * n.val) 1).countH (16 * n.val + 2) p.payload.length)

/-- A packet off the fibre: one on a port of no partition is dropped; it goes on by its partition's tables or is delivered
(R341-R343). One that goes on or is dropped leaves the receive buffer (R345). -/
def State.arrive (s : State) (n : PortNo) (pkt : Packet) : State :=
  match s.portOwner n with
  | none => (s.dropRoute (pktDstPart pkt)).freed (some n) pkt
  | some p =>
    if pktDstMod pkt = s.modId then s.deliver (some n) p pkt else (s.forward p (some n) pkt).freed (some n) pkt

/-- Frames of a class against its returned credits: the oldest are known received, as far as the credits go; the credits left and
the frames left. (assumption 58, DEDUCED) -/
def settled (c : Fin 5) : Int → List Frame → Int × List Frame
  | u, [] => (u, [])
  | u, f :: rest =>
    if pktCls f.pkt = c then
      if (frameCost f.pkt : Int) ≤ u then settled c (u - frameCost f.pkt) rest else (u, f :: rest)
    else
      let x := settled c u rest
      (x.1, f :: x.2)

/-- The sequence number of the oldest frame not known received. -/
def PortSt.oldest (q : PortSt) : Option (BitVec 12) := q.resend.head?.map Frame.seq

/-- Frames not known received after some are: the count of resends in a row is the oldest frame's (R348). -/
def PortSt.keep (q : PortSt) (l : List Frame) : PortSt :=
  let q' := { q with resend := l }
  if q'.oldest = q.oldest then q' else { q' with resends := 0 }

/-- Credits of a class come back: never more than the peer's buffer holds; they prove the oldest frames of the class received
(R345, R347). (assumption 58, DEDUCED) -/
def PortSt.returned (q : PortSt) (c : Fin 5) (units : Nat) : PortSt :=
  let x := settled c (q.known[c] + units) q.resend
  { q.keep x.2 with
    credits := q.credits.set c (Nat.min (q.credits[c] + units) fullCredits[c])
    known := q.known.set c x.1 }

/-- FRAME_RECEIVE: a frame whose CRC fails, with an uncorrectable codeword, or out of sequence is dropped, and a bad one answered
with a NAK of the sequence number expected; any other is taken in, with the credits of its trailer (R345, R347).
(assumption 58, DEDUCED) -/
def execFrameReceive (n : PortNo) (fr : Frame) (s : State) : Out :=
  if !s.portUp n then .next s
  else
    let q := s.port n
    let s := s.countH (16 * n.val + 5) fr.corrected
    if fr.badCodeword || fr.crc != crc32 (pktBytes fr.pkt) then .next (s.onPort n fun q => { q with nak := some q.rxSeq })
    else if fr.seq ≠ q.rxSeq then .next s
    else
      let s := s.onPort n fun q =>
        (List.finRange 5).foldl (fun (q : PortSt) c => q.returned c fr.credits[c]) { q with rxSeq := q.rxSeq + 1, nak := none }
      .next (((s.countH (16 * n.val + 1) 1).countH (16 * n.val + 3) fr.pkt.payload.length).arrive n fr.pkt)

/-- CREDIT_RETURN: credits that idle symbols return release a waiting class; never more than the peer's buffer holds (R345).
(assumption 58, DEDUCED) -/
def execCreditReturn (n : PortNo) (cls : Fin 5) (units : Nat) (s : State) : Out :=
  .next (s.onPort n fun q => q.returned cls units)

/-! ## Lost peers (R352-R354) -/

/-- A LOST notice for a module on every READY port of a partition but one, to the partition that its peer works in (R344, R352,
R354, R389). -/
def State.floodLost (s : State) (p : Part) (x : Nat) (but : Option PortNo) : State :=
  (List.finRange 16).foldl (fun s n =>
    if s.portOwner n = some p ∧ s.portUp n ∧ some n ≠ but then
      let peer := s.rf (K.FAB_PORT n) F.FAB_PORT_PEER_MOD
      s.enqueue n (s.packet p ⟨peer, s.jobPart p peer, clsMgmt, 0, (s.ctl p).step, 0, x, 0, false, 0⟩ [])
    else s) s

/-- What a Bench does about a lost module: its HAUL.STs with writes outstanding to it and its FABRIC gates fault (R353). -/
def State.benchLost (s : State) (p : Part) (x : Nat) (b : Bid) : State :=
  let hit := (s.bench b).run.filter fun r => r.q == 1 && haulRemote r.e == 2 && r.remote.any fun w => w.2 == x
  let s := hit.foldl (fun s r => s.failRunning b r .peerLost) s
  let gates := (s.fm b).gates.filter fun g => match g.kind with | .barrier q fabric _ _ => q == p && fabric | _ => false
  let s := match gates with
    | g :: _ => s.fault ⟨b, 0, 0, ⟨opcodeOf 8 4, g.pc, g.mark⟩⟩ .peerLost
    | [] => s
  s.wghLost b p x

/-- A module marked lost in a partition: the notice goes on, and everything of R353 follows; a mirror to it
fails (R352, R353, R397, R406). -/
def State.markLost (s : State) (p : Part) (x : Nat) (but : Option PortNo) : State :=
  if s.isLost p x then s
  else
    let was := s.stepParent p
    let s := s.setReg (K.FAB_LOST p (x / 64)) (s.reg (K.FAB_LOST p (x / 64)) ||| BitVec.ofNat 64 (2 ^ (x % 64)))
    let s := s.floodLost p x but
    let s := if x = s.buddy ∧ s.bulk.tx[p].isSome then s.mirEnd p false else s
    let s := (s.benchesOf p).foldl (fun (s : State) b => s.benchLost p x b) s
    let s := if (s.ctl p).live then s.onCtl p fun c => { c.cause causePeerLost with lostNow := true } else s
    s.stepRevote p was

/-- This module named lost: SELF_LOST, and the open step of the partition ends with HALT (R353). -/
def State.markSelf (s : State) (p : Part) : State :=
  let s := s.setRb (K.FAB_PART p) F.FAB_PART_SELF_LOST true
  let c := s.ctl p
  if c.live && c.outcome.isNone then s.decideStep p .halt else s

/-- LOST: a notice of the epoch in force marks its module, or this module itself; any other is discarded (R352, R353).
(assumption 58, DEDUCED) -/
def execLost (s : State) : Out :=
  match s.takePacket fun x => isOp clsMgmt 0 x with
  | none => .next s
  | some ((port, pkt), s) =>
    let p := match port with | some n => (s.portOwner n).getD (pktDstPart pkt) | none => pktDstPart pkt
    let x := pktBucket pkt % 8192
    if pktEpochValid pkt != s.epochOn p || (s.epochOn p && pktEpoch pkt != s.epoch p) then .next s
    else if x = s.modId then .next (s.markSelf p)
    else .next (s.markLost p x port)

/-- A port goes DOWN: what waits for it is discarded, a record is written, and its peer is declared lost (R348). -/
def State.portDrop (s : State) (n : PortNo) (cause : Nat) : State :=
  if s.portState n != portReady then s
  else
    let k := K.FAB_PORT n
    let s := s.setRf k F.FAB_PORT_STATE portDown
    let s := s.onPort n fun q => { PortSt.reset with lanes := q.lanes, outbox := q.outbox }
    let s := s.emit { hubRec ucPort n.val 0x08 (s.portOwner n) with syn := BitVec.ofNat 64 cause }
    match s.portOwner n with
    | some p => if s.rb k F.FAB_PORT_PEER_VALID then s.markLost p (s.rf k F.FAB_PORT_PEER_MOD) none else s
    | none => s

/-- PORT_DOWN: loss of signal, silence or repeated resends take a READY port DOWN; `cause` is one below R451's (R348).
(assumption 58, DEDUCED) -/
def execPortDown (n : PortNo) (cause : Fin 3) (s : State) : Out := .next (s.portDrop n (cause.val + 1))

/-- NAK_RECEIVE: the frames before the expected one were received, whose credits are still to come; the transmitter resends from the
expected frame, in order; a frame resent 8 times in a row takes the port DOWN (R347, R348). Where it kept none, its frames were
discarded with their partition's hold on the port, and the next frame takes the expected number (R341). (assumption 58, DEDUCED) -/
def execNakReceive (n : PortNo) (expected : BitVec 12) (s : State) : Out :=
  if !s.portUp n || (s.portOwner n).isNone then .next s
  else
    let q := s.port n
    match q.resend.dropWhile fun f => f.seq != expected with
    | [] => .next (if q.resend.isEmpty then s.onPort n fun q => { q with txSeq := expected } else s)
    | f :: rest =>
      let again := match q.resend with | g :: _ => g.seq == f.seq | [] => false
      let count := if again then q.resends + 1 else 1
      let s := s.onPort n fun q =>
        { q with
          resend := f :: rest, outbox := q.outbox ++ (f :: rest), resends := count
          known := (q.resend.takeWhile fun g => g.seq != expected).foldl (fun v g =>
            v.set (pktCls g.pkt) (v[pktCls g.pkt] - (frameCost g.pkt : Int))) q.known }
      let s := s.countH (16 * n.val + 4) (rest.length + 1)
      .next (if 8 ≤ count then s.portDrop n 3 else s)

/-! ## Tables (R342, R351, R360) -/

/-- A write of some entries of a route word, one by one: an entry that routes to a port of another owner stays as it was (R360). -/
def State.writeRoute (s : State) (p : Part) (i : Nat) (v : Word) (entries : List Nat) : State :=
  let k := K.FAB_ROUTE p i
  entries.foldl (fun s j =>
    let e := fld v (8 * j) 8
    if e.testBit 7 && s.portOwner ⟨e % 16, by omega⟩ != some p then s.setRb (K.FAB_PART p) F.FAB_PART_REFUSED true
    else s.setReg k (setFld (s.reg k) (8 * j) 8 (e % 16 + (if e.testBit 7 then 128 else 0)))) s

/-- FAB_ROUTE_WRITE (R360). -/
def execFabRouteWrite (p : Part) (i : BitVec 10) (v : Word) (s : State) : Out := .next (s.writeRoute p i.toNat v (List.range 8))

/-- A write of FAB_TREE: ignored while an epoch is in force (R351). -/
def State.writeTree (s : State) (p : Part) (v : Word) : State :=
  if s.epochOn p then s.setRb (K.FAB_PART p) F.FAB_PART_REFUSED true else s.writeReg (K.FAB_TREE p) false v

/-- FAB_TREE_WRITE (R351). -/
def execFabTreeWrite (p : Part) (v : Word) (s : State) : Out := .next (s.writeTree p v)

end Sys2Proof.Machine
end

