-- ==== Sys2Proof/Machine/Resets.lean ====
section
/-!
DEFINITION. Bench clock rates and the resets of every scope: what each does to the state it covers, how requests wait, merge
and replace each other, and changes of a partition's Benches (spec 15 R422, R435; 17 R468-R488).
-/

namespace Sys2Proof.Machine

/-! ## Bench clocks (R469, R488) -/

/-- The rate a Bench's clock is to have: the lowest of 1,700 MHz, its thermal cap and the module's power cap (18 R501, R502). -/
def State.benchRate (s : State) (b : Bid) : Nat :=
  Nat.min 1700 (Nat.min (s.rf (K.BENCH_PWR b) F.BENCH_PWR_THERMAL_CAP_MHZ) s.pwr.powerCap)

/-- BCK_RATE_COMMAND: the management controller commands the rate that the caps allow (R469).
(assumption 70, DEDUCED) -/
def execBckRateCommand (b : Bid) (s : State) : Out :=
  .next (s.setRf (K.CLK_BENCH b) F.CLK_BENCH_TARGET_MHZ (s.benchRate b))

/-- BCK_RATE_SWITCH: the second PLL output takes over (R469, R544). (assumption 70, DEDUCED) -/
def execBckRateSwitch (b : Bid) (s : State) : Out :=
  let k := K.CLK_BENCH b
  let t := s.rf k F.CLK_BENCH_TARGET_MHZ
  .next (if t = s.rf k F.CLK_BENCH_MHZ then s else (s.setRf k F.CLK_BENCH_MHZ t).countB b 137 1)

/-! ## Proofs and retirement at a reset (R458, R485) -/

/-- Proofs of the units a reset covers stop and stay pending (R485). -/
def State.stopProofs (s : State) (covers : UnitId → Bool) : State :=
  { s with health := { s.health with
      proofs := s.health.proofs.map fun r => if covers r.u then { r with running := false } else r } }

/-- Units pending retirement that a reset of Bench scope or wider covers are retired, and those restored by the MAKER return
(R458, 19 R532). -/
def State.resetPlan (s : State) (covers : UnitId → Bool) : State :=
  let s := (s.health.pending.filter covers).foldl (fun s u => s.retire u) s
  let back := s.health.restore.filter covers
  if back.isEmpty then s
  else
    let s : State := { s with health := { s.health with
      retired := s.health.retired.filter fun u => !back.contains u
      restore := s.health.restore.filter fun u => !covers u } }
    s.planChanged

/-- The units of a Bench, and what its base dies and port carry. -/
def onBenchUnit (b : Bid) (u : UnitId) : Bool := unitBench u == some b

/-! ## Engine scope (R480) -/

/-- Units of a class that an engine reset can name (R486). -/
def resetUnits (cls : Nat) : Nat :=
  if cls = ucCutter then 4 else if cls = ucDresser then 8 else if cls = ucWedge then 4 else if cls = ucScreen then 2
  else if cls = ucHauler then 8 else if cls = ucWeighbridge || cls = ucStockpile || cls = ucProof then 1 else 0

/-- The vote of a Bench whose work a reset interrupts: ABORT by its error controller, unless it is HALT already (R482). -/
def State.resetVote (s : State) (b : Bid) : State :=
  match s.partOf b with
  | none => s
  | some p => if (s.ctl p).live then (s.errVote b .abort).castVote p b .pass else s

/-- The instructions of a queue that name a unit, in the queue or on the unit.
(assumption 3, DEDUCED) -/
def State.namedIds (s : State) (b : Bid) (q : Fin 8) (i : Nat) : List Nat :=
  let x := s.bench b
  (x.q[q].filterMap fun it => match it with | .instr e => if e.names q = some i then some e.id else none | _ => none)
    ++ ((x.run.filter fun r => r.q == q && r.unit == i).map fun r => r.e.id)

/-- Instructions of a Bench discarded: nothing waits for them any longer, deposits they held back go on (R194, R480).
(assumption 3, DEDUCED) -/
def State.killIds (s : State) (b : Bid) (q : Fin 8) (ids : List Nat) : State :=
  let s := ids.foldl (fun s id => s.completed b id) s
  (s.onBench b fun x =>
    { x with
      q := x.q.set q (x.q[q].filter fun it => match it with | .instr e => !ids.contains e.id | _ => true)
      run := x.run.filter fun r => !(r.q == q && ids.contains r.e.id) }).flushDeposits b

/-- An array reset: its rows +0 and poisoned, its tile buffers empty, its instructions gone (R480). -/
def State.resetArray (s : State) (b : Bid) (u : Fin 12) : State :=
  let s := (s.arr b u).jobs.foldl (fun s j => s.completed b j.e.id) s
  s.setArr b u ArrayUnit.reset

/-- The open buckets and grant records of a Bench abandoned and freed (R375, R480). -/
def State.resetWgh (s : State) (b : Bid) (abandons : Bool) : State :=
  let s := match s.partOf b with
    | some p => if abandons then s.abandonAll b p true else s
    | none => s
  let s := (s.wgh b).buckets.foldl (fun (s : State) k => s.completed b k.e.id) s
  s.onWgh b fun w => { w with buckets := [], grants := [] }

/-- The catalogue FREE and STK_RECOMP zero (R480). -/
def State.resetStk (s : State) (b : Bid) : State :=
  (s.onBench b fun x => { x with cat := [] }).resetRegs (K.STK_RECOMP b 0) (K.STK_RECOMP b 16)

/-- The cores of the units a reset covers run again (R443, R477). -/
def State.wakeCores (s : State) (covers : UnitId → Bool) : State :=
  { s with health := { s.health with stopped := s.health.stopped.filter fun u => !covers u } }

/-- An engine-scope reset of one unit with its core (R480, R482, R485). -/
def State.engineReset (s : State) (b : Bid) (cls i : Nat) : State :=
  let s := (s.resetVote b).wakeCores fun u => u == ⟨b, cls, i⟩
  let s := s.stopProofs fun u => u.bench == b.val && (cls == ucProof || (u.cls == cls && u.index == i))
  let s := match ucQueueOf cls with
    | some q => let s := s.assign b q; s.killIds b q (s.namedIds b q i)
    | none => s
  if cls = ucCutter then s.resetArray b ⟨i % 4, by omega⟩
  else if cls = ucDresser then s.resetArray b ⟨4 + i % 8, by omega⟩
  else if cls = ucWeighbridge then s.resetWgh b true
  else if cls = ucStockpile then s.resetStk b
  else s

/-! ## Bench scope (R480) -/

/-- A Bench's units, queues, counters and registers at their reset values: instruction memory, WGH_RESID, the DRAINs awaited, the
cycle count, what the base dies hold, and the vote for an attempt still in progress are kept (R464, R470, R480, R482, 20 R542), and
the crossing is emptied (R474); so are the Plumbs' last readings of the Tallies it clears (R142). (assumption 35, DEDUCED;
assumption 76, DESIGN CHOICE) -/
def State.wipeBench (s : State) (b : Bid) : State :=
  let resid := s.reg (K.WGH_RESID b)
  let live := match s.partOf b with | some p => (s.ctl p).live | none => false
  let s := s.onBench b fun x =>
    { Bench.reset with
      lru := x.lru, grantNo := x.grantNo, patrol := x.patrol, cycles := x.cycles, wrap := x.wrap
      errVote := if live then x.errVote else .pass
      wgh := { Weighbridge.reset with awaitDrain := x.wgh.awaitDrain, drained := x.wgh.drained } }
  let s := s.resetRegs (K.FM_CTL b) (K.IMEM b 0)
  let s := s.resetRegs (K.IMEM b 32768) (K.FM_CTL (b.val + 1))
  s.setReg (K.WGH_RESID b) resid

/-- Whether a Bench shows as COMMITTED the step of the controller's last outcome (R295, R483). -/
def State.showsCommit (s : State) (b : Bid) : Bool :=
  match s.partOf b with
  | some p =>
    (match (s.ctl p).last with
     | some (.commit, k, _) =>
       s.rf (K.STEP_STATE b) F.STEP_STATE_PHASE == 3 && s.rf (K.STEP_STATE b) F.STEP_STATE_STEP == k
     | _ => false)
  | none => false

/-- After a Bench reset the Bench still shows step k COMMITTED where the controller's last outcome is COMMIT of k: its sweep must be
issued again before the next STEP.BEGIN (R295, R483). While another attempt is in progress, a Bench shows it that did before: it has
not begun that attempt. (assumption 39, DEDUCED) -/
def State.showCommit (s : State) (b : Bid) (shown : Bool) : State :=
  match s.partOf b with
  | none => s
  | some p =>
    match (s.ctl p).last with
    | some (.commit, k, _) =>
      if (s.ctl p).live && !shown then s
      else (s.setRf (K.STEP_STATE b) F.STEP_STATE_STEP k).setRf (K.STEP_STATE b) F.STEP_STATE_PHASE 3
    | _ => s

/-- A Bench-scope reset (R480-R483, R485). (assumption 39, DEDUCED) -/
def State.benchReset (s : State) (b : Bid) : State :=
  let s := (s.resetVote b).wakeCores fun u => u.bench == b.val
  let s := s.stopProofs fun u => u.bench == b.val
  let shown := s.showsCommit b
  let s := ((s.resetWgh b true).wipeBench b).showCommit b shown
  (s.barsRest b).resetPlan (onBenchUnit b)

/-! ## Partition scope (R480-R484) -/

/-- A partition's step ends without an outcome; no epoch, no mapping, no history remains (R480, R482). -/
def State.resetStep (s : State) (p : Part) : State :=
  let s := s.onCtl p fun _ => StepCtl.reset
  let s := s.resetRegs (K.MAP_ADDR p) (K.MIR_CTL p)
  let s := s.resetRegs (K.FAB_PART p) (K.FAB_PART (p.val + 1))
  let s := s.resetRegs (K.FAB_LOST p 0) (K.FAB_LOST p 128)
  s.resetRegs (K.FAB_ROUTE p 0) (K.FAB_ROUTE p 1024)

/-- A partition's barriers and program load back at reset (R480, R481). -/
def State.resetBar (s : State) (p : Part) : State :=
  let s := s.onBar p fun _ => Barrier.reset
  let s : State := { s with loads := s.loads.set p [] }
  s.resetRegs (K.BAR_MASK p) (K.BAR_MASK (p.val + 1))

/-- The mirror of a partition ends, and its protection sets and export session with it (R263, R480, R484). -/
def State.resetSets (s : State) (p : Part) : State :=
  let s := (s.setTx p none).setRb (K.MIR_CTL p) F.MIR_CTL_BUSY false
  let s := (List.finRange 4).foldl (fun (s : State) n => s.freeSet p n) s
  let s := s.onBulk fun b => { b with closing := b.closing.set p [] }
  s.setReg (K.EXPORT_CTL p) 0

/-- One queue's registers at their reset values; its owner, which the INSTALLER wrote, is kept (R480). -/
def State.resetQueue (s : State) (q : Nat) : State :=
  let k := K.HQ_CTL q
  let owner := s.rf k F.HQ_CTL_OWNER
  let owned := s.rf k F.HQ_CTL_OWNED
  let s := s.resetRegs (K.HQ_SQ q) (K.HQ_SQ (q + 1))
  ((s.setRf k F.HQ_CTL_OWNER owner).setRf k F.HQ_CTL_OWNED owned).setHq q QState.idle

/-- A partition's queues aborted, then they and its BAR2 segments back at reset (R435, R480). -/
def State.resetHost (s : State) (p : Part) : State :=
  let s := s.abortQueues p
  let s := ((List.range 256).filter (s.queueOf p)).foldl (fun (s : State) q => s.resetQueue q) s
  (s.resetRegs (K.HQ_STAT p) (K.HQ_LIM p + 1)).resetRegs (K.BAR2_SEG p 0) (K.BAR2_SEG p 64)

/-- A partition's error ring disabled and its held records discarded (R480). -/
def State.resetRing (s : State) (p : Part) : State :=
  let s := s.setRb (K.ERR_HEAD p) F.ERR_HEAD_ENABLE false
  { s with errs := { s.errs with held := s.errs.held.set p [] } }

/-- A partition's Plumbs and their registers at their defaults (R150, R480). -/
def State.resetPlumb (s : State) (p : Part) : State :=
  (s.onPlumb p fun _ => Plumb.reset).resetRegs (K.PLM_CTL p) (K.PLM_CTL (p.val + 1))

/-- The state of a partition in the Hub back at reset (R467, R480, 18 R495, 19 R529, 20 R542). -/
def State.resetPart (s : State) (p : Part) : State :=
  let s := (((((s.resetStep p).resetBar p).resetSets p).resetHost p).resetRing p).resetPlumb p
  let s := s.discard fun x => pktDstPart x.2 == p
  let s := s.resetRegs (K.PART_CTR p 0) (K.PART_CTR p 512)
  let s := s.setRf (K.PROOF_STAT p) F.PROOF_STAT_DONE 0
  let k := K.REM_CTL
  (s.setRf k ⟨F.REM_CTL_RELEASE.lo + p.val, 1⟩ 0).dropRoles p

/-- A partition-scope reset (R480). The step has no vote to give: it ends without an outcome (R482).
(assumption 39, DEDUCED) -/
def State.partReset (s : State) (p : Part) : State :=
  let bs := s.benchesOf p
  let s := bs.foldl (fun (s : State) b => s.resetWgh b true) s
  let s := s.onCtl p fun _ => StepCtl.reset
  let s := bs.foldl (fun (s : State) b => (s.benchReset b).resetRegs (K.WGH_RESID b) (K.WGH_RESID b + 1)) s
  s.resetPart p

/-! ## Module scope (R480) -/

/-- Hub registers that a module reset leaves: RST_STAT and CLK_BENCH (R480, R487), what is measured of power and stacks, the
protection sets' ranges, the mirror and error rings' registers, BOOT_STAT with the host time words and the floor plan (19 R521,
R534), and the counters of the powered life (20 R542). (assumption 39, DEDUCED) -/
def keptAtModule (k : Nat) : Bool :=
  let o := k - hubKey
  (0xB00000 ≤ o && o < 0xD10000) || (0x200900 ≤ o && o < 0x202000) || (0xA00000 ≤ o && o < 0xA00100)
    || (0x800000 ≤ o && o < 0x800400 && 0x40 ≤ o % 0x100 && o % 0x100 < 0x50) || o == 0xE00000 + 8 * 416
    || (0xE00000 + 8 * 420 ≤ o && o ≤ 0xE00000 + 8 * 426)

/-- A staged image cut short leaves its slot invalid (19 R533). -/
def State.dropStaging (s : State) : State :=
  let f := s.mgmt.flash
  let n : Fin 2 := if f.active then 0 else 1
  let slots := if s.mgmt.stageOpen then f.slots.set n none else f.slots
  { s with mgmt := { s.mgmt with flash := { f with slots := slots }, staged := [], stageOpen := false } }

/-- The management side of a module reset: every channel's role ends, requests and training progress are forgotten, and the ROM
runs again (19 R511, R529). -/
def State.resetMgmt (s : State) : State :=
  let s := s.dropStaging
  let s : State := { s with
    mgmt := { s.mgmt with
      running := none, secret := none, chans := s.mgmt.chans.map fun c => { c with role := none, nonce := none }
      service := [], working := [], zeroReq := [], spdm := [], mctp := [], startupDone := 0
      portsDone := 0, allSaved := true, hubTrace := [], hubPhase := true, hubLost := 0, hubLatch := [] }
    health := { s.health with bootFailed := [] } }
  s.setRf K.BOOT_STAT F.BOOT_STAT_STAGE 0

/-- A module reset ends STANDBY (R497). -/
def State.leaveStandby (s : State) : State :=
  if s.rf K.PWR_STAT F.PWR_STAT_STATE = 2 then s.setRf K.PWR_STAT F.PWR_STAT_STATE 0 else s

/-- A module-scope reset: every partition and Bench, instruction memory, the Hub's registers, ports and host links; a row still
being zeroed is zeroed before the site record's owner can have it (R253); the boot ROM runs next (R480, R511). (assumption 39,
DEDUCED) -/
def State.moduleReset (s : State) : State :=
  let s0 := s
  let s := s.bulk.zeroing.foldl (fun (s : State) e => s.zeroRow e.1) s
  let s := allParts.foldl (fun (s : State) p => (s.onCtl p fun _ => StepCtl.reset).setRb (K.MIR_CTL p) F.MIR_CTL_BUSY false) s
  let s := allBids.foldl (fun (s : State) b =>
    (((s.resetWgh b false).benchReset b).resetRegs (K.WGH_RESID b) (K.WGH_RESID b + 1)).resetRegs (K.IMEM b 0)
      (K.IMEM b 32768)) s
  let s := allParts.foldl (fun (s : State) p => s.resetPart p) s
  let s := (s.stopProofs fun _ => true).wakeCores fun _ => true
  let s := s.resetPlan fun u => (unitBench u).isNone
  let s : State := { s with
    regs := s.regs.filter fun e => e.1 < hubKey || keptAtModule e.1
    fab := { s.fab with ports := s.fab.ports.map fun q => { PortSt.reset with outbox := q.outbox } }
    errs := { s.errs with wins := [], phase := ErrAgg.reset.phase }
    host := { s.host with queues := [], aborting := 0, ports := s.host.ports.map HostPort.fresh }
    bulk := { s.bulk with copying := [], zeroing := [], rx := none } }
  let s := (s.setRf K.PWR_LIMIT F.PWR_LIMIT_LIMIT_W 3400)
  (s0.reseat ((s.setRf K.REM_CTL F.REM_CTL_GRACE_S 10).resetMgmt)).leaveStandby

/-! ## Requests (R477-R479, R487) -/

/-- A reset performed: RST_STAT shows it (R487). (assumption 39, DEDUCED) -/
def State.noteReset (s : State) (scope cause : Nat) : State :=
  let k := K.RST_STAT
  let n := s.rf k F.RST_STAT_COUNT
  ((s.setRf k F.RST_STAT_LAST_SCOPE scope).setRf k F.RST_STAT_LAST_CAUSE cause).setRf k F.RST_STAT_COUNT
    (Nat.min (n + 1) 0xFFFFFFFF)

def scopeCode : Scope → Nat
  | .engine => 1
  | .bench => 2
  | .partition => 3
  | .module => 4

/-- Whether a reset covers the units of another with equal or wider scope (R477, R479). -/
def State.resetCovers (s : State) (a r : ResetReq) : Bool :=
  let inPart (b : Nat) : Bool := match s.partOf (bidOf b) with | some p => p.val == a.part | none => false
  match a.scope, r.scope with
  | .module, _ => true
  | .partition, .partition => a.part == r.part
  | .partition, .module => false
  | .partition, _ => inPart r.bench
  | .bench, .bench => a.bench == r.bench
  | .bench, .engine => a.bench == r.bench
  | .bench, _ => false
  | .engine, .engine => a.u == r.u
  | .engine, _ => false

/-- A compute die's clock stops while it is held in reset (R469, R488). -/
def State.holdClock (s : State) (r : ResetReq) (on : Bool) : State :=
  allBids.foldl (fun (s : State) b =>
    if r.scope != .engine && s.resetCovers r ⟨.bench, b, 0, ⟨b, 0, 0⟩, 0, false⟩ then
      s.setRb (K.CLK_BENCH b) F.CLK_BENCH_STOPPED (on || s.rb (K.BENCH_PWR b) F.BENCH_PWR_GATED)
    else s) s

/-- A request's reset performed (R480). (assumption 39, DEDUCED) -/
def State.performReset (s : State) (r : ResetReq) : State :=
  let s := s.holdClock r true
  let s := match r.scope with
    | .engine => s.engineReset (bidOf r.bench) r.u.cls r.u.index
    | .bench => s.benchReset (bidOf r.bench)
    | .partition => s.partReset ⟨r.part % 4, by omega⟩
    | .module => s.moduleReset
  s.noteReset (scopeCode r.scope) r.cause

/-- A Foreman that an engine reset, or a Bench reset from error recovery, does not wait for (R479). -/
def State.fmQuiet (s : State) (b : Bid) : Bool :=
  let st := (s.fm b).st
  st == .stopped || st == .halted || st == .faulted

/-- Whether a request waits for its Foreman (R479): an engine reset does, and a Bench reset from error recovery. -/
def State.mustWait (s : State) (r : ResetReq) : Bool :=
  (r.scope == .engine || (r.scope == .bench && r.cause == 4)) && !s.fmQuiet (bidOf r.bench)

/-- A reset requested: merged into one that covers it, replacing those it covers, and waiting, with its Bench voting HALT, or
performed (R479). -/
def State.requestReset (s : State) (r : ResetReq) : State :=
  if s.mgmt.resetsBusy.any fun a => s.resetCovers a r then s
  else
    let rest := s.mgmt.resetsBusy.filter fun a => !s.resetCovers r a
    let wait := s.mustWait r
    let s := s.setRb K.RST_STAT F.RST_STAT_BUSY true
    let s : State := { s with mgmt := { s.mgmt with resetsBusy := rest ++ [{ r with waiting := wait }] } }
    if wait then s.errVote (bidOf r.bench) .halt else s.performReset r

/-- RST_STAT causes (R487). -/
def cPerst : Nat := 1
def cFlr : Nat := 2
def cCmd : Nat := 3
def cRecovery : Nat := 4
def cPart : Nat := 5

def engineReq (b : Bid) (cls i cause : Nat) : ResetReq := ⟨.engine, b, 0, ⟨b, cls, i⟩, cause, false⟩
def benchReq (b : Bid) (cause : Nat) : ResetReq := ⟨.bench, b, 0, ⟨b, 0, 0⟩, cause, false⟩
def partReq (p : Part) (cause : Nat) : ResetReq := ⟨.partition, 0, p, ⟨0, 0, 0⟩, cause, false⟩
def moduleReq (cause : Nat) : ResetReq := ⟨.module, 0, 0, ⟨0, 0, 0⟩, cause, false⟩

/-- RST_STAT.REFUSED set (R486). (assumption 38, DEDUCED) -/
def State.rstRefused (s : State) : State := s.setRb K.RST_STAT F.RST_STAT_REFUSED true

/-- The cause of a Bench or engine reset by who asks for it (R477, R487). -/
def resetCause : ResetBy → Nat
  | .command => cCmd
  | .recovery => cRecovery

/-- RST_ENGINE: an engine-scope reset, by RST_CMD or for error recovery; one that names no such unit is ignored (R477, R480,
R486). -/
def execRstEngine (b : Bid) (cls : BitVec 6) (index : BitVec 4) (by_ : ResetBy) (s : State) : Out :=
  .next (if index.toNat < resetUnits cls.toNat then s.requestReset (engineReq b cls.toNat index.toNat (resetCause by_))
    else s.rstRefused)

/-- RST_BENCH: a Bench-scope reset, by RST_CMD or for error recovery, which waits for the Foreman (R477, R479, R480). -/
def execRstBench (b : Bid) (by_ : ResetBy) (s : State) : Out := .next (s.requestReset (benchReq b (resetCause by_)))

/-- RST_PARTITION: a partition-scope RST_CMD (R480). -/
def execRstPartition (p : Part) (s : State) : Out := .next (s.requestReset (partReq p cCmd))

/-- RST_MODULE: a module-scope RST_CMD from the INSTALLER (R480). -/
def execRstModule (s : State) : Out := .next (s.requestReset (moduleReq cCmd))

/-- PERST: under one port, and as the way out of STANDBY, a module reset; else its port's PCIe controller and its partition are
reset, and the module where every present port's PERST# is asserted (R478, 18 R497). -/
def execPerst (port : Fin 4) (asserted : BitVec 4) (s : State) : Out :=
  if !s.pwr.mainOn then .next s
  else
    let n := hostPorts (s.rf K.HIF_CFG F.HIF_CFG_BIFUR_ACT)
    let all := (List.range n).all fun i => i == port.val || asserted.getLsbD i
    let s' := (s.setReg (K.HIF_LINK port) 0).onHport port HostPort.fresh
    if n = 1 || all || s.rf K.PWR_STAT F.PWR_STAT_STATE = 2 then
      .next ((s'.setRf K.PWR_STAT F.PWR_STAT_STATE 0).requestReset (moduleReq cPerst))
    else .next (s'.requestReset (partReq port cPerst))

/-- FUNCTION_LEVEL_RESET: FLR or Hot Reset of a function aborts its queues and resets its partition (R435, R477). -/
def execFunctionLevelReset (p : Part) (s : State) : Out := .next (s.requestReset (partReq p cFlr))

/-- Whether a request can complete: one that waits once its Foreman rests, a module reset once bring-up has ended. -/
def State.canComplete (s : State) (r : ResetReq) : Bool :=
  if r.waiting then !s.mustWait r else r.scope != .module || stageReady ≤ s.stage

/-- RESET_COMPLETE: the oldest reset that can complete does; one that waited is performed; writes held meanwhile are performed
(R476, R477, R479, R487). (assumption 39, DEDUCED) -/
def execResetComplete (s : State) : Out :=
  match s.mgmt.resetsBusy.find? s.canComplete with
  | none => .next s
  | some r =>
    let s := if r.waiting then s.performReset r else s
    let rest := s.mgmt.resetsBusy.filter (· != r)
    let s := s.holdClock r false
    let s := s.onMgmt fun m => { m with resetsBusy := rest }
    .next (allBids.foldl (fun (s : State) b => s.crossed b) (s.setRb K.RST_STAT F.RST_STAT_BUSY !rest.isEmpty))

end Sys2Proof.Machine
end

