-- ==== Sys2Proof/Machine/Power.lean ====
section
/-!
DEFINITION. Power and presence: the input limits, emergency power-off, insertion, orderly and surprise removal, IDLE and gated
Benches, thermal and power caps (spec 18 R489-R505).
-/

namespace Sys2Proof.Machine

/-! ## Power arriving and leaving (R477, R480, R494, R498) -/

/-- The module without power: what flash keeps, what the hosts and the fibres were given, and nothing else (R456, R480, R506). -/
def State.unpowered (s : State) : State :=
  { State.reset with
    pending := s.pending
    fab := { Fabric.reset with ports := s.fab.ports.map fun q => { PortSt.reset with outbox := q.outbox } }
    host := { HostIf.reset with ports := s.host.ports.map HostPort.fresh }
    health := { Health.reset with
      hist := s.health.hist, env := s.health.env, pending := s.health.pending, retired := s.health.retired
      restore := s.health.restore }
    pwr := { s.pwr with
      mainOn := false, attnWindow := false, attnLed := 0, powerCap := 1700, capBy := [], outletHot := 0, temps := [] }
    mgmt := { Mgmt.reset with flash := s.mgmt.flash, identityOk := s.mgmt.identityOk, buildWritten := s.mgmt.buildWritten }
    turn := s.turn
    freeCtr := s.freeCtr }

/-- Power-on reset: units pending retirement are retired, with their records, and restored units return (R458, R480, 19 R532).
(assumption 62, DEDUCED) -/
def State.powerOn (s : State) : State :=
  let s := s.unpowered
  let s := s.health.pending.foldl (fun (s : State) u => s.retire u) s
  let h := s.health
  { s with
    pwr := { s.pwr with mainOn := true, safeLed := false }
    health := { h with restore := [], retired := h.retired.filter fun u => !h.restore.contains u } }

/-- A LOST notice for this module put on the fibre of a port at once (R354, R498, R499). -/
def State.cryLost (s : State) (p : Part) (n : PortNo) : State :=
  let peer := s.rf (K.FAB_PORT n) F.FAB_PORT_PEER_MOD
  let pkt := s.packet p ⟨peer, s.jobPart p peer, clsMgmt, 0, (s.ctl p).step, 0, s.modId, 0, false, 0⟩ []
  s.onPort n fun q => { q with
    txSeq := q.txSeq + 1
    outbox := q.outbox ++ [⟨pkt, q.txSeq, crc32 (pktBytes pkt), false, 0, Vector.replicate 5 0⟩] }

/-- LOST notices on every READY port of every partition. -/
def State.cryAll (s : State) : State :=
  (List.finRange 16).foldl (fun s n =>
    match s.portOwner n with
    | some p => if s.portUp n then s.cryLost p n else s
    | none => s) s

/-- Emergency power-off: LOST notices, a record in the environment log of the 64 most recent, then the main switch opens
(R456, R498). (assumption 62, DEDUCED) -/
def State.emergency (s : State) (ucls index event : Nat) (reading : Nat) : State :=
  if !s.pwr.mainOn then s
  else
    let s := s.cryAll
    let (v, s) := s.drawWord
    let r := s.recordWords { hubRec ucls index event none with syn := BitVec.ofNat 64 reading } v
    ({ s with health := { s.health with env := (s.health.env ++ [r]).drop (s.health.env.length + 1 - 64) } } : State).unpowered

/-- INPUT_VOLTAGE_FAULT: below 40 V for 1 ms, below 36 V, or above 58 V, in mV (R489). -/
def execInputVoltageFault (mv : Nat) (s : State) : Out :=
  .next (if mv < 40000 || 58000 < mv then s.emergency ucPower 0 0x19 mv else s)

/-- OVERCURRENT_TRIP: above 88 A for 1 ms, or above 100 A, in mA (R490). -/
def execOvercurrentTrip (ma : Nat) (s : State) : Out :=
  .next (if 88000 < ma then s.emergency ucPower 0 0x19 ma else s)

/-! ## Presence (R491, R494, R499) -/

/-- PRSNT_ASSERT: an unpowered module's debounce of 100 ms starts (R494).
(assumption 62, DEDUCED) -/
def execPrsntAssert (s : State) : Out :=
  .next (if s.pwr.mainOn then s else { s with pwr := { s.pwr with prsnt := true, debouncing := true } })

/-- Whether the bus stands within 5% of VIN, both in mV (R491). -/
def busReady (bus vin : Nat) : Bool := 95 * vin ≤ 100 * bus && 100 * bus ≤ 105 * vin

/-- PRSNT_DEBOUNCE_DONE: after 100 ms without a break, with the bus charged, the main switch closes and bring-up begins; while the
bus is not, the switch waits (R491, R494). The voltages are those measured at that moment, in mV. (assumption 62, DEDUCED) -/
def execPrsntDebounceDone (bus vin : Nat) (s : State) : Out :=
  if !s.pwr.debouncing || !busReady bus vin then .next s
  else .next ({ s with pwr := { s.pwr with debouncing := false } } : State).powerOn

/-- PRSNT_BREAK: during the debounce it ends the count; on a running module, LOST notices go out and all work stops at once
(R494, R499). -/
def execPrsntBreak (s : State) : Out :=
  let gone (s : State) : State := { s with pwr := { s.pwr with prsnt := false, debouncing := false } }
  .next (gone (if s.pwr.mainOn then s.cryAll.unpowered else s))

/-! ## Orderly removal (R495, R496) -/

def State.removalPhase (s : State) : Nat := s.rf K.REM_CTL F.REM_CTL_PHASE
def State.setPhase (s : State) (n : Nat) : State := s.setRf K.REM_CTL F.REM_CTL_PHASE n

/-- A removal stands: NOTICE, then GRACE; every partition's event vector is raised and ATTN_LED is lit (R496). -/
def State.removalStands (s : State) : State :=
  if s.rb K.REM_CTL F.REM_CTL_PENDING || !s.pwr.mainOn then s
  else
    let s := (s.setRb K.REM_CTL F.REM_CTL_PENDING true).setPhase 2
    let s : State := { s with pwr := { s.pwr with attnWindow := false, attnLed := 1 } }
    allParts.foldl (fun (s : State) p => if s.partValid p then s.raise p (eventVec p) else s) s

/-- ATTN_BTN: the first press starts the 5 s window, with ATTN_LED blinking; a second within it cancels (R495). -/
def execAttnBtn (s : State) : Out :=
  if !s.pwr.mainOn || s.rb K.REM_CTL F.REM_CTL_PENDING then .next s
  else
    let on := !s.pwr.attnWindow
    .next { s with pwr := { s.pwr with attnWindow := on, attnLed := if on then 2 else 0 } }

/-- ATTN_WINDOW_EXPIRY: the window ends and the request stands (R495). -/
def execAttnWindowExpiry (s : State) : Out := .next (if s.pwr.attnWindow then s.removalStands else s)

/-- Removal stands once every valid partition has set its RELEASE bit, the last one by setting it or by ceasing to be valid (R495).
(assumption 62, DEDUCED) -/
def State.judgeRelease (s : State) : State :=
  let valid := allParts.filter s.partValid
  if !valid.isEmpty && valid.all fun q => (s.rf K.REM_CTL F.REM_CTL_RELEASE).testBit q.val then s.removalStands else s

/-- A partition's RELEASE bit set (R495). -/
def State.release (s : State) (p : Part) : State := (s.setRf K.REM_CTL ⟨F.REM_CTL_RELEASE.lo + p.val, 1⟩ 1).judgeRelease

/-- REM_RELEASE_WRITE (R495). -/
def execRemReleaseWrite (p : Part) (s : State) : Out := .next (s.release p)

/-! ## Changes of a partition's Benches (R422) -/

/-- The Benches a PART_CFG word gives a partition: none unless it is VALID. -/
def cfgBenches (w : Word) : Nat := if bit w 16 then fld w 0 16 else 0

/-- Why a write of PART_CFG is ignored, if it is (R422). -/
def State.cfgBad (s : State) (p : Part) (v : Word) : Bool :=
  let old := cfgBenches (s.reg (K.PART_CFG p))
  let new := cfgBenches v
  let named := fld v 0 16
  let moved := allBids.filter fun b => old.testBit b.val != new.testBit b.val
  (allParts.any fun q => q != p && (Nat.land (cfgBenches (s.reg (K.PART_CFG q))) named) != 0)
    || (bit v 16 && named == 0)
    || (!moved.isEmpty && (s.epochOn p || moved.any fun b => (s.fm b).st != .stopped))

/-- A write of PART_CFG by the INSTALLER: an accepted change resets the Benches added or removed, aborts the partition's queues,
and drops what waits on a port that changes its owner or was sent and not known received (R341, R422, R435, R437, R495).
(assumption 58, DEDUCED) -/
def State.writePartCfg (s : State) (p : Part) (v : Word) : State :=
  let k := K.PART_CFG p
  let s := if bit v 17 then s.setRb k F.PART_CFG_REFUSED false else s
  let old := s.reg k
  if fld v 0 17 = fld old 0 17 then s
  else if s.cfgBad p v then s.setRb k F.PART_CFG_REFUSED true
  else
    let moved := allBids.filter fun b => (cfgBenches old).testBit b.val != (cfgBenches v).testBit b.val
    let s := moved.foldl (fun (s : State) b => s.requestReset (benchReq b cPart)) s
    let s := moved.foldl (fun (s : State) b => s.onPort ⟨b.val, b.isLt⟩ fun q =>
      { q with sendq := Vector.replicate 5 [], resend := [], resends := 0 }) s
    let s := (s.setRf k F.PART_CFG_BENCHES (fld v 0 16)).setRf k F.PART_CFG_VALID (fld v 16 1)
    ((s.hqStat p F.HQ_STAT_CONFIG_CHANGED).startAbort p).judgeRelease

/-- PART_CFG_WRITE (R422). -/
def execPartCfgWrite (p : Part) (v : Word) (s : State) : Out := .next (s.writePartCfg p v)

/-- QUIESCE: Foremen stop, queues abort, this module's LOST notice goes out, mirrors fail and their sets are released, and an open
step ends without an outcome (R482, R496). -/
def State.quiesce (s : State) : State :=
  let s := allBids.foldl (fun (s : State) b => s.fmStop b) (s.setPhase 3)
  allParts.foldl (fun (s : State) p =>
    let s := if s.partValid p then s.abortQueues p else s
    let s := s.floodLost p s.modId none
    let s := if s.bulk.tx[p].isSome then s.mirEnd p false else s
    let s := (List.finRange 4).foldl (fun (s : State) n => s.freeSet p n) s
    if (s.ctl p).live then s.emptyHistory p else s) s

/-- REMOVAL_GRACE_END: GRACE ends, at GRACE_S or once every Foreman rests (R496). -/
def execRemovalGraceEnd (s : State) : Out := .next (if s.removalPhase = 2 then s.quiesce else s)

/-- REMOVAL_QUIESCE_DONE: FLUSH begins: pending history entries and the audit checkpoint are written, and the optical engines go
dark (R496, 19 R537). (assumption 62, DEDUCED) -/
def execRemovalQuiesceDone (s : State) : Out :=
  if s.removalPhase ≠ 3 then .next s
  else
    let fs := s.health.faults
    let s : State := { s with health := { s.health with faults := [] } }
    let s := fs.foldl (fun (s : State) r => s.enterFault r) s
    .next ((List.finRange 16).foldl (fun (s : State) n => s.portDrop n 1) (s.checkpoint.setPhase 4))

/-- REMOVAL_FLUSH_DONE: OFF: the main switch opens and SAFE_LED is lit (R496). -/
def execRemovalFlushDone (s : State) : Out :=
  if s.removalPhase ≠ 4 then .next s
  else
    let s := s.unpowered
    .next (({ s with pwr := { s.pwr with safeLed := true } } : State).setPhase 5)

/-! ## Power states (R497) -/

/-- Whether anything holds the module ACTIVE (R497). -/
def State.activeNow (s : State) : Bool :=
  (allBids.any fun b => let st := (s.fm b).st; st == .running || st == .draining)
    || s.host.queues.any fun e => e.2.cmds.any fun c => c.status.isNone

/-- IDLE_ENTRY_TIMER: 10 ms after the last ACTIVE condition ended (R497). -/
def execIdleEntryTimer (s : State) : Out :=
  let k := K.PWR_STAT
  .next (if !s.ready || s.activeNow || s.rf k F.PWR_STAT_STATE ≠ 0 then s else s.setRf k F.PWR_STAT_STATE 1)

/-- A Bench's clock stopped or not with its gate (R469, R488). -/
def State.gated (s : State) (b : Bid) (on : Bool) : State :=
  ((s.setRb (K.BENCH_PWR b) F.BENCH_PWR_GATED on).setRb (K.CLK_BENCH b) F.CLK_BENCH_STOPPED on).planChanged

/-- A write of BENCH_PWR: GATE set gates a Bench whose Foreman is STOPPED and whose queues are empty, else REFUSED; GATE cleared
starts the wake (R497, R504). (assumption 70, DEDUCED) -/
def State.writeGate (s : State) (b : Bid) (v : Word) : State :=
  let k := K.BENCH_PWR b
  let w1c (f : Fld) (s : State) : State := if bit v f.lo then s.setRb k f false else s
  let s := w1c F.BENCH_PWR_CRIT (w1c F.BENCH_PWR_HOT (w1c F.BENCH_PWR_REFUSED s))
  let on := bit v 0
  if on = s.rb k F.BENCH_PWR_GATE then s
  else if !on then ((s.setRb k F.BENCH_PWR_GATE false).setRb k F.BENCH_PWR_WAKING (s.rb k F.BENCH_PWR_GATED))
  else if s.rb k F.BENCH_PWR_WAKING || (s.fm b).st != .stopped || !(s.bench b).idle then s.setRb k F.BENCH_PWR_REFUSED true
  else (s.setRb k F.BENCH_PWR_GATE true).gated b true

/-- GATE (R497). -/
def execGate (b : Bid) (v : Word) (s : State) : Out := .next (s.writeGate b v)

/-- BENCH_WAKE_DONE: the wake applies the Bench column of R480, the Bench is in service again, and writes held meanwhile are
performed (R476, R497). (assumption 70, DEDUCED; assumption 80, DESIGN CHOICE) -/
def execBenchWakeDone (b : Bid) (s : State) : Out :=
  let k := K.BENCH_PWR b
  if !s.rb k F.BENCH_PWR_WAKING then .next s
  else
    let t := (s.benchReset b).onBench b fun x => { x with xing := (s.bench b).xing }
    .next (((t.setRb k F.BENCH_PWR_WAKING false).gated b false).crossed b)

/-- STANDBY entered: a checkpoint is written, the optics and compute dies go dark, the PCIe links go down (R497, 19 R537). -/
def State.enterStandby (s : State) : State :=
  let s := s.checkpoint
  let s := (List.finRange 16).foldl (fun (s : State) n => s.portDrop n 1) s
  let s := allParts.foldl (fun (s : State) p => s.hostLinkDrop p) s
  s.setRf K.PWR_STAT F.PWR_STAT_STATE 2

/-! ## Thermal and power caps (R501, R502) -/

/-- A Bench's thermal cap lowered to a rate, each step counted (R501, 20 R545).
(assumption 62, DEDUCED) -/
def State.capTo (s : State) (b : Bid) (mhz : Nat) : State :=
  let k := K.BENCH_PWR b
  let c := s.rf k F.BENCH_PWR_THERMAL_CAP_MHZ
  if c ≤ mhz then s else (s.setRf k F.BENCH_PWR_THERMAL_CAP_MHZ mhz).countH (400 + b.val) ((c - mhz) / 25)

/-- One Bench's die at a temperature in 1/8 degree (R501); `tick` is true once per 1 ms. -/
def State.benchTemp (s : State) (b : Bid) (t : Int) (tick : Bool) : State :=
  let k := K.BENCH_PWR b
  let s := s.setRf k F.BENCH_PWR_TEMP (temp16 t)
  let c := s.rf k F.BENCH_PWR_THERMAL_CAP_MHZ
  let s := if 840 ≤ t then
      ((s.setRb k F.BENCH_PWR_HOT true).capTo b (Nat.max 200 (c - 25))).emit
        { benchRec 2 b ucThermal b.val 0x18 (s.partOf b) with syn := BitVec.ofNat 64 (temp16 t) }
    else s
  if 920 ≤ t then (s.setRb k F.BENCH_PWR_CRIT true).capTo b 200
  else if t < 800 && tick && s.pwr.capBy.isEmpty then s.setRf k F.BENCH_PWR_THERMAL_CAP_MHZ (Nat.min 1700 (c + 25))
  else s

/-- THERMAL_SAMPLE: every 100 µs the 27 sensors are read and the thermal rules applied (R501).
(assumption 62, DEDUCED) -/
def execThermalSample (ts : Temps) (s : State) : Out :=
  if !s.pwr.mainOn then .next s
  else
    let at_ (i : Nat) : Int := ts.getD i 0
    let tick := (s.pwr.thermSamples + 1) % 10 == 0
    let hold := ((List.range 9).map (16 + ·)).filter fun i => 880 ≤ at_ i || (s.pwr.capBy.contains i && 800 ≤ at_ i)
    let hot := if 560 ≤ at_ 26 then s.pwr.outletHot + 1 else 0
    let s : State := { s with
      pwr := { s.pwr with temps := ts, thermSamples := s.pwr.thermSamples + 1, capBy := hold, outletHot := hot } }
    let s := (s.setRf K.COOL_STAT F.COOL_STAT_INLET (temp16 (at_ 25))).setRf K.COOL_STAT F.COOL_STAT_OUTLET (temp16 (at_ 26))
    let s := allBids.foldl (fun (s : State) b => s.benchTemp b (at_ b.val) tick) s
    let s := if !hold.isEmpty then allBids.foldl (fun (s : State) b => s.capTo b 200) s else s
    match (List.range 27).find? fun i => 1000 ≤ at_ i with
    | some i => .next (s.emergency ucThermal i 0x18 (temp16 (at_ i)))
    | none => .next (if 10000 ≤ hot then s.emergency ucThermal 26 0x18 (temp16 (at_ 26)) else s)

/-- The effective power limit in W at an input voltage in mV (R489, R502). -/
def State.powerLimit (s : State) (vin : Nat) : Nat := Nat.min (s.rf K.PWR_LIMIT F.PWR_LIMIT_LIMIT_W) (80 * vin / 1000)

/-- POWER_SAMPLE: every 100 µs the input is measured (mV, W as the 1 ms average, 10 mA), and the power cap moves a step
(R502, R503, 20 R545). (assumption 62, DEDUCED) -/
def execPowerSample (vin pin iin : Nat) (s : State) : Out :=
  if !s.pwr.mainOn then .next s
  else
    let k := K.PWR_STAT
    let s := ((s.setRf k F.PWR_STAT_VIN vin).setRf k F.PWR_STAT_PIN pin).setRf k F.PWR_STAT_IIN iin
    let s := if (s.reg (K.HUB_CTR 416)).toNat < pin then s.setReg (K.HUB_CTR 416) (BitVec.ofNat 64 pin) else s
    let n := s.pwr.powSamples + 1
    let limit := s.powerLimit vin
    let c := s.pwr.powerCap
    let cap := if limit < pin then Nat.max 200 (c - 25) else if pin + 100 < limit && n % 10 == 0 then Nat.min 1700 (c + 25) else c
    let s : State := { s with pwr := { s.pwr with powSamples := n, powerCap := cap } }
    let s := if cap < c then
        allBids.foldl (fun (s : State) (b : Bid) =>
          if s.rb (K.BENCH_PWR b) F.BENCH_PWR_GATED then s else s.countH (400 + b.val) 1) s
      else s
    .next (s.setRb K.PWR_LIMIT F.PWR_LIMIT_THROTTLED (decide (cap < 1700)))

/-- A write of LIMIT_W by the INSTALLER: above ENVELOPE_W it is ignored and sets REFUSED (R502, R503). -/
def State.writePwrLimit (s : State) (v : Word) : State :=
  let k := K.PWR_LIMIT
  let s := if bit v 33 then s.setRb k F.PWR_LIMIT_REFUSED false else s
  if s.rf k F.PWR_LIMIT_ENVELOPE_W < fld v 0 12 then s.setRb k F.PWR_LIMIT_REFUSED true
  else s.setRf k F.PWR_LIMIT_LIMIT_W (fld v 0 12)

/-- PWR_LIMIT_WRITE (R502). -/
def execPwrLimitWrite (v : Word) (s : State) : Out := .next (s.writePwrLimit v)

end Sys2Proof.Machine
end

