-- ==== Sys2Proof/Machine/Bringup.lean ====
section
/-!
DEFINITION. Bring-up: the boot ROM, the choice of records and of the firmware image, core failures, start-up programs, training
of stacks, READY with the site record and the floor plan, and the saved settings (spec 19 R506-R522).
-/

namespace Sys2Proof.Machine

def State.onFlash (s : State) (f : Flash → Flash) : State := { s with mgmt := { s.mgmt with flash := f s.mgmt.flash } }

/-! ## Firmware slots (R512, R513) -/

/-- The image in a slot; false is slot A. -/
def Flash.slot (f : Flash) (b : Bool) : Option Image := if b then f.slots[1] else f.slots[0]
def Flash.setSlot (f : Flash) (b : Bool) (i : Option Image) : Flash :=
  { f with slots := if b then f.slots.set 1 i else f.slots.set 0 i }
/-- Whether a MAKER key of a build record signed an image (R512). -/
def imageSigned (i : Image) (r : BuildRec) : Bool := match i.signer with | some k => r.makerKeys.contains k | none => false
/-- Whether an image is valid under a build record: signed by a MAKER key of it, for its order code, its SVN not below SVN_MIN
(R512). -/
def Flash.valid (f : Flash) (r : BuildRec) (i : Image) : Bool := imageSigned i r && i.orders.contains r.order384 && f.svnMin ≤ i.svn
def Flash.slotOk (f : Flash) (r : BuildRec) (b : Bool) : Bool :=
  match f.slot b with
  | some i => f.valid r i
  | none => false
/-- The slot the ROM boots when none is PENDING: ACTIVE, else the other once (R513). -/
def Flash.choose (f : Flash) (r : BuildRec) : Option Bool :=
  if f.slotOk r f.active then some f.active else if f.slotOk r !f.active then some !f.active else none

/-- The boot control word and the firmware counter as BOOT_STAT shows them (R538). -/
def State.showSlots (s : State) : State :=
  let f := s.mgmt.flash
  let k := K.BOOT_STAT
  let s := s.setRb k F.BOOT_STAT_PENDING_VALID f.pendingSlot.isSome
  let s := s.setRb k F.BOOT_STAT_SLOT_PENDING (f.pendingSlot.getD false)
  let s := s.setRb k F.BOOT_STAT_TRIED f.tried
  s.setRf k F.BOOT_STAT_SVN_MIN f.svnMin

/-- A PENDING image given up: PENDING clears, FW_FALLBACK is set, and the ROM performs a module reset into ACTIVE (R513). -/
def State.fallBack (s : State) : State :=
  let s := (s.onFlash fun f => { f with pendingSlot := none, tried := false }).showSlots
  let s := (s.setRb K.BOOT_STAT F.BOOT_STAT_FW_FALLBACK true).countH 421 1
  (s.onMgmt fun m => { m with resetsBusy := [] }).requestReset (moduleReq cRecovery)

/-- PENDING_BOOT_TIMEOUT: a trial image that did not reach READY within 30 s (R513). -/
def execPendingBootTimeout (s : State) : Out :=
  .next (if s.mgmt.flash.tried && s.pwr.mainOn && s.stage != stageReady then s.fallBack else s)

/-! ## The boot ROM (R511, R514, R516, R524, R525) -/

/-- A core that failed the broadcast twice is failed for this boot, with its unit, and recorded (R514).
(assumption 63, DEDUCED) -/
def State.coreFails (s : State) (x : Nat × Nat × Nat) : State :=
  let u : UnitId := ⟨x.1, x.2.1, x.2.2⟩
  let (f, s) := s.drawWord
  let s := s.emit (s.unitRec u 0x13 (f &&& 0xFFFF))
  { s with health := { s.health with bootFailed := s.health.bootFailed ++ [u] } }

/-- The site record in force: the authenticated copy of the greater SEQ, not below the site counter (R507, R509, R525). -/
def State.siteRec (s : State) : Option SiteRec :=
  let f := s.mgmt.flash
  let ok (r : Option SiteRec) : Option SiteRec :=
    r.filter fun x => s.mgmt.identityOk && x.auth == s.mgmt.helper && f.siteCtr ≤ x.seq
  match ok f.site[0], ok f.site[1] with
  | some a, some b => some (if a.seq < b.seq then b else a)
  | some a, none => some a
  | none, b => b

/-- HIF_CFG at a module reset: BIFUR from the build record; the division in force as the site record asked for it (R413,
R439). -/
def State.bootBifur (s : State) (r : BuildRec) : State :=
  let asked := match s.siteRec with
    | some x => (x.regs.find? fun (e : Nat × Word) => e.1 == K.HIF_CFG).map fun (e : Nat × Word) => fld e.2 0 2
    | none => none
  let k := K.HIF_CFG
  let act := s.rf k F.HIF_CFG_BIFUR_ACT
  let want := asked.getD r.bifur
  (s.setRf k F.HIF_CFG_BIFUR r.bifur).setRf k F.HIF_CFG_BIFUR_ACT (if want = 3 then act else want)

/-- Ports of the plan begin to train; the Bench PLLs are locked; a stack that was absent is tried again (R511, R518). -/
def State.bootUnits (s : State) : State :=
  let s := (List.finRange 16).foldl (fun (s : State) n =>
    s.setRf (K.FAB_PORT n) F.FAB_PORT_STATE (if s.planPort n then 2 else 0)) s
  let s := allBids.foldl (fun (s : State) b => s.setRb (K.CLK_BENCH b) F.CLK_BENCH_LOCKED true) s
  (List.finRange 8).foldl (fun (s : State) (k : Fin 8) =>
    let absent := s.rb (K.BMC_STAT k) F.BMC_STAT_ABSENT
    let s := s.setRb (K.BMC_STAT k) F.BMC_STAT_ABSENT false
    let s := s.setRb (K.BMC_STAT k) F.BMC_STAT_ABSENT !s.planStack k
    if absent then s.onMgmt fun m => { m with stacksDone := m.stacksDone &&& ~~~ BitVec.ofNat 8 (2 ^ k.val) } else s) s

/-- A firmware image chosen: it is the one that runs, and the settings that the build record gives come into force (R439, R503,
R511). -/
def State.bootImage (s : State) (r : BuildRec) (slot : Bool) : State :=
  let k := K.BOOT_STAT
  let s := s.onMgmt fun m => { m with running := m.flash.slot slot }
  let s := ((s.setRb k F.BOOT_STAT_SLOT_ACTIVE slot).showSlots).bootBifur r
  (s.setRf K.PWR_LIMIT F.PWR_LIMIT_ENVELOPE_W r.envelope).setStage stageFirmware

/-- The broadcast of the image: cores that failed it twice are failed for this boot; a Hub core without a unit of its own takes the
module to FAILED, else training begins (R514, R518). -/
def State.broadcast (s : State) (failed : List (Nat × Nat × Nat)) : State :=
  let s := failed.foldl (fun (s : State) x => s.coreFails x) s
  let lost := s.health.bootFailed.any fun u => u.bench == hubNo && u.cls == ucHubCore && 24 ≤ u.index
  if lost then s.setStage stageFailed else ((s.bootUnits).setStage stageTraining).noteTrained

/-- The PUF helper data of the flash: the copy of the greater SEQ (R507). -/
def Flash.helperNow (f : Flash) : List Byte :=
  match f.helper[0], f.helper[1] with
  | some a, some b => if a.seq < b.seq then b.bytes else a.bytes
  | some a, none => a.bytes
  | none, some b => b.bytes
  | none, none => []

/-- The keys derived: the secret reconstructed with the helper data, and whether the identity certificate of the build record in
force certifies the key that comes of it; once that failed, only a build record write clears the condition (R524, R525). -/
def State.deriveKeys (s : State) (pufOk : Bool) : State :=
  let helper := s.mgmt.flash.helperNow
  let cert := match s.buildRec with | some r => r.certified | none => false
  let id := pufOk && cert && (s.mgmt.identityOk || s.mgmt.buildWritten)
  let s : State := { s with mgmt := { s.mgmt with
    helper := helper, secret := if pufOk then some (Config.pufSecret helper) else none, identityOk := id, buildWritten := false } }
  s.setRb K.BOOT_STAT F.BOOT_STAT_IDENTITY_FAIL !id

/-- The boot ROM's choice: PENDING, then on trial, else ACTIVE, else the other slot; RECOVERY without a valid image (R513). -/
def State.bootChoose (s : State) (r : BuildRec) : State :=
  match s.mgmt.flash.pendingSlot with
  | some slot =>
    let s := s.onFlash fun f => { f with tried := true }
    if s.mgmt.flash.slotOk r slot then s.bootImage r slot else s.fallBack
  | none =>
    match s.mgmt.flash.choose r with
    | some slot => s.bootImage r slot
    | none => s.setStage stageRecovery

/-- BOOT: at ROM the boot ROM selects the build record, derives the keys and chooses the firmware image; without a build record
or an image it enters RECOVERY. At FIRMWARE it broadcasts the image, and training begins (R510-R514, R524, R525, R538).
(assumption 88, DESIGN CHOICE) -/
def execBoot (pufOk : Bool) (failed : List (Nat × Nat × Nat)) (s : State) : Out :=
  if !s.pwr.mainOn then .next s
  else if s.stage = stageFirmware then .next (s.broadcast failed)
  else if s.stage ≠ stageRom then .next s
  else
    let s := s.countH 420 1
    let s := s.onMgmt fun m => { m with inForce := s.flashBuild }
    let s := s.deriveKeys pufOk
    match s.buildRec with
    | none => .next (s.setStage stageRecovery)
    | some r => .next (s.bootChoose r)

/-! ## Start-up programs and training (R515, R517, R518) -/

/-- STARTUP_PROGRAM_DONE: every Bench's program has ENDed; units that failed their Proof are failed for this boot, and instruction
memory is zeroed (R515). (assumption 63, DEDUCED) -/
def execStartupProgramDone (failed : List (Nat × Nat × Nat)) (s : State) : Out :=
  if (s.stage ≠ stageTraining && s.stage ≠ stageChecks) || s.mgmt.startupDone = BitVec.allOnes 16 then .next s
  else
    let s := failed.foldl (fun (s : State) x =>
      let u : UnitId := ⟨x.1, x.2.1, x.2.2⟩
      let (f, s) := s.drawWord
      let s := s.emit (s.unitRec u 0x14 f)
      { s with health := { s.health with bootFailed := s.health.bootFailed ++ [u] } }) s
    let s := allBids.foldl (fun (s : State) b => s.resetRegs (K.IMEM b 0) (K.IMEM b 32768)) s
    .next (s.onMgmt fun m => { m with startupDone := BitVec.allOnes 16 })

/-- Spares for the lanes that failed, in turn; none when they run out (R248). -/
def pairSpares (badSpares : List Nat) : List Nat → List Nat → Option (List (Nat × Nat))
  | [], _ => some []
  | l :: rest, spares =>
    match spares.dropWhile badSpares.contains with
    | [] => none
    | x :: left => (pairSpares badSpares rest left).map fun y => (l, x) :: y

/-- A stack's lane map as the saved settings keep it. -/
def flatLanes (l : List (Nat × Nat)) : List Nat := l.flatMap fun x => [x.1, x.2]
def pairLanes : List Nat → List (Nat × Nat)
  | a :: b :: rest => (a, b) :: pairLanes rest
  | _ => []

/-- STACK_TRAINING: a stack's saved lane map is checked, or the stack trains afresh: lanes 0 to 1,151 work, 1,152 to 1,215 are
spares; more than 64 replacements leave it absent for this boot. Equalisation values found afresh are free (R248, R509, R517).
(assumption 63, DEDUCED) -/
def execStackTraining (k : Fin 8) (r : TrainResult) (s : State) : Out :=
  if s.stage ≠ stageTraining || !s.planStack k || s.mgmt.stacksDone.getLsbD k.val || !s.hubCore (stackCore k.val) then .next s
  else
    let key := K.BMC_STAT k
    let done (s : State) (l : List (Nat × Nat)) : State :=
      let s := (s.onStk k fun x => { x with lanes := l }).setRf key F.BMC_STAT_SPARED l.length
      (s.onMgmt fun m => { m with stacksDone := m.stacksDone ||| BitVec.ofNat 8 (2 ^ k.val) }).noteTrained
    match (if r.savedOk then s.savedSet k.val else none) with
    | some x => .next (done (s.noteSettings k.val x.1 x.2) (pairLanes x.1))
    | none =>
      let s := s.onMgmt fun m => { m with allSaved := false }
      match pairSpares r.badSpares r.badLanes ((List.range 64).map (1152 + ·)) with
      | some l =>
        let (w, s) := s.drawWord
        .next (done (s.noteSettings k.val (flatLanes l) w) l)
      | none => .next ((s.setRb key F.BMC_STAT_ABSENT true).noteTrained)

/-- PORT_PEER_WINDOW_END: a port that has not met its peer is DOWN, and its window has ended (R518). -/
def execPortPeerWindowEnd (n : PortNo) (s : State) : Out :=
  if s.portState n ≠ 2 then .next s
  else
    .next ((s.setRf (K.FAB_PORT n) F.FAB_PORT_STATE portDown).portDone n)

/-! ## READY (R509, R513, R519-R521) -/

/-- An INSTALLER field of a register: an `rwi` field, an RW field of a register that the INSTALLER writes, or BENCH_PWR.GATE
(R509). -/
def installerField (r : RegRow) (f : FieldRow) : Bool :=
  f.acc == .rwi || ((r.writer == .installer || r.base == K.BENCH_PWR 0) && f.acc == .rw)

/-- A register's INSTALLER fields taken from a word; GATE gates its Bench (R497, R509). -/
def State.loadSite (s : State) (e : Nat × Word) : State :=
  match regAt regMap e.1 with
  | none => s
  | some (r, is) =>
    if r.base = K.BENCH_PWR 0 then s.writeGate (bidOf (is.getD 0 0)) (e.2 &&& 1)
    else s.setReg e.1 (r.fields.foldl (fun w f =>
      if installerField r f then setFld w f.f.lo f.f.w (fld e.2 f.f.lo f.f.w) else w) (s.reg e.1))

/-- Whether every condition of READY but the last two holds (R520). -/
def State.bringUpDone (s : State) : Bool :=
  (s.stage == stageTraining || s.stage == stageChecks) && s.mgmt.startupDone == BitVec.allOnes 16 && s.trained

/-- The floor plan published: GEN 1 the first time, one more where the plan has changed since (R521). -/
def State.publishPlan (s : State) : State := if s.rf K.FP_MODULE F.FP_MODULE_GEN = 0 then s.publish 1 else s.planChanged

/-- READY: the site record is applied, the floor plan published, a PENDING image becomes ACTIVE, and what was staged before is
staged no longer (R509, R513, R520, R533, R538). (assumption 63, DEDUCED) -/
def execReady (ms : Nat) (s : State) : Out :=
  if !s.bringUpDone then .next s
  else
    let s0 := s
    let k := K.BOOT_STAT
    let s := match s.siteRec with
      | some x => (x.regs.foldl (fun (s : State) e => s.loadSite e) s).setRb k F.BOOT_STAT_SITE_APPLIED true
      | none => s.setRb k F.BOOT_STAT_SITE_APPLIED false
    let s := (s.publishPlan).setRb k F.BOOT_STAT_FAST s.mgmt.allSaved
    let s := s.setRf k F.BOOT_STAT_BOOT_MS (Nat.min ms 65535)
    let s := if s.mgmt.flash.tried then
        s.onFlash fun f => { f with active := f.pendingSlot.getD f.active, pendingSlot := none, tried := false }
      else s
    let s := s.onMgmt fun m => { m with stageOpen := false }
    .next (s0.reseat (s.showSlots.setStage stageReady))

/-- The settings in use: lane map and equalisation values of every trained stack, and of every READY port (R509). -/
def State.settingsNow (s : State) : List (Nat × List Nat × Word) :=
  let eq (k : Nat) : Word := tget 0 s.mgmt.equal k
  ((List.finRange 8).filterMap fun k =>
    if s.mgmt.stacksDone.getLsbD k.val then some (k.val, flatLanes (s.stk k).lanes, eq k.val) else none)
  ++ ((List.finRange 16).filterMap fun n =>
    if s.portUp n then some (savedPort n, (s.port n).lanes, eq (savedPort n)) else none)

/-- The newest of two copies: false for copy 0. -/
def newest (a b : Option Nat) : Bool :=
  match a, b with
  | some x, some y => x < y
  | none, some _ => true
  | _, none => false

/-- The copy of the saved settings to write next, and the SEQ in force (R507). -/
def State.savedCopy (s : State) : Bool × Nat :=
  let f := s.mgmt.flash
  let seq (r : Option SavedRec) : Option Nat :=
    (r.filter fun x => s.mgmt.identityOk && x.auth == s.mgmt.helper).map SavedRec.seq
  (!newest (seq f.saved[0]) (seq f.saved[1]), match s.savedRec with | some r => r.seq | none => 0)

/-- SAVED_SETTINGS_WRITE: after READY, settings that differ from the saved ones are written to the copy that does not hold the
newest; without its keys the module writes none (R507, R519, R525). -/
def execSavedSettingsWrite (s : State) : Out :=
  if !s.ready || !s.mgmt.newSettings || !s.mgmt.identityOk then .next s
  else
    let old := match s.savedRec with | some r => r.sets | none => []
    let (c, n) := s.savedCopy
    let new : SavedRec := ⟨n + 1, s.mgmt.helper, s.settingsNow.foldl (fun t e => tput t e.1 e.2) old⟩
    let s := s.onFlash fun f => { f with saved := if c then f.saved.set 1 (some new) else f.saved.set 0 (some new) }
    .next (s.onMgmt fun m => { m with newSettings := false })

end Sys2Proof.Machine
end

