-- ==== Sys2Proof/Machine/Regs.lean ====
section
/-!
DEFINITION. Register accesses: the fields the hardware shows, who reaches a register and who writes it, half-register accesses,
counters read half by half, what a write does, and BAR0 (spec 00 R10-R13; 15 R415-R418; 17 R486; 20 R545; 21 R557-R564).
-/

namespace Sys2Proof.Machine

/-! ## Sources (R558, R561) -/

/-- Who accesses a register: a Foreman of a partition, a partition's host, or the INSTALLER's REG_WRITE. -/
inductive Src
  | foreman (b : Bid) (p : Part)
  | host (p : Part)
  | installer
  deriving DecidableEq, Repr

/-- The partition a source acts for; the INSTALLER acts for none. -/
def Src.part : Src → Option Part
  | .foreman _ p => some p
  | .host p => some p
  | .installer => none

/-! ## What the hardware shows (R10) -/

/-- FM_STAT.STATE (R305). -/
def fmCode : FmState → Nat
  | .stopped => 0
  | .running => 1
  | .draining => 2
  | .halted => 3
  | .faulted => 4

def flag (b : Bool) : Nat := if b then 1 else 0

/-- PRESENT bits of a class (R523). -/
def State.presentBits (s : State) (b : Bid) (c n : Nat) : Nat :=
  (List.range n).foldl (fun m i => if s.present b c i then m + 2 ^ i else m) 0

/-- Instructions of a queue that name a unit or are assigned to it (R89, R197, R242). -/
def State.queuedFor (s : State) (b : Bid) (q : Fin 8) (u : Nat) : Nat :=
  ((s.assignedQueue b q).filter fun i => match i with | .instr e => e.names q == some u | _ => false).length

/-- Whether an instruction in progress waits on full/empty state or bulk memory (R131, R197, R242). -/
def Running.waiting (r : Running) : Bool :=
  r.parked || match r.reads, r.writes with
    | x :: _, _ => !inSram (16 * x.word)
    | [], x :: _ => !inSram (16 * x.word)
    | [], [] => false

/-- BUSY, WAITING and QUEUED of a unit. -/
def State.unitStat (s : State) (b : Bid) (q : Fin 8) (u : Nat) : Nat × Nat × Nat :=
  let r := (s.bench b).running q u
  (flag r.isSome, flag (match r with | some r => r.waiting | none => false), s.queuedFor b q u)

/-- The array whose instructions an array runs: in PAIR mode an odd array works for its even partner (R445). -/
def State.leadOf (s : State) (b : Bid) (u : Fin 12) : Fin 12 :=
  if s.pairMode b && u.val % 2 == 1 then ⟨u.val - 1, by omega⟩ else u

/-- Whether an instruction's drain is in progress: from its first updated row until its last row is drained (R78). -/
def ArrJob.draining (j : ArrJob) : Bool := j.f.drain && decide (0 < j.updated) && decide (j.drained < j.m)

/-- The status fields of an array (R89, R108); in PAIR mode an odd array loads and streams as its partner does, and only the even
one drains (R445). (assumption 73, DEDUCED) -/
def State.arrayStat (s : State) (b : Bid) (u : Fin 12) : List (Fld × Nat) :=
  let a := s.arr b u
  let x := s.arr b (s.leadOf b u)
  [(F.CUT_STAT_BUSY, flag !x.jobs.isEmpty), (F.CUT_STAT_FRONT, flag a.frontIdx), (F.CUT_STAT_LOADING, flag x.load.isSome),
    (F.CUT_STAT_BACK_READY, flag x.back.isSome), (F.CUT_STAT_DRAINING, flag ((a.drains ++ a.stream.toList).any (·.draining))),
    (F.CUT_STAT_TILE_VALID, flag a.front.isSome),
    (F.CUT_STAT_QUEUED, s.queuedFor b (arrQueue u) (if u.val < 4 then u.val else u.val - 4))]

/-- Units of an SRAM tier that no entry holds; none where the tier passes the end of SRAM and takes no push (R234, R244): what
SRAM_FREE shows of it is not given (assumption 86, DESIGN CHOICE). -/
def State.sramFree (s : State) (b : Bid) : Nat :=
  s.tierSize b false - ((usedUnits (s.bench b).cat false []).map Prod.snd).sum

/-- Units of a Bench held failed because the two views differ (R462). -/
def State.suspect (s : State) (b : Bid) : Bool :=
  (s.health.mgmtFailed ++ s.health.benchFailed).any fun u => u.bench == b.val

/-- Fields of a Bench register that show the machine's state as it is. -/
def State.liveBench (s : State) (b : Bid) (base i : Nat) : List (Fld × Nat) :=
  let x := s.bench b
  if base = K.FM_STAT 0 then
    [(F.FM_STAT_STATE, fmCode x.fm.st), (F.FM_STAT_FENCES, x.fm.fences.length), (F.FM_STAT_SIGNALS, x.fm.sigs.length),
      (F.FM_STAT_PC, x.fm.pc.toNat)]
  else if base = K.MARK_STAT 0 then
    [(F.MARK_STAT_ID, (x.fm.marks.headD 0).toNat), (F.MARK_STAT_DEPTH, x.fm.marks.length)]
  else if base = K.HAUL_CTL 0 then [(F.HAUL_CTL_PRESENT, s.presentBits b ucHauler 8)]
  else if base = K.HAUL_STAT 0 0 then
    let (busy, wait, n) := s.unitStat b 1 i
    let remote := match x.running 1 i with | some r => haulRemote r.e != 0 | none => false
    [(F.HAUL_STAT_BUSY, busy), (F.HAUL_STAT_WAITING, wait), (F.HAUL_STAT_REMOTE, flag remote), (F.HAUL_STAT_QUEUED, n)]
  else if base = K.CUT_CTL 0 then [(F.CUT_CTL_PRESENT, s.presentBits b ucCutter 4)]
  else if base = K.CUT_STAT 0 0 then s.arrayStat b ⟨i % 4, by omega⟩
  else if base = K.DRS_CTL 0 then [(F.DRS_CTL_PRESENT, s.presentBits b ucDresser 8)]
  else if base = K.DRS_STAT 0 0 then
    s.arrayStat b ⟨4 + i % 8, by omega⟩ ++ [(F.DRS_STAT_PASSES_ACT, (s.arr b (s.leadOf b ⟨4 + i % 8, by omega⟩)).lastPasses)]
  else if base = K.WDG_CTL 0 then [(F.WDG_CTL_PRESENT, s.presentBits b ucWedge 4)]
  else if base = K.WDG_STAT 0 0 then
    let (busy, wait, n) := s.unitStat b 4 i
    let exp := match x.running 4 i with | some r => r.e.isExport | none => false
    [(F.WDG_STAT_BUSY, busy), (F.WDG_STAT_EXPORT, flag exp), (F.WDG_STAT_WAITING, wait), (F.WDG_STAT_QUEUED, n)]
  else if base = K.VTAB_VALID 0 then
    [(F.VTAB_VALID_VALID, (List.range 64).foldl (fun m t => if s.vtabValid b t then m + 2 ^ t else m) 0)]
  else if base = K.SCR_CTL 0 then [(F.SCR_CTL_PRESENT, s.presentBits b ucScreen 2)]
  else if base = K.SCR_STAT 0 0 then
    let (busy, wait, n) := s.unitStat b 5 i
    [(F.SCR_STAT_BUSY, busy), (F.SCR_STAT_WAITING, wait), (F.SCR_STAT_QUEUED, n)]
  else if base = K.STK_STATUS 0 then
    [(F.STK_STATUS_ENTRIES, x.cat.length), (F.STK_STATUS_SRAM_FREE, s.sramFree b)]
  else if base = K.WGH_STAT 0 then
    [(F.WGH_STAT_OPEN, x.wgh.buckets.length), (F.WGH_STAT_VOTE_ABORT, flag x.wgh.voteAbort),
      (F.WGH_STAT_STAGE_FREE, s.stageSize b - s.stageUsed b)]
  else if base = K.ERR_BSTAT 0 then
    [(F.ERR_BSTAT_VOTE_ABORT, flag (decide (x.errVote = Vote.abort))),
      (F.ERR_BSTAT_VOTE_HALT, flag (decide (x.errVote = Vote.halt))),
      (F.ERR_BSTAT_RETIRE_PENDING, flag (s.benchPending b)), (F.ERR_BSTAT_SUSPECT, flag (s.suspect b)),
      (F.ERR_BSTAT_POISON_ADDRS, x.poisoned.length)]
  else []

/-- Fields of a Hub register that show the machine's state as it is; `i` is its first instance number, `j` its second. Word j of
PLM_FBMAP is built from FB of classes 64 j to 64 j + 63 (R171). -/
def State.liveHub (s : State) (base i j : Nat) : List (Fld × Nat) :=
  let p : Part := ⟨i % 4, by omega⟩
  if base = K.PLM_FBMAP 0 0 then
    [(F.PLM_FBMAP_BITS, (List.range 64).foldl (fun m c =>
      if s.rb (K.PLM_CLASS0 p (64 * j + c)) F.PLM_CLASS0_FB then m + 2 ^ c else m) 0)]
  else if base = K.ERR_STAT 0 then [(F.ERR_STAT_HELD, s.errs.held[p].length)]
  else if base = K.PROOF_STAT 0 then
    [(F.PROOF_STAT_PENDING, (s.health.proofs.filter fun r => r.part == some p).length)]
  else []

/-- What a register reads as: its stored fields, and those that show the machine (R10); reserved words read zero (R560). -/
def State.view (s : State) (k : Nat) : Word :=
  match regAt regMap k with
  | none => 0
  | some (r, is) =>
    let live := if r.base < hubKey then s.liveBench (bidOf (is.getD 0 0)) r.base (is.getD 1 0)
      else s.liveHub r.base (is.getD 0 0) (is.getD 1 0)
    live.foldl (fun w e => setFld w e.1.lo e.1.w e.2) (s.reg k)

/-! ## Reading (R10, R13, R542, R559) -/

/-- Hub counter 416, which each read clears (R545). -/
def isPowerMax (k : Nat) : Bool := k == K.HUB_CTR 416

def State.latched (s : State) (k : Nat) : Tab (BitVec 32) :=
  if k < hubKey then (s.bench (bidOf (k / 0x1000000))).latch else s.mgmt.hubLatch
def State.setLatched (s : State) (k : Nat) (t : Tab (BitVec 32)) : State :=
  if k < hubKey then s.onBench (bidOf (k / 0x1000000)) fun x => { x with latch := t }
  else s.onMgmt fun m => { m with hubLatch := t }

/-- A whole register read; counter 416 is cleared by it. -/
def State.readFull (s : State) (k : Nat) : Word × State :=
  (s.view k, if isPowerMax k then s.setReg k 0 else s)

def isCounter (k : Nat) : Bool := match regAt regMap k with | some (r, _) => r.counter | none => false

/-- The lower half read: of a counter it latches the upper half, and clears an RC field (R13, R559).
(assumption 33, DEDUCED) -/
def State.readLow (s : State) (k : Nat) : Word × State :=
  let v := s.view k
  let s := if isCounter k then s.setLatched k (tput (s.latched k) k ((v >>> 32).setWidth 32)) else s
  (v &&& 0xFFFFFFFF, if isPowerMax k then s.setReg k 0 else s)

/-- The upper half read: the latched value of a counter, once; else the live half (R13, R559).
(assumption 33, DEDUCED) -/
def State.readHigh (s : State) (k : Nat) : Word × State :=
  match (s.latched k).find? fun e => e.1 == k with
  | some e => (e.2.setWidth 64, s.setLatched k (tdrop (s.latched k) k))
  | none => (s.view k >>> 32, s)

/-! ## Who reaches a register (R545, R558, R560, R561) -/

/-- What an access to a register's address finds. -/
inductive RegAcc
  | ok (r : RegRow) (is : List Nat)
  | reserved
  | refused
  | absent (b : Bid)
  deriving DecidableEq, Repr

/-- Bases of the Hub registers that carry a partition index (R561). -/
def partIndexed : List Nat :=
  [K.BMC_PART 0, K.COW_CTL 0 0, K.COW_RGN 0 0 0, K.EXPORT_CTL 0, K.BAR_MASK 0, K.BAR_CTL 0, K.PROG_LOAD0 0, K.PROG_LOAD1 0,
    K.BAR_GEN 0 0, K.FAB_PART 0, K.FAB_TREE 0, K.FAB_DROP 0 0, K.FAB_LOST 0 0, K.FAB_ROUTE 0 0, K.MAP_ADDR 0, K.MAP_CTL 0,
    K.MAP_ID 0, K.STEP_CTL 0, K.STEP_STAT 0, K.STEP_CAUSE 0, K.MIR_CTL 0, K.MIR_STAT 0, K.PART_CFG 0, K.HQ_STAT 0, K.HQ_LIM 0,
    K.DB_DROPPED 0, K.BAR2_SEG 0 0, K.ERR_RING 0, K.ERR_HEAD 0, K.ERR_STAT 0, K.ERR_LOST 0, K.PROOF_STAT 0, K.HOST_TIME 0,
    K.PART_CTR 0 0]
/-- The registers of the Plumb blocks (R561). -/
def inPlumb (base : Nat) : Bool := hubKey + 0x400000 ≤ base && base < hubKey + 0x500000
/-- The queue registers. -/
def inQueue (base : Nat) : Bool := hubKey + 0x900000 ≤ base && base < hubKey + 0x910000

/-- The numbers that R544 and R545 list; the words of the others are reserved. -/
def benchCtrListed (n : Nat) : Bool := n ≤ 141 || (192 ≤ n && n ≤ 240) || (256 ≤ n && n < 512)
def hubCtrListed (n : Nat) : Bool :=
  (n < 256 && n % 16 ≤ 10) || (256 ≤ n && n < 384 && n % 16 ≤ 6) || (384 ≤ n && n ≤ 386) || (400 ≤ n && n ≤ 416)
    || (420 ≤ n && n ≤ 426)

/-- Whether a register is the word of a counter number that is not listed: a reserved word (R544, R545, R560). -/
def ctrReserved (r : RegRow) (is : List Nat) : Bool :=
  (r.base == K.BENCH_CTR 0 0 && !benchCtrListed (is.getD 1 0)) || (r.base == K.HUB_CTR 0 && !hubCtrListed (is.getD 0 0))

/-- Whether a partition's host, or its Foremen, may read a listed Hub counter n (R545). (assumption 36, DEDUCED) -/
def State.hubCtrOk (s : State) (p : Part) (host : Bool) (n : Nat) : Bool :=
  if n < 256 then s.portOwner ⟨n / 16 % 16, by omega⟩ == some p
  else if n < 384 then (List.range s.rowsInstalled).any fun r => s.rowOwner r == some p
  else if 384 ≤ n && n ≤ 386 then host
  else if 400 ≤ n && n < 416 then s.owns p (bidOf (n - 400))
  else if n = 416 || (420 ≤ n && n ≤ 426) then host
  else true

/-- The register at a key as a partition's source finds it (R418, R423, R560, R561). -/
def State.regFind (s : State) (p : Part) (host : Bool) (k : Nat) : RegAcc :=
  if k < hubKey then
    let b := bidOf (k / 0x1000000)
    if !s.owns p b then .refused
    else if !s.rb (K.FP_BENCH0 b) F.FP_BENCH0_LOWER then .absent b
    else match regAt regMap k with | some (r, is) => if ctrReserved r is then .reserved else .ok r is | none => .reserved
  else
    match regAt regMap k with
    | none => .reserved
    | some (r, is) =>
      let i := is.getD 0 0
      if ctrReserved r is then .reserved
      else if partIndexed.contains r.base || inPlumb r.base then (if i = p.val then .ok r is else .refused)
      else if inQueue r.base then (if s.qOwner i == some p then .ok r is else .refused)
      else if r.base = K.HUB_CTR 0 then (if s.hubCtrOk p host i then .ok r is else .refused)
      else .ok r is

/-! ## Who writes a register (R561, R563, R564) -/

/-- Whether a register has a bit that any reader clears (R561). (assumption 36, DEDUCED) -/
def RegRow.clears (r : RegRow) : Bool := r.fields.any fun f => f.acc == .w1c

/-- Whether a source may write a register, by its "Written by" column.
(assumption 36, DEDUCED) -/
def State.mayWrite (s : State) (src : Src) (r : RegRow) (is : List Nat) : Bool :=
  let own (b : Bid) : Bool := is.getD 0 0 == b.val
  let closed : Bool := r.base = K.COW_CTL 0 0 && is.getD 1 0 == 0
    || (r.base = K.COW_RGN 0 0 0 && is.getD 1 0 == 0
      && (let p : Part := ⟨is.getD 0 0 % 4, by omega⟩; s.expActive p || s.expPending p))
  if closed then false
  else
    match r.writer, src with
    | .foreman, .foreman b _ => own b
    | .foremanHost, .foreman b _ => own b
    | .foremanHost, .host _ => true
    | .host, .host _ => true
    | .partition, .foreman _ _ => true
    | .partition, .host _ => true
    | .ownerHost, .host _ => true
    | .queueHost, .host _ => true
    | .queueHost, .installer => true
    | .installer, .installer => true
    | .none, _ => r.clears
    | .special, .installer => r.base = K.RST_CMD || r.base = K.BENCH_PWR 0 || r.base = K.REM_CTL
    | .special, .foreman _ _ => r.base = K.RST_CMD
    | .special, .host p =>
      r.base = K.RST_CMD || r.base = K.REM_CTL || (r.base = K.BENCH_PWR 0 && s.owns p (bidOf (is.getD 0 0)))
    | _, _ => false

/-- A register's key from its row and instance numbers is the key itself; a write of it by the access kinds of its fields, a
reserved encoding leaving its field as it was unless its chapter names a fault for it, as for WDG_ROT.ORDER (R10, R11, R117).
(assumption 36, DEDUCED) -/
def State.plainWrite (s : State) (r : RegRow) (k : Nat) (inst : Bool) (v : Word) : State :=
  let keep (f : Fld) (bad : Nat → Bool) : Word := if bad (fld v f.lo f.w) then setFld v f.lo f.w (s.rf k f) else v
  let v :=
    if r.base = K.WGH_CTL 0 then keep F.WGH_CTL_MAX_OPEN fun n => n == 0 || 16 < n
    else if r.base = K.PLM_CTL 0 then keep F.PLM_CTL_MAX_ATTEMPTS fun n => n == 0
    else if r.base = K.HIF_CFG then keep F.HIF_CFG_BIFUR fun n => n == 3
    else v
  s.writeReg k inst v

/-! ## Writes that act (R486) -/

/-- A write of RST_CMD with GO: performed within the writer's rights, else ignored with RST_STAT.REFUSED (R486).
(assumption 38, DEDUCED) -/
def State.writeRstCmd (s : State) (src : Src) (v : Word) : State :=
  if !bit v 20 then s
  else
    let scope := fld v 0 3
    let b := bidOf (fld v 4 4)
    let p : Part := ⟨fld v 8 2 % 4, by omega⟩
    let mine (b : Bid) : Bool := match src with | .host q => s.owns q b | _ => false
    if scope = 4 && src == .installer then s.requestReset (moduleReq cCmd)
    else if scope = 3 && (src == .installer || src == .host p) then s.requestReset (partReq p cCmd)
    else if scope = 2 && mine b then s.requestReset (benchReq b cCmd)
    else if scope = 1 && mine b && fld v 16 4 < resetUnits (fld v 10 6) then
      s.requestReset (engineReq b (fld v 10 6) (fld v 16 4) cCmd)
    else s.rstRefused

/-- A write of REM_CTL: a host sets its own RELEASE bit, the INSTALLER sets GRACE_S (R495, R505). -/
def State.writeRemCtl (s : State) (src : Src) (v : Word) : State :=
  match src with
  | .host p => if bit v p.val then s.release p else s
  | .installer => s.setRf K.REM_CTL F.REM_CTL_GRACE_S (fld v 8 16)
  | .foreman _ _ => s

/-- A write of a register of a Bench that does more than store its fields; none where it does not. -/
def State.actBench (s : State) (at_ : FaultAt) (b : Bid) (r : RegRow) (is : List Nat) (k : Nat) (v : Word) : Option State :=
  let i := is.getD 1 0
  if r.base = K.FM_CTL 0 then some (s.cross b k v (s.writeFmCtl b v))
  else if r.base = K.FM_STAT 0 then some (s.cross b k v (s.writeReg k false v))
  else if r.base = K.CUT_CTL 0 then some (s.writeCutCtl b v)
  else if r.base = K.VTAB_CMD 0 then some (s.writeVtabCmd at_ v)
  else if r.base = K.VTAB_ENTRY 0 0 0 then some (if s.vtabValid b i then s else s.setReg k v)
  else if r.base = K.CRV_CMD 0 then some (s.writeCrvCmd at_ v)
  else if (crvSlotOf r.base).isSome then some (s.writeCrvSlot b (k % 0x1000000) v)
  else if r.base = K.STK_SRAM_TIER 0 then some (s.writeTier b false v)
  else if r.base = K.STK_BULK_TIER 0 then some (s.writeTier b true v)
  else if r.base = K.WGH_STAGE 0 then some (s.writeStage b v)
  else if r.base = K.ERR_BCTL 0 then some (s.writeErrBctl b v)
  else if r.base = K.TRC_CTL 0 then some (s.writeTrcCtl ⟨b.val, by omega⟩ v)
  else if r.base = K.TRC_RING 0 || r.base = K.TRC_SEL 0 then some (s.writeTrcCfg ⟨b.val, by omega⟩ k v)
  else if r.base = K.MK_ID 0 0 then some (s.writeMkId b i v)
  else if r.base = K.IMEM 0 0 then some (s.cross b k v (s.writeImem b i v))
  else none

/-- A write of a Hub register that does more than store its fields; none where it does not. -/
def State.actHub (s : State) (src : Src) (r : RegRow) (is : List Nat) (k : Nat) (v : Word) : Option State :=
  let i := is.getD 0 0
  let j := is.getD 1 0
  let p : Part := ⟨i % 4, by omega⟩
  let n : Fin 4 := ⟨j % 4, by omega⟩
  if r.base = K.BMC_ROW 0 then some (s.writeBmcRow i v)
  else if r.base = K.BMC_PART 0 then some (s.writeBmcPart p v)
  else if r.base = K.BMC_SHARE then some (s.writeBmcShare v)
  else if r.base = K.COW_CTL 0 0 then some (s.writeCowCtl p n v)
  else if r.base = K.COW_RGN 0 0 0 then some (s.writeCowRgn p n (is.getD 2 0) v)
  else if r.base = K.EXPORT_CTL 0 then some (s.writeExportCtl p v)
  else if r.base = K.PLM_CMD 0 then some (s.writePlmCmd p v)
  else if r.base = K.PLM_LOSS 0 then some (s.writePlmLoss p v)
  else if r.base = K.PLM_SET_CMD 0 then some (s.writePlmSet p v)
  else if r.base = K.PROG_LOAD1 0 then some (s.writeProgLoad p v)
  else if r.base = K.FAB_TREE 0 then some (s.writeTree p v)
  else if r.base = K.FAB_ROUTE 0 0 then some (s.writeRoute p j v (List.range 8))
  else if r.base = K.MAP_CTL 0 then
    let s := s.writeReg k false v
    some (if bit v 0 && s.hubCore stepCore then s.mapWrite p else s)
  else if r.base = K.MIR_CTL 0 then some (s.writeMirCtl p v)
  else if r.base = K.MIR_RX then some (s.writeMirRxEven v)
  else if r.base = K.HQ_SQ 0 then some (s.writeHqSq i v)
  else if r.base = K.HQ_CQ 0 then some (s.writeHqCq i v)
  else if r.base = K.HQ_CTL 0 then some (s.writeHqCtl i (src == .installer) v)
  else if r.base = K.PART_CFG 0 then some (s.writePartCfg p v)
  else if r.base = K.ERR_RING 0 then some (s.writeErrRing p v)
  else if r.base = K.ERR_HEAD 0 then some ((s.writeErrHead p v).drainDrawn p)
  else if r.base = K.RST_CMD then some (s.writeRstCmd src v)
  else if r.base = K.PWR_LIMIT then some (s.writePwrLimit v)
  else if r.base = K.BENCH_PWR 0 then some (s.writeGate (bidOf i) v)
  else if r.base = K.REM_CTL then some (s.writeRemCtl src v)
  else if r.base = K.TRC_HUB then some (s.writeTrcCtl 16 v)
  else if r.base = K.TRC_HUB_RING then some (s.writeTrcCfg 16 k v)
  else none

/-- A write of a register by a source that may write it. -/
def State.actWrite (s : State) (src : Src) (at_ : FaultAt) (r : RegRow) (is : List Nat) (k : Nat) (v : Word) : State :=
  let act := if r.base < hubKey then s.actBench at_ (bidOf (is.getD 0 0)) r is k v else s.actHub src r is k v
  match act with
  | some s => s
  | none => s.plainWrite r k (src == .installer) v

/-- The whole-register word of a 4-byte write: RW bits of the other half as they stand, its other bits not acted on (R559). -/
def halfWord (r : RegRow) (old : Word) (high : Bool) (v : Word) : Word :=
  let rw := r.fields.foldl (fun (m : Word) f => if f.acc == .rw || f.acc == .rwi then m ||| maskAt f.f.lo f.f.w else m) 0
  let part : Word := if high then 0xFFFFFFFF00000000 else 0xFFFFFFFF
  ((if high then v <<< 32 else v) &&& part) ||| (old &&& rw &&& ~~~ part)

/-- The word that a register of a Bench's own clock domain holds once the writes that wait in the crossing are made (R476). -/
def State.heldReg (s : State) (k : Nat) : Word :=
  let held := if k < hubKey then (s.bench (bidOf (k / 0x1000000))).xing else []
  ((held.filter fun e => e.1 == k).getLast?.map Prod.snd).getD (s.reg k)

/-- Whether a half of a register holds any bit that a write reaches. -/
def halfActs (r : RegRow) (high : Bool) : Bool :=
  let part : Word := if high then 0xFFFFFFFF00000000 else 0xFFFFFFFF
  r.fields.any fun f => f.acc != .ro && f.acc != .rc && (maskAt f.f.lo f.f.w &&& part) != 0

/-- The source that the index names as a register's writer: the Bench's Foreman, the partition's host, the INSTALLER (R561).
(assumption 36, DEDUCED) -/
def State.writerOf (s : State) (r : RegRow) (is : List Nat) : Src :=
  let i := is.getD 0 0
  match r.writer with
  | .foreman | .foremanHost => .foreman (bidOf i) ((s.partOf (bidOf i)).getD 0)
  | .host | .partition | .ownerHost | .none => .host ⟨i % 4, by omega⟩
  | .queueHost => .host ((s.qOwner i).getD 0)
  | .installer | .special => .installer

/-- REGISTER_WRITE: a write of a register by its writer: its fields take what their access kinds give, and a register that does more
does so (R10, R11). (assumption 36, DEDUCED) -/
def execRegisterWrite (key : Nat) (v : Word) (s : State) : Out :=
  match regAt regMap key with
  | none => .next s
  | some (r, is) =>
    let src := s.writerOf r is
    .next (if s.mayWrite src r is then s.actWrite src (s.storeFault (bidOf (is.getD 0 0))) r is key v else s)

/-! ## BAR0 (R415, R417, R418) -/

/-- What a BAR0 offset reaches: a queue's doorbell area, a register's key, or reserved space (R417). -/
inductive Bar0
  | bell (q : Nat) (o : Nat)
  | reg (k : Nat)
  | reserved
  deriving DecidableEq, Repr

/-- BAR0's layout (R417). -/
def bar0At (off : Nat) : Bar0 :=
  if off < 0x100000 then .bell (off / 0x1000) (off % 0x1000)
  else if off < 0x1000000 then .reserved
  else if off < 0x2000000 then .reg (hubKey + (off - 0x1000000))
  else if off < 0x4000000 then
    let b := (off - 0x2000000) / 0x200000
    let o := (off - 0x2000000) % 0x200000
    if o < 0x180000 then .reg (b * 0x1000000 + o)
    else if o < 0x1C0000 then .reg (b * 0x1000000 + 0x400000 + (o - 0x180000))
    else .reserved
  else .reserved

def State.bar0Refused (s : State) (p : Part) : State := s.hqStat p F.HQ_STAT_BAR0_REFUSED
/-- The answer to a host's read. -/
def State.answerBar (s : State) (p : Part) (a : BarAnswer) : State := s.onHport p fun h => { h with answer := some a }

/-- A BAR0 read of 4 or 8 aligned bytes (R13, R418, R559). -/
def State.bar0Read (s : State) (p : Part) (off size : Nat) : State :=
  match bar0At off with
  | .bell _ o =>
    let s := if o < 0x10 then s else s.bar0Refused p
    s.answerBar p (.data 0 false)
  | .reserved => (s.bar0Refused p).answerBar p (.data 0 false)
  | .reg a =>
    let k := a / 8 * 8
    match s.regFind p true k with
    | .ok _ _ =>
      let (v, s) := if size = 8 then s.readFull k else if a % 8 = 0 then s.readLow k else s.readHigh k
      s.answerBar p (.data v.toNat false)
    | _ => (s.bar0Refused p).answerBar p (.data 0 false)

/-- A BAR0 write of 4 or 8 aligned bytes: doorbells, and registers within the host's rights (R418, R425, R559, R561). -/
def State.bar0Write (s : State) (p : Part) (off size v : Nat) : State :=
  match bar0At off with
  | .bell q o =>
    let bell (f : Nat → State) : State := s.bell p (BitVec.ofNat 32 v) f
    if o = 0 then bell (s.sqTail p q) else if o = 8 then bell (s.cqHead p q) else if o < 0x10 then s else s.bar0Refused p
  | .reserved => s.bar0Refused p
  | .reg a =>
    let k := a / 8 * 8
    match s.regFind p true k with
    | .ok r is =>
      if !s.mayWrite (.host p) r is then s.bar0Refused p
      else
        let high := a % 8 != 0
        let w := BitVec.ofNat 64 v
        if size = 8 then s.actWrite (.host p) (s.storeFault 0) r is k w
        else if r.base = K.FAB_ROUTE 0 0 then
          s.writeRoute p (is.getD 1 0) (if high then w <<< 32 else w) (if high then [4, 5, 6, 7] else [0, 1, 2, 3])
        else if halfActs r high then s.actWrite (.host p) (s.storeFault 0) r is k (halfWord r (s.heldReg k) high w)
        else s
    | _ => s.bar0Refused p

/-- BAR0_ACCESS: any other length or alignment gets a Completer Abort; through the port of a partition that is not valid, or
before READY, reads return zero and writes are ignored (R415, R418).
(assumption 36, DEDUCED; assumption 37, DEDUCED) -/
def execBar0Access (p : Part) (off size : Nat) (v : Option (List Byte)) (s : State) : Out :=
  if (size ≠ 4 && size ≠ 8) || off % size ≠ 0 then .next (if v.isNone then s.answerBar p .abort else s)
  else if !s.partValid p || s.stage != stageReady then
    .next (if v.isNone then s.answerBar p (.data 0 false) else s)
  else
    match v with
    | none => .next (s.bar0Read p off size)
    | some l => .next (s.bar0Write p off size (ofBytes (l.take size)))

/-- The BAR0 offset of a counter's register. (assumption 10, DESIGN CHOICE) -/
def bar0Of (k : Nat) : Nat :=
  if k < hubKey then 0x2000000 + k / 0x1000000 * 0x200000 + k % 0x1000000 else 0x1000000 + (k - hubKey)

/-- COUNTER_LOW_HALF_READ: a host's 4-byte read of a counter's lower half latches the upper half (R13).
(assumption 33, DEDUCED) -/
def execCounterLowHalfRead (p : Part) (key : Nat) (s : State) : Out :=
  if !isCounter key || !s.partValid p || s.stage != stageReady then .next s
  else .next (s.bar0Read p (bar0Of key) 4)

/-- POWER_MAX_READ: a host's read of Hub counter 416 returns the peak and clears it (R545). -/
def execPowerMaxRead (p : Part) (s : State) : Out :=
  if !s.partValid p || s.stage != stageReady then .next s else .next (s.bar0Read p (bar0Of (K.HUB_CTR 416)) 8)

end Sys2Proof.Machine
end

