-- ==== Sys2Proof/Machine/ForemanMem.lean ====
section
/-!
DEFINITION. The Foreman's loads and stores: scalar and descriptor registers, memory words under FE, and control blocks
(spec 10 R280, R281; 11 R320, R321; 21 R558-R561).
-/

namespace Sys2Proof.Machine

/-- The effective address s[RA] + sext(OFF), modulo 2^64 (R320). -/
def effAddr (base : Word) (off : BitVec 37) : Nat := (base + off.signExtend 64).toNat

/-- The key of a control-block address: of a Bench's block, or of the Hub's (R557). -/
def ctrlKey (a : Nat) : Option Nat :=
  if ctrlBase ≤ a ∧ a < ctrlBase + hubKey then some (a - ctrlBase)
  else if hubBase ≤ a ∧ a < hubBase + 0x1000000 then some (hubKey + (a - hubBase))
  else none

/-- Words an access touches. -/
def FmOp.words : FmOp → Nat
  | .ld => 1
  | .st => 1
  | .tld => 4
  | .tst => 4

def FmOp.reads : FmOp → Bool
  | .ld => true
  | .tld => true
  | _ => false

/-- The write of an access's next word: 8 bytes of it for ST, all of it for TST (R281, R321). -/
def FmAccess.write (f : FmAccess) : WrReq :=
  match f.op with
  | .tst =>
    ⟨f.addr / 16 + f.done, BitVec.ofNat 128 (bits f.value.toNat (128 * f.done) 128), allBits, f.fe, false, 1⟩
  | _ =>
    let sh := 8 * (f.addr % 16)
    ⟨f.addr / 16, (f.value.setWidth 128) <<< sh, ((BitVec.allOnes 64).setWidth 128) <<< sh, f.fe, false, 1⟩

/-- A finished access: a load's value is left pending in its register (R319). -/
def State.fmFinish (s : State) (b : Bid) (f : FmAccess) : State :=
  match f.op with
  | .ld => s.pendWrite b f.reg (BitVec.ofNat 64 (bits (f.got.headD 0).toNat (8 * (f.addr % 16)) 64))
  | .tld =>
    let v := ofBytes (f.got.flatMap fun l => toBytes 16 l.toNat)
    s.onFm b fun x => { x with pend := x.pend ++ [.t (f.reg.setWidth 4) (BitVec.ofNat 512 v)] }
  | _ => s

/-- How far an access came. -/
inductive FmRes
  | ok (s : State)
  | wait (f : FmAccess) (s : State)
  | failed (s : State)

/-- An access's words performed in order until one waits or is refused, each charged its slots in the NORMAL class (R254, R255);
bits read from a poisoned word are a free value (R281, assumption 4, DESIGN CHOICE). -/
def fmRun (w : Who) : Nat → FmAccess → State → FmRes
  | 0, f, s => .ok (s.fmFinish w.b f)
  | n + 1, f, s =>
    if f.op.reads then
      match s.access w ⟨f.addr / 16 + f.done, f.fe, none, 1⟩ with
      | .ok g s =>
        let s := s.charge w.part true [(f.addr / 16 + f.done, 1, 16)]
        let (l, s) := if g.poison then s.drawLine else (g.data, s)
        fmRun w n { f with got := f.got ++ [l], done := f.done + 1 } s
      | .wait s => .wait f s
      | .refused s => .failed s
    else
      match s.store w f.write with
      | .ok _ s => fmRun w n { f with done := f.done + 1 } (s.charge w.part false [(f.write.word, 1, f.write.bytes)])
      | .wait s => .wait f s
      | .refused s => .failed s

/-- A memory access at dispatch: what cannot be performed yet stalls the Foreman as its parked access (R213, R281).
(assumption 26, DEDUCED) -/
def fmMem (op : FmOp) (reg : BitVec 5) (a : Nat) (fe : BitVec 2) (value : Desc) (c : Fm) (s : State) : Disp :=
  let f : FmAccess := ⟨op, reg, a, fe, value, [], 0, c.op.pc, c.op.mark, c.op.opcode⟩
  match fmRun (c.who s) op.words f s with
  | .ok s => .done s
  | .wait f s =>
    let wn := f.addr / 16 + f.done
    .done ((s.park wn (!inSram (16 * wn))).onFm c.b fun x => { x with parked := some f })
  | .failed s => .failed s .addrUnmapped

/-- The record of a Foreman access to the control block of a Bench whose lower base die is absent (R560).
(assumption 26, DEDUCED) -/
def Fm.refuse (c : Fm) (s : State) (a : Nat) : State := s.refuse (c.who s) a

/-- The register at a key as a Foreman finds it: another Bench's curve segments are no address that it reaches (R558, R563). -/
def Fm.finds (c : Fm) (s : State) (k : Nat) : RegAcc :=
  match s.regFind c.part false k with
  | .ok r is => if r.base = K.CRV_SEG 0 0 0 ∧ is.getD 0 0 ≠ c.b.val then .refused else .ok r is
  | x => x

/-- A load from a register: its value is left pending; reserved words read zero (R560, R561). -/
def ldReg (rd : BitVec 5) (a k : Nat) (c : Fm) (s : State) : Disp :=
  match c.finds s k with
  | .ok _ _ => let (v, s) := s.readFull k; .done (s.pendWrite c.b rd v)
  | .reserved => .done (s.pendWrite c.b rd 0)
  | .refused => .fault .addrUnmapped
  | .absent _ => .failed (c.refuse s a) .addrUnmapped

/-- A store to a register, by the Foreman's rights; any other is ignored (R280, R560, R561). -/
def stReg (v : Word) (a k : Nat) (c : Fm) (s : State) : Disp :=
  match c.finds s k with
  | .ok r is =>
    let src : Src := .foreman c.b c.part
    .done (if s.mayWrite src r is then s.actWrite src c.at_ r is k v else s)
  | .reserved => .done s
  | .refused => .fault .addrUnmapped
  | .absent _ => .failed (c.refuse s a) .addrUnmapped

/-- An 8-byte access: aligned, below 2^48, inside the partition's windows (R281, R320, R558). -/
def fm8 (op : FmOp) (reg : BitVec 5) (a : Nat) (fe : BitVec 2) (value : Word) (c : Fm) (s : State) : Disp :=
  if a % 8 ≠ 0 then .fault .addrAlign
  else
    match ctrlKey a with
    | some k => if op.reads then ldReg reg a k c s else stReg value a k c s
    | none =>
      if a < 2 ^ 48 && s.inWindow c.part a then fmMem op reg a fe (value.setWidth 512) c s else .fault .addrUnmapped

/-- A 64-byte access: aligned, in Bench SRAM of the partition (R321). -/
def fm64 (op : FmOp) (reg : BitVec 4) (a : Nat) (fe : BitVec 2) (value : Desc) (c : Fm) (s : State) : Disp :=
  if a % 64 ≠ 0 then .fault .addrAlign
  else if inSram a && s.inWindow c.part a then fmMem op (reg.setWidth 5) a fe value c s
  else .fault .addrUnmapped

/-- LD: s[RD] := the 8 bytes at s[RA] + sext(OFF), arriving later (R281, R319, R320). -/
def execLd (h : Issue) (rd ra : BitVec 5) (fe : BitVec 2) (off : BitVec 37) (s : State) : Out :=
  issue h 1 (opcodeOf 0 0x18)
    (valid (fe != 3) (waitS [ra, rd] fun c s => fm8 .ld rd (effAddr ((s.fm c.b).getS ra) off) fe 0 c s)) s

/-- ST: the 8 bytes at s[RA] + sext(OFF) := s[RS] (R281, R320). -/
def execSt (h : Issue) (rs ra : BitVec 5) (fe : BitVec 2) (off : BitVec 37) (s : State) : Out :=
  issue h 1 (opcodeOf 0 0x19)
    (valid (fe != 3) (waitS [ra, rs] fun c s => fm8 .st rs (effAddr ((s.fm c.b).getS ra) off) fe ((s.fm c.b).getS rs) c s)) s

/-- TLD: t[RD] := the 64 bytes at s[RA] + sext(OFF), arriving together later (R319, R321). -/
def execTld (h : Issue) (td : BitVec 4) (ra : BitVec 5) (fe : BitVec 2) (off : BitVec 37) (s : State) : Out :=
  issue h 1 (opcodeOf 0 0x1A)
    (valid (fe != 3) (waitT [td] (waitS [ra] fun c s => fm64 .tld td (effAddr ((s.fm c.b).getS ra) off) fe 0 c s))) s

/-- TST: the 64 bytes at s[RA] + sext(OFF) := t[RS] (R321). -/
def execTst (h : Issue) (ts : BitVec 4) (ra : BitVec 5) (fe : BitVec 2) (off : BitVec 37) (s : State) : Out :=
  issue h 1 (opcodeOf 0 0x1B)
    (valid (fe != 3) (waitT [ts] (waitS [ra] fun c s => fm64 .tst ts (effAddr ((s.fm c.b).getS ra) off) fe ((s.fm c.b).getT ts) c s))) s

end Sys2Proof.Machine
end

