-- ==== Sys2Proof/Machine/Mailbox.lean ====
section
/-!
DEFINITION. The management mailbox, roles and authentication, the messages, firmware staging, and the SPDM responder (spec 15
R433; 19 R506-R509, R525-R537).
-/

namespace Sys2Proof.Machine

/-! ## Roles (R528) -/

def State.chan (s : State) (c : Chan) : ChanSt := s.mgmt.chans[c]
def State.setChan (s : State) (c : Chan) (x : ChanSt) : State := { s with mgmt := { s.mgmt with chans := s.mgmt.chans.set c x } }

/-- The partition whose function a mailbox channel belongs to. -/
def chanPart (c : Chan) : Part := ⟨c.val % 4, by omega⟩
/-- OPERATOR: the mailbox of the function of a valid partition (R528). -/
def State.isOperator (s : State) (c : Chan) : Bool := c.val < 4 && s.partValid (chanPart c)
/-- INSTALLER rights, which MAKER holds as well (R528). -/
def State.isInstaller (s : State) (c : Chan) : Bool := (s.chan c).role.isSome
def State.isMaker (s : State) (c : Chan) : Bool := (s.chan c).role == some .maker
/-- The role of a channel as the audit log codes it (R536). (assumption 65, DEDUCED) -/
def State.roleCode (s : State) (c : Chan) : Nat :=
  match (s.chan c).role with
  | some .maker => 3
  | some .installer => 2
  | none => if s.isOperator c then 1 else 0

/-- Who may send a message (R532). -/
inductive Need | any | operator | operatorInstaller | installer | maker
  deriving DecidableEq, Repr

def State.allowed (s : State) (c : Chan) : Need → Bool
  | .any => true
  | .operator => s.isOperator c
  | .operatorInstaller => s.isOperator c || s.isInstaller c
  | .installer => s.isInstaller c
  | .maker => s.isMaker c

/-! ## Results (R531) -/

def rOk : Nat := 0
def rInProgress : Nat := 1
def rUnknown : Nat := 2
def rDenied : Nat := 3
def rInvalid : Nat := 4
def rState : Nat := 5
def rBadSignature : Nat := 6
def rLocked : Nat := 7
def rRollback : Nat := 8
def rFlashError : Nat := 9

/-- The numbers of the messages (R532). -/
def messages : List Nat :=
  [0x01, 0x02, 0x03, 0x04, 0x05, 0x06, 0x10, 0x11, 0x12, 0x20, 0x21, 0x22, 0x23, 0x24, 0x25, 0x26, 0x27, 0x28, 0x30, 0x31, 0x32]
/-- Requests that write an audit entry (R535). -/
def audited (msg : Nat) : Bool := msg == 0x05 || msg == 0x11 || (0x20 ≤ msg && msg ≤ 0x28) || (0x30 ≤ msg && msg ≤ 0x32)

/-! ## Answers (R433, R531) -/

/-- The response region: the header, and the payload from its offset 0x40 (R531). -/
def response (m : MbReq) (code : Nat) (payload : List Byte) : List Byte :=
  toBytes 8 (pack [(0, 16, m.msg.toNat), (16, 16, m.tag.toNat), (32, 8, code)]).toNat ++ toBytes 8 payload.length
    ++ toBytes 48 0 ++ payload

/-- A request answered: the response is written, ANSWERED set and the mailbox vector raised; over MCTP and I3C the answer travels
in a message (R433, R531). (assumption 64, DEDUCED) -/
def State.answer (s : State) (m : MbReq) (code : Nat) (payload : List Byte) : State :=
  let box : Mailbox := ⟨code == rInProgress, true, code, m.msg, m.tag, response m code payload⟩
  if m.chan.val < 4 then
    (s.onHport (chanPart m.chan) fun h => { h with mbx := box }).raise (chanPart m.chan) (mailboxVec (chanPart m.chan))
  else { s with mgmt := { s.mgmt with mctp := tput s.mgmt.mctp m.chan.val { box with busy := false } } }

/-- Requests at the head that name no message are answered UNKNOWN, in turn (R530, R532). -/
def State.answerUnknown : List MbReq → State → State
  | [], s => s
  | m :: rest, s =>
    if messages.contains m.msg.toNat then s
    else State.answerUnknown rest ((s.onMgmt fun m => { m with service := rest }).answer m rUnknown [])

/-- A request joins those waiting, in arrival order; one rung while BUSY is ignored (R433, R530). (assumption 64, DEDUCED) -/
def State.submit (s : State) (m : MbReq) : State :=
  let p := chanPart m.chan
  if !s.pwr.mainOn || (m.chan.val < 4 && (s.hport p).mbx.busy) then s
  else
    let s := if m.chan.val < 4 then s.onHport p fun h => { h with mbx := { h.mbx with busy := true } } else s
    let s := s.onMgmt fun y => { y with service := y.service ++ [m] }
    State.answerUnknown s.mgmt.service s

/-- MB_STATUS: BUSY, ANSWERED and the result code (R433). -/
def Mailbox.status (m : Mailbox) : Word :=
  pack [(0, 1, if m.busy then 1 else 0), (1, 1, if m.answered then 1 else 0), (8, 8, m.result)]

/-- The byte at an offset of BAR4, where the spec gives it: those of MB_STATUS and of the response written (R433). -/
def Mailbox.byte (m : Mailbox) (a : Nat) : Option Byte :=
  if 8 ≤ a ∧ a < 16 then (toBytes 8 m.status.toNat)[a - 8]? else if 0x80000 ≤ a then m.resp[a - 0x80000]? else none

/-- A read of BAR4; a byte that the spec gives no value, of the request or past the response, reads as a free value (R433).
(assumption 79, DESIGN CHOICE) -/
def State.bar4Read (s : State) (p : Part) (off size : Nat) : State :=
  let (l, s) := (List.range size).foldl (fun (x : List Byte × State) i =>
    match (s.hport p).mbx.byte (off + i) with
    | some b => (x.1 ++ [b], x.2)
    | none => let (f, t) := x.2.drawWord; (x.1 ++ [f.setWidth 8], t)) ([], s)
  s.onHport p fun h => { h with answer := some (.data (ofBytes l) false) }

/-! ## Serving (R510, R514, R516, R530, R535) -/

/-- Whether a message is accepted in this stage: the ROM serves GET_INFO; RECOVERY and FAILED only what R510 lists, and RECOVERY for
want of an image also what R513 adds. (assumption 64, DEDUCED) -/
def State.accepts (s : State) (m : MbReq) : Bool :=
  let n := m.msg.toNat
  if s.stage = stageRom ∨ s.stage = stageFirmware then n == 0x01
  else if s.stage = stageRecovery ∨ s.stage = stageFailed then
    n == 0x01 || n == 0x30 || (n == 0x10 && m.arg0 == 3) || n == 0x11 || n == 0x12
      || ((n == 0x21 || n == 0x22) && s.stage == stageRecovery && s.buildRec.isSome)
  else true

/-- The checks every request passes: its header, the stage and its role (R510, R531, R532).
(assumption 64, DEDUCED) -/
def State.generalCheck (s : State) (m : MbReq) (need : Need) : Nat :=
  if 520192 < m.len.toNat || m.zero != 0 || m.payload.length != m.len.toNat then rInvalid
  else if !s.accepts m then rState
  else if !s.allowed m.chan need then rDenied
  else rOk

/-- An entry of the audit log for a request (R535, R536). -/
def State.auditReq (s : State) (m : MbReq) (code : Nat) : State :=
  if !audited m.msg.toNat then s
  else
    let key := if m.msg = 0x11 then m.arg0.toNat else if (s.chan m.chan).role.isSome then (s.chan m.chan).key else 0
    s.auditEntry (s.roleCode m.chan) m.chan.val key m.msg.toNat code m.arg0 m.arg1 m.payload

/-- The row that a REG_WRITE of BMC_ROW takes from a partition, while it is being zeroed (R253). -/
def State.rowAwaited (s : State) (m : MbReq) : Option Nat :=
  (s.bulk.zeroing.find? fun e => m.msg.toNat == 0x20 && e.1 < 96 && K.BMC_ROW e.1 == hubKey + m.arg0.toNat && e.2 == m.arg1).map Prod.fst

/-- The end of a request: answered, or, where its operation takes longer, answered as in progress until MAILBOX_OPERATION_END
(R433); a write that takes a row from a partition is answered when the row is zeroed (R253). -/
def State.finish (s : State) (m : MbReq) (long : Bool) (code : Nat) (payload : List Byte) : State :=
  match if code = rOk then s.rowAwaited m else none with
  | some r => { s with mgmt := { s.mgmt with zeroReq := s.mgmt.zeroReq ++ [(r, m)] } }
  | none =>
  let (later, s) := if long && code == rOk then s.drawBool else (false, s)
  if later then
    (s.onMgmt fun x => { x with working := x.working ++ [(m.chan, m)] }).answer m rInProgress []
  else s.answer m code payload

/-- Whether a request's audit entry cannot be written (R535). -/
def State.entryFails (s : State) (m : MbReq) : Bool := audited m.msg.toNat && s.mgmt.flash.failing

/-- Whether the next audit entry can be written is open again after each request that needs one (R535).
(assumption 90, DESIGN CHOICE) -/
def State.nextEntry (s : State) (m : MbReq) : State :=
  if audited m.msg.toNat then let (f, s) := s.drawBool; s.onFlash fun x => { x with failing := f } else s

/-- The request at the head served, if it is this message: checked, entered in the audit log before it takes effect, performed
and answered; one whose entry cannot be written is refused with FLASH_ERROR and has no effect (R530, R535). `check` is the message's
own check; `run` performs it, given the result. (assumption 64, DEDUCED) -/
def State.serve (s : State) (msg : Nat) (need : Need) (long : Bool) (check : State → MbReq → Nat)
    (run : State → MbReq → Nat → List Byte × State) : State :=
  match s.mgmt.service with
  | [] => s
  | m :: rest =>
    if m.msg.toNat ≠ msg || !s.pwr.mainOn || !s.hubCore mgmtCore then s
    else
      let s := s.onMgmt fun m => { m with service := rest }
      let general := s.generalCheck m need
      if s.entryFails m then
        let s := (s.nextEntry m).answer m rFlashError []
        State.answerUnknown s.mgmt.service s
      else
        let code := if general = rOk then check s m else general
        let s := (s.auditReq m code).nextEntry m
        let (payload, s) := if general = rOk then run s m code else ([], s)
        let s := s.finish m long code payload
        State.answerUnknown s.mgmt.service s

def noCheck (_ : State) (_ : MbReq) : Nat := rOk
/-- A message that acts only when it is accepted, and answers no payload. -/
def acting (f : State → MbReq → State) (s : State) (m : MbReq) (code : Nat) : List Byte × State :=
  ([], if code = rOk then f s m else s)
/-- A message that only answers a payload. -/
def reading (f : State → MbReq → List Byte) (s : State) (m : MbReq) (code : Nat) : List Byte × State :=
  (if code = rOk then f s m else [], s)

/-- MAILBOX_OPERATION_END: an operation answered as in progress ends, and its end is answered (R433).
(assumption 64, DEDUCED) -/
def execMailboxOperationEnd (c : Chan) (s : State) : Out :=
  match s.mgmt.working.find? fun e => e.1 == c with
  | none => .next s
  | some e =>
    .next ((s.onMgmt fun m => { m with working := m.working.erase e }).answer e.2 rOk [])

/-- A row's zeros written at BULK priority on each of the stacks it lies on (R253, R254). -/
def State.chargeZeros (s : State) : State :=
  (List.finRange 8).foldl (fun s k => if s.stackOk k.val then s.slotsUsed k 2 (2 ^ 30 / 512) (2 ^ 30) else s) s

/-- ROW_ZERO_DONE: a row that leaves a partition is zeroed, the write takes effect, and the INSTALLER's request is answered (R253).
Where a condition of the write has ceased to hold meanwhile, the write is ignored as any other that does not meet them, and the
row keeps its contents. (assumption 46, DEDUCED; assumption 86, DESIGN CHOICE) -/
def execRowZeroDone (row : Fin 96) (s : State) : Out :=
  match s.bulk.zeroing.find? fun e => e.1 == row.val with
  | none => .next s
  | some e =>
    let s := s.onBulk fun b => { b with zeroing := b.zeroing.filter fun x => x.1 != row.val }
    let s := if s.rowBad row.val e.2 then s.setRb (K.BMC_ROW row) F.BMC_ROW_REFUSED true
      else ((s.zeroRow row.val).setRow row.val e.2).chargeZeros
    let reqs := s.mgmt.zeroReq.filter fun x => x.1 == row.val
    let s := s.onMgmt fun m => { m with zeroReq := m.zeroReq.filter fun x => x.1 != row.val }
    .next (reqs.foldl (fun (s : State) x => s.answer x.2 rOk []) s)

/-! ## Any channel, and OPERATOR (R532, R534) -/

/-- The longest payload that the response region holds (R433, R531). -/
def maxPayload : Nat := 0x7FFC0
/-- Words in a layout that the specification leaves open (assumption 6, DESIGN CHOICE). -/
def laidOut (msg : Nat) (ws : List Word) : List Byte := (Config.layout msg ws).take maxPayload

def imageWords : Option Image → List Word
  | some i => [BitVec.ofNat 64 i.version, BitVec.ofNat 64 i.svn]
  | none => [0, 0]

/-- GET_INFO: serial, order code, SLOT_ID, BOOT_STAT, version and SVN of both slots, identity public key (R532). -/
def execGetInfo (s : State) : Out :=
  .next (s.serve 0x01 .any false noCheck (reading fun s _ =>
    let (serial, order) : Word × Word := match s.buildRec with
      | some r => (r.serial, if r.order384 then 1 else 0)
      | none => (0, 0)
    let f := s.mgmt.flash
    let key := (List.range 4).map fun i => (Config.publicKey (s.mgmt.secret.map identitySeed) >>> (64 * i)).setWidth 64
    laidOut 0x01 ([serial, order, Config.slotId.setWidth 64, s.reg K.BOOT_STAT] ++ imageWords f.slots[0]
      ++ imageWords f.slots[1] ++ key)))

/-- The FP registers in address order (R540, R541). -/
def State.planWords (s : State) : List Word :=
  [s.reg K.FP_MODULE, s.reg K.FP_HUBCORES]
    ++ (List.range 16).flatMap fun b => [s.reg (K.FP_BENCH0 b), s.reg (K.FP_BENCH1 b)]

/-- GET_FLOORPLAN: the FP registers as one image (R532). -/
def execGetFloorplan (s : State) : Out :=
  .next (s.serve 0x02 .any false noCheck (reading fun s _ => laidOut 0x02 s.planWords))

/-- SET_HOST_TIME: the partition's host time word; an INSTALLER names the partition (R532, R534). -/
def execSetHostTime (s : State) : Out :=
  .next (s.serve 0x03 .operatorInstaller false
    (fun s m => if s.isInstaller m.chan && 4 ≤ m.arg1.toNat then rInvalid else rOk)
    (acting fun s m =>
      let p : Part := if s.isInstaller m.chan then ⟨m.arg1.toNat % 4, by omega⟩ else chanPart m.chan
      let s := s.setReg (K.HOST_TIME p) m.arg0
      s.onMgmt fun y => { y with lastTime := m.arg0 }))

/-- READ_RECORDS: up to 4,096 records of the module log from an index: the partition's own for OPERATOR, all for INSTALLER
(R532). (assumption 67, DEDUCED) -/
def execReadRecords (s : State) : Out :=
  .next (s.serve 0x04 .operatorInstaller false noCheck (reading fun s m =>
    let mine := if s.isInstaller m.chan then s.errs.log
      else s.errs.log.filter fun r => (s.affected r).contains (chanPart m.chan)
    ((mine.drop m.arg0.toNat).take 4096).flatMap wordBytes))

/-- The unit that ARG0 and ARG1 name (R532). -/
def unitOf (m : MbReq) : UnitId := ⟨m.arg0.toNat, fld m.arg1 0 6, fld m.arg1 6 12⟩

/-- REQUEST_PROOF: a Proof of a unit of the requester's partition becomes pending (R460, R532). -/
def execRequestProof (s : State) : Out :=
  .next (s.serve 0x05 .operator false
    (fun s m =>
      if m.arg0.toNat < 16 && s.owns (chanPart m.chan) (bidOf m.arg0.toNat)
          && (s.proofUnits (bidOf m.arg0.toNat)).contains (unitOf m) then rOk else rInvalid)
    (acting fun s m => s.askProof ⟨unitOf m, some (chanPart m.chan), false, false, false⟩))

/-- REQUEST_REMOVAL: the partition's RELEASE bit (R495, R532). -/
def execRequestRemoval (s : State) : Out :=
  .next (s.serve 0x06 .operator false noCheck (acting fun s m => s.release (chanPart m.chan)))

/-! ## Authentication (R529) -/

/-- The role that a request names: 2 INSTALLER, 3 MAKER (R529). -/
def roleOf (m : MbReq) : Role := if m.arg0 = 3 then .maker else .installer

/-- AUTH_BEGIN: the answer is a fresh 32-byte nonce, or LOCKED for 10 minutes after five failed proofs; `lockOver` says that those
10 minutes are over (R529). (assumption 65, DEDUCED) -/
def execAuthBegin (lockOver : Bool) (s : State) : Out :=
  .next (s.serve 0x10 .any false
    (fun s m =>
      if (s.chan m.chan).locked && !lockOver then rLocked
      else if m.arg0 != 2 && m.arg0 != 3 then rInvalid else rOk)
    (fun s m code =>
      let c := s.chan m.chan
      let c := if c.locked && lockOver then { c with locked := false, fails := 0 } else c
      let s := s.setChan m.chan c
      if code ≠ rOk then ([], s)
      else
        let (a, s) := s.drawWord
        let (b, s) := s.drawWord
        let (d, s) := s.drawWord
        let (e, s) := s.drawWord
        let n : BitVec 256 := a ++ b ++ d ++ e
        (toBytes 32 n.toNat, s.setChan m.chan { c with nonce := some (n, roleOf m) })))

/-- Keys that the build record holds for a role; without a build record any index may stand for a key (R508, R510).
(assumption 65, DEDUCED) -/
def State.keysOf (s : State) (r : Role) : Nat :=
  match s.buildRec with
  | some b => (if r = .maker then b.makerKeys else b.installerKeys).length
  | none => 32

/-- AUTH_PROVE: the nonce is good for 60 s and one proof; a valid signature grants the role, and five failed proofs within 10
minutes lock the channel. `ok` says that the signature holds under the key named, `fresh` that the nonce is not too old, and
`older` how many failures have left the 10 minutes (R529).
(assumption 6, DESIGN CHOICE; assumption 65, DEDUCED) -/
def execAuthProve (ok fresh : Bool) (older : Nat) (s : State) : Out :=
  .next (s.serve 0x11 .any false
    (fun s m =>
      match (s.chan m.chan).nonce with
      | none => rState
      | some (_, r) => if !fresh then rState else if ok && m.arg0.toNat < s.keysOf r then rOk else rBadSignature)
    (fun s m code =>
      let c := s.chan m.chan
      match c.nonce with
      | none => ([], s)
      | some (_, r) =>
        let c := { c with nonce := none }
        let maker := if r = .maker then 2 else 0
        if code = rOk then ([], (s.setChan m.chan { c with role := some r, key := m.arg0.toNat }).countH (422 + maker) 1)
        else if code = rBadSignature then
          let n := c.fails - older + 1
          ([], (s.setChan m.chan { c with fails := n, locked := c.locked || 5 ≤ n }).countH (423 + maker) 1)
        else ([], s.setChan m.chan c)))

/-- AUTH_END: the channel's role ends (R529). -/
def execAuthEnd (s : State) : Out :=
  .next (s.serve 0x12 .any false noCheck (acting fun s m => s.setChan m.chan { s.chan m.chan with role := none }))

/-- AUTH_IDLE_EXPIRY: 15 minutes without a request end a channel's role; its nonce and lock are over by then (R529).
(assumption 31, DESIGN CHOICE; assumption 65, DEDUCED) -/
def execAuthIdleExpiry (c : Chan) (s : State) : Out :=
  .next (s.setChan c { s.chan c with role := none, nonce := none, fails := 0, locked := false })

/-! ## Register writes (R509) -/

/-- Whether an INSTALLER's write reaches a field (R509, R561). -/
def installerWrites (r : RegRow) (f : FieldRow) : Bool :=
  f.acc == .rwi || (f.acc != .ro && f.acc != .rc &&
    (r.writer == .installer || (r.writer == .special && (r.base == K.RST_CMD || r.base == K.BENCH_PWR 0))))
/-- The bits of a register that an INSTALLER writes, and those that the site record holds.
(assumption 66, DEDUCED) -/
def installerBits (r : RegRow) : Word :=
  r.fields.foldl (fun m f => if installerWrites r f then m ||| maskAt f.f.lo f.f.w else m) 0
def siteBits (r : RegRow) : Word :=
  r.fields.foldl (fun m f => if installerField r f then m ||| maskAt f.f.lo f.f.w else m) 0

/-- The register that REG_WRITE names by its Hub offset, if it has an INSTALLER field (R532). -/
def regNamed (m : MbReq) : Option (Nat × RegRow × List Nat) :=
  let k := hubKey + m.arg0.toNat
  if 0x1000000 ≤ m.arg0.toNat || m.arg0.toNat % 8 ≠ 0 then none
  else match regAt regMap k with
    | some (r, is) => if installerBits r = 0 then none else some (k, r, is)
    | none => none

/-- The copy of the site record to write next: the one that does not hold the newest valid record (R507). -/
def State.siteCopy (s : State) : Bool :=
  let f := s.mgmt.flash
  let seq (r : Option SiteRec) : Option Nat := (r.filter fun x => x.auth == s.mgmt.helper && f.siteCtr ≤ x.seq).map SiteRec.seq
  !newest (seq f.site[0]) (seq f.site[1])

/-- A new site record that holds a register's INSTALLER fields, and the site counter at its SEQ; without its keys the module
writes none (R507, R509, R525). (assumption 66, DEDUCED) -/
def State.writeSite (s : State) (k : Nat) (v : Word) : State :=
  if !s.mgmt.identityOk then s
  else
    let f := s.mgmt.flash
    let old := match s.siteRec with | some x => x.regs | none => []
    let new : SiteRec := ⟨f.siteCtr + 1, s.mgmt.helper, tput old k v⟩
    s.onFlash fun f =>
      { f with siteCtr := f.siteCtr + 1, site := if s.siteCopy then f.site.set 1 (some new) else f.site.set 0 (some new) }

/-- What the site record holds of a register once a write has been taken: its fields as they stand, or, for a row still being
zeroed, as they will (R253, R509). (assumption 66, DEDUCED) -/
def State.siteWord (s : State) (k : Nat) (r : RegRow) (is : List Nat) (v : Word) : Word :=
  let pending := r.base == K.BMC_ROW 0 && s.bulk.zeroing.contains (is.getD 0 0, v)
  (if pending then v else s.reg k) &&& siteBits r

/-- REG_WRITE: a write of INSTALLER fields; the site record is written, the counter advances, and the write takes effect; a value
with a bit outside those fields is INVALID (R509, R532). (assumption 66, DEDUCED) -/
def execRegWrite (s : State) : Out :=
  .next (s.serve 0x20 .installer true
    (fun _ m =>
      match regNamed m with
      | none => rInvalid
      | some (_, r, _) => if m.arg1 &&& ~~~ installerBits r != 0 then rInvalid else rOk)
    (acting fun s m =>
      match regNamed m with
      | none => s
      | some (k, r, is) =>
        let t := s.actWrite .installer (s.storeFault 0) r is k m.arg1
        if siteBits r = 0 || r.writer == .special && r.base != K.REM_CTL && r.base != K.BENCH_PWR 0 then t
        else t.writeSite k (t.siteWord k r is m.arg1)))

/-! ## Firmware (R532, R533) -/

/-- Bytes of a firmware slot (R506). -/
def slotBytes : Nat := 0x8000000

/-- FW_STAGE: image bytes for the slot that is not ACTIVE; the first after READY or an FW_ACTIVATE erases it and clears PENDING
(R533). (assumption 67, DEDUCED) -/
def execFwStage (s : State) : Out :=
  .next (s.serve 0x21 .installer true
    (fun _ m => if slotBytes < m.arg0.toNat + m.payload.length then rInvalid else rOk)
    (acting fun s m =>
      let s := if s.mgmt.stageOpen then s
        else
          let s := (s.onFlash fun f =>
            { f.setSlot (!f.active) none with pendingSlot := none, tried := f.tried && f.pendingSlot != some !f.active }).showSlots
          s.onMgmt fun m => { m with staged := [], stageOpen := true }
      s.onMgmt fun y => { y with staged := y.staged ++ [(m.arg0.toNat, m.payload)] }))

/-- What FW_ACTIVATE answers for a staged image (R533). -/
def Flash.judge (f : Flash) (r : BuildRec) (i : Image) : Nat :=
  if !imageSigned i r || !i.orders.contains r.order384 then rBadSignature else if i.svn < f.svnMin then rRollback else rOk

/-- FW_ACTIVATE: the staged image, `img` as its bytes spell it, is verified, and PENDING set to its slot; it boots at the next
module reset or power-on (R533). (assumption 67, DEDUCED) -/
def execFwActivate (img : Image) (s : State) : Out :=
  .next (s.serve 0x22 .installer true
    (fun s _ => match s.mgmt.staged, s.buildRec with
      | _ :: _, some r => s.mgmt.flash.judge r img
      | _, _ => rState)
    (fun s _ code =>
      if code = rState then ([], s)
      else
        let s := (s.onFlash fun f =>
          let g := f.setSlot (!f.active) (some img)
          if code = rOk then { g with pendingSlot := some !f.active } else g).showSlots
        ([], { s with mgmt := { s.mgmt with staged := [], stageOpen := false } })))

/-- FW_COMMIT: SVN_MIN takes the running image's SVN; ROLLBACK if that would lower it (R532).
(assumption 67, DEDUCED) -/
def execFwCommit (s : State) : Out :=
  .next (s.serve 0x23 .installer true
    (fun s _ => match s.mgmt.running with
      | none => rState
      | some i => if i.svn < s.mgmt.flash.svnMin then rRollback else rOk)
    (acting fun s _ => match s.mgmt.running with
      | none => s
      | some i => (s.onFlash fun f => { f with svnMin := i.svn }).showSlots))

/-! ## Units, ports and power (R458, R495, R497, R532) -/

/-- Whether a unit is in the published floor plan. -/
def State.unitInPlan (s : State) (u : UnitId) : Bool :=
  if u.bench < 16 then
    s.planUnit (bidOf u.bench) u.cls u.index
      || (u.cls == ucBank && u.index < 64 && (s.rf (K.FP_BENCH1 u.bench) F.FP_BENCH1_BANKS).testBit u.index)
  else u.bench == hubNo &&
    ((u.cls == ucPort && u.index < 16 && (s.rf K.FP_MODULE F.FP_MODULE_PORTS).testBit u.index)
      || (u.cls == ucStack && u.index < 8 && (s.rf K.FP_MODULE F.FP_MODULE_STACKS).testBit u.index)
      || (u.cls == ucHubCore && u.index < 32 && (s.rf K.FP_HUBCORES F.FP_HUBCORES_CORES).testBit u.index)
      || (u.cls == ucBaseDie && u.index < 32 &&
        s.rb (K.FP_BENCH0 (u.index / 2)) (if u.index % 2 = 0 then F.FP_BENCH0_LOWER else F.FP_BENCH0_UPPER)))

/-- RETIRE_UNIT: the unit becomes RETIRE_PENDING (R458, R532). -/
def execRetireUnit (s : State) : Out :=
  .next (s.serve 0x24 .installer false (fun s m => if s.unitInPlan (unitOf m) then rOk else rInvalid)
    (acting fun s m => s.pendUnit (unitOf m)))

/-- RETRAIN_PORT: a port of the plan, FAILED or not, trains again; STATE while its partition has an epoch in force (R338, R532). -/
def execRetrainPort (s : State) : Out :=
  .next (s.serve 0x25 .installer true
    (fun s m =>
      let n := m.arg0.toNat
      if !(n < 16 && (match s.buildRec with | some r => s.portBuilt r n | none => false)) then rInvalid
      else match s.portOwner ⟨n % 16, by omega⟩ with
        | some p => if s.epochOn p then rState else rOk
        | none => rOk)
    (acting fun s m =>
      let n : PortNo := ⟨m.arg0.toNat % 16, by omega⟩
      let s := s.onPort n fun q => { PortSt.reset with lanes := q.lanes, outbox := q.outbox }
      s.setRf (K.FAB_PORT n) F.FAB_PORT_STATE 2))

/-- STANDBY: entered with ARG0 at 1 only while every Foreman is STOPPED; left with ARG0 at 0, by a module reset (R477, R497).
(assumption 67, DEDUCED) -/
def execStandby (s : State) : Out :=
  .next (s.serve 0x26 .installer false
    (fun s m =>
      let on := s.rf K.PWR_STAT F.PWR_STAT_STATE == 2
      if m.arg0 = 1 then
        (if on || !s.ready || !(allBids.all fun b => decide ((s.fm b).st = FmState.stopped)) then rState else rOk)
      else if m.arg0 = 0 then (if on then rOk else rState)
      else rInvalid)
    (acting fun s m => if m.arg0 = 1 then s.enterStandby else s.requestReset (moduleReq cCmd)))

/-- REMOVE: the INSTALLER's request for orderly removal stands (R495, R532).
(assumption 67, DEDUCED) -/
def execRemove (s : State) : Out := .next (s.serve 0x27 .installer false noCheck (acting fun s _ => s.removalStands))

/-- AUDIT_READ: up to 2,047 entries from a SEQ (R532, R536). -/
def execAuditRead (s : State) : Out :=
  .next (s.serve 0x28 .installer false noCheck (reading fun s m =>
    ((s.mgmt.flash.audit.filter fun e => m.arg0.toNat ≤ e.seq).take 2047).flatMap AuditEnt.bytes))

/-! ## MAKER (R507, R508, R532) -/

/-- The copy of the build record to write next (R507). -/
def State.buildCopy (s : State) : Bool :=
  let f := s.mgmt.flash
  let seq (r : Option BuildRec) : Option Nat := (r.filter fun x => x.signedOk).map BuildRec.seq
  !newest (seq f.build[0]) (seq f.build[1])

/-- New PUF helper data written to the copy that does not hold the newest (R506, R507). -/
def Flash.putHelper (f : Flash) (h : Option (List Byte)) : Vector (Option HelperRec) 2 :=
  match h with
  | none => f.helper
  | some l =>
    let a := f.helper[0].map HelperRec.seq
    let b := f.helper[1].map HelperRec.seq
    let new : HelperRec := ⟨Nat.max (a.getD 0) (b.getD 0) + 1, l⟩
    if newest a b then f.helper.set 0 (some new) else f.helper.set 1 (some new)

/-- WRITE_BUILD_RECORD: the record, `r` as the payload spells it, is verified and written to the other copy, with its helper
data; the next boot takes it (R506-R508, R532). (assumption 67, DEDUCED) -/
def execWriteBuildRecord (r : BuildRec) (s : State) : Out :=
  .next (s.serve 0x30 .maker true (fun _ _ => if r.signedOk then rOk else rBadSignature)
    (acting fun s _ =>
      let c := s.buildCopy
      let s := s.onFlash fun f =>
        { f with build := if c then f.build.set 1 (some r) else f.build.set 0 (some r), helper := f.putHelper r.helper }
      s.onMgmt fun m => { m with buildWritten := true }))

/-- CLEAR_HISTORY: the fault history of a unit, or of all, is cleared; a retired unit returns at the next reset that covers it
(R458, R532). (assumption 67, DEDUCED) -/
def execClearHistory (s : State) : Out :=
  .next (s.serve 0x31 .maker true
    (fun _ m => if m.arg0 = BitVec.allOnes 64 || (m.arg0.toNat ≤ 16 && (unitOf m).cls ≤ ucBaseDie) then rOk else rInvalid)
    (acting fun s m =>
      let hit (u : UnitId) : Bool := m.arg0 == BitVec.allOnes 64 || u == unitOf m
      let h := s.health
      { s with health := { h with
          hist := h.hist.filter fun e => !hit e.1
          restore := h.restore ++ h.retired.filter fun u => hit u && !h.restore.contains u } }))

/-- TEST_MODE: maker test modes; while one is enabled BOOT_STAT.TEST is 1 and START is ignored (R532). -/
def execTestMode (s : State) : Out :=
  .next (s.serve 0x32 .maker false noCheck (acting fun s m =>
    (s.onMgmt fun x => { x with testMode := m.arg0.toNat }).setRb K.BOOT_STAT F.BOOT_STAT_TEST (m.arg0 != 0)))

/-! ## SPDM (R525-R527) -/

/-- An answer of the SPDM responder of an MCTP endpoint. -/
def State.spdm (s : State) (c : Chan) (a : SpdmAnswer) : State :=
  let old := tget [] s.mgmt.spdm c.val
  s.onMgmt fun m => { m with spdm := tset [] m.spdm c.val (old ++ [a]) }

/-- An ERROR answer; the specification gives no code (assumption 4, DESIGN CHOICE). -/
def State.spdmError (s : State) (c : Chan) : State :=
  let (w, s) := s.drawWord
  s.spdm c (.error (fld w 0 8))

/-- An SPDM request at an endpoint: the functions' links and I3C serve it; in RECOVERY and FAILED no SPDM message is accepted
(R510, R526). (assumption 68, PRESUMED) -/
def State.onSpdm (s : State) (c : Chan) (f : State → State) : State :=
  if c.val < 4 || !s.pwr.mainOn || (c.val < 8 && !s.hostUp (chanPart c)) || !s.hubCore securityCore then s
  else if s.stage = stageRom ∨ s.stage = stageFirmware ∨ s.stage = stageRecovery ∨ s.stage = stageFailed then s.spdmError c
  else f s

/-- GET_VERSION: SPDM 1.3 (R526). (assumption 68, PRESUMED) -/
def execGetVersion (c : Chan) (s : State) : Out := .next (s.onSpdm c fun s => s.spdm c (.version 0x13))

/-- GET_CAPABILITIES: CERT_CAP, CHAL_CAP, MEAS_CAP with signature (R526). -/
def execGetCapabilities (c : Chan) (s : State) : Out := .next (s.onSpdm c fun s => s.spdm c (.capabilities true true true))

/-- NEGOTIATE_ALGORITHMS: Ed25519 and SHA-512 (R526). -/
def execNegotiateAlgorithms (c : Chan) (s : State) : Out := .next (s.onSpdm c fun s => s.spdm c (.algorithms true true))

/-- A key as words. -/
def keyWords (n : BitVec 256) : List Word := (List.range 4).map fun i => (n >>> (64 * i)).setWidth 64

/-- The content of the build record in force, as what its bytes depend on (R508). -/
def State.buildWords (s : State) : List Word :=
  match s.buildRec with
  | none => []
  | some r => [BitVec.ofNat 64 r.seq, r.serial, if r.order384 then 1 else 0, r.module, r.hubCores, BitVec.ofNat 64 r.envelope,
      BitVec.ofNat 64 r.bifur, BitVec.ofNat 64 r.makerKeys.length, BitVec.ofNat 64 r.installerKeys.length]
    ++ (r.benches.flatMap fun e => [e.1, e.2]) ++ r.trims ++ r.baseline ++ (r.makerKeys ++ r.installerKeys).flatMap keyWords
    ++ r.chain.map fun b => b.setWidth 64

/-- The content of the running image, as what its bytes depend on (R512). -/
def imageContent : Option Image → List Word
  | some i => imageWords (some i) ++ (i.orders.map fun o => if o then 1 else 0)
    ++ (i.segments.flatMap fun (g : Segment) => [BitVec.ofNat 64 g.cls, BitVec.ofNat 64 g.offset, BitVec.ofNat 64 g.len]
      ++ (List.range 8).map fun (j : Nat) => (g.digest >>> (64 * j)).setWidth 64)
    ++ (match i.signer with | some k => keyWords k | none => [])
  | none => []

/-- The identity certificate chain, DER, at most 8 KiB, which the build record holds (R508). -/
def State.certChain (s : State) : List Byte := (match s.buildRec with | some r => r.chain | none => []).take 8192

/-- GET_DIGESTS: slot 0 alone holds a chain (R526). -/
def execGetDigests (c : Chan) (s : State) : Out :=
  .next (s.onSpdm c fun s => s.spdm c (.digests 1 (Config.sha512 s.certChain)))

/-- GET_CERTIFICATE: a portion of slot 0's chain, with its bytes; another slot is an error (R526). -/
def execGetCertificate (c : Chan) (slot off len : Nat) (s : State) : Out :=
  .next (s.onSpdm c fun s =>
    if slot ≠ 0 then s.spdmError c else s.spdm c (.certificate slot off ((s.certChain.drop off).take len)))

/-- CHALLENGE: signed with the identity key; without it, an error (R525, R526).
(assumption 68, PRESUMED) -/
def execChallenge (c : Chan) (slot : Nat) (nonce : BitVec 256) (s : State) : Out :=
  .next (s.onSpdm c fun s =>
    if slot ≠ 0 || !s.mgmt.identityOk then s.spdmError c
    else s.spdm c (.challengeAuth nonce (s.idSign (Config.layout 0x109 (keyWords nonce)))))

/-- A measurement block's value (R527). (assumption 68, PRESUMED) -/
def State.measure (s : State) (i : Nat) : BitVec 512 :=
  if i = 1 then Config.sha512 (Config.layout 0x101 [])
  else if i = 2 then Config.sha512 (Config.layout 0x102 s.buildWords)
  else if i = 3 then Config.sha512 (Config.layout 0x103 (imageContent s.mgmt.running))
  else if i = 4 then
    ((imageWords s.mgmt.running).getD 0 0).setWidth 512 ||| (((imageWords s.mgmt.running).getD 1 0).setWidth 512 <<< 64)
      ||| (BitVec.ofNat 512 s.mgmt.flash.svnMin <<< 128)
  else if i = 5 then
    match s.siteRec with
    | some x =>
      let l := Config.layout 0x105 (BitVec.ofNat 64 x.seq :: x.regs.flatMap fun (e : Nat × Word) => [BitVec.ofNat 64 e.1, e.2])
      Config.sha512 (l ++ toBytes 64 (hmac512 (siteKey (s.mgmt.secret.getD 0)) l).toNat)
    | none => Config.sha512 []
  else if i = 6 then Config.sha512 (s.planWords.flatMap fun w => toBytes 8 w.toNat)
  else BitVec.ofNat 512 (s.rf K.BOOT_STAT ⟨0, 12⟩)

/-- GET_MEASUREMENTS: the number of blocks (index 0), one block, or all of them (index 0xFF), signed with the identity key;
without it, or for another index, an error (R525-R527). (assumption 68, PRESUMED) -/
def execGetMeasurements (c : Chan) (index : Nat) (nonce : BitVec 256) (s : State) : Out :=
  .next (s.onSpdm c fun s =>
    if !s.mgmt.identityOk || (7 < index && index ≠ 0xFF) then s.spdmError c
    else
      let is := if index = 0 then [] else if index = 0xFF then [1, 2, 3, 4, 5, 6, 7] else [index]
      let blocks := is.map fun i => (i, s.measure i)
      let said := keyWords nonce ++ blocks.flatMap fun (e : Nat × BitVec 512) =>
        BitVec.ofNat 64 e.1 :: (List.range 8).map fun (j : Nat) => (e.2 >>> (64 * j)).setWidth 64
      s.spdm c (.measurements (is.headD 0) (if index = 0 then 7 else is.length) blocks (s.idSign (Config.layout 0x10A said))))

/-! ## BAR4 and the endpoints (R433, R516, R526) -/

/-- MB_DOORBELL: a request is submitted; the host clears ANSWERED, or reads BAR4; all through an endpoint that is configured, or
I3C. At an endpoint, an SPDM request that the module does not support is answered with ERROR UnsupportedRequest (R433, R516,
R526). (assumption 64, DEDUCED; assumption 68, PRESUMED for its code) -/
def execMbDoorbell (a : Bar4) (s : State) : Out :=
  .next (match a with
    | .submit m => if m.chan = 8 || s.endpointUp then s.submit m else s
    | .clear p => s.onHport p fun h => { h with mbx := { h.mbx with answered := false } }
    | .read p off size => if s.pwr.mainOn && s.endpointUp then s.bar4Read p off size else s
    | .unsupported c => s.onSpdm c fun s => s.spdm c (.error 0x07))

end Sys2Proof.Machine
end

