-- ==== Sys2Proof/Machine/Memory.lean ====
section
/-!
DEFINITION. Requests as banks and stacks serve them one by one: the ports of a Bench's units, arbitration, parked requests and
their retries, the wait limit, stack slots by class, copies of protected pages, and view reads (spec 08 R205-R215, R236; 09
R252-R262).
-/

namespace Sys2Proof.Machine

/-! ## Ports and their next requests (R205, R206) -/

/-- A port that issues requests in order: an instruction in progress on a unit, an array's tile load, streamed row or drain, a
bucket, or the Foreman. -/
inductive Port
  | run (q : Fin 8) (u : Nat)
  | load (u : Fin 12)
  | row (u : Fin 12)
  | drain (u : Fin 12)
  | bucket (id : BitVec 32)
  | fm
  deriving DecidableEq, Repr

/-- The writes of an instruction in progress once all it reads has been read, computed by its engine. -/
def State.runWrites (s : State) (b : Bid) (r : Running) : List WrReq :=
  if r.computed then r.writes
  else if r.q = 4 then wedgeWrites r
  else if r.q = 5 then scrWrites r
  else if r.q = 1 then (if haulRemote r.e = 0 then haulWrites r else [])
  else if r.q = 7 then
    (if isPush r.e then (s.stash b (s.cat b (stkEntry r.e))).writes (s.pushDest b r).1 else State.popWrites b s r)
  else []

/-- An indexed Hauler instruction whose indices have been read, and whose slices have not been asked for. -/
def Running.indexed (r : Running) : Bool := r.q == 1 && isIndexed r.e && r.scales.isEmpty

/-- The words of the row an array streams next that are still to be read (R75). -/
def State.rowPlan (s : State) (b : Bid) (u : Fin 12) : List RdReq :=
  let a := s.arr b u
  match a.stream, a.front with
  | some j, some _ =>
    if j.m ≤ j.updated || a.held (j.a0 + j.updated) then []
    else if a.rowPlanned then a.rowReads
    else planReads j.memClass (tensorOf j.e.descA) ((List.range j.k).map fun x => opIndex j.f.ta (j.m0 + j.updated) (j.k0 + x)) a.rowGot
  | _, _ => []

/-- The words of the row an array drains next that are still to be written (R78). -/
def State.drainPlan (s : State) (b : Bid) (u : Fin 12) : List WrReq :=
  let a := s.arr b u
  match a.drainJob with
  | some j => if a.drainPlanned then a.drainWrites else drainWrites (tensorOf j.e.descDrain) j j.drained a
  | none => []

/-- The requests of a bucket that neither an earlier bucket's nor its own earlier ones hold back: the Weighbridge is one requester
(R205, R257). -/
def State.bucketAsks (s : State) (b : Bid) (k : Bucket) : List Ask :=
  openAsks (s.olderAsks b k.id) k.wants

/-- A port's next request. -/
def State.portNext (s : State) (b : Bid) : Port → Option Ask
  | .run q u =>
    match s.active b q u with
    | none => none
    | some r =>
      match r.reads with
      | x :: _ => some (.rd x)
      | [] => if !r.remote.isEmpty || r.indexed then none else (s.runWrites b r).head?.map .wr
  | .load u => match (s.arr b u).load with | some _ => (s.arr b u).loadReads.head?.map .rd | none => none
  | .row u => (s.rowPlan b u).head?.map .rd
  | .drain u => (s.drainPlan b u).head?.map .wr
  | .bucket id =>
    match s.bucket b id with
    | none => none
    | some k =>
      let l := s.bucketAsks b k
      match l.find? s.performable with | some a => some a | none => l.head?
  | .fm =>
    match (s.fm b).parked with
    | none => none
    | some f => if f.op.reads then some (.rd ⟨f.addr / 16 + f.done, f.fe, none, 1⟩) else some (.wr f.write)

/-- The ports of a Bench. (assumption 19, DEDUCED) -/
def State.ports (s : State) (b : Bid) : List Port :=
  .fm :: ((List.finRange 12).flatMap fun u => [.row u, .drain u, .load u])
    ++ ((s.bench b).run.map fun r => .run r.q r.unit) ++ ((s.wgh b).buckets.map fun k => .bucket k.id)

/-- Whether a port's request is parked at its bank (R213). (assumption 19, DEDUCED) -/
def State.portParked (s : State) (b : Bid) (p : Port) : Bool :=
  match p with
  | .run q u => match (s.bench b).running q u with | some r => r.parked | none => false
  | .load u => (s.arr b u).parked
  | .row u => (s.arr b u).parked
  | .drain u => (s.arr b u).parked
  | .bucket _ => match s.portNext b p with | some a => !s.performable a | none => false
  | .fm => (s.fm b).parked.isSome

/-- The ports of a Bench that have a request, with it. -/
def State.wants (s : State) (b : Bid) : List (Port × Ask) :=
  (s.ports b).filterMap fun p => (s.portNext b p).map fun a => (p, a)

/-- A requester's number: Cutters, Dressers, Wedges, Screens, Haulers, Weighbridge, Stockpile, Foreman, Proof core, and 30 for
the chip network ingress (R205). (assumption 27, DEDUCED; assumption 40, DESIGN CHOICE) -/
def requesterNo : Port → Nat
  | .run q u => if q = 4 then 12 + u else if q = 5 then 16 + u else if q = 1 then 18 + u else 27
  | .load u => u.val
  | .row u => u.val
  | .drain u => u.val
  | .bucket _ => 26
  | .fm => 28

/-- The requests of a Bench's ports that no earlier one of the same requester holds back; an array streams and drains for older
instructions than it loads for (R206, R257). -/
def State.openWants (s : State) (b : Bid) : List (Port × Ask) := go [] (s.wants b)
where
  go : List (Port × Ask) → List (Port × Ask) → List (Port × Ask)
    | _, [] => []
    | before, x :: rest =>
      let l := go (x :: before) rest
      if before.any fun y => requesterNo y.1 == requesterNo x.1 && y.2.behind x.2 then l else x :: l

/-! ## One request performed -/

/-- The instruction of an array's port. -/
def State.portJob (s : State) (b : Bid) : Port → Option ArrJob
  | .load u => (s.arr b u).load
  | .row u => (s.arr b u).stream
  | .drain u => (s.arr b u).drainJob
  | _ => none

/-- Who a port's requests are made by. -/
def State.portWho (s : State) (b : Bid) (p : Port) : Who :=
  let p0 := (s.partOf b).getD 0
  match p with
  | .run q u =>
    match (s.bench b).running q u with
    | some r => r.e.who s b q u
    | none => ⟨b, p0, 0, 0, none, false⟩
  | .load u => match (s.arr b u).load with | some j => j.who s b u | none => ⟨b, p0, arrClass u, arrNum u, none, false⟩
  | .row u => match (s.arr b u).stream with | some j => j.who s b u | none => ⟨b, p0, arrClass u, arrNum u, none, false⟩
  | .drain u => match (s.arr b u).drainJob with | some j => j.who s b u | none => ⟨b, p0, arrClass u, arrNum u, none, false⟩
  | .bucket id => match s.bucket b id with | some k => k.who s b | none => ⟨b, p0, ucWeighbridge, 0, none, false⟩
  | .fm =>
    let op := (s.fm b).parked.map fun f => (⟨f.opcode, f.pc, f.mark⟩ : OpInfo)
    ⟨b, p0, ucForeman, 0, op, s.rf (K.STEP_STATE b) F.STEP_STATE_PHASE == 1⟩

/-- A port's instruction ends with a fault (R215, R252). -/
def State.portFail (s : State) (b : Bid) (p : Port) (c : FCode) : State :=
  match p with
  | .run q u => match (s.bench b).running q u with | some r => s.failRunning b r c | none => s
  | .bucket id => match s.bucket b id with | some k => s.wghFail b k c | none => s
  | .fm =>
    match (s.fm b).parked with
    | some f => (s.onFm b fun x => { x with parked := none }).fault ⟨b, 0, 0, ⟨f.opcode, f.pc, f.mark⟩⟩ c
    | none => s
  | .load u => match (s.arr b u).load with | some j => s.failArr b u j c | none => s
  | .row u => match (s.arr b u).stream with | some j => s.failArr b u j c | none => s
  | .drain u => match (s.arr b u).drainJob with | some j => s.failArr b u j c | none => s

/-- A port's request parked at its bank, counted once (R213, R544). -/
def State.portPark (s : State) (b : Bid) (p : Port) : State :=
  let s := match s.portNext b p with | some a => s.park a.word (s.portParked b p) | none => s
  match p with
  | .run q u => match (s.bench b).running q u with | some r => s.setRunning b { r with parked := true } | none => s
  | .load u => s.setArr b u { s.arr b u with parked := true }
  | .row u => s.setArr b u { s.arr b u with parked := true }
  | .drain u => s.setArr b u { s.arr b u with parked := true }
  | .bucket _ => s
  | .fm => s

/-- A word that a port's read has brought. -/
def State.portGot (s : State) (b : Bid) (p : Port) (plan : List RdReq) (r : RdReq) (g : Got) : State :=
  match p with
  | .run q u =>
    match (s.bench b).running q u with
    | none => s
    | some x =>
      let x := { x with reads := x.reads.drop 1, got := tput x.got r.word g, parked := false }
      s.setRunning b (if x.reads.isEmpty && x.indexed then { x with scales := [1], reads := sliceReads x } else x)
  | .load u =>
    let a := s.arr b u
    s.setArr b u { a with loadReads := a.loadReads.drop 1, loadGot := tput a.loadGot r.word g, parked := false }
  | .row u =>
    let a := s.arr b u
    s.setArr b u { a with rowReads := plan.drop 1, rowGot := tput a.rowGot r.word g, rowPlanned := true, parked := false }
  | .bucket id => s.onBucket b id fun k => { k with reads := k.reads.erase r, got := tput k.got r.word g }
  | .drain _ => s
  | .fm => s

/-- A word that a port has written; `plan` is what it had to write. -/
def State.portPut (s : State) (b : Bid) (p : Port) (plan : List WrReq) (w : WrReq) : State :=
  match p with
  | .run q u =>
    match (s.bench b).running q u with
    | some x => s.setRunning b { x with computed := true, writes := plan.drop 1, parked := false }
    | none => s
  | .drain u =>
    let a := s.arr b u
    s.setArr b u { a with drainWrites := plan.drop 1, drainPlanned := true, parked := false }
  | .bucket id => (s.onBucket b id fun k => { k with writes := k.writes.erase w }).shadeOlder b id [w]
  | _ => s

/-- The writes of a port that are still to come, its next among them. -/
def State.portWrites (s : State) (b : Bid) : Port → List WrReq
  | .run q u => match (s.bench b).running q u with | some r => s.runWrites b r | none => []
  | .drain u => s.drainPlan b u
  | _ => []

/-- The Foreman's parked access goes on (R213, R281). (assumption 19, DEDUCED) -/
def State.fmRetry (s : State) (b : Bid) : Bool × State :=
  match (s.fm b).parked with
  | none => (false, s)
  | some f =>
    match fmRun (s.portWho b .fm) (f.op.words - f.done) f s with
    | .ok s => (true, s.onFm b fun x => { x with parked := none })
    | .wait f s => (false, s.onFm b fun x => { x with parked := some f })
    | .failed s => (false, s.portFail b .fm .addrUnmapped)

/-- A port's next request performed, parked or refused; whether it was performed. -/
def State.portStep (s : State) (b : Bid) (p : Port) : Bool × State :=
  match p, s.portNext b p with
  | _, none => (false, s)
  | .fm, some _ => s.fmRetry b
  | _, some (.rd r) =>
    let plan := match p with | .row u => s.rowPlan b u | _ => []
    match s.access (s.portWho b p) r with
    | .ok g s' => (true, s'.portGot b p plan r g)
    | .wait s' => (false, s'.portPark b p)
    | .refused s' => (false, s'.portFail b p .addrUnmapped)
  | _, some (.wr w) =>
    let plan := s.portWrites b p
    match s.store (s.portWho b p) w with
    | .ok _ s' => (true, s'.portPut b p plan w)
    | .wait s' => (false, if inSram (16 * w.word) then s'.portPark b p else s')
    | .refused s' => (false, s'.portFail b p .addrUnmapped)

/-- What one grant has moved: its words, and the bytes they carry. -/
structure Moved where
  words : Nat
  bytes : Nat
  deriving DecidableEq, Repr

/-- Bytes that a request moves. -/
def Ask.bytes : Ask → Nat
  | .rd _ => 16
  | .wr w => w.bytes

/-- One grant: a port's next requests of one kind to one 512-byte line, at most 32 words, in the order issued (R203, R206,
R254). -/
def State.grantLine (b : Bid) (p : Port) (line : Nat) (read : Bool) : Nat → Moved → State → Moved × State
  | 0, m, s => (m, s)
  | n + 1, m, s =>
    match s.portNext b p with
    | none => (m, s)
    | some a =>
      if a.word / 32 ≠ line || a.isRead != read then (m, s)
      else
        match s.portStep b p with
        | (true, s') => State.grantLine b p line read n ⟨m.words + 1, m.bytes + a.bytes⟩ s'
        | (false, s') => (m, s')

/-- An upset that a word meets as it is read: a correctable one stands in the word until the read decodes it, so that one read
counts one correction (R207-R209). -/
def State.meets (s : State) (wn : Nat) (upset : Upset) : State :=
  match upset with
  | .clean => s
  | .symbol sym x =>
    let m := s.mark wn
    if m.poison then s.decodeWord wn upset else s.setMark wn { m with upset := upsetJoin m.upset (.symbol sym x) }
  | _ => s.decodeWord wn upset

/-! ## Banks (R205) -/

/-- Requests that a bank of Bench b may grant: those not parked, and the parked ones whose word's bit now allows them; by requester
number, Bench of the port, port and request (R205, R213). (assumption 27, DEDUCED) -/
def State.bankWants (s : State) (b : Bid) (bank : Nat) : List (Nat × Bid × Port × Ask) :=
  allBids.flatMap fun c =>
    (s.openWants c).filterMap fun x =>
      let a := x.2.addr
      if inSram a && benchOf a == b && bankOf a == bank && (!s.portParked c x.1 || s.performable x.2) then
        some (if c = b then requesterNo x.1 else 30, c, x.1, x.2)
      else none

/-- The request of the requester granted least recently. (assumption 40, DESIGN CHOICE) -/
def leastRecent (when : Nat → Nat) : List (Nat × Bid × Port × Ask) → Option (Nat × Bid × Port × Ask)
  | [] => none
  | x :: rest =>
    match leastRecent when rest with
    | none => some x
    | some y => some (if when x.1 ≤ when y.1 then x else y)

/-- Whether two or more requesters wait at a bank. -/
def contended (l : List (Nat × Bid × Port × Ask)) : Bool := 2 ≤ ((l.map Prod.fst).eraseDups).length

/-- BANK_REQUEST_GRANT: the bank grants the waiting requester it has granted least recently: 1 to 32 words of one line, in a cycle
that is counted where others wait (R203, R205-R209, R544). (assumption 18, DEDUCED) -/
def execBankRequestGrant (b : Bid) (bank : Fin 64) (upset : Upset) (s : State) : Out :=
  let when (n : Nat) : Nat := tget 0 (s.bench b).lru (bank.val * 31 + n)
  match leastRecent when (s.bankWants b bank.val) with
  | none => .next s
  | some (n, c, p, a) =>
    let s := if contended (s.bankWants b bank.val) then s.countB b 117 1 else s
    let s := s.noteGrant c n a.word
    .next (State.grantLine c p (a.word / 32) a.isRead 32 ⟨0, 0⟩ (if a.isRead then s.meets a.word upset else s)).2

/-! ## Parked requests (R213, R215, R284) -/

/-- Whether a port belongs to a requester of its own Bench. -/
def Requester.owns (w : Requester) (p : Port) : Bool :=
  match w, p with
  | .cutter n, .load u => u.val == n.val
  | .cutter n, .row u => u.val == n.val
  | .cutter n, .drain u => u.val == n.val
  | .dresser n, .load u => u.val == 4 + n.val
  | .dresser n, .row u => u.val == 4 + n.val
  | .dresser n, .drain u => u.val == 4 + n.val
  | .wedge n, .run q u => q == 4 && u == n.val
  | .screen n, .run q u => q == 5 && u == n.val
  | .hauler n, .run q u => q == 1 && u == n.val
  | .stockpile, .run q _ => q == 7
  | .weighbridge, .bucket _ => true
  | .foreman, .fm => true
  | _, _ => false

/-- The parked requests of a requester: of Bench b's own units, or, for the chip network, those of other Benches' units to
words of Bench b. (assumption 20, DEDUCED) -/
def State.parkedOf (s : State) (b : Bid) (w : Requester) : List (Bid × Port × Ask) :=
  let of (c : Bid) (keep : Port × Ask → Bool) : List (Bid × Port × Ask) :=
    ((s.wants c).filter fun x => keep x && s.portParked c x.1).map fun x => (c, x)
  match w with
  | .network =>
    (allBids.filter (· != b)).flatMap fun c => of c fun x => inSram x.2.addr && benchOf x.2.addr == b
  | _ => of b fun x => Requester.owns w x.1

/-- The waits of a Bench's Foreman that are parked: its gates on words (R284). -/
def Foreman.wordGates (f : Foreman) : List Gate := f.gates.filter fun g => match g.kind with | .word .. => true | _ => false

/-- OPERAND_WAIT_RETRY: a requester's parked request is tried again, and the bank grants it where its word's bit now allows it;
other requesters that wait then count as granted less recently. A Foreman with none parked tries its waits again (R205, R213,
R284). (assumption 40, DESIGN CHOICE) -/
def execOperandWaitRetry (b : Bid) (who : Requester) (s : State) : Out :=
  match (s.parkedOf b who).find? fun x => s.performable x.2.2 with
  | some (c, p, a) =>
    .next (State.grantLine c p (a.word / 32) a.isRead 32 ⟨0, 0⟩ (s.noteGrant c (requesterNo p) a.word)).2
  | none => .next (if who = .foreman then (s.fm b).wordGates.foldl (fun (s : State) g => s.waitTry b g.id) s else s)

/-- A SYNC.WAIT that waited beyond the limit: its fault is the Foreman's, and its gates stay closed (R215, R284).
(assumption 23, DEDUCED) -/
def State.gateTimeout (s : State) (b : Bid) (g : Gate) : State :=
  (s.onFm b fun f => { f with gates := f.gates.filter fun x => x.id != g.id }).fault ⟨b, 0, 0, ⟨opcodeOf 8 3, g.pc, g.mark⟩⟩
    .waitTimeout

/-- WAIT_TIMEOUT: with a limit set, a request parked beyond it ends its instruction with WAIT_TIMEOUT; what it has written stays
(R215, R240). The limit and the status bit are those of the requester's own Bench, whichever Bench's bank the request is parked at
(assumption 86, DESIGN CHOICE). (assumption 31, DESIGN CHOICE) -/
def execWaitTimeout (b : Bid) (who : Requester) (s : State) : Out :=
  if s.rf (K.BMEM_CTL b) F.BMEM_CTL_WAIT_LIMIT = 0 || who = .network then .next s
  else
    let noted (s : State) : State := s.setRb (K.BMEM_STAT b) F.BMEM_STAT_WAIT_TIMEOUT true
    match (s.parkedOf b who).find? fun x => !s.performable x.2.2 with
    | some (_, p, _) => .next ((noted s).portFail b p .waitTimeout)
    | none =>
      match (if who = .foreman then (s.fm b).wordGates else []) with
      | g :: _ => .next ((noted s).gateTimeout b g)
      | [] => .next s

/-- Whether a SYNC.WAIT of any Bench waits on one of some words (R284). -/
def State.gateOn (s : State) (ws : List Nat) : Bool :=
  allBids.any fun c => (s.fm c).gates.any fun g => match g.kind with | .word a _ _ => ws.contains (a / 16) | _ => false

/-- The words on which commands of host queues are parked: a WAIT's, and the next one that a COPY_OUT reads under FE WAIT (R213,
R427). -/
def State.hostParked (s : State) : List Nat :=
  s.host.queues.flatMap fun x => x.2.cmds.filterMap fun c =>
    if !c.begun || c.status.isSome then none
    else if c.opc = 5 then some (c.wordAt / 16)
    else
      let wn := c.dev / 16 + c.moved
      if c.opc = 3 && c.mode == 0 && c.moved < c.len && inSram (16 * wn) && !s.full wn then some wn else none

/-- STK_POP_ESCALATE: with any request parked on a word of the pop's destination, a SYNC.WAIT's or a host queue's among them, its
remaining reads go at CRITICAL (R213, R236, R284, R427). (assumption 20, DEDUCED) -/
def execStkPopEscalate (b : Bid) (s : State) : Out :=
  match (s.bench b).running 7 0 with
  | none => .next s
  | some r =>
    if isPush r.e then .next s
    else
      let ws := (r.e.tensor 0).words
      let waits := allBids.any fun c => (s.wants c).any fun x =>
        s.portParked c x.1 && !s.performable x.2 && ws.contains x.2.word
      .next (if waits || s.gateOn ws || s.hostParked.any ws.contains then
          s.setRunning b { r with critical := true, reads := r.reads.map fun x => { x with cls := 0 } } else s)

/-! ## Stacks (R254-R258) -/

/-- The class of a request: 0 CRITICAL, 1 NORMAL, 2 BULK, 3 SCRUB (R255). (assumption 21, DEDUCED) -/
def Ask.memClass : Ask → Nat
  | .rd r => r.cls
  | .wr w => w.cls

/-- A port's number. (assumption 22, DEDUCED) -/
def portNo (b : Bid) (p : Port) : Nat :=
  (match p with
    | .run q u => 8 * q.val + u
    | .load u => 64 + u.val
    | .row u => 76 + u.val
    | .drain u => 88 + u.val
    | .bucket _ => 101
    | .fm => 100) + 128 * b.val

/-- Requests that wait at stack k. (assumption 22, DEDUCED) -/
def State.stackWants (s : State) (k : Nat) : List (Bid × Port × Ask) :=
  allBids.flatMap fun c =>
    (s.openWants c).filterMap fun x =>
      let a := x.2.addr
      if !inSram a && (s.stackOf ((s.partOf c).getD 0) a).1 == k && s.performable x.2 then some (c, x) else none

/-- The first word of stack k that waits for the rewrite of its corrected data (R258). -/
def State.stackRewrite (s : State) (k : Nat) : Option Nat :=
  (s.marks.find? fun e => e.2.waits && !inSram (16 * e.1) && s.stackAt (16 * e.1) == k).map Prod.fst

/-- The class served at a slot: the highest below its minimum, else the highest that waits (R256).
(assumption 22, DEDUCED) -/
def chooseClass (mins grants : List Nat) (waits : Nat → Bool) : Option Nat :=
  match (List.range 4).find? fun c => waits c && grants.getD c 0 < mins.getD c 0 with
  | some c => some c
  | none => (List.range 4).find? waits

/-- The minimum shares in priority order (R256, R266). -/
def State.minShares (s : State) : List Nat := let w := s.reg K.BMC_SHARE; [fld w 0 8, fld w 8 8, fld w 16 8, fld w 24 8]

/-- The class stack k serves next: among the waiting requests of the units, the rewrites and the patrol read that is due (R256,
R258). -/
def State.stackServes (s : State) (k : Fin 8) : Option Nat :=
  chooseClass s.minShares (s.stk k).grants fun c =>
    ((s.stackWants k.val).any fun x => x.2.2.memClass == c) || (c == 3 && s.hubCore (stackCore k.val)
      && ((s.stackRewrite k.val).isSome || (s.stk k).due))

/-- A stack's patrol reads the next granule in a SCRUB slot, and its pass ends with the last one (R258).
(assumption 45, DESIGN CHOICE) -/
def State.patrolStack (s : State) (k : Fin 8) : State :=
  let n := s.rowsInstalled * 2 ^ 30 / 512
  let g := (s.stk k).patrol
  let w := s.stackAddr k.val (512 * g) / 16
  let s := (List.range 32).foldl (fun s i => s.decodeWord (w + i) .clean) s
  let s := (s.slotsUsed k 3 1 512).onStk k fun x => { x with patrol := (g + 1) % n, due := false }
  if g + 1 < n then s
  else
    (s.setRf (K.BMC_STAT k) F.BMC_STAT_PASSES (s.rf (K.BMC_STAT k) F.BMC_STAT_PASSES + 1)).newInterval fun w =>
      !inSram (16 * w) && s.stackAt (16 * w) == k.val

/-- A SCRUB slot: the rewrite of a corrected word takes the next one, else the patrol read that is due (R258). -/
def State.scrubSlot (s : State) (k : Fin 8) : State :=
  match s.stackRewrite k.val with
  | some wn => (s.rewrite wn).slotsUsed k 3 1 16
  | none => if (s.stk k).due then s.patrolStack k else s

/-- STACK_PATROL_READ: with an interval set, the stack's next granule is due to be read, and is read at once where the stack would
serve SCRUB; else it waits for its slot. An upset stands in word `at_` of the granule (R256, R258). The stack's bulk memory core
makes the reads (R443).
(assumption 45, DESIGN CHOICE) -/
def execStackPatrolRead (k : Fin 8) (at_ : Fin 32) (upset : Upset) (s : State) : Out :=
  if s.rf K.BMC_SCRUB F.BMC_SCRUB_INTERVAL = 0 || !s.stackOk k.val || !s.hubCore (stackCore k.val) then .next s
  else
    let w := s.stackAddr k.val (512 * (s.stk k).patrol) / 16 + at_.val
    let s := (s.meets w upset).onStk k fun x => { x with due := true }
    .next (if s.stackServes k = some 3 then s.scrubSlot k else s)

/-- The requests at stack k with the oldest first, as the keys of their ports and words (R256). -/
def State.stackLine (s : State) (k : Fin 8) : List (Nat × Nat) :=
  let now := (s.stackWants k.val).map fun x => (portNo x.1 x.2.1, x.2.2.word)
  let old := (s.stk k).waiting.filter now.contains
  old ++ now.filter fun x => !old.contains x

/-- STACK_SLOT_GRANT: a slot of the stack serves a class under its minimum shares and priority, its oldest request first: a read
within a granule or a write of a whole one takes one slot, a write of part of one two; a Foreman's access is charged its own as it
is performed (R252, R254-R258). (assumption 18, DEDUCED) -/
def execStackSlotGrant (k : Fin 8) (upset : Upset) (s : State) : Out :=
  let line := s.stackLine k
  let s := s.onStk k fun x => { x with waiting := line }
  match s.stackServes k with
  | none => .next (s.onStk k Stack.idle)
  | some 3 => .next (s.scrubSlot k)
  | some c =>
    let mine := (s.stackWants k.val).filter fun x => x.2.2.memClass == c
    match line.findSome? fun i => mine.find? fun x => (portNo x.1 x.2.1, x.2.2.word) == i with
    | none => .next s
    | some (b, p, a) =>
      let (m, t) := State.grantLine b p (a.word / 32) a.isRead 32 ⟨0, 0⟩ (if a.isRead then s.meets a.word upset else s)
      .next (if p = .fm then t else t.slotsUsed k c (granuleCost a.isRead m.bytes) m.bytes)

/-! ## Protected pages and views (R261, R262) -/

/-- COW_PAGE_COPY: the first write to a protected page waits while the page is copied for every armed set that holds no copy;
with no free reserve page those sets break instead (R261, R262). (assumption 24, DEDUCED) -/
def execCowPageCopy (page : Nat) (s : State) : Out :=
  let writers := allBids.flatMap fun b => ((s.wants b).filter fun x =>
    !x.2.isRead && !inSram x.2.addr && pageOf x.2.addr == page && s.mayAccess ((s.partOf b).getD 0) x.2.addr).map fun x =>
      ((s.partOf b).getD 0, x.2.memClass)
  match writers.head? with
  | none => .next s
  | some (p, cls) =>
    if (s.needCopy p page).isEmpty || s.bulk.copying.contains page then .next s
    else
      let copied := (s.freeReserve p).isSome
      let s := s.protect p cls page
      .next (if copied then s.onBulk fun b => { b with copying := b.copying ++ [page] } else s)

/-- COW_COPY_DONE: the copy is complete, and the writes held for it proceed (R261).
(assumption 24, DEDUCED) -/
def execCowCopyDone (page : Nat) (s : State) : Out :=
  .next (s.onBulk fun b => { b with copying := b.copying.filter (· != page) })

/-- The export conversion of a partition whose next read is a view read of set 0 at an address. -/
def State.exportView (s : State) (p : Part) (addr : Nat) : Option (Bid × Port) :=
  (s.benchesOf p).findSome? fun b =>
    ((s.wants b).find? fun x => match x.2 with
      | .rd r => r.view == some 0 && r.word == addr / 16
      | .wr _ => false).map fun x => (b, x.1)

/-- VIEW_READ: a view read returns the recorded copy of a page where there is one, else the live page; of a broken set, poison. Set
0's are those of export conversions, the others' those of snapshot mirrors (R262). -/
def execViewRead (p : Part) (n : Fin 4) (addr : Nat) (s : State) : Out :=
  if n = 0 then
    match s.exportView p addr with
    | some (b, port) => .next (s.portStep b port).2
    | none => .next s
  else .next (s.mirView p n addr)

end Sys2Proof.Machine
end

