-- ==== Sys2Proof/Machine/Dispatch.lean ====
section
/-! DEFINITION. The one dispatch of the commands to their meanings. -/

namespace Sys2Proof.Machine

def exec (i : Instr) (s : State) : Host.Outcome State Fault Refusal :=
  match i with
  | .nop h => Sys2Proof.Machine.execNop h s
  | .add h rd ra rb => Sys2Proof.Machine.execAdd h rd ra rb s
  | .sub h rd ra rb => Sys2Proof.Machine.execSub h rd ra rb s
  | .and_ h rd ra rb => Sys2Proof.Machine.execAnd h rd ra rb s
  | .or_ h rd ra rb => Sys2Proof.Machine.execOr h rd ra rb s
  | .xor_ h rd ra rb => Sys2Proof.Machine.execXor h rd ra rb s
  | .shl h rd ra rb => Sys2Proof.Machine.execShl h rd ra rb s
  | .shr h rd ra rb => Sys2Proof.Machine.execShr h rd ra rb s
  | .sar h rd ra rb => Sys2Proof.Machine.execSar h rd ra rb s
  | .mul h rd ra rb => Sys2Proof.Machine.execMul h rd ra rb s
  | .mulhu h rd ra rb => Sys2Proof.Machine.execMulhu h rd ra rb s
  | .min_ h rd ra rb => Sys2Proof.Machine.execMin h rd ra rb s
  | .minu h rd ra rb => Sys2Proof.Machine.execMinu h rd ra rb s
  | .max_ h rd ra rb => Sys2Proof.Machine.execMax h rd ra rb s
  | .maxu h rd ra rb => Sys2Proof.Machine.execMaxu h rd ra rb s
  | .divu h rd ra rb => Sys2Proof.Machine.execDivu h rd ra rb s
  | .remu h rd ra rb => Sys2Proof.Machine.execRemu h rd ra rb s
  | .ceq h pd ra rb => Sys2Proof.Machine.execCeq h pd ra rb s
  | .cne h pd ra rb => Sys2Proof.Machine.execCne h pd ra rb s
  | .clt h pd ra rb => Sys2Proof.Machine.execClt h pd ra rb s
  | .cltu h pd ra rb => Sys2Proof.Machine.execCltu h pd ra rb s
  | .cge h pd ra rb => Sys2Proof.Machine.execCge h pd ra rb s
  | .cgeu h pd ra rb => Sys2Proof.Machine.execCgeu h pd ra rb s
  | .pand h pd pa pb => Sys2Proof.Machine.execPand h pd pa pb s
  | .por h pd pa pb => Sys2Proof.Machine.execPor h pd pa pb s
  | .pxor h pd pa pb => Sys2Proof.Machine.execPxor h pd pa pb s
  | .pandn h pd pa pb => Sys2Proof.Machine.execPandn h pd pa pb s
  | .addi h rd ra imm => Sys2Proof.Machine.execAddi h rd ra imm s
  | .andi h rd ra imm => Sys2Proof.Machine.execAndi h rd ra imm s
  | .ori h rd ra imm => Sys2Proof.Machine.execOri h rd ra imm s
  | .xori h rd ra imm => Sys2Proof.Machine.execXori h rd ra imm s
  | .shli h rd ra imm => Sys2Proof.Machine.execShli h rd ra imm s
  | .shri h rd ra imm => Sys2Proof.Machine.execShri h rd ra imm s
  | .sari h rd ra imm => Sys2Proof.Machine.execSari h rd ra imm s
  | .muli h rd ra imm => Sys2Proof.Machine.execMuli h rd ra imm s
  | .ceqi h pd ra imm => Sys2Proof.Machine.execCeqi h pd ra imm s
  | .clti h pd ra imm => Sys2Proof.Machine.execClti h pd ra imm s
  | .cltui h pd ra imm => Sys2Proof.Machine.execCltui h pd ra imm s
  | .imm64 h rd imm => Sys2Proof.Machine.execImm64 h rd imm s
  | .ld h rd ra fe off => Sys2Proof.Machine.execLd h rd ra fe off s
  | .st h rs ra fe off => Sys2Proof.Machine.execSt h rs ra fe off s
  | .tld h td ra fe off => Sys2Proof.Machine.execTld h td ra fe off s
  | .tst h ts ra fe off => Sys2Proof.Machine.execTst h ts ra fe off s
  | .tmov h td ta => Sys2Proof.Machine.execTmov h td ta s
  | .tset h td ra w => Sys2Proof.Machine.execTset h td ra w s
  | .tget h rd ta w => Sys2Proof.Machine.execTget h rd ta w s
  | .pendingValueArrives b desc r => Sys2Proof.Machine.execPendingValueArrives b desc r s
  | .br h off => Sys2Proof.Machine.execBr h off s
  | .call h off => Sys2Proof.Machine.execCall h off s
  | .jr h ra => Sys2Proof.Machine.execJr h ra s
  | .callr h ra => Sys2Proof.Machine.execCallr h ra s
  | .end_ h => Sys2Proof.Machine.execEnd h s
  | .foremanDrainComplete b => Sys2Proof.Machine.execForemanDrainComplete b s
  | .cutMm h f => Sys2Proof.Machine.execCutMm h f s
  | .drsMm h f => Sys2Proof.Machine.execDrsMm h f s
  | .arrayHeadCheck b u => Sys2Proof.Machine.execArrayHeadCheck b u s
  | .tileLoadStart b u => Sys2Proof.Machine.execTileLoadStart b u s
  | .tileLoadDone b u => Sys2Proof.Machine.execTileLoadDone b u s
  | .streamStart b u => Sys2Proof.Machine.execStreamStart b u s
  | .accumRowUpdate b u upset => Sys2Proof.Machine.execAccumRowUpdate b u upset s
  | .accumDrainRow b u => Sys2Proof.Machine.execAccumDrainRow b u s
  | .arrayInstrComplete b u => Sys2Proof.Machine.execArrayInstrComplete b u s
  | .operandWaitRetry b who => Sys2Proof.Machine.execOperandWaitRetry b who s
  | .cutCtlModeWrite b v => Sys2Proof.Machine.execCutCtlModeWrite b v s
  | .cutModeSwitchDone b => Sys2Proof.Machine.execCutModeSwitchDone b s
  | .wdgCvt h f => Sys2Proof.Machine.execWdgCvt h f s
  | .wdgRot h f => Sys2Proof.Machine.execWdgRot h f s
  | .wdgBegin b => Sys2Proof.Machine.execWdgBegin b s
  | .wdgComplete b u upset => Sys2Proof.Machine.execWdgComplete b u upset s
  | .vtabEntryWrite b t q v => Sys2Proof.Machine.execVtabEntryWrite b t q v s
  | .validate b t w => Sys2Proof.Machine.execValidate b t w s
  | .invalidate b t => Sys2Proof.Machine.execInvalidate b t s
  | .exportOpen p => Sys2Proof.Machine.execExportOpen p s
  | .exportClose p => Sys2Proof.Machine.execExportClose p s
  | .exportSessionActivate p => Sys2Proof.Machine.execExportSessionActivate p s
  | .exportSessionClosed p => Sys2Proof.Machine.execExportSessionClosed p s
  | .plmEval h => Sys2Proof.Machine.execPlmEval h s
  | .plmSnapshot b => Sys2Proof.Machine.execPlmSnapshot b s
  | .plmPartitionSums p => Sys2Proof.Machine.execPlmPartitionSums p s
  | .plmEvaluate p differs => Sys2Proof.Machine.execPlmEvaluate p differs s
  | .apply p => Sys2Proof.Machine.execApply p s
  | .resetLoss p => Sys2Proof.Machine.execResetLoss p s
  | .plmLossWrite p v => Sys2Proof.Machine.execPlmLossWrite p v s
  | .plmSetCmd p v => Sys2Proof.Machine.execPlmSetCmd p v s
  | .scrMapCopy h ssel da dd tid => Sys2Proof.Machine.execScrMapCopy h ssel da dd tid s
  | .scrMapAdd h ssel da db dd tid => Sys2Proof.Machine.execScrMapAdd h ssel da db dd tid s
  | .scrMapSub h ssel da db dd tid => Sys2Proof.Machine.execScrMapSub h ssel da db dd tid s
  | .scrMapMul h ssel da db dd tid => Sys2Proof.Machine.execScrMapMul h ssel da db dd tid s
  | .scrMapFma h ssel da db dc dd tid => Sys2Proof.Machine.execScrMapFma h ssel da db dc dd tid s
  | .scrMapMax h ssel da db dd tid => Sys2Proof.Machine.execScrMapMax h ssel da db dd tid s
  | .scrMapMin h ssel da db dd tid => Sys2Proof.Machine.execScrMapMin h ssel da db dd tid s
  | .scrMapAbs h ssel da dd tid => Sys2Proof.Machine.execScrMapAbs h ssel da dd tid s
  | .scrMapNeg h ssel da dd tid => Sys2Proof.Machine.execScrMapNeg h ssel da dd tid s
  | .scrMapScale h ssel da dd ra tid => Sys2Proof.Machine.execScrMapScale h ssel da dd ra tid s
  | .scrMapSqrt h ssel da dd tid => Sys2Proof.Machine.execScrMapSqrt h ssel da dd tid s
  | .scrMapRecip h ssel da dd tid => Sys2Proof.Machine.execScrMapRecip h ssel da dd tid s
  | .scrMapRsqrt h ssel da dd tid => Sys2Proof.Machine.execScrMapRsqrt h ssel da dd tid s
  | .scrMapRsum h ssel da dd tid => Sys2Proof.Machine.execScrMapRsum h ssel da dd tid s
  | .scrMapRssq h ssel da dd tid => Sys2Proof.Machine.execScrMapRssq h ssel da dd tid s
  | .scrMapRmax h ssel da dd tid => Sys2Proof.Machine.execScrMapRmax h ssel da dd tid s
  | .scrMapRamax h ssel da dd tid => Sys2Proof.Machine.execScrMapRamax h ssel da dd tid s
  | .scrCurve h ssel da db dd slot tid => Sys2Proof.Machine.execScrCurve h ssel da db dd slot tid s
  | .scrDcurve h ssel da db gate dd slot tid => Sys2Proof.Machine.execScrDcurve h ssel da db gate dd slot tid s
  | .scrSmax h ssel da db dc dd ra mask eslot tid => Sys2Proof.Machine.execScrSmax h ssel da db dc dd ra mask eslot tid s
  | .scrTopk h ssel da db dc comp ra rb key tid => Sys2Proof.Machine.execScrTopk h ssel da db dc comp ra rb key tid s
  | .scrOpt h ssel da ra norm tid0 tid1 => Sys2Proof.Machine.execScrOpt h ssel da ra norm tid0 tid1 s
  | .scrBegin b => Sys2Proof.Machine.execScrBegin b s
  | .scrComplete b u upset => Sys2Proof.Machine.execScrComplete b u upset s
  | .crvValidate b slot => Sys2Proof.Machine.execCrvValidate b slot s
  | .crvInvalidate b slot => Sys2Proof.Machine.execCrvInvalidate b slot s
  | .crvSlotWrite b off v => Sys2Proof.Machine.execCrvSlotWrite b off v s
  | .haulLd h hsel da db perm => Sys2Proof.Machine.execHaulLd h hsel da db perm s
  | .haulSt h hsel da db remote ra perm => Sys2Proof.Machine.execHaulSt h hsel da db remote ra perm s
  | .haulGth h hsel da db dc gd => Sys2Proof.Machine.execHaulGth h hsel da db dc gd s
  | .haulSct h hsel da db dc gd => Sys2Proof.Machine.execHaulSct h hsel da db dc gd s
  | .haulBegin b => Sys2Proof.Machine.execHaulBegin b s
  | .haulComplete b u => Sys2Proof.Machine.execHaulComplete b u s
  | .stkPush h da db ra tid => Sys2Proof.Machine.execStkPush h da db ra tid s
  | .stkPop h da ra rb => Sys2Proof.Machine.execStkPop h da ra rb s
  | .stkPushPlace b upset => Sys2Proof.Machine.execStkPushPlace b upset s
  | .stkPopExecute b => Sys2Proof.Machine.execStkPopExecute b s
  | .stkPopEscalate b => Sys2Proof.Machine.execStkPopEscalate b s
  | .stkTierWrite b bulk v => Sys2Proof.Machine.execStkTierWrite b bulk v s
  | .bankRequestGrant b bank upset => Sys2Proof.Machine.execBankRequestGrant b bank upset s
  | .correctedWordRewrite b bank => Sys2Proof.Machine.execCorrectedWordRewrite b bank s
  | .sramPatrolRead b bank upset => Sys2Proof.Machine.execSramPatrolRead b bank upset s
  | .waitTimeout b who => Sys2Proof.Machine.execWaitTimeout b who s
  | .stackSlotGrant k upset => Sys2Proof.Machine.execStackSlotGrant k upset s
  | .stackPatrolRead k at_ upset => Sys2Proof.Machine.execStackPatrolRead k at_ upset s
  | .cowPageCopy page => Sys2Proof.Machine.execCowPageCopy page s
  | .cowCopyDone page => Sys2Proof.Machine.execCowCopyDone page s
  | .viewRead p n addr => Sys2Proof.Machine.execViewRead p n addr s
  | .arm p n => Sys2Proof.Machine.execArm p n s
  | .release p n => Sys2Proof.Machine.execRelease p n s
  | .cowReleaseEffect p n => Sys2Proof.Machine.execCowReleaseEffect p n s
  | .bmcRowWrite row v => Sys2Proof.Machine.execBmcRowWrite row v s
  | .rowZeroDone row => Sys2Proof.Machine.execRowZeroDone row s
  | .bmcPartWrite p v => Sys2Proof.Machine.execBmcPartWrite p v s
  | .bmcShareWrite v => Sys2Proof.Machine.execBmcShareWrite v s
  | .syncFence h cover gate => Sys2Proof.Machine.execSyncFence h cover gate s
  | .fenceRetire b => Sys2Proof.Machine.execFenceRetire b s
  | .set_ h ra rb => Sys2Proof.Machine.execSet h ra rb s
  | .sigAdd h ra rb => Sys2Proof.Machine.execSigAdd h ra rb s
  | .clear h ra => Sys2Proof.Machine.execClear h ra s
  | .signalIssue b => Sys2Proof.Machine.execSignalIssue b s
  | .full h rd ra gate => Sys2Proof.Machine.execFull h rd ra gate s
  | .take h rd ra gate => Sys2Proof.Machine.execTake h rd ra gate s
  | .empty h rd ra gate => Sys2Proof.Machine.execEmpty h rd ra gate s
  | .ge h rd ra rb gate => Sys2Proof.Machine.execGe h rd ra rb gate s
  | .waitGatesOpen b g => Sys2Proof.Machine.execWaitGatesOpen b g s
  | .syncBar h fabric bid gate => Sys2Proof.Machine.execSyncBar h fabric bid gate s
  | .barrierArrival p bid => Sys2Proof.Machine.execBarrierArrival p bid s
  | .barrierTimeout p bid => Sys2Proof.Machine.execBarrierTimeout p bid s
  | .stepBegin h ra => Sys2Proof.Machine.execStepBegin h ra s
  | .stepVote h rd vote cover => Sys2Proof.Machine.execStepVote h rd vote cover s
  | .stepVoteSend b => Sys2Proof.Machine.execStepVoteSend b s
  | .markBegin h id => Sys2Proof.Machine.execMarkBegin h id s
  | .markEnd h => Sys2Proof.Machine.execMarkEnd h s
  | .start b => Sys2Proof.Machine.execStart b s
  | .stop b => Sys2Proof.Machine.execStop b s
  | .fmClear b => Sys2Proof.Machine.execFmClear b s
  | .fmClearDone b => Sys2Proof.Machine.execFmClearDone b s
  | .imemWrite b w v => Sys2Proof.Machine.execImemWrite b w v s
  | .go p => Sys2Proof.Machine.execGo p s
  | .progLoadDone p => Sys2Proof.Machine.execProgLoadDone p s
  | .programFault b code q unit pc mark => Sys2Proof.Machine.execProgramFault b code q unit pc mark s
  | .wghRed h da db ra rb axis noise => Sys2Proof.Machine.execWghRed h da db ra rb axis noise s
  | .wghSparse h da db dc dd ra rb axis => Sys2Proof.Machine.execWghSparse h da db dc dd ra rb axis s
  | .bucketOpen b => Sys2Proof.Machine.execBucketOpen b s
  | .grant b => Sys2Proof.Machine.execGrant b s
  | .contrib b => Sys2Proof.Machine.execContrib b s
  | .sums b => Sys2Proof.Machine.execSums b s
  | .shardResultSend b upset => Sys2Proof.Machine.execShardResultSend b upset s
  | .result b => Sys2Proof.Machine.execResult b s
  | .rsums b => Sys2Proof.Machine.execRsums b s
  | .abandon b => Sys2Proof.Machine.execAbandon b s
  | .drain b => Sys2Proof.Machine.execDrain b s
  | .reduceDeadlineExpiry b bucket shard slot => Sys2Proof.Machine.execReduceDeadlineExpiry b bucket shard slot s
  | .reduceTimeout b bucket => Sys2Proof.Machine.execReduceTimeout b bucket s
  | .wghComplete b bucket => Sys2Proof.Machine.execWghComplete b bucket s
  | .wghStageWrite b v => Sys2Proof.Machine.execWghStageWrite b v s
  | .install p => Sys2Proof.Machine.execInstall p s
  | .vote p => Sys2Proof.Machine.execVote p s
  | .voteTimeout p => Sys2Proof.Machine.execVoteTimeout p s
  | .outcome p => Sys2Proof.Machine.execOutcome p s
  | .stepOutcomeAct p => Sys2Proof.Machine.execStepOutcomeAct p s
  | .cancel p => Sys2Proof.Machine.execCancel p s
  | .alert p => Sys2Proof.Machine.execAlert p s
  | .alertSend p => Sys2Proof.Machine.execAlertSend p s
  | .mirStart p => Sys2Proof.Machine.execMirStart p s
  | .mirrorBeginReceive => Sys2Proof.Machine.execMirrorBeginReceive s
  | .mirrorPageReceive => Sys2Proof.Machine.execMirrorPageReceive s
  | .mirrorManifestReceive => Sys2Proof.Machine.execMirrorManifestReceive s
  | .mirrorAckReceive p => Sys2Proof.Machine.execMirrorAckReceive p s
  | .mirrorAckTimeout p => Sys2Proof.Machine.execMirrorAckTimeout p s
  | .mirRxWrite v => Sys2Proof.Machine.execMirRxWrite v s
  | .portTraining n errors peerMod peerPort => Sys2Proof.Machine.execPortTraining n errors peerMod peerPort s
  | .laneWindowEnd n lane errors => Sys2Proof.Machine.execLaneWindowEnd n lane errors s
  | .frameReceive n fr => Sys2Proof.Machine.execFrameReceive n fr s
  | .nakReceive n expected => Sys2Proof.Machine.execNakReceive n expected s
  | .frameTransmit n => Sys2Proof.Machine.execFrameTransmit n s
  | .creditReturn n cls units => Sys2Proof.Machine.execCreditReturn n cls units s
  | .portDown n cause => Sys2Proof.Machine.execPortDown n cause s
  | .write => Sys2Proof.Machine.execWrite s
  | .ack => Sys2Proof.Machine.execAck s
  | .reject => Sys2Proof.Machine.execReject s
  | .fabricAckTimeout b u => Sys2Proof.Machine.execFabricAckTimeout b u s
  | .arrive p => Sys2Proof.Machine.execArrive p s
  | .barrierTreeRelease p => Sys2Proof.Machine.execBarrierTreeRelease p s
  | .lost => Sys2Proof.Machine.execLost s
  | .fabRouteWrite p n v => Sys2Proof.Machine.execFabRouteWrite p n v s
  | .fabTreeWrite p v => Sys2Proof.Machine.execFabTreeWrite p v s
  | .bar0Access p off size v => Sys2Proof.Machine.execBar0Access p off size v s
  | .bar2Access p off size v ep => Sys2Proof.Machine.execBar2Access p off size v ep s
  | .sqTail p q v => Sys2Proof.Machine.execSqTail p q v s
  | .cqHead p q v => Sys2Proof.Machine.execCqHead p q v s
  | .queueEnableWrite q v => Sys2Proof.Machine.execQueueEnableWrite q v s
  | .queueEntryFetch q ans => Sys2Proof.Machine.execQueueEntryFetch q ans s
  | .queueNop q => Sys2Proof.Machine.execQueueNop q s
  | .queueStart q => Sys2Proof.Machine.execQueueStart q s
  | .copyIn q n ans => Sys2Proof.Machine.execCopyIn q n ans s
  | .copyOut q n => Sys2Proof.Machine.execCopyOut q n s
  | .signal q => Sys2Proof.Machine.execSignal q s
  | .wait q => Sys2Proof.Machine.execWait q s
  | .queueWaitTimeout q => Sys2Proof.Machine.execQueueWaitTimeout q s
  | .queueCommandComplete q n ans => Sys2Proof.Machine.execQueueCommandComplete q n ans s
  | .completionCoalesceTimer q => Sys2Proof.Machine.execCompletionCoalesceTimer q s
  | .hostFlushComplete b u ans => Sys2Proof.Machine.execHostFlushComplete b u ans s
  | .hostAckTimeout b u => Sys2Proof.Machine.execHostAckTimeout b u s
  | .mbDoorbell a => Sys2Proof.Machine.execMbDoorbell a s
  | .queueAbort p => Sys2Proof.Machine.execQueueAbort p s
  | .partCfgWrite p v => Sys2Proof.Machine.execPartCfgWrite p v s
  | .hostLinkDown p => Sys2Proof.Machine.execHostLinkDown p s
  | .errBctlModeWrite b v => Sys2Proof.Machine.execErrBctlModeWrite b v s
  | .checkModeSwitchDone b => Sys2Proof.Machine.execCheckModeSwitchDone b s
  | .errorRecordDelivery refused => Sys2Proof.Machine.execErrorRecordDelivery refused s
  | .recordMergeWindowEnd n refused => Sys2Proof.Machine.execRecordMergeWindowEnd n refused s
  | .errHeadWrite p v refused => Sys2Proof.Machine.execErrHeadWrite p v refused s
  | .faultHistoryEntry core => Sys2Proof.Machine.execFaultHistoryEntry core s
  | .unitRetired b cls index => Sys2Proof.Machine.execUnitRetired b cls index s
  | .proofPeriodicTimer => Sys2Proof.Machine.execProofPeriodicTimer s
  | .proofStart b cls index => Sys2Proof.Machine.execProofStart b cls index s
  | .proofYield b cls index => Sys2Proof.Machine.execProofYield b cls index s
  | .proofPreempt b cls index => Sys2Proof.Machine.execProofPreempt b cls index s
  | .proofComplete b cls index run => Sys2Proof.Machine.execProofComplete b cls index run s
  | .viewDisagree b cls index mgmtFailed => Sys2Proof.Machine.execViewDisagree b cls index mgmtFailed s
  | .bckRateCommand b => Sys2Proof.Machine.execBckRateCommand b s
  | .bckRateSwitch b => Sys2Proof.Machine.execBckRateSwitch b s
  | .rstEngine b cls index by_ => Sys2Proof.Machine.execRstEngine b cls index by_ s
  | .rstBench b by_ => Sys2Proof.Machine.execRstBench b by_ s
  | .rstPartition p => Sys2Proof.Machine.execRstPartition p s
  | .rstModule => Sys2Proof.Machine.execRstModule s
  | .perst port asserted => Sys2Proof.Machine.execPerst port asserted s
  | .functionLevelReset p => Sys2Proof.Machine.execFunctionLevelReset p s
  | .resetComplete => Sys2Proof.Machine.execResetComplete s
  | .inputVoltageFault mv => Sys2Proof.Machine.execInputVoltageFault mv s
  | .overcurrentTrip ma => Sys2Proof.Machine.execOvercurrentTrip ma s
  | .prsntAssert => Sys2Proof.Machine.execPrsntAssert s
  | .prsntDebounceDone bus vin => Sys2Proof.Machine.execPrsntDebounceDone bus vin s
  | .prsntBreak => Sys2Proof.Machine.execPrsntBreak s
  | .attnBtn => Sys2Proof.Machine.execAttnBtn s
  | .attnWindowExpiry => Sys2Proof.Machine.execAttnWindowExpiry s
  | .remReleaseWrite p => Sys2Proof.Machine.execRemReleaseWrite p s
  | .removalGraceEnd => Sys2Proof.Machine.execRemovalGraceEnd s
  | .removalFlushDone => Sys2Proof.Machine.execRemovalFlushDone s
  | .thermalSample ts => Sys2Proof.Machine.execThermalSample ts s
  | .powerSample vin pin iin => Sys2Proof.Machine.execPowerSample vin pin iin s
  | .pwrLimitWrite v => Sys2Proof.Machine.execPwrLimitWrite v s
  | .gate b v => Sys2Proof.Machine.execGate b v s
  | .benchWakeDone b => Sys2Proof.Machine.execBenchWakeDone b s
  | .idleEntryTimer => Sys2Proof.Machine.execIdleEntryTimer s
  | .boot pufOk failed => Sys2Proof.Machine.execBoot pufOk failed s
  | .pendingBootTimeout => Sys2Proof.Machine.execPendingBootTimeout s
  | .startupProgramDone failed => Sys2Proof.Machine.execStartupProgramDone failed s
  | .stackTraining k r => Sys2Proof.Machine.execStackTraining k r s
  | .portPeerWindowEnd n => Sys2Proof.Machine.execPortPeerWindowEnd n s
  | .ready ms => Sys2Proof.Machine.execReady ms s
  | .savedSettingsWrite => Sys2Proof.Machine.execSavedSettingsWrite s
  | .getInfo => Sys2Proof.Machine.execGetInfo s
  | .getFloorplan => Sys2Proof.Machine.execGetFloorplan s
  | .setHostTime => Sys2Proof.Machine.execSetHostTime s
  | .readRecords => Sys2Proof.Machine.execReadRecords s
  | .requestProof => Sys2Proof.Machine.execRequestProof s
  | .requestRemoval => Sys2Proof.Machine.execRequestRemoval s
  | .authBegin lockOver => Sys2Proof.Machine.execAuthBegin lockOver s
  | .authProve ok fresh older => Sys2Proof.Machine.execAuthProve ok fresh older s
  | .authEnd => Sys2Proof.Machine.execAuthEnd s
  | .authIdleExpiry c => Sys2Proof.Machine.execAuthIdleExpiry c s
  | .regWrite => Sys2Proof.Machine.execRegWrite s
  | .fwStage => Sys2Proof.Machine.execFwStage s
  | .fwActivate img => Sys2Proof.Machine.execFwActivate img s
  | .fwCommit => Sys2Proof.Machine.execFwCommit s
  | .retireUnit => Sys2Proof.Machine.execRetireUnit s
  | .retrainPort => Sys2Proof.Machine.execRetrainPort s
  | .standby => Sys2Proof.Machine.execStandby s
  | .remove => Sys2Proof.Machine.execRemove s
  | .auditRead => Sys2Proof.Machine.execAuditRead s
  | .writeBuildRecord r => Sys2Proof.Machine.execWriteBuildRecord r s
  | .clearHistory => Sys2Proof.Machine.execClearHistory s
  | .testMode => Sys2Proof.Machine.execTestMode s
  | .getVersion c => Sys2Proof.Machine.execGetVersion c s
  | .getCapabilities c => Sys2Proof.Machine.execGetCapabilities c s
  | .negotiateAlgorithms c => Sys2Proof.Machine.execNegotiateAlgorithms c s
  | .getDigests c => Sys2Proof.Machine.execGetDigests c s
  | .getCertificate c slot off len => Sys2Proof.Machine.execGetCertificate c slot off len s
  | .challenge c slot nonce => Sys2Proof.Machine.execChallenge c slot nonce s
  | .getMeasurements c index nonce => Sys2Proof.Machine.execGetMeasurements c index nonce s
  | .auditCheckpointTimer => Sys2Proof.Machine.execAuditCheckpointTimer s
  | .traceEnWrite b v => Sys2Proof.Machine.execTraceEnWrite b v s
  | .traceSampleTimer b => Sys2Proof.Machine.execTraceSampleTimer b s
  | .traceFlushTimer b => Sys2Proof.Machine.execTraceFlushTimer b s
  | .traceGranuleWrite b => Sys2Proof.Machine.execTraceGranuleWrite b s
  | .mkSlotIdWrite b slot v => Sys2Proof.Machine.execMkSlotIdWrite b slot v s
  | .powerMaxRead p => Sys2Proof.Machine.execPowerMaxRead p s
  | .counterLowHalfRead p key => Sys2Proof.Machine.execCounterLowHalfRead p key s
  | .registerWrite key v => Sys2Proof.Machine.execRegisterWrite key v s
  | .hostLinkTrained p rate width flit cfg => Sys2Proof.Machine.execHostLinkTrained p rate width flit cfg s
  | .mailboxOperationEnd c => Sys2Proof.Machine.execMailboxOperationEnd c s
  | .hostReadCompletionTimeout q => Sys2Proof.Machine.execHostReadCompletionTimeout q s
  | .cyclesLowWrapAnchor b => Sys2Proof.Machine.execCyclesLowWrapAnchor b s
  | .removalQuiesceDone => Sys2Proof.Machine.execRemovalQuiesceDone s

end Sys2Proof.Machine
end

