-- ==== Sys2Proof/Machine/Clock.lean ====
section
/-!
DEFINITION. What happens while no command waits: clocks advance, one Bench after another, with the counters of cycles, and a
RUNNING Foreman fetches and issues the instruction at its program counter (spec 10 R272-R277; 17 R470; 20 R544-R546).
-/

namespace Sys2Proof.Machine

/-! ## What a cycle counts (R544-R546) -/

/-- The counters of BUSY cycles of a Bench's units that are busy in a cycle; in PAIR mode an odd array is busy as its partner is
(R89, R108, R242, R445, R544). (assumption 81, DEDUCED) -/
def State.busyCounters (s : State) (b : Bid) : List Nat :=
  ((List.finRange 12).filterMap fun u =>
    if (s.arr b (s.leadOf b u)).jobs.isEmpty then none else some (if u.val < 4 then u.val else 8 + u.val))
  ++ (s.bench b).run.filterMap (fun r =>
    if r.q = 1 then some (82 + r.unit) else if r.q = 4 then some (52 + r.unit) else if r.q = 5 then some (68 + r.unit) else none)
  ++ (if (s.wgh b).buckets.isEmpty then [] else [106])

/-- The identifiers of a Bench's instructions that have begun and not completed (R546). -/
def State.activeMarks (s : State) (b : Bid) : List (BitVec 32) :=
  let x := s.bench b
  (x.run.map fun r => r.e.mark) ++ ((List.finRange 12).flatMap fun u => (s.arr b u).jobs.map fun j => j.e.mark)
    ++ x.wgh.buckets.map fun k => k.e.mark

/-- A cycle counted: for each busy unit, in stage units in use, and for each identifier with an instruction in progress
(R544, R546). (assumption 81, DEDUCED) -/
def State.countCycle (s : State) (b : Bid) : State :=
  let t := (s.busyCounters b).foldl (fun (s : State) n => s.countB b n 1) s
  let t := if s.stageUsed b = 0 then t else t.countB b 111 (s.stageUsed b)
  (s.activeMarks b).eraseDups.foldl (fun (t : State) m => t.slotCount b m 1 1) t

/-- The cause, by its place among the stall counters, for which the instruction a Foreman has fetched goes on waiting; none where
R544 lists none. (assumption 81, DEDUCED) -/
def State.issueStall (s : State) (b : Bid) (w : Word) (i : Instr) : Option Nat :=
  let eng := w.toNat % 16
  let gates (g : BitVec 8) (k : Nat) : Option Nat := some (if s.gateRoom b g then k else 0)
  match i with
  | .syncFence _ _ g => gates g 7
  | .full _ _ _ g | .take _ _ _ g | .empty _ _ _ g | .ge _ _ _ _ g => gates g 1
  | .syncBar _ _ _ g => gates g 6
  | .set_ .. | .sigAdd .. | .clear .. => some (if 8 ≤ (s.fm b).sigs.length then 6 else 1)
  | .scrOpt .. => some (if s.voteOut b then 5 else if s.hasRoom b 5 then 1 else 0)
  | _ =>
    if (eng = 9 || eng = 11) && s.voteOut b then some 5
    else if eng = 2 && s.rb (K.CUT_CTL b) F.CUT_CTL_SWITCHING then none
    else some (if 1 ≤ eng && eng < 8 && !s.hasRoom b ⟨eng % 8, by omega⟩ then 0 else 1)

/-- Whether a RUNNING Foreman neither retires an instruction nor faults. -/
def State.stands (s : State) (b : Bid) : Out → Bool
  | .next t => (t.fm b).st == .running && t.reg (K.BENCH_CTR b 136) == s.reg (K.BENCH_CTR b 136)
  | _ => false

/-- The instruction word at a Foreman's program counter, and the one behind it (R276). -/
def State.fetched (s : State) (b : Bid) : Word × Word :=
  let pc := (s.fm b).pc.toNat
  (s.reg (K.IMEM b pc), if pc + 1 < 32768 then s.reg (K.IMEM b (pc + 1)) else 0)

/-- Why a RUNNING Foreman retires nothing in a cycle: a gate, an access that has not answered, or what its instruction waits for
(R544). (assumption 81, DEDUCED) -/
def State.stallCause (s : State) (b : Bid) : Option Nat :=
  let f := s.fm b
  if f.st != .running || !s.pwr.mainOn || s.rb (K.CLK_BENCH b) F.CLK_BENCH_STOPPED then none
  else
    match f.gates.find? fun g => g.fmStall with
    | some g => some (match g.kind with | .fence _ => 2 | .word .. => 3 | .barrier .. => 4)
    | none =>
      if f.parked.isSome then some 1
      else
        let (w, x) := s.fetched b
        match decodeInstr b w x with
        | some i => if s.stands b (exec i s) then s.issueStall b w i else none
        | none => none

/-- A stall cycle of a Bench's Foreman counted by its cause (R544). -/
def State.noteStall (s : State) (b : Bid) : State :=
  match s.stallCause b with
  | some k => s.countB b (128 + k) 1
  | none => s

/-- The Hub counters of the classes that wait for credits, port by port (R345, R545). (assumption 81, DEDUCED) -/
def State.creditWaits (s : State) : List Nat :=
  (List.finRange 16).flatMap fun n =>
    if !s.portUp n then []
    else (List.finRange 5).filterMap fun c =>
      if (s.port n).sendq[c].isEmpty || (s.port n).ready c then none else some (16 * n.val + 6 + c.val)

/-! ## Clocks -/

/-- One cycle of a Bench's clock, which stands still in STANDBY and while it is STOPPED, when the cycle counts as one of NCK
with BCK stopped; an ANCHOR where CYCLES[31:0] passes zero, and entries made are staged (R470, R544, R548, R549). (assumption
30, DESIGN CHOICE) -/
def State.cycleBench (s : State) (b : Bid) : State :=
  if !s.pwr.mainOn || s.rf K.PWR_STAT F.PWR_STAT_STATE = 2 then s
  else if s.rb (K.CLK_BENCH b) F.CLK_BENCH_STOPPED then s.countB b 138 1
  else
    let s := s.countCycle b
    let x := s.bench b
    let c := x.cycles + 1
    let s := s.onBench b fun x => { x with cycles := c, wrap := if c = 0 then x.wrap + 1 else x.wrap }
    let s := if c.toNat % 2 ^ 32 = 0 then s.anchorNow ⟨b.val, by omega⟩ else s
    if (s.bench b).trace.isEmpty then s else s.stageTrace b

/-- One cycle of QCK, which counts the module's time by its power state; the Hub's cores that are traced run (R470, R545, R548,
R549).
(assumption 30, DESIGN CHOICE) -/
def State.cycleHub (s : State) : State :=
  if !s.pwr.mainOn then s
  else
    let c := s.mgmt.qcycles + 1
    let s := s.onMgmt fun m => { m with qcycles := c, qwrap := if c = 0 then m.qwrap + 1 else m.qwrap }
    let s := s.creditWaits.foldl (fun (s : State) n => s.countH n 1) s
    let s := s.countH (384 + Nat.min 2 (s.rf K.PWR_STAT F.PWR_STAT_STATE)) 1
    let s := if c.toNat % 2 ^ 32 = 0 then s.anchorNow 16 else s
    s.hubCores

/-- A Foreman that issues fetches, decodes and executes one instruction; a word that its encoding refuses faults with
INSTR_INVALID (R274, R310, R311), or retires where its guard is false and only a reserved operand code refuses it (R275, R314).
(assumption 30, DESIGN CHOICE) -/
def State.fetch (s : State) (b : Bid) : Out :=
  if !s.canIssue b || s.rb (K.CLK_BENCH b) F.CLK_BENCH_STOPPED then .next s
  else
    let (w, x) := s.fetched b
    match decodeInstr b w x with
    | some i => exec i s
    | none =>
      match reservedMap w x with
      | some (ssel, da, dd, tid) => execScrMapReserved (issueOf b w) ssel da dd tid s
      | none =>
        if !(s.fm b).guard (issueOf b w) && (decodeInstr b (codesMended w) x).isSome then
          issue (issueOf b w) 1 (w.setWidth 10) (fun _ s => .done s) s
        else .next (s.fault ⟨b, 0, 0, ⟨w.setWidth 10, (s.fm b).pc, s.markOf b⟩⟩ .instrInvalid)

/-- What a step does on an empty queue: the Bench whose turn it is advances its clock and issues; after the last of them QCK
advances. (assumption 30, DESIGN CHOICE) -/
def State.tick (s : State) : Out :=
  let b := s.turn
  let next : Bid := ⟨(b.val + 1) % 16, by omega⟩
  let s : State := { s with turn := next }
  let s := s.cycleBench b
  let s := if b.val = 15 then s.cycleHub else s
  (s.noteStall b).fetch b

end Sys2Proof.Machine
end

