-- ==== Sys2Proof/Machine/Step.lean ====
section
/-!
DEFINITION. One step: the command at the front of the queue is taken and executed with the queue's rest; on an empty queue the
clocks advance and the Foremen issue.
-/

namespace Sys2Proof.Machine

/-- One step of the module. (assumption 30, DESIGN CHOICE; assumption 71, DESIGN CHOICE) -/
def step (s : State) : Host.Outcome State Fault Refusal :=
  match s.pending with
  | c :: rest => exec c { s with pending := rest }
  | [] => s.tick

/-- The state with the command that a table word spells put at the front of its queue; the table gives no row any bits, so no word
spells one. (assumption 30, DESIGN CHOICE) -/
def State.withFetchWord (s : State) (nbits w : Nat) : State :=
  match decodeTableWord nbits w with
  | some c => { s with pending := c :: s.pending }
  | none => s

end Sys2Proof.Machine
end

