-- ==== Sys2Proof/Safety.lean ====
section
/-!
DEFINITION. What a safe run is, and the properties of a state that every command keeps: the canonical form of the
module's tables, and what the specification says a Foreman's state always is (10 R272, R283, R285, R296).
-/

namespace Sys2Proof.Machine

/-- Memory, the registers and the word marks are in their one canonical form (`twf`). -/
def State.Canonical (s : State) : Prop :=
  Memory.wf s.mem ∧ twf regReset s.regs ∧ twf (fun _ => WordMark.clear) s.marks

/-- What every Foreman's state is: s0 holds zero and p0 holds 1 (R272), the marker stack holds at most 8 identifiers
(R296), the signal buffer at most 8 entries (R283), and at most 8 fences are outstanding (R285). -/
def Foreman.Sound (f : Foreman) : Prop :=
  f.s[0] = 0 ∧ f.p.getLsbD 0 = true ∧ f.marks.length ≤ 8 ∧ f.sigs.length ≤ 8 ∧ f.fences.length ≤ 8

/-- The invariant of the module. -/
def State.Inv (s : State) : Prop := s.Canonical ∧ ∀ b : Bid, (s.fm b).Sound

/-! ## Terms of the claims about a Foreman's instructions -/

/-- A state apart from its registers and its Benches. -/
def State.apart (s : State) : State := { s with regs := [], benches := State.reset.benches }

/-- A Bench apart from its Foreman and its trace staging. -/
def Bench.apart (x : Bench) : Bench := { x with fm := Foreman.reset, trace := [], traceLost := 0 }

/-- The registers that a retiring instruction counts and traces in: instructions retired, dispatched instructions of ENG 0x0, trace
entries staged and dropped, and the marker slots that hold its identifier (R544, R546, R548). -/
def retireRegs (b : Bid) : List Nat :=
  [K.BENCH_CTR b 136, K.BENCH_CTR b 120, K.BENCH_CTR b 140, K.BENCH_CTR b 141, K.TRC_STAT b]
    ++ (List.range 8).map fun i => K.MK_CNT b i 0

/-- Nothing changed but the Foreman of Bench b, its trace staging and the registers of `retireRegs`: memory, marks, the other
Benches and every other register stand. -/
def State.OnlyForeman (b : Bid) (s t : State) : Prop :=
  t.apart = s.apart ∧ (∀ c, c ≠ b → t.bench c = s.bench c) ∧ (t.bench b).apart = (s.bench b).apart
    ∧ ∀ k, k ∉ retireRegs b → t.reg k = s.reg k

/-- An instruction of n words issues: its Foreman issues, its guard is true, and fetch behind it stays in instruction memory
(R274-R276, R298). -/
abbrev State.Issues (s : State) (h : Issue) (n : Nat) : Prop :=
  s.canIssue h.bench = true ∧ (s.fm h.bench).guard h = true ∧ (s.fm h.bench).pc.toNat + n < 32768

/-- No value is still to arrive in these scalar registers (R319). -/
abbrev State.Arrived (s : State) (b : Bid) (rs : List (BitVec 5)) : Prop := ∀ r ∈ rs, (s.fm b).pendS r = false

/-- No value is still to arrive in these descriptor registers (R319). -/
abbrev State.ArrivedT (s : State) (b : Bid) (ts : List (BitVec 4)) : Prop := ∀ r ∈ ts, (s.fm b).pendT r = false

/-- A scalar register's value on the Bench of a header. -/
def State.sreg (s : State) (h : Issue) (r : BitVec 5) : Word := (s.fm h.bench).getS r

/-- The instruction answers a next state whose Foreman is `f` with the program counter `pc`, and nothing else changes. -/
def Retires (i : Instr) (h : Issue) (s : State) (f : Foreman) (pc : BitVec 15) : Prop :=
  ∃ t, exec i s = .next t ∧ t.fm h.bench = { f with pc := pc } ∧ s.OnlyForeman h.bench t

/-- It retires with the scalar register rd written (s0 takes no value), and fetch goes on behind its n words. -/
def WritesS (i : Instr) (h : Issue) (n : Nat) (s : State) (rd : BitVec 5) (v : Word) : Prop :=
  Retires i h s ((s.fm h.bench).setS rd v) ((s.fm h.bench).pc + BitVec.ofNat 15 n)

/-- It retires with predicate pd written (p0 takes no value). -/
def WritesP (i : Instr) (h : Issue) (s : State) (pd : BitVec 3) (v : Bool) : Prop :=
  Retires i h s ((s.fm h.bench).setP pd v) ((s.fm h.bench).pc + 1)

/-- It retires with a value left pending for the scalar register rd; s0 takes none (R319). -/
def PendsS (i : Instr) (h : Issue) (s : State) (rd : BitVec 5) (v : Word) : Prop :=
  Retires i h s
    { s.fm h.bench with pend := (s.fm h.bench).pend ++ (if rd = 0 then [] else [.s rd v]) }
    ((s.fm h.bench).pc + 1)

/-- The registers that a dispatch into queue q counts in: dispatched instructions of the queue, and those of `retireRegs` (R544,
R546). -/
def dispatchRegs (b : Bid) (q : Fin 8) : List Nat := K.BENCH_CTR b (120 + q.val) :: retireRegs b

/-- An engine instruction enters queue q of its Bench with what it captures; the other queues, the units, memory, the other
Benches and the registers but for counters stand as in `s'` (R273, R278, R279). -/
def DispatchesAt (i : Instr) (h : Issue) (n : Nat) (opcode : BitVec 10) (q : Fin 8) (op : EngOp) (sel : Nat)
    (ds : List (BitVec 4)) (rs : List (BitVec 5)) (s s' : State) : Prop :=
  ∃ t, exec i s = .next t
    ∧ t.queue h.bench q = s.queue h.bench q ++ [.instr (s.newEntry (s.fmCtx h opcode) op sel ds rs)]
    ∧ (∀ r, r ≠ q → t.queue h.bench r = s.queue h.bench r)
    ∧ t.fm h.bench = { s.fm h.bench with
        nextId := (s.fm h.bench).nextId + 1, pc := (s.fm h.bench).pc + BitVec.ofNat 15 n }
    ∧ t.apart = s'.apart ∧ (∀ c, c ≠ h.bench → t.bench c = s.bench c)
    ∧ { (t.bench h.bench).apart with q := (s.bench h.bench).q } = (s.bench h.bench).apart
    ∧ ∀ k, k ∉ dispatchRegs h.bench q → t.reg k = s.reg k

/-- An engine instruction enters queue q, and nothing else changes but counters. -/
abbrev Dispatches (i : Instr) (h : Issue) (n : Nat) (opcode : BitVec 10) (q : Fin 8) (op : EngOp) (sel : Nat)
    (ds : List (BitVec 4)) (rs : List (BitVec 5)) (s : State) : Prop := DispatchesAt i h n opcode q op sel ds rs s s

/-- It may be dispatched into queue q: it issues, its registers have arrived, and the queue has room. -/
abbrev State.Dispatchable (s : State) (h : Issue) (n : Nat) (q : Fin 8) (ds : List (BitVec 4)) (rs : List (BitVec 5)) : Prop :=
  s.Issues h n ∧ s.ArrivedT h.bench ds ∧ s.Arrived h.bench rs ∧ s.hasRoom h.bench q = true

/-! ## Safe steps -/

/-- A step is safe where it answers a next state: it ends neither in a fault nor in a refusal. -/
def State.StepSafe (s : State) : Prop := ∃ t, step s = .next t

end Sys2Proof.Machine
end

