-- ==== Sys2Proof/WellFormed.lean ====
section
/-!
DEFINITION. Which commands are well formed: operands that the encodings and the fields they come from can hold.
-/

namespace Sys2Proof

/-- FE 0b11 is reserved (10 R281). -/
def feOk (fe : BitVec 2) : Bool := fe != 3
/-- Without DRAIN the drain field is zero; what REUSE ignores, and SPL without PASSES 1, are zero (11 R311, R324). -/
def mmOk (f : MMFields) : Bool :=
  (f.drain || f.dc == 0) && (!f.reuse || (f.db == 0 && !f.tb && f.passes == 0)) && (!f.spl || f.passes == 1)
/-- Without DUAL the second destination and its table number, which WDG.CVT ignores, are zero (11 R327). -/
def cvtOk (f : CvtFields) : Bool := f.dual || (f.dc == 0 && f.tid1 == 0)
/-- GATE is not zero, and a result register is named only where the Foreman waits (11 R334). -/
def waitOk (rd : BitVec 5) (gate : BitVec 8) : Bool := gate != 0 && (gate.getLsbD 0 || rd == 0)
/-- A request header's length is its payload's, at most 520,192 bytes; word 3 is zero (19 R531). -/
def requestOk (m : MbReq) : Bool := m.payload.length == m.len.toNat && decide (m.len.toNat ≤ 520192) && m.zero == 0
/-- An access to BAR4 is a request, or lies within the 1 MiB of BAR4; an SPDM request comes over MCTP or I3C (R416, R433, R526). -/
def accessOk : Bar4 → Bool
  | .submit m => requestOk m
  | .clear _ => true
  | .read _ off size => decide (0 < size) && decide (off + size ≤ 0x100000)
  | .unsupported c => decide (4 ≤ c.val)
/-- A write carries as many bytes as it says. -/
def sized {α : Type} (size : Nat) (v : Option (List α)) : Bool :=
  match v with
  | some l => l.length == size
  | none => true
/-- A payload is whole 16-byte units, at most 4,096 bytes (12 R344). -/
def packetOk (p : Packet) : Bool := p.payload.length % 16 == 0 && decide (p.payload.length ≤ 4096)
/-- Bench, class and index of a unit as the records code them (16 R449, R450). -/
def unitNumbers (u : Nat × Nat × Nat) : Bool := decide (u.1 ≤ 16) && decide (u.2.1 ≤ 20) && decide (u.2.2 < 4096)

/-- Whether a command is well formed. -/
def Instr.wellFormed : Instr → Bool
  | .nop _ => true
  | .add _ _ _ _ => true
  | .sub _ _ _ _ => true
  | .and_ _ _ _ _ => true
  | .or_ _ _ _ _ => true
  | .xor_ _ _ _ _ => true
  | .shl _ _ _ _ => true
  | .shr _ _ _ _ => true
  | .sar _ _ _ _ => true
  | .mul _ _ _ _ => true
  | .mulhu _ _ _ _ => true
  | .min_ _ _ _ _ => true
  | .minu _ _ _ _ => true
  | .max_ _ _ _ _ => true
  | .maxu _ _ _ _ => true
  | .divu _ _ _ _ => true
  | .remu _ _ _ _ => true
  | .ceq _ _ _ _ => true
  | .cne _ _ _ _ => true
  | .clt _ _ _ _ => true
  | .cltu _ _ _ _ => true
  | .cge _ _ _ _ => true
  | .cgeu _ _ _ _ => true
  | .pand _ _ _ _ => true
  | .por _ _ _ _ => true
  | .pxor _ _ _ _ => true
  | .pandn _ _ _ _ => true
  | .addi _ _ _ _ => true
  | .andi _ _ _ _ => true
  | .ori _ _ _ _ => true
  | .xori _ _ _ _ => true
  | .shli _ _ _ _ => true
  | .shri _ _ _ _ => true
  | .sari _ _ _ _ => true
  | .muli _ _ _ _ => true
  | .ceqi _ _ _ _ => true
  | .clti _ _ _ _ => true
  | .cltui _ _ _ _ => true
  | .imm64 _ _ _ => true
  | .ld _ _ _ fe _ => feOk fe
  | .st _ _ _ fe _ => feOk fe
  | .tld _ _ _ fe _ => feOk fe
  | .tst _ _ _ fe _ => feOk fe
  | .tmov _ _ _ => true
  | .tset _ _ _ _ => true
  | .tget _ _ _ _ => true
  | .pendingValueArrives _ _ _ => true
  | .br _ _ => true
  | .call _ _ => true
  | .jr _ _ => true
  | .callr _ _ => true
  | .end_ _ => true
  | .foremanDrainComplete _ => true
  | .cutMm _ f => mmOk f && f.passes == 0 && !f.spl
  | .drsMm _ f => mmOk f
  | .arrayHeadCheck _ _ => true
  | .tileLoadStart _ _ => true
  | .tileLoadDone _ _ => true
  | .streamStart _ _ => true
  | .accumRowUpdate _ _ _ => true
  | .accumDrainRow _ _ => true
  | .arrayInstrComplete _ _ => true
  | .operandWaitRetry _ _ => true
  | .cutCtlModeWrite _ _ => true
  | .cutModeSwitchDone _ => true
  | .wdgCvt _ f => cvtOk f
  | .wdgRot _ _ => true
  | .wdgBegin _ => true
  | .wdgComplete _ _ _ => true
  | .vtabEntryWrite _ _ _ _ => true
  | .validate _ _ _ => true
  | .invalidate _ _ => true
  | .exportOpen _ => true
  | .exportClose _ => true
  | .exportSessionActivate _ => true
  | .exportSessionClosed _ => true
  | .plmEval _ => true
  | .plmSnapshot _ => true
  | .plmPartitionSums _ => true
  | .plmEvaluate _ _ => true
  | .apply _ => true
  | .resetLoss _ => true
  | .plmLossWrite _ _ => true
  | .plmSetCmd _ _ => true
  | .scrMapCopy _ _ _ _ _ => true
  | .scrMapAdd _ _ _ _ _ _ => true
  | .scrMapSub _ _ _ _ _ _ => true
  | .scrMapMul _ _ _ _ _ _ => true
  | .scrMapFma _ _ _ _ _ _ _ => true
  | .scrMapMax _ _ _ _ _ _ => true
  | .scrMapMin _ _ _ _ _ _ => true
  | .scrMapAbs _ _ _ _ _ => true
  | .scrMapNeg _ _ _ _ _ => true
  | .scrMapScale _ _ _ _ _ _ => true
  | .scrMapSqrt _ _ _ _ _ => true
  | .scrMapRecip _ _ _ _ _ => true
  | .scrMapRsqrt _ _ _ _ _ => true
  | .scrMapRsum _ _ _ _ _ => true
  | .scrMapRssq _ _ _ _ _ => true
  | .scrMapRmax _ _ _ _ _ => true
  | .scrMapRamax _ _ _ _ _ => true
  | .scrCurve _ _ _ _ _ _ _ => true
  | .scrDcurve _ _ _ _ g dd _ _ => g.isNone || dd != 15
  | .scrSmax _ _ _ _ _ _ _ _ _ _ => true
  | .scrTopk _ _ _ _ _ _ _ _ _ _ => true
  | .scrOpt _ _ da _ _ _ _ => decide (da.toNat ≤ 9)
  | .scrBegin _ => true
  | .scrComplete _ _ _ => true
  | .crvValidate _ _ => true
  | .crvInvalidate _ _ => true
  | .crvSlotWrite _ _ _ => true
  | .haulLd _ _ _ _ _ => true
  | .haulSt _ _ _ _ remote ra _ => remote != 0 || ra == 0
  | .haulGth _ _ _ _ _ _ => true
  | .haulSct _ _ _ _ _ _ => true
  | .haulBegin _ => true
  | .haulComplete _ _ => true
  | .stkPush _ _ _ _ _ => true
  | .stkPop _ _ _ _ => true
  | .stkPushPlace _ _ => true
  | .stkPopExecute _ => true
  | .stkPopEscalate _ => true
  | .stkTierWrite _ _ _ => true
  | .bankRequestGrant _ _ _ => true
  | .correctedWordRewrite _ _ => true
  | .sramPatrolRead _ _ _ => true
  | .waitTimeout _ _ => true
  | .stackSlotGrant _ _ => true
  | .stackPatrolRead _ _ _ => true
  | .cowPageCopy _ => true
  | .cowCopyDone _ => true
  | .viewRead _ _ _ => true
  | .arm _ _ => true
  | .release _ _ => true
  | .cowReleaseEffect _ _ => true
  | .bmcRowWrite _ _ => true
  | .rowZeroDone _ => true
  | .bmcPartWrite _ _ => true
  | .bmcShareWrite _ => true
  | .syncFence _ _ _ => true
  | .fenceRetire _ => true
  | .set_ _ _ _ => true
  | .sigAdd _ _ _ => true
  | .clear _ _ => true
  | .signalIssue _ => true
  | .full _ rd _ gt => waitOk rd gt
  | .take _ rd _ gt => waitOk rd gt
  | .empty _ rd _ gt => waitOk rd gt
  | .ge _ rd _ _ gt => waitOk rd gt
  | .waitGatesOpen _ _ => true
  | .syncBar _ _ _ _ => true
  | .barrierArrival _ _ => true
  | .barrierTimeout _ _ => true
  | .stepBegin _ _ => true
  | .stepVote _ _ _ _ => true
  | .stepVoteSend _ => true
  | .markBegin _ _ => true
  | .markEnd _ => true
  | .start _ => true
  | .stop _ => true
  | .fmClear _ => true
  | .fmClearDone _ => true
  | .imemWrite _ _ _ => true
  | .go _ => true
  | .progLoadDone _ => true
  | .programFault _ code _ _ _ _ => decide (0 < code ∧ code < 256)
  | .wghRed _ _ _ _ _ _ _ => true
  | .wghSparse _ _ _ _ _ _ _ _ => true
  | .bucketOpen _ => true
  | .grant _ => true
  | .contrib _ => true
  | .sums _ => true
  | .shardResultSend _ _ => true
  | .result _ => true
  | .rsums _ => true
  | .abandon _ => true
  | .drain _ => true
  | .reduceDeadlineExpiry _ _ _ _ => true
  | .reduceTimeout _ _ => true
  | .wghComplete _ _ => true
  | .wghStageWrite _ _ => true
  | .install _ => true
  | .vote _ => true
  | .voteTimeout _ => true
  | .outcome _ => true
  | .stepOutcomeAct _ => true
  | .cancel _ => true
  | .alert _ => true
  | .alertSend _ => true
  | .mirStart _ => true
  | .mirrorBeginReceive => true
  | .mirrorPageReceive => true
  | .mirrorManifestReceive => true
  | .mirrorAckReceive _ => true
  | .mirrorAckTimeout _ => true
  | .mirRxWrite _ => true
  | .portTraining _ errors _ _ => errors.length == 18
  | .laneWindowEnd _ lane _ => decide (lane < 18)
  | .frameReceive _ fr => packetOk fr.pkt
  | .nakReceive _ _ => true
  | .frameTransmit _ => true
  | .creditReturn _ _ _ => true
  | .portDown _ _ => true
  | .write => true
  | .ack => true
  | .reject => true
  | .fabricAckTimeout _ _ => true
  | .arrive _ => true
  | .barrierTreeRelease _ => true
  | .lost => true
  | .fabRouteWrite _ _ _ => true
  | .fabTreeWrite _ _ => true
  | .bar0Access _ off size v => decide (off + size ≤ 0x4000000) && sized size v
  | .bar2Access _ _ size v _ => decide (0 < size) && sized size v
  | .sqTail _ _ _ => true
  | .cqHead _ _ _ => true
  | .queueEnableWrite _ _ => true
  | .queueEntryFetch _ _ => true
  | .queueNop _ => true
  | .queueStart _ => true
  | .copyIn _ _ _ => true
  | .copyOut _ _ => true
  | .signal _ => true
  | .wait _ => true
  | .queueWaitTimeout _ => true
  | .queueCommandComplete _ _ _ => true
  | .completionCoalesceTimer _ => true
  | .hostFlushComplete _ _ _ => true
  | .hostAckTimeout _ _ => true
  | .mbDoorbell a => accessOk a
  | .queueAbort _ => true
  | .partCfgWrite _ _ => true
  | .hostLinkDown _ => true
  | .errBctlModeWrite _ _ => true
  | .checkModeSwitchDone _ => true
  | .errorRecordDelivery _ => true
  | .recordMergeWindowEnd _ _ => true
  | .errHeadWrite _ _ _ => true
  | .faultHistoryEntry core => core.all fun c => unitNumbers (c.bench, c.cls, c.index)
  | .unitRetired b cls index => unitNumbers (b, cls, index)
  | .proofPeriodicTimer => true
  | .proofStart b cls index => unitNumbers (b, cls, index)
  | .proofYield b cls index => unitNumbers (b, cls, index)
  | .proofPreempt b cls index => unitNumbers (b, cls, index)
  | .proofComplete b cls index run =>
      unitNumbers (b, cls, index) && run.ref.all (fun x => unitNumbers x.1) && run.third.all (fun x => unitNumbers x.1)
  | .viewDisagree b cls index _ => unitNumbers (b, cls, index)
  | .bckRateCommand _ => true
  | .bckRateSwitch _ => true
  | .rstEngine _ _ _ _ => true
  | .rstBench _ _ => true
  | .rstPartition _ => true
  | .rstModule => true
  | .perst _ _ => true
  | .functionLevelReset _ => true
  | .resetComplete => true
  | .inputVoltageFault _ => true
  | .overcurrentTrip _ => true
  | .prsntAssert => true
  | .prsntDebounceDone _ _ => true
  | .prsntBreak => true
  | .attnBtn => true
  | .attnWindowExpiry => true
  | .remReleaseWrite _ => true
  | .removalGraceEnd => true
  | .removalFlushDone => true
  | .thermalSample ts => ts.length == 27
  | .powerSample _ _ _ => true
  | .pwrLimitWrite _ => true
  | .gate _ _ => true
  | .benchWakeDone _ => true
  | .idleEntryTimer => true
  | .boot _ failed => failed.all unitNumbers
  | .pendingBootTimeout => true
  | .startupProgramDone failed => failed.all unitNumbers
  | .stackTraining _ _ => true
  | .portPeerWindowEnd _ => true
  | .ready _ => true
  | .savedSettingsWrite => true
  | .getInfo => true
  | .getFloorplan => true
  | .setHostTime => true
  | .readRecords => true
  | .requestProof => true
  | .requestRemoval => true
  | .authBegin _ => true
  | .authProve _ _ _ => true
  | .authEnd => true
  | .authIdleExpiry _ => true
  | .regWrite => true
  | .fwStage => true
  | .fwActivate _ => true
  | .fwCommit => true
  | .retireUnit => true
  | .retrainPort => true
  | .standby => true
  | .remove => true
  | .auditRead => true
  | .writeBuildRecord r => r.benches.length == 16 && decide (r.bifur < 3)
  | .clearHistory => true
  | .testMode => true
  | .getVersion _ => true
  | .getCapabilities _ => true
  | .negotiateAlgorithms _ => true
  | .getDigests _ => true
  | .getCertificate _ slot _ _ => decide (slot < 8)
  | .challenge _ slot _ => decide (slot < 8)
  | .getMeasurements _ index _ => decide (index < 256)
  | .auditCheckpointTimer => true
  | .traceEnWrite _ _ => true
  | .traceSampleTimer _ => true
  | .traceFlushTimer _ => true
  | .traceGranuleWrite _ => true
  | .mkSlotIdWrite _ _ _ => true
  | .powerMaxRead _ => true
  | .counterLowHalfRead _ key => key % 8 == 0
  | .registerWrite key _ => key % 8 == 0
  | .hostLinkTrained _ _ _ _ _ => true
  | .mailboxOperationEnd _ => true
  | .hostReadCompletionTimeout _ => true
  | .cyclesLowWrapAnchor _ => true
  | .removalQuiesceDone => true

end Sys2Proof
end

