-- ==== Sys2Proof/Terms.lean ====
section
/-!
DEFINITION. Terms of the statements for the provers.
-/

namespace Sys2Proof.Machine

/-- The word at number `wn` may be accessed by the Bench of a header, holds no upset and is not poisoned. -/
abbrev State.Clean (s : State) (h : Issue) (wn : Nat) : Prop :=
  s.mayAccess ((s.partOf h.bench).getD 0) (16 * wn) = true ∧ (s.mark wn).upset = .clean ∧ (s.mark wn).poison = false

/-- A signal or wait address of a partition: 16-byte aligned, in a Bench SRAM of it (R282, R284). -/
abbrev State.SigPlace (s : State) (p : Part) (a : Word) : Prop :=
  a.toNat % 16 = 0 ∧ inSram a.toNat = true ∧ s.owns p (benchOf a.toNat) = true

/-- Between two states one gate of a Bench was placed in every queue that a GATE mask names, and stalls the Foreman where bit 0 of it is set
(R284). -/
def GatePlaced (s t : State) (h : Issue) (kind : GateKind) (gate : BitVec 8) (rd : BitVec 5) : Prop :=
  ∃ id, (t.fm h.bench).gates = (s.fm h.bench).gates
      ++ [⟨id, kind, gate.getLsbD 0, rd, (s.fm h.bench).pc, s.markOf h.bench⟩]
    ∧ ∀ q : Fin 8, t.queue h.bench q
        = s.queue h.bench q ++ (if q ≠ 0 ∧ gate.getLsbD q.val = true then [.gate id] else [])

/-- An engine instruction but SCR.OPT: its header, its words, its queue, and the descriptor and scalar registers that it names
(R273, R324, R327-R332). -/
def engineOf : Instr → Option (Issue × Nat × Fin 8 × List (BitVec 4) × List (BitVec 5))
  | .haulLd h _ da db _ => some (h, 1, 1, [da, db], [])
  | .haulSt h _ da db remote ra _ => some (h, 1, 1, [da, db], if remote = 0 then [] else [ra])
  | .haulGth h _ da db dc _ | .haulSct h _ da db dc _ => some (h, 1, 1, [da, db, dc], [])
  | .cutMm h f => some (h, 1, 2, mmRegs f, [f.ra, f.rb])
  | .drsMm h f => some (h, 1, 3, mmRegs f, [f.ra, f.rb])
  | .wdgCvt h f => some (h, 2, 4, cvtRegs f, [])
  | .wdgRot h f => some (h, 1, 4, [f.da, f.db], [])
  | .scrMapCopy h _ da dd _ | .scrMapAbs h _ da dd _ | .scrMapNeg h _ da dd _ | .scrMapSqrt h _ da dd _
  | .scrMapRecip h _ da dd _ | .scrMapRsqrt h _ da dd _ | .scrMapRsum h _ da dd _ | .scrMapRssq h _ da dd _
  | .scrMapRmax h _ da dd _ | .scrMapRamax h _ da dd _ => some (h, 2, 5, [da, dd], [])
  | .scrMapAdd h _ da db dd _ | .scrMapSub h _ da db dd _ | .scrMapMul h _ da db dd _ | .scrMapMax h _ da db dd _
  | .scrMapMin h _ da db dd _ => some (h, 2, 5, [da, db, dd], [])
  | .scrMapFma h _ da db dc dd _ => some (h, 2, 5, [da, db, dc, dd], [])
  | .scrMapScale h _ da dd ra _ => some (h, 2, 5, [da, dd], [ra])
  | .scrCurve h _ da db dd _ _ => some (h, 2, 5, [da] ++ db.toList ++ [dd], [])
  | .scrDcurve h _ da db none dd _ _ => some (h, 2, 5, [da, db, dd], [])
  | .scrDcurve h _ da db (some (dc, _)) dd _ _ => some (h, 2, 5, [da, db, dc, dd, dd + 1], [])
  | .scrSmax h _ da db dc dd ra none _ _ => some (h, 2, 5, [da, db, dc, dd], [ra])
  | .scrSmax h _ da db dc dd ra (some (q, k)) _ _ => some (h, 2, 5, [da, db, dc, dd], [ra, q, k])
  | .scrTopk h _ da db dc comp ra rb _ _ => some (h, 2, 5, [da, db, dc] ++ comp.toList, [ra, rb])
  | .wghRed h da db ra rb _ _ => some (h, 1, 6, [da, db], [ra, rb])
  | .wghSparse h da db dc dd ra rb _ => some (h, 1, 6, [da, db, dc, dd], [ra, rb])
  | .stkPush h da db ra _ => some (h, 2, 7, [da, db], [ra])
  | .stkPop h da ra rb => some (h, 1, 7, [da], [ra, rb])
  | _ => none

/-- Words already accessible that a Bench's unit reads: they may be accessed, are clean and not poisoned, and full where FE asks for
it. -/
abbrev State.Readable (s : State) (p : Part) (r : RdReq) : Prop :=
  r.view = none ∧ s.mayAccess p (16 * r.word) = true ∧ (s.mark r.word).upset = .clean ∧ (s.mark r.word).poison = false
    ∧ (inSram (16 * r.word) = true → r.fe = 2 ∨ s.full r.word = true)

/-- An instruction of a queue begins on a unit: it leaves the queue and is in progress there with what it has to read; s' is the state
it begins in, and memory and the other queues stand (R278, R279). -/
def Begins (i : Instr) (s s' : State) (b : Bid) (q : Fin 8) (e : Entry) (u : Nat) (reads : List RdReq) : Prop :=
  ∃ t r, exec i s = .next t ∧ (t.bench b).run = (s'.bench b).run ++ [r] ∧ r.e = e ∧ r.q = q ∧ r.unit = u ∧ r.reads = reads
    ∧ r.got = [] ∧ r.computed = false ∧ (∀ x, QItem.instr x ∈ t.queue b q → x.id ≠ e.id)
    ∧ (∀ k, k ≠ q → t.queue b k = s'.queue b k) ∧ t.mem = s'.mem

/-- The instruction in progress on a unit is over: the unit is free, no fence or vote waits for it, and memory is `mem` (R278). -/
def Completes (i : Instr) (s : State) (b : Bid) (q : Fin 8) (u id : Nat) (mem : List Host.Cell) : Prop :=
  ∃ t, exec i s = .next t ∧ t.mem = mem ∧ (t.bench b).running q u = none ∧ (∀ x ∈ (t.fm b).fences, id ∉ x.covers)
    ∧ ∀ v, (t.fm b).voteReq = some v → id ∉ v.covers

/-- The value of a format's magnitude code in units of 2^lo. -/
def Fmt.units (f : Fmt) (lo : Int) (c : Nat) : Int := (f.mag c).1 * 2 ^ ((f.mag c).2 - lo).toNat

/-- How a magnitude m * 2^e rounds to a magnitude code, in exact integers: to the nearest, a tie to the even code; toward zero; and by a
random r between its two neighbours in signed order, an exact value to itself (R55-R58). -/
def RoundingRules : Prop :=
  ∀ (f : Fmt) (neg : Bool) (m : Nat) (e lo : Int), lo ≤ e → lo ≤ f.q →
    let z : Int := m * 2 ^ (e - lo).toNat
    let v := f.units lo
    (let c := f.roundMag .rne neg m e
      ∀ c', c' ≠ c → (z - v c).natAbs < (z - v c').natAbs ∨ (z - v c).natAbs = (z - v c').natAbs ∧ c % 2 = 0)
    ∧ (v (f.roundMag .rz neg m e) ≤ z ∧ z < v (f.roundMag .rz neg m e + 1))
    ∧ ∀ (r : Nat) (c : Nat), v c ≤ z → z < v (c + 1) → f.roundMag (.sr r) neg m e =
        if z = v c then c
        else if neg then (if (r : Int) < 2 ^ 32 * (v (c + 1) - z) / (v (c + 1) - v c) then c else c + 1)
        else if (r : Int) < 2 ^ 32 * (z - v c) / (v (c + 1) - v c) then c + 1 else c

/-- How a block is narrowed (R54): a non-finite input makes SE8 0xFF and every code zero; a block of scaled zeros is a zero block; else the
exponent is the smallest that holds the largest magnitude, within -126 to 127, the codes are the scaled values rounded, and a block
of codes that are all zero is a zero block. -/
def BlockRules : Prop :=
  (∀ (n n' : Bool) (m vm : Nat) (e ve : Int), 0 < m → 0 < vm →
    let k := blockExp (.fin n m e) (.fin n' vm ve)
    (X.fin false m e).le (.fin false vm (ve + k)) = true ∧ (X.fin false m e).le (.fin false vm (ve + k - 1)) = false)
  ∧ ∀ (c : Enc) (xs : List (Nat × X)),
    let y (x : X) : X := (scaleElem c.fmt false (invScale c.scale) x).1
    let top := xs.foldl (fun m x => X.max m (y x.2).abs) X.zero
    let k := min (max (blockExp top (vmaxX c.fmt c.table)) (-126)) 127
    let codes := xs.map fun x => (roundElem c.fmt c.table false false (rndOf c.rnd c.key x.1) ((y x.2).scale (-k))).1
    let out := encBlock c xs
    ((∃ x ∈ xs, x.2.isFinite = false) → out.1 = 255 ∧ out.2.1 = xs.map (fun _ => 0)
      ∧ out.2.2.nonfin = (xs.filter fun x => !x.2.isFinite).length ∧ out.2.2.sat = 0 ∧ out.2.2.zblk = 0)
    ∧ ((∀ x ∈ xs, x.2.isFinite = true) → top.isZero = true ∨ (∀ w ∈ codes, (elemX c.fmt c.table w).isZero = true) →
      out.1 = 0 ∧ out.2.1 = xs.map (fun _ => 0) ∧ out.2.2.zblk = 1)
    ∧ ((∀ x ∈ xs, x.2.isFinite = true) → top.isZero = false → (∃ w ∈ codes, (elemX c.fmt c.table w).isZero = false) →
      out.1 = (k + 127).toNat ∧ out.2.1 = codes ∧ out.2.2.zblk = 0 ∧ out.2.2.nonfin = 0)

/-- The limits of a conversion into BF16 and F16, and its signs (R59, R60, R62, R63): NaN and infinity by their patterns, a zero with its
sign, and a magnitude beyond Vmax saturated, or with INF infinite from half an ulp beyond on, or Vmax. -/
def LimitRules : Prop :=
  ∀ (c : Enc) (i : Nat) (neg : Bool), c.fmt = BF16 ∨ c.fmt = F16 →
    let sign := if neg then signWeight c.fmt else 0
    (encPlain c i (.nan neg)).1 = nanOf c.fmt neg ∧ (encPlain c i (.nan neg)).2.nonfin = 1
    ∧ (encPlain c i (.inf neg)).1 = infOf c.fmt neg ∧ (encPlain c i (.inf neg)).2.nonfin = 1
    ∧ (∀ e, (encPlain c i (.fin neg 0 e)).1 = sign)
    ∧ ∀ m e, (vmaxX c.fmt c.table).lt (.fin false m e) = true →
      let out := encPlain c i (.fin neg m e)
      let (vm, ve) := (fmtOf c.fmt).mag (vmaxCode c.fmt)
      (c.inf = false → out.1 = sign + vmaxCode c.fmt ∧ out.2.sat = 1)
      ∧ (c.inf = true → rndOf c.rnd c.key i ≠ .rz → (X.fin false (2 * vm + 1) (ve - 1)).le (.fin false m e) = true →
        out.1 = infOf c.fmt neg ∧ out.2.nonfin = 1 ∧ out.2.sat = 0)
      ∧ (c.inf = true → rndOf c.rnd c.key i = .rz ∨ (X.fin false (2 * vm + 1) (ve - 1)).le (.fin false m e) = false →
        out.1 = sign + vmaxCode c.fmt ∧ out.2.sat = 0 ∧ out.2.nonfin = 0)

/-- Some words hold `val i` as the code of each element i of a tensor without a block size (R57, R66). -/
def Tensor.Holds (t : Tensor) (ws : Tab WordBits) (val : Nat → List Nat → Nat) : Prop :=
  t.bs = 0 → t.distinct = true → (∀ n ∈ t.ext, 0 < n) → ∀ i < t.count, let ix := unrank t.ext i
    gotBits (wordsGot ws) (t.bitAddr ix) (fmtWidth t.fmt) = val i ix % 2 ^ fmtWidth t.fmt

/-- A Wedge conversion writes each element as it is read in binary32, rotated groups apart, and narrowed (R54, R57, R65, R114); so do the
Screens' operations their results (R177, R181, R187, R188). -/
def StoredResults : Prop :=
  ∀ (r : Running) (i : Nat), let t := r.e.tensor i
    (∀ f, r.e.op = .cvt f → t.rotsel = 0 → t.Holds (wedgeDest r i).1 fun k ix =>
      (encPlain (t.enc (r.tab i) (r.scale i) (srKey r.e.seed r.e.step (if i = 1 then f.tid0.toNat else f.tid1.toNat))) k
        (wedgeSrc r ix).x).1)
    ∧ ∀ val, (∃ o, r.e.scr = .map o ∧ val = mapVal o r) ∨ (∃ s m, r.e.scr = .curve s m ∧ val = curveVal m r)
        ∨ (∃ s g, r.e.scr = .dcurve s g ∧ val = dcurveVal g (i == 4) r) →
      t.Holds (scrDest r i).1 fun k ix =>
        (encPlain (t.enc (r.tab i) (r.scale i) (srKey r.e.seed r.e.step (scrTid r.e i))) k (val ix).x).1

/-- The tree of R183: level n's value j is formed from values 2j and 2j + 1 of the level before it. -/
def treeRow (op : X → X → X) (lane : Nat → X) : Nat → Nat → X
  | 0, j => lane j
  | n + 1, j => op (treeRow op lane n (2 * j)) (treeRow op lane n (2 * j + 1))

/-- What the Screens' operations give: elements (R181), the larger and the smaller with signed zeros, a row's reduction in lanes and then a
tree, its maximum and its NaN (R183), and a curve's tails (R185). -/
def ScreenElements : Prop :=
  (∀ f a b c : X, mapElem .copy f a b c = sc a ∧ mapElem .add f a b c = sc (a.add b) ∧ mapElem .sub f a b c = sc (a.sub b)
    ∧ mapElem .mul f a b c = sc (a.mul b) ∧ mapElem .fma f a b c = sc ((a.mul b).add c) ∧ mapElem .scale f a b c = sc (a.mul f)
    ∧ mapElem .abs f a b c = sc a.abs ∧ mapElem .neg f a b c = sc a.opp ∧ mapElem .sqrt f a b c = sc a.sqrt
    ∧ mapElem .recip f a b c = sc ((X.fin false 1 0).div a) ∧ mapElem .rsqrt f a b c = sc a.rsqrt
    ∧ mapElem .max f a b c = sc (scMax a b) ∧ mapElem .min f a b c = sc (scMin a b))
  ∧ (∀ a b : X, (a.isNan = true ∨ b.isNan = true → (scMax a b).isNan = true ∧ (scMin a b).isNan = true)
    ∧ (a.isNan = false → b.isNan = false → (scMax a b = a ∨ scMax a b = b) ∧ (scMax a b).lt a = false ∧ (scMax a b).lt b = false
      ∧ (scMin a b = a ∨ scMin a b = b) ∧ a.lt (scMin a b) = false ∧ b.lt (scMin a b) = false
      ∧ (a.isZero = true → b.isZero = true → (scMax a b).neg = (a.neg && b.neg) ∧ (scMin a b).neg = (a.neg || b.neg))))
  ∧ (∀ (op : X → X → X) (id : X) (xs : List X), laneReduce op id xs = treeRow op (fun l =>
      ((List.range xs.length).filter fun i => i % 256 == l).foldl (fun a i => op a (xs.getD i X.zero)) id) 8 0)
  ∧ (∀ xs : List X, ((∃ x ∈ xs, x.isNan = true) → (rowReduce .rmax xs).isNan = true)
    ∧ ((∀ x ∈ xs, x.isNan = false) → (∀ x ∈ xs, (rowReduce .rmax xs).lt x = false) ∧ (xs ≠ [] → rowReduce .rmax xs ∈ xs)))
  ∧ ∀ (c : List Word) (x : X), let lo := lo32 (c.getD 0 0)
    let hi := lo.add (X.fin false (hdrSegs (c.getD 0 0)) (sext 8 (fld (c.getD 0 0) 32 8)))
    (x.isNan = true → curveAt c x = .nan false)
    ∧ (x.isNan = false → x.lt lo = true → curveAt c x = if (lo32 (c.getD 1 0)).isZero = true then hi32 (c.getD 1 0)
        else sc ((sc ((lo32 (c.getD 1 0)).mul x)).add (hi32 (c.getD 1 0))))
    ∧ (x.isNan = false → x.lt lo = false → hi.le x = true → curveAt c x = if (lo32 (c.getD 2 0)).isZero = true then hi32 (c.getD 2 0)
        else sc ((sc ((lo32 (c.getD 2 0)).mul x)).add (hi32 (c.getD 2 0))))

/-- What SCR.SMAX, SCR.TOPK and SCR.OPT give: a masked key scores minus infinity, and a row without live keys has zero probabilities,
ALPHA 1 and its l kept (R189); the k elements that rank highest, in descending order, ties to the lower position (R190); an
element's update, or its old values where that is not finite (R192). -/
def ScreenRows : Prop :=
  (∀ (mask : Bool) (r : Running) (ix : List Nat), let w := smaxRow mask r ix
    (mask = true → ∀ c < w.z.length, (r.e.rs.getD 1 0).toNat + rank ((r.e.tensor 0).ext0 1) (ix.set 0 0) < (r.e.rs.getD 2 0).toNat + c →
      w.z[c]? = some (X.inf true))
    ∧ (w.live = false → (smaxP mask r ix).x = X.zero ∧ w.alpha = X.fin false 1 0
      ∧ (w.bad = false → ix.headD 0 ≠ 0 → ix ∉ smaxKept mask r)))
  ∧ (∀ (byValue : Bool) (k : Nat) (xs : List X), k ≤ xs.length →
    let l := topRow byValue k xs
    l.length = k ∧ (l.map Prod.fst).Nodup ∧ (∀ e ∈ l, xs[e.1]? = some e.2)
    ∧ l.Pairwise (fun x y => topAbove byValue y.2 x.2 = false ∧ (topAbove byValue x.2 y.2 = false → x.1 < y.1))
    ∧ ∀ j v, xs[j]? = some v → j ∉ l.map Prod.fst → ∀ e ∈ l,
      topAbove byValue v e.2 = false ∧ (topAbove byValue e.2 v = false → e.1 < j))
  ∧ ∀ (r : Running) (ix : List Nat), let o := optElem r ix
    let p := r.param
    let w := (scrRead r 0 ix).x
    let m := (scrRead r 3 ix).x
    let v := (scrRead r 5 ix).x
    let g := sc ((scrRead r 2 ix).x.mul (p 7))
    let m1 := sc ((sc ((p 1).mul m)).add (sc ((p 2).mul g)))
    let v1 := sc ((sc ((p 3).mul v)).add (sc ((p 4).mul (sc (g.mul g)))))
    let u := sc ((sc (m1.mul (p 8))).div (sc ((sc (sc (v1.mul (p 9))).sqrt).add (p 5))))
    let w1 := sc (w.sub (sc ((p 0).mul (sc (u.add (sc ((p 6).mul w)))))))
    (w1.isFinite = true → m1.isFinite = true → v1.isFinite = true → o.w1 = w1 ∧ o.m1 = m1 ∧ o.v1 = v1 ∧ o.refused = false)
    ∧ (w1.isFinite = false ∨ m1.isFinite = false ∨ v1.isFinite = false → o.w1 = w ∧ o.m1 = m ∧ o.v1 = v ∧ o.refused = true)

/-- The class deltas of a partition's snapshots, Bench after Bench in rising order (R147). -/
def State.snapshots (s : State) (p : Part) : List ClassDelta :=
  (s.plumbBenches p).flatMap fun b => (((s.plumb p).snaps.find? fun x => x.1 == b.val).map Prod.snd).getD []

/-- What a class's partition sums are: counts modulo 2^64, AMAX by maximum, and the partials added in binary64 in order (R147). -/
def SumsOf (x : ClassDelta) (ds : List ClassDelta) : Prop :=
  let sum (f : Ev → Nat) : Prop := f x.ev % 2 ^ 64 = (ds.map fun d => f d.ev).sum % 2 ^ 64
  let add (a b : Word) : Word := BitVec.ofNat 64 (enc64 ((dec64 a.toNat).add (dec64 b.toNat)).f64)
  sum Ev.nonfin ∧ sum Ev.sat ∧ sum Ev.ufz ∧ sum Ev.van ∧ sum Ev.zblk ∧ sum Ev.elem ∧ sum Ev.nz
    ∧ (∀ d ∈ ds, d.ev.amax ≤ x.ev.amax) ∧ (∃ d ∈ ds, x.ev.amax = d.ev.amax)
    ∧ x.part = (ds.filterMap fun d => d.part).foldl (fun a d => match a with
      | none => some d
      | some y => some (add y.1 d.1, add y.2 d.2)) none

/-- A copy agrees with its SUMS: the sums of its values and of their magnitudes, no poison, its length and, where dense, its count (R371). -/
def CopyValid (k : Bucket) (j : Nat) (c : SlotCopy) (ws : List Word) : Prop :=
  let n := sumsCount (ws.getD 3 0)
  let codes := if k.sparse then (pairsFrom c.bytes n).map Prod.snd else codesFrom c.bytes n
  ws.getD 0 0 = f64x (codes.map dec32) ∧ ws.getD 1 0 = f64x (codes.map fun x => (dec32 x).abs)
    ∧ bit (ws.getD 3 0) 32 = false ∧ roundUp ((if k.sparse then 8 else 4) * n) 16 = c.bytes.length ∧ (k.sparse = false → n = k.len j)

/-- What becomes of a copy whose bytes and SUMS have all come: it is taken, or COPY_INVALID is set (R371). Nothing is stored. -/
def CopyJudged (b : Bid) (k : Bucket) (j i : Nat) (c : SlotCopy) (ws : List Word) (s t : State) : Prop :=
  (CopyValid k j c ws → t.bucket b k.id = some (k.onShard j fun x => x.onCopy i fun _ => { c with sums := some ws, taken := true })
    ∧ t.reg (K.WGH_STAT b) = s.reg (K.WGH_STAT b) ∧ t.mem = s.mem)
  ∧ (¬ CopyValid k j c ws → t.rb (K.WGH_STAT b) F.WGH_STAT_COPY_INVALID = true ∧ t.mem = s.mem)

/-- Command i of a queue may begin now and passes its checks (R424, R427, R428). -/
abbrev State.CmdBegins (s : State) (q i : Nat) (p : Part) (c : QCmd) : Prop :=
  (s.hq q).cmds[i]? = some c ∧ s.qOwner q = some p ∧ s.qServed q = true ∧ c.status = none ∧ c.begun = false
    ∧ s.mayBegin q i = true ∧ s.cmdCheck p c = none

/-- The status with which command i of a queue has ended, if it has. -/
def State.cmdStatus (s : State) (q i : Nat) : Option Nat := ((s.hq q).cmds[i]?).bind fun c => c.status

/-- The request at the head of those waiting is m, it is this message, and no unknown message waits (R530). -/
abbrev State.Waits (s : State) (m : MbReq) (msg : Nat) : Prop :=
  s.pwr.mainOn = true ∧ s.hubCore mgmtCore = true ∧ s.mgmt.service.head? = some m ∧ m.msg.toNat = msg
    ∧ ∀ x ∈ s.mgmt.service, messages.contains x.msg.toNat = true

/-- The answer that the channel of a request holds (R433, R531). -/
def State.answered (t : State) (m : MbReq) (code : Nat) (payload : List Byte) : Prop :=
  let box : Mailbox := ⟨code == rInProgress, true, code, m.msg, m.tag, response m code payload⟩
  if m.chan.val < 4 then (t.hport (chanPart m.chan)).mbx = box
  else tget HostPort.reset.mbx t.mgmt.mctp m.chan.val = { box with busy := false }

/-- A request is served: answered with a code and a payload, or, where it may last longer and is accepted, as in progress; entered in
the audit log where its message calls for it; and P holds of the state it leaves. Where that entry cannot be written, the answer is
FLASH_ERROR and nothing else happens (R433, R530, R535). -/
def Serves (c : Instr) (s : State) (m : MbReq) (long : Bool) (code : Nat) (payload : List Byte) (P : State → Prop) : Prop :=
  (s.entryFails m = true → ∃ t, exec c s = .next t ∧ t.answered m rFlashError [] ∧ t.regs = s.regs ∧ t.mem = s.mem
    ∧ t.benches = s.benches ∧ t.mgmt.chans = s.mgmt.chans ∧ t.mgmt.flash.audit = s.mgmt.flash.audit)
  ∧ (s.entryFails m = false → ∃ t, exec c s = .next t
    ∧ (t.answered m code payload
      ∨ (long = true ∧ code = rOk ∧ t.answered m rInProgress [] ∧ (m.chan, m) ∈ t.mgmt.working))
    ∧ (audited m.msg.toNat = true → s.mgmt.flash.auditCtr < t.mgmt.flash.auditCtr) ∧ P t)

/-- The SPDM responder of an endpoint answers a, and registers and memory stand (R526). -/
def Says (c : Instr) (s : State) (ch : Chan) (a : SpdmAnswer) : Prop :=
  ∃ t, exec c s = .next t ∧ tget [] t.mgmt.spdm ch.val = tget [] s.mgmt.spdm ch.val ++ [a] ∧ t.regs = s.regs ∧ t.mem = s.mem

end Sys2Proof.Machine
end

