-- ==== Sys2Proof/Certificates/Slice0/Obligations.lean ====
section
/-!
DEFINITION. The statements for the provers. Each docstring names the rules of the specification it rests on.
-/

open Sys2Proof Sys2Proof.Machine

/-- O1 (R274, R310, R311, R312). For every well-formed Foreman instruction, the words that its encoding gives it
decode to it again, with every operand at every value the encoding admits. An instruction of one word does not depend
on the word behind it. -/
def Obligations.DecodeOfEncode : Prop :=
  ∀ (i : Instr) (b : Bid) (w : Word) (x : Option Word) (y : Word),
    i.wellFormed = true → encode i = some (b, w, x) → decodeInstr b w (x.getD y) = some i

/-- O2 (R272, R283, R285, R296). From every state that meets the invariant, a step that answers a next state answers
one that meets it: memory, registers and word marks stay in canonical form, every Foreman keeps s0 at zero and p0 at
1, at most 8 markers, at most 8 buffered signals and at most 8 outstanding fences. -/
def Obligations.InvariantKept : Prop :=
  ∀ s t : State, s.Inv → step s = .next t → t.Inv

/-- O3 (R272, R283, R285, R296). The state after reset meets the invariant of the module. -/
def Obligations.ResetInvariant : Prop :=
  State.reset.Inv

/-- O4 (95_what_each_step_holds.md). A step with a command at the front of the queue answers what exec answers for
that command on the state with the rest of the queue. The queue is the model's own (log entry 30). -/
def Obligations.StepTakesFront : Prop :=
  ∀ (c : Instr) (rest : List Instr) (s : State),
    s.pending = c :: rest → step s = exec c { s with pending := rest }

/-- O5 (95_what_each_step_holds.md). No command changes the queue of waiting commands: a step at a non-empty queue
leaves its rest, and a step at an empty queue (the model's tick, log entry 30) leaves it empty. -/
def Obligations.QueueKept : Prop :=
  ∀ s t : State, step s = .next t → t.pending = s.pending.tail

/-- O6 (R301, R304). Every state has a next state: no command and no tick stops the machine. Program faults, refused
accesses and dead units are states of the machine (R301, R304). -/
def Obligations.NeverStops : Prop :=
  ∀ s : State, s.StepSafe

/-- O7 (R275, R274, R314). For every well-formed Foreman instruction at every operand: where its Foreman issues, its
guard is false and the fetch behind it stays inside instruction memory, it answers a next state whose Foreman differs
in the program counter alone, which moves on by the words of the instruction, and nothing else changes but what a
retiring instruction counts and traces. -/
def Obligations.GuardFalse : Prop :=
  ∀ (i : Instr) (b : Bid) (w : Word) (x : Option Word) (s : State),
    i.wellFormed = true → encode i = some (b, w, x) →
    s.canIssue b = true → (s.fm b).guard (issueOf b w) = false →
    (s.fm b).pc.toNat + (if x.isSome then 2 else 1) < 32768 →
    Retires i (issueOf b w) s (s.fm b) ((s.fm b).pc + (if x.isSome then 2 else 1))

/-- O8 (R318, R321, R272). ADDI, ANDI, ORI, XORI, SHLI, SHRI, SARI and IMM64 write s[RD]; TMOV copies a descriptor
register, TSET replaces one 64-bit word of one, TGET reads one word into s[RD]. Nothing else changes but the program
counter. -/
def Obligations.ImmediateResults : Prop :=
  ∀ (s : State) (h : Issue) (rd ra : BitVec 5) (td ta : BitVec 4) (w : BitVec 3) (imm : BitVec 39) (sh : BitVec 6)
      (ext : Word), s.Issues h 2 → s.Arrived h.bench [ra, rd] → s.ArrivedT h.bench [td, ta] →
    let a := s.sreg h ra
    let i := imm.signExtend 64
    let f := s.fm h.bench
    WritesS (.addi h rd ra imm) h 1 s rd (a + i) ∧ WritesS (.andi h rd ra imm) h 1 s rd (a &&& i)
    ∧ WritesS (.ori h rd ra imm) h 1 s rd (a ||| i) ∧ WritesS (.xori h rd ra imm) h 1 s rd (a ^^^ i)
    ∧ WritesS (.shli h rd ra sh) h 1 s rd (a <<< sh.toNat) ∧ WritesS (.shri h rd ra sh) h 1 s rd (a >>> sh.toNat)
    ∧ WritesS (.sari h rd ra sh) h 1 s rd (a.sshiftRight sh.toNat)
    ∧ WritesS (.imm64 h rd ext) h 2 s rd ext
    ∧ WritesS (.tget h rd ta w) h 1 s rd ((f.getT ta).extractLsb' (64 * w.toNat) 64)
    ∧ Retires (.tmov h td ta) h s (f.setT td (f.getT ta)) (f.pc + 1)
    ∧ ∃ d : Desc, Retires (.tset h td ra w) h s (f.setT td d) (f.pc + 1)
        ∧ ∀ j : BitVec 3, d.extractLsb' (64 * j.toNat) 64 = if j = w then a else (f.getT td).extractLsb' (64 * j.toNat) 64

/-- O9 (R316, R317, R318, R272, R314). Where it issues and its registers have arrived, each of ADD to MAXU answers a
next state with the result the rule gives in s[RD] (s0 takes none), each compare writes p[RD] with its relation of the
two scalar values (or of s[RA] and the sign-extended immediate), each predicate operation with its function of p[RA]
and p[RB] (p0 takes none); the program counter moves one word on, and every other register, memory and queue stands.
-/
def Obligations.AluResults : Prop :=
  ∀ (s : State) (h : Issue) (rd ra rb : BitVec 5) (pd pa pb : BitVec 3) (imm : BitVec 39), s.Issues h 1 →
    s.Arrived h.bench [ra, rb] →
    let a := s.sreg h ra
    let b := s.sreg h rb
    let i := imm.signExtend 64
    let p := (s.fm h.bench).getP pa
    let q := (s.fm h.bench).getP pb
    (s.Arrived h.bench [rd] →
      WritesS (.add h rd ra rb) h 1 s rd (a + b) ∧ WritesS (.sub h rd ra rb) h 1 s rd (a - b)
      ∧ WritesS (.and_ h rd ra rb) h 1 s rd (a &&& b) ∧ WritesS (.or_ h rd ra rb) h 1 s rd (a ||| b)
      ∧ WritesS (.xor_ h rd ra rb) h 1 s rd (a ^^^ b)
      ∧ WritesS (.shl h rd ra rb) h 1 s rd (a <<< (b.toNat % 64))
      ∧ WritesS (.shr h rd ra rb) h 1 s rd (a >>> (b.toNat % 64))
      ∧ WritesS (.sar h rd ra rb) h 1 s rd (a.sshiftRight (b.toNat % 64))
      ∧ WritesS (.min_ h rd ra rb) h 1 s rd (if a.slt b then a else b)
      ∧ WritesS (.minu h rd ra rb) h 1 s rd (if a.ult b then a else b)
      ∧ WritesS (.max_ h rd ra rb) h 1 s rd (if a.slt b then b else a)
      ∧ WritesS (.maxu h rd ra rb) h 1 s rd (if a.ult b then b else a))
    ∧ WritesP (.ceq h pd ra rb) h s pd (a == b) ∧ WritesP (.cne h pd ra rb) h s pd (a != b)
    ∧ WritesP (.clt h pd ra rb) h s pd (a.slt b) ∧ WritesP (.cltu h pd ra rb) h s pd (a.ult b)
    ∧ WritesP (.cge h pd ra rb) h s pd (!a.slt b) ∧ WritesP (.cgeu h pd ra rb) h s pd (!a.ult b)
    ∧ WritesP (.ceqi h pd ra imm) h s pd (a == i) ∧ WritesP (.clti h pd ra imm) h s pd (a.slt i)
    ∧ WritesP (.cltui h pd ra imm) h s pd (a.ult i)
    ∧ WritesP (.pand h pd pa pb) h s pd (p && q) ∧ WritesP (.por h pd pa pb) h s pd (p || q)
    ∧ WritesP (.pxor h pd pa pb) h s pd (xor p q) ∧ WritesP (.pandn h pd pa pb) h s pd (p && !q)

/-- O10 (R277, R316, R318, R319). Where it issues and its registers have arrived, each retires with its result pending
for s[RD]: the low and the high half of the unsigned product, the quotient (all ones for a zero divisor), the
remainder (s[RA] for a zero divisor), the product with the sign-extended immediate. PENDING_VALUE_ARRIVES takes the
oldest value that waits for a scalar or a descriptor register off the list and writes it there. Nothing else changes.
-/
def Obligations.LateResults : Prop :=
  (∀ (s : State) (h : Issue) (rd ra rb : BitVec 5) (imm : BitVec 39), s.Issues h 1 → s.Arrived h.bench [ra, rb, rd] →
    let a := s.sreg h ra
    let b := s.sreg h rb
    PendsS (.mul h rd ra rb) h s rd (a * b)
    ∧ PendsS (.mulhu h rd ra rb) h s rd (BitVec.ofNat 64 (a.toNat * b.toNat / 2 ^ 64))
    ∧ PendsS (.divu h rd ra rb) h s rd (if b = 0 then BitVec.allOnes 64 else a / b)
    ∧ PendsS (.remu h rd ra rb) h s rd (if b = 0 then a else a % b)
    ∧ PendsS (.muli h rd ra imm) h s rd (a * imm.signExtend 64))
  ∧ ∀ (s : State) (b : Bid) (rest : List Pend),
    (∀ (r : BitVec 5) (v : Word), (s.fm b).pend = .s r v :: rest →
      exec (.pendingValueArrives b false r) s = .next (s.onFm b fun f => { f with pend := rest }.setS r v))
    ∧ (∀ (r : BitVec 4) (v : Desc), (s.fm b).pend = .t r v :: rest →
      exec (.pendingValueArrives b true (r.setWidth 5)) s = .next (s.onFm b fun f => { f with pend := rest }.setT r v))

/-- O11 (R276, R315, R322). NOP goes on at the next word. BR and CALL go on at pc + OFF, JR and CALLR at s[RA] read
before the link is written; CALL and CALLR write pc + 1 into s31. Nothing else changes. BR, CALL, JR and CALLR whose
target lies outside instruction memory fault, and so does the fetch behind the last word: the Foreman is FAULTED, and
FM_FAULT.CODE, if it was zero, is PC_RANGE (0x16); a CALL or CALLR that faults has still written s31, and memory
stands. -/
def Obligations.BranchTargets : Prop :=
  ∀ (s : State) (h : Issue) (off : BitVec 20) (ra : BitVec 5),
    let f := s.fm h.bench
    let link := f.setS 31 (BitVec.ofNat 64 (f.pc.toNat + 1))
    let target := (f.pc.toNat : Int) + off.toInt
    let a := s.sreg h ra
    let code := fun (x : State) => x.rf (K.FM_FAULT h.bench) F.FM_FAULT_CODE
    let ranges (i : Instr) (g : Foreman) : Prop := ∃ t, exec i s = .next t ∧ (t.fm h.bench).st = .faulted
      ∧ (t.fm h.bench).s = g.s ∧ t.mem = s.mem ∧ (code s = 0 → code t = 0x16)
    (s.Issues h 1 → s.Arrived h.bench [ra, 31] →
      Retires (.nop h) h s f (f.pc + 1)
      ∧ (0 ≤ target → target < 32768 → Retires (.br h off) h s f (BitVec.ofInt 15 target)
          ∧ Retires (.call h off) h s link (BitVec.ofInt 15 target))
      ∧ (a.toNat < 32768 → Retires (.jr h ra) h s f (BitVec.ofNat 15 a.toNat)
          ∧ Retires (.callr h ra) h s link (BitVec.ofNat 15 a.toNat))
      ∧ (s.Inv → (target < 0 ∨ 32768 ≤ target) → ranges (.br h off) f ∧ ranges (.call h off) link)
      ∧ (s.Inv → 32768 ≤ a.toNat → ranges (.jr h ra) f ∧ ranges (.callr h ra) link))
    ∧ (s.Inv → s.canIssue h.bench = true → f.pc = 32767 → ranges (.nop h) f)

/-- O12 (R296, R297, R298, R322, R335). END leaves the Foreman DRAINING with everything else as before. A DRAINING
Foreman whose Bench has nothing outstanding enters STOPPED at FOREMAN_DRAIN_COMPLETE; FM_STAT.ENDED says whether END
brought it there. With FM_CTL.JOB at 1, MARK.BEGIN pushes its identifier on a marker stack that holds fewer than 8,
and MARK.END pops a stack that is not empty; nothing else changes. With JOB at 0 both do nothing. -/
def Obligations.EndAndMarkers : Prop :=
  (∀ (s : State) (h : Issue), s.Issues h 1 →
    Retires (.end_ h) h s { s.fm h.bench with st := .draining, ending := true } ((s.fm h.bench).pc + 1))
  ∧ (∀ (s : State) (b : Bid), s.Inv → (s.fm b).st = .draining → (s.bench b).idle = true →
    ∃ t, exec (.foremanDrainComplete b) s = .next t ∧ t.fm b = { s.fm b with st := .stopped, ending := false }
      ∧ t.rb (K.FM_STAT b) F.FM_STAT_ENDED = (s.fm b).ending ∧ t.mem = s.mem)
  ∧ ∀ (s : State) (h : Issue) (id : BitVec 32), s.Issues h 2 →
    let f := s.fm h.bench
    let job := s.rb (K.FM_CTL h.bench) F.FM_CTL_JOB
    (job = true → f.marks.length < 8 → Retires (.markBegin h id) h s { f with marks := id :: f.marks } (f.pc + 2))
    ∧ (job = true → f.marks ≠ [] → Retires (.markEnd h) h s { f with marks := f.marks.tail } (f.pc + 1))
    ∧ (job = false → Retires (.markBegin h id) h s f (f.pc + 2) ∧ Retires (.markEnd h) h s f (f.pc + 1))

/-- O13 (R212, R281, R319, R320, R321, R557). For an aligned address in Bench SRAM whose words may be accessed, are
clean and, unless FE is PLAIN, are full: LD leaves the 8 bytes at s[RA] + sext(OFF) pending for s[RD], TLD the 64
bytes for t[RD]; no byte of memory changes; the full/empty bits of the words read stand, but TAKE empties them; the
Foreman changes in no other way. On an empty word WAIT and TAKE stall the Foreman with nothing read (R281). At an
address of a control block, of a Bench at 0xFF00_0000_0000 + b * 0x0100_0000 or of the Hub at 0xFF10_0000_0000 (R557),
LD leaves the value of the register there pending. -/
def Obligations.LoadsRead : Prop :=
  ∀ (s : State) (h : Issue) (rd ra : BitVec 5) (td : BitVec 4) (fe : BitVec 2) (off : BitVec 37), s.Inv → s.Issues h 1 →
    s.Arrived h.bench [ra, rd] → s.ArrivedT h.bench [td] → fe ≠ 3 →
    let A := (s.sreg h ra + off.signExtend 64).toNat
    let f := s.fm h.bench
    (∀ b o r is, A % 8 = 0 →
      let k := if b < 16 then b * 0x1000000 + o else hubKey + o
      o < 0x1000000 → A = (if b < 16 then 0xFF0000000000 + b * 0x1000000 else 0xFF1000000000) + o →
      s.regFind ((s.partOf h.bench).getD 0) false k = .ok r is →
      ∃ t, exec (.ld h rd ra fe off) s = .next t ∧ t.mem = s.mem ∧ t.marks = s.marks
        ∧ t.fm h.bench = { f with pend := f.pend ++ (if rd = 0 then [] else [.s rd (s.view k)]), pc := f.pc + 1 })
    ∧ (inSram A = true →
    (A % 8 = 0 → s.Clean h (A / 16) → (fe = 2 ∨ s.full (A / 16) = true) →
      ∃ t, exec (.ld h rd ra fe off) s = .next t ∧ t.mem = s.mem
        ∧ (∀ n, t.full n = if n = A / 16 ∧ fe = 1 then false else s.full n)
        ∧ (∀ c, c ≠ h.bench → t.bench c = s.bench c)
        ∧ t.fm h.bench = { f with
            pend := f.pend ++ (if rd = 0 then [] else [.s rd (BitVec.ofNat 64 (ofBytes (mread s.mem A 8)))]), pc := f.pc + 1 })
    ∧ (A % 64 = 0 → (∀ i < 4, s.Clean h (A / 16 + i) ∧ (fe = 2 ∨ s.full (A / 16 + i) = true)) →
      ∃ t, exec (.tld h td ra fe off) s = .next t ∧ t.mem = s.mem
        ∧ (∀ n, t.full n = if A / 16 ≤ n ∧ n < A / 16 + 4 ∧ fe = 1 then false else s.full n)
        ∧ (∀ c, c ≠ h.bench → t.bench c = s.bench c)
        ∧ t.fm h.bench = { f with
            pend := f.pend ++ [.t td (BitVec.ofNat 512 (ofBytes (mread s.mem A 64)))], pc := f.pc + 1 })
    ∧ (A % 8 = 0 → s.Clean h (A / 16) → fe ≠ 2 → s.full (A / 16) = false →
      ∃ t, exec (.ld h rd ra fe off) s = .next t ∧ t.mem = s.mem ∧ t.marks = s.marks
        ∧ (t.fm h.bench).parked.isSome = true ∧ (t.fm h.bench).pend = f.pend ∧ t.canIssue h.bench = false))

/-- O14 (R212, R281, R320, R321). For an aligned address in Bench SRAM whose words may be accessed and are clean and,
under WAITFILL, empty: ST writes the 8 bytes of s[RS] at s[RA] + sext(OFF), TST the 64 bytes of t[RS]; every byte
outside them reads as before; their words become full unless FE is PLAIN, and every other full/empty bit stands; the
Foreman changes in its program counter alone. -/
def Obligations.StoresWrite : Prop :=
  ∀ (s : State) (h : Issue) (rs ra : BitVec 5) (ts : BitVec 4) (fe : BitVec 2) (off : BitVec 37), s.Inv → s.Issues h 1 →
    s.Arrived h.bench [ra, rs] → s.ArrivedT h.bench [ts] → fe ≠ 3 →
    let A := (s.sreg h ra + off.signExtend 64).toNat
    let f := s.fm h.bench
    inSram A = true →
    (A % 8 = 0 → s.Clean h (A / 16) → (fe = 1 → s.full (A / 16) = false) →
      ∃ t, exec (.st h rs ra fe off) s = .next t ∧ t.fm h.bench = { f with pc := f.pc + 1 }
        ∧ (∀ a, mget t.mem a =
            if A ≤ a ∧ a < A + 8 then (s.sreg h rs).extractLsb' (8 * (a - A)) 8 else mget s.mem a)
        ∧ (∀ n, t.full n = (s.full n || (n = A / 16 && fe != 2)))
        ∧ (∀ c, c ≠ h.bench → t.bench c = s.bench c))
    ∧ (A % 64 = 0 → (∀ i < 4, s.Clean h (A / 16 + i) ∧ (fe = 1 → s.full (A / 16 + i) = false)) →
      ∃ t, exec (.tst h ts ra fe off) s = .next t ∧ t.fm h.bench = { f with pc := f.pc + 1 }
        ∧ (∀ a, mget t.mem a =
            if A ≤ a ∧ a < A + 64 then (f.getT ts).extractLsb' (8 * (a - A)) 8 else mget s.mem a)
        ∧ (∀ n, t.full n = (s.full n || (A / 16 ≤ n && n < A / 16 + 4 && fe != 2)))
        ∧ (∀ c, c ≠ h.bench → t.bench c = s.bench c))

/-- O15 (R275, R281, R301, R320, R321, R558). LD and ST at an address that is no multiple of 8, TLD and TST at one
that is no multiple of 64, fault with ADDR_ALIGN; an aligned address that is no control block's and lies outside the
windows of the partition faults with ADDR_UNMAPPED; FE = 0b11 faults with INSTR_INVALID where the guard is true, and
retires without effect where it is false (R275). The fault is taken as the statement on program faults says, and
nothing else happens. -/
def Obligations.AccessFaults : Prop :=
  ∀ (s : State) (h : Issue) (r ra : BitVec 5) (td : BitVec 4) (fe : BitVec 2) (off : BitVec 37),
    let A := (s.sreg h ra + off.signExtend 64).toNat
    let faults (i : Instr) (op : Nat) (c : FCode) : Prop := exec i s = .next (s.fault (s.fmCtx h (opcodeOf 0 op)).at_ c)
    (s.Issues h 1 → s.Arrived h.bench [ra, r] → s.ArrivedT h.bench [td] → fe ≠ 3 →
      (A % 8 ≠ 0 → faults (.ld h r ra fe off) 0x18 .addrAlign ∧ faults (.st h r ra fe off) 0x19 .addrAlign)
      ∧ (A % 64 ≠ 0 → faults (.tld h td ra fe off) 0x1A .addrAlign ∧ faults (.tst h td ra fe off) 0x1B .addrAlign)
      ∧ (A % 64 = 0 → s.inWindow ((s.partOf h.bench).getD 0) A = false → ctrlKey A = none →
        faults (.ld h r ra fe off) 0x18 .addrUnmapped ∧ faults (.st h r ra fe off) 0x19 .addrUnmapped
        ∧ faults (.tld h td ra fe off) 0x1A .addrUnmapped ∧ faults (.tst h td ra fe off) 0x1B .addrUnmapped))
    ∧ (s.Issues h 1 →
      faults (.ld h r ra 3 off) 0x18 .instrInvalid ∧ faults (.st h r ra 3 off) 0x19 .instrInvalid
      ∧ faults (.tld h td ra 3 off) 0x1A .instrInvalid ∧ faults (.tst h td ra 3 off) 0x1B .instrInvalid)
    ∧ (s.canIssue h.bench = true → (s.fm h.bench).guard h = false → (s.fm h.bench).pc.toNat + 1 < 32768 →
      let retires (i : Instr) : Prop := Retires i h s (s.fm h.bench) ((s.fm h.bench).pc + 1)
      retires (.ld h r ra 3 off) ∧ retires (.st h r ra 3 off) ∧ retires (.tld h td ra 3 off) ∧ retires (.tst h td ra 3 off))

/-- O16 (R301, R302, R306, R355, R382). PROGRAM_FAULT completes for every operand. For every listed code: the queue
begins nothing further, the Foreman is FAULTED, FM_FAULT captures the code, queue, unit, program counter and marker of
the first fault and sets MORE for a later one, a record sets out, memory stands, and where the partition has an
attempt in progress the Bench has cast a vote no weaker than the code's; the first fault's vote is kept for later
attempts. Any other code names no fault, and nothing changes (log entry 54). -/
def Obligations.ProgramFault : Prop :=
  ∀ (s : State) (b : Bid) (code : Nat) (q : Fin 8) (unit : Nat) (pc : BitVec 15) (mark : BitVec 32),
    let listed := (1 ≤ code ∧ code ≤ 0x17) ∨ (0x20 ≤ code ∧ code ≤ 0x26) ∨ code = 0x28 ∨ code = 0x29
    let vote : Vote := if code ∈ [0x0E, 0x14, 0x24, 0x29] then .abort else .halt
    (¬listed → exec (.programFault b code q unit pc mark) s = .next s)
    ∧ (listed → s.Inv → ∃ t, exec (.programFault b code q unit pc mark) s = .next t ∧ t.mem = s.mem ∧ t.marks = s.marks
      ∧ (t.fm b).st = .faulted ∧ (q ≠ 0 → (t.bench b).stopped.getLsbD q.val = true)
      ∧ (t.fm b).faultVote = some ((s.fm b).faultVote.getD vote)
      ∧ (s.rf (K.FM_FAULT b) F.FM_FAULT_CODE = 0 →
          t.rf (K.FM_FAULT b) F.FM_FAULT_CODE = code ∧ t.rf (K.FM_FAULT b) F.FM_FAULT_MORE = 0
          ∧ t.rf (K.FM_FAULT b) F.FM_FAULT_QUEUE = q.val ∧ t.rf (K.FM_FAULT b) F.FM_FAULT_UNIT = unit % 16
          ∧ t.rf (K.FM_FAULT b) F.FM_FAULT_PC = pc.toNat ∧ t.rf (K.FM_FAULT b) F.FM_FAULT_MARK = mark.toNat)
      ∧ (s.rf (K.FM_FAULT b) F.FM_FAULT_CODE ≠ 0 →
          t.rf (K.FM_FAULT b) F.FM_FAULT_CODE = s.rf (K.FM_FAULT b) F.FM_FAULT_CODE
          ∧ t.rf (K.FM_FAULT b) F.FM_FAULT_MORE = 1)
      ∧ (∃ r, t.errs.coming = s.errs.coming ++ [r])
      ∧ ∀ p, s.partOf b = some p → (s.ctl p).live = true →
          ∃ v, (b.val, v) ∈ (t.ctl p).benchVotes ∧ voteRank vote ≤ voteRank v)

/-- O17 (R274, R275, R276, R301, R311, R314, R548). On an empty queue (the model's tick, log entry 30) the Bench whose
turn it is fetches the words at its program counter: where they decode to an instruction, the step is exec of it on a
state with that Foreman and all queues as before, and memory too but for the 64 KiB in which the Bench stages its
trace (log entry 89), which stand as well while it traces nothing; where they do not, the Foreman faults with
INSTR_INVALID, but for SCR.MAP with a reserved OP, which is dispatched and refused later (log entry 41), and for a
word whose guard is false and which only a reserved operand code refuses: it retires without effect (log entry 42). -/
def Obligations.TickIssues : Prop :=
  ∀ s : State, s.pending = [] → s.canIssue s.turn = true → s.rb (K.CLK_BENCH s.turn) F.CLK_BENCH_STOPPED = false →
    let w := s.fetched s.turn
    let staging := s.turn.val * sramSize + s.rf (K.TRC_CTL s.turn) F.TRC_CTL_STAGE * 65536
    ∃ s1 : State, s1.fm s.turn = s.fm s.turn ∧ s1.pending = []
      ∧ (∀ a, a < staging ∨ staging + 65536 ≤ a → mget s1.mem a = mget s.mem a)
      ∧ (s.traceOn s.turn = false → (s.bench s.turn).trace = [] → s1.mem = s.mem ∧ s1.marks = s.marks)
      ∧ (∀ b q, s1.queue b q = s.queue b q) ∧ s1.turn.val = (s.turn.val + 1) % 16
      ∧ (∀ i, decodeInstr s.turn w.1 w.2 = some i → step s = exec i s1)
      ∧ (decodeInstr s.turn w.1 w.2 = none → reservedMap w.1 w.2 = none →
          ((s.fm s.turn).guard (issueOf s.turn w.1) = true ∨ decodeInstr s.turn (codesMended w.1) w.2 = none →
            step s = .next (s1.fault ⟨s.turn, 0, 0, ⟨w.1.setWidth 10, (s.fm s.turn).pc, s.markOf s.turn⟩⟩ .instrInvalid))
          ∧ ((s.fm s.turn).guard (issueOf s.turn w.1) = false → (decodeInstr s.turn (codesMended w.1) w.2).isSome = true →
            (s.fm s.turn).pc.toNat + 1 < 32768 →
            ∃ t, step s = .next t ∧ t.fm s.turn = { s.fm s.turn with pc := (s.fm s.turn).pc + 1 } ∧ s1.OnlyForeman s.turn t))
      ∧ ∀ x, reservedMap w.1 w.2 = some x →
        step s = execScrMapReserved (issueOf s.turn w.1) x.1 x.2.1 x.2.2.1 x.2.2.2 s1

/-- O18 (R273, R278, R279, R86, R111, R223, R324, R327, R330, R332). Where it issues, its registers have arrived and
its queue has room, each HAUL, CUT.MM, DRS.MM, WDG, WGH and STK instruction becomes the last entry of its engine's
queue with its operands captured, and the Foreman goes on at the next word; no other queue, unit, register or memory
changes but counters. CUT.MM needs no mode switch in progress (R86). -/
def Obligations.EnginesDispatch : Prop :=
  ∀ (s : State) (h : Issue) (sel da db dc dd : BitVec 4) (gd axis : BitVec 3) (ra rb : BitVec 5) (perm : BitVec 15)
      (tid : BitVec 32) (noise : Bool) (f : MMFields) (c : CvtFields) (r : RotFields),
    (s.Dispatchable h 1 1 [da, db] [] →
      Dispatches (.haulLd h sel da db perm) h 1 (opcodeOf 1 1) 1 (.haul .ld 0 0 perm) sel.toNat [da, db] [] s
      ∧ Dispatches (.haulSt h sel da db 0 0 perm) h 1 (opcodeOf 1 2) 1 (.haul .st 0 0 perm) sel.toNat [da, db] [] s)
    ∧ (s.Dispatchable h 1 1 [da, db] [ra] → ∀ remote : BitVec 2, remote ≠ 0 →
      Dispatches (.haulSt h sel da db remote ra perm) h 1 (opcodeOf 1 2) 1 (.haul .st 0 remote perm) sel.toNat [da, db]
        [ra] s)
    ∧ (s.Dispatchable h 1 1 [da, db, dc] [] →
      Dispatches (.haulGth h sel da db dc gd) h 1 (opcodeOf 1 3) 1 (.haul .gth gd 0 0) sel.toNat [da, db, dc] [] s
      ∧ Dispatches (.haulSct h sel da db dc gd) h 1 (opcodeOf 1 4) 1 (.haul .sct gd 0 0) sel.toNat [da, db, dc] [] s)
    ∧ (s.Dispatchable h 1 2 (mmRegs f) [f.ra, f.rb] → (Instr.cutMm h f).wellFormed = true →
      s.rb (K.CUT_CTL h.bench) F.CUT_CTL_SWITCHING = false →
      Dispatches (.cutMm h f) h 1 (opcodeOf 2 1) 2 (.mm false f) f.usel.toNat (mmRegs f) [f.ra, f.rb] s)
    ∧ (s.Dispatchable h 1 3 (mmRegs f) [f.ra, f.rb] → (Instr.drsMm h f).wellFormed = true →
      Dispatches (.drsMm h f) h 1 (opcodeOf 3 1) 3 (.mm true f) f.usel.toNat (mmRegs f) [f.ra, f.rb] s)
    ∧ (s.Dispatchable h 2 4 (cvtRegs c) [] →
      Dispatches (.wdgCvt h c) h 2 (opcodeOf 4 1) 4 (.cvt c) c.wsel.toNat (cvtRegs c) [] s)
    ∧ (s.Dispatchable h 1 4 [r.da, r.db] [] →
      Dispatches (.wdgRot h r) h 1 (opcodeOf 4 2) 4 (.rot r) r.wsel.toNat [r.da, r.db] [] s)
    ∧ (s.Dispatchable h 1 6 [da, db] [ra, rb] →
      Dispatches (.wghRed h da db ra rb axis noise) h 1 (opcodeOf 6 1) 6 (.red axis noise) 0 [da, db] [ra, rb] s)
    ∧ (s.Dispatchable h 1 6 [da, db, dc, dd] [ra, rb] →
      Dispatches (.wghSparse h da db dc dd ra rb axis) h 1 (opcodeOf 6 2) 6 (.sparse axis) 0 [da, db, dc, dd] [ra, rb] s)
    ∧ (s.Dispatchable h 2 7 [da, db] [ra] →
      Dispatches (.stkPush h da db ra tid) h 2 (opcodeOf 7 1) 7 (.push tid) 0 [da, db] [ra] s)
    ∧ (s.Dispatchable h 1 7 [da] [ra, rb] →
      Dispatches (.stkPop h da ra rb) h 1 (opcodeOf 7 2) 7 .pop 0 [da] [ra, rb] s)

/-- O19 (R175, R181, R183, R187, R188, R189, R190, R191, R294, R295, R328, R329). Where it issues, its registers have
arrived and queue SCR has room, each SCR.MAP operation, SCR.CURVE, SCR.DCURVE, SCR.SMAX, SCR.TOPK and SCR.OPT becomes
the last entry of the queue with its operands captured. SCR.DCURVE with GATED needs DD below 15, SCR.OPT needs DA at
most 9, no outstanding STEP.VOTE and PHASE COMMITTED, and the sweep of the step then waits for it too (log entry 25).
-/
def Obligations.ScreensDispatch : Prop :=
  ∀ (s : State) (h : Issue) (ssel : BitVec 2) (da db dc dd : BitVec 4) (ra rb q k slot : BitVec 5) (key norm : Bool)
      (tid tid1 : BitVec 32),
    let D (i : Instr) (op : Nat) (o : ScrOp) (t1 : BitVec 32) (ds : List (BitVec 4)) (rs : List (BitVec 5)) : Prop :=
      s.Dispatchable h 2 5 ds rs → Dispatches i h 2 (opcodeOf 5 op) 5 (.scr o tid t1) ssel.toNat ds rs s
    D (.scrMapCopy h ssel da dd tid) 1 (.map .copy) 0 [da, dd] []
    ∧ D (.scrMapAdd h ssel da db dd tid) 1 (.map .add) 0 [da, db, dd] []
    ∧ D (.scrMapSub h ssel da db dd tid) 1 (.map .sub) 0 [da, db, dd] []
    ∧ D (.scrMapMul h ssel da db dd tid) 1 (.map .mul) 0 [da, db, dd] []
    ∧ D (.scrMapFma h ssel da db dc dd tid) 1 (.map .fma) 0 [da, db, dc, dd] []
    ∧ D (.scrMapMax h ssel da db dd tid) 1 (.map .max) 0 [da, db, dd] []
    ∧ D (.scrMapMin h ssel da db dd tid) 1 (.map .min) 0 [da, db, dd] []
    ∧ D (.scrMapAbs h ssel da dd tid) 1 (.map .abs) 0 [da, dd] []
    ∧ D (.scrMapNeg h ssel da dd tid) 1 (.map .neg) 0 [da, dd] []
    ∧ D (.scrMapScale h ssel da dd ra tid) 1 (.map .scale) 0 [da, dd] [ra]
    ∧ D (.scrMapSqrt h ssel da dd tid) 1 (.map .sqrt) 0 [da, dd] []
    ∧ D (.scrMapRecip h ssel da dd tid) 1 (.map .recip) 0 [da, dd] []
    ∧ D (.scrMapRsqrt h ssel da dd tid) 1 (.map .rsqrt) 0 [da, dd] []
    ∧ D (.scrMapRsum h ssel da dd tid) 1 (.map .rsum) 0 [da, dd] []
    ∧ D (.scrMapRssq h ssel da dd tid) 1 (.map .rssq) 0 [da, dd] []
    ∧ D (.scrMapRmax h ssel da dd tid) 1 (.map .rmax) 0 [da, dd] []
    ∧ D (.scrMapRamax h ssel da dd tid) 1 (.map .ramax) 0 [da, dd] []
    ∧ D (.scrCurve h ssel da none dd slot tid) 2 (.curve slot false) 0 [da, dd] []
    ∧ D (.scrCurve h ssel da (some db) dd slot tid) 2 (.curve slot true) 0 [da, db, dd] []
    ∧ D (.scrDcurve h ssel da db none dd slot tid) 3 (.dcurve slot false) 0 [da, db, dd] []
    ∧ (dd ≠ 15 → D (.scrDcurve h ssel da db (some (dc, tid1)) dd slot tid) 3 (.dcurve slot true) tid1
        [da, db, dc, dd, dd + 1] [])
    ∧ D (.scrSmax h ssel da db dc dd ra none slot tid) 4 (.smax slot false) 0 [da, db, dc, dd] [ra]
    ∧ D (.scrSmax h ssel da db dc dd ra (some (q, k)) slot tid) 4 (.smax slot true) 0 [da, db, dc, dd] [ra, q, k]
    ∧ D (.scrTopk h ssel da db dc none ra rb key tid) 5 (.topk key false) 0 [da, db, dc] [ra, rb]
    ∧ D (.scrTopk h ssel da db dc (some dd) ra rb key tid) 5 (.topk key true) 0 [da, db, dc, dd] [ra, rb]
    ∧ (da.toNat ≤ 9 → (s.fm h.bench).voteReq = none → s.rf (K.STEP_STATE h.bench) F.STEP_STATE_PHASE = 3 →
      let ds := [da, da + 1, da + 2, da + 3, da + 4, da + 5, da + 6]
      let o : EngOp := .scr (.opt norm) tid tid1
      let e := s.newEntry (s.fmCtx h (opcodeOf 5 6)) o ssel.toNat ds [ra]
      let ids := (s.setQueue h.bench 5 (s.queue h.bench 5 ++ [.instr e])).optIds h.bench
      s.Dispatchable h 2 5 ds [ra] →
        DispatchesAt (.scrOpt h ssel da ra norm tid tid1) h 2 (opcodeOf 5 6) 5 o ssel.toNat ds [ra] s
          (s.onCtl ((s.partOf h.bench).getD 0) fun k =>
            k.sweep (s.rf (K.STEP_STATE h.bench) F.STEP_STATE_STEP) h.bench ids))

/-- O20 (R282, R283, R284, R285, R288, R289, R334, R335). Where it issues with room in its queues and buffers:
SYNC.FENCE becomes an outstanding fence that covers the dispatched instructions of the queues in COVER (a ninth stalls
until the oldest of the eight retires); SYNC.SIG SET, ADD and CLEAR enter the signal buffer with their image and
behind the outstanding fences; SYNC.WAIT FULL, TAKE, EMPTY and GE place their gates with their condition; SYNC.BAR
enters the signal buffer and places the gates of its generation. Every queue that GATE names gets the gate as its last
entry. Memory stands. -/
def Obligations.SyncIssues : Prop :=
  ∀ (s : State) (h : Issue) (ra rb rd : BitVec 5) (cover gate : BitVec 8) (fabric : Bool) (bid : Fin 16), s.Issues h 1 →
    s.Arrived h.bench [ra, rb, rd] → s.gateRoom h.bench gate = true →
    let f := s.fm h.bench
    let p := (s.partOf h.bench).getD 0
    let a := s.sreg h ra
    let pc' := f.pc + 1
    let image (v : Word) := signalImage v (s.rf (K.STEP_STATE h.bench) F.STEP_STATE_STEP) h.bench.val
    let sig (k : SigKind) : Sig := ⟨k, p, f.fenceIds, f.pc, s.markOf h.bench⟩
    let waits (i : Instr) (cond : BitVec 2) (cmp : Word) : Prop :=
      ∃ t, exec i s = .next t ∧ GatePlaced s t h (.word a.toNat cond cmp) gate rd ∧ t.mem = s.mem ∧ t.marks = s.marks
        ∧ (t.fm h.bench).pc = pc'
    (f.ninthWaits = true → exec (.syncFence h cover gate) s = .next s)
    ∧ (f.ninthWaits = false → 8 ≤ f.fences.length →
      exec (.syncFence h cover gate) s = .next (s.onFm h.bench fun x => { x with ninth := f.fenceIds.head? }))
    ∧ (f.ninthWaits = false → f.fences.length < 8 →
      ∃ t, exec (.syncFence h cover gate) s = .next t ∧ t.mem = s.mem ∧ (t.fm h.bench).pc = pc'
        ∧ (t.fm h.bench).fences = f.fences ++ [⟨f.nextId, (s.bench h.bench).covered cover, f.pc, s.markOf h.bench⟩]
        ∧ (gate = 0 → (t.fm h.bench).gates = f.gates ∧ ∀ q, t.queue h.bench q = s.queue h.bench q)
        ∧ (gate ≠ 0 → GatePlaced s t h (.fence f.nextId) gate 0))
    ∧ (s.SigPlace p a → f.sigs.length < 8 →
      Retires (.set_ h ra rb) h s { f with sigs := f.sigs ++ [sig (.sig 0 a.toNat (image (s.sreg h rb)))] } pc'
      ∧ Retires (.sigAdd h ra rb) h s { f with sigs := f.sigs ++ [sig (.sig 1 a.toNat (image (s.sreg h rb)))] } pc'
      ∧ Retires (.clear h ra) h s { f with sigs := f.sigs ++ [sig (.sig 2 a.toNat (image (s.sreg h 0)))] } pc')
    ∧ (s.SigPlace p a → gate ≠ 0 → (gate.getLsbD 0 = true ∨ rd = 0) →
      waits (.full h rd ra gate) 0 (s.sreg h 0) ∧ waits (.take h rd ra gate) 1 (s.sreg h 0)
      ∧ waits (.empty h rd ra gate) 2 (s.sreg h 0) ∧ waits (.ge h rd ra rb gate) 3 (s.sreg h rb))
    ∧ (s.inBarrier p h.bench = true → (fabric = true → s.epochOn p = true) → f.sigs.length < 8 →
      ∃ t, exec (.syncBar h fabric bid gate) s = .next t ∧ t.mem = s.mem ∧ (t.fm h.bench).pc = pc'
        ∧ (t.fm h.bench).sigs = f.sigs ++ [sig (.bar fabric bid)]
        ∧ (gate ≠ 0 → GatePlaced s t h (.barrier p fabric bid (s.nextGen p h.bench bid)) gate 0))

/-- O21 (R269, R270, R282, R283, R284, R285, R289, R291, R443, R544). FENCE_RETIRE takes a fence whose instructions
have completed, opens its gates and lets the signals behind it go on; registers stand but what a retiring instruction
counts in. SIGNAL_ISSUE performs the oldest signal in one access: SET writes the image and fills the word, CLEAR
zeroes and empties it, ADD adds the low halves modulo 2^64 and takes the rest of the image; no other byte changes. A
SYNC.WAIT whose condition holds opens its gates, TAKE empties the word, and a waiting Foreman takes the low half. A
barrier's arrival counts, and its complete generation opens every gate of it; a timeout faults every Bench that holds
one. While the core of the barrier unit stands stopped, it does nothing (log entry 74). -/
def Obligations.SyncEvents : Prop :=
  (∀ (s : State) (b : Bid) (e : Fence) (rest : List Fence), (s.fm b).fences = e :: rest → e.covers = [] →
    ∃ t, exec (.fenceRetire b) s = .next t ∧ t.mem = s.mem ∧ (∀ k, k ∉ retireRegs b → t.reg k = s.reg k)
      ∧ (t.fm b).fences = (s.fm b).fences.filter (fun x => x.id != e.id)
      ∧ (∀ g ∈ (t.fm b).sigs, e.id ∉ g.after)
      ∧ ∀ g ∈ (s.fm b).gates, g.kind = .fence e.id → (∀ x ∈ (t.fm b).gates, x.id ≠ g.id) ∧ ∀ q, .gate g.id ∉ t.queue b q)
  ∧ (∀ (s : State) (b : Bid) (g : Sig) (rest : List Sig), s.Inv → (s.fm b).sigs = g :: rest → g.after = [] →
    ∃ t, exec (.signalIssue b) s = .next t
      ∧ (∀ mode a image, g.kind = .sig mode a image → s.mayAccess g.part a = true → (s.mark (a / 16)).upset = .clean →
          let wn := a / 16
          (t.fm b).sigs = rest ∧ (∀ k, k / 16 ≠ wn → mget t.mem k = mget s.mem k) ∧ (∀ n, n ≠ wn → t.mark n = s.mark n)
          ∧ (mode = 0 → t.word wn = image ∧ t.full wn = true ∧ (t.mark wn).poison = false)
          ∧ (mode = 1 → (t.word wn).extractLsb' 0 64 = (s.word wn).extractLsb' 0 64 + image.extractLsb' 0 64
              ∧ (t.word wn).extractLsb' 64 64 = image.extractLsb' 64 64 ∧ t.full wn = true)
          ∧ (mode = 2 → t.word wn = 0 ∧ t.full wn = false))
      ∧ (∀ fabric bid, g.kind = .bar fabric bid →
          (t.fm b).sigs = rest ∧ (t.bar g.part).coming = (s.bar g.part).coming ++ [(b, fabric, bid)] ∧ t.mem = s.mem))
  ∧ (∀ (s : State) (b : Bid) (g : Nat) (x : Gate) (a : Nat) (cond : BitVec 2) (cmp : Word), s.Inv →
    (s.fm b).gates.find? (fun y => y.id == g) = some x → x.kind = .word a cond cmp →
    (s.waitHolds a cond cmp = false → exec (.waitGatesOpen b g) s = .next s)
    ∧ (s.waitHolds a cond cmp = true → s.mayAccess ((s.partOf b).getD 0) a = true → (s.mark (a / 16)).upset = .clean →
      (s.mark (a / 16)).poison = false →
      ∃ t, exec (.waitGatesOpen b g) s = .next t ∧ t.mem = s.mem
        ∧ (∀ y ∈ (t.fm b).gates, y.id ≠ g) ∧ (∀ q, .gate g ∉ t.queue b q)
        ∧ (∀ n, t.full n = (s.full n && !(n = a / 16 && cond = 1)))
        ∧ (t.fm b).s = (if x.fmStall then (s.fm b).setS x.rd ((s.word (a / 16)).setWidth 64) else s.fm b).s))
  ∧ (∀ (s : State) (p : Part) (bid : Fin 16) (b : Bid) (fabric : Bool) (rest : List (Bid × Bool × Fin 16)),
    s.hubCore barrierCore = true → (s.bar p).coming = (b, fabric, bid) :: rest →
    ∃ t, exec (.barrierArrival p bid) s = .next t ∧ (t.bar p).coming = rest ∧ t.mem = s.mem
      ∧ tget 0 (t.bar p).arrived (bid.val * 16 + b.val) = tget 0 (s.bar p).arrived (bid.val * 16 + b.val) + 1)
  ∧ (∀ (s : State) (p : Part) (bid : Fin 16), s.Inv → s.hubCore barrierCore = true → (s.bar p).coming = [] →
    let n : BitVec 16 := BitVec.ofNat 16 (s.rf (K.BAR_GEN p bid.val) F.BAR_GEN_RELEASED + 1)
    genReached (tget 0 (s.bar p).sentUp bid.val) n = false → s.barBenches p ≠ [] →
    s.barHere p bid n = true → (bid.val, n.toNat) ∉ (s.bar p).fabric →
    ∃ t, exec (.barrierArrival p bid) s = .next t ∧ t.rf (K.BAR_GEN p bid.val) F.BAR_GEN_RELEASED = n.toNat
      ∧ ∀ b ∈ s.benchesOf p, ∀ g ∈ (t.fm b).gates, ∀ fabric, g.kind ≠ .barrier p fabric bid n)
  ∧ ∀ (s : State) (p : Part) (bid : Fin 16),
    (s.hubCore barrierCore = false → ∀ i ∈ [Instr.barrierArrival p bid, .barrierTimeout p bid, .arrive p, .barrierTreeRelease p],
      exec i s = .next s)
    ∧ (s.rf (K.BAR_CTL p) F.BAR_CTL_TIMEOUT = 0 → exec (.barrierTimeout p bid) s = .next s)
    ∧ (s.hubCore barrierCore = true → s.rf (K.BAR_CTL p) F.BAR_CTL_TIMEOUT ≠ 0 →
      ∃ t, exec (.barrierTimeout p bid) s = .next t ∧ t.mem = s.mem
      ∧ ∀ b ∈ s.benchesOf p, ∀ g ∈ (s.fm b).gates, ∀ fabric n, g.kind = .barrier p fabric bid n → (t.fm b).st = .faulted)

/-- O22 (R146, R292, R293, R294, R335, R395, R443). STEP.BEGIN of the step the controller admits opens it there, and
on the Bench sets STEP, ATTEMPT and PHASE OPEN; one that the controller does not admit faults with STEP_SEQUENCE.
STEP.VOTE in an OPEN step leaves its vote waiting and PHASE VOTING, with the Plumbs enabled once PLM.EVAL of the
attempt was dispatched, done or not; before it the vote faults with PLM_SEQUENCE. PLM.EVAL in an OPEN step waits for
what counts, or with ENABLE 0 is complete at once. STEP_VOTE_SEND casts a vote no weaker than the program's once all
it waits for is done; while the evaluation is not over the Bench casts none, and the controller alone goes on. While
the step controller's core stands stopped a STEP.BEGIN waits and no vote is sent (log entry 74). -/
def Obligations.StepIssues : Prop :=
  ∀ s : State, s.Inv →
    (∀ (h : Issue) (ra rd : BitVec 5) (vote : Vote) (cover : BitVec 8), s.Issues h 1 → s.Arrived h.bench [ra, rd] →
      (s.fm h.bench).voteReq = none →
      let f := s.fm h.bench
      let p := (s.partOf h.bench).getD 0
      let c := s.ctl p
      let k := (s.sreg h ra).toNat % 2 ^ 48
      let key := K.STEP_STATE h.bench
      let begins (att : Nat) : Prop := ∃ t, exec (.stepBegin h ra) s = .next t
        ∧ t.rf key F.STEP_STATE_STEP = k ∧ t.rf key F.STEP_STATE_ATTEMPT = att % 16 ∧ t.rf key F.STEP_STATE_PHASE = 1
        ∧ (t.ctl p).step = k ∧ (t.ctl p).attempt = att ∧ (t.ctl p).live = true ∧ (t.fm h.bench).pc = f.pc + 1 ∧ t.mem = s.mem
      let waits : Prop := ∃ t, exec (.stepVote h rd vote cover) s = .next t ∧ t.rf key F.STEP_STATE_PHASE = 2 ∧ t.mem = s.mem
        ∧ t.fm h.bench = { f with
            voteReq := some ⟨vote, (s.bench h.bench).covered cover, f.fenceIds, rd, false, f.pc, s.markOf h.bench⟩
            pc := f.pc + 1 }
      (s.hubCore stepCore = false → exec (.stepBegin h ra) s = .next s)
      ∧ (s.hubCore stepCore = true → s.rb (K.ERR_BSTAT h.bench) F.ERR_BSTAT_SWEEP_ERROR = false →
        (c.live = true → s.rf key F.STEP_STATE_PHASE ≠ 1 → s.rf key F.STEP_STATE_PHASE ≠ 2 → k = c.step → begins c.attempt)
        ∧ (c.live = false → ∀ att, c.admits k = some att → begins att)
        ∧ (c.live = false → c.admits k = none →
          exec (.stepBegin h ra) s = .next (s.fault (s.fmCtx h (opcodeOf 9 1)).at_ .stepSequence)))
      ∧ (s.rf key F.STEP_STATE_PHASE = 1 →
        (s.rb (K.PLM_CTL p) F.PLM_CTL_ENABLE = false ∨ f.evalReq ≠ none ∨ f.evalSent = true ∨ f.evalDone = true → waits)
        ∧ (s.rb (K.PLM_CTL p) F.PLM_CTL_ENABLE = true → f.evalReq = none → f.evalSent = false → f.evalDone = false →
          exec (.stepVote h rd vote cover) s = .next (s.fault (s.fmCtx h (opcodeOf 9 2)).at_ .plmSequence)))
      ∧ (s.rf key F.STEP_STATE_PHASE = 1 → f.evalReq = none → f.evalSent = false → f.evalDone = false →
        (s.rb (K.PLM_CTL p) F.PLM_CTL_ENABLE = false →
          ∃ t, exec (.plmEval h) s = .next t ∧ t.fm h.bench = { f with evalDone := true, pc := f.pc + 1 }
            ∧ (t.ctl p).plumbVote = some (c.plumbVote.getD .pass) ∧ t.mem = s.mem)
        ∧ (s.rb (K.PLM_CTL p) F.PLM_CTL_ENABLE = true →
          Retires (.plmEval h) h s { f with
            evalReq := some (((s.bench h.bench).allEntries.filter Entry.counts).map fun e => e.id), evalAt := f.nextId }
            (f.pc + 1))))
    ∧ ∀ (b : Bid) (p : Part) (v : VoteReq), s.partOf b = some p → (s.fm b).voteReq = some v →
      (s.hubCore stepCore = false → exec (.stepVoteSend b) s = .next s)
      ∧ (s.hubCore stepCore = true → (s.fm b).evalOver = false → ∃ t, exec (.stepVoteSend b) s = .next t
        ∧ (t.fm b).voteReq = some v ∧ (t.ctl p).benchVotes = (s.ctl p).benchVotes)
      ∧ (s.hubCore stepCore = true → v.sent = false → (s.ctl p).live = true → v.covers = [] → v.after = [] →
        (s.fm b).evalOver = true → s.wghFinished b (s.ctl p).step (s.ctl p).attempt = true →
        ∃ t, exec (.stepVoteSend b) s = .next t ∧ (t.fm b).voteReq = some { v with sent := true } ∧ t.mem = s.mem
          ∧ ∃ w, (b.val, w) ∈ (t.ctl p).benchVotes ∧ voteRank v.vote ≤ voteRank w)

/-- O23 (R252, R292, R298, R299, R300, R303, R308, R309, R473, R476). START of a STOPPED Foreman that may start makes
it RUNNING at ENTRY, and with every Foreman of its partition STOPPED empties the step history, so that no attempt is
in progress and no Bench shows one (log entry 55); STOP of a RUNNING one makes it DRAINING; CLEAR of a FAULTED or
HALTED one discards its queued instructions and signals and, by the model's choice (log entries 3 and 17), its gates,
fences and waiting vote, and once what had begun is over it is STOPPED with FM_FAULT and its markers empty. A word is
written to IMEM only while the Foreman is STOPPED; else IMEM_REFUSED is set. While the Bench's clock is stopped each
of these writes is held in the crossing (R476). PROG_LOAD.GO starts a copy whose conditions hold, behind those in
progress, and else sets ERROR: for a source that is misaligned or outside the windows, a length out of range, a named
Bench not owned or not STOPPED. The oldest copy ends with every IMEM that it named at GO holding the source it named
then, and DONE where no other is left; a source that is not served copies nothing and sets ERROR (log entry 13); it
waits for the clock of each Bench it names (log entry 80). -/
def Obligations.ForemanControl : Prop :=
  ∀ (s : State) (b : Bid), s.Inv →
    let still (c : Bid) : Bool := s.rb (K.CLK_BENCH c) F.CLK_BENCH_STOPPED
    (still b = false →
      ((s.fm b).st = .stopped → s.loading b = false → s.present b ucForeman 0 = true → s.ready = true → s.mgmt.testMode = 0 →
        s.inReset b = false →
        ∃ t, exec (.start b) s = .next t ∧ (t.fm b).st = .running ∧ t.mem = s.mem
          ∧ (t.fm b).pc.toNat = s.rf (K.FM_CTL b) F.FM_CTL_ENTRY ∧ (t.fm b).s = (s.fm b).s
          ∧ ∀ p, s.partOf b = some p → (∀ c ∈ s.benchesOf p, (s.fm c).st = .stopped) →
              (t.ctl p).last = none ∧ (t.ctl p).live = false ∧ ∀ c ∈ s.benchesOf p,
                t.rf (K.STEP_STATE c) F.STEP_STATE_PHASE ≠ 1 ∧ t.rf (K.STEP_STATE c) F.STEP_STATE_PHASE ≠ 2)
      ∧ ((s.fm b).st = .running → exec (.stop b) s = .next (s.onFm b fun f => { f with st := .draining, ending := false }))
      ∧ (((s.fm b).st = .faulted ∨ (s.fm b).st = .halted) → (s.fm b).clearing = false →
        ∃ t, exec (.fmClear b) s = .next t ∧ (t.fm b).clearing = true ∧ (t.fm b).fences = [] ∧ (t.fm b).gates = []
          ∧ (t.fm b).sigs = [] ∧ (t.fm b).voteReq = none ∧ (t.fm b).parked = none ∧ t.mem = s.mem
          ∧ ((s.bench b).deposits = [] → t.regs = s.regs)
          ∧ ∀ q, ∀ i ∈ t.queue b q, (∀ e, i ≠ .instr e) ∧ ∀ g, i ≠ .gate g)
      ∧ ∀ (w : BitVec 15) (v : Word),
        ((s.fm b).st = .stopped → ∃ t, exec (.imemWrite b w v) s = .next t ∧ t.reg (K.IMEM b w.toNat) = v
          ∧ (∀ k, k ≠ K.IMEM b w.toNat → t.reg k = s.reg k) ∧ t.benches = s.benches ∧ t.mem = s.mem)
        ∧ ((s.fm b).st ≠ .stopped → ∃ t, exec (.imemWrite b w v) s = .next t
          ∧ t.rb (K.FM_STAT b) F.FM_STAT_IMEM_REFUSED = true ∧ (∀ k, k ≠ K.FM_STAT b → t.reg k = s.reg k)))
    ∧ (still b = true → ∀ (w : BitVec 15) (v : Word),
      let held (i : Instr) (k : Nat) : Prop :=
        ∃ x, exec i s = .next (s.onBench b fun y => { y with xing := y.xing ++ [(k, x)] })
      held (.start b) (K.FM_CTL b) ∧ held (.stop b) (K.FM_CTL b) ∧ held (.fmClear b) (K.FM_CTL b)
      ∧ exec (.imemWrite b w v) s = .next (s.onBench b fun y => { y with xing := y.xing ++ [(K.IMEM b w.toNat, v)] }))
    ∧ ((s.fm b).clearing = true → (s.bench b).working = false →
      ∃ t, exec (.fmClearDone b) s = .next t ∧ (t.fm b).st = .stopped ∧ (t.fm b).clearing = false ∧ (t.fm b).marks = []
        ∧ (t.fm b).faultVote = none ∧ (t.bench b).stopped = 0 ∧ t.reg (K.FM_FAULT b) = 0 ∧ t.mem = s.mem)
    ∧ ∀ p : Part,
      (let named (c : Bid) : Prop := (s.loadMask p).testBit c.val = true
      ((∀ c, named c → s.owns p c = true ∧ (s.fm c).st = .stopped) ∧
          s.loadSrc p % 4096 = 0 ∧ 1 ≤ s.loadLen p ∧ s.loadLen p ≤ 32768 ∧ s.rangeOk p (s.loadSrc p) (8 * s.loadLen p) = true →
          ∃ t, exec (.go p) s = .next t ∧ t.loads[p] = s.loads[p] ++ [⟨s.loadMask p, s.loadSrc p, s.loadLen p⟩]
            ∧ t.regs = s.regs)
        ∧ ((s.loadSrc p % 4096 ≠ 0 ∨ s.loadLen p = 0 ∨ 32768 < s.loadLen p
            ∨ s.rangeOk p (s.loadSrc p) (8 * s.loadLen p) = false ∨ ∃ c, named c ∧ (s.owns p c = false ∨ (s.fm c).st ≠ .stopped)) →
          ∃ t, exec (.go p) s = .next t ∧ t.loads = s.loads ∧ t.rb (K.PROG_LOAD1 p) F.PROG_LOAD1_ERROR = true))
      ∧ ∀ l rest, s.loads[p] = l :: rest → l.len ≤ 32768 →
        ((∃ c : Bid, l.mask.testBit c.val = true ∧ still c = true) → exec (.progLoadDone p) s = .next s)
        ∧ ((∀ c : Bid, l.mask.testBit c.val = true → still c = false) →
          ((∀ w ∈ wordsOf l.src (8 * l.len), s.served p (16 * w) = true ∧ (s.mark w).upset = .clean
              ∧ (s.mark w).poison = false) → l.src % 16 = 0 →
            ∃ t, exec (.progLoadDone p) s = .next t ∧ t.loads[p] = rest ∧ t.mem = s.mem
              ∧ (rest = [] → t.rb (K.PROG_LOAD1 p) F.PROG_LOAD1_DONE = true)
              ∧ ∀ c : Bid, l.mask.testBit c.val = true → ∀ n < l.len,
                  t.reg (K.IMEM c n) = BitVec.ofNat 64 (ofBytes (mread s.mem (l.src + 8 * n) 8)))
          ∧ ((∃ w ∈ wordsOf l.src (8 * l.len), s.served p (16 * w) = false) →
            ∃ t, exec (.progLoadDone p) s = .next t ∧ t.loads[p] = rest ∧ t.rb (K.PROG_LOAD1 p) F.PROG_LOAD1_ERROR = true
              ∧ t.mem = s.mem ∧ ∀ c : Bid, ∀ n < 32768, t.reg (K.IMEM c n) = s.reg (K.IMEM c n)))

/-- O24 (R86, R279, R282, R283, R284, R288, R294, R295, R301, R319, R335). An engine instruction whose queue holds 16
entries, or that names a descriptor or scalar register whose value is still to arrive, stalls: the state does not
change; CUT.MM does so too while a mode switch is in progress. SCR.OPT outside a COMMITTED step faults with
OPT_UNCOMMITTED, and stalls while a STEP.VOTE has not retired, and inside one on a full queue or a pending register.
Every SYNC.SIG and SYNC.WAIT stalls for a pending register; at an address that is no multiple of 16 it faults with
ADDR_ALIGN, at an aligned one outside the Bench SRAM of the partition with ADDR_UNMAPPED; SYNC.SIG stalls on a full
signal buffer, SYNC.WAIT without room for its gates; SYNC.WAIT with GATE 0 faults with INSTR_INVALID; SYNC.BAR of a
Bench outside BAR_MASK faults with BARRIER_MEMBER. -/
def Obligations.DispatchRefusals : Prop :=
  (∀ (i : Instr) (s : State) (h : Issue) (n : Nat) (q : Fin 8) (ds : List (BitVec 4)) (rs : List (BitVec 5)),
    engineOf i = some (h, n, q, ds, rs) → i.wellFormed = true → s.Issues h n →
    (s.hasRoom h.bench q = false ∨ (∃ d ∈ ds, (s.fm h.bench).pendT d = true) ∨ (∃ r ∈ rs, (s.fm h.bench).pendS r = true)
      ∨ (q = 2 ∧ s.rb (K.CUT_CTL h.bench) F.CUT_CTL_SWITCHING = true)) →
    exec i s = .next s)
  ∧ (∀ (s : State) (h : Issue) (ssel : BitVec 2) (da : BitVec 4) (ra : BitVec 5) (norm : Bool) (tid tid1 : BitVec 32),
    s.Issues h 2 → da.toNat ≤ 9 →
    let opt : Instr := .scrOpt h ssel da ra norm tid tid1
    let phase := s.rf (K.STEP_STATE h.bench) F.STEP_STATE_PHASE
    ((s.fm h.bench).voteReq ≠ none → exec opt s = .next s)
    ∧ ((s.fm h.bench).voteReq = none → phase ≠ 3 →
        exec opt s = .next (s.fault (s.fmCtx h (opcodeOf 5 6)).at_ .optUncommitted))
    ∧ (phase = 3 → (s.hasRoom h.bench 5 = false ∨ (s.fm h.bench).pendS ra = true
        ∨ ∃ k < 7, (s.fm h.bench).pendT (da + BitVec.ofNat 4 k) = true) → exec opt s = .next s))
  ∧ ∀ (s : State) (h : Issue) (ra rb rd : BitVec 5) (gate : BitVec 8) (fabric : Bool) (bid : Fin 16), s.Issues h 1 →
    let p := (s.partOf h.bench).getD 0
    let a := s.sreg h ra
    let sigs : List Instr := [.set_ h ra rb, .sigAdd h ra rb, .clear h ra]
    let waits : List Instr := [.full h rd ra gate, .take h rd ra gate, .empty h rd ra gate, .ge h rd ra rb gate]
    let zeros : List Instr := [.full h 0 ra 0, .take h 0 ra 0, .empty h 0 ra 0, .ge h 0 ra rb 0]
    let faults (i : Instr) (op : Nat) (c : FCode) : Prop := exec i s = .next (s.fault (s.fmCtx h (opcodeOf 8 op)).at_ c)
    let named := gate ≠ 0 ∧ (gate.getLsbD 0 = true ∨ rd = 0)
    ((s.fm h.bench).pendS ra = true → (∀ i ∈ sigs, exec i s = .next s) ∧ (named → ∀ i ∈ waits, exec i s = .next s))
    ∧ (s.Arrived h.bench [ra, rb, rd, 0] →
      (a.toNat % 16 ≠ 0 → (∀ i ∈ sigs, faults i 2 .addrAlign) ∧ (named → ∀ i ∈ waits, faults i 3 .addrAlign))
      ∧ (a.toNat % 16 = 0 → (inSram a.toNat && s.owns p (benchOf a.toNat)) = false →
        (∀ i ∈ sigs, faults i 2 .addrUnmapped) ∧ (named → ∀ i ∈ waits, faults i 3 .addrUnmapped))
      ∧ (s.SigPlace p a → (8 ≤ (s.fm h.bench).sigs.length → ∀ i ∈ sigs, exec i s = .next s)
        ∧ (named → s.gateRoom h.bench gate = false → ∀ i ∈ waits, exec i s = .next s)))
    ∧ (∀ i ∈ zeros, faults i 3 .instrInvalid)
    ∧ (s.inBarrier p h.bench = false → faults (.syncBar h fabric bid gate) 4 .barrierMember)

/-- O25 (R74, R80, R84, R85, R105, R108, R325, R445, R573). ARRAY_HEAD_CHECK of an instruction that breaks no check
marks it checked; of one that does, takes its first fault in the order of R573. TILE_LOAD_START of a checked
instruction whose first load group is there takes it out of its queue into the load, with the shape its registers
give. With every word read, TILE_LOAD_DONE makes the tile ready in the back buffer. With no stream, STREAM_START
brings the back tile to the front, in PAIR mode on both arrays, and PASSES_ACT shows its passes on each. -/
def Obligations.ArrayTiles : Prop :=
  ∀ (s : State) (b : Bid) (u : Fin 12),
    let a := s.arr b u
    let q := arrQueue u
    (∀ e f, s.arrHead b u = some e → e.mm = some f → s.arrFree b u = true →
      (a.checked ≠ some e.id → (f.reuse = true → a.load = none ∧ a.back = none) →
        (firstFault (s.arrayChecks b u (mkJob e f a.front) a.front) = none →
          exec (.arrayHeadCheck b u) s = .next (s.setArr b u { a with checked := some e.id }))
        ∧ ∀ c, firstFault (s.arrayChecks b u (mkJob e f a.front) a.front) = some c →
          exec (.arrayHeadCheck b u) s = .next (s.fault (e.at_ b q (arrNum u)) c))
      ∧ (a.checked = some e.id → f.reuse = false → a.load = none → a.back = none →
        ((tensorOf e.descB).feRd ≠ 2 → ∀ w ∈ firstGroup (tensorOf e.descB) f.tb (fld (e.r 1) 21 21) (fld (e.r 0) 11 9)
            (fld (e.r 1) 42 21) (fld (e.r 0) 20 10), inSram (16 * w) = true → s.full w = true) →
        ∀ j, s.capture b u (mkJob e f none) e.descB = .ok j →
        ∃ t, exec (.tileLoadStart b u) s = .next t ∧ t.mem = s.mem ∧ (t.arr b u).load = some j
          ∧ (isDresser u = true → j.decode = false) ∧ j.m = fld (e.r 0) 0 11 ∧ j.n = fld (e.r 0) 11 9 ∧ j.k = fld (e.r 0) 20 10 ∧ j.e = e
          ∧ (∀ x, QItem.instr x ∈ t.queue b q → x.id ≠ e.id) ∧ (∀ r, r ≠ q → t.queue b r = s.queue b r)))
    ∧ (∀ j g s', a.load = some j → State.readAll (j.who s b u) a.loadReads a.loadGot s = (.ok g s', []) →
      ∃ t tile, exec (.tileLoadDone b u) s = .next t ∧ t.mem = s'.mem ∧ (t.arr b u).load = none
        ∧ (t.arr b u).back = some (j, tile) ∧ tile.cols = tileCols (tensorOf j.e.descB) j g ∧ tile.n = j.n ∧ tile.k = j.k
        ∧ (tile.poison = true ↔ ∃ x ∈ g, x.2.poison = true))
    ∧ (∀ j tile, a.stream = none → a.back = some (j, tile) → (j.pair = true → u.val % 2 = 0) →
      ∃ t, exec (.streamStart b u) s = .next t ∧ t.mem = s.mem ∧ (t.arr b u).front = some tile ∧ (t.arr b u).back = none
        ∧ (t.arr b u).stream = some j ∧ (t.arr b u).frontIdx = !a.frontIdx ∧ (t.arr b u).lastPasses = j.f.passes.toNat
        ∧ (j.pair = true → (t.arr b (partner u)).front = some tile ∧ (t.arr b (partner u)).lastPasses = j.f.passes.toNat))

/-- O26 (R75, R78, R79, R85, R98, R101, R270, R442, R445). With the words of the next streamed row read and no upset,
ACCUM_ROW_UPDATE puts the row's tree results into its accumulator row, or adds them with ACC, and changes no other
row; a poisoned tile leaves the row poisoned; after the last row the stream has ended. ACCUM_DRAIN_ROW writes the next
updated row and no byte of memory outside its words. ARRAY_INSTR_COMPLETE ends the oldest instruction whose rows are
done, and no fence waits for it any longer. -/
def Obligations.ArrayRows : Prop :=
  ∀ (s : State) (b : Bid) (u : Fin 12),
    let a := s.arr b u
    (∀ j tile g s', a.stream = some j → a.front = some tile → j.updated < j.m → a.held (j.a0 + j.updated) = false →
      (j.pair = true → u.val % 2 = 0) → tile.cols.length ≤ 256 →
      s.coreStopped b (arrClass u) (arrNum u) = false →
      let ta := tensorOf j.e.descA
      State.readAll (j.who s b u) (if a.rowPlanned then a.rowReads else planReads j.memClass ta
        ((List.range j.k).map fun x => opIndex j.f.ta (j.m0 + j.updated) (j.k0 + x)) a.rowGot) a.rowGot s = (.ok g s', []) →
      let row := j.a0 + j.updated
      let out := rowCompute (isDresser u) j ta.fmt (tensorOf tile.desc).fmt (rowValues ta j.tabA j j.updated g) tile none
      ∃ t, exec (.accumRowUpdate b u none) s = .next t ∧ t.mem = s'.mem
        ∧ (∀ c < tile.cols.length, tget 0 (t.arr b u).acc (row * 256 + c) =
            if j.f.acc then
              BitVec.ofNat 32 (enc32 ((dec32 (tget (0 : BitVec 32) a.acc (row * 256 + c)).toNat).add
                (dec32 (out.ts.getD c 0).toNat)))
            else out.ts.getD c 0)
        ∧ (∀ k, k / 256 ≠ row → tget 0 (t.arr b u).acc k = tget 0 a.acc k)
        ∧ (tile.poison = true → row ∉ (t.arr b u).good)
        ∧ (j.updated + 1 < j.m → (t.arr b u).stream = some { j with updated := j.updated + 1 })
        ∧ (j.updated + 1 = j.m → (t.arr b u).stream = none
          ∧ (t.arr b u).drains = a.drains ++ [{ j with updated := j.updated + 1 }])
        ∧ (j.pair = true → ∀ c < tile.cols.length, j.f.acc = false →
            tget 0 (t.arr b (partner u)).acc (row * 256 + c) = out.ts.getD c 0))
    ∧ (∀ j s', s.Inv → a.drainJob = some j →
      let ws := if a.drainPlanned then a.drainWrites else drainWrites (tensorOf j.e.descDrain) j j.drained a
      (∀ w ∈ ws, inSram (16 * w.word) = true) → State.writeAll (j.who s b u) ws s = (.ok () s', []) →
      ∃ t, exec (.accumDrainRow b u) s = .next t ∧ t.mem = s'.mem
        ∧ (∀ k, (∀ w ∈ ws, k / 16 ≠ w.word) → mget t.mem k = mget s.mem k)
        ∧ (t.arr b u).acc = a.acc
        ∧ ∀ x ∈ (t.arr b u).drains ++ (t.arr b u).stream.toList, x.e.id = j.e.id → x.drained = j.drained + 1)
    ∧ (∀ j rest, a.drains = j :: rest → (j.f.drain = true → j.m ≤ j.drained) →
      ∃ t, exec (.arrayInstrComplete b u) s = .next t ∧ (t.arr b u).drains = rest ∧ t.mem = s.mem
        ∧ (∀ x ∈ (t.fm b).fences, j.e.id ∉ x.covers) ∧ (t.arr b u).acc = a.acc)

/-- O27 (R86, R88, R446). A write of CUT_CTL.MODE that changes it sets SWITCHING; with no CUT instruction outstanding
the switch takes effect and SWITCHING clears. A write of ERR_BCTL.MODE that changes it sets SWITCHING and stands
behind the queued CUT and DRS instructions; with none outstanding before it, MODE_ACT takes the value. A write that
changes nothing does nothing. -/
def Obligations.ModeSwitches : Prop :=
  ∀ (s : State) (b : Bid) (v : Word), s.Inv →
    let cut := K.CUT_CTL b
    let err := K.ERR_BCTL b
    (v.toNat % 2 ≠ s.rf cut F.CUT_CTL_MODE → ∃ t, exec (.cutCtlModeWrite b v) s = .next t
      ∧ t.rf cut F.CUT_CTL_MODE = v.toNat % 2 ∧ t.rf cut F.CUT_CTL_SWITCHING = 1
      ∧ t.rf cut F.CUT_CTL_MODE_ACT = s.rf cut F.CUT_CTL_MODE_ACT ∧ t.benches = s.benches ∧ t.mem = s.mem)
    ∧ (v.toNat % 2 = s.rf cut F.CUT_CTL_MODE → exec (.cutCtlModeWrite b v) s = .next s)
    ∧ (s.rb cut F.CUT_CTL_SWITCHING = true → (s.bench b).outstanding 2 = [] →
      ∃ t, exec (.cutModeSwitchDone b) s = .next t ∧ t.rf cut F.CUT_CTL_MODE_ACT = s.rf cut F.CUT_CTL_MODE
        ∧ t.rf cut F.CUT_CTL_SWITCHING = 0 ∧ t.benches = s.benches ∧ t.mem = s.mem)
    ∧ (v.toNat % 2 ≠ s.rf err F.ERR_BCTL_MODE → ∃ t, exec (.errBctlModeWrite b v) s = .next t
      ∧ t.rf err F.ERR_BCTL_MODE = v.toNat % 2 ∧ t.rf err F.ERR_BCTL_SWITCHING = 1 ∧ t.mem = s.mem
      ∧ (∀ q, t.queue b q = s.queue b q ++ (if q = 2 ∨ q = 3 then [.modeSwitch (v.toNat % 2 == 1)] else [])))
    ∧ (v.toNat % 2 = s.rf err F.ERR_BCTL_MODE → exec (.errBctlModeWrite b v) s = .next s)
    ∧ (∀ m m' r2 r3, (∀ u, (s.arr b u).jobs = []) → s.queue b 2 = .modeSwitch m :: r2 → s.queue b 3 = .modeSwitch m' :: r3 →
      (∀ x, QItem.modeSwitch x ∉ r2) →
      ∃ t, exec (.checkModeSwitchDone b) s = .next t ∧ t.queue b 2 = r2 ∧ t.queue b 3 = r3 ∧ t.mem = s.mem
        ∧ t.rb err F.ERR_BCTL_MODE_ACT = m ∧ t.rf err F.ERR_BCTL_SWITCHING = 0)

/-- O28 (R205, R206, R212, R213, R215, R236, R254, R255, R256, R284, R427). A bank grants the requester it granted
least recently, and a stack its class: a tile load's next word arrives as stored, memory stands. A request found
performable at a retry is performed: a parked LD leaves its value pending, a SYNC.WAIT whose condition holds opens its
gates. With a limit set, a request parked beyond it faults its Foreman, and BMEM_STAT says so; with WAIT_LIMIT 0
nothing happens. A pop's reads turn CRITICAL once a request, a SYNC.WAIT or a host queue's command waits on its
destination. A slot of a stack at which nothing waits passes. -/
def Obligations.MemoryServes : Prop :=
  ∀ s : State, s.Inv →
    (∀ (b c : Bid) (bank : Fin 64) (n : Nat) (u : Fin 12) (r : RdReq),
      leastRecent (fun n => tget 0 (s.bench b).lru (bank.val * 31 + n)) (s.bankWants b bank.val)
        = some (n, c, .load u, .rd r) → s.Readable ((s.partOf c).getD 0) r →
      ∃ t, exec (.bankRequestGrant b bank .clean) s = .next t ∧ t.mem = s.mem
        ∧ tget ⟨0, false⟩ (t.arr c u).loadGot r.word = ⟨s.word r.word, false⟩
        ∧ ∃ k, (t.arr c u).loadReads = (s.arr c u).loadReads.drop (k + 1))
    ∧ (∀ (b : Bid) (f : FmAccess), (s.fm b).parked = some f → f.op = .ld → f.done = 0 → f.got = [] → f.addr % 8 = 0 →
      s.Readable ((s.partOf b).getD 0) ⟨f.addr / 16, f.fe, none, 1⟩ →
      ∃ t, exec (.operandWaitRetry b .foreman) s = .next t ∧ t.mem = s.mem
        ∧ t.fm b = { s.fm b with
            parked := none
            pend := (s.fm b).pend ++
              (if f.reg = 0 then [] else [.s f.reg (BitVec.ofNat 64 (ofBytes (mread s.mem f.addr 8)))]) })
    ∧ (∀ (b : Bid) (x : Gate) (a : Nat) (cond : BitVec 2) (cmp : Word), (s.fm b).parked = none → (s.fm b).gates = [x] →
      x.kind = .word a cond cmp → s.waitHolds a cond cmp = true → s.mayAccess ((s.partOf b).getD 0) a = true →
      ∃ t, exec (.operandWaitRetry b .foreman) s = .next t ∧ (t.fm b).gates = [] ∧ (∀ q, .gate x.id ∉ t.queue b q)
        ∧ (cond = 1 → t.full (a / 16) = false))
    ∧ (∀ (b : Bid) (f : FmAccess),
      (s.rf (K.BMEM_CTL b) F.BMEM_CTL_WAIT_LIMIT = 0 → ∀ w, exec (.waitTimeout b w) s = .next s)
      ∧ (s.rf (K.BMEM_CTL b) F.BMEM_CTL_WAIT_LIMIT ≠ 0 → (s.fm b).parked = some f → f.op = .ld → f.done = 0 → f.fe ≠ 2 →
        inSram (16 * (f.addr / 16)) = true → s.full (f.addr / 16) = false →
        ∃ t, exec (.waitTimeout b .foreman) s = .next t ∧ (t.fm b).parked = none ∧ (t.fm b).st = .faulted
          ∧ t.rb (K.BMEM_STAT b) F.BMEM_STAT_WAIT_TIMEOUT = true ∧ t.mem = s.mem))
    ∧ (∀ (b c : Bid) (r : Running) (p : Port) (a : Ask), (s.bench b).running 7 0 = some r → isPush r.e = false →
      ((p, a) ∈ s.wants c ∧ s.portParked c p = true ∧ s.performable a = false ∧ a.word ∈ (r.e.tensor 0).words
        ∨ (∃ g ∈ (s.fm c).gates, ∃ k cond cmp, g.kind = .word k cond cmp ∧ k / 16 ∈ (r.e.tensor 0).words)
        ∨ (∃ wn ∈ s.hostParked, wn ∈ (r.e.tensor 0).words)) →
      exec (.stkPopEscalate b) s = .next
        (s.setRunning b { r with critical := true, reads := r.reads.map fun x => { x with cls := 0 } }))
    ∧ (∀ (k : Fin 8) (c : Bid) (u : Fin 12) (r : RdReq) (j : ArrJob), s.stackWants k.val = [(c, .load u, .rd r)] →
      s.stackRewrite k.val = none → (s.stk k).due = false → r.cls < 3 → (s.arr c u).load = some j → s.Readable ((s.partOf c).getD 0) r →
      ∃ t, exec (.stackSlotGrant k .clean) s = .next t ∧ t.mem = s.mem
        ∧ tget ⟨0, false⟩ (t.arr c u).loadGot r.word = ⟨s.word r.word, false⟩
        ∧ ∃ i, (t.arr c u).loadReads = (s.arr c u).loadReads.drop (i + 1))
    ∧ ∀ k : Fin 8, s.stackWants k.val = [] → s.stackRewrite k.val = none → (s.stk k).due = false → (s.stk k).slot < 256 →
      ∃ t, exec (.stackSlotGrant k .clean) s = .next t ∧ (t.stk k).slot = ((s.stk k).slot + 1) % 256 ∧ t.mem = s.mem
        ∧ t.benches = s.benches

/-- O29 (R207, R208, R209, R211, R256, R258, R443). CORRECTED_WORD_REWRITE leaves the first corrected word of its bank
clean. With PATROL set, SRAM_PATROL_READ reads the bank's next word and goes on to the one behind it, an uncorrectable
error poisons the word, and no byte changes; with PATROL clear nothing happens. While BMC_SCRUB.INTERVAL is not 0 and
the stack's bulk memory core runs, STACK_PATROL_READ makes the stack's next granule due: it is read where SCRUB is
served, and waits behind a request of a higher class while SCRUB has no minimum. The model's choice (log entry 45):
the granule is read at once where the stack would serve SCRUB, else at a later slot, and the command names the upset
that stands in one of its words. -/
def Obligations.MemoryUpkeep : Prop :=
  ∀ s : State, s.Inv →
    (∀ (b : Bid) (bank : Fin 64) (wn : Nat), s.bankWaits b bank.val = some wn →
      ∃ t, exec (.correctedWordRewrite b bank) s = .next t ∧ t.mem = s.mem ∧ t.regs = s.regs
        ∧ ∀ n, t.mark n = if n = wn then { s.mark wn with upset := .clean, rewritten := true } else s.mark n)
    ∧ (∀ (b : Bid) (bank : Fin 64) (upset : Upset),
      (s.rb (K.BMEM_CTL b) F.BMEM_CTL_PATROL = false → exec (.sramPatrolRead b bank upset) s = .next s)
      ∧ (s.rb (K.BMEM_CTL b) F.BMEM_CTL_PATROL = true → s.bankOk b bank.val = true →
        let i := tget 0 (s.bench b).patrol bank.val
        ∃ t, exec (.sramPatrolRead b bank upset) s = .next t ∧ t.mem = s.mem
          ∧ tget 0 (t.bench b).patrol bank.val = (i + 1) % 524288
          ∧ (upset = .multi → (t.mark (bankWord b bank.val i)).poison = true)
          ∧ ∀ n, t.full n = s.full n))
    ∧ ∀ (k : Fin 8) (i : Fin 32) (upset : Upset),
      (s.rf K.BMC_SCRUB F.BMC_SCRUB_INTERVAL = 0 → exec (.stackPatrolRead k i upset) s = .next s)
      ∧ (s.rf K.BMC_SCRUB F.BMC_SCRUB_INTERVAL ≠ 0 → s.stackOk k.val = true → s.hubCore (stackCore k.val) = true →
        ∃ t, exec (.stackPatrolRead k i upset) s = .next t ∧ t.mem = s.mem
          ∧ (upset = .multi → (t.mark (s.stackAddr k.val (512 * (s.stk k).patrol) / 16 + i.val)).poison = true)
          ∧ (upset = .clean → s.stackWants k.val = [] → s.stackRewrite k.val = none →
            (t.stk k).patrol = ((s.stk k).patrol + 1) % (s.rowsInstalled * 2 ^ 30 / 512) ∧ (t.stk k).due = false)
          ∧ (upset = .clean → (∃ x ∈ s.stackWants k.val, x.2.2.memClass < 3) → s.rf K.BMC_SHARE F.BMC_SHARE_SCRUB = 0 →
            (t.stk k).patrol = (s.stk k).patrol ∧ (t.stk k).due = true))
      ∧ (s.stackWants k.val = [] → s.stackRewrite k.val = none → (s.stk k).due = true → s.hubCore (stackCore k.val) = true →
        ∃ t, exec (.stackSlotGrant k .clean) s = .next t ∧ t.mem = s.mem ∧ (t.stk k).due = false
          ∧ (t.stk k).patrol = ((s.stk k).patrol + 1) % (s.rowsInstalled * 2 ^ 30 / 512))

/-- O30 (R259, R260, R261, R262, R263, R268, R406). ARM of set 1 to 3 that is not armed arms it with no copy recorded;
RELEASE of an armed set reads 1 until it takes effect, and then the set holds nothing. The first write of a protected
page copies it into the lowest free reserve page, which every armed set that protects it and holds no copy records, a
broken one too, and holds the page until COW_COPY_DONE; without a free page the sets break. A view read of set 0 by an
export conversion brings the recorded copy, else the live word, and poison where the set is broken; one of sets 1 to 3
sends the mirror's next page while the bulk memory cores run. A copy that lasts until COW_COPY_DONE is the model's
choice (log entry 24). -/
def Obligations.ProtectedPages : Prop :=
  ∀ (s : State) (p : Part), s.Inv →
    (∀ n : Fin 4, n ≠ 0 →
      (s.armed p n = false → ∃ t, exec (.arm p n) s = .next t ∧ t.armed p n = true ∧ t.broken p n = false
        ∧ (t.cow p n).copies = [] ∧ t.rf (K.COW_CTL p n) F.COW_CTL_COPIED = 0 ∧ t.mem = s.mem)
      ∧ (s.armed p n = true → ∃ t, exec (.release p n) s = .next t ∧ t.rb (K.COW_CTL p n) F.COW_CTL_RELEASE = true
        ∧ t.armed p n = true ∧ t.mem = s.mem)
      ∧ (s.rb (K.COW_CTL p n) F.COW_CTL_RELEASE = true → ∃ t, exec (.cowReleaseEffect p n) s = .next t
        ∧ t.armed p n = false ∧ t.reg (K.COW_CTL p n) = 0 ∧ (t.cow p n).copies = [] ∧ t.mem = s.mem)
      ∧ ∀ (tx : MirrorTx) (page : Nat) (rest : List Nat), s.bulk.tx[p] = some tx → tx.set = n.val → s.broken p n = false →
        s.isLost p s.buddy = false → (∀ k < 8, s.hubCore (stackCore k) = true) → tx.todo = page :: rest → rest ≠ [] →
        ∃ t, exec (.viewRead p n (bulkBase + page * pageSize)) s = .next t ∧ t.mem = s.mem
          ∧ t.bulk.tx[p] = some { tx with todo := rest, sent := tx.sent ++ [page] })
    ∧ (∀ (b : Bid) (x : Port × Ask) (page : Nat), s.partOf b = some p → x ∈ s.wants b → x.2.isRead = false →
      inSram x.2.addr = false → pageOf x.2.addr = page → s.mayAccess p x.2.addr = true → s.needCopy p page ≠ [] →
      page ∉ s.bulk.copying → (∀ c, s.partOf c = none → s.wants c = []) →
      (∀ r, s.freeReserve p = some r → ∃ t, exec (.cowPageCopy page) s = .next t
        ∧ t.bulk.copying = s.bulk.copying ++ [page] ∧ (∀ n ∈ s.needCopy p page, (t.cow p n).copyOf page = r + 1)
        ∧ ∀ k < pageSize, mget t.mem (bulkBase + r * pageSize + k) = mget s.mem (bulkBase + page * pageSize + k))
      ∧ (s.freeReserve p = none → ∃ t, exec (.cowPageCopy page) s = .next t ∧ t.bulk.copying = s.bulk.copying ∧ t.mem = s.mem
        ∧ ∀ n ∈ s.needCopy p page, t.broken p n = true))
    ∧ (∀ page : Nat, ∃ t, exec (.cowCopyDone page) s = .next t ∧ page ∉ t.bulk.copying ∧ t.mem = s.mem ∧ t.regs = s.regs)
    ∧ ∀ (b : Bid) (u addr : Nat) (r : Running) (x : RdReq) (rest : List RdReq),
      s.exportView p addr = some (b, .run 4 u) → s.partOf b = some p → (s.bench b).running 4 u = some r → r.reads = x :: rest →
      x.view = some 0 → x.word = addr / 16 → s.mayAccess p (16 * x.word) = true → inSram (16 * x.word) = false →
      let c := (s.cow p 0).copyOf (pageOf (16 * x.word))
      let wn := if c = 0 then x.word else (bulkBase + (c - 1) * pageSize + (16 * x.word - bulkBase) % pageSize) / 16
      (s.mark wn).upset = .clean → (s.mark wn).poison = false →
      ∃ t r', exec (.viewRead p 0 addr) s = .next t ∧ t.mem = s.mem ∧ (t.bench b).running 4 u = some r' ∧ r'.reads = rest
        ∧ (s.broken p 0 = false → tget ⟨0, false⟩ r'.got x.word = ⟨s.word wn, false⟩)
        ∧ (s.broken p 0 = true → (tget ⟨0, false⟩ r'.got x.word).poison = true)

/-- O31 (R249, R250, R251, R253, R256, R264, R265, R266). BMC_ROW of an installed row changes its owner where every
partition concerned is quiet, at once where the row had none, else once it is zeroed (its bytes then read zero) if the
conditions still hold; where not, or where a reserve page would lie outside its partition's rows, REFUSED is set and
the owner stands. A row that a partition without interleaving takes keeps every byte at its address. BMC_PART.IMODE
changes only without an epoch and with no request outstanding; every byte of the rows keeps its stack and stack
offset, and no other byte moves (R250, R251); the reserve pool changes only while the partition is quiet, to a range
inside its rows. BMC_SHARE takes minimums that sum to at most 256. The model's choices (log entries 46 and 86): an
unowned row lies in local order, the bytes that R251 leaves in place move to the addresses the new mode gives them,
and the conditions of a write to BMC_ROW are judged at the write and again when the row is zeroed. -/
def Obligations.BulkControl : Prop :=
  ∀ s : State, s.Inv →
    (∀ (row : Fin 96) (v : Word), row.val < s.rowsInstalled → v.toNat / 8 % 2 = 0 →
      let k := K.BMC_ROW row.val
      let new := rowImage v
      v.toNat % 8 ≠ (s.reg k).toNat % 8 →
      let quiet := ∀ p : Part, s.rowOwner row.val = some p ∨ new = some p → s.rowsFree p = true
      (quiet → s.rowOwner row.val = none → s.mirrorRow row.val = false →
        ∃ t, exec (.bmcRowWrite row v) s = .next t ∧ t.rf k F.BMC_ROW_OWNER = v.toNat % 4
          ∧ t.rf k F.BMC_ROW_VALID = v.toNat / 4 % 2
          ∧ ((∀ p, new = some p → s.rb (K.BMC_PART p) F.BMC_PART_IMODE = false) → ∀ a, mget t.mem a = mget s.mem a))
      ∧ (∀ p, s.rowOwner row.val = some p → new = none → quiet → s.poolIn p row.val = false →
        ∃ t, exec (.bmcRowWrite row v) s = .next t ∧ (row.val, v) ∈ t.bulk.zeroing ∧ t.reg k = s.reg k)
      ∧ ((¬ quiet ∨ ∃ p, s.rowOwner row.val = some p ∧ new ≠ some p ∧ s.poolIn p row.val = true) →
        ∃ t, exec (.bmcRowWrite row v) s = .next t ∧ t.rb k F.BMC_ROW_REFUSED = true
        ∧ t.rf k F.BMC_ROW_OWNER = s.rf k F.BMC_ROW_OWNER ∧ t.rf k F.BMC_ROW_VALID = s.rf k F.BMC_ROW_VALID))
    ∧ (∀ (row : Fin 96) (v : Word) (rest : List (Nat × Word)), s.bulk.zeroing = (row.val, v) :: rest →
      ∃ t, exec (.rowZeroDone row) s = .next t
        ∧ (s.rowBad row.val v = false → t.rf (K.BMC_ROW row.val) F.BMC_ROW_OWNER = v.toNat % 4
          ∧ t.rf (K.BMC_ROW row.val) F.BMC_ROW_VALID = v.toNat / 4 % 2
          ∧ (∀ i < rowSize, mget t.mem (bulkBase + row.val * rowSize + i) = 0)
          ∧ ∀ a, a < bulkBase + row.val * rowSize ∨ bulkBase + (row.val + 1) * rowSize ≤ a → mget t.mem a = mget s.mem a)
        ∧ (s.rowBad row.val v = true → t.rb (K.BMC_ROW row.val) F.BMC_ROW_REFUSED = true ∧ t.mem = s.mem
          ∧ t.rf (K.BMC_ROW row.val) F.BMC_ROW_OWNER = s.rf (K.BMC_ROW row.val) F.BMC_ROW_OWNER
          ∧ t.rf (K.BMC_ROW row.val) F.BMC_ROW_VALID = s.rf (K.BMC_ROW row.val) F.BMC_ROW_VALID))
    ∧ (∀ (p : Part) (v : Word), v.toNat / 2 % 2 = 0 →
      let k := K.BMC_PART p
      (v.toNat / 2 ^ 8 % 2 ^ 20 = s.rf k F.BMC_PART_RSV_BASE → v.toNat / 2 ^ 32 % 2 ^ 20 = s.rf k F.BMC_PART_RSV_PAGES →
        v.toNat % 2 ≠ s.rf k F.BMC_PART_IMODE →
        (s.epochOn p = false → s.bulkIdle p = true → ∃ t, exec (.bmcPartWrite p v) s = .next t
          ∧ t.rf k F.BMC_PART_IMODE = v.toNat % 2
          ∧ (∀ a a', s.inBulk a = true → s.inBulk a' = true → s.rowOwner (rowOf a) = some p → rowOf a' = rowOf a →
              t.stackOf p a = s.stackOf p a' → mget t.mem a = mget s.mem a')
          ∧ ∀ a, s.inBulk a = false ∨ s.rowOwner (rowOf a) ≠ some p → mget t.mem a = mget s.mem a)
        ∧ (s.epochOn p = true → ∃ t, exec (.bmcPartWrite p v) s = .next t ∧ t.rb k F.BMC_PART_REFUSED = true
          ∧ t.rf k F.BMC_PART_IMODE = s.rf k F.BMC_PART_IMODE))
      ∧ (let base := v.toNat / 2 ^ 8 % 2 ^ 20
        let pages := v.toNat / 2 ^ 32 % 2 ^ 20
        v.toNat % 2 = s.rf k F.BMC_PART_IMODE → base ≠ s.rf k F.BMC_PART_RSV_BASE ∨ pages ≠ s.rf k F.BMC_PART_RSV_PAGES →
        let inside := ∀ i < pages, s.rowOwner ((base + i) / 4096) = some p
        (s.rowsFree p = true → inside → ∃ t, exec (.bmcPartWrite p v) s = .next t
          ∧ t.rf k F.BMC_PART_RSV_PAGES = pages ∧ t.rf k F.BMC_PART_RSV_BASE = base)
        ∧ (s.rowsFree p = false ∨ ¬ inside → ∃ t, exec (.bmcPartWrite p v) s = .next t ∧ t.rb k F.BMC_PART_REFUSED = true
          ∧ t.rf k F.BMC_PART_RSV_PAGES = s.rf k F.BMC_PART_RSV_PAGES ∧ t.rf k F.BMC_PART_RSV_BASE = s.rf k F.BMC_PART_RSV_BASE)))
    ∧ ∀ v : Word, let sum := v.toNat % 256 + v.toNat / 2 ^ 8 % 256 + v.toNat / 2 ^ 16 % 256 + v.toNat / 2 ^ 24 % 256
      (sum ≤ 256 → ∃ t, exec (.bmcShareWrite v) s = .next t ∧ (t.reg K.BMC_SHARE).toNat % 2 ^ 32 = v.toNat % 2 ^ 32)
      ∧ (256 < sum → ∃ t, exec (.bmcShareWrite v) s = .next t ∧ t.rb K.BMC_SHARE F.BMC_SHARE_REFUSED = true
        ∧ (t.reg K.BMC_SHARE).toNat % 2 ^ 32 = (s.reg K.BMC_SHARE).toNat % 2 ^ 32)

/-- O32 (R110, R111, R174, R175, R191, R223, R279, R572, R573). WDG_BEGIN, SCR_BEGIN and HAUL_BEGIN assign the next
instruction of their queue a unit: where it breaks no check it leaves the queue and is in progress with the words it
has to read; where it breaks one, the first fault in the order of R573 is taken and the queue keeps it, assigned to
that unit (R572). SCR.OPT captures its parameter block first. -/
def Obligations.EnginesBegin : Prop :=
  ∀ (s : State) (b : Bid) (e : Entry) (u : Nat), s.pwr.mainOn = true →
    (s.queueRuns b 4 = true → s.nextHead b 4 = some (e, u) →
      (firstFault (s.wedgeChecks b e u) = none →
        Begins (.wdgBegin b) s s b 4 e u ((e.tensor 0).reads (if e.isExport then some 0 else none)))
      ∧ ∀ c, firstFault (s.wedgeChecks b e u) = some c → exec (.wdgBegin b) s = .next ((s.assign b 4).faultHead (e.at_ b 4 u) c))
    ∧ (s.queueRuns b 1 = true → s.nextHead b 1 = some (e, u) →
      (firstFault (s.haulChecks b e u) = none →
        Begins (.haulBegin b) s s b 1 e u ((e.tensor (if isIndexed e then 2 else 0)).reads none))
      ∧ ∀ c, firstFault (s.haulChecks b e u) = some c → exec (.haulBegin b) s = .next ((s.assign b 1).faultHead (e.at_ b 1 u) c))
    ∧ (s.queueRuns b 5 = true → s.nextHead b 5 = some (e, u) →
      (e.isOpt = false → firstFault (s.screenChecks b e u) = none →
        Begins (.scrBegin b) s s b 5 e u ((scrSrc e.scr).flatMap fun i => (e.tensor i).reads none))
      ∧ (∀ c, firstFault (s.screenChecks b e u) = some c → exec (.scrBegin b) s = .next ((s.assign b 5).faultHead (e.at_ b 5 u) c))
      ∧ ∀ g s' rest, e.isOpt = true → firstFault (s.screenChecks b e u) = none →
        State.readAll (e.who s b 5 u) ((wordsOf (e.rs.getD 0 0).toNat 64).map fun n => ⟨n, 2, none, 1⟩) [] s = (.ok g s', rest) →
        ((paramWords g (e.rs.getD 0 0).toNat).getD 10 0 = 0 →
          (∃ v ∈ (paramWords g (e.rs.getD 0 0).toNat).take 10, (dec32 v.toNat).isFinite = false) →
          exec (.scrBegin b) s = .next ((s'.assign b 5).faultHead (e.at_ b 5 u) .descInvalid))
        ∧ ((∀ v ∈ (paramWords g (e.rs.getD 0 0).toNat).take 10, (dec32 v.toNat).isFinite = true) → s'.pwr.mainOn = true →
          s'.queueRuns b 5 = true → s'.nextHead b 5 = some (e, u) → firstFault (s'.screenChecks b e u) = none →
          Begins (.scrBegin b) s s' b 5 e u ((scrSrc e.scr).flatMap fun i => (e.tensor i).reads none)))

/-- O33 (R114, R121, R177, R224, R227, R228, R278, R350, R432, 02_number_formats.md, 07_screens_curves_optimiser.md).
With every word read and every write performed, WDG_COMPLETE, SCR_COMPLETE and HAUL_COMPLETE free the unit, and
nothing waits for the instruction any longer; memory holds the conversion, the Screen's results, the copy, gather or
scatter. A HAUL.ST to another module or the host sends its bytes and waits for the answers, the host's to a read of
the last address written. What they compute: conversions round by their mode, narrow blocks under one exponent,
saturate or give infinity beyond Vmax, and keep signs (R54-R63); each element of a conversion and of a Screen's map or
curve is stored where its index puts it (R57, R66); element operations, row reductions, curves, softmax rows,
selections and optimiser updates give what R181 to R192 say. -/
def Obligations.EnginesComplete : Prop :=
  RoundingRules ∧ BlockRules ∧ LimitRules ∧ StoredResults ∧ ScreenElements ∧ ScreenRows
  ∧ ∀ (s : State) (b : Bid),
    (∀ (u : Fin 4) (x : Option UnitUpset) (r : Running) g s' s'', s.active b 4 u = some r →
      State.readAll (r.e.who s b 4 u) r.reads r.got s = (.ok g s', []) →
      let r' := { r with upset := if r.computed then r.upset else x, reads := [], got := g }
      State.writeAll (r.e.who s b 4 u) (if r.computed then r.writes else wedgeWrites r') s' = (.ok () s'', []) →
      Completes (.wdgComplete b u x) s b 4 u r.e.id s''.mem)
    ∧ (∀ (u : Fin 2) (x : Option UnitUpset) (r : Running) g s' s'', s.active b 5 u = some r →
      State.readAll (r.e.who s b 5 u) r.reads r.got s = (.ok g s', []) →
      let r' := { r with upset := if r.computed then r.upset else x, reads := [], got := g }
      State.writeAll (r.e.who s b 5 u) (if r.computed then r.writes else scrWrites r') s' = (.ok () s'', []) →
      Completes (.scrComplete b u x) s b 5 u r.e.id s''.mem)
    ∧ ∀ (u : Fin 8) (r : Running) g s', s.active b 1 u = some r → r.remote = [] →
      State.readAll (r.e.who s b 1 u) r.reads r.got s = (.ok g s', []) →
      let r' := { r with reads := [], got := g, parked := false }
      ((isIndexed r.e = false ∨ r.scales ≠ []) → haulRemote r.e = 0 → ∀ s'',
        let s1 := s'.setRunning b r'
        State.writeAll (r.e.who s1 b 1 u) (if r.computed then r.writes else haulWrites { r' with upset := none }) s1
          = (.ok () s'', []) →
        Completes (.haulComplete b u) s b 1 u r.e.id s''.mem)
      ∧ (isIndexed r.e = true → r.scales = [] → ∀ g2 s2 s'',
        let r2 := { r' with scales := [1], reads := sliceReads r' }
        let s1 := s'.setRunning b r2
        let r3 := { r2 with upset := if r.computed then r.upset else none, reads := [], got := g2 }
        State.readAll (r.e.who s1 b 1 u) (sliceReads r') g s1 = (.ok g2 s2, []) →
        State.writeAll (r.e.who s1 b 1 u) (if r.computed then r.writes else haulWrites r3) s2 = (.ok () s'', []) →
        Completes (.haulComplete b u) s b 1 u r.e.id s''.mem)
      ∧ (isIndexed r.e = false → haulRemote r.e = 2 →
        s'.isLost ((s'.partOf b).getD 0) (fld (haulBase r.e) 50 13) = false →
        ∃ t y, exec (.haulComplete b u) s = .next t ∧ (t.bench b).running 1 u = some y ∧ y.e = r.e ∧ y.computed = true
          ∧ (∀ m ∈ y.remote, m.2 = fld (haulBase r.e) 50 13) ∧ t.mem = s'.mem)
      ∧ (isIndexed r.e = false → haulRemote r.e = 1 → s'.hostUp ((s'.partOf b).getD 0) = true →
        ∃ t y, exec (.haulComplete b u) s = .next t ∧ (t.bench b).running 1 u = some y ∧ y.e = r.e
          ∧ y.remote = [(((hostBytes (haulBits r')).getLast?.map Prod.fst).getD (haulDst r.e).base, 0)] ∧ t.mem = s'.mem)

/-- O34 (R127, R133, R136, R186, R198, R200). VTAB entries and curve slots keep their contents while valid and take a
write while not. VALIDATE of a legal table or slot sets its valid bit (and the table's width), of an illegal one
faults with VALUE_TABLE_INVALID or CURVE_INVALID, of a valid one does nothing; INVALIDATE clears the bit. -/
def Obligations.TablesAndSlots : Prop :=
  ∀ (s : State) (b : Bid), s.Inv →
    (∀ (t : BitVec 6) (i w : BitVec 2) (v : Word),
      (s.vtabValid b t.toNat = true → exec (.vtabEntryWrite b t i v) s = .next s ∧ exec (.validate b t w) s = .next s)
      ∧ (s.vtabValid b t.toNat = false → (∃ u, exec (.vtabEntryWrite b t i v) s = .next u
          ∧ u.reg (K.VTAB_ENTRY b t.toNat i.toNat) = v
          ∧ ∀ k, k ≠ K.VTAB_ENTRY b t.toNat i.toNat → u.reg k = s.reg k)
        ∧ ((w ≠ 3 ∧ tableLegal (s.table b t.toNat) (tableWidth w.toNat) = true) →
          ∃ u, exec (.validate b t w) s = .next u ∧ u.rf (K.VTAB_INFO b t.toNat) F.VTAB_INFO_VALID = 1
            ∧ u.rf (K.VTAB_INFO b t.toNat) F.VTAB_INFO_WIDTH = w.toNat ∧ u.benches = s.benches)
        ∧ ((w = 3 ∨ tableLegal (s.table b t.toNat) (tableWidth w.toNat) = false) →
          exec (.validate b t w) s = .next (s.fault (s.storeFault b) .valueTableInvalid)))
      ∧ ∃ u, exec (.invalidate b t) s = .next u ∧ u.vtabValid b t.toNat = false
        ∧ ∀ k, k ≠ K.VTAB_INFO b t.toNat → u.reg k = s.reg k)
    ∧ (∀ slot : BitVec 5,
      (s.crvValid b slot.toNat = true → exec (.crvValidate b slot) s = .next s)
      ∧ (s.crvValid b slot.toNat = false → curveLegal (s.curveWords b slot.toNat) = true →
        ∃ u, exec (.crvValidate b slot) s = .next u ∧ u.crvValid b slot.toNat = true ∧ u.benches = s.benches
          ∧ ∀ j, j < 32 → j ≠ slot.toNat → u.crvValid b j = s.crvValid b j)
      ∧ (s.crvValid b slot.toNat = false → curveLegal (s.curveWords b slot.toNat) = false →
        exec (.crvValidate b slot) s = .next (s.fault (s.storeFault b) .curveInvalid))
      ∧ ∃ u, exec (.crvInvalidate b slot) s = .next u ∧ u.crvValid b slot.toNat = false
        ∧ ∀ j, j < 32 → j ≠ slot.toNat → u.crvValid b j = s.crvValid b j)
    ∧ ∀ (off slot : Nat) (v : Word), crvSlotOf off = some slot →
      (s.crvValid b slot = true → exec (.crvSlotWrite b off v) s = .next s)
      ∧ (s.crvValid b slot = false →
        exec (.crvSlotWrite b off v) s = .next (s.writeReg (b.val * 0x1000000 + off) false v))

/-- O35 (R126, R137, R263). OPEN with no session pending or active makes one pending. A pending session with no sweep
in progress becomes active: it arms set 0 and records the last step whose sweep has completed. CLOSE of a session
waits for the export conversions dispatched before it; once they are over the session is closed and set 0 holds
nothing. -/
def Obligations.ExportSessions : Prop :=
  ∀ (s : State) (p : Part), s.Inv →
    let k := K.EXPORT_CTL p
    ((s.expActive p = false ∧ s.expPending p = false → ∃ t, exec (.exportOpen p) s = .next t ∧ t.expPending p = true
        ∧ t.expActive p = false ∧ t.mem = s.mem)
      ∧ (s.expActive p = true ∨ s.expPending p = true → exec (.exportOpen p) s = .next s)
      ∧ ((s.expActive p = true ∨ s.expPending p = true) → s.rb k F.EXPORT_CTL_CLOSE = false →
        ∃ t, exec (.exportClose p) s = .next t ∧ t.rb k F.EXPORT_CTL_CLOSE = true ∧ t.bulk.closing[p] = s.exporting p)
      ∧ (s.expPending p = true → s.rb k F.EXPORT_CTL_CLOSE = false → s.sweeping p = false →
        ∃ t, exec (.exportSessionActivate p) s = .next t ∧ t.expActive p = true ∧ t.expPending p = false
          ∧ t.rf k F.EXPORT_CTL_STEP = (s.ctl p).sweptDone.getD 0 % 2 ^ 48 ∧ t.armed p 0 = true ∧ t.broken p 0 = false)
      ∧ (s.expPending p = true → s.sweeping p = true → exec (.exportSessionActivate p) s = .next s)
      ∧ (s.rb k F.EXPORT_CTL_CLOSE = true → (∀ x ∈ s.bulk.closing[p], x ∉ s.exporting p) →
        ∃ t, exec (.exportSessionClosed p) s = .next t ∧ t.expActive p = false ∧ t.expPending p = false
          ∧ t.rb k F.EXPORT_CTL_CLOSE = false ∧ t.armed p 0 = false ∧ (t.cow p 0).copies = []))

/-- O36 (R230, R231, R232, R233, R234, R235, R243, R245). A push whose checks hold and whose copy fits takes the
lowest free place, the SRAM tier first, as a STASHED entry, and leaves its queue; one that fits only with entries
dropped drops the eligible ones in their order until it fits, each DROPPED and its tag's bit set in STK_RECOMP; one
that fits nowhere drops nothing, stays, faults with STASH_EXHAUSTED and sets EXHAUSTED. A pop of a DROPPED entry
writes nothing but its status word, of a STASHED one the stash and then the status word; either way the entry is free.
A tier register changes only while the catalogue is empty. -/
def Obligations.Stockpile : Prop :=
  ∀ (s : State) (b : Bid), s.Inv → (∀ i, QItem.freeCat i ∉ s.queue b 7) →
    (∀ (e : Entry) (u : Nat) (x : Option UnitUpset), (s.bench b).running 7 0 = none → s.pwr.mainOn = true →
      s.queueRuns b 7 = true → s.nextHead b 7 = some (e, u) →
      (isPush e = true → firstFault (s.pushChecks b e) = none →
        (∀ bulk unit, s.stashFit b [] (stashUnits (e.desc 1)) = some (bulk, unit) →
          ∃ t, exec (.stkPushPlace b x) s = .next t
            ∧ t.cat b (stkEntry e) = ⟨.stashed, stkTag e, stashDesc (e.desc 1), bulk, unit, stashUnits (e.desc 1),
                (s.bench b).pushes⟩
            ∧ (∀ n, n ≠ stkEntry e → t.cat b n = s.cat b n)
            ∧ (∀ y, QItem.instr y ∈ t.queue b 7 → y.id ≠ e.id))
        ∧ (∀ k bulk unit, let l := dropOrder (s.bench b).cat (dropTags e)
          let units := stashUnits (e.desc 1)
          let after (i : Nat) : State := (l.take i).foldl (fun s n => s.dropStash b n) s
          k ≤ l.length → (s.stashFit b l units).isSome = true → (∀ i < k, (after i).stashFit b [] units = none) →
          (after k).stashFit b [] units = some (bulk, unit) →
          ∃ t, exec (.stkPushPlace b x) s = .next t
            ∧ t.cat b (stkEntry e) = ⟨.stashed, stkTag e, stashDesc (e.desc 1), bulk, unit, units, (s.bench b).pushes⟩
            ∧ (∀ n ∈ l.take k, n ≠ stkEntry e → t.cat b n = { s.cat b n with st := .dropped }
              ∧ (t.reg (K.STK_RECOMP b ((s.cat b n).tag / 64))).getLsbD ((s.cat b n).tag % 64) = true)
            ∧ ∀ n, n ∉ l.take k → n ≠ stkEntry e → t.cat b n = s.cat b n)
        ∧ (s.stashFit b [] (stashUnits (e.desc 1)) = none →
          s.stashFit b (dropOrder (s.bench b).cat (dropTags e)) (stashUnits (e.desc 1)) = none →
          ∃ t, exec (.stkPushPlace b x) s = .next t ∧ (t.fm b).st = .faulted ∧ t.mem = s.mem
            ∧ t.queue b 7 = s.queue b 7 ∧ t.rb (K.STK_STATUS b) F.STK_STATUS_EXHAUSTED = true ∧ ∀ n, t.cat b n = s.cat b n))
      ∧ (isPush e = false → firstFault (s.popChecks b e u) = none → (s.cat b (stkEntry e)).st = .dropped → u = 0 →
        let wn := (e.rs.getD 1 0).toNat / 16
        s.mayAccess ((s.partOf b).getD 0) (16 * wn) = true →
        ∃ t, exec (.stkPopExecute b) s = .next t ∧ (t.cat b (stkEntry e)).st = .free ∧ (t.bench b).running 7 0 = none
          ∧ t.word wn = popStatus (s.cat b (stkEntry e)) (stkEntry e) e.step ∧ t.full wn = true
          ∧ ∀ k, k / 16 ≠ wn → mget t.mem k = mget s.mem k))
    ∧ (∀ (r : Running) g s' s'', s.active b 7 0 = some r → isPush r.e = false → r.computed = false →
      State.readAll (r.e.who s b 7 0) r.reads r.got s = (.ok g s', []) →
      State.writeAll (r.e.who s b 7 0) (State.popWrites b s' { r with upset := none, reads := [], got := g }) s'
        = (.ok () s'', []) →
      let wn := (r.e.rs.getD 1 0).toNat / 16
      s''.mayAccess ((s''.partOf b).getD 0) (16 * wn) = true → inSram (16 * wn) = true →
      ∃ t, exec (.stkPopExecute b) s = .next t ∧ (t.bench b).running 7 0 = none ∧ (t.cat b (stkEntry r.e)).st = .free
        ∧ t.word wn = popStatus (s''.cat b (stkEntry r.e)) (stkEntry r.e) r.e.step
        ∧ ∀ k, k / 16 ≠ wn → mget t.mem k = mget s''.mem k)
    ∧ ∀ v : Word,
      ((s.bench b).cat = [] → (∃ t, exec (.stkTierWrite b false v) s = .next t
          ∧ t.rf (K.STK_SRAM_TIER b) F.STK_SRAM_TIER_BASE = v.toNat % 2 ^ 13
          ∧ t.rf (K.STK_SRAM_TIER b) F.STK_SRAM_TIER_SIZE = v.toNat / 2 ^ 16 % 2 ^ 14)
        ∧ ∃ t, exec (.stkTierWrite b true v) s = .next t
          ∧ t.rf (K.STK_BULK_TIER b) F.STK_BULK_TIER_BASE = v.toNat % 2 ^ 32
          ∧ t.rf (K.STK_BULK_TIER b) F.STK_BULK_TIER_SIZE = v.toNat / 2 ^ 32 % 2 ^ 24)
      ∧ ((s.bench b).cat ≠ [] → ∀ bulk, ∃ t, exec (.stkTierWrite b bulk v) s = .next t
          ∧ t.rb (K.STK_STATUS b) F.STK_STATUS_CFG_REFUSED = true ∧ t.reg (K.STK_SRAM_TIER b) = s.reg (K.STK_SRAM_TIER b)
          ∧ t.reg (K.STK_BULK_TIER b) = s.reg (K.STK_BULK_TIER b))

/-- O37 (R139, R146, R147, R149, R153, R157, R167, R169, R194). PLM_SNAPSHOT of a Bench whose counted instructions are
over clears its partials and, in the attempt in progress, sends its deltas to the Hub; PLM_PARTITION_SUMS joins the
snapshots of every Bench in service, counts modulo 2^64, AMAX by maximum, partials in binary64 in rising Bench number;
PLM_EVALUATE stages the result, casts the Plumbs' vote and completes PLM.EVAL on every Bench that sent its snapshot.
APPLY outside a step puts the shadow in force, inside one is refused; RESET_LOSS, PLM_LOSS and PLM_SET_CMD note what
they name. That a snapshot counts only in the attempt it was taken in, and one of an ended attempt is dropped, is the
model's reading (log entry 44). -/
def Obligations.Plumbs : Prop :=
  ∀ (s : State) (p : Part), s.Inv →
    (∀ b : Bid, s.partOf b = some p → (s.fm b).evalReq = some [] →
      ∃ t, exec (.plmSnapshot b) s = .next t ∧ (t.fm b).evalReq = none ∧ (t.fm b).evalSent = true ∧ t.mem = s.mem
        ∧ (t.plumb p).snaps = (s.plumb p).snaps ++
            (if s.inAttempt p b = true then [(b.val, (s.tallied p b).map (s.classDelta p b))] else [])
        ∧ ∀ c ∈ s.tallied p b, ∀ i < 3, t.reg (K.OPT_PART b c i) = 0)
    ∧ (s.plumbBenches p ≠ [] → (s.plumb p).sums = none →
      (∀ b ∈ s.plumbBenches p, ∃ x ∈ (s.plumb p).snaps, x.1 = b.val) →
      ∃ t sums, exec (.plmPartitionSums p) s = .next t ∧ (t.plumb p).sums = some sums ∧ (t.plumb p).snaps = []
        ∧ t.rf (K.PLM_STATUS p) F.PLM_STATUS_EVAL = 1 ∧ t.mem = s.mem ∧ t.benches = s.benches
        ∧ ∀ c, let ds := (s.snapshots p).filter fun d => d.cls == c
          ((∃ x ∈ sums, x.cls = c) ↔ ds ≠ []) ∧ ∀ x ∈ sums, x.cls = c → SumsOf x ds)
    ∧ (∀ sums (differs : Option Bid), (s.plumb p).sums = some sums →
      let o := s.evaluate p sums
      ∃ t, exec (.plmEvaluate p differs) s = .next t ∧ (t.plumb p).sums = none ∧ (t.plumb p).staged = some o.staged
        ∧ (t.ctl p).plumbVote = some o.staged.vote ∧ t.rf (K.PLM_STATUS p) F.PLM_STATUS_EVAL = 0
        ∧ t.rf (K.PLM_STATUS p) F.PLM_STATUS_STAGED = 1 ∧ t.rf (K.PLM_STATUS p) F.PLM_STATUS_LOSS_VALID = 0 ∧ t.mem = s.mem
        ∧ (∀ b ∈ s.benchesOf p, (s.fm b).evalSent = true → (t.fm b).evalDone = true)
        ∧ (differs.isSome = true → (t.ctl p).diverged = true))
    ∧ ((s.ctl p).live = true → ∃ t, exec (.apply p) s = .next t
        ∧ t.rf (K.PLM_STATUS p) F.PLM_STATUS_APPLY_REFUSED = 1 ∧ t.plumbs = s.plumbs)
    ∧ ((s.ctl p).live = false → ∃ t, exec (.apply p) s = .next t ∧ (t.plumb p).shadow = [] ∧ (t.plumb p).resetLoss = false
        ∧ ((s.plumb p).resetLoss = true → t.reg (K.PLM_LOSS_MEAN p) = 0 ∧ t.reg (K.PLM_LOSS_VAR p) = 0
          ∧ t.reg (K.PLM_LOSS_N p) = 0) ∧ t.mem = s.mem)
    ∧ (∃ t, exec (.resetLoss p) s = .next t ∧ (t.plumb p).resetLoss = true ∧ t.regs = s.regs ∧ t.mem = s.mem)
    ∧ (∀ v : Word, ∃ t, exec (.plmLossWrite p v) s = .next t ∧ t.rf (K.PLM_LOSS p) F.PLM_LOSS_VALUE = v.toNat % 2 ^ 32
        ∧ t.rf (K.PLM_STATUS p) F.PLM_STATUS_LOSS_VALID = 1 ∧ t.mem = s.mem)
    ∧ ∀ v : Word, ∃ t, exec (.plmSetCmd p v) s = .next t ∧ t.regs = s.regs
        ∧ let c := v.toNat % 4096
          let x := (s.reg (K.PLM_SET_VAL p)).toNat
          let new := tget ShadowEnt.none (t.plumb p).shadow c
          let old := tget ShadowEnt.none (s.plumb p).shadow c
          new.scale = (if v.getLsbD 16 then some (x % 2 ^ 32) else old.scale)
          ∧ new.state = (if v.getLsbD 17 then some (x / 2 ^ 32 % 16) else old.state)
          ∧ new.mode = (if v.getLsbD 18 then some (x / 2 ^ 36 % 4) else old.mode)
          ∧ new.fb = (if v.getLsbD 19 then some (x / 2 ^ 38 % 2) else old.fb)
          ∧ new.profile = (if v.getLsbD 20 then some (x / 2 ^ 40 % 64) else old.profile)
          ∧ new.cal = (if v.getLsbD 21 then some (x / 2 ^ 48 % 65536) else old.cal)
          ∧ ∀ d, d ≠ c → tget ShadowEnt.none (t.plumb p).shadow d = tget ShadowEnt.none (s.plumb p).shadow d

/-- O38 (R367, R368, R369, R371, R373, R374, R375, R377). A packet of a step below the one in force, or of a sender
whose DRAIN is awaited, changes nothing but a counter. A GRANT before its bucket is recorded, and waits with the
record full; in an open bucket it counts. CONTRIB bytes are staged at their offset in their copy; a copy whose bytes
and SUMS have come is taken if they agree, else COPY_INVALID is set. RESULT bytes take their offset in their shard;
RSUMS that agree make it done, RSUMS that do not set CHECK_FAIL and turn the vote to ABORT; ABANDON sets ABANDONED and
turns it too. DRAIN ends the wait for its sender, or is noted and frees the sender's grants of its step. -/
def Obligations.WeighbridgePackets : Prop :=
  ∀ (s s' : State) (b : Bid) (pkt : Packet), s.Inv →
    (∀ c op, (c, op) ∈ [(Instr.contrib b, 0), (.sums b, 1), (.result b, 2), (.rsums b, 3), (.grant b, 4), (.abandon b, 6)] →
      s.takeReduce b op = some (pkt, s') → s'.stale b pkt = true →
      ∃ t, exec c s = .next t ∧ t.wgh b = s.wgh b ∧ t.mem = s.mem ∧ t.benches = s.benches)
    ∧ (s.takeReduce b 4 = some (pkt, s') → s'.stale b pkt = false →
      (s'.bucketOf b pkt = none ∨ (s.wgh b).drained.contains (pktSrc pkt) = true →
        ((s.wgh b).grants.length < 4096 → ∃ t, exec (.grant b) s = .next t ∧ t.mem = s.mem ∧ t.wgh b = { s.wgh b with
          grants := (s.wgh b).grants ++ [⟨BitVec.ofNat 32 (pktBucket pkt), pktStep pkt, pktSrc pkt, fld (pktWord pkt 0) 0 32⟩] })
        ∧ (4096 ≤ (s.wgh b).grants.length → exec (.grant b) s = .next s))
      ∧ (∀ k j, s'.bucketOf b pkt = some k → (s.wgh b).drained.contains (pktSrc pkt) = false →
        (k.owners.findIdx? fun o => o == pktSrc pkt) = some j → j < k.shards.length →
        ∃ t, exec (.grant b) s = .next t
          ∧ ∀ k', t.bucket b k.id = some k' → (k'.shard j).granted = some (fld (pktWord pkt 0) 0 32)))
    ∧ (∀ k j o c, s.takeReduce b 0 = some (pkt, s') → s'.stale b pkt = false → s'.copyOf b pkt = some (k, j) →
      k.offset j pkt = some o → (k.shard j).copies[pktSlot pkt]? = some c →
      let c' := { c with parts := tput c.parts o pkt.payload }
      ∃ t, exec (.contrib b) s = .next t ∧ t.mem = s.mem
        ∧ (c.sums = none → t.reg (K.WGH_STAT b) = s.reg (K.WGH_STAT b)
          ∧ t.bucket b k.id = some (k.onShard j fun x => x.onCopy (pktSlot pkt) fun _ => c'))
        ∧ ∀ ws, c.sums = some ws → (if k.sparse then 8 else 4) * sumsCount (ws.getD 3 0) ≤ c'.bytes.length →
          CopyJudged b k j (pktSlot pkt) c' ws s t)
    ∧ (∀ k j c, s.takeReduce b 1 = some (pkt, s') → s'.stale b pkt = false → s'.copyOf b pkt = some (k, j) →
      (k.shard j).copies[pktSlot pkt]? = some c → (if k.sparse then 8 else 4) * sumsCount (pktWord pkt 3) ≤ c.bytes.length →
      ∃ t, exec (.sums b) s = .next t ∧ CopyJudged b k j (pktSlot pkt) c ((List.range 4).map (pktWord pkt)) s t)
    ∧ (∀ k, s'.bucketOf b pkt = some k → s'.stale b pkt = false → fromOwner k pkt = true → pktSlot pkt < k.shards.length →
      (k.shard (pktSlot pkt)).abandoned = false → (k.shard (pktSlot pkt)).resultDone = false →
      (∀ o, s.takeReduce b 2 = some (pkt, s') → k.offset (pktSlot pkt) pkt = some o →
        ∃ t, exec (.result b) s = .next t
          ∧ ∀ k', t.bucket b k.id = some k' →
              (k'.shard (pktSlot pkt)).got = tput (k.shard (pktSlot pkt)).got o pkt.payload)
      ∧ (s.takeReduce b 3 = some (pkt, s') →
        let x := k.shard (pktSlot pkt)
        let n := sumsCount (pktWord pkt 5)
        let codes := if k.sparse then (pairsFrom x.result (Nat.min n (x.result.length / 8))).map Prod.snd
          else codesFrom x.result (Nat.min (x.result.length / 4) (k.len (pktSlot pkt)))
        let agrees := f64x (codes.map dec32) = pktWord pkt 0 ∧ codes.length = n
          ∧ roundUp ((if k.sparse then 8 else 4) * n) 16 = x.result.length
        (agrees → ∃ t, exec (.rsums b) s = .next t
          ∧ ∀ k', t.bucket b k.id = some k' → (k'.shard (pktSlot pkt)).resultDone = true)
        ∧ (¬ agrees → ∃ t, exec (.rsums b) s = .next t ∧ t.rb (K.WGH_STAT b) F.WGH_STAT_CHECK_FAIL = true
          ∧ (t.wgh b).voteAbort = true))
      ∧ (s.takeReduce b 6 = some (pkt, s') →
        ∃ t, exec (.abandon b) s = .next t ∧ t.rb (K.WGH_STAT b) F.WGH_STAT_ABANDONED = true ∧ (t.wgh b).voteAbort = true))
    ∧ (s.takeReduce b 5 = some (pkt, s') →
      ((s.wgh b).awaitDrain.contains (pktSrc pkt) = true →
        ∃ t, exec (.drain b) s = .next t ∧ pktSrc pkt ∉ (t.wgh b).awaitDrain ∧ t.mem = s.mem)
      ∧ ((s.wgh b).awaitDrain.contains (pktSrc pkt) = false →
        s.rf (K.STEP_STATE b) F.STEP_STATE_STEP ≤ pktStep pkt →
        ∃ t, exec (.drain b) s = .next t ∧ (t.wgh b).drained = pktSrc pkt :: (s.wgh b).drained ∧ t.mem = s.mem ∧ t.regs = s.regs
          ∧ (t.wgh b).grants = (s.wgh b).grants.filter fun g => g.src != pktSrc pkt || g.step != pktStep pkt))

/-- O39 (R361, R362, R369, R370, R372, R374, R376, R384). The reduction at the head of its queue opens a bucket if its
checks hold and a bucket and stage space are free; it takes the first fault of its checks, and waits where no bucket
or no stage space is free. An owner whose shard is due and passes the check has sent its result; one that fails sets
CHECK_FAIL and turns the vote to ABORT. A slot that is late is granted to its next backup, or its shard is abandoned.
With HARD_LIMIT a bucket still open has its unwritten shards abandoned and ends with a fault once its writes are
performed; a bucket that is done completes. WGH_STAGE changes only while no bucket is open. -/
def Obligations.WeighbridgeBuckets : Prop :=
  ∀ (s : State) (b : Bid), s.Inv →
    let s' := s.wghPump b
    let p := (s'.partOf b).getD 0
    (s.pwr.mainOn = true → s.queueRuns b 6 = true → s.unitBusy b 6 0 = false →
      ∀ e u, s.nextHead b 6 = some (e, u) →
      let slots := (s.wghGroup ((s.partOf b).getD 0) e).getD []
      (∀ c, firstFault (s.wghChecks b e u) = some c → exec (.bucketOpen b) s = .next (s.fault (e.at_ b 6 0) c))
      ∧ (firstFault (s.wghChecks b e u) = none → (s.wgh b).buckets.length < s.rf (K.WGH_CTL b) F.WGH_CTL_MAX_OPEN →
        s.stageUsed b + s.wghUnits b ((s.partOf b).getD 0) e slots ≤ s.stageSize b →
        ∃ t, exec (.bucketOpen b) s = .next t ∧ (∀ y, QItem.instr y ∈ t.queue b 6 → y.id ≠ e.id)
          ∧ ((t.bucket b (wghBucket e)).isSome = true ∨ (t.fm b).st = .faulted))
      ∧ (firstFault (s.wghChecks b e u) = none →
        (s.rf (K.WGH_CTL b) F.WGH_CTL_MAX_OPEN ≤ (s.wgh b).buckets.length
          ∨ s.stageSize b < s.stageUsed b + s.wghUnits b ((s.partOf b).getD 0) e slots) →
        exec (.bucketOpen b) s = .next s'))
    ∧ (∀ k j, s'.dueShard b p = some (k, j) → s'.bucket b k.id = some k → (k.shard j).resultDone = false →
      let r := k.rsumsOf j (k.reduce j).1
      ((resultCheck r (k.reduce j).2).1 = true → ∃ t, exec (.shardResultSend b none) s = .next t
        ∧ ∀ k', t.bucket b k.id = some k' → (k'.shard j).resultSent = true ∧ (k'.shard j).units = 0)
      ∧ ((resultCheck r (k.reduce j).2).1 = false → ∃ t, exec (.shardResultSend b none) s = .next t
        ∧ t.rb (K.WGH_STAT b) F.WGH_STAT_CHECK_FAIL = true ∧ t.rb (K.WGH_STAT b) F.WGH_STAT_ABANDONED = true
        ∧ (t.wgh b).voteAbort = true))
    ∧ (∀ id j i k c, s'.bucket b id = some k → wghCycles k.e ≠ 0 → k.owners.getD j (0, 0) = s'.me p →
      (k.shard j).copies[i]? = some c → c.taken = false → (k.shard j).abandoned = false →
      (k.shard j).resultDone = false → (k.shard j).resultSent = false →
      let l := k.slots.getD i []
      let next := (List.range l.length).find? fun n => c.member < n && !s'.isLost p (l.getD n (0, 0)).1
      (next = none → ∃ t, exec (.reduceDeadlineExpiry b id j i) s = .next t
        ∧ t.rb (K.WGH_STAT b) F.WGH_STAT_ABANDONED = true ∧ (t.wgh b).voteAbort = true)
      ∧ (∀ n, next = some n → l.getD n (0, 0) ≠ s'.me p → (s'.wgh b).awaitDrain.contains (l.getD n (0, 0)) = false →
        ∃ t, exec (.reduceDeadlineExpiry b id j i) s = .next t ∧ t.rb (K.WGH_STAT b) F.WGH_STAT_GRANTED_BACKUP = true))
    ∧ (∀ id k, s.bucket b id = some k →
      (s.rf (K.WGH_CTL b) F.WGH_CTL_HARD_LIMIT = 0 → exec (.reduceTimeout b id) s = .next s)
      ∧ (s.rf (K.WGH_CTL b) F.WGH_CTL_HARD_LIMIT ≠ 0 →
        ∃ t, exec (.reduceTimeout b id) s = .next t
          ∧ ((t.bucket b id = none ∧ (t.fm b).st = .faulted)
            ∨ ∃ k', t.bucket b id = some k' ∧ k'.late = true ∧ k'.writes ≠ []
              ∧ ∀ x ∈ k'.shards, x.resultDone = true ∨ x.abandoned = true)))
    ∧ (∀ id k, s'.bucket b id = some k →
      let done := (∀ x ∈ k.shards, x.resultDone = true ∨ x.abandoned = true) ∧ k.writes = []
        ∧ (k.sparse = true → k.remDone = true)
      (done → ∃ t, exec (.wghComplete b id) s = .next t ∧ t.bucket b id = none ∧ t.mem = s'.mem
        ∧ (∀ x ∈ (t.fm b).fences, k.e.id ∉ x.covers) ∧ ∀ v, (t.fm b).voteReq = some v → k.e.id ∉ v.covers)
      ∧ (¬ done → exec (.wghComplete b id) s = .next s'))
    ∧ ∀ v : Word,
      ((s.wgh b).buckets = [] → ∃ t, exec (.wghStageWrite b v) s = .next t
        ∧ t.rf (K.WGH_STAGE b) F.WGH_STAGE_BASE = v.toNat % 2 ^ 13
        ∧ t.rf (K.WGH_STAGE b) F.WGH_STAGE_SIZE = v.toNat / 2 ^ 16 % 2 ^ 14 ∧ t.mem = s.mem)
      ∧ ((s.wgh b).buckets ≠ [] → ∃ t, exec (.wghStageWrite b v) s = .next t
        ∧ t.rb (K.WGH_STAT b) F.WGH_STAT_CFG_REFUSED = true ∧ t.reg (K.WGH_STAGE b) = s.reg (K.WGH_STAGE b) ∧ t.mem = s.mem)

/-- O40 (R293, R294, R395, R396, R397, R398, R399, R400, R401). A VOTE of the attempt in progress counts once; one of
another attempt than those known here makes this module's vote HALT, whoever sent it. With every vote in, the acting
root holds the outcome of the strongest, HALT where an ABORT reaches MAX_ATTEMPTS. VOTE_TIMEOUT decides HALT where
VOTE_LIMIT is set. An OUTCOME of the attempt is adopted, a duplicate discarded. Acting on it sets every Bench's PHASE,
ends its STEP.VOTE, stops its Foreman at HALT, and records it in STEP_STAT. CANCEL and ALERT of the attempt take
effect once, and of one that is to open here go on at once and are kept for it; a module whose vote is ABORT or HALT
alerts. While the step controller's core stands stopped each of these waits. That an early CANCEL or ALERT is kept for
the attempt that is to open, and that VOTE waits for it, is the model's choice (assumption 55), and so is the wait for
the core (assumption 74). -/
def Obligations.StepOutcomes : Prop :=
  ∀ (s : State) (p : Part), s.Inv →
    (s.hubCore stepCore = false →
      ∀ c ∈ [Instr.vote p, .voteTimeout p, .outcome p, .stepOutcomeAct p, .cancel p, .alert p, .alertSend p], exec c s = .next s)
    ∧ (s.hubCore stepCore = true →
    (∀ pkt s', s.takeStep p opVote = some (pkt, s') → s'.stepRel p pkt = .current → (s.ctl p).outcome = none →
      ((s.ctl p).kids.any fun e => e.1 == pktSrcMod pkt) = false →
      ∃ t, exec (.vote p) s = .next t ∧ (t.ctl p).kids = (s.ctl p).kids ++ [(pktSrcMod pkt, voteOf (stVote pkt))] ∧ t.mem = s.mem)
    ∧ (∀ pkt s', s.takeStep p opVote = some (pkt, s') → s'.stepRel p pkt = .other →
      ∃ t, exec (.vote p) s = .next t ∧ (t.ctl p).causes.getLsbD causeMismatch = true
        ∧ (pktSrcMod pkt, Vote.halt) ∈ (t.ctl p).kids ∧ t.ownVote p = .halt ∧ t.mem = s.mem)
    ∧ (s.takeStep p opVote = none → (s.ctl p).live = true → (s.ctl p).outcome = none → s.acting p = true → s.selfLost p = false →
      ((s.votingBenches p).all fun b => (s.ctl p).benchVotes.any fun e => e.1 == b.val) = true →
      ((s.stepKids p).all fun m => (s.ctl p).kids.any fun e => e.1 == m) = true →
      let v := (s.ctl p).kids.foldl (fun v e => voteMax v e.2) (s.ownVote p)
      ∃ t, exec (.vote p) s = .next t ∧ (t.ctl p).phase = .voting ∧ t.mem = s.mem
        ∧ (t.ctl p).outcome = some (if v = .abort ∧ (s.ctl p).attempt + 1 = s.rf (K.PLM_CTL p) F.PLM_CTL_MAX_ATTEMPTS
            then .halt else voteResult v))
    ∧ ((s.rf (K.STEP_CTL p) F.STEP_CTL_VOTE_LIMIT = 0 → exec (.voteTimeout p) s = .next s)
      ∧ (s.rf (K.STEP_CTL p) F.STEP_CTL_VOTE_LIMIT ≠ 0 → (s.ctl p).live = true → (s.ctl p).outcome = none → s.acting p = true →
        ((s.votingBenches p).all fun b => (s.ctl p).benchVotes.any fun e => e.1 == b.val) = true →
        ((s.stepKids p).all fun m => (s.ctl p).kids.any fun e => e.1 == m) = false →
        ∃ t, exec (.voteTimeout p) s = .next t ∧ (t.ctl p).outcome = some .halt
          ∧ (t.ctl p).causes.getLsbD causeVoteTimeout = true ∧ t.mem = s.mem))
    ∧ (∀ n pkt s', (s.takePacket fun x => isOp clsStep opOutcome x && pktDstPart x.2 == p) = some ((n, pkt), s') →
      (s'.stepPast p pkt = true ∨ (s.ctl p).outcome.isSome = true → exec (.outcome p) s = .next s')
      ∧ (s'.stepRel p pkt = .current → s'.stepPast p pkt = false → (s.ctl p).outcome = none →
      ∃ t, exec (.outcome p) s = .next t ∧ (t.ctl p).outcome = some (resultOf (stVote pkt)) ∧ (t.ctl p).phase = .voting
        ∧ (t.ctl p).causes = stCauses pkt ∧ t.mem = s.mem))
    ∧ (∀ r, (s.ctl p).outcome = some r → ∃ t, exec (.stepOutcomeAct p) s = .next t
        ∧ (t.ctl p).outcome = none ∧ (t.ctl p).phase = .idle ∧ (t.ctl p).last = some (r, (s.ctl p).step, (s.ctl p).attempt)
        ∧ t.rf (K.STEP_STAT p) F.STEP_STAT_OUTCOME = resultCode r
        ∧ t.rf (K.STEP_STAT p) F.STEP_STAT_ATTEMPT = (s.ctl p).attempt % 16
        ∧ t.rf (K.STEP_CAUSE p) F.STEP_CAUSE_CAUSE = (s.ctl p).causes.toNat
        ∧ (r = .commit → t.rf (K.STEP_STAT p) F.STEP_STAT_LAST_COMMIT = (s.ctl p).step % 2 ^ 48
          ∧ t.rb (K.STEP_STAT p) F.STEP_STAT_COMMIT_VALID = true)
        ∧ ∀ b ∈ t.benchesOf p, t.rf (K.STEP_STATE b) F.STEP_STATE_PHASE = 3 + resultCode r ∧ (t.fm b).voteReq = none
          ∧ (r = .halt → (t.fm b).st ≠ .running ∧ (t.fm b).st ≠ .draining))
    ∧ (∀ pkt s', s.takeNews p opCancel = some (pkt, s') →
      (s'.stepRel p pkt = .current → s.rb (K.STEP_STAT p) F.STEP_STAT_CANCELLED = false →
        ∃ t, exec (.cancel p) s = .next t ∧ (t.ctl p).cancelled = true ∧ t.rb (K.STEP_STAT p) F.STEP_STAT_CANCELLED = true)
      ∧ (s'.stepRel p pkt = .ahead → s'.stepPast p pkt = false →
        ∃ t, exec (.cancel p) s = .next t ∧ (t.ctl p).earlyCancel = some (pktStep pkt, stAttempt pkt) ∧ t.mem = s.mem))
    ∧ (∀ pkt s', s.takeNews p opAlert = some (pkt, s') →
      (s'.stepRel p pkt = .current → (s.ctl p).alerted = false →
        ∃ t, exec (.alert p) s = .next t ∧ (t.ctl p).alerted = true ∧ t.rb (K.STEP_CAUSE p) F.STEP_CAUSE_FIRST_VALID = true
          ∧ t.mem = s.mem ∧ t.reg (K.STEP_STAT p) = s.reg (K.STEP_STAT p) ∧ (s.acting p = true → (t.ctl p).cancelled = true))
      ∧ (s'.stepRel p pkt = .ahead → s'.stepPast p pkt = false → (s.ctl p).early = none →
        ∃ t, exec (.alert p) s = .next t ∧ (t.ctl p).early = some (pktStep pkt, stAttempt pkt, stOrigin pkt) ∧ t.mem = s.mem))
    ∧ ((s.ctl p).live = true → (s.ctl p).alerted = false → (s.ctl p).outcome = none →
      (2 ≤ voteRank (s.runningVote p) → ∃ t, exec (.alertSend p) s = .next t ∧ (t.ctl p).alerted = true
        ∧ (s.acting p = true → (t.ctl p).cancelled = true))
      ∧ (voteRank (s.runningVote p) < 2 → exec (.alertSend p) s = .next s)))

/-- O41 (R388, R389, R390, R391, R392, R394). An image that fails a check is refused: REFUSED is set with its reason,
and the mapping in force stands. One that passes them all is in force: EPOCH and MAP_ID are the image's, IN_FORCE and
DONE are set, no module is marked lost, the step history is empty, and no grant and no waiting packet of an older
epoch is kept. Memory stands. The image is read first, in its stacks' slots. That the Weighbridges also forget the
DRAINs awaited and come, and which check is told as REASON 2 and which as REASON 3, is the model's choice (assumption
56); so is the wait while the step controller's core stands stopped (assumption 74). -/
def Obligations.MappingInstalls : Prop :=
  ∀ (s : State) (p : Part), s.Inv →
    let base := s.rf (K.MAP_ADDR p) F.MAP_ADDR_ADDR
    let r := s.imgRead p
    (s.hubCore stepCore = false → exec (.install p) s = .next s)
    ∧ (s.hubCore stepCore = true → r.mapReason p ≠ 0 → ∃ t, exec (.install p) s = .next t ∧ t.rb (K.MAP_CTL p) F.MAP_CTL_REFUSED = true
      ∧ t.rf (K.MAP_CTL p) F.MAP_CTL_REASON = r.mapReason p ∧ t.ctl p = s.ctl p ∧ t.reg (K.MAP_ID p) = s.reg (K.MAP_ID p)
      ∧ t.benches = s.benches ∧ t.mem = s.mem)
    ∧ (s.hubCore stepCore = true → r.mapReason p = 0 → ∃ t m, exec (.install p) s = .next t ∧ t.rb (K.MAP_CTL p) F.MAP_CTL_IN_FORCE = true
      ∧ t.rb (K.MAP_CTL p) F.MAP_CTL_DONE = true
      ∧ t.rf (K.MAP_CTL p) F.MAP_CTL_EPOCH = fld (r.imgWord p base 0) 0 16
      ∧ t.reg (K.MAP_ID p) = r.imgWord p base 8
      ∧ t.ctl p = { (s.ctl p).emptied with mapping := some m } ∧ m.tree = (r.imgTree p base).map Prod.fst ∧ m.groups.length = 5
      ∧ (∀ x, x < 8192 → t.isLost p x = false)
      ∧ (∀ x ∈ t.fab.inbox, pktDstPart x.2 = p → t.stalePkt p x.2 = false)
      ∧ (∀ b ∈ s.benchesOf p, (t.wgh b).grants = [] ∧ (t.wgh b).awaitDrain = [] ∧ (t.wgh b).drained = []) ∧ t.mem = s.mem)

/-- O42 (R406, R407, R408, R411, R412, R484). MIR_START with an armed, unbroken set, a rate, a buddy that is not lost
and no mirror of the module in progress begins it, with every page of the set to send; otherwise FAILED is set. A
begin packet of the accepted source marks the other bank's manifest WRITING; a page piece is stored behind the
manifest's page; a manifest whose digest agrees is COMPLETE with SEQ one above the other bank's, one that disagrees
leaves memory as it was. The answer, its timeout or a broken set ends the mirror. MIR_RX is not written where it names
an owned row. (The packets' form is the model's: assumption 15.) -/
def Obligations.Mirrors : Prop :=
  ∀ (s : State) (p : Part), s.Inv →
    (let k := K.MIR_CTL p
      let n : Fin 4 := ⟨s.rf k F.MIR_CTL_SET % 4, by omega⟩
      let ok := s.rf k F.MIR_CTL_SET ≠ 0 ∧ s.rf k F.MIR_CTL_RATE ≠ 0 ∧ s.armed p n = true ∧ s.broken p n = false
        ∧ s.rb K.FAB_ID F.FAB_ID_BUDDY_VALID = true ∧ s.isLost p s.buddy = false ∧ ∀ q : Part, s.bulk.tx[q] = none
      (ok → ∃ t, exec (.mirStart p) s = .next t ∧ t.bulk.tx[p] = some ⟨s.rf k F.MIR_CTL_SET, s.setPages p n, [], true, false⟩
        ∧ t.rb k F.MIR_CTL_BUSY = true ∧ t.rf (K.MIR_STAT p) F.MIR_STAT_PAGES_SENT = 0 ∧ t.mem = s.mem)
      ∧ (¬ ok → s.bulk.tx[p] = none → ∃ t, exec (.mirStart p) s = .next t ∧ t.bulk = s.bulk
        ∧ t.rb k F.MIR_CTL_FAILED = true ∧ t.mem = s.mem)
      ∧ (s.bulk.tx[p] ≠ none → exec (.mirStart p) s = .next s))
    ∧ (∀ n pkt s', (s.takePacket fun x => isOp clsMgmt opMirBegin x) = some ((n, pkt), s') →
      let a := s.mirBank s.mirChoose
      (s'.mirAccepts pkt = true → s.stackOk (s.stackAt a) = true → ∃ t, exec .mirrorBeginReceive s = .next t
        ∧ t.bulk.rx = some ⟨s.mirChoose, 0, (pktSrcPart pkt).val, pktSrcMod pkt⟩ ∧ t.mirState s.mirChoose = 1 ∧ t.benches = s.benches
        ∧ (∀ i, 8 ≤ i → i < pageSize → mget t.mem (a + i) = 0)
        ∧ ∀ k, k < a ∨ a + pageSize ≤ k → mget t.mem k = mget s.mem k)
      ∧ (s'.mirAccepts pkt = false → exec .mirrorBeginReceive s = .next s'))
    ∧ (∀ n pkt s' r, (s.takePacket fun x => isOp clsMgmt opMirPage x || isOp clsMgmt opMirMarks x) = some ((n, pkt), s') →
      (s'.takePacket fun x => isOp clsMgmt opMirPage x || isOp clsMgmt opMirMarks x) = none → pktOp pkt = opMirPage →
        s.bulk.rx = some r → s'.mirAccepts pkt = true →
      r.owns pkt = true → pageSize + mirOffset pkt + pkt.payload.length ≤ s.mirBankLen →
      let a := s.mirBank r.bank + pageSize + mirOffset pkt
      s.stackOk (s.stackAt a) = true →
      ∃ t, exec .mirrorPageReceive s = .next t ∧ t.bulk.rx = some { r with bytes := r.bytes + pkt.payload.length }
        ∧ t.mem = mwrite s.mem a pkt.payload ∧ t.benches = s.benches)
    ∧ (∀ n pkt s' r, (s.takePacket fun x => isOp clsMgmt opMirManifest x) = some ((n, pkt), s') → s.bulk.rx = some r →
      s'.mirAccepts pkt = true → r.owns pkt = true → pkt.payload.length = 160 → s.stackOk (s.stackAt (s.mirBank r.bank)) = true →
      let pages := fld (pktWord pkt 3) 0 32
      let agrees := r.bytes = pages * pageSize
        ∧ Config.sha512 (mread s.mem (s.mirBank r.bank + pageSize) (pages * pageSize))
          = BitVec.ofNat 512 (ofBytes ((pkt.payload.drop 96).take 64))
      (agrees → ∃ t, exec .mirrorManifestReceive s = .next t ∧ t.bulk.rx = none ∧ t.mirState r.bank = mirComplete
        ∧ t.mirSeq r.bank = (s.mirSeq (1 - r.bank) + 1) % 2 ^ 64
        ∧ mread t.mem (s.mirBank r.bank + 16) 144 = pkt.payload.drop 16
        ∧ ∀ k, k < s.mirBank r.bank ∨ s.mirBank r.bank + 160 ≤ k → mget t.mem k = mget s.mem k)
      ∧ (¬ agrees → ∃ t, exec .mirrorManifestReceive s = .next t ∧ t.bulk.rx = none ∧ t.mem = s.mem))
    ∧ (∀ n pkt s' m, (s.takePacket fun x => (isOp clsMgmt opMirAck x || isOp clsMgmt opMirFail x) && pktDstPart x.2 == p)
        = some ((n, pkt), s') → s.bulk.tx[p] = some m → m.manifestSent = true → pktSrcMod pkt = s.buddy →
      ∃ t, exec (.mirrorAckReceive p) s = .next t ∧ t.bulk.tx[p] = none ∧ t.rb (K.MIR_CTL p) F.MIR_CTL_BUSY = false ∧ t.mem = s.mem
        ∧ (pktOp pkt = opMirAck → t.rb (K.MIR_CTL p) F.MIR_CTL_DONE = true
          ∧ t.rf (K.MIR_STAT p) F.MIR_STAT_SEQ = fld (pktWord pkt 0) 0 32)
        ∧ (pktOp pkt = opMirFail → t.rb (K.MIR_CTL p) F.MIR_CTL_FAILED = true))
    ∧ (∀ m, s.bulk.tx[p] = some m → m.manifestSent = true → ∃ t, exec (.mirrorAckTimeout p) s = .next t
      ∧ t.bulk.tx[p] = none ∧ t.rb (K.MIR_CTL p) F.MIR_CTL_BUSY = false ∧ t.rb (K.MIR_CTL p) F.MIR_CTL_FAILED = true
      ∧ t.mem = s.mem)
    ∧ (∀ n : Fin 4, s.bulk.tx[p].map MirrorTx.set = some n.val →
      (s.breakSet p n).bulk.tx[p] = none ∧ (s.breakSet p n).rb (K.MIR_CTL p) F.MIR_CTL_FAILED = true)
    ∧ ∀ v : Word, let rows := fld v 8 7
      rows % 2 = 0 → 2 ≤ rows → rows ≤ 96 →
      ((∀ i < rows, s.rowOwner (fld v 0 7 + i) = none) → ∃ t, exec (.mirRxWrite v) s = .next t ∧ t.mem = s.mem
        ∧ t.rf K.MIR_RX F.MIR_RX_BASE_ROW = v.toNat % 2 ^ 7 ∧ t.rf K.MIR_RX F.MIR_RX_ROWS = v.toNat / 2 ^ 8 % 2 ^ 7
        ∧ t.rf K.MIR_RX F.MIR_RX_SOURCE = v.toNat / 2 ^ 16 % 2 ^ 13 ∧ t.rf K.MIR_RX F.MIR_RX_VALID = v.toNat / 2 ^ 29 % 2)
      ∧ (∀ i < rows, ∀ q, s.rowOwner (fld v 0 7 + i) = some q → exec (.mirRxWrite v) s = .next s)

/-- O43 (R338, R339, R340, R344, R345, R346, R347, R348, R349). A port trains with the lowest spares in place of
failed lanes, READY with its peer known, or FAILED. A READY port sends the class due with credits and the credits it
owes, and keeps the frame; with none to send, or of no partition, its credits go in idle symbols. A frame received in
sequence advances the sequence and takes its credits; its own are owed once its packet leaves the buffer. A bad one is
answered with a NAK of the number expected, one out of sequence is dropped. A NAK sends every kept frame from it
again, and the eighth time in a row takes the port DOWN; a port of no partition resends nothing. Credits return up to
the peer's buffer. A packet at its destination that passes the checks waits for its unit. That a frame out of sequence
is dropped without a NAK, that a frame's credits are owed from its packet's leaving the buffer, which frames returned
credits prove received, and the number taken after a NAK that finds no frame kept are the model's choice (assumption
58). -/
def Obligations.Ports : Prop :=
  ∀ (s : State) (n : PortNo), s.Inv →
    let k := K.FAB_PORT n
    let q := s.port n
    (∀ (errors : List Nat) (pm : BitVec 13) (pp : BitVec 4),
      let first := ((s.savedSet (savedPort n)).map Prod.fst).getD (List.range 16)
      (s.portTrains n = false → exec (.portTraining n errors pm pp) s = .next s)
      ∧ (s.portTrains n = true → fitLanes (failedLanes errors) first ([16, 17].filter fun l => !first.contains l) = none →
        ∃ t, exec (.portTraining n errors pm pp) s = .next t ∧ t.portState n = 4 ∧ t.rb k F.FAB_PORT_PEER_VALID = false)
      ∧ (∀ lanes left, s.portTrains n = true →
        fitLanes (failedLanes errors) first ([16, 17].filter fun l => !first.contains l) = some (lanes, left) →
        ∃ t, exec (.portTraining n errors pm pp) s = .next t ∧ t.portState n = portReady ∧ t.rf k F.FAB_PORT_PEER_MOD = pm.toNat
          ∧ t.rf k F.FAB_PORT_PEER_PORT = pp.toNat ∧ t.rb k F.FAB_PORT_PEER_VALID = true
          ∧ t.port n = { PortSt.reset with lanes := lanes }))
    ∧ (∀ lane errors, (s.portState n = portReady → 100000 ≤ errors →
        ∃ t, exec (.laneWindowEnd n lane errors) s = .next t ∧ t.rb k F.FAB_PORT_MARGINAL = true ∧ t.fab = s.fab)
      ∧ ((s.portState n ≠ portReady ∨ errors < 100000) → exec (.laneWindowEnd n lane errors) s = .next s))
    ∧ (∀ c pkt rest, s.portUp n = true → (s.portOwner n).isSome = true → q.nextClass = some c → q.sendq[c] = pkt :: rest →
      let fr : Frame := ⟨pkt, q.txSeq, crc32 (pktBytes pkt), false, 0, q.owed⟩
      ∃ t, exec (.frameTransmit n) s = .next t ∧ (t.port n).sendq[c] = rest
        ∧ (t.port n).credits[c] = q.credits[c] - frameCost pkt ∧ frameCost pkt ≤ q.credits[c]
        ∧ (t.port n).txSeq = q.txSeq + 1 ∧ (t.port n).outbox = q.outbox ++ [fr] ∧ (t.port n).resend = q.resend ++ [fr]
        ∧ (t.port n).owed = Vector.replicate 5 0 ∧ (∀ d : Fin 5, d ≠ c → (t.port n).sendq[d] = q.sendq[d]) ∧ t.mem = s.mem)
    ∧ (s.portUp n = true → (s.portOwner n = none ∨ q.nextClass = none) → ∃ t, exec (.frameTransmit n) s = .next t
      ∧ t.port n = { q with owed := Vector.replicate 5 0, idles := (t.port n).idles }
      ∧ ∀ c : Fin 5, (t.port n).idles[c] = q.idles[c] + q.owed[c])
    ∧ (s.portUp n = false → exec (.frameTransmit n) s = .next s)
    ∧ (∀ fr : Frame, s.portUp n = true →
      let good := fr.badCodeword = false ∧ fr.crc = crc32 (pktBytes fr.pkt)
      (¬ good → ∃ t, exec (.frameReceive n fr) s = .next t ∧ t.port n = { q with nak := some q.rxSeq }
        ∧ t.fab.inbox = s.fab.inbox)
      ∧ (good → fr.seq ≠ q.rxSeq → ∃ t, exec (.frameReceive n fr) s = .next t ∧ t.fab = s.fab)
      ∧ (good → fr.seq = q.rxSeq → ∃ t, exec (.frameReceive n fr) s = .next t ∧ (t.port n).rxSeq = q.rxSeq + 1
        ∧ (t.port n).nak = none ∧ t.mem = s.mem
        ∧ (∀ c : Fin 5, (t.port n).credits[c] = Nat.min (q.credits[c] + fr.credits[c]) fullCredits[c])
        ∧ (pktDstMod fr.pkt ≠ s.modId → (t.port n).owed[pktCls fr.pkt] = q.owed[pktCls fr.pkt] + frameCost fr.pkt)
        ∧ (let d := pktDstPart fr.pkt
          pktDstMod fr.pkt = s.modId → s.portOwner n = some d → s.partValid d = true →
          opKnown (pktClass fr.pkt) (pktOp fr.pkt) = true → zeroFieldsOk fr.pkt = true →
          s.isLost d (pktSrcMod fr.pkt) = false →
          (pktClass fr.pkt = clsMgmt ∨ (pktTag fr.pkt = s.jobTag d ∧ pktEpochValid fr.pkt = s.epochOn d
            ∧ (s.epochOn d = true → pktEpoch fr.pkt = s.epoch d))) →
          t.fab.inbox = s.fab.inbox ++ [(some n, fr.pkt)] ∧ (t.port n).owed = q.owed)))
    ∧ (∀ want x s', s.takePacket want = some ((some n, x), s') →
      (s'.port n).owed[pktCls x] = q.owed[pktCls x] + frameCost x)
    ∧ (∀ expected, (s.portOwner n = none → exec (.nakReceive n expected) s = .next s)
      ∧ (s.portUp n = true → (s.portOwner n).isSome = true → q.resend = [] →
        ∃ t, exec (.nakReceive n expected) s = .next t ∧ t.port n = { q with txSeq := expected }))
    ∧ (∀ expected fr rest, s.portUp n = true → (s.portOwner n).isSome = true →
      (q.resend.dropWhile fun f => f.seq != expected) = fr :: rest →
      let again := q.resend = fr :: rest
      (again → q.resends < 7 → ∃ t, exec (.nakReceive n expected) s = .next t ∧ (t.port n).outbox = q.outbox ++ (fr :: rest)
        ∧ (t.port n).resend = fr :: rest ∧ (t.port n).resends = q.resends + 1 ∧ t.portUp n = true)
      ∧ (again → 7 ≤ q.resends → ∃ t, exec (.nakReceive n expected) s = .next t ∧ t.portState n = portDown)
      ∧ (¬ again → ∃ t, exec (.nakReceive n expected) s = .next t ∧ (t.port n).resend = fr :: rest ∧ (t.port n).resends = 1
        ∧ (t.port n).outbox = q.outbox ++ (fr :: rest) ∧ (t.port n).credits = q.credits))
    ∧ ∀ (c : Fin 5) (units : Nat), ∃ t, exec (.creditReturn n c units) s = .next t
      ∧ (t.port n).credits[c] = Nat.min (q.credits[c] + units) fullCredits[c]
      ∧ (∀ d : Fin 5, d ≠ c → (t.port n).credits[d] = q.credits[d]) ∧ (t.port n).sendq = q.sendq ∧ t.regs = s.regs

/-- O44 (R289, R342, R348, R351, R352, R353, R360). PORT_DOWN of a READY port makes it DOWN and marks its known peer
lost in the partition that owns the port. A LOST notice of the epoch in force marks its module, or this module itself
as SELF_LOST; one of another epoch changes nothing. FAB_ROUTE entries that name a port of another owner stay as they
were with REFUSED, the others are taken; FAB_TREE is written only without an epoch. ARRIVE counts a child's
generation, and a tree RELEASE opens its gates, after which the next generation may be due. That a LOST notice's epoch
is compared together with its valid bit is the model's choice (assumption 58), that the next generation may be
released with a RELEASE is too (assumption 53), and so is the wait while the barrier unit's core stands stopped
(assumption 74). -/
def Obligations.LostPeers : Prop :=
  ∀ s : State, s.Inv →
    (∀ (n : PortNo) (cause : Fin 3),
      (s.portState n ≠ portReady → exec (.portDown n cause) s = .next s)
      ∧ (s.portState n = portReady → ∃ t, exec (.portDown n cause) s = .next t ∧ t.portState n = portDown
        ∧ ∀ p, s.portOwner n = some p → s.rb (K.FAB_PORT n) F.FAB_PORT_PEER_VALID = true →
          t.isLost p (s.rf (K.FAB_PORT n) F.FAB_PORT_PEER_MOD) = true))
    ∧ (∀ port pkt s', (s.takePacket fun x => isOp clsMgmt 0 x) = some ((port, pkt), s') →
      let p := match port with | some n => (s.portOwner n).getD (pktDstPart pkt) | none => pktDstPart pkt
      let x := pktBucket pkt % 8192
      let current := pktEpochValid pkt = s.epochOn p ∧ (s.epochOn p = true → pktEpoch pkt = s.epoch p)
      (¬ current → exec .lost s = .next s')
      ∧ (current → x ≠ s.modId → ∃ t, exec .lost s = .next t ∧ t.isLost p x = true)
      ∧ (current → x = s.modId → ∃ t, exec .lost s = .next t ∧ t.rb (K.FAB_PART p) F.FAB_PART_SELF_LOST = true
        ∧ ((s.ctl p).live = true → (s.ctl p).outcome = none → (t.ctl p).outcome = some .halt)))
    ∧ (∀ (p : Part) (i : BitVec 10) (v : Word), ∃ t, exec (.fabRouteWrite p i v) s = .next t ∧ t.mem = s.mem
      ∧ ∀ j : Fin 8, let e := fld v (8 * j.val) 8
        let port : PortNo := ⟨e % 16, by omega⟩
        (e.testBit 7 = false → t.route p (8 * i.toNat + j.val) = none)
        ∧ (e.testBit 7 = true → s.portOwner port = some p → t.route p (8 * i.toNat + j.val) = some port)
        ∧ (e.testBit 7 = true → s.portOwner port ≠ some p → t.rb (K.FAB_PART p) F.FAB_PART_REFUSED = true
          ∧ t.route p (8 * i.toNat + j.val) = s.route p (8 * i.toNat + j.val)))
    ∧ (∀ (p : Part) (v : Word),
      (s.epochOn p = true → ∃ t, exec (.fabTreeWrite p v) s = .next t ∧ t.reg (K.FAB_TREE p) = s.reg (K.FAB_TREE p)
        ∧ t.rb (K.FAB_PART p) F.FAB_PART_REFUSED = true)
      ∧ (s.epochOn p = false → ∃ t, exec (.fabTreeWrite p v) s = .next t
        ∧ t.rf (K.FAB_TREE p) F.FAB_TREE_CHILDREN = v.toNat % 2 ^ 16
        ∧ t.rf (K.FAB_TREE p) F.FAB_TREE_PARENT = v.toNat / 2 ^ 16 % 16
        ∧ t.rf (K.FAB_TREE p) F.FAB_TREE_ROOT = v.toNat / 2 ^ 20 % 2))
    ∧ (∀ (p : Part) n pkt s', (s.takePacket fun x => isOp clsBarrier 0 x && pktDstPart x.2 == p) = some ((some n, pkt), s') →
      let bid : Fin 16 := ⟨pktBucket pkt % 16, by omega⟩
      (s.hubCore barrierCore = false → exec (.arrive p) s = .next s) ∧ (s.hubCore barrierCore = true →
        ∃ t, exec (.arrive p) s = .next t ∧ t.mem = s.mem
        ∧ (s.barHere p bid (s.barNext p bid) = false ∨ s.barFabric p bid (s.barNext p bid) = true →
          tget 0 (t.bar p).kids (bid.val * 16 + n.val) = BitVec.ofNat 16 (pktSlot pkt))))
    ∧ ∀ (p : Part) n pkt s', (s.takePacket fun x => isOp clsBarrier 1 x && pktDstPart x.2 == p) = some ((n, pkt), s') →
      let bid : Fin 16 := ⟨pktBucket pkt % 16, by omega⟩
      let shown (t : State) : Nat := t.rf (K.BAR_GEN p bid.val) F.BAR_GEN_RELEASED
      s.hubCore barrierCore = true → ∃ t, exec (.barrierTreeRelease p) s = .next t ∧ t.mem = s.mem
        ∧ (s.treeRoot p = false → shown t = pktSlot pkt
          ∨ (shown t = (pktSlot pkt + 1) % 65536 ∧ s.barHere p bid (BitVec.ofNat 16 (pktSlot pkt + 1)) = true))
        ∧ ∀ b ∈ s.benchesOf p, ∀ g ∈ (t.fm b).gates, ∀ fabric i gen, g.kind = .barrier p fabric i gen →
          i.val = pktBucket pkt % 16 → gen ≠ BitVec.ofNat 16 (pktSlot pkt)

/-- O45 (R210, R212, R278, R350, R432). A WRITE that fills or overwrites whole bytes of one SRAM window stores exactly
its payload; one outside a window of its partition changes no memory. An ACK takes its write off the HAUL.ST that
waits for it, which completes with the last; a REJECT, an answer missing at ACK_LIMIT or a refused flush faults it; a
flush of the host's that completes completes it. -/
def Obligations.RemoteWrites : Prop :=
  ∀ s : State, s.Inv →
    (∀ n pkt s', (s.takePacket (isOp clsData 0)) = some ((n, pkt), s') →
      let p := pktDstPart pkt
      let len := 16 * pktLen pkt
      (s.rangeOk p (pktAddr pkt) len = false → ∃ t, exec .write s = .next t ∧ t.mem = s.mem ∧ t.benches = s.benches)
      ∧ (s.rangeOk p (pktAddr pkt) len = true → 0 < pktLen pkt → pkt.payload.length = len → inSram (pktAddr pkt) = true →
        (pktFe pkt = 0 ∨ pktFe pkt = 2) → (∀ w ∈ wordsOf (pktAddr pkt) len, s.mayAccess p (16 * w) = true) →
        (∀ w ∈ wordsOf (pktAddr pkt) len, (s.mark w).upset = .clean) →
        ∃ t, exec .write s = .next t ∧ mread t.mem (pktAddr pkt) len = pkt.payload
          ∧ (∀ a, a < pktAddr pkt ∨ pktAddr pkt + len ≤ a → mget t.mem a = mget s.mem a)
          ∧ (pktFe pkt = 0 → ∀ w ∈ wordsOf (pktAddr pkt) len, t.full w = true)
          ∧ (pktPoison pkt = true → ∀ w ∈ wordsOf (pktAddr pkt) len, (t.mark w).poison = true)))
    ∧ (∀ n pkt s' b r, (s.takePacket (isOp clsData 1)) = some ((n, pkt), s') →
      s'.awaiting (pktDstPart pkt) (pktAddr pkt) (pktSrcMod pkt) = some (b, r) → (s.bench b).running 1 r.unit = some r →
      let left := r.remote.erase (pktAddr pkt, pktSrcMod pkt)
      (left = [] → Completes .ack s b 1 r.unit r.e.id s.mem)
      ∧ (left ≠ [] → ∃ t, exec .ack s = .next t ∧ (t.bench b).running 1 r.unit = some { r with remote := left } ∧ t.mem = s.mem))
    ∧ (∀ n pkt s' b r, (s.takePacket (isOp clsData 2)) = some ((n, pkt), s') →
      s'.awaiting (pktDstPart pkt) (pktAddr pkt) (pktSrcMod pkt) = some (b, r) →
      ∃ t, exec .reject s = .next t ∧ (t.fm b).st = .faulted ∧ (t.bench b).running 1 r.unit = none ∧ t.mem = s.mem)
    ∧ ∀ (b : Bid) (u : Fin 8) (r : Running), s.active b 1 u = some r → r.remote ≠ [] →
      let p := (s.partOf b).getD 0
      (haulRemote r.e = 2 →
        (s.rf (K.FAB_PART p) F.FAB_PART_ACK_LIMIT = 0 → exec (.fabricAckTimeout b u) s = .next s)
        ∧ (s.rf (K.FAB_PART p) F.FAB_PART_ACK_LIMIT ≠ 0 → ∃ t, exec (.fabricAckTimeout b u) s = .next t
          ∧ (t.fm b).st = .faulted ∧ (t.bench b).running 1 u = none ∧ t.mem = s.mem))
      ∧ (haulRemote r.e = 1 →
        (∀ d, Completes (.hostFlushComplete b u (.ok d)) s b 1 u r.e.id s.mem)
        ∧ (∃ t, exec (.hostFlushComplete b u .refused) s = .next t ∧ (t.fm b).st = .faulted
          ∧ (t.bench b).running 1 u = none ∧ t.mem = s.mem)
        ∧ (s.rf (K.HQ_LIM p) F.HQ_LIM_ACK_LIMIT = 0 → exec (.hostAckTimeout b u) s = .next s)
        ∧ (s.rf (K.HQ_LIM p) F.HQ_LIM_ACK_LIMIT ≠ 0 → ∃ t, exec (.hostAckTimeout b u) s = .next t
          ∧ (t.fm b).st = .faulted ∧ (t.bench b).running 1 u = none ∧ t.mem = s.mem))

/-- O46 (R298, R426, R427, R428, R429, R432). With the completion ring full, or a completion held, no command begins.
A command that fails its checks ends with their status. NOP ends OK. START starts every Bench it names that may start,
and ends only once each has left STOPPED. COPY_IN of a transfer stores the host's bytes and ends OK, or HOST_ERROR
where the host refuses. COPY_OUT of a transfer reads its words and has its flushing read out. SIGNAL writes its image;
WAIT ends with the word where COND holds, and otherwise waits. QUEUE_WAIT_TIMEOUT ends a begun WAIT with TIMEOUT, a
missing read completion a COPY with HOST_ERROR. -/
def Obligations.QueueCommands : Prop :=
  ∀ (s : State) (p : Part) (q8 : BitVec 8) (i : Nat) (c : QCmd), s.Inv →
    let q := q8.toNat
    (∀ st, (s.hq q).cmds[i]? = some c → s.qOwner q = some p → s.qServed q = true → c.status = none → c.begun = false →
      s.mayBegin q i = true → s.cmdCheck p c = some st → i = s.firstCmd q →
      ∀ ev opc, (ev, opc) ∈ [(Instr.queueNop q8, 0), (.queueStart q8, 1), (.copyIn q8 i (.ok []), 2), (.copyOut q8 i, 3),
        (.signal q8, 4), (.wait q8, 5)] → c.opc = opc →
      ∃ t, exec ev s = .next t ∧ t.cmdStatus q i = some st ∧ t.mem = s.mem ∧ t.benches = s.benches)
    ∧ ((s.hq q).cmds[i]? = some c → c.begun = false → ((s.hq q).held ≠ [] ∨ s.cqRoom q = false) →
      (i = s.firstCmd q → ∀ ev ∈ [Instr.queueNop q8, .queueStart q8, .signal q8, .wait q8], exec ev s = .next s)
      ∧ ∀ a, exec (.copyIn q8 i a) s = .next s ∧ exec (.copyOut q8 i) s = .next s)
    ∧ (s.CmdBegins q i p c →
      (c.opc = 0 → i = s.firstCmd q → ∃ t, exec (.queueNop q8) s = .next t ∧ t.cmdStatus q i = some 0 ∧ t.mem = s.mem
        ∧ t.regs = s.regs)
      ∧ (c.opc = 1 → i = s.firstCmd q → ∃ t, exec (.queueStart q8) s = .next t ∧ t.mem = s.mem
        ∧ ((t.hq q).cmds[i]?).map (fun d => (d.begun, d.status)) = some (true, none)
        ∧ (∀ b, b ∉ c.names → t.fm b = s.fm b)
        ∧ ∀ b ∈ c.names, s.loading b = false → s.present b ucForeman 0 = true → s.mgmt.testMode = 0 → s.inReset b = false →
            s.rb (K.CLK_BENCH b) F.CLK_BENCH_STOPPED = false →
            (t.fm b).st = .running ∧ (t.fm b).pc = BitVec.ofNat 15 (s.rf (K.FM_CTL b) F.FM_CTL_ENTRY))
      ∧ (c.opc = 2 → (∃ t, exec (.copyIn q8 i .refused) s = .next t ∧ t.cmdStatus q i = some 4 ∧ t.mem = s.mem)
        ∧ ∀ l : List Byte, c.moved = 0 → c.len ≤ 256 → l.length = 16 * c.len → inSram c.dev = true →
          (∀ w ∈ wordsOf c.dev (16 * c.len), s.mayAccess p (16 * w) = true) →
          ∃ t, exec (.copyIn q8 i (.ok l)) s = .next t ∧ t.cmdStatus q i = some 0 ∧ mread t.mem c.dev (16 * c.len) = l
            ∧ ∀ a, a < c.dev ∨ c.dev + 16 * c.len ≤ a → mget t.mem a = mget s.mem a)
      ∧ (c.opc = 3 → c.moved = 0 → c.flushing = none → c.poison = false → c.len ≤ 256 →
        (∀ w ∈ wordsOf c.dev (16 * c.len), s.mayAccess p (16 * w) = true ∧ (s.mark w).upset = .clean
          ∧ (s.mark w).poison = false ∧ (inSram (16 * w) = true → c.mode = 2 ∨ s.full w = true)) →
        ∃ t, exec (.copyOut q8 i) s = .next t ∧ t.mem = s.mem
          ∧ (t.hq q).cmds[i]? = some { c with begun := true, moved := c.len, flushing := some (c.hostAddr + 16 * c.len - 1), parked := false }
          ∧ (twf (fun _ => (0 : Byte)) (s.hport p).mem →
            ∀ k < 16 * c.len, tget 0 (t.hport p).mem (c.hostAddr + k) = mget s.mem (c.dev + k)))
      ∧ (c.opc = 4 → i = s.firstCmd q → s.mayAccess p c.wordAt = true →
        ∃ t, exec (.signal q8) s = .next t ∧ t.cmdStatus q i = some 0
          ∧ t.mem = (s.signalWord (BitVec.ofNat 2 c.mode) (c.wordAt / 16) (signalImage (c.w 2) 0 0)).mem
          ∧ t.marks = (s.signalWord (BitVec.ofNat 2 c.mode) (c.wordAt / 16) (signalImage (c.w 2) 0 0)).marks)
      ∧ (c.opc = 5 → i = s.firstCmd q → s.mayAccess p c.wordAt = true → (s.mark (c.wordAt / 16)).poison = false →
        let holds := s.waitHolds c.wordAt (BitVec.ofNat 2 c.mode) (c.w 2)
        ∃ t, exec (.wait q8) s = .next t ∧ t.mem = s.mem
          ∧ (holds = true → t.regs = s.regs ∧ ∃ n, (∀ d ∈ (s.hq q).cmds, d.status.isSome = true → d.doneNo < n) ∧ (t.hq q).cmds[i]? = some
              { c with begun := true, status := some 0, result := (s.word (c.wordAt / 16)).setWidth 64, flushing := none, doneNo := n })
          ∧ (holds = false → (t.hq q).cmds[i]? = some { c with begun := true, parked := true })))
    ∧ ((s.hq q).cmds[i]? = some c → i = s.firstCmd q → c.begun = true → c.opc = 5 → c.len ≠ 0 →
      ∃ t, exec (.queueWaitTimeout q8) s = .next t ∧ t.cmdStatus q i = some 6 ∧ t.mem = s.mem ∧ t.regs = s.regs
        ∧ ((s.mark (c.wordAt / 16)).poison = false →
          ((t.hq q).cmds[i]?).map QCmd.result = some ((s.word (c.wordAt / 16)).setWidth 64)))
    ∧ ((s.hq q).cmds[i]? = some c → s.qServed q = true → c.begun = true → c.status = none → c.opc = 1 →
      (∃ b ∈ c.names, c.left.getLsbD b.val = false ∧ (s.fm b).st = .stopped) → ∀ a, exec (.queueCommandComplete q8 i a) s = .next s)
    ∧ (((s.hq q).cmds.findIdx? fun c => c.begun && c.status.isNone && (c.opc == 2 || c.flushing.isSome)) = some i →
      ∃ t, exec (.hostReadCompletionTimeout q8) s = .next t ∧ t.cmdStatus q i = some 4 ∧ t.mem = s.mem ∧ t.regs = s.regs)

/-- O47 (R415, R424, R425, R428, R429, R430, R431, R435, R436). QUEUE_ENTRY_FETCH of a served queue with an entry
takes it in, and SQ_HEAD goes on. The command that ended first leaves the queue; its completion goes into the ring at
CQ_TAIL, or is held where there is no room; that of a WAIT that timed out then sets ERROR. A coalescing timer raises
the vector of completions not yet signalled. A doorbell through the port of a partition that is not valid is ignored,
one of a queue that the partition does not own or that is off is counted as dropped; a value outside the ring sets
ERROR. Setting ENABLE starts the queue afresh; an abort empties and disables a partition's queues. -/
def Obligations.QueueRings : Prop :=
  ∀ (s : State) (p : Part) (q8 : BitVec 8), s.Inv →
    let q := q8.toNat
    let x := s.hq q
    let tail := s.qp q F.HQ_PTR_CQ_TAIL
    let head := s.qp q F.HQ_PTR_SQ_HEAD
    s.rf (K.HQ_SQ q) F.HQ_SQ_SIZE_LOG2 ≤ 16 →
    (∀ l : List Byte, s.qServed q = true → s.rb (K.HQ_CTL q) F.HQ_CTL_ERROR = false → head ≠ s.qp q F.HQ_PTR_SQ_TAIL →
      ∃ t c, exec (.queueEntryFetch q8 (.ok l)) s = .next t ∧ (t.hq q).cmds = x.cmds ++ [c] ∧ c.begun = false ∧ c.status = none
        ∧ (∀ k < 8, c.w k = BitVec.ofNat 64 (ofBytes ((l.drop (8 * k)).take 8)))
        ∧ t.qp q F.HQ_PTR_SQ_HEAD = (head + 1) % s.qSize q ∧ t.mem = s.mem)
    ∧ (s.qServed q = false → ∀ a, exec (.queueEntryFetch q8 a) s = .next s)
    ∧ (∀ i c st, s.qServed q = true → s.qOwner q = some p → x.cmds[i]? = some c → c.status = some st →
      (∀ d ∈ x.cmds, d.status.isSome = true → c.doneNo ≤ d.doneNo) → ∀ a,
      (x.held = [] → s.cqRoom q = true → ∃ t, exec (.queueCommandComplete q8 i a) s = .next t
        ∧ (t.hq q).cmds = x.cmds.eraseIdx i ∧ t.qp q F.HQ_PTR_CQ_TAIL = (tail + 1) % s.qSize q ∧ t.mem = s.mem
        ∧ (t.hport p).mem = ((s.hostPut p ((s.reg (K.HQ_CQ q)).toNat / 4096 * 4096 + 16 * tail)
            (wordBytes [setFld c.entry.1 40 1 (if x.phase then 1 else 0), c.entry.2])).hport p).mem
        ∧ (st = 6 → t.rb (K.HQ_CTL q) F.HQ_CTL_ERROR = true)
        ∧ (s.rf (K.HQ_CTL q) F.HQ_CTL_COAL_COUNT ≤ x.unsignalled + 1 → (t.hport p).msix = (s.hport p).msix ++ [q]))
      ∧ ((x.held ≠ [] ∨ s.cqRoom q = false) → ∃ t, exec (.queueCommandComplete q8 i a) s = .next t
        ∧ (t.hq q).cmds = x.cmds.eraseIdx i ∧ (t.hq q).held = x.held ++ [c.entry] ∧ t.mem = s.mem))
    ∧ (∀ i c d st e, x.cmds[i]? = some c → c.status = some st → d ∈ x.cmds → d.status = some e → d.doneNo < c.doneNo → ∀ a,
      exec (.queueCommandComplete q8 i a) s = .next s)
    ∧ (s.qOwner q = some p →
      (x.unsignalled = 0 → exec (.completionCoalesceTimer q8) s = .next s)
      ∧ (x.unsignalled ≠ 0 → ∃ t, exec (.completionCoalesceTimer q8) s = .next t ∧ (t.hq q).unsignalled = 0
        ∧ (t.hport p).msix = (s.hport p).msix ++ [q]))
    ∧ (∀ v : BitVec 32, s.partValid p = false → ∀ c ∈ [Instr.sqTail p q8 v, .cqHead p q8 v], exec c s = .next s)
    ∧ (∀ v : BitVec 32, s.partValid p = true →
      let w := v.toNat % 65536
      (s.bellOk p q = false → ∀ c ∈ [Instr.sqTail p q8 v, .cqHead p q8 v], ∃ t, exec c s = .next t
        ∧ t.reg (K.DB_DROPPED p) = s.reg (K.DB_DROPPED p) + 1 ∧ t.host = s.host ∧ t.reg (K.HQ_PTR q) = s.reg (K.HQ_PTR q))
      ∧ (s.bellOk p q = true → s.qSize q ≤ w → ∀ c ∈ [Instr.sqTail p q8 v, .cqHead p q8 v], ∃ t, exec c s = .next t
        ∧ t.rb (K.HQ_CTL q) F.HQ_CTL_ERROR = true ∧ t.reg (K.HQ_PTR q) = s.reg (K.HQ_PTR q))
      ∧ (s.bellOk p q = true → w < s.qSize q → ∃ t, exec (.sqTail p q8 v) s = .next t
        ∧ t.qp q F.HQ_PTR_SQ_TAIL = w ∧ t.host = s.host)
      ∧ (s.bellOk p q = true → w < s.qSize q → x.held = [] →
        let size := s.qSize q
        let h := s.qp q F.HQ_PTR_CQ_HEAD % size
        (w + size - h) % size ≤ (tail + size - h) % size →
        ∃ t, exec (.cqHead p q8 v) s = .next t ∧ t.qp q F.HQ_PTR_CQ_HEAD = w ∧ t.host = s.host))
    ∧ (∀ v : Word, s.qOn q = false → v.getLsbD 0 = true → ∃ t, exec (.queueEnableWrite q8 v) s = .next t ∧ t.qOn q = true
      ∧ t.reg (K.HQ_PTR q) = 0 ∧ t.hq q = QState.idle ∧ t.qOwner q = s.qOwner q ∧ t.mem = s.mem)
    ∧ (s.aborting p = false → exec (.queueAbort p) s = .next s)
    ∧ (s.aborting p = true → ∃ t, exec (.queueAbort p) s = .next t ∧ t.aborting p = false ∧ t.mem = s.mem
      ∧ t.rb (K.HQ_STAT p) F.HQ_STAT_QUEUES_ABORTED = true
      ∧ (s.queueOf p q = true → t.qOn q = false ∧ t.rb (K.HQ_CTL q) F.HQ_CTL_ABORTED = true ∧ (t.hq q).cmds = []))

/-- O48 (R413, R414, R415, R416, R417, R418, R419, R420, R435, R439, R516, R559). A BAR0 access of another length or
alignment gets a Completer Abort; before READY or without a partition reads return zero and writes do nothing; a
register's read answers its value, one the host may not reach or write sets BAR0_REFUSED; the doorbells stand in the
first area. A BAR2 request is translated by its segment: reads answer the bytes, writes store them, unmapped ones are
refused with BAR2_UNMAPPED. HOST_LINK_DOWN aborts the partition's queues; a port of the division trains, and takes the
settings its host gives it once its endpoint is configured. That no link trains at a rate code above 6 is the model's
choice (assumption 60), and from which stage on an endpoint counts as configured is too (assumption 82). -/
def Obligations.HostWindows : Prop :=
  ∀ (s : State) (p : Part), s.Inv →
    (∀ off size v, (size ≠ 4 ∧ size ≠ 8) ∨ off % size ≠ 0 →
      ∃ t, exec (.bar0Access p off size v) s = .next t ∧ t.regs = s.regs ∧ t.mem = s.mem
        ∧ (v = none → (t.hport p).answer = some .abort))
    ∧ (∀ off size v, (size = 4 ∨ size = 8) → off % size = 0 → (s.partValid p = false ∨ s.stage ≠ stageReady) →
      ∃ t, exec (.bar0Access p off size v) s = .next t ∧ t.regs = s.regs ∧ t.mem = s.mem
        ∧ (v = none → (t.hport p).answer = some (.data 0 false)))
    ∧ (∀ off k, s.partValid p = true → s.stage = stageReady → off % 8 = 0 → bar0At off = .reg k → k % 8 = 0 →
      (∀ r is, s.regFind p true k = .ok r is → ∃ t, exec (.bar0Access p off 8 none) s = .next t
        ∧ (t.hport p).answer = some (.data (s.view k).toNat false) ∧ t.mem = s.mem
        ∧ (k ≠ K.HUB_CTR 416 → t.regs = s.regs))
      ∧ ((∀ r is, s.regFind p true k ≠ .ok r is) → ∀ v, ∃ t, exec (.bar0Access p off 8 v) s = .next t
        ∧ t.rb (K.HQ_STAT p) F.HQ_STAT_BAR0_REFUSED = true ∧ t.mem = s.mem
        ∧ (v = none → (t.hport p).answer = some (.data 0 false)))
      ∧ (∀ r is l, s.regFind p true k = .ok r is → s.mayWrite (.host p) r is = false →
        ∃ t, exec (.bar0Access p off 8 (some l)) s = .next t ∧ t.rb (K.HQ_STAT p) F.HQ_STAT_BAR0_REFUSED = true
          ∧ t.mem = s.mem ∧ ∀ j, j ≠ K.HQ_STAT p → t.reg j = s.reg j))
    ∧ (∀ (q : BitVec 8) (v : BitVec 32), s.partValid p = true → s.stage = stageReady →
      exec (.bar0Access p (q.toNat * 0x1000) 4 (some (toBytes 4 v.toNat))) s = exec (.sqTail p q v) s
      ∧ exec (.bar0Access p (q.toNat * 0x1000 + 8) 4 (some (toBytes 4 v.toNat))) s = exec (.cqHead p q v) s)
    ∧ (∀ off size v ep, (s.partValid p = false ∨ s.stage ≠ stageReady) →
      ∃ t, exec (.bar2Access p off size v ep) s = .next t ∧ t.regs = s.regs ∧ t.mem = s.mem
        ∧ (v = none → (t.hport p).answer = some (.data 0 false)))
    ∧ (∀ off size, s.partValid p = true → s.stage = stageReady →
      (s.bar2Addr p off size = none → ∀ v ep, ∃ t, exec (.bar2Access p off size v ep) s = .next t
        ∧ t.rb (K.HQ_STAT p) F.HQ_STAT_BAR2_UNMAPPED = true ∧ t.mem = s.mem ∧ (v = none → (t.hport p).answer = some .abort))
      ∧ (∀ a, s.bar2Addr p off size = some a → 0 < size →
        (∀ w ∈ wordsOf a size, s.mayAccess p (16 * w) = true ∧ (s.mark w).upset = .clean ∧ (s.mark w).poison = false) →
        (∀ ep, ∃ t, exec (.bar2Access p off size none ep) s = .next t ∧ t.mem = s.mem
          ∧ (t.hport p).answer = some (.data (ofBytes (mread s.mem a size)) false))
        ∧ (∀ l : List Byte, l.length = size → inSram a = true →
          ∃ t, exec (.bar2Access p off size (some (l.map some)) false) s = .next t ∧ mread t.mem a size = l
            ∧ ∀ k, k < a ∨ a + size ≤ k → mget t.mem k = mget s.mem k)))
    ∧ (s.hostUp p = false → exec (.hostLinkDown p) s = .next s)
    ∧ (s.hostUp p = true → ∃ t, exec (.hostLinkDown p) s = .next t ∧ t.hostUp p = false ∧ t.aborting p = true
      ∧ t.rb (K.HQ_STAT p) F.HQ_STAT_LINK_DOWN = true ∧ t.mem = s.mem)
    ∧ ∀ rate width flit cfg,
      (hostPorts (s.rf K.HIF_CFG F.HIF_CFG_BIFUR_ACT) ≤ p.val ∨ 6 < rate → exec (.hostLinkTrained p rate width flit cfg) s = .next s)
      ∧ (p.val < hostPorts (s.rf K.HIF_CFG F.HIF_CFG_BIFUR_ACT) → rate ≤ 6 →
        ∃ t, exec (.hostLinkTrained p rate width flit cfg) s = .next t
        ∧ t.hostUp p = true ∧ t.rf (K.HIF_LINK p) F.HIF_LINK_RATE = rate
        ∧ t.rf (K.HIF_LINK p) F.HIF_LINK_WIDTH = width % 32 ∧ (5 ≤ rate → t.rb (K.HIF_LINK p) F.HIF_LINK_FLIT = true)
        ∧ (s.endpointUp = true → cfg.mps ∈ [128, 256, 512] → (t.hport p).mps = cfg.mps)
        ∧ (s.endpointUp = true → 30 ≤ cfg.barLog2 → cfg.barLog2 ≤ 40 → (t.hport p).barLog2 = cfg.barLog2)
        ∧ (s.endpointUp = false → (t.hport p).mps = (s.hport p).mps ∧ (t.hport p).barLog2 = (s.hport p).barLog2) ∧ t.mem = s.mem)

/-- O49 (R449, R452, R453, R454, R455). The next record on its way is written into the module log and into the ring of
the partition it belongs to, at TAIL, or held where the ring is closed, and PENDING is set; one that the host refuses
is held, sets RING_ERROR and clears ENABLE. A record like one written in the last millisecond joins its window; the
window's end writes the held one with its COUNT. Setting ENABLE empties a ring that holds nothing back. Memory stands.
-/
def Obligations.ErrorRecords : Prop :=
  ∀ (s : State), s.Inv →
    (∀ (refused : BitVec 4) (r : Rec) rest, s.errs.coming = r :: rest →
      (s.errs.wins.any fun w => w.key == recKey r) = false → ∀ p : Part, s.affected r = [p] → refused.getLsbD p.val = false →
      s.errs.held[p] = [] →
      (s.ringOpen p = true → ∃ t, exec (.errorRecordDelivery refused) s = .next t ∧ t.errs.coming = rest ∧ t.mem = s.mem
        ∧ t.errs.log = (s.errs.log ++ [r]).drop (s.errs.log.length + 1 - 4096)
        ∧ t.rb (K.ERR_STAT p) F.ERR_STAT_PENDING = true
        ∧ (s.rf (K.ERR_RING p) F.ERR_RING_SIZE_LOG2 ≤ 16 → t.rf (K.ERR_HEAD p) F.ERR_HEAD_TAIL
          = (s.rf (K.ERR_HEAD p) F.ERR_HEAD_TAIL + 1) % s.ringSize p)
        ∧ (t.hport p).mem = ((s.hostPut p ((s.reg (K.ERR_RING p)).toNat / 4096 * 4096
            + 64 * s.rf (K.ERR_HEAD p) F.ERR_HEAD_TAIL)
            (wordBytes (r.set 0 (setFld (r.getD 0 0) 63 1 (if s.errs.phase[p] then 1 else 0))))).hport p).mem)
      ∧ (s.ringOpen p = false → ∃ t, exec (.errorRecordDelivery refused) s = .next t ∧ t.errs.held[p] = [r]
        ∧ t.rb (K.ERR_STAT p) F.ERR_STAT_PENDING = true ∧ t.errs.log = (s.errs.log ++ [r]).drop (s.errs.log.length + 1 - 4096)
        ∧ (t.hport p).mem = (s.hport p).mem ∧ t.mem = s.mem))
    ∧ (∀ (refused : BitVec 4) (r : Rec) rest (p : Part), s.errs.coming = r :: rest →
      (s.errs.wins.any fun w => w.key == recKey r) = false → s.affected r = [p] → refused.getLsbD p.val = true →
      s.errs.held[p] = [] → s.ringOpen p = true →
      ∃ t, exec (.errorRecordDelivery refused) s = .next t ∧ t.errs.held[p] = [r] ∧ (t.hport p).mem = (s.hport p).mem
        ∧ t.rb (K.ERR_STAT p) F.ERR_STAT_RING_ERROR = true ∧ t.rb (K.ERR_HEAD p) F.ERR_HEAD_ENABLE = false ∧ t.mem = s.mem)
    ∧ (∀ refused r rest, s.errs.coming = r :: rest → merges r = true →
      (s.errs.wins.any fun w => w.key == recKey r) = true →
      ∃ t, exec (.errorRecordDelivery refused) s = .next t ∧ t.errs.coming = rest ∧ t.errs.log = s.errs.log ∧ t.host = s.host
        ∧ t.errs.wins = s.errs.wins.map fun w =>
          if w.key = recKey r then { w with held := some (w.held.getD r), count := w.count + 1 } else w)
    ∧ (∀ i w refused, s.errs.wins[i]? = some w →
      (w.held = none → ∃ t, exec (.recordMergeWindowEnd i refused) s = .next t ∧ t.errs = { s.errs with wins := s.errs.wins.eraseIdx i })
      ∧ (∀ r, w.held = some r → let r' := r.set 5 (setFld (r.getD 5 0) 32 16 (Nat.min w.count 65535))
        ∃ t, exec (.recordMergeWindowEnd i refused) s = .next t ∧ t.errs.wins = s.errs.wins.eraseIdx i ++ [⟨w.key, none, 0⟩]
          ∧ t.errs.log = (s.errs.log ++ [r']).drop (s.errs.log.length + 1 - 4096) ∧ t.mem = s.mem))
    ∧ ∀ (p : Part) (v : Word) (refused : Bool), s.errs.held[p] = [] →
      (v.getLsbD 32 = true → s.rb (K.ERR_HEAD p) F.ERR_HEAD_ENABLE = false →
        ∃ t, exec (.errHeadWrite p v refused) s = .next t ∧ t.rb (K.ERR_HEAD p) F.ERR_HEAD_ENABLE = true ∧ t.errs.phase[p] = true
          ∧ t.rf (K.ERR_HEAD p) F.ERR_HEAD_HEAD = 0 ∧ t.rf (K.ERR_HEAD p) F.ERR_HEAD_TAIL = 0 ∧ t.host = s.host)
      ∧ (v.getLsbD 32 = false → ∃ t, exec (.errHeadWrite p v refused) s = .next t ∧ t.rb (K.ERR_HEAD p) F.ERR_HEAD_ENABLE = false
        ∧ t.rf (K.ERR_HEAD p) F.ERR_HEAD_HEAD = v.toNat % 2 ^ 16
        ∧ t.rf (K.ERR_HEAD p) F.ERR_HEAD_TAIL = s.rf (K.ERR_HEAD p) F.ERR_HEAD_TAIL ∧ t.host = s.host)

/-- O50 (R443, R456, R458, R459, R460, R461, R462, R467, R469). The next fault found becomes its unit's latest history
entry; a core that fails stops, and its Bench votes HALT. A unit pending retirement retires once its partition's
Foremen are STOPPED, not before. With INTERVAL set the timer asks a Proof of every unit in the plan; a pending one
starts on an idle unit of a Bench that is not gated, yields to an instruction that names its unit, holds the unit past
its deadline, and its end takes it off the list; of two arrays that differ a third decides, and where none is
available both fail. A view that differs is kept, and a Proof decides it. The clock rate commanded is the lowest of
the caps, and then takes over. That a core which fails stops until a reset covers it, that a failed Foreman is HALTED,
and that its Bench's vote is cast at once is the model's choice (assumption 74). -/
def Obligations.UnitHealth : Prop :=
  ∀ s : State, s.Inv →
    (s.health.faults = [] → exec (.faultHistoryEntry none) s = .next s)
    ∧ (∀ (r : Rec) rest, s.health.faults = r :: rest →
      let w := r.getD 0 0
      let u : UnitId := ⟨fld w 2 5, fld w 8 6, fld w 14 12⟩
      let event := fld w 44 8
      (isCheckEvent event = true → (s.histOf u).any (fun e => isCheckEvent e.event && e.step == fld (r.getD 3 0) 0 48
        && e.attempt == fld (r.getD 3 0) 48 4) = false) →
      ∃ t e, exec (.faultHistoryEntry none) s = .next t ∧ t.health.faults = rest ∧ (t.histOf u).getLast? = some e ∧ e.event = event
        ∧ e.hour = s.pwr.hours ∧ e.step = fld (r.getD 3 0) 0 48 ∧ e.attempt = fld (r.getD 3 0) 48 4 ∧ t.mem = s.mem)
    ∧ (∀ c : CoreUpset, ∃ t, exec (.faultHistoryEntry (some c)) s = .next t ∧ (⟨c.bench, c.cls, c.index⟩ : UnitId) ∈ t.health.stopped
      ∧ t.mem = s.mem ∧ ∀ b : Bid, c.bench = b.val → (c.cls = ucForeman → (t.fm b).st = .halted)
        ∧ ∀ p, s.partOf b = some p → (s.ctl p).live = true → (t.bench b).errVote = .halt)
    ∧ (∀ b cls index, let u : UnitId := ⟨b, cls, index⟩
      (u ∈ s.health.pending → s.unitAtRest u = true → ∃ t, exec (.unitRetired b cls index) s = .next t
        ∧ u ∉ t.health.pending ∧ u ∈ t.health.retired ∧ t.mem = s.mem ∧ t.benches = s.benches
        ∧ ∀ n, portOf u = some n → t.portState n = 0)
      ∧ ((u ∉ s.health.pending ∨ s.unitAtRest u = false) → exec (.unitRetired b cls index) s = .next s))
    ∧ (s.rf K.PROOF_POLICY F.PROOF_POLICY_INTERVAL = 0 → exec .proofPeriodicTimer s = .next s)
    ∧ (s.rf K.PROOF_POLICY F.PROOF_POLICY_INTERVAL ≠ 0 → ∃ t, exec .proofPeriodicTimer s = .next t ∧ t.regs = s.regs
      ∧ (∀ r ∈ s.health.proofs, r ∈ t.health.proofs)
      ∧ (∀ b : Bid, ∀ u ∈ s.proofUnits b, ∃ r ∈ t.health.proofs, r.u = u)
      ∧ ∀ u ∈ s.proofCores, ∃ r ∈ t.health.proofs, r.u = u)
    ∧ (∀ b cls index r, s.proofOf ⟨b, cls, index⟩ = some r →
      let d := bidOf b
      let u : UnitId := ⟨b, cls, index⟩
      (r.running = false → (b < 16 → s.proofBlocked d = false ∧ s.unitWorks d cls index = false
          ∧ (r.late = true ∨ s.unitNamed d cls index = false)) →
        ∃ t, exec (.proofStart b cls index) s = .next t ∧ t.proofOf u = some { r with running := true } ∧ t.regs = s.regs)
      ∧ (b < 16 → (s.proofBlocked d = true ∨ s.unitWorks d cls index = true) →
        exec (.proofStart b cls index) s = .next s)
      ∧ (s.headNames d cls index = true → ∃ t, exec (.proofYield b cls index) s = .next t
        ∧ t.proofOf u = some (if r.late then r else { r with running := false }) ∧ t.benches = s.benches)
      ∧ (s.headNames d cls index = false → exec (.proofYield b cls index) s = .next s)
      ∧ ((b < 16 → s.proofBlocked d = false) → ∃ t, exec (.proofPreempt b cls index) s = .next t
        ∧ t.proofOf u = some { r with late := true, running := r.running || 16 ≤ b || !s.unitWorks d cls index } ∧ t.benches = s.benches)
      ∧ (r.running = true → ∀ run failed syn, s.proofResult u run = some (failed, syn) →
        ∃ t, exec (.proofComplete b cls index run) s = .next t ∧ t.proofOf u = none
        ∧ t.mem = s.mem
        ∧ (∀ x ∈ failed, ∀ p, (unitBench x).bind s.partOf = some p → t.rb (K.PROOF_STAT p) F.PROOF_STAT_FAILED = true)
        ∧ ∀ p, r.part = some p →
          t.rf (K.PROOF_STAT p) F.PROOF_STAT_DONE = Nat.min (s.rf (K.PROOF_STAT p) F.PROOF_STAT_DONE + 1) 65535
          ∧ (r.late = true → t.rb (K.PROOF_STAT p) F.PROOF_STAT_PREEMPTED = true)))
    ∧ (∀ (u : UnitId) (x y : Nat × Nat × Nat) (run : ProofRun) d t, (arrayNo u.cls u.index).isSome = true → run.ref = some (x, d) →
      s.proofPeer u x = true → run.third = some (y, t) → y ≠ x → s.proofPeer u y = true →
      (run.own = d → s.proofResult u run = some ([], 0))
      ∧ (run.own ≠ d → t = d → s.proofResult u run = some ([u], run.own ^^^ d))
      ∧ (run.own ≠ d → t = run.own → s.proofResult u run = some ([⟨x.1, x.2.1, x.2.2⟩], run.own ^^^ d)))
    ∧ (∀ (u : UnitId) (x : Nat × Nat × Nat) (run : ProofRun) d, (arrayNo u.cls u.index).isSome = true → run.ref = some (x, d) →
      s.proofPeer u x = true → run.third = none → run.own ≠ d →
      s.proofResult u run = if s.proofThird u x then none else some ([u, ⟨x.1, x.2.1, x.2.2⟩], run.own ^^^ d))
    ∧ (∀ b cls index mgmt, let u : UnitId := ⟨b, cls, index⟩
      u ∉ s.health.mgmtFailed → u ∉ s.health.benchFailed →
      ∃ t, exec (.viewDisagree b cls index mgmt) s = .next t ∧ (u ∈ t.health.mgmtFailed ↔ mgmt = true)
        ∧ (u ∈ t.health.benchFailed ↔ mgmt = false) ∧ (∃ r ∈ t.health.proofs, r.u = u ∧ r.late = true ∧ r.views = true)
        ∧ t.mem = s.mem)
    ∧ ∀ b : Bid, (∃ t, exec (.bckRateCommand b) s = .next t
        ∧ t.rf (K.CLK_BENCH b) F.CLK_BENCH_TARGET_MHZ = Nat.min 1700
            (Nat.min (s.rf (K.BENCH_PWR b) F.BENCH_PWR_THERMAL_CAP_MHZ) s.pwr.powerCap) ∧ t.benches = s.benches)
      ∧ ∃ t, exec (.bckRateSwitch b) s = .next t
        ∧ t.rf (K.CLK_BENCH b) F.CLK_BENCH_MHZ = s.rf (K.CLK_BENCH b) F.CLK_BENCH_TARGET_MHZ ∧ t.benches = s.benches

/-- O51 (R375, R422, R477, R478, R479, R480, R481, R482, R483, R486, R487). With no reset in progress: an engine reset
of a resting Bench resets its array or frees its catalogue, and one of a running Foreman waits; a Bench reset leaves
its Foreman, queues, arrays and catalogue at reset, keeps its instruction memory and shows a step committed last, and
one for error recovery waits too; a partition reset, by command or FLR, does so for every Bench and ends the step and
the epoch; a module reset, by command or the last PERST#, sends the module to its ROM and keeps what the memories
hold. RST_STAT shows scope and cause; RESET_COMPLETE ends one. PART_CFG changes only where R422 lets it. That a Bench
whose partition has another attempt in progress shows the committed step only where it did before the reset is the
model's choice (assumption 39). -/
def Obligations.Resets : Prop :=
  ∀ s : State, s.Inv → s.mgmt.resetsBusy = [] →
    (∀ (b : Bid) (cls : BitVec 6) (index : BitVec 4) (by_ : ResetBy),
      (resetUnits cls.toNat ≤ index.toNat → ∃ t, exec (.rstEngine b cls index by_) s = .next t
        ∧ t.rb K.RST_STAT F.RST_STAT_REFUSED = true ∧ t.benches = s.benches ∧ t.mem = s.mem)
      ∧ (index.toNat < resetUnits cls.toNat → s.fmQuiet b = false → ∃ t r, exec (.rstEngine b cls index by_) s = .next t
        ∧ t.mgmt.resetsBusy = [r] ∧ r.waiting = true ∧ t.rb K.RST_STAT F.RST_STAT_BUSY = true ∧ t.mem = s.mem)
      ∧ (index.toNat < resetUnits cls.toNat → s.fmQuiet b = true → ∃ t, exec (.rstEngine b cls index by_) s = .next t
        ∧ t.rb K.RST_STAT F.RST_STAT_BUSY = true ∧ t.rf K.RST_STAT F.RST_STAT_LAST_SCOPE = 1
        ∧ t.rf K.RST_STAT F.RST_STAT_LAST_CAUSE = resetCause by_
        ∧ (∀ u : Fin 12, cls.toNat = ucCutter ∧ u.val = index.toNat ∨ cls.toNat = ucDresser ∧ u.val = 4 + index.toNat →
          t.arr b u = ArrayUnit.reset ∧ t.mem = s.mem)
        ∧ (cls.toNat = ucStockpile → (t.bench b).cat = [] ∧ t.mem = s.mem)
        ∧ (cls.toNat = ucWeighbridge → (t.wgh b).buckets = [] ∧ (t.wgh b).grants = [])))
    ∧ (∀ b : Bid, s.fmQuiet b = false → ∃ t r, exec (.rstBench b .recovery) s = .next t ∧ t.mgmt.resetsBusy = [r] ∧ r.waiting = true
      ∧ t.fm b = s.fm b ∧ t.rb K.RST_STAT F.RST_STAT_BUSY = true ∧ t.mem = s.mem)
    ∧ (∀ (b : Bid) (by_ : ResetBy), (by_ = .recovery → s.fmQuiet b = true) → ∃ t, exec (.rstBench b by_) s = .next t
      ∧ t.fm b = Foreman.reset ∧ (∀ q, t.queue b q = [])
      ∧ (∀ u, t.arr b u = ArrayUnit.reset) ∧ (t.bench b).cat = [] ∧ (t.wgh b).buckets = []
      ∧ ((∀ p k a, s.partOf b = some p → (s.ctl p).last ≠ some (.commit, k, a)) →
        t.reg (K.STEP_STATE b) = regReset (K.STEP_STATE b))
      ∧ (∀ p k a, s.partOf b = some p → (s.ctl p).last = some (.commit, k, a) → k < 2 ^ 48 →
        ((s.ctl p).live = false ∨ s.showsCommit b = true) →
        t.rf (K.STEP_STATE b) F.STEP_STATE_PHASE = 3 ∧ t.rf (K.STEP_STATE b) F.STEP_STATE_STEP = k)
      ∧ t.reg (K.FM_FAULT b) = 0 ∧ t.rf K.RST_STAT F.RST_STAT_LAST_CAUSE = resetCause by_
      ∧ (∀ w < 32768, t.reg (K.IMEM b w) = s.reg (K.IMEM b w)) ∧ t.reg (K.WGH_RESID b) = s.reg (K.WGH_RESID b)
      ∧ t.rb (K.CLK_BENCH b) F.CLK_BENCH_STOPPED = true ∧ t.rf K.RST_STAT F.RST_STAT_LAST_SCOPE = 2
      ∧ t.rb K.RST_STAT F.RST_STAT_BUSY = true)
    ∧ (∀ (p : Part) c, c ∈ [Instr.rstPartition p, .functionLevelReset p] → ∃ t, exec c s = .next t
      ∧ t.ctl p = StepCtl.reset ∧ t.bar p = Barrier.reset ∧ t.plumb p = Plumb.reset ∧ t.expActive p = false
      ∧ (∀ n, t.armed p n = false) ∧ t.reg (K.PART_CFG p) = s.reg (K.PART_CFG p) ∧ t.rf K.RST_STAT F.RST_STAT_LAST_SCOPE = 3
      ∧ (∀ q < 256, s.queueOf p q = true → t.qOn q = false ∧ t.hq q = QState.idle)
      ∧ ∀ b ∈ s.benchesOf p, t.fm b = Foreman.reset ∧ t.reg (K.WGH_RESID b) = 0
        ∧ ∀ w < 32768, t.reg (K.IMEM b w) = s.reg (K.IMEM b w))
    ∧ (∃ t, exec .rstModule s = .next t ∧ t.stage = 0 ∧ (∀ a, inSram a = true → mget t.mem a = mget s.mem a)
      ∧ (s.bulk.zeroing = [] → (∀ r, s.rowInter r = false) → t.mem = s.mem) ∧ t.errs.log = s.errs.log
      ∧ t.rf K.RST_STAT F.RST_STAT_LAST_SCOPE = 4 ∧ t.rf K.RST_STAT F.RST_STAT_LAST_CAUSE = 3
      ∧ (∀ b, t.fm b = Foreman.reset) ∧ (∀ p, t.ctl p = StepCtl.reset) ∧ t.host.queues = [] ∧ t.mgmt.running = none
      ∧ ∀ b : Bid, ∀ w < 32768, t.reg (K.IMEM b w) = 0)
    ∧ (∀ (port : Fin 4) (asserted : BitVec 4),
      let n := hostPorts (s.rf K.HIF_CFG F.HIF_CFG_BIFUR_ACT)
      let whole := n = 1 ∨ (∀ i < n, i = port.val ∨ asserted.getLsbD i = true) ∨ s.rf K.PWR_STAT F.PWR_STAT_STATE = 2
      (s.pwr.mainOn = false → exec (.perst port asserted) s = .next s)
      ∧ (s.pwr.mainOn = true → whole → ∃ t, exec (.perst port asserted) s = .next t ∧ t.stage = 0
        ∧ t.rf K.PWR_STAT F.PWR_STAT_STATE = 0 ∧ (∀ a, inSram a = true → mget t.mem a = mget s.mem a)
          ∧ t.rf K.RST_STAT F.RST_STAT_LAST_CAUSE = 1)
      ∧ (s.pwr.mainOn = true → ¬ whole → ∃ t, exec (.perst port asserted) s = .next t ∧ t.stage = s.stage
        ∧ t.hostUp port = false ∧ (t.hport port).barLog2 = 34 ∧ (t.hport port).mps = HostPort.reset.mps
          ∧ t.ctl port = StepCtl.reset ∧ t.rf K.RST_STAT F.RST_STAT_LAST_CAUSE = 1))
    ∧ (∀ (s' : State) r rest, s' = { s with mgmt := { s.mgmt with resetsBusy := r :: rest } } → s'.canComplete r = true →
      r.waiting = false → r ∉ rest → ∃ t, exec .resetComplete s' = .next t ∧ t.mgmt.resetsBusy = rest ∧ t.mem = s.mem
        ∧ (t.rb K.RST_STAT F.RST_STAT_BUSY = true ↔ rest ≠ []))
    ∧ exec .resetComplete s = .next s
    ∧ ∀ (p : Part) (v : Word), v.toNat / 2 ^ 17 % 2 = 0 → fld v 0 17 ≠ fld (s.reg (K.PART_CFG p)) 0 17 →
      (s.cfgBad p v = true → ∃ t, exec (.partCfgWrite p v) s = .next t ∧ t.rb (K.PART_CFG p) F.PART_CFG_REFUSED = true
        ∧ (∀ b, t.partOf b = s.partOf b) ∧ t.benches = s.benches)
      ∧ (s.cfgBad p v = false → ∃ t, exec (.partCfgWrite p v) s = .next t
        ∧ t.rf (K.PART_CFG p) F.PART_CFG_BENCHES = v.toNat % 2 ^ 16 ∧ t.rf (K.PART_CFG p) F.PART_CFG_VALID = v.toNat / 2 ^ 16 % 2
        ∧ t.aborting p = true ∧ t.rb (K.HQ_STAT p) F.HQ_STAT_CONFIG_CHANGED = true)

/-- O52 (R456, R458, R489, R490, R491, R494, R495, R496, R498, R499). An input voltage or current beyond its limit
opens the main switch: registers, memory and queues are as after power-on reset, flash and the fault history stand,
and the environment log names the event. Presence is debounced; its end closes the switch once the bus is within 5% of
VIN, and retires what was pending. A break opens it. The button and the last RELEASE start a removal; GRACE, QUIESCE,
FLUSH with dark ports, and OFF follow each other; OFF opens the switch with SAFE_LED lit. That NOTICE passes to GRACE
at once, that the optics go dark at the start of FLUSH and that PHASE reads 5 once the switch is open is the model's
choice (assumption 62). -/
def Obligations.PowerAndPresence : Prop :=
  ∀ s : State, s.Inv →
    (∀ n, (40000 ≤ n ∧ n ≤ 58000) ∨ s.pwr.mainOn = false → exec (.inputVoltageFault n) s = .next s)
    ∧ (∀ n, n ≤ 88000 ∨ s.pwr.mainOn = false → exec (.overcurrentTrip n) s = .next s)
    ∧ (∀ c n, s.pwr.mainOn = true → (c = Instr.inputVoltageFault n ∧ (n < 40000 ∨ 58000 < n)) ∨ (c = .overcurrentTrip n ∧ 88000 < n) →
      ∃ t, exec c s = .next t ∧ t.pwr.mainOn = false ∧ t.regs = [] ∧ t.mem = [] ∧ t.benches = State.reset.benches
        ∧ t.mgmt.flash = s.mgmt.flash ∧ t.health.hist = s.health.hist ∧ t.pending = s.pending
        ∧ (t.health.env.getLast?.map fun r => fld (r.getD 0 0) 44 8) = some 0x19)
    ∧ (s.pwr.mainOn = true → exec .prsntAssert s = .next s)
    ∧ (s.pwr.mainOn = false → ∃ t, exec .prsntAssert s = .next t ∧ t.pwr = { s.pwr with prsnt := true, debouncing := true }
      ∧ t.regs = s.regs)
    ∧ (∀ bus vin, (s.pwr.debouncing = false ∨ 100 * bus < 95 * vin ∨ 105 * vin < 100 * bus) →
      exec (.prsntDebounceDone bus vin) s = .next s)
    ∧ (∀ bus vin, s.pwr.debouncing = true → 95 * vin ≤ 100 * bus → 100 * bus ≤ 105 * vin →
      ∃ t, exec (.prsntDebounceDone bus vin) s = .next t ∧ t.pwr.mainOn = true ∧ t.pwr.debouncing = false
      ∧ t.pwr.safeLed = false ∧ t.stage = 0 ∧ (s.health.pending = [] → t.regs = []) ∧ t.mem = [] ∧ t.mgmt.flash = s.mgmt.flash
      ∧ t.health.pending = []
      ∧ ∀ u ∈ s.health.pending, u ∉ s.health.restore → u ∈ t.health.retired)
    ∧ (∃ t, exec .prsntBreak s = .next t ∧ t.pwr.mainOn = false ∧ t.pwr.prsnt = false ∧ t.pwr.debouncing = false
      ∧ (s.pwr.mainOn = true → t.regs = [] ∧ t.mem = []) ∧ t.mgmt.flash = s.mgmt.flash)
    ∧ ((s.pwr.mainOn = false ∨ s.rb K.REM_CTL F.REM_CTL_PENDING = true) → exec .attnBtn s = .next s)
    ∧ (s.pwr.mainOn = true → s.rb K.REM_CTL F.REM_CTL_PENDING = false →
      (∃ t, exec .attnBtn s = .next t ∧ t.pwr.attnWindow = !s.pwr.attnWindow ∧ t.regs = s.regs
        ∧ t.pwr.attnLed = (if s.pwr.attnWindow then 0 else 2))
      ∧ (s.pwr.attnWindow = true → ∃ t, exec .attnWindowExpiry s = .next t ∧ t.rb K.REM_CTL F.REM_CTL_PENDING = true
        ∧ t.removalPhase = 2 ∧ t.pwr.attnLed = 1
        ∧ ∀ p, s.partValid p = true → (t.hport p).msix = (s.hport p).msix ++ [eventVec p])
      ∧ ∀ p : Part, s.partValid p = true →
        ((∀ q, s.partValid q = true → q ≠ p → (s.rf K.REM_CTL F.REM_CTL_RELEASE).testBit q.val = true) →
          ∃ t, exec (.remReleaseWrite p) s = .next t ∧ t.rb K.REM_CTL F.REM_CTL_PENDING = true ∧ t.removalPhase = 2)
        ∧ (∀ q, s.partValid q = true → q ≠ p → (s.rf K.REM_CTL F.REM_CTL_RELEASE).testBit q.val = false →
          ∃ t, exec (.remReleaseWrite p) s = .next t ∧ t.rb K.REM_CTL F.REM_CTL_PENDING = false
            ∧ (t.rf K.REM_CTL F.REM_CTL_RELEASE).testBit p.val = true))
    ∧ (s.pwr.attnWindow = false → exec .attnWindowExpiry s = .next s)
    ∧ (s.removalPhase ≠ 2 → exec .removalGraceEnd s = .next s)
    ∧ (s.removalPhase = 2 → ∃ t, exec .removalGraceEnd s = .next t ∧ t.removalPhase = 3 ∧ t.mem = s.mem
      ∧ (∀ b, (t.fm b).st ≠ .running) ∧ (∀ p : Part, t.bulk.tx[p] = none ∧ (t.ctl p).live = false)
      ∧ ∀ p, s.partValid p = true → ∀ q < 256, s.queueOf p q = true → t.qOn q = false)
    ∧ (s.removalPhase ≠ 3 → exec .removalQuiesceDone s = .next s)
    ∧ (s.removalPhase = 3 → ∃ t, exec .removalQuiesceDone s = .next t ∧ t.removalPhase = 4 ∧ t.mem = s.mem
      ∧ (∀ n, t.portState n ≠ portReady) ∧ ((∀ n, s.portState n ≠ portReady) → t.health.faults = []))
    ∧ (s.removalPhase ≠ 4 → exec .removalFlushDone s = .next s)
    ∧ (s.removalPhase = 4 → ∃ t, exec .removalFlushDone s = .next t ∧ t.pwr.mainOn = false ∧ t.pwr.safeLed = true
      ∧ t.removalPhase = 5 ∧ (∀ k, k ≠ K.REM_CTL → t.reg k = State.reset.reg k) ∧ t.mem = [] ∧ t.mgmt.flash = s.mgmt.flash)

/-- O53 (R476, R489, R497, R501, R502, R503, R504). The idle timer enters IDLE when nothing holds the module ACTIVE.
GATE gates a Bench at rest, refuses a busy one, and starts the wake when cleared; the wake's end resets the Bench and
performs what its crossing holds: words of instruction memory, the last of each prevailing, and a START. A sample at
105 degrees sets HOT and lowers the Bench's cap a step, one at 115 sets CRIT and caps it at 200 MHz, one below 100
raises it once a millisecond, and 125 anywhere opens the switch. A Hub or stack sensor at 110 caps every Bench at 200
MHz until it reads below 100. A power sample above the limit lowers the module's cap a step. LIMIT_W stays within
ENVELOPE_W. Which writes the crossing of a gated Bench holds is the model's choice (assumption 80), and so is one
power cap for the whole module (assumption 62). -/
def Obligations.PowerCaps : Prop :=
  ∀ s : State, s.Inv →
    (let idle := s.ready = true ∧ s.activeNow = false ∧ s.rf K.PWR_STAT F.PWR_STAT_STATE = 0;
      (idle → ∃ t, exec .idleEntryTimer s = .next t ∧ t.rf K.PWR_STAT F.PWR_STAT_STATE = 1 ∧ t.benches = s.benches)
      ∧ (¬ idle → exec .idleEntryTimer s = .next s))
    ∧ (∀ (b : Bid) (v : Word), let k := K.BENCH_PWR b
      let w := s.rb k F.BENCH_PWR_WAKING
      (v.getLsbD 0 = true → s.rb k F.BENCH_PWR_GATE = false →
        (w = false → (s.fm b).st = .stopped → (s.bench b).idle = true → ∃ t, exec (.gate b v) s = .next t
          ∧ t.rb k F.BENCH_PWR_GATE = true ∧ t.rb k F.BENCH_PWR_GATED = true ∧ t.rb (K.CLK_BENCH b) F.CLK_BENCH_STOPPED = true
          ∧ t.benches = s.benches ∧ t.mem = s.mem)
        ∧ ((w = true ∨ (s.fm b).st ≠ .stopped ∨ (s.bench b).idle = false) → ∃ t, exec (.gate b v) s = .next t
          ∧ t.rb k F.BENCH_PWR_REFUSED = true ∧ t.rb k F.BENCH_PWR_GATE = false ∧ t.benches = s.benches))
      ∧ (v.getLsbD 0 = false → s.rb k F.BENCH_PWR_GATE = true → ∃ t, exec (.gate b v) s = .next t
        ∧ t.rb k F.BENCH_PWR_GATE = false ∧ t.rb k F.BENCH_PWR_WAKING = s.rb k F.BENCH_PWR_GATED ∧ t.benches = s.benches)
      ∧ (w = true → ∃ t, exec (.benchWakeDone b) s = .next t ∧ t.rb k F.BENCH_PWR_WAKING = false
        ∧ t.rb k F.BENCH_PWR_GATED = false ∧ t.rb (K.CLK_BENCH b) F.CLK_BENCH_STOPPED = false
        ∧ (t.bench b).xing = [] ∧ ((s.bench b).xing = [] → t.fm b = Foreman.reset)
        ∧ (∀ l n x l', (s.bench b).xing = l ++ (K.IMEM b n, x) :: l' → n < 32768 → (∀ e ∈ l, ∃ i < 32768, e.1 = K.IMEM b i) →
          (∀ e ∈ l', ∃ i < 32768, i ≠ n ∧ e.1 = K.IMEM b i) → t.reg (K.IMEM b n) = x)
        ∧ (∀ x : Word, (s.bench b).xing = [(K.FM_CTL b, x)] →
          t.rf (K.FM_CTL b) F.FM_CTL_ENTRY = fld x F.FM_CTL_ENTRY.lo F.FM_CTL_ENTRY.w
          ∧ (x.getLsbD 0 = true → s.ready = true → s.mgmt.testMode = 0 → s.loading b = false → s.inReset b = false →
            t.present b ucForeman 0 = true → (t.fm b).st = .running
              ∧ (t.fm b).pc = BitVec.ofNat 15 (fld x F.FM_CTL_ENTRY.lo F.FM_CTL_ENTRY.w))))
      ∧ (w = false → exec (.benchWakeDone b) s = .next s))
    ∧ (∀ ts : Temps, s.pwr.mainOn = true →
      (∀ i < 9, ts.getD (16 + i) 0 < 880 ∧ (16 + i ∈ s.pwr.capBy → ts.getD (16 + i) 0 < 800)) →
        (∀ i < 27, ts.getD i 0 < 1000) → s.pwr.outletHot < 9999 →
      ∃ t, exec (.thermalSample ts) s = .next t ∧ t.pwr.temps = ts ∧ t.pwr.capBy = [] ∧ t.mem = s.mem
        ∧ t.rf K.COOL_STAT F.COOL_STAT_INLET = temp16 (ts.getD 25 0) ∧ t.rf K.COOL_STAT F.COOL_STAT_OUTLET = temp16 (ts.getD 26 0)
        ∧ ∀ b : Bid, let x := ts.getD b.val 0
          let c := s.rf (K.BENCH_PWR b) F.BENCH_PWR_THERMAL_CAP_MHZ
          let c' := t.rf (K.BENCH_PWR b) F.BENCH_PWR_THERMAL_CAP_MHZ
          (920 ≤ x → c' = Nat.min c 200 ∧ t.rb (K.BENCH_PWR b) F.BENCH_PWR_CRIT = true)
          ∧ (840 ≤ x → t.rb (K.BENCH_PWR b) F.BENCH_PWR_HOT = true ∧ (x < 920 → c' = Nat.min c (Nat.max 200 (c - 25))))
          ∧ (800 ≤ x → x < 840 → c' = c)
          ∧ (x < 800 → c' = if (s.pwr.thermSamples + 1) % 10 = 0 then Nat.min 1700 (c + 25) else c))
    ∧ (∀ (ts : Temps) (i : Nat), s.pwr.mainOn = true → i < 9 → (∀ i < 27, ts.getD i 0 < 1000) → s.pwr.outletHot < 9999 →
      (880 ≤ ts.getD (16 + i) 0 ∨ (16 + i ∈ s.pwr.capBy ∧ 800 ≤ ts.getD (16 + i) 0)) →
      ∃ t, exec (.thermalSample ts) s = .next t ∧ 16 + i ∈ t.pwr.capBy ∧ t.mem = s.mem
        ∧ ∀ b : Bid, t.rf (K.BENCH_PWR b) F.BENCH_PWR_THERMAL_CAP_MHZ ≤ 200)
    ∧ (∀ (ts : Temps) (i : Nat), s.pwr.mainOn = true → i < 27 → 1000 ≤ ts.getD i 0 →
      ∃ t, exec (.thermalSample ts) s = .next t ∧ t.pwr.mainOn = false ∧ t.regs = [] ∧ t.mem = [])
    ∧ (∀ vin pin iin, (s.pwr.mainOn = false → exec (.powerSample vin pin iin) s = .next s)
      ∧ (s.pwr.mainOn = true → ∃ t, exec (.powerSample vin pin iin) s = .next t ∧ t.mem = s.mem
        ∧ t.rf K.PWR_STAT F.PWR_STAT_VIN = vin % 2 ^ 16 ∧ t.rf K.PWR_STAT F.PWR_STAT_PIN = pin % 2 ^ 16
        ∧ t.rf K.PWR_STAT F.PWR_STAT_IIN = iin % 2 ^ 16
        ∧ (let limit := Nat.min (s.rf K.PWR_LIMIT F.PWR_LIMIT_LIMIT_W) (80 * vin / 1000)
          (limit < pin → t.pwr.powerCap = Nat.max 200 (s.pwr.powerCap - 25))
          ∧ (pin ≤ limit → t.pwr.powerCap = if pin + 100 < limit ∧ (s.pwr.powSamples + 1) % 10 = 0
              then Nat.min 1700 (s.pwr.powerCap + 25) else s.pwr.powerCap))
        ∧ t.rb K.PWR_LIMIT F.PWR_LIMIT_THROTTLED = decide (t.pwr.powerCap < 1700)))
    ∧ ∀ v : Word, v.toNat / 2 ^ 33 % 2 = 0 →
      (v.toNat % 2 ^ 12 ≤ s.rf K.PWR_LIMIT F.PWR_LIMIT_ENVELOPE_W → ∃ t, exec (.pwrLimitWrite v) s = .next t
        ∧ t.rf K.PWR_LIMIT F.PWR_LIMIT_LIMIT_W = v.toNat % 2 ^ 12 ∧ t.mem = s.mem)
      ∧ (s.rf K.PWR_LIMIT F.PWR_LIMIT_ENVELOPE_W < v.toNat % 2 ^ 12 → ∃ t, exec (.pwrLimitWrite v) s = .next t
        ∧ t.rb K.PWR_LIMIT F.PWR_LIMIT_REFUSED = true
        ∧ t.rf K.PWR_LIMIT F.PWR_LIMIT_LIMIT_W = s.rf K.PWR_LIMIT F.PWR_LIMIT_LIMIT_W)

/-- O54 (R248, R507, R511, R512, R513, R514, R515, R517, R518, R519, R520, R525). BOOT in the ROM enters RECOVERY
without a build record or a valid image; otherwise the image chosen is the one that runs, at FIRMWARE, where the next
BOOT broadcasts it: training begins, or the module has FAILED where a Hub core without a unit of its own did. A
PENDING image that is invalid, or not READY in time, is given up with FW_FALLBACK and a module reset. Start-up
programs end with instruction memory zero; a stack's lanes come from the saved map or from spares, or it is absent; a
port without a peer is DOWN. READY publishes the plan and makes a tried image ACTIVE; then new settings are saved in
the copy that does not hold the newest. What of bring-up each BOOT does, and that STAGE passes from TRAINING to CHECKS
when nothing trains any more, is the model's choice (assumption 88). -/
def Obligations.BringUp : Prop :=
  ∀ s : State, s.Inv →
    ((s.pwr.mainOn = false ∨ (s.stage ≠ 0 ∧ s.stage ≠ 1)) → ∀ ok l, exec (.boot ok l) s = .next s)
    ∧ (s.pwr.mainOn = true → s.stage = 0 →
      (s.flashBuild = none → ∀ ok l, ∃ t, exec (.boot ok l) s = .next t ∧ t.stage = 5 ∧ t.mem = s.mem)
      ∧ ∀ r, s.flashBuild = some r →
        (∀ ok, s.mgmt.flash.pendingSlot = none → s.mgmt.flash.choose r = none → ∀ l,
          ∃ t, exec (.boot ok l) s = .next t ∧ t.stage = 5 ∧ t.mgmt.running = s.mgmt.running)
        ∧ (∀ ok slot l, (s.mgmt.flash.pendingSlot = some slot ∧ s.mgmt.flash.slotOk r slot = true)
            ∨ (s.mgmt.flash.pendingSlot = none ∧ s.mgmt.flash.choose r = some slot) →
          ∃ t, exec (.boot ok l) s = .next t ∧ t.stage = 1 ∧ t.mgmt.running = s.mgmt.flash.slot slot ∧ t.mgmt.inForce = some r
            ∧ t.mgmt.flash.tried = (s.mgmt.flash.tried || s.mgmt.flash.pendingSlot.isSome)
            ∧ t.rb K.BOOT_STAT F.BOOT_STAT_SLOT_ACTIVE = slot
            ∧ t.rb K.BOOT_STAT F.BOOT_STAT_IDENTITY_FAIL
              = !(ok && r.certified && (s.mgmt.identityOk || s.mgmt.buildWritten)) ∧ t.mem = s.mem)
        ∧ (∀ ok slot l, s.mgmt.flash.pendingSlot = some slot → s.mgmt.flash.slotOk r slot = false →
          ∃ t, exec (.boot ok l) s = .next t ∧ t.stage = 0 ∧ t.mgmt.flash.pendingSlot = none
            ∧ t.rb K.BOOT_STAT F.BOOT_STAT_FW_FALLBACK = true ∧ t.rf K.RST_STAT F.RST_STAT_LAST_SCOPE = 4))
    ∧ (s.pwr.mainOn = true → s.stage = 1 → ∀ ok l, ∃ t, exec (.boot ok l) s = .next t ∧ t.mem = s.mem
      ∧ (∀ x ∈ l, (⟨x.1, x.2.1, x.2.2⟩ : UnitId) ∈ t.health.bootFailed)
      ∧ let lost := t.health.bootFailed.any fun u => u.bench == hubNo && u.cls == ucHubCore && 24 ≤ u.index
        (lost = true → t.stage = 6)
        ∧ (lost = false → t.stage = (if t.trained then 3 else 2)
          ∧ ∀ n : PortNo, s.portState n ≠ 4 → t.portState n = if t.planPort n.val then 2 else 0))
    ∧ (let late := s.mgmt.flash.tried = true ∧ s.pwr.mainOn = true ∧ s.stage ≠ stageReady;
      (late → ∃ t, exec .pendingBootTimeout s = .next t ∧ t.stage = 0 ∧ t.mgmt.flash.pendingSlot = none
        ∧ t.mgmt.flash.tried = false ∧ t.rb K.BOOT_STAT F.BOOT_STAT_FW_FALLBACK = true)
      ∧ (¬ late → exec .pendingBootTimeout s = .next s))
    ∧ ((s.stage = 2 ∨ s.stage = 3) → s.mgmt.startupDone ≠ BitVec.allOnes 16 → ∀ l, ∃ t, exec (.startupProgramDone l) s = .next t
      ∧ t.mgmt.startupDone = BitVec.allOnes 16 ∧ (∀ x ∈ l, (⟨x.1, x.2.1, x.2.2⟩ : UnitId) ∈ t.health.bootFailed)
      ∧ (∀ b : Bid, ∀ w < 32768, t.reg (K.IMEM b w) = 0) ∧ t.mem = s.mem)
    ∧ (s.stage ≠ 2 → s.stage ≠ 3 → ∀ l, exec (.startupProgramDone l) s = .next s)
    ∧ (∀ (k : Fin 8) (r : TrainResult), s.stage = 2 → s.planStack k.val = true → s.mgmt.stacksDone.getLsbD k.val = false →
      s.hubCore (stackCore k.val) = true →
      (∀ l w, r.savedOk = true → s.savedSet k.val = some (l, w) → ∃ t, exec (.stackTraining k r) s = .next t
        ∧ (t.stk k).lanes = pairLanes l ∧ t.mgmt.stacksDone.getLsbD k.val = true ∧ t.mgmt.allSaved = s.mgmt.allSaved)
      ∧ (∀ l, r.savedOk = false → pairSpares r.badSpares r.badLanes ((List.range 64).map (1152 + ·)) = some l →
        ∃ t, exec (.stackTraining k r) s = .next t ∧ (t.stk k).lanes = l ∧ t.mgmt.stacksDone.getLsbD k.val = true
          ∧ t.mgmt.allSaved = false)
      ∧ (r.savedOk = false → pairSpares r.badSpares r.badLanes ((List.range 64).map (1152 + ·)) = none →
        ∃ t, exec (.stackTraining k r) s = .next t ∧ t.rb (K.BMC_STAT k) F.BMC_STAT_ABSENT = true ∧ t.bulk = s.bulk))
    ∧ (∀ n : PortNo, (s.portState n = 2 → ∃ t, exec (.portPeerWindowEnd n) s = .next t ∧ t.portState n = portDown
        ∧ t.mgmt.portsDone.getLsbD n.val = true)
      ∧ (s.portState n ≠ 2 → exec (.portPeerWindowEnd n) s = .next s))
    ∧ (∀ ms, (s.bringUpDone = false → exec (.ready ms) s = .next s)
      ∧ (s.bringUpDone = true → ∃ t, exec (.ready ms) s = .next t ∧ t.stage = stageReady
        ∧ t.rf K.BOOT_STAT F.BOOT_STAT_BOOT_MS = Nat.min ms 65535 ∧ t.rb K.BOOT_STAT F.BOOT_STAT_FAST = s.mgmt.allSaved
        ∧ t.rb K.BOOT_STAT F.BOOT_STAT_SITE_APPLIED = s.siteRec.isSome
        ∧ (s.mgmt.flash.tried = true → t.mgmt.flash.pendingSlot = none ∧ t.mgmt.flash.tried = false
          ∧ ∀ slot, s.mgmt.flash.pendingSlot = some slot → t.mgmt.flash.active = slot)
        ∧ (s.mgmt.flash.tried = false → t.mgmt.flash = s.mgmt.flash) ∧ t.mgmt.stageOpen = false
        ∧ (∀ a, inSram a = true → mget t.mem a = mget s.mem a)
        ∧ ((∀ r, t.rowInter r = s.rowInter r) → t.mem = s.mem)))
    ∧ (let due := s.ready = true ∧ s.mgmt.newSettings = true ∧ s.mgmt.identityOk = true;
      (due → ∃ t, exec .savedSettingsWrite s = .next t ∧ t.mgmt.newSettings = false ∧ t.mem = s.mem
        ∧ (∃ r, t.savedRec = some r ∧ r.seq = (match s.savedRec with | some x => x.seq | none => 0) + 1)
        ∧ (∀ e ∈ s.settingsNow, t.savedSet e.1 = some e.2)
        ∧ ∀ r, s.savedRec = some r → t.mgmt.flash.saved[0] = some r ∨ t.mgmt.flash.saved[1] = some r)
      ∧ (¬ due → exec .savedSettingsWrite s = .next s))

/-- O55 (R134, R171). VTAB_VALID lies at Bench offset 0x60308, reads at reset as 0, and its bit t is 1 when value
table t is valid. The 64 words of PLM_FBMAP lie from Plumb offset 0x3000; bit c mod 64 of word c // 64 is the current
FB of class c. Both are read-only: no source may write them, and a write leaves what they show. -/
def Obligations.StatusWords : Prop :=
  ∀ (s : State) (b : Bid) (p : Part) (w : Fin 64),
    K.VTAB_VALID b = b.val * 0x1000000 + 0x60308 ∧ State.reset.view (K.VTAB_VALID b) = 0
    ∧ (∀ t : Fin 64, (s.view (K.VTAB_VALID b)).getLsbD t.val = s.vtabValid b t.val)
    ∧ K.PLM_FBMAP p w = K.PLM_CTL p + 0x3000 + 8 * w.val
    ∧ (∀ c : Fin 4096, c.val / 64 = w.val →
        (s.view (K.PLM_FBMAP p w)).getLsbD (c.val % 64) = s.rb (K.PLM_CLASS0 p c) F.PLM_CLASS0_FB)
    ∧ ∀ k v, k = K.VTAB_VALID b ∨ k = K.PLM_FBMAP p w →
        (∃ r is, regAt regMap k = some (r, is) ∧ ∀ src, s.mayWrite src r is = false)
        ∧ (s.Inv → ∃ t, exec (.registerWrite k v) s = .next t ∧ t.view k = s.view k)

/-- O56 (R308). Word n of IMEM lies at Bench offset 0x400000 + 8n, reads at reset as 0 and reads as the register
holds. IMEM_WRITE stores the word while the Foreman is STOPPED, and changes no other register; at any other time it
changes none but FM_STAT, whose IMEM_REFUSED is set. While the Bench's clock is stopped the write waits in the
crossing behind those there. -/
def Obligations.InstructionMemory : Prop :=
  ∀ (s : State) (b : Bid) (n : BitVec 15) (v : Word), s.Inv →
    let k := K.IMEM b n.toNat
    k = b.val * 0x1000000 + 0x400000 + 8 * n.toNat ∧ State.reset.view k = 0 ∧ s.view k = s.reg k
    ∧ (s.rb (K.CLK_BENCH b) F.CLK_BENCH_STOPPED = true → ∃ t, exec (.imemWrite b n v) s = .next t ∧ t.apart = s.apart
      ∧ t.regs = s.regs ∧ t.bench b = { s.bench b with xing := (s.bench b).xing ++ [(k, v)] })
    ∧ (s.rb (K.CLK_BENCH b) F.CLK_BENCH_STOPPED = false →
      ∃ t, exec (.imemWrite b n v) s = .next t ∧ t.apart = s.apart ∧ t.benches = s.benches
      ∧ ((s.fm b).st = .stopped → t.view k = v ∧ ∀ j, j ≠ k → t.reg j = s.reg j)
      ∧ ((s.fm b).st ≠ .stopped → t.rb (K.FM_STAT b) F.FM_STAT_IMEM_REFUSED = true
          ∧ ∀ j, j ≠ K.FM_STAT b → t.reg j = s.reg j))

/-- O57 (R433, R460, R495, R516, R529, R530, R531, R532, R534, R535). MB_DOORBELL of a configured endpoint queues a
known message, BUSY set on a mailbox, and answers an unknown one UNKNOWN; the host clears ANSWERED by writing one; its
reads give MB_STATUS and the response. The request at the head is served: GET_INFO and GET_FLOORPLAN answer their
layout, SET_HOST_TIME writes HOST_TIMEp, READ_RECORDS answers the partition's records (all for INSTALLER),
REQUEST_PROOF makes a Proof pending, REQUEST_REMOVAL sets the RELEASE bit. AUTH_BEGIN answers a fresh nonce (LOCKED on
a locked channel), AUTH_PROVE grants the role on a valid signature and counts a bad one, the fifth of which locks the
channel, AUTH_END and 15 idle minutes end the role. A request that fails the checks on header, stage and role is
answered with their code and has no effect. MAILBOX_OPERATION_END answers OK, and ROW_ZERO_DONE the write that took
the row. A request whose audit entry cannot be written answers FLASH_ERROR. AUTH_BEGIN's role codes and key indexes
(assumption 65) and UNKNOWN at the doorbell with the order of the checks (assumption 64) are the model's choice. -/
def Obligations.MailboxRequests : Prop :=
  ∀ (s : State) (m : MbReq), s.Inv →
    let p := chanPart m.chan
    let c := s.chan m.chan
    (m.chan ≠ 8 → s.endpointUp = false → exec (.mbDoorbell (.submit m)) s = .next s)
    ∧ (s.pwr.mainOn = true → (m.chan = 8 ∨ s.endpointUp = true) → s.mgmt.service = [] → (m.chan.val < 4 → (s.hport p).mbx.busy = false) →
      ∃ t, exec (.mbDoorbell (.submit m)) s = .next t
        ∧ (messages.contains m.msg.toNat = true → t.mgmt.service = [m] ∧ (m.chan.val < 4 → (t.hport p).mbx.busy = true))
        ∧ (messages.contains m.msg.toNat = false → t.mgmt.service = [] ∧ t.answered m rUnknown []))
    ∧ (∃ t, exec (.mbDoorbell (.clear p)) s = .next t ∧ (t.hport p).mbx = { (s.hport p).mbx with answered := false }
        ∧ t.regs = s.regs ∧ t.mem = s.mem ∧ t.mgmt = s.mgmt)
    ∧ (∀ off size, s.pwr.mainOn = true → s.endpointUp = true → (∀ i, i < size → ((s.hport p).mbx.byte (off + i)).isSome) →
        ∃ t, exec (.mbDoorbell (.read p off size)) s = .next t ∧ t.regs = s.regs ∧ t.mem = s.mem ∧ t.mgmt = s.mgmt
          ∧ (t.hport p).answer =
            some (.data (ofBytes ((List.range size).map fun i => ((s.hport p).mbx.byte (off + i)).getD 0)) false))
    ∧ (s.Waits m 0x01 → s.generalCheck m .any = rOk →
        ∃ ws, Serves .getInfo s m false rOk (laidOut 0x01 ws) fun t => t.regs = s.regs)
    ∧ (s.Waits m 0x02 → s.generalCheck m .any = rOk →
        Serves .getFloorplan s m false rOk (laidOut 0x02 s.planWords) fun t => t.regs = s.regs)
    ∧ (s.Waits m 0x03 → s.generalCheck m .operatorInstaller = rOk → (s.isInstaller m.chan = true → m.arg1.toNat < 4) →
        Serves .setHostTime s m false rOk [] fun t =>
          t.reg (K.HOST_TIME (if s.isInstaller m.chan then m.arg1.toNat else p.val)) = m.arg0 ∧ t.mgmt.lastTime = m.arg0)
    ∧ (s.Waits m 0x04 → s.generalCheck m .operatorInstaller = rOk →
        let seen := s.errs.log.filter fun r => s.isInstaller m.chan || (s.affected r).contains p
        Serves .readRecords s m false rOk (((seen.drop m.arg0.toNat).take 4096).flatMap wordBytes) fun t => t.regs = s.regs)
    ∧ (s.Waits m 0x05 → s.generalCheck m .operator = rOk → m.arg0.toNat < 16 → s.owns p (bidOf m.arg0.toNat) = true →
        unitOf m ∈ s.proofUnits (bidOf m.arg0.toNat) →
        Serves .requestProof s m false rOk [] fun t => ∃ r ∈ t.health.proofs, r.u = unitOf m)
    ∧ (s.Waits m 0x06 → s.generalCheck m .operator = rOk →
        Serves .requestRemoval s m false rOk [] fun t => (t.rf K.REM_CTL F.REM_CTL_RELEASE).testBit p.val = true)
    ∧ (s.Waits m 0x10 → s.generalCheck m .any = rOk →
        (c.locked = false → m.arg0 = 2 ∨ m.arg0 = 3 → ∃ n : BitVec 256,
          Serves (.authBegin false) s m false rOk (toBytes 32 n.toNat) fun t => (t.chan m.chan).nonce = some (n, roleOf m))
        ∧ (c.locked = true → Serves (.authBegin false) s m false rLocked [] fun t => t.chan m.chan = c))
    ∧ (∀ n r, s.Waits m 0x11 → s.generalCheck m .any = rOk → c.nonce = some (n, r) →
        (m.arg0.toNat < s.keysOf r → Serves (.authProve true true 0) s m false rOk [] fun t =>
          (t.chan m.chan).role = some r ∧ (t.chan m.chan).key = m.arg0.toNat ∧ (t.chan m.chan).nonce = none)
        ∧ Serves (.authProve false true 0) s m false rBadSignature [] fun t =>
          (t.chan m.chan).role = c.role ∧ (t.chan m.chan).nonce = none ∧ (t.chan m.chan).fails = c.fails + 1
            ∧ (t.chan m.chan).locked = (c.locked || decide (5 ≤ c.fails + 1)))
    ∧ (s.Waits m 0x12 → s.generalCheck m .any = rOk →
        Serves .authEnd s m false rOk [] fun t => (t.chan m.chan).role = none)
    ∧ (∃ t, exec (.authIdleExpiry m.chan) s = .next t ∧ (t.chan m.chan).role = none ∧ t.regs = s.regs)
    ∧ (s.generalCheck m .maker ≠ rOk → s.Waits m 0x32 →
        Serves .testMode s m false (s.generalCheck m .maker) [] fun t => t.mgmt.testMode = s.mgmt.testMode)
    ∧ (∀ e ∈ s.mgmt.working.find? (fun e => e.1 == m.chan),
        ∃ t, exec (.mailboxOperationEnd m.chan) s = .next t ∧ t.answered e.2 rOk []
          ∧ t.mgmt.working = s.mgmt.working.erase e)
    ∧ ∀ (row : Fin 96) (v : Word), s.bulk.zeroing.find? (fun e => e.1 == row.val) = some (row.val, v) →
        s.mgmt.zeroReq = [(row.val, m)] → ∃ t, exec (.rowZeroDone row) s = .next t ∧ t.answered m rOk [] ∧ t.mgmt.zeroReq = []

/-- O58 (R338, R458, R495, R497, R507, R508, R509, R528, R532, R533, R535). REG_WRITE stores INSTALLER fields and
writes a site record under the next site counter (shown at RETIRE_POLICY); a bit outside them is INVALID. FW_STAGE
adds bytes, the first of a staging erasing the inactive slot and clearing PENDING; FW_ACTIVATE makes a valid image
PENDING; FW_COMMIT raises SVN_MIN to the running image's SVN. RETIRE_UNIT makes a unit pending or retired,
RETRAIN_PORT trains a port, STANDBY is entered while every Foreman is STOPPED and left by a module reset, REMOVE makes
removal stand, AUDIT_READ answers entries. WRITE_BUILD_RECORD writes a signed record, CLEAR_HISTORY clears a unit's
history and marks a retired unit to return, TEST_MODE sets the mode and BOOT_STAT.TEST. Each writes an audit entry. -/
def Obligations.InstallerRequests : Prop :=
  ∀ (s : State) (m : MbReq) (img : Image) (rec : BuildRec), s.Inv →
    let f := s.mgmt.flash
    (s.Waits m 0x20 → s.generalCheck m .installer = rOk → m.arg0 = 0xA10000 →
      (m.arg1 &&& ~~~ 0xFFFF001F = 0 → Serves .regWrite s m true rOk [] fun t =>
        t.rf K.RETIRE_POLICY ⟨0, 4⟩ = fld m.arg1 0 4 ∧ t.rf K.RETIRE_POLICY ⟨4, 1⟩ = fld m.arg1 4 1
          ∧ t.rf K.RETIRE_POLICY ⟨16, 16⟩ = fld m.arg1 16 16
          ∧ (s.mgmt.identityOk = true → t.mgmt.flash.siteCtr = f.siteCtr + 1))
      ∧ (m.arg1 &&& ~~~ 0xFFFF001F ≠ 0 → Serves .regWrite s m true rInvalid [] fun t =>
        t.reg K.RETIRE_POLICY = s.reg K.RETIRE_POLICY ∧ t.mgmt.flash.siteCtr = f.siteCtr))
    ∧ (s.Waits m 0x21 → s.generalCheck m .installer = rOk → m.arg0.toNat + m.payload.length ≤ slotBytes →
        Serves .fwStage s m true rOk [] fun t => t.mgmt.stageOpen = true
          ∧ t.mgmt.staged = (if s.mgmt.stageOpen then s.mgmt.staged else []) ++ [(m.arg0.toNat, m.payload)]
          ∧ (s.mgmt.stageOpen = false → t.mgmt.flash.slot (!f.active) = none ∧ t.mgmt.flash.pendingSlot = none))
    ∧ (s.Waits m 0x22 → s.generalCheck m .installer = rOk → s.mgmt.staged ≠ [] → (∃ r, s.buildRec = some r ∧ f.judge r img = rOk) →
        Serves (.fwActivate img) s m true rOk [] fun t => t.mgmt.flash.pendingSlot = some (!f.active)
          ∧ t.mgmt.flash.slot (!f.active) = some img ∧ t.rb K.BOOT_STAT F.BOOT_STAT_PENDING_VALID = true)
    ∧ (∀ i, s.Waits m 0x23 → s.generalCheck m .installer = rOk → s.mgmt.running = some i →
        (f.svnMin ≤ i.svn → Serves .fwCommit s m true rOk [] fun t => t.mgmt.flash.svnMin = i.svn)
        ∧ (i.svn < f.svnMin → Serves .fwCommit s m true rRollback [] fun t => t.mgmt.flash.svnMin = f.svnMin))
    ∧ (s.Waits m 0x24 → s.generalCheck m .installer = rOk → s.unitInPlan (unitOf m) = true →
        Serves .retireUnit s m false rOk [] fun t => unitOf m ∈ t.health.pending ∨ unitOf m ∈ t.health.retired)
    ∧ (∀ n : PortNo, s.Waits m 0x25 → s.generalCheck m .installer = rOk → m.arg0.toNat = n.val → (∃ r, s.buildRec = some r
      ∧ s.portBuilt r n = true) →
        (∀ p, s.portOwner n = some p → s.epochOn p = false) →
        Serves .retrainPort s m true rOk [] fun t => t.rf (K.FAB_PORT n) F.FAB_PORT_STATE = 2)
    ∧ (s.Waits m 0x26 → s.generalCheck m .installer = rOk →
        (m.arg0 = 1 → s.ready = true → s.rf K.PWR_STAT F.PWR_STAT_STATE ≠ 2 → (∀ b, (s.fm b).st = .stopped) →
          Serves .standby s m false rOk [] fun t => t.rf K.PWR_STAT F.PWR_STAT_STATE = 2)
        ∧ (m.arg0 = 0 → s.rf K.PWR_STAT F.PWR_STAT_STATE = 2 →
          Serves .standby s m false rOk [] fun t => ∃ r ∈ t.mgmt.resetsBusy, r.scope = .module))
    ∧ (s.Waits m 0x27 → s.generalCheck m .installer = rOk →
        Serves .remove s m false rOk [] fun t => t.rb K.REM_CTL F.REM_CTL_PENDING = true)
    ∧ (s.Waits m 0x28 → s.generalCheck m .installer = rOk → s.entryFails m = false →
        ∃ t, exec .auditRead s = .next t ∧ t.answered m rOk
          (((t.mgmt.flash.audit.filter fun e => m.arg0.toNat ≤ e.seq).take 2047).flatMap AuditEnt.bytes))
    ∧ (s.Waits m 0x30 → s.generalCheck m .maker = rOk → rec.signedOk = true →
        Serves (.writeBuildRecord rec) s m true rOk [] fun t => t.mgmt.buildWritten = true
          ∧ (t.mgmt.flash.build[0] = some rec ∨ t.mgmt.flash.build[1] = some rec))
    ∧ (s.Waits m 0x31 → s.generalCheck m .maker = rOk → m.arg0.toNat ≤ 16 → (unitOf m).cls ≤ ucBaseDie →
        Serves .clearHistory s m true rOk [] fun t => (∀ e ∈ t.health.hist, e.1 ≠ unitOf m)
          ∧ (unitOf m ∈ s.health.retired → unitOf m ∈ t.health.restore))
    ∧ (s.Waits m 0x32 → s.generalCheck m .maker = rOk →
        Serves .testMode s m false rOk [] fun t => t.mgmt.testMode = m.arg0.toNat
          ∧ t.rb K.BOOT_STAT F.BOOT_STAT_TEST = decide (m.arg0 ≠ 0))

/-- O59 (R456, R510, R525, R526, R527, R535, R536, R537). With the endpoint's link up and the firmware serving,
GET_VERSION answers 1.3, GET_CAPABILITIES CERT, CHAL and MEAS, NEGOTIATE_ALGORITHMS Ed25519 and SHA-512, GET_DIGESTS
and GET_CERTIFICATE slot 0's chain, CHALLENGE and GET_MEASUREMENTS an answer whose signature is the identity key's
over it, and a request that is not supported ERROR UnsupportedRequest; without the keys, in RECOVERY and FAILED,
before the firmware runs, or for another slot the answer is an ERROR. AUDIT_CHECKPOINT_TIMER counts a powered hour
and, when any entry was written since the last checkpoint, adds one: the next SEQ, chained to the entry before it, its
signature zero without the keys. The codes of the version and of UnsupportedRequest, an ERROR in RECOVERY, in FAILED
and before the firmware runs, and what exactly a signature covers are the model's choice (assumption 68); so is the
PREV of a first entry, zero (assumption 34). -/
def Obligations.SpdmAndAudit : Prop :=
  (∀ (s : State) (c : Chan) (slot off len index : Nat) (nonce : BitVec 256), 4 ≤ c.val → s.pwr.mainOn = true →
    s.hubCore securityCore = true →
    (c.val < 8 → s.hostUp (chanPart c) = true) →
    let fails (i : Instr) : Prop := ∃ e, Says i s c (.error e)
    let sign := Config.sign (identitySeed (s.mgmt.secret.getD 0))
    (s.stage ∉ [stageRom, stageFirmware, stageRecovery, stageFailed] →
      Says (.getVersion c) s c (.version 0x13) ∧ Says (.getCapabilities c) s c (.capabilities true true true)
      ∧ Says (.negotiateAlgorithms c) s c (.algorithms true true)
      ∧ Says (.getDigests c) s c (.digests 1 (Config.sha512 s.certChain))
      ∧ Says (.getCertificate c 0 off len) s c (.certificate 0 off ((s.certChain.drop off).take len))
      ∧ (slot ≠ 0 → fails (.getCertificate c slot off len) ∧ fails (.challenge c slot nonce))
      ∧ Says (.mbDoorbell (.unsupported c)) s c (.error 0x07)
      ∧ (s.mgmt.identityOk = true →
          Says (.challenge c 0 nonce) s c (.challengeAuth nonce (sign (Config.layout 0x109 (keyWords nonce)))))
      ∧ (s.mgmt.identityOk = true → 1 ≤ index → index ≤ 7 →
          let d := (List.range 8).map fun j => (s.measure index >>> (64 * j)).setWidth 64
          Says (.getMeasurements c index nonce) s c (.measurements index 1 [(index, s.measure index)]
            (sign (Config.layout 0x10A (keyWords nonce ++ BitVec.ofNat 64 index :: d)))))
      ∧ (s.mgmt.identityOk = false → fails (.challenge c slot nonce) ∧ fails (.getMeasurements c index nonce)))
    ∧ (s.stage ∈ [stageRom, stageFirmware, stageRecovery, stageFailed] →
      fails (.getVersion c) ∧ fails (.getCapabilities c) ∧ fails (.negotiateAlgorithms c) ∧ fails (.getDigests c)
      ∧ fails (.getCertificate c slot off len) ∧ fails (.challenge c slot nonce) ∧ fails (.getMeasurements c index nonce)))
  ∧ ∀ s : State, s.pwr.mainOn = true →
    let f := s.mgmt.flash
    ∃ t, exec .auditCheckpointTimer s = .next t ∧ t.pwr.hours = s.pwr.hours + 1 ∧ t.mem = s.mem
      ∧ (f.sinceCheckpoint = 0 → t.mgmt = s.mgmt ∧ t.regs = s.regs)
      ∧ (f.sinceCheckpoint ≠ 0 → f.audit.length < 262144 →
          ∃ e, t.mgmt.flash.audit = f.audit ++ [e] ∧ e.checkpoint = true ∧ e.seq = f.auditCtr + 1
            ∧ t.mgmt.flash.auditCtr = f.auditCtr + 1 ∧ t.mgmt.flash.sinceCheckpoint = 0 ∧ e.hostTime = s.mgmt.lastTime
            ∧ (∀ l, f.audit.getLast? = some l → e.prev = Config.sha512 l.bytes) ∧ (f.audit = [] → e.prev = 0)
            ∧ (s.mgmt.identityOk = false → e.signature = [])
            ∧ (s.mgmt.identityOk = true →
              e.signature = Config.sign (identitySeed (s.mgmt.secret.getD 0)) (toBytes 64 (Config.sha512 e.body).toNat)))

/-- O60 (R10, R13, R470, R545, R546, R548, R549, R550, R554, R555). Setting EN over a ring in the window starts a
tracer: TAIL and HEAD 0, PHASE 1, one ANCHOR staged; over another ring it is refused. A sample joins the staged
entries, the flush timer pads to whole granules, and a staged granule goes from the staging unit to the ring while
that has room, TAIL moving on by 32 units; a full ring sets FULL. A write of a marker slot's ID clears its counters, a
clock passes zero at the next multiple of 2^32. A read of a counter's lower half latches its upper half for one read;
a read of Hub counter 416 clears it. REGISTER_WRITE sets RW bits, clears W1C bits written 1, leaves RO bits and other
registers, and does what the register does (FM_CTL, PROG_LOAD1, BMC_PART, ERR_RING, MK_ID). That the anchor of a clock
advances it to that multiple, and the list of the entries that a tracer has staged, are the model's choice
(assumptions 61 and 89). -/
def Obligations.TraceAndRegisters : Prop :=
  (∀ (s : State) (b : Bid) (v : Word), s.Inv →
    let q : Fin 17 := ⟨b.val, by omega⟩
    (s.trOn q = false → v.getLsbD 0 = true →
      ∃ t, exec (.traceEnWrite q v) s = .next t
        ∧ (s.trRingOk q = true → t.trOn q = true ∧ t.reg (K.TRC_PTR b) = 0 ∧ t.trPhase q = true ∧ (t.staged q).length = 1)
        ∧ (s.trRingOk q = false → t.reg (K.TRC_CTL b) = s.reg (K.TRC_CTL b) ∧ t.rb (K.TRC_STAT b) F.TRC_STAT_REFUSED = true))
    ∧ (s.trOn q = true → s.rf (K.TRC_CTL b) F.TRC_CTL_SAMPLE_PERIOD ≠ 0 → (s.bench b).traceLost = 0 →
        traceUnits (s.staged q) + 3 ≤ 4096 →
        ∃ t e, exec (.traceSampleTimer b) s = .next t ∧ t.staged q = s.staged q ++ [e] ∧ traceUnits [e] = 3 ∧ t.mem = s.mem
          ∧ ∀ i : Fin 4, e[2 + i.val]? = some (s.sampled b (fld (s.reg (K.TRC_SEL b)) (16 * i.val) 16)))
    ∧ (s.trOn q = true → ∃ t l, exec (.traceFlushTimer q) s = .next t ∧ t.staged q = s.staged q ++ l
        ∧ (traceUnits (s.staged q) % 32 = 0 → l = []) ∧ (traceUnits (s.staged q) + l.length) % 32 = 0 ∧ t.regs = s.regs)
    ∧ (∀ p, s.trRests q = false → 32 ≤ traceUnits (s.staged q) → s.trPart q = some p →
        let put := s.trBase q / 16 + s.trTail q
        let settled := (s.bench b).traceIn = traceUnits (s.staged q)
        ∃ t, exec (.traceGranuleWrite q) s = .next t
          ∧ (s.trRoom q = false → t.rb (K.TRC_STAT b) F.TRC_STAT_FULL = true ∧ (settled → t.mem = s.mem))
          ∧ (s.trRoom q = true → (∀ i < 32, s.mayAccess p (16 * (put + i)) = true) → bulkBase ≤ 16 * put → s.bulk.copying = [] →
              t.trTail q = (s.trTail q + 32) % s.trSize q % 2 ^ 28
              ∧ (settled → (∀ i < 32, let w := s.stageWord b i
                    s.mayAccess p (16 * w) = true ∧ (s.mark w).poison = false ∧ (s.mark w).upset = .clean) →
                  mread t.mem (16 * put) 512 = (List.range 32).flatMap fun i => mread s.mem (16 * s.stageWord b i) 16)))
    ∧ (∀ i : Fin 8, ∃ t, exec (.mkSlotIdWrite b i v) s = .next t ∧ t.rf (K.MK_ID b i) F.MK_ID_ID = fld v 0 32
        ∧ (∀ j : Fin 3, t.reg (K.MK_CNT b i j) = 0) ∧ t.mem = s.mem)
    ∧ (s.pwr.mainOn = true → s.rb (K.CLK_BENCH b) F.CLK_BENCH_STOPPED = false →
        ∃ t, exec (.cyclesLowWrapAnchor q) s = .next t ∧ t.mem = s.mem
          ∧ (t.bench b).cycles = BitVec.ofNat 48 (((s.bench b).cycles.toNat / 2 ^ 32 + 1) * 2 ^ 32)))
  ∧ (∀ (s : State) (p : Part) (key : Nat), s.Inv → s.partValid p = true → s.stage = stageReady →
    (∀ r is, isCounter key = true → s.regFind p true key = .ok r is →
      ∃ t, exec (.counterLowHalfRead p key) s = .next t
        ∧ (t.hport p).answer = some (.data ((s.view key).toNat % 2 ^ 32) false)
        ∧ (t.readHigh key).1 = s.view key >>> 32)
    ∧ ∃ t, exec (.powerMaxRead p) s = .next t
        ∧ (t.hport p).answer = some (.data (s.view (K.HUB_CTR 416)).toNat false) ∧ t.reg (K.HUB_CTR 416) = 0)
  ∧ ∀ (s : State) (p : Part) (b : Bid) (v : Word), s.Inv →
    (∃ t, exec (.registerWrite (K.BAR_MASK p) v) s = .next t ∧ t.rf (K.BAR_MASK p) ⟨0, 16⟩ = fld v 0 16
      ∧ ∀ j, j ≠ K.BAR_MASK p → t.reg j = s.reg j)
    ∧ (∃ t, exec (.registerWrite (K.BMEM_STAT b) v) s = .next t ∧ (∀ j, j ≠ K.BMEM_STAT b → t.reg j = s.reg j)
      ∧ ∀ i : Fin 5, t.rb (K.BMEM_STAT b) ⟨i, 1⟩ = (s.rb (K.BMEM_STAT b) ⟨i, 1⟩ && !v.getLsbD i.val))
    ∧ (∃ t, exec (.registerWrite (K.CLK_BENCH b) v) s = .next t ∧ ∀ j, t.reg j = s.reg j)
    ∧ exec (.registerWrite (K.BMC_PART p) v) s = .next (s.writeBmcPart p v)
    ∧ exec (.registerWrite (K.ERR_RING p) v) s = .next (s.writeErrRing p v)
    ∧ exec (.registerWrite (K.PROG_LOAD1 p) v) s = .next (s.writeProgLoad p v)
    ∧ (s.rb (K.CLK_BENCH b) F.CLK_BENCH_STOPPED = false →
        exec (.registerWrite (K.FM_CTL b) v) s = .next (s.writeFmCtl b v))
    ∧ exec (.registerWrite (K.MK_ID b 0) v) s = .next (s.writeMkId b 0 v)
end

