-- ==== Sys2Proof/Laws/Sparse.lean ====
section
/-!
SUPPORT. Laws of sparse tables and memory: a write is read back, it leaves every other key alone, and every operation keeps
the canonical form.
-/

namespace Sys2Proof.Machine

variable {α : Type}

/-! ## Reads -/

theorem tget_tput (d : α) (t : Tab α) (a k : Nat) (v : α) (h : (t.map Prod.fst).Pairwise (· < ·)) :
    tget d (tput t a v) k = if a = k then v else tget d t k := by
  induction t with
  | nil => simp [tput, tget]
  | cons e rest ih =>
    obtain ⟨n, w⟩ := e
    have hr : (rest.map Prod.fst).Pairwise (· < ·) := by simpa using (List.pairwise_cons.mp (by simpa using h)).2
    by_cases h1 : n < a
    · simp only [tput, h1, if_true, tget, ih hr]
      by_cases hk : n = k
      · simp [hk]; omega
      · simp [hk]
    · by_cases h2 : n = a
      · subst h2
        by_cases hk : n = k <;> simp [tput, tget, hk]
      · simp only [tput, h1, h2, if_false, tget]

theorem tget_unlisted (d : α) (t : Tab α) (k : Nat) (h : ∀ e ∈ t, e.1 ≠ k) : tget d t k = d := by
  induction t with
  | nil => rfl
  | cons e rest ih =>
    obtain ⟨n, w⟩ := e
    have h1 : n ≠ k := h (n, w) (by simp)
    simp [tget, h1, ih fun x hx => h x (by simp [hx])]

theorem tget_filter (d : α) (t : Tab α) (p : Nat → Bool) (k : Nat) :
    tget d (t.filter fun e => p e.1) k = if p k then tget d t k else d := by
  induction t with
  | nil => simp [tget]
  | cons e rest ih =>
    obtain ⟨n, w⟩ := e
    by_cases hp : p n
    · by_cases hk : n = k
      · subst hk; simp [hp, tget]
      · simp [hp, tget, hk, ih]
    · by_cases hk : n = k
      · subst hk; simp [hp, ih]
      · simp [hp, tget, hk, ih]

theorem tget_tset [DecidableEq α] (d : α) (t : Tab α) (a k : Nat) (v : α) (h : (t.map Prod.fst).Pairwise (· < ·)) :
    tget d (tset d t a v) k = if a = k then v else tget d t k := by
  by_cases hv : v = d
  · rw [tset, if_pos hv, tdrop, tget_filter d t (fun n => n != a)]
    by_cases hk : a = k <;> simp [hk, hv]
    intro hn; exact absurd hn.symm hk
  · rw [tset, if_neg hv, tget_tput d t a k v h]

theorem tget_tclear (d : α) (t : Tab α) (lo hi k : Nat) :
    tget d (tclear t lo hi) k = if lo ≤ k ∧ k < hi then d else tget d t k := by
  rw [tclear, tget_filter d t (fun n => decide (n < lo) || decide (hi ≤ n))]
  by_cases h1 : lo ≤ k ∧ k < hi
  · simp [h1, show ¬ k < lo by omega]
  · rw [if_neg h1, if_pos]
    simp; omega

/-! ## The canonical form -/

theorem tput_keys (t : Tab α) (a : Nat) (v : α) : ∀ e ∈ tput t a v, e = (a, v) ∨ e ∈ t := by
  induction t with
  | nil => simp [tput]
  | cons e rest ih =>
    obtain ⟨n, w⟩ := e
    intro x hx
    simp only [tput] at hx
    split at hx
    · rcases List.mem_cons.mp hx with h | h
      · exact .inr (by simp [h])
      · rcases ih x h with h | h
        · exact .inl h
        · exact .inr (by simp [h])
    · split at hx
      · rcases List.mem_cons.mp hx with h | h
        · exact .inl h
        · exact .inr (by simp [h])
      · rcases List.mem_cons.mp hx with h | h
        · exact .inl h
        · exact .inr h

theorem tput_rising (t : Tab α) (a : Nat) (v : α) (h : (t.map Prod.fst).Pairwise (· < ·)) :
    ((tput t a v).map Prod.fst).Pairwise (· < ·) := by
  induction t with
  | nil => simp [tput]
  | cons e rest ih =>
    obtain ⟨n, w⟩ := e
    rw [List.map_cons, List.pairwise_cons] at h
    obtain ⟨h1, h2⟩ := h
    simp only [tput]
    split
    · rename_i hlt
      rw [List.map_cons, List.pairwise_cons]
      refine ⟨?_, ih h2⟩
      intro x hx
      obtain ⟨e, he, rfl⟩ := List.mem_map.mp hx
      rcases tput_keys rest a v e he with h | h
      · simpa [h] using hlt
      · exact h1 _ (List.mem_map_of_mem h)
    · split
      · rename_i heq
        subst heq
        rw [List.map_cons, List.pairwise_cons]
        exact ⟨h1, h2⟩
      · rename_i hge hne
        rw [List.map_cons, List.pairwise_cons]
        refine ⟨?_, ?_⟩
        · intro x hx
          rcases List.mem_map.mp hx with ⟨e, he, rfl⟩
          rcases List.mem_cons.mp he with h | h
          · subst h; simp; omega
          · have := h1 _ (List.mem_map_of_mem h); simp at this ⊢; omega
        · rw [List.map_cons, List.pairwise_cons]
          exact ⟨h1, h2⟩

/-- A part of a table in canonical form is in canonical form. -/
theorem twf_filter {d : Nat → α} {t : Tab α} (p : Nat × α → Bool) (h : twf d t) : twf d (t.filter p) :=
  ⟨h.1.sublist ((List.filter_sublist).map _), fun e he => h.2 e (List.mem_filter.mp he).1⟩

theorem twf_tset [DecidableEq α] {d : Nat → α} {t : Tab α} (a : Nat) (v : α) (h : twf d t) :
    twf d (tset (d a) t a v) := by
  by_cases hv : v = d a
  · rw [tset, if_pos hv]; exact twf_filter _ h
  · rw [tset, if_neg hv]
    refine ⟨tput_rising t a v h.1, fun e he => ?_⟩
    rcases tput_keys t a v e he with h' | h'
    · rw [h']; exact hv
    · exact h.2 e h'

theorem twf_relocate [DecidableEq α] {d : α} {t : Tab α} (moved : Nat → Bool) (g : Nat → Nat) (h : twf (fun _ => d) t) :
    twf (fun _ => d) (relocate d t moved g) := by
  unfold relocate
  generalize t.filter (fun e => moved e.1) = l
  have h0 := twf_filter (fun e => !moved e.1) h
  revert h0
  generalize t.filter (fun e => !moved e.1) = u
  induction l generalizing u with
  | nil => exact id
  | cons e l ih => exact fun hu => ih _ (twf_tset (d := fun _ => d) _ _ hu)

theorem twf_tclear {d : Nat → α} {t : Tab α} (lo hi : Nat) (h : twf d t) : twf d (tclear t lo hi) := twf_filter _ h

/-- A table of words whose values change key by key, or leave it, keeps the canonical form. -/
theorem twf_filterMap {d : Nat → α} {t : Tab α} (f : Nat × α → Option (Nat × α)) (h : twf d t)
    (hf : ∀ e e', f e = some e' → e'.1 = e.1 ∧ e'.2 ≠ d e'.1) : twf d (t.filterMap f) := by
  obtain ⟨h1, h2⟩ := h
  refine ⟨?_, fun e he => ?_⟩
  · clear h2
    induction t with
    | nil => simp
    | cons e rest ih =>
      rw [List.map_cons, List.pairwise_cons] at h1
      rcases he : f e with _ | e'
      · rw [List.filterMap_cons_none he]; exact ih h1.2
      · rw [List.filterMap_cons_some he, List.map_cons, List.pairwise_cons]
        refine ⟨fun x hx => ?_, ih h1.2⟩
        obtain ⟨y, hy, rfl⟩ := List.mem_map.mp hx
        obtain ⟨z, hz, hzy⟩ := List.mem_filterMap.mp hy
        rw [(hf z y hzy).1, (hf e e' he).1]
        exact h1.1 _ (List.mem_map_of_mem hz)
  · obtain ⟨z, _, hzy⟩ := List.mem_filterMap.mp he
    exact (hf z e hzy).2

/-! ## Tables with entries moved -/

/-- Writes at other keys leave a key as it was. -/
theorem tget_foldl_outside [DecidableEq α] (d : α) (g : Nat → Nat) (l : Tab α) (u : Tab α) (k : Nat)
    (hu : twf (fun _ => d) u) (h : ∀ e ∈ l, g e.1 ≠ k) :
    tget d (l.foldl (fun t e => tset d t (g e.1) e.2) u) k = tget d u k := by
  induction l generalizing u with
  | nil => rfl
  | cons e l ih =>
    rw [List.foldl_cons, ih _ (twf_tset (d := fun _ => d) _ _ hu) fun x hx => h x (by simp [hx]),
      tget_tset d u _ k _ hu.1, if_neg (h e (by simp))]

/-- A table's value at a listed key. -/
theorem tget_mem (d : α) {t : Tab α} (h : (t.map Prod.fst).Pairwise (· < ·)) {e : Nat × α} (he : e ∈ t) :
    tget d t e.1 = e.2 := by
  induction t with
  | nil => cases he
  | cons x t ih =>
    rw [List.map_cons, List.pairwise_cons] at h
    rcases List.mem_cons.mp he with rfl | he
    · simp [tget]
    · have := h.1 _ (List.mem_map_of_mem he)
      rw [tget, if_neg (by omega), ih h.2 he]

/-- Entries written at distinct images of their keys are read back there. -/
theorem tget_foldl_inside [DecidableEq α] (d : α) (g : Nat → Nat) (l : Tab α) (u : Tab α) (hu : twf (fun _ => d) u)
    (hl : (l.map Prod.fst).Pairwise (· < ·)) (hg : ∀ e ∈ l, ∀ x ∈ l, g e.1 = g x.1 → e.1 = x.1) {e : Nat × α} (he : e ∈ l) :
    tget d (l.foldl (fun t e => tset d t (g e.1) e.2) u) (g e.1) = e.2 := by
  induction l generalizing u with
  | nil => cases he
  | cons x l ih =>
    rw [List.map_cons, List.pairwise_cons] at hl
    rw [List.foldl_cons]
    have hu' := twf_tset (d := fun _ => d) (g x.1) x.2 hu
    rcases List.mem_cons.mp he with rfl | he'
    · rw [tget_foldl_outside d g l _ _ hu', tget_tset d u _ _ _ hu.1, if_pos rfl]
      intro y hy hne
      have h1 := hl.1 _ (List.mem_map_of_mem hy)
      have h2 := hg y (by simp [hy]) e (by simp) hne
      omega
    · exact ih _ hu' hl.2 (fun a ha b hb => hg a (by simp [ha]) b (by simp [hb])) he'

/-- A table with its moved entries put at their images reads at an image what it read at the key. -/
theorem tget_relocate [DecidableEq α] (d : α) (t : Tab α) (moved : Nat → Bool) (g : Nat → Nat) (k : Nat)
    (h : twf (fun _ => d) t) (hk : moved k = true) (hm : ∀ a, moved a = true → moved (g a) = true)
    (hg : ∀ a b, moved a = true → moved b = true → g a = g b → a = b) :
    tget d (relocate d t moved g) (g k) = tget d t k := by
  have hf := twf_filter (fun e => moved e.1) h
  have hu := twf_filter (fun e => !moved e.1) h
  have hmem : ∀ e ∈ t.filter (fun e => moved e.1), moved e.1 = true := fun e he => by simpa using (List.mem_filter.mp he).2
  unfold relocate
  by_cases hin : ∃ e ∈ t.filter (fun e => moved e.1), e.1 = k
  · obtain ⟨e, he, rfl⟩ := hin
    rw [tget_foldl_inside d g _ _ hu hf.1 (fun a ha b hb => hg _ _ (hmem a ha) (hmem b hb)) he,
      tget_mem d h.1 (List.mem_filter.mp he).1]
  · rw [tget_foldl_outside d g _ _ _ hu fun e he hne => hin ⟨e, he, hg _ _ (hmem e he) hk hne⟩,
      tget_filter d t (fun n => !moved n), if_neg (by simp [hm k hk]), tget_unlisted]
    intro e he hne
    exact hin ⟨e, List.mem_filter.mpr ⟨he, by simp [hne, hk]⟩, hne⟩

/-- A key that is not moved, nor the image of a moved one, reads as before. -/
theorem tget_relocate_fixed [DecidableEq α] (d : α) (t : Tab α) (moved : Nat → Bool) (g : Nat → Nat) (k : Nat)
    (h : twf (fun _ => d) t) (hk : moved k = false) (hm : ∀ a, moved a = true → moved (g a) = true) :
    tget d (relocate d t moved g) k = tget d t k := by
  have hu := twf_filter (fun e => !moved e.1) h
  unfold relocate
  rw [tget_foldl_outside d g _ _ k hu, tget_filter d t (fun n => !moved n), if_pos (by simp [hk])]
  intro e he hne
  have := hm e.1 (by simpa using (List.mem_filter.mp he).2)
  rw [hne, hk] at this
  cases this

/-! ## Memory -/

theorem mget_mset (m : List Host.Cell) (a k : Nat) (b : Byte) (h : Memory.wf m) :
    mget (mset m a b) k = if a = k then b else mget m k := tget_tset 0 m a k b h.1

theorem mset_wf {m : List Host.Cell} (a : Nat) (b : Byte) (h : Memory.wf m) : Memory.wf (mset m a b) :=
  twf_tset (d := fun _ => (0 : Byte)) a b h

theorem mwrite_wf {m : List Host.Cell} (a : Nat) (l : List Byte) (h : Memory.wf m) : Memory.wf (mwrite m a l) := by
  induction l generalizing m a with
  | nil => exact h
  | cons b bs ih => exact ih _ (mset_wf a b h)

/-- A byte outside what is written reads as before. -/
theorem mget_mwrite_outside (m : List Host.Cell) (a k : Nat) (l : List Byte) (h : Memory.wf m)
    (hk : k < a ∨ a + l.length ≤ k) : mget (mwrite m a l) k = mget m k := by
  induction l generalizing m a with
  | nil => rfl
  | cons b bs ih =>
    have hn : a ≠ k := by simp only [List.length_cons] at hk; omega
    rw [mwrite, ih (mset m a b) (a + 1) (mset_wf a b h) (by simp only [List.length_cons] at hk; omega),
      mget_mset m a k b h, if_neg hn]

/-- What is written is read back. -/
theorem mread_mwrite (m : List Host.Cell) (a : Nat) (l : List Byte) (h : Memory.wf m) :
    mread (mwrite m a l) a l.length = l := by
  induction l generalizing m a with
  | nil => rfl
  | cons b bs ih =>
    rw [List.length_cons, mread, mwrite, ih (mset m a b) (a + 1) (mset_wf a b h),
      mget_mwrite_outside (mset m a b) (a + 1) a bs (mset_wf a b h) (by omega), mget_mset m a a b h, if_pos rfl]

end Sys2Proof.Machine
end

