-- ==== Sys2Proof/Laws/Bulk.lean ====
section
/-! SUPPORT. A change of a row's mode: every byte is found again at its stack and stack offset (R250, R251). -/

namespace Sys2Proof.Machine

theorem interPlace_lt {q : Nat} (h : q < rowSize) : interPlace q < rowSize := by
  unfold interPlace; unfold rowSize at *; omega

theorem localPlace_lt {q : Nat} (h : q < rowSize) : localPlace q < rowSize := by
  unfold localPlace; unfold rowSize at *; omega

theorem localPlace_interPlace {q : Nat} (h : q < rowSize) : localPlace (interPlace q) = q := by
  unfold interPlace localPlace; unfold rowSize at h; omega

theorem interPlace_localPlace {q : Nat} (h : q < rowSize) : interPlace (localPlace q) = q := by
  unfold interPlace localPlace; unfold rowSize at h; omega

/-- A byte's place in its row after a change of the row's mode. -/
theorem newPlace_eq {old new : State} {a : Nat} (h : old.modeMoves new a = true) :
    ∃ q < rowSize, old.newPlace new a = bulkBase + rowOf a * rowSize + q
      ∧ (a - bulkBase) % rowSize = if new.rowInter (rowOf a) then localPlace q else interPlace q := by
  have hq : (a - bulkBase) % rowSize < rowSize := Nat.mod_lt _ (by decide)
  rw [State.newPlace, if_pos h]
  by_cases hi : new.rowInter (rowOf a) = true
  · exact ⟨_, interPlace_lt hq, by simp [hi], by simp [hi, localPlace_interPlace hq]⟩
  · exact ⟨_, localPlace_lt hq, by simp [hi], by simp [hi, interPlace_localPlace hq]⟩

/-- A byte that moves stays in its row. -/
theorem rowOf_newPlace {old new : State} {a : Nat} (h : old.modeMoves new a = true) :
    rowOf (old.newPlace new a) = rowOf a := by
  obtain ⟨q, hq, he, -⟩ := newPlace_eq h
  rw [he, rowOf]
  have : bulkBase + rowOf a * rowSize + q - bulkBase = q + rowSize * rowOf a := by rw [Nat.mul_comm]; omega
  rw [this, Nat.add_mul_div_left _ _ (by decide), Nat.div_eq_of_lt hq]; omega

theorem modeMoves_newPlace {old new : State} {a : Nat} (h : old.modeMoves new a = true) :
    old.modeMoves new (old.newPlace new a) = true := by
  obtain ⟨q, hq, he, -⟩ := newPlace_eq h
  have hb : bulkBase ≤ old.newPlace new a := by rw [he]; omega
  unfold State.modeMoves at h ⊢
  rw [rowOf_newPlace (by unfold State.modeMoves; exact h)]
  simp only [Bool.and_eq_true, decide_eq_true_eq] at h ⊢
  exact ⟨hb, h.2⟩

theorem newPlace_inj {old new : State} {a b : Nat} (ha : old.modeMoves new a = true) (hb : old.modeMoves new b = true)
    (h : old.newPlace new a = old.newPlace new b) : a = b := by
  have hr : rowOf a = rowOf b := by rw [← rowOf_newPlace ha, ← rowOf_newPlace hb, h]
  obtain ⟨q, -, he, hq⟩ := newPlace_eq ha
  obtain ⟨q', -, he', hq'⟩ := newPlace_eq hb
  have hqq : q = q' := by rw [he, he', hr] at h; omega
  subst hqq
  rw [hr] at hq
  have hmod : (a - bulkBase) % rowSize = (b - bulkBase) % rowSize := by rw [hq, hq']
  have hba : bulkBase ≤ a := by simp [State.modeMoves] at ha; exact ha.1
  have hbb : bulkBase ≤ b := by simp [State.modeMoves] at hb; exact hb.1
  have h1 := Nat.div_add_mod (a - bulkBase) rowSize
  have h2 := Nat.div_add_mod (b - bulkBase) rowSize
  unfold rowOf at hr
  rw [hmod, hr] at h1
  omega

/-- A byte of a row whose mode changed is read at its new place (R251). -/
theorem mget_reseat (old new : State) (a : Nat) (hw : Memory.wf new.mem) (h : old.modeMoves new a = true) :
    mget (old.reseat new).mem (old.newPlace new a) = mget new.mem a :=
  tget_relocate 0 new.mem _ _ a hw h (fun _ => modeMoves_newPlace) fun _ _ => newPlace_inj

/-- A byte outside the rows whose mode changed stays where it is. -/
theorem mget_reseat_fixed (old new : State) (a : Nat) (hw : Memory.wf new.mem) (h : old.modeMoves new a = false) :
    mget (old.reseat new).mem a = mget new.mem a :=
  tget_relocate_fixed 0 new.mem _ _ a hw h fun _ => modeMoves_newPlace

end Sys2Proof.Machine
end

