-- ==== Sys2Proof/Laws/Decode.lean ====
section
/-!
SUPPORT. The fields of an instruction word as numbers: what the decoder reads is a quotient and a remainder of the word, and
what the encoder lays down is a sum.
-/

namespace Sys2Proof

/-- A field read is the word shifted down and reduced. -/
theorem wn_eq (w : Word) (lo n : Nat) : wn w lo n = w.toNat / 2 ^ lo % 2 ^ n := by
  simp [wn, wf, Nat.shiftRight_eq_div_pow]

/-- A field is what its number says. -/
theorem wf_of_wn {w : Word} {lo n : Nat} {v : BitVec n} (h : wn w lo n = v.toNat) : wf w lo n = v :=
  BitVec.eq_of_toNat_eq h

theorem wz_eq (w : Word) (lo n : Nat) : wz w lo n = decide (w.toNat / 2 ^ lo % 2 ^ n = 0) := by
  rw [wz, wn_eq, Bool.eq_iff_iff]; simp

theorem bit_eq (w : Word) (i : Nat) : w.getLsbD i = decide (w.toNat / 2 ^ i % 2 = 1) := by
  simp [BitVec.getLsbD, Nat.testBit_eq_decide_div_mod_eq]

theorem lay_toNat (fs : List (Nat × Nat)) : (lay fs).toNat = fs.foldr (fun f a => f.2 * 2 ^ f.1 + a) 0 % 2 ^ 64 := by
  simp [lay]

theorem issueOf_eq {w : Word} {h : Issue} (h1 : wn w 11 3 = h.pred.toNat) (h2 : w.getLsbD 14 = h.pneg) :
    issueOf h.bench w = h := by
  rw [issueOf, wf_of_wn h1, h2]

end Sys2Proof
end

