-- ==== Sys2Proof/Laws/Keeps.lean ====
section
/-!
SUPPORT. The relation that every operation on the state satisfies: the queue of commands stays, and the invariant is kept.
One lemma per way of changing the state; the other files of Laws show it of every operation.
-/

namespace Sys2Proof.Machine

/-- `t` came from `s` by the block's operations: the queue stands, and the invariant is kept. -/
structure Keeps (s t : State) : Prop where
  queue : t.pending = s.pending
  inv : s.Inv → t.Inv

variable {s0 s t : State}

theorem Keeps.refl (s : State) : Keeps s s := ⟨rfl, id⟩

theorem Keeps.trans {r : State} (h : Keeps s t) (g : Keeps t r) : Keeps s r :=
  ⟨g.queue.trans h.queue, fun i => g.inv (h.inv i)⟩

/-- Any field may change but the queue, the tables and the Benches. -/
theorem Keeps.same (h : Keeps s0 s) (hp : t.pending = s.pending) (hm : t.mem = s.mem) (hr : t.regs = s.regs)
    (hk : t.marks = s.marks) (hb : t.benches = s.benches) : Keeps s0 t :=
  ⟨hp.trans h.queue, fun i => by
    have := h.inv i
    simpa [State.Inv, State.Canonical, State.fm, State.bench, hm, hr, hk, hb] using this⟩

/-- The same, of a state written out. -/
theorem Keeps.lit {a : Vector StepCtl 4} {b : Vector Barrier 4} {c : Vector (List ProgLoad) 4} {d : Vector Plumb 4} {e : Bulk}
    {f : Fabric} {g : HostIf} {i : ErrAgg} {j : Health} {k : Power} {l : Mgmt} {m : Bid} {n : Nat} (h : Keeps s0 s) :
    Keeps s0 ⟨s.pending, s.regs, s.mem, s.marks, s.benches, a, b, c, d, e, f, g, i, j, k, l, m, n⟩ :=
  h.same rfl rfl rfl rfl rfl

theorem Keeps.ite {c : Prop} [Decidable c] (h : c → Keeps s0 s) (g : ¬ c → Keeps s0 t) :
    Keeps s0 (if c then s else t) := by split <;> simp_all

theorem Keeps.foldl {α : Type} {f : State → α → State} {l : List α} (h : Keeps s0 s)
    (hf : ∀ s x, Keeps s0 s → Keeps s0 (f s x)) : Keeps s0 (l.foldl f s) := by
  induction l generalizing s with
  | nil => exact h
  | cons x xs ih => exact ih (hf s x h)

/-- A fold whose accumulator carries the state second. -/
theorem Keeps.foldlSnd {α β : Type} {f : β × State → α → β × State} {l : List α} {a : β × State} (h : Keeps s0 a.2)
    (hf : ∀ a x, Keeps s0 a.2 → Keeps s0 (f a x).2) : Keeps s0 (l.foldl f a).2 := by
  induction l generalizing a with
  | nil => exact h
  | cons x xs ih => exact ih (hf a x h)

/-- A fold whose accumulator carries the state first. -/
theorem Keeps.foldlFst {α β : Type} {f : State × β → α → State × β} {l : List α} {a : State × β} (h : Keeps s0 a.1)
    (hf : ∀ a x, Keeps s0 a.1 → Keeps s0 (f a x).1) : Keeps s0 (l.foldl f a).1 := by
  induction l generalizing a with
  | nil => exact h
  | cons x xs ih => exact ih (hf a x h)

/-- The state of a pair that an operation answered. -/
theorem Keeps.snd {α : Type} {p : α × State} {a : α} (e : p = (a, t)) (h : Keeps s0 p.2) : Keeps s0 t := by
  subst e; exact h

/-- A pair that carries on the state of another. -/
theorem Keeps.pair {α β : Type} {p : α × State} {f : α → β} (h : Keeps s0 p.2) : Keeps s0 (f p.1, p.2).2 := h

theorem Keeps.fst {α : Type} {p : State × α} {a : α} (e : p = (t, a)) (h : Keeps s0 p.1) : Keeps s0 t := by
  subst e; exact h

/-! ## Tables -/

theorem Keeps.mem {m : List Host.Cell} (h : Keeps s0 s) (hm : Memory.wf s.mem → Memory.wf m) :
    Keeps s0 { s with mem := m } :=
  ⟨h.queue, fun i => ⟨⟨hm (h.inv i).1.1, (h.inv i).1.2⟩, (h.inv i).2⟩⟩

theorem Keeps.marks {m : Tab WordMark}
    (h : Keeps s0 s) (hm : twf (fun _ => WordMark.clear) s.marks → twf (fun _ => WordMark.clear) m) :
    Keeps s0 { s with marks := m } :=
  ⟨h.queue, fun i => ⟨⟨(h.inv i).1.1, (h.inv i).1.2.1, hm (h.inv i).1.2.2⟩, (h.inv i).2⟩⟩

theorem Keeps.regs {m : Tab Word} (h : Keeps s0 s) (hm : twf regReset s.regs → twf regReset m) :
    Keeps s0 { s with regs := m } :=
  ⟨h.queue, fun i => ⟨⟨(h.inv i).1.1, hm (h.inv i).1.2.1, (h.inv i).1.2.2⟩, (h.inv i).2⟩⟩

/-! ## Benches -/

/-- A Bench's Foreman stays sound. -/
def BenchKeeps (x y : Bench) : Prop := x.fm.Sound → y.fm.Sound

/-- A Foreman stays sound. -/
def FmKeeps (f g : Foreman) : Prop := f.Sound → g.Sound

theorem FmKeeps.refl (f : Foreman) : FmKeeps f f := id
theorem BenchKeeps.refl (x : Bench) : BenchKeeps x x := id

theorem FmKeeps.same {f g : Foreman} (hs : g.s = f.s) (hp : g.p = f.p) (hm : g.marks = f.marks) (hg : g.sigs = f.sigs)
    (hf : g.fences = f.fences) : FmKeeps f g := by
  intro h; simpa [Foreman.Sound, hs, hp, hm, hg, hf] using h

/-- A Foreman with fewer markers, signals and fences. -/
theorem FmKeeps.fewer {f g : Foreman} (hs : g.s = f.s) (hp : g.p = f.p) (hm : g.marks.length ≤ f.marks.length)
    (hg : g.sigs.length ≤ f.sigs.length) (hf : g.fences.length ≤ f.fences.length) : FmKeeps f g := by
  intro ⟨h1, h2, h3, h4, h5⟩
  exact ⟨by rw [hs]; exact h1, by rw [hp]; exact h2, hm.trans h3, hg.trans h4, hf.trans h5⟩

theorem FmKeeps.trans {f g k : Foreman} (h : FmKeeps f g) (i : FmKeeps g k) : FmKeeps f k := fun x => i (h x)

theorem BenchKeeps.same {x y : Bench} (h : y.fm = x.fm) : BenchKeeps x y := by intro i; rw [h]; exact i

theorem BenchKeeps.fm {x y : Bench} (h : FmKeeps x.fm y.fm) : BenchKeeps x y := h

theorem State.onBench_bench (s : State) (b : Bid) (f : Bench → Bench) (c : Bid) :
    (s.onBench b f).bench c = if c = b then f (s.bench b) else s.bench c := by
  simp only [State.onBench, State.setBench, State.bench]
  by_cases h : c = b
  · subst h; simp
  · have h' : ¬ b.val = c.val := fun e => h (Fin.ext e.symm)
    simp [h, h']

theorem Keeps.onBench {b : Bid} {f : Bench → Bench} (h : Keeps s0 s) (hf : ∀ x, BenchKeeps x (f x)) :
    Keeps s0 (s.onBench b f) :=
  ⟨h.queue, fun i => ⟨(h.inv i).1, fun c => by
    have hc := (h.inv i).2 c
    rw [State.fm, State.onBench_bench]
    split
    · rename_i e; subst e; exact hf _ hc
    · exact hc⟩⟩

theorem Keeps.setBench {b : Bid} {x : Bench} (h : Keeps s0 s) (hf : BenchKeeps (s.bench b) x) :
    Keeps s0 (s.setBench b x) :=
  ⟨h.queue, fun i => ⟨(h.inv i).1, fun c => by
    have hc := (h.inv i).2 c
    have := State.onBench_bench s b (fun _ => x) c
    rw [State.fm, show (s.setBench b x).bench c = _ from this]
    split
    · rename_i e; subst e; exact hf hc
    · exact hc⟩⟩

theorem Keeps.onBenchAt {b : Bid} {f : Bench → Bench} (h : Keeps s0 s) (hf : BenchKeeps (s.bench b) (f (s.bench b))) :
    Keeps s0 (s.onBench b f) := h.setBench hf

theorem Keeps.onFmAt {b : Bid} {f : Foreman → Foreman} (h : Keeps s0 s) (hf : FmKeeps (s.fm b) (f (s.fm b))) :
    Keeps s0 (s.onFm b f) := h.onBenchAt hf

theorem Keeps.onFm {b : Bid} {f : Foreman → Foreman} (h : Keeps s0 s) (hf : ∀ x, FmKeeps x (f x)) :
    Keeps s0 (s.onFm b f) := h.onBench fun x => hf x.fm

/-- Every Bench mapped by an operation that keeps its Foreman sound. -/
theorem Keeps.benches {v : Vector Bench 16} (h : Keeps s0 s)
    (hf : ∀ b : Bid, BenchKeeps (s.bench b) v[b]) : Keeps s0 { s with benches := v } :=
  ⟨h.queue, fun i => ⟨(h.inv i).1, fun b => hf b ((h.inv i).2 b)⟩⟩

theorem Keeps.onWgh {b : Bid} {f : Weighbridge → Weighbridge} (h : Keeps s0 s) : Keeps s0 (s.onWgh b f) :=
  h.onBench fun _ => BenchKeeps.same rfl

theorem Keeps.setArr {b : Bid} {u : Fin 12} {a : ArrayUnit} (h : Keeps s0 s) : Keeps s0 (s.setArr b u a) :=
  h.onBench fun _ => BenchKeeps.same rfl

theorem Keeps.setQueue {b : Bid} {q : Fin 8} {l : List QItem} (h : Keeps s0 s) : Keeps s0 (s.setQueue b q l) :=
  h.onBench fun _ => BenchKeeps.same rfl

theorem Foreman.setS_sound {f : Foreman} {r : BitVec 5} {v : Word} : FmKeeps f (f.setS r v) := by
  intro ⟨h1, h2, h3⟩
  unfold Foreman.setS
  split
  · exact ⟨h1, h2, h3⟩
  · rename_i h
    have : r.toNat ≠ 0 := fun e => h (by apply BitVec.eq_of_toNat_eq; simpa using e)
    exact ⟨by simpa [Vector.getElem_set, this] using h1, h2, h3⟩

theorem Foreman.setP_sound {f : Foreman} {r : BitVec 3} {v : Bool} : FmKeeps f (f.setP r v) := by
  intro ⟨h1, h2, h3⟩
  unfold Foreman.setP
  split
  · exact ⟨h1, h2, h3⟩
  · rename_i h
    have : r.toNat ≠ 0 := fun e => h (by apply BitVec.eq_of_toNat_eq; simpa using e)
    refine ⟨h1, ?_, h3⟩
    have hp : 0 < r.toNat := by omega
    cases v <;> simp [h2, hp]

theorem Foreman.setT_sound {f : Foreman} {r : BitVec 4} {v : Desc} : FmKeeps f (f.setT r v) :=
  FmKeeps.same rfl rfl rfl rfl rfl

theorem Foreman.reset_sound : Foreman.reset.Sound := by
  unfold Foreman.Sound; decide

/-! ## Answers -/

/-- A command answers a next state that keeps queue and invariant. -/
def OutKeeps (s : State) : Out → Prop
  | .next t => Keeps s t
  | _ => False

theorem OutKeeps.next (h : Keeps s0 t) : OutKeeps s0 (.next t) := h

theorem OutKeeps.ite {c : Prop} [Decidable c] {a b : Out} (h : c → OutKeeps s0 a) (g : ¬ c → OutKeeps s0 b) :
    OutKeeps s0 (if c then a else b) := by split <;> simp_all
theorem OutKeeps.exists {o : Out} (h : OutKeeps s0 o) : ∃ t, o = .next t ∧ Keeps s0 t := by
  match o, h with
  | .next t, h => exact ⟨t, rfl, h⟩

/-- An instruction's body answers a state that keeps queue and invariant, or none. -/
def DispKeeps (s : State) : Disp → Prop
  | .stall => True
  | .fault _ => True
  | .failed t _ => Keeps s t
  | .done t => Keeps s t
  | .later t => Keeps s t
  | .marked t _ => Keeps s t
  | .jump t _ => Keeps s t

theorem DispKeeps.ite {c : Prop} [Decidable c] {a b : Disp} (h : c → DispKeeps s0 a) (g : ¬ c → DispKeeps s0 b) :
    DispKeeps s0 (if c then a else b) := by split <;> simp_all
theorem DispKeeps.stall : DispKeeps s0 .stall := trivial
theorem DispKeeps.fault {c : FCode} : DispKeeps s0 (.fault c) := trivial
theorem DispKeeps.failed {c : FCode} (h : Keeps s0 t) : DispKeeps s0 (.failed t c) := h
theorem DispKeeps.done (h : Keeps s0 t) : DispKeeps s0 (.done t) := h
theorem DispKeeps.later (h : Keeps s0 t) : DispKeeps s0 (.later t) := h
theorem DispKeeps.marked {m : BitVec 32} (h : Keeps s0 t) : DispKeeps s0 (.marked t m) := h
theorem DispKeeps.jump {i : Int} (h : Keeps s0 t) : DispKeeps s0 (.jump t i) := h

theorem DispKeeps.getFailed {d : Disp} {c : FCode} (e : d = .failed t c) (h : DispKeeps s0 d) : Keeps s0 t := by
  subst e; exact h
theorem DispKeeps.getDone {d : Disp} (e : d = .done t) (h : DispKeeps s0 d) : Keeps s0 t := by subst e; exact h
theorem DispKeeps.getLater {d : Disp} (e : d = .later t) (h : DispKeeps s0 d) : Keeps s0 t := by subst e; exact h
theorem DispKeeps.getMarked {d : Disp} {m : BitVec 32} (e : d = .marked t m) (h : DispKeeps s0 d) : Keeps s0 t := by
  subst e; exact h
theorem DispKeeps.getJump {d : Disp} {i : Int} (e : d = .jump t i) (h : DispKeeps s0 d) : Keeps s0 t := by
  subst e; exact h

/-- An access of one word that was performed. -/
def AccKeeps {α : Type} (s : State) : Acc1 α → Prop
  | .ok _ t => Keeps s t
  | .wait => True

theorem AccKeeps.ok {α : Type} {x : α} (h : Keeps s0 t) : AccKeeps s0 (.ok x t) := h
theorem AccKeeps.wait {α : Type} : AccKeeps (α := α) s0 .wait := trivial
theorem AccKeeps.get {α : Type} {a : Acc1 α} {x : α} (e : a = .ok x t) (h : AccKeeps s0 a) : Keeps s0 t := by
  subst e; exact h

/-- An operation that may answer a state. -/
def OptKeeps (s : State) : Option State → Prop
  | some t => Keeps s t
  | none => True

theorem OptKeeps.some (h : Keeps s0 t) : OptKeeps s0 (some t) := h
theorem OptKeeps.ite {c : Prop} [Decidable c] {a b : Option State} (h : c → OptKeeps s0 a) (g : ¬ c → OptKeeps s0 b) :
    OptKeeps s0 (if c then a else b) := by split <;> simp_all
theorem OptKeeps.none : OptKeeps s0 none := trivial
theorem OptKeeps.get {a : Option State} (e : a = .some t) (h : OptKeeps s0 a) : Keeps s0 t := by subst e; exact h

/-- An operation that may answer a value and a state. -/
def OptSndKeeps {α : Type} (s : State) : Option (α × State) → Prop
  | some p => Keeps s p.2
  | none => True

theorem OptSndKeeps.some {α : Type} {x : α × State} (h : Keeps s0 x.2) : OptSndKeeps s0 (some x) := h
theorem OptSndKeeps.none {α : Type} : OptSndKeeps (α := α) s0 none := trivial
theorem OptSndKeeps.get {α : Type} {a : Option (α × State)} {x : α} (e : a = .some (x, t)) (h : OptSndKeeps s0 a) :
    Keeps s0 t := by subst e; exact h

/-- An access for an instruction, whatever it answers. -/
def PerfKeeps {α : Type} (s : State) : Perf α → Prop
  | .ok _ t => Keeps s t
  | .wait t => Keeps s t
  | .refused t => Keeps s t

theorem PerfKeeps.ok {α : Type} {x : α} (h : Keeps s0 t) : PerfKeeps s0 (.ok x t) := h
theorem PerfKeeps.wait {α : Type} (h : Keeps s0 t) : PerfKeeps (α := α) s0 (.wait t) := h
theorem PerfKeeps.refused {α : Type} (h : Keeps s0 t) : PerfKeeps (α := α) s0 (.refused t) := h
theorem PerfKeeps.getOk {α : Type} {a : Perf α} {x : α} (e : a = .ok x t) (h : PerfKeeps s0 a) : Keeps s0 t := by
  subst e; exact h
theorem PerfKeeps.getWait {α : Type} {a : Perf α} (e : a = .wait t) (h : PerfKeeps s0 a) : Keeps s0 t := by
  subst e; exact h
theorem PerfKeeps.getRefused {α : Type} {a : Perf α} (e : a = .refused t) (h : PerfKeeps s0 a) : Keeps s0 t := by
  subst e; exact h
theorem PerfKeeps.getOkFst {α β : Type} {a : Perf α × β} {x : α} {y : β} (e : a = (.ok x t, y))
    (h : PerfKeeps s0 a.1) : Keeps s0 t := by subst e; exact h
theorem PerfKeeps.getWaitFst {α β : Type} {a : Perf α × β} {y : β} (e : a = (.wait t, y))
    (h : PerfKeeps s0 a.1) : Keeps s0 t := by subst e; exact h
theorem PerfKeeps.getRefusedFst {α β : Type} {a : Perf α × β} {y : β} (e : a = (.refused t, y))
    (h : PerfKeeps s0 a.1) : Keeps s0 t := by subst e; exact h

/-- A Foreman's access, whatever it answers. -/
def FmResKeeps (s : State) : FmRes → Prop
  | .ok t => Keeps s t
  | .wait _ t => Keeps s t
  | .failed t => Keeps s t

theorem FmResKeeps.ok (h : Keeps s0 t) : FmResKeeps s0 (.ok t) := h
theorem FmResKeeps.wait {f : FmAccess} (h : Keeps s0 t) : FmResKeeps s0 (.wait f t) := h
theorem FmResKeeps.failed (h : Keeps s0 t) : FmResKeeps s0 (.failed t) := h
theorem FmResKeeps.getOk {a : FmRes} (e : a = .ok t) (h : FmResKeeps s0 a) : Keeps s0 t := by subst e; exact h
theorem FmResKeeps.getWait {a : FmRes} {f : FmAccess} (e : a = .wait f t) (h : FmResKeeps s0 a) : Keeps s0 t := by
  subst e; exact h
theorem FmResKeeps.getFailed {a : FmRes} (e : a = .failed t) (h : FmResKeeps s0 a) : Keeps s0 t := by
  subst e; exact h

end Sys2Proof.Machine
end

