-- ==== Sys2Proof/Laws/State.lean ====
section
/-!
SUPPORT. The small lemmas of the state: what each update leaves alone, field by field, and what reading gives back after it.
-/

namespace Sys2Proof.Machine

/-! ## setBench -/

@[simp] theorem State.setBench_pending (s : State) (b : Bid) (x : Bench) : (s.setBench b x).pending = s.pending := rfl
@[simp] theorem State.setBench_regs (s : State) (b : Bid) (x : Bench) : (s.setBench b x).regs = s.regs := rfl
@[simp] theorem State.setBench_mem (s : State) (b : Bid) (x : Bench) : (s.setBench b x).mem = s.mem := rfl
@[simp] theorem State.setBench_marks (s : State) (b : Bid) (x : Bench) : (s.setBench b x).marks = s.marks := rfl
@[simp] theorem State.setBench_steps (s : State) (b : Bid) (x : Bench) : (s.setBench b x).steps = s.steps := rfl
@[simp] theorem State.setBench_bars (s : State) (b : Bid) (x : Bench) : (s.setBench b x).bars = s.bars := rfl
@[simp] theorem State.setBench_loads (s : State) (b : Bid) (x : Bench) : (s.setBench b x).loads = s.loads := rfl
@[simp] theorem State.setBench_plumbs (s : State) (b : Bid) (x : Bench) : (s.setBench b x).plumbs = s.plumbs := rfl
@[simp] theorem State.setBench_bulk (s : State) (b : Bid) (x : Bench) : (s.setBench b x).bulk = s.bulk := rfl
@[simp] theorem State.setBench_fab (s : State) (b : Bid) (x : Bench) : (s.setBench b x).fab = s.fab := rfl
@[simp] theorem State.setBench_host (s : State) (b : Bid) (x : Bench) : (s.setBench b x).host = s.host := rfl
@[simp] theorem State.setBench_errs (s : State) (b : Bid) (x : Bench) : (s.setBench b x).errs = s.errs := rfl
@[simp] theorem State.setBench_health (s : State) (b : Bid) (x : Bench) : (s.setBench b x).health = s.health := rfl
@[simp] theorem State.setBench_pwr (s : State) (b : Bid) (x : Bench) : (s.setBench b x).pwr = s.pwr := rfl
@[simp] theorem State.setBench_mgmt (s : State) (b : Bid) (x : Bench) : (s.setBench b x).mgmt = s.mgmt := rfl
@[simp] theorem State.setBench_turn (s : State) (b : Bid) (x : Bench) : (s.setBench b x).turn = s.turn := rfl
@[simp] theorem State.setBench_freeCtr (s : State) (b : Bid) (x : Bench) : (s.setBench b x).freeCtr = s.freeCtr := rfl

/-! ## onBench -/

@[simp] theorem State.onBench_pending (s : State) (b : Bid) (f : Bench → Bench) : (s.onBench b f).pending = s.pending := rfl
@[simp] theorem State.onBench_regs (s : State) (b : Bid) (f : Bench → Bench) : (s.onBench b f).regs = s.regs := rfl
@[simp] theorem State.onBench_mem (s : State) (b : Bid) (f : Bench → Bench) : (s.onBench b f).mem = s.mem := rfl
@[simp] theorem State.onBench_marks (s : State) (b : Bid) (f : Bench → Bench) : (s.onBench b f).marks = s.marks := rfl
@[simp] theorem State.onBench_steps (s : State) (b : Bid) (f : Bench → Bench) : (s.onBench b f).steps = s.steps := rfl
@[simp] theorem State.onBench_bars (s : State) (b : Bid) (f : Bench → Bench) : (s.onBench b f).bars = s.bars := rfl
@[simp] theorem State.onBench_loads (s : State) (b : Bid) (f : Bench → Bench) : (s.onBench b f).loads = s.loads := rfl
@[simp] theorem State.onBench_plumbs (s : State) (b : Bid) (f : Bench → Bench) : (s.onBench b f).plumbs = s.plumbs := rfl
@[simp] theorem State.onBench_bulk (s : State) (b : Bid) (f : Bench → Bench) : (s.onBench b f).bulk = s.bulk := rfl
@[simp] theorem State.onBench_fab (s : State) (b : Bid) (f : Bench → Bench) : (s.onBench b f).fab = s.fab := rfl
@[simp] theorem State.onBench_host (s : State) (b : Bid) (f : Bench → Bench) : (s.onBench b f).host = s.host := rfl
@[simp] theorem State.onBench_errs (s : State) (b : Bid) (f : Bench → Bench) : (s.onBench b f).errs = s.errs := rfl
@[simp] theorem State.onBench_health (s : State) (b : Bid) (f : Bench → Bench) : (s.onBench b f).health = s.health := rfl
@[simp] theorem State.onBench_pwr (s : State) (b : Bid) (f : Bench → Bench) : (s.onBench b f).pwr = s.pwr := rfl
@[simp] theorem State.onBench_mgmt (s : State) (b : Bid) (f : Bench → Bench) : (s.onBench b f).mgmt = s.mgmt := rfl
@[simp] theorem State.onBench_turn (s : State) (b : Bid) (f : Bench → Bench) : (s.onBench b f).turn = s.turn := rfl
@[simp] theorem State.onBench_freeCtr (s : State) (b : Bid) (f : Bench → Bench) : (s.onBench b f).freeCtr = s.freeCtr := rfl

/-! ## onFm -/

@[simp] theorem State.onFm_pending (s : State) (b : Bid) (f : Foreman → Foreman) : (s.onFm b f).pending = s.pending := rfl
@[simp] theorem State.onFm_regs (s : State) (b : Bid) (f : Foreman → Foreman) : (s.onFm b f).regs = s.regs := rfl
@[simp] theorem State.onFm_mem (s : State) (b : Bid) (f : Foreman → Foreman) : (s.onFm b f).mem = s.mem := rfl
@[simp] theorem State.onFm_marks (s : State) (b : Bid) (f : Foreman → Foreman) : (s.onFm b f).marks = s.marks := rfl
@[simp] theorem State.onFm_steps (s : State) (b : Bid) (f : Foreman → Foreman) : (s.onFm b f).steps = s.steps := rfl
@[simp] theorem State.onFm_bars (s : State) (b : Bid) (f : Foreman → Foreman) : (s.onFm b f).bars = s.bars := rfl
@[simp] theorem State.onFm_loads (s : State) (b : Bid) (f : Foreman → Foreman) : (s.onFm b f).loads = s.loads := rfl
@[simp] theorem State.onFm_plumbs (s : State) (b : Bid) (f : Foreman → Foreman) : (s.onFm b f).plumbs = s.plumbs := rfl
@[simp] theorem State.onFm_bulk (s : State) (b : Bid) (f : Foreman → Foreman) : (s.onFm b f).bulk = s.bulk := rfl
@[simp] theorem State.onFm_fab (s : State) (b : Bid) (f : Foreman → Foreman) : (s.onFm b f).fab = s.fab := rfl
@[simp] theorem State.onFm_host (s : State) (b : Bid) (f : Foreman → Foreman) : (s.onFm b f).host = s.host := rfl
@[simp] theorem State.onFm_errs (s : State) (b : Bid) (f : Foreman → Foreman) : (s.onFm b f).errs = s.errs := rfl
@[simp] theorem State.onFm_health (s : State) (b : Bid) (f : Foreman → Foreman) : (s.onFm b f).health = s.health := rfl
@[simp] theorem State.onFm_pwr (s : State) (b : Bid) (f : Foreman → Foreman) : (s.onFm b f).pwr = s.pwr := rfl
@[simp] theorem State.onFm_mgmt (s : State) (b : Bid) (f : Foreman → Foreman) : (s.onFm b f).mgmt = s.mgmt := rfl
@[simp] theorem State.onFm_turn (s : State) (b : Bid) (f : Foreman → Foreman) : (s.onFm b f).turn = s.turn := rfl
@[simp] theorem State.onFm_freeCtr (s : State) (b : Bid) (f : Foreman → Foreman) : (s.onFm b f).freeCtr = s.freeCtr := rfl

/-! ## onWgh -/

@[simp] theorem State.onWgh_pending (s : State) (b : Bid) (f : Weighbridge → Weighbridge) : (s.onWgh b f).pending = s.pending := rfl
@[simp] theorem State.onWgh_regs (s : State) (b : Bid) (f : Weighbridge → Weighbridge) : (s.onWgh b f).regs = s.regs := rfl
@[simp] theorem State.onWgh_mem (s : State) (b : Bid) (f : Weighbridge → Weighbridge) : (s.onWgh b f).mem = s.mem := rfl
@[simp] theorem State.onWgh_marks (s : State) (b : Bid) (f : Weighbridge → Weighbridge) : (s.onWgh b f).marks = s.marks := rfl
@[simp] theorem State.onWgh_steps (s : State) (b : Bid) (f : Weighbridge → Weighbridge) : (s.onWgh b f).steps = s.steps := rfl
@[simp] theorem State.onWgh_bars (s : State) (b : Bid) (f : Weighbridge → Weighbridge) : (s.onWgh b f).bars = s.bars := rfl
@[simp] theorem State.onWgh_loads (s : State) (b : Bid) (f : Weighbridge → Weighbridge) : (s.onWgh b f).loads = s.loads := rfl
@[simp] theorem State.onWgh_plumbs (s : State) (b : Bid) (f : Weighbridge → Weighbridge) : (s.onWgh b f).plumbs = s.plumbs := rfl
@[simp] theorem State.onWgh_bulk (s : State) (b : Bid) (f : Weighbridge → Weighbridge) : (s.onWgh b f).bulk = s.bulk := rfl
@[simp] theorem State.onWgh_fab (s : State) (b : Bid) (f : Weighbridge → Weighbridge) : (s.onWgh b f).fab = s.fab := rfl
@[simp] theorem State.onWgh_host (s : State) (b : Bid) (f : Weighbridge → Weighbridge) : (s.onWgh b f).host = s.host := rfl
@[simp] theorem State.onWgh_errs (s : State) (b : Bid) (f : Weighbridge → Weighbridge) : (s.onWgh b f).errs = s.errs := rfl
@[simp] theorem State.onWgh_health (s : State) (b : Bid) (f : Weighbridge → Weighbridge) : (s.onWgh b f).health = s.health := rfl
@[simp] theorem State.onWgh_pwr (s : State) (b : Bid) (f : Weighbridge → Weighbridge) : (s.onWgh b f).pwr = s.pwr := rfl
@[simp] theorem State.onWgh_mgmt (s : State) (b : Bid) (f : Weighbridge → Weighbridge) : (s.onWgh b f).mgmt = s.mgmt := rfl
@[simp] theorem State.onWgh_turn (s : State) (b : Bid) (f : Weighbridge → Weighbridge) : (s.onWgh b f).turn = s.turn := rfl
@[simp] theorem State.onWgh_freeCtr (s : State) (b : Bid) (f : Weighbridge → Weighbridge) : (s.onWgh b f).freeCtr = s.freeCtr := rfl

/-! ## setArr -/

@[simp] theorem State.setArr_pending (s : State) (b : Bid) (u : Fin 12) (a : ArrayUnit) : (s.setArr b u a).pending = s.pending := rfl
@[simp] theorem State.setArr_regs (s : State) (b : Bid) (u : Fin 12) (a : ArrayUnit) : (s.setArr b u a).regs = s.regs := rfl
@[simp] theorem State.setArr_mem (s : State) (b : Bid) (u : Fin 12) (a : ArrayUnit) : (s.setArr b u a).mem = s.mem := rfl
@[simp] theorem State.setArr_marks (s : State) (b : Bid) (u : Fin 12) (a : ArrayUnit) : (s.setArr b u a).marks = s.marks := rfl
@[simp] theorem State.setArr_steps (s : State) (b : Bid) (u : Fin 12) (a : ArrayUnit) : (s.setArr b u a).steps = s.steps := rfl
@[simp] theorem State.setArr_bars (s : State) (b : Bid) (u : Fin 12) (a : ArrayUnit) : (s.setArr b u a).bars = s.bars := rfl
@[simp] theorem State.setArr_loads (s : State) (b : Bid) (u : Fin 12) (a : ArrayUnit) : (s.setArr b u a).loads = s.loads := rfl
@[simp] theorem State.setArr_plumbs (s : State) (b : Bid) (u : Fin 12) (a : ArrayUnit) : (s.setArr b u a).plumbs = s.plumbs := rfl
@[simp] theorem State.setArr_bulk (s : State) (b : Bid) (u : Fin 12) (a : ArrayUnit) : (s.setArr b u a).bulk = s.bulk := rfl
@[simp] theorem State.setArr_fab (s : State) (b : Bid) (u : Fin 12) (a : ArrayUnit) : (s.setArr b u a).fab = s.fab := rfl
@[simp] theorem State.setArr_host (s : State) (b : Bid) (u : Fin 12) (a : ArrayUnit) : (s.setArr b u a).host = s.host := rfl
@[simp] theorem State.setArr_errs (s : State) (b : Bid) (u : Fin 12) (a : ArrayUnit) : (s.setArr b u a).errs = s.errs := rfl
@[simp] theorem State.setArr_health (s : State) (b : Bid) (u : Fin 12) (a : ArrayUnit) : (s.setArr b u a).health = s.health := rfl
@[simp] theorem State.setArr_pwr (s : State) (b : Bid) (u : Fin 12) (a : ArrayUnit) : (s.setArr b u a).pwr = s.pwr := rfl
@[simp] theorem State.setArr_mgmt (s : State) (b : Bid) (u : Fin 12) (a : ArrayUnit) : (s.setArr b u a).mgmt = s.mgmt := rfl
@[simp] theorem State.setArr_turn (s : State) (b : Bid) (u : Fin 12) (a : ArrayUnit) : (s.setArr b u a).turn = s.turn := rfl
@[simp] theorem State.setArr_freeCtr (s : State) (b : Bid) (u : Fin 12) (a : ArrayUnit) : (s.setArr b u a).freeCtr = s.freeCtr := rfl

/-! ## setQueue -/

@[simp] theorem State.setQueue_pending (s : State) (b : Bid) (q : Fin 8) (l : List QItem) : (s.setQueue b q l).pending = s.pending := rfl
@[simp] theorem State.setQueue_regs (s : State) (b : Bid) (q : Fin 8) (l : List QItem) : (s.setQueue b q l).regs = s.regs := rfl
@[simp] theorem State.setQueue_mem (s : State) (b : Bid) (q : Fin 8) (l : List QItem) : (s.setQueue b q l).mem = s.mem := rfl
@[simp] theorem State.setQueue_marks (s : State) (b : Bid) (q : Fin 8) (l : List QItem) : (s.setQueue b q l).marks = s.marks := rfl
@[simp] theorem State.setQueue_steps (s : State) (b : Bid) (q : Fin 8) (l : List QItem) : (s.setQueue b q l).steps = s.steps := rfl
@[simp] theorem State.setQueue_bars (s : State) (b : Bid) (q : Fin 8) (l : List QItem) : (s.setQueue b q l).bars = s.bars := rfl
@[simp] theorem State.setQueue_loads (s : State) (b : Bid) (q : Fin 8) (l : List QItem) : (s.setQueue b q l).loads = s.loads := rfl
@[simp] theorem State.setQueue_plumbs (s : State) (b : Bid) (q : Fin 8) (l : List QItem) : (s.setQueue b q l).plumbs = s.plumbs := rfl
@[simp] theorem State.setQueue_bulk (s : State) (b : Bid) (q : Fin 8) (l : List QItem) : (s.setQueue b q l).bulk = s.bulk := rfl
@[simp] theorem State.setQueue_fab (s : State) (b : Bid) (q : Fin 8) (l : List QItem) : (s.setQueue b q l).fab = s.fab := rfl
@[simp] theorem State.setQueue_host (s : State) (b : Bid) (q : Fin 8) (l : List QItem) : (s.setQueue b q l).host = s.host := rfl
@[simp] theorem State.setQueue_errs (s : State) (b : Bid) (q : Fin 8) (l : List QItem) : (s.setQueue b q l).errs = s.errs := rfl
@[simp] theorem State.setQueue_health (s : State) (b : Bid) (q : Fin 8) (l : List QItem) : (s.setQueue b q l).health = s.health := rfl
@[simp] theorem State.setQueue_pwr (s : State) (b : Bid) (q : Fin 8) (l : List QItem) : (s.setQueue b q l).pwr = s.pwr := rfl
@[simp] theorem State.setQueue_mgmt (s : State) (b : Bid) (q : Fin 8) (l : List QItem) : (s.setQueue b q l).mgmt = s.mgmt := rfl
@[simp] theorem State.setQueue_turn (s : State) (b : Bid) (q : Fin 8) (l : List QItem) : (s.setQueue b q l).turn = s.turn := rfl
@[simp] theorem State.setQueue_freeCtr (s : State) (b : Bid) (q : Fin 8) (l : List QItem) : (s.setQueue b q l).freeCtr = s.freeCtr := rfl

/-! ## onCtl -/

@[simp] theorem State.onCtl_pending (s : State) (p : Part) (f : StepCtl → StepCtl) : (s.onCtl p f).pending = s.pending := rfl
@[simp] theorem State.onCtl_regs (s : State) (p : Part) (f : StepCtl → StepCtl) : (s.onCtl p f).regs = s.regs := rfl
@[simp] theorem State.onCtl_mem (s : State) (p : Part) (f : StepCtl → StepCtl) : (s.onCtl p f).mem = s.mem := rfl
@[simp] theorem State.onCtl_marks (s : State) (p : Part) (f : StepCtl → StepCtl) : (s.onCtl p f).marks = s.marks := rfl
@[simp] theorem State.onCtl_benches (s : State) (p : Part) (f : StepCtl → StepCtl) : (s.onCtl p f).benches = s.benches := rfl
@[simp] theorem State.onCtl_bars (s : State) (p : Part) (f : StepCtl → StepCtl) : (s.onCtl p f).bars = s.bars := rfl
@[simp] theorem State.onCtl_loads (s : State) (p : Part) (f : StepCtl → StepCtl) : (s.onCtl p f).loads = s.loads := rfl
@[simp] theorem State.onCtl_plumbs (s : State) (p : Part) (f : StepCtl → StepCtl) : (s.onCtl p f).plumbs = s.plumbs := rfl
@[simp] theorem State.onCtl_bulk (s : State) (p : Part) (f : StepCtl → StepCtl) : (s.onCtl p f).bulk = s.bulk := rfl
@[simp] theorem State.onCtl_fab (s : State) (p : Part) (f : StepCtl → StepCtl) : (s.onCtl p f).fab = s.fab := rfl
@[simp] theorem State.onCtl_host (s : State) (p : Part) (f : StepCtl → StepCtl) : (s.onCtl p f).host = s.host := rfl
@[simp] theorem State.onCtl_errs (s : State) (p : Part) (f : StepCtl → StepCtl) : (s.onCtl p f).errs = s.errs := rfl
@[simp] theorem State.onCtl_health (s : State) (p : Part) (f : StepCtl → StepCtl) : (s.onCtl p f).health = s.health := rfl
@[simp] theorem State.onCtl_pwr (s : State) (p : Part) (f : StepCtl → StepCtl) : (s.onCtl p f).pwr = s.pwr := rfl
@[simp] theorem State.onCtl_mgmt (s : State) (p : Part) (f : StepCtl → StepCtl) : (s.onCtl p f).mgmt = s.mgmt := rfl
@[simp] theorem State.onCtl_turn (s : State) (p : Part) (f : StepCtl → StepCtl) : (s.onCtl p f).turn = s.turn := rfl
@[simp] theorem State.onCtl_freeCtr (s : State) (p : Part) (f : StepCtl → StepCtl) : (s.onCtl p f).freeCtr = s.freeCtr := rfl

/-! ## onBar -/

@[simp] theorem State.onBar_pending (s : State) (p : Part) (f : Barrier → Barrier) : (s.onBar p f).pending = s.pending := rfl
@[simp] theorem State.onBar_regs (s : State) (p : Part) (f : Barrier → Barrier) : (s.onBar p f).regs = s.regs := rfl
@[simp] theorem State.onBar_mem (s : State) (p : Part) (f : Barrier → Barrier) : (s.onBar p f).mem = s.mem := rfl
@[simp] theorem State.onBar_marks (s : State) (p : Part) (f : Barrier → Barrier) : (s.onBar p f).marks = s.marks := rfl
@[simp] theorem State.onBar_benches (s : State) (p : Part) (f : Barrier → Barrier) : (s.onBar p f).benches = s.benches := rfl
@[simp] theorem State.onBar_steps (s : State) (p : Part) (f : Barrier → Barrier) : (s.onBar p f).steps = s.steps := rfl
@[simp] theorem State.onBar_loads (s : State) (p : Part) (f : Barrier → Barrier) : (s.onBar p f).loads = s.loads := rfl
@[simp] theorem State.onBar_plumbs (s : State) (p : Part) (f : Barrier → Barrier) : (s.onBar p f).plumbs = s.plumbs := rfl
@[simp] theorem State.onBar_bulk (s : State) (p : Part) (f : Barrier → Barrier) : (s.onBar p f).bulk = s.bulk := rfl
@[simp] theorem State.onBar_fab (s : State) (p : Part) (f : Barrier → Barrier) : (s.onBar p f).fab = s.fab := rfl
@[simp] theorem State.onBar_host (s : State) (p : Part) (f : Barrier → Barrier) : (s.onBar p f).host = s.host := rfl
@[simp] theorem State.onBar_errs (s : State) (p : Part) (f : Barrier → Barrier) : (s.onBar p f).errs = s.errs := rfl
@[simp] theorem State.onBar_health (s : State) (p : Part) (f : Barrier → Barrier) : (s.onBar p f).health = s.health := rfl
@[simp] theorem State.onBar_pwr (s : State) (p : Part) (f : Barrier → Barrier) : (s.onBar p f).pwr = s.pwr := rfl
@[simp] theorem State.onBar_mgmt (s : State) (p : Part) (f : Barrier → Barrier) : (s.onBar p f).mgmt = s.mgmt := rfl
@[simp] theorem State.onBar_turn (s : State) (p : Part) (f : Barrier → Barrier) : (s.onBar p f).turn = s.turn := rfl
@[simp] theorem State.onBar_freeCtr (s : State) (p : Part) (f : Barrier → Barrier) : (s.onBar p f).freeCtr = s.freeCtr := rfl

/-! ## onPlumb -/

@[simp] theorem State.onPlumb_pending (s : State) (p : Part) (f : Plumb → Plumb) : (s.onPlumb p f).pending = s.pending := rfl
@[simp] theorem State.onPlumb_regs (s : State) (p : Part) (f : Plumb → Plumb) : (s.onPlumb p f).regs = s.regs := rfl
@[simp] theorem State.onPlumb_mem (s : State) (p : Part) (f : Plumb → Plumb) : (s.onPlumb p f).mem = s.mem := rfl
@[simp] theorem State.onPlumb_marks (s : State) (p : Part) (f : Plumb → Plumb) : (s.onPlumb p f).marks = s.marks := rfl
@[simp] theorem State.onPlumb_benches (s : State) (p : Part) (f : Plumb → Plumb) : (s.onPlumb p f).benches = s.benches := rfl
@[simp] theorem State.onPlumb_steps (s : State) (p : Part) (f : Plumb → Plumb) : (s.onPlumb p f).steps = s.steps := rfl
@[simp] theorem State.onPlumb_bars (s : State) (p : Part) (f : Plumb → Plumb) : (s.onPlumb p f).bars = s.bars := rfl
@[simp] theorem State.onPlumb_loads (s : State) (p : Part) (f : Plumb → Plumb) : (s.onPlumb p f).loads = s.loads := rfl
@[simp] theorem State.onPlumb_bulk (s : State) (p : Part) (f : Plumb → Plumb) : (s.onPlumb p f).bulk = s.bulk := rfl
@[simp] theorem State.onPlumb_fab (s : State) (p : Part) (f : Plumb → Plumb) : (s.onPlumb p f).fab = s.fab := rfl
@[simp] theorem State.onPlumb_host (s : State) (p : Part) (f : Plumb → Plumb) : (s.onPlumb p f).host = s.host := rfl
@[simp] theorem State.onPlumb_errs (s : State) (p : Part) (f : Plumb → Plumb) : (s.onPlumb p f).errs = s.errs := rfl
@[simp] theorem State.onPlumb_health (s : State) (p : Part) (f : Plumb → Plumb) : (s.onPlumb p f).health = s.health := rfl
@[simp] theorem State.onPlumb_pwr (s : State) (p : Part) (f : Plumb → Plumb) : (s.onPlumb p f).pwr = s.pwr := rfl
@[simp] theorem State.onPlumb_mgmt (s : State) (p : Part) (f : Plumb → Plumb) : (s.onPlumb p f).mgmt = s.mgmt := rfl
@[simp] theorem State.onPlumb_turn (s : State) (p : Part) (f : Plumb → Plumb) : (s.onPlumb p f).turn = s.turn := rfl
@[simp] theorem State.onPlumb_freeCtr (s : State) (p : Part) (f : Plumb → Plumb) : (s.onPlumb p f).freeCtr = s.freeCtr := rfl

/-! ## onPort -/

@[simp] theorem State.onPort_pending (s : State) (n : PortNo) (f : PortSt → PortSt) : (s.onPort n f).pending = s.pending := rfl
@[simp] theorem State.onPort_regs (s : State) (n : PortNo) (f : PortSt → PortSt) : (s.onPort n f).regs = s.regs := rfl
@[simp] theorem State.onPort_mem (s : State) (n : PortNo) (f : PortSt → PortSt) : (s.onPort n f).mem = s.mem := rfl
@[simp] theorem State.onPort_marks (s : State) (n : PortNo) (f : PortSt → PortSt) : (s.onPort n f).marks = s.marks := rfl
@[simp] theorem State.onPort_benches (s : State) (n : PortNo) (f : PortSt → PortSt) : (s.onPort n f).benches = s.benches := rfl
@[simp] theorem State.onPort_steps (s : State) (n : PortNo) (f : PortSt → PortSt) : (s.onPort n f).steps = s.steps := rfl
@[simp] theorem State.onPort_bars (s : State) (n : PortNo) (f : PortSt → PortSt) : (s.onPort n f).bars = s.bars := rfl
@[simp] theorem State.onPort_loads (s : State) (n : PortNo) (f : PortSt → PortSt) : (s.onPort n f).loads = s.loads := rfl
@[simp] theorem State.onPort_plumbs (s : State) (n : PortNo) (f : PortSt → PortSt) : (s.onPort n f).plumbs = s.plumbs := rfl
@[simp] theorem State.onPort_bulk (s : State) (n : PortNo) (f : PortSt → PortSt) : (s.onPort n f).bulk = s.bulk := rfl
@[simp] theorem State.onPort_host (s : State) (n : PortNo) (f : PortSt → PortSt) : (s.onPort n f).host = s.host := rfl
@[simp] theorem State.onPort_errs (s : State) (n : PortNo) (f : PortSt → PortSt) : (s.onPort n f).errs = s.errs := rfl
@[simp] theorem State.onPort_health (s : State) (n : PortNo) (f : PortSt → PortSt) : (s.onPort n f).health = s.health := rfl
@[simp] theorem State.onPort_pwr (s : State) (n : PortNo) (f : PortSt → PortSt) : (s.onPort n f).pwr = s.pwr := rfl
@[simp] theorem State.onPort_mgmt (s : State) (n : PortNo) (f : PortSt → PortSt) : (s.onPort n f).mgmt = s.mgmt := rfl
@[simp] theorem State.onPort_turn (s : State) (n : PortNo) (f : PortSt → PortSt) : (s.onPort n f).turn = s.turn := rfl
@[simp] theorem State.onPort_freeCtr (s : State) (n : PortNo) (f : PortSt → PortSt) : (s.onPort n f).freeCtr = s.freeCtr := rfl

/-! ## onHport -/

@[simp] theorem State.onHport_pending (s : State) (p : Part) (f : HostPort → HostPort) : (s.onHport p f).pending = s.pending := rfl
@[simp] theorem State.onHport_regs (s : State) (p : Part) (f : HostPort → HostPort) : (s.onHport p f).regs = s.regs := rfl
@[simp] theorem State.onHport_mem (s : State) (p : Part) (f : HostPort → HostPort) : (s.onHport p f).mem = s.mem := rfl
@[simp] theorem State.onHport_marks (s : State) (p : Part) (f : HostPort → HostPort) : (s.onHport p f).marks = s.marks := rfl
@[simp] theorem State.onHport_benches (s : State) (p : Part) (f : HostPort → HostPort) : (s.onHport p f).benches = s.benches := rfl
@[simp] theorem State.onHport_steps (s : State) (p : Part) (f : HostPort → HostPort) : (s.onHport p f).steps = s.steps := rfl
@[simp] theorem State.onHport_bars (s : State) (p : Part) (f : HostPort → HostPort) : (s.onHport p f).bars = s.bars := rfl
@[simp] theorem State.onHport_loads (s : State) (p : Part) (f : HostPort → HostPort) : (s.onHport p f).loads = s.loads := rfl
@[simp] theorem State.onHport_plumbs (s : State) (p : Part) (f : HostPort → HostPort) : (s.onHport p f).plumbs = s.plumbs := rfl
@[simp] theorem State.onHport_bulk (s : State) (p : Part) (f : HostPort → HostPort) : (s.onHport p f).bulk = s.bulk := rfl
@[simp] theorem State.onHport_fab (s : State) (p : Part) (f : HostPort → HostPort) : (s.onHport p f).fab = s.fab := rfl
@[simp] theorem State.onHport_errs (s : State) (p : Part) (f : HostPort → HostPort) : (s.onHport p f).errs = s.errs := rfl
@[simp] theorem State.onHport_health (s : State) (p : Part) (f : HostPort → HostPort) : (s.onHport p f).health = s.health := rfl
@[simp] theorem State.onHport_pwr (s : State) (p : Part) (f : HostPort → HostPort) : (s.onHport p f).pwr = s.pwr := rfl
@[simp] theorem State.onHport_mgmt (s : State) (p : Part) (f : HostPort → HostPort) : (s.onHport p f).mgmt = s.mgmt := rfl
@[simp] theorem State.onHport_turn (s : State) (p : Part) (f : HostPort → HostPort) : (s.onHport p f).turn = s.turn := rfl
@[simp] theorem State.onHport_freeCtr (s : State) (p : Part) (f : HostPort → HostPort) : (s.onHport p f).freeCtr = s.freeCtr := rfl

/-! ## setHq -/

@[simp] theorem State.setHq_pending (s : State) (q : Nat) (x : QState) : (s.setHq q x).pending = s.pending := rfl
@[simp] theorem State.setHq_regs (s : State) (q : Nat) (x : QState) : (s.setHq q x).regs = s.regs := rfl
@[simp] theorem State.setHq_mem (s : State) (q : Nat) (x : QState) : (s.setHq q x).mem = s.mem := rfl
@[simp] theorem State.setHq_marks (s : State) (q : Nat) (x : QState) : (s.setHq q x).marks = s.marks := rfl
@[simp] theorem State.setHq_benches (s : State) (q : Nat) (x : QState) : (s.setHq q x).benches = s.benches := rfl
@[simp] theorem State.setHq_steps (s : State) (q : Nat) (x : QState) : (s.setHq q x).steps = s.steps := rfl
@[simp] theorem State.setHq_bars (s : State) (q : Nat) (x : QState) : (s.setHq q x).bars = s.bars := rfl
@[simp] theorem State.setHq_loads (s : State) (q : Nat) (x : QState) : (s.setHq q x).loads = s.loads := rfl
@[simp] theorem State.setHq_plumbs (s : State) (q : Nat) (x : QState) : (s.setHq q x).plumbs = s.plumbs := rfl
@[simp] theorem State.setHq_bulk (s : State) (q : Nat) (x : QState) : (s.setHq q x).bulk = s.bulk := rfl
@[simp] theorem State.setHq_fab (s : State) (q : Nat) (x : QState) : (s.setHq q x).fab = s.fab := rfl
@[simp] theorem State.setHq_errs (s : State) (q : Nat) (x : QState) : (s.setHq q x).errs = s.errs := rfl
@[simp] theorem State.setHq_health (s : State) (q : Nat) (x : QState) : (s.setHq q x).health = s.health := rfl
@[simp] theorem State.setHq_pwr (s : State) (q : Nat) (x : QState) : (s.setHq q x).pwr = s.pwr := rfl
@[simp] theorem State.setHq_mgmt (s : State) (q : Nat) (x : QState) : (s.setHq q x).mgmt = s.mgmt := rfl
@[simp] theorem State.setHq_turn (s : State) (q : Nat) (x : QState) : (s.setHq q x).turn = s.turn := rfl
@[simp] theorem State.setHq_freeCtr (s : State) (q : Nat) (x : QState) : (s.setHq q x).freeCtr = s.freeCtr := rfl

/-! ## onBulk -/

@[simp] theorem State.onBulk_pending (s : State) (f : Bulk → Bulk) : (s.onBulk f).pending = s.pending := rfl
@[simp] theorem State.onBulk_regs (s : State) (f : Bulk → Bulk) : (s.onBulk f).regs = s.regs := rfl
@[simp] theorem State.onBulk_mem (s : State) (f : Bulk → Bulk) : (s.onBulk f).mem = s.mem := rfl
@[simp] theorem State.onBulk_marks (s : State) (f : Bulk → Bulk) : (s.onBulk f).marks = s.marks := rfl
@[simp] theorem State.onBulk_benches (s : State) (f : Bulk → Bulk) : (s.onBulk f).benches = s.benches := rfl
@[simp] theorem State.onBulk_steps (s : State) (f : Bulk → Bulk) : (s.onBulk f).steps = s.steps := rfl
@[simp] theorem State.onBulk_bars (s : State) (f : Bulk → Bulk) : (s.onBulk f).bars = s.bars := rfl
@[simp] theorem State.onBulk_loads (s : State) (f : Bulk → Bulk) : (s.onBulk f).loads = s.loads := rfl
@[simp] theorem State.onBulk_plumbs (s : State) (f : Bulk → Bulk) : (s.onBulk f).plumbs = s.plumbs := rfl
@[simp] theorem State.onBulk_fab (s : State) (f : Bulk → Bulk) : (s.onBulk f).fab = s.fab := rfl
@[simp] theorem State.onBulk_host (s : State) (f : Bulk → Bulk) : (s.onBulk f).host = s.host := rfl
@[simp] theorem State.onBulk_errs (s : State) (f : Bulk → Bulk) : (s.onBulk f).errs = s.errs := rfl
@[simp] theorem State.onBulk_health (s : State) (f : Bulk → Bulk) : (s.onBulk f).health = s.health := rfl
@[simp] theorem State.onBulk_pwr (s : State) (f : Bulk → Bulk) : (s.onBulk f).pwr = s.pwr := rfl
@[simp] theorem State.onBulk_mgmt (s : State) (f : Bulk → Bulk) : (s.onBulk f).mgmt = s.mgmt := rfl
@[simp] theorem State.onBulk_turn (s : State) (f : Bulk → Bulk) : (s.onBulk f).turn = s.turn := rfl
@[simp] theorem State.onBulk_freeCtr (s : State) (f : Bulk → Bulk) : (s.onBulk f).freeCtr = s.freeCtr := rfl

/-! ## onMgmt -/

@[simp] theorem State.onMgmt_pending (s : State) (f : Mgmt → Mgmt) : (s.onMgmt f).pending = s.pending := rfl
@[simp] theorem State.onMgmt_regs (s : State) (f : Mgmt → Mgmt) : (s.onMgmt f).regs = s.regs := rfl
@[simp] theorem State.onMgmt_mem (s : State) (f : Mgmt → Mgmt) : (s.onMgmt f).mem = s.mem := rfl
@[simp] theorem State.onMgmt_marks (s : State) (f : Mgmt → Mgmt) : (s.onMgmt f).marks = s.marks := rfl
@[simp] theorem State.onMgmt_benches (s : State) (f : Mgmt → Mgmt) : (s.onMgmt f).benches = s.benches := rfl
@[simp] theorem State.onMgmt_steps (s : State) (f : Mgmt → Mgmt) : (s.onMgmt f).steps = s.steps := rfl
@[simp] theorem State.onMgmt_bars (s : State) (f : Mgmt → Mgmt) : (s.onMgmt f).bars = s.bars := rfl
@[simp] theorem State.onMgmt_loads (s : State) (f : Mgmt → Mgmt) : (s.onMgmt f).loads = s.loads := rfl
@[simp] theorem State.onMgmt_plumbs (s : State) (f : Mgmt → Mgmt) : (s.onMgmt f).plumbs = s.plumbs := rfl
@[simp] theorem State.onMgmt_fab (s : State) (f : Mgmt → Mgmt) : (s.onMgmt f).fab = s.fab := rfl
@[simp] theorem State.onMgmt_host (s : State) (f : Mgmt → Mgmt) : (s.onMgmt f).host = s.host := rfl
@[simp] theorem State.onMgmt_errs (s : State) (f : Mgmt → Mgmt) : (s.onMgmt f).errs = s.errs := rfl
@[simp] theorem State.onMgmt_health (s : State) (f : Mgmt → Mgmt) : (s.onMgmt f).health = s.health := rfl
@[simp] theorem State.onMgmt_pwr (s : State) (f : Mgmt → Mgmt) : (s.onMgmt f).pwr = s.pwr := rfl
@[simp] theorem State.onMgmt_bulk (s : State) (f : Mgmt → Mgmt) : (s.onMgmt f).bulk = s.bulk := rfl
@[simp] theorem State.onMgmt_turn (s : State) (f : Mgmt → Mgmt) : (s.onMgmt f).turn = s.turn := rfl
@[simp] theorem State.onMgmt_freeCtr (s : State) (f : Mgmt → Mgmt) : (s.onMgmt f).freeCtr = s.freeCtr := rfl

/-! ## onFlash -/

@[simp] theorem State.onFlash_pending (s : State) (f : Flash → Flash) : (s.onFlash f).pending = s.pending := rfl
@[simp] theorem State.onFlash_regs (s : State) (f : Flash → Flash) : (s.onFlash f).regs = s.regs := rfl
@[simp] theorem State.onFlash_mem (s : State) (f : Flash → Flash) : (s.onFlash f).mem = s.mem := rfl
@[simp] theorem State.onFlash_marks (s : State) (f : Flash → Flash) : (s.onFlash f).marks = s.marks := rfl
@[simp] theorem State.onFlash_benches (s : State) (f : Flash → Flash) : (s.onFlash f).benches = s.benches := rfl
@[simp] theorem State.onFlash_steps (s : State) (f : Flash → Flash) : (s.onFlash f).steps = s.steps := rfl
@[simp] theorem State.onFlash_bars (s : State) (f : Flash → Flash) : (s.onFlash f).bars = s.bars := rfl
@[simp] theorem State.onFlash_loads (s : State) (f : Flash → Flash) : (s.onFlash f).loads = s.loads := rfl
@[simp] theorem State.onFlash_plumbs (s : State) (f : Flash → Flash) : (s.onFlash f).plumbs = s.plumbs := rfl
@[simp] theorem State.onFlash_fab (s : State) (f : Flash → Flash) : (s.onFlash f).fab = s.fab := rfl
@[simp] theorem State.onFlash_host (s : State) (f : Flash → Flash) : (s.onFlash f).host = s.host := rfl
@[simp] theorem State.onFlash_errs (s : State) (f : Flash → Flash) : (s.onFlash f).errs = s.errs := rfl
@[simp] theorem State.onFlash_health (s : State) (f : Flash → Flash) : (s.onFlash f).health = s.health := rfl
@[simp] theorem State.onFlash_pwr (s : State) (f : Flash → Flash) : (s.onFlash f).pwr = s.pwr := rfl
@[simp] theorem State.onFlash_bulk (s : State) (f : Flash → Flash) : (s.onFlash f).bulk = s.bulk := rfl
@[simp] theorem State.onFlash_turn (s : State) (f : Flash → Flash) : (s.onFlash f).turn = s.turn := rfl
@[simp] theorem State.onFlash_freeCtr (s : State) (f : Flash → Flash) : (s.onFlash f).freeCtr = s.freeCtr := rfl

/-! ## onStk -/

@[simp] theorem State.onStk_pending (s : State) (k : Fin 8) (f : Stack → Stack) : (s.onStk k f).pending = s.pending := rfl
@[simp] theorem State.onStk_regs (s : State) (k : Fin 8) (f : Stack → Stack) : (s.onStk k f).regs = s.regs := rfl
@[simp] theorem State.onStk_mem (s : State) (k : Fin 8) (f : Stack → Stack) : (s.onStk k f).mem = s.mem := rfl
@[simp] theorem State.onStk_marks (s : State) (k : Fin 8) (f : Stack → Stack) : (s.onStk k f).marks = s.marks := rfl
@[simp] theorem State.onStk_benches (s : State) (k : Fin 8) (f : Stack → Stack) : (s.onStk k f).benches = s.benches := rfl
@[simp] theorem State.onStk_steps (s : State) (k : Fin 8) (f : Stack → Stack) : (s.onStk k f).steps = s.steps := rfl
@[simp] theorem State.onStk_bars (s : State) (k : Fin 8) (f : Stack → Stack) : (s.onStk k f).bars = s.bars := rfl
@[simp] theorem State.onStk_loads (s : State) (k : Fin 8) (f : Stack → Stack) : (s.onStk k f).loads = s.loads := rfl
@[simp] theorem State.onStk_plumbs (s : State) (k : Fin 8) (f : Stack → Stack) : (s.onStk k f).plumbs = s.plumbs := rfl
@[simp] theorem State.onStk_fab (s : State) (k : Fin 8) (f : Stack → Stack) : (s.onStk k f).fab = s.fab := rfl
@[simp] theorem State.onStk_host (s : State) (k : Fin 8) (f : Stack → Stack) : (s.onStk k f).host = s.host := rfl
@[simp] theorem State.onStk_errs (s : State) (k : Fin 8) (f : Stack → Stack) : (s.onStk k f).errs = s.errs := rfl
@[simp] theorem State.onStk_health (s : State) (k : Fin 8) (f : Stack → Stack) : (s.onStk k f).health = s.health := rfl
@[simp] theorem State.onStk_pwr (s : State) (k : Fin 8) (f : Stack → Stack) : (s.onStk k f).pwr = s.pwr := rfl
@[simp] theorem State.onStk_mgmt (s : State) (k : Fin 8) (f : Stack → Stack) : (s.onStk k f).mgmt = s.mgmt := rfl
@[simp] theorem State.onStk_turn (s : State) (k : Fin 8) (f : Stack → Stack) : (s.onStk k f).turn = s.turn := rfl
@[simp] theorem State.onStk_freeCtr (s : State) (k : Fin 8) (f : Stack → Stack) : (s.onStk k f).freeCtr = s.freeCtr := rfl

/-! ## onCow -/

@[simp] theorem State.onCow_pending (s : State) (p : Part) (n : Fin 4) (f : CowSet → CowSet) : (s.onCow p n f).pending = s.pending := rfl
@[simp] theorem State.onCow_regs (s : State) (p : Part) (n : Fin 4) (f : CowSet → CowSet) : (s.onCow p n f).regs = s.regs := rfl
@[simp] theorem State.onCow_mem (s : State) (p : Part) (n : Fin 4) (f : CowSet → CowSet) : (s.onCow p n f).mem = s.mem := rfl
@[simp] theorem State.onCow_marks (s : State) (p : Part) (n : Fin 4) (f : CowSet → CowSet) : (s.onCow p n f).marks = s.marks := rfl
@[simp] theorem State.onCow_benches (s : State) (p : Part) (n : Fin 4) (f : CowSet → CowSet) : (s.onCow p n f).benches = s.benches := rfl
@[simp] theorem State.onCow_steps (s : State) (p : Part) (n : Fin 4) (f : CowSet → CowSet) : (s.onCow p n f).steps = s.steps := rfl
@[simp] theorem State.onCow_bars (s : State) (p : Part) (n : Fin 4) (f : CowSet → CowSet) : (s.onCow p n f).bars = s.bars := rfl
@[simp] theorem State.onCow_loads (s : State) (p : Part) (n : Fin 4) (f : CowSet → CowSet) : (s.onCow p n f).loads = s.loads := rfl
@[simp] theorem State.onCow_plumbs (s : State) (p : Part) (n : Fin 4) (f : CowSet → CowSet) : (s.onCow p n f).plumbs = s.plumbs := rfl
@[simp] theorem State.onCow_fab (s : State) (p : Part) (n : Fin 4) (f : CowSet → CowSet) : (s.onCow p n f).fab = s.fab := rfl
@[simp] theorem State.onCow_host (s : State) (p : Part) (n : Fin 4) (f : CowSet → CowSet) : (s.onCow p n f).host = s.host := rfl
@[simp] theorem State.onCow_errs (s : State) (p : Part) (n : Fin 4) (f : CowSet → CowSet) : (s.onCow p n f).errs = s.errs := rfl
@[simp] theorem State.onCow_health (s : State) (p : Part) (n : Fin 4) (f : CowSet → CowSet) : (s.onCow p n f).health = s.health := rfl
@[simp] theorem State.onCow_pwr (s : State) (p : Part) (n : Fin 4) (f : CowSet → CowSet) : (s.onCow p n f).pwr = s.pwr := rfl
@[simp] theorem State.onCow_mgmt (s : State) (p : Part) (n : Fin 4) (f : CowSet → CowSet) : (s.onCow p n f).mgmt = s.mgmt := rfl
@[simp] theorem State.onCow_turn (s : State) (p : Part) (n : Fin 4) (f : CowSet → CowSet) : (s.onCow p n f).turn = s.turn := rfl
@[simp] theorem State.onCow_freeCtr (s : State) (p : Part) (n : Fin 4) (f : CowSet → CowSet) : (s.onCow p n f).freeCtr = s.freeCtr := rfl

/-! ## setReg -/

@[simp] theorem State.setReg_pending (s : State) (k : Nat) (v : Word) : (s.setReg k v).pending = s.pending := by
  dsimp only [State.setReg]
@[simp] theorem State.setReg_mem (s : State) (k : Nat) (v : Word) : (s.setReg k v).mem = s.mem := by
  dsimp only [State.setReg]
@[simp] theorem State.setReg_marks (s : State) (k : Nat) (v : Word) : (s.setReg k v).marks = s.marks := by
  dsimp only [State.setReg]
@[simp] theorem State.setReg_benches (s : State) (k : Nat) (v : Word) : (s.setReg k v).benches = s.benches := by
  dsimp only [State.setReg]
@[simp] theorem State.setReg_steps (s : State) (k : Nat) (v : Word) : (s.setReg k v).steps = s.steps := by
  dsimp only [State.setReg]
@[simp] theorem State.setReg_bars (s : State) (k : Nat) (v : Word) : (s.setReg k v).bars = s.bars := by
  dsimp only [State.setReg]
@[simp] theorem State.setReg_loads (s : State) (k : Nat) (v : Word) : (s.setReg k v).loads = s.loads := by
  dsimp only [State.setReg]
@[simp] theorem State.setReg_plumbs (s : State) (k : Nat) (v : Word) : (s.setReg k v).plumbs = s.plumbs := by
  dsimp only [State.setReg]
@[simp] theorem State.setReg_bulk (s : State) (k : Nat) (v : Word) : (s.setReg k v).bulk = s.bulk := by
  dsimp only [State.setReg]
@[simp] theorem State.setReg_fab (s : State) (k : Nat) (v : Word) : (s.setReg k v).fab = s.fab := by
  dsimp only [State.setReg]
@[simp] theorem State.setReg_host (s : State) (k : Nat) (v : Word) : (s.setReg k v).host = s.host := by
  dsimp only [State.setReg]
@[simp] theorem State.setReg_errs (s : State) (k : Nat) (v : Word) : (s.setReg k v).errs = s.errs := by
  dsimp only [State.setReg]
@[simp] theorem State.setReg_health (s : State) (k : Nat) (v : Word) : (s.setReg k v).health = s.health := by
  dsimp only [State.setReg]
@[simp] theorem State.setReg_pwr (s : State) (k : Nat) (v : Word) : (s.setReg k v).pwr = s.pwr := by
  dsimp only [State.setReg]
@[simp] theorem State.setReg_mgmt (s : State) (k : Nat) (v : Word) : (s.setReg k v).mgmt = s.mgmt := by
  dsimp only [State.setReg]
@[simp] theorem State.setReg_turn (s : State) (k : Nat) (v : Word) : (s.setReg k v).turn = s.turn := by
  dsimp only [State.setReg]
@[simp] theorem State.setReg_freeCtr (s : State) (k : Nat) (v : Word) : (s.setReg k v).freeCtr = s.freeCtr := by
  dsimp only [State.setReg]

/-! ## setRf -/

@[simp] theorem State.setRf_pending (s : State) (k : Nat) (f : Fld) (v : Nat) : (s.setRf k f v).pending = s.pending := by
  rw [State.setRf, State.setReg_pending]
@[simp] theorem State.setRf_mem (s : State) (k : Nat) (f : Fld) (v : Nat) : (s.setRf k f v).mem = s.mem := by
  rw [State.setRf, State.setReg_mem]
@[simp] theorem State.setRf_marks (s : State) (k : Nat) (f : Fld) (v : Nat) : (s.setRf k f v).marks = s.marks := by
  rw [State.setRf, State.setReg_marks]
@[simp] theorem State.setRf_benches (s : State) (k : Nat) (f : Fld) (v : Nat) : (s.setRf k f v).benches = s.benches := by
  rw [State.setRf, State.setReg_benches]
@[simp] theorem State.setRf_steps (s : State) (k : Nat) (f : Fld) (v : Nat) : (s.setRf k f v).steps = s.steps := by
  rw [State.setRf, State.setReg_steps]
@[simp] theorem State.setRf_bars (s : State) (k : Nat) (f : Fld) (v : Nat) : (s.setRf k f v).bars = s.bars := by
  rw [State.setRf, State.setReg_bars]
@[simp] theorem State.setRf_loads (s : State) (k : Nat) (f : Fld) (v : Nat) : (s.setRf k f v).loads = s.loads := by
  rw [State.setRf, State.setReg_loads]
@[simp] theorem State.setRf_plumbs (s : State) (k : Nat) (f : Fld) (v : Nat) : (s.setRf k f v).plumbs = s.plumbs := by
  rw [State.setRf, State.setReg_plumbs]
@[simp] theorem State.setRf_bulk (s : State) (k : Nat) (f : Fld) (v : Nat) : (s.setRf k f v).bulk = s.bulk := by
  rw [State.setRf, State.setReg_bulk]
@[simp] theorem State.setRf_fab (s : State) (k : Nat) (f : Fld) (v : Nat) : (s.setRf k f v).fab = s.fab := by
  rw [State.setRf, State.setReg_fab]
@[simp] theorem State.setRf_host (s : State) (k : Nat) (f : Fld) (v : Nat) : (s.setRf k f v).host = s.host := by
  rw [State.setRf, State.setReg_host]
@[simp] theorem State.setRf_errs (s : State) (k : Nat) (f : Fld) (v : Nat) : (s.setRf k f v).errs = s.errs := by
  rw [State.setRf, State.setReg_errs]
@[simp] theorem State.setRf_health (s : State) (k : Nat) (f : Fld) (v : Nat) : (s.setRf k f v).health = s.health := by
  rw [State.setRf, State.setReg_health]
@[simp] theorem State.setRf_pwr (s : State) (k : Nat) (f : Fld) (v : Nat) : (s.setRf k f v).pwr = s.pwr := by
  rw [State.setRf, State.setReg_pwr]
@[simp] theorem State.setRf_mgmt (s : State) (k : Nat) (f : Fld) (v : Nat) : (s.setRf k f v).mgmt = s.mgmt := by
  rw [State.setRf, State.setReg_mgmt]
@[simp] theorem State.setRf_turn (s : State) (k : Nat) (f : Fld) (v : Nat) : (s.setRf k f v).turn = s.turn := by
  rw [State.setRf, State.setReg_turn]
@[simp] theorem State.setRf_freeCtr (s : State) (k : Nat) (f : Fld) (v : Nat) : (s.setRf k f v).freeCtr = s.freeCtr := by
  rw [State.setRf, State.setReg_freeCtr]

/-! ## setRb -/

@[simp] theorem State.setRb_pending (s : State) (k : Nat) (f : Fld) (v : Bool) : (s.setRb k f v).pending = s.pending := by
  rw [State.setRb, State.setRf_pending]
@[simp] theorem State.setRb_mem (s : State) (k : Nat) (f : Fld) (v : Bool) : (s.setRb k f v).mem = s.mem := by
  rw [State.setRb, State.setRf_mem]
@[simp] theorem State.setRb_marks (s : State) (k : Nat) (f : Fld) (v : Bool) : (s.setRb k f v).marks = s.marks := by
  rw [State.setRb, State.setRf_marks]
@[simp] theorem State.setRb_benches (s : State) (k : Nat) (f : Fld) (v : Bool) : (s.setRb k f v).benches = s.benches := by
  rw [State.setRb, State.setRf_benches]
@[simp] theorem State.setRb_steps (s : State) (k : Nat) (f : Fld) (v : Bool) : (s.setRb k f v).steps = s.steps := by
  rw [State.setRb, State.setRf_steps]
@[simp] theorem State.setRb_bars (s : State) (k : Nat) (f : Fld) (v : Bool) : (s.setRb k f v).bars = s.bars := by
  rw [State.setRb, State.setRf_bars]
@[simp] theorem State.setRb_loads (s : State) (k : Nat) (f : Fld) (v : Bool) : (s.setRb k f v).loads = s.loads := by
  rw [State.setRb, State.setRf_loads]
@[simp] theorem State.setRb_plumbs (s : State) (k : Nat) (f : Fld) (v : Bool) : (s.setRb k f v).plumbs = s.plumbs := by
  rw [State.setRb, State.setRf_plumbs]
@[simp] theorem State.setRb_bulk (s : State) (k : Nat) (f : Fld) (v : Bool) : (s.setRb k f v).bulk = s.bulk := by
  rw [State.setRb, State.setRf_bulk]
@[simp] theorem State.setRb_fab (s : State) (k : Nat) (f : Fld) (v : Bool) : (s.setRb k f v).fab = s.fab := by
  rw [State.setRb, State.setRf_fab]
@[simp] theorem State.setRb_host (s : State) (k : Nat) (f : Fld) (v : Bool) : (s.setRb k f v).host = s.host := by
  rw [State.setRb, State.setRf_host]
@[simp] theorem State.setRb_errs (s : State) (k : Nat) (f : Fld) (v : Bool) : (s.setRb k f v).errs = s.errs := by
  rw [State.setRb, State.setRf_errs]
@[simp] theorem State.setRb_health (s : State) (k : Nat) (f : Fld) (v : Bool) : (s.setRb k f v).health = s.health := by
  rw [State.setRb, State.setRf_health]
@[simp] theorem State.setRb_pwr (s : State) (k : Nat) (f : Fld) (v : Bool) : (s.setRb k f v).pwr = s.pwr := by
  rw [State.setRb, State.setRf_pwr]
@[simp] theorem State.setRb_mgmt (s : State) (k : Nat) (f : Fld) (v : Bool) : (s.setRb k f v).mgmt = s.mgmt := by
  rw [State.setRb, State.setRf_mgmt]
@[simp] theorem State.setRb_turn (s : State) (k : Nat) (f : Fld) (v : Bool) : (s.setRb k f v).turn = s.turn := by
  rw [State.setRb, State.setRf_turn]
@[simp] theorem State.setRb_freeCtr (s : State) (k : Nat) (f : Fld) (v : Bool) : (s.setRb k f v).freeCtr = s.freeCtr := by
  rw [State.setRb, State.setRf_freeCtr]

/-! ## resetRegs -/

@[simp] theorem State.resetRegs_pending (s : State) (lo hi : Nat) : (s.resetRegs lo hi).pending = s.pending := by
  dsimp only [State.resetRegs]
@[simp] theorem State.resetRegs_mem (s : State) (lo hi : Nat) : (s.resetRegs lo hi).mem = s.mem := by
  dsimp only [State.resetRegs]
@[simp] theorem State.resetRegs_marks (s : State) (lo hi : Nat) : (s.resetRegs lo hi).marks = s.marks := by
  dsimp only [State.resetRegs]
@[simp] theorem State.resetRegs_benches (s : State) (lo hi : Nat) : (s.resetRegs lo hi).benches = s.benches := by
  dsimp only [State.resetRegs]
@[simp] theorem State.resetRegs_steps (s : State) (lo hi : Nat) : (s.resetRegs lo hi).steps = s.steps := by
  dsimp only [State.resetRegs]
@[simp] theorem State.resetRegs_bars (s : State) (lo hi : Nat) : (s.resetRegs lo hi).bars = s.bars := by
  dsimp only [State.resetRegs]
@[simp] theorem State.resetRegs_loads (s : State) (lo hi : Nat) : (s.resetRegs lo hi).loads = s.loads := by
  dsimp only [State.resetRegs]
@[simp] theorem State.resetRegs_plumbs (s : State) (lo hi : Nat) : (s.resetRegs lo hi).plumbs = s.plumbs := by
  dsimp only [State.resetRegs]
@[simp] theorem State.resetRegs_bulk (s : State) (lo hi : Nat) : (s.resetRegs lo hi).bulk = s.bulk := by
  dsimp only [State.resetRegs]
@[simp] theorem State.resetRegs_fab (s : State) (lo hi : Nat) : (s.resetRegs lo hi).fab = s.fab := by
  dsimp only [State.resetRegs]
@[simp] theorem State.resetRegs_host (s : State) (lo hi : Nat) : (s.resetRegs lo hi).host = s.host := by
  dsimp only [State.resetRegs]
@[simp] theorem State.resetRegs_errs (s : State) (lo hi : Nat) : (s.resetRegs lo hi).errs = s.errs := by
  dsimp only [State.resetRegs]
@[simp] theorem State.resetRegs_health (s : State) (lo hi : Nat) : (s.resetRegs lo hi).health = s.health := by
  dsimp only [State.resetRegs]
@[simp] theorem State.resetRegs_pwr (s : State) (lo hi : Nat) : (s.resetRegs lo hi).pwr = s.pwr := by
  dsimp only [State.resetRegs]
@[simp] theorem State.resetRegs_mgmt (s : State) (lo hi : Nat) : (s.resetRegs lo hi).mgmt = s.mgmt := by
  dsimp only [State.resetRegs]
@[simp] theorem State.resetRegs_turn (s : State) (lo hi : Nat) : (s.resetRegs lo hi).turn = s.turn := by
  dsimp only [State.resetRegs]
@[simp] theorem State.resetRegs_freeCtr (s : State) (lo hi : Nat) : (s.resetRegs lo hi).freeCtr = s.freeCtr := by
  dsimp only [State.resetRegs]

/-! ## count -/

@[simp] theorem State.count_pending (s : State) (k n : Nat) : (s.count k n).pending = s.pending := by
  rw [State.count, State.setReg_pending]
@[simp] theorem State.count_mem (s : State) (k n : Nat) : (s.count k n).mem = s.mem := by
  rw [State.count, State.setReg_mem]
@[simp] theorem State.count_marks (s : State) (k n : Nat) : (s.count k n).marks = s.marks := by
  rw [State.count, State.setReg_marks]
@[simp] theorem State.count_benches (s : State) (k n : Nat) : (s.count k n).benches = s.benches := by
  rw [State.count, State.setReg_benches]
@[simp] theorem State.count_steps (s : State) (k n : Nat) : (s.count k n).steps = s.steps := by
  rw [State.count, State.setReg_steps]
@[simp] theorem State.count_bars (s : State) (k n : Nat) : (s.count k n).bars = s.bars := by
  rw [State.count, State.setReg_bars]
@[simp] theorem State.count_loads (s : State) (k n : Nat) : (s.count k n).loads = s.loads := by
  rw [State.count, State.setReg_loads]
@[simp] theorem State.count_plumbs (s : State) (k n : Nat) : (s.count k n).plumbs = s.plumbs := by
  rw [State.count, State.setReg_plumbs]
@[simp] theorem State.count_bulk (s : State) (k n : Nat) : (s.count k n).bulk = s.bulk := by
  rw [State.count, State.setReg_bulk]
@[simp] theorem State.count_fab (s : State) (k n : Nat) : (s.count k n).fab = s.fab := by
  rw [State.count, State.setReg_fab]
@[simp] theorem State.count_host (s : State) (k n : Nat) : (s.count k n).host = s.host := by
  rw [State.count, State.setReg_host]
@[simp] theorem State.count_errs (s : State) (k n : Nat) : (s.count k n).errs = s.errs := by
  rw [State.count, State.setReg_errs]
@[simp] theorem State.count_health (s : State) (k n : Nat) : (s.count k n).health = s.health := by
  rw [State.count, State.setReg_health]
@[simp] theorem State.count_pwr (s : State) (k n : Nat) : (s.count k n).pwr = s.pwr := by
  rw [State.count, State.setReg_pwr]
@[simp] theorem State.count_mgmt (s : State) (k n : Nat) : (s.count k n).mgmt = s.mgmt := by
  rw [State.count, State.setReg_mgmt]
@[simp] theorem State.count_turn (s : State) (k n : Nat) : (s.count k n).turn = s.turn := by
  rw [State.count, State.setReg_turn]
@[simp] theorem State.count_freeCtr (s : State) (k n : Nat) : (s.count k n).freeCtr = s.freeCtr := by
  rw [State.count, State.setReg_freeCtr]

/-! ## countB -/

@[simp] theorem State.countB_pending (s : State) (b : Bid) (n k : Nat) : (s.countB b n k).pending = s.pending := by
  rw [State.countB, State.count_pending]
@[simp] theorem State.countB_mem (s : State) (b : Bid) (n k : Nat) : (s.countB b n k).mem = s.mem := by
  rw [State.countB, State.count_mem]
@[simp] theorem State.countB_marks (s : State) (b : Bid) (n k : Nat) : (s.countB b n k).marks = s.marks := by
  rw [State.countB, State.count_marks]
@[simp] theorem State.countB_benches (s : State) (b : Bid) (n k : Nat) : (s.countB b n k).benches = s.benches := by
  rw [State.countB, State.count_benches]
@[simp] theorem State.countB_steps (s : State) (b : Bid) (n k : Nat) : (s.countB b n k).steps = s.steps := by
  rw [State.countB, State.count_steps]
@[simp] theorem State.countB_bars (s : State) (b : Bid) (n k : Nat) : (s.countB b n k).bars = s.bars := by
  rw [State.countB, State.count_bars]
@[simp] theorem State.countB_loads (s : State) (b : Bid) (n k : Nat) : (s.countB b n k).loads = s.loads := by
  rw [State.countB, State.count_loads]
@[simp] theorem State.countB_plumbs (s : State) (b : Bid) (n k : Nat) : (s.countB b n k).plumbs = s.plumbs := by
  rw [State.countB, State.count_plumbs]
@[simp] theorem State.countB_bulk (s : State) (b : Bid) (n k : Nat) : (s.countB b n k).bulk = s.bulk := by
  rw [State.countB, State.count_bulk]
@[simp] theorem State.countB_fab (s : State) (b : Bid) (n k : Nat) : (s.countB b n k).fab = s.fab := by
  rw [State.countB, State.count_fab]
@[simp] theorem State.countB_host (s : State) (b : Bid) (n k : Nat) : (s.countB b n k).host = s.host := by
  rw [State.countB, State.count_host]
@[simp] theorem State.countB_errs (s : State) (b : Bid) (n k : Nat) : (s.countB b n k).errs = s.errs := by
  rw [State.countB, State.count_errs]
@[simp] theorem State.countB_health (s : State) (b : Bid) (n k : Nat) : (s.countB b n k).health = s.health := by
  rw [State.countB, State.count_health]
@[simp] theorem State.countB_pwr (s : State) (b : Bid) (n k : Nat) : (s.countB b n k).pwr = s.pwr := by
  rw [State.countB, State.count_pwr]
@[simp] theorem State.countB_mgmt (s : State) (b : Bid) (n k : Nat) : (s.countB b n k).mgmt = s.mgmt := by
  rw [State.countB, State.count_mgmt]
@[simp] theorem State.countB_turn (s : State) (b : Bid) (n k : Nat) : (s.countB b n k).turn = s.turn := by
  rw [State.countB, State.count_turn]
@[simp] theorem State.countB_freeCtr (s : State) (b : Bid) (n k : Nat) : (s.countB b n k).freeCtr = s.freeCtr := by
  rw [State.countB, State.count_freeCtr]

/-! ## setMark -/

@[simp] theorem State.setMark_pending (s : State) (wn : Nat) (m : WordMark) : (s.setMark wn m).pending = s.pending := by
  dsimp only [State.setMark]
@[simp] theorem State.setMark_regs (s : State) (wn : Nat) (m : WordMark) : (s.setMark wn m).regs = s.regs := by
  dsimp only [State.setMark]
@[simp] theorem State.setMark_mem (s : State) (wn : Nat) (m : WordMark) : (s.setMark wn m).mem = s.mem := by
  dsimp only [State.setMark]
@[simp] theorem State.setMark_benches (s : State) (wn : Nat) (m : WordMark) : (s.setMark wn m).benches = s.benches := by
  dsimp only [State.setMark]
@[simp] theorem State.setMark_steps (s : State) (wn : Nat) (m : WordMark) : (s.setMark wn m).steps = s.steps := by
  dsimp only [State.setMark]
@[simp] theorem State.setMark_bars (s : State) (wn : Nat) (m : WordMark) : (s.setMark wn m).bars = s.bars := by
  dsimp only [State.setMark]
@[simp] theorem State.setMark_loads (s : State) (wn : Nat) (m : WordMark) : (s.setMark wn m).loads = s.loads := by
  dsimp only [State.setMark]
@[simp] theorem State.setMark_plumbs (s : State) (wn : Nat) (m : WordMark) : (s.setMark wn m).plumbs = s.plumbs := by
  dsimp only [State.setMark]
@[simp] theorem State.setMark_bulk (s : State) (wn : Nat) (m : WordMark) : (s.setMark wn m).bulk = s.bulk := by
  dsimp only [State.setMark]
@[simp] theorem State.setMark_fab (s : State) (wn : Nat) (m : WordMark) : (s.setMark wn m).fab = s.fab := by
  dsimp only [State.setMark]
@[simp] theorem State.setMark_host (s : State) (wn : Nat) (m : WordMark) : (s.setMark wn m).host = s.host := by
  dsimp only [State.setMark]
@[simp] theorem State.setMark_errs (s : State) (wn : Nat) (m : WordMark) : (s.setMark wn m).errs = s.errs := by
  dsimp only [State.setMark]
@[simp] theorem State.setMark_health (s : State) (wn : Nat) (m : WordMark) : (s.setMark wn m).health = s.health := by
  dsimp only [State.setMark]
@[simp] theorem State.setMark_pwr (s : State) (wn : Nat) (m : WordMark) : (s.setMark wn m).pwr = s.pwr := by
  dsimp only [State.setMark]
@[simp] theorem State.setMark_mgmt (s : State) (wn : Nat) (m : WordMark) : (s.setMark wn m).mgmt = s.mgmt := by
  dsimp only [State.setMark]
@[simp] theorem State.setMark_turn (s : State) (wn : Nat) (m : WordMark) : (s.setMark wn m).turn = s.turn := by
  dsimp only [State.setMark]
@[simp] theorem State.setMark_freeCtr (s : State) (wn : Nat) (m : WordMark) : (s.setMark wn m).freeCtr = s.freeCtr := by
  dsimp only [State.setMark]

/-! ## putWord -/

@[simp] theorem State.putWord_pending (s : State) (wn : Nat) (data mask : Line16) : (s.putWord wn data mask).pending = s.pending := by
  dsimp only [State.putWord]
@[simp] theorem State.putWord_regs (s : State) (wn : Nat) (data mask : Line16) : (s.putWord wn data mask).regs = s.regs := by
  dsimp only [State.putWord]
@[simp] theorem State.putWord_marks (s : State) (wn : Nat) (data mask : Line16) : (s.putWord wn data mask).marks = s.marks := by
  dsimp only [State.putWord]
@[simp] theorem State.putWord_benches (s : State) (wn : Nat) (data mask : Line16) : (s.putWord wn data mask).benches = s.benches := by
  dsimp only [State.putWord]
@[simp] theorem State.putWord_steps (s : State) (wn : Nat) (data mask : Line16) : (s.putWord wn data mask).steps = s.steps := by
  dsimp only [State.putWord]
@[simp] theorem State.putWord_bars (s : State) (wn : Nat) (data mask : Line16) : (s.putWord wn data mask).bars = s.bars := by
  dsimp only [State.putWord]
@[simp] theorem State.putWord_loads (s : State) (wn : Nat) (data mask : Line16) : (s.putWord wn data mask).loads = s.loads := by
  dsimp only [State.putWord]
@[simp] theorem State.putWord_plumbs (s : State) (wn : Nat) (data mask : Line16) : (s.putWord wn data mask).plumbs = s.plumbs := by
  dsimp only [State.putWord]
@[simp] theorem State.putWord_bulk (s : State) (wn : Nat) (data mask : Line16) : (s.putWord wn data mask).bulk = s.bulk := by
  dsimp only [State.putWord]
@[simp] theorem State.putWord_fab (s : State) (wn : Nat) (data mask : Line16) : (s.putWord wn data mask).fab = s.fab := by
  dsimp only [State.putWord]
@[simp] theorem State.putWord_host (s : State) (wn : Nat) (data mask : Line16) : (s.putWord wn data mask).host = s.host := by
  dsimp only [State.putWord]
@[simp] theorem State.putWord_errs (s : State) (wn : Nat) (data mask : Line16) : (s.putWord wn data mask).errs = s.errs := by
  dsimp only [State.putWord]
@[simp] theorem State.putWord_health (s : State) (wn : Nat) (data mask : Line16) : (s.putWord wn data mask).health = s.health := by
  dsimp only [State.putWord]
@[simp] theorem State.putWord_pwr (s : State) (wn : Nat) (data mask : Line16) : (s.putWord wn data mask).pwr = s.pwr := by
  dsimp only [State.putWord]
@[simp] theorem State.putWord_mgmt (s : State) (wn : Nat) (data mask : Line16) : (s.putWord wn data mask).mgmt = s.mgmt := by
  dsimp only [State.putWord]
@[simp] theorem State.putWord_turn (s : State) (wn : Nat) (data mask : Line16) : (s.putWord wn data mask).turn = s.turn := by
  dsimp only [State.putWord]
@[simp] theorem State.putWord_freeCtr (s : State) (wn : Nat) (data mask : Line16) : (s.putWord wn data mask).freeCtr = s.freeCtr := by
  dsimp only [State.putWord]

/-! ## Reading back -/

@[simp] theorem State.onBench_bench_same (s : State) (b : Bid) (f : Bench → Bench) :
    (s.onBench b f).bench b = f (s.bench b) := by rw [State.onBench_bench, if_pos rfl]

theorem State.onBench_bench_other (s : State) (b c : Bid) (f : Bench → Bench) (h : c ≠ b) :
    (s.onBench b f).bench c = s.bench c := by rw [State.onBench_bench, if_neg h]

@[simp] theorem State.onFm_fm_same (s : State) (b : Bid) (f : Foreman → Foreman) : (s.onFm b f).fm b = f (s.fm b) := by
  rw [State.onFm, State.fm, State.onBench_bench_same]; rfl

theorem State.onFm_fm_other (s : State) (b c : Bid) (f : Foreman → Foreman) (h : c ≠ b) :
    (s.onFm b f).fm c = s.fm c := by rw [State.onFm, State.fm, State.onBench_bench_other _ _ _ _ h]; rfl

@[simp] theorem State.setQueue_queue_same (s : State) (b : Bid) (q : Fin 8) (l : List QItem) :
    (s.setQueue b q l).queue b q = l := by
  rw [State.queue, State.setQueue, State.onBench_bench_same]; simp

@[simp] theorem State.setReg_bench (s : State) (k : Nat) (v : Word) (b : Bid) : (s.setReg k v).bench b = s.bench b := by
  rw [State.bench, State.setReg_benches]; rfl
@[simp] theorem State.setReg_fm (s : State) (k : Nat) (v : Word) (b : Bid) : (s.setReg k v).fm b = s.fm b := by
  rw [State.fm, State.setReg_bench]; rfl
@[simp] theorem State.onBench_reg (s : State) (b : Bid) (f : Bench → Bench) (k : Nat) :
    (s.onBench b f).reg k = s.reg k := rfl
@[simp] theorem State.onFm_reg (s : State) (b : Bid) (f : Foreman → Foreman) (k : Nat) :
    (s.onFm b f).reg k = s.reg k := rfl

/-- A register reads as it was written, and every other register as before. -/
theorem State.setReg_reg (s : State) (k k' : Nat) (v : Word) (h : s.Canonical) :
    (s.setReg k v).reg k' = if k = k' then v else s.reg k' := by
  rw [State.reg, State.setReg]
  by_cases hk : k = k'
  · subst hk; rw [if_pos rfl]; simp [tget_tset _ _ _ _ _ h.2.1.1]
  · rw [if_neg hk]
    by_cases hv : v = regReset k
    · simp only [tset, if_pos hv, tdrop]
      rw [tget_filter _ _ (fun n => n != k) k', if_pos]; · rfl
      simp; omega
    · simp only [tset, if_neg hv]
      rw [tget_tput _ _ _ _ _ h.2.1.1, if_neg hk]; rfl

/-- The counters, statuses and configuration stay canonical under a write. -/
theorem State.setReg_canonical (s : State) (k : Nat) (v : Word) (h : s.Canonical) : (s.setReg k v).Canonical :=
  ⟨h.1, twf_tset (d := regReset) k v h.2.1, h.2.2⟩

/-- A mark reads as it was written, and every other word's as before. -/
theorem State.setMark_mark (s : State) (n k : Nat) (m : WordMark) (h : s.Canonical) :
    (s.setMark n m).mark k = if n = k then m else s.mark k := tget_tset _ _ _ _ _ h.2.2.1

/-! ## The invariant at reset -/

theorem State.reset_canonical : State.reset.Canonical :=
  ⟨⟨List.Pairwise.nil, by simp [State.reset]⟩, ⟨List.Pairwise.nil, by simp [State.reset]⟩, List.Pairwise.nil,
    by simp [State.reset]⟩

theorem State.reset_fm (b : Bid) : State.reset.fm b = Foreman.reset := by
  simp [State.fm, State.bench, State.reset, Bench.reset]

end Sys2Proof.Machine
end

