-- ==== Sys2Proof/Laws/Issue.lean ====
section
/-!
SUPPORT. What issuing can do: a retiring instruction changes its Foreman, its trace staging and its counters alone, and
goes on at the next program counter; a false guard changes the program counter alone; a dispatch puts one entry at the end of
its queue.
-/

namespace Sys2Proof.Machine

/-! ## Nothing but a Bench's Foreman -/

/-- A write of one register leaves every other as it was. -/
theorem State.setReg_other (s : State) (k k' : Nat) (v : Word) (hk : k ≠ k') : (s.setReg k v).reg k' = s.reg k' := by
  rw [State.reg, State.setReg]
  by_cases hv : v = regReset k
  · simp only [tset, if_pos hv, tdrop]
    rw [tget_filter _ _ (fun n => n != k) k', if_pos]; · rfl
    simp; omega
  · simp only [tset, if_neg hv]
    have : ∀ t : Tab Word, tget (regReset k') (tput t k v) k' = tget (regReset k') t k' := by
      intro t
      induction t with
      | nil => simp [tput, tget, hk]
      | cons e rest ih =>
        obtain ⟨n, w⟩ := e
        simp only [tput]
        split
        · simp only [tget, ih]
        · split
          · subst_vars; simp only [tget, if_neg hk]
          · simp only [tget, if_neg hk]
    rw [this]; rfl

theorem State.OnlyForeman.refl (b : Bid) (s : State) : s.OnlyForeman b s := ⟨rfl, fun _ _ => rfl, rfl, fun _ _ => rfl⟩

theorem State.OnlyForeman.setReg {b : Bid} {s t : State} (h : s.OnlyForeman b t) {k : Nat} (v : Word)
    (hk : k ∈ retireRegs b) : s.OnlyForeman b (t.setReg k v) := by
  obtain ⟨h1, h2, h3, h4⟩ := h
  refine ⟨?_, fun c hc => ?_, ?_, fun k' hk' => ?_⟩
  · rw [← h1, State.setReg]; rfl
  · rw [State.setReg_bench, h2 c hc]
  · rw [State.setReg_bench, h3]
  · rw [State.setReg_other, h4 k' hk']; rintro rfl; exact hk' hk

theorem State.OnlyForeman.onBench {b : Bid} {s t : State} (h : s.OnlyForeman b t) (f : Bench → Bench)
    (hf : ∀ x, (f x).apart = x.apart) : s.OnlyForeman b (t.onBench b f) := by
  obtain ⟨h1, h2, h3, h4⟩ := h
  refine ⟨?_, fun c hc => ?_, ?_, fun k' hk' => ?_⟩
  · rw [← h1]; rfl
  · rw [State.onBench_bench_other _ _ _ _ hc, h2 c hc]
  · rw [State.onBench_bench_same, hf, h3]
  · rw [State.onBench_reg, h4 k' hk']

theorem State.OnlyForeman.onFm {b : Bid} {s t : State} (h : s.OnlyForeman b t) (f : Foreman → Foreman) :
    s.OnlyForeman b (t.onFm b f) := h.onBench _ fun _ => rfl

/-- What staging a trace entry can do: nothing where its Bench does not trace, a drop counted, or entries staged and counted. -/
theorem State.traceAdd_cases (s : State) (b : Bid) (e : List Word) :
    s.traceAdd b e = s
    ∨ s.traceAdd b e =
        ((s.onBench b fun x => { x with traceLost := x.traceLost + 1 }).countB b 141 1).setRf (K.TRC_STAT b)
          F.TRC_STAT_DROPPED 1
    ∨ ∃ l n, s.traceAdd b e = (s.onBench b fun x => { x with trace := x.trace ++ l, traceLost := 0 }).countB b 140 n := by
  by_cases h1 : (!s.traceOn b) = true
  · exact Or.inl (if_pos h1)
  · unfold State.traceAdd
    rw [if_neg h1]
    dsimp only
    generalize (if (s.bench b).traceLost = 0 then _ else _ : List (List Word)) = gap
    by_cases h2 : traceUnits (s.bench b).trace + traceUnits (gap ++ [e]) > 4096
    · rw [if_pos h2]; exact Or.inr (Or.inl rfl)
    · rw [if_neg h2]; exact Or.inr (Or.inr ⟨_, _, rfl⟩)

theorem State.OnlyForeman.traceAdd {b : Bid} {s t : State} (h : s.OnlyForeman b t) (e : List Word) :
    s.OnlyForeman b (t.traceAdd b e) := by
  obtain h1 | h1 | ⟨l, n, h1⟩ := t.traceAdd_cases b e
  · rw [h1]; exact h
  · rw [h1, State.setRf, State.countB, State.count]
    refine State.OnlyForeman.setReg (State.OnlyForeman.setReg (h.onBench _ ?_) _ ?_) _ ?_
    · exact fun _ => rfl
    · simp [retireRegs]
    · simp [retireRegs]
  · rw [h1, State.countB, State.count]
    refine State.OnlyForeman.setReg (h.onBench _ ?_) _ ?_
    · exact fun _ => rfl
    · simp [retireRegs]

@[simp] theorem State.traceAdd_fm (s : State) (b : Bid) (e : List Word) : (s.traceAdd b e).fm b = s.fm b := by
  obtain h1 | h1 | ⟨l, n, h1⟩ := s.traceAdd_cases b e
  · rw [h1]
  · rw [h1, State.setRf, State.setReg_fm, State.countB, State.count, State.setReg_fm, State.fm, State.onBench_bench_same]
    rfl
  · rw [h1, State.countB, State.count, State.setReg_fm, State.fm, State.onBench_bench_same]; rfl

/-- Counting in the marker slots writes their counters alone: it keeps what a write of each of them keeps. -/
theorem State.slotCount_of {P : State → Prop} {b : Bid} {k : Nat}
    (hP : ∀ t v i, i < 8 → P t → P (t.setReg (K.MK_CNT b i k) v)) (mark : BitVec 32) (n : Nat) {t : State} (h : P t) :
    P (t.slotCount b mark k n) := by
  unfold State.slotCount
  split
  · exact h
  · have : ∀ (l : List Nat) (t : State), (∀ i ∈ l, i < 8) → P t → P (l.foldl (fun s i =>
        if s.rf (K.MK_ID b i) F.MK_ID_ID = mark.toNat then s.count (K.MK_CNT b i k) n else s) t) := by
      intro l
      induction l with
      | nil => intro t _ h; exact h
      | cons i l ih =>
        intro t hl h
        refine ih _ (fun j hj => hl j (List.mem_cons_of_mem _ hj)) ?_
        dsimp only
        split
        · exact hP _ _ _ (hl i List.mem_cons_self) h
        · exact h
    exact this _ _ (fun i hi => List.mem_range.1 hi) h

theorem State.OnlyForeman.dispatched {s t : State} {c : Fm} (h : s.OnlyForeman c.b t) :
    s.OnlyForeman c.b (t.dispatched c) := by
  refine State.slotCount_of (P := fun t => s.OnlyForeman c.b t) (fun t v i hi h => h.setReg v ?_) _ _ ?_
  · simp only [retireRegs, List.mem_append, List.mem_map, List.mem_range]; exact Or.inr ⟨i, hi, rfl⟩
  · split
    · exact h.setReg _ (by simp [retireRegs])
    · exact h

@[simp] theorem State.dispatched_fm (s : State) (c : Fm) : (s.dispatched c).fm c.b = s.fm c.b := by
  refine State.slotCount_of (P := fun t => t.fm c.b = s.fm c.b) (fun t v i _ h => by rw [State.setReg_fm, h]) _ _ ?_
  split
  · rw [State.countB, State.count, State.setReg_fm]
  · rfl

theorem State.OnlyForeman.retireOp {b : Bid} {s t : State} (h : s.OnlyForeman b t) (taken : Bool) (op : OpInfo) :
    s.OnlyForeman b (t.retireOp b taken op) := by
  unfold State.retireOp
  exact State.OnlyForeman.traceAdd (h.setReg _ (by simp [retireRegs])) _

@[simp] theorem State.retireOp_fm (s : State) (b : Bid) (taken : Bool) (op : OpInfo) :
    (s.retireOp b taken op).fm b = s.fm b := by
  rw [State.retireOp, State.traceAdd_fm, State.countB, State.count, State.setReg_fm]

theorem State.OnlyForeman.retired {s t : State} {c : Fm} (h : s.OnlyForeman c.b t) (taken : Bool) (mark : BitVec 32) :
    s.OnlyForeman c.b (t.retired c taken mark) := by
  have h1 : s.OnlyForeman c.b (if taken then t.dispatched c else t) := by
    split
    · exact h.dispatched
    · exact h
  exact h1.retireOp _ _

@[simp] theorem State.retired_fm (s : State) (c : Fm) (taken : Bool) (mark : BitVec 32) :
    (s.retired c taken mark).fm c.b = s.fm c.b := by
  rw [State.retired, State.retireOp_fm]
  split
  · exact State.dispatched_fm s c
  · rfl

/-- Fetch inside instruction memory goes on there. -/
theorem State.goto_inside (s : State) (c : Fm) (target : Int) (h0 : 0 ≤ target) (h1 : target < 32768) :
    s.goto c target = s.onFm c.b fun f => { f with pc := BitVec.ofInt 15 target } := by
  rw [State.goto]; exact if_pos (Or.inl ⟨h0, h1⟩)

/-- The behind of an instruction, as a program counter. -/
theorem pc_behind (pc : BitVec 15) (n : Nat) : BitVec.ofInt 15 ((pc.toNat : Int) + n) = pc + BitVec.ofNat 15 n := by
  apply BitVec.eq_of_toNat_eq
  simp [BitVec.toNat_ofInt]; omega

/-! ## Issue -/

/-- An instruction that issues, by what its body answers (R274-R276). -/
theorem issue_eq (h : Issue) (n : Nat) (opcode : BitVec 10) (body : Fm → State → Disp) (s : State) (hi : s.Issues h n) :
    issue h n opcode body s = match body (s.fmCtx h opcode) s with
      | .stall => .next s
      | .fault code => .next (s.fault (s.fmCtx h opcode).at_ code)
      | .failed s' code => .next (s'.fault (s.fmCtx h opcode).at_ code)
      | .done s' => .next ((s'.retired (s.fmCtx h opcode) true (s.fmCtx h opcode).op.mark).goto (s.fmCtx h opcode)
          (((s.fm h.bench).pc.toNat : Int) + n))
      | .later s' => .next ((s'.dispatched (s.fmCtx h opcode)).goto (s.fmCtx h opcode) (((s.fm h.bench).pc.toNat : Int) + n))
      | .marked s' mark => .next ((s'.retired (s.fmCtx h opcode) true mark).goto (s.fmCtx h opcode)
          (((s.fm h.bench).pc.toNat : Int) + n))
      | .jump s' target => .next ((s'.retired (s.fmCtx h opcode) true (s.fmCtx h opcode).op.mark).goto
          (s.fmCtx h opcode) target) := by
  obtain ⟨h1, h2, h3⟩ := hi
  unfold issue
  rw [if_neg (by simp [h1])]
  dsimp only [State.fmCtx]
  rw [if_neg (by omega), if_neg (by simp [h2])]
  try rfl

/-- A body that changes nothing but the Foreman: the instruction retires and the fetch goes on behind it. -/
theorem issue_done (h : Issue) (n : Nat) (opcode : BitVec 10) (body : Fm → State → Disp) (s t : State)
    (hi : s.Issues h n) (hb : body (s.fmCtx h opcode) s = .done t) :
    ∃ u, issue h n opcode body s = .next u
      ∧ u.fm h.bench = { t.fm h.bench with pc := (s.fm h.bench).pc + BitVec.ofNat 15 n }
      ∧ (s.OnlyForeman h.bench t → s.OnlyForeman h.bench u) := by
  have hpc := hi.2.2
  rw [issue_eq _ _ _ _ _ hi, hb]
  dsimp only
  rw [State.goto_inside _ _ _ (by omega) (by omega)]
  refine ⟨_, rfl, ?_, fun ho => ?_⟩
  · rw [pc_behind]
    have h1 := State.retired_fm t (s.fmCtx h opcode) true (s.fmCtx h opcode).op.mark
    have hb : (s.fmCtx h opcode).b = h.bench := by simp only [State.fmCtx]
    rw [hb] at h1 ⊢
    rw [State.onFm_fm_same, h1]
  · have hb : (s.fmCtx h opcode).b = h.bench := by simp only [State.fmCtx]
    have h2 := State.OnlyForeman.retired (c := s.fmCtx h opcode) (s := s) (t := t) (by rw [hb]; exact ho) true
      (s.fmCtx h opcode).op.mark
    rw [hb] at h2 ⊢
    exact h2.onFm _

/-- A body that changes the Foreman's registers alone (R272, R314). -/
theorem issue_onFm (h : Issue) (n : Nat) (opcode : BitVec 10) (body : Fm → State → Disp) (s : State)
    (f : Foreman → Foreman) (hi : s.Issues h n) (hb : body (s.fmCtx h opcode) s = .done (s.onFm h.bench f)) :
    ∃ t, issue h n opcode body s = .next t
      ∧ t.fm h.bench = { f (s.fm h.bench) with pc := (s.fm h.bench).pc + BitVec.ofNat 15 n }
      ∧ s.OnlyForeman h.bench t := by
  obtain ⟨u, h1, h2, h3⟩ := issue_done h n opcode body s _ hi hb
  refine ⟨u, h1, ?_, h3 ((State.OnlyForeman.refl _ _).onFm _)⟩
  rw [h2, State.onFm_fm_same]

/-- A body whose scalar registers have arrived runs (R319). -/
theorem waitS_arrived (s : State) (h : Issue) (opcode : BitVec 10) (rs : List (BitVec 5)) (body : Fm → State → Disp)
    (ha : s.Arrived h.bench rs) : waitS rs body (s.fmCtx h opcode) s = body (s.fmCtx h opcode) s := by
  unfold waitS
  rw [if_neg]
  simp only [List.any_eq_true, not_exists, State.fmCtx]
  rintro r ⟨h1, h2⟩
  rw [ha r h1] at h2; cases h2

/-- A body whose descriptor registers have arrived runs (R319). -/
theorem waitT_arrived (s : State) (h : Issue) (opcode : BitVec 10) (ts : List (BitVec 4)) (body : Fm → State → Disp)
    (ha : s.ArrivedT h.bench ts) : waitT ts body (s.fmCtx h opcode) s = body (s.fmCtx h opcode) s := by
  unfold waitT
  rw [if_neg]
  simp only [List.any_eq_true, not_exists, State.fmCtx]
  rintro r ⟨h1, h2⟩
  rw [ha r h1] at h2; cases h2

/-- An engine instruction that may be dispatched is: one entry more at the end of its queue (R278, R279). -/
theorem dispatch_eq (h : Issue) (n : Nat) (opcode : BitVec 10) (q : Fin 8) (op : EngOp) (sel : Nat) (ds : List (BitVec 4))
    (rs : List (BitVec 5)) (s : State) (hd : s.Dispatchable h n q ds rs) :
    dispatch q op sel ds rs (s.fmCtx h opcode) s = .done
      (((s.setQueue h.bench q (s.queue h.bench q ++ [.instr (s.newEntry (s.fmCtx h opcode) op sel ds rs)])).onFm h.bench
        fun f => { f with nextId := f.nextId + 1 }).countB h.bench (120 + q.val) 1) := by
  obtain ⟨-, h1, h2, h3⟩ := hd
  unfold dispatch
  have e : (s.fmCtx h opcode).b = h.bench := by simp only [State.fmCtx]
  rw [e, if_neg, if_neg (by simp [h3])]
  · rw [Bool.or_eq_true, List.any_eq_true, List.any_eq_true]
    rintro (⟨x, a, b⟩ | ⟨x, a, b⟩)
    · rw [h1 x a] at b; cases b
    · rw [h2 x a] at b; cases b

end Sys2Proof.Machine
end

