-- ==== Sys2Proof/Laws/KeepsAccess.lean ====
section
/-! SUPPORT. The operations of Machine.Access keep the queue of commands and the invariant. -/

namespace Sys2Proof.Machine

theorem State.onCtl_keeps {s0 s : State} {p : Part} {f : StepCtl → StepCtl} (h : Keeps s0 s) :
    Keeps s0 (State.onCtl s p f) := by
  unfold State.onCtl
  try dsimp only
  with_reducible repeat'
    (first
      | intro _ | assumption | apply Keeps.ite | dsimp only | split | apply Keeps.foldl
      | fail_if_no_progress apply Keeps.lit)

theorem State.onBar_keeps {s0 s : State} {p : Part} {f : Barrier → Barrier} (h : Keeps s0 s) :
    Keeps s0 (State.onBar s p f) := by
  unfold State.onBar
  try dsimp only
  with_reducible repeat'
    (first
      | intro _ | assumption | apply Keeps.ite | dsimp only | split | apply Keeps.foldl
      | fail_if_no_progress apply Keeps.lit)

theorem State.onPlumb_keeps {s0 s : State} {p : Part} {f : Plumb → Plumb} (h : Keeps s0 s) :
    Keeps s0 (State.onPlumb s p f) := by
  unfold State.onPlumb
  try dsimp only
  with_reducible repeat'
    (first
      | intro _ | assumption | apply Keeps.ite | dsimp only | split | apply Keeps.foldl
      | fail_if_no_progress apply Keeps.lit)

theorem State.onPort_keeps {s0 s : State} {n : PortNo} {f : PortSt → PortSt} (h : Keeps s0 s) :
    Keeps s0 (State.onPort s n f) := by
  unfold State.onPort
  try dsimp only
  with_reducible repeat'
    (first
      | intro _ | assumption | apply Keeps.ite | dsimp only | split | apply Keeps.foldl
      | fail_if_no_progress apply Keeps.lit)

theorem State.onHport_keeps {s0 s : State} {p : Part} {f : HostPort → HostPort} (h : Keeps s0 s) :
    Keeps s0 (State.onHport s p f) := by
  unfold State.onHport
  try dsimp only
  with_reducible repeat'
    (first
      | intro _ | assumption | apply Keeps.ite | dsimp only | split | apply Keeps.foldl
      | fail_if_no_progress apply Keeps.lit)

theorem State.setHq_keeps {s0 s : State} {q : Nat} {x2 : QState} (h : Keeps s0 s) :
    Keeps s0 (State.setHq s q x2) := by
  unfold State.setHq
  try dsimp only
  with_reducible repeat'
    (first
      | intro _ | assumption | apply Keeps.ite | dsimp only | split | apply Keeps.foldl
      | fail_if_no_progress apply Keeps.lit)

theorem State.onBulk_keeps {s0 s : State} {f : Bulk → Bulk} (h : Keeps s0 s) :
    Keeps s0 (State.onBulk s f) := by
  unfold State.onBulk
  try dsimp only
  with_reducible repeat'
    (first
      | intro _ | assumption | apply Keeps.ite | dsimp only | split | apply Keeps.foldl
      | fail_if_no_progress apply Keeps.lit)

theorem State.onStk_keeps {s0 s : State} {k : Fin 8} {f : Stack → Stack} (h : Keeps s0 s) :
    Keeps s0 (State.onStk s k f) := by
  unfold State.onStk
  try dsimp only
  with_reducible repeat' (first | intro _ | assumption | apply State.onBulk_keeps)

theorem State.onMgmt_keeps {s0 s : State} {f : Mgmt → Mgmt} (h : Keeps s0 s) : Keeps s0 (s.onMgmt f) := h.lit

theorem State.onCow_keeps {s0 s : State} {p : Part} {n : Fin 4} {f : CowSet → CowSet} (h : Keeps s0 s) :
    Keeps s0 (State.onCow s p n f) := by
  unfold State.onCow
  try dsimp only
  with_reducible repeat' (first | intro _ | assumption | apply State.onBulk_keeps)

theorem State.drawWord_keeps {s0 s : State} (h : Keeps s0 s) :
    Keeps s0 (State.drawWord s).2 := by
  unfold State.drawWord
  try dsimp only
  with_reducible repeat'
    (first
      | intro _ | assumption | apply Keeps.ite | dsimp only | split | apply Keeps.foldl
      | fail_if_no_progress apply Keeps.lit)

theorem State.drawLine_keeps {s0 s : State} (h : Keeps s0 s) :
    Keeps s0 (State.drawLine s).2 := by
  unfold State.drawLine
  try dsimp only
  with_reducible repeat'
    (first
      | intro _ | assumption | apply Keeps.ite | dsimp only | split | apply Keeps.foldl
      | fail_if_no_progress apply Keeps.lit)

theorem State.drawBool_keeps {s0 s : State} (h : Keeps s0 s) :
    Keeps s0 (State.drawBool s).2 := by
  unfold State.drawBool
  try dsimp only
  with_reducible repeat'
    (first
      | intro _ | assumption | apply Keeps.ite | dsimp only | split | apply Keeps.foldl
      | fail_if_no_progress apply Keeps.lit)

theorem State.setReg_keeps {s0 s : State} {k : Nat} {v : Word} (h : Keeps s0 s) : Keeps s0 (s.setReg k v) :=
  h.regs fun hw => twf_tset (d := regReset) k v hw

theorem State.setRf_keeps {s0 s : State} {k : Nat} {f : Fld} {v : Nat} (h : Keeps s0 s) :
    Keeps s0 (State.setRf s k f v) := by
  unfold State.setRf
  try dsimp only
  with_reducible repeat' (first | intro _ | assumption | apply State.setReg_keeps)

theorem State.setRb_keeps {s0 s : State} {k : Nat} {f : Fld} {v : Bool} (h : Keeps s0 s) :
    Keeps s0 (State.setRb s k f v) := by
  unfold State.setRb
  try dsimp only
  with_reducible repeat' (first | intro _ | assumption | apply State.setRf_keeps)

theorem State.writeReg_keeps {s0 s : State} {k : Nat} {inst : Bool} {v : Word} (h : Keeps s0 s) :
    Keeps s0 (State.writeReg s k inst v) := by
  unfold State.writeReg
  try dsimp only
  with_reducible repeat'
    (first
      | intro _ | assumption | apply State.setReg_keeps | apply Keeps.ite | dsimp only | split)

theorem State.resetRegs_keeps {s0 s : State} {lo hi : Nat} (h : Keeps s0 s) : Keeps s0 (s.resetRegs lo hi) :=
  h.regs fun hw => twf_tclear lo hi hw

theorem State.count_keeps {s0 s : State} {k : Nat} {n : Nat} (h : Keeps s0 s) :
    Keeps s0 (State.count s k n) := by
  unfold State.count
  try dsimp only
  with_reducible repeat' (first | intro _ | assumption | apply State.setReg_keeps)

theorem State.countB_keeps {s0 s : State} {b : Bid} {n : Nat} {k : Nat} (h : Keeps s0 s) :
    Keeps s0 (State.countB s b n k) := by
  unfold State.countB
  try dsimp only
  with_reducible repeat' (first | intro _ | assumption | apply State.count_keeps)

theorem State.countH_keeps {s0 s : State} {n : Nat} {k : Nat} (h : Keeps s0 s) :
    Keeps s0 (State.countH s n k) := by
  unfold State.countH
  try dsimp only
  with_reducible repeat' (first | intro _ | assumption | apply State.count_keeps)

theorem State.countP_keeps {s0 s : State} {p : Part} {n : Nat} {k : Nat} (h : Keeps s0 s) :
    Keeps s0 (State.countP s p n k) := by
  unfold State.countP
  try dsimp only
  with_reducible repeat' (first | intro _ | assumption | apply State.count_keeps)

/-- What a Hub core does keeps the queue and the invariant; stopped, it does nothing. -/
theorem State.byCore_keeps {s0 s : State} {i : Nat} {f : State → Out} (h : Keeps s0 s)
    (hf : ∀ s, Keeps s0 s → OutKeeps s0 (f s)) : OutKeeps s0 (s.byCore i f) :=
  OutKeeps.ite (fun _ => hf s h) fun _ => OutKeeps.next h

theorem State.leaveIdle_keeps {s0 s : State} (h : Keeps s0 s) :
    Keeps s0 (State.leaveIdle s) := by
  unfold State.leaveIdle
  try dsimp only
  with_reducible repeat' (first | intro _ | assumption | apply State.setRf_keeps | apply Keeps.ite)

end Sys2Proof.Machine
end

