-- ==== Sys2Proof/Laws/KeepsOps.lean ====
section
/-! SUPPORT. The operations of Machine.Ops keep the queue of commands and the invariant. -/

namespace Sys2Proof.Machine

theorem State.reseat_keeps {s0 old s : State} (h : Keeps s0 s) : Keeps s0 (old.reseat s) :=
  (h.mem fun hw => twf_relocate _ _ hw).marks fun hw => twf_relocate _ _ hw

theorem State.setMark_keeps {s0 s : State} {wn : Nat} {m : WordMark} (h : Keeps s0 s) :
    Keeps s0 (s.setMark wn m) :=
  h.marks fun hw => twf_tset (d := fun _ => WordMark.clear) wn m hw

theorem State.putWord_keeps {s0 s : State} {wn : Nat} {data mask : Line16} (h : Keeps s0 s) :
    Keeps s0 (s.putWord wn data mask) :=
  h.mem fun hw => mwrite_wf _ _ hw

theorem State.noteFault_keeps {s0 s : State} {r : RecInfo} (h : Keeps s0 s) :
    Keeps s0 (State.noteFault s r) := by
  unfold State.noteFault
  try dsimp only
  with_reducible repeat'
    (first
      | intro _ | assumption | apply Keeps.ite | dsimp only | split | apply Keeps.foldl
      | fail_if_no_progress apply Keeps.lit)

theorem State.emit_keeps {s0 s : State} {r : RecInfo} (h : Keeps s0 s) :
    Keeps s0 (State.emit s r) := by
  unfold State.emit
  try dsimp only
  with_reducible repeat'
    (first
      | intro _ | assumption | apply State.drawWord_keeps | apply State.noteFault_keeps | apply State.countB_keeps
      | apply Keeps.ite | dsimp only | split | apply Keeps.foldl | refine Keeps.snd (by assumption) ?_
      | fail_if_no_progress apply Keeps.lit)

theorem State.emitCount_keeps {s0 s : State} {r : RecInfo} {n : Nat} (h : Keeps s0 s) :
    Keeps s0 (State.emitCount s r n) := by
  unfold State.emitCount
  try dsimp only
  with_reducible repeat'
    (first
      | intro _ | assumption | apply State.drawWord_keeps | apply Keeps.ite | dsimp only | split | apply Keeps.foldl
      | refine Keeps.snd (by assumption) ?_ | fail_if_no_progress apply Keeps.lit)

theorem State.raise_keeps {s0 s : State} {p : Part} {vec : Nat} (h : Keeps s0 s) :
    Keeps s0 (State.raise s p vec) := by
  unfold State.raise
  try dsimp only
  with_reducible repeat' (first | intro _ | assumption | apply State.onHport_keeps)

theorem State.errVote_keeps {s0 s : State} {b : Bid} {v : Vote} (h : Keeps s0 s) :
    Keeps s0 (State.errVote s b v) := by
  unfold State.errVote
  try dsimp only
  with_reducible repeat'
    (first
      | intro _ | assumption | apply Keeps.onBench | apply Keeps.ite | exact BenchKeeps.same rfl | apply BenchKeeps.fm
      | exact FmKeeps.same rfl rfl rfl rfl rfl | exact Foreman.setS_sound | exact Foreman.setP_sound
      | exact Foreman.setT_sound | refine FmKeeps.trans ?_ Foreman.setS_sound
      | refine FmKeeps.trans ?_ Foreman.setT_sound | exact FmKeeps.fewer rfl rfl (by simp) (by simp) (by simp)
      | dsimp only | split)

theorem State.castVote_keeps {s0 s : State} {p : Part} {b : Bid} {v : Vote} (h : Keeps s0 s) :
    Keeps s0 (State.castVote s p b v) := by
  unfold State.castVote
  try dsimp only
  with_reducible repeat' (first | intro _ | assumption | apply State.onCtl_keeps)

theorem State.voteNow_keeps {s0 s : State} {b : Bid} {v : Vote} {cause : Nat} (h : Keeps s0 s) :
    Keeps s0 (State.voteNow s b v cause) := by
  unfold State.voteNow
  try dsimp only
  with_reducible repeat'
    (first
      | intro _ | assumption | apply State.onCtl_keeps | apply State.castVote_keeps | apply Keeps.ite | dsimp only
      | split)

theorem State.faultCode_keeps {s0 s : State} {f : FaultAt} {code : Nat} (h : Keeps s0 s) :
    Keeps s0 (State.faultCode s f code) := by
  unfold State.faultCode
  try dsimp only
  with_reducible repeat'
    (first
      | intro _ | assumption | apply Keeps.onBench | apply State.setReg_keeps | apply State.emit_keeps
      | apply State.voteNow_keeps | apply Keeps.ite | exact BenchKeeps.same rfl | apply BenchKeeps.fm
      | exact FmKeeps.same rfl rfl rfl rfl rfl)

theorem State.fault_keeps {s0 s : State} {f : FaultAt} {c : FCode} (h : Keeps s0 s) :
    Keeps s0 (State.fault s f c) := by
  unfold State.fault
  try dsimp only
  with_reducible repeat' (first | intro _ | assumption | apply State.faultCode_keeps)

theorem State.consumed_keeps {s0 s : State} {w : Who} {wn : Nat} (h : Keeps s0 s) :
    Keeps s0 (State.consumed s w wn) := by
  unfold State.consumed
  try dsimp only
  with_reducible repeat'
    (first
      | intro _ | assumption | apply State.emit_keeps | apply Keeps.onBench | apply State.errVote_keeps
      | apply Keeps.ite | exact BenchKeeps.same rfl)

theorem State.memEvent_keeps {s0 s : State} {wn : Nat} {event : Nat} {syn : Word} (h : Keeps s0 s) :
    Keeps s0 (State.memEvent s wn event syn) := by
  unfold State.memEvent
  try dsimp only
  with_reducible repeat' (first | intro _ | assumption | apply State.emit_keeps)

theorem State.memStat_keeps {s0 s : State} {wn : Nat} {i : Nat} (h : Keeps s0 s) :
    Keeps s0 (State.memStat s wn i) := by
  unfold State.memStat
  try dsimp only
  with_reducible repeat' (first | intro _ | assumption | apply State.setRf_keeps | apply Keeps.ite)

theorem State.poisonRead_keeps {s0 s : State} {wn : Nat} (h : Keeps s0 s) :
    Keeps s0 (State.poisonRead s wn) := by
  unfold State.poisonRead
  try dsimp only
  with_reducible repeat' (first | intro _ | assumption | apply State.memStat_keeps | apply Keeps.ite)

theorem State.decodeWord_keeps {s0 s : State} {wn : Nat} {u : Upset} (h : Keeps s0 s) :
    Keeps s0 (State.decodeWord s wn u) := by
  unfold State.decodeWord
  try dsimp only
  with_reducible repeat'
    (first
      | intro _ | assumption | apply State.countB_keeps | apply State.memEvent_keeps | apply State.memStat_keeps
      | apply State.setMark_keeps | apply State.drawWord_keeps | apply State.noteFault_keeps | apply Keeps.ite
      | dsimp only | split)

theorem State.readWord_keeps {s0 s : State} {wn : Nat} {fe : BitVec 2} (h : Keeps s0 s) :
    AccKeeps s0 (State.readWord s wn fe) := by
  unfold State.readWord
  try dsimp only
  with_reducible repeat'
    (first
      | intro _ | assumption | apply AccKeeps.ok | exact AccKeeps.wait | apply State.decodeWord_keeps
      | apply State.setMark_keeps | apply Keeps.ite | dsimp only | split)

theorem State.decodeRange_keeps {s0 s : State} {lo : Nat} {hi : Nat} (h : Keeps s0 s) :
    Keeps s0 (State.decodeRange s lo hi) := by
  unfold State.decodeRange
  try dsimp only
  with_reducible repeat'
    (first
      | intro _ | assumption | apply State.decodeWord_keeps | apply Keeps.ite | apply Keeps.foldl)

theorem State.writeWord_keeps {s0 s : State} {w : WrReq} (h : Keeps s0 s) :
    AccKeeps s0 (State.writeWord s w) := by
  unfold State.writeWord
  try dsimp only
  with_reducible repeat'
    (first
      | intro _ | assumption | apply AccKeeps.ok | exact AccKeeps.wait | apply State.decodeWord_keeps
      | apply State.setMark_keeps | apply State.putWord_keeps | apply Keeps.ite | dsimp only | split)

theorem State.unmapped_keeps {s0 s : State} {a : Nat} (h : Keeps s0 s) : Keeps s0 (State.unmapped s a) := by
  unfold State.unmapped
  try dsimp only
  with_reducible repeat' (first | intro _ | assumption | apply State.setRf_keeps | apply Keeps.ite)

theorem State.refuseAt_keeps {s0 s : State} {p : Part} {op : Option OpInfo} {a : Nat} (h : Keeps s0 s) :
    Keeps s0 (State.refuseAt s p op a) := by
  unfold State.refuseAt
  try dsimp only
  with_reducible repeat' (first | intro _ | assumption | apply State.emit_keeps | apply State.unmapped_keeps)

theorem State.refuseHub_keeps {s0 s : State} {a : Nat} (h : Keeps s0 s) :
    Keeps s0 (State.refuseHub s a) := by
  unfold State.refuseHub
  try dsimp only
  with_reducible repeat' (first | intro _ | assumption | apply State.emit_keeps | apply State.unmapped_keeps)

theorem State.refuse_keeps {s0 s : State} {w : Who} {a : Nat} (h : Keeps s0 s) : Keeps s0 (State.refuse s w a) := by
  unfold State.refuse
  try dsimp only
  with_reducible repeat' (first | intro _ | assumption | apply State.refuseAt_keeps)

end Sys2Proof.Machine
end

