-- ==== Sys2Proof/Laws/KeepsIssue.lean ====
section
/-! SUPPORT. The operations of Machine.Issue keep the queue of commands and the invariant. -/

namespace Sys2Proof.Machine

theorem State.traceAdd_keeps {s0 s : State} {b : Bid} {e : List Word} (h : Keeps s0 s) :
    Keeps s0 (State.traceAdd s b e) := by
  unfold State.traceAdd
  try dsimp only
  with_reducible repeat'
    (first
      | intro _ | assumption | apply State.setRf_keeps | apply State.countB_keeps | apply Keeps.onBench
      | apply Keeps.ite | exact BenchKeeps.same rfl)

theorem State.slotCount_keeps {s0 s : State} {b : Bid} {mark : BitVec 32} {k : Nat} {n : Nat} (h : Keeps s0 s) :
    Keeps s0 (State.slotCount s b mark k n) := by
  unfold State.slotCount
  try dsimp only
  with_reducible repeat'
    (first
      | intro _ | assumption | apply State.count_keeps | apply Keeps.ite | dsimp only | split | apply Keeps.foldl)

theorem State.dispatched_keeps {s0 s : State} {c : Fm} (h : Keeps s0 s) : Keeps s0 (State.dispatched s c) :=
  State.slotCount_keeps (Keeps.ite (fun _ => State.countB_keeps h) fun _ => h)

theorem State.retireOp_keeps {s0 s : State} {b : Bid} {taken : Bool} {op : OpInfo} (h : Keeps s0 s) :
    Keeps s0 (State.retireOp s b taken op) := by
  unfold State.retireOp
  exact State.traceAdd_keeps (State.countB_keeps h)

theorem State.retired_keeps {s0 s : State} {c : Fm} {taken : Bool} {mark : BitVec 32} (h : Keeps s0 s) :
    Keeps s0 (State.retired s c taken mark) := by
  unfold State.retired
  exact State.retireOp_keeps (Keeps.ite (fun _ => State.dispatched_keeps h) fun _ => h)

theorem State.goto_keeps {s0 s : State} {c : Fm} {target : Int} (h : Keeps s0 s) :
    Keeps s0 (State.goto s c target) := by
  unfold State.goto
  try dsimp only
  with_reducible repeat'
    (first
      | intro _ | assumption | apply Keeps.onFm | apply State.fault_keeps | apply Keeps.ite
      | exact BenchKeeps.same rfl | apply BenchKeeps.fm | exact FmKeeps.same rfl rfl rfl rfl rfl)

theorem issue_keeps {s0 : State} {h0 : Issue} {n : Nat} {opcode : BitVec 10} {body : Fm → State → Disp} {s : State}
    (hbody : ∀ y0 y1, Keeps s0 y1 → DispKeeps s0 (body y0 y1)) (h : Keeps s0 s) :
    OutKeeps s0 (issue h0 n opcode body s) := by
  unfold issue
  try dsimp only
  with_reducible repeat'
    (first
      | intro _ | assumption | apply OutKeeps.next | apply State.fault_keeps | apply State.goto_keeps
      | apply State.retired_keeps | apply State.dispatched_keeps | apply hbody | apply Keeps.ite | apply OutKeeps.ite
      | dsimp only | split | apply Keeps.foldl | refine DispKeeps.getFailed (by assumption) ?_
      | refine DispKeeps.getDone (by assumption) ?_ | refine DispKeeps.getLater (by assumption) ?_
      | refine DispKeeps.getMarked (by assumption) ?_ | refine DispKeeps.getJump (by assumption) ?_)

theorem issueIf_keeps {s0 : State} {ok : Bool} {h1 : Issue} {n : Nat} {opcode : BitVec 10}
    {body : Fm → State → Disp} {s : State} (hbody : ∀ y0 y1, Keeps s0 y1 → DispKeeps s0 (body y0 y1))
    (h : Keeps s0 s) :
    OutKeeps s0 (issueIf ok h1 n opcode body s) := by
  unfold issueIf
  try dsimp only
  with_reducible repeat'
    (first
      | intro _ | assumption | apply OutKeeps.next | exact DispKeeps.stall | exact DispKeeps.fault
      | apply DispKeeps.failed | apply DispKeeps.done | apply DispKeeps.marked | apply DispKeeps.jump
      | apply issue_keeps | apply State.fault_keeps | apply hbody | apply Keeps.ite | apply OutKeeps.ite)

theorem valid_keeps {s0 s : State} {ok : Bool} {body : Fm → State → Disp} {c : Fm}
    (hbody : ∀ y0 y1, Keeps s0 y1 → DispKeeps s0 (body y0 y1)) (h : Keeps s0 s) :
    DispKeeps s0 (valid ok body c s) := by
  unfold valid
  try dsimp only
  with_reducible repeat'
    (first
      | intro _ | assumption | exact DispKeeps.stall | exact DispKeeps.fault | apply DispKeeps.failed
      | apply DispKeeps.done | apply DispKeeps.marked | apply DispKeeps.jump | apply hbody | apply State.fault_keeps
      | apply Keeps.ite | apply DispKeeps.ite)

theorem waitS_keeps {s0 : State} {rs : List (BitVec 5)} {body : Fm → State → Disp} {c : Fm} {s : State}
    (hbody : ∀ y0 y1, Keeps s0 y1 → DispKeeps s0 (body y0 y1)) (h : Keeps s0 s) :
    DispKeeps s0 (waitS rs body c s) := by
  unfold waitS
  try dsimp only
  with_reducible repeat'
    (first
      | intro _ | assumption | exact DispKeeps.stall | exact DispKeeps.fault | apply DispKeeps.failed
      | apply DispKeeps.done | apply DispKeeps.marked | apply DispKeeps.jump | apply hbody | apply Keeps.ite
      | apply DispKeeps.ite)

theorem dispatch_keeps {s0 : State} {q : Fin 8} {op : EngOp} {sel : Nat} {ds : List (BitVec 4)} {rs : List
    (BitVec 5)} {c : Fm} {s : State} (h : Keeps s0 s) :
    DispKeeps s0 (dispatch q op sel ds rs c s) := by
  unfold dispatch
  try dsimp only
  with_reducible repeat'
    (first
      | intro _ | assumption | exact DispKeeps.stall | exact DispKeeps.fault | apply DispKeeps.failed
      | apply DispKeeps.done | apply DispKeeps.marked | apply DispKeeps.jump | apply Keeps.setQueue | apply Keeps.onFm
      | apply State.slotCount_keeps | apply State.countB_keeps | apply Keeps.ite | apply DispKeeps.ite
      | exact BenchKeeps.same rfl | apply BenchKeeps.fm | exact FmKeeps.same rfl rfl rfl rfl rfl)

theorem State.completed_keeps {s0 s : State} {b : Bid} {id : Nat} (h : Keeps s0 s) :
    Keeps s0 (State.completed s b id) := by
  unfold State.completed
  try dsimp only
  with_reducible repeat'
    (first
      | intro _ | assumption | apply Keeps.onFm | apply Keeps.ite | exact BenchKeeps.same rfl | apply BenchKeeps.fm
      | exact FmKeeps.same rfl rfl rfl rfl rfl | exact Foreman.setS_sound | exact Foreman.setP_sound
      | exact Foreman.setT_sound | refine FmKeeps.trans ?_ Foreman.setS_sound
      | refine FmKeeps.trans ?_ Foreman.setT_sound | exact FmKeeps.fewer rfl rfl (by simp) (by simp) (by simp))

theorem State.openGate_keeps {s0 s : State} {b : Bid} {id : Nat} (h : Keeps s0 s) :
    Keeps s0 (State.openGate s b id) := by
  unfold State.openGate
  try dsimp only
  with_reducible repeat'
    (first
      | intro _ | assumption | apply Keeps.onBench | apply Keeps.ite | exact BenchKeeps.same rfl | apply BenchKeeps.fm
      | exact FmKeeps.same rfl rfl rfl rfl rfl)

theorem State.placeGate_keeps {s0 s : State} {c : Fm} {kind : GateKind} {gate : BitVec 8} {rd : BitVec 5}
    (h : Keeps s0 s) :
    Keeps s0 (State.placeGate s c kind gate rd) := by
  unfold State.placeGate
  try dsimp only
  with_reducible repeat'
    (first
      | intro _ | assumption | apply Keeps.onBench | apply Keeps.ite | exact BenchKeeps.same rfl | apply BenchKeeps.fm
      | exact FmKeeps.same rfl rfl rfl rfl rfl)

end Sys2Proof.Machine
end

