-- ==== Sys2Proof/Laws/KeepsEngine.lean ====
section
/-! SUPPORT. The operations of Machine.Engine keep the queue of commands and the invariant. -/

namespace Sys2Proof.Machine

theorem State.copyPage_keeps {s0 s : State} {src dst : Nat} (h : Keeps s0 s) :
    Keeps s0 (s.copyPage src dst) := by
  have hm (l : List Host.Cell) (f : Host.Cell → Nat) (m : List Host.Cell) (hw : Memory.wf m) :
      Memory.wf (l.foldl (fun m e => mset m (f e) e.2) m) := by
    induction l generalizing m with
    | nil => exact hw
    | cons x xs ih => exact ih _ (mset_wf _ _ hw)
  have hk (l : Tab WordMark) (f : Nat × WordMark → Nat) (m : Tab WordMark) (hw : twf (fun _ => WordMark.clear) m) :
      twf (fun _ => WordMark.clear) (l.foldl (fun m e => tset WordMark.clear m (f e) e.2) m) := by
    induction l generalizing m with
    | nil => exact hw
    | cons x xs ih => exact ih _ (twf_tset (d := fun _ => WordMark.clear) _ _ hw)
  exact (h.mem fun hw => hm _ _ _ (twf_tclear _ _ hw)).marks fun hw => hk _ _ _ (twf_tclear _ _ hw)

theorem State.setTx_keeps {s0 s : State} {p : Part} {t : Option MirrorTx} (h : Keeps s0 s) :
    Keeps s0 (State.setTx s p t) := by
  unfold State.setTx
  try dsimp only
  with_reducible repeat' (first | intro _ | assumption | apply State.onBulk_keeps)

theorem State.mirEnd_keeps {s0 s : State} {p : Part} {ok : Bool} (h : Keeps s0 s) :
    Keeps s0 (State.mirEnd s p ok) := by
  unfold State.mirEnd
  try dsimp only
  with_reducible repeat' (first | intro _ | assumption | apply State.setRb_keeps | apply State.setTx_keeps)

theorem State.breakSet_keeps {s0 s : State} {p : Part} {n : Fin 4} (h : Keeps s0 s) :
    Keeps s0 (State.breakSet s p n) := by
  unfold State.breakSet
  try dsimp only
  with_reducible repeat'
    (first
      | intro _ | assumption | apply State.emit_keeps | apply State.mirEnd_keeps | apply State.setRb_keeps
      | apply Keeps.ite | dsimp only | split)

theorem State.slotsUsed_keeps {s0 s : State} {k : Fin 8} {cls cost bytes : Nat} (h : Keeps s0 s) :
    Keeps s0 (State.slotsUsed s k cls cost bytes) := by
  unfold State.slotsUsed
  try dsimp only
  with_reducible repeat' (first | intro _ | assumption | apply State.countH_keeps | apply State.onStk_keeps)

theorem State.chargeGranule_keeps {s0 s : State} {p : Part} {granule cls : Nat} {read : Bool} {bytes : Nat}
    (h : Keeps s0 s) :
    Keeps s0 (State.chargeGranule s p granule cls read bytes) := by
  unfold State.chargeGranule
  try dsimp only
  with_reducible repeat' (first | intro _ | assumption | apply State.slotsUsed_keeps)

theorem State.charge_keeps {s0 s : State} {p : Part} {read : Bool} {l : List (Nat × Nat × Nat)} (h : Keeps s0 s) :
    Keeps s0 (State.charge s p read l) := by
  unfold State.charge
  try dsimp only
  with_reducible repeat'
    (first
      | intro _ | assumption | apply State.chargeGranule_keeps | dsimp only | split | apply Keeps.foldl)

theorem State.protect_keeps {s0 s : State} {p : Part} {cls page : Nat} (h : Keeps s0 s) :
    Keeps s0 (State.protect s p cls page) := by
  unfold State.protect
  try dsimp only
  with_reducible repeat'
    (first
      | intro _ | assumption | apply State.breakSet_keeps | apply State.copyPage_keeps | apply State.countH_keeps
      | apply State.onCow_keeps | apply State.setRf_keeps | apply State.slotsUsed_keeps | apply Keeps.ite | dsimp only
      | split | apply Keeps.foldl)

theorem State.viewRead_keeps {s0 s : State} {p : Part} {n : Fin 4} {wn : Nat} (h : Keeps s0 s) :
    Keeps s0 (State.viewRead s p n wn).2 := by
  unfold State.viewRead
  try dsimp only
  with_reducible repeat'
    (first
      | intro _ | assumption | apply State.decodeWord_keeps | apply Keeps.ite | dsimp only | split)

theorem State.access_keeps {s0 s : State} {w : Who} {r : RdReq} (h : Keeps s0 s) :
    PerfKeeps s0 (State.access s w r) := by
  unfold State.access
  try dsimp only
  with_reducible repeat'
    (first
      | intro _ | assumption | apply PerfKeeps.ok | apply PerfKeeps.wait | apply PerfKeeps.refused
      | apply State.refuse_keeps | apply State.slotCount_keeps | apply State.consumed_keeps
      | apply State.memStat_keeps | apply State.viewRead_keeps | apply State.readWord_keeps | apply Keeps.ite
      | dsimp only | split | apply Keeps.foldl | refine Keeps.snd (by assumption) ?_
      | refine AccKeeps.get (by assumption) ?_)

theorem State.store_keeps {s0 s : State} {w : Who} {r : WrReq} (h : Keeps s0 s) :
    PerfKeeps s0 (State.store s w r) := by
  unfold State.store
  try dsimp only
  with_reducible repeat'
    (first
      | intro _ | assumption | apply PerfKeeps.ok | apply PerfKeeps.wait | apply PerfKeeps.refused
      | apply State.protect_keeps | apply State.refuse_keeps | apply State.slotCount_keeps
      | apply State.writeWord_keeps | apply Keeps.ite | dsimp only | split | refine AccKeeps.get (by assumption) ?_)

theorem Perf.map_keeps {α : Type} {s0 : State} {f : State → State} {a : Perf α} (hf : ∀ s, Keeps s0 s → Keeps s0 (f s))
    (h : PerfKeeps s0 a) : PerfKeeps s0 (a.map f) := by
  cases a <;> exact hf _ h

theorem State.readSeq_keeps {s0 : State} {w : Who} {l : List RdReq} {g : Tab Got} {s : State} (h : Keeps s0 s) :
    PerfKeeps s0 (State.readSeq w l g s).1 := by
  induction l generalizing g s with
  | nil => exact h
  | cons r rest ih =>
    have ha : PerfKeeps s0 (s.access w r) := State.access_keeps h
    unfold State.readSeq
    split
    · exact ih (PerfKeeps.getOk (by assumption) ha)
    · exact PerfKeeps.getWait (by assumption) ha
    · exact PerfKeeps.getRefused (by assumption) ha

theorem State.writeSeq_keeps {s0 : State} {w : Who} {l : List WrReq} {s : State} (h : Keeps s0 s) :
    PerfKeeps s0 (State.writeSeq w l s).1 := by
  induction l generalizing s with
  | nil => exact h
  | cons r rest ih =>
    have ha : PerfKeeps s0 (s.store w r) := State.store_keeps h
    unfold State.writeSeq
    split
    · exact ih (PerfKeeps.getOk (by assumption) ha)
    · exact PerfKeeps.getWait (by assumption) ha
    · exact PerfKeeps.getRefused (by assumption) ha

theorem State.readAll_keeps {s0 : State} {w : Who} {l : List RdReq} {g : Tab Got} {s : State} (h : Keeps s0 s) :
    PerfKeeps s0 (State.readAll w l g s).1 := Perf.map_keeps (fun _ k => State.charge_keeps k) (State.readSeq_keeps h)

theorem State.writeAll_keeps {s0 : State} {w : Who} {l : List WrReq} {s : State} (h : Keeps s0 s) :
    PerfKeeps s0 (State.writeAll w l s).1 := Perf.map_keeps (fun _ k => State.charge_keeps k) (State.writeSeq_keeps h)

theorem State.tally_keeps {s0 s : State} {b : Bid} {id : Nat} {cls : Nat} {e : Ev} (h : Keeps s0 s) :
    Keeps s0 (State.tally s b id cls e) := by
  unfold State.tally
  try dsimp only
  with_reducible repeat'
    (first
      | intro _ | assumption | apply State.count_keeps | apply State.setRf_keeps | apply Keeps.onBench
      | apply Keeps.ite | exact BenchKeeps.same rfl | apply BenchKeeps.fm | exact FmKeeps.same rfl rfl rfl rfl rfl
      | exact Foreman.setS_sound | exact Foreman.setP_sound | exact Foreman.setT_sound
      | refine FmKeeps.trans ?_ Foreman.setS_sound | refine FmKeeps.trans ?_ Foreman.setT_sound
      | exact FmKeeps.fewer rfl rfl (by simp) (by simp) (by simp) | dsimp only | split | apply Keeps.foldl)

theorem State.joinLate_keeps {s0 s : State} {b : Bid} (h : Keeps s0 s) : Keeps s0 (State.joinLate s b) := by
  unfold State.joinLate
  try dsimp only
  with_reducible repeat'
    (first
      | intro _ | assumption | apply State.setRf_keeps | apply Keeps.onBench | apply Keeps.onFm
      | exact BenchKeeps.same rfl | apply BenchKeeps.fm | exact FmKeeps.same rfl rfl rfl rfl rfl | apply Keeps.ite
      | dsimp only | split | apply Keeps.foldl)

theorem State.dequeue_keeps {s0 s : State} {b : Bid} {q : Fin 8} {id : Nat} (h : Keeps s0 s) :
    Keeps s0 (State.dequeue s b q id) := by
  unfold State.dequeue
  try dsimp only
  with_reducible repeat' (first | intro _ | assumption | apply Keeps.setQueue)

theorem State.assign_keeps {s0 s : State} {b : Bid} {q : Fin 8} (h : Keeps s0 s) : Keeps s0 (State.assign s b q) := by
  unfold State.assign
  try dsimp only
  with_reducible repeat' (first | intro _ | assumption | apply Keeps.setQueue)

theorem State.assignAll_keeps {s0 s : State} {b : Bid} (h : Keeps s0 s) :
    Keeps s0 (State.assignAll s b) := by
  unfold State.assignAll
  try dsimp only
  with_reducible repeat' (first | intro _ | assumption | apply State.assign_keeps)

theorem State.setRunning_keeps {s0 s : State} {b : Bid} {r : Running} (h : Keeps s0 s) :
    Keeps s0 (State.setRunning s b r) := by
  unfold State.setRunning
  try dsimp only
  with_reducible repeat'
    (first
      | intro _ | assumption | apply Keeps.onBench | apply Keeps.ite | exact BenchKeeps.same rfl)

theorem State.dropRunning_keeps {s0 s : State} {b : Bid} {q : Fin 8} {u : Nat} (h : Keeps s0 s) :
    Keeps s0 (State.dropRunning s b q u) := by
  unfold State.dropRunning
  try dsimp only
  with_reducible repeat'
    (first
      | intro _ | assumption | apply State.assign_keeps | apply Keeps.onBench | apply Keeps.ite
      | exact BenchKeeps.same rfl)

theorem State.addPartial_keeps {s0 s : State} {b : Bid} {cls : Nat} {v : List Word} (h : Keeps s0 s) :
    Keeps s0 (State.addPartial s b cls v) := by
  unfold State.addPartial
  try dsimp only
  with_reducible repeat' (first | intro _ | assumption | apply State.setReg_keeps)

theorem State.flushDeposits_keeps {s0 s : State} {b : Bid} (h : Keeps s0 s) : Keeps s0 (State.flushDeposits s b) := by
  unfold State.flushDeposits
  try dsimp only
  with_reducible repeat'
    (first
      | intro _ | assumption | apply State.addPartial_keeps | apply Keeps.onBench | apply Keeps.onFm
      | exact BenchKeeps.same rfl | apply BenchKeeps.fm | exact FmKeeps.same rfl rfl rfl rfl rfl | dsimp only | split
      | apply Keeps.foldl)

theorem State.faultHead_keeps {s0 s : State} {f : FaultAt} {c : FCode} (h : Keeps s0 s) :
    Keeps s0 (State.faultHead s f c) := by
  unfold State.faultHead
  try dsimp only
  with_reducible repeat' (first | intro _ | assumption | apply State.fault_keeps | apply State.flushDeposits_keeps)

theorem State.failRunning_keeps {s0 s : State} {b : Bid} {r : Running} {c : FCode} (h : Keeps s0 s) :
    Keeps s0 (State.failRunning s b r c) := by
  unfold State.failRunning
  try dsimp only
  with_reducible repeat' (first | intro _ | assumption | apply State.dropRunning_keeps | apply State.faultHead_keeps)

theorem State.park_keeps {s0 s : State} {wn : Nat} {was : Bool} (h : Keeps s0 s) :
    Keeps s0 (State.park s wn was) := by
  unfold State.park
  try dsimp only
  with_reducible repeat' (first | intro _ | assumption | apply State.countB_keeps | apply Keeps.ite)

theorem State.parkWrite_keeps {s0 s : State} {l : List WrReq} {was : Bool} (h : Keeps s0 s) :
    Keeps s0 (State.parkWrite s l was) := by
  unfold State.parkWrite
  try dsimp only
  with_reducible repeat'
    (first
      | intro _ | assumption | apply State.park_keeps | apply Keeps.ite | dsimp only | split)

theorem State.noteGrant_keeps {s0 s : State} {c : Bid} {n : Nat} {wn : Nat} (h : Keeps s0 s) :
    Keeps s0 (State.noteGrant s c n wn) := by
  unfold State.noteGrant
  try dsimp only
  with_reducible repeat'
    (first
      | intro _ | assumption | apply Keeps.onBench | exact BenchKeeps.same rfl | apply Keeps.ite)

end Sys2Proof.Machine
end

