-- ==== Sys2Proof/Laws/KeepsArrays.lean ====
section
/-! SUPPORT. The operations of Machine.Arrays keep the queue of commands and the invariant. -/

namespace Sys2Proof.Machine

theorem execCutMm_keeps {s0 : State} {h0 : Issue} {f : MMFields} {s : State} (h : Keeps s0 s) :
    OutKeeps s0 (execCutMm h0 f s) := by
  unfold execCutMm
  try dsimp only
  with_reducible repeat'
    (first
      | intro _ | assumption | apply OutKeeps.next | exact DispKeeps.stall | exact DispKeeps.fault
      | apply DispKeeps.failed | apply DispKeeps.done | apply DispKeeps.marked | apply DispKeeps.jump
      | apply issueIf_keeps | apply dispatch_keeps | apply Keeps.ite | apply OutKeeps.ite | apply DispKeeps.ite)

theorem execDrsMm_keeps {s0 : State} {h0 : Issue} {f : MMFields} {s : State} (h : Keeps s0 s) :
    OutKeeps s0 (execDrsMm h0 f s) := by
  unfold execDrsMm
  try dsimp only
  with_reducible repeat'
    (first
      | intro _ | assumption | apply OutKeeps.next | exact DispKeeps.stall | exact DispKeeps.fault
      | apply DispKeeps.failed | apply DispKeeps.done | apply DispKeeps.marked | apply DispKeeps.jump
      | apply issueIf_keeps | apply dispatch_keeps)

theorem execArrayHeadCheck_keeps {s0 : State} {b : Bid} {u : Fin 12} {s : State} (h : Keeps s0 s) :
    OutKeeps s0 (execArrayHeadCheck b u s) := by
  unfold execArrayHeadCheck
  try dsimp only
  with_reducible repeat'
    (first
      | intro _ | assumption | apply OutKeeps.next | apply State.fault_keeps | apply Keeps.setArr | apply Keeps.ite
      | apply OutKeeps.ite | dsimp only | split)

theorem State.failArr_keeps {s0 s : State} {b : Bid} {u : Fin 12} {j : ArrJob} {c : FCode} (h : Keeps s0 s) :
    Keeps s0 (State.failArr s b u j c) := by
  unfold State.failArr
  try dsimp only
  with_reducible repeat' (first | intro _ | assumption | apply State.fault_keeps | apply Keeps.setArr)

theorem execTileLoadStart_keeps {s0 : State} {b : Bid} {u : Fin 12} {s : State} (h : Keeps s0 s) :
    OutKeeps s0 (execTileLoadStart b u s) := by
  unfold execTileLoadStart
  try dsimp only
  with_reducible repeat'
    (first
      | intro _ | assumption | apply OutKeeps.next | apply State.fault_keeps | apply State.dequeue_keeps
      | apply Keeps.setArr | apply State.countB_keeps | apply Keeps.ite | apply OutKeeps.ite | dsimp only | split)

theorem execTileLoadDone_keeps {s0 : State} {b : Bid} {u : Fin 12} {s : State} (h : Keeps s0 s) :
    OutKeeps s0 (execTileLoadDone b u s) := by
  unfold execTileLoadDone
  try dsimp only
  with_reducible repeat'
    (first
      | intro _ | assumption | apply OutKeeps.next | apply State.readAll_keeps | apply State.failArr_keeps
      | apply Keeps.setArr | apply State.park_keeps | apply Keeps.ite | apply OutKeeps.ite | dsimp only | split
      | apply Keeps.foldl | refine PerfKeeps.getOkFst (by assumption) ?_
      | refine PerfKeeps.getWaitFst (by assumption) ?_ | refine PerfKeeps.getRefusedFst (by assumption) ?_)

theorem State.toFront_keeps {s0 s : State} {b : Bid} {u : Fin 12} {j : ArrJob} {tile : Tile} {a : ArrayUnit}
    (h : Keeps s0 s) :
    Keeps s0 (State.toFront s b u j tile a) := by
  unfold State.toFront
  try dsimp only
  with_reducible repeat' (first | intro _ | assumption | apply Keeps.setArr | apply Keeps.ite)

theorem execStreamStart_keeps {s0 : State} {b : Bid} {u : Fin 12} {s : State} (h : Keeps s0 s) :
    OutKeeps s0 (execStreamStart b u s) := by
  unfold execStreamStart
  try dsimp only
  with_reducible repeat'
    (first
      | intro _ | assumption | apply OutKeeps.next | apply State.toFront_keeps | apply State.fault_keeps
      | apply State.dequeue_keeps | apply Keeps.setArr | apply Keeps.ite | apply OutKeeps.ite | dsimp only | split)

theorem State.checkEvent_keeps {s0 s : State} {b : Bid} {u : Fin 12} {j : ArrJob} {level : Nat} {event : Nat}
    {rc : Option (Nat × Nat)} {syn : Word} (h : Keeps s0 s) :
    Keeps s0 (State.checkEvent s b u j level event rc syn) := by
  unfold State.checkEvent
  try dsimp only
  with_reducible repeat' (first | intro _ | assumption | apply State.emit_keeps | apply State.errVote_keeps)

theorem execAccumRowUpdate_keeps {s0 : State} {b : Bid} {u : Fin 12} {upset : Option ArrayUpset} {s : State}
    (h : Keeps s0 s) :
    OutKeeps s0 (execAccumRowUpdate b u upset s) := by
  unfold execAccumRowUpdate
  try dsimp only
  with_reducible repeat'
    (first
      | intro _ | assumption | apply OutKeeps.next | apply State.readAll_keeps | apply State.failArr_keeps
      | apply State.park_keeps | apply Keeps.setArr | apply State.countB_keeps | apply State.checkEvent_keeps
      | apply Keeps.ite | apply OutKeeps.ite | dsimp only | split | apply Keeps.foldl
      | refine PerfKeeps.getOkFst (by assumption) ?_ | refine PerfKeeps.getWaitFst (by assumption) ?_
      | refine PerfKeeps.getRefusedFst (by assumption) ?_)

theorem execAccumDrainRow_keeps {s0 : State} {b : Bid} {u : Fin 12} {s : State} (h : Keeps s0 s) :
    OutKeeps s0 (execAccumDrainRow b u s) := by
  unfold execAccumDrainRow
  try dsimp only
  with_reducible repeat'
    (first
      | intro _ | assumption | apply OutKeeps.next | apply State.writeAll_keeps | apply State.failArr_keeps
      | apply State.parkWrite_keeps | apply Keeps.setArr | apply State.tally_keeps | apply Keeps.ite | apply OutKeeps.ite
      | dsimp only | split | apply Keeps.foldl | refine PerfKeeps.getOkFst (by assumption) ?_
      | refine PerfKeeps.getWaitFst (by assumption) ?_ | refine PerfKeeps.getRefusedFst (by assumption) ?_)

theorem execArrayInstrComplete_keeps {s0 : State} {b : Bid} {u : Fin 12} {s : State} (h : Keeps s0 s) :
    OutKeeps s0 (execArrayInstrComplete b u s) := by
  unfold execArrayInstrComplete
  try dsimp only
  with_reducible repeat'
    (first
      | intro _ | assumption | apply OutKeeps.next | apply State.completed_keeps | apply Keeps.setArr
      | apply Keeps.ite | apply OutKeeps.ite | dsimp only | split)

theorem State.writeCutCtl_keeps {s0 s : State} {b : Bid} {v : Word} (h : Keeps s0 s) :
    Keeps s0 (State.writeCutCtl s b v) := by
  unfold State.writeCutCtl
  try dsimp only
  with_reducible repeat' (first | intro _ | assumption | apply State.setRf_keeps | apply Keeps.ite)

theorem execCutCtlModeWrite_keeps {s0 : State} {b : Bid} {v : Word} {s : State} (h : Keeps s0 s) :
    OutKeeps s0 (execCutCtlModeWrite b v s) := by
  unfold execCutCtlModeWrite
  try dsimp only
  with_reducible repeat' (first | intro _ | assumption | apply OutKeeps.next | apply State.writeCutCtl_keeps)

theorem execCutModeSwitchDone_keeps {s0 : State} {b : Bid} {s : State} (h : Keeps s0 s) :
    OutKeeps s0 (execCutModeSwitchDone b s) := by
  unfold execCutModeSwitchDone
  try dsimp only
  with_reducible repeat'
    (first
      | intro _ | assumption | apply OutKeeps.next | apply State.setRf_keeps | apply Keeps.ite | apply OutKeeps.ite)

theorem State.writeErrBctl_keeps {s0 s : State} {b : Bid} {v : Word} (h : Keeps s0 s) :
    Keeps s0 (State.writeErrBctl s b v) := by
  unfold State.writeErrBctl
  try dsimp only
  with_reducible repeat'
    (first
      | intro _ | assumption | apply State.setRf_keeps | apply Keeps.setQueue | apply Keeps.ite)

theorem execErrBctlModeWrite_keeps {s0 : State} {b : Bid} {v : Word} {s : State} (h : Keeps s0 s) :
    OutKeeps s0 (execErrBctlModeWrite b v s) := by
  unfold execErrBctlModeWrite
  try dsimp only
  with_reducible repeat' (first | intro _ | assumption | apply OutKeeps.next | apply State.writeErrBctl_keeps)

theorem execCheckModeSwitchDone_keeps {s0 : State} {b : Bid} {s : State} (h : Keeps s0 s) :
    OutKeeps s0 (execCheckModeSwitchDone b s) := by
  unfold execCheckModeSwitchDone
  try dsimp only
  with_reducible repeat'
    (first
      | intro _ | assumption | apply OutKeeps.next | apply Keeps.setQueue | apply State.setRf_keeps | apply Keeps.ite
      | apply OutKeeps.ite | dsimp only | split)

end Sys2Proof.Machine
end

