-- ==== Sys2Proof/Laws/KeepsAudit.lean ====
section
/-! SUPPORT. The operations of Machine.Audit keep the queue of commands and the invariant. -/

namespace Sys2Proof.Machine

theorem State.auditAdd_keeps {s0 s : State} {e : AuditEnt} (h : Keeps s0 s) :
    Keeps s0 (State.auditAdd s e) := by
  unfold State.auditAdd
  try dsimp only
  with_reducible repeat' (first | intro _ | assumption | apply State.onMgmt_keeps | apply State.countH_keeps)

theorem State.checkpoint_keeps {s0 s : State} (h : Keeps s0 s) :
    Keeps s0 (State.checkpoint s) := by
  unfold State.checkpoint
  try dsimp only
  with_reducible repeat' (first | intro _ | assumption | apply State.auditAdd_keeps)

theorem State.auditEntry_keeps {s0 s : State} {role : Nat} {chan : Nat} {key : Nat} {msg : Nat} {result : Nat}
    {arg0 : Word} {arg1 : Word} {payload : List Byte} (h : Keeps s0 s) :
    Keeps s0 (State.auditEntry s role chan key msg result arg0 arg1 payload) := by
  unfold State.auditEntry
  try dsimp only
  with_reducible repeat'
    (first
      | intro _ | assumption | apply State.auditAdd_keeps | apply State.checkpoint_keeps | apply Keeps.ite)

theorem execAuditCheckpointTimer_keeps {s0 s : State} (h : Keeps s0 s) :
    OutKeeps s0 (execAuditCheckpointTimer s) := by
  unfold execAuditCheckpointTimer
  try dsimp only
  with_reducible repeat'
    (first
      | intro _ | assumption | apply OutKeeps.next | apply State.checkpoint_keeps | apply Keeps.ite
      | apply OutKeeps.ite | dsimp only | split | apply Keeps.foldl | fail_if_no_progress apply Keeps.lit)

end Sys2Proof.Machine
end

