-- ==== Sys2Proof/Laws/KeepsPacket.lean ====
section
/-! SUPPORT. The operations of Machine.Packet keep the queue of commands and the invariant. -/

namespace Sys2Proof.Machine

theorem State.dropFormat_keeps {s0 s : State} {p : Part} (h : Keeps s0 s) :
    Keeps s0 (State.dropFormat s p) := by
  unfold State.dropFormat
  try dsimp only
  with_reducible repeat' (first | intro _ | assumption | apply State.count_keeps)

theorem State.dropRoute_keeps {s0 s : State} {p : Part} (h : Keeps s0 s) :
    Keeps s0 (State.dropRoute s p) := by
  unfold State.dropRoute
  try dsimp only
  with_reducible repeat' (first | intro _ | assumption | apply State.count_keeps)

theorem State.dropLost_keeps {s0 s : State} {p : Part} (h : Keeps s0 s) :
    Keeps s0 (State.dropLost s p) := by
  unfold State.dropLost
  try dsimp only
  with_reducible repeat' (first | intro _ | assumption | apply State.count_keeps)

theorem State.dropStale_keeps {s0 s : State} {p : Part} (h : Keeps s0 s) :
    Keeps s0 (State.dropStale s p) := by
  unfold State.dropStale
  try dsimp only
  with_reducible repeat' (first | intro _ | assumption | apply State.count_keeps)

theorem State.enqueue_keeps {s0 s : State} {n : PortNo} {pkt : Packet} (h : Keeps s0 s) :
    Keeps s0 (State.enqueue s n pkt) := by
  unfold State.enqueue
  try dsimp only
  with_reducible repeat' (first | intro _ | assumption | apply State.onPort_keeps)

theorem State.freed_keeps {s0 s : State} {arrival : Option PortNo} {pkt : Packet} (h : Keeps s0 s) :
    Keeps s0 (State.freed s arrival pkt) := by
  unfold State.freed
  try dsimp only
  with_reducible repeat' (first | intro _ | assumption | apply State.onPort_keeps | dsimp only | split)

theorem State.deliver_keeps {s0 s : State} {arrival : Option PortNo} {p : Part} {pkt : Packet} (h : Keeps s0 s) :
    Keeps s0 (State.deliver s arrival p pkt) := by
  unfold State.deliver
  try dsimp only
  with_reducible repeat'
    (first
      | intro _ | assumption | apply State.dropFormat_keeps | apply State.dropLost_keeps | apply State.dropRoute_keeps
      | apply State.dropStale_keeps | apply State.freed_keeps | apply Keeps.ite | dsimp only | split
      | fail_if_no_progress apply Keeps.lit)

theorem State.forward_keeps {s0 s : State} {p : Part} {arrival : Option PortNo} {pkt : Packet} (h : Keeps s0 s) :
    Keeps s0 (State.forward s p arrival pkt) := by
  unfold State.forward
  try dsimp only
  with_reducible repeat'
    (first
      | intro _ | assumption | apply State.dropLost_keeps | apply State.dropRoute_keeps | apply State.enqueue_keeps
      | apply Keeps.ite | dsimp only | split)

theorem State.send_keeps {s0 s : State} {p : Part} {pkt : Packet} (h : Keeps s0 s) :
    Keeps s0 (State.send s p pkt) := by
  unfold State.send
  try dsimp only
  with_reducible repeat'
    (first
      | intro _ | assumption | apply State.deliver_keeps | apply State.dropRoute_keeps | apply State.dropLost_keeps
      | apply State.forward_keeps | apply Keeps.ite)

theorem State.sendPort_keeps {s0 s : State} {p : Part} {port : PortNo} {pkt : Packet} (h : Keeps s0 s) :
    Keeps s0 (State.sendPort s p port pkt) := by
  unfold State.sendPort
  try dsimp only
  with_reducible repeat'
    (first
      | intro _ | assumption | apply State.dropLost_keeps | apply State.dropRoute_keeps | apply State.enqueue_keeps
      | apply Keeps.ite)

theorem State.takePacket.go_keeps {s0 s : State} {want : Option PortNo × Packet → Bool}
    {l seen : List (Option PortNo × Packet)} (h : Keeps s0 s) : OptSndKeeps s0 (State.takePacket.go s want l seen) := by
  induction l generalizing seen with
  | nil => trivial
  | cons x rest ih =>
    unfold State.takePacket.go
    split
    · exact State.freed_keeps h.lit
    · exact ih

theorem State.takePacket_keeps {s0 s : State} {want : Option PortNo × Packet → Bool} (h : Keeps s0 s) :
    OptSndKeeps s0 (s.takePacket want) := State.takePacket.go_keeps h

theorem State.discard_keeps {s0 s : State} {drop : Option PortNo × Packet → Bool} (h : Keeps s0 s) :
    Keeps s0 (State.discard s drop) := by
  unfold State.discard
  try dsimp only
  with_reducible repeat'
    (first
      | intro _ | assumption | apply State.freed_keeps | dsimp only | split | apply Keeps.foldl
      | fail_if_no_progress apply Keeps.lit)

end Sys2Proof.Machine
end

