-- ==== Sys2Proof/Laws/KeepsConvert.lean ====
section
/-! SUPPORT. The operations of Machine.Convert keep the queue of commands and the invariant. -/

namespace Sys2Proof.Machine

theorem State.satRead_keeps {s0 s : State} {b : Bid} {id : Nat} {cls : Nat} {n : Nat} (h : Keeps s0 s) :
    Keeps s0 (State.satRead s b id cls n) := by
  unfold State.satRead
  try dsimp only
  with_reducible repeat' (first | intro _ | assumption | apply State.tally_keeps)

theorem State.residueEvent_keeps {s0 s : State} {b : Bid} {w : Who} {r : Running} (h : Keeps s0 s) :
    Keeps s0 (State.residueEvent s b w r) := by
  unfold State.residueEvent
  try dsimp only
  with_reducible repeat'
    (first
      | intro _ | assumption | apply State.emit_keeps | apply State.errVote_keeps | apply Keeps.ite | dsimp only
      | split)

theorem State.beginOn_keeps {s0 s : State} {b : Bid} {q : Fin 8}
    {checks : State → Entry → Nat → List (Bool × FCode)} {start : State → Entry → Nat → Start} (h : Keeps s0 s) :
    Keeps s0 (State.beginOn s b q checks start) := by
  unfold State.beginOn
  try dsimp only
  with_reducible repeat'
    (first
      | intro _ | assumption | apply State.assign_keeps | apply State.dequeue_keeps | apply State.faultHead_keeps
      | apply Keeps.onBench | apply Keeps.onFm | exact BenchKeeps.same rfl | apply BenchKeeps.fm
      | exact FmKeeps.same rfl rfl rfl rfl rfl | apply Keeps.ite | dsimp only | split)

theorem State.finishOn_keeps {s0 s : State} {b : Bid} {q : Fin 8} {u : Nat} {upset : Option UnitUpset}
    {compute : State → Running → List WrReq} {after : State → Running → State}
    (hafter : ∀ y0 y1, Keeps s0 y0 → Keeps s0 (after y0 y1)) (h : Keeps s0 s) :
    Keeps s0 (State.finishOn s b q u upset compute after) := by
  unfold State.finishOn
  try dsimp only
  with_reducible repeat'
    (first
      | intro _ | assumption | apply State.parkWrite_keeps | apply State.readAll_keeps | apply State.failRunning_keeps
      | apply State.park_keeps | apply State.setRunning_keeps | apply State.writeAll_keeps | apply State.completed_keeps
      | apply State.dropRunning_keeps | apply State.residueEvent_keeps | apply hafter | apply Keeps.ite | dsimp only | split
      | apply Keeps.foldl | refine PerfKeeps.getOkFst (by assumption) ?_ | refine PerfKeeps.getWaitFst (by assumption) ?_
      | refine PerfKeeps.getRefusedFst (by assumption) ?_)

end Sys2Proof.Machine
end

