-- ==== Sys2Proof/Laws/KeepsWedge.lean ====
section
/-! SUPPORT. The operations of Machine.Wedge keep the queue of commands and the invariant. -/

namespace Sys2Proof.Machine

theorem execWdgCvt_keeps {s0 : State} {h0 : Issue} {f : CvtFields} {s : State} (h : Keeps s0 s) :
    OutKeeps s0 (execWdgCvt h0 f s) := by
  unfold execWdgCvt
  try dsimp only
  with_reducible repeat'
    (first
      | intro _ | assumption | apply OutKeeps.next | exact DispKeeps.stall | exact DispKeeps.fault
      | apply DispKeeps.failed | apply DispKeeps.done | apply DispKeeps.marked | apply DispKeeps.jump
      | apply issue_keeps | apply dispatch_keeps)

theorem execWdgRot_keeps {s0 : State} {h0 : Issue} {f : RotFields} {s : State} (h : Keeps s0 s) :
    OutKeeps s0 (execWdgRot h0 f s) := by
  unfold execWdgRot
  try dsimp only
  with_reducible repeat'
    (first
      | intro _ | assumption | apply OutKeeps.next | exact DispKeeps.stall | exact DispKeeps.fault
      | apply DispKeeps.failed | apply DispKeeps.done | apply DispKeeps.marked | apply DispKeeps.jump
      | apply issue_keeps | apply dispatch_keeps)

theorem execWdgBegin_keeps {s0 : State} {b : Bid} {s : State} (h : Keeps s0 s) :
    OutKeeps s0 (execWdgBegin b s) := by
  unfold execWdgBegin
  try dsimp only
  with_reducible repeat' (first | intro _ | assumption | apply OutKeeps.next | apply State.beginOn_keeps)

theorem State.wedgeAfter_keeps {s0 : State} {b : Bid} {s : State} {r : Running} (h : Keeps s0 s) :
    Keeps s0 (State.wedgeAfter b s r) := by
  unfold State.wedgeAfter
  try dsimp only
  with_reducible repeat'
    (first
      | intro _ | assumption | apply State.countB_keeps | apply State.satRead_keeps | apply State.tally_keeps
      | apply Keeps.ite | dsimp only | split | apply Keeps.foldl)

theorem execWdgComplete_keeps {s0 : State} {b : Bid} {u : Fin 4} {upset : Option UnitUpset} {s : State}
    (h : Keeps s0 s) :
    OutKeeps s0 (execWdgComplete b u upset s) := by
  unfold execWdgComplete
  try dsimp only
  with_reducible repeat'
    (first
      | intro _ | assumption | apply OutKeeps.next | apply State.finishOn_keeps | apply State.wedgeAfter_keeps)

theorem execVtabEntryWrite_keeps {s0 : State} {b : Bid} {t : BitVec 6} {i : BitVec 2} {v : Word} {s : State}
    (h : Keeps s0 s) :
    OutKeeps s0 (execVtabEntryWrite b t i v s) := by
  unfold execVtabEntryWrite
  try dsimp only
  with_reducible repeat'
    (first
      | intro _ | assumption | apply OutKeeps.next | apply State.setReg_keeps | apply Keeps.ite)

theorem State.vtabValidate_keeps {s0 s : State} {at_ : FaultAt} {t : Nat} {w : Nat} (h : Keeps s0 s) :
    Keeps s0 (State.vtabValidate s at_ t w) := by
  unfold State.vtabValidate
  try dsimp only
  with_reducible repeat'
    (first
      | intro _ | assumption | apply State.fault_keeps | apply State.setRf_keeps | apply Keeps.ite)

theorem State.vtabInvalidate_keeps {s0 s : State} {b : Bid} {t : Nat} (h : Keeps s0 s) :
    Keeps s0 (State.vtabInvalidate s b t) := by
  unfold State.vtabInvalidate
  try dsimp only
  with_reducible repeat' (first | intro _ | assumption | apply State.setReg_keeps)

theorem State.writeVtabCmd_keeps {s0 s : State} {at_ : FaultAt} {v : Word} (h : Keeps s0 s) :
    Keeps s0 (State.writeVtabCmd s at_ v) := by
  unfold State.writeVtabCmd
  try dsimp only
  with_reducible repeat'
    (first
      | intro _ | assumption | apply State.vtabInvalidate_keeps | apply State.vtabValidate_keeps | apply Keeps.ite)

theorem execValidate_keeps {s0 : State} {b : Bid} {t : BitVec 6} {w : BitVec 2} {s : State} (h : Keeps s0 s) :
    OutKeeps s0 (execValidate b t w s) := by
  unfold execValidate
  try dsimp only
  with_reducible repeat' (first | intro _ | assumption | apply OutKeeps.next | apply State.vtabValidate_keeps)

theorem execInvalidate_keeps {s0 : State} {b : Bid} {t : BitVec 6} {s : State} (h : Keeps s0 s) :
    OutKeeps s0 (execInvalidate b t s) := by
  unfold execInvalidate
  try dsimp only
  with_reducible repeat' (first | intro _ | assumption | apply OutKeeps.next | apply State.vtabInvalidate_keeps)

theorem State.exportOpen_keeps {s0 s : State} {p : Part} (h : Keeps s0 s) :
    Keeps s0 (State.exportOpen s p) := by
  unfold State.exportOpen
  try dsimp only
  with_reducible repeat' (first | intro _ | assumption | apply State.setRf_keeps | apply Keeps.ite)

theorem execExportOpen_keeps {s0 : State} {p : Part} {s : State} (h : Keeps s0 s) :
    OutKeeps s0 (execExportOpen p s) := by
  unfold execExportOpen
  try dsimp only
  with_reducible repeat' (first | intro _ | assumption | apply OutKeeps.next | apply State.exportOpen_keeps)

theorem State.exportClose_keeps {s0 s : State} {p : Part} (h : Keeps s0 s) :
    Keeps s0 (State.exportClose s p) := by
  unfold State.exportClose
  try dsimp only
  with_reducible repeat'
    (first
      | intro _ | assumption | apply State.onBulk_keeps | apply State.setRf_keeps | apply Keeps.ite)

theorem execExportClose_keeps {s0 : State} {p : Part} {s : State} (h : Keeps s0 s) :
    OutKeeps s0 (execExportClose p s) := by
  unfold execExportClose
  try dsimp only
  with_reducible repeat' (first | intro _ | assumption | apply OutKeeps.next | apply State.exportClose_keeps)

theorem State.writeExportCtl_keeps {s0 s : State} {p : Part} {v : Word} (h : Keeps s0 s) :
    Keeps s0 (State.writeExportCtl s p v) := by
  unfold State.writeExportCtl
  try dsimp only
  with_reducible repeat'
    (first
      | intro _ | assumption | apply State.exportClose_keeps | apply State.exportOpen_keeps | apply Keeps.ite)

theorem execExportSessionActivate_keeps {s0 : State} {p : Part} {s : State} (h : Keeps s0 s) :
    OutKeeps s0 (execExportSessionActivate p s) := by
  unfold execExportSessionActivate
  try dsimp only
  with_reducible repeat'
    (first
      | intro _ | assumption | apply OutKeeps.next | apply State.setRf_keeps | apply State.setRb_keeps
      | apply State.setReg_keeps | apply Keeps.ite | apply OutKeeps.ite)

theorem execExportSessionClosed_keeps {s0 : State} {p : Part} {s : State} (h : Keeps s0 s) :
    OutKeeps s0 (execExportSessionClosed p s) := by
  unfold execExportSessionClosed
  try dsimp only
  with_reducible repeat'
    (first
      | intro _ | assumption | apply OutKeeps.next | apply State.setRf_keeps | apply State.onBulk_keeps
      | apply State.onCow_keeps | apply State.setReg_keeps | apply Keeps.ite | apply OutKeeps.ite)

end Sys2Proof.Machine
end

