-- ==== Sys2Proof/Laws/KeepsScreen.lean ====
section
/-! SUPPORT. The operations of Machine.Screen keep the queue of commands and the invariant. -/

namespace Sys2Proof.Machine

theorem dispatchMap_keeps {s0 : State} {o : MapOp} {ssel : BitVec 2} {ds : List (BitVec 4)} {rs : List (BitVec 5)}
    {tid : BitVec 32} {a : Fm} {a6 : State} (h : Keeps s0 a6) :
    DispKeeps s0 (dispatchMap o ssel ds rs tid a a6) := by
  unfold dispatchMap
  try dsimp only
  with_reducible repeat'
    (first
      | intro _ | assumption | exact DispKeeps.stall | exact DispKeeps.fault | apply DispKeeps.failed
      | apply DispKeeps.done | apply DispKeeps.marked | apply DispKeeps.jump | apply dispatch_keeps)

theorem execScrMapReserved_keeps {s0 : State} {h0 : Issue} {ssel : BitVec 2} {da : BitVec 4} {dd : BitVec 4}
    {tid : BitVec 32} {s : State} (h : Keeps s0 s) :
    OutKeeps s0 (execScrMapReserved h0 ssel da dd tid s) := by
  unfold execScrMapReserved
  try dsimp only
  with_reducible repeat'
    (first
      | intro _ | assumption | apply OutKeeps.next | exact DispKeeps.stall | exact DispKeeps.fault
      | apply DispKeeps.failed | apply DispKeeps.done | apply DispKeeps.marked | apply DispKeeps.jump
      | apply issue_keeps | apply dispatchMap_keeps)

theorem execScrMapCopy_keeps {s0 : State} {h0 : Issue} {ssel : BitVec 2} {da : BitVec 4} {dd : BitVec 4}
    {tid : BitVec 32} {s : State} (h : Keeps s0 s) :
    OutKeeps s0 (execScrMapCopy h0 ssel da dd tid s) := by
  unfold execScrMapCopy
  try dsimp only
  with_reducible repeat'
    (first
      | intro _ | assumption | apply OutKeeps.next | exact DispKeeps.stall | exact DispKeeps.fault
      | apply DispKeeps.failed | apply DispKeeps.done | apply DispKeeps.marked | apply DispKeeps.jump
      | apply issue_keeps | apply dispatchMap_keeps)

theorem execScrMapAdd_keeps {s0 : State} {h0 : Issue} {ssel : BitVec 2} {da : BitVec 4} {db : BitVec 4}
    {dd : BitVec 4} {tid : BitVec 32} {s : State} (h : Keeps s0 s) :
    OutKeeps s0 (execScrMapAdd h0 ssel da db dd tid s) := by
  unfold execScrMapAdd
  try dsimp only
  with_reducible repeat'
    (first
      | intro _ | assumption | apply OutKeeps.next | exact DispKeeps.stall | exact DispKeeps.fault
      | apply DispKeeps.failed | apply DispKeeps.done | apply DispKeeps.marked | apply DispKeeps.jump
      | apply issue_keeps | apply dispatchMap_keeps)

theorem execScrMapSub_keeps {s0 : State} {h0 : Issue} {ssel : BitVec 2} {da : BitVec 4} {db : BitVec 4}
    {dd : BitVec 4} {tid : BitVec 32} {s : State} (h : Keeps s0 s) :
    OutKeeps s0 (execScrMapSub h0 ssel da db dd tid s) := by
  unfold execScrMapSub
  try dsimp only
  with_reducible repeat'
    (first
      | intro _ | assumption | apply OutKeeps.next | exact DispKeeps.stall | exact DispKeeps.fault
      | apply DispKeeps.failed | apply DispKeeps.done | apply DispKeeps.marked | apply DispKeeps.jump
      | apply issue_keeps | apply dispatchMap_keeps)

theorem execScrMapMul_keeps {s0 : State} {h0 : Issue} {ssel : BitVec 2} {da : BitVec 4} {db : BitVec 4}
    {dd : BitVec 4} {tid : BitVec 32} {s : State} (h : Keeps s0 s) :
    OutKeeps s0 (execScrMapMul h0 ssel da db dd tid s) := by
  unfold execScrMapMul
  try dsimp only
  with_reducible repeat'
    (first
      | intro _ | assumption | apply OutKeeps.next | exact DispKeeps.stall | exact DispKeeps.fault
      | apply DispKeeps.failed | apply DispKeeps.done | apply DispKeeps.marked | apply DispKeeps.jump
      | apply issue_keeps | apply dispatchMap_keeps)

theorem execScrMapFma_keeps {s0 : State} {h0 : Issue} {ssel : BitVec 2} {da : BitVec 4} {db : BitVec 4}
    {dc : BitVec 4} {dd : BitVec 4} {tid : BitVec 32} {s : State} (h : Keeps s0 s) :
    OutKeeps s0 (execScrMapFma h0 ssel da db dc dd tid s) := by
  unfold execScrMapFma
  try dsimp only
  with_reducible repeat'
    (first
      | intro _ | assumption | apply OutKeeps.next | exact DispKeeps.stall | exact DispKeeps.fault
      | apply DispKeeps.failed | apply DispKeeps.done | apply DispKeeps.marked | apply DispKeeps.jump
      | apply issue_keeps | apply dispatchMap_keeps)

theorem execScrMapMax_keeps {s0 : State} {h0 : Issue} {ssel : BitVec 2} {da : BitVec 4} {db : BitVec 4}
    {dd : BitVec 4} {tid : BitVec 32} {s : State} (h : Keeps s0 s) :
    OutKeeps s0 (execScrMapMax h0 ssel da db dd tid s) := by
  unfold execScrMapMax
  try dsimp only
  with_reducible repeat'
    (first
      | intro _ | assumption | apply OutKeeps.next | exact DispKeeps.stall | exact DispKeeps.fault
      | apply DispKeeps.failed | apply DispKeeps.done | apply DispKeeps.marked | apply DispKeeps.jump
      | apply issue_keeps | apply dispatchMap_keeps)

theorem execScrMapMin_keeps {s0 : State} {h0 : Issue} {ssel : BitVec 2} {da : BitVec 4} {db : BitVec 4}
    {dd : BitVec 4} {tid : BitVec 32} {s : State} (h : Keeps s0 s) :
    OutKeeps s0 (execScrMapMin h0 ssel da db dd tid s) := by
  unfold execScrMapMin
  try dsimp only
  with_reducible repeat'
    (first
      | intro _ | assumption | apply OutKeeps.next | exact DispKeeps.stall | exact DispKeeps.fault
      | apply DispKeeps.failed | apply DispKeeps.done | apply DispKeeps.marked | apply DispKeeps.jump
      | apply issue_keeps | apply dispatchMap_keeps)

theorem execScrMapAbs_keeps {s0 : State} {h0 : Issue} {ssel : BitVec 2} {da : BitVec 4} {dd : BitVec 4}
    {tid : BitVec 32} {s : State} (h : Keeps s0 s) :
    OutKeeps s0 (execScrMapAbs h0 ssel da dd tid s) := by
  unfold execScrMapAbs
  try dsimp only
  with_reducible repeat'
    (first
      | intro _ | assumption | apply OutKeeps.next | exact DispKeeps.stall | exact DispKeeps.fault
      | apply DispKeeps.failed | apply DispKeeps.done | apply DispKeeps.marked | apply DispKeeps.jump
      | apply issue_keeps | apply dispatchMap_keeps)

theorem execScrMapNeg_keeps {s0 : State} {h0 : Issue} {ssel : BitVec 2} {da : BitVec 4} {dd : BitVec 4}
    {tid : BitVec 32} {s : State} (h : Keeps s0 s) :
    OutKeeps s0 (execScrMapNeg h0 ssel da dd tid s) := by
  unfold execScrMapNeg
  try dsimp only
  with_reducible repeat'
    (first
      | intro _ | assumption | apply OutKeeps.next | exact DispKeeps.stall | exact DispKeeps.fault
      | apply DispKeeps.failed | apply DispKeeps.done | apply DispKeeps.marked | apply DispKeeps.jump
      | apply issue_keeps | apply dispatchMap_keeps)

theorem execScrMapScale_keeps {s0 : State} {h0 : Issue} {ssel : BitVec 2} {da : BitVec 4} {dd : BitVec 4}
    {ra : BitVec 5} {tid : BitVec 32} {s : State} (h : Keeps s0 s) :
    OutKeeps s0 (execScrMapScale h0 ssel da dd ra tid s) := by
  unfold execScrMapScale
  try dsimp only
  with_reducible repeat'
    (first
      | intro _ | assumption | apply OutKeeps.next | exact DispKeeps.stall | exact DispKeeps.fault
      | apply DispKeeps.failed | apply DispKeeps.done | apply DispKeeps.marked | apply DispKeeps.jump
      | apply issue_keeps | apply dispatchMap_keeps)

theorem execScrMapSqrt_keeps {s0 : State} {h0 : Issue} {ssel : BitVec 2} {da : BitVec 4} {dd : BitVec 4}
    {tid : BitVec 32} {s : State} (h : Keeps s0 s) :
    OutKeeps s0 (execScrMapSqrt h0 ssel da dd tid s) := by
  unfold execScrMapSqrt
  try dsimp only
  with_reducible repeat'
    (first
      | intro _ | assumption | apply OutKeeps.next | exact DispKeeps.stall | exact DispKeeps.fault
      | apply DispKeeps.failed | apply DispKeeps.done | apply DispKeeps.marked | apply DispKeeps.jump
      | apply issue_keeps | apply dispatchMap_keeps)

theorem execScrMapRecip_keeps {s0 : State} {h0 : Issue} {ssel : BitVec 2} {da : BitVec 4} {dd : BitVec 4}
    {tid : BitVec 32} {s : State} (h : Keeps s0 s) :
    OutKeeps s0 (execScrMapRecip h0 ssel da dd tid s) := by
  unfold execScrMapRecip
  try dsimp only
  with_reducible repeat'
    (first
      | intro _ | assumption | apply OutKeeps.next | exact DispKeeps.stall | exact DispKeeps.fault
      | apply DispKeeps.failed | apply DispKeeps.done | apply DispKeeps.marked | apply DispKeeps.jump
      | apply issue_keeps | apply dispatchMap_keeps)

theorem execScrMapRsqrt_keeps {s0 : State} {h0 : Issue} {ssel : BitVec 2} {da : BitVec 4} {dd : BitVec 4}
    {tid : BitVec 32} {s : State} (h : Keeps s0 s) :
    OutKeeps s0 (execScrMapRsqrt h0 ssel da dd tid s) := by
  unfold execScrMapRsqrt
  try dsimp only
  with_reducible repeat'
    (first
      | intro _ | assumption | apply OutKeeps.next | exact DispKeeps.stall | exact DispKeeps.fault
      | apply DispKeeps.failed | apply DispKeeps.done | apply DispKeeps.marked | apply DispKeeps.jump
      | apply issue_keeps | apply dispatchMap_keeps)

theorem execScrMapRsum_keeps {s0 : State} {h0 : Issue} {ssel : BitVec 2} {da : BitVec 4} {dd : BitVec 4}
    {tid : BitVec 32} {s : State} (h : Keeps s0 s) :
    OutKeeps s0 (execScrMapRsum h0 ssel da dd tid s) := by
  unfold execScrMapRsum
  try dsimp only
  with_reducible repeat'
    (first
      | intro _ | assumption | apply OutKeeps.next | exact DispKeeps.stall | exact DispKeeps.fault
      | apply DispKeeps.failed | apply DispKeeps.done | apply DispKeeps.marked | apply DispKeeps.jump
      | apply issue_keeps | apply dispatchMap_keeps)

theorem execScrMapRssq_keeps {s0 : State} {h0 : Issue} {ssel : BitVec 2} {da : BitVec 4} {dd : BitVec 4}
    {tid : BitVec 32} {s : State} (h : Keeps s0 s) :
    OutKeeps s0 (execScrMapRssq h0 ssel da dd tid s) := by
  unfold execScrMapRssq
  try dsimp only
  with_reducible repeat'
    (first
      | intro _ | assumption | apply OutKeeps.next | exact DispKeeps.stall | exact DispKeeps.fault
      | apply DispKeeps.failed | apply DispKeeps.done | apply DispKeeps.marked | apply DispKeeps.jump
      | apply issue_keeps | apply dispatchMap_keeps)

theorem execScrMapRmax_keeps {s0 : State} {h0 : Issue} {ssel : BitVec 2} {da : BitVec 4} {dd : BitVec 4}
    {tid : BitVec 32} {s : State} (h : Keeps s0 s) :
    OutKeeps s0 (execScrMapRmax h0 ssel da dd tid s) := by
  unfold execScrMapRmax
  try dsimp only
  with_reducible repeat'
    (first
      | intro _ | assumption | apply OutKeeps.next | exact DispKeeps.stall | exact DispKeeps.fault
      | apply DispKeeps.failed | apply DispKeeps.done | apply DispKeeps.marked | apply DispKeeps.jump
      | apply issue_keeps | apply dispatchMap_keeps)

theorem execScrMapRamax_keeps {s0 : State} {h0 : Issue} {ssel : BitVec 2} {da : BitVec 4} {dd : BitVec 4}
    {tid : BitVec 32} {s : State} (h : Keeps s0 s) :
    OutKeeps s0 (execScrMapRamax h0 ssel da dd tid s) := by
  unfold execScrMapRamax
  try dsimp only
  with_reducible repeat'
    (first
      | intro _ | assumption | apply OutKeeps.next | exact DispKeeps.stall | exact DispKeeps.fault
      | apply DispKeeps.failed | apply DispKeeps.done | apply DispKeeps.marked | apply DispKeeps.jump
      | apply issue_keeps | apply dispatchMap_keeps)

theorem execScrCurve_keeps {s0 : State} {h0 : Issue} {ssel : BitVec 2} {da : BitVec 4} {db : Option (BitVec 4)}
    {dd : BitVec 4} {slot : BitVec 5} {tid : BitVec 32} {s : State} (h : Keeps s0 s) :
    OutKeeps s0 (execScrCurve h0 ssel da db dd slot tid s) := by
  unfold execScrCurve
  try dsimp only
  with_reducible repeat'
    (first
      | intro _ | assumption | apply OutKeeps.next | exact DispKeeps.stall | exact DispKeeps.fault
      | apply DispKeeps.failed | apply DispKeeps.done | apply DispKeeps.marked | apply DispKeeps.jump
      | apply issue_keeps | apply dispatch_keeps)

theorem execScrDcurve_keeps {s0 s : State} {h2 : Issue} {ssel : BitVec 2} {da db : BitVec 4}
    {gate : Option (BitVec 4 × BitVec 32)} {dd : BitVec 4} {slot : BitVec 5} {tid : BitVec 32} (h : Keeps s0 s) :
    OutKeeps s0 (execScrDcurve h2 ssel da db gate dd slot tid s) := by
  unfold execScrDcurve
  try dsimp only
  with_reducible repeat'
    (first
      | intro _ | assumption | apply OutKeeps.next | apply dispatch_keeps | apply issue_keeps | apply valid_keeps
      | dsimp only | split)

theorem execScrSmax_keeps {s0 : State} {h0 : Issue} {ssel : BitVec 2} {da : BitVec 4} {db : BitVec 4}
    {dc : BitVec 4} {dd : BitVec 4} {ra : BitVec 5} {mask : Option (BitVec 5 × BitVec 5)} {eslot : BitVec 5}
    {tid : BitVec 32} {s : State} (h : Keeps s0 s) :
    OutKeeps s0 (execScrSmax h0 ssel da db dc dd ra mask eslot tid s) := by
  unfold execScrSmax
  try dsimp only
  with_reducible repeat'
    (first
      | intro _ | assumption | apply OutKeeps.next | exact DispKeeps.stall | exact DispKeeps.fault
      | apply DispKeeps.failed | apply DispKeeps.done | apply DispKeeps.marked | apply DispKeeps.jump
      | apply issue_keeps | apply dispatch_keeps)

theorem execScrTopk_keeps {s0 : State} {h0 : Issue} {ssel : BitVec 2} {da : BitVec 4} {db : BitVec 4}
    {dc : BitVec 4} {comp : Option (BitVec 4)} {ra : BitVec 5} {rb : BitVec 5} {key : Bool} {tid : BitVec 32}
    {s : State} (h : Keeps s0 s) :
    OutKeeps s0 (execScrTopk h0 ssel da db dc comp ra rb key tid s) := by
  unfold execScrTopk
  try dsimp only
  with_reducible repeat'
    (first
      | intro _ | assumption | apply OutKeeps.next | exact DispKeeps.stall | exact DispKeeps.fault
      | apply DispKeeps.failed | apply DispKeeps.done | apply DispKeeps.marked | apply DispKeeps.jump
      | apply issue_keeps | apply dispatch_keeps)

theorem execScrOpt_keeps {s0 s : State} {h2 : Issue} {ssel : BitVec 2} {da : BitVec 4} {ra : BitVec 5}
    {norm : Bool} {tid0 tid1 : BitVec 32} (h : Keeps s0 s) :
    OutKeeps s0 (execScrOpt h2 ssel da ra norm tid0 tid1 s) := by
  unfold execScrOpt
  try dsimp only
  with_reducible repeat'
    (first
      | intro _ | assumption | apply OutKeeps.next | exact DispKeeps.stall | exact DispKeeps.fault
      | apply DispKeeps.failed | apply DispKeeps.done | apply DispKeeps.marked | apply DispKeeps.jump
      | apply DispKeeps.ite | apply State.fault_keeps | apply State.onCtl_keeps | apply dispatch_keeps
      | apply issue_keeps | apply valid_keeps | apply Keeps.ite | apply OutKeeps.ite | dsimp only | split
      | refine DispKeeps.getFailed (by assumption) ?_ | refine DispKeeps.getDone (by assumption) ?_)

theorem State.crvValidate_keeps {s0 s : State} {at_ : FaultAt} {t : Nat} (h : Keeps s0 s) :
    Keeps s0 (State.crvValidate s at_ t) := by
  unfold State.crvValidate
  try dsimp only
  with_reducible repeat'
    (first
      | intro _ | assumption | apply State.setReg_keeps | apply State.fault_keeps | apply Keeps.ite)

theorem State.crvInvalidate_keeps {s0 s : State} {b : Bid} {t : Nat} (h : Keeps s0 s) :
    Keeps s0 (State.crvInvalidate s b t) := by
  unfold State.crvInvalidate
  try dsimp only
  with_reducible repeat' (first | intro _ | assumption | apply State.setReg_keeps)

theorem State.writeCrvCmd_keeps {s0 s : State} {at_ : FaultAt} {v : Word} (h : Keeps s0 s) :
    Keeps s0 (State.writeCrvCmd s at_ v) := by
  unfold State.writeCrvCmd
  try dsimp only
  with_reducible repeat'
    (first
      | intro _ | assumption | apply State.crvInvalidate_keeps | apply State.crvValidate_keeps | apply Keeps.ite)

theorem execCrvValidate_keeps {s0 : State} {b : Bid} {slot : BitVec 5} {s : State} (h : Keeps s0 s) :
    OutKeeps s0 (execCrvValidate b slot s) := by
  unfold execCrvValidate
  try dsimp only
  with_reducible repeat' (first | intro _ | assumption | apply OutKeeps.next | apply State.crvValidate_keeps)

theorem execCrvInvalidate_keeps {s0 : State} {b : Bid} {slot : BitVec 5} {s : State} (h : Keeps s0 s) :
    OutKeeps s0 (execCrvInvalidate b slot s) := by
  unfold execCrvInvalidate
  try dsimp only
  with_reducible repeat' (first | intro _ | assumption | apply OutKeeps.next | apply State.crvInvalidate_keeps)

theorem State.writeCrvSlot_keeps {s0 s : State} {b : Bid} {off : Nat} {v : Word} (h : Keeps s0 s) :
    Keeps s0 (State.writeCrvSlot s b off v) := by
  unfold State.writeCrvSlot
  try dsimp only
  with_reducible repeat'
    (first
      | intro _ | assumption | apply State.writeReg_keeps | apply Keeps.ite | dsimp only | split)

theorem execCrvSlotWrite_keeps {s0 : State} {b : Bid} {off : Nat} {v : Word} {s : State} (h : Keeps s0 s) :
    OutKeeps s0 (execCrvSlotWrite b off v s) := by
  unfold execCrvSlotWrite
  try dsimp only
  with_reducible repeat' (first | intro _ | assumption | apply OutKeeps.next | apply State.writeCrvSlot_keeps)

theorem execScrBegin_keeps {s0 s : State} {b : Bid} (h : Keeps s0 s) : OutKeeps s0 (execScrBegin b s) := by
  unfold execScrBegin
  try dsimp only
  with_reducible repeat'
    (first
      | intro _ | assumption | apply OutKeeps.next | apply State.assign_keeps | apply State.beginOn_keeps
      | apply State.faultHead_keeps | apply State.readAll_keeps | apply State.setRf_keeps | apply Keeps.ite
      | apply OutKeeps.ite | dsimp only | split | refine PerfKeeps.getOkFst (by assumption) ?_
      | refine PerfKeeps.getWaitFst (by assumption) ?_ | refine PerfKeeps.getRefusedFst (by assumption) ?_)

theorem State.scrAfter_keeps {s0 : State} {b : Bid} {s : State} {r : Running} (h : Keeps s0 s) :
    Keeps s0 (State.scrAfter b s r) := by
  unfold State.scrAfter
  try dsimp only
  with_reducible repeat'
    (first
      | intro _ | assumption | apply State.satRead_keeps | apply State.tally_keeps | apply State.countB_keeps
      | apply Keeps.onBench | apply State.onCtl_keeps | apply State.setRf_keeps | apply Keeps.ite
      | exact BenchKeeps.same rfl | exact FmKeeps.same rfl rfl rfl rfl rfl | exact Foreman.setS_sound
      | exact Foreman.setP_sound | exact Foreman.setT_sound | refine FmKeeps.trans ?_ Foreman.setS_sound
      | refine FmKeeps.trans ?_ Foreman.setT_sound | exact FmKeeps.fewer rfl rfl (by simp) (by simp) (by simp)
      | dsimp only | split | apply Keeps.foldl)

theorem execScrComplete_keeps {s0 : State} {b : Bid} {u : Fin 2} {upset : Option UnitUpset} {s : State}
    (h : Keeps s0 s) :
    OutKeeps s0 (execScrComplete b u upset s) := by
  unfold execScrComplete
  try dsimp only
  with_reducible repeat'
    (first
      | intro _ | assumption | apply OutKeeps.next | apply State.flushDeposits_keeps | apply State.finishOn_keeps
      | apply State.scrAfter_keeps)

end Sys2Proof.Machine
end

