-- ==== Sys2Proof/Laws/KeepsPlumb.lean ====
section
/-! SUPPORT. The operations of Machine.Plumb keep the queue of commands and the invariant. -/

namespace Sys2Proof.Machine

theorem execPlmEval_keeps {s0 : State} {h0 : Issue} {s : State} (h : Keeps s0 s) :
    OutKeeps s0 (execPlmEval h0 s) := by
  unfold execPlmEval
  try dsimp only
  with_reducible repeat'
    (first
      | intro _ | assumption | apply OutKeeps.next | exact DispKeeps.stall | exact DispKeeps.fault
      | apply DispKeeps.failed | apply DispKeeps.done | apply DispKeeps.marked | apply DispKeeps.jump
      | apply issue_keeps | apply State.onCtl_keeps | apply Keeps.onFm | apply Keeps.ite | apply OutKeeps.ite
      | apply DispKeeps.ite | exact BenchKeeps.same rfl | apply BenchKeeps.fm | exact FmKeeps.same rfl rfl rfl rfl rfl)

theorem State.takeClass_keeps {s0 s : State} {p : Part} {b : Bid} {c : Nat} (h : Keeps s0 s) :
    Keeps s0 (State.takeClass s p b c) := by
  unfold State.takeClass
  try dsimp only
  with_reducible repeat'
    (first
      | intro _ | assumption | apply State.onPlumb_keeps | apply State.setRf_keeps | apply State.setReg_keeps
      | apply Keeps.ite | dsimp only | split | apply Keeps.foldl)

theorem execPlmSnapshot_keeps {s0 : State} {b : Bid} {s : State} (h : Keeps s0 s) :
    OutKeeps s0 (execPlmSnapshot b s) := by
  unfold execPlmSnapshot
  try dsimp only
  with_reducible repeat'
    (first
      | intro _ | assumption | apply OutKeeps.next | apply State.takeClass_keeps | apply Keeps.onBench
      | apply State.onPlumb_keeps | apply Keeps.ite | apply OutKeeps.ite | exact BenchKeeps.same rfl
      | apply BenchKeeps.fm | exact FmKeeps.same rfl rfl rfl rfl rfl | exact Foreman.setS_sound
      | exact Foreman.setP_sound | exact Foreman.setT_sound | refine FmKeeps.trans ?_ Foreman.setS_sound
      | refine FmKeeps.trans ?_ Foreman.setT_sound | exact FmKeeps.fewer rfl rfl (by simp) (by simp) (by simp)
      | dsimp only | split | apply Keeps.foldl)

theorem execPlmPartitionSums_keeps {s0 : State} {p : Part} {s : State} (h : Keeps s0 s) :
    OutKeeps s0 (execPlmPartitionSums p s) := by
  unfold execPlmPartitionSums
  try dsimp only
  with_reducible repeat'
    (first
      | intro _ | assumption | apply OutKeeps.next | apply State.onPlumb_keeps | apply State.setRf_keeps
      | apply Keeps.ite | apply OutKeeps.ite)

theorem State.plumbAlarms_keeps {s0 s : State} {p : Part} {l : List (Nat × List Nat)} (h : Keeps s0 s) :
    Keeps s0 (State.plumbAlarms s p l) := by
  unfold State.plumbAlarms
  try dsimp only
  with_reducible repeat'
    (first
      | intro _ | assumption | apply State.emitCount_keeps | apply State.setRf_keeps | apply State.raise_keeps
      | apply Keeps.ite | dsimp only | split | apply Keeps.foldl)

theorem execPlmEvaluate_keeps {s0 : State} {p : Part} {differs : Option Bid} {s : State} (h : Keeps s0 s) :
    OutKeeps s0 (execPlmEvaluate p differs s) := by
  unfold execPlmEvaluate
  try dsimp only
  with_reducible repeat'
    (first
      | intro _ | assumption | apply OutKeeps.next | apply State.onPlumb_keeps | apply State.setRf_keeps
      | apply State.plumbAlarms_keeps | apply State.onCtl_keeps | apply Keeps.onFm | apply State.emit_keeps
      | apply Keeps.ite | apply OutKeeps.ite | exact BenchKeeps.same rfl | apply BenchKeeps.fm
      | exact FmKeeps.same rfl rfl rfl rfl rfl | exact Foreman.setS_sound | exact Foreman.setP_sound
      | exact Foreman.setT_sound | refine FmKeeps.trans ?_ Foreman.setS_sound
      | refine FmKeeps.trans ?_ Foreman.setT_sound | exact FmKeeps.fewer rfl rfl (by simp) (by simp) (by simp)
      | dsimp only | split | apply Keeps.foldl)

theorem State.installEntries_keeps {s0 s : State} {p : Part} {l : Tab (Word × Word × Word)} (h : Keeps s0 s) :
    Keeps s0 (State.installEntries s p l) := by
  unfold State.installEntries
  try dsimp only
  with_reducible repeat'
    (first
      | intro _ | assumption | apply State.setReg_keeps | apply Keeps.ite | dsimp only | split | apply Keeps.foldl)

theorem State.installShadow_keeps {s0 s : State} {p : Part} {c : Nat} {e : ShadowEnt} (h : Keeps s0 s) :
    Keeps s0 (State.installShadow s p c e) := by
  unfold State.installShadow
  try dsimp only
  with_reducible repeat'
    (first
      | intro _ | assumption | apply State.setReg_keeps | apply Keeps.ite | dsimp only | split)

theorem State.applyShadow_keeps {s0 s : State} {p : Part} (h : Keeps s0 s) :
    Keeps s0 (State.applyShadow s p) := by
  unfold State.applyShadow
  try dsimp only
  with_reducible repeat'
    (first
      | intro _ | assumption | apply State.setRf_keeps | apply State.onPlumb_keeps | apply State.installShadow_keeps
      | apply State.setReg_keeps | apply Keeps.ite | dsimp only | split | apply Keeps.foldl)

theorem State.plumbClear_keeps {s0 s : State} {p : Part} (h : Keeps s0 s) : Keeps s0 (State.plumbClear s p) := by
  unfold State.plumbClear
  try dsimp only
  with_reducible repeat' (first | intro _ | assumption | apply State.onPlumb_keeps | apply State.setRf_keeps)

theorem State.plumbInstall_keeps {s0 s : State} {p : Part} {r : Result} (h : Keeps s0 s) :
    Keeps s0 (State.plumbInstall s p r) := by
  unfold State.plumbInstall
  try dsimp only
  with_reducible repeat'
    (first
      | intro _ | assumption | apply State.applyShadow_keeps | apply State.installEntries_keeps
      | apply State.plumbClear_keeps | apply State.setReg_keeps | apply Keeps.ite | dsimp only | split)

theorem State.plumbApply_keeps {s0 s : State} {p : Part} (h : Keeps s0 s) :
    Keeps s0 (State.plumbApply s p) := by
  unfold State.plumbApply
  try dsimp only
  with_reducible repeat'
    (first
      | intro _ | assumption | apply State.setRf_keeps | apply State.applyShadow_keeps | apply Keeps.ite)

theorem execApply_keeps {s0 : State} {p : Part} {s : State} (h : Keeps s0 s) :
    OutKeeps s0 (execApply p s) := by
  unfold execApply
  try dsimp only
  with_reducible repeat' (first | intro _ | assumption | apply OutKeeps.next | apply State.plumbApply_keeps)

theorem State.plumbResetLoss_keeps {s0 s : State} {p : Part} (h : Keeps s0 s) :
    Keeps s0 (State.plumbResetLoss s p) := by
  unfold State.plumbResetLoss
  try dsimp only
  with_reducible repeat' (first | intro _ | assumption | apply State.onPlumb_keeps)

theorem execResetLoss_keeps {s0 : State} {p : Part} {s : State} (h : Keeps s0 s) :
    OutKeeps s0 (execResetLoss p s) := by
  unfold execResetLoss
  try dsimp only
  with_reducible repeat' (first | intro _ | assumption | apply OutKeeps.next | apply State.plumbResetLoss_keeps)

theorem State.writePlmCmd_keeps {s0 s : State} {p : Part} {v : Word} (h : Keeps s0 s) :
    Keeps s0 (State.writePlmCmd s p v) := by
  unfold State.writePlmCmd
  try dsimp only
  with_reducible repeat'
    (first
      | intro _ | assumption | apply State.plumbResetLoss_keeps | apply State.plumbApply_keeps | apply Keeps.ite)

theorem State.writePlmLoss_keeps {s0 s : State} {p : Part} {v : Word} (h : Keeps s0 s) :
    Keeps s0 (State.writePlmLoss s p v) := by
  unfold State.writePlmLoss
  try dsimp only
  with_reducible repeat' (first | intro _ | assumption | apply State.setRf_keeps)

theorem execPlmLossWrite_keeps {s0 : State} {p : Part} {v : Word} {s : State} (h : Keeps s0 s) :
    OutKeeps s0 (execPlmLossWrite p v s) := by
  unfold execPlmLossWrite
  try dsimp only
  with_reducible repeat' (first | intro _ | assumption | apply OutKeeps.next | apply State.writePlmLoss_keeps)

theorem State.writePlmSet_keeps {s0 s : State} {p : Part} {v : Word} (h : Keeps s0 s) :
    Keeps s0 (State.writePlmSet s p v) := by
  unfold State.writePlmSet
  try dsimp only
  with_reducible repeat' (first | intro _ | assumption | apply State.onPlumb_keeps)

theorem execPlmSetCmd_keeps {s0 : State} {p : Part} {v : Word} {s : State} (h : Keeps s0 s) :
    OutKeeps s0 (execPlmSetCmd p v s) := by
  unfold execPlmSetCmd
  try dsimp only
  with_reducible repeat' (first | intro _ | assumption | apply OutKeeps.next | apply State.writePlmSet_keeps)

end Sys2Proof.Machine
end

