-- ==== Sys2Proof/Laws/KeepsBulk.lean ====
section
/-! SUPPORT. The operations of Machine.Bulk keep the queue of commands and the invariant. -/

namespace Sys2Proof.Machine

theorem State.rewrite_keeps {s0 s : State} {wn : Nat} (h : Keeps s0 s) :
    Keeps s0 (State.rewrite s wn) := by
  unfold State.rewrite
  try dsimp only
  with_reducible repeat' (first | intro _ | assumption | apply State.setMark_keeps)

theorem execCorrectedWordRewrite_keeps {s0 : State} {b : Bid} {bank : Fin 64} {s : State} (h : Keeps s0 s) :
    OutKeeps s0 (execCorrectedWordRewrite b bank s) := by
  unfold execCorrectedWordRewrite
  try dsimp only
  with_reducible repeat'
    (first
      | intro _ | assumption | apply OutKeeps.next | apply State.rewrite_keeps | apply Keeps.ite | apply OutKeeps.ite
      | dsimp only | split)

theorem State.newInterval_keeps {s0 s : State} {p : Nat → Bool} (h : Keeps s0 s) : Keeps s0 (s.newInterval p) := by
  refine h.marks fun hw => twf_filterMap _ hw fun e e' he => ?_
  generalize hm : (if p e.1 then { e.2 with noted := false, rewritten := false } else e.2 : WordMark) = m at he
  dsimp only at he
  by_cases hn : m = WordMark.clear
  · rw [if_pos hn] at he; cases he
  · rw [if_neg hn] at he; cases he; exact ⟨rfl, hn⟩

theorem execSramPatrolRead_keeps {s0 : State} {b : Bid} {bank : Fin 64} {upset : Upset} {s : State} (h : Keeps s0 s) :
    OutKeeps s0 (execSramPatrolRead b bank upset s) := by
  unfold execSramPatrolRead
  try dsimp only
  with_reducible repeat'
    (first
      | intro _ | assumption | apply OutKeeps.next | apply State.decodeWord_keeps | apply Keeps.onBench
      | apply State.newInterval_keeps | apply Keeps.ite | apply OutKeeps.ite | exact BenchKeeps.same rfl)

theorem State.armSet_keeps {s0 s : State} {p : Part} {n : Fin 4} (h : Keeps s0 s) :
    Keeps s0 (State.armSet s p n) := by
  unfold State.armSet
  try dsimp only
  with_reducible repeat'
    (first
      | intro _ | assumption | apply State.onCow_keeps | apply State.setRb_keeps | apply State.setReg_keeps
      | apply Keeps.ite)

theorem State.releaseSet_keeps {s0 s : State} {p : Part} {n : Fin 4} (h : Keeps s0 s) :
    Keeps s0 (State.releaseSet s p n) := by
  unfold State.releaseSet
  try dsimp only
  with_reducible repeat' (first | intro _ | assumption | apply State.setRb_keeps | apply Keeps.ite)

theorem State.writeCowCtl_keeps {s0 s : State} {p : Part} {n : Fin 4} {v : Word} (h : Keeps s0 s) :
    Keeps s0 (State.writeCowCtl s p n v) := by
  unfold State.writeCowCtl
  try dsimp only
  with_reducible repeat'
    (first
      | intro _ | assumption | apply State.releaseSet_keeps | apply State.armSet_keeps | apply Keeps.ite)

theorem execArm_keeps {s0 : State} {p : Part} {n : Fin 4} {s : State} (h : Keeps s0 s) :
    OutKeeps s0 (execArm p n s) := by
  unfold execArm
  try dsimp only
  with_reducible repeat' (first | intro _ | assumption | apply OutKeeps.next | apply State.writeCowCtl_keeps)

theorem execRelease_keeps {s0 : State} {p : Part} {n : Fin 4} {s : State} (h : Keeps s0 s) :
    OutKeeps s0 (execRelease p n s) := by
  unfold execRelease
  try dsimp only
  with_reducible repeat' (first | intro _ | assumption | apply OutKeeps.next | apply State.writeCowCtl_keeps)

theorem State.freeSet_keeps {s0 s : State} {p : Part} {n : Fin 4} (h : Keeps s0 s) :
    Keeps s0 (State.freeSet s p n) := by
  unfold State.freeSet
  try dsimp only
  with_reducible repeat' (first | intro _ | assumption | apply State.onCow_keeps | apply State.setReg_keeps)

theorem execCowReleaseEffect_keeps {s0 : State} {p : Part} {n : Fin 4} {s : State} (h : Keeps s0 s) :
    OutKeeps s0 (execCowReleaseEffect p n s) := by
  unfold execCowReleaseEffect
  try dsimp only
  with_reducible repeat'
    (first
      | intro _ | assumption | apply OutKeeps.next | apply State.freeSet_keeps | apply Keeps.ite)

theorem State.writeCowRgn_keeps {s0 s : State} {p : Part} {n : Fin 4} {j : Nat} {v : Word} (h : Keeps s0 s) :
    Keeps s0 (State.writeCowRgn s p n j v) := by
  unfold State.writeCowRgn
  try dsimp only
  with_reducible repeat' (first | intro _ | assumption | apply State.writeReg_keeps | apply Keeps.ite)

theorem State.setRow_keeps {s0 s : State} {r : Nat} {v : Word} (h : Keeps s0 s) :
    Keeps s0 (State.setRow s r v) := by
  unfold State.setRow
  try dsimp only
  with_reducible repeat' (first | intro _ | assumption | apply State.setRf_keeps)

theorem State.writeBmcRow_keeps {s0 s : State} {r : Nat} {v : Word} (h : Keeps s0 s) :
    Keeps s0 (State.writeBmcRow s r v) := by
  unfold State.writeBmcRow
  try dsimp only
  with_reducible repeat'
    (first
      | intro _ | assumption | apply State.setRb_keeps | apply State.onBulk_keeps | apply State.setRow_keeps
      | apply State.reseat_keeps | apply Keeps.ite)

theorem execBmcRowWrite_keeps {s0 : State} {row : Fin 96} {v : Word} {s : State} (h : Keeps s0 s) :
    OutKeeps s0 (execBmcRowWrite row v s) := by
  unfold execBmcRowWrite
  try dsimp only
  with_reducible repeat' (first | intro _ | assumption | apply OutKeeps.next | apply State.writeBmcRow_keeps)

theorem State.zeroRow_keeps {s0 s : State} {r : Nat} (h : Keeps s0 s) : Keeps s0 (s.zeroRow r) :=
  (h.mem fun hw => twf_tclear _ _ hw).marks fun hw => twf_tclear _ _ hw

theorem State.writeBmcPart_keeps {s0 s : State} {p : Part} {v : Word} (h : Keeps s0 s) :
    Keeps s0 (State.writeBmcPart s p v) := by
  unfold State.writeBmcPart
  try dsimp only
  with_reducible repeat'
    (first
      | intro _ | assumption | apply State.reseat_keeps | apply State.setRb_keeps | apply State.setRf_keeps
      | apply Keeps.ite)

theorem execBmcPartWrite_keeps {s0 : State} {p : Part} {v : Word} {s : State} (h : Keeps s0 s) :
    OutKeeps s0 (execBmcPartWrite p v s) := by
  unfold execBmcPartWrite
  try dsimp only
  with_reducible repeat' (first | intro _ | assumption | apply OutKeeps.next | apply State.writeBmcPart_keeps)

theorem State.writeBmcShare_keeps {s0 s : State} {v : Word} (h : Keeps s0 s) :
    Keeps s0 (State.writeBmcShare s v) := by
  unfold State.writeBmcShare
  try dsimp only
  with_reducible repeat'
    (first
      | intro _ | assumption | apply State.setRb_keeps | apply State.writeReg_keeps | apply Keeps.ite)

theorem execBmcShareWrite_keeps {s0 : State} {v : Word} {s : State} (h : Keeps s0 s) :
    OutKeeps s0 (execBmcShareWrite v s) := by
  unfold execBmcShareWrite
  try dsimp only
  with_reducible repeat' (first | intro _ | assumption | apply OutKeeps.next | apply State.writeBmcShare_keeps)

end Sys2Proof.Machine
end

