-- ==== Sys2Proof/Laws/KeepsHauler.lean ====
section
/-! SUPPORT. The operations of Machine.Hauler keep the queue of commands and the invariant. -/

namespace Sys2Proof.Machine

theorem execHaulLd_keeps {s0 : State} {h0 : Issue} {hsel : BitVec 4} {da : BitVec 4} {db : BitVec 4}
    {perm : BitVec 15} {s : State} (h : Keeps s0 s) :
    OutKeeps s0 (execHaulLd h0 hsel da db perm s) := by
  unfold execHaulLd
  try dsimp only
  with_reducible repeat'
    (first
      | intro _ | assumption | apply OutKeeps.next | exact DispKeeps.stall | exact DispKeeps.fault
      | apply DispKeeps.failed | apply DispKeeps.done | apply DispKeeps.marked | apply DispKeeps.jump
      | apply issue_keeps | apply dispatch_keeps)

theorem execHaulSt_keeps {s0 : State} {h0 : Issue} {hsel : BitVec 4} {da : BitVec 4} {db : BitVec 4}
    {remote : BitVec 2} {ra : BitVec 5} {perm : BitVec 15} {s : State} (h : Keeps s0 s) :
    OutKeeps s0 (execHaulSt h0 hsel da db remote ra perm s) := by
  unfold execHaulSt
  try dsimp only
  with_reducible repeat'
    (first
      | intro _ | assumption | apply OutKeeps.next | exact DispKeeps.stall | exact DispKeeps.fault
      | apply DispKeeps.failed | apply DispKeeps.done | apply DispKeeps.marked | apply DispKeeps.jump
      | apply issueIf_keeps | apply dispatch_keeps)

theorem execHaulGth_keeps {s0 : State} {h0 : Issue} {hsel : BitVec 4} {da : BitVec 4} {db : BitVec 4}
    {dc : BitVec 4} {gd : BitVec 3} {s : State} (h : Keeps s0 s) :
    OutKeeps s0 (execHaulGth h0 hsel da db dc gd s) := by
  unfold execHaulGth
  try dsimp only
  with_reducible repeat'
    (first
      | intro _ | assumption | apply OutKeeps.next | exact DispKeeps.stall | exact DispKeeps.fault
      | apply DispKeeps.failed | apply DispKeeps.done | apply DispKeeps.marked | apply DispKeeps.jump
      | apply issue_keeps | apply dispatch_keeps)

theorem execHaulSct_keeps {s0 : State} {h0 : Issue} {hsel : BitVec 4} {da : BitVec 4} {db : BitVec 4}
    {dc : BitVec 4} {gd : BitVec 3} {s : State} (h : Keeps s0 s) :
    OutKeeps s0 (execHaulSct h0 hsel da db dc gd s) := by
  unfold execHaulSct
  try dsimp only
  with_reducible repeat'
    (first
      | intro _ | assumption | apply OutKeeps.next | exact DispKeeps.stall | exact DispKeeps.fault
      | apply DispKeeps.failed | apply DispKeeps.done | apply DispKeeps.marked | apply DispKeeps.jump
      | apply issue_keeps | apply dispatch_keeps)

theorem execHaulBegin_keeps {s0 : State} {b : Bid} {s : State} (h : Keeps s0 s) :
    OutKeeps s0 (execHaulBegin b s) := by
  unfold execHaulBegin
  try dsimp only
  with_reducible repeat' (first | intro _ | assumption | apply OutKeeps.next | apply State.beginOn_keeps)

theorem State.indexRecords_keeps {s0 s : State} {b : Bid} {w : Who} {l : List IndexOut} (h : Keeps s0 s) :
    Keeps s0 (State.indexRecords s b w l) := by
  unfold State.indexRecords
  try dsimp only
  with_reducible repeat'
    (first
      | intro _ | assumption | apply State.emit_keeps | apply State.setRf_keeps | apply Keeps.ite | dsimp only | split
      | apply Keeps.foldl)

theorem State.haulAfter_keeps {s0 : State} {b : Bid} {s : State} {r : Running} (h : Keeps s0 s) :
    Keeps s0 (State.haulAfter b s r) := by
  unfold State.haulAfter
  try dsimp only
  with_reducible repeat'
    (first
      | intro _ | assumption | apply State.satRead_keeps | apply State.indexRecords_keeps | apply State.countB_keeps
      | apply Keeps.ite)

theorem State.fillWords_keeps {s0 s : State} {l : Tab WordBits} (h : Keeps s0 s) : Keeps s0 (s.fillWords l).2 := by
  induction l generalizing s with
  | nil => exact h
  | cons e rest ih =>
    obtain ⟨k, w⟩ := e
    unfold State.fillWords
    dsimp only
    split
    · exact ih h
    · exact ih (State.drawLine_keeps h)

theorem State.sendWrites_keeps {s0 s : State} {b : Bid} {r : Running} (h : Keeps s0 s) :
    Keeps s0 (State.sendWrites s b r) := by
  unfold State.sendWrites
  try dsimp only
  with_reducible repeat'
    (first
      | intro _ | assumption | apply State.fillWords_keeps | apply State.send_keeps | apply State.setRunning_keeps
      | apply Keeps.ite | dsimp only | split | apply Keeps.foldl)

theorem State.hostWrite_keeps {s0 s : State} {p : Part} {l : List (Nat × Byte × Bool)} (h : Keeps s0 s) :
    Keeps s0 (State.hostWrite s p l) := by
  unfold State.hostWrite
  try dsimp only
  with_reducible repeat' (first | intro _ | assumption | apply State.countP_keeps | apply State.onHport_keeps)

theorem State.writeHost_keeps {s0 s : State} {b : Bid} {r : Running} (h : Keeps s0 s) :
    Keeps s0 (State.writeHost s b r) := by
  unfold State.writeHost
  try dsimp only
  with_reducible repeat'
    (first
      | intro _ | assumption | apply State.failRunning_keeps | apply State.hostWrite_keeps
      | apply State.setRunning_keeps | apply Keeps.ite)

theorem State.remoteDone_keeps {s0 s : State} {b : Bid} {r : Running} (h : Keeps s0 s) :
    Keeps s0 (State.remoteDone s b r) := by
  unfold State.remoteDone
  try dsimp only
  with_reducible repeat'
    (first
      | intro _ | assumption | apply State.completed_keeps | apply State.dropRunning_keeps
      | apply State.haulAfter_keeps)

theorem execHaulComplete_keeps {s0 : State} {b : Bid} {u : Fin 8} {s : State} (h : Keeps s0 s) :
    OutKeeps s0 (execHaulComplete b u s) := by
  unfold execHaulComplete
  try dsimp only
  with_reducible repeat'
    (first
      | intro _ | assumption | apply OutKeeps.next | apply State.readAll_keeps | apply State.failRunning_keeps
      | apply State.park_keeps | apply State.setRunning_keeps | apply State.finishOn_keeps
      | apply State.haulAfter_keeps | apply State.dropLost_keeps | apply State.sendWrites_keeps
      | apply State.writeHost_keeps | apply Keeps.ite | apply OutKeeps.ite | dsimp only | split | apply Keeps.foldl
      | refine PerfKeeps.getOkFst (by assumption) ?_ | refine PerfKeeps.getWaitFst (by assumption) ?_
      | refine PerfKeeps.getRefusedFst (by assumption) ?_)

theorem execAck_keeps {s0 s : State} (h : Keeps s0 s) :
    OutKeeps s0 (execAck s) := by
  unfold execAck
  try dsimp only
  with_reducible repeat'
    (first
      | intro _ | assumption | apply OutKeeps.next | apply State.takePacket_keeps | apply State.remoteDone_keeps
      | apply State.setRunning_keeps | apply Keeps.ite | apply OutKeeps.ite | dsimp only | split | apply Keeps.foldl
      | refine OptSndKeeps.get (by assumption) ?_)

theorem execReject_keeps {s0 s : State} (h : Keeps s0 s) :
    OutKeeps s0 (execReject s) := by
  unfold execReject
  try dsimp only
  with_reducible repeat'
    (first
      | intro _ | assumption | apply OutKeeps.next | apply State.takePacket_keeps | apply State.failRunning_keeps
      | apply Keeps.ite | apply OutKeeps.ite | dsimp only | split | apply Keeps.foldl
      | refine OptSndKeeps.get (by assumption) ?_)

theorem execFabricAckTimeout_keeps {s0 : State} {b : Bid} {u : Fin 8} {s : State} (h : Keeps s0 s) :
    OutKeeps s0 (execFabricAckTimeout b u s) := by
  unfold execFabricAckTimeout
  try dsimp only
  with_reducible repeat'
    (first
      | intro _ | assumption | apply OutKeeps.next | apply State.failRunning_keeps | apply Keeps.ite
      | apply OutKeeps.ite | dsimp only | split)

theorem execHostFlushComplete_keeps {s0 : State} {b : Bid} {u : Fin 8} {ans : HostAnswer} {s : State}
    (h : Keeps s0 s) :
    OutKeeps s0 (execHostFlushComplete b u ans s) := by
  unfold execHostFlushComplete
  try dsimp only
  with_reducible repeat'
    (first
      | intro _ | assumption | apply OutKeeps.next | apply State.remoteDone_keeps | apply State.failRunning_keeps
      | apply Keeps.ite | apply OutKeeps.ite | dsimp only | split)

theorem execHostAckTimeout_keeps {s0 : State} {b : Bid} {u : Fin 8} {s : State} (h : Keeps s0 s) :
    OutKeeps s0 (execHostAckTimeout b u s) := by
  unfold execHostAckTimeout
  try dsimp only
  with_reducible repeat'
    (first
      | intro _ | assumption | apply OutKeeps.next | apply State.failRunning_keeps | apply Keeps.ite
      | apply OutKeeps.ite | dsimp only | split)

theorem State.hubPut_keeps {s0 s : State} {p : Part} {r : WrReq} (h : Keeps s0 s) :
    AccKeeps s0 (State.hubPut s p r) := by
  unfold State.hubPut
  try dsimp only
  with_reducible repeat'
    (first
      | intro _ | assumption | exact AccKeeps.wait | apply AccKeeps.ok | apply State.protect_keeps
      | apply State.writeWord_keeps | apply Keeps.ite)

theorem State.writeBytes_keeps {s0 s : State} {p : Part} {l : List WrReq} (h : Keeps s0 s) :
    Keeps s0 (State.writeBytes s p l) := by
  unfold State.writeBytes
  generalize (l.all fun r => s.mayAccess p (16 * r.word)) = whole
  refine State.charge_keeps (Keeps.foldl h fun s r h => Keeps.ite (fun _ => h) fun _ => ?_)
  have hd : Keeps s0 (if whole then (true, s) else s.drawBool).2 := by
    split
    · exact h
    · exact State.drawBool_keeps h
  refine Keeps.ite (fun _ => hd) fun _ => ?_
  split
  · exact AccKeeps.get (by assumption) (State.hubPut_keeps hd)
  · exact hd

theorem execWrite_keeps {s0 s : State} (h : Keeps s0 s) : OutKeeps s0 (execWrite s) := by
  unfold execWrite
  try dsimp only
  with_reducible repeat'
    (first
      | intro _ | assumption | apply OutKeeps.next | apply State.refuseAt_keeps | apply State.send_keeps
      | apply State.takePacket_keeps | apply State.writeBytes_keeps | apply Keeps.ite | apply OutKeeps.ite
      | dsimp only | split | apply Keeps.foldl | refine OptSndKeeps.get (by assumption) ?_)

end Sys2Proof.Machine
end

