-- ==== Sys2Proof/Laws/KeepsErrors.lean ====
section
/-! SUPPORT. The operations of Machine.Errors keep the queue of commands and the invariant. -/

namespace Sys2Proof.Machine

theorem State.hostPut_keeps {s0 s : State} {p : Part} {a : Nat} {l : List Byte} (h : Keeps s0 s) :
    Keeps s0 (State.hostPut s p a l) := by
  unfold State.hostPut
  try dsimp only
  with_reducible repeat' (first | intro _ | assumption | apply State.onHport_keeps)

theorem State.ringPending_keeps {s0 s : State} {p : Part} (h : Keeps s0 s) :
    Keeps s0 (State.ringPending s p) := by
  unfold State.ringPending
  try dsimp only
  with_reducible repeat'
    (first
      | intro _ | assumption | apply State.raise_keeps | apply State.setRb_keeps | apply Keeps.ite)

theorem State.ringWrite_keeps {s0 s : State} {p : Part} {r : Rec} (h : Keeps s0 s) :
    Keeps s0 (State.ringWrite s p r) := by
  unfold State.ringWrite
  try dsimp only
  with_reducible repeat'
    (first
      | intro _ | assumption | apply State.hostPut_keeps | apply State.setRf_keeps | apply Keeps.ite | dsimp only
      | split | apply Keeps.foldl | fail_if_no_progress apply Keeps.lit)

theorem State.hold_keeps {s0 s : State} {p : Part} {r : Rec} (h : Keeps s0 s) : Keeps s0 (State.hold s p r) := by
  unfold State.hold
  try dsimp only
  with_reducible repeat'
    (first
      | intro _ | assumption | apply State.count_keeps | apply State.ringPending_keeps | apply Keeps.ite | dsimp only
      | split | fail_if_no_progress apply Keeps.lit)

theorem State.ringFails_keeps {s0 s : State} {p : Part} (h : Keeps s0 s) : Keeps s0 (State.ringFails s p) := by
  unfold State.ringFails
  try dsimp only
  with_reducible repeat' (first | intro _ | assumption | apply State.setRb_keeps)

theorem State.drainOne_keeps {s0 s : State} {p : Part} {refused : Bool} (h : Keeps s0 s) :
    Keeps s0 (State.drainOne s p refused) := by
  unfold State.drainOne
  try dsimp only
  with_reducible repeat'
    (first
      | intro _ | assumption | apply State.ringFails_keeps | apply State.ringWrite_keeps
      | apply State.ringPending_keeps | apply Keeps.ite | dsimp only | split | refine Keeps.snd (by assumption) ?_
      | fail_if_no_progress apply Keeps.lit)

theorem State.drainHeld_keeps {s0 s : State} {p : Part} {refused : Bool} (h : Keeps s0 s) :
    Keeps s0 (State.drainHeld s p refused) := by
  unfold State.drainHeld
  try dsimp only
  with_reducible repeat'
    (first
      | intro _ | assumption | apply State.drainOne_keeps | apply State.ringFails_keeps
      | apply State.ringPending_keeps | apply State.ringWrite_keeps | apply Keeps.ite | dsimp only | split
      | apply Keeps.foldl)

theorem State.drainDrawn_keeps {s0 s : State} {p : Part} (h : Keeps s0 s) :
    Keeps s0 (State.drainDrawn s p) := by
  unfold State.drainDrawn
  try dsimp only
  with_reducible repeat'
    (first
      | intro _ | assumption | apply State.drawBool_keeps | apply State.drainOne_keeps | apply Keeps.ite
      | apply Keeps.foldl)

theorem State.ringPut_keeps {s0 s : State} {p : Part} {refused : Bool} {r : Rec} (h : Keeps s0 s) :
    Keeps s0 (State.ringPut s p refused r) := by
  unfold State.ringPut
  try dsimp only
  with_reducible repeat'
    (first
      | intro _ | assumption | apply State.drainHeld_keeps | apply State.hold_keeps | apply State.ringFails_keeps
      | apply State.ringPending_keeps | apply State.ringWrite_keeps | apply Keeps.ite)

theorem State.deliverRec_keeps {s0 s : State} {refused : BitVec 4} {r : Rec} (h : Keeps s0 s) :
    Keeps s0 (State.deliverRec s refused r) := by
  unfold State.deliverRec
  try dsimp only
  with_reducible repeat'
    (first
      | intro _ | assumption | apply State.ringPut_keeps | apply Keeps.ite | dsimp only | split | apply Keeps.foldl
      | fail_if_no_progress apply Keeps.lit)

theorem execErrorRecordDelivery_keeps {s0 : State} {refused : BitVec 4} {s : State} (h : Keeps s0 s) :
    OutKeeps s0 (execErrorRecordDelivery refused s) := by
  unfold execErrorRecordDelivery
  try dsimp only
  with_reducible repeat'
    (first
      | intro _ | assumption | apply OutKeeps.next | apply State.deliverRec_keeps | apply Keeps.ite
      | apply OutKeeps.ite | dsimp only | split | apply Keeps.foldl | fail_if_no_progress apply Keeps.lit)

theorem execRecordMergeWindowEnd_keeps {s0 s : State} {i : Nat} {refused : BitVec 4} (h : Keeps s0 s) :
    OutKeeps s0 (execRecordMergeWindowEnd i refused s) := by
  unfold execRecordMergeWindowEnd
  try dsimp only
  with_reducible repeat'
    (first
      | intro _ | assumption | apply OutKeeps.next | apply State.count_keeps | apply State.deliverRec_keeps
      | dsimp only | split | fail_if_no_progress apply Keeps.lit)

theorem State.writeErrHead_keeps {s0 s : State} {p : Part} {v : Word} (h : Keeps s0 s) :
    Keeps s0 (State.writeErrHead s p v) := by
  unfold State.writeErrHead
  try dsimp only
  with_reducible repeat'
    (first
      | intro _ | assumption | apply State.drainHeld_keeps | apply State.setRb_keeps | apply State.setReg_keeps
      | apply State.setRf_keeps | apply Keeps.ite | dsimp only | split | fail_if_no_progress apply Keeps.lit)

theorem execErrHeadWrite_keeps {s0 s : State} {p : Part} {v : Word} {refused : Bool} (h : Keeps s0 s) :
    OutKeeps s0 (execErrHeadWrite p v refused s) := by
  unfold execErrHeadWrite
  try dsimp only
  with_reducible repeat'
    (first | assumption | apply OutKeeps.next | apply State.drainHeld_keeps | apply State.writeErrHead_keeps)

theorem State.writeErrRing_keeps {s0 s : State} {p : Part} {v : Word} (h : Keeps s0 s) :
    Keeps s0 (State.writeErrRing s p v) := by
  unfold State.writeErrRing
  try dsimp only
  with_reducible repeat' (first | intro _ | assumption | apply State.setRf_keeps | apply State.writeReg_keeps)

theorem State.publish_keeps {s0 s : State} {gen : Nat} (h : Keeps s0 s) :
    Keeps s0 (State.publish s gen) := by
  unfold State.publish
  try dsimp only
  with_reducible repeat'
    (first
      | intro _ | assumption | apply State.setReg_keeps | apply Keeps.ite | dsimp only | split | apply Keeps.foldl)

theorem State.planChanged_keeps {s0 s : State} (h : Keeps s0 s) :
    Keeps s0 (State.planChanged s) := by
  unfold State.planChanged
  try dsimp only
  with_reducible repeat' (first | intro _ | assumption | apply State.publish_keeps | apply Keeps.ite)

theorem State.setHist_keeps {s0 s : State} {u : UnitId} {l : List HistEnt} (h : Keeps s0 s) :
    Keeps s0 (State.setHist s u l) := by
  unfold State.setHist
  try dsimp only
  with_reducible repeat'
    (first
      | intro _ | assumption | apply Keeps.ite | dsimp only | split | apply Keeps.foldl
      | fail_if_no_progress apply Keeps.lit)

theorem State.retire_keeps {s0 s : State} {u : UnitId} (h : Keeps s0 s) : Keeps s0 (State.retire s u) := by
  unfold State.retire
  try dsimp only
  with_reducible repeat'
    (first
      | intro _ | assumption | apply State.emit_keeps | apply State.onPort_keeps | apply State.planChanged_keeps
      | apply State.retired_keeps | apply State.setRf_keeps | dsimp only | split | fail_if_no_progress apply Keeps.lit)

theorem State.pendUnit_keeps {s0 s : State} {u : UnitId} (h : Keeps s0 s) :
    Keeps s0 (State.pendUnit s u) := by
  unfold State.pendUnit
  try dsimp only
  with_reducible repeat'
    (first
      | intro _ | assumption | apply State.retire_keeps | apply State.errVote_keeps | apply State.emit_keeps
      | apply Keeps.ite | dsimp only | split | apply Keeps.foldl | fail_if_no_progress apply Keeps.lit)

theorem State.enterFault_keeps {s0 s : State} {r : Rec} (h : Keeps s0 s) :
    Keeps s0 (State.enterFault s r) := by
  unfold State.enterFault
  try dsimp only
  with_reducible repeat'
    (first
      | intro _ | assumption | apply State.setHist_keeps | apply State.pendUnit_keeps | apply Keeps.ite)

theorem State.coreCheck_keeps {s0 s : State} {c : CoreUpset} (h : Keeps s0 s) : Keeps s0 (State.coreCheck s c) := by
  unfold State.coreCheck
  try dsimp only
  with_reducible repeat'
    (first
      | intro _ | assumption | apply State.castVote_keeps | apply State.emit_keeps | apply State.errVote_keeps
      | apply Keeps.onBench | apply Keeps.onFm | exact BenchKeeps.same rfl | apply BenchKeeps.fm
      | exact FmKeeps.same rfl rfl rfl rfl rfl | apply Keeps.ite | dsimp only | split
      | fail_if_no_progress apply Keeps.lit)

theorem execFaultHistoryEntry_keeps {s0 s : State} {core : Option CoreUpset} (h : Keeps s0 s) :
    OutKeeps s0 (execFaultHistoryEntry core s) := by
  unfold execFaultHistoryEntry
  try dsimp only
  with_reducible repeat'
    (first
      | intro _ | assumption | apply OutKeeps.next | exact DispKeeps.stall | exact DispKeeps.fault
      | apply DispKeeps.failed | apply DispKeeps.done | apply DispKeeps.marked | apply DispKeeps.jump
      | apply DispKeeps.ite | apply State.coreCheck_keeps | apply State.enterFault_keeps | dsimp only | split
      | fail_if_no_progress apply Keeps.lit)

theorem execUnitRetired_keeps {s0 : State} {b : Nat} {cls : Nat} {index : Nat} {s : State} (h : Keeps s0 s) :
    OutKeeps s0 (execUnitRetired b cls index s) := by
  unfold execUnitRetired
  try dsimp only
  with_reducible repeat'
    (first
      | intro _ | assumption | apply OutKeeps.next | apply State.retire_keeps | apply Keeps.ite)

theorem State.askProof_keeps {s0 s : State} {r : ProofReq} (h : Keeps s0 s) :
    Keeps s0 (State.askProof s r) := by
  unfold State.askProof
  try dsimp only
  with_reducible repeat'
    (first
      | intro _ | assumption | apply Keeps.ite | dsimp only | split | apply Keeps.foldl
      | fail_if_no_progress apply Keeps.lit)

theorem State.onProof_keeps {s0 s : State} {u : UnitId} {f : ProofReq → ProofReq} (h : Keeps s0 s) :
    Keeps s0 (State.onProof s u f) := by
  unfold State.onProof
  try dsimp only
  with_reducible repeat'
    (first
      | intro _ | assumption | apply Keeps.ite | dsimp only | split | apply Keeps.foldl
      | fail_if_no_progress apply Keeps.lit)

theorem execProofPeriodicTimer_keeps {s0 s : State} (h : Keeps s0 s) :
    OutKeeps s0 (execProofPeriodicTimer s) := by
  unfold execProofPeriodicTimer
  try dsimp only
  with_reducible repeat'
    (first
      | intro _ | assumption | apply OutKeeps.next | apply State.askProof_keeps | apply Keeps.ite | apply OutKeeps.ite
      | dsimp only | split | apply Keeps.foldl)

theorem execProofStart_keeps {s0 : State} {b : Nat} {cls : Nat} {index : Nat} {s : State} (h : Keeps s0 s) :
    OutKeeps s0 (execProofStart b cls index s) := by
  unfold execProofStart
  try dsimp only
  with_reducible repeat'
    (first
      | intro _ | assumption | apply OutKeeps.next | apply State.onProof_keeps | apply Keeps.ite | apply OutKeeps.ite
      | dsimp only | split)

theorem execProofYield_keeps {s0 : State} {b : Nat} {cls : Nat} {index : Nat} {s : State} (h : Keeps s0 s) :
    OutKeeps s0 (execProofYield b cls index s) := by
  unfold execProofYield
  try dsimp only
  with_reducible repeat'
    (first
      | intro _ | assumption | apply OutKeeps.next | apply State.onProof_keeps | apply Keeps.ite)

theorem execProofPreempt_keeps {s0 : State} {b : Nat} {cls : Nat} {index : Nat} {s : State} (h : Keeps s0 s) :
    OutKeeps s0 (execProofPreempt b cls index s) := by
  unfold execProofPreempt
  try dsimp only
  with_reducible repeat'
    (first
      | intro _ | assumption | apply OutKeeps.next | apply State.onProof_keeps | apply Keeps.ite)

theorem State.proofStat_keeps {s0 s : State} {p : Option Part} {f : Fld} (h : Keeps s0 s) :
    Keeps s0 (State.proofStat s p f) := by
  unfold State.proofStat
  try dsimp only
  with_reducible repeat' (first | intro _ | assumption | apply State.setRb_keeps | apply Keeps.ite | dsimp only | split)

theorem State.settleView_keeps {s0 s : State} {u : UnitId} {ok : Bool} (h : Keeps s0 s) :
    Keeps s0 (State.settleView s u ok) := by
  unfold State.settleView
  try dsimp only
  with_reducible repeat'
    (first
      | intro _ | assumption | apply State.assignAll_keeps | apply Keeps.ite | dsimp only | split | apply Keeps.foldl
      | fail_if_no_progress apply Keeps.lit)

theorem State.viewHist_keeps {s0 s : State} {u : UnitId} (h : Keeps s0 s) :
    Keeps s0 (State.viewHist s u) := by
  unfold State.viewHist
  try dsimp only
  with_reducible repeat' (first | intro _ | assumption | apply State.setHist_keeps)

theorem execProofComplete_keeps {s0 s : State} {b : Nat} {cls index : Nat} {run : ProofRun} (h : Keeps s0 s) :
    OutKeeps s0 (execProofComplete b cls index run s) := by
  unfold execProofComplete
  try dsimp only
  with_reducible repeat'
    (first
      | intro _ | assumption | apply OutKeeps.next | apply State.countB_keeps | apply State.drawWord_keeps
      | apply State.emit_keeps | apply State.proofStat_keeps | apply State.raise_keeps | apply State.setRf_keeps
      | apply State.settleView_keeps | apply State.viewHist_keeps | apply Keeps.ite | apply OutKeeps.ite | dsimp only
      | split | apply Keeps.foldl | refine Keeps.snd (by assumption) ?_ | fail_if_no_progress apply Keeps.lit)

theorem execViewDisagree_keeps {s0 : State} {b : Nat} {cls : Nat} {index : Nat} {mgmtFailed : Bool} {s : State}
    (h : Keeps s0 s) :
    OutKeeps s0 (execViewDisagree b cls index mgmtFailed s) := by
  unfold execViewDisagree
  try dsimp only
  with_reducible repeat'
    (first
      | intro _ | assumption | apply State.assignAll_keeps | apply OutKeeps.next | apply State.viewHist_keeps
      | apply State.emit_keeps | apply State.askProof_keeps | apply Keeps.ite | apply OutKeeps.ite | dsimp only | split
      | apply Keeps.foldl | fail_if_no_progress apply Keeps.lit)

end Sys2Proof.Machine
end

