-- ==== Sys2Proof/Laws/KeepsForeman.lean ====
section
/-! SUPPORT. The operations of Machine.Foreman keep the queue of commands and the invariant. -/

namespace Sys2Proof.Machine

theorem alu_keeps {s0 : State} {f : Word → Word → Word} {rd : BitVec 5} {ra : BitVec 5} {rb : BitVec 5} {a : Fm}
    {a5 : State} (h : Keeps s0 a5) :
    DispKeeps s0 (alu f rd ra rb a a5) := by
  unfold alu
  try dsimp only
  with_reducible repeat'
    (first
      | intro _ | assumption | exact DispKeeps.stall | exact DispKeeps.fault | apply DispKeeps.failed
      | apply DispKeeps.done | apply DispKeeps.marked | apply DispKeeps.jump | apply waitS_keeps | apply Keeps.onFm
      | apply Keeps.ite | apply DispKeeps.ite | exact BenchKeeps.same rfl | exact FmKeeps.same rfl rfl rfl rfl rfl
      | exact Foreman.setS_sound)

theorem State.pendWrite_keeps {s0 s : State} {b : Bid} {rd : BitVec 5} {v : Word} (h : Keeps s0 s) :
    Keeps s0 (State.pendWrite s b rd v) := by
  unfold State.pendWrite
  try dsimp only
  with_reducible repeat'
    (first
      | intro _ | assumption | apply Keeps.onFm | apply Keeps.ite | exact BenchKeeps.same rfl
      | exact FmKeeps.same rfl rfl rfl rfl rfl | exact Foreman.setS_sound | exact Foreman.setP_sound
      | exact Foreman.setT_sound | refine FmKeeps.trans ?_ Foreman.setS_sound
      | refine FmKeeps.trans ?_ Foreman.setT_sound | exact FmKeeps.fewer rfl rfl (by simp) (by simp) (by simp)
      | dsimp only | split)

theorem aluLate_keeps {s0 : State} {f : Word → Word → Word} {rd : BitVec 5} {ra : BitVec 5} {rb : BitVec 5} {a : Fm}
    {a5 : State} (h : Keeps s0 a5) :
    DispKeeps s0 (aluLate f rd ra rb a a5) := by
  unfold aluLate
  try dsimp only
  with_reducible repeat'
    (first
      | intro _ | assumption | exact DispKeeps.stall | exact DispKeeps.fault | apply DispKeeps.failed
      | apply DispKeeps.done | apply DispKeeps.marked | apply DispKeeps.jump | apply waitS_keeps
      | apply State.pendWrite_keeps)

theorem aluImm_keeps {s0 : State} {f : Word → Word} {rd : BitVec 5} {ra : BitVec 5} {a : Fm} {a4 : State}
    (h : Keeps s0 a4) :
    DispKeeps s0 (aluImm f rd ra a a4) := by
  unfold aluImm
  try dsimp only
  with_reducible repeat'
    (first
      | intro _ | assumption | exact DispKeeps.stall | exact DispKeeps.fault | apply DispKeeps.failed
      | apply DispKeeps.done | apply DispKeeps.marked | apply DispKeeps.jump | apply waitS_keeps | apply Keeps.onFm
      | apply Keeps.ite | apply DispKeeps.ite | exact BenchKeeps.same rfl | exact FmKeeps.same rfl rfl rfl rfl rfl
      | exact Foreman.setS_sound)

theorem cmp_keeps {s0 : State} {f : Word → Word → Bool} {pd : BitVec 3} {ra : BitVec 5} {rb : BitVec 5} {a : Fm}
    {a5 : State} (h : Keeps s0 a5) :
    DispKeeps s0 (cmp f pd ra rb a a5) := by
  unfold cmp
  try dsimp only
  with_reducible repeat'
    (first
      | intro _ | assumption | exact DispKeeps.stall | exact DispKeeps.fault | apply DispKeeps.failed
      | apply DispKeeps.done | apply DispKeeps.marked | apply DispKeeps.jump | apply waitS_keeps | apply Keeps.onFm
      | apply Keeps.ite | apply DispKeeps.ite | exact BenchKeeps.same rfl | exact FmKeeps.same rfl rfl rfl rfl rfl
      | exact Foreman.setS_sound | exact Foreman.setP_sound)

theorem plog_keeps {s0 : State} {f : Bool → Bool → Bool} {pd : BitVec 3} {pa : BitVec 3} {pb : BitVec 3} {c : Fm}
    {s : State} (h : Keeps s0 s) :
    DispKeeps s0 (plog f pd pa pb c s) := by
  unfold plog
  try dsimp only
  with_reducible repeat'
    (first
      | intro _ | assumption | exact DispKeeps.stall | exact DispKeeps.fault | apply DispKeeps.failed
      | apply DispKeeps.done | apply DispKeeps.marked | apply DispKeeps.jump | apply Keeps.onFm | apply Keeps.ite
      | apply DispKeeps.ite | exact BenchKeeps.same rfl | exact FmKeeps.same rfl rfl rfl rfl rfl
      | exact Foreman.setS_sound | exact Foreman.setP_sound)

theorem execNop_keeps {s0 : State} {h0 : Issue} {s : State} (h : Keeps s0 s) :
    OutKeeps s0 (execNop h0 s) := by
  unfold execNop
  try dsimp only
  with_reducible repeat'
    (first
      | intro _ | assumption | apply OutKeeps.next | exact DispKeeps.stall | exact DispKeeps.fault
      | apply DispKeeps.failed | apply DispKeeps.done | apply DispKeeps.marked | apply DispKeeps.jump
      | apply issue_keeps)

theorem execAdd_keeps {s0 : State} {h0 : Issue} {rd : BitVec 5} {ra : BitVec 5} {rb : BitVec 5} {s : State}
    (h : Keeps s0 s) :
    OutKeeps s0 (execAdd h0 rd ra rb s) := by
  unfold execAdd
  try dsimp only
  with_reducible repeat'
    (first
      | intro _ | assumption | apply OutKeeps.next | exact DispKeeps.stall | exact DispKeeps.fault
      | apply DispKeeps.failed | apply DispKeeps.done | apply DispKeeps.marked | apply DispKeeps.jump
      | apply issue_keeps | apply alu_keeps)

theorem execSub_keeps {s0 : State} {h0 : Issue} {rd : BitVec 5} {ra : BitVec 5} {rb : BitVec 5} {s : State}
    (h : Keeps s0 s) :
    OutKeeps s0 (execSub h0 rd ra rb s) := by
  unfold execSub
  try dsimp only
  with_reducible repeat'
    (first
      | intro _ | assumption | apply OutKeeps.next | exact DispKeeps.stall | exact DispKeeps.fault
      | apply DispKeeps.failed | apply DispKeeps.done | apply DispKeeps.marked | apply DispKeeps.jump
      | apply issue_keeps | apply alu_keeps)

theorem execAnd_keeps {s0 : State} {h0 : Issue} {rd : BitVec 5} {ra : BitVec 5} {rb : BitVec 5} {s : State}
    (h : Keeps s0 s) :
    OutKeeps s0 (execAnd h0 rd ra rb s) := by
  unfold execAnd
  try dsimp only
  with_reducible repeat'
    (first
      | intro _ | assumption | apply OutKeeps.next | exact DispKeeps.stall | exact DispKeeps.fault
      | apply DispKeeps.failed | apply DispKeeps.done | apply DispKeeps.marked | apply DispKeeps.jump
      | apply issue_keeps | apply alu_keeps)

theorem execOr_keeps {s0 : State} {h0 : Issue} {rd : BitVec 5} {ra : BitVec 5} {rb : BitVec 5} {s : State}
    (h : Keeps s0 s) :
    OutKeeps s0 (execOr h0 rd ra rb s) := by
  unfold execOr
  try dsimp only
  with_reducible repeat'
    (first
      | intro _ | assumption | apply OutKeeps.next | exact DispKeeps.stall | exact DispKeeps.fault
      | apply DispKeeps.failed | apply DispKeeps.done | apply DispKeeps.marked | apply DispKeeps.jump
      | apply issue_keeps | apply alu_keeps)

theorem execXor_keeps {s0 : State} {h0 : Issue} {rd : BitVec 5} {ra : BitVec 5} {rb : BitVec 5} {s : State}
    (h : Keeps s0 s) :
    OutKeeps s0 (execXor h0 rd ra rb s) := by
  unfold execXor
  try dsimp only
  with_reducible repeat'
    (first
      | intro _ | assumption | apply OutKeeps.next | exact DispKeeps.stall | exact DispKeeps.fault
      | apply DispKeeps.failed | apply DispKeeps.done | apply DispKeeps.marked | apply DispKeeps.jump
      | apply issue_keeps | apply alu_keeps)

theorem execShl_keeps {s0 : State} {h0 : Issue} {rd : BitVec 5} {ra : BitVec 5} {rb : BitVec 5} {s : State}
    (h : Keeps s0 s) :
    OutKeeps s0 (execShl h0 rd ra rb s) := by
  unfold execShl
  try dsimp only
  with_reducible repeat'
    (first
      | intro _ | assumption | apply OutKeeps.next | exact DispKeeps.stall | exact DispKeeps.fault
      | apply DispKeeps.failed | apply DispKeeps.done | apply DispKeeps.marked | apply DispKeeps.jump
      | apply issue_keeps | apply alu_keeps)

theorem execShr_keeps {s0 : State} {h0 : Issue} {rd : BitVec 5} {ra : BitVec 5} {rb : BitVec 5} {s : State}
    (h : Keeps s0 s) :
    OutKeeps s0 (execShr h0 rd ra rb s) := by
  unfold execShr
  try dsimp only
  with_reducible repeat'
    (first
      | intro _ | assumption | apply OutKeeps.next | exact DispKeeps.stall | exact DispKeeps.fault
      | apply DispKeeps.failed | apply DispKeeps.done | apply DispKeeps.marked | apply DispKeeps.jump
      | apply issue_keeps | apply alu_keeps)

theorem execSar_keeps {s0 : State} {h0 : Issue} {rd : BitVec 5} {ra : BitVec 5} {rb : BitVec 5} {s : State}
    (h : Keeps s0 s) :
    OutKeeps s0 (execSar h0 rd ra rb s) := by
  unfold execSar
  try dsimp only
  with_reducible repeat'
    (first
      | intro _ | assumption | apply OutKeeps.next | exact DispKeeps.stall | exact DispKeeps.fault
      | apply DispKeeps.failed | apply DispKeeps.done | apply DispKeeps.marked | apply DispKeeps.jump
      | apply issue_keeps | apply alu_keeps)

theorem execMul_keeps {s0 : State} {h0 : Issue} {rd : BitVec 5} {ra : BitVec 5} {rb : BitVec 5} {s : State}
    (h : Keeps s0 s) :
    OutKeeps s0 (execMul h0 rd ra rb s) := by
  unfold execMul
  try dsimp only
  with_reducible repeat'
    (first
      | intro _ | assumption | apply OutKeeps.next | exact DispKeeps.stall | exact DispKeeps.fault
      | apply DispKeeps.failed | apply DispKeeps.done | apply DispKeeps.marked | apply DispKeeps.jump
      | apply issue_keeps | apply aluLate_keeps)

theorem execMulhu_keeps {s0 : State} {h0 : Issue} {rd : BitVec 5} {ra : BitVec 5} {rb : BitVec 5} {s : State}
    (h : Keeps s0 s) :
    OutKeeps s0 (execMulhu h0 rd ra rb s) := by
  unfold execMulhu
  try dsimp only
  with_reducible repeat'
    (first
      | intro _ | assumption | apply OutKeeps.next | exact DispKeeps.stall | exact DispKeeps.fault
      | apply DispKeeps.failed | apply DispKeeps.done | apply DispKeeps.marked | apply DispKeeps.jump
      | apply issue_keeps | apply aluLate_keeps)

theorem execMin_keeps {s0 : State} {h0 : Issue} {rd : BitVec 5} {ra : BitVec 5} {rb : BitVec 5} {s : State}
    (h : Keeps s0 s) :
    OutKeeps s0 (execMin h0 rd ra rb s) := by
  unfold execMin
  try dsimp only
  with_reducible repeat'
    (first
      | intro _ | assumption | apply OutKeeps.next | exact DispKeeps.stall | exact DispKeeps.fault
      | apply DispKeeps.failed | apply DispKeeps.done | apply DispKeeps.marked | apply DispKeeps.jump
      | apply issue_keeps | apply alu_keeps)

theorem execMinu_keeps {s0 : State} {h0 : Issue} {rd : BitVec 5} {ra : BitVec 5} {rb : BitVec 5} {s : State}
    (h : Keeps s0 s) :
    OutKeeps s0 (execMinu h0 rd ra rb s) := by
  unfold execMinu
  try dsimp only
  with_reducible repeat'
    (first
      | intro _ | assumption | apply OutKeeps.next | exact DispKeeps.stall | exact DispKeeps.fault
      | apply DispKeeps.failed | apply DispKeeps.done | apply DispKeeps.marked | apply DispKeeps.jump
      | apply issue_keeps | apply alu_keeps)

theorem execMax_keeps {s0 : State} {h0 : Issue} {rd : BitVec 5} {ra : BitVec 5} {rb : BitVec 5} {s : State}
    (h : Keeps s0 s) :
    OutKeeps s0 (execMax h0 rd ra rb s) := by
  unfold execMax
  try dsimp only
  with_reducible repeat'
    (first
      | intro _ | assumption | apply OutKeeps.next | exact DispKeeps.stall | exact DispKeeps.fault
      | apply DispKeeps.failed | apply DispKeeps.done | apply DispKeeps.marked | apply DispKeeps.jump
      | apply issue_keeps | apply alu_keeps)

theorem execMaxu_keeps {s0 : State} {h0 : Issue} {rd : BitVec 5} {ra : BitVec 5} {rb : BitVec 5} {s : State}
    (h : Keeps s0 s) :
    OutKeeps s0 (execMaxu h0 rd ra rb s) := by
  unfold execMaxu
  try dsimp only
  with_reducible repeat'
    (first
      | intro _ | assumption | apply OutKeeps.next | exact DispKeeps.stall | exact DispKeeps.fault
      | apply DispKeeps.failed | apply DispKeeps.done | apply DispKeeps.marked | apply DispKeeps.jump
      | apply issue_keeps | apply alu_keeps)

theorem execDivu_keeps {s0 : State} {h0 : Issue} {rd : BitVec 5} {ra : BitVec 5} {rb : BitVec 5} {s : State}
    (h : Keeps s0 s) :
    OutKeeps s0 (execDivu h0 rd ra rb s) := by
  unfold execDivu
  try dsimp only
  with_reducible repeat'
    (first
      | intro _ | assumption | apply OutKeeps.next | exact DispKeeps.stall | exact DispKeeps.fault
      | apply DispKeeps.failed | apply DispKeeps.done | apply DispKeeps.marked | apply DispKeeps.jump
      | apply issue_keeps | apply aluLate_keeps)

theorem execRemu_keeps {s0 : State} {h0 : Issue} {rd : BitVec 5} {ra : BitVec 5} {rb : BitVec 5} {s : State}
    (h : Keeps s0 s) :
    OutKeeps s0 (execRemu h0 rd ra rb s) := by
  unfold execRemu
  try dsimp only
  with_reducible repeat'
    (first
      | intro _ | assumption | apply OutKeeps.next | exact DispKeeps.stall | exact DispKeeps.fault
      | apply DispKeeps.failed | apply DispKeeps.done | apply DispKeeps.marked | apply DispKeeps.jump
      | apply issue_keeps | apply aluLate_keeps)

theorem execCeq_keeps {s0 : State} {h0 : Issue} {pd : BitVec 3} {ra : BitVec 5} {rb : BitVec 5} {s : State}
    (h : Keeps s0 s) :
    OutKeeps s0 (execCeq h0 pd ra rb s) := by
  unfold execCeq
  try dsimp only
  with_reducible repeat'
    (first
      | intro _ | assumption | apply OutKeeps.next | exact DispKeeps.stall | exact DispKeeps.fault
      | apply DispKeeps.failed | apply DispKeeps.done | apply DispKeeps.marked | apply DispKeeps.jump
      | apply issue_keeps | apply cmp_keeps)

theorem execCne_keeps {s0 : State} {h0 : Issue} {pd : BitVec 3} {ra : BitVec 5} {rb : BitVec 5} {s : State}
    (h : Keeps s0 s) :
    OutKeeps s0 (execCne h0 pd ra rb s) := by
  unfold execCne
  try dsimp only
  with_reducible repeat'
    (first
      | intro _ | assumption | apply OutKeeps.next | exact DispKeeps.stall | exact DispKeeps.fault
      | apply DispKeeps.failed | apply DispKeeps.done | apply DispKeeps.marked | apply DispKeeps.jump
      | apply issue_keeps | apply cmp_keeps)

theorem execClt_keeps {s0 : State} {h0 : Issue} {pd : BitVec 3} {ra : BitVec 5} {rb : BitVec 5} {s : State}
    (h : Keeps s0 s) :
    OutKeeps s0 (execClt h0 pd ra rb s) := by
  unfold execClt
  try dsimp only
  with_reducible repeat'
    (first
      | intro _ | assumption | apply OutKeeps.next | exact DispKeeps.stall | exact DispKeeps.fault
      | apply DispKeeps.failed | apply DispKeeps.done | apply DispKeeps.marked | apply DispKeeps.jump
      | apply issue_keeps | apply cmp_keeps)

theorem execCltu_keeps {s0 : State} {h0 : Issue} {pd : BitVec 3} {ra : BitVec 5} {rb : BitVec 5} {s : State}
    (h : Keeps s0 s) :
    OutKeeps s0 (execCltu h0 pd ra rb s) := by
  unfold execCltu
  try dsimp only
  with_reducible repeat'
    (first
      | intro _ | assumption | apply OutKeeps.next | exact DispKeeps.stall | exact DispKeeps.fault
      | apply DispKeeps.failed | apply DispKeeps.done | apply DispKeeps.marked | apply DispKeeps.jump
      | apply issue_keeps | apply cmp_keeps)

theorem execCge_keeps {s0 : State} {h0 : Issue} {pd : BitVec 3} {ra : BitVec 5} {rb : BitVec 5} {s : State}
    (h : Keeps s0 s) :
    OutKeeps s0 (execCge h0 pd ra rb s) := by
  unfold execCge
  try dsimp only
  with_reducible repeat'
    (first
      | intro _ | assumption | apply OutKeeps.next | exact DispKeeps.stall | exact DispKeeps.fault
      | apply DispKeeps.failed | apply DispKeeps.done | apply DispKeeps.marked | apply DispKeeps.jump
      | apply issue_keeps | apply cmp_keeps)

theorem execCgeu_keeps {s0 : State} {h0 : Issue} {pd : BitVec 3} {ra : BitVec 5} {rb : BitVec 5} {s : State}
    (h : Keeps s0 s) :
    OutKeeps s0 (execCgeu h0 pd ra rb s) := by
  unfold execCgeu
  try dsimp only
  with_reducible repeat'
    (first
      | intro _ | assumption | apply OutKeeps.next | exact DispKeeps.stall | exact DispKeeps.fault
      | apply DispKeeps.failed | apply DispKeeps.done | apply DispKeeps.marked | apply DispKeeps.jump
      | apply issue_keeps | apply cmp_keeps)

theorem execPand_keeps {s0 : State} {h0 : Issue} {pd : BitVec 3} {pa : BitVec 3} {pb : BitVec 3} {s : State}
    (h : Keeps s0 s) :
    OutKeeps s0 (execPand h0 pd pa pb s) := by
  unfold execPand
  try dsimp only
  with_reducible repeat'
    (first
      | intro _ | assumption | apply OutKeeps.next | exact DispKeeps.stall | exact DispKeeps.fault
      | apply DispKeeps.failed | apply DispKeeps.done | apply DispKeeps.marked | apply DispKeeps.jump
      | apply issue_keeps | apply plog_keeps)

theorem execPor_keeps {s0 : State} {h0 : Issue} {pd : BitVec 3} {pa : BitVec 3} {pb : BitVec 3} {s : State}
    (h : Keeps s0 s) :
    OutKeeps s0 (execPor h0 pd pa pb s) := by
  unfold execPor
  try dsimp only
  with_reducible repeat'
    (first
      | intro _ | assumption | apply OutKeeps.next | exact DispKeeps.stall | exact DispKeeps.fault
      | apply DispKeeps.failed | apply DispKeeps.done | apply DispKeeps.marked | apply DispKeeps.jump
      | apply issue_keeps | apply plog_keeps)

theorem execPxor_keeps {s0 : State} {h0 : Issue} {pd : BitVec 3} {pa : BitVec 3} {pb : BitVec 3} {s : State}
    (h : Keeps s0 s) :
    OutKeeps s0 (execPxor h0 pd pa pb s) := by
  unfold execPxor
  try dsimp only
  with_reducible repeat'
    (first
      | intro _ | assumption | apply OutKeeps.next | exact DispKeeps.stall | exact DispKeeps.fault
      | apply DispKeeps.failed | apply DispKeeps.done | apply DispKeeps.marked | apply DispKeeps.jump
      | apply issue_keeps | apply plog_keeps)

theorem execPandn_keeps {s0 : State} {h0 : Issue} {pd : BitVec 3} {pa : BitVec 3} {pb : BitVec 3} {s : State}
    (h : Keeps s0 s) :
    OutKeeps s0 (execPandn h0 pd pa pb s) := by
  unfold execPandn
  try dsimp only
  with_reducible repeat'
    (first
      | intro _ | assumption | apply OutKeeps.next | exact DispKeeps.stall | exact DispKeeps.fault
      | apply DispKeeps.failed | apply DispKeeps.done | apply DispKeeps.marked | apply DispKeeps.jump
      | apply issue_keeps | apply plog_keeps)

theorem execAddi_keeps {s0 : State} {h0 : Issue} {rd : BitVec 5} {ra : BitVec 5} {imm : BitVec 39} {s : State}
    (h : Keeps s0 s) :
    OutKeeps s0 (execAddi h0 rd ra imm s) := by
  unfold execAddi
  try dsimp only
  with_reducible repeat'
    (first
      | intro _ | assumption | apply OutKeeps.next | exact DispKeeps.stall | exact DispKeeps.fault
      | apply DispKeeps.failed | apply DispKeeps.done | apply DispKeeps.marked | apply DispKeeps.jump
      | apply issue_keeps | apply aluImm_keeps)

theorem execAndi_keeps {s0 : State} {h0 : Issue} {rd : BitVec 5} {ra : BitVec 5} {imm : BitVec 39} {s : State}
    (h : Keeps s0 s) :
    OutKeeps s0 (execAndi h0 rd ra imm s) := by
  unfold execAndi
  try dsimp only
  with_reducible repeat'
    (first
      | intro _ | assumption | apply OutKeeps.next | exact DispKeeps.stall | exact DispKeeps.fault
      | apply DispKeeps.failed | apply DispKeeps.done | apply DispKeeps.marked | apply DispKeeps.jump
      | apply issue_keeps | apply aluImm_keeps)

theorem execOri_keeps {s0 : State} {h0 : Issue} {rd : BitVec 5} {ra : BitVec 5} {imm : BitVec 39} {s : State}
    (h : Keeps s0 s) :
    OutKeeps s0 (execOri h0 rd ra imm s) := by
  unfold execOri
  try dsimp only
  with_reducible repeat'
    (first
      | intro _ | assumption | apply OutKeeps.next | exact DispKeeps.stall | exact DispKeeps.fault
      | apply DispKeeps.failed | apply DispKeeps.done | apply DispKeeps.marked | apply DispKeeps.jump
      | apply issue_keeps | apply aluImm_keeps)

theorem execXori_keeps {s0 : State} {h0 : Issue} {rd : BitVec 5} {ra : BitVec 5} {imm : BitVec 39} {s : State}
    (h : Keeps s0 s) :
    OutKeeps s0 (execXori h0 rd ra imm s) := by
  unfold execXori
  try dsimp only
  with_reducible repeat'
    (first
      | intro _ | assumption | apply OutKeeps.next | exact DispKeeps.stall | exact DispKeeps.fault
      | apply DispKeeps.failed | apply DispKeeps.done | apply DispKeeps.marked | apply DispKeeps.jump
      | apply issue_keeps | apply aluImm_keeps)

theorem execShli_keeps {s0 : State} {h0 : Issue} {rd : BitVec 5} {ra : BitVec 5} {imm : BitVec 6} {s : State}
    (h : Keeps s0 s) :
    OutKeeps s0 (execShli h0 rd ra imm s) := by
  unfold execShli
  try dsimp only
  with_reducible repeat'
    (first
      | intro _ | assumption | apply OutKeeps.next | exact DispKeeps.stall | exact DispKeeps.fault
      | apply DispKeeps.failed | apply DispKeeps.done | apply DispKeeps.marked | apply DispKeeps.jump
      | apply issue_keeps | apply aluImm_keeps)

theorem execShri_keeps {s0 : State} {h0 : Issue} {rd : BitVec 5} {ra : BitVec 5} {imm : BitVec 6} {s : State}
    (h : Keeps s0 s) :
    OutKeeps s0 (execShri h0 rd ra imm s) := by
  unfold execShri
  try dsimp only
  with_reducible repeat'
    (first
      | intro _ | assumption | apply OutKeeps.next | exact DispKeeps.stall | exact DispKeeps.fault
      | apply DispKeeps.failed | apply DispKeeps.done | apply DispKeeps.marked | apply DispKeeps.jump
      | apply issue_keeps | apply aluImm_keeps)

theorem execSari_keeps {s0 : State} {h0 : Issue} {rd : BitVec 5} {ra : BitVec 5} {imm : BitVec 6} {s : State}
    (h : Keeps s0 s) :
    OutKeeps s0 (execSari h0 rd ra imm s) := by
  unfold execSari
  try dsimp only
  with_reducible repeat'
    (first
      | intro _ | assumption | apply OutKeeps.next | exact DispKeeps.stall | exact DispKeeps.fault
      | apply DispKeeps.failed | apply DispKeeps.done | apply DispKeeps.marked | apply DispKeeps.jump
      | apply issue_keeps | apply aluImm_keeps)

theorem execMuli_keeps {s0 : State} {h0 : Issue} {rd : BitVec 5} {ra : BitVec 5} {imm : BitVec 39} {s : State}
    (h : Keeps s0 s) :
    OutKeeps s0 (execMuli h0 rd ra imm s) := by
  unfold execMuli
  try dsimp only
  with_reducible repeat'
    (first
      | intro _ | assumption | apply OutKeeps.next | exact DispKeeps.stall | exact DispKeeps.fault
      | apply DispKeeps.failed | apply DispKeeps.done | apply DispKeeps.marked | apply DispKeeps.jump
      | apply issue_keeps | apply aluLate_keeps)

theorem execCeqi_keeps {s0 : State} {h0 : Issue} {pd : BitVec 3} {ra : BitVec 5} {imm : BitVec 39} {s : State}
    (h : Keeps s0 s) :
    OutKeeps s0 (execCeqi h0 pd ra imm s) := by
  unfold execCeqi
  try dsimp only
  with_reducible repeat'
    (first
      | intro _ | assumption | apply OutKeeps.next | exact DispKeeps.stall | exact DispKeeps.fault
      | apply DispKeeps.failed | apply DispKeeps.done | apply DispKeeps.marked | apply DispKeeps.jump
      | apply issue_keeps | apply cmp_keeps)

theorem execClti_keeps {s0 : State} {h0 : Issue} {pd : BitVec 3} {ra : BitVec 5} {imm : BitVec 39} {s : State}
    (h : Keeps s0 s) :
    OutKeeps s0 (execClti h0 pd ra imm s) := by
  unfold execClti
  try dsimp only
  with_reducible repeat'
    (first
      | intro _ | assumption | apply OutKeeps.next | exact DispKeeps.stall | exact DispKeeps.fault
      | apply DispKeeps.failed | apply DispKeeps.done | apply DispKeeps.marked | apply DispKeeps.jump
      | apply issue_keeps | apply cmp_keeps)

theorem execCltui_keeps {s0 : State} {h0 : Issue} {pd : BitVec 3} {ra : BitVec 5} {imm : BitVec 39} {s : State}
    (h : Keeps s0 s) :
    OutKeeps s0 (execCltui h0 pd ra imm s) := by
  unfold execCltui
  try dsimp only
  with_reducible repeat'
    (first
      | intro _ | assumption | apply OutKeeps.next | exact DispKeeps.stall | exact DispKeeps.fault
      | apply DispKeeps.failed | apply DispKeeps.done | apply DispKeeps.marked | apply DispKeeps.jump
      | apply issue_keeps | apply cmp_keeps)

theorem execImm64_keeps {s0 : State} {h0 : Issue} {rd : BitVec 5} {imm : Word} {s : State} (h : Keeps s0 s) :
    OutKeeps s0 (execImm64 h0 rd imm s) := by
  unfold execImm64
  try dsimp only
  with_reducible repeat'
    (first
      | intro _ | assumption | apply OutKeeps.next | exact DispKeeps.stall | exact DispKeeps.fault
      | apply DispKeeps.failed | apply DispKeeps.done | apply DispKeeps.marked | apply DispKeeps.jump
      | apply issue_keeps | apply aluImm_keeps)

theorem waitT_keeps {s0 : State} {ts : List (BitVec 4)} {body : Fm → State → Disp} {c : Fm} {s : State}
    (hbody : ∀ y0 y1, Keeps s0 y1 → DispKeeps s0 (body y0 y1)) (h : Keeps s0 s) :
    DispKeeps s0 (waitT ts body c s) := by
  unfold waitT
  try dsimp only
  with_reducible repeat'
    (first
      | intro _ | assumption | exact DispKeeps.stall | exact DispKeeps.fault | apply DispKeeps.failed
      | apply DispKeeps.done | apply DispKeeps.marked | apply DispKeeps.jump | apply hbody | apply Keeps.ite
      | apply DispKeeps.ite)

theorem execTmov_keeps {s0 : State} {h0 : Issue} {td : BitVec 4} {ta : BitVec 4} {s : State} (h : Keeps s0 s) :
    OutKeeps s0 (execTmov h0 td ta s) := by
  unfold execTmov
  try dsimp only
  with_reducible repeat'
    (first
      | intro _ | assumption | apply OutKeeps.next | exact DispKeeps.stall | exact DispKeeps.fault
      | apply DispKeeps.failed | apply DispKeeps.done | apply DispKeeps.marked | apply DispKeeps.jump
      | apply issue_keeps | apply waitT_keeps | apply Keeps.onFm | apply Keeps.ite | apply OutKeeps.ite
      | apply DispKeeps.ite | exact BenchKeeps.same rfl | exact FmKeeps.same rfl rfl rfl rfl rfl)

theorem execTset_keeps {s0 : State} {h0 : Issue} {td : BitVec 4} {ra : BitVec 5} {w : BitVec 3} {s : State}
    (h : Keeps s0 s) :
    OutKeeps s0 (execTset h0 td ra w s) := by
  unfold execTset
  try dsimp only
  with_reducible repeat'
    (first
      | intro _ | assumption | apply OutKeeps.next | exact DispKeeps.stall | exact DispKeeps.fault
      | apply DispKeeps.failed | apply DispKeeps.done | apply DispKeeps.marked | apply DispKeeps.jump
      | apply issue_keeps | apply waitT_keeps | apply waitS_keeps | apply Keeps.onFm | apply Keeps.ite
      | apply OutKeeps.ite | apply DispKeeps.ite | exact BenchKeeps.same rfl | exact FmKeeps.same rfl rfl rfl rfl rfl)

theorem execTget_keeps {s0 : State} {h0 : Issue} {rd : BitVec 5} {ta : BitVec 4} {w : BitVec 3} {s : State}
    (h : Keeps s0 s) :
    OutKeeps s0 (execTget h0 rd ta w s) := by
  unfold execTget
  try dsimp only
  with_reducible repeat'
    (first
      | intro _ | assumption | apply OutKeeps.next | exact DispKeeps.stall | exact DispKeeps.fault
      | apply DispKeeps.failed | apply DispKeeps.done | apply DispKeeps.marked | apply DispKeeps.jump
      | apply issue_keeps | apply waitT_keeps | apply waitS_keeps | apply Keeps.onFm | apply Keeps.ite
      | apply OutKeeps.ite | apply DispKeeps.ite | exact BenchKeeps.same rfl | exact FmKeeps.same rfl rfl rfl rfl rfl
      | exact Foreman.setS_sound)

theorem execPendingValueArrives_keeps {s0 : State} {b : Bid} {desc : Bool} {r : BitVec 5} {s : State}
    (h : Keeps s0 s) :
    OutKeeps s0 (execPendingValueArrives b desc r s) := by
  unfold execPendingValueArrives
  try dsimp only
  with_reducible repeat'
    (first
      | intro _ | assumption | apply OutKeeps.next | apply Keeps.onFm | apply Keeps.ite | apply OutKeeps.ite
      | exact BenchKeeps.same rfl | exact FmKeeps.same rfl rfl rfl rfl rfl | exact Foreman.setS_sound
      | exact Foreman.setP_sound | exact Foreman.setT_sound | refine FmKeeps.trans ?_ Foreman.setS_sound
      | refine FmKeeps.trans ?_ Foreman.setT_sound | exact FmKeeps.fewer rfl rfl (by simp) (by simp) (by simp)
      | dsimp only | split)

theorem execBr_keeps {s0 : State} {h0 : Issue} {off : BitVec 20} {s : State} (h : Keeps s0 s) :
    OutKeeps s0 (execBr h0 off s) := by
  unfold execBr
  try dsimp only
  with_reducible repeat'
    (first
      | intro _ | assumption | apply OutKeeps.next | exact DispKeeps.stall | exact DispKeeps.fault
      | apply DispKeeps.failed | apply DispKeeps.done | apply DispKeeps.marked | apply DispKeeps.jump
      | apply issue_keeps)

theorem State.link_keeps {s0 s : State} {c : Fm} (h : Keeps s0 s) :
    Keeps s0 (State.link s c) := by
  unfold State.link
  try dsimp only
  with_reducible repeat'
    (first
      | intro _ | assumption | apply Keeps.onFm | apply Keeps.ite | exact BenchKeeps.same rfl
      | exact FmKeeps.same rfl rfl rfl rfl rfl | exact Foreman.setS_sound)

theorem execCall_keeps {s0 : State} {h0 : Issue} {off : BitVec 20} {s : State} (h : Keeps s0 s) :
    OutKeeps s0 (execCall h0 off s) := by
  unfold execCall
  try dsimp only
  with_reducible repeat'
    (first
      | intro _ | assumption | apply OutKeeps.next | exact DispKeeps.stall | exact DispKeeps.fault
      | apply DispKeeps.failed | apply DispKeeps.done | apply DispKeeps.marked | apply DispKeeps.jump
      | apply issue_keeps | apply waitS_keeps | apply State.link_keeps)

theorem execJr_keeps {s0 : State} {h0 : Issue} {ra : BitVec 5} {s : State} (h : Keeps s0 s) :
    OutKeeps s0 (execJr h0 ra s) := by
  unfold execJr
  try dsimp only
  with_reducible repeat'
    (first
      | intro _ | assumption | apply OutKeeps.next | exact DispKeeps.stall | exact DispKeeps.fault
      | apply DispKeeps.failed | apply DispKeeps.done | apply DispKeeps.marked | apply DispKeeps.jump
      | apply issue_keeps | apply waitS_keeps)

theorem execCallr_keeps {s0 : State} {h0 : Issue} {ra : BitVec 5} {s : State} (h : Keeps s0 s) :
    OutKeeps s0 (execCallr h0 ra s) := by
  unfold execCallr
  try dsimp only
  with_reducible repeat'
    (first
      | intro _ | assumption | apply OutKeeps.next | exact DispKeeps.stall | exact DispKeeps.fault
      | apply DispKeeps.failed | apply DispKeeps.done | apply DispKeeps.marked | apply DispKeeps.jump
      | apply issue_keeps | apply waitS_keeps | apply State.link_keeps)

theorem execEnd_keeps {s0 : State} {h0 : Issue} {s : State} (h : Keeps s0 s) :
    OutKeeps s0 (execEnd h0 s) := by
  unfold execEnd
  try dsimp only
  with_reducible repeat'
    (first
      | intro _ | assumption | apply OutKeeps.next | exact DispKeeps.stall | exact DispKeeps.fault
      | apply DispKeeps.failed | apply DispKeeps.done | apply DispKeeps.marked | apply DispKeeps.jump
      | apply issue_keeps | apply Keeps.onFm | apply Keeps.ite | apply OutKeeps.ite | apply DispKeeps.ite
      | exact BenchKeeps.same rfl | exact FmKeeps.same rfl rfl rfl rfl rfl)

theorem State.barsRest_keeps {s0 s : State} {b : Bid} (h : Keeps s0 s) :
    Keeps s0 (State.barsRest s b) := by
  unfold State.barsRest
  try dsimp only
  with_reducible repeat'
    (first
      | intro _ | assumption | apply State.resetRegs_keeps | apply State.onBar_keeps | apply Keeps.ite | dsimp only
      | split)

theorem execForemanDrainComplete_keeps {s0 : State} {b : Bid} {s : State} (h : Keeps s0 s) :
    OutKeeps s0 (execForemanDrainComplete b s) := by
  unfold execForemanDrainComplete
  try dsimp only
  with_reducible repeat'
    (first
      | intro _ | assumption | apply OutKeeps.next | apply State.setRb_keeps | apply Keeps.onFm
      | apply State.barsRest_keeps | apply Keeps.ite | apply OutKeeps.ite | exact BenchKeeps.same rfl
      | exact FmKeeps.same rfl rfl rfl rfl rfl)

theorem execMarkBegin_keeps {s0 : State} {h0 : Issue} {id : BitVec 32} {s : State} (h : Keeps s0 s) :
    OutKeeps s0 (execMarkBegin h0 id s) := by
  refine issue_keeps (fun c s h => ?_) h
  split
  · exact h
  · split
    · trivial
    · rename_i h8
      exact h.onFmAt fun ⟨h1, h2, _, h4⟩ => ⟨h1, h2, by simp only [List.length_cons]; omega, h4⟩

theorem execMarkEnd_keeps {s0 : State} {h0 : Issue} {s : State} (h : Keeps s0 s) :
    OutKeeps s0 (execMarkEnd h0 s) := by
  unfold execMarkEnd
  try dsimp only
  with_reducible repeat'
    (first
      | intro _ | assumption | apply OutKeeps.next | exact DispKeeps.stall | exact DispKeeps.fault
      | apply DispKeeps.failed | apply DispKeeps.done | apply DispKeeps.marked | apply DispKeeps.jump
      | apply issue_keeps | apply Keeps.onFm | apply Keeps.ite | apply OutKeeps.ite | apply DispKeeps.ite
      | exact BenchKeeps.same rfl | exact FmKeeps.same rfl rfl rfl rfl rfl | exact Foreman.setS_sound
      | exact Foreman.setP_sound | exact Foreman.setT_sound | refine FmKeeps.trans ?_ Foreman.setS_sound
      | refine FmKeeps.trans ?_ Foreman.setT_sound | exact FmKeeps.fewer rfl rfl (by simp) (by simp) (by simp))

end Sys2Proof.Machine
end

