-- ==== Sys2Proof/Laws/KeepsStockpile.lean ====
section
/-! SUPPORT. The operations of Machine.Stockpile keep the queue of commands and the invariant. -/

namespace Sys2Proof.Machine

theorem execStkPush_keeps {s0 : State} {h0 : Issue} {da : BitVec 4} {db : BitVec 4} {ra : BitVec 5}
    {tid : BitVec 32} {s : State} (h : Keeps s0 s) :
    OutKeeps s0 (execStkPush h0 da db ra tid s) := by
  unfold execStkPush
  try dsimp only
  with_reducible repeat'
    (first
      | intro _ | assumption | apply OutKeeps.next | exact DispKeeps.stall | exact DispKeeps.fault
      | apply DispKeeps.failed | apply DispKeeps.done | apply DispKeeps.marked | apply DispKeeps.jump
      | apply issue_keeps | apply dispatch_keeps)

theorem execStkPop_keeps {s0 : State} {h0 : Issue} {da : BitVec 4} {ra : BitVec 5} {rb : BitVec 5} {s : State}
    (h : Keeps s0 s) :
    OutKeeps s0 (execStkPop h0 da ra rb s) := by
  unfold execStkPop
  try dsimp only
  with_reducible repeat'
    (first
      | intro _ | assumption | apply OutKeeps.next | exact DispKeeps.stall | exact DispKeeps.fault
      | apply DispKeeps.failed | apply DispKeeps.done | apply DispKeeps.marked | apply DispKeeps.jump
      | apply issue_keeps | apply dispatch_keeps)

theorem State.setCat_keeps {s0 s : State} {b : Bid} {n : Nat} {c : CatEntry} (h : Keeps s0 s) :
    Keeps s0 (State.setCat s b n c) := by
  unfold State.setCat
  try dsimp only
  with_reducible repeat'
    (first
      | intro _ | assumption | apply Keeps.onBench | apply Keeps.ite | exact BenchKeeps.same rfl)

theorem State.stkSettle_keeps {s0 s : State} {b : Bid} (h : Keeps s0 s) :
    Keeps s0 (State.stkSettle s b) := by
  unfold State.stkSettle
  try dsimp only
  with_reducible repeat'
    (first
      | intro _ | assumption | apply Keeps.onBench | apply Keeps.setQueue | apply State.resetRegs_keeps
      | apply Keeps.ite | exact BenchKeeps.same rfl)

theorem State.dropStash_keeps {s0 s : State} {b : Bid} {n : Nat} (h : Keeps s0 s) :
    Keeps s0 (State.dropStash s b n) := by
  unfold State.dropStash
  try dsimp only
  with_reducible repeat'
    (first
      | intro _ | assumption | apply State.countB_keeps | apply State.setReg_keeps | apply State.setCat_keeps)

theorem State.dropUntil_keeps {s0 s : State} {b : Bid} {n : Nat} {l : List Nat} (h : Keeps s0 s) :
    Keeps s0 (s.dropUntil b n l).1 := by
  induction l generalizing s with
  | nil => exact h
  | cons e rest ih =>
    unfold State.dropUntil
    dsimp only
    split
    · exact State.dropStash_keeps h
    · exact ih (State.dropStash_keeps h)

theorem State.stashPlace_keeps {s0 s : State} {b : Bid} {e : Entry} {n : Nat} (h : Keeps s0 s) :
    Keeps s0 (State.stashPlace s b e n).1 := by
  unfold State.stashPlace
  try dsimp only
  with_reducible repeat'
    (first
      | intro _ | assumption | apply State.dropUntil_keeps | apply Keeps.ite | dsimp only | split)

theorem State.pushAfter_keeps {s0 : State} {b : Bid} {s : State} {r : Running} (h : Keeps s0 s) :
    Keeps s0 (State.pushAfter b s r) := by
  unfold State.pushAfter
  try dsimp only
  with_reducible repeat'
    (first
      | intro _ | assumption | apply State.satRead_keeps | apply State.tally_keeps | apply State.countB_keeps)

theorem State.pushRun_keeps {s0 s : State} {b : Bid} {e : Entry} {bulk : Bool} {unit : Nat} (h : Keeps s0 s) :
    Keeps s0 (State.pushRun s b e bulk unit) := by
  unfold State.pushRun
  try dsimp only
  with_reducible repeat'
    (first
      | intro _ | assumption | apply State.setCat_keeps | apply Keeps.onBench | apply State.dequeue_keeps
      | apply Keeps.ite | exact BenchKeeps.same rfl)

theorem State.pushAt_keeps {s0 : State} {b : Bid} {e : Entry} {r : State × Option (Bool × Nat)} (h : Keeps s0 r.1) :
    Keeps s0 (State.pushAt b e r) := by
  obtain ⟨t, _ | ⟨bulk, unit⟩⟩ := r
  · exact State.fault_keeps (State.setRb_keeps h)
  · exact State.pushRun_keeps h

theorem State.pushBegin_keeps {s0 s : State} {b : Bid} {e : Entry} (h : Keeps s0 s) : Keeps s0 (s.pushBegin b e) :=
  State.pushAt_keeps (State.stashPlace_keeps h)

theorem State.pushOn_keeps {s0 s : State} {b : Bid} {upset : Option UnitUpset} (h : Keeps s0 s) :
    Keeps s0 (State.pushOn s b upset) := by
  unfold State.pushOn
  try dsimp only
  with_reducible repeat'
    (first
      | intro _ | assumption | apply State.stkSettle_keeps | apply State.finishOn_keeps | apply State.pushAfter_keeps)

theorem execStkPushPlace_keeps {s0 s : State} {b : Bid} {upset : Option UnitUpset} (h : Keeps s0 s) :
    OutKeeps s0 (execStkPushPlace b upset s) := by
  unfold execStkPushPlace
  try dsimp only
  with_reducible repeat'
    (first
      | intro _ | assumption | apply OutKeeps.next | exact DispKeeps.stall | exact DispKeeps.fault
      | apply DispKeeps.failed | apply DispKeeps.done | apply DispKeeps.marked | apply DispKeeps.jump
      | apply DispKeeps.ite | apply State.faultHead_keeps | apply State.pushBegin_keeps | apply State.pushOn_keeps
      | apply State.stkSettle_keeps | apply Keeps.ite | apply OutKeeps.ite | dsimp only | split)

theorem State.popAfter_keeps {s0 : State} {b : Bid} {s : State} {r : Running} (h : Keeps s0 s) :
    Keeps s0 (State.popAfter b s r) := by
  unfold State.popAfter
  try dsimp only
  with_reducible repeat'
    (first
      | intro _ | assumption | apply State.countB_keeps | apply State.setCat_keeps | apply State.store_keeps
      | apply State.failRunning_keeps | apply Keeps.ite | dsimp only | split | apply Keeps.foldl
      | refine PerfKeeps.getOk (by assumption) ?_ | refine PerfKeeps.getWait (by assumption) ?_
      | refine PerfKeeps.getRefused (by assumption) ?_)

theorem State.popOn_keeps {s0 s : State} {b : Bid} (h : Keeps s0 s) :
    Keeps s0 (State.popOn s b) := by
  unfold State.popOn
  try dsimp only
  with_reducible repeat'
    (first
      | intro _ | assumption | apply State.stkSettle_keeps | apply State.finishOn_keeps | apply State.popAfter_keeps)

theorem execStkPopExecute_keeps {s0 : State} {b : Bid} {s : State} (h : Keeps s0 s) :
    OutKeeps s0 (execStkPopExecute b s) := by
  unfold execStkPopExecute
  try dsimp only
  with_reducible repeat'
    (first
      | intro _ | assumption | apply OutKeeps.next | apply State.stkSettle_keeps | apply State.popOn_keeps
      | apply State.beginOn_keeps | apply Keeps.ite | apply OutKeeps.ite | dsimp only | split)

theorem State.writeTier_keeps {s0 s : State} {b : Bid} {bulk : Bool} {v : Word} (h : Keeps s0 s) :
    Keeps s0 (State.writeTier s b bulk v) := by
  unfold State.writeTier
  try dsimp only
  with_reducible repeat'
    (first
      | intro _ | assumption | apply State.writeReg_keeps | apply State.setRb_keeps | apply Keeps.ite)

theorem execStkTierWrite_keeps {s0 : State} {b : Bid} {bulk : Bool} {v : Word} {s : State} (h : Keeps s0 s) :
    OutKeeps s0 (execStkTierWrite b bulk v s) := by
  unfold execStkTierWrite
  try dsimp only
  with_reducible repeat' (first | intro _ | assumption | apply OutKeeps.next | apply State.writeTier_keeps)

end Sys2Proof.Machine
end

