-- ==== Sys2Proof/Laws/KeepsSync.lean ====
section
/-! SUPPORT. The operations of Machine.Sync keep the queue of commands and the invariant. -/

namespace Sys2Proof.Machine

theorem execSyncFence_keeps {s0 : State} {h0 : Issue} {cover gate : BitVec 8} {s : State} (h : Keeps s0 s) :
    OutKeeps s0 (execSyncFence h0 cover gate s) := by
  unfold execSyncFence
  dsimp only
  refine OutKeeps.ite (fun _ => h.onFm fun _ => FmKeeps.same rfl rfl rfl rfl rfl) fun _ => ?_
  refine issue_keeps (fun c s h => ?_) h
  split
  · trivial
  · rename_i h8
    simp only [Bool.or_eq_true, decide_eq_true_eq, not_or] at h8
    have hf : Keeps s0 (s.onFm c.b fun x =>
        { x with
          nextId := (s.fm c.b).nextId + 1
          ninth := none
          fences := x.fences ++ [⟨(s.fm c.b).nextId, (s.bench c.b).covered cover, c.op.pc, c.op.mark⟩] }) :=
      h.onFmAt fun ⟨h1, h2, h3, h4, _⟩ => ⟨h1, h2, h3, h4, by
        simp only [List.length_append, List.length_cons, List.length_nil]; omega⟩
    refine DispKeeps.later ?_
    split
    · exact hf
    · exact State.placeGate_keeps hf

theorem State.openGates_keeps {s0 s : State} {b : Bid} {want : GateKind → Bool} (h : Keeps s0 s) :
    Keeps s0 (State.openGates s b want) := by
  unfold State.openGates
  try dsimp only
  with_reducible repeat'
    (first
      | intro _ | assumption | apply State.openGate_keeps | apply Keeps.ite | dsimp only | split | apply Keeps.foldl)

theorem execFenceRetire_keeps {s0 : State} {b : Bid} {s : State} (h : Keeps s0 s) :
    OutKeeps s0 (execFenceRetire b s) := by
  unfold execFenceRetire
  split
  · exact h
  · refine OutKeeps.next (State.retireOp_keeps (State.openGates_keeps (h.onFm fun x => FmKeeps.fewer rfl rfl (Nat.le_refl _) ?_ ?_)))
    · simp
    · exact List.length_filter_le _ _

theorem State.pushSig_keeps {s0 s : State} {c : Fm} {k : SigKind} (h : Keeps s0 s)
    (h8 : (s.fm c.b).sigs.length < 8) : Keeps s0 (s.pushSig c k) :=
  h.onFmAt fun ⟨h1, h2, h3, _, h5⟩ => ⟨h1, h2, h3, by
    simp only [List.length_append, List.length_cons, List.length_nil]; omega, h5⟩

theorem signalOp_keeps {s0 : State} {mode : BitVec 2} {ra rb : BitVec 5} {c : Fm} {s : State} (h : Keeps s0 s) :
    DispKeeps s0 (signalOp mode ra rb c s) := by
  refine waitS_keeps (fun c s h => ?_) h
  dsimp only
  split
  · trivial
  · split
    · trivial
    · exact DispKeeps.done (State.pushSig_keeps h (by omega))

theorem execSet_keeps {s0 : State} {h0 : Issue} {ra : BitVec 5} {rb : BitVec 5} {s : State} (h : Keeps s0 s) :
    OutKeeps s0 (execSet h0 ra rb s) := by
  unfold execSet
  try dsimp only
  with_reducible repeat'
    (first
      | intro _ | assumption | apply OutKeeps.next | exact DispKeeps.stall | exact DispKeeps.fault
      | apply DispKeeps.failed | apply DispKeeps.done | apply DispKeeps.marked | apply DispKeeps.jump
      | apply issue_keeps | apply signalOp_keeps)

theorem execSigAdd_keeps {s0 : State} {h0 : Issue} {ra : BitVec 5} {rb : BitVec 5} {s : State} (h : Keeps s0 s) :
    OutKeeps s0 (execSigAdd h0 ra rb s) := by
  unfold execSigAdd
  try dsimp only
  with_reducible repeat'
    (first
      | intro _ | assumption | apply OutKeeps.next | exact DispKeeps.stall | exact DispKeeps.fault
      | apply DispKeeps.failed | apply DispKeeps.done | apply DispKeeps.marked | apply DispKeeps.jump
      | apply issue_keeps | apply signalOp_keeps)

theorem execClear_keeps {s0 : State} {h0 : Issue} {ra : BitVec 5} {s : State} (h : Keeps s0 s) :
    OutKeeps s0 (execClear h0 ra s) := by
  unfold execClear
  try dsimp only
  with_reducible repeat'
    (first
      | intro _ | assumption | apply OutKeeps.next | exact DispKeeps.stall | exact DispKeeps.fault
      | apply DispKeeps.failed | apply DispKeeps.done | apply DispKeeps.marked | apply DispKeeps.jump
      | apply issue_keeps | apply signalOp_keeps)

theorem State.signalWord_keeps {s0 s : State} {mode : BitVec 2} {wn : Nat} {image : Line16} (h : Keeps s0 s) :
    Keeps s0 (State.signalWord s mode wn image) := by
  unfold State.signalWord
  try dsimp only
  with_reducible repeat'
    (first
      | intro _ | assumption | apply State.poisonRead_keeps | apply State.setMark_keeps | apply State.putWord_keeps
      | apply State.decodeWord_keeps | apply Keeps.ite)

theorem execSignalIssue_keeps {s0 : State} {b : Bid} {s : State} (h : Keeps s0 s) :
    OutKeeps s0 (execSignalIssue b s) := by
  unfold execSignalIssue
  split
  · exact h
  · rename_i g rest hs
    split
    · exact h
    · have hf : Keeps s0 (s.onFm b fun f => { f with sigs := rest }) :=
        h.onFmAt fun ⟨h1, h2, h3, h4, h5⟩ => ⟨h1, h2, h3, by
          rw [hs, List.length_cons] at h4; dsimp only; omega, h5⟩
      dsimp only
      split
      · split
        · exact OutKeeps.next (State.slotCount_keeps (State.signalWord_keeps hf))
        · exact OutKeeps.next (State.fault_keeps (State.refuse_keeps hf))
      · exact OutKeeps.next (State.onBar_keeps hf)

theorem waitOp_keeps {s0 : State} {cond : BitVec 2} {rd : BitVec 5} {ra : BitVec 5} {rb : BitVec 5}
    {gate : BitVec 8} {a : Fm} {a6 : State} (h : Keeps s0 a6) :
    DispKeeps s0 (waitOp cond rd ra rb gate a a6) := by
  unfold waitOp
  try dsimp only
  with_reducible repeat'
    (first
      | intro _ | assumption | exact DispKeeps.stall | exact DispKeeps.fault | apply DispKeeps.failed
      | apply DispKeeps.done | apply DispKeeps.marked | apply DispKeeps.jump | apply waitS_keeps
      | apply State.park_keeps | apply State.placeGate_keeps | apply Keeps.ite | apply DispKeeps.ite | dsimp only
      | split)

theorem execFull_keeps {s0 s : State} {h2 : Issue} {rd ra : BitVec 5} {gate : BitVec 8} (h : Keeps s0 s) :
    OutKeeps s0 (execFull h2 rd ra gate s) := by
  unfold execFull
  try dsimp only
  with_reducible repeat'
    (first
      | intro _ | assumption | apply OutKeeps.next | exact DispKeeps.stall | exact DispKeeps.fault
      | apply DispKeeps.failed | apply DispKeeps.done | apply DispKeeps.marked | apply DispKeeps.jump
      | apply DispKeeps.ite | apply issueIf_keeps | apply valid_keeps | apply waitOp_keeps)

theorem execTake_keeps {s0 s : State} {h2 : Issue} {rd ra : BitVec 5} {gate : BitVec 8} (h : Keeps s0 s) :
    OutKeeps s0 (execTake h2 rd ra gate s) := by
  unfold execTake
  try dsimp only
  with_reducible repeat'
    (first
      | intro _ | assumption | apply OutKeeps.next | exact DispKeeps.stall | exact DispKeeps.fault
      | apply DispKeeps.failed | apply DispKeeps.done | apply DispKeeps.marked | apply DispKeeps.jump
      | apply DispKeeps.ite | apply issueIf_keeps | apply valid_keeps | apply waitOp_keeps)

theorem execEmpty_keeps {s0 s : State} {h2 : Issue} {rd ra : BitVec 5} {gate : BitVec 8} (h : Keeps s0 s) :
    OutKeeps s0 (execEmpty h2 rd ra gate s) := by
  unfold execEmpty
  try dsimp only
  with_reducible repeat'
    (first
      | intro _ | assumption | apply OutKeeps.next | exact DispKeeps.stall | exact DispKeeps.fault
      | apply DispKeeps.failed | apply DispKeeps.done | apply DispKeeps.marked | apply DispKeeps.jump
      | apply DispKeeps.ite | apply issueIf_keeps | apply valid_keeps | apply waitOp_keeps)

theorem execGe_keeps {s0 s : State} {h2 : Issue} {rd ra rb : BitVec 5} {gate : BitVec 8} (h : Keeps s0 s) :
    OutKeeps s0 (execGe h2 rd ra rb gate s) := by
  unfold execGe
  try dsimp only
  with_reducible repeat'
    (first
      | intro _ | assumption | apply OutKeeps.next | exact DispKeeps.stall | exact DispKeeps.fault
      | apply DispKeeps.failed | apply DispKeeps.done | apply DispKeeps.marked | apply DispKeeps.jump
      | apply DispKeeps.ite | apply issueIf_keeps | apply valid_keeps | apply waitOp_keeps)

theorem State.waitTry_keeps {s0 s : State} {b : Bid} {g : Nat} (h : Keeps s0 s) :
    Keeps s0 (State.waitTry s b g) := by
  unfold State.waitTry
  try dsimp only
  with_reducible repeat'
    (first
      | intro _ | assumption | apply State.poisonRead_keeps | apply State.decodeWord_keeps | apply State.slotCount_keeps
      | apply State.drawWord_keeps | apply State.setMark_keeps | apply State.openGate_keeps | apply Keeps.onFm
      | apply Keeps.ite | exact BenchKeeps.same rfl | apply BenchKeeps.fm | exact FmKeeps.same rfl rfl rfl rfl rfl
      | exact Foreman.setS_sound | exact Foreman.setP_sound | exact Foreman.setT_sound
      | refine FmKeeps.trans ?_ Foreman.setS_sound | refine FmKeeps.trans ?_ Foreman.setT_sound
      | exact FmKeeps.fewer rfl rfl (by simp) (by simp) (by simp) | dsimp only | split)

theorem execWaitGatesOpen_keeps {s0 : State} {b : Bid} {g : Nat} {s : State} (h : Keeps s0 s) :
    OutKeeps s0 (execWaitGatesOpen b g s) := by
  unfold execWaitGatesOpen
  try dsimp only
  with_reducible repeat' (first | intro _ | assumption | apply OutKeeps.next | apply State.waitTry_keeps)

theorem execSyncBar_keeps {s0 : State} {h0 : Issue} {fabric : Bool} {bid : Fin 16} {gate : BitVec 8} {s : State}
    (h : Keeps s0 s) : OutKeeps s0 (execSyncBar h0 fabric bid gate s) := by
  refine issue_keeps (fun c s h => ?_) h
  dsimp only
  split
  · trivial
  · split
    · trivial
    · rename_i h8
      simp only [Bool.or_eq_true, decide_eq_true_eq, not_or] at h8
      refine DispKeeps.done ?_
      split
      · exact State.pushSig_keeps h (by omega)
      · refine State.pushSig_keeps (State.placeGate_keeps h) ?_
        have : ∀ k r, ((s.placeGate c k gate r).fm c.b).sigs = (s.fm c.b).sigs := by
          intro k r
          unfold State.placeGate
          dsimp only
          rw [State.fm, State.onBench_bench, if_pos rfl]; rfl
        rw [this]; omega

theorem State.barRelease_keeps {s0 s : State} {p : Part} {bid : Fin 16} {n : BitVec 16} (h : Keeps s0 s) :
    Keeps s0 (State.barRelease s p bid n) := by
  unfold State.barRelease
  try dsimp only
  with_reducible repeat'
    (first
      | intro _ | assumption | apply State.setRf_keeps | apply State.onBar_keeps | apply State.openGates_keeps
      | apply Keeps.ite | dsimp only | split | apply Keeps.foldl)

theorem State.sendBar_keeps {s0 s : State} {p : Part} {port : PortNo} {op : Nat} {bid : Fin 16} {n : BitVec 16}
    (h : Keeps s0 s) :
    Keeps s0 (State.sendBar s p port op bid n) := by
  unfold State.sendBar
  try dsimp only
  with_reducible repeat' (first | intro _ | assumption | apply State.sendPort_keeps)

theorem State.barDown_keeps {s0 s : State} {p : Part} {bid : Fin 16} {n : BitVec 16} (h : Keeps s0 s) :
    Keeps s0 (State.barDown s p bid n) := by
  unfold State.barDown
  try dsimp only
  with_reducible repeat'
    (first
      | intro _ | assumption | apply State.sendBar_keeps | apply Keeps.ite | dsimp only | split | apply Keeps.foldl)

theorem State.barAdvance_keeps {s0 s : State} {p : Part} {bid : Fin 16} (h : Keeps s0 s) :
    Keeps s0 (State.barAdvance s p bid) := by
  unfold State.barAdvance
  try dsimp only
  with_reducible repeat'
    (first
      | intro _ | assumption | apply State.barRelease_keeps | apply State.barDown_keeps | apply State.onBar_keeps
      | apply State.sendBar_keeps | apply Keeps.ite)

theorem execBarrierArrival_keeps {s0 : State} {p : Part} {bid : Fin 16} {s : State} (h : Keeps s0 s) :
    OutKeeps s0 (execBarrierArrival p bid s) := by
  unfold execBarrierArrival
  try dsimp only
  with_reducible repeat'
    (first
      | intro _ | assumption | apply State.byCore_keeps | apply OutKeeps.next | apply State.barAdvance_keeps
      | apply State.onBar_keeps | apply Keeps.ite | apply OutKeeps.ite | dsimp only | split)

theorem execBarrierTimeout_keeps {s0 : State} {p : Part} {bid : Fin 16} {s : State} (h : Keeps s0 s) :
    OutKeeps s0 (execBarrierTimeout p bid s) := by
  unfold execBarrierTimeout
  try dsimp only
  with_reducible repeat'
    (first
      | intro _ | assumption | apply State.byCore_keeps | apply OutKeeps.next | apply State.fault_keeps | apply Keeps.ite
      | apply OutKeeps.ite | dsimp only | split | apply Keeps.foldl)

theorem execArrive_keeps {s0 : State} {p : Part} {s : State} (h : Keeps s0 s) :
    OutKeeps s0 (execArrive p s) := by
  unfold execArrive
  try dsimp only
  with_reducible repeat'
    (first
      | intro _ | assumption | apply State.byCore_keeps | apply OutKeeps.next | apply State.takePacket_keeps
      | apply State.barAdvance_keeps | apply State.onBar_keeps | apply Keeps.ite | apply OutKeeps.ite | dsimp only | split
      | apply Keeps.foldl | refine OptSndKeeps.get (by assumption) ?_)

theorem execBarrierTreeRelease_keeps {s0 s : State} {p : Part} (h : Keeps s0 s) :
    OutKeeps s0 (execBarrierTreeRelease p s) := by
  unfold execBarrierTreeRelease
  try dsimp only
  with_reducible repeat'
    (first
      | intro _ | assumption | apply State.byCore_keeps | apply OutKeeps.next | apply State.barAdvance_keeps
      | apply State.barDown_keeps | apply State.barRelease_keeps | apply State.takePacket_keeps | dsimp only | split
      | refine OptSndKeeps.get (by assumption) ?_)

theorem State.emptyHistory_keeps {s0 s : State} {p : Part} (h : Keeps s0 s) : Keeps s0 (State.emptyHistory s p) := by
  unfold State.emptyHistory
  try dsimp only
  with_reducible repeat'
    (first
      | intro _ | assumption | apply State.onCtl_keeps | apply State.setRf_keeps | apply Keeps.ite | dsimp only
      | split | apply Keeps.foldl)

theorem State.cross_keeps {s0 s : State} {b : Bid} {k : Nat} {v : Word} {done : State} (h : Keeps s0 s)
    (hd : Keeps s0 done) : Keeps s0 (s.cross b k v done) := by
  unfold State.cross
  exact Keeps.ite (fun _ => h.onBench fun _ => BenchKeeps.same rfl) fun _ => hd

theorem State.fmCommand_keeps {s0 s : State} {b : Bid} {fl : Fld} {done : State} (h : Keeps s0 s)
    (hd : Keeps s0 done) : Keeps s0 (s.fmCommand b fl done) := State.cross_keeps h hd

theorem State.fmStart_keeps {s0 s : State} {b : Bid} (h : Keeps s0 s) : Keeps s0 (State.fmStart s b) := by
  unfold State.fmStart
  try dsimp only
  with_reducible repeat'
    (first
      | intro _ | assumption | apply State.emptyHistory_keeps | apply State.leaveIdle_keeps | apply Keeps.onBench
      | apply Keeps.onFm | exact BenchKeeps.same rfl | apply BenchKeeps.fm | exact FmKeeps.same rfl rfl rfl rfl rfl
      | apply Keeps.ite | dsimp only | split)

theorem State.fmStop_keeps {s0 s : State} {b : Bid} (h : Keeps s0 s) :
    Keeps s0 (State.fmStop s b) := by
  unfold State.fmStop
  try dsimp only
  with_reducible repeat'
    (first
      | intro _ | assumption | apply Keeps.onFm | apply Keeps.ite | exact BenchKeeps.same rfl | apply BenchKeeps.fm
      | exact FmKeeps.same rfl rfl rfl rfl rfl)

theorem State.fmClear_keeps {s0 s : State} {b : Bid} (h : Keeps s0 s) : Keeps s0 (State.fmClear s b) := by
  unfold State.fmClear
  try dsimp only
  with_reducible repeat'
    (first
      | intro _ | assumption | exact DispKeeps.stall | exact DispKeeps.fault | apply DispKeeps.failed
      | apply DispKeeps.done | apply DispKeeps.marked | apply DispKeeps.jump | apply DispKeeps.ite
      | apply State.completed_keeps | apply State.flushDeposits_keeps | apply Keeps.onBench | apply Keeps.onFm
      | exact BenchKeeps.same rfl | apply BenchKeeps.fm | exact FmKeeps.same rfl rfl rfl rfl rfl
      | exact FmKeeps.fewer rfl rfl (by simp) (by simp) (by simp) | apply Keeps.ite | dsimp only | split
      | apply Keeps.foldl)

theorem execStart_keeps {s0 : State} {b : Bid} {s : State} (h : Keeps s0 s) :
    OutKeeps s0 (execStart b s) := by
  unfold execStart
  try dsimp only
  with_reducible repeat' (first | assumption | apply OutKeeps.next | apply State.fmCommand_keeps | apply State.fmStart_keeps)

theorem execStop_keeps {s0 : State} {b : Bid} {s : State} (h : Keeps s0 s) :
    OutKeeps s0 (execStop b s) := by
  unfold execStop
  try dsimp only
  with_reducible repeat' (first | assumption | apply OutKeeps.next | apply State.fmCommand_keeps | apply State.fmStop_keeps)

theorem execFmClear_keeps {s0 : State} {b : Bid} {s : State} (h : Keeps s0 s) :
    OutKeeps s0 (execFmClear b s) := by
  unfold execFmClear
  try dsimp only
  with_reducible repeat' (first | assumption | apply OutKeeps.next | apply State.fmCommand_keeps | apply State.fmClear_keeps)

theorem execFmClearDone_keeps {s0 : State} {b : Bid} {s : State} (h : Keeps s0 s) :
    OutKeeps s0 (execFmClearDone b s) := by
  unfold execFmClearDone
  try dsimp only
  with_reducible repeat'
    (first
      | intro _ | assumption | apply OutKeeps.next | apply Keeps.onBench | apply State.barsRest_keeps
      | apply State.setRb_keeps | apply State.setReg_keeps | apply Keeps.ite | apply OutKeeps.ite
      | exact BenchKeeps.same rfl | apply BenchKeeps.fm | exact FmKeeps.same rfl rfl rfl rfl rfl
      | exact Foreman.setS_sound | exact Foreman.setP_sound | exact Foreman.setT_sound
      | refine FmKeeps.trans ?_ Foreman.setS_sound | refine FmKeeps.trans ?_ Foreman.setT_sound
      | exact FmKeeps.fewer rfl rfl (by simp) (by simp) (by simp))

theorem State.writeFmCtl_keeps {s0 s : State} {b : Bid} {v : Word} (h : Keeps s0 s) :
    Keeps s0 (State.writeFmCtl s b v) := by
  unfold State.writeFmCtl
  try dsimp only
  with_reducible repeat'
    (first
      | intro _ | assumption | apply State.writeReg_keeps | apply State.fmClear_keeps | apply State.fmStop_keeps
      | apply State.fmStart_keeps | apply Keeps.ite)

theorem State.writeImem_keeps {s0 s : State} {b : Bid} {w : Nat} {v : Word} (h : Keeps s0 s) :
    Keeps s0 (State.writeImem s b w v) := by
  unfold State.writeImem
  try dsimp only
  with_reducible repeat'
    (first
      | intro _ | assumption | apply State.setReg_keeps | apply State.setRb_keeps | apply Keeps.ite)

theorem execImemWrite_keeps {s0 : State} {b : Bid} {w : BitVec 15} {v : Word} {s : State} (h : Keeps s0 s) :
    OutKeeps s0 (execImemWrite b w v s) := by
  unfold execImemWrite
  try dsimp only
  with_reducible repeat' (first | intro _ | assumption | apply State.cross_keeps | apply OutKeeps.next | apply State.writeImem_keeps)

theorem State.crossed_keeps {s0 s : State} {b : Bid} (h : Keeps s0 s) : Keeps s0 (State.crossed s b) := by
  unfold State.crossed
  try dsimp only
  with_reducible repeat'
    (first
      | intro _ | assumption | apply State.writeFmCtl_keeps | apply State.writeImem_keeps | apply State.writeReg_keeps
      | apply Keeps.onBench | apply Keeps.onFm | exact BenchKeeps.same rfl | apply BenchKeeps.fm
      | exact FmKeeps.same rfl rfl rfl rfl rfl | apply Keeps.ite | dsimp only | split | apply Keeps.foldl)

theorem State.progGo_keeps {s0 s : State} {p : Part} (h : Keeps s0 s) :
    Keeps s0 (State.progGo s p) := by
  unfold State.progGo
  try dsimp only
  with_reducible repeat'
    (first
      | intro _ | assumption | apply State.setRb_keeps | apply Keeps.ite | dsimp only | split | apply Keeps.foldl
      | fail_if_no_progress apply Keeps.lit)

theorem execGo_keeps {s0 : State} {p : Part} {s : State} (h : Keeps s0 s) :
    OutKeeps s0 (execGo p s) := by
  unfold execGo
  try dsimp only
  with_reducible repeat' (first | intro _ | assumption | apply OutKeeps.next | apply State.progGo_keeps)

theorem State.writeProgLoad_keeps {s0 s : State} {p : Part} {v : Word} (h : Keeps s0 s) :
    Keeps s0 (State.writeProgLoad s p v) := by
  unfold State.writeProgLoad
  try dsimp only
  with_reducible repeat'
    (first
      | intro _ | assumption | apply State.writeReg_keeps | apply State.progGo_keeps | apply Keeps.ite)

theorem State.loadWord_keeps {s0 s : State} {a : Nat} (h : Keeps s0 s) :
    Keeps s0 (State.loadWord s a).2 := by
  unfold State.loadWord
  try dsimp only
  with_reducible repeat'
    (first
      | intro _ | assumption | apply State.poisonRead_keeps | apply State.decodeWord_keeps | apply State.drawWord_keeps
      | apply Keeps.ite | dsimp only | split)

theorem State.loadWords_keeps {s0 s : State} {bs : List Bid} {src n : Nat} (h : Keeps s0 s) :
    Keeps s0 (s.loadWords bs src n) := by
  induction n with
  | zero => exact h
  | succ n ih => exact Keeps.foldl (State.loadWord_keeps ih) fun _ _ h => State.setReg_keeps h

theorem execProgLoadDone_keeps {s0 s : State} {p : Part} (h : Keeps s0 s) : OutKeeps s0 (execProgLoadDone p s) := by
  unfold execProgLoadDone
  try dsimp only
  with_reducible repeat'
    (first
      | intro _ | assumption | apply OutKeeps.next | apply State.charge_keeps | apply State.loadWords_keeps
      | apply State.refuseAt_keeps | apply State.setRb_keeps | apply Keeps.ite | apply OutKeeps.ite | dsimp only
      | split | apply Keeps.foldl | fail_if_no_progress apply Keeps.lit)

theorem execProgramFault_keeps {s0 : State} {b : Bid} {code : Nat} {q : Fin 8} {unit : Nat} {pc : BitVec 15}
    {mark : BitVec 32} {s : State} (h : Keeps s0 s) :
    OutKeeps s0 (execProgramFault b code q unit pc mark s) := by
  unfold execProgramFault
  try dsimp only
  with_reducible repeat'
    (first
      | intro _ | assumption | apply OutKeeps.next | apply State.faultCode_keeps | apply Keeps.ite
      | apply OutKeeps.ite)

end Sys2Proof.Machine
end

