-- ==== Sys2Proof/Laws/KeepsHostQueue.lean ====
section
/-! SUPPORT. The operations of Machine.HostQueue keep the queue of commands and the invariant. -/

namespace Sys2Proof.Machine

theorem State.hqStat_keeps {s0 s : State} {p : Part} {f : Fld} (h : Keeps s0 s) :
    Keeps s0 (State.hqStat s p f) := by
  unfold State.hqStat
  try dsimp only
  with_reducible repeat' (first | intro _ | assumption | apply State.raise_keeps | apply State.setRb_keeps)

theorem State.writeHqSq_keeps {s0 s : State} {q : Nat} {v : Word} (h : Keeps s0 s) :
    Keeps s0 (State.writeHqSq s q v) := by
  unfold State.writeHqSq
  try dsimp only
  with_reducible repeat'
    (first
      | intro _ | assumption | apply State.setRf_keeps | apply State.writeReg_keeps | apply Keeps.ite)

theorem State.writeHqCq_keeps {s0 s : State} {q : Nat} {v : Word} (h : Keeps s0 s) :
    Keeps s0 (State.writeHqCq s q v) := by
  unfold State.writeHqCq
  try dsimp only
  with_reducible repeat' (first | intro _ | assumption | apply State.writeReg_keeps | apply Keeps.ite)

theorem State.writeHqCtl_keeps {s0 s : State} {q : Nat} {inst : Bool} {v : Word} (h : Keeps s0 s) :
    Keeps s0 (State.writeHqCtl s q inst v) := by
  unfold State.writeHqCtl
  try dsimp only
  with_reducible repeat'
    (first
      | intro _ | assumption | apply State.writeReg_keeps | apply State.setHq_keeps | apply State.setReg_keeps
      | apply State.hqStat_keeps | apply Keeps.ite | dsimp only | split | apply Keeps.foldl)

theorem execQueueEnableWrite_keeps {s0 : State} {q : BitVec 8} {v : Word} {s : State} (h : Keeps s0 s) :
    OutKeeps s0 (execQueueEnableWrite q v s) := by
  unfold execQueueEnableWrite
  try dsimp only
  with_reducible repeat' (first | intro _ | assumption | apply OutKeeps.next | apply State.writeHqCtl_keeps)

theorem State.setQp_keeps {s0 s : State} {q : Nat} {f : Fld} {v : Nat} (h : Keeps s0 s) :
    Keeps s0 (State.setQp s q f v) := by
  unfold State.setQp
  try dsimp only
  with_reducible repeat' (first | intro _ | assumption | apply State.setRf_keeps)

theorem State.qVector_keeps {s0 s : State} {q : Nat} (h : Keeps s0 s) :
    Keeps s0 (State.qVector s q) := by
  unfold State.qVector
  try dsimp only
  with_reducible repeat'
    (first
      | intro _ | assumption | apply State.setHq_keeps | apply State.raise_keeps | apply Keeps.ite | dsimp only
      | split)

theorem State.qError_keeps {s0 s : State} {q : Nat} (h : Keeps s0 s) :
    Keeps s0 (State.qError s q) := by
  unfold State.qError
  try dsimp only
  with_reducible repeat' (first | intro _ | assumption | apply State.setRb_keeps)

theorem State.postEntry_keeps {s0 s : State} {q : Nat} {w0 w1 : Word} (h : Keeps s0 s) :
    Keeps s0 (State.postEntry s q w0 w1) := by
  unfold State.postEntry
  try dsimp only
  with_reducible repeat'
    (first
      | intro _ | assumption | apply State.hostPut_keeps | apply State.qError_keeps | apply State.qVector_keeps
      | apply State.setHq_keeps | apply State.setQp_keeps | apply Keeps.ite | dsimp only | split)

theorem State.post_keeps {s0 s : State} {q : Nat} {w0 : Word} {w1 : Word} (h : Keeps s0 s) :
    Keeps s0 (State.post s q w0 w1) := by
  unfold State.post
  try dsimp only
  with_reducible repeat'
    (first
      | intro _ | assumption | apply State.postEntry_keeps | apply State.setHq_keeps | apply Keeps.ite)

theorem State.postHeld_keeps {s0 s : State} {q : Nat} (h : Keeps s0 s) :
    Keeps s0 (State.postHeld s q) := by
  unfold State.postHeld
  try dsimp only
  with_reducible repeat'
    (first
      | intro _ | assumption | apply State.postEntry_keeps | apply State.setHq_keeps | apply Keeps.ite | dsimp only
      | split | apply Keeps.foldl)

theorem execCompletionCoalesceTimer_keeps {s0 : State} {q : BitVec 8} {s : State} (h : Keeps s0 s) :
    OutKeeps s0 (execCompletionCoalesceTimer q s) := by
  unfold execCompletionCoalesceTimer
  try dsimp only
  with_reducible repeat'
    (first
      | intro _ | assumption | apply OutKeeps.next | apply State.qVector_keeps | apply Keeps.ite)

theorem State.bellDropped_keeps {s0 s : State} {p : Part} (h : Keeps s0 s) :
    Keeps s0 (State.bellDropped s p) := by
  unfold State.bellDropped
  try dsimp only
  with_reducible repeat' (first | intro _ | assumption | apply State.count_keeps)

theorem State.sqTail_keeps {s0 s : State} {p : Part} {q : Nat} {v : Nat} (h : Keeps s0 s) :
    Keeps s0 (State.sqTail s p q v) := by
  unfold State.sqTail
  try dsimp only
  with_reducible repeat'
    (first
      | intro _ | assumption | apply State.bellDropped_keeps | apply State.countP_keeps | apply State.qError_keeps
      | apply State.setQp_keeps | apply Keeps.ite)

theorem State.cqHead_keeps {s0 s : State} {p : Part} {q : Nat} {v : Nat} (h : Keeps s0 s) :
    Keeps s0 (State.cqHead s p q v) := by
  unfold State.cqHead
  try dsimp only
  with_reducible repeat'
    (first
      | intro _ | assumption | apply State.bellDropped_keeps | apply State.countP_keeps | apply State.qError_keeps
      | apply State.postHeld_keeps | apply State.setQp_keeps | apply Keeps.ite)

theorem State.bell_keeps {s0 s : State} {p : Part} {v : BitVec 32} {f : Nat → State} (hf : ∀ n, Keeps s0 (f n))
    (h : Keeps s0 s) : Keeps s0 (State.bell s p v f) := by
  unfold State.bell
  exact Keeps.ite (fun _ => hf _) fun _ => h

theorem execSqTail_keeps {s0 s : State} {p : Part} {q : BitVec 8} {v : BitVec 32} (h : Keeps s0 s) :
    OutKeeps s0 (execSqTail p q v s) := by
  unfold execSqTail
  try dsimp only
  with_reducible repeat'
    (first
      | intro _ | assumption | apply OutKeeps.next | apply State.bell_keeps | apply State.sqTail_keeps)

theorem execCqHead_keeps {s0 s : State} {p : Part} {q : BitVec 8} {v : BitVec 32} (h : Keeps s0 s) :
    OutKeeps s0 (execCqHead p q v s) := by
  unfold execCqHead
  try dsimp only
  with_reducible repeat'
    (first
      | intro _ | assumption | apply OutKeeps.next | apply State.bell_keeps | apply State.cqHead_keeps)

theorem State.setCmd_keeps {s0 s : State} {q : Nat} {i : Nat} {c : QCmd} (h : Keeps s0 s) :
    Keeps s0 (State.setCmd s q i c) := by
  unfold State.setCmd
  try dsimp only
  with_reducible repeat' (first | intro _ | assumption | apply State.setHq_keeps)

theorem State.endCmd_keeps {s0 s : State} {q : Nat} {i : Nat} {status : Nat} (h : Keeps s0 s) :
    Keeps s0 (State.endCmd s q i status) := by
  unfold State.endCmd
  try dsimp only
  with_reducible repeat'
    (first
      | intro _ | assumption | apply State.setCmd_keeps | apply Keeps.ite | dsimp only | split)

theorem State.takeCmd_inl {s0 s t : State} {q i : Nat} {want : Nat → Bool} {p : Part} {c : QCmd} (h : Keeps s0 s)
    (e : s.takeCmd q i want = .inl (some (p, c, t))) : Keeps s0 t := by
  unfold State.takeCmd at e
  repeat' (first | contradiction | (cases e; with_reducible repeat' (first | assumption | apply State.setCmd_keeps)) | split at e)

theorem State.takeCmd_inr {s0 s t : State} {q i : Nat} {want : Nat → Bool} (h : Keeps s0 s)
    (e : s.takeCmd q i want = .inr t) : Keeps s0 t := by
  unfold State.takeCmd at e
  repeat' (first | contradiction | (cases e; with_reducible repeat' (first | assumption | apply State.endCmd_keeps)) | split at e)

theorem State.onCmd_keeps {s0 s : State} {q i : Nat} {want : Nat → Bool} {f : Part → QCmd → State → State}
    (hf : ∀ p c s, Keeps s0 s → Keeps s0 (f p c s)) (h : Keeps s0 s) : Keeps s0 (s.onCmd q i want f) := by
  unfold State.onCmd
  split
  · exact hf _ _ _ (State.takeCmd_inl h (by assumption))
  · exact h
  · exact State.takeCmd_inr h (by assumption)

theorem State.fetchEntry_keeps {s0 s : State} {q : Nat} {ans : HostAnswer} (h : Keeps s0 s) :
    Keeps s0 (State.fetchEntry s q ans) := by
  unfold State.fetchEntry
  try dsimp only
  with_reducible repeat'
    (first
      | intro _ | assumption | apply State.countP_keeps | apply State.endCmd_keeps | apply State.leaveIdle_keeps
      | apply State.setHq_keeps | apply State.setQp_keeps | apply Keeps.ite | dsimp only | split)

theorem execQueueEntryFetch_keeps {s0 : State} {q : BitVec 8} {ans : HostAnswer} {s : State} (h : Keeps s0 s) :
    OutKeeps s0 (execQueueEntryFetch q ans s) := by
  unfold execQueueEntryFetch
  try dsimp only
  with_reducible repeat' (first | intro _ | assumption | apply OutKeeps.next | apply State.fetchEntry_keeps)

theorem execQueueNop_keeps {s0 : State} {q : BitVec 8} {s : State} (h : Keeps s0 s) :
    OutKeeps s0 (execQueueNop q s) := by
  unfold execQueueNop
  try dsimp only
  with_reducible repeat'
    (first
      | intro _ | assumption | apply OutKeeps.next | apply State.onCmd_keeps | apply State.endCmd_keeps)

theorem execQueueStart_keeps {s0 s : State} {q : BitVec 8} (h : Keeps s0 s) : OutKeeps s0 (execQueueStart q s) := by
  unfold execQueueStart
  try dsimp only
  with_reducible repeat'
    (first
      | intro _ | assumption | apply State.fmCommand_keeps | apply OutKeeps.next | apply State.fmStart_keeps
      | apply State.onCmd_keeps | apply State.setCmd_keeps | apply Keeps.ite | apply OutKeeps.ite | dsimp only | split
      | apply Keeps.foldl)

theorem State.hubRefuse_keeps {s0 s : State} {p : Part} {ucls : Nat} {index : Nat} {a : Nat} (h : Keeps s0 s) :
    Keeps s0 (State.hubRefuse s p ucls index a) := by
  unfold State.hubRefuse
  try dsimp only
  with_reducible repeat' (first | intro _ | assumption | apply State.emit_keeps | apply State.unmapped_keeps)

theorem State.hubRead_keeps {s0 s : State} {p : Part} {ucls : Nat} {index : Nat} {wn : Nat} {fe : BitVec 2}
    (h : Keeps s0 s) :
    PerfKeeps s0 (State.hubRead s p ucls index wn fe) := by
  unfold State.hubRead
  try dsimp only
  with_reducible repeat'
    (first
      | intro _ | assumption | apply PerfKeeps.ok | apply PerfKeeps.wait | apply PerfKeeps.refused
      | apply State.hubRefuse_keeps | apply State.readWord_keeps | apply State.emit_keeps | apply State.memStat_keeps
      | apply Keeps.ite | dsimp only | split | apply Keeps.foldl | refine AccKeeps.get (by assumption) ?_)

theorem State.hubWrite_keeps {s0 s : State} {p : Part} {ucls index : Nat} {r : WrReq} (h : Keeps s0 s) :
    PerfKeeps s0 (State.hubWrite s p ucls index r) := by
  unfold State.hubWrite
  try dsimp only
  with_reducible repeat'
    (first
      | intro _ | assumption | apply PerfKeeps.ok | apply PerfKeeps.wait | apply PerfKeeps.refused
      | apply State.hubPut_keeps | apply State.hubRefuse_keeps | apply Keeps.ite | dsimp only | split
      | refine AccKeeps.get (by assumption) ?_)

theorem State.chargeCopy_keeps {s0 s : State} {q i : Nat} {p : Part} {read : Bool} {from_ : Nat} (h : Keeps s0 s) :
    Keeps s0 (State.chargeCopy s q i p read from_) := by
  unfold State.chargeCopy
  try dsimp only
  with_reducible repeat' (first | intro _ | assumption | apply State.charge_keeps | dsimp only | split)

theorem State.copyWords_keeps {s0 s : State} {q i : Nat} {p : Part} {c : QCmd} {l : List Byte} {n : Nat}
    (h : Keeps s0 s) :
    Keeps s0 (s.copyWords q i p c l n) := by
  induction n generalizing s c l with
  | zero => exact h
  | succ n ih =>
    unfold State.copyWords
    dsimp only
    have hw {r : WrReq} : PerfKeeps s0 (s.hubWrite p ucHubCore (queueCore p) r) := State.hubWrite_keeps h
    split
    · exact ih (State.setCmd_keeps (PerfKeeps.getOk (by assumption) hw))
    · exact PerfKeeps.getWait (by assumption) hw
    · exact State.endCmd_keeps (PerfKeeps.getRefused (by assumption) hw)

theorem execCopyIn_keeps {s0 s : State} {q : BitVec 8} {i : Nat} {ans : HostAnswer} (h : Keeps s0 s) :
    OutKeeps s0 (execCopyIn q i ans s) := by
  unfold execCopyIn
  try dsimp only
  with_reducible repeat'
    (first
      | intro _ | assumption | apply OutKeeps.next | apply State.chargeCopy_keeps | apply State.copyWords_keeps
      | apply State.endCmd_keeps | apply State.onCmd_keeps | apply Keeps.ite | apply OutKeeps.ite | dsimp only | split)

theorem State.parkCmd_keeps {s0 s : State} {q : Nat} {i : Nat} {wn : Nat} {c : QCmd} (h : Keeps s0 s) :
    Keeps s0 (State.parkCmd s q i wn c) := by
  unfold State.parkCmd
  try dsimp only
  with_reducible repeat' (first | intro _ | assumption | apply State.park_keeps | apply State.setCmd_keeps)

theorem State.copyRead_keeps {s0 s : State} {q i : Nat} {p : Part} {c : QCmd} {n : Nat} (h : Keeps s0 s) :
    Keeps s0 (s.copyRead q i p c n).2 := by
  induction n generalizing s c with
  | zero => exact h
  | succ n ih =>
    unfold State.copyRead
    dsimp only
    have hr {a : Nat} {m : BitVec 2} : PerfKeeps s0 (s.hubRead p ucHubCore (queueCore p) a m) := State.hubRead_keeps h
    split
    · exact ih (State.setCmd_keeps (PerfKeeps.getOk (by assumption) hr))
    · exact State.parkCmd_keeps (PerfKeeps.getWait (by assumption) hr)
    · exact State.endCmd_keeps (PerfKeeps.getRefused (by assumption) hr)

theorem State.copyBack_keeps {s0 s : State} {q i : Nat} {p : Part} {c : QCmd} {n : Nat} (h : Keeps s0 s) :
    Keeps s0 (s.copyBack q i p c n) := State.chargeCopy_keeps (State.hostWrite_keeps (State.copyRead_keeps h))

theorem execCopyOut_keeps {s0 : State} {q : BitVec 8} {i : Nat} {s : State} (h : Keeps s0 s) :
    OutKeeps s0 (execCopyOut q i s) := by
  unfold execCopyOut
  try dsimp only
  with_reducible repeat'
    (first
      | intro _ | assumption | apply OutKeeps.next | apply State.onCmd_keeps | apply State.copyBack_keeps
      | apply State.setCmd_keeps | apply Keeps.ite | apply OutKeeps.ite | dsimp only | split)

theorem execSignal_keeps {s0 : State} {q : BitVec 8} {s : State} (h : Keeps s0 s) :
    OutKeeps s0 (execSignal q s) := by
  unfold execSignal
  try dsimp only
  with_reducible repeat'
    (first
      | intro _ | assumption | apply OutKeeps.next | apply State.onCmd_keeps | apply State.endCmd_keeps
      | apply State.signalWord_keeps | apply State.hubRefuse_keeps | apply Keeps.ite)

theorem State.endWait_keeps {s0 s : State} {q i : Nat} {c : QCmd} {status : Nat} (h : Keeps s0 s) :
    Keeps s0 (State.endWait s q i c status) := by
  unfold State.endWait
  try dsimp only
  with_reducible repeat'
    (first
      | intro _ | assumption | apply State.drawWord_keeps | apply State.endCmd_keeps | apply State.setCmd_keeps
      | apply Keeps.ite | dsimp only | split)

theorem execWait_keeps {s0 s : State} {q : BitVec 8} (h : Keeps s0 s) : OutKeeps s0 (execWait q s) := by
  unfold execWait
  try dsimp only
  with_reducible repeat'
    (first
      | intro _ | assumption | apply State.parkCmd_keeps | apply OutKeeps.next | apply State.endCmd_keeps
      | apply State.endWait_keeps | apply State.hubRefuse_keeps | apply State.onCmd_keeps | apply Keeps.ite)

theorem execQueueWaitTimeout_keeps {s0 s : State} {q : BitVec 8} (h : Keeps s0 s) :
    OutKeeps s0 (execQueueWaitTimeout q s) := by
  unfold execQueueWaitTimeout
  try dsimp only
  with_reducible repeat'
    (first
      | intro _ | assumption | apply OutKeeps.next | apply State.endWait_keeps | apply Keeps.ite | apply OutKeeps.ite
      | dsimp only | split)

theorem execHostReadCompletionTimeout_keeps {s0 : State} {q : BitVec 8} {s : State} (h : Keeps s0 s) :
    OutKeeps s0 (execHostReadCompletionTimeout q s) := by
  unfold execHostReadCompletionTimeout
  try dsimp only
  with_reducible repeat'
    (first
      | intro _ | assumption | apply OutKeeps.next | apply State.endCmd_keeps | apply State.fetchEntry_keeps
      | apply Keeps.ite | apply OutKeeps.ite | dsimp only | split)

theorem State.finishCmd_keeps {s0 s : State} {q : Nat} {i : Nat} {c : QCmd} {ans : HostAnswer} (h : Keeps s0 s) :
    Keeps s0 (State.finishCmd s q i c ans) := by
  unfold State.finishCmd
  try dsimp only
  with_reducible repeat'
    (first
      | intro _ | assumption | apply State.endCmd_keeps | apply State.setCmd_keeps | apply Keeps.ite | dsimp only
      | split)

theorem State.postCmd_keeps {s0 s : State} {q : Nat} {i : Nat} (h : Keeps s0 s) :
    Keeps s0 (State.postCmd s q i) := by
  unfold State.postCmd
  try dsimp only
  with_reducible repeat'
    (first
      | intro _ | assumption | apply State.setHq_keeps | apply State.countP_keeps | apply State.post_keeps
      | apply State.qError_keeps | apply Keeps.ite | dsimp only | split)

theorem execQueueCommandComplete_keeps {s0 : State} {q : BitVec 8} {i : Nat} {ans : HostAnswer} {s : State}
    (h : Keeps s0 s) :
    OutKeeps s0 (execQueueCommandComplete q i ans s) := by
  unfold execQueueCommandComplete
  try dsimp only
  with_reducible repeat'
    (first
      | intro _ | assumption | apply OutKeeps.next | apply State.postCmd_keeps | apply State.finishCmd_keeps
      | apply Keeps.ite | apply OutKeeps.ite | dsimp only | split)

theorem State.abortQueue_keeps {s0 s : State} {p : Part} {q : Nat} (h : Keeps s0 s) :
    Keeps s0 (State.abortQueue s p q) := by
  unfold State.abortQueue
  try dsimp only
  with_reducible repeat'
    (first
      | intro _ | assumption | apply State.setHq_keeps | apply State.post_keeps | apply State.setRb_keeps
      | apply Keeps.ite | dsimp only | split | apply Keeps.foldl)

theorem State.abortQueues_keeps {s0 s : State} {p : Part} (h : Keeps s0 s) :
    Keeps s0 (State.abortQueues s p) := by
  unfold State.abortQueues
  try dsimp only
  with_reducible repeat'
    (first
      | intro _ | assumption | apply State.abortQueue_keeps | apply State.hqStat_keeps | apply Keeps.ite | dsimp only
      | split | apply Keeps.foldl | fail_if_no_progress apply Keeps.lit)

theorem State.startAbort_keeps {s0 s : State} {p : Part} (h : Keeps s0 s) :
    Keeps s0 (State.startAbort s p) := by
  unfold State.startAbort
  try dsimp only
  with_reducible repeat'
    (first
      | intro _ | assumption | apply Keeps.ite | dsimp only | split | apply Keeps.foldl
      | fail_if_no_progress apply Keeps.lit)

theorem execQueueAbort_keeps {s0 : State} {p : Part} {s : State} (h : Keeps s0 s) :
    OutKeeps s0 (execQueueAbort p s) := by
  unfold execQueueAbort
  try dsimp only
  with_reducible repeat'
    (first
      | intro _ | assumption | apply OutKeeps.next | apply State.abortQueues_keeps | apply Keeps.ite)

theorem State.dropRoles_keeps {s0 s : State} {p : Part} (h : Keeps s0 s) :
    Keeps s0 (State.dropRoles s p) := by
  unfold State.dropRoles
  try dsimp only
  with_reducible repeat'
    (first
      | intro _ | assumption | apply Keeps.ite | dsimp only | split | apply Keeps.foldl
      | fail_if_no_progress apply Keeps.lit)

theorem State.hostLinkDrop_keeps {s0 s : State} {p : Part} (h : Keeps s0 s) :
    Keeps s0 (State.hostLinkDrop s p) := by
  unfold State.hostLinkDrop
  try dsimp only
  with_reducible repeat'
    (first
      | intro _ | assumption | apply State.dropRoles_keeps | apply State.hqStat_keeps | apply State.setReg_keeps
      | apply State.failRunning_keeps | apply State.startAbort_keeps | apply Keeps.ite | dsimp only | split
      | apply Keeps.foldl)

theorem execHostLinkDown_keeps {s0 : State} {p : Part} {s : State} (h : Keeps s0 s) :
    OutKeeps s0 (execHostLinkDown p s) := by
  unfold execHostLinkDown
  try dsimp only
  with_reducible repeat' (first | intro _ | assumption | apply OutKeeps.next | apply State.hostLinkDrop_keeps)

theorem execHostLinkTrained_keeps {s0 s : State} {p : Part} {rate width : Nat} {flit : Bool} {cfg : PcieCfg}
    (h : Keeps s0 s) :
    OutKeeps s0 (execHostLinkTrained p rate width flit cfg s) := by
  unfold execHostLinkTrained
  try dsimp only
  with_reducible repeat'
    (first
      | intro _ | assumption | apply State.drainDrawn_keeps | apply OutKeeps.next | apply State.drainHeld_keeps
      | apply State.onHport_keeps | apply State.setRb_keeps | apply State.setRf_keeps | apply Keeps.ite | apply OutKeeps.ite)

theorem State.bar2Refuse_keeps {s0 s : State} {p : Part} {off size : Nat} (h : Keeps s0 s) :
    Keeps s0 (State.bar2Refuse s p off size) := by
  unfold State.bar2Refuse
  try dsimp only
  with_reducible repeat'
    (first
      | intro _ | assumption | apply State.emit_keeps | apply State.hqStat_keeps | apply State.refuseAt_keeps
      | apply Keeps.ite | dsimp only | split | apply Keeps.foldl)

theorem State.awaitCopies_keeps {s0 s : State} {ws : List Nat} (h : Keeps s0 s) :
    Keeps s0 (State.awaitCopies s ws) := by
  unfold State.awaitCopies
  try dsimp only
  with_reducible repeat' (first | intro _ | assumption | apply State.onBulk_keeps)

theorem State.bar2Write_keeps {s0 s : State} {p : Part} {a : Nat} {fe : BitVec 2} {bytes : List (Option Byte)}
    {ep : Bool} (h : Keeps s0 s) :
    Keeps s0 (State.bar2Write s p a fe bytes ep) := by
  unfold State.bar2Write
  try dsimp only
  with_reducible repeat'
    (first
      | intro _ | assumption | apply State.awaitCopies_keeps | apply State.charge_keeps | apply State.hubWrite_keeps
      | apply Keeps.ite | dsimp only | split | apply Keeps.foldl | refine PerfKeeps.getOk (by assumption) ?_
      | refine PerfKeeps.getWait (by assumption) ?_ | refine PerfKeeps.getRefused (by assumption) ?_)

theorem State.bar2Read_keeps {s0 s : State} {p : Part} {a size : Nat} (h : Keeps s0 s) :
    Keeps s0 (s.bar2Read p a size) := by
  have hf {α β : Type} (f : α × β × State → Nat → α × β × State)
      (hf : ∀ x i, Keeps s0 x.2.2 → Keeps s0 (f x i).2.2) (l : List Nat) (x : α × β × State) (hx : Keeps s0 x.2.2) :
      Keeps s0 (l.foldl f x).2.2 := by
    induction l generalizing x with
    | nil => exact hx
    | cons i l ih => exact ih _ (hf x i hx)
  unfold State.bar2Read
  refine State.onHport_keeps (State.countP_keeps (hf _ (fun x i hx => ?_) _ _ (State.charge_keeps h)))
  have hr {a : Nat} {m : BitVec 2} : PerfKeeps s0 (x.2.2.hubRead p ucHostPort p.val a m) := State.hubRead_keeps hx
  split
  · exact PerfKeeps.getOk (by assumption) hr
  · exact PerfKeeps.getWait (by assumption) hr
  · exact PerfKeeps.getRefused (by assumption) hr

theorem execBar2Access_keeps {s0 s : State} {p : Part} {off size : Nat} {v : Option (List (Option Byte))}
    {ep : Bool} (h : Keeps s0 s) :
    OutKeeps s0 (execBar2Access p off size v ep s) := by
  unfold execBar2Access
  try dsimp only
  with_reducible repeat'
    (first
      | intro _ | assumption | apply OutKeeps.next | apply State.bar2Read_keeps | apply State.bar2Refuse_keeps
      | apply State.bar2Write_keeps | apply State.countP_keeps | apply State.onHport_keeps | apply Keeps.ite
      | apply OutKeeps.ite | dsimp only | split)

end Sys2Proof.Machine
end

