-- ==== Sys2Proof/Laws/KeepsTrace.lean ====
section
/-! SUPPORT. The operations of Machine.Trace keep the queue of commands and the invariant. -/

namespace Sys2Proof.Machine

theorem State.setStaged_keeps {s0 s : State} {b : Fin 17} {l : List (List Word)} (h : Keeps s0 s) :
    Keeps s0 (State.setStaged s b l) := by
  unfold State.setStaged
  try dsimp only
  with_reducible repeat'
    (first
      | intro _ | assumption | apply State.onMgmt_keeps | apply Keeps.onBench | apply Keeps.ite
      | exact BenchKeeps.same rfl)

theorem State.setTrPhase_keeps {s0 s : State} {b : Fin 17} {v : Bool} (h : Keeps s0 s) :
    Keeps s0 (State.setTrPhase s b v) := by
  unfold State.setTrPhase
  try dsimp only
  with_reducible repeat'
    (first
      | intro _ | assumption | apply State.onMgmt_keeps | apply Keeps.onBench | apply Keeps.ite
      | exact BenchKeeps.same rfl)

theorem State.setTrLost_keeps {s0 s : State} {b : Fin 17} {n : Nat} (h : Keeps s0 s) :
    Keeps s0 (State.setTrLost s b n) := by
  unfold State.setTrLost
  try dsimp only
  with_reducible repeat'
    (first
      | intro _ | assumption | apply State.onMgmt_keeps | apply Keeps.onBench | apply Keeps.ite
      | exact BenchKeeps.same rfl)

theorem State.hubAdd_keeps {s0 s : State} {e : List Word} (h : Keeps s0 s) :
    Keeps s0 (State.hubAdd s e) := by
  unfold State.hubAdd
  try dsimp only
  with_reducible repeat'
    (first
      | intro _ | assumption | apply State.onMgmt_keeps | apply State.setRf_keeps | apply State.setTrLost_keeps
      | apply Keeps.ite)

theorem State.anchorNow_keeps {s0 s : State} {b : Fin 17} (h : Keeps s0 s) :
    Keeps s0 (State.anchorNow s b) := by
  unfold State.anchorNow
  try dsimp only
  with_reducible repeat'
    (first
      | intro _ | assumption | apply State.hubAdd_keeps | apply State.traceAdd_keeps | apply Keeps.ite)

theorem State.anchorStep_keeps {s0 s : State} {b : Bid} (h : Keeps s0 s) : Keeps s0 (State.anchorStep s b) :=
  Keeps.ite (fun _ => State.anchorNow_keeps (State.anchorNow_keeps h)) fun _ => State.anchorNow_keeps h

theorem State.hubCoreTrace_keeps {s0 s : State} {i : Nat} (h : Keeps s0 s) :
    Keeps s0 (State.hubCoreTrace s i) := by
  unfold State.hubCoreTrace
  try dsimp only
  with_reducible repeat'
    (first
      | intro _ | assumption | apply State.drawWord_keeps | apply State.hubAdd_keeps | apply Keeps.ite)

theorem State.hubCores_keeps {s0 s : State} (h : Keeps s0 s) :
    Keeps s0 (State.hubCores s) := by
  unfold State.hubCores
  try dsimp only
  with_reducible repeat'
    (first
      | intro _ | assumption | apply State.hubCoreTrace_keeps | apply Keeps.ite | apply Keeps.foldl)

theorem State.stageTrace_keeps {s0 s : State} {b : Bid} (h : Keeps s0 s) :
    Keeps s0 (State.stageTrace s b) := by
  unfold State.stageTrace
  split
  · exact h
  · refine Keeps.onBench (Keeps.foldl h fun s i h => ?_) fun _ => BenchKeeps.same rfl
    split
    · exact PerfKeeps.getOk (by assumption) (State.store_keeps h)
    · exact PerfKeeps.getWait (by assumption) (State.store_keeps h)
    · exact PerfKeeps.getRefused (by assumption) (State.store_keeps h)

theorem Perf.gotOrFree_keeps {s0 : State} {o : Perf Got} (h : PerfKeeps s0 o) : Keeps s0 o.gotOrFree.2 := by
  cases o with
  | ok g s => exact h
  | wait s => exact State.drawLine_keeps h
  | refused s => exact State.drawLine_keeps h

theorem State.readUnit_keeps {s0 s : State} {b : Bid} {p : Part} {i : Nat} (h : Keeps s0 s) :
    Keeps s0 (State.readUnit s b p i).2 := Perf.gotOrFree_keeps (State.access_keeps h)

theorem State.readStage_keeps {s0 s : State} {b : Bid} {p : Part} (h : Keeps s0 s) :
    Keeps s0 (State.readStage s b p).2 := by
  unfold State.readStage
  exact Keeps.foldlSnd h fun a _ h => Keeps.pair (f := fun g => a.1 ++ [g]) (State.readUnit_keeps h)

theorem State.padStaged_keeps {s0 s : State} {b : Fin 17} (h : Keeps s0 s) :
    Keeps s0 (State.padStaged s b) := by
  unfold State.padStaged
  try dsimp only
  with_reducible repeat' (first | intro _ | assumption | apply State.setStaged_keeps | apply Keeps.ite)

theorem execTraceFlushTimer_keeps {s0 : State} {b : Fin 17} {s : State} (h : Keeps s0 s) :
    OutKeeps s0 (execTraceFlushTimer b s) := by
  unfold execTraceFlushTimer
  try dsimp only
  with_reducible repeat'
    (first
      | intro _ | assumption | apply OutKeeps.next | apply State.padStaged_keeps | apply Keeps.ite)

theorem State.nextGranule_keeps {s0 s : State} {b : Fin 17} {p : Part} (h : Keeps s0 s) :
    Keeps s0 (State.nextGranule s b p).2 := by
  unfold State.nextGranule
  split
  · exact h
  · exact State.readStage_keeps h

theorem State.unstage_keeps {s0 s : State} {b : Fin 17} (h : Keeps s0 s) : Keeps s0 (State.unstage s b) :=
  Keeps.ite (fun _ => h) fun _ => h.onBench fun _ => BenchKeeps.same rfl

theorem State.putGranule_keeps {s0 s : State} {b : Fin 17} {p : Part} (h : Keeps s0 s) :
    Keeps s0 (State.putGranule s b p) := by
  unfold State.putGranule
  try dsimp only
  with_reducible repeat'
    (first
      | intro _ | assumption | apply State.nextGranule_keeps | apply State.unstage_keeps | apply State.setStage_keeps
      | apply State.writeAll_keeps | apply State.setStaged_keeps | apply State.setRf_keeps | apply State.setTrPhase_keeps
      | apply Keeps.ite | dsimp only | split | apply Keeps.foldl | refine PerfKeeps.getOkFst (by assumption) ?_
      | refine PerfKeeps.getWaitFst (by assumption) ?_ | refine PerfKeeps.getRefusedFst (by assumption) ?_)

theorem execTraceGranuleWrite_keeps {s0 : State} {b : Fin 17} {s : State} (h : Keeps s0 s) :
    OutKeeps s0 (execTraceGranuleWrite b s) := by
  unfold execTraceGranuleWrite
  try dsimp only
  with_reducible repeat'
    (first
      | intro _ | assumption | apply State.stageTrace_keeps | apply OutKeeps.next | apply State.padStaged_keeps
      | apply State.putGranule_keeps | apply State.setRf_keeps | apply Keeps.ite | apply OutKeeps.ite | dsimp only | split)

theorem State.trRefused_keeps {s0 s : State} {b : Fin 17} (h : Keeps s0 s) :
    Keeps s0 (State.trRefused s b) := by
  unfold State.trRefused
  try dsimp only
  with_reducible repeat' (first | intro _ | assumption | apply State.setRf_keeps)

theorem State.trStart_keeps {s0 s : State} {b : Fin 17} (h : Keeps s0 s) :
    Keeps s0 (State.trStart s b) := by
  unfold State.trStart
  try dsimp only
  with_reducible repeat'
    (first
      | intro _ | assumption | apply State.anchorNow_keeps | apply State.setTrLost_keeps | apply State.setStaged_keeps
      | apply State.setTrPhase_keeps | apply State.setReg_keeps | apply Keeps.onBench
      | exact BenchKeeps.same rfl | apply Keeps.ite)

theorem State.writeTrcCtl_keeps {s0 s : State} {b : Fin 17} {v : Word} (h : Keeps s0 s) :
    Keeps s0 (State.writeTrcCtl s b v) := by
  unfold State.writeTrcCtl
  try dsimp only
  with_reducible repeat'
    (first
      | intro _ | assumption | apply State.trRefused_keeps | apply State.padStaged_keeps | apply State.setReg_keeps
      | apply State.trStart_keeps | apply Keeps.ite)

theorem execTraceEnWrite_keeps {s0 : State} {b : Fin 17} {v : Word} {s : State} (h : Keeps s0 s) :
    OutKeeps s0 (execTraceEnWrite b v s) := by
  unfold execTraceEnWrite
  try dsimp only
  with_reducible repeat' (first | intro _ | assumption | apply OutKeeps.next | apply State.writeTrcCtl_keeps)

theorem State.writeTrcCfg_keeps {s0 s : State} {b : Fin 17} {k : Nat} {v : Word} (h : Keeps s0 s) :
    Keeps s0 (State.writeTrcCfg s b k v) := by
  unfold State.writeTrcCfg
  try dsimp only
  with_reducible repeat'
    (first
      | intro _ | assumption | apply State.trRefused_keeps | apply State.writeReg_keeps | apply State.setRf_keeps
      | apply Keeps.ite)

theorem execTraceSampleTimer_keeps {s0 : State} {b : Bid} {s : State} (h : Keeps s0 s) :
    OutKeeps s0 (execTraceSampleTimer b s) := by
  unfold execTraceSampleTimer
  try dsimp only
  with_reducible repeat'
    (first
      | intro _ | assumption | apply OutKeeps.next | apply State.traceAdd_keeps | apply Keeps.ite | apply OutKeeps.ite)

theorem execCyclesLowWrapAnchor_keeps {s0 : State} {b : Fin 17} {s : State} (h : Keeps s0 s) :
    OutKeeps s0 (execCyclesLowWrapAnchor b s) := by
  unfold execCyclesLowWrapAnchor
  try dsimp only
  with_reducible repeat'
    (first
      | intro _ | assumption | apply State.onMgmt_keeps | apply OutKeeps.next | apply State.anchorNow_keeps
      | apply Keeps.onBench | apply Keeps.ite | apply OutKeeps.ite | exact BenchKeeps.same rfl)

theorem State.writeMkId_keeps {s0 s : State} {b : Bid} {i : Nat} {v : Word} (h : Keeps s0 s) :
    Keeps s0 (State.writeMkId s b i v) := by
  unfold State.writeMkId
  try dsimp only
  with_reducible repeat' (first | intro _ | assumption | apply State.resetRegs_keeps | apply State.writeReg_keeps)

theorem execMkSlotIdWrite_keeps {s0 : State} {b : Bid} {slot : Fin 8} {v : Word} {s : State} (h : Keeps s0 s) :
    OutKeeps s0 (execMkSlotIdWrite b slot v s) := by
  unfold execMkSlotIdWrite
  try dsimp only
  with_reducible repeat' (first | intro _ | assumption | apply OutKeeps.next | apply State.writeMkId_keeps)

end Sys2Proof.Machine
end

