-- ==== Sys2Proof/Laws/KeepsWeighbridge.lean ====
section
/-! SUPPORT. The operations of Machine.Weighbridge keep the queue of commands and the invariant. -/

namespace Sys2Proof.Machine

theorem execWghRed_keeps {s0 : State} {h0 : Issue} {da : BitVec 4} {db : BitVec 4} {ra : BitVec 5} {rb : BitVec 5}
    {axis : BitVec 3} {noise : Bool} {s : State} (h : Keeps s0 s) :
    OutKeeps s0 (execWghRed h0 da db ra rb axis noise s) := by
  unfold execWghRed
  try dsimp only
  with_reducible repeat'
    (first
      | intro _ | assumption | apply OutKeeps.next | exact DispKeeps.stall | exact DispKeeps.fault
      | apply DispKeeps.failed | apply DispKeeps.done | apply DispKeeps.marked | apply DispKeeps.jump
      | apply issue_keeps | apply dispatch_keeps)

theorem execWghSparse_keeps {s0 : State} {h0 : Issue} {da : BitVec 4} {db : BitVec 4} {dc : BitVec 4}
    {dd : BitVec 4} {ra : BitVec 5} {rb : BitVec 5} {axis : BitVec 3} {s : State} (h : Keeps s0 s) :
    OutKeeps s0 (execWghSparse h0 da db dc dd ra rb axis s) := by
  unfold execWghSparse
  try dsimp only
  with_reducible repeat'
    (first
      | intro _ | assumption | apply OutKeeps.next | exact DispKeeps.stall | exact DispKeeps.fault
      | apply DispKeeps.failed | apply DispKeeps.done | apply DispKeeps.marked | apply DispKeeps.jump
      | apply issue_keeps | apply dispatch_keeps)

theorem State.setBucket_keeps {s0 s : State} {b : Bid} {k : Bucket} (h : Keeps s0 s) :
    Keeps s0 (State.setBucket s b k) := by
  unfold State.setBucket
  try dsimp only
  with_reducible repeat' (first | intro _ | assumption | apply Keeps.onWgh)

theorem State.dropBucket_keeps {s0 s : State} {b : Bid} {id : BitVec 32} (h : Keeps s0 s) :
    Keeps s0 (State.dropBucket s b id) := by
  unfold State.dropBucket
  try dsimp only
  with_reducible repeat' (first | intro _ | assumption | apply Keeps.onWgh)

theorem State.onBucket_keeps {s0 s : State} {b : Bid} {id : BitVec 32} {f : Bucket → Bucket} (h : Keeps s0 s) :
    Keeps s0 (State.onBucket s b id f) := by
  unfold State.onBucket
  try dsimp only
  with_reducible repeat'
    (first
      | intro _ | assumption | apply State.setBucket_keeps | apply Keeps.ite | dsimp only | split)

theorem State.wghFail_keeps {s0 s : State} {b : Bid} {k : Bucket} {c : FCode} (h : Keeps s0 s) :
    Keeps s0 (State.wghFail s b k c) := by
  unfold State.wghFail
  try dsimp only
  with_reducible repeat' (first | intro _ | assumption | apply State.fault_keeps | apply State.dropBucket_keeps)

theorem State.sendReduce_keeps {s0 s : State} {p : Part} {k : Bucket} {to_ : Nat × Nat} {op : Nat} {slot : Nat}
    {addr : Nat} {payload : List Byte} (h : Keeps s0 s) :
    Keeps s0 (State.sendReduce s p k to_ op slot addr payload) := by
  unfold State.sendReduce
  try dsimp only
  with_reducible repeat' (first | intro _ | assumption | apply State.send_keeps)

theorem State.wghAbort_keeps {s0 s : State} {b : Bid} {p : Part} (h : Keeps s0 s) :
    Keeps s0 (State.wghAbort s b p) := by
  unfold State.wghAbort
  try dsimp only
  with_reducible repeat' (first | intro _ | assumption | apply Keeps.onWgh | apply State.onCtl_keeps | apply Keeps.ite)

theorem State.wghRecord_keeps {s0 s : State} {b : Bid} {k : Bucket} {event : Nat} {vote : Vote} {syn : Word}
    (h : Keeps s0 s) :
    Keeps s0 (State.wghRecord s b k event vote syn) := by
  unfold State.wghRecord
  try dsimp only
  with_reducible repeat' (first | intro _ | assumption | apply State.emit_keeps)

theorem State.abandonShard_keeps {s0 s : State} {b : Bid} {p : Part} {id : BitVec 32} {j : Nat} {votes : Bool}
    {tells : Bool} (h : Keeps s0 s) :
    Keeps s0 (State.abandonShard s b p id j votes tells) := by
  unfold State.abandonShard
  try dsimp only
  with_reducible repeat'
    (first
      | intro _ | assumption | apply State.setBucket_keeps | apply State.setRb_keeps | apply State.wghAbort_keeps
      | apply State.wghRecord_keeps | apply State.sendReduce_keeps | apply Keeps.ite | dsimp only | split
      | apply Keeps.foldl)

theorem State.sendGrant_keeps {s0 s : State} {b : Bid} {p : Part} {k : Bucket} {j : Nat} {i : Nat} (h : Keeps s0 s) :
    Keeps s0 (State.sendGrant s b p k j i) := by
  unfold State.sendGrant
  try dsimp only
  with_reducible repeat'
    (first
      | intro _ | assumption | apply State.sendReduce_keeps | apply State.setRb_keeps | apply State.onBucket_keeps
      | apply Keeps.ite)

theorem State.sendGrants_keeps {s0 s : State} {b : Bid} {p : Part} {k : Bucket} (h : Keeps s0 s) :
    Keeps s0 (State.sendGrants s b p k) := by
  unfold State.sendGrants
  try dsimp only
  with_reducible repeat'
    (first
      | intro _ | assumption | apply State.sendGrant_keeps | apply Keeps.ite | dsimp only | split | apply Keeps.foldl)

theorem State.wghDiscard_keeps {s0 s : State} {b : Bid} (h : Keeps s0 s) : Keeps s0 (State.wghDiscard s b) :=
  State.countB_keeps h

theorem State.nextBackup_keeps {s0 s : State} {b : Bid} {p : Part} {id : BitVec 32} {j : Nat} {i : Nat}
    (h : Keeps s0 s) :
    Keeps s0 (State.nextBackup s b p id j i) := by
  unfold State.nextBackup
  try dsimp only
  with_reducible repeat'
    (first
      | intro _ | assumption | apply State.wghDiscard_keeps | apply State.abandonShard_keeps | apply State.sendGrant_keeps
      | apply State.setBucket_keeps | apply Keeps.ite | dsimp only | split)

theorem State.readEach_keeps {s0 : State} {w : Who} {a : List Ask} {l : List RdReq} {g : Tab Got} {s : State}
    (h : Keeps s0 s) : PerfKeeps s0 (State.readEach w a l g s).1 := by
  induction l generalizing a g s with
  | nil => exact h
  | cons r rest ih =>
    have ha : PerfKeeps s0 (s.access w r) := State.access_keeps h
    unfold State.readEach
    split
    · exact ih h
    · split
      · exact ih (State.noteGrant_keeps (PerfKeeps.getOk (by assumption) ha))
      · exact ih (PerfKeeps.getWait (by assumption) ha)
      · exact PerfKeeps.getRefused (by assumption) ha

theorem State.writeEach_keeps {s0 : State} {w : Who} {a : List Ask} {l : List WrReq} {s : State} (h : Keeps s0 s) :
    PerfKeeps s0 (State.writeEach w a l s).1 := by
  induction l generalizing a s with
  | nil => exact h
  | cons r rest ih =>
    have ha : PerfKeeps s0 (s.store w r) := State.store_keeps h
    unfold State.writeEach
    split
    · exact ih h
    · split
      · exact ih (State.noteGrant_keeps (PerfKeeps.getOk (by assumption) ha))
      · exact ih (PerfKeeps.getWait (by assumption) ha)
      · exact PerfKeeps.getRefused (by assumption) ha

theorem State.checkCopy_keeps {s0 s : State} {b : Bid} {p : Part} {id : BitVec 32} {j : Nat} {i : Nat}
    (h : Keeps s0 s) :
    Keeps s0 (State.checkCopy s b p id j i) := by
  unfold State.checkCopy
  try dsimp only
  with_reducible repeat'
    (first
      | intro _ | assumption | apply State.setBucket_keeps | apply State.setRb_keeps | apply State.wghRecord_keeps
      | apply State.nextBackup_keeps | apply Keeps.ite | dsimp only | split)

theorem State.sendPieces_keeps {s0 s : State} {b : Bid} {p : Part} {k : Bucket} {j : Nat} (h : Keeps s0 s) :
    Keeps s0 (State.sendPieces s b p k j) := by
  unfold State.sendPieces
  try dsimp only
  with_reducible repeat'
    (first
      | intro _ | assumption | apply State.countB_keeps | apply State.sendReduce_keeps | apply State.setBucket_keeps
      | apply Keeps.ite | dsimp only | split | apply Keeps.foldl)

theorem State.sendPart_keeps {s0 s : State} {b : Bid} {p : Part} {id : BitVec 32} {j : Nat} (h : Keeps s0 s) :
    Keeps s0 (State.sendPart s b p id j) := by
  unfold State.sendPart
  try dsimp only
  with_reducible repeat'
    (first
      | intro _ | assumption | apply State.wghDiscard_keeps | apply State.checkCopy_keeps | apply State.sendPieces_keeps
      | apply State.setBucket_keeps | apply State.wghFail_keeps | apply Keeps.ite | dsimp only | split)

theorem State.planRemainder_keeps {s0 s : State} {b : Bid} {id : BitVec 32} (h : Keeps s0 s) :
    Keeps s0 (State.planRemainder s b id) := by
  unfold State.planRemainder
  try dsimp only
  with_reducible repeat'
    (first
      | intro _ | assumption | apply State.tally_keeps | apply State.setBucket_keeps | apply Keeps.ite | dsimp only
      | split)

theorem State.checkIndexes_keeps {s0 s : State} {b : Bid} {id : BitVec 32} (h : Keeps s0 s) :
    Keeps s0 (State.checkIndexes s b id) := by
  unfold State.checkIndexes
  try dsimp only
  with_reducible repeat'
    (first
      | intro _ | assumption | apply State.indexRecords_keeps | apply State.setBucket_keeps | apply Keeps.ite
      | dsimp only | split)

theorem State.sendParts_keeps {s0 s : State} {b : Bid} {p : Part} {id : BitVec 32} {l : List Nat} (h : Keeps s0 s) :
    Keeps s0 (State.sendParts s b p id l) := by
  induction l generalizing s with
  | nil => exact h
  | cons j rest ih =>
    have hp : Keeps s0 (s.sendPart b p id j) := State.sendPart_keeps h
    unfold State.sendParts
    dsimp only
    split
    · exact hp
    · exact Keeps.ite (fun _ => ih hp) fun _ => hp

theorem State.shadeOlder_keeps {s0 s : State} {b : Bid} {id : BitVec 32} {l : List WrReq} (h : Keeps s0 s) :
    Keeps s0 (State.shadeOlder s b id l) := by
  unfold State.shadeOlder
  try dsimp only
  with_reducible repeat' (first | intro _ | assumption | apply Keeps.onWgh)

theorem State.noteParked_keeps {s0 s : State} {b : Bid} {id : BitVec 32} (h : Keeps s0 s) :
    Keeps s0 (State.noteParked s b id) := by
  unfold State.noteParked
  try dsimp only
  with_reducible repeat'
    (first
      | intro _ | assumption | apply State.park_keeps | apply State.setBucket_keeps | apply Keeps.ite
      | apply Keeps.foldl | dsimp only | split)

theorem State.pumpBucket_keeps {s0 s : State} {b : Bid} {p : Part} {id : BitVec 32} (h : Keeps s0 s) :
    Keeps s0 (State.pumpBucket s b p id) := by
  unfold State.pumpBucket
  try dsimp only
  with_reducible repeat'
    (first
      | intro _ | assumption | apply State.shadeOlder_keeps | apply State.noteParked_keeps | apply State.charge_keeps
      | apply State.checkIndexes_keeps | apply State.park_keeps | apply State.planRemainder_keeps | apply State.readEach_keeps
      | apply State.sendPart_keeps | apply State.sendParts_keeps | apply State.setBucket_keeps | apply State.wghFail_keeps
      | apply State.writeEach_keeps | apply Keeps.ite | dsimp only | split | refine PerfKeeps.getOkFst (by assumption) ?_
      | refine PerfKeeps.getWaitFst (by assumption) ?_ | refine PerfKeeps.getRefusedFst (by assumption) ?_)

theorem State.wghPump_keeps {s0 s : State} {b : Bid} (h : Keeps s0 s) :
    Keeps s0 (State.wghPump s b) := by
  unfold State.wghPump
  try dsimp only
  with_reducible repeat'
    (first
      | intro _ | assumption | apply State.pumpBucket_keeps | apply Keeps.ite | dsimp only | split | apply Keeps.foldl)

theorem State.abandonBucket_keeps {s0 s : State} {b : Bid} {p : Part} {k : Bucket} {tells : Bool} (h : Keeps s0 s) :
    Keeps s0 (State.abandonBucket s b p k tells) := by
  unfold State.abandonBucket
  try dsimp only
  with_reducible repeat'
    (first
      | intro _ | assumption | apply State.abandonShard_keeps | apply Keeps.ite | apply Keeps.foldl)

theorem execBucketOpen_keeps {s0 : State} {b : Bid} {s : State} (h : Keeps s0 s) :
    OutKeeps s0 (execBucketOpen b s) := by
  unfold execBucketOpen
  try dsimp only
  with_reducible repeat'
    (first
      | intro _ | assumption | apply State.abandonBucket_keeps | apply OutKeeps.next | apply State.wghPump_keeps
      | apply State.fault_keeps | apply Keeps.onWgh | apply State.dequeue_keeps | apply State.sendGrants_keeps
      | apply Keeps.ite | apply OutKeeps.ite | dsimp only | split)

theorem State.takeReduce.go_keeps {s0 s : State} {b : Bid} {op : Nat} {l seen : List (Option PortNo × Packet)}
    {srcs : List (Nat × Nat)} (h : Keeps s0 s) : OptSndKeeps s0 (State.takeReduce.go s b op l seen srcs) := by
  induction l generalizing seen srcs with
  | nil => trivial
  | cons x rest ih =>
    unfold State.takeReduce.go
    dsimp only
    split
    · exact State.freed_keeps h.lit
    · exact ih

theorem State.takeReduce_keeps {s0 s : State} {b : Bid} {op : Nat} (h : Keeps s0 s) :
    OptSndKeeps s0 (s.takeReduce b op) := State.takeReduce.go_keeps h

theorem execGrant_keeps {s0 : State} {b : Bid} {s : State} (h : Keeps s0 s) :
    OutKeeps s0 (execGrant b s) := by
  unfold execGrant
  try dsimp only
  with_reducible repeat'
    (first
      | intro _ | assumption | apply OutKeeps.next | apply State.takeReduce_keeps | apply State.wghDiscard_keeps
      | apply State.pumpBucket_keeps | apply State.countB_keeps | apply State.setBucket_keeps | apply Keeps.onWgh
      | apply Keeps.ite | apply OutKeeps.ite | dsimp only | split | apply Keeps.foldl
      | refine OptSndKeeps.get (by assumption) ?_)

theorem State.stageWords_keeps {s0 s : State} {b : Bid} {k : Bucket} {n : Nat} (h : Keeps s0 s) :
    Keeps s0 (State.stageWords s b k n) := by
  unfold State.stageWords
  try dsimp only
  with_reducible repeat' (first | intro _ | assumption | apply State.slotCount_keeps)

theorem execContrib_keeps {s0 s : State} {b : Bid} (h : Keeps s0 s) : OutKeeps s0 (execContrib b s) := by
  unfold execContrib
  try dsimp only
  with_reducible repeat'
    (first
      | intro _ | assumption | apply State.stageWords_keeps | apply OutKeeps.next | apply State.checkCopy_keeps
      | apply State.setBucket_keeps | apply State.takeReduce_keeps | apply State.wghDiscard_keeps | apply Keeps.ite
      | apply OutKeeps.ite | dsimp only | split | refine OptSndKeeps.get (by assumption) ?_)

theorem execSums_keeps {s0 : State} {b : Bid} {s : State} (h : Keeps s0 s) :
    OutKeeps s0 (execSums b s) := by
  unfold execSums
  try dsimp only
  with_reducible repeat'
    (first
      | intro _ | assumption | apply OutKeeps.next | apply State.takeReduce_keeps | apply State.wghDiscard_keeps
      | apply State.setBucket_keeps | apply State.checkCopy_keeps | apply Keeps.ite | apply OutKeeps.ite | dsimp only
      | split | apply Keeps.foldl | refine OptSndKeeps.get (by assumption) ?_)

theorem State.takeResult_keeps {s0 s : State} {b : Bid} {id : BitVec 32} {j o : Nat} {bytes : List Byte}
    (h : Keeps s0 s) :
    Keeps s0 (State.takeResult s b id j o bytes) := by
  unfold State.takeResult
  try dsimp only
  with_reducible repeat' (first | intro _ | assumption | apply State.onBucket_keeps)

theorem State.checkResult_keeps {s0 s : State} {b : Bid} {p : Part} {id : BitVec 32} {j : Nat} {r : List Word}
    (h : Keeps s0 s) :
    Keeps s0 (State.checkResult s b p id j r) := by
  unfold State.checkResult
  try dsimp only
  with_reducible repeat'
    (first
      | intro _ | assumption | apply State.tally_keeps | apply State.setBucket_keeps | apply State.setRb_keeps
      | apply State.wghRecord_keeps | apply State.wghAbort_keeps | apply Keeps.ite | dsimp only | split)

theorem execShardResultSend_keeps {s0 s : State} {b : Bid} {upset : Option UnitUpset} (h : Keeps s0 s) :
    OutKeeps s0 (execShardResultSend b upset s) := by
  unfold execShardResultSend
  try dsimp only
  with_reducible repeat'
    (first
      | intro _ | assumption | apply State.stageWords_keeps | apply OutKeeps.next | apply State.abandonShard_keeps
      | apply State.checkResult_keeps | apply State.residueEvent_keeps | apply State.sendReduce_keeps
      | apply State.setBucket_keeps | apply State.setRb_keeps | apply State.takeResult_keeps | apply State.wghPump_keeps
      | apply State.wghRecord_keeps | apply Keeps.ite | apply OutKeeps.ite | dsimp only | split | apply Keeps.foldl)

theorem execResult_keeps {s0 s : State} {b : Bid} (h : Keeps s0 s) : OutKeeps s0 (execResult b s) := by
  unfold execResult
  try dsimp only
  with_reducible repeat'
    (first
      | intro _ | assumption | apply OutKeeps.next | apply State.countB_keeps | apply State.pumpBucket_keeps
      | apply State.takeReduce_keeps | apply State.takeResult_keeps | apply State.wghDiscard_keeps | apply Keeps.ite
      | apply OutKeeps.ite | dsimp only | split | refine OptSndKeeps.get (by assumption) ?_)

theorem execRsums_keeps {s0 : State} {b : Bid} {s : State} (h : Keeps s0 s) :
    OutKeeps s0 (execRsums b s) := by
  unfold execRsums
  try dsimp only
  with_reducible repeat'
    (first
      | intro _ | assumption | apply OutKeeps.next | apply State.takeReduce_keeps | apply State.wghDiscard_keeps
      | apply State.pumpBucket_keeps | apply State.checkResult_keeps | apply Keeps.ite | apply OutKeeps.ite
      | dsimp only | split | apply Keeps.foldl | refine OptSndKeeps.get (by assumption) ?_)

theorem execAbandon_keeps {s0 : State} {b : Bid} {s : State} (h : Keeps s0 s) :
    OutKeeps s0 (execAbandon b s) := by
  unfold execAbandon
  try dsimp only
  with_reducible repeat'
    (first
      | intro _ | assumption | apply OutKeeps.next | apply State.takeReduce_keeps | apply State.wghDiscard_keeps
      | apply State.pumpBucket_keeps | apply State.abandonShard_keeps | apply Keeps.ite | apply OutKeeps.ite
      | dsimp only | split | apply Keeps.foldl | refine OptSndKeeps.get (by assumption) ?_)

theorem execDrain_keeps {s0 : State} {b : Bid} {s : State} (h : Keeps s0 s) :
    OutKeeps s0 (execDrain b s) := by
  unfold execDrain
  try dsimp only
  with_reducible repeat'
    (first
      | intro _ | assumption | apply OutKeeps.next | apply State.takeReduce_keeps | apply Keeps.onWgh
      | apply State.sendGrants_keeps | apply State.wghDiscard_keeps | apply Keeps.ite | apply OutKeeps.ite
      | dsimp only | split | apply Keeps.foldl | refine OptSndKeeps.get (by assumption) ?_)

theorem execReduceDeadlineExpiry_keeps {s0 : State} {b : Bid} {bucket : BitVec 32} {shard : Nat} {slot : Nat}
    {s : State} (h : Keeps s0 s) :
    OutKeeps s0 (execReduceDeadlineExpiry b bucket shard slot s) := by
  unfold execReduceDeadlineExpiry
  try dsimp only
  with_reducible repeat'
    (first
      | intro _ | assumption | apply OutKeeps.next | apply State.wghPump_keeps | apply State.nextBackup_keeps
      | apply Keeps.ite | apply OutKeeps.ite | dsimp only | split)

theorem execReduceTimeout_keeps {s0 : State} {b : Bid} {bucket : BitVec 32} {s : State} (h : Keeps s0 s) :
    OutKeeps s0 (execReduceTimeout b bucket s) := by
  unfold execReduceTimeout
  try dsimp only
  with_reducible repeat'
    (first
      | intro _ | assumption | apply OutKeeps.next | apply State.pumpBucket_keeps | apply State.setBucket_keeps
      | apply State.wghFail_keeps | apply Keeps.ite | apply OutKeeps.ite | dsimp only | split)

theorem State.wghLost_keeps {s0 s : State} {b : Bid} {p : Part} {mod : Nat} (h : Keeps s0 s) :
    Keeps s0 (State.wghLost s b p mod) := by
  unfold State.wghLost
  try dsimp only
  with_reducible repeat'
    (first
      | intro _ | assumption | apply Keeps.onWgh | apply State.abandonShard_keeps | apply State.nextBackup_keeps
      | apply Keeps.ite | dsimp only | split | apply Keeps.foldl)

theorem execWghComplete_keeps {s0 : State} {b : Bid} {bucket : BitVec 32} {s : State} (h : Keeps s0 s) :
    OutKeeps s0 (execWghComplete b bucket s) := by
  unfold execWghComplete
  try dsimp only
  with_reducible repeat'
    (first
      | intro _ | assumption | apply OutKeeps.next | apply State.wghPump_keeps | apply Keeps.onWgh
      | apply State.completed_keeps | apply State.dropBucket_keeps | apply Keeps.ite | apply OutKeeps.ite | dsimp only
      | split)

theorem State.abandonAll_keeps {s0 s : State} {b : Bid} {p : Part} {tells : Bool} (h : Keeps s0 s) :
    Keeps s0 (State.abandonAll s b p tells) := by
  unfold State.abandonAll
  try dsimp only
  with_reducible repeat'
    (first
      | intro _ | assumption | apply State.abandonBucket_keeps | apply State.abandonShard_keeps | apply State.wghPump_keeps
      | apply Keeps.ite | dsimp only | split | apply Keeps.foldl)

theorem State.sendDrain_keeps {s0 s : State} {b : Bid} {p : Part} {m : Nat × Nat} (h : Keeps s0 s) :
    Keeps s0 (State.sendDrain s b p m) := by
  unfold State.sendDrain
  try dsimp only
  with_reducible repeat' (first | intro _ | assumption | apply State.send_keeps)

theorem State.wghOutcome_keeps {s0 s : State} {b : Bid} {p : Part} {r : Result} {step : Nat} (h : Keeps s0 s) :
    Keeps s0 (State.wghOutcome s b p r step) := by
  unfold State.wghOutcome
  try dsimp only
  with_reducible repeat'
    (first
      | intro _ | assumption | apply State.setRf_keeps | apply State.setReg_keeps | apply State.abandonAll_keeps
      | apply State.sendDrain_keeps | apply Keeps.onWgh | apply Keeps.ite | dsimp only | split | apply Keeps.foldl)

theorem State.writeStage_keeps {s0 s : State} {b : Bid} {v : Word} (h : Keeps s0 s) :
    Keeps s0 (State.writeStage s b v) := by
  unfold State.writeStage
  try dsimp only
  with_reducible repeat'
    (first
      | intro _ | assumption | apply State.writeReg_keeps | apply State.setRb_keeps | apply Keeps.ite)

theorem execWghStageWrite_keeps {s0 : State} {b : Bid} {v : Word} {s : State} (h : Keeps s0 s) :
    OutKeeps s0 (execWghStageWrite b v s) := by
  unfold execWghStageWrite
  try dsimp only
  with_reducible repeat' (first | intro _ | assumption | apply OutKeeps.next | apply State.writeStage_keeps)

end Sys2Proof.Machine
end

