-- ==== Sys2Proof/Laws/KeepsVote.lean ====
section
/-! SUPPORT. The operations of Machine.Vote keep the queue of commands and the invariant. -/

namespace Sys2Proof.Machine

theorem State.sendStep_keeps {s0 s : State} {p : Part} {mod : Nat} {op : Nat} {step : Nat} {attempt : Nat} {v : Nat}
    {causes : BitVec 11} {origin : Nat} (h : Keeps s0 s) :
    Keeps s0 (State.sendStep s p mod op step attempt v causes origin) := by
  unfold State.sendStep
  try dsimp only
  with_reducible repeat'
    (first
      | intro _ | assumption | apply State.sendPort_keeps | apply State.enqueue_keeps | apply State.send_keeps
      | apply Keeps.ite | dsimp only | split)

theorem State.sendStepAll_keeps {s0 s : State} {p : Part} {mods : List Nat} {op : Nat} {v : Nat} {origin : Nat}
    (h : Keeps s0 s) :
    Keeps s0 (State.sendStepAll s p mods op v origin) := by
  unfold State.sendStepAll
  try dsimp only
  with_reducible repeat'
    (first
      | intro _ | assumption | apply State.sendStep_keeps | apply Keeps.ite | dsimp only | split | apply Keeps.foldl)

theorem State.holdOutcome_keeps {s0 s : State} {p : Part} {r : Result} {mods : List Nat} (h : Keeps s0 s) :
    Keeps s0 (State.holdOutcome s p r mods) := by
  unfold State.holdOutcome
  try dsimp only
  with_reducible repeat' (first | intro _ | assumption | apply State.onCtl_keeps | apply State.sendStepAll_keeps)

theorem State.decideStep_keeps {s0 s : State} {p : Part} {v : Vote} (h : Keeps s0 s) :
    Keeps s0 (State.decideStep s p v) := by
  unfold State.decideStep
  try dsimp only
  with_reducible repeat'
    (first
      | intro _ | assumption | apply State.onCtl_keeps | apply State.holdOutcome_keeps | apply Keeps.ite)

theorem State.stepAdvance_keeps {s0 s : State} {p : Part} (h : Keeps s0 s) :
    Keeps s0 (State.stepAdvance s p) := by
  unfold State.stepAdvance
  try dsimp only
  with_reducible repeat'
    (first
      | intro _ | assumption | apply State.decideStep_keeps | apply State.onCtl_keeps | apply State.countP_keeps
      | apply State.sendStepAll_keeps | apply Keeps.ite)

theorem State.openStep_keeps {s0 s : State} {p : Part} {k att : Nat} (h : Keeps s0 s) :
    Keeps s0 (State.openStep s p k att) := by
  unfold State.openStep
  try dsimp only
  with_reducible repeat'
    (first
      | intro _ | assumption | exact DispKeeps.stall | exact DispKeeps.fault | apply DispKeeps.failed
      | apply DispKeeps.done | apply DispKeeps.marked | apply DispKeeps.jump | apply DispKeeps.ite
      | apply State.onCtl_keeps | apply State.onPlumb_keeps | apply State.plumbClear_keeps | apply State.setRb_keeps
      | apply State.setRf_keeps | apply Keeps.ite | dsimp only | split | apply Keeps.foldl)

theorem State.beginStep_keeps {s0 s : State} {b : Bid} {k att : Nat} (h : Keeps s0 s) :
    Keeps s0 (State.beginStep s b k att) := by
  unfold State.beginStep
  try dsimp only
  with_reducible repeat'
    (first
      | intro _ | assumption | apply State.anchorStep_keeps | apply State.errVote_keeps | apply State.joinLate_keeps
      | apply State.setRf_keeps | apply State.stkSettle_keeps | apply Keeps.onBench | apply Keeps.onFm
      | exact BenchKeeps.same rfl | apply BenchKeeps.fm | exact FmKeeps.same rfl rfl rfl rfl rfl
      | exact FmKeeps.fewer rfl rfl (by simp) (by simp) (by simp) | apply Keeps.setQueue)

theorem execStepBegin_keeps {s0 : State} {h0 : Issue} {ra : BitVec 5} {s : State} (h : Keeps s0 s) :
    OutKeeps s0 (execStepBegin h0 ra s) := by
  unfold execStepBegin
  try dsimp only
  with_reducible repeat'
    (first
      | intro _ | assumption | apply OutKeeps.next | exact DispKeeps.stall | exact DispKeeps.fault
      | apply DispKeeps.failed | apply DispKeeps.done | apply DispKeeps.marked | apply DispKeeps.jump
      | apply issue_keeps | apply waitS_keeps | apply State.beginStep_keeps | apply State.openStep_keeps
      | apply Keeps.ite | apply OutKeeps.ite | apply DispKeeps.ite | dsimp only | split)

theorem execStepVote_keeps {s0 : State} {h0 : Issue} {rd : BitVec 5} {vote : Vote} {cover : BitVec 8} {s : State}
    (h : Keeps s0 s) :
    OutKeeps s0 (execStepVote h0 rd vote cover s) := by
  unfold execStepVote
  try dsimp only
  with_reducible repeat'
    (first
      | intro _ | assumption | apply OutKeeps.next | exact DispKeeps.stall | exact DispKeeps.fault
      | apply DispKeeps.failed | apply DispKeeps.later | apply DispKeeps.marked | apply DispKeeps.jump
      | apply issue_keeps | apply waitS_keeps | apply Keeps.onFm | apply State.setRf_keeps | apply Keeps.ite
      | apply OutKeeps.ite | apply DispKeeps.ite | exact BenchKeeps.same rfl | apply BenchKeeps.fm
      | exact FmKeeps.same rfl rfl rfl rfl rfl)

theorem execStepVoteSend_keeps {s0 : State} {b : Bid} {s : State} (h : Keeps s0 s) :
    OutKeeps s0 (execStepVoteSend b s) := by
  unfold execStepVoteSend
  try dsimp only
  with_reducible repeat'
    (first
      | intro _ | assumption | apply State.byCore_keeps | apply OutKeeps.next | apply State.stepAdvance_keeps | apply Keeps.onFm
      | apply State.castVote_keeps | apply State.onCtl_keeps | apply Keeps.ite | apply OutKeeps.ite
      | exact BenchKeeps.same rfl | apply BenchKeeps.fm | exact FmKeeps.same rfl rfl rfl rfl rfl
      | exact Foreman.setS_sound | exact Foreman.setP_sound | exact Foreman.setT_sound
      | refine FmKeeps.trans ?_ Foreman.setS_sound | refine FmKeeps.trans ?_ Foreman.setT_sound
      | exact FmKeeps.fewer rfl rfl (by simp) (by simp) (by simp) | dsimp only | split)

/-- An answer relabelled. -/
theorem OptSndKeeps.map {α β : Type} {s0 : State} {a : Option (α × State)} {f : α → β} (h : OptSndKeeps s0 a) :
    OptSndKeeps s0 (a.map fun x => (f x.1, x.2)) := by
  cases a <;> exact h

theorem State.takeStep_keeps {s0 s : State} {p : Part} {op : Nat} (h : Keeps s0 s) :
    OptSndKeeps s0 (s.takeStep p op) := (State.takePacket_keeps h).map

theorem State.resendLast_keeps {s0 s : State} {p : Part} {mod : Nat} (h : Keeps s0 s) :
    Keeps s0 (State.resendLast s p mod) := by
  unfold State.resendLast
  try dsimp only
  with_reducible repeat'
    (first
      | intro _ | assumption | apply State.sendStep_keeps | apply Keeps.ite | dsimp only | split)

theorem State.resendHeld_keeps {s0 s : State} {p : Part} {mods : List Nat} (h : Keeps s0 s) :
    Keeps s0 (State.resendHeld s p mods) := by
  unfold State.resendHeld
  try dsimp only
  with_reducible repeat'
    (first
      | intro _ | assumption | apply State.sendStepAll_keeps | apply Keeps.ite | dsimp only | split)

theorem execVote_keeps {s0 : State} {p : Part} {s : State} (h : Keeps s0 s) :
    OutKeeps s0 (execVote p s) := by
  unfold execVote
  try dsimp only
  with_reducible repeat'
    (first
      | intro _ | assumption | apply State.byCore_keeps | apply OutKeeps.next | apply State.takeStep_keeps
      | apply State.stepAdvance_keeps | apply State.resendLast_keeps | apply State.resendHeld_keeps | apply State.onCtl_keeps
      | apply Keeps.ite | apply OutKeeps.ite | dsimp only | split | apply Keeps.foldl
      | refine OptSndKeeps.get (by assumption) ?_)

theorem execVoteTimeout_keeps {s0 : State} {p : Part} {s : State} (h : Keeps s0 s) :
    OutKeeps s0 (execVoteTimeout p s) := by
  unfold execVoteTimeout
  try dsimp only
  with_reducible repeat'
    (first
      | intro _ | assumption | apply State.byCore_keeps | apply OutKeeps.next | apply State.decideStep_keeps
      | apply State.onCtl_keeps | apply Keeps.ite | apply OutKeeps.ite)

theorem execOutcome_keeps {s0 : State} {p : Part} {s : State} (h : Keeps s0 s) :
    OutKeeps s0 (execOutcome p s) := by
  unfold execOutcome
  try dsimp only
  with_reducible repeat'
    (first
      | intro _ | assumption | apply State.byCore_keeps | apply OutKeeps.next | apply State.takePacket_keeps
      | apply State.onCtl_keeps | apply State.holdOutcome_keeps | apply Keeps.ite | apply OutKeeps.ite | dsimp only | split
      | apply Keeps.foldl | refine OptSndKeeps.get (by assumption) ?_)

theorem State.benchOutcome_keeps {s0 s : State} {r : Result} {b : Bid} (h : Keeps s0 s) :
    Keeps s0 (State.benchOutcome s r b) := by
  unfold State.benchOutcome
  try dsimp only
  with_reducible repeat'
    (first
      | intro _ | assumption | apply State.retireOp_keeps | apply State.setRf_keeps | apply Keeps.onFm | apply Keeps.ite
      | exact BenchKeeps.same rfl | apply BenchKeeps.fm | exact FmKeeps.same rfl rfl rfl rfl rfl
      | exact Foreman.setS_sound | exact Foreman.setP_sound | exact Foreman.setT_sound
      | refine FmKeeps.trans ?_ Foreman.setS_sound | refine FmKeeps.trans ?_ Foreman.setT_sound
      | exact FmKeeps.fewer rfl rfl (by simp) (by simp) (by simp) | dsimp only | split)

theorem execStepOutcomeAct_keeps {s0 : State} {p : Part} {s : State} (h : Keeps s0 s) :
    OutKeeps s0 (execStepOutcomeAct p s) := by
  unfold execStepOutcomeAct
  try dsimp only
  with_reducible repeat'
    (first
      | intro _ | assumption | apply State.byCore_keeps | apply OutKeeps.next | apply State.plumbInstall_keeps
      | apply State.wghOutcome_keeps | apply State.benchOutcome_keeps | apply State.setRf_keeps | apply State.setRb_keeps
      | apply State.countP_keeps | apply State.onCtl_keeps | apply State.emit_keeps | apply Keeps.ite | apply OutKeeps.ite
      | dsimp only | split | apply Keeps.foldl)

theorem State.firstAlert_keeps {s0 s : State} {p : Part} {origin : Nat} (h : Keeps s0 s) :
    Keeps s0 (State.firstAlert s p origin) := by
  unfold State.firstAlert
  try dsimp only
  with_reducible repeat'
    (first
      | intro _ | assumption | apply State.onCtl_keeps | apply State.setRb_keeps | apply State.setRf_keeps
      | apply Keeps.ite)

theorem State.sendCancel_keeps {s0 s : State} {p : Part} (h : Keeps s0 s) : Keeps s0 (State.sendCancel s p) := by
  unfold State.sendCancel
  try dsimp only
  with_reducible repeat'
    (first
      | intro _ | assumption | apply State.onCtl_keeps | apply State.sendStepAll_keeps | apply Keeps.ite)

theorem State.cancelStep_keeps {s0 s : State} {p : Part} (h : Keeps s0 s) : Keeps s0 (State.cancelStep s p) := by
  unfold State.cancelStep
  try dsimp only
  with_reducible repeat'
    (first
      | intro _ | assumption | apply State.abandonAll_keeps | apply State.sendCancel_keeps | apply State.setRb_keeps
      | apply Keeps.ite | dsimp only | split | apply Keeps.foldl)

theorem State.passAlert_keeps {s0 s : State} {p : Part} {origin v : Nat} (h : Keeps s0 s) :
    Keeps s0 (State.passAlert s p origin v) := by
  unfold State.passAlert
  try dsimp only
  with_reducible repeat'
    (first
      | intro _ | assumption | apply State.countP_keeps | apply State.firstAlert_keeps | apply State.onCtl_keeps
      | apply State.sendCancel_keeps | apply State.sendStepAll_keeps | apply Keeps.ite)

theorem State.takeNews_keeps {s0 s : State} {p : Part} {op : Nat} (h : Keeps s0 s) :
    OptSndKeeps s0 (s.takeNews p op) := (State.takePacket_keeps h).map

theorem State.sendAhead_keeps {s0 s : State} {p : Part} {mods : List Nat} {op vote origin : Nat} {pkt : Packet}
    (h : Keeps s0 s) :
    Keeps s0 (State.sendAhead s p mods op vote origin pkt) := by
  unfold State.sendAhead
  try dsimp only
  with_reducible repeat'
    (first
      | intro _ | assumption | apply State.sendStep_keeps | dsimp only | split | apply Keeps.foldl)

theorem State.cancelAhead_keeps {s0 s : State} {p : Part} {pkt : Packet} (h : Keeps s0 s) :
    Keeps s0 (State.cancelAhead s p pkt) := by
  unfold State.cancelAhead
  try dsimp only
  with_reducible repeat'
    (first
      | intro _ | assumption | apply State.onCtl_keeps | apply State.sendAhead_keeps | apply Keeps.ite)

theorem State.alertAhead_keeps {s0 s : State} {p : Part} {pkt : Packet} (h : Keeps s0 s) :
    Keeps s0 (State.alertAhead s p pkt) := by
  unfold State.alertAhead
  try dsimp only
  with_reducible repeat'
    (first
      | intro _ | assumption | apply State.countP_keeps | apply State.onCtl_keeps | apply State.sendAhead_keeps
      | apply Keeps.ite)

theorem execCancel_keeps {s0 s : State} {p : Part} (h : Keeps s0 s) : OutKeeps s0 (execCancel p s) := by
  unfold execCancel
  try dsimp only
  with_reducible repeat'
    (first
      | intro _ | assumption | apply State.byCore_keeps | apply OutKeeps.next | apply State.cancelAhead_keeps
      | apply State.cancelStep_keeps | apply State.takeNews_keeps | apply Keeps.ite | apply OutKeeps.ite | dsimp only | split
      | refine OptSndKeeps.get (by assumption) ?_)

theorem execAlert_keeps {s0 s : State} {p : Part} (h : Keeps s0 s) : OutKeeps s0 (execAlert p s) := by
  unfold execAlert
  try dsimp only
  with_reducible repeat'
    (first
      | intro _ | assumption | apply State.byCore_keeps | apply OutKeeps.next | apply State.alertAhead_keeps
      | apply State.passAlert_keeps | apply State.takeNews_keeps | apply Keeps.ite | apply OutKeeps.ite | dsimp only | split
      | refine OptSndKeeps.get (by assumption) ?_)

theorem execAlertSend_keeps {s0 : State} {p : Part} {s : State} (h : Keeps s0 s) :
    OutKeeps s0 (execAlertSend p s) := by
  unfold execAlertSend
  try dsimp only
  with_reducible repeat'
    (first
      | intro _ | assumption | apply State.byCore_keeps | apply OutKeeps.next | apply State.passAlert_keeps | apply Keeps.ite
      | apply OutKeeps.ite)

theorem State.stepRevote_keeps {s0 s : State} {p : Part} {was : Option Nat} (h : Keeps s0 s) :
    Keeps s0 (State.stepRevote s p was) := by
  unfold State.stepRevote
  try dsimp only
  with_reducible repeat'
    (first
      | intro _ | assumption | apply State.stepAdvance_keeps | apply State.resendHeld_keeps | apply State.countP_keeps
      | apply State.sendStepAll_keeps | apply State.resendLast_keeps | apply Keeps.ite | dsimp only | split)

theorem State.clearLost_keeps {s0 s : State} {p : Part} (h : Keeps s0 s) :
    Keeps s0 (State.clearLost s p) := by
  unfold State.clearLost
  try dsimp only
  with_reducible repeat' (first | intro _ | assumption | apply State.setRb_keeps | apply State.resetRegs_keeps)

theorem State.dropOld_keeps {s0 s : State} {p : Part} (h : Keeps s0 s) : Keeps s0 (State.dropOld s p) := by
  unfold State.dropOld
  try dsimp only
  with_reducible repeat' (first | intro _ | assumption | apply State.count_keeps | apply State.discard_keeps)

theorem State.mapInstall_keeps {s0 s : State} {p : Part} (h : Keeps s0 s) : Keeps s0 (State.mapInstall s p) := by
  unfold State.mapInstall
  try dsimp only
  with_reducible repeat'
    (first
      | intro _ | assumption | apply State.clearLost_keeps | apply State.dropOld_keeps | apply State.onCtl_keeps
      | apply State.setRb_keeps | apply State.setReg_keeps | apply State.setRf_keeps | apply Keeps.onWgh
      | apply Keeps.ite | dsimp only | split | apply Keeps.foldl)

theorem State.imgFetch_keeps {s0 s : State} {p : Part} {a : Nat} {len : Nat} (h : Keeps s0 s) :
    Keeps s0 (State.imgFetch s p a len) := by
  unfold State.imgFetch
  try dsimp only
  with_reducible repeat'
    (first
      | intro _ | assumption | apply State.decodeWord_keeps | apply State.refuseAt_keeps | apply State.charge_keeps
      | apply Keeps.ite | apply Keeps.foldl)

theorem State.imgRead_keeps {s0 s : State} {p : Part} (h : Keeps s0 s) :
    Keeps s0 (State.imgRead s p) := by
  unfold State.imgRead
  try dsimp only
  with_reducible repeat'
    (first
      | intro _ | assumption | apply State.imgFetch_keeps | apply Keeps.ite | apply Keeps.foldl)

theorem State.mapWrite_keeps {s0 s : State} {p : Part} (h : Keeps s0 s) :
    Keeps s0 (State.mapWrite s p) := by
  unfold State.mapWrite
  try dsimp only
  with_reducible repeat'
    (first
      | intro _ | assumption | apply State.imgRead_keeps | apply State.mapInstall_keeps | apply State.setRf_keeps
      | apply State.setRb_keeps | apply Keeps.ite | dsimp only | split | apply Keeps.foldl
      | fail_if_no_progress apply Keeps.lit)

theorem execInstall_keeps {s0 : State} {p : Part} {s : State} (h : Keeps s0 s) :
    OutKeeps s0 (execInstall p s) := by
  unfold execInstall
  try dsimp only
  with_reducible repeat' (first | intro _ | assumption | apply State.byCore_keeps | apply OutKeeps.next | apply State.mapWrite_keeps)

end Sys2Proof.Machine
end

