-- ==== Sys2Proof/Laws/KeepsMirror.lean ====
section
/-! SUPPORT. The operations of Machine.Mirror keep the queue of commands and the invariant. -/

namespace Sys2Proof.Machine

theorem State.sendMir_keeps {s0 s : State} {p : Part} {mod op off : Nat} {payload : List Byte} (h : Keeps s0 s) :
    Keeps s0 (State.sendMir s p mod op off payload) := State.send_keeps h

theorem State.mirStart_keeps {s0 s : State} {p : Part} (h : Keeps s0 s) :
    Keeps s0 (State.mirStart s p) := by
  unfold State.mirStart
  try dsimp only
  with_reducible repeat'
    (first
      | intro _ | assumption | apply State.setRb_keeps | apply State.setTx_keeps | apply State.setRf_keeps
      | apply State.sendMir_keeps | apply Keeps.ite)

theorem execMirStart_keeps {s0 : State} {p : Part} {s : State} (h : Keeps s0 s) :
    OutKeeps s0 (execMirStart p s) := by
  unfold execMirStart
  try dsimp only
  with_reducible repeat' (first | intro _ | assumption | apply OutKeeps.next | apply State.mirStart_keeps)

theorem State.writeMirCtl_keeps {s0 s : State} {p : Part} {v : Word} (h : Keeps s0 s) :
    Keeps s0 (State.writeMirCtl s p v) := by
  unfold State.writeMirCtl
  try dsimp only
  with_reducible repeat'
    (first
      | intro _ | assumption | apply State.writeReg_keeps | apply State.mirStart_keeps | apply Keeps.ite)

theorem State.readView_keeps {s0 s : State} {p : Part} {n : Fin 4} {page : Nat} (h : Keeps s0 s) :
    Keeps s0 (State.readView s p n page).2 := by
  unfold State.readView
  try dsimp only
  with_reducible repeat'
    (first
      | intro _ | assumption | apply State.refuseAt_keeps | apply State.decodeRange_keeps | apply Keeps.ite
      | apply Keeps.foldl)

theorem State.mirSend_keeps {s0 s : State} {p : Part} {n : Fin 4} {page : Nat} (h : Keeps s0 s) :
    Keeps s0 (State.mirSend s p n page) := by
  unfold State.mirSend
  try dsimp only
  with_reducible repeat'
    (first
      | intro _ | assumption | apply State.readView_keeps | apply State.countP_keeps | apply State.mirEnd_keeps
      | apply State.sendMir_keeps | apply State.setRf_keeps | apply State.setTx_keeps | apply State.slotsUsed_keeps
      | apply Keeps.ite | dsimp only | split | apply Keeps.foldl)

theorem State.mirManifest_keeps {s0 s : State} {p : Part} (h : Keeps s0 s) :
    Keeps s0 (State.mirManifest s p) := by
  unfold State.mirManifest
  try dsimp only
  with_reducible repeat'
    (first
      | intro _ | assumption | apply State.mirEnd_keeps | apply State.setTx_keeps | apply State.sendMir_keeps
      | apply Keeps.ite | dsimp only | split)

theorem State.mirView_keeps {s0 s : State} {p : Part} {n : Fin 4} {addr : Nat} (h : Keeps s0 s) :
    Keeps s0 (State.mirView s p n addr) :=
  Keeps.ite (fun _ => State.mirManifest_keeps (State.mirSend_keeps h)) fun _ => h

theorem State.mirPut_keeps {s0 s : State} {a : Nat} {l : List Byte} (h : Keeps s0 s) : Keeps s0 (s.mirPut a l) := by
  unfold State.mirPut
  exact Keeps.ite (fun _ => State.refuseHub_keeps h) fun _ =>
    Keeps.foldl ((h.mem fun hw => mwrite_wf _ _ hw).marks fun hw => twf_tclear _ _ hw) fun _ _ k => State.slotsUsed_keeps k

theorem State.mirGet_keeps {s0 s : State} {a : Nat} {len : Nat} (h : Keeps s0 s) :
    Keeps s0 (State.mirGet s a len) := by
  unfold State.mirGet
  try dsimp only
  with_reducible repeat'
    (first
      | intro _ | assumption | apply State.refuseHub_keeps | apply State.decodeRange_keeps
      | apply State.slotsUsed_keeps | apply Keeps.ite)

theorem State.mirBlank_keeps {s0 s : State} {a : Nat} (h : Keeps s0 s) : Keeps s0 (s.mirBlank a) :=
  State.slotsUsed_keeps ((h.mem fun hw => twf_tclear _ _ hw).marks fun hw => twf_tclear _ _ hw)

theorem execMirrorBeginReceive_keeps {s0 s : State} (h : Keeps s0 s) : OutKeeps s0 (execMirrorBeginReceive s) := by
  have g : OptSndKeeps s0 (s.takePacket fun x => isOp clsMgmt opMirBegin x) := State.takePacket_keeps h
  unfold execMirrorBeginReceive
  split
  · exact h
  · rename_i he
    have ht := OptSndKeeps.get he g
    split
    · exact ht
    · exact OutKeeps.next (State.onBulk_keeps (State.mirPut_keeps (State.mirBlank_keeps
        (State.mirGet_keeps (State.mirGet_keeps ht)))))

theorem State.mirMarks_keeps {s0 s : State} {a : Nat} {l : List Byte} (h : Keeps s0 s) :
    Keeps s0 (State.mirMarks s a l) := by
  unfold State.mirMarks
  try dsimp only
  with_reducible repeat'
    (first
      | intro _ | assumption | apply State.setMark_keeps | apply Keeps.ite | apply Keeps.foldl)

theorem State.mirPiece_keeps {s0 s : State} (h : Keeps s0 s) :
    Keeps s0 (State.mirPiece s) := by
  unfold State.mirPiece
  try dsimp only
  with_reducible repeat'
    (first
      | intro _ | assumption | apply State.mirMarks_keeps | apply State.takePacket_keeps | apply State.onBulk_keeps
      | apply State.mirPut_keeps | apply Keeps.ite | dsimp only | split | apply Keeps.foldl
      | refine OptSndKeeps.get (by assumption) ?_)

theorem execMirrorPageReceive_keeps {s0 s : State} (h : Keeps s0 s) :
    OutKeeps s0 (execMirrorPageReceive s) := by
  unfold execMirrorPageReceive
  try dsimp only
  with_reducible repeat'
    (first
      | intro _ | assumption | apply OutKeeps.next | apply State.mirPiece_keeps | apply Keeps.ite | apply OutKeeps.ite
      | dsimp only | split | apply Keeps.foldl)

theorem execMirrorManifestReceive_keeps {s0 s : State} (h : Keeps s0 s) :
    OutKeeps s0 (execMirrorManifestReceive s) := by
  unfold execMirrorManifestReceive
  try dsimp only
  with_reducible repeat'
    (first
      | intro _ | assumption | apply State.mirGet_keeps | apply OutKeeps.next | apply State.takePacket_keeps
      | apply State.send_keeps | apply State.onBulk_keeps | apply State.mirPut_keeps | apply Keeps.ite | apply OutKeeps.ite
      | dsimp only | split | apply Keeps.foldl | refine OptSndKeeps.get (by assumption) ?_)

theorem execMirrorAckReceive_keeps {s0 : State} {p : Part} {s : State} (h : Keeps s0 s) :
    OutKeeps s0 (execMirrorAckReceive p s) := by
  unfold execMirrorAckReceive
  try dsimp only
  with_reducible repeat'
    (first
      | intro _ | assumption | apply OutKeeps.next | apply State.takePacket_keeps | apply State.mirEnd_keeps
      | apply State.setRf_keeps | apply Keeps.ite | apply OutKeeps.ite | dsimp only | split | apply Keeps.foldl
      | refine OptSndKeeps.get (by assumption) ?_)

theorem execMirrorAckTimeout_keeps {s0 : State} {p : Part} {s : State} (h : Keeps s0 s) :
    OutKeeps s0 (execMirrorAckTimeout p s) := by
  unfold execMirrorAckTimeout
  try dsimp only
  with_reducible repeat'
    (first
      | intro _ | assumption | apply OutKeeps.next | apply State.mirEnd_keeps | apply Keeps.ite | apply OutKeeps.ite
      | dsimp only | split)

theorem State.writeMirRx_keeps {s0 s : State} {v : Word} (h : Keeps s0 s) :
    Keeps s0 (State.writeMirRx s v) := by
  unfold State.writeMirRx
  try dsimp only
  with_reducible repeat' (first | intro _ | assumption | apply State.writeReg_keeps | apply Keeps.ite)

theorem State.writeMirRxEven_keeps {s0 s : State} {v : Word} (h : Keeps s0 s) :
    Keeps s0 (State.writeMirRxEven s v) := by
  unfold State.writeMirRxEven
  try dsimp only
  with_reducible repeat' (first | intro _ | assumption | apply State.writeMirRx_keeps)

theorem execMirRxWrite_keeps {s0 : State} {v : Word} {s : State} (h : Keeps s0 s) :
    OutKeeps s0 (execMirRxWrite v s) := by
  unfold execMirRxWrite
  try dsimp only
  with_reducible repeat' (first | intro _ | assumption | apply OutKeeps.next | apply State.writeMirRxEven_keeps)

end Sys2Proof.Machine
end

