-- ==== Sys2Proof/Laws/KeepsLinks.lean ====
section
/-! SUPPORT. The operations of Machine.Links keep the queue of commands and the invariant. -/

namespace Sys2Proof.Machine

theorem State.noteSettings_keeps {s0 s : State} {key : Nat} {lanes : List Nat} {eq : Word} (h : Keeps s0 s) :
    Keeps s0 (State.noteSettings s key lanes eq) := by
  unfold State.noteSettings
  exact State.onMgmt_keeps h

theorem State.setStage_keeps {s0 s : State} {n : Nat} (h : Keeps s0 s) : Keeps s0 (State.setStage s n) :=
  State.setRf_keeps h

theorem State.noteTrained_keeps {s0 s : State} (h : Keeps s0 s) : Keeps s0 (State.noteTrained s) :=
  Keeps.ite (fun _ => State.setStage_keeps h) fun _ => h

theorem State.portDone_keeps {s0 s : State} {n : PortNo} (h : Keeps s0 s) : Keeps s0 (s.portDone n) :=
  State.noteTrained_keeps (State.onMgmt_keeps h)

theorem State.portRecord_keeps {s0 s : State} {n : PortNo} {event : Nat} {lane : Nat} {syn : Word} (h : Keeps s0 s) :
    Keeps s0 (State.portRecord s n event lane syn) := by
  unfold State.portRecord
  try dsimp only
  with_reducible repeat' (first | intro _ | assumption | apply State.emit_keeps)

theorem execPortTraining_keeps {s0 : State} {n : PortNo} {badLanes : List Nat} {peerMod : BitVec 13}
    {peerPort : BitVec 4} {s : State} (h : Keeps s0 s) :
    OutKeeps s0 (execPortTraining n badLanes peerMod peerPort s) := by
  unfold execPortTraining
  try dsimp only
  with_reducible repeat'
    (first
      | intro _ | assumption | apply State.portDone_keeps | apply State.drawBool_keeps | apply State.drawWord_keeps
      | apply OutKeeps.next | apply State.setRb_keeps | apply State.setRf_keeps | apply State.planChanged_keeps
      | apply State.noteFault_keeps | apply State.noteSettings_keeps | apply State.onPort_keeps | apply Keeps.ite
      | apply OutKeeps.ite | dsimp only | split)

theorem execLaneWindowEnd_keeps {s0 : State} {n : PortNo} {lane : Nat} {errors : Nat} {s : State} (h : Keeps s0 s) :
    OutKeeps s0 (execLaneWindowEnd n lane errors s) := by
  unfold execLaneWindowEnd
  try dsimp only
  with_reducible repeat'
    (first
      | intro _ | assumption | apply OutKeeps.next | apply State.portRecord_keeps | apply State.setRb_keeps
      | apply Keeps.ite | apply OutKeeps.ite)

theorem execFrameTransmit_keeps {s0 : State} {n : PortNo} {s : State} (h : Keeps s0 s) :
    OutKeeps s0 (execFrameTransmit n s) := by
  unfold execFrameTransmit
  try dsimp only
  with_reducible repeat'
    (first
      | intro _ | assumption | apply OutKeeps.next | apply State.onPort_keeps | apply State.countH_keeps
      | apply Keeps.ite | apply OutKeeps.ite | dsimp only | split)

theorem State.arrive_keeps {s0 s : State} {n : PortNo} {pkt : Packet} (h : Keeps s0 s) :
    Keeps s0 (State.arrive s n pkt) := by
  unfold State.arrive
  try dsimp only
  with_reducible repeat'
    (first
      | intro _ | assumption | apply State.deliver_keeps | apply State.dropRoute_keeps | apply State.forward_keeps
      | apply State.freed_keeps | apply Keeps.ite | dsimp only | split)

theorem execFrameReceive_keeps {s0 : State} {n : PortNo} {fr : Frame} {s : State} (h : Keeps s0 s) :
    OutKeeps s0 (execFrameReceive n fr s) := by
  unfold execFrameReceive
  try dsimp only
  with_reducible repeat'
    (first
      | intro _ | assumption | apply OutKeeps.next | apply State.countH_keeps | apply State.onPort_keeps
      | apply State.arrive_keeps | apply Keeps.ite | apply OutKeeps.ite)

theorem execCreditReturn_keeps {s0 : State} {n : PortNo} {cls : Fin 5} {units : Nat} {s : State} (h : Keeps s0 s) :
    OutKeeps s0 (execCreditReturn n cls units s) := by
  unfold execCreditReturn
  try dsimp only
  with_reducible repeat' (first | intro _ | assumption | apply OutKeeps.next | apply State.onPort_keeps)

theorem State.floodLost_keeps {s0 s : State} {p : Part} {x2 : Nat} {but : Option PortNo} (h : Keeps s0 s) :
    Keeps s0 (State.floodLost s p x2 but) := by
  unfold State.floodLost
  try dsimp only
  with_reducible repeat'
    (first
      | intro _ | assumption | apply State.enqueue_keeps | apply Keeps.ite | dsimp only | split | apply Keeps.foldl)

theorem State.benchLost_keeps {s0 s : State} {p : Part} {x2 : Nat} {b : Bid} (h : Keeps s0 s) :
    Keeps s0 (State.benchLost s p x2 b) := by
  unfold State.benchLost
  try dsimp only
  with_reducible repeat'
    (first
      | intro _ | assumption | apply State.failRunning_keeps | apply State.fault_keeps | apply State.wghLost_keeps
      | apply Keeps.ite | dsimp only | split | apply Keeps.foldl)

theorem State.markLost_keeps {s0 s : State} {p : Part} {x : Nat} {but : Option PortNo} (h : Keeps s0 s) :
    Keeps s0 (State.markLost s p x but) := by
  unfold State.markLost
  try dsimp only
  with_reducible repeat'
    (first
      | intro _ | assumption | apply State.benchLost_keeps | apply State.floodLost_keeps | apply State.mirEnd_keeps
      | apply State.onCtl_keeps | apply State.setReg_keeps | apply State.stepRevote_keeps | apply Keeps.ite
      | dsimp only | split | apply Keeps.foldl)

theorem State.markSelf_keeps {s0 s : State} {p : Part} (h : Keeps s0 s) :
    Keeps s0 (State.markSelf s p) := by
  unfold State.markSelf
  try dsimp only
  with_reducible repeat'
    (first
      | intro _ | assumption | apply State.setRb_keeps | apply State.decideStep_keeps | apply Keeps.ite)

theorem execLost_keeps {s0 s : State} (h : Keeps s0 s) :
    OutKeeps s0 (execLost s) := by
  unfold execLost
  try dsimp only
  with_reducible repeat'
    (first
      | intro _ | assumption | apply OutKeeps.next | apply State.takePacket_keeps | apply State.markSelf_keeps
      | apply State.markLost_keeps | apply Keeps.ite | apply OutKeeps.ite | dsimp only | split | apply Keeps.foldl
      | refine OptSndKeeps.get (by assumption) ?_)

theorem State.portDrop_keeps {s0 s : State} {n : PortNo} {cause : Nat} (h : Keeps s0 s) :
    Keeps s0 (State.portDrop s n cause) := by
  unfold State.portDrop
  try dsimp only
  with_reducible repeat'
    (first
      | intro _ | assumption | apply State.setRf_keeps | apply State.onPort_keeps | apply State.emit_keeps
      | apply State.markLost_keeps | apply Keeps.ite | dsimp only | split)

theorem execPortDown_keeps {s0 : State} {n : PortNo} {cause : Fin 3} {s : State} (h : Keeps s0 s) :
    OutKeeps s0 (execPortDown n cause s) := by
  unfold execPortDown
  try dsimp only
  with_reducible repeat' (first | intro _ | assumption | apply OutKeeps.next | apply State.portDrop_keeps)

theorem execNakReceive_keeps {s0 : State} {n : PortNo} {expected : BitVec 12} {s : State} (h : Keeps s0 s) :
    OutKeeps s0 (execNakReceive n expected s) := by
  unfold execNakReceive
  try dsimp only
  with_reducible repeat'
    (first
      | intro _ | assumption | apply OutKeeps.next | apply State.onPort_keeps | apply State.countH_keeps
      | apply State.portDrop_keeps | apply Keeps.ite | apply OutKeeps.ite | dsimp only | split)

theorem State.writeRoute_keeps {s0 s : State} {p : Part} {i : Nat} {v : Word} {l : List Nat} (h : Keeps s0 s) :
    Keeps s0 (State.writeRoute s p i v l) := by
  unfold State.writeRoute
  try dsimp only
  with_reducible repeat'
    (first
      | intro _ | assumption | apply State.setRb_keeps | apply State.setReg_keeps | apply Keeps.ite | dsimp only
      | split | apply Keeps.foldl)

theorem execFabRouteWrite_keeps {s0 : State} {p : Part} {i : BitVec 10} {v : Word} {s : State} (h : Keeps s0 s) :
    OutKeeps s0 (execFabRouteWrite p i v s) := by
  unfold execFabRouteWrite
  try dsimp only
  with_reducible repeat' (first | intro _ | assumption | apply OutKeeps.next | apply State.writeRoute_keeps)

theorem State.writeTree_keeps {s0 s : State} {p : Part} {v : Word} (h : Keeps s0 s) :
    Keeps s0 (State.writeTree s p v) := by
  unfold State.writeTree
  try dsimp only
  with_reducible repeat'
    (first
      | intro _ | assumption | apply State.setRb_keeps | apply State.writeReg_keeps | apply Keeps.ite)

theorem execFabTreeWrite_keeps {s0 : State} {p : Part} {v : Word} {s : State} (h : Keeps s0 s) :
    OutKeeps s0 (execFabTreeWrite p v s) := by
  unfold execFabTreeWrite
  try dsimp only
  with_reducible repeat' (first | intro _ | assumption | apply OutKeeps.next | apply State.writeTree_keeps)

end Sys2Proof.Machine
end

