-- ==== Sys2Proof/Laws/KeepsResets.lean ====
section
/-! SUPPORT. The operations of Machine.Resets keep the queue of commands and the invariant. -/

namespace Sys2Proof.Machine

theorem execBckRateCommand_keeps {s0 : State} {b : Bid} {s : State} (h : Keeps s0 s) :
    OutKeeps s0 (execBckRateCommand b s) := by
  unfold execBckRateCommand
  try dsimp only
  with_reducible repeat' (first | intro _ | assumption | apply OutKeeps.next | apply State.setRf_keeps)

theorem execBckRateSwitch_keeps {s0 : State} {b : Bid} {s : State} (h : Keeps s0 s) :
    OutKeeps s0 (execBckRateSwitch b s) := by
  unfold execBckRateSwitch
  try dsimp only
  with_reducible repeat'
    (first
      | intro _ | assumption | apply OutKeeps.next | apply State.countB_keeps | apply State.setRf_keeps
      | apply Keeps.ite)

theorem State.stopProofs_keeps {s0 s : State} {covers : UnitId → Bool} (h : Keeps s0 s) :
    Keeps s0 (State.stopProofs s covers) := by
  unfold State.stopProofs
  try dsimp only
  with_reducible repeat'
    (first
      | intro _ | assumption | apply Keeps.ite | dsimp only | split | apply Keeps.foldl
      | fail_if_no_progress apply Keeps.lit)

theorem State.resetPlan_keeps {s0 s : State} {covers : UnitId → Bool} (h : Keeps s0 s) :
    Keeps s0 (State.resetPlan s covers) := by
  unfold State.resetPlan
  try dsimp only
  with_reducible repeat'
    (first
      | intro _ | assumption | apply State.retire_keeps | apply State.planChanged_keeps | apply Keeps.ite | dsimp only
      | split | apply Keeps.foldl | fail_if_no_progress apply Keeps.lit)

theorem State.resetVote_keeps {s0 s : State} {b : Bid} (h : Keeps s0 s) :
    Keeps s0 (State.resetVote s b) := by
  unfold State.resetVote
  try dsimp only
  with_reducible repeat'
    (first
      | intro _ | assumption | apply State.castVote_keeps | apply State.errVote_keeps | apply Keeps.ite | dsimp only
      | split)

theorem State.killIds_keeps {s0 s : State} {b : Bid} {q : Fin 8} {ids : List Nat} (h : Keeps s0 s) :
    Keeps s0 (State.killIds s b q ids) := by
  unfold State.killIds
  try dsimp only
  with_reducible repeat'
    (first
      | intro _ | assumption | apply State.flushDeposits_keeps | apply State.completed_keeps | apply Keeps.onBench | apply Keeps.ite
      | exact BenchKeeps.same rfl | apply BenchKeeps.fm | exact FmKeeps.same rfl rfl rfl rfl rfl
      | exact Foreman.setS_sound | exact Foreman.setP_sound | exact Foreman.setT_sound
      | refine FmKeeps.trans ?_ Foreman.setS_sound | refine FmKeeps.trans ?_ Foreman.setT_sound
      | exact FmKeeps.fewer rfl rfl (by simp) (by simp) (by simp) | dsimp only | split | apply Keeps.foldl)

theorem State.resetArray_keeps {s0 s : State} {b : Bid} {u : Fin 12} (h : Keeps s0 s) :
    Keeps s0 (State.resetArray s b u) := by
  unfold State.resetArray
  try dsimp only
  with_reducible repeat'
    (first
      | intro _ | assumption | apply State.completed_keeps | apply Keeps.setArr | apply Keeps.ite | dsimp only | split
      | apply Keeps.foldl)

theorem State.resetWgh_keeps {s0 s : State} {b : Bid} {abandons : Bool} (h : Keeps s0 s) :
    Keeps s0 (State.resetWgh s b abandons) := by
  unfold State.resetWgh
  try dsimp only
  with_reducible repeat'
    (first
      | intro _ | assumption | apply State.abandonAll_keeps | apply State.completed_keeps | apply Keeps.onWgh
      | apply Keeps.ite | dsimp only | split | apply Keeps.foldl)

theorem State.resetStk_keeps {s0 s : State} {b : Bid} (h : Keeps s0 s) :
    Keeps s0 (State.resetStk s b) := by
  unfold State.resetStk
  try dsimp only
  with_reducible repeat'
    (first
      | intro _ | assumption | apply State.resetRegs_keeps | apply Keeps.onBench | apply Keeps.ite
      | exact BenchKeeps.same rfl)

theorem State.wakeCores_keeps {s0 s : State} {covers : UnitId → Bool} (h : Keeps s0 s) :
    Keeps s0 (State.wakeCores s covers) := by
  unfold State.wakeCores
  try dsimp only
  with_reducible repeat' (first | intro _ | assumption | dsimp only | split | fail_if_no_progress apply Keeps.lit)

theorem State.engineReset_keeps {s0 s : State} {b : Bid} {cls i : Nat} (h : Keeps s0 s) :
    Keeps s0 (State.engineReset s b cls i) := by
  unfold State.engineReset
  try dsimp only
  with_reducible repeat'
    (first
      | intro _ | assumption | apply State.assign_keeps | apply State.killIds_keeps | apply State.resetArray_keeps
      | apply State.resetStk_keeps | apply State.resetVote_keeps | apply State.resetWgh_keeps | apply State.stopProofs_keeps
      | apply State.wakeCores_keeps | apply Keeps.ite | dsimp only | split)

theorem State.wipeBench_keeps {s0 s : State} {b : Bid} (h : Keeps s0 s) : Keeps s0 (s.wipeBench b) :=
  State.setReg_keeps (State.resetRegs_keeps (State.resetRegs_keeps (h.onBench fun _ _ => Foreman.reset_sound)))

theorem State.showCommit_keeps {s0 s : State} {b : Bid} {v : Bool} (h : Keeps s0 s) :
    Keeps s0 (State.showCommit s b v) := by
  unfold State.showCommit
  try dsimp only
  with_reducible repeat' (first | intro _ | assumption | apply State.setRf_keeps | apply Keeps.ite | dsimp only | split)

theorem State.benchReset_keeps {s0 s : State} {b : Bid} (h : Keeps s0 s) : Keeps s0 (State.benchReset s b) := by
  unfold State.benchReset
  try dsimp only
  with_reducible repeat'
    (first
      | intro _ | assumption | apply State.barsRest_keeps | apply State.resetPlan_keeps | apply State.resetVote_keeps
      | apply State.resetWgh_keeps | apply State.showCommit_keeps | apply State.stopProofs_keeps
      | apply State.wakeCores_keeps | apply State.wipeBench_keeps)

theorem State.resetStep_keeps {s0 s : State} {p : Part} (h : Keeps s0 s) :
    Keeps s0 (State.resetStep s p) := by
  unfold State.resetStep
  try dsimp only
  with_reducible repeat' (first | intro _ | assumption | apply State.onCtl_keeps | apply State.resetRegs_keeps)

theorem State.resetBar_keeps {s0 s : State} {p : Part} (h : Keeps s0 s) :
    Keeps s0 (State.resetBar s p) := by
  unfold State.resetBar
  try dsimp only
  with_reducible repeat'
    (first
      | intro _ | assumption | apply State.onBar_keeps | apply State.resetRegs_keeps | apply Keeps.ite | dsimp only
      | split | apply Keeps.foldl | fail_if_no_progress apply Keeps.lit)

theorem State.resetSets_keeps {s0 s : State} {p : Part} (h : Keeps s0 s) :
    Keeps s0 (State.resetSets s p) := by
  unfold State.resetSets
  try dsimp only
  with_reducible repeat'
    (first
      | intro _ | assumption | apply State.setRb_keeps | apply State.setTx_keeps | apply State.freeSet_keeps
      | apply State.onBulk_keeps | apply State.setReg_keeps | apply Keeps.ite | dsimp only | split | apply Keeps.foldl)

theorem State.resetQueue_keeps {s0 s : State} {q : Nat} (h : Keeps s0 s) :
    Keeps s0 (State.resetQueue s q) := by
  unfold State.resetQueue
  try dsimp only
  with_reducible repeat'
    (first
      | intro _ | assumption | apply State.resetRegs_keeps | apply State.setHq_keeps | apply State.setRf_keeps)

theorem State.resetHost_keeps {s0 s : State} {p : Part} (h : Keeps s0 s) :
    Keeps s0 (State.resetHost s p) := by
  unfold State.resetHost
  try dsimp only
  with_reducible repeat'
    (first
      | intro _ | assumption | apply State.abortQueues_keeps | apply State.resetQueue_keeps
      | apply State.resetRegs_keeps | apply Keeps.ite | dsimp only | split | apply Keeps.foldl)

theorem State.resetRing_keeps {s0 s : State} {p : Part} (h : Keeps s0 s) :
    Keeps s0 (State.resetRing s p) := by
  unfold State.resetRing
  try dsimp only
  with_reducible repeat'
    (first
      | intro _ | assumption | apply State.setRb_keeps | apply Keeps.ite | dsimp only | split | apply Keeps.foldl
      | fail_if_no_progress apply Keeps.lit)

theorem State.resetPlumb_keeps {s0 s : State} {p : Part} (h : Keeps s0 s) :
    Keeps s0 (State.resetPlumb s p) := by
  unfold State.resetPlumb
  try dsimp only
  with_reducible repeat' (first | intro _ | assumption | apply State.resetRegs_keeps | apply State.onPlumb_keeps)

theorem State.resetPart_keeps {s0 s : State} {p : Part} (h : Keeps s0 s) : Keeps s0 (State.resetPart s p) := by
  unfold State.resetPart
  try dsimp only
  with_reducible repeat'
    (first
      | intro _ | assumption | apply State.discard_keeps | apply State.dropRoles_keeps | apply State.resetBar_keeps
      | apply State.resetHost_keeps | apply State.resetPlumb_keeps | apply State.resetRegs_keeps
      | apply State.resetRing_keeps | apply State.resetSets_keeps | apply State.resetStep_keeps
      | apply State.setRf_keeps)

theorem State.partReset_keeps {s0 s : State} {p : Part} (h : Keeps s0 s) :
    Keeps s0 (State.partReset s p) := by
  unfold State.partReset
  try dsimp only
  with_reducible repeat'
    (first
      | intro _ | assumption | apply State.resetWgh_keeps | apply State.onCtl_keeps | apply State.resetRegs_keeps
      | apply State.benchReset_keeps | apply State.resetPart_keeps | apply Keeps.ite | dsimp only | split
      | apply Keeps.foldl)

theorem State.dropStaging_keeps {s0 s : State} (h : Keeps s0 s) :
    Keeps s0 (State.dropStaging s) := by
  unfold State.dropStaging
  try dsimp only
  with_reducible repeat'
    (first
      | intro _ | assumption | apply Keeps.ite | dsimp only | split | apply Keeps.foldl
      | fail_if_no_progress apply Keeps.lit)

theorem State.resetMgmt_keeps {s0 s : State} (h : Keeps s0 s) :
    Keeps s0 (State.resetMgmt s) := by
  unfold State.resetMgmt
  try dsimp only
  with_reducible repeat'
    (first
      | intro _ | assumption | apply State.dropStaging_keeps | apply State.setRf_keeps | apply Keeps.ite | dsimp only
      | split | apply Keeps.foldl | fail_if_no_progress apply Keeps.lit)

theorem State.leaveStandby_keeps {s0 s : State} (h : Keeps s0 s) : Keeps s0 s.leaveStandby :=
  Keeps.ite (fun _ => State.setRf_keeps h) fun _ => h

theorem State.moduleReset_keeps {s0 s : State} (h : Keeps s0 s) : Keeps s0 s.moduleReset := by
  have hz : Keeps s0 (s.bulk.zeroing.foldl (fun (s : State) e => s.zeroRow e.1) s) :=
    h.foldl fun _ _ h => State.zeroRow_keeps h
  have h1 := hz.foldl (l := allParts) (f := fun (s : State) p =>
    (s.onCtl p fun _ => StepCtl.reset).setRb (K.MIR_CTL p) F.MIR_CTL_BUSY false)
    fun _ _ h => State.setRb_keeps (State.onCtl_keeps h)
  have h2 := h1.foldl (l := allBids) (f := fun (s : State) b =>
    (((s.resetWgh b false).benchReset b).resetRegs (K.WGH_RESID b) (K.WGH_RESID b + 1)).resetRegs (K.IMEM b 0)
      (K.IMEM b 32768)) fun _ _ h =>
    State.resetRegs_keeps (State.resetRegs_keeps (State.benchReset_keeps (State.resetWgh_keeps h)))
  have h3 := h2.foldl (l := allParts) (f := fun (s : State) p => s.resetPart p) fun _ _ h => State.resetPart_keeps h
  have h4 := State.wakeCores_keeps (covers := fun _ => true) (State.stopProofs_keeps (covers := fun _ => true) h3)
  have h5 := State.resetPlan_keeps (covers := fun u => (unitBench u).isNone) h4
  exact State.leaveStandby_keeps (State.reseat_keeps
    (State.resetMgmt_keeps (State.setRf_keeps (State.setRf_keeps (Keeps.lit (h5.regs fun hw => twf_filter _ hw))))))

theorem State.noteReset_keeps {s0 s : State} {scope : Nat} {cause : Nat} (h : Keeps s0 s) :
    Keeps s0 (State.noteReset s scope cause) := by
  unfold State.noteReset
  try dsimp only
  with_reducible repeat' (first | intro _ | assumption | apply State.setRf_keeps)

theorem State.holdClock_keeps {s0 s : State} {r : ResetReq} {on : Bool} (h : Keeps s0 s) :
    Keeps s0 (State.holdClock s r on) := by
  unfold State.holdClock
  try dsimp only
  with_reducible repeat'
    (first
      | intro _ | assumption | apply State.setRb_keeps | apply Keeps.ite | dsimp only | split | apply Keeps.foldl)

theorem State.performReset_keeps {s0 s : State} {r : ResetReq} (h : Keeps s0 s) :
    Keeps s0 (State.performReset s r) := by
  unfold State.performReset
  try dsimp only
  with_reducible repeat'
    (first
      | intro _ | assumption | apply State.holdClock_keeps | apply State.engineReset_keeps
      | apply State.benchReset_keeps | apply State.partReset_keeps | apply State.moduleReset_keeps
      | apply State.noteReset_keeps | apply Keeps.ite | dsimp only | split)

theorem State.requestReset_keeps {s0 s : State} {r : ResetReq} (h : Keeps s0 s) :
    Keeps s0 (State.requestReset s r) := by
  unfold State.requestReset
  try dsimp only
  with_reducible repeat'
    (first
      | intro _ | assumption | apply State.setRb_keeps | apply State.errVote_keeps | apply State.performReset_keeps
      | apply Keeps.ite | dsimp only | split | apply Keeps.foldl | fail_if_no_progress apply Keeps.lit)

theorem State.rstRefused_keeps {s0 s : State} (h : Keeps s0 s) :
    Keeps s0 (State.rstRefused s) := by
  unfold State.rstRefused
  try dsimp only
  with_reducible repeat' (first | intro _ | assumption | apply State.setRb_keeps)

theorem execRstEngine_keeps {s0 s : State} {b : Bid} {cls : BitVec 6} {index : BitVec 4} {by_ : ResetBy}
    (h : Keeps s0 s) :
    OutKeeps s0 (execRstEngine b cls index by_ s) := by
  unfold execRstEngine
  try dsimp only
  with_reducible repeat'
    (first
      | intro _ | assumption | apply OutKeeps.next | apply State.requestReset_keeps | apply State.rstRefused_keeps
      | apply Keeps.ite)

theorem execRstBench_keeps {s0 s : State} {b : Bid} {by_ : ResetBy} (h : Keeps s0 s) :
    OutKeeps s0 (execRstBench b by_ s) := by
  unfold execRstBench
  try dsimp only
  with_reducible repeat' (first | intro _ | assumption | apply OutKeeps.next | apply State.requestReset_keeps)

theorem execRstPartition_keeps {s0 : State} {p : Part} {s : State} (h : Keeps s0 s) :
    OutKeeps s0 (execRstPartition p s) := by
  unfold execRstPartition
  try dsimp only
  with_reducible repeat' (first | intro _ | assumption | apply OutKeeps.next | apply State.requestReset_keeps)

theorem execRstModule_keeps {s0 s : State} (h : Keeps s0 s) :
    OutKeeps s0 (execRstModule s) := by
  unfold execRstModule
  try dsimp only
  with_reducible repeat' (first | intro _ | assumption | apply OutKeeps.next | apply State.requestReset_keeps)

theorem execPerst_keeps {s0 : State} {port : Fin 4} {asserted : BitVec 4} {s : State} (h : Keeps s0 s) :
    OutKeeps s0 (execPerst port asserted s) := by
  unfold execPerst
  try dsimp only
  with_reducible repeat'
    (first
      | intro _ | assumption | apply State.onHport_keeps | apply OutKeeps.next | apply State.setReg_keeps
      | apply State.requestReset_keeps | apply State.setRf_keeps | apply Keeps.ite | apply OutKeeps.ite)

theorem execFunctionLevelReset_keeps {s0 : State} {p : Part} {s : State} (h : Keeps s0 s) :
    OutKeeps s0 (execFunctionLevelReset p s) := by
  unfold execFunctionLevelReset
  try dsimp only
  with_reducible repeat' (first | intro _ | assumption | apply OutKeeps.next | apply State.requestReset_keeps)

theorem execResetComplete_keeps {s0 s : State} (h : Keeps s0 s) : OutKeeps s0 (execResetComplete s) := by
  unfold execResetComplete
  try dsimp only
  with_reducible repeat'
    (first
      | intro _ | assumption | apply State.onMgmt_keeps | apply OutKeeps.next | apply State.crossed_keeps
      | apply State.holdClock_keeps | apply State.performReset_keeps | apply State.setRb_keeps | apply Keeps.ite
      | apply OutKeeps.ite | dsimp only | split | apply Keeps.foldl)

end Sys2Proof.Machine
end

