-- ==== Sys2Proof/Laws/KeepsPower.lean ====
section
/-! SUPPORT. The operations of Machine.Power keep the queue of commands and the invariant. -/

namespace Sys2Proof.Machine

theorem State.unpowered_keeps {s0 s : State} (h : Keeps s0 s) : Keeps s0 s.unpowered :=
  ⟨h.queue, fun _ => ⟨⟨⟨List.Pairwise.nil, by simp [State.unpowered, State.reset]⟩,
    ⟨List.Pairwise.nil, by simp [State.unpowered, State.reset]⟩, List.Pairwise.nil, by simp [State.unpowered, State.reset]⟩,
    fun b => by
      have : (s.unpowered.fm b) = Foreman.reset := by
        simp [State.unpowered, State.fm, State.bench, State.reset, Bench.reset]
      rw [this]; exact Foreman.reset_sound⟩⟩

theorem State.powerOn_keeps {s0 s : State} (h : Keeps s0 s) : Keeps s0 (State.powerOn s) := by
  unfold State.powerOn
  try dsimp only
  with_reducible repeat'
    (first
      | intro _ | assumption | apply State.retire_keeps | apply State.retired_keeps | apply State.unpowered_keeps
      | dsimp only | split | apply Keeps.foldl | fail_if_no_progress apply Keeps.lit)

theorem State.cryLost_keeps {s0 s : State} {p : Part} {n : PortNo} (h : Keeps s0 s) :
    Keeps s0 (State.cryLost s p n) := by
  unfold State.cryLost
  try dsimp only
  with_reducible repeat' (first | intro _ | assumption | apply State.onPort_keeps)

theorem State.cryAll_keeps {s0 s : State} (h : Keeps s0 s) :
    Keeps s0 (State.cryAll s) := by
  unfold State.cryAll
  try dsimp only
  with_reducible repeat'
    (first
      | intro _ | assumption | apply State.cryLost_keeps | apply Keeps.ite | dsimp only | split | apply Keeps.foldl)

theorem State.emergency_keeps {s0 s : State} {ucls : Nat} {index : Nat} {event : Nat} {reading : Nat}
    (h : Keeps s0 s) :
    Keeps s0 (State.emergency s ucls index event reading) := by
  unfold State.emergency
  try dsimp only
  with_reducible repeat'
    (first
      | intro _ | assumption | apply State.cryAll_keeps | apply State.drawWord_keeps | apply State.unpowered_keeps
      | apply Keeps.ite | dsimp only | split | apply Keeps.foldl | refine Keeps.snd (by assumption) ?_
      | fail_if_no_progress apply Keeps.lit)

theorem execInputVoltageFault_keeps {s0 : State} {mv : Nat} {s : State} (h : Keeps s0 s) :
    OutKeeps s0 (execInputVoltageFault mv s) := by
  unfold execInputVoltageFault
  try dsimp only
  with_reducible repeat'
    (first
      | intro _ | assumption | apply OutKeeps.next | apply State.emergency_keeps | apply Keeps.ite)

theorem execOvercurrentTrip_keeps {s0 : State} {ma : Nat} {s : State} (h : Keeps s0 s) :
    OutKeeps s0 (execOvercurrentTrip ma s) := by
  unfold execOvercurrentTrip
  try dsimp only
  with_reducible repeat'
    (first
      | intro _ | assumption | apply OutKeeps.next | apply State.emergency_keeps | apply Keeps.ite)

theorem execPrsntAssert_keeps {s0 s : State} (h : Keeps s0 s) :
    OutKeeps s0 (execPrsntAssert s) := by
  unfold execPrsntAssert
  try dsimp only
  with_reducible repeat'
    (first
      | intro _ | assumption | apply OutKeeps.next | apply Keeps.ite | apply OutKeeps.ite | dsimp only | split
      | apply Keeps.foldl | fail_if_no_progress apply Keeps.lit)

theorem execPrsntDebounceDone_keeps {s0 s : State} {bus vin : Nat} (h : Keeps s0 s) :
    OutKeeps s0 (execPrsntDebounceDone bus vin s) := by
  unfold execPrsntDebounceDone
  try dsimp only
  with_reducible repeat'
    (first
      | intro _ | assumption | apply OutKeeps.next | apply State.powerOn_keeps | apply Keeps.ite | apply OutKeeps.ite
      | dsimp only | split | fail_if_no_progress apply Keeps.lit)

theorem execPrsntBreak_keeps {s0 s : State} (h : Keeps s0 s) :
    OutKeeps s0 (execPrsntBreak s) := by
  unfold execPrsntBreak
  try dsimp only
  with_reducible repeat'
    (first
      | intro _ | assumption | apply OutKeeps.next | apply State.unpowered_keeps | apply State.cryAll_keeps
      | apply Keeps.ite | apply OutKeeps.ite | dsimp only | split | apply Keeps.foldl
      | fail_if_no_progress apply Keeps.lit)

theorem State.setPhase_keeps {s0 s : State} {n : Nat} (h : Keeps s0 s) :
    Keeps s0 (State.setPhase s n) := by
  unfold State.setPhase
  try dsimp only
  with_reducible repeat' (first | intro _ | assumption | apply State.setRf_keeps)

theorem State.removalStands_keeps {s0 s : State} (h : Keeps s0 s) :
    Keeps s0 (State.removalStands s) := by
  unfold State.removalStands
  try dsimp only
  with_reducible repeat'
    (first
      | intro _ | assumption | apply State.setPhase_keeps | apply State.setRb_keeps | apply State.raise_keeps
      | apply Keeps.ite | dsimp only | split | apply Keeps.foldl | fail_if_no_progress apply Keeps.lit)

theorem execAttnBtn_keeps {s0 s : State} (h : Keeps s0 s) :
    OutKeeps s0 (execAttnBtn s) := by
  unfold execAttnBtn
  try dsimp only
  with_reducible repeat'
    (first
      | intro _ | assumption | apply OutKeeps.next | apply Keeps.ite | apply OutKeeps.ite | dsimp only | split
      | apply Keeps.foldl | fail_if_no_progress apply Keeps.lit)

theorem execAttnWindowExpiry_keeps {s0 s : State} (h : Keeps s0 s) :
    OutKeeps s0 (execAttnWindowExpiry s) := by
  unfold execAttnWindowExpiry
  try dsimp only
  with_reducible repeat'
    (first
      | intro _ | assumption | apply OutKeeps.next | apply State.removalStands_keeps | apply Keeps.ite)

theorem State.judgeRelease_keeps {s0 s : State} (h : Keeps s0 s) : Keeps s0 (State.judgeRelease s) := by
  unfold State.judgeRelease
  try dsimp only
  with_reducible repeat'
    (first
      | intro _ | assumption | exact DispKeeps.stall | exact DispKeeps.fault | apply DispKeeps.failed
      | apply DispKeeps.done | apply DispKeeps.marked | apply DispKeeps.jump | apply DispKeeps.ite
      | apply State.removalStands_keeps | apply valid_keeps | apply Keeps.ite)

theorem State.release_keeps {s0 s : State} {p : Part} (h : Keeps s0 s) : Keeps s0 (State.release s p) := by
  unfold State.release
  try dsimp only
  with_reducible repeat' (first | intro _ | assumption | apply State.judgeRelease_keeps | apply State.setRf_keeps)

theorem execRemReleaseWrite_keeps {s0 : State} {p : Part} {s : State} (h : Keeps s0 s) :
    OutKeeps s0 (execRemReleaseWrite p s) := by
  unfold execRemReleaseWrite
  try dsimp only
  with_reducible repeat' (first | intro _ | assumption | apply OutKeeps.next | apply State.release_keeps)

theorem State.writePartCfg_keeps {s0 s : State} {p : Part} {v : Word} (h : Keeps s0 s) :
    Keeps s0 (State.writePartCfg s p v) := by
  unfold State.writePartCfg
  try dsimp only
  with_reducible repeat'
    (first
      | intro _ | assumption | apply State.hqStat_keeps | apply State.judgeRelease_keeps | apply State.onPort_keeps
      | apply State.requestReset_keeps | apply State.setRb_keeps | apply State.setRf_keeps
      | apply State.startAbort_keeps | apply Keeps.ite | dsimp only | split | apply Keeps.foldl)

theorem execPartCfgWrite_keeps {s0 s : State} {p : Part} {v : Word} (h : Keeps s0 s) :
    OutKeeps s0 (execPartCfgWrite p v s) := by
  unfold execPartCfgWrite
  try dsimp only
  with_reducible repeat' (first | intro _ | assumption | apply OutKeeps.next | apply State.writePartCfg_keeps)

theorem State.quiesce_keeps {s0 s : State} (h : Keeps s0 s) : Keeps s0 s.quiesce := by
  have h1 : Keeps s0 (allBids.foldl (fun (s : State) b => s.fmStop b) (s.setPhase 3)) :=
    (State.setPhase_keeps h).foldl fun _ _ h => State.fmStop_keeps h
  refine h1.foldl fun s p h => ?_
  have h2 : Keeps s0 (if s.partValid p then s.abortQueues p else s) := Keeps.ite (fun _ => State.abortQueues_keeps h) fun _ => h
  generalize (if s.partValid p then s.abortQueues p else s) = s2 at h2
  have h3 : Keeps s0 (s2.floodLost p s2.modId none) := State.floodLost_keeps h2
  dsimp only
  generalize s2.floodLost p s2.modId none = s3 at h3
  have h4 : Keeps s0 (if s3.bulk.tx[p].isSome then s3.mirEnd p false else s3) :=
    Keeps.ite (fun _ => State.mirEnd_keeps h3) fun _ => h3
  generalize (if s3.bulk.tx[p].isSome then s3.mirEnd p false else s3) = s4 at h4
  have h5 : Keeps s0 ((List.finRange 4).foldl (fun (s : State) n => s.freeSet p n) s4) :=
    h4.foldl fun _ _ h => State.freeSet_keeps h
  generalize (List.finRange 4).foldl (fun (s : State) n => s.freeSet p n) s4 = s5 at h5
  exact Keeps.ite (fun _ => State.emptyHistory_keeps h5) fun _ => h5

theorem execRemovalGraceEnd_keeps {s0 s : State} (h : Keeps s0 s) : OutKeeps s0 (execRemovalGraceEnd s) := by
  unfold execRemovalGraceEnd
  try dsimp only
  with_reducible repeat'
    (first
      | intro _ | assumption | apply OutKeeps.next | apply State.quiesce_keeps | apply Keeps.ite)

theorem execRemovalQuiesceDone_keeps {s0 s : State} (h : Keeps s0 s) : OutKeeps s0 (execRemovalQuiesceDone s) := by
  unfold execRemovalQuiesceDone
  try dsimp only
  with_reducible repeat'
    (first
      | intro _ | assumption | apply OutKeeps.next | apply State.checkpoint_keeps | apply State.enterFault_keeps
      | apply State.portDrop_keeps | apply State.setPhase_keeps | apply Keeps.ite | apply OutKeeps.ite | dsimp only
      | split | apply Keeps.foldl | fail_if_no_progress apply Keeps.lit)

theorem execRemovalFlushDone_keeps {s0 s : State} (h : Keeps s0 s) : OutKeeps s0 (execRemovalFlushDone s) := by
  unfold execRemovalFlushDone
  try dsimp only
  with_reducible repeat'
    (first
      | intro _ | assumption | apply OutKeeps.next | apply State.setPhase_keeps | apply State.unpowered_keeps
      | apply Keeps.ite | apply OutKeeps.ite | dsimp only | split | fail_if_no_progress apply Keeps.lit)

theorem execIdleEntryTimer_keeps {s0 s : State} (h : Keeps s0 s) :
    OutKeeps s0 (execIdleEntryTimer s) := by
  unfold execIdleEntryTimer
  try dsimp only
  with_reducible repeat'
    (first
      | intro _ | assumption | apply OutKeeps.next | apply State.setRf_keeps | apply Keeps.ite)

theorem State.gated_keeps {s0 s : State} {b : Bid} {on : Bool} (h : Keeps s0 s) :
    Keeps s0 (State.gated s b on) := by
  unfold State.gated
  try dsimp only
  with_reducible repeat' (first | intro _ | assumption | apply State.planChanged_keeps | apply State.setRb_keeps)

theorem State.writeGate_keeps {s0 s : State} {b : Bid} {v : Word} (h : Keeps s0 s) :
    Keeps s0 (State.writeGate s b v) := by
  unfold State.writeGate
  try dsimp only
  with_reducible repeat'
    (first
      | intro _ | assumption | apply State.setRb_keeps | apply State.gated_keeps | apply Keeps.ite)

theorem execGate_keeps {s0 : State} {b : Bid} {v : Word} {s : State} (h : Keeps s0 s) :
    OutKeeps s0 (execGate b v s) := by
  unfold execGate
  try dsimp only
  with_reducible repeat' (first | intro _ | assumption | apply OutKeeps.next | apply State.writeGate_keeps)

theorem execBenchWakeDone_keeps {s0 s : State} {b : Bid} (h : Keeps s0 s) : OutKeeps s0 (execBenchWakeDone b s) := by
  unfold execBenchWakeDone
  try dsimp only
  with_reducible repeat'
    (first
      | intro _ | assumption | apply OutKeeps.next | apply State.benchReset_keeps | apply State.crossed_keeps
      | apply State.gated_keeps | apply State.setRb_keeps | apply Keeps.onBench | exact BenchKeeps.same rfl
      | apply Keeps.ite | apply OutKeeps.ite)

theorem State.enterStandby_keeps {s0 s : State} (h : Keeps s0 s) :
    Keeps s0 (State.enterStandby s) := by
  unfold State.enterStandby
  try dsimp only
  with_reducible repeat'
    (first
      | intro _ | assumption | apply State.checkpoint_keeps | apply State.portDrop_keeps
      | apply State.hostLinkDrop_keeps | apply State.setRf_keeps | apply Keeps.ite | dsimp only | split
      | apply Keeps.foldl)

theorem State.capTo_keeps {s0 s : State} {b : Bid} {mhz : Nat} (h : Keeps s0 s) :
    Keeps s0 (State.capTo s b mhz) := by
  unfold State.capTo
  try dsimp only
  with_reducible repeat'
    (first
      | intro _ | assumption | apply State.countH_keeps | apply State.setRf_keeps | apply Keeps.ite)

theorem State.benchTemp_keeps {s0 s : State} {b : Bid} {t : Int} {tick : Bool} (h : Keeps s0 s) :
    Keeps s0 (State.benchTemp s b t tick) := by
  unfold State.benchTemp
  try dsimp only
  with_reducible repeat'
    (first
      | intro _ | assumption | apply State.setRf_keeps | apply State.emit_keeps | apply State.capTo_keeps
      | apply State.setRb_keeps | apply Keeps.ite)

theorem execThermalSample_keeps {s0 : State} {ts : Temps} {s : State} (h : Keeps s0 s) :
    OutKeeps s0 (execThermalSample ts s) := by
  unfold execThermalSample
  try dsimp only
  with_reducible repeat'
    (first
      | intro _ | assumption | apply OutKeeps.next | apply State.setRf_keeps | apply State.benchTemp_keeps
      | apply State.capTo_keeps | apply State.emergency_keeps | apply Keeps.ite | apply OutKeeps.ite | dsimp only
      | split | apply Keeps.foldl | fail_if_no_progress apply Keeps.lit)

theorem execPowerSample_keeps {s0 : State} {vin : Nat} {pin : Nat} {iin : Nat} {s : State} (h : Keeps s0 s) :
    OutKeeps s0 (execPowerSample vin pin iin s) := by
  unfold execPowerSample
  try dsimp only
  with_reducible repeat'
    (first
      | intro _ | assumption | apply OutKeeps.next | apply State.setRf_keeps | apply State.setReg_keeps
      | apply State.countH_keeps | apply State.setRb_keeps | apply Keeps.ite | apply OutKeeps.ite | dsimp only | split
      | apply Keeps.foldl | fail_if_no_progress apply Keeps.lit)

theorem State.writePwrLimit_keeps {s0 s : State} {v : Word} (h : Keeps s0 s) :
    Keeps s0 (State.writePwrLimit s v) := by
  unfold State.writePwrLimit
  try dsimp only
  with_reducible repeat'
    (first
      | intro _ | assumption | apply State.setRb_keeps | apply State.setRf_keeps | apply Keeps.ite)

theorem execPwrLimitWrite_keeps {s0 : State} {v : Word} {s : State} (h : Keeps s0 s) :
    OutKeeps s0 (execPwrLimitWrite v s) := by
  unfold execPwrLimitWrite
  try dsimp only
  with_reducible repeat' (first | intro _ | assumption | apply OutKeeps.next | apply State.writePwrLimit_keeps)

end Sys2Proof.Machine
end

