-- ==== Sys2Proof/Laws/KeepsBringup.lean ====
section
/-! SUPPORT. The operations of Machine.Bringup keep the queue of commands and the invariant. -/

namespace Sys2Proof.Machine

theorem State.onFlash_keeps {s0 s : State} {f : Flash → Flash} (h : Keeps s0 s) :
    Keeps s0 (State.onFlash s f) := by
  unfold State.onFlash
  try dsimp only
  with_reducible repeat'
    (first
      | intro _ | assumption | apply Keeps.ite | dsimp only | split | apply Keeps.foldl
      | fail_if_no_progress apply Keeps.lit)

theorem State.showSlots_keeps {s0 s : State} (h : Keeps s0 s) :
    Keeps s0 (State.showSlots s) := by
  unfold State.showSlots
  try dsimp only
  with_reducible repeat' (first | intro _ | assumption | apply State.setRb_keeps | apply State.setRf_keeps)

theorem State.fallBack_keeps {s0 s : State} (h : Keeps s0 s) :
    Keeps s0 (State.fallBack s) := by
  unfold State.fallBack
  try dsimp only
  with_reducible repeat'
    (first
      | intro _ | assumption | apply State.onMgmt_keeps | apply State.showSlots_keeps | apply State.onFlash_keeps
      | apply State.countH_keeps | apply State.setRb_keeps | apply State.requestReset_keeps)

theorem execPendingBootTimeout_keeps {s0 s : State} (h : Keeps s0 s) :
    OutKeeps s0 (execPendingBootTimeout s) := by
  unfold execPendingBootTimeout
  try dsimp only
  with_reducible repeat'
    (first
      | intro _ | assumption | apply OutKeeps.next | apply State.fallBack_keeps | apply Keeps.ite)

theorem State.coreFails_keeps {s0 s : State} {x1 : Nat × Nat × Nat} (h : Keeps s0 s) :
    Keeps s0 (State.coreFails s x1) := by
  unfold State.coreFails
  try dsimp only
  with_reducible repeat'
    (first
      | intro _ | assumption | apply State.drawWord_keeps | apply State.emit_keeps | apply Keeps.ite | dsimp only
      | split | apply Keeps.foldl | refine Keeps.snd (by assumption) ?_ | fail_if_no_progress apply Keeps.lit)

theorem State.bootBifur_keeps {s0 s : State} {r : BuildRec} (h : Keeps s0 s) :
    Keeps s0 (State.bootBifur s r) := by
  unfold State.bootBifur
  try dsimp only
  with_reducible repeat' (first | intro _ | assumption | apply State.setRf_keeps)

theorem State.bootUnits_keeps {s0 s : State} (h : Keeps s0 s) :
    Keeps s0 (State.bootUnits s) := by
  unfold State.bootUnits
  try dsimp only
  with_reducible repeat'
    (first
      | intro _ | assumption | apply State.onMgmt_keeps | apply State.setRf_keeps | apply State.setRb_keeps
      | apply Keeps.ite | dsimp only | split | apply Keeps.foldl)

theorem State.bootImage_keeps {s0 s : State} {r : BuildRec} {slot : Bool} (h : Keeps s0 s) :
    Keeps s0 (State.bootImage s r slot) := by
  unfold State.bootImage
  try dsimp only
  with_reducible repeat'
    (first
      | intro _ | assumption | apply State.onMgmt_keeps | apply State.bootBifur_keeps | apply State.showSlots_keeps
      | apply State.setRb_keeps | apply State.setRf_keeps | apply State.coreFails_keeps
      | apply State.setStage_keeps)

theorem State.broadcast_keeps {s0 s : State} {failed : List (Nat × Nat × Nat)} (h : Keeps s0 s) :
    Keeps s0 (State.broadcast s failed) := by
  unfold State.broadcast
  try dsimp only
  with_reducible repeat'
    (first
      | intro _ | assumption | apply State.coreFails_keeps | apply State.setStage_keeps | apply State.bootUnits_keeps
      | apply State.noteTrained_keeps | apply Keeps.ite | apply Keeps.foldl)

theorem State.deriveKeys_keeps {s0 s : State} {pufOk : Bool} (h : Keeps s0 s) :
    Keeps s0 (State.deriveKeys s pufOk) := by
  unfold State.deriveKeys
  try dsimp only
  with_reducible repeat'
    (first
      | intro _ | assumption | apply State.setRb_keeps | apply Keeps.ite | dsimp only | split
      | refine Keeps.snd (by assumption) ?_ | fail_if_no_progress apply Keeps.lit)

theorem State.bootChoose_keeps {s0 s : State} {r : BuildRec} (h : Keeps s0 s) :
    Keeps s0 (State.bootChoose s r) := by
  unfold State.bootChoose
  try dsimp only
  with_reducible repeat'
    (first
      | intro _ | assumption | apply State.onFlash_keeps | apply State.bootImage_keeps | apply State.fallBack_keeps
      | apply State.setStage_keeps | apply Keeps.ite | dsimp only | split)

theorem execBoot_keeps {s0 : State} {pufOk : Bool} {failed : List (Nat × Nat × Nat)} {s : State} (h : Keeps s0 s) :
    OutKeeps s0 (execBoot pufOk failed s) := by
  unfold execBoot
  try dsimp only
  with_reducible repeat'
    (first
      | intro _ | assumption | apply State.onMgmt_keeps | apply State.deriveKeys_keeps
      | apply State.broadcast_keeps | apply State.bootChoose_keeps | apply OutKeeps.next | apply State.countH_keeps
      | apply State.setRb_keeps | apply State.setStage_keeps | apply State.onFlash_keeps
      | apply State.bootImage_keeps | apply State.fallBack_keeps | apply Keeps.ite | apply OutKeeps.ite
      | dsimp only | split)

theorem execStartupProgramDone_keeps {s0 : State} {failed : List (Nat × Nat × Nat)} {s : State} (h : Keeps s0 s) :
    OutKeeps s0 (execStartupProgramDone failed s) := by
  unfold execStartupProgramDone
  try dsimp only
  with_reducible repeat'
    (first
      | intro _ | assumption | apply State.onMgmt_keeps | apply OutKeeps.next | apply State.drawWord_keeps | apply State.emit_keeps
      | apply State.resetRegs_keeps | apply Keeps.ite | apply OutKeeps.ite | dsimp only | split | apply Keeps.foldl
      | refine Keeps.snd (by assumption) ?_ | fail_if_no_progress apply Keeps.lit)

theorem execStackTraining_keeps {s0 : State} {k : Fin 8} {r : TrainResult} {s : State} (h : Keeps s0 s) :
    OutKeeps s0 (execStackTraining k r s) := by
  unfold execStackTraining
  try dsimp only
  with_reducible repeat'
    (first
      | intro _ | assumption | apply State.drawWord_keeps | apply State.onMgmt_keeps
      | apply State.noteTrained_keeps | apply OutKeeps.next | apply State.setRf_keeps | apply State.onStk_keeps
      | apply State.noteSettings_keeps | apply State.setRb_keeps | apply Keeps.ite | apply OutKeeps.ite
      | dsimp only | split)

theorem execPortPeerWindowEnd_keeps {s0 : State} {n : PortNo} {s : State} (h : Keeps s0 s) :
    OutKeeps s0 (execPortPeerWindowEnd n s) := by
  unfold execPortPeerWindowEnd
  try dsimp only
  with_reducible repeat'
    (first
      | intro _ | assumption | apply State.portDone_keeps | apply OutKeeps.next | apply State.setRf_keeps
      | apply Keeps.ite | apply OutKeeps.ite)

theorem State.loadSite_keeps {s0 s : State} {e : Nat × Word} (h : Keeps s0 s) :
    Keeps s0 (State.loadSite s e) := by
  unfold State.loadSite
  try dsimp only
  with_reducible repeat'
    (first
      | intro _ | assumption | apply State.writeGate_keeps | apply State.setReg_keeps | apply Keeps.ite | dsimp only | split)

theorem State.publishPlan_keeps {s0 s : State} (h : Keeps s0 s) :
    Keeps s0 (State.publishPlan s) := by
  unfold State.publishPlan
  try dsimp only
  with_reducible repeat'
    (first
      | intro _ | assumption | apply State.publish_keeps | apply State.planChanged_keeps | apply Keeps.ite)

theorem execReady_keeps {s0 : State} {ms : Nat} {s : State} (h : Keeps s0 s) :
    OutKeeps s0 (execReady ms s) := by
  unfold execReady
  try dsimp only
  with_reducible repeat'
    (first
      | intro _ | assumption | apply State.onMgmt_keeps | apply OutKeeps.next | apply State.reseat_keeps | apply State.setRb_keeps
      | apply State.loadSite_keeps | apply State.publishPlan_keeps | apply State.setRf_keeps
      | apply State.onFlash_keeps | apply State.setStage_keeps | apply State.showSlots_keeps | apply Keeps.ite
      | apply OutKeeps.ite | dsimp only | split | apply Keeps.foldl)

theorem execSavedSettingsWrite_keeps {s0 s : State} (h : Keeps s0 s) :
    OutKeeps s0 (execSavedSettingsWrite s) := by
  unfold execSavedSettingsWrite
  try dsimp only
  with_reducible repeat'
    (first
      | intro _ | assumption | apply State.onMgmt_keeps | apply OutKeeps.next | apply State.onFlash_keeps
      | apply Keeps.ite | apply OutKeeps.ite)

end Sys2Proof.Machine
end

