-- ==== Sys2Proof/Laws/KeepsClock.lean ====
section
/-!
SUPPORT. The operations of Machine.Clock keep the queue of commands and the invariant; what a cycle counts changes registers
alone.
-/

namespace Sys2Proof.Machine

/-! ## Counting changes registers alone -/

/-- A fold of steps that change registers alone does. -/
theorem onlyRegs_foldl {α : Type} (f : State → α → State) (hf : ∀ s a, ∃ r, f s a = { s with regs := r }) (l : List α)
    (s : State) : ∃ r, l.foldl f s = { s with regs := r } := by
  induction l generalizing s with
  | nil => exact ⟨s.regs, rfl⟩
  | cons a l ih =>
    obtain ⟨r, h⟩ := hf s a
    obtain ⟨r', h'⟩ := ih (f s a)
    exact ⟨r', by rw [List.foldl_cons, h', h]⟩

/-- Counting in the marker slots changes registers alone. -/
theorem State.slotCount_onlyRegs (s : State) (b : Bid) (mark : BitVec 32) (k n : Nat) :
    ∃ r, s.slotCount b mark k n = { s with regs := r } := by
  unfold State.slotCount
  split
  · exact ⟨s.regs, rfl⟩
  · refine onlyRegs_foldl _ (fun s i => ?_) _ s
    split
    · exact ⟨_, rfl⟩
    · exact ⟨s.regs, rfl⟩

/-- What a cycle counts changes registers alone. -/
theorem State.countCycle_onlyRegs (s : State) (b : Bid) : ∃ r, s.countCycle b = { s with regs := r } := by
  unfold State.countCycle
  obtain ⟨r1, h1⟩ := onlyRegs_foldl (fun (s : State) n => s.countB b n 1) (fun _ _ => ⟨_, rfl⟩) (s.busyCounters b) s
  have h2 : ∃ r, (if s.stageUsed b = 0 then { s with regs := r1 }
      else State.countB { s with regs := r1 } b 111 (s.stageUsed b)) = { s with regs := r } := by
    split
    · exact ⟨r1, rfl⟩
    · exact ⟨_, rfl⟩
  obtain ⟨r2, h2⟩ := h2
  obtain ⟨r3, h3⟩ := onlyRegs_foldl (fun (t : State) m => t.slotCount b m 1 1)
    (fun t m => t.slotCount_onlyRegs b m 1 1) (s.activeMarks b).eraseDups { s with regs := r2 }
  exact ⟨r3, by dsimp only; rw [h1, h2, h3]⟩

/-- Noting a stall changes registers alone. -/
theorem State.noteStall_onlyRegs (s : State) (b : Bid) : ∃ r, s.noteStall b = { s with regs := r } := by
  unfold State.noteStall
  split
  · exact ⟨_, rfl⟩
  · exact ⟨s.regs, rfl⟩

/-! ## The invariant -/

theorem State.countCycle_keeps {s0 s : State} {b : Bid} (h : Keeps s0 s) : Keeps s0 (State.countCycle s b) := by
  have h1 := h.foldl (l := s.busyCounters b) (f := fun (s : State) n => s.countB b n 1) fun _ _ h => State.countB_keeps h
  exact Keeps.foldl (Keeps.ite (fun _ => h1) fun _ => State.countB_keeps h1) fun _ _ h => State.slotCount_keeps h

theorem State.noteStall_keeps {s0 s : State} {b : Bid} (h : Keeps s0 s) : Keeps s0 (State.noteStall s b) := by
  unfold State.noteStall
  split
  · exact State.countB_keeps h
  · exact h

theorem State.cycleBench_keeps {s0 s : State} {b : Bid} (h : Keeps s0 s) :
    Keeps s0 (State.cycleBench s b) := by
  unfold State.cycleBench
  try dsimp only
  with_reducible repeat'
    (first
      | intro _ | assumption | apply State.stageTrace_keeps | apply Keeps.onBench | apply State.anchorNow_keeps | apply Keeps.ite
      | apply State.countB_keeps | apply State.countCycle_keeps | exact BenchKeeps.same rfl)

theorem State.cycleHub_keeps {s0 s : State} (h : Keeps s0 s) :
    Keeps s0 (State.cycleHub s) := by
  unfold State.cycleHub
  try dsimp only
  with_reducible repeat'
    (first
      | intro _ | assumption | apply State.onMgmt_keeps | apply State.hubCores_keeps | apply State.countH_keeps
      | apply State.anchorNow_keeps | apply Keeps.ite | dsimp only | split | apply Keeps.foldl)

end Sys2Proof.Machine
end

