-- ==== Sys2Proof/Laws/KeepsRegs.lean ====
section
/-! SUPPORT. The operations of Machine.Regs keep the queue of commands and the invariant. -/

namespace Sys2Proof.Machine

theorem State.setLatched_keeps {s0 s : State} {k : Nat} {t : Tab (BitVec 32)} (h : Keeps s0 s) :
    Keeps s0 (State.setLatched s k t) := by
  unfold State.setLatched
  try dsimp only
  with_reducible repeat'
    (first
      | intro _ | assumption | apply State.onMgmt_keeps | apply Keeps.onBench | apply Keeps.ite
      | exact BenchKeeps.same rfl)

theorem State.readFull_keeps {s0 s : State} {k : Nat} (h : Keeps s0 s) :
    Keeps s0 (State.readFull s k).2 := by
  unfold State.readFull
  try dsimp only
  with_reducible repeat' (first | intro _ | assumption | apply State.setReg_keeps | apply Keeps.ite)

theorem State.readLow_keeps {s0 s : State} {k : Nat} (h : Keeps s0 s) :
    Keeps s0 (State.readLow s k).2 := by
  unfold State.readLow
  try dsimp only
  with_reducible repeat'
    (first
      | intro _ | assumption | apply State.setLatched_keeps | apply State.setReg_keeps | apply Keeps.ite)

theorem State.readHigh_keeps {s0 s : State} {k : Nat} (h : Keeps s0 s) :
    Keeps s0 (State.readHigh s k).2 := by
  unfold State.readHigh
  try dsimp only
  with_reducible repeat'
    (first
      | intro _ | assumption | apply State.setLatched_keeps | apply Keeps.ite | dsimp only | split)

theorem State.plainWrite_keeps {s0 s : State} {r : RegRow} {k : Nat} {inst : Bool} {v : Word} (h : Keeps s0 s) :
    Keeps s0 (State.plainWrite s r k inst v) := by
  unfold State.plainWrite
  try dsimp only
  with_reducible repeat' (first | intro _ | assumption | apply State.writeReg_keeps)

theorem State.writeRstCmd_keeps {s0 s : State} {src : Src} {v : Word} (h : Keeps s0 s) :
    Keeps s0 (State.writeRstCmd s src v) := by
  unfold State.writeRstCmd
  try dsimp only
  with_reducible repeat'
    (first
      | intro _ | assumption | apply State.requestReset_keeps | apply State.rstRefused_keeps | apply Keeps.ite)

theorem State.writeRemCtl_keeps {s0 s : State} {src : Src} {v : Word} (h : Keeps s0 s) :
    Keeps s0 (State.writeRemCtl s src v) := by
  unfold State.writeRemCtl
  try dsimp only
  with_reducible repeat'
    (first
      | intro _ | assumption | apply State.release_keeps | apply State.setRf_keeps | apply Keeps.ite | dsimp only
      | split)

theorem State.actBench_keeps {s0 s : State} {at_ : FaultAt} {b : Bid} {r : RegRow} {is : List Nat} {k : Nat}
    {v : Word} (h : Keeps s0 s) :
    OptKeeps s0 (State.actBench s at_ b r is k v) := by
  unfold State.actBench
  try dsimp only
  with_reducible repeat'
    (first
      | intro _ | assumption | exact OptKeeps.none | apply OptKeeps.some | apply State.cross_keeps
      | apply State.setReg_keeps | apply State.writeCrvCmd_keeps | apply State.writeCrvSlot_keeps
      | apply State.writeCutCtl_keeps | apply State.writeErrBctl_keeps | apply State.writeFmCtl_keeps
      | apply State.writeImem_keeps | apply State.writeMkId_keeps | apply State.writeReg_keeps
      | apply State.writeStage_keeps | apply State.writeTier_keeps | apply State.writeTrcCfg_keeps
      | apply State.writeTrcCtl_keeps | apply State.writeVtabCmd_keeps | apply Keeps.ite | apply OptKeeps.ite)

theorem State.actHub_keeps {s0 s : State} {src : Src} {r : RegRow} {is : List Nat} {k : Nat} {v : Word}
    (h : Keeps s0 s) :
    OptKeeps s0 (State.actHub s src r is k v) := by
  unfold State.actHub
  try dsimp only
  with_reducible repeat'
    (first
      | intro _ | assumption | apply State.drainDrawn_keeps | apply OptKeeps.some | exact OptKeeps.none
      | apply State.writeBmcRow_keeps | apply State.writeBmcPart_keeps | apply State.writeBmcShare_keeps
      | apply State.writeCowCtl_keeps | apply State.writeCowRgn_keeps | apply State.writeExportCtl_keeps
      | apply State.writePlmCmd_keeps | apply State.writePlmLoss_keeps | apply State.writePlmSet_keeps
      | apply State.writeProgLoad_keeps | apply State.writeTree_keeps | apply State.writeRoute_keeps
      | apply State.writeReg_keeps | apply State.mapWrite_keeps | apply State.writeMirCtl_keeps
      | apply State.writeMirRxEven_keeps | apply State.writeHqSq_keeps | apply State.writeHqCq_keeps
      | apply State.writeHqCtl_keeps | apply State.writePartCfg_keeps | apply State.writeErrRing_keeps
      | apply State.writeErrHead_keeps | apply State.writeRstCmd_keeps | apply State.writePwrLimit_keeps
      | apply State.writeGate_keeps | apply State.writeRemCtl_keeps | apply State.writeTrcCtl_keeps
      | apply State.writeTrcCfg_keeps | apply Keeps.ite | apply OptKeeps.ite)

theorem State.actWrite_keeps {s0 s : State} {src : Src} {at_ : FaultAt} {r : RegRow} {is : List Nat} {k : Nat}
    {v : Word} (h : Keeps s0 s) :
    Keeps s0 (State.actWrite s src at_ r is k v) := by
  unfold State.actWrite
  try dsimp only
  with_reducible repeat'
    (first
      | intro _ | assumption | apply State.actBench_keeps | apply State.actHub_keeps | apply State.plainWrite_keeps
      | apply Keeps.ite | dsimp only | split | apply Keeps.foldl | refine OptKeeps.get (by assumption) ?_)

theorem execRegisterWrite_keeps {s0 s : State} {key : Nat} {v : Word} (h : Keeps s0 s) :
    OutKeeps s0 (execRegisterWrite key v s) := by
  unfold execRegisterWrite
  try dsimp only
  with_reducible repeat'
    (first
      | intro _ | assumption | apply OutKeeps.next | apply State.actWrite_keeps | apply Keeps.ite | apply OutKeeps.ite
      | dsimp only | split)

theorem State.bar0Refused_keeps {s0 s : State} {p : Part} (h : Keeps s0 s) :
    Keeps s0 (State.bar0Refused s p) := by
  unfold State.bar0Refused
  try dsimp only
  with_reducible repeat' (first | intro _ | assumption | apply State.hqStat_keeps)

theorem State.answerBar_keeps {s0 s : State} {p : Part} {a : BarAnswer} (h : Keeps s0 s) :
    Keeps s0 (State.answerBar s p a) := by
  unfold State.answerBar
  try dsimp only
  with_reducible repeat' (first | intro _ | assumption | apply State.onHport_keeps)

theorem State.bar0Read_keeps {s0 s : State} {p : Part} {off : Nat} {size : Nat} (h : Keeps s0 s) :
    Keeps s0 (State.bar0Read s p off size) := by
  unfold State.bar0Read
  try dsimp only
  with_reducible repeat'
    (first
      | intro _ | assumption | apply State.bar0Refused_keeps | apply State.answerBar_keeps
      | apply State.readFull_keeps | apply State.readLow_keeps | apply State.readHigh_keeps | apply Keeps.ite
      | dsimp only | split)

theorem State.bar0Write_keeps {s0 s : State} {p : Part} {off size v : Nat} (h : Keeps s0 s) :
    Keeps s0 (State.bar0Write s p off size v) := by
  unfold State.bar0Write
  try dsimp only
  with_reducible repeat'
    (first
      | intro _ | assumption | apply State.writeRoute_keeps | apply State.actWrite_keeps | apply State.bar0Refused_keeps
      | apply State.bell_keeps | apply State.cqHead_keeps | apply State.sqTail_keeps | apply Keeps.ite | dsimp only | split)

theorem execBar0Access_keeps {s0 : State} {p : Part} {off : Nat} {size : Nat} {v : Option (List Byte)} {s : State}
    (h : Keeps s0 s) :
    OutKeeps s0 (execBar0Access p off size v s) := by
  unfold execBar0Access
  try dsimp only
  with_reducible repeat'
    (first
      | intro _ | assumption | apply OutKeeps.next | apply State.answerBar_keeps | apply State.bar0Read_keeps
      | apply State.bar0Write_keeps | apply Keeps.ite | apply OutKeeps.ite | dsimp only | split)

theorem execCounterLowHalfRead_keeps {s0 : State} {p : Part} {key : Nat} {s : State} (h : Keeps s0 s) :
    OutKeeps s0 (execCounterLowHalfRead p key s) := by
  unfold execCounterLowHalfRead
  try dsimp only
  with_reducible repeat'
    (first
      | intro _ | assumption | apply OutKeeps.next | apply State.bar0Read_keeps | apply Keeps.ite | apply OutKeeps.ite)

theorem execPowerMaxRead_keeps {s0 : State} {p : Part} {s : State} (h : Keeps s0 s) :
    OutKeeps s0 (execPowerMaxRead p s) := by
  unfold execPowerMaxRead
  try dsimp only
  with_reducible repeat'
    (first
      | intro _ | assumption | apply OutKeeps.next | apply State.bar0Read_keeps | apply Keeps.ite | apply OutKeeps.ite)

end Sys2Proof.Machine
end

