-- ==== Sys2Proof/Laws/KeepsForemanMem.lean ====
section
/-! SUPPORT. The operations of Machine.ForemanMem keep the queue of commands and the invariant. -/

namespace Sys2Proof.Machine

theorem State.fmFinish_keeps {s0 s : State} {b : Bid} {f : FmAccess} (h : Keeps s0 s) :
    Keeps s0 (State.fmFinish s b f) := by
  unfold State.fmFinish
  try dsimp only
  with_reducible repeat'
    (first
      | intro _ | assumption | apply State.pendWrite_keeps | apply Keeps.onFm | apply Keeps.ite
      | exact BenchKeeps.same rfl | apply BenchKeeps.fm | exact FmKeeps.same rfl rfl rfl rfl rfl
      | exact Foreman.setS_sound | exact Foreman.setP_sound | exact Foreman.setT_sound
      | refine FmKeeps.trans ?_ Foreman.setS_sound | refine FmKeeps.trans ?_ Foreman.setT_sound
      | exact FmKeeps.fewer rfl rfl (by simp) (by simp) (by simp) | dsimp only | split)

theorem fmRun_keeps {s0 s : State} {w : Who} {n : Nat} {f : FmAccess} (h : Keeps s0 s) : FmResKeeps s0
    (fmRun w n f s) := by
  induction n generalizing s f with
  | zero => exact State.fmFinish_keeps h
  | succ n ih =>
    unfold fmRun
    have ha {r : RdReq} : PerfKeeps s0 (s.access w r) := State.access_keeps h
    have hw {r : WrReq} : PerfKeeps s0 (s.store w r) := State.store_keeps h
    split
    · split
      · have hg := PerfKeeps.getOk (by assumption) ha
        dsimp only
        split
        · exact ih (State.drawLine_keeps (State.charge_keeps hg))
        · exact ih (State.charge_keeps hg)
      · exact PerfKeeps.getWait (by assumption) ha
      · exact PerfKeeps.getRefused (by assumption) ha
    · split
      · exact ih (State.charge_keeps (PerfKeeps.getOk (by assumption) hw))
      · exact PerfKeeps.getWait (by assumption) hw
      · exact PerfKeeps.getRefused (by assumption) hw

theorem fmMem_keeps {s0 : State} {op : FmOp} {reg : BitVec 5} {a : Nat} {fe : BitVec 2} {value : Desc} {c : Fm}
    {s : State} (h : Keeps s0 s) :
    DispKeeps s0 (fmMem op reg a fe value c s) := by
  unfold fmMem
  try dsimp only
  with_reducible repeat'
    (first
      | intro _ | assumption | exact DispKeeps.stall | exact DispKeeps.fault | apply DispKeeps.failed
      | apply DispKeeps.done | apply DispKeeps.marked | apply DispKeeps.jump | apply fmRun_keeps | apply Keeps.onFm
      | apply State.park_keeps | apply Keeps.ite | apply DispKeeps.ite | exact BenchKeeps.same rfl
      | apply BenchKeeps.fm | exact FmKeeps.same rfl rfl rfl rfl rfl | exact Foreman.setS_sound
      | exact Foreman.setP_sound | exact Foreman.setT_sound | refine FmKeeps.trans ?_ Foreman.setS_sound
      | refine FmKeeps.trans ?_ Foreman.setT_sound | exact FmKeeps.fewer rfl rfl (by simp) (by simp) (by simp)
      | dsimp only | split | apply Keeps.foldl | refine FmResKeeps.getOk (by assumption) ?_
      | refine FmResKeeps.getWait (by assumption) ?_ | refine FmResKeeps.getFailed (by assumption) ?_)

theorem Fm.refuse_keeps {s0 : State} {c : Fm} {s : State} {a : Nat} (h : Keeps s0 s) :
    Keeps s0 (Fm.refuse c s a) := by
  unfold Fm.refuse
  try dsimp only
  with_reducible repeat' (first | intro _ | assumption | apply State.refuse_keeps)

theorem ldReg_keeps {s0 : State} {rd : BitVec 5} {a : Nat} {k : Nat} {c : Fm} {s : State} (h : Keeps s0 s) :
    DispKeeps s0 (ldReg rd a k c s) := by
  unfold ldReg
  try dsimp only
  with_reducible repeat'
    (first
      | intro _ | assumption | exact DispKeeps.stall | exact DispKeeps.fault | apply DispKeeps.failed
      | apply DispKeeps.done | apply DispKeeps.marked | apply DispKeeps.jump | apply State.readFull_keeps
      | apply State.pendWrite_keeps | apply Fm.refuse_keeps | apply Keeps.ite | apply DispKeeps.ite | dsimp only
      | split)

theorem stReg_keeps {s0 : State} {v : Word} {a : Nat} {k : Nat} {c : Fm} {s : State} (h : Keeps s0 s) :
    DispKeeps s0 (stReg v a k c s) := by
  unfold stReg
  try dsimp only
  with_reducible repeat'
    (first
      | intro _ | assumption | exact DispKeeps.stall | exact DispKeeps.fault | apply DispKeeps.failed
      | apply DispKeeps.done | apply DispKeeps.marked | apply DispKeeps.jump | apply State.actWrite_keeps
      | apply Fm.refuse_keeps | apply Keeps.ite | apply DispKeeps.ite | dsimp only | split)

theorem fm8_keeps {s0 : State} {op : FmOp} {reg : BitVec 5} {a : Nat} {fe : BitVec 2} {value : Word} {c : Fm}
    {s : State} (h : Keeps s0 s) :
    DispKeeps s0 (fm8 op reg a fe value c s) := by
  unfold fm8
  try dsimp only
  with_reducible repeat'
    (first
      | intro _ | assumption | exact DispKeeps.stall | exact DispKeeps.fault | apply DispKeeps.failed
      | apply DispKeeps.done | apply DispKeeps.marked | apply DispKeeps.jump | apply ldReg_keeps | apply stReg_keeps
      | apply fmMem_keeps | apply Keeps.ite | apply DispKeeps.ite | dsimp only | split)

theorem fm64_keeps {s0 : State} {op : FmOp} {reg : BitVec 4} {a : Nat} {fe : BitVec 2} {value : Desc} {c : Fm}
    {s : State} (h : Keeps s0 s) :
    DispKeeps s0 (fm64 op reg a fe value c s) := by
  unfold fm64
  try dsimp only
  with_reducible repeat'
    (first
      | intro _ | assumption | exact DispKeeps.stall | exact DispKeeps.fault | apply DispKeeps.failed
      | apply DispKeeps.done | apply DispKeeps.marked | apply DispKeeps.jump | apply fmMem_keeps | apply Keeps.ite
      | apply DispKeeps.ite)

theorem execLd_keeps {s0 s : State} {h2 : Issue} {rd ra : BitVec 5} {fe : BitVec 2} {off : BitVec 37}
    (h : Keeps s0 s) :
    OutKeeps s0 (execLd h2 rd ra fe off s) := by
  unfold execLd
  try dsimp only
  with_reducible repeat'
    (first
      | intro _ | assumption | apply OutKeeps.next | exact DispKeeps.stall | exact DispKeeps.fault
      | apply DispKeeps.failed | apply DispKeeps.done | apply DispKeeps.marked | apply DispKeeps.jump
      | apply DispKeeps.ite | apply fm8_keeps | apply issue_keeps | apply valid_keeps | apply waitS_keeps)

theorem execSt_keeps {s0 s : State} {h2 : Issue} {rs ra : BitVec 5} {fe : BitVec 2} {off : BitVec 37}
    (h : Keeps s0 s) :
    OutKeeps s0 (execSt h2 rs ra fe off s) := by
  unfold execSt
  try dsimp only
  with_reducible repeat'
    (first
      | intro _ | assumption | apply OutKeeps.next | exact DispKeeps.stall | exact DispKeeps.fault
      | apply DispKeeps.failed | apply DispKeeps.done | apply DispKeeps.marked | apply DispKeeps.jump
      | apply DispKeeps.ite | apply fm8_keeps | apply issue_keeps | apply valid_keeps | apply waitS_keeps)

theorem execTld_keeps {s0 s : State} {h2 : Issue} {td : BitVec 4} {ra : BitVec 5} {fe : BitVec 2} {off : BitVec 37}
    (h : Keeps s0 s) :
    OutKeeps s0 (execTld h2 td ra fe off s) := by
  unfold execTld
  try dsimp only
  with_reducible repeat'
    (first
      | intro _ | assumption | apply OutKeeps.next | exact DispKeeps.stall | exact DispKeeps.fault
      | apply DispKeeps.failed | apply DispKeeps.done | apply DispKeeps.marked | apply DispKeeps.jump
      | apply DispKeeps.ite | apply fm64_keeps | apply issue_keeps | apply valid_keeps | apply waitS_keeps
      | apply waitT_keeps)

theorem execTst_keeps {s0 s : State} {h2 : Issue} {ts : BitVec 4} {ra : BitVec 5} {fe : BitVec 2} {off : BitVec 37}
    (h : Keeps s0 s) :
    OutKeeps s0 (execTst h2 ts ra fe off s) := by
  unfold execTst
  try dsimp only
  with_reducible repeat'
    (first
      | intro _ | assumption | apply OutKeeps.next | exact DispKeeps.stall | exact DispKeeps.fault
      | apply DispKeeps.failed | apply DispKeeps.done | apply DispKeeps.marked | apply DispKeeps.jump
      | apply DispKeeps.ite | apply fm64_keeps | apply issue_keeps | apply valid_keeps | apply waitS_keeps
      | apply waitT_keeps)

end Sys2Proof.Machine
end

