-- ==== Sys2Proof/Laws/KeepsMailbox.lean ====
section
/-! SUPPORT. The operations of Machine.Mailbox keep the queue of commands and the invariant. -/

namespace Sys2Proof.Machine

theorem State.setChan_keeps {s0 s : State} {c : Chan} {x2 : ChanSt} (h : Keeps s0 s) :
    Keeps s0 (State.setChan s c x2) := by
  unfold State.setChan
  try dsimp only
  with_reducible repeat'
    (first
      | intro _ | assumption | apply Keeps.ite | dsimp only | split | apply Keeps.foldl
      | fail_if_no_progress apply Keeps.lit)

theorem State.answer_keeps {s0 s : State} {m : MbReq} {code : Nat} {payload : List Byte} (h : Keeps s0 s) :
    Keeps s0 (State.answer s m code payload) := by
  unfold State.answer
  try dsimp only
  with_reducible repeat'
    (first
      | intro _ | assumption | apply State.raise_keeps | apply State.onHport_keeps | apply Keeps.ite | dsimp only
      | split | apply Keeps.foldl | fail_if_no_progress apply Keeps.lit)

theorem State.answerUnknown_keeps {s0 s : State} {l : List MbReq} (h : Keeps s0 s) :
    Keeps s0 (State.answerUnknown l s) := by
  induction l generalizing s with
  | nil => exact h
  | cons m rest ih =>
    unfold State.answerUnknown
    split
    · exact h
    · exact ih (State.answer_keeps h.lit)

theorem State.submit_keeps {s0 s : State} {m : MbReq} (h : Keeps s0 s) : Keeps s0 (State.submit s m) := by
  unfold State.submit
  try dsimp only
  with_reducible repeat'
    (first
      | intro _ | assumption | apply State.onMgmt_keeps | apply State.answerUnknown_keeps
      | apply State.onHport_keeps | apply Keeps.ite)

theorem State.bar4Read_keeps {s0 s : State} {p : Part} {off size : Nat} (h : Keeps s0 s) :
    Keeps s0 (State.bar4Read s p off size) := by
  unfold State.bar4Read
  refine State.onHport_keeps (Keeps.foldlSnd h fun x i hx => ?_)
  dsimp only
  split
  · exact hx
  · exact State.drawWord_keeps hx

theorem State.auditReq_keeps {s0 s : State} {m : MbReq} {code : Nat} (h : Keeps s0 s) :
    Keeps s0 (State.auditReq s m code) := by
  unfold State.auditReq
  try dsimp only
  with_reducible repeat' (first | intro _ | assumption | apply State.auditEntry_keeps | apply Keeps.ite)

theorem State.finish_keeps {s0 s : State} {m : MbReq} {long : Bool} {code : Nat} {payload : List Byte}
    (h : Keeps s0 s) :
    Keeps s0 (State.finish s m long code payload) := by
  unfold State.finish
  try dsimp only
  with_reducible repeat'
    (first
      | intro _ | assumption | apply State.onMgmt_keeps | apply State.drawBool_keeps | apply State.answer_keeps
      | apply Keeps.ite | dsimp only | split | apply Keeps.foldl | refine Keeps.snd (by assumption) ?_
      | fail_if_no_progress apply Keeps.lit)

theorem State.nextEntry_keeps {s0 s : State} {m : MbReq} (h : Keeps s0 s) :
    Keeps s0 (State.nextEntry s m) := by
  unfold State.nextEntry
  try dsimp only
  with_reducible repeat'
    (first
      | intro _ | assumption | apply OutKeeps.next | apply State.drawBool_keeps | apply State.onFlash_keeps
      | apply Keeps.ite)

theorem State.serve_keeps {s0 s : State} {msg : Nat} {need : Need} {long : Bool} {check : State → MbReq → Nat}
    {run : State → MbReq → Nat → List Byte × State} (hrun : ∀ y0 y1 y2, Keeps s0 y0 → Keeps s0 (run y0 y1 y2).2)
    (h : Keeps s0 s) :
    Keeps s0 (State.serve s msg need long check run) := by
  unfold State.serve
  try dsimp only
  with_reducible repeat'
    (first
      | intro _ | assumption | apply State.onMgmt_keeps | apply State.answer_keeps | apply State.nextEntry_keeps
      | apply State.auditReq_keeps | apply State.finish_keeps | apply State.answerUnknown_keeps | apply hrun
      | apply Keeps.ite | dsimp only | split)

theorem acting_keeps {s0 : State} {f : State → MbReq → State} {s : State} {m : MbReq} {code : Nat}
    (hf : ∀ y0 y1, Keeps s0 y0 → Keeps s0 (f y0 y1)) (h : Keeps s0 s) :
    Keeps s0 (acting f s m code).2 := by
  unfold acting
  try dsimp only
  with_reducible repeat' (first | intro _ | assumption | apply hf | apply Keeps.ite)

theorem reading_keeps {s0 : State} {f : State → MbReq → List Byte} {s : State} {m : MbReq} {code : Nat}
    (h : Keeps s0 s) :
    Keeps s0 (reading f s m code).2 := by
  unfold reading
  try dsimp only
  with_reducible repeat' (first | intro _ | assumption)

theorem execMailboxOperationEnd_keeps {s0 : State} {c : Chan} {s : State} (h : Keeps s0 s) :
    OutKeeps s0 (execMailboxOperationEnd c s) := by
  unfold execMailboxOperationEnd
  try dsimp only
  with_reducible repeat'
    (first
      | intro _ | assumption | apply State.onMgmt_keeps | apply OutKeeps.next | apply State.answer_keeps
      | apply Keeps.ite | apply OutKeeps.ite | dsimp only | split)

theorem State.chargeZeros_keeps {s0 s : State} (h : Keeps s0 s) :
    Keeps s0 (State.chargeZeros s) := by
  unfold State.chargeZeros
  try dsimp only
  with_reducible repeat'
    (first
      | intro _ | assumption | apply State.slotsUsed_keeps | apply Keeps.ite | apply Keeps.foldl)

theorem execRowZeroDone_keeps {s0 s : State} {row : Fin 96} (h : Keeps s0 s) :
    OutKeeps s0 (execRowZeroDone row s) := by
  unfold execRowZeroDone
  try dsimp only
  with_reducible repeat'
    (first
      | intro _ | assumption | apply State.setRb_keeps | apply State.chargeZeros_keeps | apply State.onMgmt_keeps
      | apply OutKeeps.next | apply State.answer_keeps | apply State.onBulk_keeps | apply State.setRow_keeps
      | apply State.zeroRow_keeps | dsimp only | split | apply Keeps.foldl)

theorem execGetInfo_keeps {s0 s : State} (h : Keeps s0 s) :
    OutKeeps s0 (execGetInfo s) := by
  unfold execGetInfo
  try dsimp only
  with_reducible repeat'
    (first
      | intro _ | assumption | apply OutKeeps.next | apply State.serve_keeps | apply reading_keeps)

theorem execGetFloorplan_keeps {s0 s : State} (h : Keeps s0 s) :
    OutKeeps s0 (execGetFloorplan s) := by
  unfold execGetFloorplan
  try dsimp only
  with_reducible repeat'
    (first
      | intro _ | assumption | apply OutKeeps.next | apply State.serve_keeps | apply reading_keeps)

theorem execSetHostTime_keeps {s0 s : State} (h : Keeps s0 s) :
    OutKeeps s0 (execSetHostTime s) := by
  unfold execSetHostTime
  try dsimp only
  with_reducible repeat'
    (first
      | intro _ | assumption | apply State.onMgmt_keeps | apply OutKeeps.next | apply State.serve_keeps
      | apply acting_keeps | apply State.setReg_keeps)

theorem execReadRecords_keeps {s0 s : State} (h : Keeps s0 s) :
    OutKeeps s0 (execReadRecords s) := by
  unfold execReadRecords
  try dsimp only
  with_reducible repeat'
    (first
      | intro _ | assumption | apply OutKeeps.next | apply State.serve_keeps | apply reading_keeps)

theorem execRequestProof_keeps {s0 s : State} (h : Keeps s0 s) :
    OutKeeps s0 (execRequestProof s) := by
  unfold execRequestProof
  try dsimp only
  with_reducible repeat'
    (first
      | intro _ | assumption | apply OutKeeps.next | apply State.serve_keeps | apply acting_keeps
      | apply State.askProof_keeps)

theorem execRequestRemoval_keeps {s0 s : State} (h : Keeps s0 s) :
    OutKeeps s0 (execRequestRemoval s) := by
  unfold execRequestRemoval
  try dsimp only
  with_reducible repeat'
    (first
      | intro _ | assumption | apply OutKeeps.next | apply State.serve_keeps | apply acting_keeps
      | apply State.release_keeps)

theorem execAuthBegin_keeps {s0 : State} {lockOver : Bool} {s : State} (h : Keeps s0 s) :
    OutKeeps s0 (execAuthBegin lockOver s) := by
  unfold execAuthBegin
  try dsimp only
  with_reducible repeat'
    (first
      | intro _ | assumption | apply OutKeeps.next | apply State.serve_keeps | apply State.setChan_keeps
      | apply State.drawWord_keeps | apply Keeps.ite | apply OutKeeps.ite | dsimp only | split)

theorem execAuthProve_keeps {s0 : State} {ok : Bool} {fresh : Bool} {older : Nat} {s : State} (h : Keeps s0 s) :
    OutKeeps s0 (execAuthProve ok fresh older s) := by
  unfold execAuthProve
  try dsimp only
  with_reducible repeat'
    (first
      | intro _ | assumption | apply OutKeeps.next | apply State.serve_keeps | apply State.countH_keeps
      | apply State.setChan_keeps | apply Keeps.ite | apply OutKeeps.ite | dsimp only | split)

theorem execAuthEnd_keeps {s0 s : State} (h : Keeps s0 s) :
    OutKeeps s0 (execAuthEnd s) := by
  unfold execAuthEnd
  try dsimp only
  with_reducible repeat'
    (first
      | intro _ | assumption | apply OutKeeps.next | apply State.serve_keeps | apply acting_keeps
      | apply State.setChan_keeps)

theorem execAuthIdleExpiry_keeps {s0 : State} {c : Chan} {s : State} (h : Keeps s0 s) :
    OutKeeps s0 (execAuthIdleExpiry c s) := by
  unfold execAuthIdleExpiry
  try dsimp only
  with_reducible repeat' (first | intro _ | assumption | apply OutKeeps.next | apply State.setChan_keeps)

theorem State.writeSite_keeps {s0 s : State} {k : Nat} {v : Word} (h : Keeps s0 s) :
    Keeps s0 (State.writeSite s k v) := by
  unfold State.writeSite
  try dsimp only
  with_reducible repeat' (first | intro _ | assumption | apply State.onFlash_keeps | apply Keeps.ite)

theorem execRegWrite_keeps {s0 s : State} (h : Keeps s0 s) :
    OutKeeps s0 (execRegWrite s) := by
  unfold execRegWrite
  try dsimp only
  with_reducible repeat'
    (first
      | intro _ | assumption | apply OutKeeps.next | apply State.serve_keeps | apply acting_keeps
      | apply State.actWrite_keeps | apply State.writeSite_keeps | apply Keeps.ite | apply OutKeeps.ite | dsimp only
      | split)

theorem execFwStage_keeps {s0 s : State} (h : Keeps s0 s) :
    OutKeeps s0 (execFwStage s) := by
  unfold execFwStage
  try dsimp only
  with_reducible repeat'
    (first
      | intro _ | assumption | apply State.onMgmt_keeps | apply OutKeeps.next | apply State.serve_keeps
      | apply acting_keeps | apply State.showSlots_keeps | apply State.onFlash_keeps | apply Keeps.ite)

theorem execFwActivate_keeps {s0 : State} {img : Image} {s : State} (h : Keeps s0 s) :
    OutKeeps s0 (execFwActivate img s) := by
  unfold execFwActivate
  try dsimp only
  with_reducible repeat'
    (first
      | intro _ | assumption | apply OutKeeps.next | apply State.serve_keeps | apply State.showSlots_keeps
      | apply State.onFlash_keeps | apply Keeps.ite | apply OutKeeps.ite | dsimp only | split | apply Keeps.foldl
      | fail_if_no_progress apply Keeps.lit)

theorem execFwCommit_keeps {s0 s : State} (h : Keeps s0 s) :
    OutKeeps s0 (execFwCommit s) := by
  unfold execFwCommit
  try dsimp only
  with_reducible repeat'
    (first
      | intro _ | assumption | apply OutKeeps.next | apply State.serve_keeps | apply acting_keeps
      | apply State.showSlots_keeps | apply State.onFlash_keeps | apply Keeps.ite | apply OutKeeps.ite | dsimp only
      | split)

theorem execRetireUnit_keeps {s0 s : State} (h : Keeps s0 s) :
    OutKeeps s0 (execRetireUnit s) := by
  unfold execRetireUnit
  try dsimp only
  with_reducible repeat'
    (first
      | intro _ | assumption | apply OutKeeps.next | apply State.serve_keeps | apply acting_keeps
      | apply State.pendUnit_keeps)

theorem execRetrainPort_keeps {s0 s : State} (h : Keeps s0 s) :
    OutKeeps s0 (execRetrainPort s) := by
  unfold execRetrainPort
  try dsimp only
  with_reducible repeat'
    (first
      | intro _ | assumption | apply OutKeeps.next | apply State.serve_keeps | apply acting_keeps
      | apply State.onPort_keeps | apply State.setRf_keeps)

theorem execStandby_keeps {s0 s : State} (h : Keeps s0 s) :
    OutKeeps s0 (execStandby s) := by
  unfold execStandby
  try dsimp only
  with_reducible repeat'
    (first
      | intro _ | assumption | apply OutKeeps.next | apply State.serve_keeps | apply acting_keeps
      | apply State.enterStandby_keeps | apply State.requestReset_keeps | apply Keeps.ite)

theorem execRemove_keeps {s0 s : State} (h : Keeps s0 s) :
    OutKeeps s0 (execRemove s) := by
  unfold execRemove
  try dsimp only
  with_reducible repeat'
    (first
      | intro _ | assumption | apply OutKeeps.next | apply State.serve_keeps | apply acting_keeps
      | apply State.removalStands_keeps)

theorem execAuditRead_keeps {s0 s : State} (h : Keeps s0 s) :
    OutKeeps s0 (execAuditRead s) := by
  unfold execAuditRead
  try dsimp only
  with_reducible repeat'
    (first
      | intro _ | assumption | apply OutKeeps.next | apply State.serve_keeps | apply reading_keeps)

theorem execWriteBuildRecord_keeps {s0 : State} {r : BuildRec} {s : State} (h : Keeps s0 s) :
    OutKeeps s0 (execWriteBuildRecord r s) := by
  unfold execWriteBuildRecord
  try dsimp only
  with_reducible repeat'
    (first
      | intro _ | assumption | apply State.onMgmt_keeps | apply OutKeeps.next | apply State.serve_keeps
      | apply acting_keeps | apply State.onFlash_keeps)

theorem execClearHistory_keeps {s0 s : State} (h : Keeps s0 s) :
    OutKeeps s0 (execClearHistory s) := by
  unfold execClearHistory
  try dsimp only
  with_reducible repeat'
    (first
      | intro _ | assumption | apply OutKeeps.next | apply State.serve_keeps | apply acting_keeps | apply Keeps.ite
      | apply OutKeeps.ite | dsimp only | split | apply Keeps.foldl | refine Keeps.snd (by assumption) ?_
      | fail_if_no_progress apply Keeps.lit)

theorem execTestMode_keeps {s0 s : State} (h : Keeps s0 s) :
    OutKeeps s0 (execTestMode s) := by
  unfold execTestMode
  try dsimp only
  with_reducible repeat'
    (first
      | intro _ | assumption | apply State.onMgmt_keeps | apply OutKeeps.next | apply State.serve_keeps
      | apply acting_keeps | apply State.setRb_keeps)

theorem State.spdm_keeps {s0 s : State} {c : Chan} {a : SpdmAnswer} (h : Keeps s0 s) :
    Keeps s0 (State.spdm s c a) := by
  unfold State.spdm
  try dsimp only
  with_reducible repeat' (first | intro _ | assumption | apply State.onMgmt_keeps)

theorem State.spdmError_keeps {s0 s : State} {c : Chan} (h : Keeps s0 s) :
    Keeps s0 (State.spdmError s c) := by
  unfold State.spdmError
  try dsimp only
  with_reducible repeat' (first | intro _ | assumption | apply State.drawWord_keeps | apply State.spdm_keeps)

theorem State.onSpdm_keeps {s0 s : State} {c : Chan} {f : State → State} (hf : ∀ y0, Keeps s0 y0 → Keeps s0 (f y0))
    (h : Keeps s0 s) :
    Keeps s0 (State.onSpdm s c f) := by
  unfold State.onSpdm
  try dsimp only
  with_reducible repeat' (first | intro _ | assumption | apply State.spdmError_keeps | apply hf | apply Keeps.ite)

theorem execGetVersion_keeps {s0 : State} {c : Chan} {s : State} (h : Keeps s0 s) :
    OutKeeps s0 (execGetVersion c s) := by
  unfold execGetVersion
  try dsimp only
  with_reducible repeat'
    (first
      | intro _ | assumption | apply OutKeeps.next | apply State.onSpdm_keeps | apply State.spdm_keeps)

theorem execGetCapabilities_keeps {s0 : State} {c : Chan} {s : State} (h : Keeps s0 s) :
    OutKeeps s0 (execGetCapabilities c s) := by
  unfold execGetCapabilities
  try dsimp only
  with_reducible repeat'
    (first
      | intro _ | assumption | apply OutKeeps.next | apply State.onSpdm_keeps | apply State.spdm_keeps)

theorem execNegotiateAlgorithms_keeps {s0 : State} {c : Chan} {s : State} (h : Keeps s0 s) :
    OutKeeps s0 (execNegotiateAlgorithms c s) := by
  unfold execNegotiateAlgorithms
  try dsimp only
  with_reducible repeat'
    (first
      | intro _ | assumption | apply OutKeeps.next | apply State.onSpdm_keeps | apply State.spdm_keeps)

theorem execGetDigests_keeps {s0 : State} {c : Chan} {s : State} (h : Keeps s0 s) :
    OutKeeps s0 (execGetDigests c s) := by
  unfold execGetDigests
  try dsimp only
  with_reducible repeat'
    (first
      | intro _ | assumption | apply OutKeeps.next | apply State.onSpdm_keeps | apply State.spdm_keeps)

theorem execGetCertificate_keeps {s0 : State} {c : Chan} {slot : Nat} {off : Nat} {len : Nat} {s : State}
    (h : Keeps s0 s) :
    OutKeeps s0 (execGetCertificate c slot off len s) := by
  unfold execGetCertificate
  try dsimp only
  with_reducible repeat'
    (first
      | intro _ | assumption | apply OutKeeps.next | apply State.onSpdm_keeps | apply State.spdmError_keeps
      | apply State.spdm_keeps | apply Keeps.ite)

theorem execChallenge_keeps {s0 : State} {c : Chan} {slot : Nat} {nonce : BitVec 256} {s : State} (h : Keeps s0 s) :
    OutKeeps s0 (execChallenge c slot nonce s) := by
  unfold execChallenge
  try dsimp only
  with_reducible repeat'
    (first
      | intro _ | assumption | apply OutKeeps.next | apply State.onSpdm_keeps | apply State.spdmError_keeps
      | apply State.spdm_keeps | apply Keeps.ite)

theorem execGetMeasurements_keeps {s0 : State} {c : Chan} {index : Nat} {nonce : BitVec 256} {s : State}
    (h : Keeps s0 s) :
    OutKeeps s0 (execGetMeasurements c index nonce s) := by
  unfold execGetMeasurements
  try dsimp only
  with_reducible repeat'
    (first
      | intro _ | assumption | apply OutKeeps.next | apply State.onSpdm_keeps | apply State.spdmError_keeps
      | apply State.spdm_keeps | apply Keeps.ite)

theorem execMbDoorbell_keeps {s0 s : State} {a : Bar4} (h : Keeps s0 s) : OutKeeps s0 (execMbDoorbell a s) := by
  unfold execMbDoorbell
  try dsimp only
  with_reducible repeat'
    (first
      | intro _ | assumption | apply State.onSpdm_keeps | apply State.spdm_keeps | apply OutKeeps.next
      | apply State.bar4Read_keeps | apply State.onHport_keeps | apply State.submit_keeps | apply Keeps.ite
      | apply OutKeeps.ite | dsimp only | split)

end Sys2Proof.Machine
end

