-- ==== Sys2Proof/Laws/KeepsMemory.lean ====
section
/-! SUPPORT. The operations of Machine.Memory keep the queue of commands and the invariant. -/

namespace Sys2Proof.Machine

theorem State.portFail_keeps {s0 s : State} {b : Bid} {p : Port} {c : FCode} (h : Keeps s0 s) :
    Keeps s0 (State.portFail s b p c) := by
  unfold State.portFail
  try dsimp only
  with_reducible repeat'
    (first
      | intro _ | assumption | apply State.failRunning_keeps | apply State.wghFail_keeps | apply State.fault_keeps
      | apply Keeps.onFm | apply State.failArr_keeps | apply Keeps.ite | exact BenchKeeps.same rfl
      | apply BenchKeeps.fm | exact FmKeeps.same rfl rfl rfl rfl rfl | exact Foreman.setS_sound
      | exact Foreman.setP_sound | exact Foreman.setT_sound | refine FmKeeps.trans ?_ Foreman.setS_sound
      | refine FmKeeps.trans ?_ Foreman.setT_sound | exact FmKeeps.fewer rfl rfl (by simp) (by simp) (by simp)
      | dsimp only | split)

theorem State.portPark_keeps {s0 s : State} {b : Bid} {p : Port} (h : Keeps s0 s) :
    Keeps s0 (State.portPark s b p) := by
  unfold State.portPark
  try dsimp only
  with_reducible repeat'
    (first
      | intro _ | assumption | apply State.park_keeps | apply State.setRunning_keeps | apply Keeps.setArr
      | apply Keeps.ite | dsimp only | split)

theorem State.portGot_keeps {s0 s : State} {b : Bid} {p : Port} {plan : List RdReq} {r : RdReq} {g : Got}
    (h : Keeps s0 s) :
    Keeps s0 (State.portGot s b p plan r g) := by
  unfold State.portGot
  try dsimp only
  with_reducible repeat'
    (first
      | intro _ | assumption | apply State.setRunning_keeps | apply Keeps.setArr | apply State.onBucket_keeps
      | apply Keeps.ite | dsimp only | split)

theorem State.portPut_keeps {s0 s : State} {b : Bid} {p : Port} {plan : List WrReq} {w : WrReq} (h : Keeps s0 s) :
    Keeps s0 (State.portPut s b p plan w) := by
  unfold State.portPut
  try dsimp only
  with_reducible repeat'
    (first
      | intro _ | assumption | apply State.shadeOlder_keeps | apply State.setRunning_keeps | apply Keeps.setArr
      | apply State.onBucket_keeps | apply Keeps.ite | dsimp only | split)

theorem State.fmRetry_keeps {s0 s : State} {b : Bid} (h : Keeps s0 s) :
    Keeps s0 (State.fmRetry s b).2 := by
  unfold State.fmRetry
  try dsimp only
  with_reducible repeat'
    (first
      | intro _ | assumption | apply fmRun_keeps | apply Keeps.onFm | apply State.portFail_keeps | apply Keeps.ite
      | exact BenchKeeps.same rfl | apply BenchKeeps.fm | exact FmKeeps.same rfl rfl rfl rfl rfl
      | exact Foreman.setS_sound | exact Foreman.setP_sound | exact Foreman.setT_sound
      | refine FmKeeps.trans ?_ Foreman.setS_sound | refine FmKeeps.trans ?_ Foreman.setT_sound
      | exact FmKeeps.fewer rfl rfl (by simp) (by simp) (by simp) | dsimp only | split | apply Keeps.foldl
      | refine FmResKeeps.getOk (by assumption) ?_ | refine FmResKeeps.getWait (by assumption) ?_
      | refine FmResKeeps.getFailed (by assumption) ?_)

theorem State.portStep_keeps {s0 s : State} {b : Bid} {p : Port} (h : Keeps s0 s) :
    Keeps s0 (State.portStep s b p).2 := by
  unfold State.portStep
  try dsimp only
  with_reducible repeat'
    (first
      | intro _ | assumption | apply State.fmRetry_keeps | apply State.access_keeps | apply State.portGot_keeps
      | apply State.portPark_keeps | apply State.portFail_keeps | apply State.store_keeps | apply State.portPut_keeps
      | apply Keeps.ite | dsimp only | split | apply Keeps.foldl | refine PerfKeeps.getOk (by assumption) ?_
      | refine PerfKeeps.getWait (by assumption) ?_ | refine PerfKeeps.getRefused (by assumption) ?_)

theorem State.grantLine_keeps {s0 s : State} {b : Bid} {p : Port} {line : Nat} {read : Bool} {n : Nat} {m : Moved}
    (h : Keeps s0 s) : Keeps s0 (State.grantLine b p line read n m s).2 := by
  induction n generalizing s m with
  | zero => exact h
  | succ n ih =>
    unfold State.grantLine
    have hp : Keeps s0 (s.portStep b p).2 := State.portStep_keeps h
    split
    · exact h
    · split
      · exact h
      · split
        · exact ih (Keeps.snd (by assumption) hp)
        · exact Keeps.snd (by assumption) hp

theorem State.meets_keeps {s0 s : State} {wn : Nat} {upset : Upset} (h : Keeps s0 s) :
    Keeps s0 (State.meets s wn upset) := by
  unfold State.meets
  try dsimp only
  with_reducible repeat'
    (first
      | intro _ | assumption | apply State.decodeWord_keeps | apply State.setMark_keeps | apply Keeps.ite | dsimp only
      | split)

theorem execBankRequestGrant_keeps {s0 s : State} {b : Bid} {bank : Fin 64} {upset : Upset} (h : Keeps s0 s) :
    OutKeeps s0 (execBankRequestGrant b bank upset s) := by
  unfold execBankRequestGrant
  try dsimp only
  with_reducible repeat'
    (first
      | intro _ | assumption | apply State.noteGrant_keeps | apply OutKeeps.next | apply State.grantLine_keeps
      | apply State.meets_keeps | apply State.countB_keeps | apply Keeps.onBench | apply Keeps.onFm
      | exact BenchKeeps.same rfl | apply BenchKeeps.fm | exact FmKeeps.same rfl rfl rfl rfl rfl
      | exact FmKeeps.fewer rfl rfl (by simp) (by simp) (by simp) | apply Keeps.ite | apply OutKeeps.ite | dsimp only | split)

theorem execOperandWaitRetry_keeps {s0 : State} {b : Bid} {who : Requester} {s : State} (h : Keeps s0 s) :
    OutKeeps s0 (execOperandWaitRetry b who s) := by
  unfold execOperandWaitRetry
  try dsimp only
  with_reducible repeat'
    (first
      | intro _ | assumption | apply State.noteGrant_keeps | apply OutKeeps.next | apply State.grantLine_keeps
      | apply State.waitTry_keeps | apply Keeps.ite | apply OutKeeps.ite | dsimp only | split | apply Keeps.foldl)

theorem State.gateTimeout_keeps {s0 s : State} {b : Bid} {g : Gate} (h : Keeps s0 s) :
    Keeps s0 (State.gateTimeout s b g) := by
  unfold State.gateTimeout
  try dsimp only
  with_reducible repeat'
    (first
      | intro _ | assumption | apply State.fault_keeps | apply Keeps.onFm | apply Keeps.ite
      | exact BenchKeeps.same rfl | apply BenchKeeps.fm | exact FmKeeps.same rfl rfl rfl rfl rfl)

theorem execWaitTimeout_keeps {s0 : State} {b : Bid} {who : Requester} {s : State} (h : Keeps s0 s) :
    OutKeeps s0 (execWaitTimeout b who s) := by
  unfold execWaitTimeout
  try dsimp only
  with_reducible repeat'
    (first
      | intro _ | assumption | apply OutKeeps.next | apply State.setRb_keeps | apply State.portFail_keeps
      | apply State.gateTimeout_keeps | apply Keeps.ite | apply OutKeeps.ite | dsimp only | split)

theorem execStkPopEscalate_keeps {s0 : State} {b : Bid} {s : State} (h : Keeps s0 s) :
    OutKeeps s0 (execStkPopEscalate b s) := by
  unfold execStkPopEscalate
  try dsimp only
  with_reducible repeat'
    (first
      | intro _ | assumption | apply OutKeeps.next | apply State.setRunning_keeps | apply Keeps.ite
      | apply OutKeeps.ite | dsimp only | split)

theorem State.patrolStack_keeps {s0 s : State} {k : Fin 8} (h : Keeps s0 s) : Keeps s0 (State.patrolStack s k) := by
  unfold State.patrolStack
  try dsimp only
  with_reducible repeat'
    (first
      | intro _ | assumption | apply State.decodeWord_keeps | apply State.newInterval_keeps | apply State.onStk_keeps
      | apply State.setRf_keeps | apply State.slotsUsed_keeps | apply Keeps.ite | dsimp only | split
      | apply Keeps.foldl)

theorem State.scrubSlot_keeps {s0 s : State} {k : Fin 8} (h : Keeps s0 s) : Keeps s0 (State.scrubSlot s k) := by
  unfold State.scrubSlot
  try dsimp only
  with_reducible repeat'
    (first
      | intro _ | assumption | apply State.patrolStack_keeps | apply State.rewrite_keeps | apply State.slotsUsed_keeps
      | apply Keeps.ite | dsimp only | split)

theorem execStackPatrolRead_keeps {s0 s : State} {k : Fin 8} {at_ : Fin 32} {upset : Upset} (h : Keeps s0 s) :
    OutKeeps s0 (execStackPatrolRead k at_ upset s) := by
  unfold execStackPatrolRead
  try dsimp only
  with_reducible repeat'
    (first
      | intro _ | assumption | apply OutKeeps.next | apply State.meets_keeps | apply State.onStk_keeps
      | apply State.scrubSlot_keeps | apply Keeps.ite | apply OutKeeps.ite)

theorem execStackSlotGrant_keeps {s0 s : State} {k : Fin 8} {upset : Upset} (h : Keeps s0 s) :
    OutKeeps s0 (execStackSlotGrant k upset s) := by
  unfold execStackSlotGrant
  try dsimp only
  with_reducible repeat'
    (first
      | intro _ | assumption | apply OutKeeps.next | apply State.grantLine_keeps | apply State.meets_keeps
      | apply State.onStk_keeps | apply State.scrubSlot_keeps | apply State.slotsUsed_keeps | apply Keeps.ite
      | apply OutKeeps.ite | dsimp only | split)

theorem execCowPageCopy_keeps {s0 : State} {page : Nat} {s : State} (h : Keeps s0 s) :
    OutKeeps s0 (execCowPageCopy page s) := by
  unfold execCowPageCopy
  try dsimp only
  with_reducible repeat'
    (first
      | intro _ | assumption | apply OutKeeps.next | apply State.protect_keeps | apply State.onBulk_keeps
      | apply Keeps.ite | apply OutKeeps.ite | dsimp only | split)

theorem execCowCopyDone_keeps {s0 : State} {page : Nat} {s : State} (h : Keeps s0 s) :
    OutKeeps s0 (execCowCopyDone page s) := by
  unfold execCowCopyDone
  try dsimp only
  with_reducible repeat' (first | intro _ | assumption | apply OutKeeps.next | apply State.onBulk_keeps)

theorem execViewRead_keeps {s0 : State} {p : Part} {n : Fin 4} {addr : Nat} {s : State} (h : Keeps s0 s) :
    OutKeeps s0 (execViewRead p n addr s) := by
  unfold execViewRead
  try dsimp only
  with_reducible repeat'
    (first
      | intro _ | assumption | apply OutKeeps.next | apply State.portStep_keeps | apply State.mirView_keeps
      | apply Keeps.ite | apply OutKeeps.ite | dsimp only | split)

end Sys2Proof.Machine
end

