-- ==== Sys2Proof/Tests/Slice0.lean ====
section
/-!
SUPPORT. Tests: words decoded bit by bit, ill-formed commands refused, and for every statement with hypotheses a state and operands that meet
them.
-/

namespace Sys2Proof.Machine

set_option Elab.async false

/-! ## States that the witnesses use -/

/-- A module that is READY: partition 0 owns every Bench and bulk row 0, Bench 0 is in the plan, and its Foreman is RUNNING. -/
def up : State :=
  let s : State := { State.reset with
    mgmt := { State.reset.mgmt with inForce := some { builtRecord with order384 := true } } }
  let s := (s.setReg (K.PART_CFG 0) 0x1FFFF).setReg K.BOOT_STAT 4
  let s := (s.setReg (K.FP_BENCH0 0) 0x1FFFFFFFF).setReg (K.FP_BENCH1 0) 0xFFFFFFFFFFFFFFFF
  let s := (s.setReg (K.BMC_ROW 0) 4).setReg K.FP_MODULE 0xFFFFFF000000
  s.onFm 0 fun f => { f with st := .running }

/-- `up` with some registers written. -/
def regd (l : List (Nat × Word)) : State := l.foldl (fun s e => s.setReg e.1 e.2) up
/-- `up` with the Foreman of Bench 0 changed. -/
def fmd (f : Foreman → Foreman) : State := up.onFm 0 f
/-- Bench 0 with PRED and PNEG 0. -/
def h0 : Issue := ⟨0, 0, false⟩

/-- A state in which one core of the Hub stands stopped. -/
def down (s : State) (i : Nat) : State :=
  { s with health := { s.health with stopped := ⟨hubNo, ucHubCore, i⟩ :: s.health.stopped } }

/-- The invariant as a check that evaluates. -/
def invB (s : State) : Bool :=
  decide (Memory.wf s.mem) && decide (twf regReset s.regs) && decide (twf (fun _ => WordMark.clear) s.marks)
    && allBids.all fun b => decide ((s.fm b).s[0] = 0) && (s.fm b).p.getLsbD 0 && decide ((s.fm b).marks.length ≤ 8)
      && decide ((s.fm b).sigs.length ≤ 8) && decide ((s.fm b).fences.length ≤ 8)

theorem inv_of_invB {s : State} (h : invB s = true) : s.Inv := by
  simp only [invB, Bool.and_eq_true, decide_eq_true_eq, List.all_eq_true, allBids] at h
  obtain ⟨⟨⟨h1, h2⟩, h3⟩, h4⟩ := h
  refine ⟨⟨h1, h2, h3⟩, fun b => ?_⟩
  have := h4 b (List.mem_finRange b)
  exact ⟨this.1.1.1.1, this.1.1.1.2, this.1.1.2, this.1.2, this.2⟩

/-! ## A witness for each statement that has hypotheses -/

theorem wit_decodeOfEncode :
    (Instr.nop h0).wellFormed = true ∧ encode (.nop h0) = some (0, 0, none)
    ∧ (Instr.imm64 h0 31 5).wellFormed = true ∧ (encode (.imm64 h0 31 5)).map (fun e => e.2.2) = some (some 5) := by decide +kernel

theorem wit_invariantKept : State.reset.Inv ∧ ∃ t, step { State.reset with pending := [.rstModule] } = .next t :=
  ⟨inv_of_invB (by decide +kernel), _, rfl⟩

theorem wit_stepTakesFront : ({ State.reset with pending := [.boot true [], .idleEntryTimer] } : State).pending
    = .boot true [] :: [.idleEntryTimer] := rfl

theorem wit_guardFalse :
    (Instr.nop ⟨0, 0, true⟩).wellFormed = true ∧ (encode (.nop ⟨0, 0, true⟩)).isSome = true ∧ up.canIssue 0 = true
    ∧ ((encode (.nop ⟨0, 0, true⟩)).map fun e => (up.fm 0).guard (issueOf 0 e.2.1)) = some false
    ∧ (up.fm 0).pc.toNat + 2 < 32768 := by decide +kernel

theorem wit_results : up.Issues h0 2 ∧ up.Issues h0 1 ∧ up.Arrived 0 [0, 31, 5] ∧ up.ArrivedT 0 [0, 15] := by decide +kernel

theorem wit_lateResults :
    (fmd fun f => { f with pend := [.s 3 7, .s 4 0] }).fm 0 = { up.fm 0 with pend := .s 3 7 :: [.s 4 0] }
    ∧ ((fmd fun f => { f with pend := [.t 15 1] }).fm 0).pend = .t 15 1 :: [] := by decide +kernel

theorem wit_branchTargets :
    let s := fmd fun f => { f with pc := 32766, s := (f.s.set 1 32767).set 2 32768 }
    s.Issues h0 1 ∧ s.Arrived 0 [2, 31] ∧ (0 : Int) ≤ ((s.fm 0).pc.toNat : Int) + (-32766 : BitVec 20).toInt
    ∧ ((s.fm 0).pc.toNat : Int) + (1 : BitVec 20).toInt < 32768 ∧ ((s.fm 0).pc.toNat : Int) + (-32767 : BitVec 20).toInt < 0
    ∧ 32768 ≤ ((s.fm 0).pc.toNat : Int) + (2 : BitVec 20).toInt ∧ (s.sreg h0 1).toNat < 32768 ∧ 32768 ≤ (s.sreg h0 2).toNat
    ∧ (fmd fun f => { f with pc := 32767 }).canIssue 0 = true ∧ invB s = true
    ∧ invB (fmd fun f => { f with pc := 32767 }) = true := by decide +kernel

theorem wit_endAndMarkers :
    let d := fmd fun f => { f with st := .draining, ending := true }
    let j := (regd [(K.FM_CTL 0, 8)]).onFm 0 fun f => { f with marks := [1, 2, 3, 4, 5, 6, 7] }
    invB d = true ∧ (d.fm 0).st = .draining ∧ (d.bench 0).idle = true
    ∧ j.Issues h0 2 ∧ j.rb (K.FM_CTL 0) F.FM_CTL_JOB = true ∧ (j.fm 0).marks.length < 8 ∧ (j.fm 0).marks ≠ []
    ∧ up.rb (K.FM_CTL 0) F.FM_CTL_JOB = false := by decide +kernel

/-- `up` with the first four words of SRAM full, their bytes 1 to 64. -/
def filled : State :=
  { up with
    mem := (List.range 64).map fun i => (i, BitVec.ofNat 8 (i + 1))
    marks := (List.range 4).map fun i => (i, WordMark.clear.setFull true) }

theorem wit_loadsRead :
    let s := filled.onFm 0 fun f => { f with s := f.s.set 2 (BitVec.ofNat 64 (sramEnd - 64)) }
    invB s = true ∧ s.Issues h0 1 ∧ s.Arrived 0 [1, 3] ∧ s.ArrivedT 0 [2] ∧ inSram (s.sreg h0 1).toNat = true
    ∧ (∀ i < 4, s.Clean h0 ((s.sreg h0 1).toNat / 16 + i) ∧ s.full ((s.sreg h0 1).toNat / 16 + i) = true)
    ∧ (s.sreg h0 1).toNat % 64 = 0 ∧ up.full 0 = false ∧ up.Clean h0 0 := by decide +kernel

theorem wit_storesWrite : invB up = true ∧ up.Issues h0 1 ∧ up.Arrived 0 [1, 3] ∧ up.ArrivedT 0 [2]
    ∧ inSram (up.sreg h0 1).toNat = true ∧ (up.sreg h0 1).toNat % 64 = 0 ∧ (∀ i < 4, up.Clean h0 i ∧ up.full i = false) := by
  decide +kernel

theorem wit_accessFaults :
    let s := fmd fun f => { f with s := ((f.s.set 1 4).set 2 8).set 3 0x200000000 }
    s.Issues h0 1 ∧ s.Arrived 0 [1, 2, 3] ∧ s.ArrivedT 0 [0] ∧ (s.sreg h0 1).toNat % 8 ≠ 0 ∧ (s.sreg h0 2).toNat % 64 ≠ 0
    ∧ (s.sreg h0 3).toNat % 64 = 0 ∧ s.inWindow ((s.partOf 0).getD 0) (s.sreg h0 3).toNat = false
    ∧ ctrlKey (s.sreg h0 3).toNat = none ∧ s.canIssue 0 = true
    ∧ (s.fm 0).guard ⟨0, 0, true⟩ = false ∧ (s.fm 0).pc.toNat + 1 < 32768 := by decide +kernel

theorem wit_programFault :
    let s := regd [(K.FM_FAULT 0, 0x29)]
    let l := up.onCtl 0 fun c => { c with phase := .opened }
    ¬((1 ≤ 0x18 ∧ 0x18 ≤ 0x17) ∨ (0x20 ≤ 0x18 ∧ 0x18 ≤ 0x26) ∨ 0x18 = 0x28 ∨ 0x18 = 0x29)
    ∧ invB up = true ∧ up.rf (K.FM_FAULT 0) F.FM_FAULT_CODE = 0 ∧ invB s = true ∧ s.rf (K.FM_FAULT 0) F.FM_FAULT_CODE ≠ 0
    ∧ l.partOf 0 = some 0 ∧ (l.ctl 0).live = true := by decide +kernel

theorem wit_tickIssues :
    let s := regd [(K.IMEM 0 0, 0x3F0)]
    -- ALU with FUNC 0xFF under PRED 0, PNEG 1, and SYNC.WAIT with GATE 0
    let a := regd [(K.IMEM 0 0, 0x3FC0004010)]
    let g := regd [(K.IMEM 0 0, 0x4038)]
    (a.canIssue a.turn = true ∧ a.fetched 0 = (0x3FC0004010, 0) ∧ decodeInstr 0 0x3FC0004010 0 = none
      ∧ reservedMap 0x3FC0004010 0 = none ∧ (a.fm 0).guard (issueOf 0 0x3FC0004010) = false
      ∧ (decodeInstr 0 (codesMended 0x3FC0004010) 0).isSome = true ∧ (a.fm 0).pc.toNat + 1 < 32768)
    ∧ (g.canIssue g.turn = true ∧ g.fetched 0 = (0x4038, 0) ∧ decodeInstr 0 0x4038 0 = none ∧ reservedMap 0x4038 0 = none
      ∧ (g.fm 0).guard (issueOf 0 0x4038) = false ∧ (decodeInstr 0 (codesMended 0x4038) 0).isSome = true)
    ∧ up.traceOn up.turn = false ∧ (up.bench up.turn).trace = []
    ∧ up.pending = [] ∧ up.canIssue up.turn = true ∧ up.rb (K.CLK_BENCH up.turn) F.CLK_BENCH_STOPPED = false
    ∧ decodeInstr up.turn (up.fetched up.turn).1 (up.fetched up.turn).2 = some (.nop h0)
    ∧ s.canIssue s.turn = true ∧ decodeInstr s.turn (s.fetched s.turn).1 (s.fetched s.turn).2 = none
    ∧ reservedMap (s.fetched s.turn).1 (s.fetched s.turn).2 = none := by decide +kernel

/-- SCR.MAP with OP 0x1F of t1 into t2: no instruction of the table, yet dispatched (R181, R313). -/
theorem wit_tickReservedMap :
    let s := regd [(K.IMEM 0 0, 0x7C000100080415), (K.IMEM 0 1, 7)]
    s.canIssue s.turn = true ∧ decodeInstr s.turn (s.fetched s.turn).1 (s.fetched s.turn).2 = none
    ∧ reservedMap (s.fetched s.turn).1 (s.fetched s.turn).2 = some (0, 1, 2, 7) := by decide +kernel

/-- LD at the control blocks: STEP_CAUSE of partition 0 in the Hub, FM_FAULT of Bench 15 (R557). -/
theorem wit_loadsRegisters :
    let s := fmd fun f => { f with s := (f.s.set 1 0xFF1000800028).set 2 0xFF000F000010 }
    let t := s.setReg (K.FP_BENCH0 15) 0x1FFFFFFFF
    invB s = true ∧ s.Issues h0 1 ∧ s.Arrived 0 [1, 2, 3] ∧ (s.sreg h0 1).toNat = 0xFF1000000000 + 0x800028
    ∧ (match s.regFind 0 false (hubKey + 0x800028) with | .ok r is => r.name == "STEP_CAUSE" && is == [0] | _ => false) = true
    ∧ invB t = true ∧ t.Issues h0 1 ∧ (t.sreg h0 2).toNat = 0xFF0000000000 + 15 * 0x1000000 + 0x10
    ∧ (match t.regFind 0 false (15 * 0x1000000 + 0x10) with | .ok r is => r.name == "FM_FAULT" && is == [15] | _ => false) = true := by
  decide +kernel

/-- Whether an instruction may be dispatched, as a check that evaluates. -/
def disp (s : State) (n : Nat) (q : Fin 8) (ds : List (BitVec 4)) (rs : List (BitVec 5)) : Bool :=
  decide (s.Dispatchable h0 n q ds rs)

/-- Operands of an array instruction and of a conversion. -/
def mf : MMFields := ⟨0, 1, 2, 3, 4, 5, false, false, false, true, false, 0, false⟩
/-- A conversion into two results, the second in the last descriptor register. -/
def cf : CvtFields := ⟨7, 1, 2, 15, true, false, 5, 6⟩

theorem wit_enginesDispatch :
    invB up = true ∧ disp up 1 1 [0, 15] [] = true ∧ disp up 1 1 [0, 15] [31] = true
    ∧ disp up 1 1 [0, 1, 2] [] = true ∧ disp up 1 2 (mmRegs mf) [mf.ra, mf.rb] = true
    ∧ (Instr.cutMm h0 mf).wellFormed = true ∧ up.rb (K.CUT_CTL 0) F.CUT_CTL_SWITCHING = false
    ∧ disp up 1 3 (mmRegs mf) [mf.ra, mf.rb] = true ∧ (Instr.drsMm h0 mf).wellFormed = true
    ∧ disp up 2 4 (cvtRegs cf) [] = true ∧ disp up 1 4 [1, 2] [] = true ∧ disp up 1 6 [1, 2] [3, 4] = true
    ∧ disp up 1 6 [1, 2, 3, 4] [5, 6] = true ∧ disp up 2 7 [1, 2] [3] = true ∧ disp up 1 7 [1] [2, 3] = true := by
  decide +kernel

theorem wit_screensDispatch :
    let s := up.setRf (K.STEP_STATE 0) F.STEP_STATE_PHASE 3
    invB s = true ∧ disp s 2 5 [0, 1, 2, 14, 15] [] = true ∧ disp s 2 5 [0, 1, 2, 15] [0, 31, 1] = true
    ∧ disp s 2 5 [9, 10, 11, 12, 13, 14, 15] [1] = true ∧ (s.fm 0).voteReq = none
    ∧ s.rf (K.STEP_STATE 0) F.STEP_STATE_PHASE = 3 := by decide +kernel

theorem wit_syncIssues :
    let s := (regd [(K.BAR_MASK 0, 0x1)]).onFm 0 fun f =>
      { f with nextId := 7, fences := (List.range 7).map fun i => ⟨i, [], 0, 0⟩, s := f.s.set 1 (BitVec.ofNat 64 (sramEnd - 16)) }
    let m := s.onCtl 0 fun c => { c with mapping := some ⟨[], []⟩ }
    let e := s.onFm 0 fun f => { f with fences := (List.range 8).map fun i => ⟨i, [], 0, 0⟩ }
    let n := e.onFm 0 fun f => { f with ninth := some 0 }
    invB s = true ∧ s.Issues h0 1 ∧ s.Arrived 0 [0, 31, 2] ∧ s.gateRoom 0 0xFF = true ∧ (s.fm 0).fences.length < 8
    ∧ (s.fm 0).ninthWaits = false ∧ e.Issues h0 1 ∧ e.gateRoom 0 0xFF = true ∧ (e.fm 0).ninthWaits = false ∧ 8 ≤ (e.fm 0).fences.length
    ∧ n.Issues h0 1 ∧ (n.fm 0).ninthWaits = true
    ∧ s.SigPlace 0 (up.sreg h0 0) ∧ (s.fm 0).sigs.length < 8 ∧ s.inBarrier 0 0 = true ∧ m.epochOn 0 = true
    ∧ m.inBarrier 0 0 = true ∧ m.Issues h0 1 := by decide +kernel

theorem wit_fenceRetire :
    let s := fmd fun f => { f with fences := [⟨3, [], 0, 0⟩, ⟨4, [1], 0, 0⟩], gates := [⟨0, .fence 3, false, 0, 0, 0⟩] }
    (s.fm 0).fences = ⟨3, [], 0, 0⟩ :: [⟨4, [1], 0, 0⟩] ∧ (s.fm 0).gates = [⟨0, .fence 3, false, 0, 0, 0⟩] := by decide +kernel

theorem wit_signalIssue :
    let s (k : SigKind) : State := fmd fun f => { f with sigs := [⟨k, 0, [], 0, 0⟩] }
    (∀ mode ∈ ([0, 1, 2] : List (BitVec 2)), invB (s (.sig mode (sramEnd - 16) 5)) = true
      ∧ (s (.sig mode (sramEnd - 16) 5)).mayAccess 0 0 = true
      ∧ ((s (.sig mode 0 5)).fm 0).sigs = ⟨.sig mode 0 5, 0, [], 0, 0⟩ :: []
      ∧ ((s (.sig mode 0 5)).mark 0).upset = .clean)
    ∧ invB (s (.bar false 15)) = true ∧ ((s (.bar false 15)).fm 0).sigs = ⟨.bar false 15, 0, [], 0, 0⟩ :: [] := by
  decide +kernel

theorem wit_waitGatesOpen :
    let g (cond : BitVec 2) (cmp : Word) : Gate := ⟨9, .word 48 cond cmp, true, 5, 0, 0⟩
    let s (cond : BitVec 2) (cmp : Word) : State := filled.onFm 0 fun f => { f with gates := [g cond cmp] }
    (∀ cond ∈ ([0, 1, 3] : List (BitVec 2)), invB (s cond 5) = true
      ∧ ((s cond 5).fm 0).gates.find? (fun y => y.id == 9) = some (g cond 5) ∧ (s cond 5).waitHolds 48 cond 5 = true)
    ∧ (s 2 0).waitHolds 48 2 0 = false ∧ (s 2 0).waitHolds 64 2 0 = true ∧ (s 0 0).mayAccess 0 48 = true
    ∧ (s 3 0).waitHolds 48 3 0xFFFFFFFFFFFFFFFF = false ∧ ((s 0 0).mark 3).poison = false := by decide +kernel

theorem wit_barriers :
    let k : Barrier := ⟨[(0, false, 15)], [], [], [], []⟩
    let s := (regd [(K.BAR_MASK 0, 0x3)]).onBar 0 fun _ => k
    let d := (regd [(K.BAR_MASK 0, 0x3), (K.BAR_CTL 0, 1)]).onBar 0 fun b =>
      { b with arrived := (15 * 16, 1) :: (15 * 16 + 1, 1) :: [] }
    let w := d.onFm 1 fun f => { f with gates := [⟨0, .barrier 0 false 15 1, true, 0, 0, 0⟩] }
    s.hubCore barrierCore = true ∧ d.hubCore barrierCore = true ∧ w.hubCore barrierCore = true
    ∧ (down w barrierCore).hubCore barrierCore = false ∧ (s.bar 0).coming = (0, false, 15) :: [] ∧ invB d = true ∧ (d.bar 0).coming = [] ∧ d.barHere 0 15 1 = true
    ∧ genReached (tget 0 (d.bar 0).sentUp 15) 1 = false ∧ d.barBenches 0 ≠ [] ∧ d.rf (K.BAR_GEN 0 15) F.BAR_GEN_RELEASED = 0 ∧ (15, (1 : Nat)) ∉ (d.bar 0).fabric ∧ (1 : Bid) ∈ w.benchesOf 0
    ∧ s.rf (K.BAR_CTL 0) F.BAR_CTL_TIMEOUT = 0 ∧ w.rf (K.BAR_CTL 0) F.BAR_CTL_TIMEOUT ≠ 0 := by decide +kernel

theorem wit_stepIssues :
    let o := (fmd fun f => { f with s := f.s.set 1 7 }).onCtl 0 fun c => { c with phase := .opened, step := 7, attempt := 1 }
    let c := fmd fun f => { f with s := f.s.set 1 8 }
    let l := c.onCtl 0 fun x => { x with last := some (.commit, 7, 0) }
    let n := c.onCtl 0 fun x => { x with last := some (.commit, 8, 0) }
    let v := o.setRf (K.STEP_STATE 0) F.STEP_STATE_PHASE 1
    let e := v.setRf (K.PLM_CTL 0) F.PLM_CTL_ENABLE 0
    o.hubCore stepCore = true ∧ (down o stepCore).hubCore stepCore = false ∧ (v.onFm 0 fun f => { f with evalSent := true }).Issues h0 1
    ∧ invB o = true ∧ o.Issues h0 1 ∧ o.Arrived 0 [1, 2] ∧ (o.fm 0).voteReq = none
    ∧ o.rb (K.ERR_BSTAT 0) F.ERR_BSTAT_SWEEP_ERROR = false ∧ (o.ctl 0).live = true
    ∧ o.rf (K.STEP_STATE 0) F.STEP_STATE_PHASE = 0 ∧ (o.sreg h0 1).toNat % 2 ^ 48 = (o.ctl 0).step
    ∧ invB l = true ∧ (l.ctl 0).live = false ∧ (l.ctl 0).admits ((l.sreg h0 1).toNat % 2 ^ 48) = some 0
    ∧ (c.ctl 0).admits ((c.sreg h0 1).toNat % 2 ^ 48) = some 0
    ∧ (n.ctl 0).live = false ∧ (n.ctl 0).admits ((n.sreg h0 1).toNat % 2 ^ 48) = none
    ∧ invB v = true ∧ v.rf (K.STEP_STATE 0) F.STEP_STATE_PHASE = 1 ∧ v.rb (K.PLM_CTL 0) F.PLM_CTL_ENABLE = true
    ∧ (v.fm 0).evalReq = none ∧ (v.fm 0).evalSent = false ∧ (v.fm 0).evalDone = false
    ∧ invB e = true ∧ e.rb (K.PLM_CTL 0) F.PLM_CTL_ENABLE = false := by decide +kernel

theorem wit_stepVoteSend :
    let v : VoteReq := ⟨.pass, [], [], 3, false, 0, 0⟩
    let s := (fmd fun f => { f with voteReq := some v, evalDone := true }).onCtl 0 fun c => { c with phase := .opened }
    let k := s.onFm 0 fun f => { f with evalDone := false, evalSent := true }
    invB s = true ∧ s.partOf 0 = some 0 ∧ (s.fm 0).voteReq = some v ∧ (s.ctl 0).live = true ∧ (s.fm 0).evalOver = true
    ∧ s.wghFinished 0 (s.ctl 0).step (s.ctl 0).attempt = true ∧ s.hubCore stepCore = true
    ∧ (down s stepCore).hubCore stepCore = false ∧ (k.fm 0).voteReq = some v ∧ (k.fm 0).evalOver = false := by decide +kernel

theorem wit_foremanControl :
    let st := fmd fun f => { f with st := .stopped }
    let fa := fmd fun f => { f with st := .faulted }
    let cl := fmd fun f => { f with st := .faulted, clearing := true }
    let go := (regd [(K.PROG_LOAD1 0, 0x18000)]).onFm 0 fun f => { f with st := .stopped }
    let ld := { filled with loads := up.loads.set 0 [⟨1, 0, 4⟩] }
    let un := ld.setReg (K.FP_BENCH1 0) 0
    let qu (s : State) : State := s.setRb (K.CLK_BENCH 0) F.CLK_BENCH_STOPPED true
    (qu ld).rb (K.CLK_BENCH 0) F.CLK_BENCH_STOPPED = true ∧ ld.rb (K.CLK_BENCH 0) F.CLK_BENCH_STOPPED = false
    ∧ (go.fm 0).st = .stopped ∧ (regd [(K.PROG_LOAD0 0, 64)]).loadSrc 0 % 4096 ≠ 0
    ∧ 32768 < (regd [(K.PROG_LOAD1 0, 0x18001)]).loadLen 0
    ∧ up.rangeOk 0 ((regd [(K.PROG_LOAD0 0, 0xFF0000000000)]).loadSrc 0) 8 = false ∧ up.owns 1 0 = false ∧
    invB st = true ∧ (st.fm 0).st = .stopped ∧ st.loading 0 = false ∧ st.present 0 ucForeman 0 = true ∧ st.ready = true
    ∧ st.mgmt.testMode = 0 ∧ st.inReset 0 = false ∧ (up.fm 0).st = .running ∧ invB fa = true ∧ (fa.fm 0).clearing = false
    ∧ invB cl = true ∧ (cl.bench 0).working = false ∧ (up.fm 0).st ≠ .stopped
    ∧ up.loadLen 0 = 0 ∧ invB go = true ∧ go.loads[0] = []
    ∧ (∀ c : Bid, (go.loadMask 0).testBit c.val = true → go.owns 0 c = true ∧ (go.fm c).st = .stopped) ∧ go.loadSrc 0 % 4096 = 0
    ∧ go.loadLen 0 = 32768 ∧ go.rangeOk 0 (go.loadSrc 0) (8 * go.loadLen 0) = true ∧ invB ld = true ∧ ld.loads[0] = ⟨1, 0, 4⟩ :: []
    ∧ (∀ c ∈ st.benchesOf 0, (st.fm c).st = .stopped)
    ∧ (∀ w ∈ wordsOf 0 32, ld.served 0 (16 * w) = true ∧ (ld.mark w).upset = .clean ∧ (ld.mark w).poison = false)
    ∧ invB un = true ∧ un.loads[0] = ⟨1, 0, 4⟩ :: [] ∧ (∃ w ∈ wordsOf 0 32, un.served 0 (16 * w) = false) := by decide +kernel

/-- The next state of an outcome; the state after reset where there is none. -/
def after : Out → State
  | .next s => s
  | _ => .reset
/-- Commands performed one after another. -/
def run (s : State) (l : List Instr) : State := l.foldl (fun s i => after (exec i s)) s
/-- A plain descriptor of two dimensions: its base, format, extents and row stride. -/
def dsc (base fmt n0 n1 stride : Nat) : Desc :=
  BitVec.ofNat 512 (base + fmt * 2 ^ 48 + 2 * 2 ^ 61 + 0x2800000 * 2 ^ 64 + n0 * 2 ^ 128 + n1 * 2 ^ 192 + stride * 2 ^ 220)
/-- `filled` with descriptors of two rows of eight at 0 (BF16, BF16, F32 at 128) and a shape of 2 by 1 by 8 in s4. -/
def fed : State := filled.onFm 0 fun f =>
  { f with t := ((f.t.set 1 (dsc 0 BF16 8 2 16)).set 2 (dsc 32 BF16 8 2 16)).set 3 (dsc 128 F32 2 2 16)
           s := f.s.set 4 (BitVec.ofNat 64 (2 + 2 * 2 ^ 11 + 8 * 2 ^ 20)) }
/-- A Dresser instruction on it that drains, and one of a Cutter. -/
def df : MMFields := ⟨0, 1, 2, 3, 4, 0, false, false, false, true, false, 0, false⟩
/-- Whether a list of accesses was performed to its end. -/
def isDone {α β : Type} : Perf α × List β → Bool
  | (.ok _ _, []) => true
  | _ => false

theorem wit_dispatchStalls :
    let s (q : Fin 8) : State := up.setQueue 0 q (List.replicate 16 (.gate 0))
    let t := fmd fun f => { f with pend := [.t 1 0] }
    let w := regd [(K.CUT_CTL 0, 4)]
    let k (s : State) : State := s.setRf (K.STEP_STATE 0) F.STEP_STATE_PHASE 3
    let r := fmd fun f => { f with pend := [.s 1 0] }
    let g := (s 4).onFm 0 fun f => { f with sigs := List.replicate 8 ⟨.bar false 0, 0, [], 0, 0⟩ }
    (∀ q ∈ ([1, 2, 3, 4, 5, 6, 7] : List (Fin 8)), (s q).Issues h0 2 ∧ (s q).hasRoom 0 q = false)
    ∧ (∀ x ∈ ([(.haulLd h0 0 1 2 0x688, 1), (.cutMm h0 mf, 2), (.drsMm h0 mf, 3), (.wdgRot h0 ⟨0, 1, 2, 0, false⟩, 4),
        (.scrMapCopy h0 0 1 2 7, 5), (.wghRed h0 1 2 1 2 0 false, 6), (.stkPush h0 1 2 1 7, 7)] : List (Instr × Fin 8)),
        (engineOf x.1).map (fun e => e.2.2.1) = some x.2 ∧ x.1.wellFormed = true)
    ∧ w.Issues h0 1 ∧ w.rb (K.CUT_CTL 0) F.CUT_CTL_SWITCHING = true
    ∧ (k (s 5)).hasRoom 0 5 = false ∧ (k (s 5)).Issues h0 2 ∧ (k (s 5)).rf (K.STEP_STATE 0) F.STEP_STATE_PHASE = 3
    ∧ (k t).rf (K.STEP_STATE 0) F.STEP_STATE_PHASE = 3 ∧ (k r).rf (K.STEP_STATE 0) F.STEP_STATE_PHASE = 3
    ∧ r.Issues h0 1 ∧ (r.fm 0).pendS 1 = true ∧ g.Issues h0 1 ∧ g.Arrived 0 [0, 31, 2] ∧ g.SigPlace 0 (g.sreg h0 0)
    ∧ 8 ≤ (g.fm 0).sigs.length ∧ g.gateRoom 0 0x10 = false := by decide +kernel

theorem wit_dispatchRefusals :
    let t := fmd fun f => { f with pend := [.t 1 0] }
    let v := fmd fun f => { f with voteReq := some ⟨.pass, [], [], 3, false, 0, 0⟩ }
    let a := fmd fun f => { f with s := ((f.s.set 1 8).set 2 (BitVec.ofNat 64 (sramEnd + 16))).set 3 0x1000000 }
    t.Issues h0 2 ∧ (t.fm 0).pendT 1 = true ∧ v.Issues h0 2
    ∧ (v.fm 0).voteReq ≠ none ∧ up.Issues h0 2 ∧ up.rf (K.STEP_STATE 0) F.STEP_STATE_PHASE ≠ 3
    ∧ a.Issues h0 1 ∧ a.Arrived 0 [1, 2, 0] ∧ a.Arrived 0 [3, 31, 0] ∧ (a.sreg h0 1).toNat % 16 ≠ 0
    ∧ (a.sreg h0 2).toNat % 16 = 0 ∧ (inSram (a.sreg h0 2).toNat && a.owns 0 (benchOf (a.sreg h0 2).toNat)) = false
    ∧ a.inBarrier 0 0 = false := by decide +kernel

/-- The instruction that waits at the head of its queue for Dresser 0 of Bench 0. -/
def dh (s : State) : Entry := (s.arrHead 0 4).getD ⟨0, .pop, 0, none, [], [], 0, 0, 0, [], [], false, false, false, 0, 0, 0⟩

/-- The state behind each of the first commands of an array instruction. -/
def a1 : State := run fed [.drsMm h0 df]
def a2 : State := run a1 [.arrayHeadCheck 0 4]
def a3 : State := run a2 [.tileLoadStart 0 4]
def a4 : State := run a3 [.tileLoadDone 0 4]
def a5 : State := run a4 [.streamStart 0 4]
def a6 : State := run a5 [.accumRowUpdate 0 4 none]

theorem wit_arrayTiles :
    invB a1 = true ∧ (a1.arrHead 0 4).isSome = true ∧ (dh a1).mm = some df ∧ a1.arrFree 0 4 = true
    ∧ (a1.arr 0 4).checked ≠ some (dh a1).id
    ∧ firstFault (a1.arrayChecks 0 4 (mkJob (dh a1) df (a1.arr 0 4).front) (a1.arr 0 4).front) = none
    ∧ firstFault ((a1.setReg (K.FP_BENCH0 0) 0).arrayChecks 0 4 (mkJob (dh a1) df none) none) = some .unitAbsent
    ∧ (a2.arrHead 0 4).isSome = true ∧ (a2.arr 0 4).checked = some (dh a2).id ∧ (a2.arr 0 4).load = none
    ∧ (∀ w ∈ firstGroup (tensorOf (dh a2).descB) df.tb (fld ((dh a2).r 1) 21 21) (fld ((dh a2).r 0) 11 9) (fld ((dh a2).r 1) 42 21)
        (fld ((dh a2).r 0) 20 10), a2.full w = true)
    ∧ (a2.capture 0 4 (mkJob (dh a2) df none) (dh a2).descB).toBool = true
    ∧ (a3.arr 0 4).load.isSome = true
    ∧ ((a3.arr 0 4).load.all fun j => isDone (State.readAll (j.who a3 0 4) (a3.arr 0 4).loadReads (a3.arr 0 4).loadGot a3)) = true
    ∧ (a4.arr 0 4).stream = none ∧ (a4.arr 0 4).back.isSome = true
    ∧ ((a4.arr 0 4).back.all fun x => x.1.pair == false) = true := by decide +kernel

theorem wit_arrayRows :
    (a5.arr 0 4).front.isSome = true ∧ a5.coreStopped 0 (arrClass 4) (arrNum 4) = false ∧ (a5.arr 0 4).rowPlanned = false
    ∧ ((a5.arr 0 4).stream.all fun j => decide (j.updated < j.m) && !(a5.arr 0 4).held (j.a0 + j.updated) && !j.pair
        && isDone (State.readAll (j.who a5 0 4) (planReads j.memClass (tensorOf j.e.descA)
          ((List.range j.k).map fun x => opIndex j.f.ta (j.m0 + j.updated) (j.k0 + x)) (a5.arr 0 4).rowGot)
          (a5.arr 0 4).rowGot a5)) = true
    ∧ (a5.arr 0 4).stream.isSome = true ∧ ((a5.arr 0 4).front.all fun t => decide (t.cols.length ≤ 256)) = true
    ∧ invB a6 = true ∧ (a6.arr 0 4).drainJob.isSome = true ∧ (a6.arr 0 4).drainPlanned = false
    ∧ ((a6.arr 0 4).drainJob.all fun j =>
        let ws := drainWrites (tensorOf j.e.descDrain) j j.drained (a6.arr 0 4)
        ws.all (fun w => inSram (16 * w.word)) && isDone (State.writeAll (j.who a6 0 4) ws a6)) = true := by decide +kernel

theorem wit_arrayComplete :
    let s := run a6 [.accumDrainRow 0 4, .accumRowUpdate 0 4 none, .accumDrainRow 0 4]
    (s.arr 0 4).drains.length = 1 ∧ ((s.arr 0 4).drains.all fun j => j.f.drain && decide (j.m ≤ j.drained)) = true := by
  decide +kernel

theorem wit_modeSwitches :
    let c := regd [(K.CUT_CTL 0, 5)]
    let q := (up.setQueue 0 2 [.modeSwitch true]).setQueue 0 3 [.modeSwitch true]
    invB up = true ∧ (1 : Word).toNat % 2 ≠ up.rf (K.CUT_CTL 0) F.CUT_CTL_MODE ∧ (6 : Word).toNat % 2 = up.rf (K.CUT_CTL 0) F.CUT_CTL_MODE
    ∧ (1 : Word).toNat % 2 ≠ up.rf (K.ERR_BCTL 0) F.ERR_BCTL_MODE ∧ invB c = true ∧ (c.bench 0).outstanding 2 = []
    ∧ c.rf (K.CUT_CTL 0) F.CUT_CTL_MODE = 1 ∧ c.rb (K.CUT_CTL 0) F.CUT_CTL_SWITCHING = true ∧ invB q = true ∧ (∀ u, (q.arr 0 u).jobs = [])
    ∧ q.queue 0 2 = .modeSwitch true :: [] ∧ q.queue 0 3 = .modeSwitch true :: [] := by decide +kernel

/-- A parked LD of a word, and an instruction in progress. -/
def parkedLd (addr : Nat) (fe : BitVec 2) : FmAccess := ⟨.ld, 5, addr, fe, 0, [], 0, 0, 0, 0⟩
/-- An instruction of operation `op` on descriptors `ds` and registers `rs`. -/
def ent (op : EngOp) (sel : Nat) (ds : List Desc) (rs : List Word) : Entry :=
  ⟨0, op, sel, none, ds, rs, 0, 0, 0, [], [], false, false, false, 0, 0, 0⟩
/-- An instruction in progress on unit 0 of a queue. -/
def runs (q : Fin 8) (e : Entry) (reads : List RdReq) (writes : List WrReq) : Running :=
  ⟨e, q, 0, false, [], [], reads, [], false, writes, [], none, false⟩
/-- `filled` with one instruction in progress on Bench 0. -/
def going (r : Running) : State := filled.onBench 0 fun x => { x with run := [r] }
/-- `a3` with its tile in bulk memory, where nothing is yet read. -/
def a3b : State := run (fed.onFm 0 fun f => { f with t := f.t.set 2 (dsc bulkBase BF16 8 2 16) })
  [.drsMm h0 df, .arrayHeadCheck 0 4, .tileLoadStart 0 4]

theorem wit_grants :
    let when (n : Nat) : Nat := tget 0 (a3.bench 0).lru n
    invB a3 = true ∧ leastRecent when (a3.bankWants 0 0) = some (4, 0, .load 4, .rd ⟨2, 2, none, 1⟩)
    ∧ a3.Readable ((a3.partOf 0).getD 0) ⟨2, 2, none, 1⟩
    ∧ invB a3b = true ∧ a3b.stackWants 0 = [(0, .load 4, .rd ⟨bulkBase / 16, 2, none, 1⟩)] ∧ a3b.stackRewrite 0 = none
    ∧ (a3b.stk 0).due = false ∧ (a3b.arr 0 4).load.isSome = true ∧ a3b.Readable ((a3b.partOf 0).getD 0) ⟨bulkBase / 16, 2, none, 1⟩
    ∧ up.stackWants 7 = [] ∧ up.stackRewrite 7 = none ∧ (up.stk 7).due = false ∧ (up.stk 7).slot < 256 := by decide +kernel

theorem wit_retries :
    let l := filled.onFm 0 fun f => { f with parked := some (parkedLd 56 1) }
    let x : Gate := ⟨9, .word 48 1 0, true, 5, 0, 0⟩
    let g := filled.onFm 0 fun f => { f with gates := [x] }
    let w := (regd [(K.BMEM_CTL 0, 5)]).onFm 0 fun f => { f with parked := some (parkedLd (sramEnd - 8) 0) }
    invB l = true ∧ (l.fm 0).parked = some (parkedLd 56 1) ∧ l.Readable ((l.partOf 0).getD 0) ⟨3, 1, none, 1⟩
    ∧ invB g = true ∧ (g.fm 0).parked = none ∧ (g.fm 0).gates = [x] ∧ g.waitHolds 48 1 0 = true ∧ g.mayAccess 0 48 = true
    ∧ w.rf (K.BMEM_CTL 0) F.BMEM_CTL_WAIT_LIMIT ≠ 0 ∧ (w.fm 0).parked = some (parkedLd (sramEnd - 8) 0)
    ∧ w.full ((sramEnd - 8) / 16) = false := by decide +kernel

theorem wit_popEscalate :
    let r := runs 7 (ent .pop 0 [dsc 0x1000 F32 4 1 0] [0, 0]) [] []
    let s := (going r).onFm 0 fun f => { f with parked := some (parkedLd 0x1008 0) }
    invB s = true ∧ (s.bench 0).running 7 0 = some r ∧ isPush r.e = false
    ∧ (Port.fm, Ask.rd ⟨0x100, 0, none, 1⟩) ∈ s.wants 0 ∧ s.portParked 0 .fm = true
    ∧ s.performable (.rd ⟨0x100, 0, none, 1⟩) = false ∧ 0x100 ∈ (r.e.tensor 0).words := by decide +kernel

theorem wit_popEscalateGate :
    let r := runs 7 (ent .pop 0 [dsc 0x1000 F32 4 1 0] [0, 0]) [] []
    let s := (going r).onFm 0 fun f => { f with gates := [⟨9, .word 0x1000 0 0, true, 5, 0, 0⟩] }
    invB s = true ∧ (s.bench 0).running 7 0 = some r
    ∧ (s.fm 0).gates = [⟨9, .word 0x1000 0 0, true, 5, 0, 0⟩] ∧ 0x1000 / 16 ∈ (r.e.tensor 0).words := by decide +kernel

/-- A COPY_OUT of a host queue waits under FE WAIT on the destination of a pop (R236, R427). -/
theorem wit_popEscalateHost :
    let r := runs 7 (ent .pop 0 [dsc 0x1000 F32 4 1 0] [0, 0]) [] []
    let c : QCmd := ⟨[3, 0x1000, 0x1000, 1, 0, 0, 0, 0], 1, true, 0, 0, false, none, none, 0, 0, true⟩
    let s := (going r).setHq 255 ⟨[c], true, [], 0⟩
    invB s = true ∧ (s.bench 0).running 7 0 = some r ∧ s.hostParked = [0x100] ∧ 0x100 ∈ (r.e.tensor 0).words := by decide +kernel

theorem wit_memoryUpkeep :
    let w : State := { up with marks := [(7, { WordMark.clear with upset := .symbol 35 0xF })] }
    let p := regd [(K.BMEM_CTL 0, 0x10000)]
    let n := regd [(K.BMEM_CTL 0, 0)]
    let k := regd [(K.BMC_SCRUB, 1)]
    let z := regd [(K.BMC_SCRUB, 0)]
    let y := (a3b.setReg K.BMC_SCRUB 1).setReg K.BMC_SHARE 0
    let d := k.onBulk fun b => { b with stk := b.stk.set 0 { Stack.reset with due := true } }
    invB w = true ∧ w.bankWaits 0 0 = some 7 ∧ invB p = true ∧ p.rb (K.BMEM_CTL 0) F.BMEM_CTL_PATROL = true ∧ p.bankOk 0 63 = true
    ∧ invB n = true ∧ n.rb (K.BMEM_CTL 0) F.BMEM_CTL_PATROL = false
    ∧ invB k = true ∧ k.rf K.BMC_SCRUB F.BMC_SCRUB_INTERVAL ≠ 0 ∧ k.stackOk 0 = true
    ∧ k.hubCore (stackCore 0) = true ∧ d.hubCore (stackCore 0) = true ∧ invB z = true ∧ z.rf K.BMC_SCRUB F.BMC_SCRUB_INTERVAL = 0
    ∧ k.stackWants 0 = [] ∧ k.stackRewrite 0 = none ∧ invB y = true ∧ y.rf K.BMC_SCRUB F.BMC_SCRUB_INTERVAL ≠ 0
    ∧ y.stackOk 0 = true ∧ (∃ x ∈ y.stackWants 0, x.2.2.memClass < 3) ∧ y.rf K.BMC_SHARE F.BMC_SHARE_SCRUB = 0
    ∧ invB d = true ∧ d.stackWants 0 = [] ∧ d.stackRewrite 0 = none ∧ (d.stk 0).due = true := by decide +kernel

theorem wit_protectionSets :
    let a := regd [(K.COW_CTL 0 3, 1)]
    let r := regd [(K.COW_CTL 0 3, 3)]
    let tx : MirrorTx := { set := 1, todo := [4, 5], sent := [], begun := true, manifestSent := false }
    let m := up.setTx 0 (some tx)
    invB up = true ∧ up.armed 0 3 = false ∧ invB a = true ∧ a.armed 0 3 = true ∧ invB r = true
    ∧ r.rb (K.COW_CTL 0 3) F.COW_CTL_RELEASE = true ∧ invB m = true ∧ m.bulk.tx[(0 : Part)] = some tx ∧ m.broken 0 1 = false
    ∧ m.isLost 0 m.buddy = false ∧ ∀ k < 8, m.hubCore (stackCore k) = true := by decide +kernel

/-- `up` where set 0 of partition 0 protects bulk page 0, the reserve pool is page 1, and a Hauler is to write page 0. -/
def guarded (pool : Nat) : State :=
  (regd [(K.COW_CTL 0 0, 1), (K.COW_RGN 0 0 0, 0x1000000), (K.BMC_PART 0, BitVec.ofNat 64 (0x100 + pool * 0x100000000))]).onBench 0 fun x =>
    { x with run := [{ runs 1 (ent (.haul .ld 0 0 0) 0 [] []) [] [⟨bulkBase / 16, 0, 0, 2, false, 1⟩] with computed := true }] }

theorem wit_protectedWrite :
    let x : Port × Ask := (.run 1 0, .wr ⟨bulkBase / 16, 0, 0, 2, false, 1⟩)
    ∀ n ∈ ([0, 1] : List Nat), invB (guarded n) = true ∧ (guarded n).partOf 0 = some 0 ∧ x ∈ (guarded n).wants 0
      ∧ inSram x.2.addr = false ∧ pageOf x.2.addr = 0 ∧ (guarded n).mayAccess 0 x.2.addr = true
      ∧ (guarded n).needCopy 0 0 = [0] ∧ 0 ∉ (guarded n).bulk.copying
      ∧ (∀ c, (guarded n).partOf c = none → (guarded n).wants c = [])
      ∧ (guarded n).freeReserve 0 = if n = 0 then none else some 1 := by decide +kernel

theorem wit_viewRead :
    let q : RdReq := ⟨bulkBase / 16, 2, some 0, 1⟩
    let r := runs 4 (ent (.cvt cf) 0 [] []) [q] []
    let s := going r
    let c := s.onBulk fun b => { b with cow := b.cow.set 0 ⟨[(0, 2)]⟩ }
    let k := s.setReg (K.COW_CTL 0 0) 5
    let ok (s : State) : Bool := invB s && s.exportView 0 bulkBase == some (0, .run 4 0) && s.partOf 0 == some 0
      && (s.bench 0).running 4 0 == some r && s.mayAccess 0 (16 * q.word) && (s.mark q.word).upset == .clean
      && !(s.mark q.word).poison
    ok s = true ∧ (s.cow 0 0).copyOf 0 = 0 ∧ s.broken 0 0 = false ∧ ok c = true ∧ (c.cow 0 0).copyOf 0 = 2
    ∧ ok k = true ∧ k.broken 0 0 = true := by decide +kernel

theorem wit_bulkControl :
    let w := fmd fun f => { f with st := .stopped }
    let z := up.onBulk fun b => { b with zeroing := [(47, 6)] }
    let e := up.onCtl 0 fun c => { c with mapping := some ⟨[], []⟩ }
    invB w = true ∧ invB up = true ∧ 47 < w.rowsInstalled ∧ (4 : Word).toNat % 8 ≠ (w.reg (K.BMC_ROW 47)).toNat % 8
    ∧ w.rowOwner 47 = none ∧ w.mirrorRow 47 = false ∧ rowImage 4 = some 0 ∧ w.rowsFree 0 = true
    ∧ w.rowOwner 0 = some 0 ∧ rowImage 0 = none ∧ (0 : Word).toNat % 8 ≠ (w.reg (K.BMC_ROW 0)).toNat % 8 ∧ w.poolIn 0 0 = false
    ∧ up.rowOwner 0 = some 0 ∧ up.rowsFree 0 = false ∧ invB z = true ∧ z.bulk.zeroing = (47, 6) :: []
    ∧ w.rf (K.BMC_PART 0) F.BMC_PART_RSV_BASE = 0 ∧ w.rf (K.BMC_PART 0) F.BMC_PART_RSV_PAGES = 0
    ∧ w.rf (K.BMC_PART 0) F.BMC_PART_IMODE = 0 ∧ w.epochOn 0 = false ∧ w.bulkIdle 0 = true ∧ e.epochOn 0 = true ∧ invB e = true
    ∧ invB (w.setReg (K.BMC_PART 0) 0x100000000) = true
    ∧ (w.setReg (K.BMC_PART 0) 0x100000000).rf (K.BMC_PART 0) F.BMC_PART_RSV_PAGES = 1
    ∧ (w.setReg (K.BMC_PART 0) 0x100000000).rowsFree 0 = true
    ∧ (∀ p, rowImage 4 = some p → w.rb (K.BMC_PART p) F.BMC_PART_IMODE = false) ∧ w.inBulk bulkBase = true := by decide +kernel

theorem wit_rowsAndPool :
    let w := fmd fun f => { f with st := .stopped }
    let z (v : Word) : State := w.onBulk fun b => { b with zeroing := [(0, v)] }
    let r := w.setReg (K.BMC_PART 0) 0x100000000
    invB (z 0) = true ∧ (z 0).bulk.zeroing = (0, 0) :: [] ∧ (z 0).rowBad 0 0 = false
    ∧ (up.onBulk fun b => { b with zeroing := [(0, 0)] }).rowBad 0 0 = true
    ∧ r.rowOwner 0 = some 0 ∧ rowImage 5 ≠ some 0 ∧ r.poolIn 0 0 = true
    ∧ (∀ i < 1, w.rowOwner ((4095 + i) / 4096) = some 0) ∧ ¬(∀ i < 2, w.rowOwner ((4095 + i) / 4096) = some 0)
    ∧ w.rowsFree 0 = true ∧ w.rf (K.BMC_PART 0) F.BMC_PART_RSV_BASE ≠ 4095 := by decide +kernel

/-- The byte at offset 0x0246_5678 of stack 4, at row base + 4 GiB + that offset in local mode, is read at R250's example address
once the row is interleaved. -/
theorem test_imode_moves_no_data :
    let w := fmd fun f => { f with st := .stopped }
    let w := { w with mem := [(0x10102465678, 7)] }
    w.stackOf 0 0x10102465678 = (4, 0x2465678)
    ∧ (w.writeBmcPart 0 1).mem = [(0x10012345678, 7)] ∧ (w.writeBmcPart 0 1).stackOf 0 0x10012345678 = (4, 0x2465678) := by
  decide +kernel

/-- A module whose Bench 0 holds two rows of eight BF16 elements at 0; t1 names them, t2 and t3 are F32 destinations, t5 is an I32
index tensor of two, t6 and t7 a gather's operands, t8 a stash like t1. -/
def eng : State := (regd [(K.STK_SRAM_TIER 0, 0x10010), (K.STEP_STATE 0, 0)]).onFm 0 fun f =>
  let t := (((f.t.set 1 (dsc 0 BF16 8 2 16)).set 2 (dsc 0x1000 F32 8 2 32)).set 3 (dsc 0x2000 F32 8 2 32)).set 8 (dsc 0 BF16 8 2 16)
  { f with t := (t.set 5 (dsc 0x3000 I32 2 1 0 - (1 <<< 61))).set 6 (dsc 0x4000 BF16 8 2 16), s := f.s.set 1 0x5000 }

/-- Operands of a conversion into one result. -/
def cf1 : CvtFields := ⟨4, 1, 2, 0, false, false, 5, 0⟩
/-- The next instruction of a queue of Bench 0 with its unit. -/
def hd (s : State) (q : Fin 8) : Entry := ((s.nextHead 0 q).map Prod.fst).getD (ent .pop 0 [] [])
/-- The instruction in progress on unit 0 of a queue of Bench 0. -/
def rn (s : State) (q : Fin 8) : Running := ((s.bench 0).running q 0).getD (runs q (ent .pop 0 [] []) [] [])

def eW : State := run eng [.wdgCvt h0 cf1]
def eH : State := run eng [.haulLd h0 8 1 2 8]
def eS : State := run eng [.scrMapCopy h0 2 1 3 7]

theorem wit_enginesBegin :
    eng.pwr.mainOn = true ∧ eW.queueRuns 0 4 = true ∧ eW.nextHead 0 4 = some (hd eW 4, 0)
    ∧ firstFault (eW.wedgeChecks 0 (hd eW 4) 0) = none ∧ eH.queueRuns 0 1 = true ∧ eH.nextHead 0 1 = some (hd eH 1, 0)
    ∧ firstFault (eH.haulChecks 0 (hd eH 1) 0) = none ∧ eS.queueRuns 0 5 = true ∧ eS.nextHead 0 5 = some (hd eS 5, 0)
    ∧ (hd eS 5).isOpt = false ∧ firstFault (eS.screenChecks 0 (hd eS 5) 0) = none := by decide +kernel

theorem wit_engineFaults :
    let w := run eng [.wdgCvt h0 { cf1 with dc := 15, dual := true, exp := true }]
    let h := run eng [.haulLd h0 9 1 2 8]
    let c := run eng [.scrMapCopy h0 3 1 3 7]
    w.nextHead 0 4 = some (hd w 4, 0) ∧ firstFault (w.wedgeChecks 0 (hd w 4) 0) = some .instrInvalid
    ∧ h.nextHead 0 1 = some (hd h 1, 8) ∧ firstFault (h.haulChecks 0 (hd h 1) 8) = some .instrInvalid
    ∧ c.nextHead 0 5 = some (hd c 5, 2) ∧ firstFault (c.screenChecks 0 (hd c 5) 2) = some .instrInvalid := by decide +kernel

/-- A module that is to sweep one row of eight elements in a COMMITTED step, its parameter block at 0x8000 holding x first. -/
def sweep (x : Nat) : State :=
  let s : State := { up with mem := (List.range 4).filterMap fun i => if x / 2 ^ (8 * i) % 256 = 0 then none else some (0x8000 + i, BitVec.ofNat 8 (x / 2 ^ (8 * i))) }
  run ((s.setRf (K.STEP_STATE 0) F.STEP_STATE_PHASE 3).onFm 0 fun f =>
    let t := ((f.t.set 1 (dsc 0 F32 8 1 0)).set 2 (dsc 0x400 F32 8 1 0)).set 3 (dsc 0x1000 BF16 8 1 0)
    let t := ((t.set 4 (dsc 0x2000 M8L 8 1 0 + (1 <<< 52))).set 5 (dsc 0x2400 M8L 8 1 0 + (1 <<< 52)))
    { f with t := (t.set 6 (dsc 0x3000 M8Q 8 1 0 + (1 <<< 52))).set 7 (dsc 0x3400 M8Q 8 1 0 + (1 <<< 52)), s := f.s.set 1 0x8000 })
    [.scrOpt h0 2 1 1 false 7 8]

/-- The parameter block's words and the state behind their reading. -/
def params (s : State) : (Perf (Tab Got)) × List RdReq :=
  State.readAll ((hd s 5).who s 0 5 0) ((wordsOf 0x8000 64).map fun n => ⟨n, 2, none, 1⟩) [] s

theorem wit_optBegins :
    let s := sweep 0
    let n := sweep 0x7FC00000
    s.queueRuns 0 5 = true ∧ s.nextHead 0 5 = some (hd s 5, 0) ∧ (hd s 5).isOpt = true
    ∧ firstFault (s.screenChecks 0 (hd s 5) 0) = none ∧ isDone (params s) = true
    ∧ (match (params s).1 with
        | .ok g t => ((paramWords g 0x8000).take 10).all (fun v => (dec32 v.toNat).isFinite) && t.queueRuns 0 5
            && t.nextHead 0 5 == some (hd s 5, 0) && firstFault (t.screenChecks 0 (hd s 5) 0) == none && t.pwr.mainOn
        | _ => false) = true
    ∧ n.nextHead 0 5 = some (hd n 5, 0) ∧ firstFault (n.screenChecks 0 (hd n 5) 0) = none ∧ isDone (params n) = true
    ∧ (match (params n).1 with
        | .ok g _ => (paramWords g 0x8000).getD 10 0 == 0 && ((paramWords g 0x8000).take 10).any fun v => !(dec32 v.toNat).isFinite
        | _ => false) = true := by decide +kernel

/-- The state behind the reads of an instruction in progress, and the words read. -/
def readB (s : State) (q : Fin 8) : Perf (Tab Got) × List RdReq :=
  State.readAll ((rn s q).e.who s 0 q 0) (rn s q).reads (rn s q).got s

/-- Whether an instruction in progress reads all its words and then writes all of `ws`. -/
def ends (s : State) (q : Fin 8) (ws : Running → List WrReq) : Bool :=
  match readB s q with
  | (.ok g t, []) => isDone (State.writeAll ((rn s q).e.who s 0 q 0) (ws { rn s q with reads := [], got := g, upset := none, parked := false }) t)
  | _ => false

theorem wit_enginesComplete :
    let w := run eW [.wdgBegin 0]
    let c := run eS [.scrBegin 0]
    let h := run eH [.haulBegin 0]
    w.active 0 4 0 = some (rn w 4) ∧ (rn w 4).computed = false ∧ ends w 4 wedgeWrites = true
    ∧ c.active 0 5 0 = some (rn c 5) ∧ (rn c 5).computed = false ∧ ends c 5 scrWrites = true
    ∧ h.active 0 1 0 = some (rn h 1) ∧ (rn h 1).remote = [] ∧ (rn h 1).computed = false ∧ isIndexed (rn h 1).e = false
    ∧ haulRemote (rn h 1).e = 0 ∧ ends h 1 haulWrites = true := by decide +kernel

theorem wit_gatherCompletes :
    let h := run eng [.haulGth h0 8 1 6 5 1, .haulBegin 0]
    let r := rn h 1
    h.active 0 1 0 = some r ∧ r.remote = [] ∧ isIndexed r.e = true ∧ r.scales = []
    ∧ (match readB h 1 with
        | (.ok g t, []) =>
          let r2 := { r with reads := [], got := g, parked := false }
          let r3 := { r2 with scales := [1], reads := sliceReads r2 }
          let s1 := t.setRunning 0 r3
          (match State.readAll (r.e.who s1 0 1 0) (sliceReads r2) g s1 with
            | (.ok g2 s2, []) => isDone (State.writeAll (r.e.who s1 0 1 0)
                (haulWrites { r3 with upset := none, reads := [], got := g2 }) s2)
            | _ => false)
        | _ => false) = true := by decide +kernel

theorem wit_remoteStores :
    let e (n : BitVec 2) := runs 1 (ent (.haul .st 0 n 8) 8 [dsc 0 BF16 8 2 16, dsc 0 BF16 8 2 16] [0x10001000]) [] []
    let s := going (e 2)
    let h := (going (e 1)).setReg (K.HIF_LINK 0) 1
    s.active 0 1 0 = some (e 2) ∧ isIndexed (e 2).e = false ∧ haulRemote (e 2).e = 2
    ∧ s.isLost ((s.partOf 0).getD 0) (fld (haulBase (e 2).e) 50 13) = false
    ∧ h.active 0 1 0 = some (e 1) ∧ isIndexed (e 1).e = false ∧ haulRemote (e 1).e = 1
    ∧ h.hostUp ((h.partOf 0).getD 0) = true := by decide +kernel

/-- Magnitudes to be rounded: 3 ulps and a half of BF16's smallest code, and 5 of F16's; and the codes beside them. -/
theorem wit_roundingRules :
    let f := fmtOf BF16
    let z : Int := 7 * 2 ^ (f.q - 1 - (f.q - 1)).toNat
    f.q - 1 ≤ f.q ∧ f.units (f.q - 1) 3 ≤ z ∧ z < f.units (f.q - 1) 4 ∧ (fmtOf F16).units (fmtOf F16).q 5 = 5 := by decide +kernel

/-- Inputs of a block and of a conversion for each clause: a non-finite one, zeros, a value within the range, one beyond it. -/
theorem wit_narrowingRules :
    let c : Enc := ⟨Q4F, 32, 0, false, [], X.fin false 1 0, 0⟩
    let b : Enc := { c with fmt := BF16, bsize := 0 }
    let y (x : X) : X := (scaleElem c.fmt false (invScale c.scale) x).1
    let top (x : X) : X := X.max X.zero (y x).abs
    let code (x : X) : Nat := (roundElem c.fmt c.table false false (rndOf c.rnd c.key 0)
      ((y x).scale (-(min (max (blockExp (top x) (vmaxX c.fmt c.table)) (-126)) 127)))).1
    (X.inf true).isFinite = false ∧ (top X.zero).isZero = true ∧ (X.fin false 3 0).isFinite = true ∧ (top (X.fin false 3 0)).isZero = false
    ∧ (elemX c.fmt c.table (code (X.fin false 3 0))).isZero = false
    ∧ (top (X.fin false 1 (-140))).isZero = false ∧ (elemX c.fmt c.table (code (X.fin false 1 (-140)))).isZero = true
    ∧ (vmaxX b.fmt b.table).lt (.fin false 1 128) = true ∧ ({ b with inf := true }).inf = true ∧ rndOf b.rnd b.key 0 = .rne
    ∧ (let (vm, ve) := (fmtOf BF16).mag (vmaxCode BF16)
       (X.fin false (2 * vm + 1) (ve - 1)).le (.fin false 1 128) = true
        ∧ (X.fin false (2 * vm + 1) (ve - 1)).le (.fin false (4 * vm + 1) (ve - 2)) = false
        ∧ (vmaxX b.fmt b.table).lt (.fin false (4 * vm + 1) (ve - 2)) = true) := by decide +kernel

/-- Elements stored by a conversion, a Screen's map, and a curve. -/
theorem wit_storedResults :
    let w := runs 4 (ent (.cvt cf1) 0 [dsc 0 BF16 8 2 16, dsc 0x1000 F32 8 2 32] []) [] []
    let m := runs 5 (ent (.scr (.map .copy) 0 0) 0 [dsc 0 BF16 8 2 16, dsc 0x2000 F32 8 2 32] []) [] []
    let c := runs 5 (ent (.scr (.curve 0 false) 0 0) 0 [dsc 0 BF16 8 2 16, dsc 0x2000 F32 8 2 32] []) [] []
    let d := runs 5 (ent (.scr (.dcurve 0 false) 0 0) 0 [dsc 0 BF16 8 2 16, dsc 0 BF16 8 2 16, dsc 0x2000 F32 8 2 32] []) [] []
    let ok (t : Tensor) : Bool := t.bs == 0 && t.distinct && t.ext.all (0 < ·) && 15 < t.count
    w.e.op = .cvt cf1 ∧ (w.e.tensor 1).rotsel = 0 ∧ ok (w.e.tensor 1) = true ∧ m.e.scr = .map .copy ∧ ok (m.e.tensor 1) = true
    ∧ c.e.scr = .curve 0 false ∧ ok (c.e.tensor 1) = true ∧ d.e.scr = .dcurve 0 false ∧ ok (d.e.tensor 2) = true := by decide +kernel

/-- Values in every order, zeros of both signs, rows with and without a NaN, and arguments below, within and above a curve's segments. -/
theorem wit_screenElements :
    let one := X.fin false 1 0
    let c : List Word := [0x0000000100000000 + 0x3F800000, 0, 0]
    let lo := lo32 (c.getD 0 0)
    let hi := lo.add (X.fin false (hdrSegs (c.getD 0 0)) (sext 8 (fld (c.getD 0 0) 32 8)))
    (X.nan false).isNan = true ∧ one.isNan = false ∧ (X.fin true 0 0).isZero = true ∧ X.zero.isZero = true
    ∧ (X.fin true 3 0).lt lo = true ∧ (X.fin false 64 0).lt lo = false ∧ hi.le (X.fin false 64 8) = true := by decide +kernel

/-- A masked key beside a live one, a row with no live key, a row of three to take two of, and an update that is finite. -/
theorem wit_screenRows :
    let e := ent (.scr (.smax 0 true) 0 0) 0 [dsc 0 BF16 8 2 16, dsc 0x100 F32 2 2 16, dsc 0x200 BF16 8 2 16, dsc 0x300 F32 2 2 16] [0x3F800000, 0, 0]
    let r := runs 5 e [] []
    let k := { runs 5 { e with rs := [0x3F800000, 0, 1] } [] [] with got := [(16, ⟨0xFF800000, false⟩)] }
    let xs : List X := [X.fin false 1 0, X.fin false 3 0, X.zero]
    let o := runs 5 (ent (.scr (.opt false) 0 0) 0 ((List.range 7).map fun i => dsc (0x400 * i) F32 8 1 0) []) [] []
    1 < (smaxRow true r [0, 0]).z.length ∧ 0 + rank ((e.tensor 0).ext0 1) [0, 0] < 0 + 1 ∧ (smaxRow true r [0, 0]).live = true
    ∧ (smaxRow true k [1, 0]).live = false ∧ (smaxRow true k [1, 0]).bad = false ∧ 2 ≤ xs.length ∧ xs[2]? = some X.zero
    ∧ (topRow true 2 xs).map Prod.fst = [1, 0] ∧ (optElem o [0, 0]).refused = true
    ∧ (optElem { o with tables := List.replicate 7 [] ++ [List.replicate 10 0x3F800000 ++ [0]] } [0, 0]).refused = false := by decide +kernel

theorem wit_tablesAndSlots :
    let t := regd [(K.VTAB_ENTRY 0 63 0, 0x3C00)]
    let v := regd [(K.VTAB_INFO 0 63, 1), (K.CRV_VALID 0, 0x80000000)]
    let c := regd [(K.CRV_HDR0 0 31, 0x80004 <<< 40)]
    invB up = true ∧ up.vtabValid 0 63 = false ∧ tableLegal (up.table 0 63) (tableWidth 0) = false
    ∧ invB v = true ∧ v.vtabValid 0 63 = true ∧ v.crvValid 0 31 = true ∧ crvSlotOf 0x71000 = some 0 ∧ crvSlotOf 0x87FFF8 = some 31
    ∧ invB c = true ∧ c.crvValid 0 31 = false ∧ curveLegal (c.curveWords 0 31) = true
    ∧ up.crvValid 0 31 = false ∧ curveLegal (up.curveWords 0 31) = false
    ∧ invB t = true ∧ t.vtabValid 0 63 = false
    ∧ tableLegal ((regd [(K.VTAB_ENTRY 0 63 0, 0x4200_4000_3C00_0000)]).table 0 63) (tableWidth 0) = true := by decide +kernel

theorem wit_exportSessions :
    let p := regd [(K.EXPORT_CTL 0, 4)]
    let a := regd [(K.EXPORT_CTL 0, 8)]
    let c := regd [(K.EXPORT_CTL 0, 10)]
    let w := p.setQueue 0 5 [.instr (ent (.scr (.opt false) 0 0) 0 [] [])]
    invB up = true ∧ up.expActive 0 = false ∧ up.expPending 0 = false ∧ invB p = true ∧ p.expPending 0 = true
    ∧ p.rb (K.EXPORT_CTL 0) F.EXPORT_CTL_CLOSE = false ∧ p.sweeping 0 = false ∧ invB a = true ∧ a.expActive 0 = true
    ∧ a.rb (K.EXPORT_CTL 0) F.EXPORT_CTL_CLOSE = false ∧ invB w = true ∧ w.expPending 0 = true ∧ w.sweeping 0 = true
    ∧ invB c = true ∧ c.rb (K.EXPORT_CTL 0) F.EXPORT_CTL_CLOSE = true ∧ (∀ x ∈ c.bulk.closing[(0 : Part)], x ∉ c.exporting 0) := by
  decide +kernel

theorem wit_stockpilePush :
    let s := run eng [.stkPush h0 1 8 2 7]
    let n := (eng.setReg (K.STK_SRAM_TIER 0) 0)
    let e := run n [.stkPush h0 1 8 2 7]
    ((s.queue 0 7).all fun x => match x with | .freeCat _ => false | _ => true) = true ∧ (s.bench 0).running 7 0 = none ∧ s.pwr.mainOn = true ∧ s.queueRuns 0 7 = true
    ∧ s.nextHead 0 7 = some (hd s 7, 0) ∧ isPush (hd s 7) = true ∧ firstFault (s.pushChecks 0 (hd s 7)) = none
    ∧ s.stashFit 0 [] (stashUnits ((hd s 7).desc 1)) = some (false, 0)
    ∧ e.nextHead 0 7 = some (hd e 7, 0) ∧ firstFault (e.pushChecks 0 (hd e 7)) = none
    ∧ e.stashFit 0 [] (stashUnits ((hd e 7).desc 1)) = none
    ∧ e.stashFit 0 (dropOrder (e.bench 0).cat (dropTags (hd e 7))) (stashUnits ((hd e 7).desc 1)) = none
    ∧ (s.bench 0).cat = [] ∧ invB s = true := by decide +kernel

/-- The SRAM tier's one unit is taken by an entry whose tag 3 the drop list names: the push drops it (R233). -/
theorem wit_stockpileDrops :
    let q := ((eng.setReg (K.STK_DROP 0 0) 0x8003).setCat 0 5 ⟨.stashed, 3, stashDesc (dsc 0 BF16 8 2 16), false, 0, 1, 0⟩)
    let s := run q [.stkPush h0 1 8 2 7]
    let e := hd s 7
    let l := dropOrder (s.bench 0).cat (dropTags e)
    let n := stashUnits (e.desc 1)
    invB s = true ∧ s.nextHead 0 7 = some (e, 0) ∧ isPush e = true ∧ firstFault (s.pushChecks 0 e) = none
    ∧ s.stashFit 0 [] n = none ∧ l = [5] ∧ (s.stashFit 0 l n).isSome = true
    ∧ ((l.take 0).foldl (fun (x : State) i => x.dropStash 0 i) s).stashFit 0 [] n = none
    ∧ ((l.take 1).foldl (fun (x : State) i => x.dropStash 0 i) s).stashFit 0 [] n = some (false, 0) ∧ 5 ≠ stkEntry e := by decide +kernel

/-- A module that is to pop entry 0, DROPPED or STASHED. -/
def popping (st : CatState) : State :=
  run (eng.setCat 0 0 ⟨st, 0, stashDesc (dsc 0 BF16 8 2 16), false, 0, 1, 0⟩) [.stkPop h0 1 2 1]

theorem wit_stockpilePop :
    let d := popping .dropped
    let p := popping .stashed
    let r := runs 7 (hd p 7) ((p.stash 0 (p.cat 0 0)).reads none) []
    let s := (p.setQueue 0 7 []).onBench 0 fun x => { x with run := [r] }
    invB d = true ∧ d.nextHead 0 7 = some (hd d 7, 0) ∧ isPush (hd d 7) = false ∧ firstFault (d.popChecks 0 (hd d 7) 0) = none
    ∧ (d.cat 0 (stkEntry (hd d 7))).st = .dropped ∧ d.mayAccess 0 (16 * (((hd d 7).rs.getD 1 0).toNat / 16)) = true
    ∧ (d.bench 0).cat ≠ [] ∧ invB s = true ∧ s.active 0 7 0 = some r ∧ isPush r.e = false ∧ r.computed = false
    ∧ ends s 7 (fun x => State.popWrites 0 s x) = true ∧ s.mayAccess 0 (16 * ((r.e.rs.getD 1 0).toNat / 16)) = true
    ∧ inSram (16 * ((r.e.rs.getD 1 0).toNat / 16)) = true := by decide +kernel

theorem wit_plumbs :
    let a := (regd [(K.PART_CFG 0, 0x10001), (K.STEP_STATE 0, 0)]).setRf (K.STEP_STATE 0) F.STEP_STATE_PHASE 1
    let a := a.onCtl 0 fun c => { c with phase := .opened }
    let e := a.onFm 0 fun f => { f with evalReq := some [] }
    let n := run e [.plmSnapshot 0]
    let m := run n [.plmPartitionSums 0]
    invB e = true ∧ e.partOf 0 = some 0 ∧ (e.fm 0).evalReq = some [] ∧ e.inAttempt 0 0 = true ∧ invB n = true ∧ n.plumbBenches 0 ≠ []
    ∧ (n.plumb 0).sums = none ∧ (∀ b ∈ n.plumbBenches 0, ((n.plumb 0).snaps.any fun x => x.1 == b.val) = true)
    ∧ invB m = true ∧ (m.plumb 0).sums.isSome = true ∧ (up.ctl 0).live = false
    ∧ ((up.onCtl 0 fun c => { c with phase := .opened }).ctl 0).live = true := by decide +kernel

/-- A packet from partition 0 of a module to partition 0 of this one. -/
def pk (src cls op step slot bucket : Nat) (payload : List Byte) : Packet :=
  ⟨pack [(15, 13, src), (30, 3, cls)], pack [(0, 48, step), (48, 16, slot)],
    pack [(0, 32, bucket), (32, 9, payload.length / 16), (41, 4, op)], 0, payload⟩
/-- A state in which a packet has arrived at port 0. -/
def State.gets (s : State) (p : Packet) : State := { s with fab := { s.fab with inbox := [(some 0, p)] } }
/-- The two modules of the tree: this one is the root. -/
def twoMods : Mapping :=
  ⟨[⟨0, 0, true, 0⟩, ⟨1, 0, false, 0⟩], [some [[(0, 0)], [(1, 0), (2, 0)]], none, none, none, none]⟩
/-- A module whose reduction of eight elements over two slots, this module the first, is at the head of its queue. -/
def red : State :=
  run (((regd [(K.WGH_STAGE 0, 0x100100), (K.WGH_CTL 0, 16)]).onCtl 0 fun c => { c with mapping := some twoMods }).onFm 0 fun f =>
      { f with t := (f.t.set 1 (dsc 0 F32 8 1 0)).set 2 (dsc 0x1000 F32 8 1 0), s := f.s.set 2 1000 })
    [.wghRed h0 1 2 0 2 0 false]
/-- The bucket open. -/
def opn : State := run red [.bucketOpen 0]
/-- The bucket of `opn`. -/
def bkt (s : State) : Bucket := (s.bucket 0 0).getD ((opn.wgh 0).buckets.headD ⟨ent .pop 0 [] [], 0, 0, [], [], 0, 0, false, false, 0, [], [], [], false, [], false, false, [], []⟩)
/-- The REDUCE packet a state takes for an operation, and the state behind. -/
def tk (s : State) (op : Nat) : Packet × State := (s.takeReduce 0 op).getD (pk 0 0 0 0 0 0 [], s)
/-- The bytes of some words. -/
def wb (l : List Nat) : List Byte := wordBytes (l.map (BitVec.ofNat 64))
/-- `opn` with the contribution of module 1 staged. -/
def ctb : State := run (opn.gets (pk 1 1 0 0 1 0 (List.replicate 32 0))) [.contrib 0]
/-- The copy of module 1 in shard 0. -/
def cpy (s : State) : SlotCopy := ((bkt s).shard 0).copies.getD 1 ⟨0, false, [], none, false⟩

theorem wit_weighbridgeStale :
    let w := opn.onWgh 0 fun x => { x with awaitDrain := [(1, 0)] }
    let g := red.gets (pk 1 1 4 0 0 0 [])
    invB w = true ∧ ([0, 1, 2, 3, 4, 6].all fun op => ((w.gets (pk 1 1 op 0 1 0 [])).takeReduce 0 op).isSome
      && (tk (w.gets (pk 1 1 op 0 1 0 [])) op).2.stale 0 (tk (w.gets (pk 1 1 op 0 1 0 [])) op).1) = true
    ∧ invB g = true ∧ (g.takeReduce 0 4).isSome = true ∧ (tk g 4).2.stale 0 (tk g 4).1 = false
    ∧ ((tk g 4).2.bucketOf 0 (tk g 4).1).isNone = true ∧ (g.wgh 0).grants.length < 4096
    ∧ (let d := opn.onWgh 0 fun x => { x with drained := [(1, 0)] }
       let y := opn.gets (pk 1 1 4 0 0 0 (wb [0, 0]))
       let z := d.gets (pk 1 1 4 0 0 0 (wb [0, 0]))
       (y.takeReduce 0 4).isSome = true ∧ (tk y 4).2.stale 0 (tk y 4).1 = false ∧ ((tk y 4).2.bucketOf 0 (tk y 4).1).isSome = true
        ∧ (opn.wgh 0).drained.contains (pktSrc (tk y 4).1) = false
        ∧ ((bkt (tk y 4).2).owners.findIdx? fun o => o == pktSrc (tk y 4).1) = some 1 ∧ 1 < (bkt (tk y 4).2).shards.length
        ∧ (z.takeReduce 0 4).isSome = true ∧ (tk z 4).2.stale 0 (tk z 4).1 = false
        ∧ (d.wgh 0).drained.contains (pktSrc (tk z 4).1) = true ∧ (d.wgh 0).grants.length < 4096)
    ∧ (let f := g.onWgh 0 fun x => { x with grants := List.replicate 4096 ⟨0, 0, (1, 0), 0⟩ }
       (f.takeReduce 0 4).isSome = true ∧ (tk f 4).2.stale 0 (tk f 4).1 = false
        ∧ ((tk f 4).2.bucketOf 0 (tk f 4).1).isNone = true ∧ 4096 ≤ (f.wgh 0).grants.length)
    ∧ opn.rf (K.STEP_STATE 0) F.STEP_STATE_STEP ≤ pktStep (tk (opn.gets (pk 1 1 5 0 0 0 [])) 5).1
    ∧ ((w.gets (pk 1 1 5 0 0 0 [])).takeReduce 0 5).isSome = true
    ∧ (w.wgh 0).awaitDrain.contains (pktSrc (pk 1 1 5 0 0 0 [])) = true
    ∧ ((opn.gets (pk 1 1 5 0 0 0 [])).takeReduce 0 5).isSome = true
    ∧ (opn.wgh 0).awaitDrain.contains (pktSrc (pk 1 1 5 0 0 0 [])) = false := by decide +kernel

theorem wit_weighbridgeCopies :
    let c := opn.gets (pk 1 1 0 0 1 0 (List.replicate 32 0))
    let v := ctb.gets (pk 1 1 1 0 1 0 (wb [0, 0, 0, 8]))
    let i := ctb.gets (pk 1 1 1 0 1 0 (wb [1, 0, 0, 8]))
    let n := sumsCount (pktWord (tk v 1).1 3)
    let codes := codesFrom (cpy v).bytes n
    invB c = true ∧ (c.takeReduce 0 0).isSome = true ∧ (tk c 0).2.stale 0 (tk c 0).1 = false
    ∧ ((tk c 0).2.copyOf 0 (tk c 0).1).map Prod.snd = some 0 ∧ (bkt opn).offset 0 (tk c 0).1 = some 0
    ∧ ((bkt opn).shard 0).copies[pktSlot (tk c 0).1]? = some (cpy opn) ∧ (cpy opn).sums = none
    ∧ (let e := run (opn.gets (pk 1 1 1 0 1 0 (wb [0, 0, 0, 8]))) [.sums 0]
       let l := e.gets (pk 1 1 0 0 1 0 (List.replicate 32 0))
       (l.takeReduce 0 0).isSome = true ∧ (tk l 0).2.stale 0 (tk l 0).1 = false
        ∧ ((tk l 0).2.copyOf 0 (tk l 0).1).map Prod.snd = some 0 ∧ (cpy e).sums = some ([0, 0, 0, 8].map (BitVec.ofNat 64))
        ∧ 4 * sumsCount 8 ≤ ({ cpy e with parts := tput (cpy e).parts 0 (tk l 0).1.payload } : SlotCopy).bytes.length)
    ∧ ((bkt ctb).shard 0).copies[pktSlot (tk v 1).1]? = some (cpy ctb)
    ∧ invB v = true ∧ (v.takeReduce 0 1).isSome = true ∧ (tk v 1).2.stale 0 (tk v 1).1 = false
    ∧ ((tk v 1).2.copyOf 0 (tk v 1).1).map Prod.snd = some 0 ∧ (cpy v).sums = none ∧ (bkt v).sparse = false
    ∧ n = 8 ∧ 4 * n ≤ (cpy v).bytes.length ∧ pktWord (tk v 1).1 0 = f64x (codes.map dec32)
    ∧ pktWord (tk v 1).1 1 = f64x (codes.map fun x => (dec32 x).abs) ∧ bit (pktWord (tk v 1).1 3) 32 = false
    ∧ roundUp (4 * n) 16 = (cpy v).bytes.length ∧ n = (bkt v).len 0
    ∧ (i.takeReduce 0 1).isSome = true ∧ ((tk i 1).2.copyOf 0 (tk i 1).1).map Prod.snd = some 0
    ∧ pktWord (tk i 1).1 0 ≠ f64x (codes.map dec32) := by decide +kernel

theorem wit_weighbridgeResults :
    let r := opn.gets { pk 1 1 2 0 1 0 [] with w3 := BitVec.ofNat 64 (4 * (bkt opn).lo 1) }
    let g := opn.gets (pk 1 1 3 0 1 0 (wb [0, 0, 0, 0, 0, 0]))
    let f := opn.gets (pk 1 1 3 0 1 0 (wb [1, 0, 0, 0, 0, 0]))
    let a := opn.gets (pk 1 1 6 0 1 0 [])
    let k := bkt opn
    ([(r, 2), (g, 3), (f, 3), (a, 6)].all fun x => (x.1.takeReduce 0 x.2).isSome) = true
    ∧ (tk r 2).2.stale 0 (tk r 2).1 = false ∧ ((tk r 2).2.bucketOf 0 (tk r 2).1).isSome = true ∧ fromOwner k (tk r 2).1 = true
    ∧ k.offset 1 (tk r 2).1 = some 0 ∧ pktSlot (tk r 2).1 < k.shards.length ∧ (k.shard 1).abandoned = false ∧ (k.shard 1).resultDone = false
    ∧ (let codes := codesFrom (k.shard 1).result (Nat.min ((k.shard 1).result.length / 4) (k.len 1))
       f64x (codes.map dec32) = pktWord (tk g 3).1 0 ∧ codes.length = sumsCount (pktWord (tk g 3).1 5)
        ∧ roundUp (4 * codes.length) 16 = (k.shard 1).result.length
        ∧ f64x (codes.map dec32) ≠ pktWord (tk f 3).1 0) := by decide +kernel

/-- `ctb` with every copy of shard 0 taken. -/
def due : State := run (ctb.gets (pk 1 1 1 0 1 0 (wb [0, 0, 0, 8]))) [.sums 0]

theorem wit_weighbridgeBuckets :
    let x := red.setReg (K.WGH_CTL 0) 0
    let n := red.onCtl 0 fun c => { c with mapping := some ⟨[], []⟩ }
    let h := opn.setRf (K.WGH_CTL 0) F.WGH_CTL_HARD_LIMIT 1
    invB red = true ∧ red.pwr.mainOn = true ∧ red.queueRuns 0 6 = true ∧ red.unitBusy 0 6 0 = false
    ∧ red.nextHead 0 6 = some (hd red 6, 0) ∧ firstFault (red.wghChecks 0 (hd red 6) 0) = none
    ∧ (red.wgh 0).buckets.length < red.rf (K.WGH_CTL 0) F.WGH_CTL_MAX_OPEN
    ∧ red.stageUsed 0 + red.wghUnits 0 0 (hd red 6) ((red.wghGroup 0 (hd red 6)).getD []) ≤ red.stageSize 0
    ∧ invB x = true ∧ x.nextHead 0 6 = some (hd x 6, 0) ∧ firstFault (x.wghChecks 0 (hd x 6) 0) = none
    ∧ x.rf (K.WGH_CTL 0) F.WGH_CTL_MAX_OPEN ≤ (x.wgh 0).buckets.length
    ∧ n.nextHead 0 6 = some (hd n 6, 0) ∧ firstFault (n.wghChecks 0 (hd n 6) 0) = some .slotInvalid
    ∧ invB h = true ∧ (h.bucket 0 0).isSome = true ∧ h.rf (K.WGH_CTL 0) F.WGH_CTL_HARD_LIMIT ≠ 0
    ∧ opn.rf (K.WGH_CTL 0) F.WGH_CTL_HARD_LIMIT = 0 ∧ (opn.bucket 0 0).isSome = true
    ∧ (let f := run ((opn.onFm 0 fun f => { f with s := f.s.set 3 1 }).setRf (K.WGH_STAGE 0) F.WGH_STAGE_SIZE (opn.stageUsed 0))
         [.wghRed h0 1 2 3 2 0 false]
       f.queueRuns 0 6 = true ∧ f.unitBusy 0 6 0 = false ∧ f.nextHead 0 6 = some (hd f 6, 0)
        ∧ firstFault (f.wghChecks 0 (hd f 6) 0) = none ∧ (f.wgh 0).buckets.length < f.rf (K.WGH_CTL 0) F.WGH_CTL_MAX_OPEN
        ∧ f.stageSize 0 < f.stageUsed 0 + f.wghUnits 0 0 (hd f 6) ((f.wghGroup 0 (hd f 6)).getD []))
    ∧ (red.wgh 0).buckets = [] ∧ (opn.wgh 0).buckets ≠ [] := by decide +kernel

theorem wit_shardsDue :
    let k := bkt due
    invB due = true ∧ ((due.wghPump 0).dueShard 0 0).map Prod.snd = some 0 ∧ ((due.wghPump 0).bucket 0 k.id).isSome = true
    ∧ (k.shard 0).resultDone = false ∧ (resultCheck (k.rsumsOf 0 (k.reduce 0).1) (k.reduce 0).2).1 = true := by decide +kernel

theorem wit_shardFails :
    let s := due.onWgh 0 fun w => { w with buckets := w.buckets.map fun k => k.onShard 0 fun x =>
      { x with copies := x.copies.map fun c => { c with sums := some [5, 0, 0, 8] } } }
    let k := bkt s
    ((s.wghPump 0).dueShard 0 0).map Prod.snd = some 0 ∧ ((s.wghPump 0).bucket 0 k.id).isSome = true
    ∧ (k.shard 0).resultDone = false ∧ (resultCheck (k.rsumsOf 0 (k.reduce 0).1) (k.reduce 0).2).1 = false := by decide +kernel

theorem wit_shardLate :
    let s := opn.onWgh 0 fun w => { w with buckets := w.buckets.map fun k => { k with
      slots := [[(0, 0)], [(1, 0)]] } }
    let f (s : State) : Bool := let t := s.wghPump 0
      match t.bucket 0 0 with
      | some k => wghCycles k.e != 0 && k.owners.getD 0 (0, 0) == t.me 0 && (k.shard 0).copies.length == 2
          && !(cpy t).taken && !(k.shard 0).abandoned && !(k.shard 0).resultDone && !(k.shard 0).resultSent
      | none => false
    let next (s : State) : Option Nat := let t := s.wghPump 0
      (List.range ((bkt t).slots.getD 1 []).length).find? fun n =>
        (cpy t).member < n && !t.isLost 0 (((bkt t).slots.getD 1 []).getD n (0, 0)).1
    f opn = true ∧ next opn = some 1 ∧ (2, 0) ≠ opn.me 0 ∧ ((opn.wghPump 0).wgh 0).awaitDrain.contains (2, 0) = false
    ∧ f s = true ∧ next s = none := by decide +kernel

theorem wit_bucketDone :
    let d := opn.onWgh 0 fun w => { w with buckets := w.buckets.map fun k => { k with
      shards := k.shards.map fun x => { x with resultDone := true } } }
    let ok (s : State) : Bool := match (s.wghPump 0).bucket 0 0 with
      | some k => k.shards.all (fun x => x.resultDone || x.abandoned) && k.writes.isEmpty && !k.sparse
      | none => false
    invB d = true ∧ ok d = true ∧ ok opn = false ∧ ((opn.wghPump 0).bucket 0 0).isSome = true := by decide +kernel

/-- A module whose partition has step 7 open in its first attempt, in a tree with module 1 below it. -/
def stp : State := up.onCtl 0 fun c => { c with phase := .opened, step := 7, attempt := 1, mapping := some twoMods }
/-- A STEP packet of module 1 for that attempt. -/
def stPk (op : Nat) : Packet := pk 1 3 op 7 0 0 (wb [0x10, 0])
/-- The STEP packet a state takes, and the state behind. -/
def tks (s : State) (op : Nat) : Packet × State := (s.takeStep 0 op).getD (pk 0 0 0 0 0 0 [], s)
/-- The CANCEL or ALERT a state takes, and the state behind. -/
def tkn (s : State) (op : Nat) : Packet × State := (s.takeNews 0 op).getD (pk 0 0 0 0 0 0 [], s)
/-- `stp` with every vote but module 1's in. -/
def voted : State := stp.onCtl 0 fun c => { c with benchVotes := [(0, .pass)], kids := [] }

theorem wit_stepPackets :
    let v := stp.gets (stPk opVote)
    let o := stp.gets (stPk opOutcome)
    let c := stp.gets (stPk opCancel)
    let a := stp.gets (stPk opAlert)
    let i (op : Nat) : State := (stp.onCtl 0 fun c => { c with phase := .idle }).gets (stPk op)
    let z : State := (i opOutcome).onCtl 0 fun c => { c with last := some (.commit, 7, 1) }
    let t (x : Option PortNo × Packet) : Bool := isOp clsStep opOutcome x && pktDstPart x.2 == 0
    invB v = true ∧ (v.takeStep 0 opVote).isSome = true ∧ (c.takeNews 0 opCancel).isSome = true ∧ (a.takeNews 0 opAlert).isSome = true
    ∧ invB (i opCancel) = true ∧ ((i opCancel).takeNews 0 opCancel).isSome = true ∧ ((i opAlert).takeNews 0 opAlert).isSome = true
    ∧ (tkn (i opCancel) opCancel).2.stepRel 0 (tkn (i opCancel) opCancel).1 = .ahead
    ∧ (tkn (i opCancel) opCancel).2.stepPast 0 (tkn (i opCancel) opCancel).1 = false
    ∧ (tkn (i opAlert) opAlert).2.stepRel 0 (tkn (i opAlert) opAlert).1 = .ahead
    ∧ (tkn (i opAlert) opAlert).2.stepPast 0 (tkn (i opAlert) opAlert).1 = false ∧ ((i opAlert).ctl 0).early = none
    ∧ (z.takePacket t).isSome = true ∧ ((z.takePacket t).map fun x => x.2.stepPast 0 x.1.2) = some true
    ∧ ((o.takePacket t).map fun x => x.2.stepPast 0 x.1.2) = some false ∧ (o.ctl 0).outcome = none
    ∧ v.hubCore stepCore = true ∧ (down v stepCore).hubCore stepCore = false
    ∧ (let w := stp.gets (pk 1 3 opVote 9 0 0 (wb [0x10, 0]))
       (w.takeStep 0 opVote).isSome = true ∧ (tks w opVote).2.stepRel 0 (tks w opVote).1 = .other)
    ∧ (tks v opVote).2.stepRel 0 (tks v opVote).1 = .current ∧ (v.ctl 0).outcome = none
    ∧ ((v.ctl 0).kids.any fun e => e.1 == pktSrcMod (tks v opVote).1) = false
    ∧ (o.takePacket fun x => isOp clsStep opOutcome x && pktDstPart x.2 == 0).isSome = true
    ∧ (tks o opOutcome).2.stepRel 0 (tks o opOutcome).1 = .current
    ∧ (tkn c opCancel).2.stepRel 0 (tkn c opCancel).1 = .current ∧ c.rb (K.STEP_STAT 0) F.STEP_STAT_CANCELLED = false
    ∧ (tkn a opAlert).2.stepRel 0 (tkn a opAlert).1 = .current ∧ (a.ctl 0).alerted = false := by decide +kernel

theorem wit_stepOutcomes :
    let d := voted.onCtl 0 fun c => { c with kids := [(1, .pass)] }
    let b := d.onCtl 0 fun c => { c with kids := [(1, .abort)] }
    let l := voted.setRf (K.STEP_CTL 0) F.STEP_CTL_VOTE_LIMIT 1
    let r := d.onCtl 0 fun c => { c with outcome := some .commit }
    let w := d.onWgh 0 fun x => { x with voteAbort := true }
    let ready (s : State) : Bool := (s.ctl 0).live && (s.ctl 0).outcome.isNone && s.acting 0 && !s.selfLost 0
      && ((s.votingBenches 0).all fun b => (s.ctl 0).benchVotes.any fun e => e.1 == b.val) && (s.takeStep 0 opVote).isNone
    let kidsIn (s : State) : Bool := (s.stepKids 0).all fun m => (s.ctl 0).kids.any fun e => e.1 == m
    invB d = true ∧ ready d = true ∧ kidsIn d = true ∧ ready b = true ∧ kidsIn b = true ∧ stp.stepKids 0 = [1]
    ∧ ready l = true ∧ kidsIn l = false ∧ l.rf (K.STEP_CTL 0) F.STEP_CTL_VOTE_LIMIT ≠ 0
    ∧ (d.setReg (K.STEP_CTL 0) 0).rf (K.STEP_CTL 0) F.STEP_CTL_VOTE_LIMIT = 0
    ∧ (r.ctl 0).outcome = some .commit ∧ (w.ctl 0).live = true ∧ (w.ctl 0).alerted = false ∧ 2 ≤ voteRank (w.runningVote 0)
    ∧ voteRank (d.runningVote 0) < 2 := by decide +kernel

/-- A module whose Foremen are stopped, with a mapping image of itself alone at 0; n is its number of modules. -/
def img (n : Nat) : State :=
  let s : State := { up with mem := (mwrite [] 0 (wb [5 + n * 2 ^ 32, 9, 64, 0, 0, 0, 0, 0, 0x8000])) }
  (s.setReg (K.FAB_TREE 0) 0x100000).onFm 0 fun f => { f with st := .stopped }

theorem wit_mappingInstalls :
    invB (img 1) = true ∧ ((img 1).imgRead 0).mapReason 0 = 0 ∧ invB (img 0) = true ∧ ((img 0).imgRead 0).mapReason 0 = 3
    ∧ (up.imgRead 0).mapReason 0 = 1 ∧ (img 1).hubCore stepCore = true ∧ (down (img 1) stepCore).hubCore stepCore = false := by
  decide +kernel

/-- A module with a mirror area of rows 4 to 7, and with page 0 in its armed set 1. -/
def mir : State :=
  regd [(K.MIR_RX, 0x20000000 + 0x404 + 0x10000), (K.FAB_ID, 0), (K.COW_CTL 0 1, 1), (K.COW_RGN 0 1 0, 0x1000000),
    (K.MIR_CTL 0, 0)]

/-- A state that receives a mirror from module 1. -/
def rcv (p : Packet) : State :=
  { (mir.onBulk fun b => { b with rx := some ⟨0, 0, 0, 1⟩ }).gets p with pending := [] }
/-- The packet a state takes that satisfies a test, and the state behind. -/
def tkp (s : State) (f : Option PortNo × Packet → Bool) : Packet × State :=
  ((s.takePacket f).map fun x => (x.1.2, x.2)).getD (pk 0 0 0 0 0 0 [], s)
/-- A manifest of no page under a digest. -/
def manif (d : Nat) : Packet := pk 1 4 opMirManifest 0 0 0 (List.replicate 96 0 ++ toBytes 64 d)

theorem wit_mirrorStart :
    let m := mir.setReg (K.MIR_CTL 0) 0x110
    let b := m.setReg K.FAB_ID 0x20010000
    let t := m.setTx 0 (some ⟨1, [0], [], true, false⟩)
    invB b = true ∧ b.rf (K.MIR_CTL 0) F.MIR_CTL_SET = 1 ∧ b.rf (K.MIR_CTL 0) F.MIR_CTL_RATE = 1 ∧ b.armed 0 1 = true
    ∧ b.broken 0 1 = false ∧ b.rb K.FAB_ID F.FAB_ID_BUDDY_VALID = true ∧ b.isLost 0 b.buddy = false ∧ (∀ q : Part, b.bulk.tx[q] = none)
    ∧ invB m = true ∧ m.rb K.FAB_ID F.FAB_ID_BUDDY_VALID = false ∧ invB t = true ∧ t.bulk.tx[(0 : Part)] ≠ none
    ∧ ((List.range 4).all fun i => mir.rowOwner (fld 0x20010404 0 7 + i) == none) = true ∧ fld 0x20010404 8 7 = 4
    ∧ mir.rowOwner (fld 0x200 0 7 + 0) = some 0 ∧ fld 0x200 8 7 = 2 := by decide +kernel

theorem wit_mirrorReceives :
    let op (o : Nat) (x : Option PortNo × Packet) : Bool := isOp clsMgmt o x
    let pg (x : Option PortNo × Packet) : Bool := isOp clsMgmt opMirPage x || isOp clsMgmt opMirMarks x
    let b := mir.gets (pk 1 4 opMirBegin 0 0 0 [])
    let g := rcv (pk 1 4 opMirPage 0 0 0 (List.replicate 16 7))
    invB b = true ∧ (b.takePacket (op opMirBegin)).isSome = true ∧ (tkp b (op opMirBegin)).2.mirAccepts (tkp b (op opMirBegin)).1 = true
    ∧ b.stackOk (b.stackAt (b.mirBank b.mirChoose)) = true
    ∧ ((up.gets (pk 1 4 opMirBegin 0 0 0 [])).takePacket (op opMirBegin)).isSome = true
    ∧ up.mirAccepts (pk 1 4 opMirBegin 0 0 0 []) = false
    ∧ invB g = true ∧ (g.takePacket pg).isSome = true ∧ ((tkp g pg).2.takePacket pg).isNone = true
    ∧ pktOp (tkp g pg).1 = opMirPage ∧ g.bulk.rx = some ⟨0, 0, 0, 1⟩ ∧ (tkp g pg).2.mirAccepts (tkp g pg).1 = true
    ∧ MirrorRx.owns ⟨0, 0, 0, 1⟩ (tkp g pg).1 = true
    ∧ pageSize + mirOffset (tkp g pg).1 + 16 ≤ g.mirBankLen
    ∧ g.stackOk (g.stackAt (g.mirBank 0 + pageSize + mirOffset (tkp g pg).1)) = true
    ∧ (let x := mir.setTx 0 (some ⟨1, [0], [], true, false⟩); x.bulk.tx[(0 : Part)].map MirrorTx.set = some (1 : Fin 4).val) := by decide +kernel

theorem wit_mirrorEnds :
    let m := (mir.setReg K.FAB_ID 0x20010000).setTx 0 (some ⟨1, [], [0], true, true⟩)
    let a := m.gets (pk 1 4 opMirAck 0 0 0 (wb [5, 0]))
    let f := m.gets (pk 1 4 opMirFail 0 0 0 [])
    let t (x : Option PortNo × Packet) : Bool := (isOp clsMgmt opMirAck x || isOp clsMgmt opMirFail x) && pktDstPart x.2 == 0
    invB a = true ∧ (a.takePacket t).isSome = true ∧ (f.takePacket t).isSome = true ∧ a.bulk.tx[(0 : Part)] = some ⟨1, [], [0], true, true⟩
    ∧ pktSrcMod (tkp a t).1 = a.buddy ∧ pktOp (tkp a t).1 = opMirAck ∧ pktOp (tkp f t).1 = opMirFail := by decide +kernel

theorem ofBytes_toBytes (n v : Nat) (h : v < 256 ^ n) : ofBytes (toBytes n v) = v := by
  induction n generalizing v with
  | zero => simp [toBytes, ofBytes] at *; omega
  | succ n ih =>
    have : v / 256 < 256 ^ n := by rw [Nat.div_lt_iff_lt_mul (by decide)]; rw [Nat.pow_succ] at h; exact h
    simp only [toBytes, ofBytes, ih _ this, BitVec.toNat_ofNat]
    omega

theorem wit_mirrorManifest :
    let d := (Config.sha512 []).toNat
    let s := rcv (manif d)
    let w (x : Option PortNo × Packet) : Bool := isOp clsMgmt opMirManifest x
    (manif d).payload.length = 160 ∧ fld (pktWord (manif d) 3) 0 32 * pageSize = 0
    ∧ Config.sha512 [] = BitVec.ofNat 512 (ofBytes (((manif d).payload.drop 96).take 64))
    ∧ s.stackOk (s.stackAt (s.mirBank 0)) = true ∧ s.mirAccepts (manif d) = true ∧ MirrorRx.owns ⟨0, 0, 0, 1⟩ (manif d) = true ∧ (rcv (manif 0)).mirAccepts (manif 0) = true
    ∧ w (some 0, manif d) = true := by
  refine ⟨rfl, by decide +kernel, ?_, by decide +kernel, by decide +kernel, by decide +kernel, by decide +kernel, by decide +kernel⟩
  have h : (((manif (Config.sha512 []).toNat).payload.drop 96).take 64) = toBytes 64 (Config.sha512 []).toNat := by
    simp only [manif, pk]
    rw [List.drop_append_of_le_length (by decide), List.drop_of_length_le (by decide)]
    exact List.take_of_length_le (by decide)
  rw [h, ofBytes_toBytes _ _ (by have := (Config.sha512 []).isLt; omega)]
  simp

/-- `up` with port 0 READY, its peer port 2 of module 1. -/
def lnk : State := regd [(K.FAB_PORT 0, 0x12000103)]
/-- `lnk` with packets queued in class 0 and frames kept that the peer has not acknowledged. -/
def lnkq (resends : Nat) : State :=
  let f (n : BitVec 12) : Frame := ⟨pk 0 0 1 0 0 0 [], n, 0, false, 0, Vector.replicate 5 0⟩
  lnk.onPort 0 fun q => { q with
    sendq := q.sendq.set 0 [pk 0 0 1 0 0 0 []], resend := [f 4095, f 0], txSeq := 1, resends := resends }
/-- A frame of sequence number n that carries a MGMT packet of module 1. -/
def frm (n : BitVec 12) : Frame := let p := pk 1 4 0 0 0 7 []; ⟨p, n, crc32 (pktBytes p), false, 0, Vector.replicate 5 0⟩

theorem wit_ports :
    let d := regd [(K.FAB_PORT 0, 1)]
    let first := ((d.savedSet (savedPort 0)).map Prod.fst).getD (List.range 16)
    let spares := [16, 17].filter fun l => !first.contains l
    invB d = true ∧ d.portTrains 0 = true ∧ lnk.portTrains 0 = false ∧ (fitLanes (failedLanes [100000, 100000, 99999]) first spares).isSome = true
    ∧ fitLanes (failedLanes [100000, 100000, 100000]) first spares = none ∧ invB lnk = true ∧ lnk.portUp 0 = true ∧ d.portUp 0 = false
    ∧ invB (lnkq 0) = true ∧ (lnkq 0).portUp 0 = true ∧ ((lnkq 0).port 0).nextClass = some 0
    ∧ ((lnkq 0).port 0).sendq[(0 : Fin 5)] = pk 0 0 1 0 0 0 [] :: [] ∧ (lnk.port 0).nextClass = none
    ∧ (lnk.portOwner 0).isSome = true ∧ ((lnkq 0).portOwner 0).isSome = true ∧ (lnk.setReg (K.PART_CFG 0) 0).portOwner 0 = none
    ∧ ((((lnkq 0).port 0).resend.dropWhile fun f => f.seq != 0).map Frame.seq) = [0]
    ∧ ((lnkq 0).port 0).resend.map Frame.seq = [4095, 0]
    ∧ (((lnkq 7).port 0).resend.dropWhile fun f => f.seq != 4095) = ((lnkq 7).port 0).resend
    ∧ (lnk.port 0).resend = [] ∧ (lnk.setReg (K.PART_CFG 0) 0).portUp 0 = true ∧ (lnkq 0).modId = 0
    ∧ ((lnkq 7).port 0).resends = 7 ∧ ((lnkq 6).port 0).resends = 6 ∧ (lnkq 7).portUp 0 = true := by decide +kernel

theorem wit_frames :
    (frm 0).badCodeword = false ∧ (frm 0).crc = crc32 (pktBytes (frm 0).pkt) ∧ (frm 0).seq = (lnk.port 0).rxSeq
    ∧ (frm 4095).seq ≠ (lnk.port 0).rxSeq ∧ (frm 4095).crc = crc32 (pktBytes (frm 4095).pkt)
    ∧ (let x := { pk 1 4 0 0 0 7 [] with w0 := pack [(0, 13, 5), (15, 13, 1), (30, 3, 4)] }
       let g : Frame := ⟨x, 0, crc32 (pktBytes x), false, 0, Vector.replicate 5 0⟩
       g.seq = (lnk.port 0).rxSeq ∧ pktDstMod g.pkt ≠ lnk.modId)
    ∧ ((lnk.gets (frm 0).pkt).takePacket fun _ => true).map (fun x => x.1.1) = some (some 0)
    ∧ pktDstMod (frm 0).pkt = lnk.modId ∧ lnk.portOwner 0 = some (pktDstPart (frm 0).pkt)
    ∧ lnk.partValid (pktDstPart (frm 0).pkt) = true ∧ opKnown (pktClass (frm 0).pkt) (pktOp (frm 0).pkt) = true
    ∧ zeroFieldsOk (frm 0).pkt = true ∧ lnk.isLost 0 1 = false ∧ pktClass (frm 0).pkt = clsMgmt := by decide +kernel

theorem wit_lostPeers :
    let n (x : Nat) := lnk.gets (pk 1 4 0 0 0 x [])
    let o := { up with fab := (n 7).fab }.onCtl 0 fun c => { c with mapping := some twoMods }
    let b (op : Nat) := lnk.gets (pk 1 2 op 0 5 15 [])
    (b 0).hubCore barrierCore = true ∧ (b 1).hubCore barrierCore = true ∧ (down (b 0) barrierCore).hubCore barrierCore = false
    ∧ invB lnk = true ∧ lnk.portUp 0 = true ∧ lnk.portOwner 0 = some 0 ∧ lnk.rb (K.FAB_PORT 0) F.FAB_PORT_PEER_VALID = true
    ∧ up.portUp 0 = false ∧ ((n 7).takePacket (isOp clsMgmt 0)).isSome = true ∧ pktEpochValid (pk 1 4 0 0 0 7 []) = (n 7).epochOn 0
    ∧ pktBucket (pk 1 4 0 0 0 7 []) % 8192 ≠ (n 7).modId ∧ pktBucket (pk 1 4 0 0 0 0 []) % 8192 = (n 0).modId
    ∧ pktEpochValid (pk 1 4 0 0 0 7 []) ≠ o.epochOn 0 ∧ invB o = true
    ∧ fld (0x807F : Word) 0 8 / 128 = 0 ∧ fld (0x807F : Word) 8 8 = 0x80 ∧ lnk.portOwner 15 = some 0
    ∧ (lnk.setReg (K.PART_CFG 0) 0x10001).portOwner 15 = none
    ∧ up.epochOn 0 = false ∧ o.epochOn 0 = true
    ∧ (let m := (b 0).setReg (K.BAR_MASK 0) 1
       m.barHere 0 15 (m.barNext 0 15) = false ∧ (m.takePacket fun x => isOp clsBarrier 0 x && pktDstPart x.2 == 0).isSome = true)
    ∧ (let m := (b 0).setReg (K.FAB_TREE 0) 1; m.barFabric 0 15 (m.barNext 0 15) = true) ∧ (b 1).treeRoot 0 = false
    ∧ ((b 0).takePacket fun x => isOp clsBarrier 0 x && pktDstPart x.2 == 0).isSome = true
    ∧ ((b 1).takePacket fun x => isOp clsBarrier 1 x && pktDstPart x.2 == 0).isSome = true := by decide +kernel

/-- A WRITE of four words to an address. -/
def wrPk (addr : Nat) : Packet := { pk 1 0 0 0 0 0 ((List.range 64).map (BitVec.ofNat 8)) with w3 := pack [(0, 48, addr)] }
/-- A HAUL.ST in progress that waits for `remote`, to the fabric (2) or the host (1). -/
def hst (n : BitVec 2) (remote : List (Nat × Nat)) : Running :=
  { runs 1 (ent (.haul .st 0 n 8) 8 [dsc 0 BF16 8 2 16, dsc 0 BF16 8 2 16] [0x4000000001000]) [] [] with remote := remote, computed := true }

theorem wit_remoteWrites :
    let w := up.gets (wrPk (sramEnd - 64))
    let o := up.gets (wrPk 0x400000000)
    invB w = true ∧ (w.takePacket (isOp clsData 0)).isSome = true
    ∧ w.rangeOk 0 (pktAddr (wrPk (sramEnd - 64))) 64 = true
    ∧ up.rangeOk 0 (pktAddr (wrPk 64)) 64 = true ∧ pktLen (wrPk 64) = 4 ∧ (wrPk 64).payload.length = 64
    ∧ inSram (pktAddr (wrPk 64)) = true ∧ pktFe (wrPk 64) = 0
    ∧ ((wordsOf 64 64).all fun w => up.mayAccess 0 (16 * w) && (up.mark w).upset == .clean) = true
    ∧ invB o = true ∧ (o.takePacket (isOp clsData 0)).isSome = true ∧ o.rangeOk 0 0x400000000 64 = false := by decide +kernel

theorem wit_remoteAnswers :
    let a (op : Nat) (l : List (Nat × Nat)) : State := (going (hst 2 l)).gets { pk 1 0 op 0 0 0 [] with w3 := pack [(0, 48, 0x1000)] }
    let t (s : State) (op : Nat) := tkp s (isOp clsData op)
    let waits (s : State) (op : Nat) : Bool := (s.takePacket (isOp clsData op)).isSome
      && ((t s op).2.awaiting 0 (pktAddr (t s op).1) (pktSrcMod (t s op).1)).isSome
    let h := going (hst 1 [(0x1000, 0)])
    let k := (a 1 [(0x1000, 1)]).setRf (K.FAB_PART 0) F.FAB_PART_ACK_LIMIT 1
    invB (a 1 [(0x1000, 1)]) = true ∧ waits (a 1 [(0x1000, 1)]) 1 = true ∧ waits (a 1 [(0x1000, 1), (0x1010, 1)]) 1 = true
    ∧ waits (a 2 [(0x1000, 1)]) 2 = true ∧ ((a 1 [(0x1000, 1)]).bench 0).running 1 0 = some (hst 2 [(0x1000, 1)])
    ∧ haulRemote (hst 2 []).e = 2 ∧ k.active 0 1 0 = some (hst 2 [(0x1000, 1)])
    ∧ k.rf (K.FAB_PART 0) F.FAB_PART_ACK_LIMIT ≠ 0 ∧ (k.setRf (K.FAB_PART 0) F.FAB_PART_ACK_LIMIT 0).rf (K.FAB_PART 0) F.FAB_PART_ACK_LIMIT = 0
    ∧ invB h = true ∧ h.active 0 1 0 = some (hst 1 [(0x1000, 0)]) ∧ haulRemote (hst 1 []).e = 1
    ∧ (h.setReg (K.HQ_LIM 0) 0).rf (K.HQ_LIM 0) F.HQ_LIM_ACK_LIMIT = 0 ∧ (h.setReg (K.HQ_LIM 0) 1).rf (K.HQ_LIM 0) F.HQ_LIM_ACK_LIMIT = 1 := by
  decide +kernel

/-- A queue command of these words, not begun. -/
def qc (words : List Word) : QCmd := ⟨words ++ List.replicate (8 - words.length) 0, 1, false, 0, 0, false, none, none, 0, 0, false⟩
/-- A module whose queue 255 belongs to partition 0, is enabled with 16 entries and holds one command. -/
def hqs (l : List QCmd) : State :=
  (regd [(K.HQ_CTL 255, 0x21), (K.HQ_SQ 255, 4), (K.HIF_LINK 0, 1), (K.HQ_PTR 255, 0x20002)]).setHq 255 ⟨l, true, [], 0⟩
/-- Whether its command may begin and passes its checks. -/
def begins (s : State) (c : QCmd) : Bool :=
  decide (s.CmdBegins 255 0 0 c) && s.firstCmd 255 == 0

theorem wit_queueCommands :
    let nop := qc [0]
    let start := qc [1, 0x8001]
    let inn := qc [2, 0x1000, 64, 256]
    let out := qc [3, 0x1000, 64, 256]
    let sig := qc [4, 64]
    let wait := qc [5 + 0x600, 64]
    let st := ((hqs [start]).onFm 0 fun f => { f with st := .stopped }).onFm 15 fun f => { f with st := .stopped }
    let g : State := { hqs [wait] with marks := [(4, WordMark.clear.setFull true)] }
    let bad := qc [0x100000000]
    let o : State := { hqs [out] with marks := (List.range 256).map fun i => (4 + i, WordMark.clear.setFull true) }
    invB (hqs [nop]) = true ∧ begins (hqs [nop]) nop = true ∧ nop.opc = 0 ∧ invB st = true ∧ begins st start = true
    ∧ start.opc = 1 ∧ start.names = [0, 15] ∧ st.loading 15 = false ∧ st.present 0 ucForeman 0 = true ∧ st.mgmt.testMode = 0
    ∧ st.inReset 15 = false ∧ begins (hqs [inn]) inn = true ∧ inn.opc = 2 ∧ inn.len = 256 ∧ inSram inn.dev = true
    ∧ ((wordsOf 64 4096).all fun w => (hqs []).mayAccess 0 (16 * w)) = true
    ∧ (let r := (hqs [nop]).setReg (K.HQ_PTR 255) 0x000F00020000
       let l := (hqs []).setHq 255 ⟨[nop], true, [(0, 0)], 0⟩
       r.cqRoom 255 = false ∧ (r.hq 255).cmds[0]? = some nop ∧ nop.begun = false ∧ (l.hq 255).held ≠ [] ∧ l.firstCmd 255 = 0)
    ∧ (∀ x ∈ start.names, st.rb (K.CLK_BENCH x) F.CLK_BENCH_STOPPED = false) ∧ out.poison = false ∧ out.flushing = none
    ∧ begins o out = true ∧ out.opc = 3 ∧ ((wordsOf 64 4096).all fun w => decide (o.Clean h0 w) && o.full w) = true
    ∧ begins (hqs [sig]) sig = true ∧ sig.opc = 4 ∧ (hqs []).mayAccess 0 sig.wordAt = true
    ∧ begins (hqs [wait]) wait = true ∧ begins g wait = true ∧ wait.opc = 5 ∧ wait.mode = 3
    ∧ g.waitHolds wait.wordAt (BitVec.ofNat 2 wait.mode) (wait.w 2) = true ∧ (g.mark 4).poison = false
    ∧ (hqs [wait]).waitHolds wait.wordAt (BitVec.ofNat 2 wait.mode) (wait.w 2) = false ∧ invB (hqs [bad]) = true ∧ (hqs [bad]).mayBegin 255 0 = true
    ∧ ((hqs [bad]).cmdCheck 0 bad).isSome = true ∧ (hqs [bad]).qServed 255 = true ∧ bad.opc = 0
    ∧ (hqs [bad]).firstCmd 255 = 0 := by decide +kernel

theorem wit_queueTimeouts :
    let w := { qc [5, 64, 0, 100] with begun := true }
    let r := { qc [2, 0x1000, 64, 256] with begun := true }
    invB (hqs [w]) = true ∧ ((hqs [w]).hq 255).cmds[0]? = some w ∧ (hqs [w]).firstCmd 255 = 0 ∧ w.opc = 5 ∧ w.len = 100
    ∧ invB (hqs [r]) = true
    ∧ ((hqs [r]).hq 255).cmds.findIdx? (fun c => c.begun && c.status.isNone && (c.opc == 2 || c.flushing.isSome)) = some 0
    ∧ (let c := { qc [1, 0x8001] with begun := true, left := 1 }
       let s := (hqs [c]).onFm 15 fun f => { f with st := .stopped }
       invB s = true ∧ (s.hq 255).cmds[0]? = some c ∧ s.qServed 255 = true ∧ c.status = none ∧ c.opc = 1
        ∧ (15 : Bid) ∈ c.names ∧ c.left.getLsbD 15 = false ∧ (s.fm 15).st = .stopped) := by
  decide +kernel

theorem wit_queueRings :
    let d := { qc [0] with begun := true, status := some 0 }
    let full := (hqs [d]).setReg (K.HQ_PTR 255) 0x000F00020000
    let e : State := { hqs [] with host := { (hqs []).host with aborting := 1 } }
    let u := (hqs []).setHq 255 ⟨[], true, [], 3⟩
    let f := (hqs []).setReg (K.HQ_PTR 255) 0x50000
    let n := (hqs []).setReg (K.HQ_CTL 255) 0x20
    invB f = true ∧ f.rf (K.HQ_SQ 255) F.HQ_SQ_SIZE_LOG2 = 4 ∧ f.qServed 255 = true ∧ f.rb (K.HQ_CTL 255) F.HQ_CTL_ERROR = false
    ∧ f.qp 255 F.HQ_PTR_SQ_HEAD ≠ f.qp 255 F.HQ_PTR_SQ_TAIL ∧ n.qServed 255 = false ∧ (hqs [d]).qServed 255 = true
    ∧ (let x := { d with doneNo := 2 }
       ((hqs [x, d]).hq 255).cmds[0]? = some x ∧ d ∈ ((hqs [x, d]).hq 255).cmds ∧ d.status = some 0 ∧ d.doneNo < x.doneNo)
    ∧ ((hqs [d]).hq 255).cmds[0]? = some d ∧ d.status = some 0
    ∧ (((hqs [d]).hq 255).cmds.all fun y => decide (d.doneNo ≤ y.doneNo)) = true
    ∧ up.partValid 0 = true ∧ State.reset.partValid 0 = false ∧ (hqs [d]).qOwner 255 = some 0 ∧ ((hqs [d]).hq 255).held = [] ∧ (hqs [d]).cqRoom 255 = true ∧ full.cqRoom 255 = false
    ∧ full.qServed 255 = true ∧ (u.hq 255).unsignalled ≠ 0 ∧ ((hqs []).hq 255).unsignalled = 0 ∧ (hqs []).bellOk 0 255 = true
    ∧ n.bellOk 0 255 = false ∧ (hqs []).qSize 255 = 16 ∧ (hqs []).qp 255 F.HQ_PTR_CQ_HEAD % 16 = 0
    ∧ (0 + 16 - 0) % 16 ≤ ((hqs []).qp 255 F.HQ_PTR_CQ_TAIL + 16 - 0) % 16 ∧ n.qOn 255 = false
    ∧ invB e = true ∧ e.aborting 0 = true ∧ (hqs []).aborting 0 = false ∧ e.queueOf 0 255 = true := by decide +kernel

theorem wit_hostWindows :
    let s := (regd [(K.BAR2_SEG 0 0, 1), (K.HIF_LINK 0, 1)]).onHport 0 fun h => { h with barLog2 := 34 }
    let off := 0x1000000 + (K.PLM_CTL 0 - hubKey)
    invB s = true ∧ s.partValid 0 = true ∧ s.stage = stageReady ∧ off % 8 = 0 ∧ bar0At off = .reg (K.PLM_CTL 0)
    ∧ K.PLM_CTL 0 % 8 = 0
    ∧ (match s.regFind 0 true (K.PLM_CTL 0) with | .ok r is => s.mayWrite (.host 0) r is | _ => false) = true
    ∧ (match s.regFind 0 true K.FAB_ID with | .ok r is => !s.mayWrite (.host 0) r is | _ => false) = true
    ∧ (match s.regFind 0 true (K.PLM_CTL 1) with | .ok _ _ => false | _ => true) = true
    ∧ State.reset.partValid 0 = false ∧ State.reset.stage ≠ stageReady ∧ s.bar2Addr 0 (2 ^ 28) 16 = none
    ∧ s.bar2Addr 0 48 16 = some 48 ∧ ((wordsOf 48 16).all fun w => decide (s.Clean h0 w)) = true
    ∧ s.hostUp 0 = true ∧ up.hostUp 0 = false ∧ hostPorts (s.rf K.HIF_CFG F.HIF_CFG_BIFUR_ACT) = 1
    ∧ s.endpointUp = true ∧ State.reset.endpointUp = false := by decide +kernel

/-- A record of a Bench 0 event. -/
def rec0 (event : Nat) : Rec := [pack [(0, 2, 1), (44, 8, event), (60, 2, 0), (62, 1, 1)], 0, 0, 0, 0, 0, 0, 0]

theorem wit_errorRecords :
    let s := (regd [(K.ERR_RING 0, 4), (K.ERR_HEAD 0, 0x100000000), (K.HIF_LINK 0, 1)])
    let c (l : List MergeWin) (s : State) : State := { s with errs := { s.errs with coming := [rec0 0x0F], wins := l } }
    let w : MergeWin := ⟨recKey (rec0 0x0F), none, 0⟩
    let m : MergeWin := ⟨recKey (rec0 0x0F), some (rec0 0x0F), 2⟩
    invB (c [] s) = true ∧ (c [] s).errs.coming = rec0 0x0F :: [] ∧ (c [] s).affected (rec0 0x0F) = [0] ∧ (c [] s).errs.held[(0 : Part)] = []
    ∧ (c [] s).ringOpen 0 = true ∧ (15 : BitVec 4).getLsbD 0 = true ∧ (14 : BitVec 4).getLsbD 0 = false ∧ (c [] up).ringOpen 0 = false ∧ s.rf (K.ERR_RING 0) F.ERR_RING_SIZE_LOG2 = 4
    ∧ merges (rec0 0x0F) = true ∧ ((c [w] s).errs.wins.any fun w => w.key == recKey (rec0 0x0F)) = true
    ∧ (c [w, m] s).errs.wins[0]? = some w ∧ (c [w, m] s).errs.wins[1]? = some m ∧ invB (c [w, m] s) = true
    ∧ up.rb (K.ERR_HEAD 0) F.ERR_HEAD_ENABLE = false ∧ up.errs.held[(0 : Part)] = [] := by decide +kernel

/-- `up` with the partition's Foremen at rest. -/
def rest : State := fmd fun f => { f with st := .stopped }

theorem wit_unitHealth :
    let f : State := { up with health := { up.health with faults := [rec0 3], pending := [⟨0, ucWedge, 3⟩] } }
    let r : State := { rest with health := { rest.health with pending := [⟨0, ucWedge, 3⟩] } }
    let z := up.setReg K.PROOF_POLICY 0
    let n := up.setReg K.PROOF_POLICY 5
    invB f = true ∧ f.health.faults = rec0 3 :: [] ∧ ((f.histOf ⟨0, 0, 0⟩).any fun e => isCheckEvent e.event) = false
    ∧ up.health.faults = [] ∧ ⟨0, ucWedge, 3⟩ ∈ f.health.pending ∧ f.unitAtRest ⟨0, ucWedge, 3⟩ = false
    ∧ ⟨0, ucWedge, 3⟩ ∈ r.health.pending ∧ r.unitAtRest ⟨0, ucWedge, 3⟩ = true ∧ invB r = true
    ∧ invB z = true ∧ z.rf K.PROOF_POLICY F.PROOF_POLICY_INTERVAL = 0 ∧ invB n = true
    ∧ n.rf K.PROOF_POLICY F.PROOF_POLICY_INTERVAL ≠ 0 := by decide +kernel

theorem wit_proofs :
    let p (run late : Bool) (s : State) : State :=
      { s with health := { s.health with proofs := [⟨⟨0, ucWedge, 0⟩, some 0, run, late, false⟩] } }
    let w := run eW [.wdgBegin 0]
    let e := run eng [.wdgCvt h0 { cf1 with wsel := 0 }]
    let g := up.setReg (K.BENCH_PWR 0) 3
    (p false false up).proofOf ⟨0, ucWedge, 0⟩ = some ⟨⟨0, ucWedge, 0⟩, some 0, false, false, false⟩
    ∧ (p true true up).proofOf ⟨0, ucWedge, 0⟩ = some ⟨⟨0, ucWedge, 0⟩, some 0, true, true, false⟩ ∧ invB (p true true up) = true
    ∧ up.proofBlocked 0 = false ∧ up.unitWorks 0 ucWedge 0 = false ∧ up.unitNamed 0 ucWedge 0 = false
    ∧ w.unitWorks 0 ucWedge 0 = true ∧ e.headNames 0 ucWedge 0 = true ∧ up.headNames 0 ucWedge 0 = false
    ∧ g.proofBlocked 0 = true ∧ (up.proofResult ⟨0, ucWedge, 0⟩ ⟨5, none, none⟩) = some ([⟨0, ucWedge, 0⟩], 5)
    ∧ (let x := (0, ucCutter, 1)
       let t := up.setReg (K.FP_BENCH0 0) 0x1FFFFFF9F
       up.proofThird ⟨0, ucCutter, 0⟩ x = true ∧ t.proofPeer ⟨0, ucCutter, 0⟩ x = true ∧ t.proofThird ⟨0, ucCutter, 0⟩ x = false)
    ∧ (arrayNo ucCutter 0).isSome = true ∧ up.proofPeer ⟨0, ucCutter, 0⟩ (0, ucCutter, 1) = true
    ∧ up.proofPeer ⟨0, ucCutter, 0⟩ (0, ucCutter, 2) = true ∧ up.health.mgmtFailed = [] ∧ up.health.benchFailed = [] := by decide +kernel

/-- No row is interleaved where no partition interleaves. -/
theorem rowInter_none {s : State} (h : ∀ p : Part, s.rb (K.BMC_PART p) F.BMC_PART_IMODE = false) (r : Nat) : s.rowInter r = false := by
  unfold State.rowInter
  cases s.rowOwner r with
  | none => rfl
  | some p => exact h p

theorem wit_resetMemory : up.bulk.zeroing = [] ∧ ∀ r, up.rowInter r = false :=
  ⟨rfl, rowInter_none (by decide +kernel)⟩

theorem wit_resets :
    let s : State := { up with mgmt := { up.mgmt with resetsBusy := [⟨.bench, 3, 0, ⟨0, 0, 0⟩, 3, false⟩] } }
    let n := (up.setRf (K.PART_CFG 0) ⟨0, 17⟩ 0x10001)
    let l := up.onCtl 0 fun c => { c with last := some (.commit, 5, 0) }
    let v := ((l.onCtl 0 fun c => { c with phase := .opened, step := 6 }).setRf (K.STEP_STATE 0) F.STEP_STATE_PHASE 3).setRf
      (K.STEP_STATE 0) F.STEP_STATE_STEP 5
    invB v = true ∧ (v.ctl 0).live = true ∧ v.showsCommit 0 = true ∧ (v.ctl 0).last = some (.commit, 5, 0)
    ∧ invB l = true ∧ l.mgmt.resetsBusy = [] ∧ l.partOf 0 = some 0 ∧ (l.ctl 0).last = some (.commit, 5, 0) ∧ (l.ctl 0).live = false
    ∧ (up.ctl 0).last = none ∧ invB up = true ∧ up.mgmt.resetsBusy = [] ∧ up.fmQuiet 0 = false ∧ rest.fmQuiet 0 = true ∧ resetUnits ucCutter = 4
    ∧ resetUnits 63 ≤ 0 ∧ hostPorts (up.rf K.HIF_CFG F.HIF_CFG_BIFUR_ACT) = 1
    ∧ hostPorts ((up.setReg K.HIF_CFG 9).rf K.HIF_CFG F.HIF_CFG_BIFUR_ACT) = 4 ∧ up.pwr.mainOn = true
    ∧ up.rf K.PWR_STAT F.PWR_STAT_STATE ≠ 2 ∧ s.canComplete ⟨.bench, 3, 0, ⟨0, 0, 0⟩, 3, false⟩ = true
    ∧ fld (0x10001 : Word) 0 17 ≠ fld (up.reg (K.PART_CFG 0)) 0 17 ∧ up.cfgBad 0 0x1FFFE = true
    ∧ rest.cfgBad 0 0x1FFFE = false ∧ rest.mgmt.resetsBusy = [] ∧ n.cfgBad 1 0x10001 = true := by decide +kernel

theorem wit_powerAndPresence :
    let o : State := { State.reset with pwr := { State.reset.pwr with mainOn := false } }
    let d : State := { o with pwr := { o.pwr with debouncing := true } }
    let w : State := { up with pwr := { up.pwr with attnWindow := true } }
    let r (n : Nat) := up.setRf K.REM_CTL F.REM_CTL_PHASE n
    let two := (up.setReg (K.PART_CFG 0) 0x10001).setReg (K.PART_CFG 1) 0x10002
    invB o = true ∧ o.pwr.mainOn = false ∧ invB d = true ∧ d.pwr.debouncing = true ∧ 95 * 48000 ≤ 100 * 48000 ∧ 100 * 48000 ≤ 105 * 48000 ∧ d.health.pending = []
    ∧ (∀ n, (r 3).portState n ≠ portReady) ∧ up.pwr.mainOn = true
    ∧ up.pwr.debouncing = false ∧ up.rb K.REM_CTL F.REM_CTL_PENDING = false ∧ invB w = true ∧ w.pwr.attnWindow = true
    ∧ (up.setReg K.REM_CTL 0x10).rb K.REM_CTL F.REM_CTL_PENDING = true
    ∧ up.pwr.attnWindow = false ∧ up.partValid 0 = true ∧ (∀ q, up.partValid q = true → q = 0) ∧ invB (r 2) = true
    ∧ (r 2).removalPhase = 2 ∧ (r 3).removalPhase = 3 ∧ (r 4).removalPhase = 4 ∧ two.partValid 1 = true
    ∧ (two.rf K.REM_CTL F.REM_CTL_RELEASE).testBit 1 = false := by decide +kernel

/-- A wake finds words of instruction memory in the crossing, two of them for one place, or one START (R476). -/
theorem wit_heldCrossing :
    let w (l : List (Nat × Word)) : State := (rest.setReg (K.BENCH_PWR 0) 4).onBench 0 fun x => { x with xing := l }
    let s := w [(K.IMEM 0 5, 1), (K.IMEM 0 5, 2), (K.IMEM 0 32767, 3)]
    let g := w [(K.FM_CTL 0, 0x70001)]
    let o := after (exec (.benchWakeDone 0) g)
    invB s = true ∧ s.rb (K.BENCH_PWR 0) F.BENCH_PWR_WAKING = true
    ∧ (s.bench 0).xing = [(K.IMEM 0 5, 1)] ++ (K.IMEM 0 5, 2) :: [(K.IMEM 0 32767, 3)]
    ∧ invB g = true ∧ (g.bench 0).xing = [(K.FM_CTL 0, 0x70001)] ∧ (0x70001 : Word).getLsbD 0 = true ∧ g.ready = true
    ∧ g.mgmt.testMode = 0 ∧ g.loading 0 = false ∧ g.inReset 0 = false ∧ o.present 0 ucForeman 0 = true := by decide +kernel

theorem wit_powerCaps :
    let g := rest.setReg (K.BENCH_PWR 0) 3
    let w := rest.setReg (K.BENCH_PWR 0) 4
    let ts : Temps := [840, 920, 800, 799, 1000 - 1] ++ List.replicate 11 300 ++ List.replicate 9 879 ++ [200, 250]
    let hot : Temps := List.replicate 26 300 ++ [1000]
    let l := up.setReg K.PWR_LIMIT 0xD480D48
    invB rest = true ∧ rest.ready = true ∧ rest.activeNow = false ∧ rest.rf K.PWR_STAT F.PWR_STAT_STATE = 0
    ∧ up.activeNow = true ∧ rest.rb (K.BENCH_PWR 0) F.BENCH_PWR_GATE = false ∧ rest.rb (K.BENCH_PWR 0) F.BENCH_PWR_WAKING = false
    ∧ (rest.fm 0).st = .stopped ∧ (rest.bench 0).idle = true ∧ (up.fm 0).st ≠ .stopped ∧ invB g = true
    ∧ g.rb (K.BENCH_PWR 0) F.BENCH_PWR_GATE = true ∧ invB w = true ∧ w.rb (K.BENCH_PWR 0) F.BENCH_PWR_WAKING = true ∧ (w.bench 0).xing = []
    ∧ up.pwr.capBy = [] ∧ up.pwr.outletHot < 9999 ∧ ((List.range 9).all fun i => decide (ts.getD (16 + i) 0 < 880)) = true
    ∧ ((List.range 27).all fun i => decide (ts.getD i 0 < 1000)) = true
    ∧ (let k : State := { up with pwr := { up.pwr with capBy := [17] } }
       invB k = true ∧ 16 + 1 ∈ k.pwr.capBy ∧ 800 ≤ ts.getD (16 + 1) 0 ∧ 880 ≤ (ts.set 16 880).getD (16 + 0) 0
        ∧ (ts.set 17 799).getD (16 + 1) 0 < 800)
    ∧ 1000 ≤ hot.getD 26 0 ∧ l.rf K.PWR_LIMIT F.PWR_LIMIT_ENVELOPE_W = 3400 ∧ invB l = true ∧ (3401 : Word).toNat % 2 ^ 12 = 3401 := by
  decide +kernel

/-- A module whose ROM boots, from `State.reset`. -/
def rom (f : Flash → Flash) : State := { State.reset with mgmt := { State.reset.mgmt with flash := f State.reset.mgmt.flash } }
/-- The module after BOOT has chosen an image, and after it was broadcast: it trains. -/
def bt : State := after (execBoot true [] State.reset)
def trn : State := after (execBoot true [] bt)
/-- Training with everything done but READY. -/
def trd : State := { trn with mgmt := { trn.mgmt with startupDone := BitVec.allOnes 16, stacksDone := BitVec.allOnes 8, portsDone := BitVec.allOnes 16 } }

theorem wit_boots :
    let nb := rom fun f => { f with build := #v[none, none] }
    let ni := rom fun f => { f with slots := #v[none, none] }
    let pd := rom fun f => { f with pendingSlot := some true, slots := #v[some ⟨1, 0, [false], [], some 1⟩, some ⟨2, 0, [false], [], some 1⟩] }
    let pb := rom fun f => { f with pendingSlot := some true }
    let tr : State := { trn with mgmt := { trn.mgmt with flash := { trn.mgmt.flash with tried := true } } }
    invB State.reset = true ∧ State.reset.stage = 0 ∧ State.reset.pwr.mainOn = true ∧ invB nb = true ∧ nb.flashBuild = none
    ∧ ni.flashBuild = some builtRecord ∧ ni.mgmt.flash.pendingSlot = none ∧ ni.mgmt.flash.choose builtRecord = none
    ∧ State.reset.mgmt.flash.choose builtRecord = some false ∧ State.reset.health.bootFailed = [] ∧ pd.mgmt.flash.slotOk builtRecord true = true
    ∧ pb.mgmt.flash.pendingSlot = some true ∧ pb.mgmt.flash.slotOk builtRecord true = false ∧ up.stage ≠ 0
    ∧ State.reset.flashBuild = some builtRecord ∧ pd.flashBuild = some builtRecord ∧ pd.mgmt.flash.pendingSlot = some true
    ∧ invB bt = true ∧ bt.stage = 1 ∧ bt.pwr.mainOn = true ∧ (bt.portState 0 ≠ 4)
    ∧ (let lost (s : State) : Bool := s.health.bootFailed.any fun u => u.bench == hubNo && u.cls == ucHubCore && 24 ≤ u.index
       lost (after (execBoot true [(hubNo, ucHubCore, 28)] bt)) = true ∧ lost trn = false)
    ∧ tr.mgmt.flash.tried = true ∧ tr.pwr.mainOn = true ∧ tr.stage ≠ stageReady ∧ invB tr = true := by decide +kernel

theorem wit_training :
    let sv : State := { trn with mgmt := { trn.mgmt with flash := { trn.mgmt.flash with saved := #v[some ⟨1, [], [(0, [5, 1152], 0)]⟩, none] } } }
    let sp := (List.range 64).map (1152 + ·)
    let nw : State := { up with mgmt := { up.mgmt with newSettings := true } }
    let st3 := trn.setRf K.BOOT_STAT F.BOOT_STAT_STAGE 3
    let old : State := { nw with mgmt := { nw.mgmt with flash := sv.mgmt.flash } }
    st3.stage = 3 ∧ st3.mgmt.startupDone ≠ BitVec.allOnes 16 ∧ trn.hubCore (stackCore 0) = true
    ∧ old.savedRec = some ⟨1, [], [(0, [5, 1152], 0)]⟩ ∧ old.ready = true ∧ old.mgmt.identityOk = true
    ∧ invB trn = true ∧ trn.stage = 2 ∧ trn.mgmt.startupDone ≠ BitVec.allOnes 16 ∧ up.stage ≠ 2
    ∧ invB sv = true ∧ sv.planStack 0 = true ∧ sv.mgmt.stacksDone.getLsbD 0 = false ∧ sv.savedSet 0 = some ([5, 1152], 0)
    ∧ pairSpares [1152] [5] sp = some [(5, 1153)] ∧ pairSpares [] (List.range 65) sp = none
    ∧ (pairSpares [] (List.range 64) sp).isSome = true ∧ trn.portState 0 = 2 ∧ up.portState 0 ≠ 2
    ∧ trn.bringUpDone = false ∧ invB trd = true ∧ trd.bringUpDone = true ∧ trd.mgmt.flash.tried = false
    ∧ nw.ready = true ∧ nw.mgmt.newSettings = true ∧ nw.mgmt.identityOk = true ∧ up.mgmt.newSettings = false := by decide +kernel

theorem wit_readyMemory : ∀ r, (after (exec (.ready 0) trd)).rowInter r = trd.rowInter r := fun r => by
  rw [rowInter_none (by decide +kernel) r, rowInter_none (by decide +kernel) r]

theorem wit_statusWords : invB up = true ∧ (K.VTAB_VALID 15 = K.VTAB_VALID 15 ∨ K.VTAB_VALID 15 = K.PLM_FBMAP 0 63) := by decide +kernel

theorem wit_instructionMemory : invB up = true ∧ invB rest = true ∧ (rest.fm 0).st = .stopped ∧ (up.fm 0).st ≠ .stopped
    ∧ up.rb (K.CLK_BENCH 0) F.CLK_BENCH_STOPPED = false
    ∧ (up.setRb (K.CLK_BENCH 0) F.CLK_BENCH_STOPPED true).rb (K.CLK_BENCH 0) F.CLK_BENCH_STOPPED = true := by
  decide +kernel

/-- A request with its message and arguments, on a channel. -/
def mq (c : Chan) (msg : BitVec 16) (a b : Word) : MbReq := ⟨c, msg, 7, 0, a, b, 0, []⟩
/-- `up` with a request waiting whose channel holds a role. -/
def asks (m : MbReq) (role : Option Role) : State :=
  { up with mgmt := { up.mgmt with service := [m], chans := up.mgmt.chans.set m.chan { ChanSt.reset with role := role } } }
/-- The request waits and passes the general checks. -/
def may (m : MbReq) (role : Option Role) (need : Need) : Bool :=
  invB (asks m role) && decide ((asks m role).Waits m m.msg.toNat) && (asks m role).generalCheck m need == rOk

theorem wit_mailboxRequests :
    let n (m : MbReq) (f : ChanSt → ChanSt) : State :=
      { asks m none with mgmt := { (asks m none).mgmt with chans := up.mgmt.chans.set m.chan (f ChanSt.reset) } }
    let w : State := { up with mgmt := { up.mgmt with working := [(0, mq 0 0x25 0 0)] } }
    up.hubCore mgmtCore = true ∧ up.endpointUp = true ∧ State.reset.endpointUp = false ∧ (asks (mq 0 1 0 0) none).entryFails (mq 0 1 0 0) = false
    ∧ (let f : State := { w with mgmt := { w.mgmt with flash := { w.mgmt.flash with failing := true } } }
       f.entryFails (mq 0 0x25 0 0) = true ∧ f.entryFails (mq 0 1 0 0) = false ∧ w.entryFails (mq 0 0x25 0 0) = false)
    ∧ up.pwr.mainOn = true ∧ up.mgmt.service = [] ∧ (up.hport 0).mbx.busy = false ∧ may (mq 0 1 0 0) none .any = true
    ∧ may (mq 8 2 0 0) none .any = true ∧ may (mq 0 3 5 0) none .operatorInstaller = true
    ∧ may (mq 4 3 5 3) (some .installer) .operatorInstaller = true ∧ may (mq 0 4 0 0) none .operatorInstaller = true
    ∧ may (mq 0 5 15 0) none .operator = true ∧ up.owns 0 15 = true
    ∧ unitOf (mq 0 5 0 (BitVec.ofNat 64 ucWedge)) ∈ up.proofUnits 0 ∧ may (mq 0 6 0 0) none .operator = true
    ∧ may (mq 0 0x10 2 0) none .any = true ∧ (up.chan 0).locked = false
    ∧ (n (mq 0 0x10 2 0) fun c => { c with locked := true }).Waits (mq 0 0x10 2 0) 0x10
    ∧ ((n (mq 0 0x10 2 0) fun c => { c with locked := true }).chan 0).locked = true
    ∧ (n (mq 0 0x11 0 0) fun c => { c with nonce := some (1, .maker) }).Waits (mq 0 0x11 0 0) 0x11
    ∧ (n (mq 0 0x11 0 0) fun c => { c with nonce := some (1, .maker) }).generalCheck (mq 0 0x11 0 0) .any = rOk
    ∧ ((n (mq 0 0x11 0 0) fun c => { c with nonce := some (1, .maker) }).chan 0).nonce = some (1, .maker)
    ∧ (0 : Nat) < up.keysOf .maker ∧ may (mq 0 0x12 0 0) (some .maker) .any = true
    ∧ (asks (mq 0 0x32 1 0) none).Waits (mq 0 0x32 1 0) 0x32 ∧ (asks (mq 0 0x32 1 0) none).generalCheck (mq 0 0x32 1 0) .maker ≠ rOk
    ∧ (0, mq 0 0x25 0 0) ∈ w.mgmt.working.find? (fun e => e.1 == 0)
    ∧ (∀ i < 16, (((n (mq 0 1 0 0) id).hport 0).mbx.byte (8 + i % 8)).isSome)
    ∧ (let z : State := { (up.onBulk fun b => { b with zeroing := [(47, 6)] }) with
         mgmt := { up.mgmt with zeroReq := [(47, mq 4 0x20 0x200178 6)] } }
       invB z = true ∧ z.bulk.zeroing.find? (fun e => e.1 == 47) = some (47, 6) ∧ z.mgmt.zeroReq = [(47, mq 4 0x20 0x200178 6)]) := by
  decide +kernel

theorem wit_installerRequests :
    let i : Option Role := some .installer
    let k : Option Role := some .maker
    let sb : State := (asks (mq 4 0x26 0 0) i).setRf K.PWR_STAT F.PWR_STAT_STATE 2
    let se : State := (asks (mq 4 0x26 1 0) i).onFm 0 fun f => { f with st := .stopped }
    may (mq 4 0x20 0xA10000 0xFFFF001F) i .installer = true ∧ (0xFFFF001F : Word) &&& ~~~ 0xFFFF001F = 0
    ∧ may (mq 4 0x20 0xA10000 0x20) i .installer = true ∧ (0x20 : Word) &&& ~~~ 0xFFFF001F ≠ 0
    ∧ may (mq 4 0x21 0 0) i .installer = true ∧ may (mq 4 0x22 0 0) i .installer = true
    ∧ up.mgmt.flash.judge builtRecord ⟨2, 0, [false], [], some 1⟩ = rOk ∧ up.buildRec.isSome = true ∧ may (mq 4 0x23 0 0) i .installer = true
    ∧ may (mq 4 0x24 0 0) i .installer = true ∧ up.unitInPlan (unitOf (mq 4 0x24 0 (BitVec.ofNat 64 ucWedge))) = true
    ∧ may (mq 4 0x25 15 0) i .installer = true ∧ (∃ r ∈ up.buildRec, up.portBuilt r 15 = true) ∧ up.portOwner 15 = some 0 ∧ up.epochOn 0 = false
    ∧ se.ready = true ∧ se.rf K.PWR_STAT F.PWR_STAT_STATE ≠ 2 ∧ (∀ b, (se.fm b).st = .stopped)
    ∧ se.Waits (mq 4 0x26 1 0) 0x26 ∧ se.generalCheck (mq 4 0x26 1 0) .installer = rOk
    ∧ sb.Waits (mq 4 0x26 0 0) 0x26 ∧ sb.generalCheck (mq 4 0x26 0 0) .installer = rOk ∧ sb.rf K.PWR_STAT F.PWR_STAT_STATE = 2
    ∧ may (mq 4 0x27 0 0) i .installer = true ∧ may (mq 4 0x28 0 0) i .installer = true ∧ may (mq 4 0x30 0 0) k .maker = true
    ∧ builtRecord.signedOk = true ∧ may (mq 4 0x31 16 0) k .maker = true ∧ may (mq 4 0x32 1 0) k .maker = true
    ∧ (asks (mq 4 0x22 0 0) i).generalCheck (mq 4 0x22 0 0) .installer = rOk := by decide +kernel

theorem wit_spdm :
    let r := up.setRf K.BOOT_STAT F.BOOT_STAT_STAGE stageRecovery
    let n : State := { up with mgmt := { up.mgmt with identityOk := false } }
    up.hubCore securityCore = true ∧ State.reset.stage ∈ [stageRom, stageFirmware, stageRecovery, stageFailed]
    ∧ up.pwr.mainOn = true ∧ (up.setReg (K.HIF_LINK 0) 1).hostUp (chanPart 4) = true ∧ up.stage ∉ [stageRom, stageFirmware, stageRecovery, stageFailed]
    ∧ up.mgmt.identityOk = true ∧ n.mgmt.identityOk = false ∧ r.stage ∈ [stageRom, stageFirmware, stageRecovery, stageFailed]
    ∧ up.mgmt.flash.sinceCheckpoint = 0 ∧ up.mgmt.flash.audit.length < 262144 := by decide +kernel

/-- A tracer of Bench 0 over a ring of 4096 units at the start of bulk memory, on or off. -/
def trc (on : Word) : State := regd [(K.TRC_RING 0, 0x10000000000 + 12), (K.TRC_CTL 0, 0x1000010 + on), (K.TRC_SEL 0, 0)]

theorem wit_trace :
    let g := (trc 1).onBench 0 fun x => { x with trace := List.replicate 32 [1, 2] }
    let f := g.setReg (K.TRC_PTR 0) (4064 <<< 32)
    invB (trc 0) = true ∧ (trc 0).trOn 0 = false ∧ (trc 0).trRingOk 0 = true ∧ up.trRingOk 0 = false ∧ (trc 1).trOn 0 = true
    ∧ (trc 1).rf (K.TRC_CTL 0) F.TRC_CTL_SAMPLE_PERIOD ≠ 0 ∧ ((trc 1).bench 0).traceLost = 0
    ∧ traceUnits ((trc 1).staged 0) + 3 ≤ 4096 ∧ invB g = true ∧ g.trRests 0 = false ∧ 32 ≤ traceUnits (g.staged 0)
    ∧ g.trPart 0 = some 0 ∧ g.trRoom 0 = true ∧ f.trRoom 0 = false
    ∧ (let put := g.trBase 0 / 16 + g.trTail 0
       let d := g.onBench 0 fun x => { x with traceIn := 32 }
       (∀ i < 32, g.mayAccess 0 (16 * (put + i)) = true) ∧ bulkBase ≤ 16 * put ∧ (d.bench 0).traceIn = traceUnits (d.staged 0)
        ∧ (d.setReg (K.TRC_PTR 0) (4064 <<< 32)).trRoom 0 = false
        ∧ ∀ i < 32, d.mayAccess 0 (16 * d.stageWord 0 i) = true ∧ (d.mark (d.stageWord 0 i)).poison = false
            ∧ (d.mark (d.stageWord 0 i)).upset = .clean) ∧ g.bulk.copying = []
    ∧ up.rb (K.CLK_BENCH 0) F.CLK_BENCH_STOPPED = false ∧ up.partValid 0 = true ∧ up.stage = stageReady
    ∧ isCounter (K.BENCH_CTR 0 0) = true
    ∧ (match up.regFind 0 true (K.BENCH_CTR 0 0) with | .ok _ _ => true | _ => false) = true := by decide +kernel

/-! ## Ill-formed commands are refused, one for each check of `Instr.wellFormed` -/

/-- A CUT.MM whose checked fields are all zero. -/
def mm0 : MMFields := ⟨2, 1, 2, 0, 4, 5, false, false, false, false, false, 0, false⟩
theorem test_wf_good_mm : Instr.wellFormed (.cutMm h0 mm0) = true := by decide
theorem test_wf_fe_reserved : Instr.wellFormed (.ld h0 1 2 3 0) = false := by decide
theorem test_wf_drain_field : Instr.wellFormed (.cutMm h0 { mm0 with dc := 3 }) = false := by decide
theorem test_wf_reuse_field : Instr.wellFormed (.cutMm h0 { mm0 with reuse := true }) = false := by decide
theorem test_wf_cutter_passes : Instr.wellFormed (.cutMm h0 { mm0 with passes := 1 }) = false := by decide
theorem test_wf_spl_passes : Instr.wellFormed (.drsMm h0 { mm0 with spl := true }) = false := by decide
theorem test_wf_second_destination : Instr.wellFormed (.wdgCvt h0 ⟨0, 1, 2, 3, false, false, 0, 0⟩) = false := by decide
theorem test_wf_wait_gate_zero : Instr.wellFormed (.full h0 0 1 0) = false := by decide
theorem test_wf_wait_result : Instr.wellFormed (.full h0 3 1 2) = false := by decide
theorem test_wf_request_length : Instr.wellFormed (.mbDoorbell (.submit ⟨0, 1, 0, 8, 0, 0, 0, []⟩)) = false := by decide
theorem test_wf_request_word3 : Instr.wellFormed (.mbDoorbell (.submit ⟨0, 1, 0, 0, 0, 0, 1, []⟩)) = false := by decide
theorem test_wf_access_bytes : Instr.wellFormed (.bar0Access 0 0 8 (some [0])) = false := by decide
theorem test_wf_access_range : Instr.wellFormed (.bar0Access 0 0x3FFFFFC 8 none) = false := by decide
theorem test_wf_access_empty : Instr.wellFormed (.bar2Access 0 0 0 none false) = false := by decide
theorem test_wf_bar4_range : Instr.wellFormed (.mbDoorbell (.read 0 0xFFFFC 8)) = false := by decide
theorem test_wf_unsupported_channel : Instr.wellFormed (.mbDoorbell (.unsupported 0)) = false := by decide
theorem test_wf_payload_units : Instr.wellFormed (.frameReceive 0 ⟨⟨0, 0, 0, 0, [1]⟩, 0, 0, false, 0, Vector.replicate 5 0⟩) = false := by decide
theorem test_wf_unit_bench : Instr.wellFormed (.unitRetired 17 0 0) = false := by decide
theorem test_wf_no_gate_field : Instr.wellFormed (.scrDcurve h0 0 1 2 (some (3, 0)) 15 0 0) = false := by decide
theorem test_wf_opt_run : Instr.wellFormed (.scrOpt h0 0 10 1 false 0 0) = false := by decide
theorem test_wf_store_remote : Instr.wellFormed (.haulSt h0 0 1 2 0 5 0) = false := by decide
theorem test_wf_store_local_ra : Instr.wellFormed (.haulSt h0 0 1 2 0 4 0) = false := by decide
theorem test_wf_fault_code : Instr.wellFormed (.programFault 0 0 0 0 0 0) = false := by decide
theorem test_wf_bad_lane : Instr.wellFormed (.portTraining 0 [0] 0 0) = false := by decide
theorem test_wf_lane : Instr.wellFormed (.laneWindowEnd 0 18 0) = false := by decide
theorem test_wf_temperatures : Instr.wellFormed (.thermalSample []) = false := by decide
theorem test_wf_build_record : Instr.wellFormed (.writeBuildRecord { builtRecord with benches := [] }) = false := by decide
theorem test_wf_certificate_slot : Instr.wellFormed (.getCertificate 0 8 0 0) = false := by decide
theorem test_wf_challenge_slot : Instr.wellFormed (.challenge 0 8 0) = false := by decide
theorem test_wf_measurement : Instr.wellFormed (.getMeasurements 0 256 0) = false := by decide
theorem test_wf_counter_key : Instr.wellFormed (.counterLowHalfRead 0 4) = false := by decide
theorem test_wf_register_key : Instr.wellFormed (.registerWrite 4 0) = false := by decide

/-! ## Words of the specification's own examples (11, Encoding examples) -/

theorem test_decode_fence : decodeInstr 0 0x80018 0 = some (.syncFence h0 0x10 0) := by rfl
theorem test_decode_branch : decodeInstr 0 0x1FFFF6001A00 0 = some (.br ⟨0, 3, false⟩ 0xFFFFB) := by rfl
theorem test_decode_branch_not : decodeInstr 0 0x1FFFF6005A00 0 = some (.br ⟨0, 3, true⟩ 0xFFFFB) := by rfl
theorem test_decode_mm : decodeInstr 0 0x0020052019090012 0
    = some (.cutMm h0 ⟨2, 1, 2, 3, 4, 5, false, false, false, true, false, 0, false⟩) := by rfl
theorem test_decode_mm_no_drain : decodeInstr 0 0x0000052002890012 0
    = some (.cutMm h0 ⟨2, 1, 5, 0, 4, 5, false, false, false, false, false, 0, false⟩) := by rfl
theorem test_decode_plm_eval : decodeInstr 0 0x1B 0 = some (.plmEval h0) := by rfl
theorem test_decode_reserved_engine : decodeInstr 0 0xF 0 = none := by rfl

/-! ## What a tick counts (R544) -/

/-- NOP of ENG 0x0 retires: counters 136 and 120, and no stall. -/
theorem test_tick_retires :
    (match step up with
      | .next t => (t.reg (K.BENCH_CTR 0 136), t.reg (K.BENCH_CTR 0 120), t.reg (K.BENCH_CTR 0 129))
      | _ => (0, 0, 0)) = (1, 1, 0) := by decide +kernel

/-- STEP.BEGIN behind an outstanding STEP.VOTE stalls: counter 133. -/
theorem test_tick_stalls :
    let s := (regd [(K.IMEM 0 0, 0x19)]).onFm 0 fun f => { f with voteReq := some ⟨.pass, [], [], 1, false, 0, 0⟩ }
    (match step s with
      | .next t => (t.reg (K.BENCH_CTR 0 136), t.reg (K.BENCH_CTR 0 133))
      | _ => (0, 0)) = (0, 1) := by decide +kernel

end Sys2Proof.Machine
end

section
/-!
SUPPORT. Fields of register words, bytes of memory words, and the rows of the register map that the tracers and the register
writes of O60 name.
-/

namespace Sys2Proof.Machine

/-! ## Fields of a word (R7) -/

/-- The bits of a word with a field replaced. -/
theorem getLsbD_setFld (w : Word) (lo n v i : Nat) (hi : i < 64) :
    (setFld w lo n v).getLsbD i = if lo ≤ i ∧ i < lo + n then v.testBit (i - lo) else w.getLsbD i := by
  have hmask : (maskAt lo n).getLsbD i = decide (lo ≤ i ∧ i < lo + n) := by
    simp only [maskAt, BitVec.getLsbD_ofNat, hi, decide_true, Bool.true_and, Nat.testBit_shiftLeft, Nat.testBit_two_pow_sub_one,
      ← Bool.decide_and, decide_eq_decide]
    omega
  simp only [setFld, BitVec.getLsbD_or, BitVec.getLsbD_and, BitVec.getLsbD_not, hmask, hi, decide_true, Bool.true_and,
    BitVec.getLsbD_ofNat, Nat.testBit_shiftLeft, Nat.testBit_mod_two_pow]
  by_cases h : lo ≤ i ∧ i < lo + n
  · have h2 : i - lo < n := by omega
    simp [h, h2]
  · have h2 : ¬ (lo ≤ i ∧ i - lo < n) := by omega
    rcases Nat.lt_or_ge i lo with h3 | h3
    · simp [Nat.not_le.mpr h3]
    · simp [h, show ¬ (i - lo < n) by omega]

/-- The bits of a field. -/
theorem testBit_fld (w : Word) (lo n i : Nat) : (fld w lo n).testBit i = (decide (i < n) && w.getLsbD (lo + i)) := by
  simp [fld, bits, Nat.testBit_mod_two_pow, Nat.testBit_shiftRight, BitVec.getLsbD]

/-- A field replaced is read back. -/
theorem fld_setFld_same (w : Word) (lo n v : Nat) (h : lo + n ≤ 64) : fld (setFld w lo n v) lo n = v % 2 ^ n := by
  refine Nat.eq_of_testBit_eq fun i => ?_
  rw [testBit_fld, Nat.testBit_mod_two_pow]
  by_cases hi : i < n
  · rw [getLsbD_setFld _ _ _ _ _ (by omega), if_pos (by omega), Nat.add_sub_cancel_left]
  · simp [hi]

/-- A field of one bit is that bit. -/
theorem fld_one (w : Word) (i : Nat) : fld w i 1 = (w.getLsbD i).toNat := by
  refine Nat.eq_of_testBit_eq fun j => ?_
  rw [testBit_fld, Nat.testBit_bool_toNat]
  cases j <;> simp

theorem fld_lt (w : Word) (lo n : Nat) : fld w lo n < 2 ^ n := Nat.mod_lt _ (Nat.two_pow_pos n)

theorem State.rb_bit (s : State) (k i : Nat) : s.rb k ⟨i, 1⟩ = (s.reg k).getLsbD i := by
  rw [State.rb, State.rf, fld_one]
  cases (s.reg k).getLsbD i <;> rfl

/-! ## Bytes of a word (R8) -/

theorem length_mread (m : List Host.Cell) (a n : Nat) : (mread m a n).length = n := by
  induction n generalizing a with
  | zero => rfl
  | succ n ih => rw [mread, List.length_cons, ih]

theorem length_toBytes (n v : Nat) : (toBytes n v).length = n := by
  induction n generalizing v with
  | zero => rfl
  | succ n ih => rw [toBytes, List.length_cons, ih]

theorem ofBytes_lt (l : List Byte) : ofBytes l < 256 ^ l.length := by
  induction l with
  | nil => simp [ofBytes]
  | cons b bs ih =>
    have hb := b.isLt
    rw [ofBytes, List.length_cons, Nat.pow_succ]
    omega

/-- The bytes of the number that bytes spell are those bytes. -/
theorem toBytes_ofBytes (l : List Byte) : toBytes l.length (ofBytes l) = l := by
  induction l with
  | nil => rfl
  | cons b bs ih =>
    have hb := b.isLt
    rw [List.length_cons, toBytes, ofBytes, show (b.toNat + 256 * ofBytes bs) / 256 = ofBytes bs by omega, ih]
    congr 1
    apply BitVec.eq_of_toNat_eq
    rw [BitVec.toNat_ofNat]
    omega

/-- The bytes of a memory word are those that memory holds there. -/
theorem State.toBytes_word (s : State) (w : Nat) : toBytes 16 (s.word w).toNat = mread s.mem (16 * w) 16 := by
  have hl : (mread s.mem (16 * w) 16).length = 16 := length_mread _ _ _
  have hlt := ofBytes_lt (mread s.mem (16 * w) 16)
  rw [hl] at hlt
  rw [State.word, BitVec.toNat_ofNat, Nat.mod_eq_of_lt (by simpa using hlt)]
  simpa only [hl] using toBytes_ofBytes (mread s.mem (16 * w) 16)

/-- Bytes read are those that memory holds at each place. -/
theorem mread_congr {m m' : List Host.Cell} (a n : Nat) (h : ∀ k, a ≤ k → k < a + n → mget m k = mget m' k) :
    mread m a n = mread m' a n := by
  induction n generalizing a with
  | zero => rfl
  | succ n ih => rw [mread, mread, h a (by omega) (by omega), ih (a + 1) fun k h1 h2 => h k (by omega) (by omega)]

theorem mread_add (m : List Host.Cell) (a i j : Nat) : mread m a (i + j) = mread m a i ++ mread m (a + i) j := by
  induction i generalizing a with
  | zero => simp [mread]
  | succ i ih => rw [Nat.succ_add, mread, ih, mread, List.cons_append, show a + 1 + i = a + (i + 1) by omega]

/-- Whole words read one after the other. -/
theorem mread_words (m : List Host.Cell) (w n : Nat) :
    mread m (16 * w) (16 * n) = (List.range n).flatMap fun i => mread m (16 * (w + i)) 16 := by
  induction n with
  | zero => rfl
  | succ n ih =>
    rw [Nat.mul_succ, mread_add, ih, List.range_succ, List.flatMap_append, ← Nat.mul_add]
    simp

/-! ## Rows of the register map (R563, R564) -/

def trcCtlRow : RegRow := mkRow "TRC_CTL" 0xB0000 [(0x1000000, 16)] .foremanHost false
  [(0, 1, .rw, 0), (1, 1, .rw, 0), (4, 12, .rw, 0), (16, 13, .rw, 0)]
def mkIdRow : RegRow := mkRow "MK_ID" 0xB0100 [(0x1000000, 16), (0x20, 8)] .foremanHost false [(0, 32, .rw, 0)]
def fmCtlRow : RegRow := mkRow "FM_CTL" 0x0 [(0x1000000, 16)] .host false
  [(0, 1, .wo, 0), (1, 1, .wo, 0), (2, 1, .wo, 0), (3, 1, .rw, 0), (16, 15, .rw, 0)]
def bmemStatRow : RegRow := mkRow "BMEM_STAT" 0x20008 [(0x1000000, 16)] .foreman false
  [(0, 1, .w1c, 0), (1, 1, .w1c, 0), (2, 1, .w1c, 0), (3, 1, .w1c, 0), (4, 1, .w1c, 0)]
def barMaskRow : RegRow := mkRow "BAR_MASK" 0x10600000 [(0x100, 4)] .host false [(0, 16, .rw, 0)]
def bmcPartRow : RegRow := mkRow "BMC_PART" 0x10200400 [(0x40, 4)] .installer false
  [(0, 1, .rw, 0), (1, 1, .w1c, 0), (8, 20, .rw, 0), (32, 20, .rw, 0)]
def errRingRow : RegRow := mkRow "ERR_RING" 0x10A00000 [(0x40, 4)] .ownerHost false [(0, 5, .rw, 6), (12, 52, .rw, 0)]
def progLoad1Row : RegRow := mkRow "PROG_LOAD1" 0x10600018 [(0x100, 4)] .host false
  [(0, 16, .rw, 0), (16, 16, .rw, 0), (32, 1, .wo, 0), (33, 1, .w1c, 0), (34, 1, .w1c, 0)]
def clkBenchRow : RegRow := mkRow "CLK_BENCH" 0x10B00100 [(0x8, 16)] .none false
  [(0, 11, .ro, 1700), (16, 11, .ro, 1700), (27, 1, .ro, 0), (28, 1, .ro, 0)]
def hubCtrRow : RegRow := mkRow "HUB_CTR" 0x10E00000 [(0x8, 512)] .none true [(0, 64, .ro, 0)]

theorem regAt_trcCtl : ∀ b : Bid, regAt regMap (K.TRC_CTL b) = some (trcCtlRow, [b.val]) := by decide +kernel
theorem regAt_mkId : ∀ (b : Bid) (i : Fin 8), regAt regMap (K.MK_ID b i) = some (mkIdRow, [b.val, i.val]) := by decide +kernel
theorem regAt_fmCtl : ∀ b : Bid, regAt regMap (K.FM_CTL b) = some (fmCtlRow, [b.val]) := by decide +kernel
theorem regAt_bmemStat : ∀ b : Bid, regAt regMap (K.BMEM_STAT b) = some (bmemStatRow, [b.val]) := by decide +kernel
theorem regAt_barMask : ∀ p : Part, regAt regMap (K.BAR_MASK p) = some (barMaskRow, [p.val]) := by decide +kernel
theorem regAt_bmcPart : ∀ p : Part, regAt regMap (K.BMC_PART p) = some (bmcPartRow, [p.val]) := by decide +kernel
theorem regAt_errRing : ∀ p : Part, regAt regMap (K.ERR_RING p) = some (errRingRow, [p.val]) := by decide +kernel
theorem regAt_progLoad1 : ∀ p : Part, regAt regMap (K.PROG_LOAD1 p) = some (progLoad1Row, [p.val]) := by decide +kernel
theorem regAt_clkBench : ∀ b : Bid, regAt regMap (K.CLK_BENCH b) = some (clkBenchRow, [b.val]) := by decide +kernel
theorem regAt_powerMax : regAt regMap (K.HUB_CTR 416) = some (hubCtrRow, [416]) := by decide +kernel
theorem regReset_mkCnt : ∀ (b : Bid) (i : Fin 8) (j : Fin 3), regReset (K.MK_CNT b i j) = 0 := by decide +kernel

/-! ## What a register holds after a write -/

theorem State.setReg_same (s : State) (k : Nat) (v : Word) (h : s.Canonical) : (s.setReg k v).reg k = v := by
  rw [State.setReg_reg _ _ _ _ h, if_pos rfl]

/-- A register whose key is reset holds its reset value; every other stands. -/
theorem State.resetRegs_reg (s : State) (lo hi k : Nat) :
    (s.resetRegs lo hi).reg k = if lo ≤ k ∧ k < hi then regReset k else s.reg k := tget_tclear _ _ _ _ _

end Sys2Proof.Machine
end

section
/-!
SUPPORT. What accesses to memory for a tracer change and what they leave: a relation that each operation keeps, and with it the
windows, the ring and the staged entries.
-/

namespace Sys2Proof.Machine

/-! ## Windows -/

/-- The registers that decide who owns what and what is in service: bulk memory (R266, R267), partitions (R436) and the floor
plan (R541). -/
def decidesWindows (k : Nat) : Prop :=
  (0x10200000 ≤ k ∧ k < 0x10201000) ∨ (0x10910000 ≤ k ∧ k < 0x10911000) ∨ (0x10D00000 ≤ k ∧ k < 0x10D01000)

/-- Two states whose windows, rows and units in service are the same. -/
structure State.SameWindows (s t : State) : Prop where
  reg : ∀ k, decidesWindows k → t.reg k = s.reg k
  mgmt : t.mgmt.inForce = s.mgmt.inForce
  mgmtFailed : t.health.mgmtFailed = s.health.mgmtFailed
  benchFailed : t.health.benchFailed = s.health.benchFailed
  bootFailed : t.health.bootFailed = s.health.bootFailed

namespace State.SameWindows

variable {s t : State} (h : s.SameWindows t)
include h

theorem rf {k : Nat} (f : Fld) (hk : decidesWindows k) : t.rf k f = s.rf k f := by rw [State.rf, State.rf, h.reg k hk]
theorem rb {k : Nat} (f : Fld) (hk : decidesWindows k) : t.rb k f = s.rb k f := by rw [State.rb, State.rb, h.rf f hk]

theorem partValid (p : Part) : t.partValid p = s.partValid p := h.rb _ (by simp only [decidesWindows, K.PART_CFG]; omega)

theorem owns (p : Part) (b : Bid) : t.owns p b = s.owns p b := by
  rw [State.owns, State.owns, h.partValid, h.rf _ (by simp only [decidesWindows, K.PART_CFG]; omega)]

theorem partOf (b : Bid) : t.partOf b = s.partOf b := by simp only [State.partOf, h.owns]

theorem rowsInstalled : t.rowsInstalled = s.rowsInstalled := by
  simp only [State.rowsInstalled, State.buildRec, h.mgmt]

theorem rowOwner (r : Nat) : t.rowOwner r = s.rowOwner r := by
  have hle : s.rowsInstalled ≤ 96 := by
    unfold State.rowsInstalled
    split
    · split <;> simp [Config.installedRows]
    · exact Nat.le_refl _
  unfold State.rowOwner
  rw [h.rowsInstalled]
  by_cases hr : r < s.rowsInstalled
  · have hk : decidesWindows (K.BMC_ROW r) := by simp only [decidesWindows, K.BMC_ROW]; omega
    simp only [h.rb _ hk, h.rf _ hk]
  · simp [hr]

theorem inReserve (p : Part) (page : Nat) : t.inReserve p page = s.inReserve p page := by
  have hk : decidesWindows (K.BMC_PART p) := by simp only [decidesWindows, K.BMC_PART]; omega
  simp only [State.inReserve, h.rf _ hk]

theorem inBulk (a : Nat) : t.inBulk a = s.inBulk a := by simp only [State.inBulk, h.rowsInstalled]

theorem heldFailed (b c i : Nat) : t.heldFailed b c i = s.heldFailed b c i := by
  simp only [State.heldFailed, h.mgmtFailed, h.benchFailed, h.bootFailed]

theorem bankOk (b : Bid) (bank : Nat) : t.bankOk b bank = s.bankOk b bank := by
  have h0 : decidesWindows (K.FP_BENCH0 b) := by simp only [decidesWindows, K.FP_BENCH0]; omega
  have h1 : decidesWindows (K.FP_BENCH1 b) := by simp only [decidesWindows, K.FP_BENCH1]; omega
  simp only [State.bankOk, h.rf _ h1, h.rb _ h0, h.heldFailed]

theorem stackOf (p : Part) (a : Nat) : t.stackOf p a = s.stackOf p a := by
  have hk : decidesWindows (K.BMC_PART p) := by simp only [decidesWindows, K.BMC_PART]; omega
  simp only [State.stackOf, h.rb _ hk]

omit h in
/-- There are eight stacks (R248). -/
theorem stackOf_lt (s : State) (p : Part) (a : Nat) : (s.stackOf p a).1 < 8 := by
  simp only [State.stackOf, rowSize]
  split
  · exact Nat.mod_lt _ (by decide)
  · have := Nat.mod_lt (a - bulkBase) (y := 0x200000000) (by decide)
    simp only
    omega

theorem stackOk (k : Nat) (hk : k < 8) : t.stackOk k = s.stackOk k := by
  have h0 : decidesWindows (K.FP_BENCH0 (2 * k)) := by simp only [decidesWindows, K.FP_BENCH0]; omega
  have h1 : decidesWindows (K.BMC_STAT k) := by simp only [decidesWindows, K.BMC_STAT]; omega
  have h2 : decidesWindows K.FP_MODULE := by simp only [decidesWindows, K.FP_MODULE]; omega
  simp only [State.stackOk, h.rf _ h2, h.rb _ h0, h.rb _ h1, h.heldFailed]

theorem mayAccess (p : Part) (a : Nat) : t.mayAccess p a = s.mayAccess p a := by
  simp only [State.mayAccess, State.inWindow, State.served, h.owns, h.inBulk, h.rowOwner, h.inReserve, h.bankOk, h.stackOf,
    h.stackOk _ (stackOf_lt s p a)]

theorem rangeOk (p : Part) (lo len : Nat) : t.rangeOk p lo len = s.rangeOk p lo len := by
  have hk : decidesWindows (K.BMC_PART p) := by simp only [decidesWindows, K.BMC_PART]; omega
  simp only [State.rangeOk, h.owns, h.inBulk, h.rowOwner, h.rf _ hk]

end State.SameWindows

/-! ## What accesses leave -/

/-- The registers in which accesses of a tracer count or note something: a Bench's counters and BMEM_STAT, COW_CTL, MIR_CTL,
and the counters of the Hub. -/
def accessReg (k : Nat) : Prop :=
  (0xC0000 ≤ k % 0x1000000 ∧ k % 0x1000000 < 0xC1000) ∨ k % 0x1000000 = 0x20008 ∨ (0x10201000 ≤ k ∧ k < 0x10202000)
    ∨ (0x10800000 ≤ k ∧ k < 0x10801000) ∨ 0x10E00000 ≤ k

theorem accessReg_benchCtr (b : Bid) {n : Nat} (h : n < 512) : accessReg (K.BENCH_CTR b n) := by
  simp only [accessReg, K.BENCH_CTR]; omega
theorem accessReg_bmemStat (b : Bid) : accessReg (K.BMEM_STAT b) := by simp only [accessReg, K.BMEM_STAT]; omega
theorem accessReg_cowCtl (p : Part) (n : Fin 4) : accessReg (K.COW_CTL p n) := by simp only [accessReg, K.COW_CTL]; omega
theorem accessReg_mirCtl (p : Part) : accessReg (K.MIR_CTL p) := by simp only [accessReg, K.MIR_CTL]; omega
theorem accessReg_hubCtr (n : Nat) : accessReg (K.HUB_CTR n) := by simp only [accessReg, K.HUB_CTR]; omega

/-- `t` is `s` after accesses for a tracer, but for memory: other registers, what the management controller holds, the units in
service, the pages being copied and the staged entries stand. -/
structure Accessed (s t : State) : Prop where
  reg : ∀ k, ¬ accessReg k → t.reg k = s.reg k
  mgmt : t.mgmt = s.mgmt
  mgmtFailed : t.health.mgmtFailed = s.health.mgmtFailed
  benchFailed : t.health.benchFailed = s.health.benchFailed
  bootFailed : t.health.bootFailed = s.health.bootFailed
  copying : t.bulk.copying = s.bulk.copying
  trace : ∀ b, (t.bench b).trace = (s.bench b).trace

/-- An access and what it answers leave the state so. -/
def Perf.Leaves {α : Type} (P : State → Prop) : Perf α → Prop
  | .ok _ t => P t
  | .wait t => P t
  | .refused t => P t

namespace Accessed

variable {r s t : State}

theorem refl (s : State) : Accessed s s := ⟨fun _ _ => rfl, rfl, rfl, rfl, rfl, rfl, fun _ => rfl⟩

theorem trans (h : Accessed r s) (g : Accessed s t) : Accessed r t :=
  ⟨fun k hk => (g.reg k hk).trans (h.reg k hk), g.mgmt.trans h.mgmt, g.mgmtFailed.trans h.mgmtFailed,
    g.benchFailed.trans h.benchFailed, g.bootFailed.trans h.bootFailed, g.copying.trans h.copying,
    fun b => (g.trace b).trans (h.trace b)⟩

theorem sameWindows (h : Accessed s t) : s.SameWindows t :=
  ⟨fun k hk => h.reg k (by simp only [decidesWindows] at hk; simp only [accessReg]; omega), by rw [h.mgmt], h.mgmtFailed,
    h.benchFailed, h.bootFailed⟩

theorem ite {c : Prop} [Decidable c] (h : c → Accessed r s) (g : ¬ c → Accessed r t) :
    Accessed r (if c then s else t) := by
  split
  · exact h ‹_›
  · exact g ‹_›

theorem foldl {α : Type} {f : State → α → State} {l : List α} (h : Accessed r s)
    (hf : ∀ s x, Accessed r s → Accessed r (f s x)) : Accessed r (l.foldl f s) := by
  induction l generalizing s with
  | nil => exact h
  | cons x xs ih => exact ih (hf s x h)

/-! ### Operations of the state -/

theorem setReg (h : Accessed r s) {k : Nat} (v : Word) (hk : accessReg k) : Accessed r (s.setReg k v) :=
  h.trans ⟨fun j hj => State.setReg_other _ _ _ _ fun e => hj (e ▸ hk), by simp, by simp, by simp, by simp, by simp,
    by simp⟩

theorem setRf (h : Accessed r s) {k : Nat} (f : Fld) (v : Nat) (hk : accessReg k) : Accessed r (s.setRf k f v) := h.setReg _ hk

theorem count (h : Accessed r s) {k : Nat} (n : Nat) (hk : accessReg k) : Accessed r (s.count k n) := h.setReg _ hk

theorem countB (h : Accessed r s) (b : Bid) {n : Nat} (m : Nat) (hn : n < 512) : Accessed r (s.countB b n m) :=
  h.count m (accessReg_benchCtr b hn)

theorem countH (h : Accessed r s) (n m : Nat) : Accessed r (s.countH n m) := h.count m (accessReg_hubCtr n)

theorem onBench (h : Accessed r s) (b : Bid) (f : Bench → Bench) (hf : ∀ x, (f x).trace = x.trace) :
    Accessed r (s.onBench b f) :=
  h.trans ⟨fun _ _ => rfl, rfl, rfl, rfl, rfl, rfl, fun c => by rw [State.onBench_bench]; split <;> simp_all⟩

theorem onBulk (h : Accessed r s) (f : Bulk → Bulk) (hf : ∀ x, (f x).copying = x.copying) : Accessed r (s.onBulk f) :=
  h.trans ⟨fun _ _ => rfl, rfl, rfl, rfl, rfl, hf _, fun _ => rfl⟩

/-- What a field outside the relation holds does not matter. -/
theorem lit {mem : List Host.Cell} {marks : Tab WordMark} {errs : ErrAgg} {free : Nat} (h : Accessed r s) :
    Accessed r { s with mem := mem, marks := marks, errs := errs, freeCtr := free } :=
  ⟨h.reg, h.mgmt, h.mgmtFailed, h.benchFailed, h.bootFailed, h.copying, h.trace⟩

theorem noteFault (h : Accessed r s) (i : RecInfo) : Accessed r (s.noteFault i) :=
  ⟨h.reg, h.mgmt, h.mgmtFailed, h.benchFailed, h.bootFailed, h.copying, h.trace⟩

theorem drawWord (h : Accessed r s) : Accessed r s.drawWord.2 := h.lit
theorem drawLine (h : Accessed r s) : Accessed r s.drawLine.2 := h.lit
theorem setMark (h : Accessed r s) (w : Nat) (m : WordMark) : Accessed r (s.setMark w m) := h.lit
theorem putWord (h : Accessed r s) (w : Nat) (d m : Line16) : Accessed r (s.putWord w d m) := h.lit
theorem copyPage (h : Accessed r s) (a b : Nat) : Accessed r (s.copyPage a b) := h.lit

theorem emit (h : Accessed r s) (i : RecInfo) (he : i.event < 256) : Accessed r (s.emit i) := by
  have h1 (e : ErrAgg) : Accessed r { s.drawWord.2 with errs := e } := h.drawWord.lit
  unfold State.emit
  refine ite (fun _ => countB (ite (fun _ => noteFault (h1 _) i) fun _ => h1 _) _ _ (by omega)) fun _ => ?_
  exact ite (fun _ => noteFault (h1 _) i) fun _ => h1 _

theorem errVote (h : Accessed r s) (b : Bid) (v : Vote) : Accessed r (s.errVote b v) := by
  unfold State.errVote
  split
  · exact h
  · exact ite (fun _ => h.onBench _ _ fun _ => rfl) fun _ => h

theorem consumed (h : Accessed r s) (w : Who) (n : Nat) : Accessed r (s.consumed w n) := by
  unfold State.consumed
  dsimp only
  have h1 (v : Vote) : Accessed r (s.emit (w.rec_ 0x06 (16 * n) v)) := h.emit _ (show 0x06 < 256 by decide)
  refine errVote (ite (fun _ => ?_) fun _ => h1 _) _ _
  exact (h1 _).onBench _ _ fun _ => rfl

/-! ### Words of Bench SRAM -/

theorem memStat (h : Accessed r s) {n : Nat} (i : Nat) (hs : inSram (16 * n) = true) : Accessed r (s.memStat n i) := by
  simp only [State.memStat, hs, if_true]
  exact h.setRf _ _ (accessReg_bmemStat _)

theorem memEvent (h : Accessed r s) {n event : Nat} (syn : Word) (he : event < 256) : Accessed r (s.memEvent n event syn) := by
  refine h.emit _ ?_
  unfold State.memRec
  simp only
  split <;> exact he

theorem decodeWord (h : Accessed r s) {n : Nat} (hs : inSram (16 * n) = true) : Accessed r (s.decodeWord n .clean) := by
  unfold State.decodeWord
  simp only [hs, if_true, reduceCtorEq, if_false]
  split
  · exact h
  · exact h
  · refine ite (fun _ => h) fun _ => ?_
    have h1 (m : WordMark) := ((h.setMark n m).countB (benchOf (16 * n)) 1 (n := 119) (by decide)).memStat 0 hs
    exact ite (fun _ => ite (fun _ => (h1 _).noteFault _) fun _ => h1 _) fun _ => (h1 _).drawWord.memEvent _ (by decide)
  · exact ite (fun _ => h) fun _ => ((h.drawWord.setMark _ _).memStat _ hs).memEvent _ (by decide)

end Accessed

end Sys2Proof.Machine
end

section
/-!
SUPPORT. A Bench's tracer by its Bench, and its accesses: units written to and read from its staging unit in Bench SRAM, and a
granule written to its ring in bulk memory.
-/

namespace Sys2Proof.Machine

/-! ## The tracer of a Bench -/

/-- The tracer of a Bench, among the seventeen. -/
def benchTracer (b : Bid) : Fin 17 := ⟨b.val, by omega⟩

@[simp] theorem val_benchTracer (b : Bid) : (benchTracer b).val = b.val := rfl
@[simp] theorem isHub_benchTracer (b : Bid) : isHub (benchTracer b) = false := by
  simp only [isHub, benchTracer, beq_eq_false_iff_ne]; omega
@[simp] theorem trBench_benchTracer (b : Bid) : trBench (benchTracer b) = b := Fin.ext (Nat.mod_eq_of_lt b.isLt)
@[simp] theorem trCtl_benchTracer (b : Bid) : trCtl (benchTracer b) = K.TRC_CTL b := by simp [trCtl]
@[simp] theorem trRing_benchTracer (b : Bid) : trRing (benchTracer b) = K.TRC_RING b := by simp [trRing]
@[simp] theorem trPtr_benchTracer (b : Bid) : trPtr (benchTracer b) = K.TRC_PTR b := by simp [trPtr]
@[simp] theorem trStat_benchTracer (b : Bid) : trStat (benchTracer b) = K.TRC_STAT b := by simp [trStat]
@[simp] theorem trEn_benchTracer (b : Bid) : trEn (benchTracer b) = F.TRC_CTL_EN := by simp [trEn]
@[simp] theorem trWho_benchTracer (b : Bid) (p : Part) : trWho (benchTracer b) p = ⟨b, p, ucForeman, 0, none, false⟩ := by
  simp [trWho]
@[simp] theorem State.trOn_benchTracer (s : State) (b : Bid) : s.trOn (benchTracer b) = s.traceOn b := by
  simp [State.trOn, State.traceOn]
@[simp] theorem State.trPart_benchTracer (s : State) (b : Bid) : s.trPart (benchTracer b) = s.partOf b := by
  simp [State.trPart]
@[simp] theorem State.staged_benchTracer (s : State) (b : Bid) : s.staged (benchTracer b) = (s.bench b).trace := by
  simp [State.staged]
@[simp] theorem State.trPhase_benchTracer (s : State) (b : Bid) : s.trPhase (benchTracer b) = (s.bench b).tracePhase := by
  simp [State.trPhase]
@[simp] theorem State.setStaged_benchTracer (s : State) (b : Bid) (l : List (List Word)) :
    s.setStaged (benchTracer b) l = s.onBench b fun x => { x with trace := l } := by simp [State.setStaged]
@[simp] theorem State.setTrPhase_benchTracer (s : State) (b : Bid) (v : Bool) :
    s.setTrPhase (benchTracer b) v = s.onBench b fun x => { x with tracePhase := v } := by simp [State.setTrPhase]
@[simp] theorem State.setTrLost_benchTracer (s : State) (b : Bid) (n : Nat) :
    s.setTrLost (benchTracer b) n = s.onBench b fun x => { x with traceLost := n } := by simp [State.setTrLost]
@[simp] theorem State.anchorNow_benchTracer (s : State) (b : Bid) :
    s.anchorNow (benchTracer b) = s.traceAdd b (s.anchor b) := by simp [State.anchorNow]

/-! ## Units of the staging unit -/

section
variable {α : Type} {P : State → Prop} {o : Perf α} {x : α} {t : State}
theorem Perf.Leaves.of_ok (h : o.Leaves P) (e : o = .ok x t) : P t := by subst e; exact h
theorem Perf.Leaves.of_wait (h : o.Leaves P) (e : o = .wait t) : P t := by subst e; exact h
theorem Perf.Leaves.of_refused (h : o.Leaves P) (e : o = .refused t) : P t := by subst e; exact h
end

theorem inSram_iff (a : Nat) : inSram a = true ↔ a < 0x200000000 := decide_eq_true_iff
theorem not_inSram_of_bulk {a : Nat} (h : bulkBase ≤ a) : inSram a = false :=
  decide_eq_false (by simp only [bulkBase] at h; simp only [sramEnd]; omega)

theorem State.readUnit_eq (s : State) (b : Bid) (p : Part) (i : Nat) :
    s.readUnit b p i = (s.access (trWho (benchTracer b) p) ⟨s.stageWord b i, 2, none, 2⟩).gotOrFree := rfl

/-- A Bench's staging unit lies in its SRAM (R548, R554). -/
theorem State.stageWord_inSram (s : State) (b : Bid) (i : Nat) : inSram (16 * s.stageWord b i) = true := by
  have h : s.rf (K.TRC_CTL b) F.TRC_CTL_STAGE < 2 ^ 13 := fld_lt _ _ _
  rw [inSram_iff]
  simp only [State.stageWord, sramSize]
  omega

namespace Accessed

variable {r s : State}

/-- A refused access of an SRAM word is recorded by its router (R252, R523). -/
theorem refuse (h : Accessed r s) (w : Who) {a : Nat} (hs : inSram a = true) : Accessed r (s.refuse w a) := by
  have hb : (decide (bulkBase ≤ a) && decide (a < ctrlBase)) = false := by
    rw [inSram_iff] at hs
    rw [Bool.and_eq_false_iff]
    exact .inl (decide_eq_false (by simp only [bulkBase]; omega))
  simp only [State.refuse, State.refuseAt, State.unmapped, hb, Bool.false_eq_true, if_false]
  refine h.emit _ ?_
  simp only [State.refusal, hs, if_true]
  exact (show 0x0F < 256 by decide)

/-- A plain read of an SRAM word that names no instruction. -/
theorem access (h : Accessed r s) {w : Who} (hw : w.op = none) {n cls : Nat} (hs : inSram (16 * n) = true) :
    (s.access w ⟨n, 2, none, cls⟩).Leaves (Accessed r) := by
  have h1 := h.decodeWord hs
  simp only [State.access, hs, hw, if_true]
  split
  · exact consumed (h.refuse w hs) _ _
  · simp only [State.readWord, BitVec.ofNat_eq_ofNat, decide_true, Bool.or_true, if_true]
    split
    · exact (h1.memStat 2 hs).consumed _ _
    · exact h1

/-- A whole word written to SRAM without waiting, by no instruction. -/
theorem store (h : Accessed r s) {w : Who} (hw : w.op = none) {n : Nat} (d : Line16) (p : Bool) {cls : Nat}
    (hs : inSram (16 * n) = true) : (s.store w ⟨n, d, allBits, 2, p, cls⟩).Leaves (Accessed r) := by
  simp only [State.store, hs, hw, if_true, Bool.not_true, Bool.false_and, Bool.false_eq_true, if_false]
  split
  · exact h.refuse w hs
  · simp only [State.writeWord, hs, decide_true, if_true]
    rw [if_neg (by simp)]
    exact (h.putWord _ _ _).setMark _ _

/-- Entries written in the staging unit. -/
theorem stageTrace (s : State) (b : Bid) : Accessed s (s.stageTrace b) := by
  unfold State.stageTrace
  split
  · exact refl s
  · next p _ =>
    refine onBench (foldl (refl s) fun t i ht => ?_) _ _ fun _ => rfl
    have h1 (n : Nat) (d : Line16) :=
      ht.store (w := trWho (benchTracer b) p) (cls := 2) (by simp) d false (t.stageWord_inSram b n)
    split
    · next e => exact (h1 _ _).of_ok e
    · next e => exact (h1 _ _).of_wait e
    · next e => exact (h1 _ _).of_refused e

/-- A unit read back from the staging unit. -/
theorem readUnit (h : Accessed r s) (b : Bid) (p : Part) (i : Nat) : Accessed r (s.readUnit b p i).2 := by
  have h1 := h.access (w := trWho (benchTracer b) p) (cls := 2) (by simp) (s.stageWord_inSram b i)
  rw [State.readUnit_eq]
  cases e : s.access (trWho (benchTracer b) p) ⟨s.stageWord b i, 2, none, 2⟩ with
  | ok g t => exact h1.of_ok e
  | wait t => exact (h1.of_wait e).drawLine
  | refused t => exact (h1.of_refused e).drawLine

/-- A fold whose accumulator carries the state second. -/
theorem foldlSnd {α β : Type} {f : β × State → α → β × State} {l : List α} {a : β × State} (h : Accessed r a.2)
    (hf : ∀ a x, Accessed r a.2 → Accessed r (f a x).2) : Accessed r (l.foldl f a).2 := by
  induction l generalizing a with
  | nil => exact h
  | cons x xs ih => exact ih (hf a x h)

/-- A pair that carries on the state of another. -/
theorem pair {α β : Type} {p : α × State} {f : α → β} (h : Accessed r p.2) : Accessed r (f p.1, p.2).2 := h

/-- A granule read back. -/
theorem readStage (s : State) (b : Bid) (p : Part) : Accessed s (s.readStage b p).2 := by
  unfold State.readStage
  exact foldlSnd (refl s) fun a i h => pair (f := fun g => a.1 ++ [g]) (h.readUnit b p i)

end Accessed

/-- A granule is 32 units (R548). -/
theorem State.length_readStage (s : State) (b : Bid) (p : Part) : (s.readStage b p).1.length = 32 := by
  suffices ∀ (l : List Nat) (acc : List Got × State), (l.foldl (fun (acc : List Got × State) i =>
      (acc.1 ++ [(acc.2.readUnit b p i).1], (acc.2.readUnit b p i).2)) acc).1.length = acc.1.length + l.length by
    rw [State.readStage, this, List.length_range, List.length_nil]
  intro l
  induction l with
  | nil => simp
  | cons i l ih => intro acc; rw [List.foldl_cons, ih]; simp; omega

/-! ## What a sound staging unit gives -/

/-- The unit i that a Bench has staged can be read, and is neither poisoned nor in error. -/
def State.UnitReads (s : State) (b : Bid) (p : Part) (i : Nat) : Prop :=
  s.mayAccess p (16 * s.stageWord b i) = true ∧ (s.mark (s.stageWord b i)).poison = false
    ∧ (s.mark (s.stageWord b i)).upset = .clean

/-- A clean word's decoding changes nothing. -/
theorem State.decodeWord_clean (s : State) (n : Nat) (h : (s.mark n).upset = .clean) : s.decodeWord n .clean = s := by
  simp [State.decodeWord, h, upsetJoin]

theorem State.readWord_clean (s : State) (n : Nat) (h : (s.mark n).upset = .clean) :
    s.readWord n 2 = .ok ⟨s.word n, (s.mark n).poison⟩ s := by
  rw [State.readWord, s.decodeWord_clean n h]
  exact if_pos (by simp)

/-- A plain read of a sound SRAM word, by no instruction, gives the word and changes nothing. -/
theorem State.access_clean (s : State) (w : Who) (hw : w.op = none) (n cls : Nat) (ha : s.mayAccess w.part (16 * n) = true)
    (hs : inSram (16 * n) = true) (hp : (s.mark n).poison = false) (hu : (s.mark n).upset = .clean) :
    s.access w ⟨n, 2, none, cls⟩ = .ok ⟨s.word n, false⟩ s := by
  simp only [State.access, ha, s.readWord_clean n hu, hp, hw, hs, Bool.not_true, Bool.false_eq_true, if_false, if_true]

theorem State.readUnit_sound (s : State) (b : Bid) (p : Part) (i : Nat) (h : s.UnitReads b p i) :
    s.readUnit b p i = (⟨s.word (s.stageWord b i), false⟩, s) := by
  obtain ⟨ha, hp, hu⟩ := h
  rw [State.readUnit_eq, s.access_clean _ (by simp) _ _ (by simpa using ha) (s.stageWord_inSram b i) hp hu, Perf.gotOrFree]

/-- A granule of sound units is read back as it lies there, and nothing changes. -/
theorem State.readStage_sound (s : State) (b : Bid) (p : Part) (h : ∀ i < 32, s.UnitReads b p i) :
    s.readStage b p = ((List.range 32).map fun i => ⟨s.word (s.stageWord b i), false⟩, s) := by
  suffices ∀ (l : List Nat) (g : List Got), (∀ i ∈ l, i < 32) → l.foldl (fun (acc : List Got × State) i =>
      (acc.1 ++ [(acc.2.readUnit b p i).1], (acc.2.readUnit b p i).2)) (g, s)
        = (g ++ l.map fun i => ⟨s.word (s.stageWord b i), false⟩, s) by
    rw [State.readStage, this _ [] fun i hi => List.mem_range.mp hi, List.nil_append]
  intro l
  induction l with
  | nil => simp
  | cons i l ih =>
    intro g hl
    rw [List.foldl_cons, s.readUnit_sound b p i (h i (hl i List.mem_cons_self)),
      ih _ fun j hj => hl j (List.mem_cons_of_mem _ hj)]
    simp

/-- Where every unit staged lies in the staging unit already, nothing is written there. -/
theorem State.stageTrace_settled (s : State) (b : Bid) (h : (s.bench b).traceIn = traceUnits (s.bench b).trace) :
    ∃ f : Bench → Bench, s.stageTrace b = s.onBench b f ∧ (f (s.bench b)).traceAt = (s.bench b).traceAt := by
  unfold State.stageTrace
  split
  · exact ⟨id, by simp [State.onBench, State.setBench, State.bench], rfl⟩
  · exact ⟨fun x => { x with traceIn := traceUnits (s.bench b).trace }, by simp [h], rfl⟩

end Sys2Proof.Machine
end

section
/-!
SUPPORT. A tracer's writes to its ring in bulk memory: each whole word written is read back, and no other word that the
partition reaches changes, though a protected page is copied first (R252, R261).
-/

namespace Sys2Proof.Machine

/-! ## Memory that an operation leaves -/

theorem foldl_mem {α : Type} {f : State → α → State} (hf : ∀ s x, (f s x).mem = s.mem) (l : List α) (s : State) :
    (l.foldl f s).mem = s.mem := by
  induction l generalizing s with
  | nil => rfl
  | cons x xs ih => rw [List.foldl_cons, ih, hf]

@[simp] theorem State.countH_mem (s : State) (n k : Nat) : (s.countH n k).mem = s.mem := by rw [State.countH, State.count_mem]

@[simp] theorem State.emit_mem (s : State) (i : RecInfo) : (s.emit i).mem = s.mem := by
  unfold State.emit
  dsimp only
  split <;> split <;> simp [State.drawWord, State.noteFault]

@[simp] theorem State.mirEnd_mem (s : State) (p : Part) (ok : Bool) : (s.mirEnd p ok).mem = s.mem := by
  simp [State.mirEnd, State.setTx, State.onBulk]

@[simp] theorem State.breakSet_mem (s : State) (p : Part) (n : Fin 4) : (s.breakSet p n).mem = s.mem := by
  unfold State.breakSet
  split
  · rfl
  · dsimp only
    rw [State.emit_mem]
    split
    · split <;> simp
    · simp

@[simp] theorem State.slotsUsed_mem (s : State) (k : Fin 8) (cls cost bytes : Nat) :
    (s.slotsUsed k cls cost bytes).mem = s.mem := by simp [State.slotsUsed, State.onStk, State.onBulk]

@[simp] theorem State.charge_mem (s : State) (p : Part) (read : Bool) (l : List (Nat × Nat × Nat)) :
    (s.charge p read l).mem = s.mem := foldl_mem (fun s _ => s.slotsUsed_mem _ _ _ _) _ _

/-- A page copied changes the bytes of its destination alone. -/
theorem State.copyPage_mget (s : State) (src dst k : Nat) (hm : Memory.wf s.mem)
    (hk : k < bulkBase + dst * pageSize ∨ bulkBase + dst * pageSize + pageSize ≤ k) :
    mget (s.copyPage src dst).mem k = mget s.mem k := by
  have hout := tget_foldl_outside (0 : Byte) (fun a => bulkBase + dst * pageSize + (a - (bulkBase + src * pageSize)))
    (s.mem.filter fun e => decide (bulkBase + src * pageSize ≤ e.1) && decide (e.1 < bulkBase + src * pageSize + pageSize))
    (tclear s.mem (bulkBase + dst * pageSize) (bulkBase + dst * pageSize + pageSize)) k (twf_tclear _ _ hm) ?_
  · refine hout.trans ?_
    rw [tget_tclear, if_neg (by omega), mget]
  · intro e he
    have h2 := (List.mem_filter.mp he).2
    simp only [Bool.and_eq_true, decide_eq_true_eq] at h2
    omega

/-- What the first write to a protected page changes in memory lies in a page of the reserve pool (R259, R261). -/
theorem State.protect_mget (s : State) (p : Part) (cls page k : Nat) (hm : Memory.wf s.mem)
    (hk : ∀ r, s.inReserve p r = true → k < bulkBase + r * pageSize ∨ bulkBase + r * pageSize + pageSize ≤ k) :
    mget (s.protect p cls page).mem k = mget s.mem k := by
  unfold State.protect
  dsimp only
  split
  · rfl
  · split
    · rw [foldl_mem fun s n => s.breakSet_mem p n]
    · next r hr =>
      have hin : s.inReserve p r = true := by
        obtain ⟨i, hi, rfl⟩ := List.mem_map.mp (List.mem_of_find?_eq_some hr)
        simp only [State.inReserve, Bool.and_eq_true, decide_eq_true_eq]
        rw [List.mem_range] at hi
        omega
      rw [foldl_mem fun s n => by simp [State.onCow, State.onBulk]]
      rw [apply_ite State.mem, foldl_mem fun s k => by simp]
      simp only [State.slotsUsed_mem, State.countH_mem, ite_self]
      exact s.copyPage_mget _ _ _ hm (hk r hin)

namespace Accessed

variable {r s : State}

theorem slotsUsed (h : Accessed r s) (k : Fin 8) (cls cost bytes : Nat) : Accessed r (s.slotsUsed k cls cost bytes) := by
  unfold State.slotsUsed State.onStk
  exact ((h.countH _ _).countH _ _).onBulk _ fun _ => rfl

theorem charge (h : Accessed r s) (p : Part) (read : Bool) (l : List (Nat × Nat × Nat)) : Accessed r (s.charge p read l) :=
  foldl h fun _ _ ht => ht.slotsUsed _ _ _ _

theorem setRb (h : Accessed r s) {k : Nat} (f : Fld) (v : Bool) (hk : accessReg k) : Accessed r (s.setRb k f v) := h.setReg _ hk

theorem setTx (h : Accessed r s) (p : Part) (x : Option MirrorTx) : Accessed r (s.setTx p x) := h.onBulk _ fun _ => rfl

theorem onCow (h : Accessed r s) (p : Part) (n : Fin 4) (f : CowSet → CowSet) : Accessed r (s.onCow p n f) :=
  h.onBulk _ fun _ => rfl

theorem mirEnd (h : Accessed r s) (p : Part) (ok : Bool) : Accessed r (s.mirEnd p ok) :=
  ((h.setTx p none).setRb _ _ (accessReg_mirCtl p)).setRb _ _ (accessReg_mirCtl p)

theorem breakSet (h : Accessed r s) (p : Part) (n : Fin 4) : Accessed r (s.breakSet p n) := by
  have h1 := h.setRb F.COW_CTL_BROKEN true (accessReg_cowCtl p n)
  unfold State.breakSet
  refine ite (fun _ => h) fun _ => emit ?_ _ (show 0x10 < 256 by decide)
  split
  · exact ite (fun _ => h1.mirEnd p false) fun _ => h1
  · exact h1

theorem protect (h : Accessed r s) (p : Part) (cls page : Nat) : Accessed r (s.protect p cls page) := by
  unfold State.protect
  refine ite (fun _ => h) fun _ => ?_
  split
  · exact foldl h fun _ n ht => ht.breakSet p n
  · refine foldl (ite (fun _ => foldl (h.copyPage _ _) ?_) fun _ => ?_) ?_
    · exact fun _ _ ht => slotsUsed ((ht.countH _ _).countH _ _) _ _ _ _
    · exact slotsUsed (((h.copyPage _ _).countH _ _).countH _ _) _ _ _ _
    · exact fun _ n ht => (ht.onCow p n _).setRf _ _ (accessReg_cowCtl p n)

end Accessed

/-! ## Whole words written to bulk memory -/

/-- A word of bulk memory that partition p reaches. -/
def State.BulkWord (s : State) (p : Part) (n : Nat) : Prop := bulkBase ≤ 16 * n ∧ s.mayAccess p (16 * n) = true

/-- No byte of a word that the partition reaches lies in its reserve pool (R265). -/
theorem State.BulkWord.off_reserve {s : State} {p : Part} {n : Nat} (h : s.BulkWord p n) {r : Nat}
    (hr : s.inReserve p r = true) {k : Nat} (h1 : 16 * n ≤ k) (h2 : k < 16 * n + 16) :
    k < bulkBase + r * pageSize ∨ bulkBase + r * pageSize + pageSize ≤ k := by
  obtain ⟨hb, ha⟩ := h
  have hres : s.inReserve p (pageOf (16 * n)) = false := by
    simp only [State.mayAccess, State.inWindow, not_inSram_of_bulk hb, Bool.false_eq_true, if_false, Bool.and_eq_true,
      Bool.not_eq_true'] at ha
    exact ha.1.2
  have hne : pageOf (16 * n) ≠ r := fun e => by rw [e, hr] at hres; cases hres
  simp only [pageOf, pageSize, bulkBase] at hne hb ⊢
  omega

/-- A write request of a whole word at a tracer's priority (R548). -/
def granuleWrite (u : Nat × Got) : WrReq := ⟨u.1, u.2.data, allBits, 2, u.2.poison, 2⟩

/-- What memory holds after the words of `us` were written for partition p: those words, and every other word that p reaches
as it was. -/
structure WroteWords (p : Part) (us : List (Nat × Got)) (s t : State) : Prop where
  inv : t.Inv
  after : Accessed s t
  written : ∀ u ∈ us, mread t.mem (16 * u.1) 16 = toBytes 16 u.2.data.toNat
  other : ∀ n, s.BulkWord p n → (∀ u ∈ us, u.1 ≠ n) → mread t.mem (16 * n) 16 = mread s.mem (16 * n) 16

/-- A whole word's write puts its bytes there. -/
theorem State.putWord_whole (s : State) (n : Nat) (d : Line16) :
    (s.putWord n d allBits).mem = mwrite s.mem (16 * n) (toBytes 16 d.toNat) := by
  have hd : ((s.word n &&& ~~~ allBits) ||| (d &&& allBits)) = d := by
    rw [allBits, BitVec.and_allOnes, BitVec.not_allOnes, BitVec.and_zero, BitVec.zero_or]
  rw [State.putWord, hd]

/-- A store of one whole word to a ring that no copy holds up. -/
theorem State.store_bulk (s : State) (w : Who) (u : Nat × Got) (hi : s.Inv) (hu : s.BulkWord w.part u.1)
    (hc : s.bulk.copying = []) : ∃ t, s.store w (granuleWrite u) = .ok () t ∧ WroteWords w.part [u] s t := by
  have hs := not_inSram_of_bulk hu.1
  let q := s.protect w.part 2 (pageOf (16 * u.1))
  have hq : Accessed s q := (Accessed.refl s).protect _ _ _
  have hqi : q.Inv := (State.protect_keeps (Keeps.refl s)).inv hi
  let m : WordMark := { q.mark u.1 with poison := u.2.poison, upset := .clean, rewritten := false }
  let t := (q.putWord u.1 u.2.data allBits).setMark u.1 m
  have hst : s.store w (granuleWrite u) = .ok () t := by
    simp [State.store, granuleWrite, hu.2, hs, hc, State.writeWord, t, m, q]
  have hmem : t.mem = mwrite q.mem (16 * u.1) (toBytes 16 u.2.data.toNat) := by
    rw [State.setMark_mem, State.putWord_whole]
  have hti : t.Inv := by
    have h2 := State.store_keeps (w := w) (r := granuleWrite u) (Keeps.refl s)
    exact (PerfKeeps.getOk hst h2).inv hi
  refine ⟨t, hst, hti, (hq.putWord _ _ _).setMark _ _, fun u' h' => ?_, fun n hn hne => ?_⟩
  · rw [List.mem_singleton] at h'
    subst h'
    have h3 := mread_mwrite q.mem (16 * u'.1) (toBytes 16 u'.2.data.toNat) hqi.1.1
    rwa [length_toBytes, ← hmem] at h3
  · have hne := hne u List.mem_cons_self
    refine mread_congr _ _ fun k h1 h2 => ?_
    rw [hmem, mget_mwrite_outside _ _ _ _ hqi.1.1 (by rw [length_toBytes]; omega),
      s.protect_mget _ _ _ _ hi.1.1 fun r hr => hn.off_reserve hr h1 h2]

/-- Stores of whole words at different places, one after the other. -/
theorem State.writeSeq_bulk (w : Who) (us : List (Nat × Got)) (s : State) (hi : s.Inv)
    (hu : ∀ u ∈ us, s.BulkWord w.part u.1) (hd : us.Pairwise fun u v => u.1 ≠ v.1) (hc : s.bulk.copying = []) :
    ∃ t, State.writeSeq w (us.map granuleWrite) s = (.ok () t, []) ∧ WroteWords w.part us s t := by
  induction us generalizing s with
  | nil => exact ⟨s, rfl, hi, Accessed.refl s, by simp, fun _ _ _ => rfl⟩
  | cons u us ih =>
    obtain ⟨hd1, hd2⟩ := List.pairwise_cons.mp hd
    obtain ⟨t, ht, hti, hta, htw, hto⟩ := s.store_bulk w u hi (hu u List.mem_cons_self) hc
    have hreach {n : Nat} (h : s.BulkWord w.part n) : t.BulkWord w.part n := ⟨h.1, by rw [hta.sameWindows.mayAccess, h.2]⟩
    obtain ⟨r, hr, hri, hra, hrw, hro⟩ := ih t hti (fun v hv => hreach (hu v (List.mem_cons_of_mem _ hv))) hd2
      (by rw [hta.copying, hc])
    refine ⟨r, by rw [List.map_cons, State.writeSeq, ht]; exact hr, hri, hta.trans hra, fun v hv => ?_, fun n hn hne => ?_⟩
    · rcases List.mem_cons.mp hv with rfl | hv
      · rw [hro _ (hreach (hu _ List.mem_cons_self)) fun x hx => (hd1 x hx).symm, htw _ List.mem_cons_self]
      · exact hrw v hv
    · rw [hro n (hreach hn) fun x hx => hne x (List.mem_cons_of_mem _ hx),
        hto n hn fun x hx => hne x (by rw [List.mem_singleton.mp hx]; exact List.mem_cons_self)]

/-- The same, with the slots charged (R254). -/
theorem State.writeAll_bulk (w : Who) (us : List (Nat × Got)) (s : State) (hi : s.Inv)
    (hu : ∀ u ∈ us, s.BulkWord w.part u.1) (hd : us.Pairwise fun u v => u.1 ≠ v.1) (hc : s.bulk.copying = []) :
    ∃ t, State.writeAll w (us.map granuleWrite) s = (.ok () t, []) ∧ WroteWords w.part us s t := by
  obtain ⟨t, ht, hti, hta, htw, hto⟩ := s.writeSeq_bulk w us hi hu hd hc
  refine ⟨t.charge w.part false _, by rw [State.writeAll, ht]; rfl,
    (State.charge_keeps (Keeps.refl t)).inv hti, hta.charge _ _ _, ?_, ?_⟩
  · simpa only [State.charge_mem] using htw
  · simpa only [State.charge_mem] using hto

end Sys2Proof.Machine
end

section
/-!
SUPPORT. What the commands of a Bench's tracer do: start, sample, flush, a granule to the ring, the anchor of a clock, and the
ID of a marker slot (R470, R546, R548-R550, R554, R555).
-/

namespace Sys2Proof.Machine

/-! ## Entries staged -/

theorem State.traceOn_eq (s : State) (b : Bid) : s.traceOn b = (s.reg (K.TRC_CTL b)).getLsbD 0 := s.rb_bit _ 0

/-- An entry takes its PHASE in its first word; the others stand (R549). -/
theorem State.stamped_one (s : State) (b : Bid) (e : List Word) (he : e ≠ []) : ∃ w, s.stamped b [e] = [w :: e.tail] := by
  cases e with
  | nil => exact absurd rfl he
  | cons w ws => exact ⟨_, rfl⟩

theorem State.length_anchor (s : State) (b : Bid) : (s.anchor b).length = 6 := by simp [State.anchor, traceHead]

theorem State.onBench_onBench (s : State) (b : Bid) (f g : Bench → Bench) :
    (s.onBench b f).onBench b g = s.onBench b fun x => g (f x) := by
  simp [State.onBench, State.setBench, State.bench]

/-- An entry for which there is room joins those staged, where no entry was dropped before it (R548). -/
theorem State.traceAdd_room (s : State) (b : Bid) (e : List Word) (hon : s.traceOn b = true) (hl : (s.bench b).traceLost = 0)
    (hr : traceUnits (s.bench b).trace + e.length / 2 ≤ 4096) :
    s.traceAdd b e = (s.onBench b fun x => { x with trace := x.trace ++ s.stamped b [e], traceLost := 0 }).countB b 140
      (s.stamped b [e]).length := by
  have hu : traceUnits [e] = e.length / 2 := Nat.zero_add _
  simp only [State.traceAdd, hon, hl, Bool.not_true, Bool.false_eq_true, if_false, if_true, List.nil_append]
  rw [if_neg (by omega)]

/-! ## A tracer starts (R554) -/

/-- A write of TRC_CTL sets EN as it says (R10). -/
theorem applyWrite_trcCtl_en (old v : Word) : (applyWrite trcCtlRow.fields true old v).getLsbD 0 = v.getLsbD 0 := by
  have h : applyWrite trcCtlRow.fields true old v
      = setFld (setFld (setFld (setFld old 0 1 (fld v 0 1)) 1 1 (fld v 1 1)) 4 12 (fld v 4 12)) 16 13 (fld v 16 13) := rfl
  rw [h, getLsbD_setFld _ _ _ _ _ (by decide), getLsbD_setFld _ _ _ _ _ (by decide), getLsbD_setFld _ _ _ _ _ (by decide),
    getLsbD_setFld _ _ _ _ _ (by decide), if_neg (by decide), if_neg (by decide), if_neg (by decide), if_pos (by decide),
    testBit_fld]
  rfl

theorem State.SameWindows.trRingOk {s t : State} (h : s.SameWindows t) (b : Bid)
    (hr : t.reg (K.TRC_RING b) = s.reg (K.TRC_RING b)) :
    t.trRingOk (benchTracer b) = s.trRingOk (benchTracer b) := by
  simp only [State.trRingOk, State.trBase, State.trSize, State.rf, trPart_benchTracer, trRing_benchTracer, hr, h.partOf,
    h.rangeOk]

/-- A write of EN over a stopped tracer: it starts over a ring in the window, and is refused over another (R554). -/
theorem State.writeTrcCtl_start (s : State) (b : Bid) (v : Word) (hoff : s.traceOn b = false) (hv : v.getLsbD 0 = true) :
    s.writeTrcCtl (benchTracer b) v = if s.trRingOk (benchTracer b) then
      (s.setReg (K.TRC_CTL b) (applyWrite trcCtlRow.fields true (s.reg (K.TRC_CTL b)) v)).trStart (benchTracer b)
      else s.trRefused (benchTracer b) := by
  have hw : s.SameWindows (s.setReg (K.TRC_CTL b) (applyWrite trcCtlRow.fields true (s.reg (K.TRC_CTL b)) v)) := by
    refine ⟨fun k hk => s.setReg_other _ _ _ ?_, by simp, by simp, by simp, by simp⟩
    simp only [decidesWindows] at hk
    simp only [K.TRC_CTL]
    omega
  have hr := hw.trRingOk b (s.setReg_other _ _ _ (by simp only [K.TRC_CTL, K.TRC_RING]; omega))
  simp only [State.writeTrcCtl, trCtl_benchTracer, trOn_benchTracer, hoff, regAt_trcCtl, trEn_benchTracer, bit, F.TRC_CTL_EN,
    applyWrite_trcCtl_en, hv, hr, Bool.false_eq_true, if_false, if_true]

/-- A tracer that has started: TAIL and HEAD 0, PHASE 1, an ANCHOR staged (R549, R554). -/
theorem State.trStart_bench (s : State) (b : Bid) (hi : s.Inv) (hon : s.traceOn b = true) :
    let t := s.trStart (benchTracer b)
    t.traceOn b = true ∧ t.reg (K.TRC_PTR b) = 0 ∧ (t.bench b).tracePhase = true ∧ (t.bench b).trace.length = 1 := by
  intro t
  let u := (s.setReg (K.TRC_PTR b) 0).onBench b fun x =>
    { x with tracePhase := true, trace := [], traceLost := 0, traceAt := 0, traceIn := 0 }
  have hx : (u.bench b).trace = [] ∧ (u.bench b).traceLost = 0 ∧ (u.bench b).tracePhase = true := by simp [u]
  obtain ⟨htr, hl, hph⟩ := hx
  have hctl : u.reg (K.TRC_CTL b) = s.reg (K.TRC_CTL b) := by
    rw [State.onBench_reg, s.setReg_other _ _ _ (by simp only [K.TRC_PTR, K.TRC_CTL]; omega)]
  have huon : u.traceOn b = true := by rw [State.traceOn_eq, hctl, ← State.traceOn_eq, hon]
  have hlen := u.length_anchor b
  obtain ⟨w, hw⟩ := u.stamped_one b (u.anchor b) (List.ne_nil_of_length_pos (by omega))
  have ht : t =
      (u.onBench b fun x => { x with trace := x.trace ++ u.stamped b [u.anchor b], traceLost := 0 }).countB b 140 1 := by
    have h1 : t = u.traceAdd b (u.anchor b) := by
      simp [t, u, State.trStart, State.onBench_onBench]
    rw [h1, u.traceAdd_room b _ huon hl (by rw [htr, hlen]; decide), hw, List.length_singleton]
  have hreg (k : Nat) (hk : K.BENCH_CTR b 140 ≠ k) : t.reg k = u.reg k := by
    rw [ht, State.countB, State.count, State.setReg_other _ _ _ _ hk, State.onBench_reg]
  have hbench : t.bench b = { u.bench b with trace := (u.bench b).trace ++ u.stamped b [u.anchor b], traceLost := 0 } := by
    rw [ht, State.countB, State.count, State.setReg_bench, State.onBench_bench_same]
  refine ⟨?_, ?_, by rw [hbench]; exact hph, by rw [hbench, htr, hw]; rfl⟩
  · rw [State.traceOn_eq, hreg _ (by simp only [K.BENCH_CTR, K.TRC_CTL]; omega), ← State.traceOn_eq, huon]
  · rw [hreg _ (by simp only [K.BENCH_CTR, K.TRC_PTR]; omega), State.onBench_reg, s.setReg_same _ _ hi.1]

/-- TRACE_EN_WRITE of a stopped tracer with EN (R554). -/
theorem traceEnWrite_bench (s : State) (b : Bid) (v : Word) (hi : s.Inv) (hoff : s.trOn (benchTracer b) = false)
    (hv : v.getLsbD 0 = true) :
    ∃ t, exec (.traceEnWrite (benchTracer b) v) s = .next t
      ∧ (s.trRingOk (benchTracer b) = true → t.trOn (benchTracer b) = true ∧ t.reg (K.TRC_PTR b) = 0
        ∧ t.trPhase (benchTracer b) = true ∧ (t.staged (benchTracer b)).length = 1)
      ∧ (s.trRingOk (benchTracer b) = false →
        t.reg (K.TRC_CTL b) = s.reg (K.TRC_CTL b) ∧ t.rb (K.TRC_STAT b) F.TRC_STAT_REFUSED = true) := by
  rw [State.trOn_benchTracer] at hoff
  refine ⟨s.writeTrcCtl (benchTracer b) v, rfl, fun hok => ?_, fun hno => ?_⟩
  · rw [s.writeTrcCtl_start b v hoff hv, if_pos hok]
    simp only [State.trOn_benchTracer, State.trPhase_benchTracer, State.staged_benchTracer]
    refine State.trStart_bench _ b ((State.setReg_keeps (Keeps.refl s)).inv hi) ?_
    rw [State.traceOn_eq, s.setReg_same _ _ hi.1, applyWrite_trcCtl_en, hv]
  · rw [s.writeTrcCtl_start b v hoff hv, if_neg (by simp [hno]), State.trRefused, trStat_benchTracer, State.setRf]
    refine ⟨s.setReg_other _ _ _ (by simp only [K.TRC_STAT, K.TRC_CTL]; omega), ?_⟩
    rw [show F.TRC_STAT_REFUSED = ⟨1, 1⟩ from rfl, State.rb_bit, s.setReg_same _ _ hi.1,
      getLsbD_setFld _ _ _ _ _ (by decide)]
    rfl

/-! ## Samples and padding (R548, R549) -/

/-- A SAMPLE's four words are the counters that TRC_SEL names (R549). -/
theorem traceSampleTimer_bench (s : State) (b : Bid) (hon : s.trOn (benchTracer b) = true)
    (hp : s.rf (K.TRC_CTL b) F.TRC_CTL_SAMPLE_PERIOD ≠ 0) (hl : (s.bench b).traceLost = 0)
    (hr : traceUnits (s.staged (benchTracer b)) + 3 ≤ 4096) :
    ∃ t e, exec (.traceSampleTimer b) s = .next t ∧ t.staged (benchTracer b) = s.staged (benchTracer b) ++ [e]
      ∧ traceUnits [e] = 3 ∧ t.mem = s.mem
      ∧ ∀ i : Fin 4, e[2 + i.val]? = some (s.sampled b (fld (s.reg (K.TRC_SEL b)) (16 * i.val) 16)) := by
  rw [State.trOn_benchTracer] at hon
  rw [State.staged_benchTracer] at hr
  let head := traceHead 3 2 false b (s.fm b).pc.toNat 0 (s.markOf b).toNat (s.bench b).cycles.toNat
  let words := (List.range 4).map fun i => s.sampled b (fld (s.reg (K.TRC_SEL b)) (16 * i) 16)
  have hx : exec (.traceSampleTimer b) s = .next (s.traceAdd b (head ++ words)) := by
    change execTraceSampleTimer b s = _
    rw [execTraceSampleTimer, hon, if_neg (by simp [hp])]
  have hlen : (head ++ words).length = 6 := by simp [head, words, traceHead]
  obtain ⟨w, hw⟩ := s.stamped_one b (head ++ words) (List.ne_nil_of_length_pos (by omega))
  rw [s.traceAdd_room b _ hon hl (by rw [hlen]; exact hr), hw] at hx
  refine ⟨_, w :: (head ++ words).tail, hx, ?_, ?_, by simp, fun i => ?_⟩
  · rw [State.staged_benchTracer, State.staged_benchTracer, State.countB, State.count, State.setReg_bench,
      State.onBench_bench_same]
  · simp [traceUnits, hlen]
  · match i with
    | 0 => rfl
    | 1 => rfl
    | 2 => rfl
    | 3 => rfl

/-- Entries keep their number when they take their PHASE bits. -/
theorem length_stampAll_replicate (ph : Bool) (size pos n : Nat) (w : Word) (ws : List Word) :
    (stampAll ph size pos (List.replicate n (w :: ws))).length = n := by
  induction n generalizing pos with
  | zero => rfl
  | succ n ih => rw [List.replicate_succ, stampAll, List.length_cons, ih]

/-- A partial granule is filled with PADs of one unit each (R548). -/
theorem State.padStaged_partial (s : State) (q : Fin 17) (h : traceUnits (s.staged q) % 32 ≠ 0) :
    ∃ l, l.length = 32 - traceUnits (s.staged q) % 32 ∧ s.padStaged q = s.setStaged q (s.staged q ++ l) :=
  ⟨stampAll (s.trPhase q) (s.trSize q) (s.trTail q + traceUnits (s.staged q))
    (List.replicate (32 - traceUnits (s.staged q) % 32) (traceHead 15 0 false (if isHub q then 32 else q.val) 0 0 0
      (if isHub q then s.mgmt.qcycles.toNat else (s.bench (trBench q)).cycles.toNat))),
    length_stampAll_replicate _ _ _ _ _ _, if_neg h⟩

/-- TRACE_FLUSH_TIMER fills the last granule with PADs (R548). -/
theorem traceFlushTimer_bench (s : State) (b : Bid) (hon : s.trOn (benchTracer b) = true) :
    ∃ t l, exec (.traceFlushTimer (benchTracer b)) s = .next t
      ∧ t.staged (benchTracer b) = s.staged (benchTracer b) ++ l
      ∧ (traceUnits (s.staged (benchTracer b)) % 32 = 0 → l = [])
      ∧ (traceUnits (s.staged (benchTracer b)) + l.length) % 32 = 0 ∧ t.regs = s.regs := by
  have hx : exec (.traceFlushTimer (benchTracer b)) s = .next (s.padStaged (benchTracer b)) := by
    change execTraceFlushTimer _ s = _
    rw [execTraceFlushTimer, hon, if_pos rfl]
  by_cases h : traceUnits (s.staged (benchTracer b)) % 32 = 0
  · rw [State.padStaged, granule, if_pos h] at hx
    exact ⟨s, [], hx, (List.append_nil _).symm, fun _ => rfl, h, rfl⟩
  · obtain ⟨l, hl, hpad⟩ := s.padStaged_partial (benchTracer b) h
    rw [hpad] at hx
    refine ⟨_, l, hx, ?_, fun h0 => absurd h0 h, by omega, by simp⟩
    rw [State.setStaged_benchTracer, State.staged_benchTracer, State.onBench_bench_same]

end Sys2Proof.Machine
end

section
/-!
SUPPORT. A staged granule goes to the ring of its Bench's tracer (R548-R550); the anchor of a clock (R470); a marker slot's ID
(R546).
-/

namespace Sys2Proof.Machine

/-! ## The ring after accesses -/

namespace Accessed

variable {s t : State} (h : Accessed s t) (b : Bid)
include h

theorem trTail : t.trTail (benchTracer b) = s.trTail (benchTracer b) := by
  rw [State.trTail, State.trTail, trPtr_benchTracer, State.rf, State.rf, h.reg _ (by simp only [accessReg, K.TRC_PTR]; omega)]

theorem trSize : t.trSize (benchTracer b) = s.trSize (benchTracer b) := by
  rw [State.trSize, State.trSize, trRing_benchTracer, State.rf, State.rf, h.reg _ (by simp only [accessReg, K.TRC_RING]; omega)]

theorem trBase : t.trBase (benchTracer b) = s.trBase (benchTracer b) := by
  rw [State.trBase, State.trBase, trRing_benchTracer, State.rf, State.rf, h.reg _ (by simp only [accessReg, K.TRC_RING]; omega)]

theorem trRoom : t.trRoom (benchTracer b) = s.trRoom (benchTracer b) := by
  have h1 : t.reg (K.TRC_PTR b) = s.reg (K.TRC_PTR b) := h.reg _ (by simp only [accessReg, K.TRC_PTR]; omega)
  have h2 : t.reg (K.TRC_CTL b) = s.reg (K.TRC_CTL b) := h.reg _ (by simp only [accessReg, K.TRC_CTL]; omega)
  simp only [State.trRoom, h.trTail, h.trSize, trPtr_benchTracer, trCtl_benchTracer, State.rb, State.rf, h1, h2]

end Accessed

/-! ## A granule to the ring -/

/-- The unit number, in bulk memory, at which a tracer writes next. -/
def State.ringUnit (s : State) (b : Bid) : Nat := s.trBase (benchTracer b) / 16 + s.trTail (benchTracer b)

/-- The units of a granule with the words of the ring that take them. -/
def ringUnits (put : Nat) (units : List Got) : List (Nat × Got) := units.zipIdx.map fun u => (put + u.2, u.1)

theorem trWrites_eq (s : State) (b : Bid) (units : List Got) :
    s.trWrites (benchTracer b) units = (ringUnits (s.ringUnit b) units).map granuleWrite := by
  simp [State.trWrites, ringUnits, granuleWrite, State.ringUnit, Function.comp_def]

theorem mem_ringUnits {put : Nat} {units : List Got} {u : Nat × Got} (h : u ∈ ringUnits put units) :
    ∃ i < units.length, u.1 = put + i := by
  obtain ⟨⟨g, i⟩, hi, rfl⟩ := List.mem_map.mp h
  have := List.snd_lt_of_mem_zipIdx hi
  exact ⟨i, by simpa using this, rfl⟩

theorem ringUnits_pairwise (put : Nat) (units : List Got) : (ringUnits put units).Pairwise fun u v => u.1 ≠ v.1 := by
  rw [ringUnits, List.pairwise_map, List.pairwise_iff_getElem]
  intro i j hi hj hij
  simp
  omega

theorem State.unstage_benchTracer (s : State) (b : Bid) : s.unstage (benchTracer b) =
    s.onBench b fun x => { x with traceAt := (x.traceAt + 32) % 4096, traceIn := x.traceIn - 32 } := by
  rw [State.unstage, isHub_benchTracer, trBench_benchTracer]; rfl

theorem State.onBench_canonical {s : State} {b : Bid} {f : Bench → Bench} (h : s.Canonical) : (s.onBench b f).Canonical :=
  ⟨h.1, h.2⟩

theorem State.onBench_id (s : State) (b : Bid) : s.onBench b id = s := by
  simp [State.onBench, State.setBench, State.bench]

theorem State.onBench_trTail (s : State) (b c : Bid) (f : Bench → Bench) :
    (s.onBench b f).trTail (benchTracer c) = s.trTail (benchTracer c) := rfl
theorem State.onBench_trSize (s : State) (b c : Bid) (f : Bench → Bench) :
    (s.onBench b f).trSize (benchTracer c) = s.trSize (benchTracer c) := rfl

/-- Once a granule's words are written, TAIL moves on in the ring, and beside it the Bench's staging alone changes (R548). -/
theorem State.putGranule_written {s u r : State} {b : Bid} {p : Part} {units : List Got} (hread : s.readStage b p = (units, u))
    (hw : State.writeAll (trWho (benchTracer b) p) (u.trWrites (benchTracer b) units) u = (.ok () r, [])) :
    ∃ f g : Bench → Bench, s.putGranule (benchTracer b) p = ((r.onBench b f).setRf (K.TRC_PTR b) F.TRC_PTR_TAIL
      ((r.trTail (benchTracer b) + 32) % r.trSize (benchTracer b))).onBench b g := by
  let rest := ((r.bench b).trace).flatten.drop 64
  let f (x : Bench) : Bench :=
    { x with trace := if rest.isEmpty then [] else [rest], traceAt := (x.traceAt + 32) % 4096, traceIn := x.traceIn - 32 }
  have hnext : s.nextGranule (benchTracer b) p = (units, u) := by
    rw [State.nextGranule, isHub_benchTracer, trBench_benchTracer]; exact hread
  have hst : (r.setStaged (benchTracer b) (if rest.isEmpty then [] else [rest])).unstage (benchTracer b) = r.onBench b f := by
    rw [State.setStaged_benchTracer, State.unstage_benchTracer, State.onBench_onBench]
  have hput : s.putGranule (benchTracer b) p =
      let v := (r.onBench b f).setRf (K.TRC_PTR b) F.TRC_PTR_TAIL
        ((r.trTail (benchTracer b) + 32) % r.trSize (benchTracer b))
      if (r.trTail (benchTracer b) + 32) % r.trSize (benchTracer b) = 0 then
        v.setTrPhase (benchTracer b) !(v.trPhase (benchTracer b)) else v := by
    simp only [State.putGranule, hnext, hw, State.staged_benchTracer, granule]
    rw [hst]
    simp only [State.onBench_trTail, State.onBench_trSize, trPtr_benchTracer]
  rw [hput]
  dsimp only
  split
  · exact ⟨f, _, State.setTrPhase_benchTracer _ _ _⟩
  · exact ⟨f, id, (State.onBench_id _ b).symm⟩

/-- A granule goes to a ring that takes it: TAIL moves on by 32 units (R548), and the ring holds what the staging unit held. -/
theorem State.putGranule_ring (s : State) (b : Bid) (p : Part) (hi : s.Inv) (hc : s.bulk.copying = [])
    (hr : ∀ i < 32, s.BulkWord p (s.ringUnit b + i)) :
    (s.putGranule (benchTracer b) p).trTail (benchTracer b)
        = (s.trTail (benchTracer b) + 32) % s.trSize (benchTracer b) % 2 ^ 28
      ∧ ((∀ i < 32, s.UnitReads b p i) → mread (s.putGranule (benchTracer b) p).mem (16 * s.ringUnit b) 512
          = (List.range 32).flatMap fun i => mread s.mem (16 * s.stageWord b i) 16) := by
  obtain ⟨units, u, hread⟩ : ∃ units u, s.readStage b p = (units, u) := ⟨_, _, rfl⟩
  have hlen : units.length = 32 := by rw [← s.length_readStage b p, hread]
  have hu : Accessed s u := by have := Accessed.readStage s b p; rwa [hread] at this
  have hui : u.Inv := by
    have := (State.readStage_keeps (b := b) (p := p) (Keeps.refl s)).inv hi
    rwa [hread] at this
  have hput : u.ringUnit b = s.ringUnit b := by rw [State.ringUnit, State.ringUnit, hu.trBase, hu.trTail]
  have hbulk : ∀ x ∈ ringUnits (s.ringUnit b) units, u.BulkWord (trWho (benchTracer b) p).part x.1 := by
    intro x hx
    obtain ⟨i, hlt, hxi⟩ := mem_ringUnits hx
    obtain ⟨h1, h2⟩ := hr i (by omega)
    rw [trWho_benchTracer, hxi]
    exact ⟨h1, by rw [hu.sameWindows.mayAccess, h2]⟩
  obtain ⟨r, hw, hri, hra, hrw, -⟩ := State.writeAll_bulk (trWho (benchTracer b) p) _ u hui hbulk (ringUnits_pairwise _ _)
    (by rw [hu.copying, hc])
  rw [← hput, ← trWrites_eq] at hw
  obtain ⟨f, g, ht⟩ := State.putGranule_written hread hw
  rw [ht]
  refine ⟨?_, fun hsound => ?_⟩
  · rw [State.onBench_trTail, State.trTail, trPtr_benchTracer, State.rf, State.setRf,
      State.setReg_same _ _ _ (State.onBench_canonical hri.1), fld_setFld_same _ _ _ _ (by decide), hra.trTail, hra.trSize,
      hu.trTail, hu.trSize]
    rfl
  · have hsame := s.readStage_sound b p hsound
    rw [hread] at hsame
    obtain ⟨hunits, rfl⟩ := Prod.mk.inj hsame
    rw [State.onBench_mem, State.setRf_mem, State.onBench_mem, show 512 = 16 * 32 from rfl, mread_words]
    refine List.flatMap_congr fun i hi => ?_
    have hi := List.mem_range.mp hi
    have hmem : (u.ringUnit b + i, ⟨u.word (u.stageWord b i), false⟩) ∈ ringUnits (u.ringUnit b) units := by
      refine List.mem_map.mpr ⟨(⟨u.word (u.stageWord b i), false⟩, i), ?_, rfl⟩
      rw [List.mem_zipIdx_iff_getElem?, hunits]
      simp [hi]
    rw [hrw _ hmem, State.toBytes_word]

/-- TRACE_GRANULE_WRITE with a whole granule staged: the granule goes to the ring where that has room, or FULL is set (R550). -/
theorem traceGranuleWrite_staged (s : State) (b : Bid) (p : Part) (hrest : s.trRests (benchTracer b) = false)
    (hn : 32 ≤ traceUnits (s.bench b).trace) (hp : s.partOf b = some p) :
    exec (.traceGranuleWrite (benchTracer b)) s = .next (if s.trRoom (benchTracer b) then
      (s.stageTrace b).putGranule (benchTracer b) p else (s.stageTrace b).setRf (K.TRC_STAT b) F.TRC_STAT_FULL 1) := by
  have ha := Accessed.stageTrace s b
  change execTraceGranuleWrite _ s = _
  have hno : ¬ traceUnits ((s.stageTrace b).staged (benchTracer b)) < granule := by
    rw [State.staged_benchTracer, ha.trace, granule]; omega
  simp only [execTraceGranuleWrite, hrest, isHub_benchTracer, trBench_benchTracer, Bool.false_eq_true, if_false, hno,
    State.trPart_benchTracer, ha.sameWindows.partOf, hp, ha.trRoom, trStat_benchTracer]

theorem traceGranuleWrite_bench (s : State) (b : Bid) (p : Part) (hi : s.Inv) (hrest : s.trRests (benchTracer b) = false)
    (hn : 32 ≤ traceUnits (s.staged (benchTracer b))) (hp : s.trPart (benchTracer b) = some p) :
    ∃ t, exec (.traceGranuleWrite (benchTracer b)) s = .next t
      ∧ (s.trRoom (benchTracer b) = false → t.rb (K.TRC_STAT b) F.TRC_STAT_FULL = true
        ∧ ((s.bench b).traceIn = traceUnits (s.staged (benchTracer b)) → t.mem = s.mem))
      ∧ (s.trRoom (benchTracer b) = true → (∀ i < 32, s.mayAccess p (16 * (s.ringUnit b + i)) = true) →
        bulkBase ≤ 16 * s.ringUnit b → s.bulk.copying = [] →
        t.trTail (benchTracer b) = (s.trTail (benchTracer b) + 32) % s.trSize (benchTracer b) % 2 ^ 28
        ∧ ((s.bench b).traceIn = traceUnits (s.staged (benchTracer b)) → (∀ i < 32, s.UnitReads b p i) →
          mread t.mem (16 * s.ringUnit b) 512 = (List.range 32).flatMap fun i => mread s.mem (16 * s.stageWord b i) 16)) := by
  rw [State.staged_benchTracer] at hn ⊢
  rw [State.trPart_benchTracer] at hp
  have hx := traceGranuleWrite_staged s b p hrest hn hp
  have ha := Accessed.stageTrace s b
  have hui := (State.stageTrace_keeps (b := b) (Keeps.refl s)).inv hi
  refine ⟨_, hx, fun hroom => ?_, fun hroom hacc hbulk hc => ?_⟩
  · rw [if_neg (by simp [hroom])]
    refine ⟨?_, fun hin => ?_⟩
    · rw [show F.TRC_STAT_FULL = ⟨0, 1⟩ from rfl, State.rb_bit, State.setRf, State.setReg_same _ _ _ hui.1,
        getLsbD_setFld _ _ _ _ _ (by decide)]
      rfl
    · obtain ⟨f, hf, -⟩ := s.stageTrace_settled b hin
      rw [State.setRf_mem, hf, State.onBench_mem]
  · rw [if_pos hroom]
    have hunit : (s.stageTrace b).ringUnit b = s.ringUnit b := by rw [State.ringUnit, State.ringUnit, ha.trBase, ha.trTail]
    have hring : ∀ i < 32, (s.stageTrace b).BulkWord p ((s.stageTrace b).ringUnit b + i) := fun i hlt =>
      ⟨by rw [hunit]; omega, by rw [hunit, ha.sameWindows.mayAccess, hacc i hlt]⟩
    obtain ⟨htail, hmem⟩ := (s.stageTrace b).putGranule_ring b p hui (by rw [ha.copying, hc]) hring
    refine ⟨by rw [htail, ha.trTail, ha.trSize], fun hin hsound => ?_⟩
    obtain ⟨f, hf, hat⟩ := s.stageTrace_settled b hin
    rw [hunit, hf] at hmem
    have hword (i : Nat) : (s.onBench b f).stageWord b i = s.stageWord b i := by
      rw [State.stageWord, State.stageWord, State.onBench_bench_same, hat]; rfl
    simp only [State.UnitReads, hword] at hmem
    rw [hf]
    exact hmem hsound

/-! ## Clocks and marker slots -/

/-- A Bench's clock passes to the next count whose low half is zero, and its tracer makes an ANCHOR (R470). -/
theorem cyclesLowWrapAnchor_bench (s : State) (b : Bid) (hon : s.pwr.mainOn = true)
    (hrun : s.rb (K.CLK_BENCH b) F.CLK_BENCH_STOPPED = false) :
    ∃ t, exec (.cyclesLowWrapAnchor (benchTracer b)) s = .next t ∧ t.mem = s.mem
      ∧ (t.bench b).cycles = BitVec.ofNat 48 (((s.bench b).cycles.toNat / 2 ^ 32 + 1) * 2 ^ 32) := by
  let next := nextLowZero (s.bench b).cycles (s.bench b).wrap
  let u := s.onBench b fun x => { x with cycles := next.1, wrap := next.2 }
  have hx : exec (.cyclesLowWrapAnchor (benchTracer b)) s = .next (u.traceAdd b (u.anchor b)) := by
    change execCyclesLowWrapAnchor _ s = _
    simp only [execCyclesLowWrapAnchor, hon, isHub_benchTracer, trBench_benchTracer, val_benchTracer, hrun,
      Bool.not_true, Bool.false_eq_true, if_false, State.anchorNow_benchTracer, u, next]
  obtain ⟨hapart, -, hbench, -⟩ := (State.OnlyForeman.refl b u).traceAdd (u.anchor b)
  have hmem := congrArg State.mem hapart
  have hcyc := congrArg Bench.cycles hbench
  simp only [State.apart, Bench.apart] at hmem hcyc
  refine ⟨_, hx, by rw [hmem, State.onBench_mem], ?_⟩
  rw [hcyc, State.onBench_bench_same]
  rfl

theorem State.writeReg_of (s : State) {k : Nat} {r : RegRow} {is : List Nat} (h : regAt regMap k = some (r, is)) (inst : Bool)
    (v : Word) : s.writeReg k inst v = s.setReg k (applyWrite r.fields inst (s.reg k) v) := by rw [State.writeReg, h]

theorem applyWrite_mkId (old v : Word) : applyWrite mkIdRow.fields false old v = setFld old 0 32 (fld v 0 32) := rfl

/-- A marker slot takes its ID, and its three counters start again from zero (R546). -/
theorem mkSlotIdWrite_slot (s : State) (b : Bid) (i : Fin 8) (v : Word) (hi : s.Inv) :
    ∃ t, exec (.mkSlotIdWrite b i v) s = .next t ∧ t.rf (K.MK_ID b i) F.MK_ID_ID = fld v 0 32
      ∧ (∀ j : Fin 3, t.reg (K.MK_CNT b i j) = 0) ∧ t.mem = s.mem := by
  have hw : s.writeMkId b i v = (s.setReg (K.MK_ID b i) (setFld (s.reg (K.MK_ID b i)) 0 32 (fld v 0 32))).resetRegs
      (K.MK_CNT b i 0) (K.MK_CNT b i 2 + 1) := by
    rw [State.writeMkId, s.writeReg_of (regAt_mkId b i), applyWrite_mkId]
  refine ⟨s.writeMkId b i v, rfl, ?_, fun j => ?_, ?_⟩ <;> rw [hw]
  · rw [State.rf, State.resetRegs_reg, if_neg (by simp only [K.MK_ID, K.MK_CNT]; omega), s.setReg_same _ _ hi.1,
      show F.MK_ID_ID = ⟨0, 32⟩ from rfl, fld_setFld_same _ _ _ _ (by decide), Nat.mod_eq_of_lt (fld_lt v 0 32)]
  · rw [State.resetRegs_reg, if_pos (by simp only [K.MK_CNT]; omega), regReset_mkCnt]
  · rw [State.resetRegs_mem, State.setReg_mem]

end Sys2Proof.Machine
end

section
/-!
SUPPORT. Reads of a counter by halves (R13) and of the Hub's counter 416 (R545).
-/

namespace Sys2Proof.Machine

/-! ## Where the counters lie -/

/-- How far the last register of a family lies behind its first. -/
def idxExtent (idx : List (Nat × Nat)) : Nat := idx.foldr (fun e a => e.1 * (e.2 - 1) + a) 0

/-- A place of a family is a multiple of 8 within its extent, where every stride is a multiple of 8. -/
theorem idxOf_bound {idx : List (Nat × Nat)} {off : Nat} {is : List Nat} (h : idxOf idx off = some is)
    (h8 : ∀ e ∈ idx, e.1 % 8 = 0) : off % 8 = 0 ∧ off ≤ idxExtent idx := by
  induction idx generalizing off is with
  | nil =>
    have h0 : off = 0 := by
      by_contra hne
      simp [idxOf, hne] at h
    simp [h0, idxExtent]
  | cons e idx ih =>
    obtain ⟨st, n⟩ := e
    rw [idxOf] at h
    split at h
    · next hlt =>
      obtain ⟨js, hjs, -⟩ := Option.map_eq_some_iff.mp h
      obtain ⟨hm, hle⟩ := ih hjs fun e he => h8 e (List.mem_cons_of_mem _ he)
      have hst : st % 8 = 0 := h8 (st, n) List.mem_cons_self
      have hdm := Nat.div_add_mod off st
      have hmul : st * (off / st) ≤ st * (n - 1) := Nat.mul_le_mul_left _ (by omega)
      have hmul8 : st * (off / st) % 8 = 0 := by rw [Nat.mul_mod, hst]; simp
      simp only [idxExtent, List.foldr_cons] at hle ⊢
      omega
    · cases h

/-- The register found at a key is a row of the map, and the key lies in its family. -/
theorem regAt_mem {l : List RegRow} {k : Nat} {r : RegRow} {is : List Nat} (h : regAt l k = some (r, is)) :
    r ∈ l ∧ r.base ≤ k ∧ idxOf r.idx (k - r.base) = some is := by
  induction l with
  | nil => cases h
  | cons x l ih =>
    rw [regAt] at h
    split at h
    · next hle =>
      split at h
      · next js hjs => cases h; exact ⟨List.mem_cons_self, hle, hjs⟩
      · obtain ⟨h1, h2⟩ := ih h; exact ⟨List.mem_cons_of_mem _ h1, h2⟩
    · obtain ⟨h1, h2⟩ := ih h; exact ⟨List.mem_cons_of_mem _ h1, h2⟩

/-- Whether a family of counters has a place in BAR0: in the Hub's block, or in the first 0x180000 bytes of a Bench's (R417). -/
def RegRow.counterInBar0 (r : RegRow) : Bool :=
  r.base % 8 == 0 && r.idx.all (fun e => e.1 % 8 == 0)
    && (if hubKey ≤ r.base then decide (r.base + idxExtent r.idx < hubKey + 0x1000000)
      else r.idx.head? == some (0x1000000, 16) && decide (r.base + idxExtent r.idx.tail < 0x180000))

theorem counters_inBar0 : ∀ r ∈ regMap, r.counter = true → r.counterInBar0 = true := by
  have h : (regMap.all fun r => !r.counter || r.counterInBar0) = true := by decide +kernel
  intro r hr hc
  simpa [hc] using List.all_eq_true.mp h r hr

theorem bar0At_hub {o : Nat} (h : o < 0x1000000) : bar0At (0x1000000 + o) = .reg (hubKey + o) := by
  rw [bar0At, if_neg (by omega), if_neg (by omega), if_pos (by omega), Nat.add_sub_cancel_left]

theorem bar0At_bench {b o : Nat} (hb : b < 16) (ho : o < 0x180000) :
    bar0At (0x2000000 + b * 0x200000 + o) = .reg (b * 0x1000000 + o) := by
  have hdiv : (0x2000000 + b * 0x200000 + o - 0x2000000) / 0x200000 = b := by omega
  have hmod : (0x2000000 + b * 0x200000 + o - 0x2000000) % 0x200000 = o := by omega
  rw [bar0At, if_neg (by omega), if_neg (by omega), if_neg (by omega), if_pos (by omega), hdiv, hmod]
  exact if_pos ho

/-- A counter's BAR0 offset reaches the counter, which lies on a multiple of 8 (R417). -/
theorem bar0At_counter {k : Nat} (h : isCounter k = true) : bar0At (bar0Of k) = .reg k ∧ k % 8 = 0 := by
  unfold isCounter at h
  split at h
  · next r is hr =>
    obtain ⟨hmem, hle, hidx⟩ := regAt_mem hr
    have hc := counters_inBar0 r hmem h
    simp only [RegRow.counterInBar0, Bool.and_eq_true, beq_iff_eq, List.all_eq_true] at hc
    obtain ⟨⟨hb8, h8⟩, hplace⟩ := hc
    split at hplace
    · next hhub =>
      obtain ⟨hk8, hkle⟩ := idxOf_bound hidx h8
      have hlt := of_decide_eq_true hplace
      refine ⟨?_, by omega⟩
      rw [bar0Of, if_neg (by omega), bar0At_hub (by omega), Nat.add_sub_cancel' (by omega)]
    · next hbench =>
      rw [Bool.and_eq_true, beq_iff_eq, decide_eq_true_eq] at hplace
      obtain ⟨hhead, hlt⟩ := hplace
      obtain ⟨rest, hrest⟩ : ∃ rest, r.idx = (0x1000000, 16) :: rest := by
        cases hi : r.idx with
        | nil => rw [hi] at hhead; cases hhead
        | cons e rest => rw [hi] at hhead; exact ⟨rest, by rw [Option.some.inj hhead]⟩
      rw [hrest] at hidx h8 hlt
      rw [List.tail_cons] at hlt
      rw [idxOf] at hidx
      split at hidx
      · next hn =>
        obtain ⟨js, hjs, -⟩ := Option.map_eq_some_iff.mp hidx
        obtain ⟨hk8, hkle⟩ := idxOf_bound hjs fun e he => h8 e (List.mem_cons_of_mem _ he)
        have hkm : k % 0x1000000 < 0x180000 := by omega
        have hkd : k / 0x1000000 < 16 := by omega
        refine ⟨?_, by omega⟩
        rw [bar0Of, if_pos (show k < hubKey by simp only [hubKey]; omega), bar0At_bench hkd hkm, Nat.div_add_mod']
      · cases hidx
  · cases h

/-! ## Reads (R13, R545) -/

theorem State.setLatched_latched (s : State) (k : Nat) (t : Tab (BitVec 32)) : (s.setLatched k t).latched k = t := by
  unfold State.latched State.setLatched
  split
  · rw [State.onBench_bench_same]
  · rfl

theorem find?_tput {α : Type} (l : Tab α) (k : Nat) (v : α) : (tput l k v).find? (fun e => e.1 == k) = some (k, v) := by
  induction l with
  | nil => simp [tput]
  | cons e l ih =>
    obtain ⟨n, w⟩ := e
    rw [tput]
    split
    · next h => rw [List.find?_cons_of_neg (by simp; omega), ih]
    · split <;> simp

theorem toNat_and_low (v : Word) : (v &&& 0xFFFFFFFF).toNat = v.toNat % 2 ^ 32 := by
  rw [BitVec.toNat_and]
  exact Nat.and_two_pow_sub_one_eq_mod _ 32

/-- The upper half of a word fits in a latch. -/
theorem setWidth_high (v : Word) : ((v >>> 32).setWidth 32).setWidth 64 = v >>> 32 := by
  apply BitVec.eq_of_toNat_eq
  have := v.isLt
  simp only [BitVec.toNat_setWidth, BitVec.toNat_ushiftRight, Nat.shiftRight_eq_div_pow]
  omega

/-- The lower half of a counter read: its upper half stands in the latch. -/
theorem State.readLow_latched (s : State) {k : Nat} (hc : isCounter k = true) :
    (s.readLow k).2.latched k = tput (s.latched k) k ((s.view k >>> 32).setWidth 32) := by
  have h : ∀ (t : State) (v : Word), (t.setReg k v).latched k = t.latched k := by
    intro t v
    rw [State.latched, State.latched, State.setReg_bench, State.setReg_mgmt]
  simp only [State.readLow, hc, if_true]
  split
  · rw [h, State.setLatched_latched]
  · rw [State.setLatched_latched]

theorem State.answerBar_answer (s : State) (p : Part) (a : BarAnswer) : ((s.answerBar p a).hport p).answer = some a := by
  simp [State.answerBar, State.onHport, State.hport]

theorem State.answerBar_latched (s : State) (p : Part) (a : BarAnswer) (k : Nat) :
    (s.answerBar p a).latched k = s.latched k := rfl

theorem State.answerBar_reg (s : State) (p : Part) (a : BarAnswer) (k : Nat) : (s.answerBar p a).reg k = s.reg k := rfl

/-- A latched upper half is what the next read of that half gives. -/
theorem State.readHigh_latched (s : State) (k : Nat) (l : Tab (BitVec 32)) (v : BitVec 32) (h : s.latched k = tput l k v) :
    (s.readHigh k).1 = v.setWidth 64 := by
  rw [State.readHigh, h, find?_tput]

/-- COUNTER_LOW_HALF_READ of a counter that its partition reaches (R13). -/
theorem counterLowHalfRead_latches (s : State) (p : Part) (key : Nat) (hp : s.partValid p = true) (hs : s.stage = stageReady)
    (r : RegRow) (is : List Nat) (hc : isCounter key = true) (hf : s.regFind p true key = .ok r is) :
    ∃ t, exec (.counterLowHalfRead p key) s = .next t
      ∧ (t.hport p).answer = some (.data ((s.view key).toNat % 2 ^ 32) false) ∧ (t.readHigh key).1 = s.view key >>> 32 := by
  obtain ⟨hat, h8⟩ := bar0At_counter hc
  have hk : key / 8 * 8 = key := by omega
  have hx : exec (.counterLowHalfRead p key) s
      = .next ((s.readLow key).2.answerBar p (.data (s.readLow key).1.toNat false)) := by
    change execCounterLowHalfRead p key s = _
    rw [execCounterLowHalfRead, hc, hp, hs, if_neg (by simp), State.bar0Read, hat]
    simp only [hk, hf, h8, if_true]
    rfl
  refine ⟨_, hx, ?_, ?_⟩
  · rw [State.answerBar_answer, ← toNat_and_low]
    rfl
  · rw [State.readHigh_latched _ _ _ _ ((State.answerBar_latched _ _ _ _).trans (s.readLow_latched hc)), setWidth_high]

/-- A partition's host reads Hub counter 416 (R545). -/
theorem State.regFind_powerMax (s : State) (p : Part) : s.regFind p true (K.HUB_CTR 416) = .ok hubCtrRow [416] := by
  rw [State.regFind, if_neg (by simp only [K.HUB_CTR, hubKey]; omega), regAt_powerMax]
  rfl

/-- POWER_MAX_READ answers the peak and clears it (R545). -/
theorem powerMaxRead_clears (s : State) (p : Part) (hi : s.Inv) (hp : s.partValid p = true) (hs : s.stage = stageReady) :
    ∃ t, exec (.powerMaxRead p) s = .next t ∧ (t.hport p).answer = some (.data (s.view (K.HUB_CTR 416)).toNat false)
      ∧ t.reg (K.HUB_CTR 416) = 0 := by
  have hx : exec (.powerMaxRead p) s
      = .next ((s.setReg (K.HUB_CTR 416) 0).answerBar p (.data (s.view (K.HUB_CTR 416)).toNat false)) := by
    change execPowerMaxRead p s = _
    rw [execPowerMaxRead, hp, hs, if_neg (by simp), State.bar0Read,
      show bar0At (bar0Of (K.HUB_CTR 416)) = .reg (K.HUB_CTR 416) from rfl]
    simp only [show K.HUB_CTR 416 / 8 * 8 = K.HUB_CTR 416 from rfl, State.regFind_powerMax]
    rfl
  exact ⟨_, hx, State.answerBar_answer _ _ _, (State.answerBar_reg _ _ _ _).trans (s.setReg_same _ _ hi.1)⟩

end Sys2Proof.Machine
end

section
/-! SUPPORT. REGISTER_WRITE: it sets RW bits and clears W1C bits, and a register that does more does so (R10, R561). -/

namespace Sys2Proof.Machine

/-- A write by a register's writer acts. -/
theorem registerWrite_written {s : State} {k : Nat} {r : RegRow} {is : List Nat} {src : Src} (v : Word)
    (hr : regAt regMap k = some (r, is)) (hsrc : s.writerOf r is = src) (hm : s.mayWrite src r is = true) :
    exec (.registerWrite k v) s = .next (s.actWrite src (s.storeFault (bidOf (is.getD 0 0))) r is k v) := by
  change execRegisterWrite k v s = _
  rw [execRegisterWrite, hr]
  dsimp only
  rw [hsrc, if_pos hm]

/-- A write of a register that nobody writes does nothing. -/
theorem registerWrite_ignored {s : State} {k : Nat} {r : RegRow} {is : List Nat} (v : Word)
    (hr : regAt regMap k = some (r, is)) (hm : s.mayWrite (s.writerOf r is) r is = false) :
    exec (.registerWrite k v) s = .next s := by
  change execRegisterWrite k v s = _
  rw [execRegisterWrite, hr]
  dsimp only
  rw [if_neg (by simp [hm])]

theorem State.actWrite_hub {s : State} {src : Src} {at_ : FaultAt} {r : RegRow} {is : List Nat} {k : Nat} {v : Word} {t : State}
    (hb : ¬ r.base < hubKey) (h : s.actHub src r is k v = some t) : s.actWrite src at_ r is k v = t := by
  rw [State.actWrite, if_neg hb, h]

theorem State.actWrite_bench {s : State} {src : Src} {at_ : FaultAt} {r : RegRow} {is : List Nat} {k : Nat} {v : Word}
    {t : State} (hb : r.base < hubKey) (h : s.actBench at_ (bidOf (is.getD 0 0)) r is k v = some t) :
    s.actWrite src at_ r is k v = t := by
  rw [State.actWrite, if_pos hb, h]

theorem part_mod (p : Part) : (⟨p.val % 4, Nat.mod_lt _ (by decide)⟩ : Part) = p := Fin.ext (Nat.mod_eq_of_lt p.isLt)
theorem bidOf_val (b : Bid) : bidOf b.val = b := Fin.ext (Nat.mod_eq_of_lt b.isLt)

/-! ## Registers that do more -/

/-- A write that acts on the partition of its register. -/
theorem registerWrite_part {s : State} {k : Nat} {r : RegRow} {p : Part} {src : Src} {f : Part → State} (v : Word)
    (hr : regAt regMap k = some (r, [p.val])) (hsrc : s.writerOf r [p.val] = src) (hm : s.mayWrite src r [p.val] = true)
    (hb : ¬ r.base < hubKey)
    (hact : s.actHub src r [p.val] k v = some (f ⟨p.val % 4, Nat.mod_lt _ (by decide)⟩)) :
    exec (.registerWrite k v) s = .next (f p) := by
  rw [registerWrite_written v hr hsrc hm, State.actWrite_hub hb hact, part_mod]

/-- A write that acts on the Bench of its register. -/
theorem registerWrite_bench {s : State} {k : Nat} {r : RegRow} {b : Bid} {is : List Nat} {f : Bid → State} (v : Word)
    (hr : regAt regMap k = some (r, b.val :: is))
    (hm : s.mayWrite (s.writerOf r (b.val :: is)) r (b.val :: is) = true) (hb : r.base < hubKey)
    (hact : ∀ at_ c, s.actBench at_ c r (b.val :: is) k v = some (f c)) :
    exec (.registerWrite k v) s = .next (f b) := by
  rw [registerWrite_written v hr rfl hm, State.actWrite_bench hb (hact _ _), List.getD_cons_zero, bidOf_val]

theorem registerWrite_bmcPart (s : State) (p : Part) (v : Word) :
    exec (.registerWrite (K.BMC_PART p) v) s = .next (s.writeBmcPart p v) :=
  registerWrite_part (f := fun q => s.writeBmcPart q v) (src := .installer) v (regAt_bmcPart p) rfl rfl (by decide) rfl

theorem registerWrite_errRing (s : State) (p : Part) (v : Word) :
    exec (.registerWrite (K.ERR_RING p) v) s = .next (s.writeErrRing p v) :=
  registerWrite_part (f := fun q => s.writeErrRing q v) (src := .host p) v (regAt_errRing p)
    (congrArg Src.host (part_mod p)) rfl (by decide) rfl

theorem registerWrite_progLoad1 (s : State) (p : Part) (v : Word) :
    exec (.registerWrite (K.PROG_LOAD1 p) v) s = .next (s.writeProgLoad p v) :=
  registerWrite_part (f := fun q => s.writeProgLoad q v) (src := .host p) v (regAt_progLoad1 p)
    (congrArg Src.host (part_mod p)) rfl (by decide) rfl

/-- While the Bench's clock runs, nothing waits in its crossing (R476). -/
theorem registerWrite_fmCtl (s : State) (b : Bid) (v : Word) (h : s.rb (K.CLK_BENCH b) F.CLK_BENCH_STOPPED = false) :
    exec (.registerWrite (K.FM_CTL b) v) s = .next (s.writeFmCtl b v) := by
  rw [registerWrite_bench (f := fun c => s.cross c (K.FM_CTL b) v (s.writeFmCtl c v)) v (regAt_fmCtl b) rfl (by decide)
    fun _ _ => rfl, State.cross, if_neg (by simp [h])]

/-- A Bench's Foreman writes the registers of its own Bench (R561). -/
theorem registerWrite_mkId (s : State) (b : Bid) (v : Word) :
    exec (.registerWrite (K.MK_ID b 0) v) s = .next (s.writeMkId b 0 v) :=
  registerWrite_bench (is := [0]) v (regAt_mkId b 0)
    (by simp [State.mayWrite, State.writerOf, mkIdRow, mkRow, bidOf_val, K.COW_CTL, K.COW_RGN]) (by decide) fun _ _ => rfl

/-! ## Access kinds (R10) -/

/-- A bit cleared where a write has a one in its place (W1C). -/
def clearBit (v w : Word) (i : Nat) : Word := setFld w i 1 (fld w i 1 &&& (2 ^ 1 - 1 - fld v i 1))

theorem getLsbD_clearBit (v w : Word) (i j : Nat) (hi : i < 64) (hj : j < 64) :
    (clearBit v w i).getLsbD j = (w.getLsbD j && !(decide (j = i) && v.getLsbD j)) := by
  rw [clearBit, getLsbD_setFld _ _ _ _ _ hj]
  by_cases h : j = i
  · subst h
    rw [if_pos (by omega), Nat.sub_self, fld_one, fld_one]
    cases w.getLsbD j <;> cases v.getLsbD j <;> simp
  · rw [if_neg (by omega)]
    simp [h]

/-- Bits cleared one after the other. -/
theorem getLsbD_foldl_clearBit (v w : Word) (l : List Nat) (j : Nat) (hl : ∀ i ∈ l, i < 64) (hj : j < 64) :
    (l.foldl (clearBit v) w).getLsbD j = (w.getLsbD j && !(decide (j ∈ l) && v.getLsbD j)) := by
  induction l generalizing w with
  | nil => simp
  | cons i l ih =>
    rw [List.foldl_cons, ih _ fun x hx => hl x (List.mem_cons_of_mem _ hx),
      getLsbD_clearBit _ _ _ _ (hl i List.mem_cons_self) hj, Bool.and_assoc, ← Bool.not_or, ← Bool.and_or_distrib_right]
    simp [List.mem_cons]

theorem applyWrite_bmemStat (old v : Word) :
    applyWrite bmemStatRow.fields false old v = [0, 1, 2, 3, 4].foldl (clearBit v) old := rfl

theorem applyWrite_barMask (old v : Word) : applyWrite barMaskRow.fields false old v = setFld old 0 16 (fld v 0 16) := rfl

theorem State.actWrite_plain {s : State} {src : Src} {at_ : FaultAt} {r : RegRow} {is : List Nat} {k : Nat} {v : Word}
    (hact : (if r.base < hubKey then s.actBench at_ (bidOf (is.getD 0 0)) r is k v else s.actHub src r is k v) = none)
    (hr : regAt regMap k = some (r, is)) (hplain : s.plainWrite r k (src == .installer) v = s.writeReg k false v) :
    s.actWrite src at_ r is k v = s.setReg k (applyWrite r.fields false (s.reg k) v) := by
  rw [State.actWrite, hact, ← s.writeReg_of hr, ← hplain]

/-- RW bits take what is written, and every other register stands (R10). -/
theorem registerWrite_barMask (s : State) (p : Part) (v : Word) (hi : s.Inv) :
    ∃ t, exec (.registerWrite (K.BAR_MASK p) v) s = .next t ∧ t.rf (K.BAR_MASK p) ⟨0, 16⟩ = fld v 0 16
      ∧ ∀ j, j ≠ K.BAR_MASK p → t.reg j = s.reg j := by
  have hx := registerWrite_written (s := s) (src := .host p) v (regAt_barMask p) (congrArg Src.host (part_mod p)) rfl
  rw [State.actWrite_plain (by rfl) (regAt_barMask p) rfl, applyWrite_barMask] at hx
  refine ⟨_, hx, ?_, fun j hj => s.setReg_other _ _ _ hj.symm⟩
  rw [State.rf, s.setReg_same _ _ hi.1, fld_setFld_same _ _ _ _ (by decide), Nat.mod_eq_of_lt (fld_lt v 0 16)]

/-- W1C bits written one are cleared, and every other register stands (R10). -/
theorem registerWrite_bmemStat (s : State) (b : Bid) (v : Word) (hi : s.Inv) :
    ∃ t, exec (.registerWrite (K.BMEM_STAT b) v) s = .next t ∧ (∀ j, j ≠ K.BMEM_STAT b → t.reg j = s.reg j)
      ∧ ∀ i : Fin 5, t.rb (K.BMEM_STAT b) ⟨i, 1⟩ = (s.rb (K.BMEM_STAT b) ⟨i, 1⟩ && !v.getLsbD i.val) := by
  have hm : s.mayWrite (s.writerOf bmemStatRow [b.val]) bmemStatRow [b.val] = true := by
    simp [State.mayWrite, State.writerOf, bmemStatRow, mkRow, bidOf_val, K.COW_CTL, K.COW_RGN]
  have hx := registerWrite_written (s := s) v (regAt_bmemStat b) rfl hm
  rw [State.actWrite_plain (by rfl) (regAt_bmemStat b) rfl, applyWrite_bmemStat] at hx
  refine ⟨_, hx, fun j hj => s.setReg_other _ _ _ hj.symm, fun i => ?_⟩
  have hin : i.val ∈ [0, 1, 2, 3, 4] := by simp; omega
  rw [State.rb_bit, State.rb_bit, s.setReg_same _ _ hi.1,
    getLsbD_foldl_clearBit _ _ _ _ (by decide) (by omega), decide_eq_true hin, Bool.true_and]

/-- RO bits stand (R10). -/
theorem registerWrite_clkBench (s : State) (b : Bid) (v : Word) :
    exec (.registerWrite (K.CLK_BENCH b) v) s = .next s := registerWrite_ignored v (regAt_clkBench b) rfl

end Sys2Proof.Machine
end

section
/-! The settlement of O60. -/

open Sys2Proof Sys2Proof.Machine

/-- Settles O60, part by part: a Bench's tracer, the reads of counters, and the register writes by access kind. -/
theorem traceAndRegisters : Obligations.TraceAndRegisters := by
  unfold Obligations.TraceAndRegisters
  refine ⟨fun s b v hi => ⟨?_, ?_, ?_, ?_, ?_, ?_⟩, fun s p key hi hp hs => ⟨?_, ?_⟩,
    fun s p b v hi => ⟨?_, ?_, ?_, ?_, ?_, ?_, ?_, ?_⟩⟩
  · exact traceEnWrite_bench s b v hi
  · exact traceSampleTimer_bench s b
  · exact traceFlushTimer_bench s b
  · exact fun p hrest hn hp => traceGranuleWrite_bench s b p hi hrest hn hp
  · exact fun i => mkSlotIdWrite_slot s b i v hi
  · exact cyclesLowWrapAnchor_bench s b
  · exact fun r is hc hf => counterLowHalfRead_latches s p key hp hs r is hc hf
  · exact powerMaxRead_clears s p hi hp hs
  · exact registerWrite_barMask s p v hi
  · exact registerWrite_bmemStat s b v hi
  · exact ⟨s, registerWrite_clkBench s b v, fun _ => rfl⟩
  · exact registerWrite_bmcPart s p v
  · exact registerWrite_errRing s p v
  · exact registerWrite_progLoad1 s p v
  · exact registerWrite_fmCtl s b v
  · exact registerWrite_mkId s b v

end

section
/-!
SUPPORT. Reads of a Bench's arrays and queues after the operations that the commands of the arrays use, and the fields of a
register after another of its fields was written.
-/

namespace Sys2Proof.Machine

/-! ## Arrays and queues -/

@[simp] theorem State.setArr_arr_same (s : State) (b : Bid) (u : Fin 12) (a : ArrayUnit) : (s.setArr b u a).arr b u = a := by
  rw [State.arr, State.setArr, State.onBench_bench_same]; simp

theorem State.setArr_arr_other (s : State) (b : Bid) {u v : Fin 12} (a : ArrayUnit) (h : v ≠ u) :
    (s.setArr b u a).arr b v = s.arr b v := by
  have hne : ¬ u.val = v.val := fun e => h (Fin.ext e.symm)
  rw [State.arr, State.setArr, State.onBench_bench_same]
  simp [State.arr, hne]

@[simp] theorem State.setArr_queue (s : State) (b c : Bid) (u : Fin 12) (a : ArrayUnit) (q : Fin 8) :
    (s.setArr b u a).queue c q = s.queue c q := by
  rw [State.queue, State.setArr, State.onBench_bench]; split <;> simp_all [State.queue]

theorem State.setQueue_queue_other (s : State) (b : Bid) {q r : Fin 8} (l : List QItem) (h : r ≠ q) :
    (s.setQueue b q l).queue b r = s.queue b r := by
  have hne : ¬ q.val = r.val := fun e => h (Fin.ext e.symm)
  rw [State.queue, State.setQueue, State.onBench_bench_same]
  simp [State.queue, hne]

@[simp] theorem State.setQueue_arr (s : State) (b c : Bid) (q : Fin 8) (l : List QItem) (u : Fin 12) :
    (s.setQueue b q l).arr c u = s.arr c u := by
  rw [State.arr, State.setQueue, State.onBench_bench]; split <;> simp_all [State.arr]

@[simp] theorem State.setQueue_rf (s : State) (b : Bid) (q : Fin 8) (l : List QItem) (k : Nat) (f : Fld) :
    (s.setQueue b q l).rf k f = s.rf k f := rfl

@[simp] theorem State.onFm_arr (s : State) (b c : Bid) (f : Foreman → Foreman) (u : Fin 12) :
    (s.onFm b f).arr c u = s.arr c u := by
  rw [State.arr, State.onFm, State.onBench_bench]; split <;> simp_all [State.arr]

@[simp] theorem State.setRf_queue (s : State) (k : Nat) (f : Fld) (v : Nat) (b : Bid) (q : Fin 8) :
    (s.setRf k f v).queue b q = s.queue b q := by rw [State.queue, State.bench, State.setRf_benches]; rfl
@[simp] theorem State.countB_queue (s : State) (b c : Bid) (n k : Nat) (q : Fin 8) :
    (s.countB b n k).queue c q = s.queue c q := by rw [State.queue, State.bench, State.countB_benches]; rfl
@[simp] theorem State.countB_arr (s : State) (b c : Bid) (n k : Nat) (u : Fin 12) :
    (s.countB b n k).arr c u = s.arr c u := by rw [State.arr, State.bench, State.countB_benches]; rfl

/-! ## Fields of one register -/

/-- A field replaced leaves the fields beside it. -/
theorem fld_setFld_beside (w : Word) {lo n lo' n' : Nat} (v : Nat) (h : lo + n ≤ lo' ∨ lo' + n' ≤ lo) (hl : lo' + n' ≤ 64) :
    fld (setFld w lo n v) lo' n' = fld w lo' n' := by
  refine Nat.eq_of_testBit_eq fun i => ?_
  rw [testBit_fld, testBit_fld]
  by_cases hi : i < n'
  · rw [getLsbD_setFld _ _ _ _ _ (by omega), if_neg (by omega)]
  · simp [hi]

theorem State.setRf_rf_same (s : State) (k : Nat) (f : Fld) (v : Nat) (h : s.Canonical) (hf : f.lo + f.w ≤ 64) :
    (s.setRf k f v).rf k f = v % 2 ^ f.w := by
  rw [State.rf, State.setRf, s.setReg_same _ _ h, fld_setFld_same _ _ _ _ hf]

theorem State.setRf_rf_beside (s : State) (k : Nat) {f g : Fld} (v : Nat) (h : s.Canonical)
    (hfg : f.lo + f.w ≤ g.lo ∨ g.lo + g.w ≤ f.lo) (hg : g.lo + g.w ≤ 64) : (s.setRf k f v).rf k g = s.rf k g := by
  rw [State.rf, State.setRf, s.setReg_same _ _ h, fld_setFld_beside _ _ hfg hg, State.rf]

theorem State.setRf_canonical (s : State) (k : Nat) (f : Fld) (v : Nat) (h : s.Canonical) : (s.setRf k f v).Canonical :=
  s.setReg_canonical _ _ h

end Sys2Proof.Machine
end

section
/-! SUPPORT. The switches of mode and of check mode: the writes that ask for them, and the switch itself (R86, R88, R446). -/

namespace Sys2Proof.Machine

/-- Three fields of a word, none over another. -/
def Fld.Separate (f g e : Fld) : Prop :=
  (f.lo + f.w ≤ 64 ∧ g.lo + g.w ≤ 64 ∧ e.lo + e.w ≤ 64) ∧ (g.lo + g.w ≤ f.lo ∨ f.lo + f.w ≤ g.lo)
    ∧ (f.lo + f.w ≤ e.lo ∨ e.lo + e.w ≤ f.lo) ∧ (g.lo + g.w ≤ e.lo ∨ e.lo + e.w ≤ g.lo)

/-- Two fields of a register written, one after the other, are read back, and a third stands. -/
theorem State.setRf_setRf_rf (s : State) (k : Nat) {f g e : Fld} (v w : Nat) (h : s.Canonical) (hsep : f.Separate g e) :
    let t := (s.setRf k f v).setRf k g w
    t.rf k f = v % 2 ^ f.w ∧ t.rf k g = w % 2 ^ g.w ∧ t.rf k e = s.rf k e := by
  obtain ⟨⟨hf, hg, he⟩, hgf, hfe, hge⟩ := hsep
  have h1 := s.setRf_canonical k f v h
  exact ⟨by rw [State.setRf_rf_beside _ _ _ h1 hgf hf, State.setRf_rf_same _ _ _ _ h hf],
    State.setRf_rf_same _ _ _ _ h1 hg,
    by rw [State.setRf_rf_beside _ _ _ h1 hge he, State.setRf_rf_beside _ _ _ h hfe he]⟩

/-- MODE, MODE_ACT and SWITCHING lie apart in both registers. -/
theorem cutCtl_separate : F.CUT_CTL_MODE.Separate F.CUT_CTL_SWITCHING F.CUT_CTL_MODE_ACT
    ∧ F.CUT_CTL_MODE_ACT.Separate F.CUT_CTL_SWITCHING F.CUT_CTL_MODE := by
  unfold Fld.Separate; decide

theorem errBctl_separate : F.ERR_BCTL_MODE.Separate F.ERR_BCTL_SWITCHING F.ERR_BCTL_MODE_ACT
    ∧ F.ERR_BCTL_MODE_ACT.Separate F.ERR_BCTL_SWITCHING F.ERR_BCTL_MODE := by
  unfold Fld.Separate; decide

/-- MODE is the lowest bit of what is written. -/
theorem fld_mode (v : Word) : fld v 0 1 = v.toNat % 2 := by simp [fld, bits]

/-! ## CUT_CTL (R86, R88) -/

theorem cutCtlModeWrite_change (s : State) (b : Bid) (v : Word) (hi : s.Inv)
    (hv : v.toNat % 2 ≠ s.rf (K.CUT_CTL b) F.CUT_CTL_MODE) :
    ∃ t, exec (.cutCtlModeWrite b v) s = .next t ∧ t.rf (K.CUT_CTL b) F.CUT_CTL_MODE = v.toNat % 2
      ∧ t.rf (K.CUT_CTL b) F.CUT_CTL_SWITCHING = 1
      ∧ t.rf (K.CUT_CTL b) F.CUT_CTL_MODE_ACT = s.rf (K.CUT_CTL b) F.CUT_CTL_MODE_ACT
      ∧ t.benches = s.benches ∧ t.mem = s.mem := by
  obtain ⟨hmode, hsw, hact⟩ := s.setRf_setRf_rf (K.CUT_CTL b) (v.toNat % 2) 1 hi.1 cutCtl_separate.1
  have hx : exec (.cutCtlModeWrite b v) s = .next (s.writeCutCtl b v) := rfl
  rw [hx, State.writeCutCtl, fld_mode, if_neg hv]
  exact ⟨_, rfl, hmode.trans (Nat.mod_mod _ _), hsw, hact, by simp, by simp⟩

theorem cutCtlModeWrite_same (s : State) (b : Bid) (v : Word) (hv : v.toNat % 2 = s.rf (K.CUT_CTL b) F.CUT_CTL_MODE) :
    exec (.cutCtlModeWrite b v) s = .next s := by
  have hx : exec (.cutCtlModeWrite b v) s = .next (s.writeCutCtl b v) := rfl
  rw [hx, State.writeCutCtl, fld_mode, if_pos hv]

/-- With no CUT instruction outstanding the switch takes effect. -/
theorem cutModeSwitchDone_acts (s : State) (b : Bid) (hi : s.Inv) (hsw : s.rb (K.CUT_CTL b) F.CUT_CTL_SWITCHING = true)
    (hout : (s.bench b).outstanding 2 = []) :
    ∃ t, exec (.cutModeSwitchDone b) s = .next t
      ∧ t.rf (K.CUT_CTL b) F.CUT_CTL_MODE_ACT = s.rf (K.CUT_CTL b) F.CUT_CTL_MODE
      ∧ t.rf (K.CUT_CTL b) F.CUT_CTL_SWITCHING = 0 ∧ t.benches = s.benches ∧ t.mem = s.mem := by
  obtain ⟨hact, hclear, -⟩ := s.setRf_setRf_rf (K.CUT_CTL b) (s.rf (K.CUT_CTL b) F.CUT_CTL_MODE) 0 hi.1
    cutCtl_separate.2
  have hx : exec (.cutModeSwitchDone b) s = execCutModeSwitchDone b s := rfl
  rw [hx, execCutModeSwitchDone, if_pos (by simp [hsw, hout])]
  exact ⟨_, rfl, hact.trans (Nat.mod_eq_of_lt (fld_lt _ _ _)), hclear, by simp, by simp⟩

/-! ## ERR_BCTL (R446) -/

theorem State.writeErrBctl_change (s : State) (b : Bid) (v : Word) (hv : v.toNat % 2 ≠ s.rf (K.ERR_BCTL b) F.ERR_BCTL_MODE) :
    s.writeErrBctl b v =
      ((((s.setRf (K.ERR_BCTL b) F.ERR_BCTL_MODE (v.toNat % 2)).setRf (K.ERR_BCTL b) F.ERR_BCTL_SWITCHING 1).setQueue b 2
        (s.queue b 2 ++ [.modeSwitch (v.toNat % 2 == 1)])).setQueue b 3
        (s.queue b 3 ++ [.modeSwitch (v.toNat % 2 == 1)])) := by
  rw [State.writeErrBctl, fld_mode, if_neg hv]
  simp [State.setQueue_queue_other]

section
variable (s : State) (b : Bid) (v : Word) (hv : v.toNat % 2 ≠ s.rf (K.ERR_BCTL b) F.ERR_BCTL_MODE)
include hv

theorem State.writeErrBctl_fields (hi : s.Inv) :
    (s.writeErrBctl b v).rf (K.ERR_BCTL b) F.ERR_BCTL_MODE = v.toNat % 2
      ∧ (s.writeErrBctl b v).rf (K.ERR_BCTL b) F.ERR_BCTL_SWITCHING = 1 := by
  obtain ⟨hmode, hsw, -⟩ := s.setRf_setRf_rf (K.ERR_BCTL b) (v.toNat % 2) 1 hi.1 errBctl_separate.1
  rw [s.writeErrBctl_change b v hv]
  have hq (t : State) (l2 l3 : List QItem) (f : Fld) :
      ((t.setQueue b 2 l2).setQueue b 3 l3).rf (K.ERR_BCTL b) f = t.rf (K.ERR_BCTL b) f :=
    (State.setQueue_rf _ _ _ _ _ _).trans (State.setQueue_rf _ _ _ _ _ _)
  exact ⟨(hq _ _ _ _).trans (hmode.trans (Nat.mod_mod _ _)), (hq _ _ _ _).trans hsw⟩

/-- The switch stands behind what the queues of the arrays hold. -/
theorem State.writeErrBctl_queue (q : Fin 8) :
    (s.writeErrBctl b v).queue b q
      = s.queue b q ++ (if q = 2 ∨ q = 3 then [.modeSwitch (v.toNat % 2 == 1)] else []) := by
  rw [s.writeErrBctl_change b v hv]
  by_cases h3 : q = 3
  · subst h3; simp
  · rw [State.setQueue_queue_other _ _ _ h3]
    by_cases h2 : q = 2
    · subst h2; simp
    · rw [State.setQueue_queue_other _ _ _ h2]; simp [h2, h3]

theorem errBctlModeWrite_change (hi : s.Inv) :
    ∃ t, exec (.errBctlModeWrite b v) s = .next t ∧ t.rf (K.ERR_BCTL b) F.ERR_BCTL_MODE = v.toNat % 2
      ∧ t.rf (K.ERR_BCTL b) F.ERR_BCTL_SWITCHING = 1 ∧ t.mem = s.mem
      ∧ ∀ q, t.queue b q = s.queue b q ++ (if q = 2 ∨ q = 3 then [.modeSwitch (v.toNat % 2 == 1)] else []) := by
  obtain ⟨hmode, hsw⟩ := s.writeErrBctl_fields b v hv hi
  refine ⟨s.writeErrBctl b v, rfl, hmode, hsw, ?_, s.writeErrBctl_queue b v hv⟩
  rw [s.writeErrBctl_change b v hv, State.setQueue_mem, State.setQueue_mem, State.setRf_mem, State.setRf_mem]

end

theorem errBctlModeWrite_same (s : State) (b : Bid) (v : Word) (hv : v.toNat % 2 = s.rf (K.ERR_BCTL b) F.ERR_BCTL_MODE) :
    exec (.errBctlModeWrite b v) s = .next s := by
  have hx : exec (.errBctlModeWrite b v) s = .next (s.writeErrBctl b v) := rfl
  rw [hx, State.writeErrBctl, fld_mode, if_pos hv]

/-- A queue without a switch has nothing before one. -/
theorem beforeSwitch_none {l : List QItem} (h : ∀ m, QItem.modeSwitch m ∉ l) : beforeSwitch l = none := by
  induction l with
  | nil => rfl
  | cons i l ih =>
    have hl := ih fun m hm => h m (List.mem_cons_of_mem _ hm)
    cases i with
    | modeSwitch m => exact absurd List.mem_cons_self (h m)
    | instr e => simp [beforeSwitch, hl]
    | gate n => simp [beforeSwitch, hl]
    | freeCat n => simp [beforeSwitch, hl]

/-- With nothing before it in the queues and nothing on the arrays, the switch takes effect. -/
theorem checkModeSwitchDone_acts (s : State) (b : Bid) (hi : s.Inv) {m m' : Bool} {r2 r3 : List QItem}
    (hidle : ∀ u, (s.arr b u).jobs = []) (h2 : s.queue b 2 = .modeSwitch m :: r2) (h3 : s.queue b 3 = .modeSwitch m' :: r3)
    (hlast : ∀ x, QItem.modeSwitch x ∉ r2) :
    ∃ t, exec (.checkModeSwitchDone b) s = .next t ∧ t.queue b 2 = r2 ∧ t.queue b 3 = r3 ∧ t.mem = s.mem
      ∧ t.rb (K.ERR_BCTL b) F.ERR_BCTL_MODE_ACT = m ∧ t.rf (K.ERR_BCTL b) F.ERR_BCTL_SWITCHING = 0 := by
  let t := (s.setQueue b 2 r2).setQueue b 3 r3
  have ht : t.Canonical := hi.1
  obtain ⟨hact, hclear, -⟩ := t.setRf_setRf_rf (K.ERR_BCTL b) (if m then 1 else 0) 0 ht errBctl_separate.2
  have hjobs (u : Fin 12) : (s.bench b).arr[u.val].jobs = [] := hidle u
  have hx : exec (.checkModeSwitchDone b) s
      = .next ((t.setRf (K.ERR_BCTL b) F.ERR_BCTL_MODE_ACT (if m then 1 else 0)).setRf (K.ERR_BCTL b) F.ERR_BCTL_SWITCHING 0) := by
    change execCheckModeSwitchDone b s = _
    simp [execCheckModeSwitchDone, h2, h3, beforeSwitch, beforeSwitch_none hlast, hjobs, t]
  refine ⟨_, hx, ?_, ?_, by simp [t], ?_, hclear⟩
  · rw [State.setRf_queue, State.setRf_queue, State.setQueue_queue_other _ _ _ (by decide), State.setQueue_queue_same]
  · rw [State.setRf_queue, State.setRf_queue, State.setQueue_queue_same]
  · rw [State.rb, hact]; cases m <;> rfl

end Sys2Proof.Machine
end

section
/-! The settlement of O27. -/

open Sys2Proof Sys2Proof.Machine

/-- Settles O27, write by write and switch by switch. -/
theorem modeSwitches : Obligations.ModeSwitches := by
  unfold Obligations.ModeSwitches
  refine fun s b v hi => ⟨?_, ?_, ?_, ?_, ?_, ?_⟩
  · exact cutCtlModeWrite_change s b v hi
  · exact cutCtlModeWrite_same s b v
  · exact cutModeSwitchDone_acts s b hi
  · exact fun hv => errBctlModeWrite_change s b v hv hi
  · exact errBctlModeWrite_same s b v
  · exact fun _ _ _ _ hidle h2 h3 hlast => checkModeSwitchDone_acts s b hi hidle h2 h3 hlast

end

section
/-!
SUPPORT. Where instructions stop at issue: engine instructions on a full queue, a pending register or a mode switch, SCR.OPT outside
a COMMITTED step, and the forms of SYNC by their rules (R86, R279, R282-R284, R288, R294, R295, R319, R335).
-/

namespace Sys2Proof.Machine

/-! ## Issue -/

section
variable {s : State} {h : Issue} {n : Nat} {opcode : BitVec 10} {body : Fm → State → Disp}

theorem issue_stall (hi : s.Issues h n) (hb : body (s.fmCtx h opcode) s = .stall) : issue h n opcode body s = .next s := by
  rw [issue_eq _ _ _ _ _ hi, hb]

theorem issue_fault {c : FCode} (hi : s.Issues h n) (hb : body (s.fmCtx h opcode) s = .fault c) :
    issue h n opcode body s = .next (s.fault (s.fmCtx h opcode).at_ c) := by
  rw [issue_eq _ _ _ _ _ hi, hb]

theorem issueIf_ok {ok : Bool} (hok : ok = true) : issueIf ok h n opcode body s = issue h n opcode body s := by
  subst hok; rfl

theorem valid_ok {ok : Bool} (hok : ok = true) : valid ok body = body := by subst hok; rfl

/-- A value still to arrive in a register that the body waits for stalls it (R319). -/
theorem waitS_pending {rs : List (BitVec 5)} {r : BitVec 5} (hr : r ∈ rs) (hp : (s.fm h.bench).pendS r = true) :
    waitS rs body (s.fmCtx h opcode) s = .stall := if_pos (List.any_eq_true.mpr ⟨r, hr, hp⟩)

end

/-! ## Engine instructions (R86, R279, R319) -/

/-- A dispatch stalls on a full queue, and on a value still to arrive in a register that it names. -/
theorem dispatch_stalls {s : State} {h : Issue} {opcode : BitVec 10} {q : Fin 8} (op : EngOp) (sel : Nat)
    {ds : List (BitVec 4)} {rs : List (BitVec 5)}
    (hs : s.hasRoom h.bench q = false ∨ (∃ d ∈ ds, (s.fm h.bench).pendT d = true)
      ∨ ∃ r ∈ rs, (s.fm h.bench).pendS r = true) :
    dispatch q op sel ds rs (s.fmCtx h opcode) s = .stall := by
  have hb : (s.fmCtx h opcode).b = h.bench := rfl
  unfold dispatch
  rw [hb]
  rcases hs with hroom | ⟨d, hd, hp⟩ | ⟨r, hr, hp⟩
  · split
    · rfl
    · exact if_pos (by simp [hroom])
  · exact if_pos (Bool.or_eq_true_iff.mpr (.inl (List.any_eq_true.mpr ⟨d, hd, hp⟩)))
  · exact if_pos (Bool.or_eq_true_iff.mpr (.inr (List.any_eq_true.mpr ⟨r, hr, hp⟩)))

/-- What an instruction of queue q does at issue, whatever it names: while a mode switch is in progress a CUT.MM stalls; else it is
dispatched. -/
def EngineBody (s : State) (h : Issue) (n : Nat) (q : Fin 8) (ds : List (BitVec 4)) (rs : List (BitVec 5)) (o : Out) : Prop :=
  ∃ opcode op sel body, o = issue h n opcode body s
    ∧ body (s.fmCtx h opcode) s = if q = 2 ∧ s.rb (K.CUT_CTL h.bench) F.CUT_CTL_SWITCHING = true then .stall
        else dispatch q op sel ds rs (s.fmCtx h opcode) s

theorem EngineBody.of_dispatch {s : State} {h : Issue} {n : Nat} {q : Fin 8} {ds : List (BitVec 4)} {rs : List (BitVec 5)}
    {o : Out} (opcode : BitVec 10) (op : EngOp) (sel : Nat) (hq : q ≠ 2)
    (ho : o = issue h n opcode (dispatch q op sel ds rs) s) : EngineBody s h n q ds rs o :=
  ⟨opcode, op, sel, _, ho, by rw [if_neg fun e => hq e.1]⟩

theorem engineOf_body {i : Instr} (s : State) {h : Issue} {n : Nat} {q : Fin 8} {ds : List (BitVec 4)} {rs : List (BitVec 5)}
    (he : engineOf i = some (h, n, q, ds, rs)) (hw : i.wellFormed = true) : EngineBody s h n q ds rs (exec i s) := by
  cases i with
  | cutMm h f =>
    cases he
    have hok : mmFieldsOk false f = true := by
      simp only [Instr.wellFormed, mmOk, Bool.and_eq_true] at hw
      obtain ⟨⟨⟨⟨hdc, -⟩, -⟩, hpasses⟩, hspl⟩ := hw
      rw [mmFieldsOk, hdc, hpasses, hspl]; rfl
    refine ⟨_, .mm false f, f.usel.toNat, _, issueIf_ok hok, ?_⟩
    by_cases hsw : s.rb (K.CUT_CTL h.bench) F.CUT_CTL_SWITCHING = true
    · exact (if_pos hsw).trans (if_pos ⟨rfl, hsw⟩).symm
    · exact (if_neg hsw).trans (if_neg fun e => hsw e.2).symm
  | drsMm h f =>
    cases he
    have hok : mmFieldsOk true f = true := by
      simp only [Instr.wellFormed, mmOk, Bool.and_eq_true] at hw
      obtain ⟨⟨hdc, -⟩, -⟩ := hw
      rw [mmFieldsOk, hdc]; rfl
    exact .of_dispatch _ _ _ (by decide) (issueIf_ok hok)
  | haulSt h hsel da db remote ra perm =>
    cases he
    exact .of_dispatch _ _ _ (by decide) (issueIf_ok hw)
  | scrDcurve h ssel da db g dd slot tid =>
    cases g with
    | none => cases he; exact .of_dispatch _ _ _ (by decide) rfl
    | some g =>
      cases he
      refine .of_dispatch (opcodeOf 5 3) (.scr (.dcurve slot true) tid g.2) ssel.toNat (by decide) ?_
      change issue h 2 (opcodeOf 5 3) (valid _ _) s = _
      rw [valid_ok (by simpa [Instr.wellFormed] using hw)]
  | scrSmax h ssel da db dc dd ra mask eslot tid =>
    cases mask with
    | none => cases he; exact .of_dispatch _ _ _ (by decide) rfl
    | some m => cases he; exact .of_dispatch _ _ _ (by decide) rfl
  | _ =>
    cases he
    all_goals exact .of_dispatch _ _ _ (by decide) rfl

/-- An engine instruction that cannot be dispatched stalls: the state does not change. -/
theorem engine_stalls {i : Instr} {s : State} {h : Issue} {n : Nat} {q : Fin 8} {ds : List (BitVec 4)} {rs : List (BitVec 5)}
    (he : engineOf i = some (h, n, q, ds, rs)) (hw : i.wellFormed = true) (hi : s.Issues h n)
    (hs : s.hasRoom h.bench q = false ∨ (∃ d ∈ ds, (s.fm h.bench).pendT d = true) ∨ (∃ r ∈ rs, (s.fm h.bench).pendS r = true)
      ∨ (q = 2 ∧ s.rb (K.CUT_CTL h.bench) F.CUT_CTL_SWITCHING = true)) : exec i s = .next s := by
  obtain ⟨opcode, op, sel, body, hx, hb⟩ := engineOf_body s he hw
  rw [hx]
  refine issue_stall hi (hb.trans ?_)
  split
  · rfl
  · next hsw => exact dispatch_stalls op sel (by simpa only [hsw, or_false] using hs)

/-! ## SCR.OPT (R294, R295) -/

section
variable {s : State} {h : Issue} {da : BitVec 4} (ssel : BitVec 2) (ra : BitVec 5) (norm : Bool) (tid tid1 : BitVec 32)
  (hi : s.Issues h 2) (hda : da.toNat ≤ 9)
include hi hda

/-- It stalls while a STEP.VOTE has not retired. -/
theorem scrOpt_vote (hv : (s.fm h.bench).voteReq ≠ none) : exec (.scrOpt h ssel da ra norm tid tid1) s = .next s := by
  change execScrOpt h ssel da ra norm tid tid1 s = _
  rw [execScrOpt, valid_ok (decide_eq_true hda)]
  exact issue_stall hi (if_pos (Option.isSome_iff_ne_none.mpr hv))

/-- Outside a COMMITTED step it faults. -/
theorem scrOpt_uncommitted (hv : (s.fm h.bench).voteReq = none)
    (hph : s.rf (K.STEP_STATE h.bench) F.STEP_STATE_PHASE ≠ 3) :
    exec (.scrOpt h ssel da ra norm tid tid1) s = .next (s.fault (s.fmCtx h (opcodeOf 5 6)).at_ .optUncommitted) := by
  have hvote : s.voteOut h.bench = false := by simp [State.voteOut, hv]
  have hopt : s.optAllowed h.bench = false := by simp [State.optAllowed, hph]
  change execScrOpt h ssel da ra norm tid tid1 s = _
  rw [execScrOpt, valid_ok (decide_eq_true hda)]
  refine issue_fault hi ?_
  simp [State.fmCtx, hvote, hopt]

/-- Inside one it stalls as the engine instructions do. -/
theorem scrOpt_stalls (hph : s.rf (K.STEP_STATE h.bench) F.STEP_STATE_PHASE = 3)
    (hs : s.hasRoom h.bench 5 = false ∨ (s.fm h.bench).pendS ra = true
      ∨ ∃ k < 7, (s.fm h.bench).pendT (da + BitVec.ofNat 4 k) = true) :
    exec (.scrOpt h ssel da ra norm tid tid1) s = .next s := by
  have hopt : s.optAllowed h.bench = true := by simp [State.optAllowed, hph]
  have hd := dispatch_stalls (opcode := opcodeOf 5 6) (q := 5) (.scr (.opt norm) tid tid1) ssel.toNat
    (ds := (List.range 7).map fun i => da + BitVec.ofNat 4 i) (rs := [ra]) (s := s) (h := h) (by
      rcases hs with hroom | hra | ⟨k, hk, hp⟩
      · exact .inl hroom
      · exact .inr (.inr ⟨ra, List.mem_singleton_self ra, hra⟩)
      · exact .inr (.inl ⟨_, List.mem_map.mpr ⟨k, List.mem_range.mpr hk, rfl⟩, hp⟩))
  change execScrOpt h ssel da ra norm tid tid1 s = _
  rw [execScrOpt, valid_ok (decide_eq_true hda)]
  refine issue_stall hi ?_
  split
  · rfl
  · rw [if_neg (by simp [State.fmCtx, hopt]), hd]

end

/-! ## SYNC.SIG, SYNC.WAIT and SYNC.BAR (R282-R284, R288, R335) -/

theorem State.sigAddr_misaligned {s : State} {p : Part} {a : Word} (h : a.toNat % 16 ≠ 0) : s.sigAddr p a = some .addrAlign :=
  if_pos h

theorem State.sigAddr_outside {s : State} {p : Part} {a : Word} (h : a.toNat % 16 = 0)
    (ho : (inSram a.toNat && s.owns p (benchOf a.toNat)) = false) : s.sigAddr p a = some .addrUnmapped := by
  rw [State.sigAddr, if_neg (by simp [h]), if_neg (by simp [ho])]

theorem State.SigPlace.sigAddr {s : State} {p : Part} {a : Word} (h : s.SigPlace p a) : s.sigAddr p a = none := by
  obtain ⟨hal, hsram, hown⟩ := h
  rw [State.sigAddr, if_neg (by simp [hal]), if_pos (by simp [hsram, hown])]

section
variable {s : State} {h : Issue} {opcode : BitVec 10} {ra rb rd : BitVec 5}

theorem signalOp_badAddr (mode : BitVec 2) {c : FCode} (ha : s.Arrived h.bench [ra, rb])
    (hc : s.sigAddr ((s.partOf h.bench).getD 0) (s.sreg h ra) = some c) :
    signalOp mode ra rb (s.fmCtx h opcode) s = .fault c := by
  rw [signalOp, waitS_arrived _ _ _ _ _ ha]
  simp only [State.fmCtx]
  rw [State.sreg] at hc
  rw [hc]

/-- The buffer of signals is full. -/
theorem signalOp_full (mode : BitVec 2) (ha : s.Arrived h.bench [ra, rb])
    (hc : s.sigAddr ((s.partOf h.bench).getD 0) (s.sreg h ra) = none) (hf : 8 ≤ (s.fm h.bench).sigs.length) :
    signalOp mode ra rb (s.fmCtx h opcode) s = .stall := by
  rw [signalOp, waitS_arrived _ _ _ _ _ ha]
  simp only [State.fmCtx]
  rw [State.sreg] at hc
  rw [hc]
  exact if_pos hf

theorem waitOp_badAddr (cond : BitVec 2) (gate : BitVec 8) {c : FCode} (ha : s.Arrived h.bench [ra, rb, rd])
    (hc : s.sigAddr ((s.partOf h.bench).getD 0) (s.sreg h ra) = some c) :
    waitOp cond rd ra rb gate (s.fmCtx h opcode) s = .fault c := by
  rw [waitOp, waitS_arrived _ _ _ _ _ ha]
  simp only [State.fmCtx]
  rw [State.sreg] at hc
  rw [hc]

/-- A queue that its gates name has no room for one. -/
theorem waitOp_noRoom (cond : BitVec 2) {gate : BitVec 8} (ha : s.Arrived h.bench [ra, rb, rd])
    (hc : s.sigAddr ((s.partOf h.bench).getD 0) (s.sreg h ra) = none) (hg : s.gateRoom h.bench gate = false) :
    waitOp cond rd ra rb gate (s.fmCtx h opcode) s = .stall := by
  rw [waitOp, waitS_arrived _ _ _ _ _ ha]
  simp only [State.fmCtx]
  rw [State.sreg] at hc
  rw [hc]
  exact if_pos (by simp [hg])

end

/-- The registers of a form of SYNC have arrived where all that forms name have: its second one is `rb`, or none. -/
theorem State.Arrived.form {s : State} {b : Bid} {ra rb rd r : BitVec 5} (ha : s.Arrived b [ra, rb, rd, 0])
    (hr : r ∈ [rb, 0]) : s.Arrived b [ra, r, rd] := by
  simp only [State.Arrived, List.forall_mem_cons] at ha ⊢
  obtain ⟨hra, hrb, hrd, hzero, hnil⟩ := ha
  rw [List.mem_pair] at hr
  rcases hr with rfl | rfl
  · exact ⟨hra, hrb, hrd, hnil⟩
  · exact ⟨hra, hzero, hrd, hnil⟩

/-- The forms of SYNC.SIG at one address (R282). -/
abbrev sigForms (h : Issue) (ra rb : BitVec 5) : List Instr := [.set_ h ra rb, .sigAdd h ra rb, .clear h ra]

/-- The forms of SYNC.WAIT at one address (R284). -/
abbrev waitForms (h : Issue) (rd ra rb : BitVec 5) (gate : BitVec 8) : List Instr :=
  [.full h rd ra gate, .take h rd ra gate, .empty h rd ra gate, .ge h rd ra rb gate]

/-- Each form of SYNC.SIG is the one operation in one of its modes; CLEAR names no second register. -/
theorem exec_sigForms {h : Issue} {ra rb : BitVec 5} {i : Instr} (hi : i ∈ sigForms h ra rb) (s : State) :
    ∃ mode, ∃ r ∈ [rb, 0], exec i s = issue h 1 (opcodeOf 8 2) (signalOp mode ra r) s := by
  simp only [sigForms, List.mem_cons, List.not_mem_nil, or_false] at hi
  rcases hi with rfl | rfl | rfl
  · exact ⟨0, rb, by simp, rfl⟩
  · exact ⟨1, rb, by simp, rfl⟩
  · exact ⟨2, 0, by simp, rfl⟩

/-- Each form of SYNC.WAIT whose fields are in order is the one operation under one of its conditions. -/
theorem exec_waitForms {h : Issue} {rd ra rb : BitVec 5} {gate : BitVec 8} {i : Instr}
    (hn : gate ≠ 0 ∧ (gate.getLsbD 0 = true ∨ rd = 0)) (hi : i ∈ waitForms h rd ra rb gate) (s : State) :
    ∃ cond, ∃ r ∈ [rb, 0], exec i s = issue h 1 (opcodeOf 8 3) (waitOp cond rd ra r gate) s := by
  obtain ⟨hgate, hrd⟩ := hn
  have hx (cond : BitVec 2) (r : BitVec 5) :
      issueIf (waitFieldsOk rd gate) h 1 (opcodeOf 8 3) (valid (gate != 0) (waitOp cond rd ra r gate)) s
        = issue h 1 (opcodeOf 8 3) (waitOp cond rd ra r gate) s := by
    rw [valid_ok (by simpa using hgate), issueIf_ok (by simpa [waitFieldsOk] using hrd)]
  simp only [waitForms, List.mem_cons, List.not_mem_nil, or_false] at hi
  rcases hi with rfl | rfl | rfl | rfl
  · exact ⟨0, 0, by simp, hx 0 0⟩
  · exact ⟨1, 0, by simp, hx 1 0⟩
  · exact ⟨2, 0, by simp, hx 2 0⟩
  · exact ⟨3, rb, by simp, hx 3 rb⟩

section
variable {s : State} {h : Issue} (ra rb rd : BitVec 5) (gate : BitVec 8) (hi : s.Issues h 1)
include hi

theorem sigForms_pending (hp : (s.fm h.bench).pendS ra = true) : ∀ i ∈ sigForms h ra rb, exec i s = .next s := by
  intro i hm
  obtain ⟨mode, r, -, hx⟩ := exec_sigForms hm s
  rw [hx]
  exact issue_stall hi (waitS_pending List.mem_cons_self hp)

theorem waitForms_pending (hn : gate ≠ 0 ∧ (gate.getLsbD 0 = true ∨ rd = 0)) (hp : (s.fm h.bench).pendS ra = true) :
    ∀ i ∈ waitForms h rd ra rb gate, exec i s = .next s := by
  intro i hm
  obtain ⟨cond, r, -, hx⟩ := exec_waitForms hn hm s
  rw [hx]
  exact issue_stall hi (waitS_pending List.mem_cons_self hp)

/-- GATE 0 breaks the encoding of every form of SYNC.WAIT (R284, R334). -/
theorem waitForms_noGate : ∀ i ∈ waitForms h 0 ra rb 0,
    exec i s = .next (s.fault (s.fmCtx h (opcodeOf 8 3)).at_ .instrInvalid) := by
  intro i hm
  have hx (cond : BitVec 2) (r : BitVec 5) :
      issueIf (waitFieldsOk 0 0) h 1 (opcodeOf 8 3) (valid ((0 : BitVec 8) != 0) (waitOp cond 0 ra r 0)) s
        = .next (s.fault (s.fmCtx h (opcodeOf 8 3)).at_ .instrInvalid) :=
    (issueIf_ok rfl).trans (issue_fault hi rfl)
  simp only [waitForms, List.mem_cons, List.not_mem_nil, or_false] at hm
  rcases hm with rfl | rfl | rfl | rfl
  · exact hx 0 0
  · exact hx 1 0
  · exact hx 2 0
  · exact hx 3 rb

/-- A Bench outside BAR_MASK takes part in no barrier (R288). -/
theorem syncBar_outsider (fabric : Bool) (bid : Fin 16) (hb : s.inBarrier ((s.partOf h.bench).getD 0) h.bench = false) :
    exec (.syncBar h fabric bid gate) s = .next (s.fault (s.fmCtx h (opcodeOf 8 4)).at_ .barrierMember) := by
  change execSyncBar h fabric bid gate s = _
  exact issue_fault hi (if_pos (by simp [State.fmCtx, hb]))

variable (ha : s.Arrived h.bench [ra, rb, rd, 0])
include ha

theorem sigForms_badAddr {c : FCode} (hc : s.sigAddr ((s.partOf h.bench).getD 0) (s.sreg h ra) = some c) :
    ∀ i ∈ sigForms h ra rb, exec i s = .next (s.fault (s.fmCtx h (opcodeOf 8 2)).at_ c) := by
  intro i hm
  obtain ⟨mode, r, hr, hx⟩ := exec_sigForms hm s
  rw [hx]
  exact issue_fault hi (signalOp_badAddr mode (fun x hx => ha.form hr x (List.mem_append_left [rd] hx)) hc)

theorem sigForms_full (hc : s.sigAddr ((s.partOf h.bench).getD 0) (s.sreg h ra) = none)
    (hf : 8 ≤ (s.fm h.bench).sigs.length) : ∀ i ∈ sigForms h ra rb, exec i s = .next s := by
  intro i hm
  obtain ⟨mode, r, hr, hx⟩ := exec_sigForms hm s
  rw [hx]
  exact issue_stall hi (signalOp_full mode (fun x hx => ha.form hr x (List.mem_append_left [rd] hx)) hc hf)

variable (hn : gate ≠ 0 ∧ (gate.getLsbD 0 = true ∨ rd = 0))
include hn

theorem waitForms_badAddr {c : FCode} (hc : s.sigAddr ((s.partOf h.bench).getD 0) (s.sreg h ra) = some c) :
    ∀ i ∈ waitForms h rd ra rb gate, exec i s = .next (s.fault (s.fmCtx h (opcodeOf 8 3)).at_ c) := by
  intro i hm
  obtain ⟨cond, r, hr, hx⟩ := exec_waitForms hn hm s
  rw [hx]
  exact issue_fault hi (waitOp_badAddr cond gate (ha.form hr) hc)

theorem waitForms_noRoom (hc : s.sigAddr ((s.partOf h.bench).getD 0) (s.sreg h ra) = none)
    (hg : s.gateRoom h.bench gate = false) : ∀ i ∈ waitForms h rd ra rb gate, exec i s = .next s := by
  intro i hm
  obtain ⟨cond, r, hr, hx⟩ := exec_waitForms hn hm s
  rw [hx]
  exact issue_stall hi (waitOp_noRoom cond (ha.form hr) hc hg)

end

end Sys2Proof.Machine
end

section
/-! The settlement of O24. -/

open Sys2Proof Sys2Proof.Machine

/-- Settles O24: engine instructions, SCR.OPT, and the forms of SYNC. -/
theorem dispatchRefusals : Obligations.DispatchRefusals := by
  unfold Obligations.DispatchRefusals
  refine ⟨fun i s h n q ds rs he hw hi hs => engine_stalls he hw hi hs,
    fun s h ssel da ra norm tid tid1 hi hda => ⟨?_, ?_, ?_⟩, fun s h ra rb rd gate fabric bid hi => ⟨?_, ?_, ?_, ?_⟩⟩
  · exact scrOpt_vote ssel ra norm tid tid1 hi hda
  · exact scrOpt_uncommitted ssel ra norm tid tid1 hi hda
  · exact scrOpt_stalls ssel ra norm tid tid1 hi hda
  · exact fun hp => ⟨sigForms_pending ra rb hi hp, fun hn => waitForms_pending ra rb rd gate hi hn hp⟩
  · refine fun ha => ⟨fun hal => ?_, fun hal hout => ?_, fun hpl => ?_⟩
    · have hc := State.sigAddr_misaligned (s := s) (p := (s.partOf h.bench).getD 0) hal
      exact ⟨sigForms_badAddr ra rb rd hi ha hc, fun hn => waitForms_badAddr ra rb rd gate hi ha hn hc⟩
    · have hc := State.sigAddr_outside hal hout
      exact ⟨sigForms_badAddr ra rb rd hi ha hc, fun hn => waitForms_badAddr ra rb rd gate hi ha hn hc⟩
    · exact ⟨sigForms_full ra rb rd hi ha hpl.sigAddr, fun hn => waitForms_noRoom ra rb rd gate hi ha hn hpl.sigAddr⟩
  · exact waitForms_noGate ra rb hi
  · exact syncBar_outsider gate hi fabric bid

end

section
/-! SUPPORT. Array instructions from their queue to the front tile: the head check, the load, the start of a stream (R74, R80-R84). -/

namespace Sys2Proof.Machine

/-! ## What is left by an entry taken out of its queue -/

@[simp] theorem State.dequeue_mem (s : State) (b : Bid) (q : Fin 8) (id : Nat) : (s.dequeue b q id).mem = s.mem := by
  rw [State.dequeue, State.setQueue_mem]
@[simp] theorem State.dequeue_arr (s : State) (b c : Bid) (q : Fin 8) (id : Nat) (u : Fin 12) :
    (s.dequeue b q id).arr c u = s.arr c u := by rw [State.dequeue, State.setQueue_arr]

theorem State.dequeue_queue_other (s : State) (b : Bid) {q r : Fin 8} (id : Nat) (h : r ≠ q) :
    (s.dequeue b q id).queue b r = s.queue b r := by rw [State.dequeue, State.setQueue_queue_other _ _ _ h]

/-- No entry of that number stands in the queue any longer. -/
theorem State.id_ne_of_mem_dequeue {s : State} {b : Bid} {q : Fin 8} {id : Nat} {x : Entry}
    (h : QItem.instr x ∈ (s.dequeue b q id).queue b q) : x.id ≠ id := by
  rw [State.dequeue, State.setQueue_queue_same, List.mem_filter] at h
  simpa using h.2

/-- What a job captures leaves its instruction and its shape; a Dresser has no decode mode (R26, R74). -/
theorem State.capture_ok {s : State} {b : Bid} {u : Fin 12} {j j' : ArrJob} {bd : Desc} (h : s.capture b u j bd = .ok j') :
    j'.e = j.e ∧ j'.m = j.m ∧ j'.n = j.n ∧ j'.k = j.k ∧ (isDresser u = true → j'.decode = false) := by
  unfold State.capture at h
  dsimp only at h
  split at h
  · cases h
  · split at h
    · cases h
    · cases h
      exact ⟨rfl, rfl, rfl, rfl, fun hd => by simp [hd]⟩

/-! ## ARRAY_HEAD_CHECK and TILE_LOAD_START (R74, R80, R84, R105, R573) -/

section
variable {s : State} {b : Bid} {u : Fin 12} {e : Entry} {f : MMFields} (he : s.arrHead b u = some e) (hm : e.mm = some f)
  (hfree : s.arrFree b u = true)
include he hm hfree

section
variable (hc : (s.arr b u).checked ≠ some e.id) (hr : f.reuse = true → (s.arr b u).load = none ∧ (s.arr b u).back = none)
include hc hr

/-- An instruction not yet checked, whose tile is in front under REUSE, is checked. -/
theorem execArrayHeadCheck_eq : execArrayHeadCheck b u s =
    ((firstFault (s.arrayChecks b u (mkJob e f (s.arr b u).front) (s.arr b u).front)).elim
      (.next (s.setArr b u { s.arr b u with checked := some e.id }))
      fun c => .next (s.fault (e.at_ b (arrQueue u) (arrNum u)) c)) := by
  have hwait : ¬ (f.reuse && ((s.arr b u).load.isSome || (s.arr b u).back.isSome)) = true := by
    intro hw
    rw [Bool.and_eq_true] at hw
    obtain ⟨hload, hback⟩ := hr hw.1
    simp [hload, hback] at hw
  rw [execArrayHeadCheck, he]
  dsimp only
  rw [hm]
  dsimp only
  rw [if_neg (by simp [hfree, hc]), if_neg hwait]
  cases firstFault (s.arrayChecks b u (mkJob e f (s.arr b u).front) (s.arr b u).front) <;> rfl

theorem arrayHeadCheck_passes
    (hff : firstFault (s.arrayChecks b u (mkJob e f (s.arr b u).front) (s.arr b u).front) = none) :
    exec (.arrayHeadCheck b u) s = .next (s.setArr b u { s.arr b u with checked := some e.id }) := by
  change execArrayHeadCheck b u s = _
  rw [execArrayHeadCheck_eq he hm hfree hc hr, hff, Option.elim_none]

theorem arrayHeadCheck_faults {c : FCode}
    (hff : firstFault (s.arrayChecks b u (mkJob e f (s.arr b u).front) (s.arr b u).front) = some c) :
    exec (.arrayHeadCheck b u) s = .next (s.fault (e.at_ b (arrQueue u) (arrNum u)) c) := by
  change execArrayHeadCheck b u s = _
  rw [execArrayHeadCheck_eq he hm hfree hc hr, hff, Option.elim_some]

end

/-- A checked instruction whose first load group is there leaves its queue and loads. -/
theorem tileLoadStart_loads (hc : (s.arr b u).checked = some e.id) (hr : f.reuse = false) (hload : (s.arr b u).load = none)
    (hback : (s.arr b u).back = none)
    (hfull : (tensorOf e.descB).feRd ≠ 2 → ∀ w ∈ firstGroup (tensorOf e.descB) f.tb (fld (e.r 1) 21 21) (fld (e.r 0) 11 9)
      (fld (e.r 1) 42 21) (fld (e.r 0) 20 10), inSram (16 * w) = true → s.full w = true)
    {j : ArrJob} (hj : s.capture b u (mkJob e f none) e.descB = .ok j) :
    ∃ t, exec (.tileLoadStart b u) s = .next t ∧ t.mem = s.mem ∧ (t.arr b u).load = some j
      ∧ (isDresser u = true → j.decode = false) ∧ j.m = fld (e.r 0) 0 11 ∧ j.n = fld (e.r 0) 11 9 ∧ j.k = fld (e.r 0) 20 10
      ∧ j.e = e ∧ (∀ x, QItem.instr x ∈ t.queue b (arrQueue u) → x.id ≠ e.id)
      ∧ ∀ r, r ≠ arrQueue u → t.queue b r = s.queue b r := by
  obtain ⟨hje, hjm, hjn, hjk, hjd⟩ := State.capture_ok hj
  have hthere : ¬ ((tensorOf e.descB).feRd != 2 && (firstGroup (tensorOf e.descB) f.tb (mkJob e f none).n0 (mkJob e f none).n
      (mkJob e f none).k0 (mkJob e f none).k).any fun w => inSram (16 * w) && !s.full w) = true := by
    intro h
    rw [Bool.and_eq_true, List.any_eq_true] at h
    obtain ⟨hfe, w, hw, hwait⟩ := h
    rw [Bool.and_eq_true, Bool.not_eq_true'] at hwait
    have := hfull (by simpa using hfe) w hw hwait.1
    rw [hwait.2] at this
    cases this
  change ∃ t, execTileLoadStart b u s = .next t ∧ _
  rw [execTileLoadStart, he]
  dsimp only
  rw [hm]
  dsimp only
  rw [if_neg (by simp [hfree, hc, hr, hload, hback]), if_neg hthere, hj]
  refine ⟨_, rfl, ?_, ?_, hjd, hjm, hjn, hjk, hje, fun x hx => ?_, fun r hr => ?_⟩
  · rw [State.countB_mem, State.dequeue_mem, State.setArr_mem]
  · rw [State.countB_arr, State.dequeue_arr, State.setArr_arr_same]
  · rw [State.countB_queue] at hx
    exact State.id_ne_of_mem_dequeue hx
  · rw [State.countB_queue, State.dequeue_queue_other _ _ _ hr, State.setArr_queue]

end

/-! ## TILE_LOAD_DONE and STREAM_START (R80, R81, R85, R108, R445) -/

/-- With every word read the tile is ready in the back buffer; it is poisoned where a word of it is. -/
theorem tileLoadDone_ready {s : State} {b : Bid} {u : Fin 12} {j : ArrJob} {g : Tab Got} {s' : State}
    (hload : (s.arr b u).load = some j)
    (hread : State.readAll (j.who s b u) (s.arr b u).loadReads (s.arr b u).loadGot s = (.ok g s', [])) :
    ∃ t tile, exec (.tileLoadDone b u) s = .next t ∧ t.mem = s'.mem ∧ (t.arr b u).load = none
      ∧ (t.arr b u).back = some (j, tile) ∧ tile.cols = tileCols (tensorOf j.e.descB) j g ∧ tile.n = j.n ∧ tile.k = j.k
      ∧ (tile.poison = true ↔ ∃ x ∈ g, x.2.poison = true) := by
  change ∃ t tile, execTileLoadDone b u s = .next t ∧ _
  rw [execTileLoadDone]
  dsimp only
  rw [hload]
  dsimp only
  rw [hread]
  refine ⟨_, _, rfl, by rw [State.setArr_mem], by rw [State.setArr_arr_same], by rw [State.setArr_arr_same], ?_⟩
  exact ⟨rfl, rfl, rfl, List.any_eq_true⟩

/-- An even array's partner is another array (R445). -/
theorem partner_ne {u : Fin 12} (h : u.val % 2 = 0) : partner u ≠ u := by
  intro e
  have := congrArg Fin.val e
  rw [partner, if_pos (by omega)] at this
  simp only at this
  omega

/-- With no stream the back tile comes to the front, in PAIR mode on both arrays, and its stream begins. -/
theorem streamStart_front {s : State} {b : Bid} {u : Fin 12} {j : ArrJob} {tile : Tile} (hs : (s.arr b u).stream = none)
    (hback : (s.arr b u).back = some (j, tile)) (hpair : j.pair = true → u.val % 2 = 0) :
    ∃ t, exec (.streamStart b u) s = .next t ∧ t.mem = s.mem ∧ (t.arr b u).front = some tile ∧ (t.arr b u).back = none
      ∧ (t.arr b u).stream = some j ∧ (t.arr b u).frontIdx = !(s.arr b u).frontIdx
      ∧ (t.arr b u).lastPasses = j.f.passes.toNat
      ∧ (j.pair = true → (t.arr b (partner u)).front = some tile
        ∧ (t.arr b (partner u)).lastPasses = j.f.passes.toNat) := by
  have hx : exec (.streamStart b u) s = .next (s.toFront b u j tile (s.arr b u)) := by
    change execStreamStart b u s = _
    rw [execStreamStart]
    dsimp only
    rw [if_neg (by simp [hs]), hback]
  refine ⟨_, hx, ?_⟩
  by_cases hp : j.pair = true
  · have hne := partner_ne (hpair hp)
    simp [State.toFront, hp, State.setArr_arr_other _ _ _ hne.symm]
  · simp [State.toFront, hp]

end Sys2Proof.Machine
end

section
/-! The settlement of O25. -/

open Sys2Proof Sys2Proof.Machine

/-- Settles O25: the check, the load, the tile and the stream. -/
theorem arrayTiles : Obligations.ArrayTiles := by
  unfold Obligations.ArrayTiles
  refine fun s b u => ⟨fun e f he hm hfree => ⟨fun hc hr => ⟨?_, fun c => ?_⟩, ?_⟩, ?_, ?_⟩
  · exact arrayHeadCheck_passes he hm hfree hc hr
  · exact arrayHeadCheck_faults he hm hfree hc hr
  · exact fun hc hr hload hback hfull j hj => tileLoadStart_loads he hm hfree hc hr hload hback hfull hj
  · exact fun j g s' hload hread => tileLoadDone_ready hload hread
  · exact fun j tile hs hback hpair => streamStart_front hs hback hpair

end

section
/-!
SUPPORT. An accumulator with a row's results put in or added, and memory after an instruction's stores to Bench SRAM (R75, R78, R98,
R210, R212).
-/

namespace Sys2Proof.Machine

/-! ## A key of a table written, whatever the order of its entries -/

section
variable {α : Type} (d : α) (t : Tab α) (v : α)

theorem tget_tput_same (a : Nat) : tget d (tput t a v) a = v := by
  induction t with
  | nil => simp [tput, tget]
  | cons e rest ih =>
    obtain ⟨n, w⟩ := e
    simp only [tput]
    split
    · next hlt => rw [tget, if_neg (by omega), ih]
    · split <;> simp [tget]

theorem tget_tput_other {a k : Nat} (h : a ≠ k) : tget d (tput t a v) k = tget d t k := by
  induction t with
  | nil => simp [tput, tget, h]
  | cons e rest ih =>
    obtain ⟨n, w⟩ := e
    simp only [tput]
    split
    · rw [tget, tget, ih]
    · split
      · next heq => subst heq; rw [tget, tget, if_neg h, if_neg h]
      · rw [tget, if_neg h]

theorem tget_tset_same [DecidableEq α] (a : Nat) : tget d (tset d t a v) a = v := by
  unfold tset
  split
  · next hv => rw [tdrop, tget_filter d t (fun n => n != a), if_neg (by simp), hv]
  · exact tget_tput_same d t v a

theorem tget_tset_other [DecidableEq α] {a k : Nat} (h : a ≠ k) : tget d (tset d t a v) k = tget d t k := by
  unfold tset
  split
  · rw [tdrop, tget_filter d t (fun n => n != a), if_pos (by simpa using h.symm)]
  · exact tget_tput_other d t v h

end

/-! ## A row of the accumulator (R75, R98) -/

/-- What an accumulator word holds after an update with a tree result: their sum with ACC, else the result. -/
def accWord (acc : Bool) (old new : BitVec 32) : BitVec 32 :=
  if acc then BitVec.ofNat 32 (enc32 ((dec32 old.toNat).add (dec32 new.toNat))) else new

/-- One word of a row updated. -/
def putAcc (acc : Bool) (row : Nat) (t : Tab (BitVec 32)) (e : BitVec 32 × Nat) : Tab (BitVec 32) :=
  tset 0 t (row * 256 + e.2) (accWord acc (tget 0 t (row * 256 + e.2)) e.1)

theorem ArrayUnit.update_acc (a : ArrayUnit) (acc : Bool) (row : Nat) (ts : List (BitVec 32)) (bad : Bool) :
    (a.update acc row ts bad).acc = ts.zipIdx.foldl (putAcc acc row) a.acc := rfl

/-- Updates of other words leave a word. -/
theorem tget_foldl_putAcc_other (acc : Bool) (row k : Nat) (l : List (BitVec 32 × Nat)) (t : Tab (BitVec 32))
    (h : ∀ e ∈ l, row * 256 + e.2 ≠ k) : tget 0 (l.foldl (putAcc acc row) t) k = tget 0 t k := by
  induction l generalizing t with
  | nil => rfl
  | cons e l ih =>
    rw [List.foldl_cons, ih _ fun x hx => h x (List.mem_cons_of_mem _ hx), putAcc,
      tget_tset_other _ _ _ (h e List.mem_cons_self)]

/-- The word of each column takes its result. -/
theorem tget_foldl_putAcc (acc : Bool) (row : Nat) (ts : List (BitVec 32)) (n c : Nat) (t : Tab (BitVec 32))
    (hc : c < ts.length) :
    tget 0 ((ts.zipIdx n).foldl (putAcc acc row) t) (row * 256 + (n + c))
      = accWord acc (tget 0 t (row * 256 + (n + c))) (ts.getD c 0) := by
  induction ts generalizing n c t with
  | nil => exact absurd hc (Nat.not_lt_zero _)
  | cons x ts ih =>
    rw [List.zipIdx_cons, List.foldl_cons]
    cases c with
    | zero =>
      rw [tget_foldl_putAcc_other, putAcc, Nat.add_zero, tget_tset_same, List.getD_cons_zero]
      intro e he
      have := List.le_snd_of_mem_zipIdx he
      omega
    | succ c =>
      have hi := ih (n + 1) c (putAcc acc row t (x, n)) (by simpa using hc)
      rw [show n + 1 + c = n + (c + 1) by omega] at hi
      rw [hi, putAcc, tget_tset_other _ _ _ (by simp only; omega), List.getD_cons_succ]

section
variable (a : ArrayUnit) (acc : Bool) (row : Nat) (ts : List (BitVec 32)) (bad : Bool)

theorem ArrayUnit.tget_update {c : Nat} (hc : c < ts.length) :
    tget 0 (a.update acc row ts bad).acc (row * 256 + c) = accWord acc (tget 0 a.acc (row * 256 + c)) (ts.getD c 0) := by
  have h := tget_foldl_putAcc acc row ts 0 c a.acc hc
  rw [Nat.zero_add] at h
  rw [ArrayUnit.update_acc, h]

/-- A row has at most 256 words, so the other rows stand. -/
theorem ArrayUnit.tget_update_other (hl : ts.length ≤ 256) {k : Nat} (hk : k / 256 ≠ row) :
    tget 0 (a.update acc row ts bad).acc k = tget 0 a.acc k := by
  rw [ArrayUnit.update_acc, tget_foldl_putAcc_other]
  intro e he
  have := List.snd_lt_of_mem_zipIdx he
  omega

/-- A row updated badly is poisoned (R442). -/
theorem ArrayUnit.not_mem_good_update : row ∉ (a.update acc row ts true).good := by
  simp [ArrayUnit.update]

end

/-- A row has as many results as its tile has columns. -/
theorem length_rowCompute (dresser : Bool) (j : ArrJob) (fa fb : Nat) (as : List X) (tile : Tile)
    (flip : Option (Nat × BitVec 32)) : (rowCompute dresser j fa fb as tile flip).ts.length = tile.cols.length := by
  simp [rowCompute]

/-! ## Memory and arrays behind the operations of an update and a drain -/

@[simp] theorem State.errVote_mem (s : State) (b : Bid) (v : Vote) : (s.errVote b v).mem = s.mem := by
  unfold State.errVote
  split
  · rfl
  · split
    · rw [State.onBench_mem]
    · rfl

@[simp] theorem State.checkEvent_mem (s : State) (b : Bid) (u : Fin 12) (j : ArrJob) (level event : Nat)
    (rc : Option (Nat × Nat)) (syn : Word) : (s.checkEvent b u j level event rc syn).mem = s.mem := by
  rw [State.checkEvent, State.errVote_mem, State.emit_mem]

/-- What an operation leaves, many of them leave. -/
theorem foldl_leaves {α β : Type} (π : State → β) {f : State → α → State} (hf : ∀ s x, π (f s x) = π s) (l : List α)
    (s : State) : π (l.foldl f s) = π s := by
  induction l generalizing s with
  | nil => rfl
  | cons x xs ih => rw [List.foldl_cons, ih, hf]

@[simp] theorem State.onBench_after_arr (s : State) (b c : Bid) (t : Bench → Tab Word) (u : Fin 12) :
    (s.onBench b fun x => { x with after := t x }).arr c u = s.arr c u := by
  rw [State.arr, State.onBench_bench]
  split
  · next h => subst h; rfl
  · rfl

/-- Tally counts write registers, and the counts that later evaluations take (R140, R146). -/
theorem State.tally_leaves {β : Type} (π : State → β) (s : State) (b : Bid) (id cls : Nat) (e : Ev)
    (hreg : ∀ s k v, π (State.setReg s k v) = π s)
    (hafter : ∀ (s : State) (t : Bench → Tab Word), π (s.onBench b fun x => { x with after := t x }) = π s) :
    π (s.tally b id cls e) = π s := by
  have hcounts (l : List (Nat × Nat)) :
      π (l.foldl (fun s x => State.count s (K.TALLY b cls x.2) x.1) s) = π s := foldl_leaves π (fun s _ => hreg s _ _) l s
  unfold State.tally
  dsimp only
  split
  · split
    · exact (hreg _ _ _).trans (hcounts _)
    · exact hcounts _
  · exact (hafter _ _).trans (hcounts _)

@[simp] theorem State.tally_mem (s : State) (b : Bid) (id cls : Nat) (e : Ev) : (s.tally b id cls e).mem = s.mem :=
  s.tally_leaves State.mem b id cls e State.setReg_mem fun _ _ => rfl

@[simp] theorem State.tally_arr (s : State) (b c : Bid) (id cls : Nat) (e : Ev) (u : Fin 12) :
    (s.tally b id cls e).arr c u = s.arr c u :=
  s.tally_leaves (fun s => s.arr c u) b id cls e (fun s k v => by simp only [State.arr, State.setReg_bench])
    fun s t => s.onBench_after_arr b c t u

@[simp] theorem State.slotCount_mem (s : State) (b : Bid) (mark : BitVec 32) (k n : Nat) :
    (s.slotCount b mark k n).mem = s.mem :=
  State.slotCount_of (P := fun t => t.mem = s.mem) (fun t v _ _ h => (t.setReg_mem _ v).trans h) mark n rfl

@[simp] theorem State.memStat_mem (s : State) (wn i : Nat) : (s.memStat wn i).mem = s.mem := by
  unfold State.memStat
  dsimp only
  split <;> rw [State.setRf_mem]

@[simp] theorem State.memEvent_mem (s : State) (wn event : Nat) (syn : Word) : (s.memEvent wn event syn).mem = s.mem := by
  rw [State.memEvent, State.emit_mem]

@[simp] theorem State.noteFault_mem (s : State) (r : RecInfo) : (s.noteFault r).mem = s.mem := rfl
@[simp] theorem State.drawWord_mem (s : State) : s.drawWord.2.mem = s.mem := rfl

/-- A word that a request reads is decoded, and its bytes stand (R208). -/
@[simp] theorem State.decodeWord_mem (s : State) (wn : Nat) (u : Upset) : (s.decodeWord wn u).mem = s.mem := by
  unfold State.decodeWord
  dsimp only
  split
  · split <;> simp
  · split
    · rfl
    · rfl
    · split <;> [split; split] <;> simp [apply_ite State.mem]
    · split <;> simp

/-! ## Stores to Bench SRAM -/

theorem State.putWord_mget (s : State) (wn k : Nat) (d m : Line16) (hm : Memory.wf s.mem) (hk : k / 16 ≠ wn) :
    mget (s.putWord wn d m).mem k = mget s.mem k := by
  rw [State.putWord, mget_mwrite_outside _ _ _ _ hm (by rw [length_toBytes]; omega)]

/-- A word written changes no byte outside it. -/
theorem State.writeWord_mget {s t : State} {r : WrReq} {x : Unit} (hm : Memory.wf s.mem) (h : s.writeWord r = .ok x t)
    {k : Nat} (hk : k / 16 ≠ r.word) : mget t.mem k = mget s.mem k := by
  unfold State.writeWord at h
  dsimp only at h
  split at h
  · cases h
  · cases h
    have hdec : (if decide (r.mask = allBits) = true then s else s.decodeWord r.word .clean).mem = s.mem := by
      split <;> simp
    rw [State.setMark_mem, State.putWord_mget _ _ _ _ _ (by rwa [hdec]) hk, hdec]

/-- A store to a word of Bench SRAM changes no byte outside it. -/
theorem State.store_sram_mget {s t : State} {w : Who} {r : WrReq} {x : Unit} (hm : Memory.wf s.mem)
    (hs : inSram (16 * r.word) = true) (h : s.store w r = .ok x t) {k : Nat} (hk : k / 16 ≠ r.word) :
    mget t.mem k = mget s.mem k := by
  unfold State.store at h
  dsimp only at h
  split at h
  · cases h
  · rw [hs, Bool.not_true, Bool.false_and, if_neg Bool.false_ne_true] at h
    split at h
    · next t' hw =>
      cases h
      rw [← State.writeWord_mget hm hw hk]
      split <;> simp
    · cases h

/-- Stores to words of Bench SRAM, one after the other, change no byte outside them. -/
theorem State.writeSeq_sram_mget {w : Who} {l : List WrReq} {s t : State} {x : Unit} (hi : s.Inv)
    (hs : ∀ r ∈ l, inSram (16 * r.word) = true) (h : State.writeSeq w l s = (.ok x t, [])) {k : Nat}
    (hk : ∀ r ∈ l, k / 16 ≠ r.word) : mget t.mem k = mget s.mem k := by
  induction l generalizing s with
  | nil => cases h; rfl
  | cons r l ih =>
    rw [State.writeSeq] at h
    split at h
    · next y s' hst =>
      have hi' : s'.Inv := (PerfKeeps.getOk hst (State.store_keeps (Keeps.refl s))).inv hi
      rw [ih hi' (fun x hx => hs x (List.mem_cons_of_mem _ hx)) h fun x hx => hk x (List.mem_cons_of_mem _ hx),
        State.store_sram_mget hi.1.1 (hs r List.mem_cons_self) hst (hk r List.mem_cons_self)]
    · cases h
    · cases h

/-- The same, with the slots charged (R254). -/
theorem State.writeAll_sram_mget {w : Who} {l : List WrReq} {s t : State} {x : Unit} (hi : s.Inv)
    (hs : ∀ r ∈ l, inSram (16 * r.word) = true) (h : State.writeAll w l s = (.ok x t, [])) {k : Nat}
    (hk : ∀ r ∈ l, k / 16 ≠ r.word) : mget t.mem k = mget s.mem k := by
  unfold State.writeAll at h
  obtain ⟨hmap, hrest⟩ := Prod.mk.inj h
  cases hseq : State.writeSeq w l s with
  | mk p rest =>
    rw [hseq] at hmap hrest
    simp only at hmap hrest
    subst hrest
    cases p with
    | ok y s' =>
      cases hmap
      rw [State.charge_mem, State.writeSeq_sram_mget hi hs hseq hk]
    | wait s' => cases hmap
    | refused s' => cases hmap

end Sys2Proof.Machine
end

section
/-! SUPPORT. Rows updated and drained, and instructions that complete (R75, R78, R79, R85, R98, R101, R270, R442, R445). -/

namespace Sys2Proof.Machine

/-! ## ACCUM_ROW_UPDATE -/

/-- An array whose streamed row has been updated: its accumulator, and how far its stream has come. -/
def ArrayUnit.rowDone (a : ArrayUnit) (j : ArrJob) (g : Tab Got) (ts : List (BitVec 32)) (bad : Bool) : ArrayUnit :=
  let j' := { j with updated := j.updated + 1 }
  let last := decide (j.m ≤ j.updated + 1)
  { a.update j.f.acc (j.a0 + j.updated) ts bad with
    rowReads := [], rowGot := if last then [] else g, rowPlanned := false, parked := false
    stream := if last then none else some j'
    drains := if last then a.drains ++ [j'] else a.drains }

theorem ArrayUnit.rowDone_acc (a : ArrayUnit) (j : ArrJob) (g : Tab Got) (ts : List (BitVec 32)) (bad : Bool) :
    (a.rowDone j g ts bad).acc = (a.update j.f.acc (j.a0 + j.updated) ts bad).acc := rfl
theorem ArrayUnit.rowDone_good (a : ArrayUnit) (j : ArrJob) (g : Tab Got) (ts : List (BitVec 32)) (bad : Bool) :
    (a.rowDone j g ts bad).good = (a.update j.f.acc (j.a0 + j.updated) ts bad).good := rfl

/-- A row's results put into the array and, in PAIR mode, into its partner. -/
def State.putRow (s : State) (b : Bid) (u : Fin 12) (j : ArrJob) (g : Tab Got) (a : ArrayUnit) (ts : List (BitVec 32))
    (bad : Bool) : State :=
  let t := s.setArr b u (a.rowDone j g ts bad)
  if j.pair then t.setArr b (partner u) ((t.arr b (partner u)).update j.f.acc (j.a0 + j.updated) ts bad) else t

section
variable {s : State} {b : Bid} {u : Fin 12} {j : ArrJob} {tile : Tile} {g : Tab Got} {s' : State}
  (hstream : (s.arr b u).stream = some j) (hfront : (s.arr b u).front = some tile) (hm : j.updated < j.m)
  (hheld : (s.arr b u).held (j.a0 + j.updated) = false) (hcore : s.coreStopped b (arrClass u) (arrNum u) = false)
  (hread : State.readAll (j.who s b u) (if (s.arr b u).rowPlanned then (s.arr b u).rowReads else planReads j.memClass
      (tensorOf j.e.descA) ((List.range j.k).map fun x => opIndex j.f.ta (j.m0 + j.updated) (j.k0 + x)) (s.arr b u).rowGot)
    (s.arr b u).rowGot s = (.ok g s', []))
include hstream hfront hm hheld hcore hread

/-- With the row's words read and no upset, the row's results are put and counted; records of failed checks change no memory. -/
theorem accumRowUpdate_puts : ∃ (r : State) (bad : Bool) (n m k : Nat), r.mem = s'.mem ∧ (tile.poison = true → bad = true)
    ∧ exec (.accumRowUpdate b u none) s = .next (((r.putRow b u j g (s.arr b u) (rowCompute (isDresser u) j
        (tensorOf j.e.descA).fmt (tensorOf tile.desc).fmt (rowValues (tensorOf j.e.descA) j.tabA j j.updated g) tile none).ts
        bad).countB b n 1).countB b m k) := by
  obtain ⟨o, ho⟩ : ∃ o, o = execAccumRowUpdate b u none s := ⟨_, rfl⟩
  change ∃ (r : State) (bad : Bool) (n m k : Nat), _ ∧ _ ∧ execAccumRowUpdate b u none s = _
  rw [← ho]
  rw [execAccumRowUpdate, hstream, hfront] at ho
  dsimp -zeta only at ho
  extract_lets -underBinder r d ta fb ixs reads at ho
  have h3 : ¬ (decide (j.m ≤ r) || (s.arr b u).held (j.a0 + r) || s.coreStopped b (arrClass u) (arrNum u)) = true := by
    simp [r, hheld, hcore, hm]
  rw [if_neg h3] at ho
  have h4 : State.readAll (j.who s b u) reads (s.arr b u).rowGot s = (.ok g s', []) := hread
  rw [h4] at ho
  dsimp -zeta only at ho
  rw [if_neg (by simp)] at ho
  extract_lets -underBinder poisoned as flip main other residue differs bad s1 s2 s3 col s4 j' last a0 a1 s5 po s6 mis s7 at ho
  have hs2 : s2.mem = s'.mem := by dsimp only [s2, s1]; split <;> simp
  have hs3 : s3.mem = s2.mem := by dsimp only [s3]; split <;> simp
  have hs4 : s4.mem = s3.mem := by dsimp only [s4]; split <;> simp
  have hs6 : s6 = s4.putRow b u j g (s.arr b u) main.ts bad := rfl
  have hs7 : s7 = s6.countB b (if d then 20 + 3 * arrNum u + j.f.passes.toNat else 4 + arrNum u) 1 :=
    (apply_ite (fun n => s6.countB b n 1) (d = true) _ _).symm
  have hx : o = .next (((s4.putRow b u j g (s.arr b u) main.ts bad).countB b
      (if d then 20 + 3 * arrNum u + j.f.passes.toNat else 4 + arrNum u) 1).countB b (arrCounter u 8 44) mis) := by
    rw [ho, hs7, hs6]
  exact ⟨s4, bad, _, _, _, hs4.trans (hs3.trans hs2), fun hp => by simp [bad, poisoned, hp], hx⟩

end

section
variable (s : State) (b : Bid) {u : Fin 12} {j : ArrJob} (g : Tab Got) (a : ArrayUnit) (ts : List (BitVec 32)) (bad : Bool)

theorem State.putRow_mem : (s.putRow b u j g a ts bad).mem = s.mem := by
  unfold State.putRow
  dsimp only
  split <;> simp

variable (hpair : j.pair = true → u.val % 2 = 0)
include hpair

theorem State.putRow_arr : (s.putRow b u j g a ts bad).arr b u = a.rowDone j g ts bad := by
  unfold State.putRow
  dsimp only
  split
  · next hp => rw [State.setArr_arr_other _ _ _ (partner_ne (hpair hp)).symm, State.setArr_arr_same]
  · rw [State.setArr_arr_same]

/-- In PAIR mode the partner takes the same results (R445). -/
theorem State.putRow_arr_partner (hp : j.pair = true) : (s.putRow b u j g a ts bad).arr b (partner u)
    = (s.arr b (partner u)).update j.f.acc (j.a0 + j.updated) ts bad := by
  unfold State.putRow
  dsimp only
  rw [if_pos hp, State.setArr_arr_same, State.setArr_arr_other _ _ _ (partner_ne (hpair hp))]

end

/-- The row's results stand in its accumulator row, and in PAIR mode in the partner's; no other row changes, and the stream goes on or
has ended. -/
theorem accumRowUpdate_row {s : State} {b : Bid} {u : Fin 12} {j : ArrJob} {tile : Tile} {g : Tab Got} {s' : State}
    (hstream : (s.arr b u).stream = some j) (hfront : (s.arr b u).front = some tile) (hm : j.updated < j.m)
    (hheld : (s.arr b u).held (j.a0 + j.updated) = false) (hpair : j.pair = true → u.val % 2 = 0)
    (hcols : tile.cols.length ≤ 256) (hcore : s.coreStopped b (arrClass u) (arrNum u) = false)
    (hread : State.readAll (j.who s b u) (if (s.arr b u).rowPlanned then (s.arr b u).rowReads else planReads j.memClass
        (tensorOf j.e.descA) ((List.range j.k).map fun x => opIndex j.f.ta (j.m0 + j.updated) (j.k0 + x)) (s.arr b u).rowGot)
      (s.arr b u).rowGot s = (.ok g s', [])) :
    let row := j.a0 + j.updated
    let out := rowCompute (isDresser u) j (tensorOf j.e.descA).fmt (tensorOf tile.desc).fmt
      (rowValues (tensorOf j.e.descA) j.tabA j j.updated g) tile none
    ∃ t, exec (.accumRowUpdate b u none) s = .next t ∧ t.mem = s'.mem
      ∧ (∀ c < tile.cols.length, tget 0 (t.arr b u).acc (row * 256 + c)
          = accWord j.f.acc (tget 0 (s.arr b u).acc (row * 256 + c)) (out.ts.getD c 0))
      ∧ (∀ k, k / 256 ≠ row → tget 0 (t.arr b u).acc k = tget 0 (s.arr b u).acc k)
      ∧ (tile.poison = true → row ∉ (t.arr b u).good)
      ∧ (j.updated + 1 < j.m → (t.arr b u).stream = some { j with updated := j.updated + 1 })
      ∧ (j.updated + 1 = j.m → (t.arr b u).stream = none
        ∧ (t.arr b u).drains = (s.arr b u).drains ++ [{ j with updated := j.updated + 1 }])
      ∧ (j.pair = true → ∀ c < tile.cols.length, j.f.acc = false →
          tget 0 (t.arr b (partner u)).acc (row * 256 + c) = out.ts.getD c 0) := by
  obtain ⟨r, bad, n, m, k, hr, hbad, hx⟩ := accumRowUpdate_puts hstream hfront hm hheld hcore hread
  intro row out
  have hlen : out.ts.length = tile.cols.length := length_rowCompute _ _ _ _ _ _ _
  refine ⟨_, hx, ?_, ?_⟩
  · rw [State.countB_mem, State.countB_mem, State.putRow_mem, hr]
  · simp only [State.countB_arr, State.putRow_arr r b g (s.arr b u) _ bad hpair, ArrayUnit.rowDone_acc, ArrayUnit.rowDone_good]
    refine ⟨fun c hc => ?_, fun k hk => ?_, fun hp => ?_, fun hlt => ?_, fun hlast => ?_, fun hp c hc hacc => ?_⟩
    · exact ArrayUnit.tget_update _ _ _ _ _ (hlen.symm ▸ hc)
    · exact ArrayUnit.tget_update_other _ _ _ _ _ (hlen.symm ▸ hcols) hk
    · rw [hbad hp]
      exact ArrayUnit.not_mem_good_update _ _ _ _
    · exact if_neg (by simpa using hlt)
    · exact ⟨if_pos (by simp [hlast]), if_pos (by simp [hlast])⟩
    · rw [State.putRow_arr_partner r b g (s.arr b u) _ bad hpair hp, ArrayUnit.tget_update _ _ _ _ _ (hlen.symm ▸ hc), hacc]
      rfl

/-! ## ACCUM_DRAIN_ROW -/

/-- With its words written, the row has drained: no byte outside them changes, and the accumulator stands. -/
theorem accumDrainRow_writes {s : State} {b : Bid} {u : Fin 12} {j : ArrJob} {s' : State} (hi : s.Inv)
    (hj : (s.arr b u).drainJob = some j) {ws : List WrReq}
    (hws : ws = if (s.arr b u).drainPlanned then (s.arr b u).drainWrites
      else drainWrites (tensorOf j.e.descDrain) j j.drained (s.arr b u))
    (hsram : ∀ w ∈ ws, inSram (16 * w.word) = true) (hwrite : State.writeAll (j.who s b u) ws s = (.ok () s', [])) :
    ∃ t, exec (.accumDrainRow b u) s = .next t ∧ t.mem = s'.mem
      ∧ (∀ k, (∀ w ∈ ws, k / 16 ≠ w.word) → mget t.mem k = mget s.mem k)
      ∧ (t.arr b u).acc = (s.arr b u).acc
      ∧ ∀ x ∈ (t.arr b u).drains ++ (t.arr b u).stream.toList, x.e.id = j.e.id → x.drained = j.drained + 1 := by
  let step (x : ArrJob) : ArrJob := if x.e.id = j.e.id then { x with drained := j.drained + 1 } else x
  let a1 : ArrayUnit := { s.arr b u with
    drainWrites := [], drainPlanned := false, parked := false
    drains := (s.arr b u).drains.map step, stream := (s.arr b u).stream.map step }
  have hx : ∃ t, exec (.accumDrainRow b u) s = .next t ∧ t.mem = s'.mem ∧ t.arr b u = a1 := by
    change ∃ t, execAccumDrainRow b u s = .next t ∧ _
    rw [execAccumDrainRow, hj]
    dsimp only
    rw [← hws, hwrite]
    refine ⟨_, rfl, ?_⟩
    split
    · exact ⟨by rw [State.setArr_mem], by rw [State.setArr_arr_same]⟩
    · exact ⟨by rw [State.tally_mem, State.setArr_mem], by rw [State.tally_arr, State.setArr_arr_same]⟩
  obtain ⟨t, hx, hmem, harr⟩ := hx
  refine ⟨t, hx, hmem, fun k hk => ?_, by rw [harr], ?_⟩
  · rw [hmem, State.writeAll_sram_mget hi hsram hwrite hk]
  · have hstep (y : ArrJob) (h : (step y).e.id = j.e.id) : (step y).drained = j.drained + 1 := by
      by_cases hy : y.e.id = j.e.id
      · simp [step, hy]
      · simp [step, hy] at h
    rw [harr]
    intro x hx hid
    rcases List.mem_append.mp hx with hd | hd
    · obtain ⟨y, -, rfl⟩ := List.mem_map.mp hd
      exact hstep y hid
    · obtain ⟨y, -, rfl⟩ := Option.map_eq_some_iff.mp (Option.mem_toList.mp hd)
      exact hstep y hid

/-! ## ARRAY_INSTR_COMPLETE -/

@[simp] theorem State.completed_mem (s : State) (b : Bid) (id : Nat) : (s.completed b id).mem = s.mem := by
  rw [State.completed, State.onFm_mem]
@[simp] theorem State.completed_arr (s : State) (b c : Bid) (id : Nat) (u : Fin 12) :
    (s.completed b id).arr c u = s.arr c u := by rw [State.completed, State.onFm_arr]

/-- No fence waits for a completed instruction (R270). -/
theorem State.not_mem_covers_completed {s : State} {b : Bid} {id : Nat} {x : Fence} (hx : x ∈ ((s.completed b id).fm b).fences) :
    id ∉ x.covers := by
  rw [State.completed, State.onFm_fm_same] at hx
  obtain ⟨y, -, rfl⟩ := List.mem_map.mp hx
  simp

/-- The oldest instruction whose rows are done ends. -/
theorem arrayInstrComplete_ends {s : State} {b : Bid} {u : Fin 12} {j : ArrJob} {rest : List ArrJob}
    (hd : (s.arr b u).drains = j :: rest) (hdone : j.f.drain = true → j.m ≤ j.drained) :
    ∃ t, exec (.arrayInstrComplete b u) s = .next t ∧ (t.arr b u).drains = rest ∧ t.mem = s.mem
      ∧ (∀ x ∈ (t.fm b).fences, j.e.id ∉ x.covers) ∧ (t.arr b u).acc = (s.arr b u).acc := by
  have hx : exec (.arrayInstrComplete b u) s
      = .next ((s.setArr b u { s.arr b u with drains := rest }).completed b j.e.id) := by
    change execArrayInstrComplete b u s = _
    rw [execArrayInstrComplete]
    dsimp only
    rw [hd]
    exact if_neg (by simpa using hdone)
  refine ⟨_, hx, ?_, ?_, fun x hx => State.not_mem_covers_completed hx, ?_⟩
  · rw [State.completed_arr, State.setArr_arr_same]
  · rw [State.completed_mem, State.setArr_mem]
  · rw [State.completed_arr, State.setArr_arr_same]

end Sys2Proof.Machine
end

section
/-! The settlement of O26. -/

open Sys2Proof Sys2Proof.Machine

/-- Settles O26: a row updated, a row drained, and an instruction completed. -/
theorem arrayRows : Obligations.ArrayRows := by
  unfold Obligations.ArrayRows
  refine fun s b u => ⟨?_, ?_, ?_⟩
  · exact fun j tile g s' hstream hfront hm hheld hpair hcols hcore hread =>
      accumRowUpdate_row hstream hfront hm hheld hpair hcols hcore hread
  · exact fun j s' hi hj hsram hwrite => accumDrainRow_writes hi hj rfl hsram hwrite
  · exact fun j rest hd hdone => arrayInstrComplete_ends hd hdone

end

section
/-! SUPPORT. The rows of the register map that O55 names. -/

namespace Sys2Proof.Machine

def vtabValidRow : RegRow := mkRow "VTAB_VALID" 0x60308 [(0x1000000, 16)] .foreman false [(0, 64, .ro, 0)]

theorem regAt_vtabValid : ∀ b : Bid, regAt regMap (K.VTAB_VALID b) = some (vtabValidRow, [b.val]) := by decide +kernel

/-- The "Written by" column of VTAB_VALID's row names the Foreman, which the model lets write a register of its own Bench (R561). -/
theorem State.mayWrite_vtabValid (s : State) (b : Bid) (p : Part) :
    s.mayWrite (.foreman b p) vtabValidRow [b.val] = true := by
  simp [State.mayWrite, vtabValidRow, mkRow, K.COW_CTL, K.COW_RGN]

end Sys2Proof.Machine
end

section
/-! The settlement of O55. -/

open Sys2Proof Sys2Proof.Machine

/-- Refutes O55: at reset the Foreman of Bench 0 is a source that may write its own Bench's VTAB_VALID; its fields are read-only, but
the map's row is the Foreman's. -/
theorem not_statusWords : ¬ Obligations.StatusWords := by
  unfold Obligations.StatusWords
  intro h
  obtain ⟨-, -, -, -, -, hwrite⟩ := h State.reset 0 0 0
  obtain ⟨⟨r, is, hrow, hnone⟩, -⟩ := hwrite (K.VTAB_VALID (0 : Bid)) 0 (.inl rfl)
  obtain ⟨rfl, rfl⟩ := Prod.mk.inj (Option.some.inj ((regAt_vtabValid 0).symm.trans hrow))
  exact Bool.false_ne_true ((hnone (.foreman 0 0)).symm.trans (State.reset.mayWrite_vtabValid 0 0))

end

section
/-! SUPPORT. Value tables and curve slots: what their writes and commands leave, by whether they are valid (R127, R136, R186, R200). -/

namespace Sys2Proof.Machine

/-! ## Value tables -/

section
variable {s : State} {b : Bid} {t : BitVec 6}

theorem vtabEntryWrite_valid (i : BitVec 2) (v : Word) (hv : s.vtabValid b t.toNat = true) :
    exec (.vtabEntryWrite b t i v) s = .next s := by
  change execVtabEntryWrite b t i v s = _
  rw [execVtabEntryWrite, if_pos hv]

theorem vtabEntryWrite_invalid (i : BitVec 2) (v : Word) (hi : s.Inv) (hv : s.vtabValid b t.toNat = false) :
    ∃ u, exec (.vtabEntryWrite b t i v) s = .next u ∧ u.reg (K.VTAB_ENTRY b t.toNat i.toNat) = v
      ∧ ∀ k, k ≠ K.VTAB_ENTRY b t.toNat i.toNat → u.reg k = s.reg k := by
  refine ⟨s.setReg (K.VTAB_ENTRY b t.toNat i.toNat) v, ?_, s.setReg_same _ _ hi.1, fun k hk => s.setReg_other _ _ _ hk.symm⟩
  change execVtabEntryWrite b t i v s = _
  rw [execVtabEntryWrite, if_neg (by simp [hv])]

variable (s b t) in
/-- VALIDATE by cases; its fault is a store's of this Bench (R127). -/
theorem validate_eq (w : BitVec 2) : exec (.validate b t w) s = .next (if s.vtabValid b t.toNat = true then s
    else if (decide (w.toNat = 3) || !tableLegal (s.table b t.toNat) (tableWidth w.toNat)) = true then
      s.fault (s.storeFault b) .valueTableInvalid
    else (s.setRf (K.VTAB_INFO b t.toNat) F.VTAB_INFO_VALID 1).setRf (K.VTAB_INFO b t.toNat) F.VTAB_INFO_WIDTH w.toNat) := rfl

theorem validate_valid (w : BitVec 2) (hv : s.vtabValid b t.toNat = true) : exec (.validate b t w) s = .next s := by
  rw [validate_eq, if_pos hv]

/-- A legal table becomes valid with its declared width. -/
theorem validate_legal {w : BitVec 2} (hi : s.Inv) (hv : s.vtabValid b t.toNat = false) (hw : w ≠ 3)
    (hl : tableLegal (s.table b t.toNat) (tableWidth w.toNat) = true) :
    ∃ u, exec (.validate b t w) s = .next u ∧ u.rf (K.VTAB_INFO b t.toNat) F.VTAB_INFO_VALID = 1
      ∧ u.rf (K.VTAB_INFO b t.toNat) F.VTAB_INFO_WIDTH = w.toNat ∧ u.benches = s.benches := by
  have hw3 : ¬ w.toNat = 3 := fun h => hw (BitVec.eq_of_toNat_eq h)
  have hsep : F.VTAB_INFO_VALID.Separate F.VTAB_INFO_WIDTH ⟨63, 1⟩ := by unfold Fld.Separate; decide
  obtain ⟨hvalid, hwidth, -⟩ := s.setRf_setRf_rf (K.VTAB_INFO b t.toNat) 1 w.toNat hi.1 hsep
  refine ⟨_, ?_, hvalid, hwidth.trans (Nat.mod_eq_of_lt w.isLt), by rw [State.setRf_benches, State.setRf_benches]⟩
  rw [validate_eq, if_neg (by simp [hv]), if_neg (by simp [hw3, hl])]

/-- A reserved width, and a table that breaks a condition of R38, fault. -/
theorem validate_illegal {w : BitVec 2} (hv : s.vtabValid b t.toNat = false)
    (hbad : w = 3 ∨ tableLegal (s.table b t.toNat) (tableWidth w.toNat) = false) :
    exec (.validate b t w) s = .next (s.fault (s.storeFault b) .valueTableInvalid) := by
  have h : (decide (w.toNat = 3) || !tableLegal (s.table b t.toNat) (tableWidth w.toNat)) = true := by
    rcases hbad with rfl | hl
    · rfl
    · simp [hl]
  rw [validate_eq, if_neg (by simp [hv]), if_pos h]

variable (s b t) in
theorem invalidate_clears (hi : s.Inv) : ∃ u, exec (.invalidate b t) s = .next u ∧ u.vtabValid b t.toNat = false
    ∧ ∀ k, k ≠ K.VTAB_INFO b t.toNat → u.reg k = s.reg k := by
  refine ⟨s.setReg (K.VTAB_INFO b t.toNat) 0, rfl, ?_, fun k hk => s.setReg_other _ _ _ hk.symm⟩
  rw [State.vtabValid, State.rb, State.rf, s.setReg_same _ _ hi.1]
  rfl

end

/-! ## Curve slots -/

/-- One valid bit of the curve slots written. -/
theorem State.crvValid_setFld {s : State} (b : Bid) {t j : Nat} (v : Nat) (hi : s.Canonical) (hj : j < 64) :
    (s.setReg (K.CRV_VALID b) (setFld (s.reg (K.CRV_VALID b)) t 1 v)).crvValid b j
      = if j = t then v.testBit 0 else s.crvValid b j := by
  rw [State.crvValid, s.setReg_same _ _ hi, bit, getLsbD_setFld _ _ _ _ _ hj]
  by_cases h : j = t
  · subst h; simp
  · rw [if_neg (by omega), if_neg h, State.crvValid, bit]

section
variable {s : State} {b : Bid} {slot : BitVec 5}

variable (s b slot) in
/-- VALIDATE of a curve slot by cases; its fault is a store's of this Bench (R186). -/
theorem crvValidate_eq : exec (.crvValidate b slot) s = .next (if s.crvValid b slot.toNat = true then s
    else if curveLegal (s.curveWords b slot.toNat) = true then
      s.setReg (K.CRV_VALID b) (setFld (s.reg (K.CRV_VALID b)) slot.toNat 1 1)
    else s.fault (s.storeFault b) .curveInvalid) := rfl

theorem crvValidate_valid (hv : s.crvValid b slot.toNat = true) : exec (.crvValidate b slot) s = .next s := by
  rw [crvValidate_eq, if_pos hv]

theorem crvValidate_legal (hi : s.Inv) (hv : s.crvValid b slot.toNat = false)
    (hl : curveLegal (s.curveWords b slot.toNat) = true) :
    ∃ u, exec (.crvValidate b slot) s = .next u ∧ u.crvValid b slot.toNat = true ∧ u.benches = s.benches
      ∧ ∀ j, j < 32 → j ≠ slot.toNat → u.crvValid b j = s.crvValid b j := by
  refine ⟨s.setReg (K.CRV_VALID b) (setFld (s.reg (K.CRV_VALID b)) slot.toNat 1 1), ?_, ?_, s.setReg_benches _ _,
    fun j hj hne => by rw [State.crvValid_setFld b 1 hi.1 (by omega), if_neg hne]⟩
  · rw [crvValidate_eq, if_neg (by simp [hv]), if_pos hl]
  · rw [State.crvValid_setFld b 1 hi.1 (by omega), if_pos rfl]
    rfl

theorem crvValidate_illegal (hv : s.crvValid b slot.toNat = false) (hl : curveLegal (s.curveWords b slot.toNat) = false) :
    exec (.crvValidate b slot) s = .next (s.fault (s.storeFault b) .curveInvalid) := by
  rw [crvValidate_eq, if_neg (by simp [hv]), if_neg (by simp [hl])]

variable (s b slot) in
theorem crvInvalidate_clears (hi : s.Inv) : ∃ u, exec (.crvInvalidate b slot) s = .next u ∧ u.crvValid b slot.toNat = false
    ∧ ∀ j, j < 32 → j ≠ slot.toNat → u.crvValid b j = s.crvValid b j := by
  refine ⟨_, rfl, ?_, fun j hj hne => ?_⟩
  · exact (State.crvValid_setFld b 0 hi.1 (by omega)).trans (if_pos rfl)
  · exact (State.crvValid_setFld b 0 hi.1 (by omega)).trans (if_neg hne)

end

theorem crvSlotWrite_slot {s : State} {b : Bid} {off slot : Nat} (v : Word) (h : crvSlotOf off = some slot) :
    exec (.crvSlotWrite b off v) s
      = .next (if s.crvValid b slot = true then s else s.writeReg (b.val * 0x1000000 + off) false v) := by
  change Host.Outcome.next (s.writeCrvSlot b off v) = _
  rw [State.writeCrvSlot, h]

end Sys2Proof.Machine
end

section
/-! The settlement of O34. -/

open Sys2Proof Sys2Proof.Machine

/-- Settles O34: the writes and commands of value tables and of curve slots, by whether the table or slot is valid. -/
theorem tablesAndSlots : Obligations.TablesAndSlots := by
  unfold Obligations.TablesAndSlots
  refine fun s b hi => ⟨fun t i w v => ⟨fun hv => ⟨?_, ?_⟩, fun hv => ⟨?_, fun h => ?_, fun h => ?_⟩, ?_⟩,
    fun slot => ⟨fun hv => ?_, fun hv hl => ?_, fun hv hl => ?_, ?_⟩, fun off slot v h => ⟨fun hv => ?_, fun hv => ?_⟩⟩
  · exact vtabEntryWrite_valid i v hv
  · exact validate_valid w hv
  · exact vtabEntryWrite_invalid i v hi hv
  · exact validate_legal hi hv h.1 h.2
  · exact validate_illegal hv h
  · exact invalidate_clears s b t hi
  · exact crvValidate_valid hv
  · exact crvValidate_legal hi hv hl
  · exact crvValidate_illegal hv hl
  · exact crvInvalidate_clears s b slot hi
  · rw [crvSlotWrite_slot v h, if_pos hv]
  · rw [crvSlotWrite_slot v h, if_neg (by simp [hv])]

end

section
/-! SUPPORT. EXPORT_CTL: a session opens, becomes active, and closes (R126, R137, R263). -/

namespace Sys2Proof.Machine

/-! ## Fields written one after another -/

theorem State.setRf_rb_same {s : State} (k : Nat) {f : Fld} (v : Nat) (h : s.Canonical) (hf : f.lo + f.w ≤ 64) :
    (s.setRf k f v).rb k f = (v % 2 ^ f.w != 0) := by rw [State.rb, State.setRf_rf_same _ _ _ _ h hf]

theorem State.setRf_rb_beside {s : State} (k : Nat) {f g : Fld} (v : Nat) (h : s.Canonical)
    (hfg : f.lo + f.w ≤ g.lo ∨ g.lo + g.w ≤ f.lo) (hg : g.lo + g.w ≤ 64) : (s.setRf k f v).rb k g = s.rb k g := by
  rw [State.rb, State.setRf_rf_beside _ _ _ h hfg hg, State.rb]

theorem State.setReg_rb_other {s : State} {j k : Nat} (v : Word) (f : Fld) (h : j ≠ k) : (s.setReg j v).rb k f = s.rb k f := by
  rw [State.rb, State.rf, State.setReg_other _ _ _ _ h, State.rb, State.rf]

theorem State.onBulk_rb (s : State) (g : Bulk → Bulk) (k : Nat) (f : Fld) : (s.onBulk g).rb k f = s.rb k f := rfl
theorem State.onCow_rb (s : State) (p : Part) (n : Fin 4) (g : CowSet → CowSet) (k : Nat) (f : Fld) :
    (s.onCow p n g).rb k f = s.rb k f := rfl

theorem State.onBulk_canonical {s : State} (g : Bulk → Bulk) (h : s.Canonical) : (s.onBulk g).Canonical := ⟨h.1, h.2.1, h.2.2⟩

/-- COW_CTL and EXPORT_CTL are registers of their own (R137, R268). -/
theorem cowCtl_ne_exportCtl (p q : Part) : K.COW_CTL q 0 ≠ K.EXPORT_CTL p := by
  simp only [K.COW_CTL, K.EXPORT_CTL]; omega

section
variable {s : State} {p : Part}

/-! ## OPEN and CLOSE -/

theorem exportOpen_opens (hi : s.Inv) (ha : s.expActive p = false) (hp : s.expPending p = false) :
    ∃ t, exec (.exportOpen p) s = .next t ∧ t.expPending p = true ∧ t.expActive p = false ∧ t.mem = s.mem := by
  have h1 := s.setRf_canonical (K.EXPORT_CTL p) F.EXPORT_CTL_OPEN 1 hi.1
  refine ⟨(s.setRf (K.EXPORT_CTL p) F.EXPORT_CTL_OPEN 1).setRf (K.EXPORT_CTL p) F.EXPORT_CTL_PENDING 1, ?_, ?_, ?_, ?_⟩
  · change Host.Outcome.next (s.exportOpen p) = _
    rw [State.exportOpen, if_neg (by simp [ha, hp])]
  · exact State.setRf_rb_same _ 1 h1 (by decide)
  · exact (State.setRf_rb_beside _ 1 h1 (by decide) (by decide)).trans
      ((State.setRf_rb_beside _ 1 hi.1 (by decide) (by decide)).trans ha)
  · rw [State.setRf_mem, State.setRf_mem]

theorem exportOpen_refused (h : s.expActive p = true ∨ s.expPending p = true) : exec (.exportOpen p) s = .next s := by
  change Host.Outcome.next (s.exportOpen p) = _
  rw [State.exportOpen, if_pos (by simpa using h)]

/-- A close notes the conversions of its session that were dispatched before it. -/
theorem exportClose_waits (hi : s.Inv) (h : s.expActive p = true ∨ s.expPending p = true)
    (hc : s.rb (K.EXPORT_CTL p) F.EXPORT_CTL_CLOSE = false) :
    ∃ t, exec (.exportClose p) s = .next t ∧ t.rb (K.EXPORT_CTL p) F.EXPORT_CTL_CLOSE = true
      ∧ t.bulk.closing[p] = s.exporting p := by
  refine ⟨(s.setRf (K.EXPORT_CTL p) F.EXPORT_CTL_CLOSE 1).onBulk fun k =>
    { k with closing := k.closing.set p (s.exporting p) }, ?_, ?_, by simp [State.onBulk]⟩
  · change Host.Outcome.next (s.exportClose p) = _
    rw [State.exportClose, if_pos (by simpa [hc] using h)]
  · exact State.setRf_rb_same (K.EXPORT_CTL p) 1 hi.1 (by decide)

/-! ## The session begins -/

theorem exportSessionActivate_waits (h : s.sweeping p = true) : exec (.exportSessionActivate p) s = .next s := by
  change execExportSessionActivate p s = _
  rw [execExportSessionActivate, if_neg (by simp [h])]

theorem exportSessionActivate_begins (hi : s.Inv) (hp : s.expPending p = true)
    (hc : s.rb (K.EXPORT_CTL p) F.EXPORT_CTL_CLOSE = false) (hs : s.sweeping p = false) :
    ∃ t, exec (.exportSessionActivate p) s = .next t ∧ t.expActive p = true ∧ t.expPending p = false
      ∧ t.rf (K.EXPORT_CTL p) F.EXPORT_CTL_STEP = (s.ctl p).sweptDone.getD 0 % 2 ^ 48 ∧ t.armed p 0 = true
      ∧ t.broken p 0 = false := by
  let step := (s.ctl p).sweptDone.getD 0
  let s1 := s.setRf (K.EXPORT_CTL p) F.EXPORT_CTL_PENDING 0
  let s2 := s1.setRf (K.EXPORT_CTL p) F.EXPORT_CTL_ACTIVE 1
  let s3 := s2.setRf (K.EXPORT_CTL p) F.EXPORT_CTL_STEP step
  let s4 := s3.setReg (K.COW_CTL p 0) 0
  have h1 : s1.Canonical := s.setRf_canonical _ _ _ hi.1
  have h2 : s2.Canonical := s1.setRf_canonical _ _ _ h1
  have h4 : s4.Canonical := s3.setReg_canonical _ _ (s2.setRf_canonical _ _ _ h2)
  have hk := cowCtl_ne_exportCtl p p
  have hexp (f : Fld) : (s4.setRf (K.COW_CTL p 0) F.COW_CTL_ARM 1).rb (K.EXPORT_CTL p) f = s3.rb (K.EXPORT_CTL p) f :=
    (State.setReg_rb_other _ f hk).trans (State.setReg_rb_other 0 f hk)
  refine ⟨s4.setRf (K.COW_CTL p 0) F.COW_CTL_ARM 1, ?_, ?_, ?_, ?_, ?_, ?_⟩
  · change execExportSessionActivate p s = _
    rw [execExportSessionActivate, if_pos (by simp [hp, hc, hs])]
    rfl
  · exact (hexp _).trans ((State.setRf_rb_beside _ step h2 (by decide) (by decide)).trans
      (State.setRf_rb_same _ 1 h1 (by decide)))
  · exact (hexp _).trans ((State.setRf_rb_beside _ step h2 (by decide) (by decide)).trans
      ((State.setRf_rb_beside _ 1 h1 (by decide) (by decide)).trans (State.setRf_rb_same _ 0 hi.1 (by decide))))
  · rw [State.rf, State.setRf, State.setReg_other _ _ _ _ hk, State.setReg_other _ _ _ _ hk, ← State.rf,
      State.setRf_rf_same _ _ _ _ h2 (by decide)]
    rfl
  · exact State.setRf_rb_same _ 1 h4 (by decide)
  · refine (State.setRf_rb_beside _ 1 h4 (by decide) (by decide)).trans ?_
    rw [State.rb, State.rf, State.setReg_same _ _ _ (s2.setRf_canonical _ _ _ h2)]
    rfl

/-! ## The session ends -/

theorem exportSessionClosed_ends (hi : s.Inv) (hc : s.rb (K.EXPORT_CTL p) F.EXPORT_CTL_CLOSE = true)
    (hover : ∀ x ∈ s.bulk.closing[p], x ∉ s.exporting p) :
    ∃ t, exec (.exportSessionClosed p) s = .next t ∧ t.expActive p = false ∧ t.expPending p = false
      ∧ t.rb (K.EXPORT_CTL p) F.EXPORT_CTL_CLOSE = false ∧ t.armed p 0 = false ∧ (t.cow p 0).copies = [] := by
  let s1 := s.setRf (K.EXPORT_CTL p) F.EXPORT_CTL_OPEN 0
  let s2 := s1.setRf (K.EXPORT_CTL p) F.EXPORT_CTL_CLOSE 0
  let s3 := s2.setRf (K.EXPORT_CTL p) F.EXPORT_CTL_PENDING 0
  let s4 := s3.setRf (K.EXPORT_CTL p) F.EXPORT_CTL_ACTIVE 0
  let s5 := s4.onBulk fun k => { k with closing := k.closing.set p [] }
  have h1 : s1.Canonical := s.setRf_canonical _ _ _ hi.1
  have h2 : s2.Canonical := s1.setRf_canonical _ _ _ h1
  have h3 : s3.Canonical := s2.setRf_canonical _ _ _ h2
  have h5 : s5.Canonical := State.onBulk_canonical _ (s3.setRf_canonical _ _ _ h3)
  have hexp (f : Fld) : ((s5.setReg (K.COW_CTL p 0) 0).onCow p 0 fun c => { c with copies := [] }).rb (K.EXPORT_CTL p) f
      = s4.rb (K.EXPORT_CTL p) f := by
    rw [State.onCow_rb, State.setReg_rb_other 0 f (cowCtl_ne_exportCtl p p), State.onBulk_rb]
  refine ⟨(s5.setReg (K.COW_CTL p 0) 0).onCow p 0 fun c => { c with copies := [] }, ?_, ?_, ?_, ?_, ?_, ?_⟩
  · change execExportSessionClosed p s = _
    rw [execExportSessionClosed, if_pos (by simpa [hc] using hover)]
  · rw [State.expActive, hexp, State.setRf_rb_same _ 0 h3 (by decide)]
    rfl
  · rw [State.expPending, hexp, State.setRf_rb_beside _ 0 h3 (by decide) (by decide),
      State.setRf_rb_same _ 0 h2 (by decide)]
    rfl
  · rw [hexp, State.setRf_rb_beside _ 0 h3 (by decide) (by decide),
      State.setRf_rb_beside _ 0 h2 (by decide) (by decide), State.setRf_rb_same _ 0 h1 (by decide)]
    rfl
  · rw [State.armed, State.onCow_rb, State.rb, State.rf, show K.COW_CTL p (0 : Fin 4) = K.COW_CTL p 0 from rfl,
      State.setReg_same _ _ _ h5]
    rfl
  · simp [State.cow, State.onCow, State.onBulk]

end

end Sys2Proof.Machine
end

section
/-! The settlement of O35. -/

open Sys2Proof Sys2Proof.Machine

/-- Settles O35: OPEN, CLOSE, the beginning of a session and its end. -/
theorem exportSessions : Obligations.ExportSessions := by
  unfold Obligations.ExportSessions
  refine fun s p hi => ⟨?_, ?_, ?_, ?_, ?_, ?_⟩
  · exact fun h => exportOpen_opens hi h.1 h.2
  · exact exportOpen_refused
  · exact exportClose_waits hi
  · exact exportSessionActivate_begins hi
  · exact fun _ hs => exportSessionActivate_waits hs
  · exact exportSessionClosed_ends hi

end

section
/-! SUPPORT. How an engine instruction begins on its unit, or faults at the head of its queue (R279, R572, R573). -/

namespace Sys2Proof.Machine

/-! ## Assignments of a queue -/

@[simp] theorem State.assign_mem (s : State) (b : Bid) (q : Fin 8) : (s.assign b q).mem = s.mem := by
  rw [State.assign, State.setQueue_mem]

theorem State.assign_queue_other (s : State) (b : Bid) {q r : Fin 8} (h : r ≠ q) :
    (s.assign b q).queue b r = s.queue b r := by rw [State.assign, State.setQueue_queue_other _ _ _ h]

@[simp] theorem State.setQueue_run (s : State) (b : Bid) (q : Fin 8) (l : List QItem) :
    ((s.setQueue b q l).bench b).run = (s.bench b).run := by rw [State.setQueue, State.onBench_bench_same]

/-! ## The head of a queue -/

section
variable {s : State} {b : Bid} {q : Fin 8} {checks : State → Entry → Nat → List (Bool × FCode)}
  {start : State → Entry → Nat → Start} {e : Entry} {u : Nat} (hpwr : s.pwr.mainOn = true)
  (hq : s.queueRuns b q = true) (hhead : s.nextHead b q = some (e, u))
include hpwr hq hhead

/-- The instruction whose turn it is begins, or takes its first fault. -/
theorem State.beginOn_head : s.beginOn b q checks start = ((firstFault (checks s e u)).elim
    (((s.assign b q).dequeue b q e.id).onBench b fun y => { y with
      run := y.run ++ [⟨e, q, u, false, (start s e u).scales, (start s e u).tables, (start s e u).reads, [], false, [], [],
        none, false⟩] })
    fun c => (s.assign b q).faultHead (e.at_ b q u) c) := by
  rw [State.beginOn, if_neg (by simp [hpwr, hq]), hhead]
  dsimp only
  cases firstFault (checks s e u) <;> rfl

theorem State.beginOn_faults {c : FCode} (hc : firstFault (checks s e u) = some c) :
    s.beginOn b q checks start = (s.assign b q).faultHead (e.at_ b q u) c := by
  rw [State.beginOn_head hpwr hq hhead, hc, Option.elim_some]

/-- A command that begins the instruction, and changes nothing else but registers, begins it in the sense of the claims. -/
theorem Begins.of_beginOn {i : Instr} {s₀ : State} (f : State → State) (hbench : ∀ t, (f t).benches = t.benches)
    (hmem : ∀ t, (f t).mem = t.mem) (hx : exec i s₀ = .next (f (s.beginOn b q checks start)))
    (hc : firstFault (checks s e u) = none) : Begins i s₀ s b q e u (start s e u).reads := by
  rw [State.beginOn_head hpwr hq hhead, hc, Option.elim_none] at hx
  have hb (t : State) : (f t).bench b = t.bench b := by rw [State.bench, hbench, State.bench]
  refine ⟨_, ⟨e, q, u, false, (start s e u).scales, (start s e u).tables, (start s e u).reads, [], false, [], [], none, false⟩,
    hx, ?_, rfl, rfl, rfl, rfl, rfl, rfl, fun x hmem' => ?_, fun k hk => ?_, ?_⟩
  · rw [hb, State.onBench_bench_same, State.dequeue, State.setQueue_run, State.assign, State.setQueue_run]
  · refine State.id_ne_of_mem_dequeue (s := s.assign b q) (b := b) (q := q) ?_
    rwa [State.queue, hb, State.onBench_bench_same] at hmem'
  · rw [State.queue, hb, State.onBench_bench_same, ← State.queue, State.dequeue_queue_other _ _ _ hk,
      State.assign_queue_other _ _ hk]
  · rw [hmem, State.onBench_mem, State.dequeue_mem, State.assign_mem]

end

/-! ## Wedges and Haulers (R111, R223) -/

section
variable {s : State} {b : Bid} {e : Entry} {u : Nat} (hpwr : s.pwr.mainOn = true)
include hpwr

theorem wdgBegin_begins (hq : s.queueRuns b 4 = true) (hhead : s.nextHead b 4 = some (e, u))
    (hc : firstFault (s.wedgeChecks b e u) = none) :
    Begins (.wdgBegin b) s s b 4 e u ((e.tensor 0).reads (if e.isExport then some 0 else none)) :=
  Begins.of_beginOn (start := State.wedgeStart b) hpwr hq hhead (fun t => t) (fun _ => rfl) (fun _ => rfl) rfl hc

theorem wdgBegin_faults {c : FCode} (hq : s.queueRuns b 4 = true) (hhead : s.nextHead b 4 = some (e, u))
    (hc : firstFault (s.wedgeChecks b e u) = some c) :
    exec (.wdgBegin b) s = .next ((s.assign b 4).faultHead (e.at_ b 4 u) c) :=
  congrArg Host.Outcome.next (State.beginOn_faults hpwr hq hhead hc)

theorem haulBegin_begins (hq : s.queueRuns b 1 = true) (hhead : s.nextHead b 1 = some (e, u))
    (hc : firstFault (s.haulChecks b e u) = none) :
    Begins (.haulBegin b) s s b 1 e u ((e.tensor (if isIndexed e then 2 else 0)).reads none) :=
  Begins.of_beginOn (start := State.haulStart b) hpwr hq hhead (fun t => t) (fun _ => rfl) (fun _ => rfl) rfl hc

theorem haulBegin_faults {c : FCode} (hq : s.queueRuns b 1 = true) (hhead : s.nextHead b 1 = some (e, u))
    (hc : firstFault (s.haulChecks b e u) = some c) :
    exec (.haulBegin b) s = .next ((s.assign b 1).faultHead (e.at_ b 1 u) c) :=
  congrArg Host.Outcome.next (State.beginOn_faults hpwr hq hhead hc)

end

/-! ## Screens (R175, R191) -/

/-- What a Screen instruction takes as it begins, with the parameter block that SCR.OPT has captured. -/
def State.screenStart (b : Bid) (params : List (List Word)) (s : State) (e : Entry) (_ : Nat) : Start :=
  let p := (s.partOf b).getD 0
  let ts := (List.range e.ds.length).map e.tensor
  { reads := (scrSrc e.scr).flatMap fun i => (e.tensor i).reads none
    scales := ts.map fun t => BitVec.ofNat 64 (s.scaleOf p t)
    tables := ts.map (fun t => tabWords (s.tableFor b t)) ++ (s.scrCurves b e.scr).map (s.curveWords b) ++ params }

/-- The instruction at the head begins on a Screen or faults, and SCR_STAT.KIND shows one that begins (R197). -/
def State.screenBegin (b : Bid) (e : Entry) (u : Nat) (params : List (List Word)) (s : State) : State :=
  let t := s.beginOn b 5 (State.screenChecks b) (State.screenStart b params)
  if s.pwr.mainOn && s.queueRuns b 5 && (firstFault (s.screenChecks b e u)).isNone then
    t.setRf (K.SCR_STAT b u) F.SCR_STAT_KIND (scrKind e.scr)
  else t

section
variable {s : State} {b : Bid} {e : Entry} {u : Nat} (hhead : s.nextHead b 5 = some (e, u))
include hhead

/-- An instruction other than SCR.OPT, and one that breaks a check, reads nothing first. -/
theorem scrBegin_eq (h : e.isOpt = false ∨ (firstFault (s.screenChecks b e u)).isNone = false) :
    exec (.scrBegin b) s = .next (s.screenBegin b e u []) := by
  change execScrBegin b s = _
  rw [execScrBegin, hhead]
  refine if_pos ?_
  rcases h with h | h <;> simp only [h, Bool.not_false, Bool.true_or, Bool.and_false, Bool.or_true]

variable (hpwr : s.pwr.mainOn = true) (hq : s.queueRuns b 5 = true)
include hpwr hq

theorem State.screenBegin_begins {i : Instr} {s₀ : State} {ps : List (List Word)}
    (hx : exec i s₀ = .next (s.screenBegin b e u ps)) (hc : firstFault (s.screenChecks b e u) = none) :
    Begins i s₀ s b 5 e u ((scrSrc e.scr).flatMap fun i => (e.tensor i).reads none) := by
  rw [State.screenBegin, if_pos (by simp [hpwr, hq, hc])] at hx
  exact Begins.of_beginOn hpwr hq hhead (fun t => t.setRf (K.SCR_STAT b u) F.SCR_STAT_KIND (scrKind e.scr))
    (fun t => t.setRf_benches _ _ _) (fun t => t.setRf_mem _ _ _) hx hc

theorem scrBegin_faults {c : FCode} (hc : firstFault (s.screenChecks b e u) = some c) :
    exec (.scrBegin b) s = .next ((s.assign b 5).faultHead (e.at_ b 5 u) c) := by
  rw [scrBegin_eq hhead (.inr (by simp [hc])), State.screenBegin, if_neg (by simp [hc])]
  exact congrArg Host.Outcome.next (State.beginOn_faults hpwr hq hhead hc)

/-- SCR.OPT reads its parameter block; a parameter that is not finite in an unpoisoned block faults (R191). -/
theorem scrBegin_opt {g : Tab Got} {s' : State} {rest : List RdReq} (ho : e.isOpt = true)
    (hc : firstFault (s.screenChecks b e u) = none)
    (hread : State.readAll (e.who s b 5 u) ((wordsOf (e.rs.getD 0 0).toNat 64).map fun n => ⟨n, 2, none, 1⟩) [] s
      = (.ok g s', rest)) :
    let ps := paramWords g (e.rs.getD 0 0).toNat
    exec (.scrBegin b) s = .next
      (if (decide (ps.getD 10 0 = 0) && (ps.take 10).any fun v => !(dec32 v.toNat).isFinite) = true then
        (s'.assign b 5).faultHead (e.at_ b 5 u) .descInvalid
      else s'.screenBegin b e u [ps]) := by
  change execScrBegin b s = _
  rw [execScrBegin, hhead]
  dsimp only
  rw [if_neg (by simp [ho, hpwr, hq, hc]), hread]
  dsimp only
  split <;> rfl

end

end Sys2Proof.Machine
end

section
/-! The settlement of O32. -/

open Sys2Proof Sys2Proof.Machine

/-- Settles O32: each engine's instruction begins or faults; SCR.OPT captures its parameters first. -/
theorem enginesBegin : Obligations.EnginesBegin := by
  unfold Obligations.EnginesBegin
  refine fun s b e u hpwr => ⟨fun hq hhead => ⟨?_, fun c => ?_⟩, fun hq hhead => ⟨?_, fun c => ?_⟩,
    fun hq hhead => ⟨fun ho hc => ?_, fun c => ?_, fun g s' rest ho hc hread => ⟨fun hclean hbad => ?_, ?_⟩⟩⟩
  · exact wdgBegin_begins hpwr hq hhead
  · exact wdgBegin_faults hpwr hq hhead
  · exact haulBegin_begins hpwr hq hhead
  · exact haulBegin_faults hpwr hq hhead
  · exact State.screenBegin_begins hhead hpwr hq (scrBegin_eq hhead (.inl ho)) hc
  · exact scrBegin_faults hhead hpwr hq
  · rw [scrBegin_opt hhead hpwr hq ho hc hread, if_pos ?_]
    rw [Bool.and_eq_true, List.any_eq_true]
    exact ⟨decide_eq_true hclean, hbad.imp fun v hv => ⟨hv.1, by rw [hv.2, Bool.not_false]⟩⟩
  · intro hfin hpwr' hq' hhead' hc'
    have hall : ((paramWords g (e.rs.getD 0 0).toNat).take 10).any (fun v => !(dec32 v.toNat).isFinite) = false :=
      List.any_eq_false.mpr fun v hv => by simp [hfin v hv]
    refine State.screenBegin_begins (ps := [paramWords g (e.rs.getD 0 0).toNat]) hhead' hpwr' hq'
      ((scrBegin_opt hhead hpwr hq ho hc hread).trans ?_) hc'
    rw [hall, Bool.and_false, if_neg Bool.false_ne_true]

end

section
/-!
SUPPORT. The values of a format's magnitude codes, and the codes that a value rounds to (R34, R36, R40-R42, R55-R58).
-/

namespace Sys2Proof.Machine

/-! ## Magnitude codes and their values -/

/-- A code's value in units of 2^lo: the codes of one binade lie a fixed power of two apart. -/
theorem Fmt.units_eq (f : Fmt) (lo : Int) (h : lo ≤ f.q) (c : Nat) : f.units lo c
    = ((c - (c / 2 ^ f.p - 1) * 2 ^ f.p : Nat) : Int) * 2 ^ ((f.q - lo).toNat + (c / 2 ^ f.p - 1)) := by
  rw [Fmt.units, Fmt.mag]
  have hdm := Nat.div_add_mod c (2 ^ f.p)
  split
  · next h0 => rw [h0]; simp
  · next h0 =>
    obtain ⟨k, hk⟩ : ∃ k, c / 2 ^ f.p = k + 1 := ⟨_, (Nat.succ_pred_eq_of_pos (Nat.pos_of_ne_zero h0)).symm⟩
    have hc : c - k * 2 ^ f.p = 2 ^ f.p + c % 2 ^ f.p := by
      rw [hk, Nat.mul_add_one, Nat.mul_comm] at hdm
      omega
    rw [hk, Nat.add_sub_cancel, hc, show (f.q + (k : Int) - lo).toNat = (f.q - lo).toNat + k by omega]

/-- From one code to the next the value rises by the step of its binade. -/
theorem Fmt.units_succ (f : Fmt) (lo : Int) (h : lo ≤ f.q) (c : Nat) :
    f.units lo (c + 1) = f.units lo c + 2 ^ ((f.q - lo).toNat + (c / 2 ^ f.p - 1)) := by
  have hP : 0 < 2 ^ f.p := Nat.two_pow_pos _
  have hdm := Nat.div_add_mod c (2 ^ f.p)
  have hlt := Nat.mod_lt c hP
  rw [f.units_eq lo h, f.units_eq lo h, Nat.succ_div]
  generalize 2 ^ f.p = P at hP hdm hlt ⊢
  obtain ⟨r, hr⟩ : ∃ r, r = c % P := ⟨_, rfl⟩
  rw [← hr] at hdm hlt
  split
  · next hd =>
    have hr' : r + 1 = P := by
      have h1 := Nat.mod_eq_zero_of_dvd hd
      rw [Nat.add_mod, ← hr] at h1
      rcases Nat.lt_or_ge (r + 1) P with hlt' | hge
      · rcases Nat.lt_or_ge 1 P with h1P | h1P
        · rw [Nat.mod_eq_of_lt h1P, Nat.mod_eq_of_lt hlt'] at h1
          omega
        · omega
      · omega
    rcases Nat.eq_zero_or_pos (c / P) with h0 | h0
    · rw [h0] at hdm ⊢
      simp only [Nat.mul_zero, Nat.zero_add] at hdm
      simp only [Nat.zero_sub, Nat.zero_mul, Nat.sub_zero, Nat.zero_add, Nat.sub_self, Nat.add_zero]
      push_cast
      ring
    · obtain ⟨k, hk⟩ : ∃ k, c / P = k + 1 := ⟨_, (Nat.succ_pred_eq_of_pos h0).symm⟩
      rw [hk] at hdm ⊢
      have e1 : c + 1 - (k + 1) * P = P := by
        have : P * (k + 1) = (k + 1) * P := Nat.mul_comm _ _
        omega
      have e2 : c - k * P = P + r := by
        have : P * (k + 1) = k * P + P := by rw [Nat.mul_add_one, Nat.mul_comm]
        omega
      simp only [Nat.add_sub_cancel]
      rw [e1, e2, show k + 1 = k + 1 from rfl, ← Nat.add_assoc, pow_succ]
      have : (P : Int) = r + 1 := by exact_mod_cast hr'.symm
      push_cast
      rw [this]
      ring
  · have hle : (c / P - 1) * P ≤ c :=
      (Nat.mul_le_mul_right _ (Nat.sub_le _ _)).trans (Nat.div_mul_le_self c P)
    rw [show c / P + 0 = c / P from rfl, Nat.sub_add_comm hle]
    push_cast
    ring

theorem Fmt.units_strictMono (f : Fmt) (lo : Int) (h : lo ≤ f.q) : StrictMono (f.units lo) :=
  strictMono_nat_of_lt_succ fun c => by
    rw [f.units_succ lo h]
    have : (0 : Int) < 2 ^ ((f.q - lo).toNat + (c / 2 ^ f.p - 1)) := by positivity
    omega

/-- The code with place M in binade K has the value M steps of that binade. -/
theorem Fmt.units_place (f : Fmt) (lo : Int) (h : lo ≤ f.q) {K M : Nat} (hM : M < 2 ^ (f.p + 1))
    (hK : K = 0 ∨ 2 ^ f.p ≤ M) : f.units lo (K * 2 ^ f.p + M) = M * 2 ^ ((f.q - lo).toNat + K)
      ∧ f.units lo (K * 2 ^ f.p + M + 1) = f.units lo (K * 2 ^ f.p + M) + 2 ^ ((f.q - lo).toNat + K) := by
  have hP : 0 < 2 ^ f.p := Nat.two_pow_pos _
  have hk : (K * 2 ^ f.p + M) / 2 ^ f.p - 1 = K := by
    rw [Nat.add_comm, Nat.add_mul_div_right _ _ hP]
    rw [pow_succ] at hM
    have h2 : M / 2 ^ f.p < 2 := (Nat.div_lt_iff_lt_mul hP).mpr (by omega)
    rcases hK with rfl | hge
    · omega
    · have : 1 ≤ M / 2 ^ f.p := (Nat.one_le_div_iff hP).mpr hge
      omega
  exact ⟨by rw [f.units_eq lo h, hk, Nat.add_sub_cancel_left], by rw [f.units_succ lo h, hk]⟩

/-! ## The code below a value -/

/-- The code below m * 2^e: exactly at the value, or a remainder in parts of the step above it. -/
theorem Fmt.floorMag_spec (f : Fmt) (m : Nat) (e lo : Int) (he : lo ≤ e) (hq : lo ≤ f.q) :
    let z : Int := m * 2 ^ (e - lo).toNat
    let o := f.floorMag m e
    (o.2.1 = 0 ∧ z = f.units lo o.1) ∨ (0 < o.2.1 ∧ o.2.1 < o.2.2 ∧ z = f.units lo o.1 + o.2.1 * 2 ^ (e - lo).toNat
      ∧ f.units lo (o.1 + 1) = f.units lo o.1 + o.2.2 * 2 ^ (e - lo).toNat) := by
  intro z o
  rcases Nat.eq_zero_or_pos m with hm | hm
  · subst hm
    refine .inl ⟨by simp [o, Fmt.floorMag], ?_⟩
    simp [z, o, Fmt.floorMag, f.units_eq lo hq]
  · obtain ⟨L, hL⟩ : ∃ L, L = Nat.log2 m := ⟨_, rfl⟩
    have hlow : 2 ^ L ≤ m := hL ▸ Nat.log2_self_le hm.ne'
    have hhigh : m < 2 ^ (L + 1) := hL ▸ Nat.lt_log2_self
    obtain ⟨u, hu⟩ : ∃ u, u = max (e + (L : Int) - f.p) f.q := ⟨_, rfl⟩
    obtain ⟨K, hK⟩ : ∃ K, K = (u - f.q).toNat := ⟨_, rfl⟩
    have huq : f.q ≤ u := hu ▸ le_max_right _ _
    have hut : e + (L : Int) - f.p ≤ u := hu ▸ le_max_left _ _
    have hKt : 0 < K → u = e + (L : Int) - f.p := by
      intro h
      rcases max_choice (e + (L : Int) - f.p) f.q with h1 | h1 <;> rw [h1] at hu <;> omega
    have ho : o = if u ≤ e then (K * 2 ^ f.p + m * 2 ^ (e - u).toNat, 0, 1)
        else (K * 2 ^ f.p + m / 2 ^ (u - e).toNat, m % 2 ^ (u - e).toNat, 2 ^ (u - e).toNat) := by
      simp only [o, Fmt.floorMag]
      rw [if_neg hm.ne', ← hL, ← hu, ← hK]
    rw [ho]
    split
    · next hue =>
      have hplace := f.units_place lo hq (K := K) (M := m * 2 ^ (e - u).toNat) ?_ ?_
      · refine .inl ⟨rfl, ?_⟩
        rw [hplace.1, show (f.q - lo).toNat + K = (u - lo).toNat by omega]
        simp only [z]
        rw [show (e - lo).toNat = (e - u).toNat + (u - lo).toNat by omega, pow_add]
        push_cast
        ring
      · calc m * 2 ^ (e - u).toNat < 2 ^ (L + 1) * 2 ^ (e - u).toNat := by gcongr
          _ = 2 ^ (L + 1 + (e - u).toNat) := (pow_add _ _ _).symm
          _ ≤ 2 ^ (f.p + 1) := Nat.pow_le_pow_right (by decide) (by omega)
      · rcases Nat.eq_zero_or_pos K with h0 | h0
        · exact .inl h0
        · have hL' := hKt h0
          refine .inr ?_
          calc 2 ^ f.p = 2 ^ L * 2 ^ (e - u).toNat := by rw [← pow_add]; congr 1; omega
            _ ≤ m * 2 ^ (e - u).toNat := Nat.mul_le_mul_right _ hlow
    · next hue =>
      obtain ⟨d, hd⟩ : ∃ d, d = 2 ^ (u - e).toNat := ⟨_, rfl⟩
      have hdpos : 0 < d := hd ▸ Nat.two_pow_pos _
      have hplace := f.units_place lo hq (K := K) (M := m / d) ?_ ?_
      · obtain ⟨hv, hv1⟩ := hplace
        have hstep : (2 : Int) ^ ((f.q - lo).toNat + K) = d * 2 ^ (e - lo).toNat := by
          rw [show (f.q - lo).toNat + K = (u - e).toNat + (e - lo).toNat by omega, pow_add, hd]
          push_cast
          ring
        have hz : z = f.units lo (K * 2 ^ f.p + m / d) + (m % d : Nat) * 2 ^ (e - lo).toNat := by
          have hm' : (m : Int) = d * (m / d : Nat) + (m % d : Nat) := by exact_mod_cast (Nat.div_add_mod m d).symm
          rw [hv, hstep]
          simp only [z]
          rw [hm']
          ring
        rw [← hd]
        rcases Nat.eq_zero_or_pos (m % d) with h0 | h0
        · exact .inl ⟨h0, by rw [hz, h0]; simp⟩
        · exact .inr ⟨h0, Nat.mod_lt _ hdpos, hz, by rw [hv1, hstep]⟩
      · rw [Nat.div_lt_iff_lt_mul hdpos, hd, ← pow_add]
        exact hhigh.trans_le (Nat.pow_le_pow_right (by decide) (by omega))
      · rcases Nat.eq_zero_or_pos K with h0 | h0
        · exact .inl h0
        · have hL' := hKt h0
          refine .inr ((Nat.le_div_iff_mul_le hdpos).mpr ?_)
          rw [hd, ← pow_add, show f.p + (u - e).toNat = L by omega]
          exact hlow

/-! ## Rounding (R55-R58) -/

/-- Of the values of rising codes, the two around a point lie nearer to it than any other. -/
theorem StrictMono.min_neighbours_lt {v : Nat → Int} (hv : StrictMono v) {z : Int} {c c' : Nat} (hlo : v c ≤ z)
    (hhi : z < v (c + 1)) (h0 : c' ≠ c) (h1 : c' ≠ c + 1) : min (z - v c) (v (c + 1) - z) < (z - v c').natAbs := by
  rcases Nat.lt_or_ge c' c with h | h
  · have := hv h
    omega
  · have := hv (show c + 1 < c' by omega)
    omega

section
variable (f : Fmt) (neg : Bool) (m : Nat) {e lo : Int} (he : lo ≤ e) (hq : lo ≤ f.q)
include he hq

/-- Toward zero: the code at or below the value. -/
theorem Fmt.roundMag_rz : f.units lo (f.roundMag .rz neg m e) ≤ m * 2 ^ (e - lo).toNat
    ∧ (m : Int) * 2 ^ (e - lo).toNat < f.units lo (f.roundMag .rz neg m e + 1) := by
  have hr : f.roundMag .rz neg m e = (f.floorMag m e).1 := by simp [Fmt.roundMag]
  have hmono := f.units_strictMono lo hq (Nat.lt_succ_self (f.floorMag m e).1)
  rw [hr]
  rcases f.floorMag_spec m e lo he hq with ⟨-, hz⟩ | ⟨hpos, hlt, hz, hv⟩
  · exact ⟨hz.ge, hz ▸ hmono⟩
  · have h1 : (0 : Int) < 2 ^ (e - lo).toNat := by positivity
    have h2 : ((f.floorMag m e).2.1 : Int) * 2 ^ (e - lo).toNat < (f.floorMag m e).2.2 * 2 ^ (e - lo).toNat :=
      Int.mul_lt_mul_of_pos_right (by exact_mod_cast hlt) h1
    have h3 : (0 : Int) ≤ ((f.floorMag m e).2.1 : Int) * 2 ^ (e - lo).toNat := by positivity
    exact ⟨by omega, by omega⟩

/-- To the nearest: no other code is nearer, and of two as near the even one is taken. -/
theorem Fmt.roundMag_rne (c' : Nat) (hc' : c' ≠ f.roundMag .rne neg m e) :
    let z : Int := m * 2 ^ (e - lo).toNat
    let c := f.roundMag .rne neg m e
    (z - f.units lo c).natAbs < (z - f.units lo c').natAbs
      ∨ (z - f.units lo c).natAbs = (z - f.units lo c').natAbs ∧ c % 2 = 0 := by
  intro z c
  have hmono := f.units_strictMono lo hq
  have hG : (0 : Int) < 2 ^ (e - lo).toNat := by positivity
  obtain ⟨G, hGe⟩ : ∃ G : Int, G = 2 ^ (e - lo).toNat := ⟨_, rfl⟩
  obtain ⟨c0, hc0⟩ : ∃ c0, c0 = (f.floorMag m e).1 := ⟨_, rfl⟩
  obtain ⟨r, hr⟩ : ∃ r, r = (f.floorMag m e).2.1 := ⟨_, rfl⟩
  obtain ⟨d, hd⟩ : ∃ d, d = (f.floorMag m e).2.2 := ⟨_, rfl⟩
  have hround : c = if r = 0 then c0 else if 2 * r > d then c0 + 1 else if 2 * r = d then c0 + c0 % 2 else c0 := by
    simp only [c, Fmt.roundMag, hc0, hr, hd]
  have hspec := f.floorMag_spec m e lo he hq
  simp only at hspec
  rw [← hc0, ← hr, ← hd, ← hGe] at hspec
  rw [← hGe] at hG
  have hzG : z = m * G := by rw [hGe]
  rw [← hzG] at hspec
  have hne : c' ≠ c := hc'
  rcases hspec with ⟨hr0, hz⟩ | ⟨hpos, hlt, hz, hv⟩
  · rw [if_pos hr0] at hround
    rw [hround] at hne ⊢
    have := hmono.injective.ne hne
    exact .inl (by omega)
  · rw [if_neg hpos.ne'] at hround
    obtain ⟨A, hA⟩ : ∃ A : Int, A = r * G := ⟨_, rfl⟩
    obtain ⟨B, hB⟩ : ∃ B : Int, B = d * G := ⟨_, rfl⟩
    rw [← hA] at hz
    rw [← hB] at hv
    have hA0 : 0 < A := hA ▸ mul_pos (by exact_mod_cast hpos) hG
    have hAB : A < B := by rw [hA, hB]; exact Int.mul_lt_mul_of_pos_right (by exact_mod_cast hlt) hG
    have h2A : (2 * r < d → 2 * A < B) ∧ (2 * r = d → 2 * A = B) ∧ (d < 2 * r → B < 2 * A) := by
      have e2 : 2 * A = ((2 * r : Nat) : Int) * G := by rw [hA]; push_cast; ring
      rw [e2, hB]
      exact ⟨fun h => Int.mul_lt_mul_of_pos_right (by exact_mod_cast h) hG, fun h => by rw [h],
        fun h => Int.mul_lt_mul_of_pos_right (by exact_mod_cast h) hG⟩
    have hcc : (c = c0 ∧ 2 * A ≤ B ∧ (2 * A = B → c % 2 = 0)) ∨ (c = c0 + 1 ∧ B ≤ 2 * A ∧ (2 * A = B → c % 2 = 0)) := by
      rw [hround]
      split
      · exact .inr ⟨rfl, by omega, by omega⟩
      · split
        · rcases Nat.mod_two_eq_zero_or_one c0 with h2 | h2 <;> rw [h2]
          · exact .inl ⟨rfl, by omega, fun _ => h2⟩
          · exact .inr ⟨rfl, by omega, by omega⟩
        · exact .inl ⟨rfl, by omega, by omega⟩
    have hout (h0 : c' ≠ c0) (h1 : c' ≠ c0 + 1) := StrictMono.min_neighbours_lt hmono (z := m * G) (by omega) (by omega) h0 h1
    rcases hcc with ⟨hc, hle, htie⟩ | ⟨hc, hle, htie⟩
    · rw [hc] at hne htie ⊢
      by_cases h1 : c' = c0 + 1
      · rw [h1, hv]; omega
      · have := hout hne h1
        omega
    · rw [hc] at hne htie ⊢
      by_cases h0 : c' = c0
      · rw [h0, hv]; omega
      · have := hout h0 hne
        omega

/-- At random: the code above is taken with the chance that the value's place between its neighbours gives, in signed order. -/
theorem Fmt.roundMag_sr (r c : Nat) (hlo : f.units lo c ≤ m * 2 ^ (e - lo).toNat)
    (hhi : (m : Int) * 2 ^ (e - lo).toNat < f.units lo (c + 1)) :
    let z : Int := m * 2 ^ (e - lo).toNat
    let v := f.units lo
    f.roundMag (.sr r) neg m e =
      if z = v c then c
      else if neg then (if (r : Int) < 2 ^ 32 * (v (c + 1) - z) / (v (c + 1) - v c) then c else c + 1)
      else if (r : Int) < 2 ^ 32 * (z - v c) / (v (c + 1) - v c) then c + 1 else c := by
  intro z v
  have hmono := f.units_strictMono lo hq
  have hG : (0 : Int) < 2 ^ (e - lo).toNat := by positivity
  obtain ⟨c0, hc0⟩ : ∃ c0, c0 = (f.floorMag m e).1 := ⟨_, rfl⟩
  obtain ⟨a, ha⟩ : ∃ a, a = (f.floorMag m e).2.1 := ⟨_, rfl⟩
  obtain ⟨d, hd⟩ : ∃ d, d = (f.floorMag m e).2.2 := ⟨_, rfl⟩
  have hround : f.roundMag (.sr r) neg m e = if a = 0 then c0
      else if neg then (if r < 2 ^ 32 * (d - a) / d then c0 else c0 + 1) else if r < 2 ^ 32 * a / d then c0 + 1 else c0 := by
    simp only [Fmt.roundMag, hc0, ha, hd]
  have hspec := f.floorMag_spec m e lo he hq
  simp only at hspec
  rw [← hc0, ← ha, ← hd] at hspec
  have hc : c = c0 := by
    obtain ⟨h1, h2⟩ : f.units lo c0 ≤ z ∧ z < f.units lo (c0 + 1) := by
      rw [hc0]
      simpa [Fmt.roundMag] using f.roundMag_rz neg m he hq
    have h3 : c < c0 + 1 := hmono.lt_iff_lt.mp (hlo.trans_lt h2)
    have h4 : c0 < c + 1 := hmono.lt_iff_lt.mp (h1.trans_lt hhi)
    omega
  subst hc
  rw [hround]
  rcases hspec with ⟨h0, hz⟩ | ⟨hpos, hlt, hz, hv⟩
  · rw [if_pos h0, if_pos hz]
  · have hA : (0 : Int) < a * 2 ^ (e - lo).toNat := mul_pos (by exact_mod_cast hpos) hG
    have hzne : ¬ z = v c := by simp only [v]; omega
    have hgap : v (c + 1) - v c = d * 2 ^ (e - lo).toNat := by simp only [v]; omega
    have hbelow : z - v c = a * 2 ^ (e - lo).toNat := by simp only [v]; omega
    have habove : v (c + 1) - z = (d - a : Nat) * 2 ^ (e - lo).toNat := by
      rw [Nat.cast_sub hlt.le, sub_mul]
      simp only [v]
      omega
    have hdiv (n : Nat) : 2 ^ 32 * ((n : Int) * 2 ^ (e - lo).toNat) / (d * 2 ^ (e - lo).toNat) = ((2 ^ 32 * n / d : Nat) : Int) := by
      rw [← mul_assoc, Int.mul_ediv_mul_of_pos_left _ _ hG]
      push_cast
      rfl
    rw [if_neg hpos.ne', if_neg hzne, hgap, hbelow, habove, hdiv, hdiv]
    simp only [Nat.cast_lt]

end

/-- Rounding to a code follows its mode (R55-R58). -/
theorem roundingRules : RoundingRules := fun f neg m _ _ he hq =>
  ⟨f.roundMag_rne neg m he hq, f.roundMag_rz neg m he hq, fun r c hlo hhi => f.roundMag_sr neg m he hq r c hlo hhi⟩

end Sys2Proof.Machine
end

section
/-!
SUPPORT. Exact values in their order: every value but a NaN has a place among the rationals and the two infinities, and the
comparisons of values are those of their places (R54-R60).
-/

namespace Sys2Proof.Machine

/-! ## The place of a value -/

/-- The signed rational that a finite value is. -/
def ratOf (neg : Bool) (m : Nat) (e : Int) : ℚ := sgnInt neg m * 2 ^ e

/-- The place of a value in the order; that of a NaN is of no use. -/
def X.place : X → WithBot (WithTop ℚ)
  | .nan _ => ⊥
  | .inf neg => if neg then ⊥ else ((⊤ : WithTop ℚ) : WithBot (WithTop ℚ))
  | .fin neg m e => ((ratOf neg m e : WithTop ℚ) : WithBot (WithTop ℚ))

theorem ratOf_shift (neg : Bool) (m : Nat) {e lo : Int} (h : lo ≤ e) :
    ratOf neg m e = ((sgnInt neg m * 2 ^ (e - lo).toNat : Int) : ℚ) * 2 ^ lo := by
  have h2 : (2 : ℚ) ^ e = 2 ^ (e - lo).toNat * 2 ^ lo := by
    rw [← zpow_natCast, ← zpow_add₀ (by norm_num), show ((e - lo).toNat : Int) + lo = e by omega]
  rw [ratOf, h2]
  push_cast
  ring

theorem X.cmp_fin_lt (n n' : Bool) (m m' : Nat) (e e' : Int) :
    (X.fin n m e).cmp (.fin n' m' e') = .lt ↔ ratOf n m e < ratOf n' m' e' := by
  rw [ratOf_shift n m (min_le_left e e'), ratOf_shift n' m' (min_le_right e e'),
    mul_lt_mul_iff_left₀ (by positivity), Int.cast_lt]
  exact compare_lt_iff_lt

theorem X.cmp_fin_gt (n n' : Bool) (m m' : Nat) (e e' : Int) :
    (X.fin n m e).cmp (.fin n' m' e') = .gt ↔ ratOf n' m' e' < ratOf n m e := by
  rw [ratOf_shift n m (min_le_left e e'), ratOf_shift n' m' (min_le_right e e'),
    mul_lt_mul_iff_left₀ (by positivity), Int.cast_lt]
  exact compare_gt_iff_gt

/-- A rational lies below the positive infinity. -/
theorem ratOf_lt_top (r : ℚ) : ((r : WithTop ℚ) : WithBot (WithTop ℚ)) < ⊤ :=
  WithBot.coe_lt_coe.mpr (WithTop.coe_lt_top r)

section
variable {x y : X} (hx : x.isNan = false) (hy : y.isNan = false)
include hx hy

theorem X.cmp_lt_iff : x.cmp y = .lt ↔ x.place < y.place := by
  cases x with
  | nan => simp [X.isNan] at hx
  | inf a =>
    cases y with
    | nan => simp [X.isNan] at hy
    | inf b => cases a <;> cases b <;> simp [X.cmp, X.place]
    | fin => cases a <;> simp [X.cmp, X.place]
  | fin =>
    cases y with
    | nan => simp [X.isNan] at hy
    | inf b =>
      cases b with
      | true => simp [X.cmp, X.place]
      | false => simpa [X.cmp, X.place] using ratOf_lt_top _
    | fin => simp [X.cmp_fin_lt, X.place, WithBot.coe_lt_coe]

theorem X.cmp_gt_iff : x.cmp y = .gt ↔ y.place < x.place := by
  cases x with
  | nan => simp [X.isNan] at hx
  | inf a =>
    cases y with
    | nan => simp [X.isNan] at hy
    | inf b => cases a <;> cases b <;> simp [X.cmp, X.place]
    | fin =>
      cases a with
      | true => simp [X.cmp, X.place]
      | false => simpa [X.cmp, X.place] using ratOf_lt_top _
  | fin =>
    cases y with
    | nan => simp [X.isNan] at hy
    | inf b => cases b <;> simp [X.cmp, X.place]
    | fin => simp [X.cmp_fin_gt, X.place, WithBot.coe_lt_coe]

theorem X.lt_iff : x.lt y = true ↔ x.place < y.place := by
  rw [X.lt, beq_iff_eq, X.cmp_lt_iff hx hy]

theorem X.lt_eq_false_iff : x.lt y = false ↔ y.place ≤ x.place := by
  rw [← not_lt, ← X.lt_iff hx hy, Bool.not_eq_true]

theorem X.le_iff : x.le y = true ↔ x.place ≤ y.place := by
  rw [X.le, bne_iff_ne, ne_eq, X.cmp_gt_iff hx hy, not_lt]

end

/-- Two finite magnitudes by their values. -/
theorem X.fin_le_fin (m m' : Nat) (e e' : Int) :
    (X.fin false m e).le (.fin false m' e') = true ↔ (m : ℚ) * 2 ^ e ≤ m' * 2 ^ e' := by
  rw [X.le_iff rfl rfl, X.place, X.place, WithBot.coe_le_coe, WithTop.coe_le_coe, ratOf, ratOf]
  simp only [sgnInt, Bool.false_eq_true, if_false, Int.cast_natCast]

end Sys2Proof.Machine
end

section
/-! SUPPORT. A block narrowed under one exponent, and the limits of a conversion into BF16 and F16 (R54, R59, R60, R62, R63). -/

namespace Sys2Proof.Machine

/-! ## The exponent of a block -/

/-- A number between two powers of two. -/
theorem log2_bounds {m : Nat} (h : 0 < m) : (2 : ℚ) ^ (Nat.log2 m : Int) ≤ m ∧ (m : ℚ) < 2 ^ ((Nat.log2 m : Int) + 1) := by
  have h1 : (2 : ℚ) ^ (Nat.log2 m : Nat) ≤ m := by exact_mod_cast Nat.log2_self_le h.ne'
  have h2 : (m : ℚ) < 2 ^ (Nat.log2 m + 1 : Nat) := by exact_mod_cast Nat.lt_log2_self
  exact ⟨by exact_mod_cast h1, by exact_mod_cast h2⟩

/-- The exponent is the smallest under which the largest magnitude holds the value (R54). -/
theorem blockExp_smallest (n n' : Bool) (m vm : Nat) (e ve : Int) (hm : 0 < m) (hv : 0 < vm) :
    let k := blockExp (.fin n m e) (.fin n' vm ve)
    (X.fin false m e).le (.fin false vm (ve + k)) = true ∧ (X.fin false m e).le (.fin false vm (ve + k - 1)) = false := by
  intro k
  obtain ⟨a, ha⟩ : ∃ a, a = (Nat.log2 m : Int) := ⟨_, rfl⟩
  obtain ⟨c, hc⟩ : ∃ c, c = (Nat.log2 vm : Int) := ⟨_, rfl⟩
  obtain ⟨hm1, hm2⟩ := ha ▸ log2_bounds hm
  obtain ⟨hv1, hv2⟩ := hc ▸ log2_bounds hv
  have hpow (i j : Int) : (2 : ℚ) ^ i * 2 ^ j = 2 ^ (i + j) := (zpow_add₀ (by norm_num) i j).symm
  have hk : k = if (X.fin false m e).le (.fin false vm (ve + (e + a - (ve + c)))) then e + a - (ve + c)
      else e + a - (ve + c) + 1 := by simp only [k, blockExp, ha, hc]
  rw [hk]
  split
  · next h =>
    refine ⟨h, Bool.eq_false_iff.mpr fun h' => absurd ((X.fin_le_fin _ _ _ _).mp h') (not_le.mpr ?_)⟩
    calc (vm : ℚ) * 2 ^ (ve + (e + a - (ve + c)) - 1) < 2 ^ (c + 1) * 2 ^ (ve + (e + a - (ve + c)) - 1) := by gcongr
      _ = 2 ^ a * 2 ^ e := by rw [hpow, hpow]; congr 1; omega
      _ ≤ m * 2 ^ e := by gcongr
  · next h =>
    refine ⟨(X.fin_le_fin _ _ _ _).mpr ?_, ?_⟩
    · calc (m : ℚ) * 2 ^ e ≤ 2 ^ (a + 1) * 2 ^ e := by gcongr
        _ = 2 ^ c * 2 ^ (ve + (e + a - (ve + c) + 1)) := by rw [hpow, hpow]; congr 1; omega
        _ ≤ vm * 2 ^ (ve + (e + a - (ve + c) + 1)) := by gcongr
    · rw [show ve + (e + a - (ve + c) + 1) - 1 = ve + (e + a - (ve + c)) by omega]
      exact Bool.eq_false_iff.mpr h

/-! ## A block's codes -/

section
variable (c : Enc) (xs : List (Nat × X))

/-- A block's input scaled. -/
def Enc.scaled (x : X) : X := (scaleElem c.fmt false (invScale c.scale) x).1
/-- The largest scaled magnitude of a block. -/
def Enc.top : X := xs.foldl (fun m x => X.max m (c.scaled x.2).abs) X.zero
/-- The exponent of a block, within its bounds. -/
def Enc.exp : Int := min (max (blockExp (c.top xs) (vmaxX c.fmt c.table)) (-126)) 127
/-- The codes of a block under its exponent. -/
def Enc.codes : List Nat :=
  xs.map fun x => (roundElem c.fmt c.table false false (rndOf c.rnd c.key x.1) ((c.scaled x.2).scale (-c.exp xs))).1

/-- A block with an input that is not finite is a non-finite block. -/
theorem encBlock_nonfinite (h : ∃ x ∈ xs, x.2.isFinite = false) :
    (encBlock c xs).1 = 255 ∧ (encBlock c xs).2.1 = xs.map (fun _ => 0)
      ∧ (encBlock c xs).2.2.nonfin = (xs.filter fun x => !x.2.isFinite).length ∧ (encBlock c xs).2.2.sat = 0
      ∧ (encBlock c xs).2.2.zblk = 0 := by
  have hany : xs.any (fun e => !e.2.isFinite) = true :=
    List.any_eq_true.mpr (h.imp fun x hx => ⟨hx.1, by rw [hx.2, Bool.not_false]⟩)
  rw [encBlock]
  dsimp only
  rw [if_pos hany]
  exact ⟨rfl, rfl, rfl, rfl, rfl⟩

variable {xs} in
/-- A finite block: a zero block where its scaled values or its codes are all zero, and else its codes under their exponent. -/
theorem encBlock_finite (h : ∀ x ∈ xs, x.2.isFinite = true) :
    if (c.top xs).isZero || (c.codes xs).all (fun w => (elemX c.fmt c.table w).isZero)
    then (encBlock c xs).1 = 0 ∧ (encBlock c xs).2.1 = xs.map (fun _ => 0) ∧ (encBlock c xs).2.2.zblk = 1
    else (encBlock c xs).1 = (c.exp xs + 127).toNat ∧ (encBlock c xs).2.1 = c.codes xs ∧ (encBlock c xs).2.2.zblk = 0
      ∧ (encBlock c xs).2.2.nonfin = 0 := by
  have hany : ¬ xs.any (fun e => !e.2.isFinite) = true := by
    rw [List.any_eq_true]
    rintro ⟨x, hx, hbad⟩
    simp [h x hx] at hbad
  have htop : (xs.map fun e => (e.1, e.2, scaleElem c.fmt false (invScale c.scale) e.2)).foldl
      (fun m e => X.max m e.2.2.1.abs) X.zero = c.top xs := List.foldl_map
  rw [encBlock]
  dsimp -zeta only
  rw [if_neg hany]
  extract_lets inv ys m sat0 evn e0 e rs ev
  have hm : m = c.top xs := htop
  have hcodes : rs.map (fun r => r.code) = c.codes xs := by
    simp only [rs, ys, List.map_map]
    simp only [Enc.codes, Enc.exp, ← htop]
    rfl
  have hall : rs.all (fun r => r.zero) = (c.codes xs).all fun w => (elemX c.fmt c.table w).isZero := by
    rw [← hcodes, List.all_map]
    simp only [rs, List.all_map]
    rfl
  have hlen {α : Type} (z : α) : (rs.map fun _ => z) = xs.map fun _ => z := by
    simp only [rs, ys, List.map_map]
    rfl
  have he : e = c.exp xs := by simp only [e, e0, Enc.exp, hm]
  rw [hm, hall, hcodes, hlen, he]
  cases (c.top xs).isZero with
  | true => exact ⟨rfl, rfl, rfl⟩
  | false =>
    cases (c.codes xs).all (fun w => (elemX c.fmt c.table w).isZero) with
    | true => exact ⟨rfl, rfl, rfl⟩
    | false => exact ⟨rfl, rfl, rfl, rfl⟩

end

/-- Blocks are narrowed as R54 says. -/
theorem blockRules : BlockRules := by
  refine ⟨blockExp_smallest, fun c xs => ?_⟩
  intro y top k codes out
  refine ⟨encBlock_nonfinite c xs, fun hfin hzero => ?_, fun hfin htop ⟨w, hw, hnz⟩ => ?_⟩
  · have hz : ((c.top xs).isZero || (c.codes xs).all (fun w => (elemX c.fmt c.table w).isZero)) = true :=
      Bool.or_eq_true_iff.mpr (hzero.imp_right List.all_eq_true.mpr)
    have hout := encBlock_finite c hfin
    rw [hz, if_pos rfl] at hout
    exact hout
  · have hall : (c.codes xs).all (fun w => (elemX c.fmt c.table w).isZero) = false :=
      List.all_eq_false.mpr ⟨w, hw, Bool.eq_false_iff.mp hnz⟩
    have htop' : (c.top xs).isZero = false := htop
    have hout := encBlock_finite c hfin
    rw [hall, htop', Bool.or_false, if_neg Bool.false_ne_true] at hout
    exact hout

/-! ## The limits of BF16 and F16 -/

section
variable (c : Enc) (i : Nat) (neg : Bool) (hf : c.fmt = BF16 ∨ c.fmt = F16)
include hf

/-- A finite value is narrowed by rounding it under the limit rules, with INF acting. -/
theorem encPlain_fin (m : Nat) (e : Int) :
    let r := roundElem c.fmt c.table true c.inf (rndOf c.rnd c.key i) (.fin neg m e)
    (encPlain c i (.fin neg m e)).1 = r.1 ∧ (encPlain c i (.fin neg m e)).2.sat = (if r.2.1 then 1 else 0)
      ∧ (encPlain c i (.fin neg m e)).2.nonfin = if r.2.2 then 1 else 0 := by
  have hwide : isWide c.fmt = true := by rcases hf with h | h <;> rw [h] <;> rfl
  have hF32 : ¬ c.fmt = F32 := by rcases hf with h | h <;> rw [h] <;> decide
  intro r
  rw [encPlain]
  dsimp only
  rw [if_neg hF32, if_pos hwide]
  simp only [hwide, Bool.or_true, Bool.and_true, Bool.or_false]
  exact ⟨rfl, rfl, rfl⟩

/-- The code of a finite value within or beyond Vmax. -/
theorem roundElem_fin (t : VTable) (honour : Bool) (mode : Rnd) (m : Nat) (e : Int) :
    roundElem c.fmt t true honour mode (.fin neg m e) =
      let sign := if neg then signWeight c.fmt else 0
      if (vmaxX c.fmt t).lt (.fin false m e) then
        if honour then
          if mode = .rz ∨ (X.fin false (2 * ((fmtOf c.fmt).mag (vmaxCode c.fmt)).1 + 1)
              (((fmtOf c.fmt).mag (vmaxCode c.fmt)).2 - 1)).le (.fin false m e) = false then (sign + vmaxCode c.fmt, false, false)
          else (infOf c.fmt neg, false, true)
        else (sign + vmaxCode c.fmt, true, false)
      else (sign + (fmtOf c.fmt).roundMag mode neg m e, false, false) := by
  have htab : ¬ isTable c.fmt = true := by rcases hf with h | h <;> rw [h] <;> decide
  have hsign : signCode c.fmt true neg = fun k => (if neg then signWeight c.fmt else 0) + k := by
    funext k
    rcases hf with h | h <;> rw [h] <;> simp [signCode, BF16, F16, Q4I, M8L, M8Q]
  unfold roundElem
  rw [if_neg htab]
  dsimp only
  rw [hsign]
  by_cases hbig : (vmaxX c.fmt t).lt (X.fin false m e) = true
  · have hbig' : ((vmaxX c.fmt t).cmp (X.fin false m e) == .lt) = true := hbig
    rw [if_pos hbig, if_pos hbig']
    cases honour with
    | false => rfl
    | true =>
      cases mode with
      | rz => simp only [true_or, if_true]
      | rne => simp only [reduceCtorEq, false_or, if_true]; split <;> simp_all
      | sr r => simp only [reduceCtorEq, false_or, if_true]; split <;> simp_all
  · have hbig' : ¬ ((vmaxX c.fmt t).cmp (X.fin false m e) == .lt) = true := hbig
    rw [if_neg hbig, if_neg hbig']

end

/-- Vmax is a magnitude. -/
theorem place_vmaxX (f : Nat) (t : VTable) (hf : f = BF16 ∨ f = F16) (e : Int) :
    (X.fin false 0 e).place ≤ (vmaxX f t).place := by
  have h (m : Nat) (e' : Int) : (X.fin false 0 e).le (.fin false m e') = true :=
    (X.fin_le_fin _ _ _ _).mpr (by simp; positivity)
  rcases hf with rfl | rfl <;> exact (X.le_iff rfl rfl).mp (h _ _)

/-- Vmax and signs, as R59 to R63 say. -/
theorem limitRules : LimitRules := by
  intro c i neg hf sign
  refine ⟨rfl, rfl, rfl, rfl, fun e => ?_, fun m e hbig => ?_⟩
  · obtain ⟨hcode, -⟩ := encPlain_fin c i neg hf 0 e
    have hzero : ¬ (vmaxX c.fmt c.table).lt (.fin false 0 e) = true := by
      have hv : (vmaxX c.fmt c.table).isNan = false := by rcases hf with h | h <;> rw [h] <;> rfl
      rw [X.lt_iff hv rfl, not_lt]
      exact place_vmaxX _ _ hf e
    rw [hcode, roundElem_fin c neg hf]
    dsimp only
    rw [if_neg hzero]
    simp [sign, Fmt.roundMag, Fmt.floorMag]
  · obtain ⟨hcode, hsat, hinf⟩ := encPlain_fin c i neg hf m e
    have hr := roundElem_fin c neg hf c.table c.inf (rndOf c.rnd c.key i) m e
    simp only [if_pos hbig] at hr
    refine ⟨fun h => ?_, fun h hmode hle => ?_, fun h hor => ?_⟩
    · rw [h, if_neg Bool.false_ne_true] at hr
      rw [h, hr] at hcode hsat
      exact ⟨hcode, hsat⟩
    · have hnot : ¬ (rndOf c.rnd c.key i = .rz ∨ (X.fin false (2 * ((fmtOf c.fmt).mag (vmaxCode c.fmt)).1 + 1)
          (((fmtOf c.fmt).mag (vmaxCode c.fmt)).2 - 1)).le (.fin false m e) = false) :=
        not_or.mpr ⟨hmode, by rw [Bool.not_eq_false]; exact hle⟩
      rw [h, if_pos rfl, if_neg hnot] at hr
      rw [h, hr] at hcode hsat hinf
      exact ⟨hcode, hinf, hsat⟩
    · have hor' : rndOf c.rnd c.key i = .rz ∨ (X.fin false (2 * ((fmtOf c.fmt).mag (vmaxCode c.fmt)).1 + 1)
          (((fmtOf c.fmt).mag (vmaxCode c.fmt)).2 - 1)).le (.fin false m e) = false := hor
      rw [h, if_pos rfl, if_pos hor'] at hr
      rw [h, hr] at hcode hsat hinf
      exact ⟨hcode, hsat, hinf⟩

end Sys2Proof.Machine
end

section
/-!
SUPPORT. The Screens' element operations, their row reductions and the tails of a curve (R181, R183, R185).
-/

namespace Sys2Proof.Machine

/-! ## The larger and the smaller -/

theorem X.lt_irrefl {a : X} (ha : a.isNan = false) : a.lt a = false := by rw [X.lt_eq_false_iff ha ha]

section
variable {a b : X}

theorem scMax_nan (h : a.isNan = true ∨ b.isNan = true) : scMax a b = .nan false := by
  rw [scMax, if_pos (Bool.or_eq_true_iff.mpr h)]

theorem scMin_nan (h : a.isNan = true ∨ b.isNan = true) : scMin a b = .nan false := by
  rw [scMin, if_pos (Bool.or_eq_true_iff.mpr h)]

variable (ha : a.isNan = false) (hb : b.isNan = false)
include ha hb

/-- MAX of numbers: the one that lies higher, and of equals the first without its minus sign. -/
theorem scMax_eq : scMax a b = if a.lt b then b else if b.lt a then a else if a.neg then b else a := by
  rw [scMax, if_neg (by simp [ha, hb])]

/-- MIN of numbers: the one that lies lower, and of equals the first with its minus sign. -/
theorem scMin_eq : scMin a b = if a.lt b then a else if b.lt a then b else if a.neg then a else b := by
  rw [scMin, if_neg (by simp [ha, hb])]

theorem X.lt_asymm (h : a.lt b = true) : b.lt a = false := by
  rw [X.lt_eq_false_iff hb ha]
  exact ((X.lt_iff ha hb).mp h).le

theorem scMax_spec : (scMax a b = a ∨ scMax a b = b) ∧ (scMax a b).lt a = false ∧ (scMax a b).lt b = false := by
  rw [scMax_eq ha hb]
  cases hab : a.lt b with
  | true => exact ⟨.inr rfl, X.lt_asymm ha hb hab, X.lt_irrefl hb⟩
  | false =>
    cases hba : b.lt a with
    | true => exact ⟨.inl rfl, X.lt_irrefl ha, hab⟩
    | false =>
      cases a.neg with
      | true => exact ⟨.inr rfl, hba, X.lt_irrefl hb⟩
      | false => exact ⟨.inl rfl, X.lt_irrefl ha, hab⟩

theorem scMin_spec : (scMin a b = a ∨ scMin a b = b) ∧ a.lt (scMin a b) = false ∧ b.lt (scMin a b) = false := by
  rw [scMin_eq ha hb]
  cases hab : a.lt b with
  | true => exact ⟨.inl rfl, X.lt_irrefl ha, X.lt_asymm ha hb hab⟩
  | false =>
    cases hba : b.lt a with
    | true => exact ⟨.inr rfl, hab, X.lt_irrefl hb⟩
    | false =>
      cases a.neg with
      | true => exact ⟨.inl rfl, X.lt_irrefl ha, hba⟩
      | false => exact ⟨.inr rfl, hab, X.lt_irrefl hb⟩

end

/-- Every zero lies at the same place. -/
theorem X.place_zero {a : X} (h : a.isZero = true) : a.isNan = false ∧ a.place = ((0 : WithTop ℚ) : WithBot (WithTop ℚ)) := by
  cases a with
  | nan => cases h
  | inf => cases h
  | fin n m e =>
    have hm : m = 0 := by simpa [X.isZero] using h
    subst hm
    refine ⟨rfl, ?_⟩
    rw [X.place, ratOf, show sgnInt n 0 = 0 by cases n <;> rfl, Int.cast_zero, zero_mul]
    rfl

theorem X.lt_zeros {a b : X} (ha : a.isZero = true) (hb : b.isZero = true) : a.lt b = false := by
  obtain ⟨na, pa⟩ := X.place_zero ha
  obtain ⟨nb, pb⟩ := X.place_zero hb
  rw [X.lt_eq_false_iff na nb, pa, pb]

/-- The signs of the larger and the smaller of two zeros. -/
theorem scMax_scMin_zeros {a b : X} (ha : a.isZero = true) (hb : b.isZero = true) :
    (scMax a b).neg = (a.neg && b.neg) ∧ (scMin a b).neg = (a.neg || b.neg) := by
  have na := (X.place_zero ha).1
  have nb := (X.place_zero hb).1
  rw [scMax_eq na nb, scMin_eq na nb, X.lt_zeros ha hb, X.lt_zeros hb ha]
  cases h : a.neg <;> simp [h]

/-! ## A row's reduction -/

/-- The elements of a lane are those whose index lies in it. -/
theorem filter_range_lane {l : Nat} (hl : l < 256) (n : Nat) :
    (List.range n).filter (fun i => i % 256 == l) = (List.range (ceilDiv (n - l) 256)).map (fun k => l + 256 * k) := by
  induction n with
  | zero => simp [ceilDiv]
  | succ n ih =>
    rw [List.range_succ, List.filter_append, ih]
    by_cases h : n % 256 = l
    · have hn : ceilDiv (n + 1 - l) 256 = ceilDiv (n - l) 256 + 1 ∧ l + 256 * ceilDiv (n - l) 256 = n := by
        simp only [ceilDiv]
        omega
      simp [hn.1, List.range_succ, h, hn.2]
    · have hn : ceilDiv (n + 1 - l) 256 = ceilDiv (n - l) 256 := by
        simp only [ceilDiv]
        omega
      simp [hn, h]

theorem opLevel_map_range (op : X → X → X) (f : Nat → X) (m : Nat) :
    opLevel op ((List.range (2 * m)).map f) = (List.range m).map fun j => op (f (2 * j)) (f (2 * j + 1)) := by
  induction m generalizing f with
  | zero => rfl
  | succ m ih =>
    have hsplit : (List.range (2 * (m + 1))).map f = f 0 :: f 1 :: (List.range (2 * m)).map fun i => f (i + 2) := by
      rw [show 2 * (m + 1) = 2 * m + 1 + 1 by ring, List.range_succ_eq_map, List.range_succ_eq_map]
      simp [Function.comp_def]
    rw [hsplit, opLevel, ih, List.range_succ_eq_map]
    simp [Function.comp_def, Nat.mul_add]

/-- The levels above level i. -/
theorem opTree_treeRow (op : X → X → X) (lane : Nat → X) (n i k : Nat) :
    opTree op n ((List.range (2 ^ n * k)).map (treeRow op lane i)) = (List.range k).map (treeRow op lane (i + n)) := by
  induction n generalizing i with
  | zero => simp [opTree]
  | succ n ih =>
    rw [opTree, show 2 ^ (n + 1) * k = 2 * (2 ^ n * k) by ring, opLevel_map_range,
      show i + (n + 1) = i + 1 + n by ring, ← ih (i + 1)]
    rfl

/-- A lane's fold. -/
def laneOf (op : X → X → X) (id : X) (xs : List X) (l : Nat) : X :=
  ((List.range xs.length).filter fun i => i % 256 == l).foldl (fun a i => op a (xs.getD i X.zero)) id

theorem laneReduce_eq (op : X → X → X) (id : X) (xs : List X) : laneReduce op id xs = treeRow op (laneOf op id xs) 8 0 := by
  have hlanes : ((List.range 256).map fun l =>
      (List.range (ceilDiv (xs.length - l) 256)).foldl (fun a k => op a (xs.getD (l + 256 * k) X.zero)) id)
      = (List.range (2 ^ 8 * 1)).map (treeRow op (laneOf op id xs) 0) := by
    refine List.map_congr_left fun l hl => ?_
    rw [treeRow, laneOf, filter_range_lane (List.mem_range.mp hl), List.foldl_map]
  rw [laneReduce, hlanes, opTree_treeRow]
  rfl

/-! ## What a reduction keeps and takes over from its elements -/

section
variable {op : X → X → X} {P Q : X → Prop} (hP : ∀ a b, P a → P b → P (op a b))
include hP

theorem treeRow_closed {lane : Nat → X} (h : ∀ l, P (lane l)) (n j : Nat) : P (treeRow op lane n j) := by
  induction n generalizing j with
  | zero => exact h j
  | succ n ih => exact hP _ _ (ih _) (ih _)

variable {ι : Type} {f : ι → X} in
theorem foldl_closed {l : List ι} (h : ∀ i ∈ l, P (f i)) {x : X} (hx : P x) : P (l.foldl (fun a i => op a (f i)) x) := by
  induction l generalizing x with
  | nil => exact hx
  | cons i l ih => exact ih (fun j hj => h j (.tail _ hj)) (hP _ _ hx (h i (.head _)))

/-- A property that the operation keeps, of its identity and of every element, is one of the reduction. -/
theorem laneReduce_closed {id : X} {xs : List X} (hid : P id) (h : ∀ x ∈ xs, P x) : P (laneReduce op id xs) := by
  rw [laneReduce_eq]
  refine treeRow_closed hP (fun l => foldl_closed hP (fun i hi => ?_) hid) 8 0
  have hi' : i < xs.length := List.mem_range.mp (List.mem_of_mem_filter hi)
  rw [List.getD_eq_getElem _ _ hi']
  exact h _ (List.getElem_mem hi')

variable (hQ : ∀ a b, P a → P b → Q a ∨ Q b → Q (op a b))
include hQ

theorem treeRow_absorbs {lane : Nat → X} (h : ∀ l, P (lane l)) {l : Nat} (hl : Q (lane l)) (n : Nat) :
    Q (treeRow op lane n (l / 2 ^ n)) := by
  induction n with
  | zero => simpa [treeRow] using hl
  | succ n ih =>
    refine hQ _ _ (treeRow_closed hP h _ _) (treeRow_closed hP h _ _) ?_
    rw [pow_succ, ← Nat.div_div_eq_div_mul]
    rcases Nat.mod_two_eq_zero_or_one (l / 2 ^ n) with h0 | h1
    · exact .inl (by rwa [show 2 * (l / 2 ^ n / 2) = l / 2 ^ n by omega])
    · exact .inr (by rwa [show 2 * (l / 2 ^ n / 2) + 1 = l / 2 ^ n by omega])

variable {ι : Type} {f : ι → X} in
theorem foldl_absorbs {l : List ι} (h : ∀ i ∈ l, P (f i)) {x : X} (hx : P x) (hq : Q x ∨ ∃ i ∈ l, Q (f i)) :
    Q (l.foldl (fun a i => op a (f i)) x) := by
  induction l generalizing x with
  | nil => simpa using hq
  | cons i l ih =>
    have hi := h i (.head _)
    refine ih (fun j hj => h j (.tail _ hj)) (hP _ _ hx hi) ?_
    rcases hq with hq | ⟨j, hj, hq⟩
    · exact .inl (hQ _ _ hx hi (.inl hq))
    · cases hj with
      | head => exact .inl (hQ _ _ hx hi (.inr hq))
      | tail _ hj => exact .inr ⟨j, hj, hq⟩

/-- A property that the operation takes over from either side is one of the reduction, where some element has it. -/
theorem laneReduce_absorbs {id : X} {xs : List X} (hid : P id) (h : ∀ x ∈ xs, P x) {x : X} (hx : x ∈ xs) (hq : Q x) :
    Q (laneReduce op id xs) := by
  have hmem (i : Nat) (l : Nat) (hi : i ∈ (List.range xs.length).filter fun i => i % 256 == l) : P (xs.getD i X.zero) := by
    have hi' : i < xs.length := List.mem_range.mp (List.mem_of_mem_filter hi)
    rw [List.getD_eq_getElem _ _ hi']
    exact h _ (List.getElem_mem hi')
  obtain ⟨i, hi, rfl⟩ := List.mem_iff_getElem.mp hx
  have hlane : Q (laneOf op id xs (i % 256)) := by
    refine foldl_absorbs hP hQ (fun j hj => hmem j _ hj) hid (.inr ⟨i, ?_, ?_⟩)
    · exact List.mem_filter.mpr ⟨List.mem_range.mpr hi, beq_self_eq_true _⟩
    · rwa [List.getD_eq_getElem _ _ hi]
  have hroot := treeRow_absorbs hP hQ (fun l => foldl_closed hP (fun j hj => hmem j l hj) hid) hlane 8
  rw [show i % 256 / 2 ^ 8 = 0 by omega] at hroot
  rw [laneReduce_eq]
  exact hroot

end

/-! ## The maximum of a row -/

/-- Only minus infinity lies lowest. -/
theorem X.eq_inf_of_place {x : X} (hx : x.isNan = false) (h : x.place ≤ ⊥) : x = .inf true := by
  cases x with
  | nan => cases hx
  | inf n =>
    cases n with
    | true => rfl
    | false => exact absurd (le_bot_iff.mp h) WithBot.coe_ne_bot
  | fin n m e => exact absurd (le_bot_iff.mp h) WithBot.coe_ne_bot

theorem rmax_eq (xs : List X) : rowReduce .rmax xs = laneReduce scMax (.inf true) xs := rfl

theorem rmax_isNan {xs : List X} (h : ∃ x ∈ xs, x.isNan = true) : (rowReduce .rmax xs).isNan = true := by
  obtain ⟨x, hx, hn⟩ := h
  rw [rmax_eq]
  refine laneReduce_absorbs (P := fun _ => True) (Q := fun y => y.isNan = true) (fun _ _ _ _ => trivial) ?_ trivial
    (fun _ _ => trivial) hx hn
  intro a b _ _ hab
  rw [scMax_nan hab]
  rfl

section
variable {xs : List X} (h : ∀ x ∈ xs, x.isNan = false)
include h

theorem rmax_not_lt : ∀ x ∈ xs, (rowReduce .rmax xs).lt x = false := by
  intro x hx
  have hn := h x hx
  rw [rmax_eq]
  refine laneReduce_absorbs (P := fun y => y.isNan = false) (Q := fun y => y.lt x = false) (fun a b ha hb => ?_)
    (fun a b ha hb hab => ?_) rfl h hx (X.lt_irrefl hn)
  · rcases (scMax_spec ha hb).1 with he | he <;> rw [he] <;> assumption
  · obtain ⟨hor, hga, hgb⟩ := scMax_spec ha hb
    have hm : (scMax a b).isNan = false := by rcases hor with he | he <;> rw [he] <;> assumption
    rw [X.lt_eq_false_iff hm ha] at hga
    rw [X.lt_eq_false_iff hm hb] at hgb
    rw [X.lt_eq_false_iff ha hn, X.lt_eq_false_iff hb hn] at hab
    rw [X.lt_eq_false_iff hm hn]
    exact hab.elim (le_trans · hga) (le_trans · hgb)

theorem rmax_mem (hne : xs ≠ []) : rowReduce .rmax xs ∈ xs := by
  have hor : (rowReduce .rmax xs).isNan = false ∧ (rowReduce .rmax xs = .inf true ∨ rowReduce .rmax xs ∈ xs) := by
    rw [rmax_eq]
    refine laneReduce_closed (P := fun y => y.isNan = false ∧ (y = .inf true ∨ y ∈ xs)) (fun a b ha hb => ?_) ⟨rfl, .inl rfl⟩
      (fun x hx => ⟨h x hx, .inr hx⟩)
    rcases (scMax_spec ha.1 hb.1).1 with he | he <;> rw [he] <;> assumption
  rcases hor.2 with hinf | hmem
  · obtain ⟨x, hx⟩ := List.exists_mem_of_ne_nil xs hne
    have hlow := rmax_not_lt h x hx
    rw [hinf] at hlow ⊢
    rw [X.lt_eq_false_iff rfl (h x hx)] at hlow
    exact X.eq_inf_of_place (h x hx) hlow ▸ hx
  · exact hmem

end

/-! ## A curve's tails -/

section
variable (c : List Word) {x : X}

theorem curveAt_nan (hx : x.isNan = true) : curveAt c x = .nan false := by
  rw [curveAt]
  exact if_pos hx

theorem curveAt_below (hx : x.isNan = false) (hlo : x.lt (lo32 (c.getD 0 0)) = true) :
    curveAt c x = if (lo32 (c.getD 1 0)).isZero then hi32 (c.getD 1 0)
      else sc ((sc ((lo32 (c.getD 1 0)).mul x)).add (hi32 (c.getD 1 0))) := by
  unfold curveAt
  extract_lets _
  rw [if_neg (Bool.eq_false_iff.mp hx), if_pos hlo]

theorem curveAt_above (hx : x.isNan = false) (hlo : x.lt (lo32 (c.getD 0 0)) = false)
    (hhi : ((lo32 (c.getD 0 0)).add (X.fin false (hdrSegs (c.getD 0 0)) (sext 8 (fld (c.getD 0 0) 32 8)))).le x = true) :
    curveAt c x = if (lo32 (c.getD 2 0)).isZero then hi32 (c.getD 2 0)
      else sc ((sc ((lo32 (c.getD 2 0)).mul x)).add (hi32 (c.getD 2 0))) := by
  unfold curveAt
  extract_lets _
  rw [if_neg (Bool.eq_false_iff.mp hx), if_neg (Bool.eq_false_iff.mp hlo), if_pos hhi]

end

/-- The Screens' operations, reductions and curves, as R181, R183 and R185 say. -/
theorem screenElements : ScreenElements := by
  refine ⟨fun f a b c => ⟨rfl, rfl, rfl, rfl, rfl, rfl, rfl, rfl, rfl, rfl, rfl, rfl, rfl⟩, fun a b => ⟨fun h => ?_, fun ha hb => ?_⟩,
    laneReduce_eq, fun xs => ⟨rmax_isNan, fun h => ⟨rmax_not_lt h, rmax_mem h⟩⟩,
    fun c x => ⟨curveAt_nan c, curveAt_below c, curveAt_above c⟩⟩
  · rw [scMax_nan h, scMin_nan h]
    exact ⟨rfl, rfl⟩
  · obtain ⟨hmax, hmaxa, hmaxb⟩ := scMax_spec ha hb
    obtain ⟨hmin, hmina, hminb⟩ := scMin_spec ha hb
    exact ⟨hmax, hmaxa, hmaxb, hmin, hmina, hminb, scMax_scMin_zeros⟩

end Sys2Proof.Machine
end

section
/-!
SUPPORT. The rows of SCR.SMAX, the selection of SCR.TOPK and the update of SCR.OPT (R189, R190, R192).
-/

namespace Sys2Proof.Machine

/-! ## The order of a selection -/

/-- How high a value ranks: by itself or by its magnitude, a NaN above all. -/
def topRank (byValue : Bool) (x : X) : WithTop (WithBot (WithTop ℚ)) :=
  if x.isNan then ⊤ else ((if byValue then x else x.abs).place : WithTop (WithBot (WithTop ℚ)))

theorem X.abs_isNan (x : X) : x.abs.isNan = x.isNan := by cases x <;> rfl

theorem topAbove_iff (byValue : Bool) (a b : X) : topAbove byValue a b = true ↔ topRank byValue b < topRank byValue a := by
  cases ha : a.isNan with
  | true => cases hb : b.isNan <;> simp [topAbove, topRank, ha, hb]
  | false =>
    cases hb : b.isNan with
    | true => simp [topAbove, topRank, ha, hb]
    | false =>
      cases byValue with
      | true => simp [topAbove, topRank, ha, hb, X.lt_iff hb ha]
      | false =>
        have ha' := (X.abs_isNan a).trans ha
        have hb' := (X.abs_isNan b).trans hb
        simp [topAbove, topRank, ha, hb, X.lt_iff hb' ha']

theorem topAbove_eq_false_iff (byValue : Bool) (a b : X) :
    topAbove byValue a b = false ↔ topRank byValue a ≤ topRank byValue b := by
  rw [← not_lt, ← topAbove_iff, Bool.not_eq_true]

/-- An element goes before another: it ranks higher, or as high at a lower position. -/
def TopBefore (byValue : Bool) (x y : Nat × X) : Prop :=
  topAbove byValue y.2 x.2 = false ∧ (topAbove byValue x.2 y.2 = false → x.1 < y.1)

/-! ## The selection sorts -/

section
variable (byValue : Bool)

theorem topInsert_perm (x : Nat × X) (l : List (Nat × X)) : (topInsert byValue x l).Perm (x :: l) := by
  induction l with
  | nil => exact .refl _
  | cons y rest ih =>
    rw [topInsert]
    split
    · exact .refl _
    · exact (ih.cons y).trans (.swap x y rest)

/-- Inserting an element of a higher position keeps the order. -/
theorem topInsert_sorted (x : Nat × X) {l : List (Nat × X)} (hl : l.Pairwise (TopBefore byValue)) (hx : ∀ y ∈ l, y.1 < x.1) :
    (topInsert byValue x l).Pairwise (TopBefore byValue) := by
  induction l with
  | nil => exact List.pairwise_singleton _ _
  | cons y rest ih =>
    obtain ⟨hy, hrest⟩ := List.pairwise_cons.mp hl
    rw [topInsert]
    split
    · next habove =>
      refine List.pairwise_cons.mpr ⟨fun z hz => ?_, hl⟩
      have hxy := (topAbove_iff byValue _ _).mp habove
      have hlow : topRank byValue z.2 < topRank byValue x.2 := by
        rcases List.mem_cons.mp hz with rfl | hz
        · exact hxy
        · exact lt_of_le_of_lt ((topAbove_eq_false_iff byValue _ _).mp (hy z hz).1) hxy
      exact ⟨(topAbove_eq_false_iff byValue _ _).mpr hlow.le,
        fun h => absurd ((topAbove_eq_false_iff byValue _ _).mp h) (not_le.mpr hlow)⟩
    · next habove =>
      refine List.pairwise_cons.mpr ⟨fun z hz => ?_, ih hrest fun z hz => hx z (.tail _ hz)⟩
      rcases List.mem_cons.mp ((topInsert_perm byValue x rest).mem_iff.mp hz) with rfl | hz
      · exact ⟨Bool.eq_false_iff.mpr habove, fun _ => hx y (.head _)⟩
      · exact hy z hz

/-- Inserting elements in the order of their positions sorts them. -/
theorem foldl_topInsert (L l : List (Nat × X)) (hl : l.Pairwise (TopBefore byValue))
    (hL : L.Pairwise fun x y => x.1 < y.1) (hlL : ∀ y ∈ l, ∀ x ∈ L, y.1 < x.1) :
    (L.foldl (fun l x => topInsert byValue x l) l).Pairwise (TopBefore byValue)
      ∧ (L.foldl (fun l x => topInsert byValue x l) l).Perm (L ++ l) := by
  induction L generalizing l with
  | nil => exact ⟨hl, .refl _⟩
  | cons x L ih =>
    obtain ⟨hx, hL'⟩ := List.pairwise_cons.mp hL
    have hperm := topInsert_perm byValue x l
    obtain ⟨hsorted, hall⟩ := ih (topInsert byValue x l) (topInsert_sorted byValue x hl fun y hy => hlL y hy x (.head _)) hL'
      (fun y hy z hz => by
        rcases List.mem_cons.mp (hperm.mem_iff.mp hy) with rfl | hy
        · exact hx z hz
        · exact hlL y hy z (.tail _ hz))
    exact ⟨hsorted, hall.trans ((hperm.append_left L).trans List.perm_middle)⟩

end

/-! ## What a selection gives -/

/-- A row's elements with their positions. -/
def positions (xs : List X) : List (Nat × X) := xs.zipIdx.map fun e => (e.2, e.1)

theorem mem_positions {xs : List X} {e : Nat × X} : e ∈ positions xs ↔ xs[e.1]? = some e.2 := by
  rw [positions, List.mem_map]
  constructor
  · rintro ⟨p, hp, rfl⟩
    exact List.mem_zipIdx_iff_getElem?.mp hp
  · exact fun h => ⟨(e.2, e.1), List.mem_zipIdx_iff_getElem?.mpr h, rfl⟩

theorem positions_fst (xs : List X) : (positions xs).map Prod.fst = List.range xs.length := by
  rw [positions, List.map_map]
  exact (List.zipIdx_map_snd 0 xs).trans (List.range_eq_range' ..).symm

theorem positions_rising (xs : List X) : (positions xs).Pairwise fun x y => x.1 < y.1 := by
  rw [← List.pairwise_map (f := Prod.fst) (R := (· < ·)), positions_fst]
  exact List.pairwise_lt_range

section
variable (byValue : Bool) (xs : List X)

/-- A row's elements in the order of a selection. -/
def topSorted : List (Nat × X) := (positions xs).foldl (fun l x => topInsert byValue x l) []

theorem topRow_eq (k : Nat) : topRow byValue k xs = (topSorted byValue xs).take k := rfl

theorem topSorted_spec : (topSorted byValue xs).Pairwise (TopBefore byValue) ∧ (topSorted byValue xs).Perm (positions xs) := by
  obtain ⟨hs, hp⟩ := foldl_topInsert byValue (positions xs) [] .nil (positions_rising xs) (fun _ h => nomatch h)
  rw [List.append_nil] at hp
  exact ⟨hs, hp⟩

/-- The k elements that rank highest, in descending order, ties to the lower position (R190). -/
theorem topRow_spec (k : Nat) (hk : k ≤ xs.length) :
    let l := topRow byValue k xs
    l.length = k ∧ (l.map Prod.fst).Nodup ∧ (∀ e ∈ l, xs[e.1]? = some e.2) ∧ l.Pairwise (TopBefore byValue)
      ∧ ∀ j v, xs[j]? = some v → j ∉ l.map Prod.fst → ∀ e ∈ l, TopBefore byValue e (j, v) := by
  intro l
  obtain ⟨hsorted, hperm⟩ := topSorted_spec byValue xs
  have hl : l = (topSorted byValue xs).take k := topRow_eq byValue xs k
  have hlen : (topSorted byValue xs).length = xs.length := by
    rw [hperm.length_eq, positions, List.length_map, List.length_zipIdx]
  have hnodup : ((topSorted byValue xs).map Prod.fst).Nodup := by
    rw [(hperm.map Prod.fst).nodup_iff, positions_fst]
    exact List.nodup_range
  refine ⟨by rw [hl, List.length_take, hlen, min_eq_left hk], ?_, fun e he => ?_, ?_, fun j v hj hout e he => ?_⟩
  · rw [hl]
    exact hnodup.sublist ((List.take_sublist _ _).map _)
  · rw [hl] at he
    exact mem_positions.mp (hperm.mem_iff.mp (List.mem_of_mem_take he))
  · rw [hl]
    exact hsorted.sublist (List.take_sublist _ _)
  · have hall : (j, v) ∈ l ++ (topSorted byValue xs).drop k := by
      rw [hl, List.take_append_drop, hperm.mem_iff]
      exact mem_positions.mpr hj
    have hdrop := (List.mem_append.mp hall).resolve_left fun h => hout (List.mem_map_of_mem h)
    rw [← List.take_append_drop k (topSorted byValue xs), ← hl] at hsorted
    exact (List.pairwise_append.mp hsorted).2.2 e he _ hdrop

end

/-! ## The softmax rows -/

section
variable (mask : Bool) (r : Running) (ix : List Nat)

/-- A masked key scores minus infinity. -/
theorem smaxRow_masked (hm : mask = true) (c : Nat) (hc : c < (smaxRow mask r ix).z.length)
    (hlate : (r.e.rs.getD 1 0).toNat + rank ((r.e.tensor 0).ext0 1) (ix.set 0 0) < (r.e.rs.getD 2 0).toNat + c) :
    (smaxRow mask r ix).z[c]? = some (X.inf true) := by
  rw [List.getElem?_eq_getElem hc]
  simp only [smaxRow, List.getElem_map, List.getElem_zipIdx, Nat.zero_add, hm, Bool.true_and, decide_eq_true hlate, if_true]

/-- A row without live keys. -/
theorem smaxRow_dead (hdead : (smaxRow mask r ix).live = false) : (smaxP mask r ix).x = X.zero
    ∧ (smaxRow mask r ix).alpha = X.fin false 1 0
    ∧ ((smaxRow mask r ix).bad = false → ix.headD 0 ≠ 0 → ix ∉ smaxKept mask r) := by
  refine ⟨?_, ?_, fun hbad hne hin => ?_⟩
  · rw [smaxP]
    simp only [hdead, Bool.false_eq_true, if_false]
    rfl
  · have halpha : (smaxRow mask r ix).alpha = if (smaxRow mask r ix).live then
        sc (curveAt (r.curve 0) (sc ((scrRead r 1 (ix.set 0 0)).x.sub (smaxRow mask r ix).mn))) else X.fin false 1 0 := rfl
    rw [halpha, hdead, if_neg Bool.false_ne_true]
  · have hkept := (List.mem_filter.mp hin).2
    rw [beq_eq_false_iff_ne.mpr hne, Bool.false_or] at hkept
    exact absurd hkept (by simp only [hdead, hbad, Bool.or_self, Bool.false_eq_true, not_false_eq_true])

end

/-- An element's update, and what stands where it is not finite (R192). -/
theorem optElem_eq (r : Running) (ix : List Nat) : let o := optElem r ix
    let p := r.param
    let w := (scrRead r 0 ix).x
    let m := (scrRead r 3 ix).x
    let v := (scrRead r 5 ix).x
    let g := sc ((scrRead r 2 ix).x.mul (p 7))
    let m1 := sc ((sc ((p 1).mul m)).add (sc ((p 2).mul g)))
    let v1 := sc ((sc ((p 3).mul v)).add (sc ((p 4).mul (sc (g.mul g)))))
    let u := sc ((sc (m1.mul (p 8))).div (sc ((sc (sc (v1.mul (p 9))).sqrt).add (p 5))))
    let w1 := sc (w.sub (sc ((p 0).mul (sc (u.add (sc ((p 6).mul w)))))))
    if w1.isFinite && m1.isFinite && v1.isFinite then o.w1 = w1 ∧ o.m1 = m1 ∧ o.v1 = v1 ∧ o.refused = false
    else o.w1 = w ∧ o.m1 = m ∧ o.v1 = v ∧ o.refused = true := by
  intro o p w m v g m1 v1 u w1
  have ho : o = if w1.isFinite && m1.isFinite && v1.isFinite then ⟨w, w1, m1, v1, false, o.bad⟩ else ⟨w, w, m, v, true, o.bad⟩ := by
    simp only [o, optElem]
    split <;> rfl
  rw [ho]
  split
  · exact ⟨rfl, rfl, rfl, rfl⟩
  · exact ⟨rfl, rfl, rfl, rfl⟩

/-- Softmax rows, selections and updates, as R189, R190 and R192 say. -/
theorem screenRows : ScreenRows := by
  refine ⟨fun mask r ix => ⟨smaxRow_masked mask r ix, smaxRow_dead mask r ix⟩, fun byValue k xs => topRow_spec byValue xs k,
    fun r ix => ?_⟩
  intro o p w m v g m1 v1 u w1
  have ho := optElem_eq r ix
  refine ⟨fun hw hm hv => ?_, fun hbad => ?_⟩
  · have hok : (w1.isFinite && m1.isFinite && v1.isFinite) = true := by rw [hw, hm, hv]; rfl
    exact (if_pos hok).mp ho
  · have hok : ¬ (w1.isFinite && m1.isFinite && v1.isFinite) = true := by
      rcases hbad with h | h | h <;> simp [h]
    exact (if_neg hok).mp ho

end Sys2Proof.Machine
end

section
/-!
SUPPORT. Words written bit by bit, and a tensor without a block size narrowed into them: each element stands where its index puts it
(R57, R66).
-/

namespace Sys2Proof.Machine

/-! ## Bits put into words -/

theorem putMarked.tgetW_eq (ws : Tab WordBits) (a : Nat) : putMarked.tgetW ws a = tget WordBits.empty ws a := by
  induction ws with
  | nil => rfl
  | cons e rest ih => rw [putMarked.tgetW, tget, ih]

theorem putMarked.tputW_eq (ws : Tab WordBits) (a : Nat) (x : WordBits) : putMarked.tputW ws a x = tput ws a x := by
  induction ws with
  | nil => rfl
  | cons e rest ih => rw [putMarked.tputW, tput, ih]

/-- The bit that some words hold at a bit address. -/
def storedBit (ws : Tab WordBits) (x : Nat) : Bool := (tget WordBits.empty ws (x / 128)).data.getLsbD (x % 128)

/-- One bit of a word replaced. -/
theorem getLsbD_setBit (d : Line16) (c : Prop) [Decidable c] (i j : Nat) (hi : i < 128) :
    (if c then d ||| (1 : Line16) <<< i else d &&& ~~~((1 : Line16) <<< i)).getLsbD j
      = if j = i then decide c else d.getLsbD j := by
  have hone : ((1 : Line16) <<< i).getLsbD j = decide (j = i) := by
    rw [show (1 : Line16) <<< i = BitVec.twoPow 128 i from (BitVec.twoPow_eq 128 i).symm, BitVec.getLsbD_twoPow]
    simp only [hi, decide_true, Bool.true_and, eq_comm]
  by_cases hc : c
  · rw [if_pos hc, BitVec.getLsbD_or, hone]
    by_cases hj : j = i <;> simp [hj, hc]
  · rw [if_neg hc, BitVec.getLsbD_and, BitVec.getLsbD_not, hone]
    by_cases hj : j = i
    · simp [hj, hc]
    · simp only [hj, decide_false, Bool.not_false, Bool.and_true, if_false]
      rcases lt_or_ge j 128 with hlt | hge
      · simp [hlt]
      · simp [BitVec.getLsbD_of_ge d j hge]

theorem storedBit_tput (ws : Tab WordBits) (b x v : Nat) (m : Line16) (p : Bool) :
    storedBit (tput ws (b / 128) ⟨if v % 2 = 1 then (tget WordBits.empty ws (b / 128)).data ||| (1 : Line16) <<< (b % 128)
      else (tget WordBits.empty ws (b / 128)).data &&& ~~~((1 : Line16) <<< (b % 128)), m, p⟩) x
      = if x = b then v.testBit 0 else storedBit ws x := by
  unfold storedBit
  by_cases hw : b / 128 = x / 128
  · rw [← hw, tget_tput_same, getLsbD_setBit _ _ _ _ (by omega), Nat.testBit_zero]
    by_cases hx : x = b
    · rw [if_pos (by rw [hx]), if_pos hx]
    · rw [if_neg (by omega), if_neg hx]
  · rw [tget_tput_other _ _ _ hw, if_neg (by rintro rfl; exact hw rfl)]

/-- A value put at a bit address: its bits stand there, and every other bit as before. -/
theorem storedBit_putMarked (w : Nat) (ws : Tab WordBits) (b v psn x : Nat) :
    storedBit (putMarked w ws b v psn) x = if b ≤ x ∧ x < b + w then v.testBit (x - b) else storedBit ws x := by
  induction w generalizing ws b v psn with
  | zero => rw [putMarked, if_neg (by omega)]
  | succ w ih =>
    rw [putMarked, ih, putMarked.tputW_eq, putMarked.tgetW_eq, storedBit_tput]
    by_cases hx : x = b
    · rw [if_neg (by omega), if_pos hx, if_pos (by omega), hx, Nat.sub_self]
    · rw [if_neg hx]
      by_cases hin : b + 1 ≤ x ∧ x < b + 1 + w
      · rw [if_pos hin, if_pos (by omega), Nat.testBit_div_two, show x - (b + 1) + 1 = x - b by omega]
      · rw [if_neg hin, if_neg (by omega)]

theorem tget_wordsGot (ws : Tab WordBits) (a : Nat) :
    (tget ⟨0, false⟩ (wordsGot ws) a).data = (tget WordBits.empty ws a).data := by
  induction ws with
  | nil => rfl
  | cons e rest ih =>
    obtain ⟨k, o⟩ := e
    rw [wordsGot, List.map_cons, tget, tget]
    split
    · rfl
    · exact ih

/-- What is read from words written is their bits. -/
theorem testBit_gotBits (ws : Tab WordBits) (b w k : Nat) (hw : w ≤ 128) :
    (gotBits (wordsGot ws) b w).testBit k = (decide (k < w) && storedBit ws (b + k)) := by
  rw [gotBits, bits, Nat.testBit_mod_two_pow]
  by_cases hk : k < w
  · rw [decide_eq_true hk, Bool.true_and, Bool.true_and, Nat.testBit_shiftRight, add_comm, mul_comm,
      Nat.testBit_two_pow_mul_add _ (BitVec.isLt _), storedBit]
    simp only [tget_wordsGot, BitVec.testBit_toNat]
    by_cases hlow : b % 128 + k < 128
    · rw [if_pos hlow, show (b + k) / 128 = b / 128 by omega, show (b + k) % 128 = b % 128 + k by omega]
    · rw [if_neg hlow, if_neg (by omega), BitVec.testBit_toNat, show (b + k) / 128 = b / 128 + 1 by omega,
        show (b + k) % 128 = b % 128 + k - 128 by omega]
  · rw [decide_eq_false hk, Bool.false_and, Bool.false_and]

/-! ## Element indices -/

theorem Tensor.count_eq (t : Tensor) : t.count = t.ext.prod := List.prod_eq_foldl.symm

theorem rank_unrank (ns : List Nat) (i : Nat) (h : i < ns.prod) : rank ns (unrank ns i) = i := by
  induction ns generalizing i with
  | nil =>
    rw [List.prod_nil, Nat.lt_one_iff] at h
    rw [h]
    rfl
  | cons n ns ih =>
    rw [unrank, rank, ih _ (Nat.div_lt_of_lt_mul (by rwa [List.prod_cons] at h))]
    exact Nat.mod_add_div i n

/-! ## Rows that share no byte -/

/-- Where dimensions with their strides put the element of an index, in bytes. -/
def rowOffset : List (Nat × Nat) → Nat → Nat
  | [], _ => 0
  | (n, st) :: rest, q => q % n * st + rowOffset rest (q / n)

/-- Each dimension's stride steps over what the dimensions before it span. -/
def Spread : Nat → List (Nat × Nat) → Prop
  | _, [] => True
  | sp, (n, st) :: rest => (n ≤ 1 ∨ sp ≤ st) ∧ Spread ((n - 1) * st + sp) rest

/-- Rows of rising index follow each other without sharing a byte. -/
theorem rowOffset_rising (l : List (Nat × Nat)) (sp q q' : Nat) (hl : Spread sp l) (hpos : ∀ d ∈ l, 0 < d.1) (hq : q < q')
    (hq' : q' < (l.map Prod.fst).prod) : rowOffset l q + sp ≤ rowOffset l q' := by
  induction l generalizing sp q q' with
  | nil => rw [List.map_nil, List.prod_nil] at hq'; omega
  | cons d rest ih =>
    obtain ⟨n, st⟩ := d
    obtain ⟨hstep, hrest⟩ := hl
    have hn : 0 < n := hpos _ (.head _)
    rw [rowOffset, rowOffset]
    rw [List.map_cons, List.prod_cons] at hq'
    have hmod := Nat.mod_lt q hn
    rcases (Nat.div_le_div_right hq.le : q / n ≤ q' / n).eq_or_lt with hsame | hless
    · have hlt : q % n + 1 ≤ q' % n := by
        have h1 := Nat.mod_add_div q n
        have h2 := Nat.mod_add_div q' n
        rw [← hsame] at h2
        omega
      have hmod' := Nat.mod_lt q' hn
      have hsp : sp ≤ st := hstep.resolve_left (by omega)
      have hmul := Nat.mul_le_mul_right st hlt
      rw [Nat.add_mul, one_mul] at hmul
      rw [hsame]
      omega
    · have hih := ih _ _ _ hrest (fun d hd => hpos d (.tail _ hd)) hless (Nat.div_lt_of_lt_mul hq')
      have hmul : q % n * st ≤ (n - 1) * st := Nat.mul_le_mul_right st (by omega)
      omega

/-! ## The places of a tensor's elements -/

/-- The place of element i0 of a row, in bits from the row's start. -/
def Tensor.bitIn (t : Tensor) (i0 : Nat) : Nat := if t.fmt = B10 then 32 * (i0 / 3) + 10 * (i0 % 3) else fmtWidth t.fmt * i0

theorem Tensor.bitAddr_eq (t : Tensor) (ix : List Nat) : t.bitAddr ix = 8 * t.rowAddr ix + t.bitIn (ix.getD 0 0) := rfl

theorem fmtWidth_B10 {f : Nat} (h : f = B10) : fmtWidth f = 10 := by rw [h]; rfl

theorem fmtWidth_le (f : Nat) : fmtWidth f ≤ 32 := by
  rcases lt_or_ge f 14 with h | h
  · interval_cases f <;> decide
  · rw [fmtWidth, List.getD_eq_default _ _ h]
    exact Nat.zero_le _

section
variable (t : Tensor)

theorem Tensor.bitIn_rising {i j : Nat} (h : i < j) : t.bitIn i + fmtWidth t.fmt ≤ t.bitIn j := by
  rw [bitIn, bitIn]
  split
  · next hf => rw [fmtWidth_B10 hf]; omega
  · exact Nat.mul_le_mul_left (fmtWidth t.fmt) h

theorem Tensor.bitIn_row {i : Nat} (h : i < t.s 0) : t.bitIn i + fmtWidth t.fmt ≤ 8 * t.rowbytes := by
  rw [bitIn, rowbytes, rowLen]
  split
  · next hf => rw [fmtWidth_B10 hf, ceilDiv]; omega
  · have hmul := Nat.mul_le_mul_left (fmtWidth t.fmt) h
    rw [mul_comm _ (t.s 0)] at hmul
    rw [ceilDiv]
    simp only [Nat.mul_succ] at hmul ⊢
    omega

end

section
variable {d : Desc} {i j : Nat}

theorem tensorOf_ext (d : Desc) : (tensorOf d).ext
    = [(tensorOf d).n 0, (tensorOf d).n 1, (tensorOf d).n 2, (tensorOf d).n 3, (tensorOf d).n 4] := rfl

theorem getD_unrank_zero (i : Nat) : (unrank (tensorOf d).ext i).getD 0 0 = i % (tensorOf d).n 0 := rfl

/-- The outer dimensions of a tensor with their strides. -/
def Tensor.outer (t : Tensor) : List (Nat × Nat) := [(t.n 1, t.st 1), (t.n 2, t.st 2), (t.n 3, t.st 3), (t.n 4, t.st 4)]

theorem rowAddr_unrank (i : Nat) : (tensorOf d).rowAddr (unrank (tensorOf d).ext i)
    = (tensorOf d).base + rowOffset (tensorOf d).outer (i / (tensorOf d).n 0) := by
  rw [tensorOf_ext]
  simp [Tensor.rowAddr, unrank, Tensor.outer, rowOffset, List.range_succ, add_assoc]

theorem Tensor.s_plain {t : Tensor} (h : t.bs = 0) (k : Nat) : t.s k = t.n k := if_neg fun h' => h'.1 h

theorem Tensor.spread_outer {t : Tensor} (hbs : t.bs = 0) (h : t.distinct = true) : Spread t.rowbytes t.outer := by
  have hd (k : Nat) (hk : k < 4) : t.n (k + 1) ≤ 1 ∨ t.span k ≤ t.st (k + 1) := by
    have := List.all_eq_true.mp h k (List.mem_range.mpr hk)
    simpa using this
  have h0 := hd 0 (by omega)
  have h1 := hd 1 (by omega)
  have h2 := hd 2 (by omega)
  have h3 := hd 3 (by omega)
  simp only [span, s_plain hbs] at h0 h1 h2 h3
  exact ⟨h0, h1, h2, h3, trivial⟩

variable (hbs : (tensorOf d).bs = 0) (hdist : (tensorOf d).distinct = true) (hpos : ∀ n ∈ (tensorOf d).ext, 0 < n)
include hbs hdist hpos

/-- Elements of rising index stand behind each other. -/
theorem bitAddr_rising (hij : i < j) (hj : j < (tensorOf d).count) :
    (tensorOf d).bitAddr (unrank (tensorOf d).ext i) + fmtWidth (tensorOf d).fmt
      ≤ (tensorOf d).bitAddr (unrank (tensorOf d).ext j) := by
  have hn : 0 < (tensorOf d).n 0 := hpos _ (.head _)
  rw [Tensor.bitAddr_eq, Tensor.bitAddr_eq, getD_unrank_zero, getD_unrank_zero, rowAddr_unrank, rowAddr_unrank]
  rcases (Nat.div_le_div_right hij.le : i / (tensorOf d).n 0 ≤ j / (tensorOf d).n 0).eq_or_lt with hsame | hless
  · have hlt : i % (tensorOf d).n 0 < j % (tensorOf d).n 0 := by
      have h1 := Nat.mod_add_div i ((tensorOf d).n 0)
      have h2 := Nat.mod_add_div j ((tensorOf d).n 0)
      rw [← hsame] at h2
      omega
    have hin := (tensorOf d).bitIn_rising hlt
    rw [hsame]
    omega
  · have hprod : j < (tensorOf d).n 0 * ((tensorOf d).outer.map Prod.fst).prod := by
      rwa [Tensor.count_eq, tensorOf_ext, List.prod_cons] at hj
    have houter : ∀ x ∈ (tensorOf d).outer, 0 < x.1 := by
      intro x hx
      refine hpos _ ?_
      rw [tensorOf_ext]
      exact .tail _ (List.mem_map_of_mem (f := Prod.fst) hx)
    have hrow := rowOffset_rising _ _ _ _ (Tensor.spread_outer hbs hdist) houter hless (Nat.div_lt_of_lt_mul hprod)
    have hin := (tensorOf d).bitIn_row (i := i % (tensorOf d).n 0) (by rw [Tensor.s_plain hbs]; exact Nat.mod_lt _ hn)
    omega

end

/-! ## Elements put in their places -/

section
variable (t : Tensor) (ws : Tab WordBits) (ix : List Nat) (code : Nat) (psn : Bool) {x : Nat}

/-- An element's bits are those of its code, and the bits before it stand; behind it only zeros up to the row's end are put. -/
theorem storedBit_putElem (hx : x < t.bitAddr ix + fmtWidth t.fmt) : storedBit (t.putElem ws ix code psn) x
    = if t.bitAddr ix ≤ x then code.testBit (x - t.bitAddr ix) else storedBit ws x := by
  have hcode : storedBit (putMarked (fmtWidth t.fmt) ws (t.bitAddr ix) code (marksOf (fmtWidth t.fmt) psn)) x
      = if t.bitAddr ix ≤ x then code.testBit (x - t.bitAddr ix) else storedBit ws x := by
    rw [storedBit_putMarked]
    by_cases h : t.bitAddr ix ≤ x
    · rw [if_pos ⟨h, hx⟩, if_pos h]
    · rw [if_neg fun h' => h h'.1, if_neg h]
  have hpad (w : Nat) (ws' : Tab WordBits) (p : Bool) :
      storedBit (putBits w ws' (t.bitAddr ix + fmtWidth t.fmt) 0 p) x = storedBit ws' x := by
    rw [putBits, storedBit_putMarked, if_neg (by omega)]
  rw [← hcode, Tensor.putElem, Tensor.putCode]
  split
  · exact hpad _ _ _
  · split
    · exact hpad _ _ _
    · rfl

variable (c : Enc) (val : List Nat → Elem)

/-- Elements put one after another. -/
def Tensor.putAll (ixs : List (List Nat)) (ws : Tab WordBits) : Tab WordBits :=
  ixs.foldl (fun ws ix => t.putElem ws ix (encPlain c (rank t.ext ix) (val ix).x).1 (val ix).bad) ws

theorem Tensor.narrowPlain_fst (ixs : List (List Nat)) : (t.narrowPlain c ixs val).1 = t.putAll c val ixs [] := by
  rw [narrowPlain, putAll]
  exact (List.foldl_hom Prod.fst fun _ _ => rfl).symm

/-- The bits before every element put stand. -/
theorem storedBit_putAll (ixs : List (List Nat)) (h : ∀ ix ∈ ixs, x < t.bitAddr ix) :
    storedBit (t.putAll c val ixs ws) x = storedBit ws x := by
  induction ixs generalizing ws with
  | nil => rfl
  | cons ix ixs ih =>
    have hx := h ix (.head _)
    rw [Tensor.putAll, List.foldl_cons, ← Tensor.putAll, ih _ fun ix' h' => h ix' (.tail _ h'),
      storedBit_putElem _ _ _ _ _ (by omega), if_neg (by omega)]

end

/-- A tensor narrowed without a block size holds each element's code. -/
theorem narrow_holds (d : Desc) (c : Enc) (val : List Nat → Elem) : (tensorOf d).Holds ((tensorOf d).narrow c val).1
    fun k ix => (encPlain c k (val ix).x).1 := by
  intro hbs hdist hpos i hi
  dsimp only
  have hrank : rank (tensorOf d).ext (unrank (tensorOf d).ext i) = i := rank_unrank _ _ (by rwa [← Tensor.count_eq])
  obtain ⟨before, after, hsplit⟩ := List.append_of_mem (List.mem_range.mpr hi)
  have hafter : ∀ j ∈ after, i < j ∧ j < (tensorOf d).count := by
    intro j hj
    have hsorted := hsplit ▸ List.pairwise_lt_range (n := (tensorOf d).count)
    refine ⟨(List.pairwise_cons.mp (List.pairwise_append.mp hsorted).2.1).1 j hj, List.mem_range.mp ?_⟩
    rw [hsplit]
    exact List.mem_append_right _ (.tail _ hj)
  rw [Tensor.narrow, if_pos hbs, Tensor.narrowPlain_fst, Tensor.indices, hsplit, List.map_append, List.map_cons]
  refine Nat.eq_of_testBit_eq fun k => ?_
  rw [testBit_gotBits _ _ _ _ ((fmtWidth_le _).trans (by omega)), Nat.testBit_mod_two_pow]
  by_cases hk : k < fmtWidth (tensorOf d).fmt
  · rw [Tensor.putAll, List.foldl_append, List.foldl_cons, ← Tensor.putAll, ← Tensor.putAll, storedBit_putAll,
      storedBit_putElem _ _ _ _ _ (by omega), if_pos (by omega), Nat.add_sub_cancel_left, hrank]
    intro jx hjx
    obtain ⟨j, hj, rfl⟩ := List.mem_map.mp hjx
    have hrise := bitAddr_rising hbs hdist hpos (hafter j hj).1 (hafter j hj).2
    exact lt_of_lt_of_le (Nat.add_lt_add_left hk _) hrise
  · rw [decide_eq_false hk, Bool.false_and, Bool.false_and]

/-! ## What Wedges and Screens store -/

section
variable (r : Running) (i : Nat)

/-- A Screen's destination as narrowed. -/
theorem scrNarrow_holds (val : List Nat → Elem) : (r.e.tensor i).Holds (scrNarrow r i val).1 fun k ix =>
    (encPlain ((r.e.tensor i).enc (r.tab i) (r.scale i) (srKey r.e.seed r.e.step (scrTid r.e i))) k (val ix).x).1 :=
  narrow_holds (r.e.desc i) _ _

/-- A conversion's destination without a rotation. -/
theorem wedgeDest_holds {f : CvtFields} (hop : r.e.op = .cvt f) (hrot : (r.e.tensor i).rotsel = 0) :
    (r.e.tensor i).Holds (wedgeDest r i).1 fun k ix =>
      (encPlain ((r.e.tensor i).enc (r.tab i) (r.scale i)
        (srKey r.e.seed r.e.step (if i = 1 then f.tid0.toNat else f.tid1.toNat))) k (wedgeSrc r ix).x).1 := by
  have hno : wedgeRot r.e i = 0 := by rw [wedgeRot, hop]; exact hrot
  have hdest : wedgeDest r i = (r.e.tensor i).narrow ((r.e.tensor i).enc (r.tab i) (r.scale i)
      (srKey r.e.seed r.e.step (if i = 1 then f.tid0.toNat else f.tid1.toNat)))
      fun ix => ⟨(wedgeSrc r ix).x, (wedgeSrc r ix).bad || r.hits i ix, false⟩ := by
    rw [wedgeDest]
    simp only [hop, hno, if_true]
  rw [hdest]
  exact narrow_holds (r.e.desc i) _ _

end

/-- Each element stands where its index puts it, as R57 and R66 say. -/
theorem storedResults : StoredResults := by
  intro r i
  refine ⟨fun f hop hrot => wedgeDest_holds r i hop hrot, ?_⟩
  rintro val (⟨o, hscr, rfl⟩ | ⟨s, m, hscr, rfl⟩ | ⟨s, g, hscr, rfl⟩)
  · have hdest : scrDest r i = scrNarrow r i (mapVal o r) := by rw [scrDest, hscr]
    exact hdest ▸ scrNarrow_holds r i _
  · have hdest : scrDest r i = scrNarrow r i (curveVal m r) := by rw [scrDest, hscr]
    exact hdest ▸ scrNarrow_holds r i _
  · have hdest : scrDest r i = scrNarrow r i (dcurveVal g (i == 4) r) := by rw [scrDest, hscr]
    exact hdest ▸ scrNarrow_holds r i _

end Sys2Proof.Machine
end

section
/-!
SUPPORT. What is in progress on the units of the Benches, and that the accesses, counts and records of an instruction leave it (R278).
-/

namespace Sys2Proof.Machine

/-! ## What is in progress -/

/-- The instructions in progress on every Bench, and the units that are stopped. -/
def State.going (s : State) : (Bid → List Running) × List UnitId := (fun b => (s.bench b).run, s.health.stopped)

theorem State.going_congr {s t : State} (hb : t.benches = s.benches) (hh : t.health = s.health) : t.going = s.going := by
  simp only [going, bench, hb, hh]

theorem State.onBench_going (s : State) (b : Bid) (f : Bench → Bench) (hf : ∀ x, (f x).run = x.run) :
    (s.onBench b f).going = s.going := by
  refine Prod.ext (funext fun c => ?_) rfl
  simp only [going, State.onBench_bench]
  split
  · next h => rw [hf, h]
  · rfl

theorem Bench.running_congr {x y : Bench} (h : x.run = y.run) (q : Fin 8) (u : Nat) : x.running q u = y.running q u := by
  rw [running, running, h]

section
variable {s t : State} (h : t.going = s.going)
include h

theorem State.run_of_going (b : Bid) : (t.bench b).run = (s.bench b).run := congrFun (congrArg Prod.fst h) b

theorem State.running_of_going (b : Bid) (q : Fin 8) (u : Nat) : (t.bench b).running q u = (s.bench b).running q u :=
  Bench.running_congr (State.run_of_going h b) q u

theorem State.stopped_of_going : t.health.stopped = s.health.stopped := congrArg Prod.snd h

end

/-! ## Operations of the state -/

section
variable (s : State)

@[simp] theorem State.setReg_going (k : Nat) (v : Word) : (s.setReg k v).going = s.going := going_congr (by simp) (by simp)
@[simp] theorem State.setRf_going (k : Nat) (f : Fld) (v : Nat) : (s.setRf k f v).going = s.going := s.setReg_going _ _
@[simp] theorem State.setRb_going (k : Nat) (f : Fld) (v : Bool) : (s.setRb k f v).going = s.going := s.setReg_going _ _
@[simp] theorem State.count_going (k n : Nat) : (s.count k n).going = s.going := s.setReg_going _ _
@[simp] theorem State.countB_going (b : Bid) (n k : Nat) : (s.countB b n k).going = s.going := s.setReg_going _ _
@[simp] theorem State.countH_going (n k : Nat) : (s.countH n k).going = s.going := s.setReg_going _ _
@[simp] theorem State.countP_going (p : Part) (n k : Nat) : (s.countP p n k).going = s.going := s.setReg_going _ _
@[simp] theorem State.onBulk_going (f : Bulk → Bulk) : (s.onBulk f).going = s.going := rfl
@[simp] theorem State.onStk_going (k : Fin 8) (f : Stack → Stack) : (s.onStk k f).going = s.going := rfl
@[simp] theorem State.onCow_going (p : Part) (n : Fin 4) (f : CowSet → CowSet) : (s.onCow p n f).going = s.going := rfl
@[simp] theorem State.onCtl_going (p : Part) (f : StepCtl → StepCtl) : (s.onCtl p f).going = s.going := rfl
@[simp] theorem State.onHport_going (p : Part) (f : HostPort → HostPort) : (s.onHport p f).going = s.going := rfl
@[simp] theorem State.setMark_going (w : Nat) (m : WordMark) : (s.setMark w m).going = s.going := rfl
@[simp] theorem State.putWord_going (w : Nat) (d m : Line16) : (s.putWord w d m).going = s.going := rfl
@[simp] theorem State.copyPage_going (a b : Nat) : (s.copyPage a b).going = s.going := rfl
@[simp] theorem State.drawWord_going : s.drawWord.2.going = s.going := rfl
@[simp] theorem State.drawLine_going : s.drawLine.2.going = s.going := rfl
@[simp] theorem State.noteFault_going (i : RecInfo) : (s.noteFault i).going = s.going := rfl

@[simp] theorem State.emit_going (i : RecInfo) : (s.emit i).going = s.going := by
  have herrs (e : ErrAgg) : State.going { s.drawWord.2 with errs := e } = s.going := rfl
  unfold State.emit
  dsimp only
  split
  · rw [State.countB_going]
    split
    · exact (State.noteFault_going _ _).trans (herrs _)
    · exact herrs _
  · split
    · exact (State.noteFault_going _ _).trans (herrs _)
    · exact herrs _

@[simp] theorem State.errVote_going (b : Bid) (v : Vote) : (s.errVote b v).going = s.going := by
  unfold State.errVote
  split
  · rfl
  · split
    · exact State.onBench_going _ _ _ fun _ => rfl
    · rfl

@[simp] theorem State.consumed_going (w : Who) (n : Nat) : (s.consumed w n).going = s.going := by
  unfold State.consumed
  dsimp only
  rw [State.errVote_going]
  split
  · refine (State.onBench_going _ _ _ ?_).trans (State.emit_going _ _)
    exact fun _ => rfl
  · exact State.emit_going _ _

@[simp] theorem State.slotCount_going (b : Bid) (mark : BitVec 32) (k n : Nat) : (s.slotCount b mark k n).going = s.going :=
  State.slotCount_of (P := fun t => t.going = s.going) (fun t v _ _ h => (t.setReg_going _ v).trans h) mark n rfl

@[simp] theorem State.memStat_going (wn i : Nat) : (s.memStat wn i).going = s.going := by
  unfold State.memStat
  dsimp only
  split <;> rw [State.setRf_going]

@[simp] theorem State.memEvent_going (wn event : Nat) (syn : Word) : (s.memEvent wn event syn).going = s.going := by
  rw [State.memEvent, State.emit_going]

@[simp] theorem State.decodeWord_going (wn : Nat) (u : Upset) : (s.decodeWord wn u).going = s.going := by
  unfold State.decodeWord
  dsimp only
  split
  · split <;> simp
  · split
    · rfl
    · rfl
    · split <;> [split; split] <;> simp [apply_ite State.going]
    · split <;> simp

@[simp] theorem State.mirEnd_going (p : Part) (ok : Bool) : (s.mirEnd p ok).going = s.going := by
  simp [State.mirEnd, State.setTx]

@[simp] theorem State.breakSet_going (p : Part) (n : Fin 4) : (s.breakSet p n).going = s.going := by
  unfold State.breakSet
  split
  · rfl
  · dsimp only
    rw [State.emit_going]
    split
    · split <;> simp
    · simp

@[simp] theorem State.slotsUsed_going (k : Fin 8) (cls cost bytes : Nat) : (s.slotsUsed k cls cost bytes).going = s.going := by
  simp [State.slotsUsed]

@[simp] theorem State.charge_going (p : Part) (read : Bool) (l : List (Nat × Nat × Nat)) : (s.charge p read l).going = s.going :=
  foldl_leaves State.going (fun s _ => s.slotsUsed_going _ _ _ _) _ _

@[simp] theorem State.protect_going (p : Part) (cls page : Nat) : (s.protect p cls page).going = s.going := by
  have hone (n : Nat) (s : State) (k : Fin 8) :
      (((s.countH (256 + 16 * k.val + 5) 1).countH (256 + 16 * k.val + 6) n).slotsUsed k cls n (512 * n)).going = s.going := by
    simp
  unfold State.protect
  dsimp only
  split
  · rfl
  · split
    · exact foldl_leaves State.going (fun s n => s.breakSet_going p n) _ _
    · refine (foldl_leaves State.going (fun s n => by simp) _ _).trans ?_
      split
      · exact (foldl_leaves State.going (hone 1024) _ _).trans (s.copyPage_going _ _)
      · exact (hone _ _ _).trans (s.copyPage_going _ _)

@[simp] theorem State.viewRead_going (p : Part) (n : Fin 4) (wn : Nat) : (s.viewRead p n wn).2.going = s.going := by
  unfold State.viewRead
  dsimp only
  split
  · rfl
  · exact State.decodeWord_going _ _ _

end

/-! ## Accesses -/

section
variable {s t : State} {w : Who}

theorem State.readWord_going {wn : Nat} {fe : BitVec 2} {g : Got} (h : s.readWord wn fe = .ok g t) : t.going = s.going := by
  unfold State.readWord at h
  dsimp only at h
  split at h
  · obtain ⟨-, rfl⟩ := Acc1.ok.inj h
    exact State.decodeWord_going _ _ _
  · split at h
    · cases h
    · split at h
      · obtain ⟨-, rfl⟩ := Acc1.ok.inj h
        exact (State.setMark_going _ _ _).trans (State.decodeWord_going _ _ _)
      · obtain ⟨-, rfl⟩ := Acc1.ok.inj h
        exact State.decodeWord_going _ _ _

theorem State.writeWord_going {r : WrReq} {x : Unit} (h : s.writeWord r = .ok x t) : t.going = s.going := by
  rw [State.writeWord] at h
  split at h
  · cases h
  · obtain ⟨-, rfl⟩ := Acc1.ok.inj h
    rw [State.setMark_going, State.putWord_going]
    split
    · rfl
    · exact State.decodeWord_going _ _ _

/-- A word read is counted, and recorded where it is poisoned. -/
def State.readDone (w : Who) (wn : Nat) (g : Got) (s : State) : State :=
  let s := if inSram (16 * wn) then (match w.op with | some o => s.slotCount w.b o.mark 2 1 | none => s) else s
  if g.poison then (if inSram (16 * wn) then s.memStat wn 2 else s).consumed w wn else s

@[simp] theorem State.readDone_going (wn : Nat) (g : Got) (s : State) : (s.readDone w wn g).going = s.going := by
  have hcount : (if inSram (16 * wn) then (match w.op with | some o => s.slotCount w.b o.mark 2 1 | none => s) else s).going
      = s.going := by
    split
    · split
      · exact State.slotCount_going _ _ _ _ _
      · rfl
    · rfl
  unfold State.readDone
  dsimp only
  split
  · rw [State.consumed_going, ← hcount]
    split
    · exact State.memStat_going _ _ _
    · rfl
  · exact hcount

/-- A word accessed with no fault is read from its view or from where it stands, and the read counted. -/
theorem State.access_ok {r : RdReq} {g : Got} (h : s.access w r = .ok g t) :
    (∃ n, r.view = some n ∧ g = (s.viewRead w.part n r.word).1 ∧ t = (s.viewRead w.part n r.word).2.readDone w r.word g)
    ∨ (r.view = none ∧ ∃ s', s.readWord r.word r.fe = .ok g s' ∧ t = s'.readDone w r.word g) := by
  rw [State.access] at h
  dsimp only at h
  split at h
  · cases h
  · split at h
    · next n hv =>
      refine .inl ⟨n, hv, ?_⟩
      split at h <;> next hp => cases h; exact ⟨rfl, by simp only [State.readDone, hp]; rfl⟩
    · next hv =>
      refine .inr ⟨hv, ?_⟩
      split at h
      · next g' s' hr =>
        split at h <;> next hp => cases h; exact ⟨s', hr, by simp only [State.readDone, hp]; rfl⟩
      · cases h

theorem State.access_going {r : RdReq} {g : Got} (h : s.access w r = .ok g t) : t.going = s.going := by
  rcases State.access_ok h with ⟨n, -, -, rfl⟩ | ⟨-, s', hr, rfl⟩
  · rw [State.readDone_going, State.viewRead_going]
  · rw [State.readDone_going, State.readWord_going hr]

theorem State.store_going {r : WrReq} {x : Unit} (h : s.store w r = .ok x t) : t.going = s.going := by
  rw [State.store] at h
  dsimp only at h
  split at h
  · cases h
  · split at h
    · cases h
    · split at h
      · next s' hw =>
        cases h
        have hs' := State.writeWord_going hw
        have hprot : s'.going = s.going := by
          rw [hs']
          split
          · rfl
          · exact State.protect_going _ _ _ _
        rw [← hprot]
        split
        · split
          · exact State.slotCount_going _ _ _ _ _
          · rfl
        · rfl
      · cases h

theorem State.readSeq_going {l : List RdReq} {g g' : Tab Got} (h : State.readSeq w l g s = (.ok g' t, [])) :
    t.going = s.going := by
  induction l generalizing g s with
  | nil => cases h; rfl
  | cons r l ih =>
    rw [State.readSeq] at h
    split at h
    · next hr => exact (ih h).trans (State.access_going hr)
    · cases h
    · cases h

theorem State.writeSeq_going {l : List WrReq} {x : Unit} (h : State.writeSeq w l s = (.ok x t, [])) : t.going = s.going := by
  induction l generalizing s with
  | nil => cases h; rfl
  | cons r l ih =>
    rw [State.writeSeq] at h
    split at h
    · next hr => exact (ih h).trans (State.store_going hr)
    · cases h
    · cases h

theorem Perf.map_eq_ok {α : Type} {f : State → State} {p : Perf α} {x : α} {t : State} (h : p.map f = .ok x t) :
    ∃ s, p = .ok x s ∧ t = f s := by
  cases p with
  | ok y s => cases h; exact ⟨s, rfl, rfl⟩
  | wait s => cases h
  | refused s => cases h

/-- All reads performed: every instruction is where it was. -/
theorem State.readAll_going {l : List RdReq} {g g' : Tab Got} (h : State.readAll w l g s = (.ok g' t, [])) : t.going = s.going := by
  unfold State.readAll at h
  obtain ⟨hmap, hrest⟩ := Prod.mk.inj h
  obtain ⟨s', hseq, rfl⟩ := Perf.map_eq_ok hmap
  exact (State.charge_going _ _ _ _).trans (State.readSeq_going (Prod.ext hseq hrest))

/-- All writes performed: every instruction is where it was. -/
theorem State.writeAll_going {l : List WrReq} {x : Unit} (h : State.writeAll w l s = (.ok x t, [])) : t.going = s.going := by
  unfold State.writeAll at h
  obtain ⟨hmap, hrest⟩ := Prod.mk.inj h
  obtain ⟨s', hseq, rfl⟩ := Perf.map_eq_ok hmap
  exact (State.charge_going _ _ _ _).trans (State.writeSeq_going (Prod.ext hseq hrest))

end

/-! ## Counts and records of a finished instruction -/

section
variable (s : State) (b : Bid) (r : Running)

@[simp] theorem State.tally_going (id cls : Nat) (e : Ev) : (s.tally b id cls e).going = s.going :=
  s.tally_leaves State.going b id cls e State.setReg_going fun s _ => s.onBench_going _ _ fun _ => rfl

@[simp] theorem State.satRead_going (id cls n : Nat) : (s.satRead b id cls n).going = s.going := s.tally_going _ _ _ _
@[simp] theorem State.satRead_mem (id cls n : Nat) : (s.satRead b id cls n).mem = s.mem := s.tally_mem _ _ _ _

@[simp] theorem State.indexRecords_going (w : Who) (l : List IndexOut) : (s.indexRecords b w l).going = s.going :=
  foldl_leaves State.going (fun s x => by split <;> simp) _ _

@[simp] theorem State.indexRecords_mem (w : Who) (l : List IndexOut) : (s.indexRecords b w l).mem = s.mem :=
  foldl_leaves State.mem (fun s x => by split <;> simp) _ _

@[simp] theorem State.residueEvent_mem (w : Who) : (s.residueEvent b w r).mem = s.mem := by
  unfold State.residueEvent
  split
  · split
    · simp
    · rfl
  · rfl

/-- The counts of a finished Wedge instruction leave memory and what is in progress. -/
theorem State.wedgeAfter_leaves {β : Type} (π : State → β) (hcount : ∀ s n k, π (State.countB s b n k) = π s)
    (htally : ∀ s id cls e, π (State.tally s b id cls e) = π s) : π (State.wedgeAfter b s r) = π s := by
  unfold State.wedgeAfter
  dsimp only
  rw [hcount, hcount]
  split
  · exact hcount _ _ _
  · exact (foldl_leaves π (fun s _ => htally s _ _ _) _ _).trans (htally _ _ _ _)

theorem State.wedgeAfter_going : (State.wedgeAfter b s r).going = s.going :=
  s.wedgeAfter_leaves b r State.going (fun s => s.countB_going b) fun s => s.tally_going b
theorem State.wedgeAfter_mem : (State.wedgeAfter b s r).mem = s.mem :=
  s.wedgeAfter_leaves b r State.mem (fun s => s.countB_mem b) fun s => s.tally_mem b

/-- The counts of a finished Screen instruction leave memory and what is in progress. -/
theorem State.scrAfter_leaves {β : Type} (π : State → β) (hreg : ∀ s k v, π (State.setReg s k v) = π s)
    (htally : ∀ s id cls e, π (State.tally s b id cls e) = π s) (hctl : ∀ s p f, π (State.onCtl s p f) = π s)
    (hdep : ∀ (s : State) (d : Bench → List (Nat × Nat × List Word)), π (s.onBench b fun x => { x with deposits := d x }) = π s) :
    π (State.scrAfter b s r) = π s := by
  have hevents (l l' : List Nat) (e : Nat → Ev) (n : Nat) :
      π ((l'.foldl (fun s i => State.tally s b r.e.id (r.e.tensor i).cls (e i)) (l.foldl (fun s i =>
        State.satRead s b r.e.id (r.e.tensor i).cls ((r.e.tensor i).readSats (r.tab i) (r.scale i) r.got)) s)).countB b n 1) = π s :=
    ((hreg _ _ _).trans (foldl_leaves π (fun s _ => htally s _ _ _) _ _)).trans (foldl_leaves π (fun s _ => htally s _ _ _) _ _)
  unfold State.scrAfter
  dsimp only
  split
  · have hend (s : State) (p : Option Part) :
        π (match p with | some p => s.onCtl p fun c => c.sweepEnd b r.e.id | none => s) = π s := by
      split
      · exact hctl _ _ _
      · rfl
    split
    · rw [State.setRf, hreg, State.setRf, hreg]
      split
      · exact ((hdep _ _).trans (hend _ _)).trans (hevents _ _ _ _)
      · exact (hend _ _).trans (hevents _ _ _ _)
    · split
      · exact ((hdep _ _).trans (hend _ _)).trans (hevents _ _ _ _)
      · exact (hend _ _).trans (hevents _ _ _ _)
  · exact hevents _ _ _ _

theorem State.scrAfter_going : (State.scrAfter b s r).going = s.going :=
  s.scrAfter_leaves b r State.going State.setReg_going (fun s => s.tally_going b) State.onCtl_going
    fun s _ => s.onBench_going _ _ fun _ => rfl
theorem State.scrAfter_mem : (State.scrAfter b s r).mem = s.mem :=
  s.scrAfter_leaves b r State.mem State.setReg_mem (fun s => s.tally_mem b) State.onCtl_mem fun _ _ => rfl

/-- The counts of a finished Hauler instruction leave memory and what is in progress. -/
theorem State.haulAfter_leaves {β : Type} (π : State → β) (hcount : ∀ s n k, π (State.countB s b n k) = π s)
    (hsat : ∀ s id cls n, π (State.satRead s b id cls n) = π s) (hrec : ∀ s w l, π (State.indexRecords s b w l) = π s) :
    π (State.haulAfter b s r) = π s := by
  unfold State.haulAfter
  dsimp only
  simp only [apply_ite π, hcount, hsat, hrec, ite_self]

theorem State.haulAfter_going : (State.haulAfter b s r).going = s.going :=
  s.haulAfter_leaves b r State.going (fun s => s.countB_going b) (fun s => s.satRead_going b) fun s => s.indexRecords_going b
theorem State.haulAfter_mem : (State.haulAfter b s r).mem = s.mem :=
  s.haulAfter_leaves b r State.mem (fun s => s.countB_mem b) (fun s => s.satRead_mem b) fun s => s.indexRecords_mem b

end

end Sys2Proof.Machine
end

section
/-!
SUPPORT. An instruction that finishes on its unit: the unit is free, and nothing waits for it any longer (R278, R300).
-/

namespace Sys2Proof.Machine

/-- An instruction is over: memory is `mem`, its unit is free, and no fence or vote waits for it. -/
def State.Over (t : State) (b : Bid) (q : Fin 8) (u id : Nat) (mem : List Host.Cell) : Prop :=
  t.mem = mem ∧ (t.bench b).running q u = none ∧ (∀ x ∈ (t.fm b).fences, id ∉ x.covers)
    ∧ ∀ v, (t.fm b).voteReq = some v → id ∉ v.covers

theorem completes_iff {i : Instr} {s : State} {b : Bid} {q : Fin 8} {u id : Nat} {mem : List Host.Cell} :
    Completes i s b q u id mem ↔ ∃ t, exec i s = .next t ∧ t.Over b q u id mem := Iff.rfl

/-! ## A unit's instruction dropped and completed -/

theorem State.dropRunning_running (s : State) (b : Bid) (q : Fin 8) (u : Nat) :
    ((s.dropRunning b q u).bench b).running q u = none := by
  rw [State.dropRunning, State.onBench_bench_same, Bench.running, List.find?_eq_none]
  intro y hy
  have hkept := (List.mem_filter.mp hy).2
  rw [Bool.not_eq_true'] at hkept
  rw [hkept]
  exact Bool.false_ne_true

@[simp] theorem State.dropRunning_mem (s : State) (b : Bid) (q : Fin 8) (u : Nat) : (s.dropRunning b q u).mem = s.mem := by
  rw [State.dropRunning, State.onBench_mem, State.assign_mem]

theorem State.completed_running (s : State) (b : Bid) (id : Nat) (q : Fin 8) (u : Nat) :
    ((s.completed b id).bench b).running q u = (s.bench b).running q u := by
  rw [State.completed, State.onFm, State.onBench_bench_same]
  rfl

/-- No vote waits for a completed instruction (R300). -/
theorem State.not_mem_voteReq_completed {s : State} {b : Bid} {id : Nat} {v : VoteReq}
    (hv : ((s.completed b id).fm b).voteReq = some v) : id ∉ v.covers := by
  rw [State.completed, State.onFm_fm_same] at hv
  obtain ⟨w, -, rfl⟩ := Option.map_eq_some_iff.mp hv
  simp

theorem State.over_completed (s : State) (b : Bid) (q : Fin 8) (u id : Nat) :
    ((s.dropRunning b q u).completed b id).Over b q u id s.mem :=
  ⟨by rw [State.completed_mem, State.dropRunning_mem], by rw [State.completed_running, State.dropRunning_running],
    fun _ hx => State.not_mem_covers_completed hx, fun _ hv => State.not_mem_voteReq_completed hv⟩

/-! ## An instruction that finishes -/

theorem State.running_of_active {s : State} {b : Bid} {q : Fin 8} {u : Nat} {r : Running} (h : s.active b q u = some r) :
    (s.bench b).running q u = some r ∧ r.q = q ∧ r.unit = u := by
  rw [State.active] at h
  split at h
  · cases h
  · have hfound := List.find?_some h
    simp only [Bool.and_eq_true, beq_iff_eq] at hfound
    exact ⟨h, hfound⟩

/-- An instruction whose words are read, as it computes its writes. -/
def Running.fetched (r : Running) (upset : Option UnitUpset) (g : Tab Got) : Running :=
  { r with upset := if r.computed then r.upset else upset, reads := [], got := g }

section
variable {s s' s'' : State} {b : Bid} {q : Fin 8} {u : Nat} {upset : Option UnitUpset} {r : Running} {g : Tab Got}
variable {compute : State → Running → List WrReq} {after : State → Running → State}

/-- With every word read and every write performed an instruction is counted and completes. -/
theorem State.finishOn_performed (hact : s.active b q u = some r)
    (hread : State.readAll (r.e.who s b q u) r.reads r.got s = (.ok g s', []))
    (hwrite : State.writeAll (r.e.who s b q u) (if r.computed then r.writes else compute s' (r.fetched upset g)) s'
      = (.ok () s'', []))
    (hrun : ((after s'' (r.fetched upset g)).bench b).running q u = some r) :
    s.finishOn b q u upset compute after = (((after s'' (r.fetched upset g)).residueEvent b (r.e.who s b q u)
      (r.fetched upset g)).dropRunning b q u).completed b r.e.id := by
  have hbusy : ¬ (((after s'' (r.fetched upset g)).bench b).running q u).isNone = true := by rw [hrun]; exact Bool.false_ne_true
  rw [State.finishOn, hact]
  dsimp only
  rw [hread]
  dsimp only
  rw [if_neg (by simp)]
  simp only [Running.fetched] at hwrite hbusy ⊢
  rw [hwrite]
  dsimp only
  rw [if_neg (by simp), if_neg hbusy]

/-- Then the instruction is over, where what is counted leaves memory and what is in progress. -/
theorem State.finishOn_over (hact : s.active b q u = some r)
    (hread : State.readAll (r.e.who s b q u) r.reads r.got s = (.ok g s', []))
    (hwrite : State.writeAll (r.e.who s b q u) (if r.computed then r.writes else compute s' (r.fetched upset g)) s'
      = (.ok () s'', []))
    (hgoing : (after s'' (r.fetched upset g)).going = s''.going) (hmem : (after s'' (r.fetched upset g)).mem = s''.mem) :
    (s.finishOn b q u upset compute after).Over b q u r.e.id s''.mem := by
  have hall : (after s'' (r.fetched upset g)).going = s.going :=
    hgoing.trans ((State.writeAll_going hwrite).trans (State.readAll_going hread))
  have hrun : ((after s'' (r.fetched upset g)).bench b).running q u = some r := by
    rw [State.running_of_going hall, (State.running_of_active hact).1]
  rw [State.finishOn_performed hact hread hwrite hrun, ← hmem, ← State.residueEvent_mem _ b (r.fetched upset g)]
  exact State.over_completed _ _ _ _ _

end

/-! ## Wedges and Screens -/

section
variable {s s' s'' : State} {b : Bid} {r : Running} {g : Tab Got}

theorem wdgComplete_completes {u : Fin 4} {x : Option UnitUpset} (hact : s.active b 4 u = some r)
    (hread : State.readAll (r.e.who s b 4 u) r.reads r.got s = (.ok g s', []))
    (hwrite : State.writeAll (r.e.who s b 4 u) (if r.computed then r.writes else wedgeWrites (r.fetched x g)) s'
      = (.ok () s'', [])) : Completes (.wdgComplete b u x) s b 4 u r.e.id s''.mem :=
  completes_iff.mpr ⟨_, rfl, State.finishOn_over (compute := fun _ r => wedgeWrites r) (after := State.wedgeAfter b) hact hread hwrite
    (State.wedgeAfter_going _ _ _) (State.wedgeAfter_mem _ _ _)⟩

/-- Norms that are ready go into the class partials, and nothing else changes (R192). -/
theorem State.flushDeposits_over {t : State} {q : Fin 8} {u id : Nat} {mem : List Host.Cell} (h : t.Over b q u id mem) :
    (t.flushDeposits b).Over b q u id mem := by
  have hbench : (t.flushDeposits b).bench b
      = { t.bench b with deposits := (t.bench b).deposits.filter fun d => !((t.bench b).normsOpen.all fun i => d.1 < i) } := by
    have hadd (s : State) (d : Nat × Nat × List Word) : (s.addPartial b d.2.1 d.2.2).bench b = s.bench b := by
      simp [State.addPartial]
    exact (foldl_leaves (fun s => s.bench b) hadd _ _).trans (State.onBench_bench_same _ _ _)
  have hmem : (t.flushDeposits b).mem = t.mem := by
    have hadd (s : State) (d : Nat × Nat × List Word) : (s.addPartial b d.2.1 d.2.2).mem = s.mem := by
      simp [State.addPartial]
    exact (foldl_leaves State.mem hadd _ _).trans (State.onBench_mem _ _ _)
  obtain ⟨hm, hrun, hfence, hvote⟩ := h
  have hfm : (t.flushDeposits b).fm b = t.fm b := by rw [State.fm, hbench]; rfl
  refine ⟨hmem.trans hm, ?_, hfm ▸ hfence, hfm ▸ hvote⟩
  rw [hbench]
  exact hrun

theorem scrComplete_completes {u : Fin 2} {x : Option UnitUpset} (hact : s.active b 5 u = some r)
    (hread : State.readAll (r.e.who s b 5 u) r.reads r.got s = (.ok g s', []))
    (hwrite : State.writeAll (r.e.who s b 5 u) (if r.computed then r.writes else scrWrites (r.fetched x g)) s'
      = (.ok () s'', [])) : Completes (.scrComplete b u x) s b 5 u r.e.id s''.mem :=
  completes_iff.mpr ⟨_, rfl, State.flushDeposits_over (State.finishOn_over (compute := fun _ r => scrWrites r)
    (after := State.scrAfter b) hact hread hwrite (State.scrAfter_going _ _ _) (State.scrAfter_mem _ _ _))⟩

end

end Sys2Proof.Machine
end

section
/-!
SUPPORT. A Hauler's instruction with every word read: it copies, gathers or scatters, or sets its remote writes out (R224, R227, R228,
R350, R432).
-/

namespace Sys2Proof.Machine

/-! ## An instruction in progress rewritten -/

section
variable (s : State) (b : Bid) (r : Running)

@[simp] theorem State.setRunning_mem : (s.setRunning b r).mem = s.mem := State.onBench_mem _ _ _

variable {s b r} {r' : Running} {q : Fin 8} {u : Nat} (hq : r'.q = q) (hu : r'.unit = u)
include hq hu

theorem State.setRunning_running (hrun : (s.bench b).running q u = some r) :
    ((s.setRunning b r').bench b).running q u = some r' := by
  rw [State.setRunning, State.onBench_bench_same, Bench.running, List.find?_map]
  rw [Bench.running] at hrun
  have hcomp : ((fun y : Running => y.q == q && y.unit == u) ∘ fun y => if y.q == r'.q && y.unit == r'.unit then r' else y)
      = fun y => y.q == q && y.unit == u := by
    funext y
    rw [Function.comp_apply, hq, hu]
    split
    · next h => rw [hq, hu, beq_self_eq_true, beq_self_eq_true, h]; rfl
    · rfl
  rw [hcomp, hrun, Option.map_some, hq, hu, if_pos (List.find?_some hrun)]

/-- It stays the one that its unit takes further. -/
theorem State.setRunning_active {s0 : State} (hact : s0.active b q u = some r) (hgoing : s.going = s0.going) :
    (s.setRunning b r').active b q u = some r' := by
  obtain ⟨hrun, -, -⟩ := State.running_of_active hact
  have hstop : (s.setRunning b r').coreStopped b (queueUclass q) u = s0.coreStopped b (queueUclass q) u := by
    rw [State.coreStopped, State.coreStopped, State.setRunning, State.onBench_health, State.stopped_of_going hgoing]
  have hgo : s0.coreStopped b (queueUclass q) u = false := by
    rw [State.active] at hact
    split at hact
    · cases hact
    · next h => exact Bool.eq_false_iff.mpr h
  rw [State.active, hstop, hgo, if_neg Bool.false_ne_true]
  exact State.setRunning_running hq hu (by rw [State.running_of_going hgoing, hrun])

end

/-! ## HAUL_COMPLETE by its cases -/

/-- A Hauler's instruction with its words read. -/
def Running.gotAll (r : Running) (g : Tab Got) : Running := { r with reads := [], got := g, parked := false }

/-- A gather or scatter with its indices read, which reads its slices next (R227). -/
def Running.sliced (r : Running) (g : Tab Got) : Running :=
  { r.gotAll g with scales := [1], reads := sliceReads (r.gotAll g) }

section
variable {s s' : State} {b : Bid} {u : Fin 8} {r : Running} {g : Tab Got}

/-- What a Hauler's instruction does once every word is read. -/
theorem haulComplete_read (hact : s.active b 1 u = some r) (hidle : r.remote = [])
    (hread : State.readAll (r.e.who s b 1 u) r.reads r.got s = (.ok g s', [])) : exec (.haulComplete b u) s =
    if isIndexed r.e && r.scales.isEmpty then
      .next ((s'.setRunning b (r.sliced g)).finishOn b 1 u none (fun _ r => haulWrites r) (State.haulAfter b))
    else if haulRemote r.e = 2 then
      (if s'.isLost ((s'.partOf b).getD 0) (fld (haulBase r.e) 50 13) then
        .next ((s'.failRunning b (r.gotAll g) .peerLost).dropLost ((s'.partOf b).getD 0))
       else .next (s'.sendWrites b (r.gotAll g)))
    else if haulRemote r.e = 1 then .next (s'.writeHost b (r.gotAll g))
    else .next ((s'.setRunning b (r.gotAll g)).finishOn b 1 u none (fun _ r => haulWrites r) (State.haulAfter b)) := by
  rw [show exec (.haulComplete b u) s = execHaulComplete b u s from rfl, execHaulComplete, hact]
  dsimp only
  rw [if_neg (by simp [hidle]), hread]
  dsimp only
  rw [if_neg (by simp)]
  rfl

variable (hact : s.active b 1 u = some r)
  (hread : State.readAll (r.e.who s b 1 u) r.reads r.got s = (.ok g s', []))
include hact hread

theorem setRunning_active_of_read {r' : Running} (hq : r'.q = r.q) (hu : r'.unit = r.unit) :
    (s'.setRunning b r').active b 1 u = some r' :=
  State.setRunning_active (hq.trans (State.running_of_active hact).2.1) (hu.trans (State.running_of_active hact).2.2) hact
    (State.readAll_going hread)

theorem setRunning_running_of_read {t : State} (ht : t.going = s'.going) {r' : Running} (hq : r'.q = r.q) (hu : r'.unit = r.unit) :
    ((t.setRunning b r').bench b).running 1 u = some r' :=
  State.setRunning_running (hq.trans (State.running_of_active hact).2.1) (hu.trans (State.running_of_active hact).2.2)
    (by rw [State.running_of_going (ht.trans (State.readAll_going hread)), (State.running_of_active hact).1])

variable (hidle : r.remote = [])
include hidle

/-- A copy, or a gather or scatter whose slices are read, writes its destination and is over. -/
theorem haulComplete_copies (hslices : isIndexed r.e = false ∨ r.scales ≠ []) (hlocal : haulRemote r.e = 0) {s'' : State}
    (hwrite : State.writeAll (r.e.who (s'.setRunning b (r.gotAll g)) b 1 u)
      (if r.computed then r.writes else haulWrites { r.gotAll g with upset := none }) (s'.setRunning b (r.gotAll g))
        = (.ok () s'', [])) : Completes (.haulComplete b u) s b 1 u r.e.id s''.mem := by
  have hno : ¬ (isIndexed r.e && r.scales.isEmpty) = true := by
    rcases hslices with h | h <;> simp [h]
  have hexec := haulComplete_read hact hidle hread
  rw [if_neg hno, if_neg (by omega), if_neg (by omega)] at hexec
  have hact' : (s'.setRunning b (r.gotAll g)).active b 1 u = some (r.gotAll g) := setRunning_active_of_read hact hread rfl rfl
  have hread' : State.readAll (r.e.who (s'.setRunning b (r.gotAll g)) b 1 u) [] g (s'.setRunning b (r.gotAll g))
      = (.ok g (s'.setRunning b (r.gotAll g)), []) := rfl
  have hwrites : (if r.computed then r.writes else haulWrites ((r.gotAll g).fetched none g))
      = if r.computed then r.writes else haulWrites { r.gotAll g with upset := none } := by
    cases hc : r.computed with
    | true => rfl
    | false =>
      have hsame : (r.gotAll g).fetched none g = { r.gotAll g with upset := none } := by
        simp only [Running.fetched, Running.gotAll, hc, Bool.false_eq_true, if_false]
      rw [hsame]
  exact completes_iff.mpr ⟨_, hexec, State.finishOn_over (r := r.gotAll g) (g := g) (compute := fun _ r => haulWrites r)
    (after := State.haulAfter b) hact' hread' ((congrArg (State.writeAll _ · _) hwrites).trans hwrite)
    (State.haulAfter_going _ _ _) (State.haulAfter_mem _ _ _)⟩

/-- A gather or scatter reads its slices, writes its destination and is over. -/
theorem haulComplete_slices (hidx : isIndexed r.e = true) (hfirst : r.scales = []) {g2 : Tab Got} {s2 s'' : State}
    (hread2 : State.readAll (r.e.who (s'.setRunning b (r.sliced g)) b 1 u) (sliceReads (r.gotAll g)) g
      (s'.setRunning b (r.sliced g)) = (.ok g2 s2, []))
    (hwrite : State.writeAll (r.e.who (s'.setRunning b (r.sliced g)) b 1 u)
      (if r.computed then r.writes else haulWrites ((r.sliced g).fetched none g2)) s2 = (.ok () s'', [])) :
    Completes (.haulComplete b u) s b 1 u r.e.id s''.mem := by
  have hexec := haulComplete_read hact hidle hread
  rw [if_pos (by simp [hidx, hfirst])] at hexec
  have hact' : (s'.setRunning b (r.sliced g)).active b 1 u = some (r.sliced g) := setRunning_active_of_read hact hread rfl rfl
  exact completes_iff.mpr ⟨_, hexec, State.finishOn_over (r := r.sliced g) (g := g2) (compute := fun _ r => haulWrites r)
    (after := State.haulAfter b) hact' hread2 hwrite (State.haulAfter_going _ _ _) (State.haulAfter_mem _ _ _)⟩

end

/-! ## Remote destinations -/

section
variable (s : State)

theorem State.fillWords_leaves {β : Type} (π : State → β) (hdraw : ∀ s, π (State.drawLine s).2 = π s) (ws : Tab WordBits) :
    π (s.fillWords ws).2 = π s := by
  induction ws generalizing s with
  | nil => rfl
  | cons e rest ih =>
    obtain ⟨k, w⟩ := e
    by_cases hw : w.mask = allBits
    · simp only [State.fillWords, if_pos hw]
      exact ih s
    · simp only [State.fillWords, if_neg hw]
      exact (ih _).trans (hdraw s)

theorem State.send_leaves {β : Type} (π : State → β) (hfab : ∀ (s : State) f, π { s with fab := f } = π s)
    (hreg : ∀ s k v, π (State.setReg s k v) = π s) (p : Part) (pkt : Packet) : π (s.send p pkt) = π s := by
  have hdrop (n : Nat) : π (s.count (K.FAB_DROP p n) 1) = π s := hreg _ _ _
  have hdropD (n : Nat) : π (s.count (K.FAB_DROP (pktDstPart pkt) n) 1) = π s := hreg _ _ _
  have hport (n : PortNo) (f : PortSt → PortSt) : π (s.onPort n f) = π s := hfab _ _
  unfold State.send
  split
  · split
    · unfold State.deliver
      dsimp only
      split
      · exact hdrop 0
      · split
        · exact hdrop 1
        · split
          · exact hdropD 2
          · split
            · exact hdropD 3
            · exact hfab _ _
    · exact hdrop 1
  · unfold State.forward
    split
    · exact hdrop 2
    · split
      · exact hdrop 1
      · split
        · exact hdrop 1
        · exact hport _ _

variable (b : Bid) (r : Running)

/-- The state once a HAUL.ST's packets are sent. -/
def State.sentWrites : State :=
  let p := (s.partOf b).getD 0
  let w := haulBase r.e
  let part : Part := ⟨fld w 48 2 % 4, by omega⟩
  let (ws, s) := s.fillWords (haulBits r)
  (runsOf 256 ws).foldl (fun s x =>
    s.send p (s.packet p ⟨fld w 50 13, part, clsData, 0, r.e.step, 0, 0, (haulDst r.e).feWr, x.bad, x.addr % 2 ^ 48⟩ x.bytes)) s

theorem State.sendWrites_eq : s.sendWrites b r = (s.sentWrites b r).setRunning b { r with
    computed := true, parked := false
    remote := (runsOf 256 (s.fillWords (haulBits r)).1).map fun x => (x.addr % 2 ^ 48, fld (haulBase r.e) 50 13) } := rfl

theorem State.sentWrites_leaves {β : Type} (π : State → β) (hdraw : ∀ s, π (State.drawLine s).2 = π s)
    (hfab : ∀ (s : State) f, π { s with fab := f } = π s) (hreg : ∀ s k v, π (State.setReg s k v) = π s) :
    π (s.sentWrites b r) = π s :=
  (foldl_leaves π (fun s _ => s.send_leaves π hfab hreg _ _) _ _).trans (s.fillWords_leaves π hdraw _)

theorem State.sentWrites_going : (s.sentWrites b r).going = s.going :=
  s.sentWrites_leaves b r State.going State.drawLine_going (fun _ _ => rfl) State.setReg_going
theorem State.sentWrites_mem : (s.sentWrites b r).mem = s.mem :=
  s.sentWrites_leaves b r State.mem (fun _ => rfl) (fun _ _ => rfl) State.setReg_mem

theorem State.hostWrite_going (p : Part) (l : List (Nat × Byte × Bool)) : (s.hostWrite p l).going = s.going :=
  (State.countP_going _ _ _ _).trans (State.onHport_going _ _ _)
theorem State.hostWrite_mem (p : Part) (l : List (Nat × Byte × Bool)) : (s.hostWrite p l).mem = s.mem :=
  (State.setReg_mem _ _ _).trans (State.onHport_mem _ _ _)

end

section
variable {s s' : State} {b : Bid} {u : Fin 8} {r : Running} {g : Tab Got}
variable (hact : s.active b 1 u = some r) (hidle : r.remote = [])
  (hread : State.readAll (r.e.who s b 1 u) r.reads r.got s = (.ok g s', []))
  (hplain : isIndexed r.e = false)
include hact hidle hread hplain

/-- A HAUL.ST to another module sends its bytes and waits for their answers. -/
theorem haulComplete_sends (hremote : haulRemote r.e = 2)
    (hreach : s'.isLost ((s'.partOf b).getD 0) (fld (haulBase r.e) 50 13) = false) :
    ∃ t y, exec (.haulComplete b u) s = .next t ∧ (t.bench b).running 1 u = some y ∧ y.e = r.e ∧ y.computed = true
      ∧ (∀ m ∈ y.remote, m.2 = fld (haulBase r.e) 50 13) ∧ t.mem = s'.mem := by
  have hexec := haulComplete_read hact hidle hread
  rw [if_neg (by simp [hplain]), if_pos hremote, if_neg (Bool.eq_false_iff.mp hreach), State.sendWrites_eq] at hexec
  refine ⟨_, _, hexec, setRunning_running_of_read hact hread (State.sentWrites_going _ _ _) rfl rfl, rfl, rfl, fun m hm => ?_, ?_⟩
  · obtain ⟨x, -, rfl⟩ := List.mem_map.mp hm
    rfl
  · rw [State.setRunning_mem, State.sentWrites_mem]

/-- A HAUL.ST to the host writes its bytes and waits for its flushing read. -/
theorem haulComplete_writesHost (hremote : haulRemote r.e = 1) (hup : s'.hostUp ((s'.partOf b).getD 0) = true) :
    ∃ t y, exec (.haulComplete b u) s = .next t ∧ (t.bench b).running 1 u = some y ∧ y.e = r.e
      ∧ y.remote = [(((hostBytes (haulBits (r.gotAll g))).getLast?.map Prod.fst).getD (haulDst r.e).base, 0)] ∧ t.mem = s'.mem := by
  have hexec := haulComplete_read hact hidle hread
  rw [if_neg (by simp [hplain]), if_neg (by omega), if_pos hremote, State.writeHost, if_neg (by simp [hup])] at hexec
  refine ⟨_, _, hexec, setRunning_running_of_read hact hread (State.hostWrite_going _ _ _) rfl rfl, rfl, rfl, ?_⟩
  rw [State.setRunning_mem, State.hostWrite_mem]

end

end Sys2Proof.Machine
end

section
/-! The settlement of O33. -/

open Sys2Proof Sys2Proof.Machine

/-- Settles O33: the rules of the number formats and of the Screens' results are lemmas of their own, and completion follows from what
accesses, counts and records leave: memory aside, every instruction in progress. -/
theorem enginesComplete : Obligations.EnginesComplete := by
  refine ⟨roundingRules, blockRules, limitRules, storedResults, screenElements, screenRows, fun s b => ⟨?_, ?_, ?_⟩⟩
  · intro u x r g s' s'' hact hread r' hwrite
    exact wdgComplete_completes hact hread hwrite
  · intro u x r g s' s'' hact hread r' hwrite
    exact scrComplete_completes hact hread hwrite
  · intro u r g s' hact hidle hread r'
    refine ⟨?_, ?_, ?_, ?_⟩
    · intro hslices hlocal s'' s1 hwrite
      exact haulComplete_copies hact hread hidle hslices hlocal hwrite
    · intro hidx hfirst g2 s2 s'' r2 s1 r3 hread2 hwrite
      exact haulComplete_slices hact hread hidle hidx hfirst hread2 hwrite
    · exact haulComplete_sends hact hidle hread
    · exact haulComplete_writesHost hact hidle hread

end

section
/-!
SUPPORT. The operations of the step controller by what they leave: packets and outcomes sent on leave the Benches, memory and the
votes; a vote is entered, and never weaker than it was cast; an attempt opens at the step and number admitted (R292, R293, R395-R400).
-/

namespace Sys2Proof.Machine

/-! ## Votes -/

theorem voteRank_le_voteMax (v w : Vote) : voteRank v ≤ voteRank (voteMax v w) ∧ voteRank w ≤ voteRank (voteMax v w) := by
  unfold voteMax
  split <;> constructor <;> omega

/-- A vote entered stands among the Benches' votes, never weaker than it was cast. -/
theorem StepCtl.cast_holds (c : StepCtl) (b : Bid) (v : Vote) :
    ∃ w, (b.val, w) ∈ (c.cast b v).benchVotes ∧ voteRank v ≤ voteRank w := by
  unfold StepCtl.cast
  split
  · next e hfind =>
    have hkey : e.1 = b.val := by simpa using List.find?_some hfind
    refine ⟨voteMax e.2 v, List.mem_map.mpr ⟨e, List.mem_of_find?_eq_some hfind, ?_⟩, (voteRank_le_voteMax _ _).2⟩
    rw [hkey, if_pos (beq_self_eq_true _)]
  · exact ⟨v, List.mem_append_right _ (List.mem_singleton.mpr rfl), le_rfl⟩

@[simp] theorem StepCtl.cause_benchVotes (c : StepCtl) (i : Nat) : (c.cause i).benchVotes = c.benchVotes := rfl

/-! ## A partition's controller -/

@[simp] theorem State.onCtl_ctl_same (s : State) (p : Part) (f : StepCtl → StepCtl) : (s.onCtl p f).ctl p = f (s.ctl p) := by
  simp [State.onCtl, State.ctl]

@[simp] theorem State.setReg_ctl (s : State) (k : Nat) (v : Word) (p : Part) : (s.setReg k v).ctl p = s.ctl p := by
  rw [State.ctl, State.setReg_steps]; rfl

@[simp] theorem State.setRf_ctl (s : State) (k : Nat) (f : Fld) (v : Nat) (p : Part) : (s.setRf k f v).ctl p = s.ctl p :=
  s.setReg_ctl _ _ p

@[simp] theorem State.onPlumb_ctl (s : State) (p q : Part) (f : Plumb → Plumb) : (s.onPlumb p f).ctl q = s.ctl q := rfl

@[simp] theorem State.plumbClear_ctl (s : State) (p q : Part) : (s.plumbClear p).ctl q = s.ctl q := by
  simp [State.plumbClear]

/-- A controller's phase, step and attempt number. -/
def StepCtl.place (c : StepCtl) : StepPhase × Nat × Nat := (c.phase, c.step, c.attempt)

theorem StepCtl.cast_place (c : StepCtl) (b : Bid) (v : Vote) : (c.cast b v).place = c.place := by
  unfold StepCtl.cast
  split <;> rfl

theorem StepCtl.cause_place (c : StepCtl) (i : Nat) : (c.cause i).place = c.place := rfl

/-! ## What is sent on -/

section
variable {β : Type} (π : State → β) (hfab : ∀ (s : State) f, π { s with fab := f } = π s)
  (hreg : ∀ s k v, π (State.setReg s k v) = π s)
include hfab hreg

theorem State.sendPort_leaves (s : State) (p : Part) (n : PortNo) (pkt : Packet) : π (s.sendPort p n pkt) = π s := by
  unfold State.sendPort
  split
  · exact hreg _ _ _
  · split
    · exact hreg _ _ _
    · exact hfab _ _

theorem State.sendStep_leaves (s : State) (p : Part) (mod op step attempt v : Nat) (causes : BitVec 11) (origin : Nat) :
    π (s.sendStep p mod op step attempt v causes origin) = π s := by
  unfold State.sendStep
  dsimp only
  split
  · exact s.sendPort_leaves π hfab hreg _ _ _
  · exact s.send_leaves π hfab hreg _ _

theorem State.sendStepAll_leaves (s : State) (p : Part) (mods : List Nat) (op v origin : Nat) :
    π (s.sendStepAll p mods op v origin) = π s :=
  foldl_leaves π (fun s _ => s.sendStep_leaves π hfab hreg _ _ _ _ _ _ _ _) _ _

variable (p : Part) (hctl : ∀ (s : State) f, (∀ c, (f c).benchVotes = c.benchVotes) → π (s.onCtl p f) = π s)
include hctl

theorem State.holdOutcome_leaves (s : State) (r : Result) (mods : List Nat) : π (s.holdOutcome p r mods) = π s :=
  (State.sendStepAll_leaves π hfab hreg _ _ _ _ _ _).trans (hctl _ _ fun _ => rfl)

theorem State.decideStep_leaves (s : State) (v : Vote) : π (s.decideStep p v) = π s := by
  have hcause (c : Prop) [Decidable c] (s : State) (i : Nat) :
      π (if c then s.onCtl p fun x => x.cause i else s) = π s := by
    split
    · exact hctl _ _ fun _ => rfl
    · rfl
  exact (State.holdOutcome_leaves π hfab hreg p hctl _ _ _).trans ((hcause _ _ _).trans (hcause _ _ _))

/-- A controller that goes on sends and holds what it has decided; it enters no Bench's vote (R395, R398). -/
theorem State.stepAdvance_leaves (s : State) : π (s.stepAdvance p) = π s := by
  have hdecide (v : Vote) : π (s.decideStep p v) = π s := State.decideStep_leaves π hfab hreg p hctl s v
  unfold State.stepAdvance
  dsimp only
  split
  · rfl
  · split
    · rfl
    · split
      · exact hdecide _
      · split
        · rfl
        · split
          · exact hdecide _
          · split
            · rfl
            · exact (hreg _ _ _).trans ((State.sendStepAll_leaves π hfab hreg _ _ _ _ _ _).trans (hctl _ _ fun _ => rfl))

end

@[simp] theorem State.stepAdvance_mem (s : State) (p : Part) : (s.stepAdvance p).mem = s.mem :=
  s.stepAdvance_leaves State.mem (fun _ _ => rfl) State.setReg_mem p fun _ _ _ => rfl

@[simp] theorem State.stepAdvance_fm (s : State) (p : Part) (b : Bid) : (s.stepAdvance p).fm b = s.fm b :=
  s.stepAdvance_leaves (fun s => s.fm b) (fun _ _ => rfl) (fun s k v => s.setReg_fm k v b) p fun _ _ _ => rfl

@[simp] theorem State.stepAdvance_benchVotes (s : State) (p : Part) :
    ((s.stepAdvance p).ctl p).benchVotes = (s.ctl p).benchVotes :=
  s.stepAdvance_leaves (fun s => (s.ctl p).benchVotes) (fun _ _ => rfl) (fun s k v => by rw [State.setReg_ctl]) p
    fun s f hf => by rw [State.onCtl_ctl_same, hf]

/-! ## A Bench's vote cast -/

theorem State.castVote_holds (s : State) (p : Part) (b : Bid) (v : Vote) :
    ∃ w, (b.val, w) ∈ ((s.castVote p b v).ctl p).benchVotes ∧ voteRank v ≤ voteRank w := by
  obtain ⟨w, hmem, hle⟩ := (s.ctl p).cast_holds b (voteMax v (s.bench b).errVote)
  refine ⟨w, ?_, (voteRank_le_voteMax _ _).1.trans hle⟩
  simp only [State.castVote, State.onCtl_ctl_same]
  split
  · exact hmem
  · exact hmem

theorem State.castVote_mem (s : State) (p : Part) (b : Bid) (v : Vote) : (s.castVote p b v).mem = s.mem := State.onCtl_mem _ _ _
theorem State.castVote_fm (s : State) (p : Part) (b c : Bid) (v : Vote) : (s.castVote p b v).fm c = s.fm c := rfl

/-! ## An attempt opened -/

theorem State.openStep_mem (s : State) (p : Part) (k att : Nat) : (s.openStep p k att).mem = s.mem := by
  unfold State.openStep
  dsimp only
  refine (foldl_leaves State.mem (fun s b => ?_) _ _).trans ?_
  · split <;> rfl
  · simp only [State.setRb, State.plumbClear]
    split <;> simp

/-- The controller opens the attempt at the step and the number it was given. -/
theorem State.openStep_place (s : State) (p : Part) (k att : Nat) : ((s.openStep p k att).ctl p).place = (.opened, k, att) := by
  unfold State.openStep
  dsimp only
  refine (foldl_leaves (fun s => (s.ctl p).place) (fun s b => ?_) _ _).trans ?_
  · split
    · rw [State.onCtl_ctl_same]
      split
      · exact StepCtl.cast_place _ _ _
      · exact StepCtl.cast_place _ _ _
    · rfl
  · simp only [State.setRb, State.setRf_ctl]
    split
    · simp [StepCtl.place]
    · simp [StepCtl.place]

end Sys2Proof.Machine
end

section
/-!
SUPPORT. STEP.BEGIN, STEP.VOTE and PLM.EVAL at issue: what retiring leaves, what a Bench's beginning of a step leaves, and
each instruction's answer by its guards (R146, R292-R294, R335).
-/

namespace Sys2Proof.Machine

/-! ## Retiring -/

section
variable {s t : State} {b : Bid} (h : s.OnlyForeman b t)
include h

theorem State.OnlyForeman.mem : t.mem = s.mem := (congrArg State.mem h.1 :)
theorem State.OnlyForeman.ctl (p : Part) : t.ctl p = s.ctl p := (congrArg (fun s : State => s.ctl p) h.1 :)

/-- STEP_STATE is no register that a retiring instruction counts or traces in. -/
theorem State.OnlyForeman.stepState (f : Fld) : t.rf (K.STEP_STATE b) f = s.rf (K.STEP_STATE b) f := by
  obtain ⟨-, -, -, hreg⟩ := h
  have hkey : K.STEP_STATE b ∉ retireRegs b := by
    simp only [retireRegs, K.STEP_STATE, K.BENCH_CTR, K.TRC_STAT, K.MK_CNT, List.mem_append, List.mem_cons, List.mem_map,
      List.not_mem_nil, or_false, not_or, not_exists, not_and]
    exact ⟨by omega, fun i _ => by omega⟩
  rw [State.rf, hreg _ hkey, State.rf]

end

section
variable {s t : State} {h : Issue} {n : Nat} {opcode : BitVec 10} {body : Fm → State → Disp}

/-- Fetch goes on behind the instruction: the Foreman's program counter changes alone. -/
theorem State.goto_behind (hi : s.Issues h n) (t : State) : t.goto (s.fmCtx h opcode) (((s.fm h.bench).pc.toNat : Int) + n)
    = t.onFm h.bench fun f => { f with pc := (s.fm h.bench).pc + BitVec.ofNat 15 n } := by
  obtain ⟨-, -, hpc⟩ := hi
  rw [State.goto_inside _ _ _ (by omega) (by omega), pc_behind]
  rfl

/-- A body that answers a state: it retires there, and nothing else of that state changes. -/
theorem issue_done_from (hi : s.Issues h n) (hb : body (s.fmCtx h opcode) s = .done t) :
    ∃ u, issue h n opcode body s = .next u ∧ u.fm h.bench = { t.fm h.bench with pc := (s.fm h.bench).pc + BitVec.ofNat 15 n }
      ∧ t.OnlyForeman h.bench u := by
  rw [issue_eq _ _ _ _ _ hi, hb]
  dsimp only
  rw [State.goto_behind hi]
  have hfm (taken : Bool) (mark : BitVec 32) : (t.retired (s.fmCtx h opcode) taken mark).fm h.bench = t.fm h.bench :=
    t.retired_fm (s.fmCtx h opcode) taken mark
  refine ⟨_, rfl, ?_, ((State.OnlyForeman.refl h.bench t).retired (c := s.fmCtx h opcode) _ _).onFm _⟩
  rw [State.onFm_fm_same, hfm]

/-- A body whose instruction retires later is dispatched, and nothing else of the state that it answers changes. -/
theorem issue_later (hi : s.Issues h n) (hb : body (s.fmCtx h opcode) s = .later t) :
    ∃ u, issue h n opcode body s = .next u ∧ u.fm h.bench = { t.fm h.bench with pc := (s.fm h.bench).pc + BitVec.ofNat 15 n }
      ∧ t.OnlyForeman h.bench u := by
  rw [issue_eq _ _ _ _ _ hi, hb]
  dsimp only
  rw [State.goto_behind hi]
  have hfm : (t.dispatched (s.fmCtx h opcode)).fm h.bench = t.fm h.bench := t.dispatched_fm (s.fmCtx h opcode)
  refine ⟨_, rfl, ?_, ((State.OnlyForeman.refl h.bench t).dispatched (c := s.fmCtx h opcode)).onFm _⟩
  rw [State.onFm_fm_same, hfm]

end

/-! ## A Bench begins a step (R292) -/

/-- What a Bench's beginning of a step leaves, its STEP_STATE aside: no write of its Bench, of another register or of the Hub's trace
staging changes it. -/
structure LeftByBegin {β : Type} (π : State → β) (b : Bid) : Prop where
  reg : ∀ s k v, k ≠ K.STEP_STATE b → π (State.setReg s k v) = π s
  bench : ∀ s f, π (State.onBench s b f) = π s
  recomp : ∀ s, π (State.resetRegs s (K.STK_RECOMP b 0) (K.STK_RECOMP b 16)) = π s
  mgmt : ∀ s f, π (State.onMgmt s f) = π s

theorem leftByBegin_ctl (p : Part) (b : Bid) : LeftByBegin (fun s => s.ctl p) b :=
  ⟨fun s k v _ => s.setReg_ctl k v p, fun _ _ => rfl, fun _ => rfl, fun _ _ => rfl⟩

theorem leftByBegin_mem (b : Bid) : LeftByBegin State.mem b :=
  ⟨fun s k v _ => s.setReg_mem k v, fun _ _ => rfl, fun _ => rfl, fun _ _ => rfl⟩

theorem leftByBegin_stepState (b : Bid) (f : Fld) : LeftByBegin (fun s => s.rf (K.STEP_STATE b) f) b where
  reg s k v hk := by rw [State.rf, State.setReg_other _ _ _ _ hk, State.rf]
  bench _ _ := rfl
  recomp s := by
    rw [State.rf, State.resetRegs_reg, if_neg (by simp only [K.STK_RECOMP, K.STEP_STATE]; omega), State.rf]
  mgmt _ _ := rfl

section
variable {β : Type} {π : State → β} {b : Bid} (h : LeftByBegin π b)
include h

theorem LeftByBegin.joinLate (s : State) : π (s.joinLate b) = π s := by
  unfold State.joinLate
  dsimp only
  refine (h.bench _ _).trans (foldl_leaves π (fun s e => ?_) _ _)
  split
  · exact h.reg _ _ _ (by simp only [K.TALLY_AMAX, K.STEP_STATE]; omega)
  · rfl

theorem LeftByBegin.stkSettle (s : State) : π (s.stkSettle b) = π s := by
  unfold State.stkSettle
  split
  · exact (h.recomp _).trans ((h.bench _ _).trans (h.bench _ _))
  · rfl

theorem LeftByBegin.traceAdd (s : State) (e : List Word) : π (s.traceAdd b e) = π s := by
  obtain hsame | hdrop | ⟨l, n, hstage⟩ := s.traceAdd_cases b e
  · rw [hsame]
  · rw [hdrop, State.setRf, h.reg _ _ _ (by simp only [K.TRC_STAT, K.STEP_STATE]; omega), State.countB, State.count,
      h.reg _ _ _ (by simp only [K.BENCH_CTR, K.STEP_STATE]; omega), h.bench]
  · rw [hstage, State.countB, State.count, h.reg _ _ _ (by simp only [K.BENCH_CTR, K.STEP_STATE]; omega), h.bench]

theorem LeftByBegin.hubAdd (s : State) (e : List Word) : π (s.hubAdd e) = π s := by
  have hkey : K.TRC_HUB_STAT ≠ K.STEP_STATE b := by
    simp only [K.TRC_HUB_STAT, K.STEP_STATE]
    omega
  unfold State.hubAdd
  dsimp only
  split
  · rfl
  · generalize (if s.mgmt.hubLost = 0 then _ else _ : List (List Word)) = gap
    split
    · exact (h.reg _ _ _ hkey).trans (h.mgmt s fun m => { m with hubLost := s.mgmt.hubLost + 1 })
    · exact h.mgmt _ _

theorem LeftByBegin.anchorStep (s : State) : π (s.anchorStep b) = π s := by
  have hbench : π (s.anchorNow ⟨b.val, by omega⟩) = π s := by
    have hown : trBench ⟨b.val, by omega⟩ = b := Fin.ext (Nat.mod_eq_of_lt b.isLt)
    rw [State.anchorNow, if_neg (by simp [isHub]; omega), hown]
    exact h.traceAdd _ _
  unfold State.anchorStep
  dsimp only
  split
  · exact (h.hubAdd _ _).trans hbench
  · exact hbench

/-- STEP_STATE written, the rest of STEP.BEGIN leaves it. -/
theorem LeftByBegin.beginStep (s : State) (k att : Nat) : π (s.beginStep b k att)
    = π ((((s.joinLate b).setRf (K.STEP_STATE b) F.STEP_STATE_STEP k).setRf (K.STEP_STATE b) F.STEP_STATE_ATTEMPT att).setRf
      (K.STEP_STATE b) F.STEP_STATE_PHASE 1) :=
  (h.anchorStep _).trans ((h.stkSettle _).trans ((h.bench _ _).trans (h.bench _ _)))

end

theorem State.beginStep_ctl (s : State) (b : Bid) (k att : Nat) (p : Part) : (s.beginStep b k att).ctl p = s.ctl p := by
  refine ((leftByBegin_ctl p b).beginStep s k att).trans ?_
  rw [State.setRf_ctl, State.setRf_ctl, State.setRf_ctl]
  exact (leftByBegin_ctl p b).joinLate s

theorem State.beginStep_mem (s : State) (b : Bid) (k att : Nat) : (s.beginStep b k att).mem = s.mem := by
  refine ((leftByBegin_mem b).beginStep s k att).trans ?_
  rw [State.setRf_mem, State.setRf_mem, State.setRf_mem]
  exact (leftByBegin_mem b).joinLate s

/-- The Bench shows the step and the attempt as OPEN. -/
theorem State.beginStep_stepState {s : State} (hi : s.Inv) (b : Bid) (k att : Nat) :
    (s.beginStep b k att).rf (K.STEP_STATE b) F.STEP_STATE_STEP = k % 2 ^ 48
      ∧ (s.beginStep b k att).rf (K.STEP_STATE b) F.STEP_STATE_ATTEMPT = att % 16
      ∧ (s.beginStep b k att).rf (K.STEP_STATE b) F.STEP_STATE_PHASE = 1 := by
  have hcan : (s.joinLate b).Canonical := ((State.joinLate_keeps (Keeps.refl s)).inv hi).1
  have hsep : F.STEP_STATE_STEP.Separate F.STEP_STATE_ATTEMPT F.STEP_STATE_PHASE := by unfold Fld.Separate; decide
  obtain ⟨hstep, hatt, -⟩ := (s.joinLate b).setRf_setRf_rf (K.STEP_STATE b) k att hcan hsep
  have hcan2 := State.setRf_canonical _ (K.STEP_STATE b) F.STEP_STATE_ATTEMPT att
    (State.setRf_canonical _ (K.STEP_STATE b) F.STEP_STATE_STEP k hcan)
  refine ⟨((leftByBegin_stepState b _).beginStep s k att).trans ?_, ((leftByBegin_stepState b _).beginStep s k att).trans ?_,
    ((leftByBegin_stepState b _).beginStep s k att).trans ?_⟩
  · exact (State.setRf_rf_beside _ _ _ hcan2 (by decide) (by decide)).trans hstep
  · exact (State.setRf_rf_beside _ _ _ hcan2 (by decide) (by decide)).trans hatt
  · exact State.setRf_rf_same _ _ _ _ hcan2 (by decide)

end Sys2Proof.Machine
end

section
/-! SUPPORT. STEP.BEGIN, STEP.VOTE, PLM.EVAL and STEP_VOTE_SEND by what they answer (R146, R292-R294, R335, R395, R443). -/

namespace Sys2Proof.Machine

theorem fld_low (w : Word) (n : Nat) : fld w 0 n = w.toNat % 2 ^ n := by simp [fld, bits]

/-- With no vote outstanding an instruction need not wait for one (R294). -/
theorem State.voteOut_none {s : State} {b : Bid} (hvote : (s.fm b).voteReq = none) : s.voteOut b = false := by
  rw [State.voteOut, hvote]; rfl

/-- An instruction issues by its body's answer alone. -/
theorem issue_answers {s : State} {h : Issue} {n : Nat} {opcode : BitVec 10} {body : Fm → State → Disp} {d : Disp}
    (hb : body (s.fmCtx h opcode) s = d) : issue h n opcode body s = issue h n opcode (fun _ _ => d) s := by
  unfold issue
  dsimp only
  rw [hb]

/-! ## STEP.BEGIN (R292) -/

/-- What STEP.BEGIN of step k answers with nothing that it waits for. -/
def State.stepBeginAnswer (s : State) (b : Bid) (p : Part) (k : Nat) : Disp :=
  if (s.ctl p).live then
    (if s.rf (K.STEP_STATE b) F.STEP_STATE_PHASE = 1 ∨ s.rf (K.STEP_STATE b) F.STEP_STATE_PHASE = 2 ∨ k ≠ (s.ctl p).step then
      .fault .stepSequence
    else .done (s.beginStep b k (s.ctl p).attempt))
  else
    match (s.ctl p).admits k with
    | none => .fault .stepSequence
    | some att => .done ((s.openStep p k att).beginStep b k att)

section
variable {s : State} {b : Bid} {p : Part} {k : Nat}

/-- A Bench joins the attempt in progress. -/
theorem State.stepBeginAnswer_live (hlive : (s.ctl p).live = true) (h1 : s.rf (K.STEP_STATE b) F.STEP_STATE_PHASE ≠ 1)
    (h2 : s.rf (K.STEP_STATE b) F.STEP_STATE_PHASE ≠ 2) (hk : k = (s.ctl p).step) :
    s.stepBeginAnswer b p k = .done (s.beginStep b k (s.ctl p).attempt) := by
  rw [State.stepBeginAnswer, if_pos hlive, if_neg (by simp [h1, h2, hk])]

variable (hlive : (s.ctl p).live = false)
include hlive

theorem State.stepBeginAnswer_admitted {att : Nat} (hadm : (s.ctl p).admits k = some att) :
    s.stepBeginAnswer b p k = .done ((s.openStep p k att).beginStep b k att) := by
  rw [State.stepBeginAnswer, if_neg (Bool.eq_false_iff.mp hlive), hadm]

theorem State.stepBeginAnswer_refused (hadm : (s.ctl p).admits k = none) : s.stepBeginAnswer b p k = .fault .stepSequence := by
  rw [State.stepBeginAnswer, if_neg (Bool.eq_false_iff.mp hlive), hadm]

end

section
variable {s : State} {h : Issue} {ra : BitVec 5}

/-- While the step controller's core stands stopped it waits (R443). -/
theorem stepBegin_stopped (hi : s.Issues h 1) (hcore : s.hubCore stepCore = false) : exec (.stepBegin h ra) s = .next s := by
  rw [show exec (.stepBegin h ra) s = execStepBegin h ra s from rfl, execStepBegin]
  exact issue_stall hi (if_pos (by simp [hcore]))

theorem stepBegin_answers (harr : s.Arrived h.bench [ra]) (hvote : (s.fm h.bench).voteReq = none)
    (hcore : s.hubCore stepCore = true) (hsweep : s.rb (K.ERR_BSTAT h.bench) F.ERR_BSTAT_SWEEP_ERROR = false) :
    exec (.stepBegin h ra) s = issue h 1 (opcodeOf 9 1)
      (fun _ _ => s.stepBeginAnswer h.bench ((s.partOf h.bench).getD 0) ((s.sreg h ra).toNat % 2 ^ 48)) s := by
  rw [show exec (.stepBegin h ra) s = execStepBegin h ra s from rfl, execStepBegin]
  refine issue_answers ((if_neg ?_).trans ((waitS_arrived _ _ _ _ _ harr).trans ((if_neg ?_).trans ?_)))
  · rw [hcore, Bool.not_true, Bool.or_false]
    exact Bool.eq_false_iff.mp (State.voteOut_none hvote)
  · exact Bool.eq_false_iff.mp hsweep
  · rw [State.sreg, ← fld_low]
    rfl

/-- Where it answers that its Bench begins a step at which the controller has an attempt in progress, it retires there. -/
theorem stepBegin_begins {t : State} {p : Part} {k att : Nat} {phase : StepPhase} (hi : s.Issues h 1)
    (hans : exec (.stepBegin h ra) s = issue h 1 (opcodeOf 9 1) (fun _ _ => .done (t.beginStep h.bench k att)) s)
    (hinv : t.Inv) (hmem : t.mem = s.mem) (hk : k < 2 ^ 48) (hplace : (t.ctl p).place = (phase, k, att)) (hphase : phase ≠ .idle) :
    ∃ u, exec (.stepBegin h ra) s = .next u
      ∧ u.rf (K.STEP_STATE h.bench) F.STEP_STATE_STEP = k ∧ u.rf (K.STEP_STATE h.bench) F.STEP_STATE_ATTEMPT = att % 16
      ∧ u.rf (K.STEP_STATE h.bench) F.STEP_STATE_PHASE = 1
      ∧ (u.ctl p).step = k ∧ (u.ctl p).attempt = att ∧ (u.ctl p).live = true
      ∧ (u.fm h.bench).pc = (s.fm h.bench).pc + 1 ∧ u.mem = s.mem := by
  obtain ⟨u, hu, hfm, honly⟩ := issue_done_from (opcode := opcodeOf 9 1) (body := fun _ _ => .done (t.beginStep h.bench k att)) hi rfl
  obtain ⟨hstep, hatt, hopen⟩ := State.beginStep_stepState hinv h.bench k att
  have hctl : u.ctl p = t.ctl p := (honly.ctl p).trans (State.beginStep_ctl _ _ _ _ _)
  obtain ⟨hp1, hp2, hp3⟩ : (t.ctl p).phase = phase ∧ (t.ctl p).step = k ∧ (t.ctl p).attempt = att := by
    simpa [StepCtl.place] using hplace
  refine ⟨u, hans.trans hu, ?_, ?_, ?_, ?_, ?_, ?_, ?_, ?_⟩
  · rw [honly.stepState, hstep, Nat.mod_eq_of_lt hk]
  · rw [honly.stepState, hatt]
  · rw [honly.stepState, hopen]
  · rw [hctl, hp2]
  · rw [hctl, hp3]
  · rw [hctl, StepCtl.live, hp1, bne_iff_ne]
    exact hphase
  · exact congrArg Foreman.pc hfm
  · rw [honly.mem, State.beginStep_mem, hmem]

end

/-! ## STEP.VOTE and PLM.EVAL (R146, R293, R294) -/

/-- A Bench's vote waiting, and its PHASE VOTING. -/
def State.voteAsked (s : State) (b : Bid) (v : VoteReq) : State :=
  (s.onFm b fun f => { f with voteReq := some v }).setRf (K.STEP_STATE b) F.STEP_STATE_PHASE 2

theorem State.voteAsked_fm (s : State) (b : Bid) (v : VoteReq) :
    (s.voteAsked b v).fm b = { s.fm b with voteReq := some v } := by
  rw [State.voteAsked, State.setRf, State.setReg_fm, State.onFm_fm_same]

/-- A Bench's evaluation complete, with the vote PASS where its partition's Plumbs have cast none (R146). -/
def State.evalSkipped (s : State) (b : Bid) (p : Part) : State :=
  (s.onFm b fun f => { f with evalDone := true }).onCtl p fun k => { k with plumbVote := some (k.plumbVote.getD .pass) }

theorem State.evalSkipped_fm (s : State) (b : Bid) (p : Part) : (s.evalSkipped b p).fm b = { s.fm b with evalDone := true } :=
  (rfl : _ = (s.onFm b fun f => { f with evalDone := true }).fm b).trans (State.onFm_fm_same _ _ _)

/-- A Foreman's evaluation that waits for the instructions which count (R146). -/
def Foreman.evalAsked (f : Foreman) (x : Bench) : Foreman :=
  { f with evalReq := some ((x.allEntries.filter Entry.counts).map fun e => e.id), evalAt := f.nextId }

section
variable {s : State} {h : Issue} (hi : s.Issues h 1) (hvote : (s.fm h.bench).voteReq = none)
  (hopen : s.rf (K.STEP_STATE h.bench) F.STEP_STATE_PHASE = 1)
include hi hvote hopen

section
variable {rd : BitVec 5} {vote : Vote} {cover : BitVec 8} (harr : s.Arrived h.bench [rd])
include harr

/-- In an OPEN step the vote waits for what it covers and the fences before it, and PHASE is VOTING. -/
theorem stepVote_waits (hinv : s.Inv) (heval : s.rb (K.PLM_CTL ((s.partOf h.bench).getD 0)) F.PLM_CTL_ENABLE = false
      ∨ (s.fm h.bench).evalReq ≠ none ∨ (s.fm h.bench).evalSent = true ∨ (s.fm h.bench).evalDone = true) :
    ∃ t, exec (.stepVote h rd vote cover) s = .next t ∧ t.rf (K.STEP_STATE h.bench) F.STEP_STATE_PHASE = 2 ∧ t.mem = s.mem
      ∧ t.fm h.bench = { s.fm h.bench with
          voteReq := some ⟨vote, (s.bench h.bench).covered cover, (s.fm h.bench).fenceIds, rd, false, (s.fm h.bench).pc,
            s.markOf h.bench⟩
          pc := (s.fm h.bench).pc + 1 } := by
  have hgo : ¬ (s.rb (K.PLM_CTL ((s.partOf h.bench).getD 0)) F.PLM_CTL_ENABLE && (s.fm h.bench).evalReq.isNone
      && !(s.fm h.bench).evalSent && !(s.fm h.bench).evalDone) = true := by
    rcases heval with h | h | h | h <;> simp [h]
  have hans : exec (.stepVote h rd vote cover) s = issue h 1 (opcodeOf 9 2) (fun _ _ => .later
      (s.voteAsked h.bench ⟨vote, (s.bench h.bench).covered cover, (s.fm h.bench).fenceIds, rd, false, (s.fm h.bench).pc,
        s.markOf h.bench⟩)) s := by
    rw [show exec (.stepVote h rd vote cover) s = execStepVote h rd vote cover s from rfl, execStepVote]
    exact issue_answers ((if_neg (Bool.eq_false_iff.mp (State.voteOut_none hvote))).trans
      ((waitS_arrived _ _ _ _ _ harr).trans ((if_neg (not_not_intro hopen)).trans (if_neg hgo))))
  obtain ⟨u, hu, hfm, honly⟩ := issue_later (opcode := opcodeOf 9 2) (body := fun _ _ => .later (s.voteAsked h.bench _)) hi rfl
  refine ⟨u, hans.trans hu, ?_, ?_, ?_⟩
  · rw [honly.stepState]
    exact State.setRf_rf_same _ _ _ _ hinv.1 (by decide)
  · rw [honly.mem, State.voteAsked, State.setRf_mem, State.onFm_mem]
  · rw [hfm, State.voteAsked_fm]
    rfl

/-- Before PLM.EVAL of its attempt was dispatched the vote faults. -/
theorem stepVote_unevaluated (hon : s.rb (K.PLM_CTL ((s.partOf h.bench).getD 0)) F.PLM_CTL_ENABLE = true)
    (hreq : (s.fm h.bench).evalReq = none) (hsent : (s.fm h.bench).evalSent = false) (hdone : (s.fm h.bench).evalDone = false) :
    exec (.stepVote h rd vote cover) s = .next (s.fault (s.fmCtx h (opcodeOf 9 2)).at_ .plmSequence) := by
  rw [show exec (.stepVote h rd vote cover) s = execStepVote h rd vote cover s from rfl, execStepVote]
  refine issue_fault hi ((if_neg (Bool.eq_false_iff.mp (State.voteOut_none hvote))).trans
    ((waitS_arrived _ _ _ _ _ harr).trans ((if_neg (not_not_intro hopen)).trans (if_pos ?_))))
  simp [State.fmCtx, hon, hreq, hsent, hdone]

end

section
variable (hreq : (s.fm h.bench).evalReq = none) (hsent : (s.fm h.bench).evalSent = false)
  (hdone : (s.fm h.bench).evalDone = false)
include hreq hsent hdone

omit hi hvote in
/-- It is the attempt's first evaluation. -/
theorem plmEval_first : ¬ (s.rf (K.STEP_STATE h.bench) F.STEP_STATE_PHASE != 1 || (s.fm h.bench).evalReq.isSome
    || (s.fm h.bench).evalSent || (s.fm h.bench).evalDone) = true := by
  rw [hopen, hreq, hsent, hdone]
  decide

/-- With the Plumbs off the evaluation is complete at once, with the vote PASS. -/
theorem plmEval_off (hoff : s.rb (K.PLM_CTL ((s.partOf h.bench).getD 0)) F.PLM_CTL_ENABLE = false) :
    ∃ t, exec (.plmEval h) s = .next t
      ∧ t.fm h.bench = { s.fm h.bench with evalDone := true, pc := (s.fm h.bench).pc + 1 }
      ∧ (t.ctl ((s.partOf h.bench).getD 0)).plumbVote
        = some ((s.ctl ((s.partOf h.bench).getD 0)).plumbVote.getD .pass)
      ∧ t.mem = s.mem := by
  have hans : exec (.plmEval h) s = issue h 1 (opcodeOf 0xB 0x01)
      (fun _ _ => .done (s.evalSkipped h.bench ((s.partOf h.bench).getD 0))) s := by
    rw [show exec (.plmEval h) s = execPlmEval h s from rfl, execPlmEval]
    exact issue_answers ((if_neg (Bool.eq_false_iff.mp (State.voteOut_none hvote))).trans
      ((if_neg (plmEval_first hopen hreq hsent hdone)).trans (if_pos (Bool.not_eq_true' _ |>.mpr hoff))))
  obtain ⟨u, hu, hfm, honly⟩ := issue_done_from (opcode := opcodeOf 0xB 0x01)
    (body := fun _ _ => .done (s.evalSkipped h.bench ((s.partOf h.bench).getD 0))) hi rfl
  refine ⟨u, hans.trans hu, ?_, ?_, ?_⟩
  · rw [hfm, State.evalSkipped_fm]
    rfl
  · rw [honly.ctl, State.evalSkipped, State.onCtl_ctl_same]
    rfl
  · rw [honly.mem, State.evalSkipped, State.onCtl_mem, State.onFm_mem]

/-- With the Plumbs on the evaluation waits for the instructions that count. -/
theorem plmEval_on (hon : s.rb (K.PLM_CTL ((s.partOf h.bench).getD 0)) F.PLM_CTL_ENABLE = true) :
    Retires (.plmEval h) h s { s.fm h.bench with
      evalReq := some (((s.bench h.bench).allEntries.filter Entry.counts).map fun e => e.id)
      evalAt := (s.fm h.bench).nextId } ((s.fm h.bench).pc + 1) := by
  have hgo : ¬ (!s.rb (K.PLM_CTL ((s.partOf h.bench).getD 0)) F.PLM_CTL_ENABLE) = true := by rw [hon]; exact Bool.false_ne_true
  have hans : exec (.plmEval h) s = issue h 1 (opcodeOf 0xB 0x01)
      (fun _ _ => .done (s.onFm h.bench fun f => f.evalAsked (s.bench h.bench))) s := by
    rw [show exec (.plmEval h) s = execPlmEval h s from rfl, execPlmEval]
    exact issue_answers ((if_neg (Bool.eq_false_iff.mp (State.voteOut_none hvote))).trans
      ((if_neg (plmEval_first hopen hreq hsent hdone)).trans (if_neg hgo)))
  obtain ⟨u, hu, hfm, honly⟩ := issue_onFm h 1 (opcodeOf 0xB 0x01)
    (fun _ _ => .done (s.onFm h.bench fun f => f.evalAsked (s.bench h.bench))) s (fun f => f.evalAsked (s.bench h.bench)) hi rfl
  exact ⟨u, hans.trans hu, hfm, honly⟩

end

end

/-! ## STEP_VOTE_SEND (R293, R378, R395, R447) -/

/-- A Bench's vote entered with the controller, with its causes. -/
def State.voteEntered (s : State) (p : Part) (b : Bid) (v : VoteReq) : State :=
  let w : Vote := if (s.wgh b).voteAbort then .abort else .pass
  let s := s.onFm b fun f => { f with voteReq := some { v with sent := true } }
  let s := s.castVote p b (voteMax v.vote w)
  let s := if v.vote = .pass then s else s.onCtl p fun c => c.cause causeProgram
  if (s.wgh b).voteAbort then s.onCtl p fun c => c.cause causeWeighbridge else s

/-- Causes noted leave the Foremen, memory and the votes. -/
theorem State.voteEntered_leaves {β : Type} (π : State → β) (s : State) (p : Part) (b : Bid) (v : VoteReq)
    (hcause : ∀ (s : State) i, π (s.onCtl p fun c => c.cause i) = π s) :
    π (s.voteEntered p b v) = π ((s.onFm b fun f => { f with voteReq := some { v with sent := true } }).castVote p b
      (voteMax v.vote (if (s.wgh b).voteAbort then .abort else .pass))) := by
  have hprogram (c : Prop) [Decidable c] (s : State) (i : Nat) :
      π (if c then s else s.onCtl p fun x => x.cause i) = π s := by
    split
    · rfl
    · exact hcause _ _
  have hbuckets (c : Prop) [Decidable c] (s : State) (i : Nat) :
      π (if c then s.onCtl p fun x => x.cause i else s) = π s := by
    split
    · exact hcause _ _
    · rfl
  exact (hbuckets _ _ _).trans (hprogram _ _ _)

section
variable {s : State} {b : Bid}

theorem stepVoteSend_stopped (hcore : s.hubCore stepCore = false) : exec (.stepVoteSend b) s = .next s := by
  rw [show exec (.stepVoteSend b) s = execStepVoteSend b s from rfl, execStepVoteSend, State.byCore, hcore]
  exact if_neg Bool.false_ne_true

variable {p : Part} {v : VoteReq} (hpart : s.partOf b = some p) (hreq : (s.fm b).voteReq = some v)
  (hcore : s.hubCore stepCore = true)
include hpart hreq hcore

/-- A waiting vote is entered once all that it waits for is over; the controller goes on in any case. -/
theorem stepVoteSend_advances : exec (.stepVoteSend b) s =
    if v.sent || !(s.ctl p).live || !v.covers.isEmpty || !v.after.isEmpty || !(s.fm b).evalOver
        || !s.wghFinished b (s.ctl p).step (s.ctl p).attempt then .next (s.stepAdvance p)
    else .next ((s.voteEntered p b v).stepAdvance p) := by
  rw [show exec (.stepVoteSend b) s = execStepVoteSend b s from rfl, execStepVoteSend, State.byCore, if_pos hcore]
  dsimp only
  rw [hpart]
  dsimp only
  rw [hreq]
  rfl

/-- While the evaluation is not over the Bench casts no vote. -/
theorem stepVoteSend_unevaluated (hover : (s.fm b).evalOver = false) : ∃ t, exec (.stepVoteSend b) s = .next t
    ∧ (t.fm b).voteReq = some v ∧ (t.ctl p).benchVotes = (s.ctl p).benchVotes := by
  refine ⟨s.stepAdvance p, (stepVoteSend_advances hpart hreq hcore).trans (if_pos (by simp [hover])), ?_, ?_⟩
  · rw [State.stepAdvance_fm, hreq]
  · exact State.stepAdvance_benchVotes s p

/-- With all that it waits for over, the vote is cast, never weaker than the program's. -/
theorem stepVoteSend_casts (hunsent : v.sent = false) (hlive : (s.ctl p).live = true) (hcovers : v.covers = [])
    (hafter : v.after = []) (hover : (s.fm b).evalOver = true)
    (hwgh : s.wghFinished b (s.ctl p).step (s.ctl p).attempt = true) :
    ∃ t, exec (.stepVoteSend b) s = .next t ∧ (t.fm b).voteReq = some { v with sent := true } ∧ t.mem = s.mem
      ∧ ∃ w, (b.val, w) ∈ (t.ctl p).benchVotes ∧ voteRank v.vote ≤ voteRank w := by
  refine ⟨(s.voteEntered p b v).stepAdvance p, (stepVoteSend_advances hpart hreq hcore).trans
    (if_neg (by simp [hunsent, hlive, hcovers, hafter, hover, hwgh])), ?_, ?_, ?_⟩
  · rw [State.stepAdvance_fm, s.voteEntered_leaves (fun s => s.fm b) p b v fun _ _ => rfl, State.castVote_fm, State.onFm_fm_same]
  · rw [State.stepAdvance_mem, s.voteEntered_leaves State.mem p b v fun _ _ => rfl, State.castVote_mem, State.onFm_mem]
  · rw [State.stepAdvance_benchVotes, s.voteEntered_leaves (fun s => (s.ctl p).benchVotes) p b v fun s i => by
      rw [State.onCtl_ctl_same, StepCtl.cause_benchVotes]]
    obtain ⟨w, hmem, hle⟩ := State.castVote_holds (s.onFm b fun f => { f with voteReq := some { v with sent := true } }) p b
      (voteMax v.vote (if (s.wgh b).voteAbort then .abort else .pass))
    exact ⟨w, hmem, (voteRank_le_voteMax _ _).1.trans hle⟩

end

end Sys2Proof.Machine
end

section
/-! The settlement of O22. -/

open Sys2Proof Sys2Proof.Machine

/-- Settles O22: each instruction by its guards, and the waiting vote by the step controller's core and the evaluation. -/
theorem stepIssues : Obligations.StepIssues := by
  refine fun s hinv => ⟨fun h ra rd vote cover hi harr hvote => ?_, fun b p v hpart hreq => ⟨?_, ?_, ?_⟩⟩
  · have hra : s.Arrived h.bench [ra] := fun r hr => harr r (by simp [List.mem_singleton.mp hr])
    have hrd : s.Arrived h.bench [rd] := fun r hr => harr r (by simp [List.mem_singleton.mp hr])
    have hk : (s.sreg h ra).toNat % 2 ^ 48 < 2 ^ 48 := Nat.mod_lt _ (by decide)
    refine ⟨stepBegin_stopped hi, fun hcore hsweep => ?_, fun hopen => ⟨?_, ?_⟩, fun hopen hnone hsent hdone => ⟨?_, ?_⟩⟩
    · have hans := stepBegin_answers hra hvote hcore hsweep
      refine ⟨fun hlive h1 h2 hstep => ?_, fun hidle att hadm => ?_, fun hidle hadm => ?_⟩
      · rw [State.stepBeginAnswer_live hlive h1 h2 hstep] at hans
        refine stepBegin_begins hi hans hinv rfl hk (phase := (s.ctl ((s.partOf h.bench).getD 0)).phase) ?_ (bne_iff_ne.mp hlive)
        rw [StepCtl.place, hstep]
      · rw [State.stepBeginAnswer_admitted hidle hadm] at hans
        exact stepBegin_begins hi hans ((State.openStep_keeps (Keeps.refl s)).inv hinv) (State.openStep_mem _ _ _ _) hk
          (State.openStep_place _ _ _ _) (by decide)
      · rw [State.stepBeginAnswer_refused hidle hadm] at hans
        exact hans.trans (issue_fault hi rfl)
    · exact stepVote_waits hi hvote hopen hrd hinv
    · exact stepVote_unevaluated hi hvote hopen hrd
    · exact plmEval_off hi hvote hopen hnone hsent hdone
    · exact plmEval_on hi hvote hopen hnone hsent hdone
  · exact stepVoteSend_stopped
  · exact stepVoteSend_unevaluated hpart hreq
  · exact stepVoteSend_casts hpart hreq

end

section
/-!
SUPPORT. Engine instructions dispatched: what the state is with one entry more at the end of a queue, and that an instruction whose
body answers that state enters its queue with what it captures (R273, R278, R279); SCR.OPT also enters its step's sweep (R126, R191).
-/

namespace Sys2Proof.Machine

/-! ## One entry more -/

/-- The state that a dispatch answers: entry e behind queue q, the identifier given out, the dispatch counted. -/
def State.enqueued (s : State) (b : Bid) (q : Fin 8) (e : Entry) : State :=
  ((s.setQueue b q (s.queue b q ++ [.instr e])).onFm b fun f => { f with nextId := f.nextId + 1 }).countB b (120 + q.val) 1

section
variable (s : State) (b : Bid) (q : Fin 8) (e : Entry)

@[simp] theorem State.onFm_queue (c : Bid) (f : Foreman → Foreman) : (s.onFm b f).queue c q = s.queue c q := by
  rw [State.queue, State.onFm, State.onBench_bench]
  split
  · next hc => subst hc; rfl
  · rfl

@[simp] theorem State.countB_bench (c : Bid) (n k : Nat) : (s.countB b n k).bench c = s.bench c := State.setReg_bench ..

theorem State.onCtl_apart (p : Part) (f : StepCtl → StepCtl) : (s.onCtl p f).apart = s.apart.onCtl p f := rfl

theorem State.onCtl_bench (p : Part) (f : StepCtl → StepCtl) (c : Bid) : (s.onCtl p f).bench c = s.bench c := rfl

theorem State.onCtl_reg (p : Part) (f : StepCtl → StepCtl) (k : Nat) : (s.onCtl p f).reg k = s.reg k := rfl

theorem State.setReg_apart (k : Nat) (v : Word) : (s.setReg k v).apart = s.apart := by
  rw [State.setReg]; rfl

@[simp] theorem State.enqueued_queue_same : (s.enqueued b q e).queue b q = s.queue b q ++ [.instr e] := by
  rw [State.enqueued, State.countB_queue, State.onFm_queue, State.setQueue_queue_same]

theorem State.enqueued_queue_other {r : Fin 8} (hr : r ≠ q) : (s.enqueued b q e).queue b r = s.queue b r := by
  rw [State.enqueued, State.countB_queue, State.onFm_queue, State.setQueue_queue_other _ _ _ hr]

theorem State.enqueued_fm : (s.enqueued b q e).fm b = { s.fm b with nextId := (s.fm b).nextId + 1 } := by
  rw [State.enqueued, State.fm, State.countB_bench, ← State.fm, State.onFm_fm_same, State.fm, State.setQueue,
    State.onBench_bench_same]
  rfl

theorem State.enqueued_apart : (s.enqueued b q e).apart = s.apart := (State.setReg_apart ..).trans rfl

theorem State.enqueued_bench_other {c : Bid} (hc : c ≠ b) : (s.enqueued b q e).bench c = s.bench c := by
  rw [State.enqueued, State.countB_bench, State.onFm, State.onBench_bench_other _ _ _ _ hc, State.setQueue,
    State.onBench_bench_other _ _ _ _ hc]

theorem State.enqueued_bench_apart : { ((s.enqueued b q e).bench b).apart with q := (s.bench b).q } = (s.bench b).apart := by
  rw [State.enqueued, State.countB_bench, State.onFm, State.onBench_bench_same, State.setQueue, State.onBench_bench_same]
  rfl

theorem State.enqueued_reg {k : Nat} (hk : k ≠ K.BENCH_CTR b (120 + q.val)) : (s.enqueued b q e).reg k = s.reg k :=
  State.setReg_other _ _ _ _ hk.symm

theorem State.enqueued_stepState (f : Fld) : (s.enqueued b q e).rf (K.STEP_STATE b) f = s.rf (K.STEP_STATE b) f := by
  rw [State.rf, s.enqueued_reg b q e (by simp only [K.STEP_STATE, K.BENCH_CTR]; omega), State.rf]

/-- The entries of a Bench's Screens are those of its queue, whatever identifier comes next. -/
theorem State.enqueued_optIds : (s.enqueued b q e).optIds b = (s.setQueue b q (s.queue b q ++ [.instr e])).optIds b := by
  rw [State.optIds, State.enqueued, State.countB_bench, State.onFm, State.onBench_bench_same]
  rfl

end

/-! ## What enters its queue -/

theorem State.OnlyForeman.queue {s t : State} {b : Bid} (h : s.OnlyForeman b t) (q : Fin 8) : t.queue b q = s.queue b q := by
  obtain ⟨-, -, hbench, -⟩ := h
  exact (congrArg (fun x : Bench => x.q[q]) hbench :)

section
variable {i : Instr} {h : Issue} {n : Nat} {opcode : BitVec 10} {q : Fin 8} {op : EngOp} {sel : Nat} {ds : List (BitVec 4)}
  {rs : List (BitVec 5)} {s : State}

/-- An instruction whose body answers the state with its entry, on the Benches and in the registers, has entered its queue; of the
rest, what that answer leaves stands. -/
theorem dispatchesAt_of_done {body : Fm → State → Disp} {s' t : State} (hi : s.Issues h n)
    (hx : exec i s = issue h n opcode body s) (hb : body (s.fmCtx h opcode) s = .done t)
    (hbench : ∀ c, t.bench c = (s.enqueued h.bench q (s.newEntry (s.fmCtx h opcode) op sel ds rs)).bench c)
    (hreg : ∀ k, t.reg k = (s.enqueued h.bench q (s.newEntry (s.fmCtx h opcode) op sel ds rs)).reg k)
    (hapart : t.apart = s'.apart) : DispatchesAt i h n opcode q op sel ds rs s s' := by
  obtain ⟨u, hu, hfm, hleft⟩ := issue_done_from hi hb
  have hqueue (r : Fin 8) :
      u.queue h.bench r = (s.enqueued h.bench q (s.newEntry (s.fmCtx h opcode) op sel ds rs)).queue h.bench r := by
    rw [hleft.queue, State.queue, hbench, ← State.queue]
  obtain ⟨huapart, huother, husame, hureg⟩ := hleft
  refine ⟨u, hx.trans hu, ?_, fun r hr => ?_, ?_, huapart.trans hapart, fun c hc => ?_, ?_, fun k hk => ?_⟩
  · rw [hqueue, State.enqueued_queue_same]
  · rw [hqueue, State.enqueued_queue_other _ _ _ _ hr]
  · rw [hfm, State.fm, hbench, ← State.fm, State.enqueued_fm]
  · rw [huother c hc, hbench, State.enqueued_bench_other _ _ _ _ hc]
  · rw [husame, hbench, State.enqueued_bench_apart]
  · obtain ⟨hcount, hretire⟩ := not_or.mp (mt List.mem_cons.mpr hk)
    rw [hureg k hretire, hreg, State.enqueued_reg _ _ _ _ hcount]

/-- An instruction whose body is a dispatch enters its queue where it may be dispatched. -/
theorem dispatches_of_dispatch (hx : exec i s = issue h n opcode (dispatch q op sel ds rs) s)
    (hd : s.Dispatchable h n q ds rs) : Dispatches i h n opcode q op sel ds rs s :=
  dispatchesAt_of_done hd.1 hx (dispatch_eq h n opcode q op sel ds rs s hd) (fun _ => rfl) (fun _ => rfl)
    (State.enqueued_apart ..)

end

/-! ## SCR.DCURVE with GATED (R188, R329) -/

theorem exec_scrDcurve_gated (h : Issue) (ssel : BitVec 2) (da db dc : BitVec 4) (tid1 : BitVec 32) {dd : BitVec 4} (slot : BitVec 5)
    (tid : BitVec 32) (s : State) (hdd : dd ≠ 15) :
    exec (.scrDcurve h ssel da db (some (dc, tid1)) dd slot tid) s
      = issue h 2 (opcodeOf 5 3) (dispatch 5 (.scr (.dcurve slot true) tid tid1) ssel.toNat [da, db, dc, dd, dd + 1] []) s := by
  change issue h 2 (opcodeOf 5 3) (valid _ _) s = _
  rw [valid_ok (by simpa using hdd)]

/-! ## SCR.OPT (R191, R294, R295, R329) -/

/-- The descriptor registers that SCR.OPT names (R191). -/
def optRegs (da : BitVec 4) : List (BitVec 4) := [da, da + 1, da + 2, da + 3, da + 4, da + 5, da + 6]

theorem range_optRegs (da : BitVec 4) : (List.range 7).map (fun i => da + BitVec.ofNat 4 i) = optRegs da := by
  simp [List.range_succ, optRegs]

/-- What SCR.OPT is in its queue, with what it captures (R191). -/
def State.optEntry (s : State) (h : Issue) (ssel : BitVec 2) (da : BitVec 4) (ra : BitVec 5) (norm : Bool) (tid tid1 : BitVec 32) :
    Entry :=
  s.newEntry (s.fmCtx h (opcodeOf 5 6)) (.scr (.opt norm) tid tid1) ssel.toNat (optRegs da) [ra]

section
variable {s : State} {h : Issue} {da : BitVec 4} (ssel : BitVec 2) (ra : BitVec 5) (norm : Bool) (tid tid1 : BitVec 32)
  (hda : da.toNat ≤ 9) (hv : (s.fm h.bench).voteReq = none) (hph : s.rf (K.STEP_STATE h.bench) F.STEP_STATE_PHASE = 3)
  (hd : s.Dispatchable h 2 5 (optRegs da) [ra])
include hda hv hph hd

/-- Behind its guards SCR.OPT enters queue SCR, and the sweep of its step waits for it too. -/
theorem scrOpt_dispatches :
    DispatchesAt (.scrOpt h ssel da ra norm tid tid1) h 2 (opcodeOf 5 6) 5 (.scr (.opt norm) tid tid1) ssel.toNat (optRegs da) [ra] s
      (s.onCtl ((s.partOf h.bench).getD 0) fun k => k.sweep (s.rf (K.STEP_STATE h.bench) F.STEP_STATE_STEP) h.bench
        ((s.setQueue h.bench 5 (s.queue h.bench 5 ++ [.instr (s.optEntry h ssel da ra norm tid tid1)])).optIds h.bench)) := by
  have hvote : s.voteOut h.bench = false := by simp [State.voteOut, hv]
  have hopt : s.optAllowed h.bench = true := by simp [State.optAllowed, hph]
  let t := s.enqueued h.bench 5 (s.optEntry h ssel da ra norm tid tid1)
  have hdisp : dispatch 5 (.scr (.opt norm) tid tid1) ssel.toNat (optRegs da) [ra] (s.fmCtx h (opcodeOf 5 6)) s = .done t :=
    dispatch_eq _ _ _ _ _ _ _ _ _ hd
  have hx : exec (.scrOpt h ssel da ra norm tid tid1) s = execScrOpt h ssel da ra norm tid tid1 s := rfl
  rw [execScrOpt, valid_ok (decide_eq_true hda), range_optRegs] at hx
  refine dispatchesAt_of_done hd.1 hx (t := t.onCtl ((s.partOf h.bench).getD 0) fun k =>
    k.sweep (t.rf (K.STEP_STATE h.bench) F.STEP_STATE_STEP) h.bench (t.optIds h.bench)) ?_ (t.onCtl_bench _ _) (t.onCtl_reg _ _) ?_
  · rw [if_neg (by simp [State.fmCtx, hvote]), if_neg (by simp [State.fmCtx, hopt]), hdisp]
    rfl
  · rw [State.enqueued_stepState, State.enqueued_optIds, State.onCtl_apart, State.onCtl_apart, State.enqueued_apart]

end

end Sys2Proof.Machine
end

section
/-! The settlement of O19. -/

open Sys2Proof Sys2Proof.Machine

/-- Settles O19: each form's body is a dispatch into queue SCR, and SCR.OPT's, behind its guards, enters the step's sweep as well. -/
theorem screensDispatch : Obligations.ScreensDispatch := by
  intro s h ssel da db dc dd ra rb q k slot key norm tid tid1 D
  have enters {i : Instr} {op : Nat} {o : ScrOp} {t1 : BitVec 32} {ds : List (BitVec 4)} {rs : List (BitVec 5)}
      (hx : exec i s = issue h 2 (opcodeOf 5 op) (dispatch 5 (.scr o tid t1) ssel.toNat ds rs) s) : D i op o t1 ds rs :=
    dispatches_of_dispatch hx
  refine ⟨enters rfl, enters rfl, enters rfl, enters rfl, enters rfl, enters rfl, enters rfl, enters rfl, enters rfl,
    enters rfl, enters rfl, enters rfl, enters rfl, enters rfl, enters rfl, enters rfl, enters rfl, ?curve, ?curveMul,
    ?dcurve, ?dcurveGated, ?smax, ?smaxMask, ?topk, ?topkComp, ?opt⟩
  case curve => exact enters rfl
  case curveMul => exact enters rfl
  case dcurve => exact enters rfl
  case dcurveGated => exact fun hdd => enters (exec_scrDcurve_gated h ssel da db dc tid1 slot tid s hdd)
  case smax => exact enters rfl
  case smaxMask => exact enters rfl
  case topk => exact enters rfl
  case topkComp => exact enters rfl
  case opt => exact fun hda hv hph => scrOpt_dispatches ssel ra norm tid tid1 hda hv hph

end

section
/-!
SUPPORT. Memory bit by bit: what a word written under a mask leaves of every bit of memory (R8, R212).
-/

namespace Sys2Proof.Machine

/-! ## Bits of memory -/

/-- Bit x of memory: bit x % 8 of byte x / 8 (R8). -/
def memBit (m : List Host.Cell) (x : Nat) : Bool := (mget m (x / 8)).getLsbD (x % 8)

theorem memBit_byte (m : List Host.Cell) (a : Nat) {j : Nat} (hj : j < 8) : memBit m (8 * a + j) = (mget m a).getLsbD j := by
  rw [memBit, show (8 * a + j) / 8 = a by omega, show (8 * a + j) % 8 = j by omega]

/-- A byte is what its eight bits are. -/
theorem mget_of_memBit {m : List Host.Cell} {a : Nat} {v : Byte} (h : ∀ j < 8, memBit m (8 * a + j) = v.getLsbD j) : mget m a = v :=
  BitVec.eq_of_getLsbD_eq fun j hj => by rw [← memBit_byte m a hj, h j hj]

theorem getD_mread (m : List Host.Cell) (a : Nat) {n i : Nat} (hi : i < n) (d : Byte) : (mread m a n).getD i d = mget m (a + i) := by
  induction n generalizing a i with
  | zero => omega
  | succ n ih =>
    cases i with
    | zero => rfl
    | succ i => rw [mread, List.getD_cons_succ, ih (a + 1) (by omega), Nat.add_right_comm, Nat.add_assoc]

/-- The bits of the number that bytes spell. -/
theorem testBit_ofBytes (l : List Byte) (x : Nat) : (ofBytes l).testBit x = (l.getD (x / 8) 0).getLsbD (x % 8) := by
  induction l generalizing x with
  | nil => simp [ofBytes]
  | cons b bs ih =>
    rw [ofBytes, Nat.add_comm, show (256 : Nat) = 2 ^ 8 from rfl, Nat.testBit_two_pow_mul_add _ b.isLt]
    split
    · next h => rw [Nat.div_eq_of_lt h, Nat.mod_eq_of_lt h]; rfl
    · next h => rw [ih, show x / 8 = (x - 8) / 8 + 1 by omega, show x % 8 = (x - 8) % 8 by omega, List.getD_cons_succ]

/-- The bits of a memory word. -/
theorem State.getLsbD_word (s : State) (wn : Nat) {j : Nat} (hj : j < 128) : (s.word wn).getLsbD j = memBit s.mem (128 * wn + j) := by
  rw [State.word, BitVec.getLsbD_ofNat, testBit_ofBytes, getD_mread _ _ (by omega), memBit]
  simp only [hj, decide_true, Bool.true_and]
  rw [show 16 * wn + j / 8 = (128 * wn + j) / 8 by omega, show j % 8 = (128 * wn + j) % 8 by omega]

/-- The bytes of a number, bit by bit. -/
theorem getLsbD_toBytes (n v : Nat) {i j : Nat} (hi : i < n) (hj : j < 8) : ((toBytes n v).getD i 0).getLsbD j = v.testBit (8 * i + j) := by
  induction n generalizing v i with
  | zero => omega
  | succ n ih =>
    cases i with
    | zero => rw [toBytes, List.getD_cons_zero, BitVec.getLsbD_ofNat, Nat.mul_zero, Nat.zero_add]; simp [hj]
    | succ i =>
      rw [toBytes, List.getD_cons_succ, ih _ (by omega), show v / 256 = v / 2 ^ 8 from rfl, Nat.testBit_div_two_pow,
        show 8 * i + j + 8 = 8 * (i + 1) + j by omega]

/-- Bytes written at a word's place read back as the number they spell; every other bit stands. -/
theorem memBit_mwrite (m : List Host.Cell) (wn x : Nat) (v : Line16) (hm : Memory.wf m) :
    memBit (mwrite m (16 * wn) (toBytes 16 v.toNat)) x = if x / 128 = wn then v.getLsbD (x % 128) else memBit m x := by
  have hlen := length_toBytes 16 v.toNat
  split
  · next h =>
    have hread := mread_mwrite m (16 * wn) (toBytes 16 v.toNat) hm
    rw [hlen] at hread
    have hbyte := getD_mread (mwrite m (16 * wn) (toBytes 16 v.toNat)) (16 * wn) (show x % 128 / 8 < 16 by omega) 0
    rw [hread, show 16 * wn + x % 128 / 8 = x / 8 by omega] at hbyte
    rw [memBit, ← hbyte, getLsbD_toBytes _ _ (by omega) (by omega), BitVec.getLsbD, show 8 * (x % 128 / 8) + x % 8 = x % 128 by omega]
  · next h => rw [memBit, memBit, mget_mwrite_outside _ _ _ _ hm (by rw [hlen]; omega)]

/-- A word written under a mask: the bits the mask names, and no other bit of memory. -/
theorem State.putWord_memBit (s : State) (wn x : Nat) (d m : Line16) (hm : Memory.wf s.mem) :
    memBit (s.putWord wn d m).mem x
      = if x / 128 = wn ∧ m.getLsbD (x % 128) = true then d.getLsbD (x % 128) else memBit s.mem x := by
  have hold : (s.word (x / 128)).getLsbD (x % 128) = memBit s.mem x := by
    rw [s.getLsbD_word _ (Nat.mod_lt _ (by decide)), Nat.div_add_mod]
  rw [State.putWord, memBit_mwrite _ _ _ _ hm, ← hold]
  by_cases hx : x / 128 = wn
  · subst hx
    have hlt : x % 128 < 128 := Nat.mod_lt _ (by decide)
    simp only [BitVec.getLsbD_or, BitVec.getLsbD_and, BitVec.getLsbD_not, hlt, decide_true, Bool.true_and, true_and]
    cases m.getLsbD (x % 128) <;> simp
  · simp [hx]

/-! ## Stores of words -/

/-- A write of a register that decides no window leaves the windows. -/
theorem State.SameWindows.setReg {s t : State} (h : s.SameWindows t) {k : Nat} (v : Word) (hk : ¬ decidesWindows k) :
    s.SameWindows (t.setReg k v) :=
  ⟨fun j hj => (t.setReg_other _ _ _ fun e => hk (by rwa [e])).trans (h.reg j hj), by simp [h.mgmt], by simp [h.mgmtFailed],
    by simp [h.benchFailed], by simp [h.bootFailed]⟩

theorem State.SameWindows.refl (s : State) : s.SameWindows s := ⟨fun _ _ => rfl, rfl, rfl, rfl, rfl⟩

theorem State.SameWindows.trans {r s t : State} (h : r.SameWindows s) (g : s.SameWindows t) : r.SameWindows t :=
  ⟨fun k hk => (g.reg k hk).trans (h.reg k hk), g.mgmt.trans h.mgmt, g.mgmtFailed.trans h.mgmtFailed,
    g.benchFailed.trans h.benchFailed, g.bootFailed.trans h.bootFailed⟩

/-- What a word's mark is after a write of it: its upset is gone, it is as poisoned as it is written, or stays so under a write of a
part, and a write that fills leaves it full (R209, R212). -/
def State.storedMark (s : State) (r : WrReq) : WordMark :=
  let m := s.mark r.word
  let whole := decide (r.mask = allBits)
  let m : WordMark := { m with poison := r.poison || (!whole && m.poison), upset := .clean, rewritten := m.rewritten && !whole }
  if inSram (16 * r.word) && !r.fe.getLsbD 1 then m.setFull true else m

/-- A word of Bench SRAM that holds no upset, and whose full/empty bit lets a write be performed (R212). -/
structure State.Storable (s : State) (r : WrReq) : Prop where
  sram : inSram (16 * r.word) = true
  clean : (s.mark r.word).upset = .clean
  empty : r.fe.getLsbD 0 = true → s.full r.word = false

theorem State.writeWord_storable {s : State} {r : WrReq} (h : s.Storable r) :
    s.writeWord r = .ok () ((s.putWord r.word r.data r.mask).setMark r.word (s.storedMark r)) := by
  have hgo : ¬ (inSram (16 * r.word) && r.fe.getLsbD 0 && s.full r.word) = true := by
    rw [Bool.and_eq_true, Bool.and_eq_true]
    rintro ⟨⟨-, hfe⟩, hfull⟩
    rw [h.empty hfe] at hfull
    cases hfull
  have hdec : (if decide (r.mask = allBits) = true then s else s.decodeWord r.word .clean) = s := by
    rw [s.decodeWord_clean _ h.clean, ite_self]
  rw [State.writeWord]
  dsimp only
  rw [if_neg hgo, hdec]
  rfl

theorem WordMark.full_setFull (m : WordMark) (f : Bool) : (m.setFull f).full = f := by
  cases f <;> simp [WordMark.setFull, WordMark.full, popcount]

theorem State.storedMark_full (s : State) {r : WrReq} (hs : inSram (16 * r.word) = true) :
    (s.storedMark r).full = (s.full r.word || !r.fe.getLsbD 1) := by
  rw [State.storedMark, hs]
  cases r.fe.getLsbD 1
  · simp [WordMark.full_setFull]
  · simp [WordMark.full, State.full]

theorem State.storedMark_poison (s : State) {r : WrReq} (hp : r.poison = true) : (s.storedMark r).poison = true := by
  unfold State.storedMark
  split <;> simp [WordMark.setFull, hp]

/-- `t` is `s` after the writes of `l` to words of Bench SRAM: the bits they name are as written and every other bit stands, the
words they fill are full, and the Benches, the windows and the marks of every other word stand (R210, R212). -/
structure Wrote (l : List WrReq) (s t : State) : Prop where
  inv : t.Inv
  windows : s.SameWindows t
  benches : t.benches = s.benches
  written : ∀ r ∈ l, ∀ j < 128, r.mask.getLsbD j = true → memBit t.mem (128 * r.word + j) = r.data.getLsbD j
  kept : ∀ x, (∀ r ∈ l, r.word = x / 128 → r.mask.getLsbD (x % 128) = false) → memBit t.mem x = memBit s.mem x
  full : ∀ n, t.full n = (s.full n || l.any fun r => r.word == n && !r.fe.getLsbD 1)
  poison : ∀ r ∈ l, r.poison = true → (t.mark r.word).poison = true
  mark : ∀ n, (∀ r ∈ l, r.word ≠ n) → t.mark n = s.mark n

namespace Wrote

variable {l : List WrReq} {s t u : State} {r : WrReq}

theorem nil (hi : s.Inv) : Wrote [] s s :=
  ⟨hi, .refl s, rfl, by simp, fun _ _ => rfl, by simp, by simp, fun _ _ => rfl⟩

/-- What leaves memory, marks, Benches and windows may follow. -/
theorem followed (h : Wrote l s t) (hi : u.Inv) (hw : t.SameWindows u) (hm : u.mem = t.mem) (hk : u.marks = t.marks)
    (hb : u.benches = t.benches) : Wrote l s u := by
  have hmark (n : Nat) : u.mark n = t.mark n := by rw [State.mark, State.mark, hk]
  refine ⟨hi, h.windows.trans hw, hb.trans h.benches, ?_, ?_, fun n => ?_, ?_, ?_⟩
  · rw [hm]; exact h.written
  · rw [hm]; exact h.kept
  · rw [State.full, hmark]; exact h.full n
  · simp only [hmark]; exact h.poison
  · simp only [hmark]; exact h.mark

/-- One word written. -/
theorem one (hi : s.Inv) (h : s.Storable r) : ∃ t, s.writeWord r = .ok () t ∧ Wrote [r] s t := by
  have hput := State.writeWord_storable h
  have hti := (AccKeeps.get hput (State.writeWord_keeps (Keeps.refl s))).inv hi
  have hmark (n : Nat) : ((s.putWord r.word r.data r.mask).setMark r.word (s.storedMark r)).mark n
      = if r.word = n then s.storedMark r else s.mark n := by
    exact State.setMark_mark _ _ _ _ ((State.putWord_keeps (Keeps.refl s)).inv hi).1
  refine ⟨_, hput, hti, ⟨fun _ _ => rfl, rfl, rfl, rfl, rfl⟩, rfl, ?_, ?_, fun n => ?_, ?_, fun n hn => ?_⟩
  · intro r' hr' j hj hmask
    obtain rfl := List.mem_singleton.mp hr'
    rw [State.setMark_mem, s.putWord_memBit _ _ _ _ hi.1.1, show (128 * r'.word + j) % 128 = j by omega, if_pos ⟨by omega, hmask⟩]
  · intro x hx
    rw [State.setMark_mem, s.putWord_memBit _ _ _ _ hi.1.1, if_neg]
    rintro ⟨hword, hmask⟩
    rw [hx r (List.mem_singleton_self r) hword.symm] at hmask
    cases hmask
  · rw [State.full, hmark, List.any_cons, List.any_nil, Bool.or_false]
    split
    · next e => subst e; rw [s.storedMark_full h.sram]; simp
    · next e => simp [e, State.full]
  · intro r' hr' hp
    obtain rfl := List.mem_singleton.mp hr'
    rw [hmark, if_pos rfl, s.storedMark_poison hp]
  · rw [hmark, if_neg (hn r (List.mem_singleton_self r))]

/-- Writes that follow a write of another word. -/
theorem cons (h : Wrote [r] s t) (g : Wrote l t u) (hd : ∀ r' ∈ l, r'.word ≠ r.word) : Wrote (r :: l) s u := by
  refine ⟨g.inv, h.windows.trans g.windows, g.benches.trans h.benches, ?_, ?_, fun n => ?_, ?_, ?_⟩
  · intro r' hr' j hj hmask
    rcases List.mem_cons.mp hr' with rfl | hr'
    · rw [g.kept, h.written r' (List.mem_singleton_self r') j hj hmask]
      intro x hx e
      exact absurd (e.trans (by omega)) (hd x hx)
    · exact g.written r' hr' j hj hmask
  · intro x hx
    rw [g.kept x fun r' hr' => hx r' (List.mem_cons_of_mem _ hr'), h.kept x fun r' hr' => ?_]
    obtain rfl := List.mem_singleton.mp hr'
    exact hx r' List.mem_cons_self
  · rw [g.full, h.full, List.any_cons, List.any_cons, List.any_nil, Bool.or_false, Bool.or_assoc]
  · intro r' hr' hp
    rcases List.mem_cons.mp hr' with rfl | hr'
    · rw [g.mark _ hd]
      exact h.poison r' (List.mem_singleton_self r') hp
    · exact g.poison r' hr' hp
  · intro n hn
    rw [g.mark n fun r' hr' => hn r' (List.mem_cons_of_mem _ hr'), h.mark n fun r' hr' => ?_]
    obtain rfl := List.mem_singleton.mp hr'
    exact hn r' List.mem_cons_self

/-- What may be written to another word may be written still. -/
theorem storable {r' : WrReq} (h : Wrote [r] s t) (hd : r'.word ≠ r.word) (hs : s.Storable r') : t.Storable r' := by
  have hm : t.mark r'.word = s.mark r'.word := h.mark _ fun x hx => by rw [List.mem_singleton.mp hx]; exact hd.symm
  exact ⟨hs.sram, by rw [hm, hs.clean], fun hfe => by rw [State.full, hm]; exact hs.empty hfe⟩

end Wrote

end Sys2Proof.Machine
end

section
/-! SUPPORT. The Foreman's stores to Bench SRAM, word by word (R281, R320, R321). -/

namespace Sys2Proof.Machine

/-- An instruction's store of a word of Bench SRAM that it may access. -/
theorem State.store_storable {s : State} {w : Who} {r : WrReq} (hi : s.Inv) (ha : s.mayAccess w.part (16 * r.word) = true)
    (h : s.Storable r) : ∃ t, s.store w r = .ok () t ∧ Wrote [r] s t := by
  obtain ⟨t, hput, hwrote⟩ := Wrote.one hi h
  rw [State.store]
  dsimp only
  rw [if_neg (by simp [ha]), if_neg (by simp [h.sram]), if_pos h.sram, hput]
  dsimp only
  rw [if_pos h.sram]
  cases w.op with
  | none => exact ⟨_, rfl, hwrote⟩
  | some o =>
  refine ⟨_, rfl, hwrote.followed ((State.slotCount_keeps (Keeps.refl t)).inv hwrote.inv) ?_ ?_ ?_ ?_⟩
  · exact State.slotCount_of (P := fun u => t.SameWindows u) (fun u v i hi' hu => hu.setReg v (by
      simp only [decidesWindows, K.MK_CNT]; omega)) _ _ (.refl t)
  · exact State.slotCount_mem _ _ _ _ _
  · exact State.slotCount_of (P := fun u => u.marks = t.marks) (fun u v _ _ hu => by rw [State.setReg_marks, hu]) _ _ rfl
  · exact State.slotCount_of (P := fun u => u.benches = t.benches) (fun u v _ _ hu => by rw [State.setReg_benches, hu]) _ _ rfl

/-- No slot of a stack is charged for a word of Bench SRAM (R254). -/
theorem State.charge_sram (s : State) (p : Part) (read : Bool) {l : List (Nat × Nat × Nat)}
    (h : ∀ x ∈ l, inSram (16 * x.1) = true) : s.charge p read l = s := by
  have hnone : l.filter (fun x => !inSram (16 * x.1)) = [] :=
    List.filter_eq_nil_iff.mpr fun x hx => by simp [h x hx]
  simp [State.charge, hnone]

/-- The writes of an access that are still to come, its next first. -/
def FmAccess.stores (f : FmAccess) (n : Nat) : List WrReq :=
  (List.range n).map fun i => ({ f with done := f.done + i } : FmAccess).write

theorem FmAccess.stores_succ (f : FmAccess) (n : Nat) :
    f.stores (n + 1) = f.write :: ({ f with done := f.done + 1 } : FmAccess).stores n := by
  rw [FmAccess.stores, List.range_succ_eq_map, List.map_cons, List.map_map, FmAccess.stores]
  congr 1
  refine List.map_congr_left fun i _ => ?_
  simp only [Function.comp_apply, Nat.add_assoc, Nat.add_comm 1 i]

/-- A Foreman's stores to words that may be written are all performed (R281). -/
theorem fmRun_stores (w : Who) (n : Nat) (f : FmAccess) (s : State) (hi : s.Inv) (hop : f.op.reads = false)
    (ha : ∀ r ∈ f.stores n, s.mayAccess w.part (16 * r.word) = true) (hs : ∀ r ∈ f.stores n, s.Storable r)
    (hd : (f.stores n).Pairwise fun r r' => r'.word ≠ r.word) :
    ∃ t, fmRun w n f s = .ok t ∧ Wrote (f.stores n) s t := by
  induction n generalizing f s with
  | zero =>
    refine ⟨s, ?_, Wrote.nil hi⟩
    rw [fmRun, State.fmFinish]
    cases hf : f.op <;> simp_all [FmOp.reads]
  | succ n ih =>
    rw [FmAccess.stores_succ] at ha hs hd ⊢
    obtain ⟨hd1, hd2⟩ := List.pairwise_cons.mp hd
    obtain ⟨t, hst, hwrote⟩ := State.store_storable hi (ha _ List.mem_cons_self) (hs _ List.mem_cons_self)
    obtain ⟨u, hrun, hrest⟩ := ih { f with done := f.done + 1 } t hwrote.inv hop
      (fun r hr => by rw [hwrote.windows.mayAccess]; exact ha r (List.mem_cons_of_mem _ hr))
      (fun r hr => hwrote.storable (hd1 r hr) (hs r (List.mem_cons_of_mem _ hr))) hd2
    refine ⟨u, ?_, hwrote.cons hrest hd1⟩
    rw [fmRun, hop, if_neg Bool.false_ne_true, hst]
    dsimp only
    rw [t.charge_sram _ _ (by simpa using (hs _ List.mem_cons_self).sram)]
    exact hrun

/-! ## Issue -/

section
variable {s : State} {h : Issue} {opcode : BitVec 10}

/-- An access of Bench SRAM whose words may be accessed lies in a window of the partition. -/
theorem State.inWindow_of_mayAccess {p : Part} {a : Nat} (hs : inSram a = true) (h : s.mayAccess p (16 * (a / 16)) = true) :
    s.inWindow p a = true := by
  rw [State.mayAccess, Bool.and_eq_true] at h
  obtain ⟨hw, -⟩ := h
  have hlt := (inSram_iff a).mp hs
  have hb : benchOf (16 * (a / 16)) = benchOf a := by
    apply Fin.ext
    simp only [benchOf, sramSize]
    omega
  rw [State.inWindow, (inSram_iff _).mpr (by omega), if_pos rfl, hb] at hw
  rw [State.inWindow, if_pos hs, hw]

theorem ctrlKey_sram {a : Nat} (hs : inSram a = true) : ctrlKey a = none := by
  rw [inSram_iff] at hs
  rw [ctrlKey, if_neg (by simp only [ctrlBase]; omega), if_neg (by simp only [hubBase]; omega)]

/-- An aligned 8-byte access of Bench SRAM is the Foreman's access of its word (R281, R320). -/
theorem fm8_sram {op : FmOp} {reg : BitVec 5} {a : Nat} {fe : BitVec 2} {v : Word} (hal : a % 8 = 0) (hs : inSram a = true)
    (ha : s.mayAccess ((s.partOf h.bench).getD 0) (16 * (a / 16)) = true) :
    fm8 op reg a fe v (s.fmCtx h opcode) s = fmMem op reg a fe (v.setWidth 512) (s.fmCtx h opcode) s := by
  have hlt := (inSram_iff a).mp hs
  rw [fm8, if_neg (by simp [hal]), ctrlKey_sram hs]
  dsimp only
  rw [if_pos]
  rw [Bool.and_eq_true]
  exact ⟨decide_eq_true (by omega), State.inWindow_of_mayAccess hs ha⟩

/-- An aligned 64-byte access of Bench SRAM is the Foreman's access of its words (R281, R321). -/
theorem fm64_sram {op : FmOp} {reg : BitVec 4} {a : Nat} {fe : BitVec 2} {v : Desc} (hal : a % 64 = 0) (hs : inSram a = true)
    (ha : s.mayAccess ((s.partOf h.bench).getD 0) (16 * (a / 16)) = true) :
    fm64 op reg a fe v (s.fmCtx h opcode) s = fmMem op (reg.setWidth 5) a fe v (s.fmCtx h opcode) s := by
  rw [fm64, if_neg (by simp [hal]), if_pos]
  rw [Bool.and_eq_true]
  exact ⟨hs, State.inWindow_of_mayAccess hs ha⟩

end

/-- An access as it is dispatched, with none of its words performed (R281). -/
def Fm.access (c : Fm) (op : FmOp) (reg : BitVec 5) (a : Nat) (fe : BitVec 2) (v : Desc) : FmAccess :=
  ⟨op, reg, a, fe, v, [], 0, c.op.pc, c.op.mark, c.op.opcode⟩

/-- A store whose words may all be written is performed as it is dispatched. -/
theorem fmMem_stores {s : State} {c : Fm} {op : FmOp} {reg : BitVec 5} {a : Nat} {fe : BitVec 2} {v : Desc} (hi : s.Inv)
    (hop : op.reads = false) (ha : ∀ r ∈ (c.access op reg a fe v).stores op.words, s.mayAccess c.part (16 * r.word) = true)
    (hs : ∀ r ∈ (c.access op reg a fe v).stores op.words, s.Storable r)
    (hd : ((c.access op reg a fe v).stores op.words).Pairwise fun r r' => r'.word ≠ r.word) :
    ∃ t, fmMem op reg a fe v c s = .done t ∧ Wrote ((c.access op reg a fe v).stores op.words) s t := by
  obtain ⟨t, hrun, hwrote⟩ := fmRun_stores (c.who s) op.words (c.access op reg a fe v) s hi hop ha hs hd
  refine ⟨t, ?_, hwrote⟩
  rw [Fm.access] at hrun
  rw [fmMem]
  dsimp only
  rw [hrun]

/-- An instruction whose body has written words to Bench SRAM: the Foreman goes on behind it, the words are written, and nothing
else is but for what retiring counts. -/
theorem issue_wrote {s t : State} {h : Issue} {opcode : BitVec 10} {body : Fm → State → Disp} {l : List WrReq} (his : s.Issues h 1)
    (hb : body (s.fmCtx h opcode) s = .done t) (hw : Wrote l s t) :
    ∃ u, issue h 1 opcode body s = .next u ∧ u.fm h.bench = { s.fm h.bench with pc := (s.fm h.bench).pc + 1 }
      ∧ u.mem = t.mem ∧ (∀ n, u.full n = t.full n) ∧ ∀ c, c ≠ h.bench → u.bench c = s.bench c := by
  obtain ⟨u, hu, hfm, honly⟩ := issue_done_from his hb
  have hbench (c : Bid) : t.bench c = s.bench c := by rw [State.bench, hw.benches]; rfl
  have hmarks : u.marks = t.marks := (congrArg State.marks honly.1 :)
  refine ⟨u, hu, ?_, honly.mem, fun n => by rw [State.full, State.mark, hmarks]; rfl, fun c hc => (honly.2.1 c hc).trans (hbench c)⟩
  rw [hfm, State.fm, hbench]
  rfl

/-! ## ST and TST -/

/-- Writes that name the bits of the bytes at [A, A + n) and no other leave those bytes as written and every other byte as it was. -/
theorem Wrote.mget_eq {l : List WrReq} {s t : State} (h : Wrote l s t) {A n w : Nat} {v : BitVec w}
    (hin : ∀ x, 8 * A ≤ x → x < 8 * (A + n) → ∃ r ∈ l, r.word = x / 128 ∧ r.mask.getLsbD (x % 128) = true
      ∧ r.data.getLsbD (x % 128) = v.getLsbD (x - 8 * A))
    (hout : ∀ x, x < 8 * A ∨ 8 * (A + n) ≤ x → ∀ r ∈ l, r.word = x / 128 → r.mask.getLsbD (x % 128) = false) (a : Nat) :
    mget t.mem a = if A ≤ a ∧ a < A + n then v.extractLsb' (8 * (a - A)) 8 else mget s.mem a := by
  refine mget_of_memBit fun j hj => ?_
  split
  · next ha =>
    obtain ⟨r, hr, hword, hmask, hdata⟩ := hin (8 * a + j) (by omega) (by omega)
    have hw := h.written r hr _ (Nat.mod_lt _ (by decide)) hmask
    rw [hword, Nat.div_add_mod] at hw
    rw [hw, hdata, BitVec.getLsbD_extractLsb', show 8 * a + j - 8 * A = 8 * (a - A) + j by omega]
    simp [hj]
  · next ha => rw [h.kept _ (hout _ (by omega)), memBit_byte _ _ hj]

/-- The bits of ST's write: the 64 bits of its value at their place in their word (R320). -/
theorem FmAccess.write_st {f : FmAccess} (hop : f.op = .st) {v : Word} (hv : f.value = v.setWidth 512) {j : Nat} (hj : j < 128) :
    f.write.mask.getLsbD j = decide (8 * (f.addr % 16) ≤ j ∧ j < 8 * (f.addr % 16) + 64)
      ∧ f.write.data.getLsbD j = (decide (8 * (f.addr % 16) ≤ j) && v.getLsbD (j - 8 * (f.addr % 16))) := by
  rw [FmAccess.write, hop]
  dsimp only
  rw [hv]
  constructor
  · simp only [BitVec.getLsbD_shiftLeft, BitVec.getLsbD_setWidth, BitVec.getLsbD_allOnes, hj, decide_true, Bool.true_and]
    rw [Bool.eq_iff_iff]
    simp only [Bool.and_eq_true, Bool.not_eq_true', decide_eq_false_iff_not, decide_eq_true_eq]
    omega
  · simp only [BitVec.getLsbD_shiftLeft, BitVec.getLsbD_setWidth, hj, decide_true, Bool.true_and]
    rw [Bool.eq_iff_iff]
    simp only [Bool.and_eq_true, Bool.not_eq_true', decide_eq_false_iff_not, decide_eq_true_eq]
    constructor
    · rintro ⟨h1, -, -, h2⟩
      exact ⟨by omega, h2⟩
    · rintro ⟨h1, h2⟩
      exact ⟨by omega, by omega, by omega, h2⟩

/-- The bits of TST's write of a word: its 128 bits of the value (R321). -/
theorem FmAccess.write_tst {f : FmAccess} (hop : f.op = .tst) {j : Nat} (hj : j < 128) :
    f.write.word = f.addr / 16 + f.done ∧ f.write.mask.getLsbD j = true
      ∧ f.write.data.getLsbD j = f.value.getLsbD (128 * f.done + j) := by
  rw [FmAccess.write, hop]
  refine ⟨rfl, (BitVec.getLsbD_allOnes ..).trans (decide_eq_true hj), ?_⟩
  rw [BitVec.getLsbD_ofNat, bits, Nat.testBit_mod_two_pow, Nat.testBit_shiftRight, decide_eq_true hj]
  rfl

/-- FE of a store that is valid: bit 0 says WAITFILL, bit 1 says PLAIN (R281). -/
theorem fe_bits {fe : BitVec 2} (hfe : fe ≠ 3) : (fe.getLsbD 0 = true → fe = 1) ∧ (!fe.getLsbD 1) = (fe != 2) := by
  revert fe
  decide

section
variable {s : State} {h : Issue} {fe : BitVec 2} {f : FmAccess} {r : WrReq} {k : Nat}

/-- The requests of a store: each for a word of its own behind the first, with the access's FE. -/
theorem FmAccess.mem_stores (hr : r ∈ f.stores k) : ∃ i < k, r = ({ f with done := f.done + i } : FmAccess).write := by
  obtain ⟨i, hi, rfl⟩ := List.mem_map.mp hr
  exact ⟨i, List.mem_range.mp hi, rfl⟩

theorem FmAccess.write_fe (f : FmAccess) : f.write.fe = f.fe := by
  rw [FmAccess.write]
  split <;> rfl

/-- A word that a store under FE may write, as the statement on stores has it. -/
theorem State.storable_of_clean {wn : Nat} (hfe : fe ≠ 3) (hs : inSram (16 * wn) = true) (hc : s.Clean h wn)
    (he : fe = 1 → s.full wn = false) (hw : r.word = wn) (hf : r.fe = fe) : s.Storable r := by
  subst hw hf
  exact ⟨hs, hc.2.1, fun hb => he ((fe_bits hfe).1 hb)⟩

end

section
variable {s : State} {h : Issue} {ra : BitVec 5} {fe : BitVec 2} {off : BitVec 37} {A : Nat}

/-- ST performed: its bytes and its word's full/empty bit, and nothing else of memory (R320). -/
theorem st_writes {rs : BitVec 5} (hi : s.Inv) (his : s.Issues h 1) (harr : s.Arrived h.bench [ra, rs]) (hfe : fe ≠ 3)
    (hA : (s.sreg h ra + off.signExtend 64).toNat = A) (hs : inSram A = true) (hal : A % 8 = 0)
    (hclean : s.Clean h (A / 16)) (hempty : fe = 1 → s.full (A / 16) = false) :
    ∃ t, exec (.st h rs ra fe off) s = .next t ∧ t.fm h.bench = { s.fm h.bench with pc := (s.fm h.bench).pc + 1 }
      ∧ (∀ a, mget t.mem a =
          if A ≤ a ∧ a < A + 8 then (s.sreg h rs).extractLsb' (8 * (a - A)) 8 else mget s.mem a)
      ∧ (∀ n, t.full n = (s.full n || (n = A / 16 && fe != 2)))
      ∧ ∀ c, c ≠ h.bench → t.bench c = s.bench c := by
  let c := s.fmCtx h (opcodeOf 0 0x19)
  let f := c.access .st rs A fe ((s.sreg h rs).setWidth 512)
  have hword : f.write.word = A / 16 := rfl
  have hbits {j : Nat} (hj : j < 128) := FmAccess.write_st (f := f) rfl rfl hj
  have hstores : f.stores 1 = [f.write] := rfl
  obtain ⟨t, hdone, hwrote⟩ := fmMem_stores (s := s) (c := c) (op := .st) (reg := rs) (a := A) (fe := fe)
    (v := (s.sreg h rs).setWidth 512) hi rfl (fun r hr => by obtain rfl := List.mem_singleton.mp (hstores ▸ hr); exact hclean.1)
    (fun r hr => by
      obtain rfl := List.mem_singleton.mp (hstores ▸ hr)
      exact s.storable_of_clean hfe ((inSram_iff _).mpr (by have := (inSram_iff A).mp hs; omega)) hclean hempty hword f.write_fe)
    (by show (f.stores 1).Pairwise _; rw [hstores]; exact List.pairwise_singleton _ _)
  change Wrote (f.stores 1) s t at hwrote
  rw [hstores] at hwrote
  obtain ⟨u, hu, hfm, hmem, hfull, hbench⟩ := issue_wrote (opcode := opcodeOf 0 0x19)
    (body := valid (fe != 3) (waitS [ra, rs] fun c s => fm8 .st rs (effAddr ((s.fm c.b).getS ra) off) fe ((s.fm c.b).getS rs) c s))
    his (by
      rw [valid_ok (by simpa using hfe), waitS_arrived _ _ _ _ _ harr]
      exact (congrArg (fun x => fm8 .st rs x fe (s.sreg h rs) c s) hA).trans ((fm8_sram hal hs hclean.1).trans hdone)) hwrote
  refine ⟨u, hu, hfm, fun a => ?_, fun n => ?_, hbench⟩
  · rw [hmem]
    refine hwrote.mget_eq (fun x h1 h2 => ⟨f.write, List.mem_singleton_self _, ?_, ?_, ?_⟩) (fun x hx r hr hw => ?_) a
    · rw [hword]; omega
    · rw [(hbits (Nat.mod_lt _ (by decide))).1]
      exact decide_eq_true (by show 8 * (A % 16) ≤ _ ∧ _ < 8 * (A % 16) + 64; omega)
    · rw [(hbits (Nat.mod_lt _ (by decide))).2, show f.addr = A from rfl, show x % 128 - 8 * (A % 16) = x - 8 * A by omega,
        decide_eq_true (by omega), Bool.true_and]
    · obtain rfl := List.mem_singleton.mp hr
      rw [hword] at hw
      rw [(hbits (Nat.mod_lt _ (by decide))).1]
      exact decide_eq_false (by show ¬ (8 * (A % 16) ≤ _ ∧ _ < 8 * (A % 16) + 64); omega)
  · rw [hfull, hwrote.full, List.any_cons, List.any_nil, Bool.or_false, hword, f.write_fe, show f.fe = fe from rfl,
      (fe_bits hfe).2, Bool.beq_comm]
    rfl

/-- TST performed: its 64 bytes and the full/empty bits of its four words, and nothing else of memory (R321). -/
theorem tst_writes {ts : BitVec 4} (hi : s.Inv) (his : s.Issues h 1) (harr : s.Arrived h.bench [ra]) (harrT : s.ArrivedT h.bench [ts])
    (hfe : fe ≠ 3) (hA : (s.sreg h ra + off.signExtend 64).toNat = A) (hs : inSram A = true) (hal : A % 64 = 0)
    (hclean : ∀ i < 4, s.Clean h (A / 16 + i) ∧ (fe = 1 → s.full (A / 16 + i) = false)) :
    ∃ t, exec (.tst h ts ra fe off) s = .next t ∧ t.fm h.bench = { s.fm h.bench with pc := (s.fm h.bench).pc + 1 }
      ∧ (∀ a, mget t.mem a =
          if A ≤ a ∧ a < A + 64 then ((s.fm h.bench).getT ts).extractLsb' (8 * (a - A)) 8 else mget s.mem a)
      ∧ (∀ n, t.full n = (s.full n || (A / 16 ≤ n && n < A / 16 + 4 && fe != 2)))
      ∧ ∀ c, c ≠ h.bench → t.bench c = s.bench c := by
  let c := s.fmCtx h (opcodeOf 0 0x1B)
  let f := c.access .tst (ts.setWidth 5) A fe ((s.fm h.bench).getT ts)
  let w (i : Nat) : WrReq := ({ f with done := f.done + i } : FmAccess).write
  have hword (i : Nat) : (w i).word = A / 16 + i := by show A / 16 + (0 + i) = _; omega
  have hfeq (i : Nat) : (w i).fe = fe := rfl
  have hlt := (inSram_iff A).mp hs
  have hall {P : WrReq → Prop} (hP : ∀ i < 4, P (w i)) : ∀ r ∈ f.stores 4, P r := fun r hr => by
    obtain ⟨i, hi, rfl⟩ := FmAccess.mem_stores hr
    exact hP i hi
  obtain ⟨t, hdone, hwrote⟩ := fmMem_stores (s := s) (c := c) (op := .tst) (reg := ts.setWidth 5) (a := A) (fe := fe)
    (v := (s.fm h.bench).getT ts) hi rfl (hall fun i hi => by rw [hword]; exact (hclean i hi).1.1)
    (hall fun i hi => s.storable_of_clean hfe ((inSram_iff _).mpr (by omega)) (hclean i hi).1 (hclean i hi).2 (hword i) (hfeq i))
    (List.pairwise_map.mpr (List.pairwise_lt_range.imp fun {i j} hij => by
      show (w j).word ≠ (w i).word
      rw [hword, hword]; omega))
  change Wrote (f.stores 4) s t at hwrote
  obtain ⟨u, hu, hfm, hmem, hfull, hbench⟩ := issue_wrote (opcode := opcodeOf 0 0x1B)
    (body := valid (fe != 3) (waitT [ts] (waitS [ra] fun c s =>
      fm64 .tst ts (effAddr ((s.fm c.b).getS ra) off) fe ((s.fm c.b).getT ts) c s)))
    his (by
      rw [valid_ok (by simpa using hfe), waitT_arrived _ _ _ _ _ harrT, waitS_arrived _ _ _ _ _ harr]
      exact (congrArg (fun x => fm64 .tst ts x fe ((s.fm h.bench).getT ts) c s) hA).trans
        ((fm64_sram hal hs (hclean 0 (by decide)).1.1).trans hdone)) hwrote
  refine ⟨u, hu, hfm, fun a => ?_, fun n => ?_, hbench⟩
  · rw [hmem]
    refine hwrote.mget_eq (fun x h1 h2 => ⟨w (x / 128 - A / 16), ?_, ?_, ?_, ?_⟩) (fun x hx r hr => ?_) a
    · exact List.mem_map.mpr ⟨x / 128 - A / 16, List.mem_range.mpr (by show _ < 4; omega), rfl⟩
    · rw [hword]; omega
    · exact (FmAccess.write_tst rfl (Nat.mod_lt _ (by decide))).2.1
    · refine (FmAccess.write_tst rfl (Nat.mod_lt _ (by decide))).2.2.trans ?_
      show ((s.fm h.bench).getT ts).getLsbD (128 * (0 + (x / 128 - A / 16)) + x % 128) = _
      congr 1
      omega
    · revert r
      exact hall fun i hi hw => by rw [hword] at hw; omega
  · rw [hfull, hwrote.full]
    congr 1
    rw [Bool.eq_iff_iff, List.any_eq_true]
    simp only [Bool.and_eq_true, decide_eq_true_eq, beq_iff_eq]
    constructor
    · rintro ⟨r, hr, hn, hb⟩
      obtain ⟨i, hi, rfl⟩ := FmAccess.mem_stores hr
      change (w i).word = n at hn
      rw [hword] at hn
      exact ⟨by omega, by rw [← (fe_bits hfe).2]; exact hb⟩
    · rintro ⟨hn, hb⟩
      refine ⟨w (n - A / 16), List.mem_map.mpr ⟨n - A / 16, List.mem_range.mpr (by show _ < 4; omega), rfl⟩, ?_, ?_⟩
      · rw [hword]; omega
      · rw [hfeq, (fe_bits hfe).2]; exact hb

end

end Sys2Proof.Machine
end

section
/-! The settlement of O14. -/

open Sys2Proof Sys2Proof.Machine

/-- Settles O14: a store to words that may be written is performed as it is dispatched, word by word, and the bits of memory it
writes are those of its value at [A, A + 8) or [A, A + 64). -/
theorem storesWrite : Obligations.StoresWrite := by
  unfold Obligations.StoresWrite
  intro s h rs ra ts fe off hi his harr harrT hfe A f hs
  exact ⟨fun hal hclean hempty => st_writes hi his harr hfe rfl hs hal hclean hempty,
    fun hal hclean => tst_writes hi his (fun r hr => harr r (List.mem_cons.mpr (.inl (List.mem_singleton.mp hr)))) harrT hfe rfl hs
      hal hclean⟩

end

section
/-! SUPPORT. What a record and a program fault leave of the Benches (R301). -/

namespace Sys2Proof.Machine

@[simp] theorem State.emit_benches (s : State) (i : RecInfo) : (s.emit i).benches = s.benches := by
  have hnote (t : State) : (t.noteFault i).benches = t.benches := rfl
  unfold State.emit
  dsimp only
  split <;> split <;> simp [State.drawWord, hnote]

@[simp] theorem State.voteNow_benches (s : State) (b : Bid) (v : Vote) (cause : Nat) : (s.voteNow b v cause).benches = s.benches := by
  unfold State.voteNow
  split
  · rfl
  · split <;> rfl

@[simp] theorem State.voteNow_mem (s : State) (b : Bid) (v : Vote) (cause : Nat) : (s.voteNow b v cause).mem = s.mem := by
  unfold State.voteNow
  split
  · rfl
  · split <;> rfl

/-- A Bench that takes a program fault: the queue begins nothing further, and its Foreman is FAULTED (R301). -/
def Bench.faulted (q : Fin 8) (v : Vote) (x : Bench) : Bench :=
  { x with
    stopped := if q = 0 then x.stopped else x.stopped ||| BitVec.ofNat 8 (2 ^ q.val)
    fm := { x.fm with st := .faulted, faultVote := some (x.fm.faultVote.getD v) } }

theorem State.faultCode_benches (s : State) (f : FaultAt) (code : Nat) :
    (s.faultCode f code).benches = (s.onBench f.b (Bench.faulted f.q (codeVote code))).benches := by
  unfold State.faultCode
  rw [State.voteNow_benches, State.emit_benches, State.setReg_benches]
  rfl

@[simp] theorem State.faultCode_mem (s : State) (f : FaultAt) (code : Nat) : (s.faultCode f code).mem = s.mem := by
  unfold State.faultCode
  simp

/-- The Foreman that takes a fault is FAULTED (R301). -/
theorem State.fault_st (s : State) (f : FaultAt) (c : FCode) : ((s.fault f c).fm f.b).st = .faulted := by
  rw [State.fault, State.fm, State.bench, s.faultCode_benches]
  exact congrArg (fun x : Bench => x.fm.st) (s.onBench_bench_same f.b _)

end Sys2Proof.Machine
end

section
/-! SUPPORT. A module at work, as the refutations start from. -/

namespace Sys2Proof.Machine

/-- A Foreman made RUNNING with s1 written. -/
def Foreman.runningWith (v : Word) (f : Foreman) : Foreman := { f with st := .running, s := f.s.set 1 v }

/-- From reset, partition 0 owns every Bench, and Benches 0 and 1 are in the plan with both halves of their SRAM and all its banks. -/
def atWork : State :=
  ((((State.reset.setReg (K.PART_CFG 0) 0x1FFFF).setReg (K.FP_BENCH0 0) 0x1FFFFFFFF).setReg (K.FP_BENCH0 1) 0x1FFFFFFFF).setReg
    (K.FP_BENCH1 0) 0xFFFFFFFFFFFFFFFF)

theorem State.reset_inv : State.reset.Inv :=
  ⟨State.reset_canonical, fun b => by rw [State.reset_fm]; exact ⟨rfl, rfl, by decide, by decide, by decide⟩⟩

theorem atWork_keeps : Keeps State.reset atWork :=
  State.setReg_keeps (State.setReg_keeps (State.setReg_keeps (State.setReg_keeps (Keeps.refl _))))

theorem Foreman.runningWith_keeps (v : Word) (f : Foreman) : FmKeeps f (f.runningWith v) := by
  rintro ⟨hs, hrest⟩
  exact ⟨by rw [Foreman.runningWith, Vector.getElem_set_ne _ _ (by decide)]; exact hs, hrest⟩

end Sys2Proof.Machine
end

section
/-! SUPPORT. A Foreman's load from another Bench's curve segments (R558, R563). -/

namespace Sys2Proof.Machine

/-- The registers of curve segments, which only their own Bench's Foreman reaches. -/
def crvSegRow : RegRow := mkRow "CRV_SEG" 0x800000 [(0x1000000, 16), (0x4000, 32), (0x8, 2048)] .foreman false [(0, 64, .rw, 0)]

theorem ld_otherCurve_faults {s : State} {h : Issue} {rd ra : BitVec 5} {fe : BitVec 2} {off : BitVec 37} {k : Nat} {r : RegRow}
    {is : List Nat} (his : s.Issues h 1) (harr : s.Arrived h.bench [ra, rd]) (hfe : fe ≠ 3)
    (hal : (s.sreg h ra + off.signExtend 64).toNat % 8 = 0) (hkey : ctrlKey (s.sreg h ra + off.signExtend 64).toNat = some k)
    (hfind : s.regFind ((s.partOf h.bench).getD 0) false k = .ok r is) (hr : r.base = K.CRV_SEG 0 0 0)
    (hother : is.getD 0 0 ≠ h.bench.val) :
    exec (.ld h rd ra fe off) s = .next (s.fault (s.fmCtx h (opcodeOf 0 0x18)).at_ .addrUnmapped) := by
  refine issue_fault his ?_
  rw [valid_ok (by simpa using hfe), waitS_arrived _ _ _ _ _ harr]
  change fm8 .ld rd (s.sreg h ra + off.signExtend 64).toNat fe 0 (s.fmCtx h (opcodeOf 0 0x18)) s = _
  have hfinds : (s.fmCtx h (opcodeOf 0 0x18)).finds s k = .refused := by
    rw [Fm.finds]
    change (match s.regFind ((s.partOf h.bench).getD 0) false k with | .ok r is => _ | x => x) = _
    rw [hfind]
    exact if_pos ⟨hr, hother⟩
  rw [fm8, if_neg (fun h => h hal), hkey]
  exact (if_pos rfl).trans (by rw [ldReg, hfinds])

/-- The Foreman of Bench 0 runs, and its s1 is the address of Bench 1's CRV_SEG. -/
def curveReader : State := atWork.onFm 0 (Foreman.runningWith 0xFF0001800000)

theorem curveReader_inv : curveReader.Inv :=
  (Keeps.onFm atWork_keeps (Foreman.runningWith_keeps _)).inv State.reset_inv

theorem curveReader_finds : curveReader.regFind ((curveReader.partOf 0).getD 0) false 0x1800000 = .ok crvSegRow [1, 0, 0] := by
  decide +kernel

theorem curveReader_ready : curveReader.Issues ⟨0, 0, false⟩ 1 ∧ curveReader.Arrived 0 [1, 5] ∧ curveReader.ArrivedT 0 [0]
    ∧ (curveReader.sreg ⟨0, 0, false⟩ 1 + (0 : BitVec 37).signExtend 64).toNat = 0xFF0001800000 := by
  decide +kernel

end Sys2Proof.Machine
end

section
/-! The settlement of O13. -/

open Sys2Proof Sys2Proof.Machine

/-- Refutes O13: partition 0 owns Benches 0 and 1, and Bench 0's Foreman runs LD at the address of Bench 1's curve segments, a
register of a control block of the partition; but a Foreman reaches its own Bench's segments alone (R558, R563), and it faults. -/
theorem not_loadsRead : ¬ Obligations.LoadsRead := by
  unfold Obligations.LoadsRead
  intro h
  obtain ⟨his, harr, harrT, hA⟩ := curveReader_ready
  obtain ⟨t, ht, -, -, hfm⟩ := (h curveReader ⟨0, 0, false⟩ 5 1 0 0 0 curveReader_inv his harr harrT (by decide)).1 1 0x800000
    crvSegRow [1, 0, 0] (by rw [hA]) (by decide) (by rw [hA]; rfl) curveReader_finds
  have hfault := ld_otherCurve_faults (k := 0x1800000) (fe := 0) (off := 0) his harr (by decide) (by rw [hA]) (by rw [hA]; decide)
    curveReader_finds rfl (by decide)
  obtain rfl := Host.Outcome.next.inj (hfault.symm.trans ht)
  have hfaulted := State.fault_st curveReader (curveReader.fmCtx ⟨0, 0, false⟩ (opcodeOf 0 0x18)).at_ .addrUnmapped
  have hruns : (curveReader.fm 0).st = .faulted := (congrArg Foreman.st hfm).symm.trans hfaulted
  exact absurd hruns (by decide +kernel)

end

section
/-! SUPPORT. A tile load that asks for one word twice, live and through a broken snapshot set (R262). -/

namespace Sys2Proof.Machine

/-- A Cutter's or Dresser's instruction that has nothing to do with any word: its loads are what the array asks for. -/
def idleJob : ArrJob :=
  ⟨⟨1, .mm true ⟨0, 0, 0, 0, 0, 0, false, false, false, false, false, 0, false⟩, 0, none, [], [], 0, 0, 0, [], [], false, false,
    false, 0, 0, 0⟩, ⟨0, 0, 0, 0, 0, 0, false, false, false, false, false, 0, false⟩, 0, 0, 0, 0, 0, 0, 0, 0, 0, [], [], false,
    false, 0, 0⟩

/-- The word 2 of Bench 0, read live. -/
def liveRead : RdReq := ⟨2, 2, none, 1⟩

/-- Array 4 of Bench 0 loads a tile: it asks for word 2 live, and again through snapshot set 0, which is BROKEN. -/
def twiceLoading : State :=
  (atWork.setRb (K.COW_CTL 0 0) F.COW_CTL_BROKEN true).setArr 0 4
    { atWork.arr 0 4 with load := some idleJob, loadReads := [liveRead, { liveRead with view := some 0 }] }

theorem twiceLoading_inv : twiceLoading.Inv :=
  (Keeps.setArr (State.setRb_keeps atWork_keeps)).inv State.reset_inv

theorem twiceLoading_granted :
    leastRecent (fun n => tget 0 (twiceLoading.bench 0).lru (0 * 31 + n)) (twiceLoading.bankWants 0 0)
      = some (4, 0, .load 4, .rd liveRead) := by
  decide +kernel

theorem twiceLoading_readable : twiceLoading.Readable ((twiceLoading.partOf 0).getD 0) liveRead := by
  decide +kernel

/-- The grant performs both requests, and the second's poison stands where the first's word stood. -/
theorem twiceLoading_poisoned :
    (match exec (.bankRequestGrant 0 0 .clean) twiceLoading with
      | .next t => (tget ⟨0, false⟩ (t.arr 0 4).loadGot 2).poison
      | _ => false) = true := by
  decide +kernel

end Sys2Proof.Machine
end

section
/-! The settlement of O28. -/

open Sys2Proof Sys2Proof.Machine

/-- Refutes O28 in a state that its invariant admits, though no plan of a tile's reads mixes views: a tile load whose list of reads names
word 2 live and then again through snapshot set 0, which is BROKEN. The bank grants the first, which is readable, and the second of the
same line with it, so that the word arrives poisoned (R206, R262). -/
theorem not_memoryServes : ¬ Obligations.MemoryServes := by
  unfold Obligations.MemoryServes
  intro h
  obtain ⟨hgrant, -⟩ := h twiceLoading twiceLoading_inv
  obtain ⟨t, ht, -, hgot, -⟩ := hgrant 0 0 0 4 4 liveRead twiceLoading_granted twiceLoading_readable
  have hpoison := twiceLoading_poisoned
  rw [ht] at hpoison
  dsimp only at hpoison
  rw [show (2 : Nat) = liveRead.word from rfl, hgot] at hpoison
  cases hpoison

end

section
/-! SUPPORT. A catalogue that lists one entry twice, under two tags (R231, R233). -/

namespace Sys2Proof.Machine

/-- Two rows of eight BF16 elements at 0 of Bench 0, read under WAIT. -/
def twoRows : Desc := BitVec.ofNat 512 (BF16 * 2 ^ 48 + 2 * 2 ^ 61 + 0x2000000 * 2 ^ 64 + 8 * 2 ^ 128 + 2 * 2 ^ 192 + 16 * 2 ^ 220)

/-- A push of them as entry 3, tag 0, whose drop list names tag 2. -/
def droppingPush : Entry :=
  ⟨1, .push 0, 0, some 0, [twoRows, twoRows], [3], 0, 0, 0, [], [0x8002], false, false, false, 0, 0, 0⟩

/-- Entry 5 listed twice: first with a tag beyond every tag, which holds the only unit of the tier, then with tag 2. -/
def listedTwice : Tab CatEntry :=
  [(5, ⟨.stashed, 64 * 0x8034, twoRows, false, 0, 1, 0⟩), (5, ⟨.stashed, 2, twoRows, false, 0, 0, 0⟩)]

/-- A Bench with that catalogue. -/
def Bench.listingTwice (x : Bench) : Bench := { x with cat := listedTwice }

/-- The push at the head of Bench 0's STK queue, an SRAM tier of one unit, and the catalogue that lists entry 5 twice. -/
def twiceStashed : State :=
  ((atWork.setReg (K.STK_SRAM_TIER 0) 0x10010).setQueue 0 7 [.instr droppingPush]).onBench 0 Bench.listingTwice

theorem twiceStashed_inv : twiceStashed.Inv :=
  (Keeps.onBench (Keeps.setQueue (State.setReg_keeps atWork_keeps)) fun x => BenchKeeps.same (y := x.listingTwice) rfl).inv
    State.reset_inv

theorem twiceStashed_queue : twiceStashed.queue 0 7 = [.instr droppingPush] := by decide +kernel

theorem twiceStashed_head : (twiceStashed.bench 0).running 7 0 = none ∧ twiceStashed.pwr.mainOn = true
    ∧ twiceStashed.queueRuns 0 7 = true ∧ twiceStashed.nextHead 0 7 = some (droppingPush, 0)
    ∧ firstFault (twiceStashed.pushChecks 0 droppingPush) = none := by
  decide +kernel

theorem twiceStashed_order : dropOrder (twiceStashed.bench 0).cat (dropTags droppingPush) = [5] := by decide +kernel

theorem twiceStashed_fits : (twiceStashed.stashFit 0 [5] (stashUnits (droppingPush.desc 1))).isSome = true
    ∧ twiceStashed.stashFit 0 [] (stashUnits (droppingPush.desc 1)) = none
    ∧ (twiceStashed.dropStash 0 5).stashFit 0 [] (stashUnits (droppingPush.desc 1)) = some (false, 0) := by
  decide +kernel

/-- The word that would note the first listing's tag is the Bench counter of dropped entries, which counts the drop. -/
theorem twiceStashed_unnoted :
    (match exec (.stkPushPlace 0 none) twiceStashed with
      | .next t => (t.reg (K.STK_RECOMP 0 ((twiceStashed.cat 0 5).tag / 64))).getLsbD ((twiceStashed.cat 0 5).tag % 64)
      | _ => true) = false := by
  decide +kernel

end Sys2Proof.Machine
end

section
/-! The settlement of O36. -/

open Sys2Proof Sys2Proof.Machine

/-- Refutes O36 in a state that its invariant admits, though no push leaves such a catalogue: entry 5 is listed twice, so that the drop
list finds it by tag 2 while the entry itself bears a tag beyond STK_RECOMP; dropped, its bit lands in a Bench counter, and the count
of the drop clears it (R233). -/
theorem not_stockpile : ¬ Obligations.Stockpile := by
  unfold Obligations.Stockpile
  intro h
  obtain ⟨hhead, -⟩ := h twiceStashed 0 twiceStashed_inv (by simp [twiceStashed_queue])
  obtain ⟨hidle, hon, hruns, hnext, hchecks⟩ := twiceStashed_head
  obtain ⟨hfit, hfull, hdropped⟩ := twiceStashed_fits
  obtain ⟨hpush, -⟩ := hhead droppingPush 0 none hidle hon hruns hnext
  obtain ⟨-, hdrops, -⟩ := hpush rfl hchecks
  have hone := hdrops 1 false 0
  rw [twiceStashed_order] at hone
  obtain ⟨t, ht, -, hnoted, -⟩ := hone (by decide) hfit (fun i hi => by obtain rfl := Nat.lt_one_iff.mp hi; exact hfull) hdropped
  obtain ⟨-, hbit⟩ := hnoted 5 (by decide) (by decide)
  have hunnoted := twiceStashed_unnoted
  rw [ht] at hunnoted
  exact Bool.false_ne_true (hunnoted.symm.trans hbit)

end

section
/-!
SUPPORT. Upkeep of memory: what a decode, a rewrite, a patrol and a new patrol interval leave of bytes and marks (R207-R209, R211,
R258).
-/

namespace Sys2Proof.Machine

/-! ## Marks that an operation leaves -/

section
variable (s : State)

@[simp] theorem State.noteFault_marks (r : RecInfo) : (s.noteFault r).marks = s.marks := rfl
@[simp] theorem State.drawWord_marks : s.drawWord.2.marks = s.marks := rfl

@[simp] theorem State.emit_marks (i : RecInfo) : (s.emit i).marks = s.marks := by
  unfold State.emit
  dsimp only
  split <;> split <;> simp [State.drawWord]

@[simp] theorem State.memEvent_marks (wn event : Nat) (syn : Word) : (s.memEvent wn event syn).marks = s.marks := s.emit_marks _

@[simp] theorem State.memStat_marks (wn i : Nat) : (s.memStat wn i).marks = s.marks := by
  unfold State.memStat
  dsimp only
  split <;> exact State.setRf_marks ..

@[simp] theorem State.countH_marks (n k : Nat) : (s.countH n k).marks = s.marks := State.count_marks ..

@[simp] theorem State.slotsUsed_marks (k : Fin 8) (cls cost bytes : Nat) : (s.slotsUsed k cls cost bytes).marks = s.marks := by
  rw [State.slotsUsed, State.onStk_marks, State.countH_marks, State.countH_marks]

end

theorem State.mark_congr {s t : State} (h : t.marks = s.marks) (n : Nat) : t.mark n = s.mark n := by rw [State.mark, State.mark, h]

theorem upsetJoin_multi (u : Upset) : upsetJoin u .multi = .multi := by cases u <;> rfl

/-- A decode leaves every mark but its word's; there the full/empty bit stands, poison stays, and an uncorrectable error poisons
(R207, R209). -/
theorem State.decodeWord_mark {s : State} (hc : s.Canonical) (wn : Nat) (u : Upset) :
    ∃ m : WordMark, m.full = (s.mark wn).full ∧ ((s.mark wn).poison = true → m.poison = true) ∧ (u = .multi → m.poison = true)
      ∧ ∀ n, (s.decodeWord wn u).mark n = if n = wn then m else s.mark n := by
  have stands {t : State} (ht : t.marks = s.marks) (n : Nat) : t.mark n = if n = wn then s.mark wn else s.mark n := by
    rw [State.mark_congr ht]; split
    · next h => rw [h]
    · rfl
  have marked {t : State} (m : WordMark) (ht : t.marks = (s.setMark wn m).marks) (n : Nat) :
      t.mark n = if n = wn then m else s.mark n := by
    rw [State.mark_congr ht, State.setMark_mark _ _ _ _ hc]
    simp only [eq_comm]
  have joined (h : u = .multi) {v : Upset} (hv : v ≠ .multi) : upsetJoin (s.mark wn).upset u ≠ v := by
    rw [h, upsetJoin_multi]; exact hv.symm
  unfold State.decodeWord
  dsimp only
  split
  · next hu =>
    subst hu
    split
    · exact ⟨_, WordMark.full_setFull _ _, id, by simp, marked _ (by simp)⟩
    · exact ⟨_, rfl, id, by simp, stands rfl⟩
  · split
    · next hj => exact ⟨_, rfl, id, fun h => absurd hj (joined h (by decide)), stands rfl⟩
    · next hj => exact ⟨_, rfl, id, fun h => absurd hj (joined h (by decide)), stands rfl⟩
    · next sym x hj =>
      have hne : u ≠ .multi := fun h => absurd hj (joined h (by simp))
      split
      · split
        · exact ⟨_, rfl, id, fun h => absurd h hne, stands rfl⟩
        · exact ⟨{ s.mark wn with upset := .multi }, rfl, id, fun h => absurd h hne, marked _ (by simp [State.setMark])⟩
      · refine ⟨{ s.mark wn with upset := .symbol sym x, noted := true, rewritten := false }, rfl, id, fun h => absurd h hne,
          marked _ ?_⟩
        split
        · split <;> split <;> simp
        · split <;> simp
    · split
      · next hp => exact ⟨_, rfl, id, fun h => by simp [h] at hp, stands rfl⟩
      · exact ⟨{ s.mark wn with upset := .clean, poison := true }, rfl, fun _ => rfl, fun _ => rfl, marked _ (by simp [State.setMark])⟩

/-! ## Upkeep -/

/-- `t` is `s` after upkeep: no byte changes, every full/empty bit stands, and what is poisoned stays so (R207, R209). -/
structure Upkept (s t : State) : Prop where
  keeps : Keeps s t
  mem : t.mem = s.mem
  full : ∀ n, t.full n = s.full n
  poison : ∀ n, (s.mark n).poison = true → (t.mark n).poison = true

namespace Upkept

variable {s t u : State}

theorem trans (h : Upkept s t) (g : Upkept t u) : Upkept s u :=
  ⟨h.keeps.trans g.keeps, g.mem.trans h.mem, fun n => (g.full n).trans (h.full n), fun n hp => g.poison n (h.poison n hp)⟩

theorem of_marks (hk : Keeps s t) (hm : t.mem = s.mem) (h : t.marks = s.marks) : Upkept s t :=
  ⟨hk, hm, fun n => congrArg WordMark.full (State.mark_congr h n), fun n hp => by rw [State.mark_congr h]; exact hp⟩

theorem refl (s : State) : Upkept s s := .of_marks (Keeps.refl s) rfl rfl

theorem decodeWord (hi : s.Inv) (wn : Nat) (u : Upset) : Upkept s (s.decodeWord wn u) := by
  obtain ⟨m, hfull, hpoison, -, hmark⟩ := State.decodeWord_mark hi.1 wn u
  refine ⟨State.decodeWord_keeps (Keeps.refl s), s.decodeWord_mem wn u, fun n => ?_, fun n hp => ?_⟩
  · rw [State.full, hmark]
    split
    · next h => rw [h]; exact hfull
    · rfl
  · rw [hmark]
    split
    · next h => exact hpoison (h ▸ hp)
    · exact hp

/-- Many decodes. -/
theorem decodes (hi : s.Inv) (l : List Nat) (w : Nat) : Upkept s (l.foldl (fun s i => s.decodeWord (w + i) .clean) s) := by
  induction l generalizing s with
  | nil => exact .refl s
  | cons i l ih =>
    have h := Upkept.decodeWord hi (w + i) .clean
    exact h.trans (ih (h.keeps.inv hi))

theorem rewrite (hi : s.Inv) (wn : Nat) : Upkept s (s.rewrite wn) := by
  have hmark (n : Nat) := s.setMark_mark wn n { s.mark wn with upset := .clean, rewritten := true } hi.1
  refine ⟨State.rewrite_keeps (Keeps.refl s), rfl, fun n => ?_, fun n hp => ?_⟩
  · rw [State.full, State.rewrite, hmark]
    split
    · next h => subst h; rfl
    · rfl
  · rw [State.rewrite, hmark]
    split
    · next h => subst h; exact hp
    · exact hp

theorem slotsUsed (s : State) (k : Fin 8) (cls cost bytes : Nat) : Upkept s (s.slotsUsed k cls cost bytes) :=
  .of_marks (State.slotsUsed_keeps (Keeps.refl s)) (s.slotsUsed_mem ..) (s.slotsUsed_marks ..)

end Upkept

/-- A mark as a new patrol interval leaves it (R208). -/
def WordMark.afresh (m : WordMark) : WordMark := { m with noted := false, rewritten := false }

/-- A table mapped value by value, with the default unlisted. -/
theorem tget_filterMap_value {α : Type} [DecidableEq α] (d : α) (g : Nat → α → α) (hd : ∀ n, g n d = d) (t : Tab α)
    (h : (t.map Prod.fst).Pairwise (· < ·)) (n : Nat) :
    tget d (t.filterMap fun e => if g e.1 e.2 = d then none else some (e.1, g e.1 e.2)) n = g n (tget d t n) := by
  induction t with
  | nil => exact (hd n).symm
  | cons e t ih =>
    obtain ⟨hlt, hrest⟩ := List.pairwise_cons.mp (List.map_cons ▸ h)
    have ih := ih hrest
    by_cases hn : e.1 = n
    · have hnone : tget d t n = d := tget_unlisted d t n fun x hx hxn =>
        absurd (hlt x.1 (List.mem_map_of_mem hx)) (by omega)
      rw [tget, if_pos hn]
      by_cases hg : g e.1 e.2 = d
      · rw [List.filterMap_cons, if_pos hg, ih, hnone, hd, ← hn, hg]
      · rw [List.filterMap_cons, if_neg hg, tget, if_pos hn, hn]
    · rw [tget, if_neg hn, ← ih]
      by_cases hg : g e.1 e.2 = d
      · rw [List.filterMap_cons, if_pos hg]
      · rw [List.filterMap_cons, if_neg hg, tget, if_neg hn]

theorem State.newInterval_mark {s : State} (hc : s.Canonical) (p : Nat → Bool) (n : Nat) :
    (s.newInterval p).mark n = if p n then (s.mark n).afresh else s.mark n :=
  tget_filterMap_value WordMark.clear (fun n m => if p n then m.afresh else m) (fun n => by split <;> rfl) s.marks hc.2.2.1 n

theorem Upkept.newInterval {s : State} (hi : s.Inv) (p : Nat → Bool) : Upkept s (s.newInterval p) := by
  refine ⟨State.newInterval_keeps (Keeps.refl s), rfl, fun n => ?_, fun n hp => ?_⟩
  · rw [State.full, State.newInterval_mark hi.1]
    split <;> rfl
  · rw [State.newInterval_mark hi.1]
    split <;> exact hp

/-- What a read meets in a word is upkeep: the error stands in it, or the read decodes it. -/
theorem Upkept.meets {s : State} (hi : s.Inv) (wn : Nat) (u : Upset) : Upkept s (s.meets wn u) := by
  cases u with
  | clean => exact .refl s
  | cell => exact .decodeWord hi wn .cell
  | multi => exact .decodeWord hi wn .multi
  | symbol sym x =>
    rw [State.meets]
    split
    · exact .decodeWord hi wn _
    · have hmark (n : Nat) := s.setMark_mark wn n { s.mark wn with upset := upsetJoin (s.mark wn).upset (.symbol sym x) } hi.1
      refine ⟨State.setMark_keeps (Keeps.refl s), rfl, fun n => ?_, fun n hp => ?_⟩
      · rw [State.full, hmark]
        split
        · next h => subst h; rfl
        · rfl
      · rw [hmark]
        split
        · next h => subst h; exact hp
        · exact hp

/-- An uncorrectable error that a read meets poisons its word (R209). -/
theorem State.meets_multi {s : State} (hi : s.Inv) (wn : Nat) : ((s.meets wn .multi).mark wn).poison = true := by
  obtain ⟨m, -, -, hmulti, hmark⟩ := State.decodeWord_mark hi.1 wn .multi
  change ((s.decodeWord wn .multi).mark wn).poison = true
  rw [hmark, if_pos rfl, hmulti rfl]

/-! ## Patrols of a bank -/

theorem sramPatrolRead_off {s : State} {b : Bid} {bank : Fin 64} {upset : Upset}
    (h : s.rb (K.BMEM_CTL b) F.BMEM_CTL_PATROL = false) : exec (.sramPatrolRead b bank upset) s = .next s := by
  change execSramPatrolRead b bank upset s = _
  rw [execSramPatrolRead, h]
  rfl

/-- A patrol read of a bank: it goes on to the next word, and the rest is upkeep (R211). -/
theorem sramPatrolRead_reads {s : State} {b : Bid} {bank : Fin 64} {upset : Upset} (hi : s.Inv)
    (hon : s.rb (K.BMEM_CTL b) F.BMEM_CTL_PATROL = true) (hok : s.bankOk b bank.val = true) :
    ∃ t, exec (.sramPatrolRead b bank upset) s = .next t
      ∧ Upkept (s.decodeWord (bankWord b bank.val (tget 0 (s.bench b).patrol bank.val)) upset) t
      ∧ tget 0 (t.bench b).patrol bank.val = (tget 0 (s.bench b).patrol bank.val + 1) % bankWords := by
  let i := tget 0 (s.bench b).patrol bank.val
  let d := s.decodeWord (bankWord b bank.val i) upset
  let g : Bench → Bench := fun x => { x with patrol := tset 0 x.patrol bank.val ((i + 1) % bankWords) }
  have hgo : Upkept d (d.onBench b g) := .of_marks ((Keeps.refl d).onBench fun _ => BenchKeeps.same rfl) rfl rfl
  have hnext : tget 0 ((d.onBench b g).bench b).patrol bank.val = (i + 1) % bankWords := by
    rw [State.onBench_bench_same]
    exact tget_tset_same _ _ _ _
  have hinv := hgo.keeps.inv ((State.decodeWord_keeps (Keeps.refl s)).inv hi)
  refine ⟨_, show execSramPatrolRead b bank upset s = _ by rw [execSramPatrolRead, hon, hok]; rfl, ?_, ?_⟩
  · change Upkept d (if i + 1 < bankWords then d.onBench b g else (d.onBench b g).newInterval _)
    split
    · exact hgo
    · exact hgo.trans (.newInterval hinv _)
  · refine Eq.trans ?_ hnext
    change tget 0 ((if i + 1 < bankWords then d.onBench b g else (d.onBench b g).newInterval _).bench b).patrol bank.val = _
    split <;> rfl

/-! ## Patrols of a stack -/

section
variable {s : State} {k : Fin 8}

/-- The granules of a stack (R258). -/
def State.stackGranules (s : State) : Nat := s.rowsInstalled * 2 ^ 30 / 512

theorem State.onStk_stk (s : State) (k : Fin 8) (f : Stack → Stack) : (s.onStk k f).stk k = f (s.stk k) := by
  simp [State.stk, State.onStk, State.onBulk]

theorem State.newInterval_stk (s : State) (p : Nat → Bool) (k : Fin 8) : (s.newInterval p).stk k = s.stk k := rfl

theorem Upkept.setRf (s : State) (k : Nat) (f : Fld) (v : Nat) : Upkept s (s.setRf k f v) :=
  .of_marks (State.setRf_keeps (Keeps.refl s)) (s.setRf_mem k f v) (s.setRf_marks k f v)

theorem Upkept.onStk (s : State) (k : Fin 8) (f : Stack → Stack) : Upkept s (s.onStk k f) :=
  .of_marks (State.onStk_keeps (Keeps.refl s)) rfl rfl

/-- The patrol read of a granule is upkeep, and goes on to the next (R258). -/
theorem State.patrolStack_upkept (hi : s.Inv) : Upkept s (s.patrolStack k) ∧ ((s.patrolStack k).stk k).due = false
    ∧ ((s.patrolStack k).stk k).patrol = ((s.stk k).patrol + 1) % s.stackGranules := by
  let w := s.stackAddr k.val (512 * (s.stk k).patrol) / 16
  let d := (List.range 32).foldl (fun t i => t.decodeWord (w + i) .clean) s
  let f : Stack → Stack := fun x => { x with patrol := ((s.stk k).patrol + 1) % s.stackGranules, due := false }
  let e := (d.slotsUsed k 3 1 512).onStk k f
  let p := e.setRf (K.BMC_STAT k) F.BMC_STAT_PASSES (e.rf (K.BMC_STAT k) F.BMC_STAT_PASSES + 1)
  have hd : Upkept s d := .decodes hi (List.range 32) w
  have he : Upkept s e := (hd.trans (.slotsUsed d k 3 1 512)).trans (.onStk (d.slotsUsed k 3 1 512) k f)
  have hp : Upkept e p := .setRf e _ _ _
  have hstk : e.stk k = f ((d.slotsUsed k 3 1 512).stk k) := State.onStk_stk ..
  have hpstk : p.stk k = e.stk k := congrArg (fun x : Bulk => x.stk[k]) (e.setRf_bulk _ _ _)
  change Upkept s (if (s.stk k).patrol + 1 < s.stackGranules then e else p.newInterval _)
    ∧ ((if (s.stk k).patrol + 1 < s.stackGranules then e else p.newInterval _).stk k).due = false
    ∧ ((if (s.stk k).patrol + 1 < s.stackGranules then e else p.newInterval _).stk k).patrol = _
  split
  · exact ⟨he, by rw [hstk], by rw [hstk]⟩
  · refine ⟨he.trans (hp.trans (.newInterval (hp.keeps.inv (he.keeps.inv hi)) _)), ?_, ?_⟩
    · rw [State.newInterval_stk, hpstk, hstk]
    · rw [State.newInterval_stk, hpstk, hstk]

theorem State.scrubSlot_due (hr : s.stackRewrite k.val = none) (hd : (s.stk k).due = true) : s.scrubSlot k = s.patrolStack k := by
  rw [State.scrubSlot, hr]
  exact if_pos hd

theorem Upkept.scrubSlot (hi : s.Inv) : Upkept s (s.scrubSlot k) := by
  rw [State.scrubSlot]
  split
  · exact (Upkept.rewrite hi _).trans (.slotsUsed _ k 3 1 16)
  · split
    · exact (State.patrolStack_upkept hi).1
    · exact .refl s

/-! ### The class served -/

/-- A patrol read that is due is served where nothing else waits (R256). -/
theorem chooseClass_scrub {mins grants : List Nat} {waits : Nat → Bool} (h3 : waits 3 = true) (h : ∀ c < 3, waits c = false) :
    chooseClass mins grants waits = some 3 := by
  have honly : ∀ c ∈ List.range 4, waits c = true → c = 3 := fun c hc hw => by
    by_contra hne
    rw [h c (by have := List.mem_range.mp hc; omega)] at hw
    cases hw
  rw [chooseClass]
  split
  · next c hfind =>
    have hw := List.find?_some hfind
    rw [Bool.and_eq_true] at hw
    rw [honly c (List.mem_of_find?_eq_some hfind) hw.1]
  · exact List.find?_range_eq_some.mpr ⟨h3, by decide, fun j hj => by rw [h j hj]; rfl⟩

/-- With no minimum, SCRUB is not served while a higher class waits (R256). -/
theorem chooseClass_higher {mins grants : List Nat} {waits : Nat → Bool} {c : Nat} (hc : c < 3) (hw : waits c = true)
    (hmin : mins.getD 3 0 = 0) : chooseClass mins grants waits ≠ some 3 := by
  rw [chooseClass]
  split
  · next x hfind =>
    have hx := List.find?_some hfind
    rintro ⟨⟩
    rw [hmin] at hx
    simp at hx
  · intro hfind
    obtain ⟨-, -, hbelow⟩ := List.find?_range_eq_some.mp hfind
    exact absurd hw (by simpa using hbelow c hc)

variable {f : Stack → Stack}

/-- With no request and no rewrite at its stack, a patrol read that is due is served (R256, R258). -/
theorem State.stackServes_scrub (hw : s.stackWants k.val = []) (hc : s.hubCore (stackCore k.val) = true)
    (hd : (f (s.stk k)).due = true) : (s.onStk k f).stackServes k = some 3 := by
  have hwants : (s.onStk k f).stackWants k.val = [] := hw
  have hcore : (s.onStk k f).hubCore (stackCore k.val) = true := hc
  rw [State.stackServes]
  refine chooseClass_scrub ?_ fun c hlt => ?_
  · rw [hwants, hcore, State.onStk_stk, hd]; simp
  · rw [hwants, beq_false_of_ne (show c ≠ 3 by omega)]; rfl

theorem State.stackServes_higher {x : Bid × Port × Ask} (hx : x ∈ s.stackWants k.val) (hlt : x.2.2.memClass < 3)
    (hs : s.rf K.BMC_SHARE F.BMC_SHARE_SCRUB = 0) : (s.onStk k f).stackServes k ≠ some 3 := by
  have hx' : x ∈ (s.onStk k f).stackWants k.val := hx
  rw [State.stackServes]
  refine chooseClass_higher hlt ?_ hs
  exact Bool.or_eq_true_iff.mpr (.inl (List.any_eq_true.mpr ⟨x, hx', beq_self_eq_true _⟩))

/-! ### The commands -/

/-- A stack whose next granule is due (R258). -/
def Stack.awaited (x : Stack) : Stack := { x with due := true }

theorem stackPatrolRead_off {i : Fin 32} {upset : Upset} (h : s.rf K.BMC_SCRUB F.BMC_SCRUB_INTERVAL = 0) :
    exec (.stackPatrolRead k i upset) s = .next s := by
  change execStackPatrolRead k i upset s = _
  rw [execStackPatrolRead, h]
  rfl

/-- A patrol read that comes due: it is read where SCRUB is served, and else it waits (R256, R258). -/
theorem stackPatrolRead_on {i : Fin 32} {upset : Upset} (h : s.rf K.BMC_SCRUB F.BMC_SCRUB_INTERVAL ≠ 0)
    (hok : s.stackOk k.val = true) (hcore : s.hubCore (stackCore k.val) = true) :
    exec (.stackPatrolRead k i upset) s =
      let t := (s.meets (s.stackAddr k.val (512 * (s.stk k).patrol) / 16 + i.val) upset).onStk k Stack.awaited
      .next (if t.stackServes k = some 3 then t.scrubSlot k else t) := by
  change execStackPatrolRead k i upset s = _
  rw [execStackPatrolRead, hok, hcore, if_neg (by simpa using h)]
  rfl

/-- A slot in which SCRUB is served. -/
theorem stackSlotGrant_scrub {upset : Upset}
    (h : (s.onStk k fun x => { x with waiting := s.stackLine k }).stackServes k = some 3) :
    exec (.stackSlotGrant k upset) s = .next ((s.onStk k fun x => { x with waiting := s.stackLine k }).scrubSlot k) := by
  change execStackSlotGrant k upset s = _
  rw [execStackSlotGrant]
  dsimp only
  rw [h]
  rfl

theorem State.onStk_granules (s : State) (k : Fin 8) (f : Stack → Stack) :
    (s.onStk k f).stackGranules = s.rowsInstalled * 2 ^ 30 / 512 := rfl

theorem State.onStk_stackRewrite (s : State) (k : Fin 8) (f : Stack → Stack) (j : Nat) :
    (s.onStk k f).stackRewrite j = s.stackRewrite j := by
  have hinter (r : Nat) : (s.onStk k f).rowInter r = s.rowInter r := rfl
  have hat (a : Nat) : (s.onStk k f).stackAt a = s.stackAt a := by rw [State.stackAt, State.stackAt, hinter]
  rw [State.stackRewrite, State.stackRewrite, State.onStk_marks]
  simp only [hat]

/-- With nothing else at its stack, a patrol read that is due goes on to the next granule. -/
theorem State.scrubSlot_next {f : Stack → Stack} (hi : s.Inv) (hr : s.stackRewrite k.val = none) (hd : (f (s.stk k)).due = true)
    (hp : (f (s.stk k)).patrol = (s.stk k).patrol) :
    (((s.onStk k f).scrubSlot k).stk k).patrol = ((s.stk k).patrol + 1) % (s.rowsInstalled * 2 ^ 30 / 512)
      ∧ (((s.onStk k f).scrubSlot k).stk k).due = false := by
  have hti : (s.onStk k f).Inv := (Upkept.onStk s k f).keeps.inv hi
  obtain ⟨-, hread, hnext⟩ := State.patrolStack_upkept (k := k) hti
  rw [State.onStk_stk, State.onStk_granules, hp] at hnext
  rw [State.scrubSlot_due (s := s.onStk k f) (by rw [State.onStk_stackRewrite, hr]) (by rw [State.onStk_stk]; exact hd)]
  exact ⟨hnext, hread⟩

/-- A patrol read that comes due is upkeep, and an uncorrectable error in the word it names poisons that word (R209, R258). -/
theorem stackPatrolRead_upkept (hi : s.Inv) (w : Nat) (upset : Upset) :
    let t := (s.meets w upset).onStk k Stack.awaited
    Upkept (s.meets w upset) (if t.stackServes k = some 3 then t.scrubSlot k else t) := by
  intro t
  have hdue : Upkept (s.meets w upset) t := .onStk (s.meets w upset) k Stack.awaited
  split
  · exact hdue.trans (.scrubSlot (hdue.keeps.inv ((Upkept.meets hi w upset).keeps.inv hi)))
  · exact hdue

end

end Sys2Proof.Machine
end

section
/-! The settlement of O29. -/

open Sys2Proof Sys2Proof.Machine

/-- Settles O29: a decode, a rewrite and a new interval change a word's mark alone, keep its full/empty bit and its poison; the stack's
class is chosen among what waits, and a patrol read in its slot goes on to the next granule. -/
theorem memoryUpkeep : Obligations.MemoryUpkeep := by
  unfold Obligations.MemoryUpkeep
  refine fun s hi => ⟨?rewrite, ?bank, fun k i upset => ⟨stackPatrolRead_off, ?stack, ?slot⟩⟩
  case rewrite =>
    intro b bank wn hwait
    refine ⟨s.rewrite wn, show execCorrectedWordRewrite b bank s = _ by rw [execCorrectedWordRewrite, hwait], rfl, rfl, fun n => ?_⟩
    rw [State.rewrite, State.setMark_mark _ _ _ _ hi.1]
    simp only [eq_comm]
  case bank =>
    refine fun b bank upset => ⟨sramPatrolRead_off, fun hon hok => ?_⟩
    obtain ⟨t, ht, hkept, hnext⟩ := sramPatrolRead_reads (upset := upset) hi hon hok
    have hread := Upkept.decodeWord hi (bankWord b bank.val (tget 0 (s.bench b).patrol bank.val)) upset
    obtain ⟨m, -, -, hmulti, hmark⟩ := State.decodeWord_mark hi.1 (bankWord b bank.val (tget 0 (s.bench b).patrol bank.val)) upset
    refine ⟨t, ht, (hread.trans hkept).mem, hnext, fun hu => hkept.poison _ ?_, (hread.trans hkept).full⟩
    rw [hmark, if_pos rfl, hmulti hu]
  case stack =>
    intro hint hok hcore
    have hexec := stackPatrolRead_on (i := i) (upset := upset) hint hok hcore
    let w := s.stackAddr k.val (512 * (s.stk k).patrol) / 16 + i.val
    have hkept := stackPatrolRead_upkept (k := k) hi w upset
    refine ⟨_, hexec, ((Upkept.meets hi w upset).trans hkept).mem, fun hu => hkept.poison w ?_, fun hu hwants hrewrite => ?_,
      fun hu hwaits hshare => ?_⟩
    · subst hu
      exact State.meets_multi hi w
    · subst hu
      have hserves : ((s.meets w .clean).onStk k Stack.awaited).stackServes k = some 3 := State.stackServes_scrub hwants hcore rfl
      rw [if_pos hserves]
      exact State.scrubSlot_next hi hrewrite rfl rfl
    · subst hu
      obtain ⟨x, hx, hlt⟩ := hwaits
      have hserves : ((s.meets w .clean).onStk k Stack.awaited).stackServes k ≠ some 3 := State.stackServes_higher hx hlt hshare
      rw [if_neg hserves, State.onStk_stk]
      exact ⟨rfl, rfl⟩
  case slot =>
    intro hwants hrewrite hdue hcore
    let f : Stack → Stack := fun x => { x with waiting := s.stackLine k }
    have hwaits := Upkept.onStk s k f
    obtain ⟨hnext, hread⟩ := State.scrubSlot_next (f := f) hi hrewrite hdue rfl
    exact ⟨(s.onStk k f).scrubSlot k, stackSlotGrant_scrub (State.stackServes_scrub hwants hcore hdue),
      (hwaits.trans (.scrubSlot (hwaits.keeps.inv hi))).mem, hread, hnext⟩

end

section
/-! SUPPORT. What a packet taken, a packet sent and an instruction that fails leave (R278, R301, R342, R345, R350). -/

namespace Sys2Proof.Machine

/-! ## Packets -/

/-- A state with its fabric replaced. -/
def State.withFab (s : State) (f : Fabric) : State := { s with fab := f }

/-- Taking a packet changes the fabric alone. -/
theorem State.takePacket_fab {s s' : State} {want : Option PortNo × Packet → Bool} {x : Option PortNo × Packet}
    (h : s.takePacket want = some (x, s')) : ∃ f, s' = s.withFab f := by
  have hfreed (f : Fabric) (a : Option PortNo) (pkt : Packet) : ∃ g, State.freed (s.withFab f) a pkt = s.withFab g := by
    cases a with
    | none => exact ⟨f, rfl⟩
    | some n => exact ⟨_, rfl⟩
  have hgo (l seen : List (Option PortNo × Packet)) (hl : State.takePacket.go s want l seen = some (x, s')) :
      ∃ f, s' = s.withFab f := by
    induction l generalizing seen with
    | nil => cases hl
    | cons y rest ih =>
      rw [State.takePacket.go] at hl
      split at hl
      · obtain ⟨g, hg⟩ := hfreed { s.fab with inbox := seen ++ rest } y.1 y.2
        exact ⟨g, by rw [← hg]; exact (Prod.mk.inj (Option.some.inj hl)).2.symm⟩
      · exact ih _ hl
  exact hgo _ _ h

section
variable (s : State) (p : Part) (pkt : Packet)

@[simp] theorem State.send_mem : (s.send p pkt).mem = s.mem := s.send_leaves State.mem (fun _ _ => rfl) State.setReg_mem p pkt
@[simp] theorem State.send_marks : (s.send p pkt).marks = s.marks :=
  s.send_leaves State.marks (fun _ _ => rfl) State.setReg_marks p pkt
@[simp] theorem State.send_benches : (s.send p pkt).benches = s.benches :=
  s.send_leaves State.benches (fun _ _ => rfl) State.setReg_benches p pkt

end

/-! ## An instruction that fails -/

section
variable (s : State) (b : Bid)

theorem State.flushDeposits_mem : (s.flushDeposits b).mem = s.mem := by
  have hadd (s : State) (d : Nat × Nat × List Word) : (s.addPartial b d.2.1 d.2.2).mem = s.mem := by simp [State.addPartial]
  exact (foldl_leaves State.mem hadd _ _).trans (State.onBench_mem _ _ _)

/-- Deposits that go on leave their Bench's units and Foreman. -/
theorem State.flushDeposits_bench : ((s.flushDeposits b).bench b).run = (s.bench b).run ∧ (s.flushDeposits b).fm b = s.fm b := by
  have hadd (s : State) (d : Nat × Nat × List Word) : (s.addPartial b d.2.1 d.2.2).bench b = s.bench b := by
    simp [State.addPartial]
  have hbench : (s.flushDeposits b).bench b
      = { s.bench b with deposits := (s.bench b).deposits.filter fun d => !((s.bench b).normsOpen.all fun i => d.1 < i) } :=
    (foldl_leaves (fun s => s.bench b) hadd _ _).trans (State.onBench_bench_same _ _ _)
  rw [State.fm, hbench]
  exact ⟨rfl, rfl⟩

/-- An instruction that fails ends with its unit free and its Foreman FAULTED; memory stands (R278, R301). -/
theorem State.failRunning_ends (r : Running) (c : FCode) : ((s.failRunning b r c).fm b).st = .faulted
    ∧ ((s.failRunning b r c).bench b).running r.q r.unit = none ∧ (s.failRunning b r c).mem = s.mem := by
  let d := s.dropRunning b r.q r.unit
  let f := d.fault (r.e.at_ b r.q r.unit) c
  have hbench : f.bench b = (d.bench b).faulted r.q (codeVote c.code) := by
    rw [State.bench, show f.benches = _ from d.faultCode_benches _ _]
    exact d.onBench_bench_same b _
  obtain ⟨hrun, hfm⟩ := f.flushDeposits_bench b
  refine ⟨?_, ?_, ?_⟩
  · exact (congrArg Foreman.st hfm).trans (d.fault_st (r.e.at_ b r.q r.unit) c)
  · exact (Bench.running_congr (hrun.trans (congrArg Bench.run hbench)) r.q r.unit).trans (s.dropRunning_running b r.q r.unit)
  · exact (f.flushDeposits_mem b).trans ((d.faultCode_mem _ _).trans (s.dropRunning_mem b r.q r.unit))

end

/-- A remote HAUL.ST answered in full is over (R278, R350, R432). -/
theorem State.remoteDone_over (s : State) (b : Bid) (r : Running) : (s.remoteDone b r).Over b 1 r.unit r.e.id s.mem := by
  have h := State.over_completed (State.haulAfter b s r) b 1 r.unit r.e.id
  rwa [State.haulAfter_mem] at h

/-- A Hauler that waits for an answer is one in progress. -/
theorem State.awaiting_queue {s : State} {p : Part} {addr mod : Nat} {b : Bid} {r : Running}
    (h : s.awaiting p addr mod = some (b, r)) : r.q = 1 := by
  have hmem := List.mem_of_find?_eq_some h
  obtain ⟨c, -, hc⟩ := List.mem_flatMap.mp hmem
  obtain ⟨x, hx, hxr⟩ := List.mem_map.mp hc
  obtain ⟨-, rfl⟩ := Prod.mk.inj hxr
  exact beq_iff_eq.mp (List.mem_filter.mp hx).2

/-! ## Answers and timeouts -/

section
variable {s s' : State} {n : Option PortNo} {pkt : Packet} {b : Bid} {r : Running}

theorem ack_done (ht : s.takePacket (isOp clsData 1) = some ((n, pkt), s'))
    (ha : s'.awaiting (pktDstPart pkt) (pktAddr pkt) (pktSrcMod pkt) = some (b, r))
    (hl : r.remote.erase (pktAddr pkt, pktSrcMod pkt) = []) : Completes .ack s b 1 r.unit r.e.id s.mem := by
  obtain ⟨f, rfl⟩ := State.takePacket_fab ht
  refine completes_iff.mpr ⟨(s.withFab f).remoteDone b r, show execAck s = _ from ?_, State.remoteDone_over (s.withFab f) b r⟩
  rw [execAck, ht]
  dsimp only
  rw [ha]
  dsimp only
  rw [hl]
  rfl

theorem ack_more (ht : s.takePacket (isOp clsData 1) = some ((n, pkt), s'))
    (ha : s'.awaiting (pktDstPart pkt) (pktAddr pkt) (pktSrcMod pkt) = some (b, r)) (hr : (s.bench b).running 1 r.unit = some r)
    (hl : r.remote.erase (pktAddr pkt, pktSrcMod pkt) ≠ []) :
    ∃ t, exec .ack s = .next t
      ∧ (t.bench b).running 1 r.unit = some { r with remote := r.remote.erase (pktAddr pkt, pktSrcMod pkt) } ∧ t.mem = s.mem := by
  obtain ⟨f, rfl⟩ := State.takePacket_fab ht
  have hq : r.q = 1 := State.awaiting_queue ha
  refine ⟨(s.withFab f).setRunning b { r with remote := r.remote.erase (pktAddr pkt, pktSrcMod pkt) },
    show execAck s = _ from ?_, State.setRunning_running (s := s.withFab f) hq rfl hr,
    State.setRunning_mem _ _ _⟩
  rw [execAck, ht]
  dsimp only
  rw [ha]
  dsimp only
  rw [if_neg (by simpa using hl)]

theorem reject_faults (ht : s.takePacket (isOp clsData 2) = some ((n, pkt), s'))
    (ha : s'.awaiting (pktDstPart pkt) (pktAddr pkt) (pktSrcMod pkt) = some (b, r)) :
    ∃ t, exec .reject s = .next t ∧ (t.fm b).st = .faulted ∧ (t.bench b).running 1 r.unit = none ∧ t.mem = s.mem := by
  obtain ⟨f, rfl⟩ := State.takePacket_fab ht
  obtain ⟨hst, hrun, hmem⟩ := (s.withFab f).failRunning_ends b r .fabricReject
  refine ⟨(s.withFab f).failRunning b r .fabricReject, show execReject s = _ from ?_, hst, State.awaiting_queue ha ▸ hrun, hmem⟩
  rw [execReject, ht]
  dsimp only
  rw [ha]

variable {u : Fin 8} (ha : s.active b 1 u = some r) (hne : r.remote ≠ [])
include ha

/-- An instruction in progress on a Hauler fails. -/
theorem State.failActive_ends (c : FCode) : ((s.failRunning b r c).fm b).st = .faulted
    ∧ ((s.failRunning b r c).bench b).running 1 u = none ∧ (s.failRunning b r c).mem = s.mem := by
  obtain ⟨-, hq, hu⟩ := State.running_of_active ha
  have h := s.failRunning_ends b r c
  rwa [hq, hu] at h

include hne

theorem fabricAckTimeout_remote (h2 : haulRemote r.e = 2) :
    let k := K.FAB_PART ((s.partOf b).getD 0)
    (s.rf k F.FAB_PART_ACK_LIMIT = 0 → exec (.fabricAckTimeout b u) s = .next s)
    ∧ (s.rf k F.FAB_PART_ACK_LIMIT ≠ 0 → exec (.fabricAckTimeout b u) s = .next (s.failRunning b r .waitTimeout)) := by
  change (_ → execFabricAckTimeout b u s = _) ∧ (_ → execFabricAckTimeout b u s = _)
  rw [execFabricAckTimeout, ha]
  dsimp only
  exact ⟨fun h0 => if_neg (by simp [h0]), fun h0 => if_pos (by simp [h2, hne, h0])⟩

theorem hostAckTimeout_remote (h1 : haulRemote r.e = 1) :
    let k := K.HQ_LIM ((s.partOf b).getD 0)
    (s.rf k F.HQ_LIM_ACK_LIMIT = 0 → exec (.hostAckTimeout b u) s = .next s)
    ∧ (s.rf k F.HQ_LIM_ACK_LIMIT ≠ 0 → exec (.hostAckTimeout b u) s = .next (s.failRunning b r .waitTimeout)) := by
  change (_ → execHostAckTimeout b u s = _) ∧ (_ → execHostAckTimeout b u s = _)
  rw [execHostAckTimeout, ha]
  dsimp only
  exact ⟨fun h0 => if_neg (by simp [h0]), fun h0 => if_pos (by simp [h1, hne, h0])⟩

theorem hostFlushComplete_remote (h1 : haulRemote r.e = 1) :
    (∀ d, exec (.hostFlushComplete b u (.ok d)) s = .next (s.remoteDone b r))
    ∧ exec (.hostFlushComplete b u .refused) s = .next (s.failRunning b r .addrUnmapped) := by
  have hgo : (decide (haulRemote r.e = 1) && !r.remote.isEmpty) = true := by simp [h1, hne]
  refine ⟨fun d => show execHostFlushComplete b u (.ok d) s = _ from ?_, show execHostFlushComplete b u .refused s = _ from ?_⟩ <;>
  · rw [execHostFlushComplete, ha]
    exact if_pos hgo

end

end Sys2Proof.Machine
end

section
/-! SUPPORT. Bytes put into words: which bits they name, what they hold, and how they are poisoned (R8, R210). -/

namespace Sys2Proof.Machine

/-! ## Bits named -/

/-- Whether some words name a bit of memory to write. -/
def namedBit (ws : Tab WordBits) (x : Nat) : Bool := (tget WordBits.empty ws (x / 128)).mask.getLsbD (x % 128)

theorem namedBit_tput (ws : Tab WordBits) (b x : Nat) (d : Line16) (p : Bool) :
    namedBit (tput ws (b / 128) ⟨d, (tget WordBits.empty ws (b / 128)).mask ||| (1 : Line16) <<< (b % 128), p⟩) x
      = (decide (x = b) || namedBit ws x) := by
  unfold namedBit
  by_cases hw : b / 128 = x / 128
  · have hset := getLsbD_setBit (tget WordBits.empty ws (b / 128)).mask True (b % 128) (x % 128) (Nat.mod_lt _ (by decide))
    rw [if_pos trivial] at hset
    rw [← hw, tget_tput_same, hset]
    by_cases hx : x = b
    · simp [hx]
    · rw [if_neg (by omega), decide_eq_false hx, Bool.false_or]
  · rw [tget_tput_other _ _ _ hw, decide_eq_false (by rintro rfl; exact hw rfl), Bool.false_or]

/-- A value put at a bit address names its bits. -/
theorem namedBit_putMarked (w : Nat) (ws : Tab WordBits) (b v psn x : Nat) :
    namedBit (putMarked w ws b v psn) x = (decide (b ≤ x ∧ x < b + w) || namedBit ws x) := by
  induction w generalizing ws b v psn with
  | zero => rw [putMarked, decide_eq_false (by omega), Bool.false_or]
  | succ w ih =>
    rw [putMarked, ih, putMarked.tputW_eq, putMarked.tgetW_eq, namedBit_tput, ← Bool.or_assoc, ← Bool.decide_or]
    congr 2
    rw [eq_iff_iff]
    omega

/-- A named bit's word is listed. -/
theorem listed_of_namedBit {ws : Tab WordBits} {x : Nat} (h : namedBit ws x = true) : ∃ e ∈ ws, e.1 = x / 128 := by
  by_contra hno
  rw [namedBit, tget_unlisted _ _ _ fun e he hk => hno ⟨e, he, hk⟩] at h
  simp [WordBits.empty] at h

/-! ## The words' table -/

/-- Words in rising order at places that satisfy `P`, each poisoned as `psn` says. -/
structure Wordwise (P : Nat → Prop) (psn : Bool) (ws : Tab WordBits) : Prop where
  rising : (ws.map Prod.fst).Pairwise (· < ·)
  place : ∀ e ∈ ws, P e.1
  poison : ∀ e ∈ ws, e.2.poison = psn

theorem marksOf_succ (w : Nat) (psn : Bool) : decide (marksOf (w + 1) psn % 2 = 1) = psn ∧ marksOf (w + 1) psn / 2 = marksOf w psn := by
  cases psn with
  | false => exact ⟨rfl, Nat.zero_div 2⟩
  | true =>
    have hpos := Nat.two_pow_pos w
    rw [marksOf, marksOf, if_pos rfl, if_pos rfl, Nat.pow_succ]
    exact ⟨decide_eq_true (by omega), by omega⟩

section
variable {P : Nat → Prop} {psn : Bool} {ws : Tab WordBits}

theorem Wordwise.joined (h : Wordwise P psn ws) (k : Nat) : ((tget WordBits.empty ws k).poison || psn) = psn := by
  by_cases hk : ∃ e ∈ ws, e.1 = k
  · obtain ⟨e, he, rfl⟩ := hk
    rw [tget_mem _ h.rising he, h.poison e he, Bool.or_self]
  · rw [tget_unlisted _ _ _ fun e he hek => hk ⟨e, he, hek⟩]
    rfl

theorem Wordwise.putBits (w : Nat) (h : Wordwise P psn ws) (b v : Nat) (hP : ∀ x, b ≤ x → x < b + w → P (x / 128)) :
    Wordwise P psn (putBits w ws b v psn) := by
  rw [Machine.putBits]
  induction w generalizing ws b v with
  | zero => exact h
  | succ w ih =>
    rw [putMarked, putMarked.tputW_eq, putMarked.tgetW_eq, (marksOf_succ w psn).2]
    refine ih ⟨tput_rising _ _ _ h.rising, fun e he => ?_, fun e he => ?_⟩ (b + 1) (v / 2) fun x h1 h2 => hP x (by omega) (by omega)
    · rcases tput_keys _ _ _ e he with rfl | he
      · exact hP b (Nat.le_refl b) (by omega)
      · exact h.place e he
    · rcases tput_keys _ _ _ e he with rfl | he
      · exact (congrArg _ (marksOf_succ w psn).1).trans (h.joined (b / 128))
      · exact h.poison e he

end

/-! ## Bytes -/

/-- Bytes put from the n-th byte behind an address on. -/
def putBytes (addr : Nat) (psn : Bool) (bytes : List Byte) (n : Nat) (ws : Tab WordBits) : Tab WordBits :=
  (bytes.zipIdx n).foldl (fun ws x => putBits 8 ws (8 * (addr + x.2)) x.1.toNat psn) ws

section
variable (addr : Nat) (psn : Bool)

theorem putBytes_cons (v : Byte) (bytes : List Byte) (n : Nat) (ws : Tab WordBits) :
    putBytes addr psn (v :: bytes) n ws = putBytes addr psn bytes (n + 1) (putBits 8 ws (8 * (addr + n)) v.toNat psn) := by
  rw [putBytes, List.zipIdx_cons, List.foldl_cons]
  rfl

theorem storedBit_putBytes (bytes : List Byte) (n : Nat) (ws : Tab WordBits) (x : Nat) :
    storedBit (putBytes addr psn bytes n ws) x
      = if 8 * (addr + n) ≤ x ∧ x < 8 * (addr + n + bytes.length) then (bytes.getD (x / 8 - (addr + n)) 0).getLsbD (x % 8)
        else storedBit ws x := by
  induction bytes generalizing n ws with
  | nil => exact (if_neg (by simp only [List.length_nil]; omega)).symm
  | cons v bytes ih =>
    rw [putBytes_cons, ih, putBits, storedBit_putMarked, List.length_cons]
    by_cases hfirst : 8 * (addr + n) ≤ x ∧ x < 8 * (addr + n) + 8
    · rw [if_neg (by omega), if_pos hfirst, if_pos (by omega), show x / 8 - (addr + n) = 0 by omega, List.getD_cons_zero,
        show x % 8 = x - 8 * (addr + n) by omega]
      rfl
    · by_cases hrest : 8 * (addr + (n + 1)) ≤ x ∧ x < 8 * (addr + (n + 1) + bytes.length)
      · rw [if_pos hrest, if_pos (by omega), show x / 8 - (addr + n) = x / 8 - (addr + (n + 1)) + 1 by omega, List.getD_cons_succ]
      · rw [if_neg hrest, if_neg hfirst, if_neg (by omega)]

theorem namedBit_putBytes (bytes : List Byte) (n : Nat) (ws : Tab WordBits) (x : Nat) :
    namedBit (putBytes addr psn bytes n ws) x
      = (decide (8 * (addr + n) ≤ x ∧ x < 8 * (addr + n + bytes.length)) || namedBit ws x) := by
  induction bytes generalizing n ws with
  | nil => rw [decide_eq_false (by simp only [List.length_nil]; omega), Bool.false_or]; rfl
  | cons v bytes ih =>
    rw [putBytes_cons, ih, putBits, namedBit_putMarked, List.length_cons, ← Bool.or_assoc, ← Bool.decide_or]
    congr 2
    rw [eq_iff_iff]
    omega

theorem Wordwise.putBytes {P : Nat → Prop} {psn : Bool} {addr : Nat} (bytes : List Byte) (n : Nat) {ws : Tab WordBits}
    (h : Wordwise P psn ws) (hP : ∀ x, 8 * (addr + n) ≤ x → x < 8 * (addr + n + bytes.length) → P (x / 128)) :
    Wordwise P psn (putBytes addr psn bytes n ws) := by
  induction bytes generalizing n ws with
  | nil => exact h
  | cons v bytes ih =>
    rw [putBytes_cons]
    rw [List.length_cons] at hP
    exact ih (n + 1) (h.putBits 8 _ _ fun x h1 h2 => hP x (by omega) (by omega)) fun x h1 h2 => hP x (by omega) (by omega)

end

/-! ## The requests of some bytes -/

section
variable {addr : Nat} {bytes : List Byte} {fe : BitVec 2} {psn : Bool}

/-- The words that some bytes put from an address on make. -/
def bytesWords (addr : Nat) (bytes : List Byte) (psn : Bool) : Tab WordBits := putBytes addr psn bytes 0 []

theorem bytesWords_wordwise :
    Wordwise (fun w => ∃ x, 8 * addr ≤ x ∧ x < 8 * (addr + bytes.length) ∧ w = x / 128) psn (bytesWords addr bytes psn) :=
  Wordwise.putBytes bytes 0 ⟨List.Pairwise.nil, by simp, by simp⟩ fun x h1 h2 => ⟨x, h1, h2, rfl⟩

/-- A request of some bytes is a word's, and is as its word stands. -/
theorem mem_bytesReqs {r : WrReq} (hr : r ∈ bytesReqs addr bytes fe psn) :
    (∃ x, 8 * addr ≤ x ∧ x < 8 * (addr + bytes.length) ∧ r.word = x / 128) ∧ r.fe = fe ∧ r.poison = psn
      ∧ ∀ x, r.word = x / 128 → r.mask.getLsbD (x % 128) = decide (8 * addr ≤ x ∧ x < 8 * (addr + bytes.length))
        ∧ (8 * addr ≤ x → x < 8 * (addr + bytes.length) →
          r.data.getLsbD (x % 128) = (bytes.getD (x / 8 - addr) 0).getLsbD (x % 8)) := by
  obtain ⟨e, he, rfl⟩ := List.mem_map.mp hr
  have hw := bytesWords_wordwise (addr := addr) (bytes := bytes) (psn := psn)
  have hget := tget_mem WordBits.empty hw.rising he
  refine ⟨hw.place e he, rfl, hw.poison e he, fun x hx => ?_⟩
  dsimp only at hx ⊢
  rw [hx] at hget
  have hnamed := namedBit_putBytes addr psn bytes 0 [] x
  have hstored := storedBit_putBytes addr psn bytes 0 [] x
  change namedBit (bytesWords addr bytes psn) x = _ at hnamed
  change storedBit (bytesWords addr bytes psn) x = _ at hstored
  rw [namedBit, hget] at hnamed
  rw [storedBit, hget] at hstored
  refine ⟨hnamed.trans (by simp [namedBit, tget, WordBits.empty]), fun h1 h2 => hstored.trans (if_pos ⟨h1, h2⟩)⟩

/-- Every bit of some bytes is named by a request. -/
theorem exists_bytesReq {x : Nat} (h1 : 8 * addr ≤ x) (h2 : x < 8 * (addr + bytes.length)) :
    ∃ r ∈ bytesReqs addr bytes fe psn, r.word = x / 128 := by
  have hnamed : namedBit (bytesWords addr bytes psn) x = true := by
    rw [bytesWords, namedBit_putBytes, decide_eq_true ⟨h1, h2⟩, Bool.true_or]
  obtain ⟨e, he, hx⟩ := listed_of_namedBit hnamed
  exact ⟨_, List.mem_map.mpr ⟨e, he, rfl⟩, hx⟩

theorem bytesReqs_apart : (bytesReqs addr bytes fe psn).Pairwise fun r r' => r'.word ≠ r.word := by
  have h := (bytesWords_wordwise (addr := addr) (bytes := bytes) (psn := psn)).rising
  exact List.pairwise_map.mpr ((List.pairwise_map.mp h).imp fun h => (Nat.ne_of_lt h).symm)

end

end Sys2Proof.Machine
end

section
/-! SUPPORT. A WRITE of the fabric to Bench SRAM: its words are written, one by one, and the bytes read back (R210, R212, R350). -/

namespace Sys2Proof.Machine

theorem mem_wordsOf {lo len w : Nat} : w ∈ wordsOf lo len ↔ 0 < len ∧ lo / 16 ≤ w ∧ w ≤ (lo + len - 1) / 16 := by
  rw [wordsOf]
  split
  · next h => simp [h]
  · next h =>
    simp only [List.mem_map, List.mem_range]
    constructor
    · rintro ⟨i, hi, rfl⟩
      omega
    · rintro ⟨-, h1, h2⟩
      exact ⟨w - lo / 16, by omega, by omega⟩

/-- The requests of some bytes are for the words of their range, one for each. -/
theorem mem_wordsOf_iff_bytesReq {addr w : Nat} {bytes : List Byte} {fe : BitVec 2} {psn : Bool} :
    w ∈ wordsOf addr bytes.length ↔ ∃ r ∈ bytesReqs addr bytes fe psn, r.word = w := by
  rw [mem_wordsOf]
  constructor
  · rintro ⟨hlen, h1, h2⟩
    obtain ⟨r, hr, hw⟩ := exists_bytesReq (addr := addr) (bytes := bytes) (fe := fe) (psn := psn)
      (x := max (8 * addr) (128 * w)) (Nat.le_max_left ..) (by omega)
    exact ⟨r, hr, by omega⟩
  · rintro ⟨r, hr, rfl⟩
    obtain ⟨⟨x, h1, h2, hx⟩, -⟩ := mem_bytesReqs hr
    omega

/-- Bytes read one by one. -/
theorem mread_eq_of_mget {m : List Host.Cell} {a : Nat} {l : List Byte} (h : ∀ i < l.length, mget m (a + i) = l.getD i 0) :
    mread m a l.length = l := by
  refine List.ext_getElem (length_mread _ _ _) fun i h1 h2 => ?_
  have hi := getD_mread m a h2 0
  rw [h i h2, List.getD_eq_getElem _ _ h1, List.getD_eq_getElem _ _ h2] at hi
  exact hi

/-! ## The writes of a list performed in turn -/

/-- Writes of words of their own that may all be performed, by an operation that performs each. -/
theorem Wrote.foldl {p : Part} {f : State → WrReq → State} (hf : ∀ t r u, t.mayAccess p (16 * r.word) = true →
    inSram (16 * r.word) = true → t.writeWord r = .ok () u → f t r = u) (l : List WrReq) {s : State} (hi : s.Inv)
    (ha : ∀ r ∈ l, s.mayAccess p (16 * r.word) = true) (hs : ∀ r ∈ l, s.Storable r)
    (hd : l.Pairwise fun r r' => r'.word ≠ r.word) : Wrote l s (l.foldl f s) := by
  induction l generalizing s with
  | nil => exact .nil hi
  | cons r l ih =>
    obtain ⟨hd1, hd2⟩ := List.pairwise_cons.mp hd
    have hfirst := hs r List.mem_cons_self
    obtain ⟨t, hput, hwrote⟩ := Wrote.one hi hfirst
    rw [List.foldl_cons, hf s r t (ha r List.mem_cons_self) hfirst.sram hput]
    exact hwrote.cons (ih hwrote.inv (fun r' hr => by rw [hwrote.windows.mayAccess]; exact ha r' (List.mem_cons_of_mem _ hr))
      (fun r' hr => hwrote.storable (hd1 r' hr) (hs r' (List.mem_cons_of_mem _ hr))) hd2) hd1

section
variable {s : State} {p : Part} {l : List WrReq}

/-- A WRITE whose words lie in Bench SRAM and may all be accessed writes them all (R350). -/
theorem State.writeBytes_wrote (hi : s.Inv) (ha : ∀ r ∈ l, s.mayAccess p (16 * r.word) = true) (hs : ∀ r ∈ l, s.Storable r)
    (hd : l.Pairwise fun r r' => r'.word ≠ r.word) : Wrote l s (s.writeBytes p l) := by
  have hwhole : (l.all fun r => s.mayAccess p (16 * r.word)) = true := List.all_eq_true.mpr ha
  rw [State.writeBytes]
  dsimp only
  rw [hwhole, State.charge_sram _ _ _ fun x hx => ?_]
  · refine Wrote.foldl (p := p) (fun t r u hacc hsram hput => ?_) l hi ha hs hd
    simp [hacc, State.hubPut, hsram, hput]
  · obtain ⟨r, hr, rfl⟩ := List.mem_map.mp hx
    exact (hs r (List.mem_filter.mp hr).1).sram

theorem State.writeRefusals_none (ha : ∀ r ∈ l, s.mayAccess p (16 * r.word) = true) : s.writeRefusals p l = [] := by
  rw [State.writeRefusals, List.filter_eq_nil_iff]
  intro w hw
  obtain ⟨r, hr, rfl⟩ := List.mem_map.mp hw
  simp [ha r hr]

end

/-- Writes do not depend on the fabric. -/
theorem Wrote.of_withFab {s t : State} {l : List WrReq} {f : Fabric} (h : Wrote l (s.withFab f) t) : Wrote l s t :=
  have hwindows : s.SameWindows (s.withFab f) := ⟨fun _ _ => rfl, rfl, rfl, rfl, rfl⟩
  ⟨h.inv, hwindows.trans h.windows, h.benches, h.written, h.kept, h.full, h.poison,
    h.mark⟩

/-! ## The bytes written -/

section
variable {s t : State} {addr : Nat} {bytes : List Byte} {fe : BitVec 2} {psn : Bool}
  (h : Wrote (bytesReqs addr bytes fe psn) s t)
include h

/-- The bytes of a WRITE read back. -/
theorem Wrote.mread_bytes : mread t.mem addr bytes.length = bytes := by
  refine mread_eq_of_mget fun i hi => mget_of_memBit fun j hj => ?_
  obtain ⟨r, hr, hw⟩ := exists_bytesReq (fe := fe) (psn := psn) (show 8 * addr ≤ 8 * (addr + i) + j by omega)
    (show 8 * (addr + i) + j < 8 * (addr + bytes.length) by omega)
  obtain ⟨-, -, -, hbits⟩ := mem_bytesReqs hr
  obtain ⟨hmask, hdata⟩ := hbits _ hw
  have hwritten := h.written r hr _ (Nat.mod_lt _ (by decide)) (hmask.trans (decide_eq_true (by omega)))
  rw [hw, Nat.div_add_mod, hdata (by omega) (by omega)] at hwritten
  rw [hwritten, show (8 * (addr + i) + j) / 8 - addr = i by omega, show (8 * (addr + i) + j) % 8 = j by omega]

/-- A WRITE changes no byte outside its own. -/
theorem Wrote.mget_outside {a : Nat} (ha : a < addr ∨ addr + bytes.length ≤ a) : mget t.mem a = mget s.mem a := by
  refine mget_of_memBit fun j hj => ?_
  rw [h.kept, memBit_byte _ _ hj]
  intro r hr hw
  obtain ⟨-, -, -, hbits⟩ := mem_bytesReqs hr
  rw [(hbits _ hw).1, decide_eq_false (by omega)]

/-- A WRITE under FILL leaves its words full. -/
theorem Wrote.full_bytes (hfe : fe.getLsbD 1 = false) {w : Nat} (hw : w ∈ wordsOf addr bytes.length) : t.full w = true := by
  obtain ⟨r, hr, rfl⟩ := (mem_wordsOf_iff_bytesReq (fe := fe) (psn := psn)).mp hw
  obtain ⟨-, hrfe, -⟩ := mem_bytesReqs hr
  rw [h.full, List.any_eq_true.mpr ⟨r, hr, by rw [hrfe, hfe, beq_self_eq_true]; rfl⟩, Bool.or_true]

/-- A poisoned WRITE leaves its words poisoned. -/
theorem Wrote.poison_bytes (hp : psn = true) {w : Nat} (hw : w ∈ wordsOf addr bytes.length) : (t.mark w).poison = true := by
  obtain ⟨r, hr, rfl⟩ := (mem_wordsOf_iff_bytesReq (fe := fe) (psn := psn)).mp hw
  obtain ⟨-, -, hrp, -⟩ := mem_bytesReqs hr
  exact h.poison r hr (hrp.trans hp)

end

/-! ## The command -/

/-- The answer to a packet (R350). -/
def State.writeAnswer (s : State) (pkt : Packet) (op reason : Nat) : State :=
  s.send (pktDstPart pkt) (s.packet (pktDstPart pkt)
    ⟨pktSrcMod pkt, pktSrcPart pkt, clsData, op, pktStep pkt, 0, reason, 0, false, pktAddr pkt⟩ [])

section
variable {s s' : State} {n : Option PortNo} {pkt : Packet} (ht : s.takePacket (isOp clsData 0) = some ((n, pkt), s'))
include ht

/-- A WRITE outside every window of its partition is answered and writes nothing (R350). -/
theorem write_outside (hr : s.rangeOk (pktDstPart pkt) (pktAddr pkt) (16 * pktLen pkt) = false) :
    ∃ t, exec .write s = .next t ∧ t.mem = s.mem ∧ t.benches = s.benches := by
  obtain ⟨f, rfl⟩ := State.takePacket_fab ht
  refine ⟨(s.withFab f).writeAnswer pkt 2 1, show execWrite s = _ from ?_, State.send_mem .., State.send_benches ..⟩
  rw [execWrite, ht]
  dsimp only
  rw [show (s.withFab f).rangeOk (pktDstPart pkt) (pktAddr pkt) (16 * pktLen pkt) = false from hr]
  rfl

/-- A WRITE to one window of Bench SRAM, all of whose words may be accessed, is performed and answered (R350). -/
theorem write_performed (hi : s.Inv) (hr : s.rangeOk (pktDstPart pkt) (pktAddr pkt) (16 * pktLen pkt) = true)
    (hlen : pkt.payload.length = 16 * pktLen pkt) (hs : inSram (pktAddr pkt) = true) (hfe : pktFe pkt = 0 ∨ pktFe pkt = 2)
    (ha : ∀ w ∈ wordsOf (pktAddr pkt) (16 * pktLen pkt), s.mayAccess (pktDstPart pkt) (16 * w) = true)
    (hc : ∀ w ∈ wordsOf (pktAddr pkt) (16 * pktLen pkt), (s.mark w).upset = .clean) :
    ∃ t u, exec .write s = .next t ∧ t.mem = u.mem ∧ t.marks = u.marks
      ∧ Wrote (bytesReqs (pktAddr pkt) pkt.payload (BitVec.ofNat 2 (pktFe pkt)) (pktPoison pkt)) s u := by
  obtain ⟨f, rfl⟩ := State.takePacket_fab ht
  let l := bytesReqs (pktAddr pkt) pkt.payload (BitVec.ofNat 2 (pktFe pkt)) (pktPoison pkt)
  have hword {r : WrReq} (hr : r ∈ l) : r.word ∈ wordsOf (pktAddr pkt) (16 * pktLen pkt) := by
    rw [← hlen]
    exact mem_wordsOf_iff_bytesReq.mpr ⟨r, hr, rfl⟩
  have hsram {w : Nat} (hw : w ∈ wordsOf (pktAddr pkt) (16 * pktLen pkt)) : inSram (16 * w) = true := by
    obtain ⟨hpos, -, hlast⟩ := mem_wordsOf.mp hw
    rw [State.rangeOk] at hr
    dsimp only at hr
    rw [if_neg (by omega), if_pos hs, Bool.and_eq_true, Bool.and_eq_true] at hr
    have hhi := (inSram_iff _).mp hr.1.1
    exact (inSram_iff _).mpr (by omega)
  have hacc : ∀ r ∈ l, (s.withFab f).mayAccess (pktDstPart pkt) (16 * r.word) = true := fun r hr => ha _ (hword hr)
  have hstore : ∀ r ∈ l, (s.withFab f).Storable r := fun r hr => by
    obtain ⟨-, hrfe, -⟩ := mem_bytesReqs hr
    refine ⟨hsram (hword hr), hc _ (hword hr), fun hbit => ?_⟩
    rw [hrfe] at hbit
    rcases hfe with h | h <;> rw [h] at hbit <;> cases hbit
  have hinv : (s.withFab f).Inv := hi
  have hwrote := State.writeBytes_wrote hinv hacc hstore bytesReqs_apart
  refine ⟨((s.withFab f).writeBytes (pktDstPart pkt) l).writeAnswer pkt 1 0, (s.withFab f).writeBytes (pktDstPart pkt) l,
    show execWrite s = _ from ?_, State.send_mem .., State.send_marks .., ?_⟩
  · have hfree : (l.any fun r => !inSram (16 * r.word) && (s.withFab f).bulk.copying.contains (pageOf (16 * r.word))) = false :=
      List.any_eq_false.mpr fun r hr => by rw [hsram (hword hr)]; simp
    have hrange : (s.withFab f).rangeOk (pktDstPart pkt) (pktAddr pkt) (16 * pktLen pkt) = true := hr
    rw [execWrite, ht]
    dsimp only
    rw [hrange, List.take_of_length_le hlen.le]
    change (if (l.any fun r => !inSram (16 * r.word) && (s.withFab f).bulk.copying.contains (pageOf (16 * r.word))) = true then
      _ else if ((s.withFab f).writeRefusals (pktDstPart pkt) l).isEmpty = true then _ else _) = _
    rw [hfree, State.writeRefusals_none hacc]
    rfl
  · exact hwrote.of_withFab

end

end Sys2Proof.Machine
end

section
/-! The settlement of O45. -/

open Sys2Proof Sys2Proof.Machine

/-- Settles O45: a WRITE's bytes become one request for each word of its range, all of which are written; an answer finds its HAUL.ST,
and a failure frees the unit and faults the Foreman. -/
theorem remoteWrites : Obligations.RemoteWrites := by
  unfold Obligations.RemoteWrites
  refine fun s hi => ⟨fun n pkt s' ht => ⟨write_outside ht, ?write⟩, ?ack, ?reject, ?waits⟩
  case write =>
    intro hr _ hlen hs hfe ha hc
    obtain ⟨t, u, hexec, hmem, hmarks, hwrote⟩ := write_performed ht hi hr hlen hs hfe ha hc
    rw [← hlen]
    refine ⟨t, hexec, hmem ▸ hwrote.mread_bytes, fun a haout => hmem ▸ hwrote.mget_outside haout, fun h0 w hw => ?_,
      fun hp w hw => ?_⟩
    · rw [State.full, State.mark_congr hmarks]
      exact hwrote.full_bytes (by rw [h0]; rfl) hw
    · rw [State.mark_congr hmarks]
      exact hwrote.poison_bytes hp hw
  case ack => exact fun n pkt s' b r ht ha hrun => ⟨ack_done ht ha, ack_more ht ha hrun⟩
  case reject => exact fun n pkt s' b r ht ha => reject_faults ht ha
  case waits =>
    intro b u r hact hne
    refine ⟨fun h2 => ?_, fun h1 => ?_⟩
    · obtain ⟨hnever, hlate⟩ := fabricAckTimeout_remote hact hne h2
      exact ⟨hnever, fun h => ⟨_, hlate h, State.failActive_ends hact _⟩⟩
    · obtain ⟨hdone, hrefused⟩ := hostFlushComplete_remote hact hne h1
      obtain ⟨hnever, hlate⟩ := hostAckTimeout_remote hact hne h1
      obtain ⟨-, -, hu⟩ := State.running_of_active hact
      exact ⟨fun d => completes_iff.mpr ⟨_, hdone d, hu ▸ s.remoteDone_over b r⟩, ⟨_, hrefused, State.failActive_ends hact _⟩,
        hnever, fun h => ⟨_, hlate h, State.failActive_ends hact _⟩⟩

end

section
/-!
SUPPORT. Registers and their fields as a write leaves them, whatever the form of the table that holds them.
-/

namespace Sys2Proof.Machine

section
variable (s : State)

/-- A register written is read back, and every other stands. -/
theorem State.reg_setReg (j k : Nat) (v : Word) : (s.setReg j v).reg k = if j = k then v else s.reg k := by
  split
  · next h => subst h; exact tget_tset_same _ _ _ _
  · next h => exact State.setReg_other _ _ _ _ h

theorem State.rf_setRf_same (k : Nat) (f : Fld) (v : Nat) (hf : f.lo + f.w ≤ 64) : (s.setRf k f v).rf k f = v % 2 ^ f.w := by
  rw [State.rf, State.setRf, State.reg_setReg, if_pos rfl, fld_setFld_same _ _ _ _ hf]

theorem State.rf_setRf_beside (k : Nat) {f g : Fld} (v : Nat) (hfg : f.lo + f.w ≤ g.lo ∨ g.lo + g.w ≤ f.lo)
    (hg : g.lo + g.w ≤ 64) : (s.setRf k f v).rf k g = s.rf k g := by
  rw [State.rf, State.setRf, State.reg_setReg, if_pos rfl, fld_setFld_beside _ _ hfg hg, State.rf]

theorem State.rf_setReg_other {j k : Nat} (v : Word) (f : Fld) (h : j ≠ k) : (s.setReg j v).rf k f = s.rf k f := by
  rw [State.rf, State.setReg_other _ _ _ _ h, State.rf]

theorem State.rf_setRf_other {j k : Nat} (f g : Fld) (v : Nat) (h : j ≠ k) : (s.setRf j f v).rf k g = s.rf k g :=
  s.rf_setReg_other _ _ h

/-- A one-bit field written is read back. -/
theorem State.rb_setRb_same (k : Nat) (f : Fld) (v : Bool) (hf : f.lo + f.w ≤ 64) (hw : 0 < f.w) : (s.setRb k f v).rb k f = v := by
  have h1 : 1 % 2 ^ f.w = 1 := Nat.mod_eq_of_lt (Nat.one_lt_two_pow hw.ne')
  rw [State.rb, State.setRb, State.rf_setRf_same _ _ _ _ hf]
  cases v <;> simp [h1]

theorem State.rf_setRb_beside (k : Nat) {f g : Fld} (v : Bool) (hfg : f.lo + f.w ≤ g.lo ∨ g.lo + g.w ≤ f.lo)
    (hg : g.lo + g.w ≤ 64) : (s.setRb k f v).rf k g = s.rf k g := s.rf_setRf_beside k _ hfg hg

theorem State.rb_setRf_beside (k : Nat) {f g : Fld} (v : Nat) (hfg : f.lo + f.w ≤ g.lo ∨ g.lo + g.w ≤ f.lo)
    (hg : g.lo + g.w ≤ 64) : (s.setRf k f v).rb k g = s.rb k g := by rw [State.rb, s.rf_setRf_beside k _ hfg hg, State.rb]

theorem State.rb_setRb_beside (k : Nat) {f g : Fld} (v : Bool) (hfg : f.lo + f.w ≤ g.lo ∨ g.lo + g.w ≤ f.lo)
    (hg : g.lo + g.w ≤ 64) : (s.setRb k f v).rb k g = s.rb k g := s.rb_setRf_beside k _ hfg hg

end

end Sys2Proof.Machine
end

section
/-! SUPPORT. Protection sets: arming, releasing, breaking, and the copies they record (R260-R263, R268). -/

namespace Sys2Proof.Machine

section
variable {s : State} {p : Part}

theorem State.cow_onCow_same (s : State) (p : Part) (n : Fin 4) (f : CowSet → CowSet) : (s.onCow p n f).cow p n = f (s.cow p n) := by
  simp [State.cow, State.onCow, State.onBulk]

theorem State.cow_onCow_other (s : State) (p : Part) {m n : Fin 4} (f : CowSet → CowSet) (h : m ≠ n) :
    (s.onCow p m f).cow p n = s.cow p n := by
  have hne : (State.cowIdx p m).val ≠ (State.cowIdx p n).val := by
    simp only [State.cowIdx]
    exact fun e => h (Fin.ext (by omega))
  simp [State.cow, State.onCow, State.onBulk, Vector.getElem_set_ne _ _ hne]

/-! ## ARM and RELEASE -/

theorem State.writeCowCtl_arm {n : Fin 4} (hn : n ≠ 0) : s.writeCowCtl p n 1 = s.armSet p n := by
  rw [State.writeCowCtl, if_neg hn, if_neg (by decide), if_pos (by decide)]

theorem State.writeCowCtl_release {n : Fin 4} (hn : n ≠ 0) : s.writeCowCtl p n 2 = s.releaseSet p n := by
  rw [State.writeCowCtl, if_neg hn, if_pos (by decide)]

/-- ARM of a set that is not armed: it is armed, not broken, and holds no copy (R260). -/
theorem arm_arms {n : Fin 4} (hn : n ≠ 0) (h : s.armed p n = false) : ∃ t, exec (.arm p n) s = .next t ∧ t.armed p n = true
    ∧ t.broken p n = false ∧ (t.cow p n).copies = [] ∧ t.rf (K.COW_CTL p n) F.COW_CTL_COPIED = 0 ∧ t.mem = s.mem := by
  let u := (s.setReg (K.COW_CTL p n) 0).setRb (K.COW_CTL p n) F.COW_CTL_ARM true
  have hu : u.reg (K.COW_CTL p n) = setFld 0 0 1 1 := by
    simp only [u, State.setRb, State.setRf, State.reg_setReg, if_true]
    rfl
  refine ⟨u.onCow p n fun c => { c with copies := [] }, ?_, ?_, ?_, ?_, ?_, ?_⟩
  · change Host.Outcome.next (s.writeCowCtl p n 1) = _
    rw [State.writeCowCtl_arm hn, State.armSet, h, if_neg Bool.false_ne_true]
  · change (fld (u.reg (K.COW_CTL p n)) 0 1 != 0) = true
    rw [hu]; decide
  · change (fld (u.reg (K.COW_CTL p n)) 2 1 != 0) = false
    rw [hu]; decide
  · rw [State.cow_onCow_same]
  · change fld (u.reg (K.COW_CTL p n)) 16 20 = 0
    rw [hu]; decide
  · simp [u]

/-- RELEASE of an armed set reads 1 until it takes effect (R263). -/
theorem release_reads {n : Fin 4} (hn : n ≠ 0) (h : s.armed p n = true) : ∃ t, exec (.release p n) s = .next t
    ∧ t.rb (K.COW_CTL p n) F.COW_CTL_RELEASE = true ∧ t.armed p n = true ∧ t.mem = s.mem := by
  refine ⟨s.setRb (K.COW_CTL p n) F.COW_CTL_RELEASE true, ?_, s.rb_setRb_same _ _ _ (by decide) (by decide), ?_, by simp⟩
  · change Host.Outcome.next (s.writeCowCtl p n 2) = _
    rw [State.writeCowCtl_release hn, State.releaseSet, if_pos h]
  · exact (s.rb_setRb_beside _ _ (by decide) (by decide)).trans h

/-- A release that takes effect: the set holds nothing (R263). -/
theorem cowReleaseEffect_frees {n : Fin 4} (h : s.rb (K.COW_CTL p n) F.COW_CTL_RELEASE = true) :
    ∃ t, exec (.cowReleaseEffect p n) s = .next t ∧ t.armed p n = false ∧ t.reg (K.COW_CTL p n) = 0
      ∧ (t.cow p n).copies = [] ∧ t.mem = s.mem := by
  have hreg : (s.freeSet p n).reg (K.COW_CTL p n) = 0 := (s.reg_setReg _ _ _).trans (if_pos rfl)
  refine ⟨s.freeSet p n, ?_, ?_, hreg, ?_, by simp [State.freeSet]⟩
  · change Host.Outcome.next (if _ then _ else _) = _
    rw [if_pos h]
  · rw [State.armed, State.rb, State.rf, hreg]; decide
  · rw [State.freeSet, State.cow_onCow_same]

end

end Sys2Proof.Machine
end

section
/-! SUPPORT. The first write of a protected page: its bytes copied into a reserve page, or its sets broken (R261, R262). -/

namespace Sys2Proof.Machine

section
variable {s : State} {p : Part}

/-! ## A page copied -/

/-- The bytes of a page copied are those of its source (R261). -/
theorem State.copyPage_mget_inside (s : State) (src dst k : Nat) (hm : Memory.wf s.mem) (hk : k < pageSize) :
    mget (s.copyPage src dst).mem (bulkBase + dst * pageSize + k) = mget s.mem (bulkBase + src * pageSize + k) := by
  let a := bulkBase + src * pageSize
  let d := bulkBase + dst * pageSize
  let inPage : Nat → Bool := fun x => decide (a ≤ x) && decide (x < a + pageSize)
  let g : Nat → Nat := fun x => d + (x - a)
  have hf := twf_filter (fun e => inPage e.1) hm
  have hu := twf_tclear d (d + pageSize) hm
  have hin {e : Nat × Byte} (he : e ∈ s.mem.filter fun e => inPage e.1) : a ≤ e.1 ∧ e.1 < a + pageSize := by
    simpa [inPage] using (List.mem_filter.mp he).2
  change tget 0 ((s.mem.filter fun e => inPage e.1).foldl (fun m e => tset 0 m (g e.1) e.2) (tclear s.mem d (d + pageSize)))
    (d + k) = tget 0 s.mem (a + k)
  by_cases hlisted : ∃ e ∈ s.mem.filter (fun e => inPage e.1), e.1 = a + k
  · obtain ⟨e, he, hek⟩ := hlisted
    have hplace : d + k = g e.1 := by simp only [g]; omega
    rw [hplace, ← hek, tget_foldl_inside 0 g _ _ hu hf.1 (fun x hx y hy h => ?_) he, tget_mem 0 hm.1 (List.mem_filter.mp he).1]
    have := hin hx; have := hin hy
    simp only [g] at h
    omega
  · have hat : inPage (a + k) = true := by
      simp only [inPage, Bool.and_eq_true, decide_eq_true_eq]
      omega
    have hnone : tget 0 s.mem (a + k) = 0 := by
      rw [← if_pos (c := inPage (a + k) = true) (t := tget 0 s.mem (a + k)) (e := 0) hat, ← tget_filter 0 s.mem inPage]
      exact tget_unlisted _ _ _ fun e he hek => hlisted ⟨e, he, hek⟩
    rw [tget_foldl_outside 0 g _ _ _ hu fun e he h => hlisted ⟨e, he, by have := hin he; simp only [g] at h; omega⟩,
      tget_tclear, if_pos (by omega), hnone]

/-- What notes a copy in a set (R261). -/
def State.noteCopy (p : Part) (page r : Nat) (s : State) (n : Fin 4) : State :=
  (s.onCow p n fun c => { c with copies := tset 0 c.copies page (r + 1) }).setRf (K.COW_CTL p n) F.COW_CTL_COPIED
    (s.rf (K.COW_CTL p n) F.COW_CTL_COPIED + 1)

theorem State.noteCopy_bulk (page r : Nat) (s : State) (n : Fin 4) :
    (s.noteCopy p page r n).bulk = (s.onCow p n fun c => { c with copies := tset 0 c.copies page (r + 1) }).bulk := by
  rw [State.noteCopy, State.setRf_bulk]

theorem State.cow_of_bulk {t : State} (h : t.bulk = s.bulk) (n : Fin 4) : t.cow p n = s.cow p n := by rw [State.cow, State.cow, h]

/-- A copy once noted is not taken back by another. -/
theorem State.copyOf_noteCopies (page r : Nat) (l : List (Fin 4)) (s : State) {n : Fin 4}
    (h : n ∈ l ∨ (s.cow p n).copyOf page = r + 1) : ((l.foldl (State.noteCopy p page r) s).cow p n).copyOf page = r + 1 := by
  induction l generalizing s with
  | nil => simpa using h
  | cons m l ih =>
    refine ih _ ?_
    rw [State.cow_of_bulk (State.noteCopy_bulk ..)]
    by_cases hm : m = n
    · subst hm
      exact .inr (by rw [State.cow_onCow_same, CowSet.copyOf, tget_tset_same])
    · rw [State.cow_onCow_other _ _ _ hm]
      exact h.imp_left fun h => (List.mem_cons.mp h).resolve_left (Ne.symm hm)

theorem State.noteCopies_mem (page r : Nat) (l : List (Fin 4)) (s : State) : (l.foldl (State.noteCopy p page r) s).mem = s.mem :=
  foldl_mem (fun s n => by simp [State.noteCopy]) l s

/-- The page copied, with its slots charged (R254, R261). -/
def State.copyCharged (s : State) (p : Part) (cls page r : Nat) : State :=
  let one (n : Nat) (s : State) (k : Fin 8) : State :=
    ((s.countH (256 + 16 * k.val + 5) 1).countH (256 + 16 * k.val + 6) n).slotsUsed k cls n (512 * n)
  let s := s.copyPage page r
  if s.rb (K.BMC_PART p) F.BMC_PART_IMODE then (List.finRange 8).foldl (one 1024) s
    else one 8192 s (s.stackNo p (bulkBase + page * pageSize))

theorem State.copyCharged_mem (s : State) (p : Part) (cls page r : Nat) : (s.copyCharged p cls page r).mem = (s.copyPage page r).mem := by
  unfold State.copyCharged
  dsimp only
  rw [apply_ite State.mem, foldl_mem fun s k => by simp]
  simp

theorem State.protect_copies {cls page r : Nat} (hneed : s.needCopy p page ≠ []) (hr : s.freeReserve p = some r) :
    s.protect p cls page = (s.needCopy p page).foldl (State.noteCopy p page r) (s.copyCharged p cls page r) := by
  rw [State.protect, if_neg (by simpa using hneed), hr]
  rfl

theorem State.protect_breaks {cls page : Nat} (hneed : s.needCopy p page ≠ []) (hr : s.freeReserve p = none) :
    s.protect p cls page = (s.needCopy p page).foldl (fun s n => s.breakSet p n) s := by
  rw [State.protect, if_neg (by simpa using hneed), hr]

/-! ## A set broken -/

theorem cowCtl_inj {p : Part} {m n : Fin 4} (h : K.COW_CTL p m = K.COW_CTL p n) : m = n := by
  simp only [K.COW_CTL] at h
  exact Fin.ext (by omega)

theorem State.emit_reg (s : State) (i : RecInfo) {k : Nat} (hk : ∀ b : Bid, K.BENCH_CTR b (256 + i.event) ≠ k) :
    (s.emit i).reg k = s.reg k := by
  unfold State.emit
  dsimp only
  split
  · rw [State.countB, State.count, State.setReg_other _ _ _ _ (hk _)]
    split <;> rfl
  · split <;> rfl

theorem State.emit_hub_reg (s : State) (i : RecInfo) (k : Nat) (hi : i.bench = 16) : (s.emit i).reg k = s.reg k := by
  unfold State.emit
  dsimp only
  rw [if_neg (by omega)]
  split <;> rfl

/-- A set that breaks reads so, and no set's bit is cleared by it (R262). -/
theorem State.breakSet_broken (s : State) (p : Part) (m n : Fin 4) (h : m = n ∨ s.broken p n = true) :
    (s.breakSet p m).broken p n = true := by
  rw [State.breakSet]
  split
  · next hb => exact h.elim (fun e => e ▸ hb) id
  · have hset : (s.setRb (K.COW_CTL p m) F.COW_CTL_BROKEN true).broken p n = true := by
      by_cases hmn : m = n
      · subst hmn
        exact s.rb_setRb_same _ _ _ (by decide) (by decide)
      · rw [State.broken, State.setRb, State.setRf, State.setReg_rb_other _ _ fun e => hmn (cowCtl_inj e)]
        exact h.resolve_left hmn
    have hmir (u : State) : (u.mirEnd p false).reg (K.COW_CTL p n) = u.reg (K.COW_CTL p n) := by
      have hne : K.MIR_CTL p ≠ K.COW_CTL p n := by simp only [K.MIR_CTL, K.COW_CTL]; omega
      simp only [State.mirEnd, State.setRb, State.setRf, State.reg_setReg, if_neg hne]
      rfl
    rw [State.broken, State.rb, State.rf] at hset ⊢
    rw [State.emit_hub_reg _ _ _ rfl]
    split
    · split
      · rw [hmir]; exact hset
      · exact hset
    · exact hset

theorem State.breakSets_broken (l : List (Fin 4)) (s : State) {n : Fin 4} (h : n ∈ l ∨ s.broken p n = true) :
    (l.foldl (fun s n => s.breakSet p n) s).broken p n = true := by
  induction l generalizing s with
  | nil => simpa using h
  | cons m l ih =>
    refine ih _ ?_
    by_cases hm : m = n
    · exact .inr (s.breakSet_broken p m n (.inl hm))
    · exact h.imp (fun h => (List.mem_cons.mp h).resolve_left (Ne.symm hm)) fun h => s.breakSet_broken p m n (.inr h)

/-! ## COW_PAGE_COPY -/

/-- The partitions and classes of the writes that wait to write a page (R261). -/
def State.pageWriters (s : State) (page : Nat) : List (Part × Nat) :=
  allBids.flatMap fun b => ((s.wants b).filter fun x =>
    !x.2.isRead && !inSram x.2.addr && pageOf x.2.addr == page && s.mayAccess ((s.partOf b).getD 0) x.2.addr).map fun x =>
      ((s.partOf b).getD 0, x.2.memClass)

theorem mem_allBids (b : Bid) : b ∈ allBids := List.mem_finRange b

/-- An address of bulk memory that a partition reaches lies in a row of it. -/
theorem State.owner_of_mayAccess {a : Nat} (hs : inSram a = false) (h : s.mayAccess p a = true) :
    bulkBase ≤ a ∧ s.rowOwner (rowOf a) = some p := by
  rw [State.mayAccess, State.inWindow, hs, if_neg Bool.false_ne_true] at h
  simp only [Bool.and_eq_true, beq_iff_eq, State.inBulk, decide_eq_true_eq] at h
  exact ⟨h.1.1.1.1, h.1.1.2⟩

theorem rowOf_eq_pageOf {a : Nat} : rowOf a = pageOf a / 4096 := by
  rw [rowOf, pageOf, Nat.div_div_eq_div_mul]; rfl

/-- The writes of a page are its owner's. -/
theorem State.pageWriters_part {page a : Nat} (hs : inSram a = false) (hpage : pageOf a = page) (ha : s.mayAccess p a = true) :
    ∀ w ∈ s.pageWriters page, w.1 = p := by
  intro w hw
  obtain ⟨b, -, hw⟩ := List.mem_flatMap.mp hw
  obtain ⟨x, hx, rfl⟩ := List.mem_map.mp hw
  obtain ⟨hx, hcond⟩ := List.mem_filter.mp hx
  simp only [Bool.and_eq_true, Bool.not_eq_true', beq_iff_eq] at hcond
  obtain ⟨⟨⟨-, hxs⟩, hxpage⟩, hxa⟩ := hcond
  have h1 := (State.owner_of_mayAccess hxs hxa).2
  have h2 := (State.owner_of_mayAccess hs ha).2
  rw [rowOf_eq_pageOf, hxpage] at h1
  rw [rowOf_eq_pageOf, hpage] at h2
  exact Option.some.inj (h1.symm.trans h2)

theorem State.pageWriters_ne {b : Bid} {x : Port × Ask} {page : Nat} (hb : s.partOf b = some p) (hx : x ∈ s.wants b)
    (hw : x.2.isRead = false) (hs : inSram x.2.addr = false) (hpage : pageOf x.2.addr = page)
    (ha : s.mayAccess p x.2.addr = true) : s.pageWriters page ≠ [] := by
  refine List.ne_nil_of_mem (a := (p, x.2.memClass)) (List.mem_flatMap.mpr ⟨b, mem_allBids b, List.mem_map.mpr ⟨x, ?_, ?_⟩⟩)
  · simp [List.mem_filter, hx, hw, hs, hpage, hb, ha]
  · simp [hb]

/-- The first write of a protected page starts its copy, or breaks its sets (R261, R262). -/
theorem cowPageCopy_protects {b : Bid} {x : Port × Ask} {page : Nat} (hb : s.partOf b = some p) (hx : x ∈ s.wants b)
    (hw : x.2.isRead = false) (hs : inSram x.2.addr = false) (hpage : pageOf x.2.addr = page)
    (ha : s.mayAccess p x.2.addr = true) (hneed : s.needCopy p page ≠ []) (hcopy : page ∉ s.bulk.copying) :
    ∃ cls, exec (.cowPageCopy page) s = .next
      (if (s.freeReserve p).isSome then (s.protect p cls page).onBulk fun b => { b with copying := b.copying ++ [page] }
        else s.protect p cls page) := by
  rcases hl : s.pageWriters page with _ | ⟨⟨q, cls⟩, l⟩
  · exact absurd hl (State.pageWriters_ne hb hx hw hs hpage ha)
  · have hq : q = p := State.pageWriters_part hs hpage ha (q, cls) (by rw [hl]; exact List.mem_cons_self)
    subst hq
    refine ⟨cls, ?_⟩
    change execCowPageCopy page s = _
    have hhead : (s.pageWriters page).head? = some (q, cls) := by rw [hl]; rfl
    unfold State.pageWriters at hhead
    rw [execCowPageCopy, hhead]
    dsimp only
    rw [if_neg (by simpa [hneed] using hcopy)]

end

end Sys2Proof.Machine
end

section
/-! SUPPORT. View reads: those of a snapshot mirror and those of a conversion of set 0 (R262, R406). -/

namespace Sys2Proof.Machine

section
variable {s : State} {p : Part}

/-! ## A mirror's next page (R406) -/

@[simp] theorem State.refuseAt_mem (s : State) (p : Part) (op : Option OpInfo) (a : Nat) : (s.refuseAt p op a).mem = s.mem := by
  rw [State.refuseAt, State.unmapped]
  split <;> simp

theorem State.decodeRange_mem (s : State) (lo hi : Nat) : (s.decodeRange lo hi).mem = s.mem :=
  foldl_mem (fun s _ => s.decodeWord_mem _ _) _ _

theorem State.readView_mem (s : State) (p : Part) (n : Fin 4) (page : Nat) : (s.readView p n page).2.mem = s.mem := by
  rw [State.readView]
  dsimp only
  rw [State.decodeRange_mem, foldl_mem fun s u => s.refuseAt_mem _ _ _]

theorem State.sendMir_mem (s : State) (p : Part) (mod op off : Nat) (l : List Byte) : (s.sendMir p mod op off l).mem = s.mem :=
  State.send_mem ..

theorem State.mirPages_mem (l : List (Nat × List Byte)) (s : State) :
    (l.foldl (fun s q => s.sendMir p s.buddy opMirPage q.1 q.2) s).mem = s.mem := by
  induction l generalizing s with
  | nil => rfl
  | cons q l ih => rw [List.foldl_cons, ih, State.sendMir_mem]

theorem State.mirMarks_mem (off : Nat) (bad l : List Nat) (s : State) :
    (l.foldl (fun s i => s.sendMir p s.buddy opMirMarks (off + 4096 * i)
      (toBytes 32 ((bad.filter fun w => w / 256 == i).map fun w => 2 ^ (w % 256)).sum)) s).mem = s.mem := by
  induction l generalizing s with
  | nil => rfl
  | cons i l ih => rw [List.foldl_cons, ih, State.sendMir_mem]

/-- A mirror that goes on sends its next page and changes no memory. -/
theorem State.mirSend_next {n : Fin 4} {tx : MirrorTx} {page : Nat} {rest : List Nat} (htx : s.bulk.tx[p] = some tx)
    (hset : tx.set = n.val) (hbroken : s.broken p n = false) (hlost : s.isLost p s.buddy = false) (htodo : tx.todo = page :: rest) :
    ∃ u : State, s.mirSend p n page = u.setTx p (some { tx with todo := rest, sent := tx.sent ++ [page] }) ∧ u.mem = s.mem := by
  rw [State.mirSend, htx]
  simp only [hset, hbroken, hlost, htodo, ne_eq, not_true, if_false, Bool.or_self, Bool.false_eq_true]
  refine ⟨_, rfl, ?_⟩
  rw [State.setRf_mem, State.countP, State.count_mem, apply_ite State.mem, foldl_mem fun s k => s.slotsUsed_mem _ _ _ _,
    State.slotsUsed_mem, ite_self, State.mirMarks_mem, State.mirPages_mem, State.readView_mem]

/-- A mirror with pages left to send sends no manifest. -/
theorem State.mirManifest_waits {tx : MirrorTx} (htx : s.bulk.tx[p] = some tx) (h : tx.todo ≠ []) : s.mirManifest p = s := by
  rw [State.mirManifest, htx]
  dsimp only
  rw [if_pos (by simp [h])]

theorem pageOf_page (page : Nat) : pageOf (bulkBase + page * pageSize) = page := by
  rw [pageOf, Nat.add_sub_cancel_left, Nat.mul_div_cancel _ (by decide)]

theorem viewRead_mirror {n : Fin 4} {tx : MirrorTx} {page : Nat} {rest : List Nat} (hn : n ≠ 0) (htx : s.bulk.tx[p] = some tx)
    (hset : tx.set = n.val) (hbroken : s.broken p n = false) (hlost : s.isLost p s.buddy = false)
    (hcores : ∀ k < 8, s.hubCore (stackCore k) = true) (htodo : tx.todo = page :: rest) (hrest : rest ≠ []) :
    ∃ t, exec (.viewRead p n (bulkBase + page * pageSize)) s = .next t ∧ t.mem = s.mem
      ∧ t.bulk.tx[p] = some { tx with todo := rest, sent := tx.sent ++ [page] } := by
  obtain ⟨u, hu, hmem⟩ := State.mirSend_next htx hset hbroken hlost htodo
  have htx' : (u.setTx p (some { tx with todo := rest, sent := tx.sent ++ [page] })).bulk.tx[p]
      = some { tx with todo := rest, sent := tx.sent ++ [page] } := by simp [State.setTx, State.onBulk]
  refine ⟨u.setTx p (some { tx with todo := rest, sent := tx.sent ++ [page] }), ?_, hmem, htx'⟩
  change execViewRead p n _ s = _
  rw [execViewRead, if_neg hn, State.mirView, if_pos (by simpa using hcores), pageOf_page, hu,
    State.mirManifest_waits htx' hrest]

/-! ## A conversion's read of set 0 (R262) -/

/-- A port found for a view read has a request. -/
theorem State.portNext_of_exportView {addr : Nat} {b : Bid} {port : Port} (h : s.exportView p addr = some (b, port)) :
    ∃ a, s.portNext b port = some a := by
  obtain ⟨c, -, hc⟩ := List.exists_of_findSome?_eq_some h
  obtain ⟨y, hy, he⟩ := Option.map_eq_some_iff.mp hc
  obtain ⟨q, -, hq⟩ := List.mem_filterMap.mp (List.mem_of_find?_eq_some hy)
  obtain ⟨a, ha, rfl⟩ := Option.map_eq_some_iff.mp hq
  obtain ⟨rfl, rfl⟩ := Prod.mk.inj he
  exact ⟨a, ha⟩

theorem State.portNext_run {b : Bid} {q : Fin 8} {u : Nat} {r : Running} {x : RdReq} {rest : List RdReq} {a : Ask}
    (h : s.portNext b (.run q u) = some a) (hr : (s.bench b).running q u = some r) (hx : r.reads = x :: rest) :
    s.portNext b (.run q u) = some (.rd x) := by
  have hact : s.active b q u = some r := by
    rw [State.active, hr]
    split
    · next hstop =>
      rw [State.portNext, State.active, if_pos hstop] at h
      cases h
    · rfl
  rw [State.portNext, hact]
  dsimp only
  rw [hx]

/-- The word that a view read of set 0 of partition p reads, under its recorded copy (R262). -/
def State.viewWord (s : State) (p : Part) (wn : Nat) : Nat :=
  let c := (s.cow p 0).copyOf (pageOf (16 * wn))
  if c = 0 then wn else (bulkBase + (c - 1) * pageSize + (16 * wn - bulkBase) % pageSize) / 16

/-- A view read of a word of bulk memory: poison where the set is broken, else the word it shows. -/
theorem State.viewRead_bulk {wn : Nat} (hs : inSram (16 * wn) = false) (hup : (s.mark (s.viewWord p wn)).upset = .clean)
    (hpois : (s.mark (s.viewWord p wn)).poison = false) :
    s.viewRead p 0 wn = (if s.broken p 0 = true then ⟨s.word wn, true⟩ else ⟨s.word (s.viewWord p wn), false⟩, s) := by
  rw [State.viewRead]
  split
  · rfl
  · have hw : (if inSram (16 * wn) || decide ((s.cow p 0).copyOf (pageOf (16 * wn)) = 0) then wn
        else (bulkBase + ((s.cow p 0).copyOf (pageOf (16 * wn)) - 1) * pageSize + (16 * wn - bulkBase) % pageSize) / 16)
        = s.viewWord p wn := by simp [State.viewWord, hs]
    dsimp only
    rw [hw, State.decodeWord_clean _ _ hup, hpois]

theorem State.access_view {w : Who} {x : RdReq} (hview : x.view = some 0) (ha : s.mayAccess w.part (16 * x.word) = true)
    (hs : inSram (16 * x.word) = false) (hup : (s.mark (s.viewWord w.part x.word)).upset = .clean)
    (hpois : (s.mark (s.viewWord w.part x.word)).poison = false) :
    s.access w x = if s.broken w.part 0 = true then .ok ⟨s.word x.word, true⟩ (s.consumed w x.word)
      else .ok ⟨s.word (s.viewWord w.part x.word), false⟩ s := by
  rw [State.access, ha, hview]
  simp only [Bool.not_true, Bool.false_eq_true, if_false, hs, State.viewRead_bulk hs hup hpois]
  split <;> simp

theorem State.portWho_part {b : Bid} {q : Fin 8} {u : Nat} (hb : s.partOf b = some p) : (s.portWho b (.run q u)).part = p := by
  rw [State.portWho, hb]
  split
  · rw [Entry.who, hb]; rfl
  · rfl

@[simp] theorem State.consumed_mem (s : State) (w : Who) (n : Nat) : (s.consumed w n).mem = s.mem := by
  rw [State.consumed]
  dsimp only
  rw [State.errVote_mem]
  split <;> simp

/-- What an instruction holds after a read of it brought a word. -/
def Running.read (r : Running) (wn : Nat) (g : Got) : Running :=
  { r with reads := r.reads.drop 1, got := tput r.got wn g, parked := false }

theorem Bench.running_map {x : Bench} {q : Fin 8} {u : Nat} {r r' : Running} (hr : x.running q u = some r) (hq : r'.q = q)
    (hu : r'.unit = u) : ({ x with run := x.run.map fun y => if y.q == r'.q && y.unit == r'.unit then r' else y } : Bench).running q u
      = some r' := by
  rw [Bench.running] at hr ⊢
  dsimp only
  subst hq hu
  generalize x.run = runs at hr ⊢
  induction runs with
  | nil => cases hr
  | cons y l ih =>
    rw [List.map_cons]
    by_cases hy : (y.q == r'.q && y.unit == r'.unit) = true
    · simp [hy]
    · rw [List.find?_cons_of_neg (by simpa using hy)] at hr
      rw [if_neg hy, List.find?_cons_of_neg (by simpa using hy)]
      exact ih hr

/-- A read of a conversion that a view read performs. -/
theorem State.portGot_run {b : Bid} {u : Nat} {r : Running} {plan : List RdReq} {x : RdReq} {g : Got}
    (hr : (s.bench b).running 4 u = some r) : (s.portGot b (.run 4 u) plan x g).mem = s.mem
      ∧ ((s.portGot b (.run 4 u) plan x g).bench b).running 4 u = some (r.read x.word g) := by
  obtain ⟨hq, hu⟩ : r.q = 4 ∧ r.unit = u := by simpa using List.find?_some hr
  have hgot : s.portGot b (.run 4 u) plan x g = s.setRunning b (r.read x.word g) := by
    rw [State.portGot, hr]
    dsimp only
    rw [if_neg (by simp [Running.indexed, hq])]
    rfl
  rw [hgot]
  refine ⟨rfl, ?_⟩
  rw [State.setRunning, State.onBench_bench_same]
  exact Bench.running_map hr hq hu

theorem viewRead_export {b : Bid} {u addr : Nat} {r : Running} {x : RdReq} {rest : List RdReq}
    (hport : s.exportView p addr = some (b, .run 4 u)) (hb : s.partOf b = some p) (hr : (s.bench b).running 4 u = some r)
    (hreads : r.reads = x :: rest) (hview : x.view = some 0) (ha : s.mayAccess p (16 * x.word) = true)
    (hs : inSram (16 * x.word) = false) (hup : (s.mark (s.viewWord p x.word)).upset = .clean)
    (hpois : (s.mark (s.viewWord p x.word)).poison = false) :
    ∃ t r', exec (.viewRead p 0 addr) s = .next t ∧ t.mem = s.mem ∧ (t.bench b).running 4 u = some r' ∧ r'.reads = rest
      ∧ (s.broken p 0 = false → tget ⟨0, false⟩ r'.got x.word = ⟨s.word (s.viewWord p x.word), false⟩)
      ∧ (s.broken p 0 = true → (tget ⟨0, false⟩ r'.got x.word).poison = true) := by
  obtain ⟨a, hnext⟩ := State.portNext_of_exportView hport
  have hrd := State.portNext_run hnext hr hreads
  have hpart := State.portWho_part (q := 4) (u := u) hb
  have hacc := State.access_view (s := s) (w := s.portWho b (.run 4 u)) hview (hpart ▸ ha) hs (hpart ▸ hup) (hpart ▸ hpois)
  rw [hpart] at hacc
  have hexec : exec (.viewRead p 0 addr) s = .next (s.portStep b (.run 4 u)).2 := by
    change execViewRead p 0 addr s = _
    rw [execViewRead, if_pos rfl, hport]
  have hdrop (g : Got) : (r.read x.word g).reads = rest := by rw [Running.read, hreads]; rfl
  unfold State.portStep at hexec
  rw [hrd] at hexec
  dsimp only at hexec
  by_cases hbroken : s.broken p 0 = true
  · rw [hacc, if_pos hbroken] at hexec
    have hrun : ((s.consumed (s.portWho b (.run 4 u)) x.word).bench b).running 4 u = some r :=
      (State.running_of_going (State.consumed_going _ _ _) b 4 u).trans hr
    obtain ⟨hmem, hrun'⟩ := State.portGot_run (plan := []) (x := x) (g := ⟨s.word x.word, true⟩) hrun
    refine ⟨_, _, hexec, hmem.trans (State.consumed_mem ..), hrun', hdrop _, fun h => absurd hbroken (by simp [h]), fun _ => ?_⟩
    rw [Running.read, tget_tput_same]
  · rw [hacc, if_neg hbroken] at hexec
    obtain ⟨hmem, hrun'⟩ := State.portGot_run (plan := []) (x := x) (g := ⟨s.word (s.viewWord p x.word), false⟩) hr
    refine ⟨_, _, hexec, hmem, hrun', hdrop _, fun _ => ?_, fun h => absurd h hbroken⟩
    rw [Running.read, tget_tput_same]

end

end Sys2Proof.Machine
end

section
/-! The settlement of O30. -/

open Sys2Proof Sys2Proof.Machine

/-- Settles O30: ARM and RELEASE act on COW_CTL, the first write of a page copies it or breaks its sets, and a view read is the next
request of its port or the next page of its mirror. -/
theorem protectedPages : Obligations.ProtectedPages := by
  unfold Obligations.ProtectedPages
  refine fun s p hi => ⟨fun n hn => ⟨arm_arms hn, release_reads hn, cowReleaseEffect_frees, ?mirror⟩, ?write,
    fun page => ⟨_, rfl, by simp [State.onBulk], rfl, rfl⟩, ?view⟩
  case mirror => exact fun tx page rest htx hset hb hl hc ht hr => viewRead_mirror hn htx hset hb hl hc ht hr
  case write =>
    intro b x page hb hx hw hs hpage ha hneed hcopy _
    obtain ⟨cls, hexec⟩ := cowPageCopy_protects hb hx hw hs hpage ha hneed hcopy
    refine ⟨fun r hr => ?_, fun hr => ?_⟩
    · rw [hr, Option.isSome_some, if_pos rfl, State.protect_copies hneed hr] at hexec
      refine ⟨_, hexec, ?_, fun n hn => State.copyOf_noteCopies page r _ _ (.inl hn), fun k hk => ?_⟩
      · rw [← State.protect_copies (cls := cls) hneed hr]
        exact congrArg (· ++ [page]) ((Accessed.refl s).protect p cls page).copying
      · rw [State.onBulk_mem, State.noteCopies_mem, State.copyCharged_mem, State.copyPage_mget_inside _ _ _ _ hi.1.1 hk]
    · rw [hr, Option.isSome_none, if_neg Bool.false_ne_true] at hexec
      refine ⟨_, hexec, ((Accessed.refl s).protect p cls page).copying, ?_, fun n hn => ?_⟩
      · rw [State.protect_breaks hneed hr, foldl_mem fun s n => s.breakSet_mem p n]
      · rw [State.protect_breaks hneed hr]
        exact State.breakSets_broken _ _ (.inl hn)
  case view =>
    intro b u addr r x rest hport hb hr hreads hview _ ha hs c wn hup hpois
    exact viewRead_export hport hb hr hreads hview ha hs hup hpois

end

section
/-! SUPPORT. The owner of a bulk row: when a write of it is refused, and what one in force leaves (R253). -/

namespace Sys2Proof.Machine

section
variable {s : State} {r : Nat} {v : Word}

theorem State.rowsInstalled_le (s : State) : s.rowsInstalled ≤ 96 := by
  unfold State.rowsInstalled
  split
  · split <;> decide
  · decide

theorem bmcRow_inj {r r' : Nat} (h : r ≠ r') : K.BMC_ROW r ≠ K.BMC_ROW r' := by
  simp only [K.BMC_ROW]; omega

theorem bmcRow_ne_bmcPart (hr : r < 96) (p : Part) : K.BMC_ROW r ≠ K.BMC_PART p := by
  simp only [K.BMC_ROW, K.BMC_PART]; omega

/-- The three causes for which a row's change of owner is refused (R253, R408). -/
theorem State.rowBad_iff : s.rowBad r v = true ↔
    (∃ p, (s.rowOwner r = some p ∨ rowImage v = some p) ∧ s.rowsFree p = false)
      ∨ (∃ p, s.rowOwner r = some p ∧ rowImage v ≠ some p ∧ s.poolIn p r = true)
      ∨ ((rowImage v).isSome = true ∧ s.mirrorRow r = true) := by
  have hfree : ((s.rowOwner r).toList ++ (rowImage v).toList).any (fun p => !s.rowsFree p) = true
      ↔ ∃ p, (s.rowOwner r = some p ∨ rowImage v = some p) ∧ s.rowsFree p = false := by
    simp only [List.any_eq_true, List.mem_append, Option.mem_toList, Bool.not_eq_true']
  have hpool : (match s.rowOwner r with | some p => rowImage v != some p && s.poolIn p r | none => false) = true
      ↔ ∃ p, s.rowOwner r = some p ∧ rowImage v ≠ some p ∧ s.poolIn p r = true := by
    cases s.rowOwner r with
    | none => simp
    | some p => simp
  unfold State.rowBad
  simp only [Bool.or_eq_true, hfree, Bool.and_eq_true, or_assoc]
  exact or_congr Iff.rfl (or_congr hpool Iff.rfl)

/-- A write that changes the owner and clears no flag: refused, held until the row is zeroed, or in force. -/
theorem State.writeBmcRow_eq (hr : r < s.rowsInstalled) (hc : v.toNat / 8 % 2 = 0)
    (hne : v.toNat % 8 ≠ (s.reg (K.BMC_ROW r)).toNat % 8) :
    s.writeBmcRow r v = if s.rowBad r v then s.setRb (K.BMC_ROW r) F.BMC_ROW_REFUSED true
      else if (s.rowOwner r).isSome && rowImage v != s.rowOwner r then
        s.onBulk fun b => { b with zeroing := (b.zeroing.filter fun e => e.1 != r) ++ [(r, v)] }
      else s.reseat (s.setRow r v) := by
  have hbit : bit v 3 = false := by
    rw [bit, bit_eq, decide_eq_false_iff_not]
    omega
  have hfld : fld v 0 3 ≠ fld (s.reg (K.BMC_ROW r)) 0 3 := by rwa [fld_low, fld_low]
  rw [State.writeBmcRow, if_neg (by omega)]
  simp only [hbit, Bool.false_eq_true, if_false, if_neg hfld]

/-! ## A row's owner in force -/

theorem State.setRow_reg_other {k : Nat} (h : K.BMC_ROW r ≠ k) : (s.setRow r v).reg k = s.reg k := by
  rw [State.setRow, State.setRf, State.reg_setReg, if_neg h, State.setRf, State.reg_setReg, if_neg h]

theorem State.setRow_owner : (s.setRow r v).rf (K.BMC_ROW r) F.BMC_ROW_OWNER = v.toNat % 4 := by
  rw [State.setRow, State.rf_setRf_beside _ _ _ (by decide) (by decide), State.rf_setRf_same _ _ _ _ (by decide), fld_low]
  exact Nat.mod_mod _ 4

theorem State.setRow_valid : (s.setRow r v).rf (K.BMC_ROW r) F.BMC_ROW_VALID = v.toNat / 4 % 2 := by
  rw [State.setRow, State.rf_setRf_same _ _ _ _ (by decide)]
  simp [fld, bits, F.BMC_ROW_VALID, Nat.shiftRight_eq_div_pow]

@[simp] theorem State.setRow_mem : (s.setRow r v).mem = s.mem := by simp [State.setRow]

theorem State.setRow_rowsInstalled : (s.setRow r v).rowsInstalled = s.rowsInstalled := by
  have hm : (s.setRow r v).mgmt = s.mgmt := rfl
  simp only [State.rowsInstalled, State.buildRec, hm]

theorem State.setRow_rowOwner_same (hr : r < s.rowsInstalled) : (s.setRow r v).rowOwner r = rowImage v := by
  have hv : (s.setRow r v).rb (K.BMC_ROW r) F.BMC_ROW_VALID = bit v 2 := by
    rw [State.rb, State.setRow_valid, bit, bit_eq, show 2 ^ 2 = 4 from rfl]
    obtain h | h := Nat.mod_two_eq_zero_or_one (v.toNat / 4) <;> rw [h] <;> rfl
  rw [State.rowOwner, rowImage]
  by_cases hb : bit v 2 = true
  · rw [if_pos ⟨hr, hv.trans hb⟩, if_pos hb]
    refine congrArg some (Fin.ext ?_)
    show State.rf _ _ _ % 4 = fld v 0 2 % 4
    rw [State.setRow_owner, fld_low]
    rfl
  · rw [if_neg fun h => hb (hv.symm.trans h.2), if_neg hb]

theorem State.setRow_rowOwner_other {r' : Nat} (h : r ≠ r') : (s.setRow r v).rowOwner r' = s.rowOwner r' := by
  have hreg := State.setRow_reg_other (s := s) (v := v) (bmcRow_inj h)
  have hrf (f : Fld) : (s.setRow r v).rf (K.BMC_ROW r') f = s.rf (K.BMC_ROW r') f := by rw [State.rf, hreg, State.rf]
  unfold State.rowOwner State.rb
  simp only [State.setRow_rowsInstalled, hrf]

/-- A row that had no owner, given to a partition without interleaving: every row keeps its order. -/
theorem State.setRow_rowInter (hr : r < s.rowsInstalled) (hold : s.rowOwner r = none)
    (hnew : ∀ p, rowImage v = some p → s.rb (K.BMC_PART p) F.BMC_PART_IMODE = false) (r' : Nat) :
    (s.setRow r v).rowInter r' = s.rowInter r' := by
  have hpart (p : Part) : (s.setRow r v).rb (K.BMC_PART p) F.BMC_PART_IMODE = s.rb (K.BMC_PART p) F.BMC_PART_IMODE := by
    rw [State.rb, State.rf, State.setRow_reg_other (bmcRow_ne_bmcPart (hr.trans_le s.rowsInstalled_le) p), State.rb, State.rf]
  unfold State.rowInter
  by_cases h : r = r'
  · subst h
    rw [State.setRow_rowOwner_same hr, hold]
    cases hi : rowImage v with
    | none => rfl
    | some p => exact (hpart p).trans (hnew p hi)
  · rw [State.setRow_rowOwner_other h]
    cases s.rowOwner r' with
    | none => rfl
    | some p => exact hpart p

theorem State.reseat_rf (s t : State) (k : Nat) (f : Fld) : (s.reseat t).rf k f = t.rf k f := rfl

/-- Rows that keep their order keep their bytes. -/
theorem State.reseat_mget_of_rowInter {t : State} (hw : Memory.wf t.mem) (h : ∀ r, t.rowInter r = s.rowInter r) (a : Nat) :
    mget (s.reseat t).mem a = mget t.mem a := by
  refine mget_reseat_fixed s t a hw ?_
  rw [State.modeMoves, h, bne_self_eq_false, Bool.and_false]

/-! ## BMC_ROW_WRITE (R253, R264) -/

theorem bmcRowWrite_takes (hi : s.Inv) (row : Fin 96) (hr : row.val < s.rowsInstalled) (hc : v.toNat / 8 % 2 = 0)
    (hne : v.toNat % 8 ≠ (s.reg (K.BMC_ROW row.val)).toNat % 8)
    (hq : ∀ p, s.rowOwner row.val = some p ∨ rowImage v = some p → s.rowsFree p = true)
    (hold : s.rowOwner row.val = none) (hm : s.mirrorRow row.val = false) :
    ∃ t, exec (.bmcRowWrite row v) s = .next t ∧ t.rf (K.BMC_ROW row.val) F.BMC_ROW_OWNER = v.toNat % 4
      ∧ t.rf (K.BMC_ROW row.val) F.BMC_ROW_VALID = v.toNat / 4 % 2
      ∧ ((∀ p, rowImage v = some p → s.rb (K.BMC_PART p) F.BMC_PART_IMODE = false) → ∀ a, mget t.mem a = mget s.mem a) := by
  have hbad : s.rowBad row.val v = false := by
    rw [← Bool.not_eq_true, State.rowBad_iff]
    rintro (⟨p, hp, hf⟩ | ⟨p, hp, -⟩ | ⟨-, hp⟩)
    · rw [hq p hp] at hf; cases hf
    · rw [hold] at hp; cases hp
    · rw [hm] at hp; cases hp
  refine ⟨s.reseat (s.setRow row.val v), ?_, (State.reseat_rf ..).trans State.setRow_owner, (State.reseat_rf ..).trans State.setRow_valid,
    fun hl a => ?_⟩
  · change Host.Outcome.next (s.writeBmcRow row.val v) = _
    rw [State.writeBmcRow_eq hr hc hne, hbad, hold]
    rfl
  · rw [State.reseat_mget_of_rowInter (by simpa using hi.1.1) (State.setRow_rowInter hr hold hl), State.setRow_mem]

theorem bmcRowWrite_zeroes (row : Fin 96) {p : Part} (hr : row.val < s.rowsInstalled) (hc : v.toNat / 8 % 2 = 0)
    (hne : v.toNat % 8 ≠ (s.reg (K.BMC_ROW row.val)).toNat % 8)
    (hold : s.rowOwner row.val = some p) (hnew : rowImage v = none)
    (hq : ∀ p, s.rowOwner row.val = some p ∨ rowImage v = some p → s.rowsFree p = true) (hp : s.poolIn p row.val = false) :
    ∃ t, exec (.bmcRowWrite row v) s = .next t ∧ (row.val, v) ∈ t.bulk.zeroing
      ∧ t.reg (K.BMC_ROW row.val) = s.reg (K.BMC_ROW row.val) := by
  have hbad : s.rowBad row.val v = false := by
    rw [← Bool.not_eq_true, State.rowBad_iff]
    rintro (⟨q, hq', hf⟩ | ⟨q, hq', -, hf⟩ | ⟨hs, -⟩)
    · rw [hq q hq'] at hf; cases hf
    · cases hold.symm.trans hq'; rw [hp] at hf; cases hf
    · rw [hnew] at hs; cases hs
  refine ⟨s.onBulk fun b => { b with zeroing := (b.zeroing.filter fun e => e.1 != row.val) ++ [(row.val, v)] }, ?_,
    List.mem_append_right _ (List.mem_singleton.mpr rfl), rfl⟩
  change Host.Outcome.next (s.writeBmcRow row.val v) = _
  rw [State.writeBmcRow_eq hr hc hne, hbad, hold, hnew]
  rfl

/-- A write refused: its flag is set and the owner stands. -/
theorem State.setRb_rowRefused (s : State) (r : Nat) :
    (s.setRb (K.BMC_ROW r) F.BMC_ROW_REFUSED true).rb (K.BMC_ROW r) F.BMC_ROW_REFUSED = true
    ∧ (s.setRb (K.BMC_ROW r) F.BMC_ROW_REFUSED true).rf (K.BMC_ROW r) F.BMC_ROW_OWNER = s.rf (K.BMC_ROW r) F.BMC_ROW_OWNER
    ∧ (s.setRb (K.BMC_ROW r) F.BMC_ROW_REFUSED true).rf (K.BMC_ROW r) F.BMC_ROW_VALID = s.rf (K.BMC_ROW r) F.BMC_ROW_VALID :=
  ⟨s.rb_setRb_same _ _ _ (by decide) (by decide), s.rf_setRb_beside _ _ (by decide) (by decide),
    s.rf_setRb_beside _ _ (by decide) (by decide)⟩

theorem bmcRowWrite_refused (row : Fin 96) (hr : row.val < s.rowsInstalled) (hc : v.toNat / 8 % 2 = 0)
    (hne : v.toNat % 8 ≠ (s.reg (K.BMC_ROW row.val)).toNat % 8) (hbad : s.rowBad row.val v = true) :
    exec (.bmcRowWrite row v) s = .next (s.setRb (K.BMC_ROW row.val) F.BMC_ROW_REFUSED true) := by
  change Host.Outcome.next (s.writeBmcRow row.val v) = _
  rw [State.writeBmcRow_eq hr hc hne, hbad, if_pos rfl]

/-! ## ROW_ZERO_DONE (R253, R264) -/

@[simp] theorem State.answer_mem (s : State) (m : MbReq) (code : Nat) (payload : List Byte) : (s.answer m code payload).mem = s.mem := by
  unfold State.answer; split <;> rfl

theorem State.answer_regs (s : State) (m : MbReq) (code : Nat) (payload : List Byte) : (s.answer m code payload).regs = s.regs := by
  unfold State.answer; split <;> rfl

theorem State.slotsUsed_rowReg (s : State) (k : Fin 8) (cls cost bytes : Nat) (hr : r < 96) :
    (s.slotsUsed k cls cost bytes).reg (K.BMC_ROW r) = s.reg (K.BMC_ROW r) := by
  have hne (i : Nat) : K.HUB_CTR i ≠ K.BMC_ROW r := by simp only [K.HUB_CTR, K.BMC_ROW]; omega
  refine ((State.reg_setReg _ _ _ _).trans (if_neg (hne _))).trans ((State.reg_setReg _ _ _ _).trans (if_neg (hne _)))

theorem State.chargeZeros_mem (s : State) : s.chargeZeros.mem = s.mem :=
  foldl_mem (fun s k => by rw [apply_ite State.mem, State.slotsUsed_mem, ite_self]) _ _

theorem State.chargeZeros_rowReg (s : State) (hr : r < 96) : s.chargeZeros.reg (K.BMC_ROW r) = s.reg (K.BMC_ROW r) := by
  refine foldl_leaves (fun t : State => t.reg (K.BMC_ROW r)) (fun s k => ?_) _ s
  show State.reg (if _ then _ else _) _ = _
  split
  · exact State.slotsUsed_rowReg _ _ _ _ _ hr
  · rfl

/-- A row's bytes after its zeros, and all others. -/
theorem State.zeroRow_mget (s : State) (r a : Nat) : mget (s.zeroRow r).mem a
    = if bulkBase + r * rowSize ≤ a ∧ a < bulkBase + r * rowSize + rowSize then 0 else mget s.mem a :=
  tget_tclear 0 s.mem _ _ a

/-- What remains of ROW_ZERO_DONE once the row is settled: the entries that wait for it go, and their requests are answered. -/
def State.answerZeroed (s : State) (r : Nat) : State :=
  (s.mgmt.zeroReq.filter fun x => x.1 == r).foldl (fun (s : State) x => s.answer x.2 rOk [])
    (s.onMgmt fun m => { m with zeroReq := m.zeroReq.filter fun x => x.1 != r })

theorem State.answerZeroed_mem (s : State) (r : Nat) : (s.answerZeroed r).mem = s.mem :=
  foldl_mem (fun s _ => s.answer_mem _ _ _) _ _

theorem State.answerZeroed_reg (s : State) (r k : Nat) : (s.answerZeroed r).reg k = s.reg k :=
  foldl_leaves (fun t : State => t.reg k) (fun s _ => congrArg (tget (regReset k) · k) (s.answer_regs _ _ _)) _ _

theorem State.answerZeroed_rf (s : State) (r k : Nat) (f : Fld) : (s.answerZeroed r).rf k f = s.rf k f := by
  rw [State.rf, State.answerZeroed_reg, State.rf]

/-- The row at the head of those zeroed, taken from them. -/
def State.zeroedTaken (s : State) (r : Nat) : State := s.onBulk fun b => { b with zeroing := b.zeroing.filter fun x => x.1 != r }

theorem rowZeroDone_eq (row : Fin 96) {rest : List (Nat × Word)} (h : s.bulk.zeroing = (row.val, v) :: rest) :
    exec (.rowZeroDone row) s = .next (State.answerZeroed (if s.rowBad row.val v then
      (s.zeroedTaken row.val).setRb (K.BMC_ROW row.val) F.BMC_ROW_REFUSED true
      else (((s.zeroedTaken row.val).zeroRow row.val).setRow row.val v).chargeZeros) row.val) := by
  change execRowZeroDone row s = _
  unfold execRowZeroDone
  rw [h, List.find?_cons_of_pos (by simp)]
  rfl

theorem rowZeroDone_settles (row : Fin 96) {rest : List (Nat × Word)} (h : s.bulk.zeroing = (row.val, v) :: rest) :
    ∃ t, exec (.rowZeroDone row) s = .next t
      ∧ (s.rowBad row.val v = false → t.rf (K.BMC_ROW row.val) F.BMC_ROW_OWNER = v.toNat % 4
        ∧ t.rf (K.BMC_ROW row.val) F.BMC_ROW_VALID = v.toNat / 4 % 2
        ∧ (∀ i < rowSize, mget t.mem (bulkBase + row.val * rowSize + i) = 0)
        ∧ ∀ a, a < bulkBase + row.val * rowSize ∨ bulkBase + (row.val + 1) * rowSize ≤ a → mget t.mem a = mget s.mem a)
      ∧ (s.rowBad row.val v = true → t.rb (K.BMC_ROW row.val) F.BMC_ROW_REFUSED = true ∧ t.mem = s.mem
        ∧ t.rf (K.BMC_ROW row.val) F.BMC_ROW_OWNER = s.rf (K.BMC_ROW row.val) F.BMC_ROW_OWNER
        ∧ t.rf (K.BMC_ROW row.val) F.BMC_ROW_VALID = s.rf (K.BMC_ROW row.val) F.BMC_ROW_VALID) := by
  refine ⟨_, rowZeroDone_eq row h, fun hbad => ?_, fun hbad => ?_⟩
  · rw [hbad, if_neg Bool.false_ne_true]
    have hrf (f : Fld) (u : State) : (u.chargeZeros.answerZeroed row.val).rf (K.BMC_ROW row.val) f
        = u.rf (K.BMC_ROW row.val) f := by
      rw [State.answerZeroed_rf, State.rf, State.chargeZeros_rowReg _ row.isLt, State.rf]
    have hmem : ((((s.zeroedTaken row.val).zeroRow row.val).setRow row.val v).chargeZeros.answerZeroed row.val).mem
        = ((s.zeroedTaken row.val).zeroRow row.val).mem := by
      rw [State.answerZeroed_mem, State.chargeZeros_mem, State.setRow_mem]
    refine ⟨(hrf _ _).trans State.setRow_owner, (hrf _ _).trans State.setRow_valid, fun i hi => ?_, fun a ha => ?_⟩
    · rw [hmem, State.zeroRow_mget, if_pos ⟨Nat.le_add_right _ _, Nat.add_lt_add_left hi _⟩]
    · rw [hmem, State.zeroRow_mget, if_neg (by rw [Nat.succ_mul] at ha; omega)]
      rfl
  · rw [hbad, if_pos rfl]
    obtain ⟨hset, howner, hvalid⟩ := (s.zeroedTaken row.val).setRb_rowRefused row.val
    refine ⟨?_, ?_, (State.answerZeroed_rf ..).trans howner, (State.answerZeroed_rf ..).trans hvalid⟩
    · rw [State.rb, State.answerZeroed_rf]; exact hset
    · rw [State.answerZeroed_mem, State.setRb_mem]; rfl

end

end Sys2Proof.Machine
end

section
/-! SUPPORT. A partition's interleave mode and reserve pool, and the bulk memory core's shares (R250, R251, R253, R256, R265, R266). -/

namespace Sys2Proof.Machine

theorem fld_div (w : Word) (lo n : Nat) : fld w lo n = w.toNat / 2 ^ lo % 2 ^ n := by
  rw [fld, bits, Nat.shiftRight_eq_div_pow]

section
variable {s : State} {p : Part} {v : Word}

/-! ## The two fields of BMC_PART, judged one after the other -/

/-- The mode as a write of BMC_PART leaves it (R251). -/
def State.imodeWritten (s : State) (p : Part) (v : Word) : State :=
  if fld v 0 1 = s.rf (K.BMC_PART p) F.BMC_PART_IMODE then s
  else if !s.epochOn p && s.bulkIdle p then s.reseat (s.setRf (K.BMC_PART p) F.BMC_PART_IMODE (fld v 0 1))
  else s.setRb (K.BMC_PART p) F.BMC_PART_REFUSED true

/-- Whether the pages [base, base + n) lie in rows of the partition, as a write of BMC_PART finds it. -/
def State.poolInRows (s : State) (p : Part) (base n : Nat) : Bool :=
  n == 0 || (List.range ((base + n - 1) / 4096 + 1 - base / 4096)).all fun i => s.rowOwner (base / 4096 + i) == some p

theorem State.poolInRows_iff {base n : Nat} :
    s.poolInRows p base n = true ↔ ∀ i < n, s.rowOwner ((base + i) / 4096) = some p := by
  simp only [State.poolInRows, Bool.or_eq_true, beq_iff_eq, List.all_eq_true, List.mem_range]
  constructor
  · rintro (rfl | h) i hi
    · omega
    · have := h ((base + i) / 4096 - base / 4096) (by omega)
      rwa [show base / 4096 + ((base + i) / 4096 - base / 4096) = (base + i) / 4096 by omega] at this
  · refine fun h => or_iff_not_imp_left.mpr fun hn j hj => ?_
    have := h ((base / 4096 + j) * 4096 - base) (by omega)
    rwa [show (base + ((base / 4096 + j) * 4096 - base)) / 4096 = base / 4096 + j by omega] at this

/-- The reserve pool as a write of BMC_PART leaves it (R253, R265). -/
def State.poolWritten (s : State) (p : Part) (v : Word) : State :=
  if fld v 8 20 = s.rf (K.BMC_PART p) F.BMC_PART_RSV_BASE ∧ fld v 32 20 = s.rf (K.BMC_PART p) F.BMC_PART_RSV_PAGES then s
  else if s.rowsFree p && s.poolInRows p (fld v 8 20) (fld v 32 20) then
    (s.setRf (K.BMC_PART p) F.BMC_PART_RSV_BASE (fld v 8 20)).setRf (K.BMC_PART p) F.BMC_PART_RSV_PAGES (fld v 32 20)
  else s.setRb (K.BMC_PART p) F.BMC_PART_REFUSED true

theorem bmcPartWrite_eq (hc : v.toNat / 2 % 2 = 0) :
    exec (.bmcPartWrite p v) s = .next ((s.imodeWritten p v).poolWritten p v) := by
  have hbit : bit v 1 = false := by rw [bit, bit_eq, decide_eq_false_iff_not]; omega
  change Host.Outcome.next (s.writeBmcPart p v) = _
  rw [State.writeBmcPart, hbit, if_neg Bool.false_ne_true]
  rfl

theorem State.poolWritten_same (hb : fld v 8 20 = s.rf (K.BMC_PART p) F.BMC_PART_RSV_BASE)
    (hn : fld v 32 20 = s.rf (K.BMC_PART p) F.BMC_PART_RSV_PAGES) : s.poolWritten p v = s := by
  rw [State.poolWritten, if_pos ⟨hb, hn⟩]

/-! ## The mode (R250, R251) -/

theorem bmcPart_inj {q : Part} (h : p ≠ q) : K.BMC_PART p ≠ K.BMC_PART q := by
  have := Fin.val_ne_of_ne h
  simp only [K.BMC_PART]; omega

/-- A write of BMC_PART names no row's owner. -/
theorem State.setBmcPart_rowOwner (s : State) (p : Part) (w : Word) (r : Nat) :
    (s.setReg (K.BMC_PART p) w).rowOwner r = s.rowOwner r := by
  have hm : (s.setReg (K.BMC_PART p) w).rowsInstalled = s.rowsInstalled := by
    have hm : (s.setReg (K.BMC_PART p) w).mgmt = s.mgmt := rfl
    simp only [State.rowsInstalled, State.buildRec, hm]
  by_cases hr : r < s.rowsInstalled
  · have hrf (f : Fld) : (s.setReg (K.BMC_PART p) w).rf (K.BMC_ROW r) f = s.rf (K.BMC_ROW r) f :=
      s.rf_setReg_other w f (bmcRow_ne_bmcPart (hr.trans_le s.rowsInstalled_le) p).symm
    unfold State.rowOwner State.rb
    simp only [hm, hrf]
  · rw [State.rowOwner, State.rowOwner, if_neg (fun h => hr (hm ▸ h.1)), if_neg fun h => hr h.1]

section
variable {x : Nat}

theorem State.setImode_rowOwner (r : Nat) : (s.setRf (K.BMC_PART p) F.BMC_PART_IMODE x).rowOwner r = s.rowOwner r :=
  s.setBmcPart_rowOwner p _ r

theorem State.setImode_rb_other {q : Part} (h : p ≠ q) :
    (s.setRf (K.BMC_PART p) F.BMC_PART_IMODE x).rb (K.BMC_PART q) F.BMC_PART_IMODE = s.rb (K.BMC_PART q) F.BMC_PART_IMODE := by
  rw [State.rb, State.rf_setRf_other _ _ _ _ (bmcPart_inj h), State.rb]

/-- A changed mode turns the order of the partition's rows round. -/
theorem State.setImode_rb_same (hx : x < 2) (hne : x ≠ s.rf (K.BMC_PART p) F.BMC_PART_IMODE) :
    (s.setRf (K.BMC_PART p) F.BMC_PART_IMODE x).rb (K.BMC_PART p) F.BMC_PART_IMODE
      = !s.rb (K.BMC_PART p) F.BMC_PART_IMODE := by
  have hlt : s.rf (K.BMC_PART p) F.BMC_PART_IMODE < 2 := fld_lt _ _ 1
  rw [State.rb, State.rf_setRf_same _ _ _ _ (by decide), State.rb, show 2 ^ F.BMC_PART_IMODE.w = 2 from rfl, Nat.mod_eq_of_lt hx]
  generalize s.rf (K.BMC_PART p) F.BMC_PART_IMODE = y at hlt hne ⊢
  obtain ⟨rfl, rfl⟩ | ⟨rfl, rfl⟩ : x = 0 ∧ y = 1 ∨ x = 1 ∧ y = 0 := by omega
  all_goals rfl

theorem State.modeMoves_setImode (hx : x < 2) (hne : x ≠ s.rf (K.BMC_PART p) F.BMC_PART_IMODE) (a : Nat) :
    s.modeMoves (s.setRf (K.BMC_PART p) F.BMC_PART_IMODE x) a
      = (decide (bulkBase ≤ a) && decide (s.rowOwner (rowOf a) = some p)) := by
  have hrow : (s.rowInter (rowOf a) != (s.setRf (K.BMC_PART p) F.BMC_PART_IMODE x).rowInter (rowOf a))
      = decide (s.rowOwner (rowOf a) = some p) := by
    rw [State.rowInter, State.rowInter, State.setImode_rowOwner]
    cases s.rowOwner (rowOf a) with
    | none => rfl
    | some q =>
      by_cases hq : p = q
      · subst hq
        simp [State.setImode_rb_same hx hne]
      · simp [State.setImode_rb_other hq, Ne.symm hq]
  rw [State.modeMoves, hrow]

/-- The byte that the new mode finds at a place is the one the old mode found at the same stack and stack offset (R250). -/
theorem State.newPlace_of_stackOf (hx : x < 2) (hne : x ≠ s.rf (K.BMC_PART p) F.BMC_PART_IMODE) {a a' : Nat}
    (ha : bulkBase ≤ a) (ha' : bulkBase ≤ a') (ho : s.rowOwner (rowOf a) = some p) (hr : rowOf a' = rowOf a)
    (hst : (s.setRf (K.BMC_PART p) F.BMC_PART_IMODE x).stackOf p a = s.stackOf p a') :
    s.newPlace (s.setRf (K.BMC_PART p) F.BMC_PART_IMODE x) a' = a := by
  have hmoves : s.modeMoves (s.setRf (K.BMC_PART p) F.BMC_PART_IMODE x) a' = true := by
    rw [State.modeMoves_setImode hx hne, hr, ho, decide_eq_true ha']; simp
  have hinter : (s.setRf (K.BMC_PART p) F.BMC_PART_IMODE x).rowInter (rowOf a') = !s.rb (K.BMC_PART p) F.BMC_PART_IMODE := by
    rw [State.rowInter, State.setImode_rowOwner, hr, ho]
    exact State.setImode_rb_same hx hne
  have hplace : rowOf a * rowSize + (a - bulkBase) % rowSize = a - bulkBase := by
    rw [rowOf, Nat.mul_comm]; exact Nat.div_add_mod _ _
  have hq : (a - bulkBase) % rowSize < rowSize := Nat.mod_lt _ (by decide)
  have hq' : (a' - bulkBase) % rowSize < rowSize := Nat.mod_lt _ (by decide)
  rw [State.newPlace, if_pos hmoves, hinter, hr]
  rw [State.stackOf, State.stackOf, State.setImode_rb_same hx hne, hr] at hst
  suffices h : (if (!s.rb (K.BMC_PART p) F.BMC_PART_IMODE) = true then interPlace ((a' - bulkBase) % rowSize)
      else localPlace ((a' - bulkBase) % rowSize)) = (a - bulkBase) % rowSize by
    dsimp only
    rw [h, Nat.add_assoc, hplace]
    omega
  generalize (a - bulkBase) % rowSize = q at hq hst ⊢
  generalize (a' - bulkBase) % rowSize = q' at hq' hst ⊢
  unfold rowSize at hq hq'
  cases hm : s.rb (K.BMC_PART p) F.BMC_PART_IMODE <;> rw [hm] at hst <;>
    simp only [Bool.not_false, Bool.not_true, Bool.false_eq_true, if_true, if_false, Prod.mk.injEq] at hst ⊢
  · unfold interPlace; omega
  · unfold localPlace; omega

end

/-- A write that changes the mode, with no epoch and no request outstanding (R251). -/
theorem bmcPartWrite_mode (hi : s.Inv) (hc : v.toNat / 2 % 2 = 0)
    (hb : fld v 8 20 = s.rf (K.BMC_PART p) F.BMC_PART_RSV_BASE) (hn : fld v 32 20 = s.rf (K.BMC_PART p) F.BMC_PART_RSV_PAGES)
    (hne : fld v 0 1 ≠ s.rf (K.BMC_PART p) F.BMC_PART_IMODE) (he : s.epochOn p = false) (hid : s.bulkIdle p = true) :
    ∃ t, exec (.bmcPartWrite p v) s = .next t ∧ t.rf (K.BMC_PART p) F.BMC_PART_IMODE = v.toNat % 2
      ∧ (∀ a a', s.inBulk a = true → s.inBulk a' = true → s.rowOwner (rowOf a) = some p → rowOf a' = rowOf a →
          t.stackOf p a = s.stackOf p a' → mget t.mem a = mget s.mem a')
      ∧ ∀ a, s.inBulk a = false ∨ s.rowOwner (rowOf a) ≠ some p → mget t.mem a = mget s.mem a := by
  have hx : fld v 0 1 < 2 := fld_lt v 0 1
  let u := s.setRf (K.BMC_PART p) F.BMC_PART_IMODE (fld v 0 1)
  have hum : u.mem = s.mem := s.setRf_mem _ _ _
  have hmode : s.imodeWritten p v = s.reseat u := by
    rw [State.imodeWritten, if_neg hne, he, hid]; rfl
  have hbeside (g : Fld) (hg : 1 ≤ g.lo) (hg' : g.lo + g.w ≤ 64) : (s.reseat u).rf (K.BMC_PART p) g = s.rf (K.BMC_PART p) g :=
    s.rf_setRf_beside _ _ (.inl hg) hg'
  refine ⟨s.reseat u, ?_, ?_, fun a a' hba hba' ho hr hst => ?_, fun a ha => ?_⟩
  · rw [bmcPartWrite_eq hc, hmode, State.poolWritten_same (hb.trans (hbeside F.BMC_PART_RSV_BASE (by decide) (by decide)).symm)
      (hn.trans (hbeside F.BMC_PART_RSV_PAGES (by decide) (by decide)).symm)]
  · rw [State.reseat_rf, State.rf_setRf_same _ _ _ _ (by decide), ← fld_mode v]
    exact Nat.mod_eq_of_lt hx
  · simp only [State.inBulk, Bool.and_eq_true, decide_eq_true_eq] at hba hba'
    have hmoves : s.modeMoves u a' = true := by
      rw [State.modeMoves_setImode hx hne, hr, ho, decide_eq_true hba'.1]; simp
    have hplace : s.newPlace u a' = a := State.newPlace_of_stackOf hx hne hba.1 hba'.1 ho hr hst
    have hget := mget_reseat s u a' (hum ▸ hi.1.1) hmoves
    rwa [hplace, hum] at hget
  · rw [mget_reseat_fixed s u a (hum ▸ hi.1.1), hum]
    rw [State.modeMoves_setImode hx hne, Bool.and_eq_false_iff, decide_eq_false_iff_not, decide_eq_false_iff_not]
    refine ha.elim (fun hout => ?_) .inr
    by_cases hlo : bulkBase ≤ a
    · refine .inr fun ho => ?_
      have hrow : ¬ rowOf a < s.rowsInstalled := by
        rw [State.inBulk, decide_eq_true hlo, Bool.true_and, decide_eq_false_iff_not] at hout
        rw [rowOf, Nat.div_lt_iff_lt_mul (by decide)]
        omega
      rw [State.rowOwner, if_neg fun h => hrow h.1] at ho
      cases ho
    · exact .inl hlo

/-- A write that changes the mode during an epoch is refused (R251). -/
theorem bmcPartWrite_mode_refused (hc : v.toNat / 2 % 2 = 0)
    (hb : fld v 8 20 = s.rf (K.BMC_PART p) F.BMC_PART_RSV_BASE) (hn : fld v 32 20 = s.rf (K.BMC_PART p) F.BMC_PART_RSV_PAGES)
    (hne : fld v 0 1 ≠ s.rf (K.BMC_PART p) F.BMC_PART_IMODE) (he : s.epochOn p = true) :
    ∃ t, exec (.bmcPartWrite p v) s = .next t ∧ t.rb (K.BMC_PART p) F.BMC_PART_REFUSED = true
      ∧ t.rf (K.BMC_PART p) F.BMC_PART_IMODE = s.rf (K.BMC_PART p) F.BMC_PART_IMODE := by
  have hmode : s.imodeWritten p v = s.setRb (K.BMC_PART p) F.BMC_PART_REFUSED true := by
    rw [State.imodeWritten, if_neg hne, he]; rfl
  refine ⟨_, ?_, s.rb_setRb_same _ _ _ (by decide) (by decide), s.rf_setRb_beside _ _ (by decide) (by decide)⟩
  rw [bmcPartWrite_eq hc, hmode, State.poolWritten_same (hb.trans (s.rf_setRb_beside _ _ (by decide) (by decide)).symm)
    (hn.trans (s.rf_setRb_beside _ _ (by decide) (by decide)).symm)]

/-! ## The reserve pool (R253, R265) -/

theorem State.imodeWritten_same (h : fld v 0 1 = s.rf (K.BMC_PART p) F.BMC_PART_IMODE) : s.imodeWritten p v = s := by
  rw [State.imodeWritten, if_pos h]

theorem bmcPartWrite_pool (hc : v.toNat / 2 % 2 = 0) (hm : fld v 0 1 = s.rf (K.BMC_PART p) F.BMC_PART_IMODE)
    (hne : fld v 8 20 ≠ s.rf (K.BMC_PART p) F.BMC_PART_RSV_BASE ∨ fld v 32 20 ≠ s.rf (K.BMC_PART p) F.BMC_PART_RSV_PAGES) :
    ((s.rowsFree p = true ∧ s.poolInRows p (fld v 8 20) (fld v 32 20) = true) → ∃ t, exec (.bmcPartWrite p v) s = .next t
      ∧ t.rf (K.BMC_PART p) F.BMC_PART_RSV_PAGES = fld v 32 20 ∧ t.rf (K.BMC_PART p) F.BMC_PART_RSV_BASE = fld v 8 20)
    ∧ (¬ (s.rowsFree p = true ∧ s.poolInRows p (fld v 8 20) (fld v 32 20) = true) → ∃ t, exec (.bmcPartWrite p v) s = .next t
      ∧ t.rb (K.BMC_PART p) F.BMC_PART_REFUSED = true
      ∧ t.rf (K.BMC_PART p) F.BMC_PART_RSV_PAGES = s.rf (K.BMC_PART p) F.BMC_PART_RSV_PAGES
      ∧ t.rf (K.BMC_PART p) F.BMC_PART_RSV_BASE = s.rf (K.BMC_PART p) F.BMC_PART_RSV_BASE) := by
  rw [bmcPartWrite_eq hc, State.imodeWritten_same hm, State.poolWritten, if_neg (not_and_or.mpr hne), ← Bool.and_eq_true]
  refine ⟨fun h => ⟨_, rfl, ?_, ?_⟩, fun h => ⟨_, rfl, ?_, ?_, ?_⟩⟩
  · rw [if_pos h, State.rf_setRf_same _ _ _ _ (by decide)]
    exact Nat.mod_eq_of_lt (fld_lt v 32 20)
  · rw [if_pos h, State.rf_setRf_beside _ _ _ (by decide) (by decide), State.rf_setRf_same _ _ _ _ (by decide)]
    exact Nat.mod_eq_of_lt (fld_lt v 8 20)
  · rw [if_neg h]; exact s.rb_setRb_same _ _ _ (by decide) (by decide)
  · rw [if_neg h]; exact s.rf_setRb_beside _ _ (by decide) (by decide)
  · rw [if_neg h]; exact s.rf_setRb_beside _ _ (by decide) (by decide)

/-! ## BMC_SHARE_WRITE (R256, R266) -/

def bmcShareRow : RegRow := mkRow "BMC_SHARE" 0x10200800 [] .installer false
  [(0, 8, .rw, 0), (8, 8, .rw, 96), (16, 8, .rw, 16), (24, 8, .rw, 1), (32, 1, .w1c, 0)]

theorem regAt_bmcShare : regAt regMap K.BMC_SHARE = some (bmcShareRow, []) := by decide +kernel

theorem applyWrite_bmcShare (old v : Word) : applyWrite bmcShareRow.fields false old v
    = setFld (setFld (setFld (setFld (setFld old 0 8 (fld v 0 8)) 8 8 (fld v 8 8)) 16 8 (fld v 16 8)) 24 8 (fld v 24 8)) 32 1
      (fld (setFld (setFld (setFld (setFld old 0 8 (fld v 0 8)) 8 8 (fld v 8 8)) 16 8 (fld v 16 8)) 24 8 (fld v 24 8)) 32 1
        &&& (2 ^ 1 - 1 - fld v 32 1)) := rfl

theorem low32_eq (w : Word) :
    w.toNat % 2 ^ 32 = fld w 0 8 + 2 ^ 8 * fld w 8 8 + 2 ^ 16 * fld w 16 8 + 2 ^ 24 * fld w 24 8 := by
  simp only [fld_div]
  omega

/-- The four minimums of a written BMC_SHARE are the word's. -/
theorem applyWrite_bmcShare_low (old v : Word) : (applyWrite bmcShareRow.fields false old v).toNat % 2 ^ 32 = v.toNat % 2 ^ 32 := by
  have hbyte (w : Word) (lo : Nat) (h : lo + 8 ≤ 64) : fld (setFld w lo 8 (fld v lo 8)) lo 8 = fld v lo 8 :=
    (fld_setFld_same _ _ _ _ h).trans (Nat.mod_eq_of_lt (fld_lt v lo 8))
  rw [low32_eq, low32_eq v, applyWrite_bmcShare]
  simp (disch := decide) only [fld_setFld_beside, hbyte]

theorem bmcShareWrite_takes (h : fld v 0 8 + fld v 8 8 + fld v 16 8 + fld v 24 8 ≤ 256) :
    ∃ t, exec (.bmcShareWrite v) s = .next t ∧ (t.reg K.BMC_SHARE).toNat % 2 ^ 32 = v.toNat % 2 ^ 32 := by
  refine ⟨s.setReg K.BMC_SHARE (applyWrite bmcShareRow.fields false (s.reg K.BMC_SHARE) v), ?_, ?_⟩
  · change Host.Outcome.next (s.writeBmcShare v) = _
    rw [State.writeBmcShare, if_neg (by omega), s.writeReg_of regAt_bmcShare]
  · rw [State.reg_setReg, if_pos rfl, applyWrite_bmcShare_low]

theorem bmcShareWrite_refused (h : 256 < fld v 0 8 + fld v 8 8 + fld v 16 8 + fld v 24 8) :
    ∃ t, exec (.bmcShareWrite v) s = .next t ∧ t.rb K.BMC_SHARE F.BMC_SHARE_REFUSED = true
      ∧ (t.reg K.BMC_SHARE).toNat % 2 ^ 32 = (s.reg K.BMC_SHARE).toNat % 2 ^ 32 := by
  refine ⟨s.setRb K.BMC_SHARE F.BMC_SHARE_REFUSED true, ?_, s.rb_setRb_same _ _ _ (by decide) (by decide), ?_⟩
  · change Host.Outcome.next (s.writeBmcShare v) = _
    rw [State.writeBmcShare, if_pos h]
  · rw [← fld_low, ← fld_low, State.setRb, State.setRf, State.reg_setReg, if_pos rfl,
      fld_setFld_beside _ _ (by decide) (by decide)]

end

end Sys2Proof.Machine
end

section
/-! The settlement of O31. -/

open Sys2Proof Sys2Proof.Machine

/-- Settles O31: a row's owner by the causes of its refusal, the mode by the place of each byte in its stack, the pool and the shares
by their conditions. -/
theorem bulkControl : Obligations.BulkControl := by
  unfold Obligations.BulkControl
  refine fun s hi => ⟨fun row v hr hc => ?row, fun row v rest hz => rowZeroDone_settles row hz, fun p v hc => ⟨?mode, ?pool⟩,
    fun v => ?share⟩
  case row =>
    intro k new hne quiet
    refine ⟨fun hq hold hm => bmcRowWrite_takes hi row hr hc hne hq hold hm,
      fun p hold hnew hq hp => bmcRowWrite_zeroes row hr hc hne hold hnew hq hp, fun h => ?_⟩
    refine ⟨_, bmcRowWrite_refused row hr hc hne (State.rowBad_iff.mpr ?_), s.setRb_rowRefused row.val⟩
    refine h.imp (fun hq => ?_) .inl
    simpa only [quiet, not_forall, Bool.not_eq_true, exists_prop] using hq
  case mode =>
    rw [← fld_div v 8 20, ← fld_div v 32 20]
    intro hb hn hm
    rw [← fld_mode] at hm
    exact ⟨bmcPartWrite_mode hi hc hb hn hm, bmcPartWrite_mode_refused hc hb hn hm⟩
  case pool =>
    rw [← fld_div v 8 20, ← fld_div v 32 20]
    intro base pages hm hne inside
    rw [← fld_mode] at hm
    obtain ⟨htakes, hrefused⟩ := bmcPartWrite_pool hc hm hne
    refine ⟨fun hf hin => htakes ⟨hf, State.poolInRows_iff.mpr hin⟩, fun h => hrefused fun hboth => ?_⟩
    exact h.elim (fun hf => Bool.false_ne_true (hf.symm.trans hboth.1)) fun hin => hin (State.poolInRows_iff.mp hboth.2)
  case share =>
    have hsum : v.toNat % 256 + v.toNat / 2 ^ 8 % 256 + v.toNat / 2 ^ 16 % 256 + v.toNat / 2 ^ 24 % 256
        = fld v 0 8 + fld v 8 8 + fld v 16 8 + fld v 24 8 := by
      simp only [fld_div]; norm_num
    intro sum
    exact ⟨fun h => bmcShareWrite_takes (hsum ▸ h), fun h => bmcShareWrite_refused (hsum ▸ h)⟩

end

section
/-!
SUPPORT. What a module reset leaves of bring-up: BOOT_STAT but for its stage, and the boot control word of the flash (R480, R511,
R513). Only operations that a module reset performs are named here.
-/

namespace Sys2Proof.Machine

/-- BOOT_STAT and the flash stand. -/
structure BootKept (s t : State) : Prop where
  boot : t.reg K.BOOT_STAT = s.reg K.BOOT_STAT
  flash : t.mgmt.flash = s.mgmt.flash

namespace BootKept

variable {s0 s t : State}

theorem refl (s : State) : BootKept s s := ⟨rfl, rfl⟩

theorem same (h : BootKept s0 s) (hr : t.regs = s.regs) (hf : t.mgmt.flash = s.mgmt.flash) : BootKept s0 t :=
  ⟨(congrArg (tget (regReset K.BOOT_STAT) · K.BOOT_STAT) hr).trans h.boot, hf.trans h.flash⟩

theorem setReg (h : BootKept s0 s) {j : Nat} (v : Word) (hj : j ≠ K.BOOT_STAT) : BootKept s0 (s.setReg j v) :=
  ⟨(s.setReg_other _ _ _ hj).trans h.boot, h.flash⟩

theorem setRf (h : BootKept s0 s) {j : Nat} (f : Fld) (v : Nat) (hj : j ≠ K.BOOT_STAT) : BootKept s0 (s.setRf j f v) :=
  h.setReg _ hj

theorem setRb (h : BootKept s0 s) {j : Nat} (f : Fld) (v : Bool) (hj : j ≠ K.BOOT_STAT) : BootKept s0 (s.setRb j f v) :=
  h.setReg _ hj

theorem resetRegs (h : BootKept s0 s) {lo hi : Nat} (hk : hi ≤ K.BOOT_STAT ∨ K.BOOT_STAT < lo) :
    BootKept s0 (s.resetRegs lo hi) :=
  ⟨(State.resetRegs_reg ..).trans ((if_neg fun hin =>
    hk.elim (fun hhi => Nat.not_lt.mpr hhi hin.2) fun hlo => Nat.not_le.mpr hlo hin.1).trans h.boot), h.flash⟩

theorem ite {u : State} {c : Prop} [Decidable c] (ht : BootKept s0 t) (hu : BootKept s0 u) :
    BootKept s0 (if c then t else u) := by split <;> assumption

theorem foldl_of_mem {α : Type} {f : State → α → State} {l : List α} (hf : ∀ s, ∀ x ∈ l, BootKept s0 s → BootKept s0 (f s x))
    (h : BootKept s0 s) : BootKept s0 (l.foldl f s) := by
  induction l generalizing s with
  | nil => exact h
  | cons x xs ih => exact ih (fun s y hy => hf s y (List.mem_cons_of_mem _ hy)) (hf s x List.mem_cons_self h)

theorem foldl {α : Type} {f : State → α → State} (hf : ∀ s x, BootKept s0 s → BootKept s0 (f s x)) (l : List α)
    (h : BootKept s0 s) : BootKept s0 (l.foldl f s) := foldl_of_mem (fun s x _ => hf s x) h

/-! ## Parts of the state -/

theorem onBench (h : BootKept s0 s) (b : Bid) (f : Bench → Bench) : BootKept s0 (s.onBench b f) := h.same rfl rfl
theorem onCtl (h : BootKept s0 s) (p : Part) (f : StepCtl → StepCtl) : BootKept s0 (s.onCtl p f) := h.same rfl rfl
theorem onBar (h : BootKept s0 s) (p : Part) (f : Barrier → Barrier) : BootKept s0 (s.onBar p f) := h.same rfl rfl
theorem onPlumb (h : BootKept s0 s) (p : Part) (f : Plumb → Plumb) : BootKept s0 (s.onPlumb p f) := h.same rfl rfl
theorem onBulk (h : BootKept s0 s) (f : Bulk → Bulk) : BootKept s0 (s.onBulk f) := h.same rfl rfl
theorem onCow (h : BootKept s0 s) (p : Part) (n : Fin 4) (f : CowSet → CowSet) : BootKept s0 (s.onCow p n f) := h.same rfl rfl
theorem onWgh (h : BootKept s0 s) (b : Bid) (f : Weighbridge → Weighbridge) : BootKept s0 (s.onWgh b f) := h.same rfl rfl
theorem completed (h : BootKept s0 s) (b : Bid) (id : Nat) : BootKept s0 (s.completed b id) := h.same rfl rfl
theorem setHq (h : BootKept s0 s) (q : Nat) (x : QState) : BootKept s0 (s.setHq q x) := h.same rfl rfl
theorem onHport (h : BootKept s0 s) (p : Part) (f : HostPort → HostPort) : BootKept s0 (s.onHport p f) := h.same rfl rfl

/-! ## The floor plan and records -/

theorem emit (h : BootKept s0 s) {r : RecInfo} (he : r.event < 256) : BootKept s0 (s.emit r) :=
  have ha : Accessed s (s.emit r) := (Accessed.refl s).emit r he
  ⟨(ha.reg _ (by simp only [accessReg, K.BOOT_STAT]; omega)).trans h.boot, (congrArg Mgmt.flash ha.mgmt).trans h.flash⟩

theorem publish (h : BootKept s0 s) (gen : Nat) : BootKept s0 (s.publish gen) := by
  unfold State.publish
  split
  · exact h
  · refine foldl (fun s b h => ?_) _ ((h.setReg _ (by decide)).setReg _ (by decide))
    exact (h.setReg _ (by simp only [K.FP_BENCH0, K.BOOT_STAT]; omega)).setReg _ (by simp only [K.FP_BENCH1, K.BOOT_STAT]; omega)

theorem planChanged (h : BootKept s0 s) : BootKept s0 s.planChanged := by
  unfold State.planChanged
  dsimp only
  split
  · exact h
  · exact h.publish _

theorem retire (h : BootKept s0 s) (u : UnitId) : BootKept s0 (s.retire u) := by
  unfold State.retire
  refine planChanged (emit ?_ (by decide : (0x16 : Nat) < 256))
  split
  · refine same (setRf (h.same rfl rfl) _ _ ?_) rfl rfl
    simp only [K.FAB_PORT, K.BOOT_STAT]; omega
  · exact h.same rfl rfl

theorem resetPlan (h : BootKept s0 s) (covers : UnitId → Bool) : BootKept s0 (s.resetPlan covers) := by
  unfold State.resetPlan
  have hr := foldl (fun s u h => h.retire u) (s.health.pending.filter covers) h
  dsimp only
  split
  · exact hr
  · exact planChanged (hr.same rfl rfl)

/-! ## Benches -/

theorem resetVote (h : BootKept s0 s) (b : Bid) : BootKept s0 (s.resetVote b) := by
  have hv (v : Vote) : BootKept s0 (s.errVote b v) := by
    unfold State.errVote
    split
    · exact h
    · split
      · exact h.onBench b _
      · exact h
  unfold State.resetVote
  split
  · exact h
  · split
    · exact (hv .abort).same rfl rfl
    · exact h

theorem stopProofs (h : BootKept s0 s) (covers : UnitId → Bool) : BootKept s0 (s.stopProofs covers) := h.same rfl rfl
theorem wakeCores (h : BootKept s0 s) (covers : UnitId → Bool) : BootKept s0 (s.wakeCores covers) := h.same rfl rfl

theorem wipeBench (h : BootKept s0 s) (b : Bid) : BootKept s0 (s.wipeBench b) := by
  have hb := b.isLt
  refine setReg (resetRegs (resetRegs (h.onBench b _) (.inl ?_)) (.inl ?_)) _ ?_
  · simp only [K.IMEM, K.BOOT_STAT]; omega
  · simp only [K.FM_CTL, K.BOOT_STAT]; omega
  · simp only [K.WGH_RESID, K.BOOT_STAT]; omega

theorem showCommit (h : BootKept s0 s) (b : Bid) (shown : Bool) : BootKept s0 (s.showCommit b shown) := by
  have hk : K.STEP_STATE b ≠ K.BOOT_STAT := by simp only [K.STEP_STATE, K.BOOT_STAT]; omega
  unfold State.showCommit
  split
  · exact h
  · split
    · split
      · exact h
      · exact (h.setRf _ _ hk).setRf _ _ hk
    · exact h

theorem barsRest (h : BootKept s0 s) (b : Bid) : BootKept s0 (s.barsRest b) := by
  unfold State.barsRest
  split
  · exact h
  · split
    · refine (h.onBar _ _).resetRegs (.inl ?_)
      simp only [K.BAR_GEN, K.BOOT_STAT]; omega
    · exact h

end BootKept

/-- A Weighbridge without buckets abandons none. -/
theorem State.abandonAll_of_empty {s : State} {b : Bid} (h : (s.wgh b).buckets = []) (p : Part) (tells : Bool) :
    s.abandonAll b p tells = s := by
  unfold State.abandonAll
  rw [h, List.foldl_nil]
  unfold State.wghPump
  rw [h, List.map_nil, List.foldl_nil, ite_self]

theorem State.resetWgh_buckets (s : State) (b : Bid) (a : Bool) : ((s.resetWgh b a).wgh b).buckets = [] := by
  unfold State.resetWgh
  rw [State.wgh, State.onWgh, State.onBench_bench_same]

theorem State.resetVote_wgh (s : State) (b : Bid) : (s.resetVote b).wgh b = s.wgh b := by
  have hv (v : Vote) : (s.errVote b v).wgh b = s.wgh b := by
    unfold State.errVote
    split
    · rfl
    · split
      · rw [State.wgh, State.onBench_bench_same, State.wgh]
      · rfl
  unfold State.resetVote
  split
  · rfl
  · split
    · exact hv .abort
    · rfl

namespace BootKept

variable {s0 s t : State}

theorem resetWgh (h : BootKept s0 s) {b : Bid} {a : Bool} (ha : a = false ∨ (s.wgh b).buckets = []) :
    BootKept s0 (s.resetWgh b a) := by
  unfold State.resetWgh
  dsimp only
  refine onWgh (foldl (fun _ _ h => h.completed b _) _ ?_) b _
  split
  · split
    · next p _ hb =>
      rw [State.abandonAll_of_empty (ha.resolve_left (by simp [hb]))]
      exact h
    · exact h
  · exact h

theorem benchReset (h : BootKept s0 s) {b : Bid} (hb : (s.wgh b).buckets = []) : BootKept s0 (s.benchReset b) := by
  unfold State.benchReset
  have hs := ((h.resetVote b).wakeCores fun u => u.bench == b.val).stopProofs fun u => u.bench == b.val
  have hw : ((((s.resetVote b).wakeCores fun u => u.bench == b.val).stopProofs fun u => u.bench == b.val).wgh b).buckets = [] :=
    (congrArg Weighbridge.buckets (s.resetVote_wgh b)).trans hb
  exact ((((hs.resetWgh (.inr hw)).wipeBench b).showCommit b _).barsRest b).resetPlan _

/-! ## Partitions -/

variable (p : Part)

theorem resetStep (h : BootKept s0 s) : BootKept s0 (s.resetStep p) := by
  refine resetRegs (resetRegs (resetRegs (resetRegs (h.onCtl _ _) (.inl ?_)) (.inl ?_)) (.inl ?_)) (.inl ?_)
  · simp only [K.MIR_CTL, K.BOOT_STAT]; omega
  · simp only [K.FAB_PART, K.BOOT_STAT]; omega
  · simp only [K.FAB_LOST, K.BOOT_STAT]; omega
  · simp only [K.FAB_ROUTE, K.BOOT_STAT]; omega

theorem resetBar (h : BootKept s0 s) : BootKept s0 (s.resetBar p) := by
  unfold State.resetBar
  refine resetRegs ?_ (.inl (by simp only [K.BAR_MASK, K.BOOT_STAT]; omega))
  exact (h.onBar p fun _ => Barrier.reset).same rfl rfl

theorem resetSets (h : BootKept s0 s) : BootKept s0 (s.resetSets p) := by
  unfold State.resetSets
  have hmir : BootKept s0 ((s.setTx p none).setRb (K.MIR_CTL p) F.MIR_CTL_BUSY false) :=
    (h.onBulk _).setRb _ _ (by simp only [K.MIR_CTL, K.BOOT_STAT]; omega)
  have hset (t : State) (n : Fin 4) (ht : BootKept s0 t) : BootKept s0 (t.freeSet p n) :=
    (ht.setReg 0 (by simp only [K.COW_CTL, K.BOOT_STAT]; omega)).onCow p n _
  exact setReg (j := K.EXPORT_CTL p) (onBulk (foldl hset _ hmir) _) _ (by simp only [K.EXPORT_CTL, K.BOOT_STAT]; omega)

theorem postEntry (h : BootKept s0 s) {q : Nat} (hq : q < 256) (w0 w1 : Word) : BootKept s0 (s.postEntry q w0 w1) := by
  have hptr : K.HQ_PTR q ≠ K.BOOT_STAT := by simp only [K.HQ_PTR, K.BOOT_STAT]; omega
  have hctl : K.HQ_CTL q ≠ K.BOOT_STAT := by simp only [K.HQ_CTL, K.BOOT_STAT]; omega
  have hvec (t : State) (ht : BootKept s0 t) : BootKept s0 (t.qVector q) := by
    unfold State.qVector
    split
    · exact ht.same rfl rfl
    · exact ht
  unfold State.postEntry
  split
  · exact h
  · next p _ =>
    have hput (l : List Byte) (a n : Nat) (x : QState) : BootKept s0 (((s.hostPut p a l).setQp q F.HQ_PTR_CQ_TAIL n).setHq q x) :=
      ((h.onHport p _).setRf _ _ hptr).setHq q x
    have herr (t : State) (ht : BootKept s0 t) : BootKept s0 (t.qError q) := ht.setRb _ _ hctl
    dsimp only
    exact ite (hvec _ (ite (herr _ (hput _ _ _ _)) (hput _ _ _ _))) (ite (herr _ (hput _ _ _ _)) (hput _ _ _ _))

theorem abortQueue (h : BootKept s0 s) {q : Nat} (hq : q < 256) : BootKept s0 (s.abortQueue p q) := by
  have hctl : K.HQ_CTL q ≠ K.BOOT_STAT := by simp only [K.HQ_CTL, K.BOOT_STAT]; omega
  unfold State.abortQueue
  refine setRb (setRb ?_ _ _ hctl) _ _ hctl
  split
  · refine foldl (fun s c h => ?_) _ (h.setHq q _)
    show BootKept s0 (if _ then _ else _)
    split
    · exact h.postEntry hq _ _
    · exact h.setHq q _
  · exact h.setHq q _

theorem resetQueue (h : BootKept s0 s) {q : Nat} (hq : q < 256) : BootKept s0 (s.resetQueue q) := by
  have hctl : K.HQ_CTL q ≠ K.BOOT_STAT := by simp only [K.HQ_CTL, K.BOOT_STAT]; omega
  refine setHq (setRf (setRf (h.resetRegs (.inl ?_)) _ _ hctl) _ _ hctl) q _
  simp only [K.HQ_SQ, K.BOOT_STAT]; omega

theorem foldl_queues {f : State → Nat → State} (hf : ∀ s q, q < 256 → BootKept s0 s → BootKept s0 (f s q)) (own : Nat → Bool)
    (h : BootKept s0 s) : BootKept s0 (((List.range 256).filter own).foldl f s) :=
  foldl_of_mem (fun s q hq => hf s q (List.mem_range.mp (List.mem_of_mem_filter hq))) h

theorem hqStat (h : BootKept s0 s) (f : Fld) : BootKept s0 (s.hqStat p f) :=
  same (h.setRb (j := K.HQ_STAT p) f true (by simp only [K.HQ_STAT, K.BOOT_STAT]; omega)) rfl rfl

theorem resetHost (h : BootKept s0 s) : BootKept s0 (s.resetHost p) := by
  have habort : BootKept s0 (s.abortQueues p) := by
    unfold State.abortQueues
    dsimp only
    refine hqStat p ?_ _
    exact (foldl_queues (fun s q hq h => h.abortQueue p hq) _ h).same rfl rfl
  unfold State.resetHost
  refine resetRegs (resetRegs (foldl_queues (fun s q hq h => h.resetQueue hq) _ habort) (.inl ?_)) (.inl ?_)
  · simp only [K.HQ_LIM, K.BOOT_STAT]; omega
  · simp only [K.BAR2_SEG, K.BOOT_STAT]; omega

theorem resetRing (h : BootKept s0 s) : BootKept s0 (s.resetRing p) :=
  same (h.setRb (j := K.ERR_HEAD p) F.ERR_HEAD_ENABLE false (by simp only [K.ERR_HEAD, K.BOOT_STAT]; omega)) rfl rfl

theorem resetPlumb (h : BootKept s0 s) : BootKept s0 (s.resetPlumb p) := by
  refine (h.onPlumb p _).resetRegs (.inl ?_)
  simp only [K.PLM_CTL, K.BOOT_STAT]; omega

theorem discard (h : BootKept s0 s) (drop : Option PortNo × Packet → Bool) : BootKept s0 (s.discard drop) := by
  refine foldl (fun s x h => ?_) _ (h.same rfl rfl)
  unfold State.freed
  split
  · exact h
  · exact h.same rfl rfl

theorem resetPart (h : BootKept s0 s) : BootKept s0 (s.resetPart p) := by
  have hsix := (((((h.resetStep p).resetBar p).resetSets p).resetHost p).resetRing p).resetPlumb p
  have hregs := (hsix.discard fun x => pktDstPart x.2 == p).resetRegs (lo := K.PART_CTR p 0) (hi := K.PART_CTR p 512)
    (.inr (by simp only [K.PART_CTR, K.BOOT_STAT]; omega))
  have hproof := hregs.setRf F.PROOF_STAT_DONE 0 (j := K.PROOF_STAT p) (by simp only [K.PROOF_STAT, K.BOOT_STAT]; omega)
  exact same (hproof.setRf ⟨F.REM_CTL_RELEASE.lo + p.val, 1⟩ 0 (j := K.REM_CTL) (by decide)) rfl rfl

/-! ## The module -/

theorem holdClock (h : BootKept s0 s) (r : ResetReq) (on : Bool) : BootKept s0 (s.holdClock r on) := by
  unfold State.holdClock
  refine foldl_of_mem (fun s b hb h => ?_) h
  have hlt : b < 16 := by
    obtain ⟨c, -, hc⟩ := List.mem_flatMap.mp hb
    exact List.mem_singleton.mp hc ▸ c.isLt
  split
  · exact h.setRb (j := K.CLK_BENCH b) _ _ (by simp only [K.CLK_BENCH, K.BOOT_STAT]; omega)
  · exact h

theorem noteReset (h : BootKept s0 s) (scope cause : Nat) : BootKept s0 (s.noteReset scope cause) :=
  ((h.setRf _ _ (by decide)).setRf _ _ (by decide)).setRf _ _ (by decide)

end BootKept

/-- What a module reset does to partitions, Benches, Proofs and the plan, before the Hub's registers go. -/
def State.moduleUnits (s : State) : State :=
  let s := s.bulk.zeroing.foldl (fun (s : State) e => s.zeroRow e.1) s
  let s := allParts.foldl (fun (s : State) p => (s.onCtl p fun _ => StepCtl.reset).setRb (K.MIR_CTL p) F.MIR_CTL_BUSY false) s
  let s := allBids.foldl (fun (s : State) b =>
    (((s.resetWgh b false).benchReset b).resetRegs (K.WGH_RESID b) (K.WGH_RESID b + 1)).resetRegs (K.IMEM b 0)
      (K.IMEM b 32768)) s
  let s := allParts.foldl (fun (s : State) p => s.resetPart p) s
  ((s.stopProofs fun _ => true).wakeCores fun _ => true).resetPlan fun u => (unitBench u).isNone

/-- The Hub's registers and links at a module reset. -/
def State.moduleHub (s : State) : State :=
  { s with
    regs := s.regs.filter fun e => e.1 < hubKey || keptAtModule e.1
    fab := { s.fab with ports := s.fab.ports.map fun q => { PortSt.reset with outbox := q.outbox } }
    errs := { s.errs with wins := [], phase := ErrAgg.reset.phase }
    host := { s.host with queues := [], aborting := 0, ports := s.host.ports.map HostPort.fresh }
    bulk := { s.bulk with copying := [], zeroing := [], rx := none } }

theorem State.moduleReset_eq (s : State) : s.moduleReset = (s.reseat (((s.moduleUnits.moduleHub.setRf K.PWR_LIMIT
    F.PWR_LIMIT_LIMIT_W 3400).setRf K.REM_CTL F.REM_CTL_GRACE_S 10).resetMgmt)).leaveStandby := rfl

theorem BootKept.moduleUnits {s0 s : State} (h : BootKept s0 s) : BootKept s0 s.moduleUnits := by
  refine BootKept.resetPlan (BootKept.wakeCores (BootKept.stopProofs (BootKept.foldl (fun s p h => h.resetPart p) _
    (BootKept.foldl (fun s b h => ?_) _ (BootKept.foldl (fun s p h => ?_) _ (BootKept.foldl (fun s e h => ?_) _ h)))) _) _) _
  · have hb := b.isLt
    refine BootKept.resetRegs (BootKept.resetRegs (BootKept.benchReset (h.resetWgh (.inl rfl)) (s.resetWgh_buckets b _)) (.inl ?_))
      (.inl ?_)
    · simp only [K.WGH_RESID, K.BOOT_STAT]; omega
    · simp only [K.IMEM, K.BOOT_STAT]; omega
  · exact (h.onCtl p _).setRb _ _ (by simp only [K.MIR_CTL, K.BOOT_STAT]; omega)
  · exact h.same rfl rfl

theorem keptAtModule_bootStat : (K.BOOT_STAT < hubKey || keptAtModule K.BOOT_STAT) = true := by decide +kernel

theorem State.moduleHub_reg (s : State) (k : Nat) (h : (k < hubKey || keptAtModule k) = true) : s.moduleHub.reg k = s.reg k := by
  have hf := tget_filter (regReset k) s.regs (fun k => k < hubKey || keptAtModule k) k
  rw [if_pos h] at hf
  exact hf

theorem BootKept.moduleHub {s0 s : State} (h : BootKept s0 s) : BootKept s0 s.moduleHub :=
  ⟨(s.moduleHub_reg _ keptAtModule_bootStat).trans h.boot, h.flash⟩

end Sys2Proof.Machine
end

section
/-! SUPPORT. BOOT_STAT's fields, and a PENDING image given up by a module reset (R513, R538). -/

namespace Sys2Proof.Machine

/-! ## BOOT_STAT -/

section
variable (s : State)

theorem State.setStage_stage {n : Nat} (h : n < 8) : (s.setStage n).stage = n :=
  (s.rf_setRf_same _ _ _ (by decide)).trans (Nat.mod_eq_of_lt h)

theorem State.setStage_rf (n : Nat) {f : Fld} (hlo : 3 ≤ f.lo) (hw : f.lo + f.w ≤ 64) :
    (s.setStage n).rf K.BOOT_STAT f = s.rf K.BOOT_STAT f := s.rf_setRf_beside _ _ (.inl hlo) hw

theorem State.setStage_reg_other (n : Nat) {k : Nat} (h : K.BOOT_STAT ≠ k) : (s.setStage n).reg k = s.reg k :=
  s.setReg_other _ _ _ h

@[simp] theorem State.setStage_mem (n : Nat) : (s.setStage n).mem = s.mem := s.setRf_mem _ _ _

/-- The fields that show the boot control word and the firmware counter are PENDING_VALID, SLOT_PENDING, TRIED and SVN_MIN. -/
theorem State.showSlots_rf {f : Fld} (h : f.lo + f.w ≤ 9 ∨ 12 ≤ f.lo ∧ f.lo + f.w ≤ 32) :
    s.showSlots.rf K.BOOT_STAT f = s.rf K.BOOT_STAT f := by
  have hbit (g : Fld) (hg : 9 ≤ g.lo) (hg' : g.lo + g.w ≤ 12) (u : State) (v : Bool) :
      (u.setRb K.BOOT_STAT g v).rf K.BOOT_STAT f = u.rf K.BOOT_STAT f := u.rf_setRb_beside _ _ (by omega) (by omega)
  unfold State.showSlots
  dsimp only
  rw [State.rf_setRf_beside _ _ _ (by simp only [F.BOOT_STAT_SVN_MIN]; omega) (by omega),
    hbit _ (by decide) (by decide), hbit _ (by decide) (by decide), hbit _ (by decide) (by decide)]

theorem State.showSlots_rb {f : Fld} (h : f.lo + f.w ≤ 9 ∨ 12 ≤ f.lo ∧ f.lo + f.w ≤ 32) :
    s.showSlots.rb K.BOOT_STAT f = s.rb K.BOOT_STAT f := by rw [State.rb, s.showSlots_rf h, State.rb]

@[simp] theorem State.showSlots_mem : s.showSlots.mem = s.mem := by simp [State.showSlots]

/-! ## A module reset (R480, R511) -/

theorem BootKept.leaveStandby : BootKept s s.leaveStandby := (BootKept.refl s).setRf _ _ (by decide) |>.ite (BootKept.refl s)

/-- What a module reset brings before the management side: BOOT_STAT and the flash stand. -/
theorem BootKept.beforeMgmt : BootKept s ((s.moduleUnits.moduleHub.setRf K.PWR_LIMIT F.PWR_LIMIT_LIMIT_W 3400).setRf K.REM_CTL
    F.REM_CTL_GRACE_S 10) :=
  ((BootKept.refl s).moduleUnits.moduleHub.setRf _ _ (by decide)).setRf _ _ (by decide)

theorem State.reseat_reg (t : State) (k : Nat) : (s.reseat t).reg k = t.reg k := rfl

theorem State.resetMgmt_bootStat : s.resetMgmt.reg K.BOOT_STAT = setFld (s.reg K.BOOT_STAT) 0 3 0 :=
  (State.reg_setReg _ _ _ _).trans (if_pos rfl)

theorem State.resetMgmt_control : s.resetMgmt.mgmt.flash.pendingSlot = s.mgmt.flash.pendingSlot
    ∧ s.resetMgmt.mgmt.flash.tried = s.mgmt.flash.tried := ⟨rfl, rfl⟩

/-- A module reset leaves BOOT_STAT but for its stage, which is the ROM's. -/
theorem State.moduleReset_bootStat : s.moduleReset.reg K.BOOT_STAT = setFld (s.reg K.BOOT_STAT) 0 3 0 := by
  rw [State.moduleReset_eq, (BootKept.leaveStandby _).boot, State.reseat_reg, State.resetMgmt_bootStat,
    (BootKept.beforeMgmt s).boot]

/-- A module reset leaves the boot control word (R511). -/
theorem State.moduleReset_control : s.moduleReset.mgmt.flash.pendingSlot = s.mgmt.flash.pendingSlot
    ∧ s.moduleReset.mgmt.flash.tried = s.mgmt.flash.tried := by
  have hk := (BootKept.beforeMgmt s).flash
  rw [State.moduleReset_eq, (BootKept.leaveStandby _).flash]
  generalize (s.moduleUnits.moduleHub.setRf K.PWR_LIMIT F.PWR_LIMIT_LIMIT_W 3400).setRf K.REM_CTL F.REM_CTL_GRACE_S 10 = u at hk ⊢
  exact ⟨u.resetMgmt_control.1.trans (congrArg Flash.pendingSlot hk), u.resetMgmt_control.2.trans (congrArg Flash.tried hk)⟩

theorem State.noteReset_lastScope {scope : Nat} (h : scope < 8) (cause : Nat) :
    (s.noteReset scope cause).rf K.RST_STAT F.RST_STAT_LAST_SCOPE = scope := by
  unfold State.noteReset
  dsimp only
  rw [State.rf_setRf_beside _ _ _ (by decide) (by decide), State.rf_setRf_beside _ _ _ (by decide) (by decide),
    State.rf_setRf_same _ _ _ _ (by decide)]
  exact Nat.mod_eq_of_lt h

/-- A module reset performed: the ROM runs, the rest of BOOT_STAT and the boot control word stand, and RST_STAT shows it. -/
theorem State.performReset_module (c : Nat) :
    (s.performReset (moduleReq c)).stage = 0
      ∧ (∀ f : Fld, 3 ≤ f.lo → f.lo + f.w ≤ 64 → (s.performReset (moduleReq c)).rf K.BOOT_STAT f = s.rf K.BOOT_STAT f)
      ∧ (s.performReset (moduleReq c)).mgmt.flash.pendingSlot = s.mgmt.flash.pendingSlot
      ∧ (s.performReset (moduleReq c)).mgmt.flash.tried = s.mgmt.flash.tried
      ∧ (s.performReset (moduleReq c)).rf K.RST_STAT F.RST_STAT_LAST_SCOPE = 4 := by
  have hh : BootKept s (s.holdClock (moduleReq c) true) := (BootKept.refl s).holdClock _ _
  have hn : BootKept (s.holdClock (moduleReq c) true).moduleReset (s.performReset (moduleReq c)) := (BootKept.refl _).noteReset 4 c
  have hreg : (s.performReset (moduleReq c)).reg K.BOOT_STAT = setFld (s.reg K.BOOT_STAT) 0 3 0 := by
    rw [hn.boot, State.moduleReset_bootStat, hh.boot]
  refine ⟨?_, fun f hlo hw => ?_, ?_, ?_, State.noteReset_lastScope _ (show 4 < 8 by decide) c⟩
  · rw [State.stage, State.rf, hreg]
    exact fld_setFld_same _ 0 3 0 (by decide)
  · rw [State.rf, hreg, fld_setFld_beside _ _ (.inl hlo) hw, State.rf]
  · rw [hn.flash, (State.moduleReset_control _).1, hh.flash]
  · rw [hn.flash, (State.moduleReset_control _).2, hh.flash]

/-- A module reset requested while none waits is performed. -/
theorem State.requestReset_module (c : Nat) (h : s.mgmt.resetsBusy = []) :
    ∃ u, s.requestReset (moduleReq c) = u.performReset (moduleReq c)
    ∧ BootKept s u := by
  refine ⟨(s.setRb K.RST_STAT F.RST_STAT_BUSY true).onMgmt fun m => { m with resetsBusy := [] ++ [{ moduleReq c with waiting := false }] },
    ?_, BootKept.same ((BootKept.refl s).setRb _ _ (by decide)) rfl rfl⟩
  unfold State.requestReset
  rw [h]
  rfl

/-- A PENDING image given up: the ROM runs again, nothing is PENDING, and FW_FALLBACK says so (R513). -/
theorem State.fallBack_gives : s.fallBack.stage = 0 ∧ s.fallBack.mgmt.flash.pendingSlot = none ∧ s.fallBack.mgmt.flash.tried = false
    ∧ s.fallBack.rb K.BOOT_STAT F.BOOT_STAT_FW_FALLBACK = true ∧ s.fallBack.rf K.RST_STAT F.RST_STAT_LAST_SCOPE = 4 := by
  let v := ((s.onFlash fun f => { f with pendingSlot := none, tried := false }).showSlots).setRb K.BOOT_STAT F.BOOT_STAT_FW_FALLBACK true
  obtain ⟨u, hu, hk⟩ := State.requestReset_module ((v.countH 421 1).onMgmt fun m => { m with resetsBusy := [] }) cRecovery rfl
  have hv : BootKept v u := ⟨hk.boot.trans (v.setReg_other _ _ _ (by decide)), hk.flash⟩
  have hf : s.fallBack = u.performReset (moduleReq cRecovery) := hu
  have hset : u.rf K.BOOT_STAT F.BOOT_STAT_FW_FALLBACK = v.rf K.BOOT_STAT F.BOOT_STAT_FW_FALLBACK := by
    rw [State.rf, hv.boot, State.rf]
  obtain ⟨hstage, hrf, hpending, htried, hscope⟩ := u.performReset_module cRecovery
  rw [hf]
  refine ⟨hstage, ?_, ?_, ?_, hscope⟩
  · rw [hpending, hv.flash]; rfl
  · rw [htried, hv.flash]; rfl
  · rw [State.rb, hrf _ (by decide) (by decide), hset]
    exact State.rb_setRb_same _ _ _ _ (by decide) (by decide)

end

/-! ## PENDING_BOOT_TIMEOUT (R513) -/

theorem pendingBootTimeout_eq (s : State) : exec .pendingBootTimeout s
    = .next (if s.mgmt.flash.tried && s.pwr.mainOn && s.stage != stageReady then s.fallBack else s) := rfl

theorem late_iff (s : State) : (s.mgmt.flash.tried && s.pwr.mainOn && s.stage != stageReady) = true
    ↔ s.mgmt.flash.tried = true ∧ s.pwr.mainOn = true ∧ s.stage ≠ stageReady := by
  simp [and_assoc]

/-! ## The ROM (R511-R513, R525) -/

/-- The state in which the ROM chooses: the build record of the flash in force and the keys derived. -/
def State.romReady (s : State) (ok : Bool) : State :=
  ((s.countH 420 1).onMgmt fun m => { m with inForce := s.flashBuild }).deriveKeys ok

section
variable {s : State} {ok : Bool} {l : List (Nat × Nat × Nat)}

theorem boot_idle (h : s.pwr.mainOn = false ∨ s.stage ≠ 0 ∧ s.stage ≠ 1) : exec (.boot ok l) s = .next s := by
  change execBoot ok l s = _
  unfold execBoot
  obtain h | ⟨h0, h1⟩ := h
  · rw [h]; rfl
  · rw [if_neg (show ¬ s.stage = stageFirmware from h1), if_pos (show s.stage ≠ stageRom from h0), ite_self]

theorem boot_rom (hon : s.pwr.mainOn = true) (h : s.stage = 0) : exec (.boot ok l) s
    = .next (match s.flashBuild with
      | none => (s.romReady ok).setStage stageRecovery
      | some r => (s.romReady ok).bootChoose r) := by
  have hrec : (s.romReady ok).buildRec = s.flashBuild := rfl
  change execBoot ok l s = _
  unfold execBoot
  rw [hon, h]
  change (match (s.romReady ok).buildRec with
      | none => Host.Outcome.next ((s.romReady ok).setStage stageRecovery)
      | some r => .next ((s.romReady ok).bootChoose r)) = _
  rw [hrec]
  cases s.flashBuild <;> rfl

@[simp] theorem State.romReady_mem (s : State) (ok : Bool) : (s.romReady ok).mem = s.mem := by
  rw [State.romReady, State.deriveKeys, State.setRb_mem]
  exact (s.countH_mem 420 1 :)

/-- Without a derived key that the certificate of the record in force certifies, IDENTITY_FAIL is set (R525). -/
theorem State.romReady_identity {r : BuildRec} (h : s.flashBuild = some r) : (s.romReady ok).rb K.BOOT_STAT F.BOOT_STAT_IDENTITY_FAIL
    = !(ok && r.certified && (s.mgmt.identityOk || s.mgmt.buildWritten)) := by
  unfold State.romReady State.deriveKeys
  rw [State.rb_setRb_same _ _ _ _ (by decide) (by decide)]
  change (!(ok && (match s.flashBuild with | some r => r.certified | none => false)
    && (s.mgmt.identityOk || s.mgmt.buildWritten))) = _
  rw [h]

/-! ### An image is chosen -/

theorem State.bootBifur_reg (s : State) (r : BuildRec) {k : Nat} (h : K.HIF_CFG ≠ k) : (s.bootBifur r).reg k = s.reg k := by
  unfold State.bootBifur
  dsimp only
  rw [State.setRf, State.setReg_other _ _ _ _ h, State.setRf, State.setReg_other _ _ _ _ h]

theorem State.bootBifur_mem (s : State) (r : BuildRec) : (s.bootBifur r).mem = s.mem := by
  unfold State.bootBifur
  dsimp only
  rw [State.setRf_mem, State.setRf_mem]

theorem State.bootImage_stage (s : State) (r : BuildRec) (slot : Bool) : (s.bootImage r slot).stage = 1 :=
  State.setStage_stage _ (by decide)

/-- The fields of BOOT_STAT beside those of the boot control word, SLOT_ACTIVE's own among them. -/
theorem State.bootImage_rb (s : State) (r : BuildRec) (slot : Bool) {f : Fld} (hlo : 3 ≤ f.lo) (hw : f.lo + f.w ≤ 9) :
    (s.bootImage r slot).rb K.BOOT_STAT f = (s.setRb K.BOOT_STAT F.BOOT_STAT_SLOT_ACTIVE slot).rb K.BOOT_STAT f := by
  unfold State.bootImage
  dsimp only
  rw [State.rb, State.setStage_rf _ _ hlo (by omega), State.rf_setRf_other _ _ _ _ (by decide), State.rf,
    State.bootBifur_reg _ _ (by decide)]
  exact State.showSlots_rb _ (.inl hw)

theorem State.bootImage_mem (s : State) (r : BuildRec) (slot : Bool) : (s.bootImage r slot).mem = s.mem := by
  unfold State.bootImage
  dsimp only
  rw [State.setStage_mem, State.setRf_mem, State.bootBifur_mem, State.showSlots_mem, State.setRb_mem]
  rfl

theorem State.bootImage_running (s : State) (r : BuildRec) (slot : Bool) :
    (s.bootImage r slot).mgmt = { s.mgmt with running := s.mgmt.flash.slot slot } := rfl

/-- The ROM boots a valid image: the PENDING one, then on trial, else the one it chooses. -/
theorem State.bootChoose_image {r : BuildRec} {slot : Bool}
    (h : (s.mgmt.flash.pendingSlot = some slot ∧ s.mgmt.flash.slotOk r slot = true)
      ∨ (s.mgmt.flash.pendingSlot = none ∧ s.mgmt.flash.choose r = some slot)) :
    ∃ u : State, s.bootChoose r = u.bootImage r slot ∧ u.regs = s.regs ∧ u.mem = s.mem
      ∧ u.mgmt = { s.mgmt with flash := { s.mgmt.flash with tried := s.mgmt.flash.tried || s.mgmt.flash.pendingSlot.isSome } } := by
  obtain ⟨hp, hok⟩ | ⟨hp, hc⟩ := h
  · refine ⟨s.onFlash fun f => { f with tried := true }, ?_, rfl, rfl, ?_⟩
    · unfold State.bootChoose
      rw [hp]
      exact if_pos hok
    · have ht : (s.mgmt.flash.tried || s.mgmt.flash.pendingSlot.isSome) = true := by rw [hp]; exact Bool.or_true _
      rw [ht]
      rfl
  · refine ⟨s, ?_, rfl, rfl, ?_⟩
    · unfold State.bootChoose
      rw [hp]
      simp only [hc]
    · have ht : (s.mgmt.flash.tried || s.mgmt.flash.pendingSlot.isSome) = s.mgmt.flash.tried := by rw [hp]; exact Bool.or_false _
      rw [ht]

theorem State.bootChoose_fallBack {r : BuildRec} {slot : Bool} (hp : s.mgmt.flash.pendingSlot = some slot)
    (hbad : s.mgmt.flash.slotOk r slot = false) : s.bootChoose r = (s.onFlash fun f => { f with tried := true }).fallBack := by
  unfold State.bootChoose
  rw [hp]
  exact if_neg (Bool.not_eq_true _ ▸ hbad)

theorem State.bootChoose_none {r : BuildRec} (hp : s.mgmt.flash.pendingSlot = none) (hc : s.mgmt.flash.choose r = none) :
    s.bootChoose r = s.setStage stageRecovery := by
  unfold State.bootChoose
  rw [hp]
  simp only [hc]

theorem State.romReady_flash : (s.romReady ok).mgmt.flash = s.mgmt.flash := rfl

theorem boot_image {r : BuildRec} {slot : Bool} (hon : s.pwr.mainOn = true) (h0 : s.stage = 0) (hr : s.flashBuild = some r)
    (h : (s.mgmt.flash.pendingSlot = some slot ∧ s.mgmt.flash.slotOk r slot = true)
      ∨ (s.mgmt.flash.pendingSlot = none ∧ s.mgmt.flash.choose r = some slot)) :
    ∃ t, exec (.boot ok l) s = .next t ∧ t.stage = 1 ∧ t.mgmt.running = s.mgmt.flash.slot slot ∧ t.mgmt.inForce = some r
      ∧ t.mgmt.flash.tried = (s.mgmt.flash.tried || s.mgmt.flash.pendingSlot.isSome)
      ∧ t.rb K.BOOT_STAT F.BOOT_STAT_SLOT_ACTIVE = slot
      ∧ t.rb K.BOOT_STAT F.BOOT_STAT_IDENTITY_FAIL
        = !(ok && r.certified && (s.mgmt.identityOk || s.mgmt.buildWritten)) ∧ t.mem = s.mem := by
  rw [← State.romReady_flash (s := s) (ok := ok)] at h
  obtain ⟨u, hu, hregs, hmem, hmgmt⟩ := State.bootChoose_image h
  have hx : exec (.boot ok l) s = .next (u.bootImage r slot) := by
    rw [boot_rom hon h0, hr]
    exact congrArg Host.Outcome.next hu
  refine ⟨_, hx, State.bootImage_stage .., ?_, ?_, ?_, ?_, ?_, ?_⟩
  · rw [State.bootImage_running, hmgmt]; rfl
  · rw [State.bootImage_running, hmgmt]; exact hr
  · rw [State.bootImage_running, hmgmt]; rfl
  · rw [State.bootImage_rb _ _ _ (by decide) (by decide), State.rb_setRb_same _ _ _ _ (by decide) (by decide)]
  · rw [State.bootImage_rb _ _ _ (by decide) (by decide), State.rb_setRb_beside _ _ _ (by decide) (by decide),
      ← State.romReady_identity hr]
    exact congrArg (fun t => fld (tget (regReset K.BOOT_STAT) t K.BOOT_STAT) 4 1 != 0) hregs
  · rw [State.bootImage_mem, hmem, State.romReady_mem]

theorem boot_fallBack {r : BuildRec} {slot : Bool} (hon : s.pwr.mainOn = true) (h0 : s.stage = 0) (hr : s.flashBuild = some r)
    (hp : s.mgmt.flash.pendingSlot = some slot) (hbad : s.mgmt.flash.slotOk r slot = false) :
    ∃ u : State, exec (.boot ok l) s = .next u.fallBack := by
  rw [← State.romReady_flash (s := s) (ok := ok)] at hp hbad
  rw [boot_rom hon h0, hr]
  exact ⟨_, congrArg Host.Outcome.next (State.bootChoose_fallBack hp hbad)⟩

theorem boot_noImage {r : BuildRec} (hon : s.pwr.mainOn = true) (h0 : s.stage = 0) (hr : s.flashBuild = some r)
    (hp : s.mgmt.flash.pendingSlot = none) (hc : s.mgmt.flash.choose r = none) :
    exec (.boot ok l) s = .next ((s.romReady ok).setStage stageRecovery) := by
  rw [← State.romReady_flash (s := s) (ok := ok)] at hp hc
  rw [boot_rom hon h0, hr]
  exact congrArg Host.Outcome.next (State.bootChoose_none hp hc)

end

end Sys2Proof.Machine
end

section
/-! SUPPORT. The plan of a boot bit by bit, and what training waits for (R514, R518, R520, R521). -/

namespace Sys2Proof.Machine

/-! ## A mask of the places that pass a test -/

theorem foldl_bits_lt (c : Nat → Bool) (n : Nat) :
    (List.range n).foldl (fun m k => if c k then m + 2 ^ k else m) 0 < 2 ^ n := by
  induction n with
  | zero => simp
  | succ n ih =>
    rw [List.range_succ, List.foldl_append, List.foldl_cons, List.foldl_nil, Nat.pow_succ]
    split <;> omega

theorem foldl_bits_testBit (c : Nat → Bool) {n i : Nat} (hi : i < n) :
    ((List.range n).foldl (fun m k => if c k then m + 2 ^ k else m) 0).testBit i = c i := by
  induction n with
  | zero => omega
  | succ n ih =>
    have hlt := foldl_bits_lt c n
    rw [List.range_succ, List.foldl_append, List.foldl_cons, List.foldl_nil]
    generalize (List.range n).foldl (fun m k => if c k then m + 2 ^ k else m) 0 = x at ih hlt ⊢
    obtain hlo | rfl := Nat.lt_succ_iff_lt_or_eq.mp hi
    · split
      · rw [Nat.add_comm, Nat.testBit_two_pow_add_gt hlo, ih hlo]
      · exact ih hlo
    · have hx : x.testBit i = false := Nat.testBit_lt_two_pow hlt
      split
      · next hc => rw [Nat.add_comm, Nat.testBit_two_pow_add_eq, hx, hc]; rfl
      · next hc => rw [hx, Bool.eq_false_of_not_eq_true hc]

/-! ## FP_MODULE's bits -/

theorem pack_planModule (g rows st po o : Nat) : pack [(0, 16, g), (16, 7, rows), (24, 8, st), (32, 16, po), (48, 1, o)]
    = BitVec.ofNat 64 ((g % 2 ^ 16) <<< 0 + (rows % 2 ^ 7) <<< 16 + (st % 2 ^ 8) <<< 24 + (po % 2 ^ 16) <<< 32 + (o % 2 ^ 1) <<< 48) := by
  simp only [pack, List.foldl_cons, List.foldl_nil, Nat.zero_add]

theorem toNat_planModule (g rows st po o : Nat) : (pack [(0, 16, g), (16, 7, rows), (24, 8, st), (32, 16, po), (48, 1, o)]).toNat
    = g % 65536 + rows % 128 * 65536 + st % 256 * 16777216 + po % 65536 * 4294967296 + o % 2 * 281474976710656 := by
  have h0 : (g % 2 ^ 16) <<< 0 = g % 65536 := Nat.shiftLeft_zero
  have h16 : (rows % 2 ^ 7) <<< 16 = rows % 128 * 65536 := Nat.shiftLeft_eq _ 16
  have h24 : (st % 2 ^ 8) <<< 24 = st % 256 * 16777216 := Nat.shiftLeft_eq _ 24
  have h32 : (po % 2 ^ 16) <<< 32 = po % 65536 * 4294967296 := Nat.shiftLeft_eq _ 32
  have h48 : (o % 2 ^ 1) <<< 48 = o % 2 * 281474976710656 := Nat.shiftLeft_eq _ 48
  have hlt : g % 65536 + rows % 128 * 65536 + st % 256 * 16777216 + po % 65536 * 4294967296 + o % 2 * 281474976710656
      < 18446744073709551616 := by omega
  rw [pack_planModule, h0, h16, h24, h32, h48, BitVec.toNat_ofNat]
  exact Nat.mod_eq_of_lt hlt

/-- A bit of a packed field is the field's. -/
theorem bit_of_div {w : Word} {lo n x i : Nat} (h : w.toNat / 2 ^ lo % 2 ^ n = x) (hi : i < n) : bit w (lo + i) = x.testBit i := by
  rw [← h, Nat.testBit_mod_two_pow, Nat.testBit_div_two_pow, decide_eq_true hi, Bool.true_and, Nat.add_comm]
  rfl

section
variable (s : State)

/-- Whether the build record in force has a port that is not left out (R521). -/
def State.planned (n : Nat) : Bool := match s.buildRec with | some r => s.portBuilt r n | none => false

/-- Whether the build record in force has a stack that is not left out (R521). -/
def State.plannedStack (k : Nat) : Bool :=
  match s.buildRec with
  | some r => r.module.getLsbD (24 + k) && !s.unitGone hubNo ucStack k && !s.unitGone hubNo ucHubCore (16 + k) && s.dieOk r (2 * k) 0
  | none => false

/-- A port is in this boot's plan when it is built and not FAILED. -/
theorem State.planPort_eq {n : Nat} (hn : n < 16) : s.planPort n = (s.planned n && s.rf (K.FAB_PORT n) F.FAB_PORT_STATE != 4) := by
  unfold State.planPort State.planBit State.planned
  cases s.buildRec with
  | none => rfl
  | some r =>
    dsimp only
    unfold State.planModule
    dsimp only
    have hp := foldl_bits_lt (fun n => s.portBuilt r n && s.rf (K.FAB_PORT n) F.FAB_PORT_STATE != 4) 16
    rw [bit_of_div (lo := 32) (n := 16) (x := _) ?_ hn]
    · exact foldl_bits_testBit (fun n => s.portBuilt r n && s.rf (K.FAB_PORT n) F.FAB_PORT_STATE != 4) hn
    · rw [toNat_planModule]
      generalize (List.range 16).foldl _ 0 = po at hp ⊢
      omega

/-- A stack is in this boot's plan when it is built and not absent. -/
theorem State.planStack_eq {k : Nat} (hk : k < 8) : s.planStack k = (s.plannedStack k && !s.rb (K.BMC_STAT k) F.BMC_STAT_ABSENT) := by
  unfold State.planStack State.planBit State.plannedStack
  cases s.buildRec with
  | none => rfl
  | some r =>
    dsimp only
    unfold State.planModule
    dsimp only
    have hp := foldl_bits_lt (fun k => r.module.getLsbD (24 + k) && !s.unitGone hubNo ucStack k
      && !s.unitGone hubNo ucHubCore (16 + k) && s.dieOk r (2 * k) 0 && !s.rb (K.BMC_STAT k) F.BMC_STAT_ABSENT) 8
    rw [bit_of_div (lo := 24) (n := 8) (x := _) ?_ hk]
    · exact foldl_bits_testBit (fun k => r.module.getLsbD (24 + k) && !s.unitGone hubNo ucStack k
        && !s.unitGone hubNo ucHubCore (16 + k) && s.dieOk r (2 * k) 0 && !s.rb (K.BMC_STAT k) F.BMC_STAT_ABSENT) hk
    · rw [toNat_planModule]
      generalize (List.range 8).foldl _ 0 = st at hp ⊢
      omega

end

/-- What the plan is made of, beside the ports' states and the absent stacks. -/
structure State.SamePlan (s t : State) : Prop where
  inForce : t.mgmt.inForce = s.mgmt.inForce
  health : t.health = s.health

namespace State.SamePlan

variable {s t : State} (h : s.SamePlan t)
include h

theorem buildRec : t.buildRec = s.buildRec := h.inForce
theorem unitGone (b c i : Nat) : t.unitGone b c i = s.unitGone b c i := by rw [State.unitGone, State.unitGone, h.health]
theorem dieOk (r : BuildRec) (b up : Nat) : t.dieOk r b up = s.dieOk r b up := by rw [State.dieOk, State.dieOk, h.unitGone]

theorem planned (n : Nat) : t.planned n = s.planned n := by
  simp only [State.planned, h.buildRec, State.portBuilt, h.unitGone, h.dieOk]

theorem plannedStack (k : Nat) : t.plannedStack k = s.plannedStack k := by
  simp only [State.plannedStack, h.buildRec, h.unitGone, h.dieOk]

end State.SamePlan

/-! ## Progress of training (R518, R520, R538) -/

section
variable (s : State)

theorem State.trained_iff : s.trained = true ↔
    (∀ k < 8, (!s.planStack k || s.mgmt.stacksDone.getLsbD k || s.rb (K.BMC_STAT k) F.BMC_STAT_ABSENT) = true)
      ∧ ∀ n < 16, (!s.planPort n || s.mgmt.portsDone.getLsbD n) = true := by
  simp only [State.trained, Bool.and_eq_true, List.all_eq_true, List.mem_range]

theorem bmcStat_ne_bootStat {k : Nat} (hk : k < 8) : K.BOOT_STAT ≠ K.BMC_STAT k := by simp only [K.BMC_STAT, K.BOOT_STAT]; omega
theorem fabPort_ne_bootStat {n : Nat} (hn : n < 16) : K.BOOT_STAT ≠ K.FAB_PORT n := by simp only [K.FAB_PORT, K.BOOT_STAT]; omega

/-- The stage decides nothing of what training waits for. -/
theorem State.setStage_trained (n : Nat) : (s.setStage n).trained = s.trained := by
  have hp : s.SamePlan (s.setStage n) := ⟨rfl, rfl⟩
  have hrf {k : Nat} (f : Fld) (hk : K.BOOT_STAT ≠ k) : (s.setStage n).rf k f = s.rf k f := by
    rw [State.rf, s.setStage_reg_other n hk, State.rf]
  have hstack {k : Nat} (hk : k < 8) : (s.setStage n).planStack k = s.planStack k := by
    rw [State.planStack_eq _ hk, State.planStack_eq _ hk, hp.plannedStack, State.rb, hrf _ (bmcStat_ne_bootStat hk), State.rb]
  have hport {k : Nat} (hk : k < 16) : (s.setStage n).planPort k = s.planPort k := by
    rw [State.planPort_eq _ hk, State.planPort_eq _ hk, hp.planned, hrf _ (fabPort_ne_bootStat hk)]
  have habsent {k : Nat} (hk : k < 8) : (s.setStage n).rb (K.BMC_STAT k) F.BMC_STAT_ABSENT = s.rb (K.BMC_STAT k) F.BMC_STAT_ABSENT := by
    rw [State.rb, hrf _ (bmcStat_ne_bootStat hk), State.rb]
  have hm : (s.setStage n).mgmt = s.mgmt := rfl
  rw [Bool.eq_iff_iff, State.trained_iff, State.trained_iff, hm]
  exact and_congr (forall₂_congr fun k hk => by rw [hstack hk, habsent hk]) (forall₂_congr fun k hk => by rw [hport hk])

/-- TRAINING passes to CHECKS or not; nothing but the stage changes. -/
theorem State.noteTrained_cases : s.noteTrained = s ∨ s.noteTrained = s.setStage stageChecks := by
  unfold State.noteTrained
  split
  · exact .inr rfl
  · exact .inl rfl

@[simp] theorem State.noteTrained_mem : s.noteTrained.mem = s.mem := by
  obtain h | h := s.noteTrained_cases <;> rw [h]
  exact s.setStage_mem _

theorem State.noteTrained_mgmt : s.noteTrained.mgmt = s.mgmt := by
  obtain h | h := s.noteTrained_cases <;> rw [h]
  rfl

theorem State.noteTrained_bulk : s.noteTrained.bulk = s.bulk := by
  obtain h | h := s.noteTrained_cases <;> rw [h]
  rfl

theorem State.noteTrained_samePlan : s.SamePlan s.noteTrained := by
  obtain h | h := s.noteTrained_cases <;> rw [h]
  exacts [⟨rfl, rfl⟩, ⟨rfl, rfl⟩]

theorem State.noteTrained_reg {k : Nat} (hk : K.BOOT_STAT ≠ k) : s.noteTrained.reg k = s.reg k := by
  obtain h | h := s.noteTrained_cases <;> rw [h]
  exact s.setStage_reg_other _ hk

theorem State.noteTrained_trained : s.noteTrained.trained = s.trained := by
  obtain h | h := s.noteTrained_cases <;> rw [h]
  exact s.setStage_trained _

theorem State.noteTrained_stage (h : s.stage = 2) : s.noteTrained.stage = if s.trained then 3 else 2 := by
  unfold State.noteTrained
  rw [h]
  cases s.trained
  · exact h
  · exact State.setStage_stage _ (by decide)

end

/-! ## Units that fail for this boot (R514, R515) -/

/-- A unit failed for this boot, with its record. -/
def State.failUnit (ev : Nat) (syn : Word → Word) (s : State) (x : Nat × Nat × Nat) : State :=
  let u : UnitId := ⟨x.1, x.2.1, x.2.2⟩
  let (f, s) := s.drawWord
  let s := s.emit (s.unitRec u ev (syn f))
  { s with health := { s.health with bootFailed := s.health.bootFailed ++ [u] } }

section
variable {s : State} {ev : Nat} {syn : Word → Word} (x : Nat × Nat × Nat) (l : List (Nat × Nat × Nat))

theorem State.failUnit_mem : (s.failUnit ev syn x).mem = s.mem := State.emit_mem ..

theorem State.failUnits_mem : (l.foldl (State.failUnit ev syn) s).mem = s.mem := foldl_mem (fun _ x => State.failUnit_mem x) l s

variable (hev : ev < 256)
include hev

theorem State.failUnit_accessed :
    Accessed s (s.drawWord.2.emit (s.drawWord.2.unitRec ⟨x.1, x.2.1, x.2.2⟩ ev (syn s.drawWord.1))) :=
  have hdraw : Accessed s s.drawWord.2 := ⟨fun _ _ => rfl, rfl, rfl, rfl, rfl, rfl, fun _ => rfl⟩
  hdraw.emit _ hev

theorem State.failUnit_reg {k : Nat} (hk : ¬ accessReg k) : (s.failUnit ev syn x).reg k = s.reg k :=
  (State.failUnit_accessed x hev).reg k hk

theorem State.failUnit_bootFailed : (s.failUnit ev syn x).health.bootFailed = s.health.bootFailed ++ [⟨x.1, x.2.1, x.2.2⟩] :=
  congrArg (· ++ [_]) (State.failUnit_accessed (syn := syn) x hev).bootFailed

theorem State.failUnits_reg {k : Nat} (hk : ¬ accessReg k) : (l.foldl (State.failUnit ev syn) s).reg k = s.reg k :=
  foldl_leaves (fun t : State => t.reg k) (fun _ x => State.failUnit_reg x hev hk) l s

/-- The units named fail for this boot. -/
theorem State.mem_failUnits {y : Nat × Nat × Nat} (hy : y ∈ l) :
    (⟨y.1, y.2.1, y.2.2⟩ : UnitId) ∈ (l.foldl (State.failUnit ev syn) s).health.bootFailed := by
  have hall (l : List (Nat × Nat × Nat)) (s : State) : (l.foldl (State.failUnit ev syn) s).health.bootFailed
      = s.health.bootFailed ++ l.map fun x => ⟨x.1, x.2.1, x.2.2⟩ := by
    induction l generalizing s with
    | nil => exact (List.append_nil _).symm
    | cons x xs ih => rw [List.foldl_cons, ih, State.failUnit_bootFailed x hev, List.map_cons, List.append_assoc, List.singleton_append]
  rw [hall]
  exact List.mem_append_right _ (List.mem_map_of_mem hy)

end

/-! ## The broadcast (R514, R518) -/

section
variable (s : State)

/-- A port of the plan begins to train; one that is not is off. -/
def State.trainPort (n : Nat) : State := s.setRf (K.FAB_PORT n) F.FAB_PORT_STATE (if s.planPort n then 2 else 0)

theorem State.trainPort_samePlan (n : Nat) : s.SamePlan (s.trainPort n) := ⟨rfl, rfl⟩

theorem State.SamePlan.trans {s t u : State} (h : s.SamePlan t) (g : t.SamePlan u) : s.SamePlan u :=
  ⟨g.inForce.trans h.inForce, g.health.trans h.health⟩

/-- Every port that is not FAILED: those named train or are off by the plan, the others stand. -/
theorem State.trainPorts_portState (l : List Nat) (n : PortNo) (hn : s.portState n ≠ 4) :
    (l.foldl State.trainPort s).portState n
      = if n.val ∈ l then (if s.planned n then 2 else 0) else s.portState n := by
  have hv (b : Bool) : (if b then 2 else 0) % 2 ^ F.FAB_PORT_STATE.w = if b then 2 else 0 := by cases b <;> rfl
  induction l generalizing s with
  | nil => simp
  | cons m rest ih =>
    rw [List.foldl_cons]
    by_cases hm : m = n.val
    · subst hm
      have hset : (s.trainPort n.val).portState n = if s.planned n then 2 else 0 := by
        have hne : (s.rf (K.FAB_PORT n.val) F.FAB_PORT_STATE != 4) = true := bne_iff_ne.mpr hn
        rw [State.portState, State.trainPort, State.rf_setRf_same _ _ _ _ (by decide), s.planPort_eq n.isLt, hne, Bool.and_true]
        exact hv _
      rw [ih _ (by rw [hset]; split <;> decide), hset, (s.trainPort_samePlan _).planned, if_pos List.mem_cons_self]
      exact ite_self _
    · have hkeep : (s.trainPort m).portState n = s.portState n :=
        s.rf_setRf_other _ _ _ (by simp only [K.FAB_PORT]; omega)
      rw [ih _ (by rwa [hkeep]), hkeep, (s.trainPort_samePlan _).planned]
      simp only [List.mem_cons, Ne.symm hm, false_or]

end

end Sys2Proof.Machine
end

section
/-! SUPPORT. The broadcast, start-up programs, the training of stacks and ports (R248, R514, R515, R517, R518). -/

namespace Sys2Proof.Machine

/-! ## The broadcast (R514, R518) -/

/-- The Bench PLLs locked. -/
def State.lockPlls (s : State) : State :=
  allBids.foldl (fun (s : State) b => s.setRb (K.CLK_BENCH b) F.CLK_BENCH_LOCKED true) s

/-- A stack that was absent is tried again. -/
def State.tryStack (s : State) (k : Fin 8) : State :=
  let absent := s.rb (K.BMC_STAT k) F.BMC_STAT_ABSENT
  let s := s.setRb (K.BMC_STAT k) F.BMC_STAT_ABSENT false
  let s := s.setRb (K.BMC_STAT k) F.BMC_STAT_ABSENT !s.planStack k
  if absent then s.onMgmt fun m => { m with stacksDone := m.stacksDone &&& ~~~ BitVec.ofNat 8 (2 ^ k.val) } else s

/-- The numbers of the module's ports. -/
def portNumbers : List Nat := do
  let n ← List.finRange 16
  pure n.val

theorem mem_portNumbers : ∀ n : PortNo, n.val ∈ portNumbers := by decide

theorem State.bootUnits_eq (s : State) :
    s.bootUnits = (List.finRange 8).foldl State.tryStack (portNumbers.foldl State.trainPort s).lockPlls := rfl

/-- A boot unit's step leaves memory, the ports' states and what the plan is made of. -/
structure State.PortsKept (s t : State) : Prop extends s.SamePlan t where
  mem : t.mem = s.mem
  port : ∀ n : PortNo, t.portState n = s.portState n

namespace State.PortsKept

variable {s0 s : State}

theorem refl (s : State) : s.PortsKept s := ⟨⟨rfl, rfl⟩, rfl, fun _ => rfl⟩

theorem setRb (h : s0.PortsKept s) {k : Nat} (f : Fld) (v : Bool) (hk : ∀ n : PortNo, k ≠ K.FAB_PORT n) :
    s0.PortsKept (s.setRb k f v) :=
  ⟨h.toSamePlan.trans ⟨rfl, rfl⟩, (s.setRb_mem k f v).trans h.mem, fun n => (s.rf_setRf_other _ _ _ (hk n)).trans (h.port n)⟩

theorem foldl {α : Type} {f : State → α → State} (hf : ∀ s x, s0.PortsKept s → s0.PortsKept (f s x)) (l : List α)
    (h : s0.PortsKept s) : s0.PortsKept (l.foldl f s) := by
  induction l generalizing s with
  | nil => exact h
  | cons x xs ih => exact ih (hf s x h)

theorem lockPlls (h : s0.PortsKept s) : s0.PortsKept s.lockPlls :=
  foldl (fun _ b h => h.setRb _ _ fun n => by simp only [K.CLK_BENCH, K.FAB_PORT]; omega) _ h

theorem tryStack (h : s0.PortsKept s) (k : Fin 8) : s0.PortsKept (s.tryStack k) := by
  have hk (n : PortNo) : K.BMC_STAT k ≠ K.FAB_PORT n := by simp only [K.BMC_STAT, K.FAB_PORT]; omega
  unfold State.tryStack
  dsimp only
  split
  · have hset := (h.setRb F.BMC_STAT_ABSENT false hk).setRb F.BMC_STAT_ABSENT
      (!(s.setRb (K.BMC_STAT k) F.BMC_STAT_ABSENT false).planStack k) hk
    exact ⟨⟨hset.inForce, hset.health⟩, hset.mem, hset.port⟩
  · exact (h.setRb _ _ hk).setRb _ _ hk

end State.PortsKept

section
variable {s : State}

theorem State.trainPorts_mem (l : List Nat) :
    (l.foldl State.trainPort s).mem = s.mem := foldl_mem (fun s _ => s.setRf_mem _ _ _) l s

theorem State.trainPorts_samePlan (l : List Nat) : s.SamePlan (l.foldl State.trainPort s) := by
  induction l generalizing s with
  | nil => exact ⟨rfl, rfl⟩
  | cons n rest ih => exact (s.trainPort_samePlan n).trans ih

/-- The units of a boot begin: memory and the plan stand, and a port that is not FAILED trains where it is planned, else is off. -/
theorem State.bootUnits_begins : s.bootUnits.mem = s.mem ∧ s.SamePlan s.bootUnits
    ∧ ∀ n : PortNo, s.portState n ≠ 4 → s.bootUnits.portState n = if s.planned n then 2 else 0 := by
  have hk := State.PortsKept.foldl (fun _ k h => h.tryStack k) (List.finRange 8)
    (State.PortsKept.refl (portNumbers.foldl State.trainPort s)).lockPlls
  rw [← s.bootUnits_eq] at hk
  refine ⟨hk.mem.trans (State.trainPorts_mem _), (State.trainPorts_samePlan _).trans hk.toSamePlan, fun n hn => ?_⟩
  rw [hk.port n, s.trainPorts_portState _ n hn, if_pos (mem_portNumbers n)]

/-- Whether a Hub core without a unit of its own failed for this boot (R514). -/
def State.coreLost (s : State) : Bool := s.health.bootFailed.any fun u => u.bench == hubNo && u.cls == ucHubCore && 24 ≤ u.index

/-- The state once the cores that failed the broadcast are noted. -/
def State.coresFailed (s : State) (l : List (Nat × Nat × Nat)) : State := l.foldl (State.failUnit 0x13 fun f => f &&& 0xFFFF) s

theorem boot_firmware (hon : s.pwr.mainOn = true) (h : s.stage = 1) (ok : Bool) (l : List (Nat × Nat × Nat)) :
    exec (.boot ok l) s = .next (if (s.coresFailed l).coreLost then (s.coresFailed l).setStage stageFailed
      else ((s.coresFailed l).bootUnits.setStage stageTraining).noteTrained) := by
  change execBoot ok l s = _
  unfold execBoot
  rw [hon, if_neg (by decide), if_pos (show s.stage = stageFirmware from h)]
  rfl

theorem not_accessReg_fabPort (n : PortNo) : ¬ accessReg (K.FAB_PORT n) := by
  simp only [accessReg, K.FAB_PORT]; omega

theorem State.coresFailed_portState (l : List (Nat × Nat × Nat)) (n : PortNo) : (s.coresFailed l).portState n = s.portState n := by
  rw [State.portState, State.rf, State.coresFailed, State.failUnits_reg l (by decide) (not_accessReg_fabPort n), State.portState, State.rf]

/-- BOOT at FIRMWARE: the cores named have failed; where one of them is a Hub core alone the module has too, else training begins. -/
theorem boot_broadcasts (hon : s.pwr.mainOn = true) (h : s.stage = 1) (ok : Bool) (l : List (Nat × Nat × Nat)) :
    ∃ t, exec (.boot ok l) s = .next t ∧ t.mem = s.mem
      ∧ (∀ x ∈ l, (⟨x.1, x.2.1, x.2.2⟩ : UnitId) ∈ t.health.bootFailed)
      ∧ (t.coreLost = true → t.stage = 6)
      ∧ (t.coreLost = false → t.stage = (if t.trained then 3 else 2)
        ∧ ∀ n : PortNo, s.portState n ≠ 4 → t.portState n = if t.planPort n.val then 2 else 0) := by
  let u := s.coresFailed l
  have hmem : u.mem = s.mem := State.failUnits_mem l
  have hfailed : ∀ x ∈ l, (⟨x.1, x.2.1, x.2.2⟩ : UnitId) ∈ u.health.bootFailed := fun _ hx => State.mem_failUnits l (by decide) hx
  refine ⟨_, boot_firmware hon h ok l, ?_⟩
  cases hlost : u.coreLost with
  | true =>
    rw [if_pos rfl]
    refine ⟨(u.setStage_mem _).trans hmem, hfailed, fun _ => u.setStage_stage (by decide), fun hn => ?_⟩
    exact absurd (hlost.symm.trans hn) (by decide)
  | false =>
    rw [if_neg Bool.false_ne_true]
    obtain ⟨hbmem, hplan, hports⟩ := u.bootUnits_begins
    let v := u.bootUnits.setStage stageTraining
    have hv : u.SamePlan v.noteTrained := (hplan.trans (⟨rfl, rfl⟩ : u.bootUnits.SamePlan v)).trans v.noteTrained_samePlan
    have hreg {k : Nat} (hk : K.BOOT_STAT ≠ k) : v.noteTrained.reg k = u.bootUnits.reg k :=
      (v.noteTrained_reg hk).trans (u.bootUnits.setStage_reg_other _ hk)
    refine ⟨?_, hv.health ▸ hfailed, fun hn => ?_, fun _ => ⟨?_, fun n hn => ?_⟩⟩
    · rw [State.noteTrained_mem, State.setStage_mem, hbmem, hmem]
    · have hlost' : v.noteTrained.coreLost = u.coreLost := congrArg (fun h : Health => h.bootFailed.any _) hv.health
      exact absurd (hlost.symm.trans (hlost'.symm.trans hn)) (by decide)
    · rw [v.noteTrained_trained]
      exact v.noteTrained_stage (u.bootUnits.setStage_stage (by decide))
    · have hstate : v.noteTrained.portState n = if u.planned n then 2 else 0 := by
        rw [State.portState, State.rf, hreg (fabPort_ne_bootStat n.isLt)]
        exact hports n (by rwa [s.coresFailed_portState l n])
      have hne : (v.noteTrained.rf (K.FAB_PORT n.val) F.FAB_PORT_STATE != 4) = true := by
        rw [bne_iff_ne]
        exact (congrArg (· ≠ 4) hstate).mpr (by split <;> decide)
      rw [hstate, State.planPort_eq _ n.isLt, hv.planned, hne, Bool.and_true]

/-! ## Start-up programs (R515) -/

/-- Whether a family of registers has nothing set at reset, or lies outside instruction memory. -/
def RegRow.clearInImem (r : RegRow) : Bool :=
  resetImage r.fields == 0 || hubKey ≤ r.base
    || (r.base % 8 == 0 && r.idx.all (fun e => e.1 % 8 == 0) && r.idx.head? == some (0x1000000, 16)
      && (r.base + idxExtent r.idx.tail < 0x400000 || (0x440000 ≤ r.base && r.base + idxExtent r.idx.tail < 0x1400000)))

theorem rows_clearInImem : ∀ r ∈ regMap, r.clearInImem = true := by
  have h : (regMap.all RegRow.clearInImem) = true := by decide +kernel
  exact List.all_eq_true.mp h

theorem ruleIdx_of_bench {k : Nat} (h : k < hubKey) : ruleIdx k = none := by
  unfold ruleIdx
  dsimp only
  rw [if_neg fun hk => ?_]
  exact absurd (h.trans_le ((Nat.le_add_right _ _).trans hk.1)) (Nat.lt_irrefl _)

/-- A family that lies outside instruction memory has no place in it. -/
theorem RegRow.not_idxOf_imem {r : RegRow} {b w : Nat} {is : List Nat} (hw : w < 32768)
    (h8 : ∀ e ∈ r.idx, e.1 % 8 = 0) (hhead : r.idx.head? = some (0x1000000, 16))
    (hout : r.base + idxExtent r.idx.tail < 0x400000 ∨ 0x440000 ≤ r.base ∧ r.base + idxExtent r.idx.tail < 0x1400000)
    (hle : r.base ≤ 0x400000 + b * 0x1000000 + w * 8) : idxOf r.idx (0x400000 + b * 0x1000000 + w * 8 - r.base) ≠ some is := by
  intro hidx
  obtain ⟨e, rest, hrest⟩ : ∃ e rest, r.idx = e :: rest := by
    cases hi : r.idx with
    | nil => rw [hi] at hhead; cases hhead
    | cons e rest => exact ⟨e, rest, rfl⟩
  rw [hrest, List.head?_cons, Option.some.injEq] at hhead
  rw [hrest, List.tail_cons] at hout
  rw [hrest, hhead, idxOf] at hidx
  split at hidx
  · obtain ⟨js, hjs, -⟩ := Option.map_eq_some_iff.mp hidx
    have hbound := (idxOf_bound hjs fun e he => h8 e (hrest ▸ List.mem_cons_of_mem _ he)).2
    omega
  · cases hidx

theorem K.IMEM_eq (b w : Nat) : K.IMEM b w = 0x400000 + b * 0x1000000 + w * 8 := rfl

theorem imem_lt_hub (b : Bid) {w : Nat} (hw : w < 32768) : K.IMEM b w < hubKey := by
  have hb := b.isLt
  simp only [K.IMEM, hubKey]; omega

theorem regReset_of_clear {k : Nat} (hrule : ruleIdx k = none)
    (h : ∀ r is, regAt regMap k = some (r, is) → resetImage r.fields = 0) : regReset k = 0 := by
  unfold regReset
  rw [hrule]
  dsimp only
  split
  · next r is hat => rw [h r is hat]; rfl
  · rfl

/-- A word of instruction memory reads zero at reset (R308). -/
theorem regReset_imem (b : Bid) {w : Nat} (hw : w < 32768) : regReset (K.IMEM b w) = 0 := by
  have hlt := imem_lt_hub b hw
  refine regReset_of_clear (ruleIdx_of_bench hlt) fun r is hat => ?_
  obtain ⟨hr, hle, hidx⟩ := regAt_mem hat
  have hclear := rows_clearInImem r hr
  simp only [RegRow.clearInImem, Bool.or_eq_true, Bool.and_eq_true, beq_iff_eq, decide_eq_true_eq, List.all_eq_true] at hclear
  obtain (hz | hhub) | ⟨⟨⟨-, h8⟩, hhead⟩, hout⟩ := hclear
  · exact hz
  · exact absurd (hhub.trans hle) (Nat.not_le.mpr hlt)
  · exact (RegRow.not_idxOf_imem hw h8 hhead hout (K.IMEM_eq b w ▸ hle) (K.IMEM_eq b w ▸ hidx)).elim

/-- The numbers of the module's Benches. -/
def benchNumbers : List Nat := do
  let b ← allBids
  pure b.val

theorem mem_benchNumbers : ∀ b : Bid, b.val ∈ benchNumbers := by decide

/-- Instruction memory of the Benches named zeroed. -/
def State.zeroImem (s : State) (l : List Nat) : State := l.foldl (fun (s : State) b => s.resetRegs (K.IMEM b 0) (K.IMEM b 32768)) s

theorem State.zeroImem_mem (l : List Nat) : (s.zeroImem l).mem = s.mem := foldl_mem (fun s _ => s.resetRegs_mem _ _) l s

theorem State.zeroImem_health (l : List Nat) : (s.zeroImem l).health = s.health :=
  foldl_leaves State.health (f := fun (s : State) b => s.resetRegs (K.IMEM b 0) (K.IMEM b 32768)) (fun _ _ => rfl) l s

theorem State.zeroImem_reg (b : Bid) {w : Nat} (hw : w < 32768) (l : List Nat) (h : b.val ∈ l ∨ s.reg (K.IMEM b w) = 0) :
    (s.zeroImem l).reg (K.IMEM b w) = 0 := by
  induction l generalizing s with
  | nil => exact h.resolve_left List.not_mem_nil
  | cons c rest ih =>
    refine ih (s := s.resetRegs (K.IMEM c 0) (K.IMEM c 32768)) ?_
    rw [State.resetRegs_reg, regReset_imem b hw]
    split
    · exact .inr rfl
    · next hout =>
      refine h.imp (fun hm => (List.mem_cons.mp hm).resolve_left fun hc => hout ?_) id
      subst hc
      simp only [K.IMEM]; omega

/-- What STARTUP_PROGRAM_DONE does once the units that failed are noted, with the Benches named. -/
def State.startupEnded (s : State) (l : List Nat) : State :=
  (s.zeroImem l).onMgmt fun m => { m with startupDone := BitVec.allOnes 16 }

theorem State.startupEnded_health (l : List Nat) : (s.startupEnded l).health = s.health := State.zeroImem_health l
theorem State.startupEnded_mem (l : List Nat) : (s.startupEnded l).mem = s.mem := State.zeroImem_mem l
theorem State.startupEnded_reg {b : Bid} {w : Nat} (hw : w < 32768) {l : List Nat} (hb : b.val ∈ l) :
    (s.startupEnded l).reg (K.IMEM b w) = 0 := State.zeroImem_reg b hw l (.inl hb)

theorem startupProgramDone_eq (hs : s.stage = 2 ∨ s.stage = 3) (hd : s.mgmt.startupDone ≠ BitVec.allOnes 16)
    (l : List (Nat × Nat × Nat)) :
    exec (.startupProgramDone l) s = .next ((l.foldl (State.failUnit 0x14 id) s).startupEnded benchNumbers) := by
  change execStartupProgramDone l s = _
  unfold execStartupProgramDone
  rw [if_neg]
  · rfl
  · simp only [Bool.or_eq_true, Bool.and_eq_true, decide_eq_true_eq, not_or, not_and, not_not]
    exact ⟨fun h2 => hs.resolve_left h2, hd⟩

theorem startupProgramDone_zeroes (hs : s.stage = 2 ∨ s.stage = 3) (hd : s.mgmt.startupDone ≠ BitVec.allOnes 16)
    (l : List (Nat × Nat × Nat)) : ∃ t, exec (.startupProgramDone l) s = .next t ∧ t.mgmt.startupDone = BitVec.allOnes 16
      ∧ (∀ x ∈ l, (⟨x.1, x.2.1, x.2.2⟩ : UnitId) ∈ t.health.bootFailed)
      ∧ (∀ b : Bid, ∀ w < 32768, t.reg (K.IMEM b w) = 0) ∧ t.mem = s.mem := by
  refine ⟨_, startupProgramDone_eq hs hd l, rfl, fun x hx => ?_,
    fun b w hw => State.startupEnded_reg hw (mem_benchNumbers b), ?_⟩
  · rw [State.startupEnded_health]
    exact State.mem_failUnits l (by decide) hx
  · rw [State.startupEnded_mem, State.failUnits_mem]

theorem startupProgramDone_idle (h2 : s.stage ≠ 2) (h3 : s.stage ≠ 3) (l : List (Nat × Nat × Nat)) :
    exec (.startupProgramDone l) s = .next s := by
  change execStartupProgramDone l s = _
  unfold execStartupProgramDone
  rw [if_pos]
  simp only [Bool.or_eq_true, Bool.and_eq_true, decide_eq_true_eq]
  exact .inl ⟨h2, h3⟩

end

end Sys2Proof.Machine
end

section
/-! SUPPORT. Stacks and ports that end their training (R248, R509, R517, R518, R519). -/

namespace Sys2Proof.Machine

section
variable {s : State}

/-! ## STACK_TRAINING (R248, R517) -/

/-- A stack's training ends with the lanes it uses. -/
def State.stackDone (s : State) (k : Fin 8) (l : List (Nat × Nat)) : State :=
  (((s.onStk k fun x => { x with lanes := l }).setRf (K.BMC_STAT k) F.BMC_STAT_SPARED l.length).onMgmt
    fun m => { m with stacksDone := m.stacksDone ||| BitVec.ofNat 8 (2 ^ k.val) }).noteTrained

theorem bit_pow8 : ∀ k : Fin 8, (BitVec.ofNat 8 (2 ^ k.val)).getLsbD k.val = true := by decide
theorem bit_pow16 : ∀ n : Fin 16, (BitVec.ofNat 16 (2 ^ n.val)).getLsbD n.val = true := by decide

theorem State.stackDone_ends (s : State) (k : Fin 8) (l : List (Nat × Nat)) : ((s.stackDone k l).stk k).lanes = l
    ∧ (s.stackDone k l).mgmt.stacksDone.getLsbD k.val = true ∧ (s.stackDone k l).mgmt.allSaved = s.mgmt.allSaved := by
  unfold State.stackDone
  refine ⟨?_, ?_, ?_⟩
  · rw [State.stk, State.noteTrained_bulk]
    simp [State.onMgmt, State.onStk, State.onBulk, State.setRf, State.setReg]
  · rw [State.noteTrained_mgmt]
    exact (BitVec.getLsbD_or ..).trans (by rw [bit_pow8 k, Bool.or_true])
  · rw [State.noteTrained_mgmt]
    rfl

/-- Training ends for a stack of the plan that is not done, while its core runs. -/
theorem stackTraining_eq {k : Fin 8} {r : TrainResult} (hs : s.stage = 2) (hp : s.planStack k.val = true)
    (hd : s.mgmt.stacksDone.getLsbD k.val = false) (hc : s.hubCore (stackCore k.val) = true) :
    exec (.stackTraining k r) s = match (if r.savedOk then s.savedSet k.val else none) with
      | some x => .next ((s.noteSettings k.val x.1 x.2).stackDone k (pairLanes x.1))
      | none => match pairSpares r.badSpares r.badLanes ((List.range 64).map (1152 + ·)) with
        | some l => .next ((((s.onMgmt fun m => { m with allSaved := false }).drawWord.2.noteSettings k.val (flatLanes l)
            (s.onMgmt fun m => { m with allSaved := false }).drawWord.1)).stackDone k l)
        | none => .next (((s.onMgmt fun m => { m with allSaved := false }).setRb (K.BMC_STAT k) F.BMC_STAT_ABSENT true).noteTrained) := by
  change execStackTraining k r s = _
  unfold execStackTraining
  rw [if_neg]
  · rfl
  · rw [hs, hp, hd, hc]
    decide

/-- A saved lane map that passes its check is used. -/
theorem stackTraining_saved {k : Fin 8} {r : TrainResult} {l : List Nat} {w : Word} (hs : s.stage = 2) (hp : s.planStack k.val = true)
    (hd : s.mgmt.stacksDone.getLsbD k.val = false) (hc : s.hubCore (stackCore k.val) = true) (hok : r.savedOk = true)
    (hset : s.savedSet k.val = some (l, w)) : ∃ t, exec (.stackTraining k r) s = .next t ∧ (t.stk k).lanes = pairLanes l
      ∧ t.mgmt.stacksDone.getLsbD k.val = true ∧ t.mgmt.allSaved = s.mgmt.allSaved := by
  obtain ⟨hl, hdone, hsaved⟩ := (s.noteSettings k.val l w).stackDone_ends k (pairLanes l)
  refine ⟨_, ?_, hl, hdone, hsaved.trans ?_⟩
  · rw [stackTraining_eq hs hp hd hc, hok, if_pos rfl, hset]
  · change (s.mgmt.allSaved && !(s.savedSet k.val != some (l, w))) = _
    rw [hset, bne_self_eq_false, Bool.not_false, Bool.and_true]

/-- Without one, spares take the places of the lanes that fail. -/
theorem stackTraining_spares {k : Fin 8} {r : TrainResult} {l : List (Nat × Nat)} (hs : s.stage = 2) (hp : s.planStack k.val = true)
    (hd : s.mgmt.stacksDone.getLsbD k.val = false) (hc : s.hubCore (stackCore k.val) = true) (hok : r.savedOk = false)
    (hl : pairSpares r.badSpares r.badLanes ((List.range 64).map (1152 + ·)) = some l) :
    ∃ t, exec (.stackTraining k r) s = .next t ∧ (t.stk k).lanes = l ∧ t.mgmt.stacksDone.getLsbD k.val = true
      ∧ t.mgmt.allSaved = false := by
  let u := s.onMgmt fun m => { m with allSaved := false }
  obtain ⟨hlanes, hdone, hsaved⟩ := (u.drawWord.2.noteSettings k.val (flatLanes l) u.drawWord.1).stackDone_ends k l
  refine ⟨_, ?_, hlanes, hdone, hsaved.trans ?_⟩
  · rw [stackTraining_eq hs hp hd hc, hok, if_neg Bool.false_ne_true]
    dsimp only
    rw [hl]
  · exact Bool.false_and (!(u.drawWord.2.savedSet k.val != some (flatLanes l, u.drawWord.1)))

/-- A stack whose spares run out is absent for this boot. -/
theorem stackTraining_absent {k : Fin 8} {r : TrainResult} (hs : s.stage = 2) (hp : s.planStack k.val = true)
    (hd : s.mgmt.stacksDone.getLsbD k.val = false) (hc : s.hubCore (stackCore k.val) = true) (hok : r.savedOk = false)
    (hl : pairSpares r.badSpares r.badLanes ((List.range 64).map (1152 + ·)) = none) :
    ∃ t, exec (.stackTraining k r) s = .next t ∧ t.rb (K.BMC_STAT k) F.BMC_STAT_ABSENT = true ∧ t.bulk = s.bulk := by
  let u := s.onMgmt fun m => { m with allSaved := false }
  refine ⟨(u.setRb (K.BMC_STAT k) F.BMC_STAT_ABSENT true).noteTrained, ?_, ?_, State.noteTrained_bulk _⟩
  · rw [stackTraining_eq hs hp hd hc, hok, if_neg Bool.false_ne_true]
    dsimp only
    rw [hl]
  · rw [State.rb, State.rf, State.noteTrained_reg _ (bmcStat_ne_bootStat k.isLt)]
    exact u.rb_setRb_same _ _ _ (by decide) (by decide)

/-! ## PORT_PEER_WINDOW_END (R518) -/

theorem portPeerWindowEnd_down {n : PortNo} (h : s.portState n = 2) : ∃ t, exec (.portPeerWindowEnd n) s = .next t
    ∧ t.portState n = portDown ∧ t.mgmt.portsDone.getLsbD n.val = true := by
  let u := s.setRf (K.FAB_PORT n) F.FAB_PORT_STATE portDown
  refine ⟨u.portDone n, ?_, ?_, ?_⟩
  · change execPortPeerWindowEnd n s = _
    unfold execPortPeerWindowEnd
    rw [if_neg (not_not.mpr h)]
  · rw [State.portState, State.rf, State.portDone, State.noteTrained_reg _ (fabPort_ne_bootStat n.isLt)]
    exact s.rf_setRf_same _ _ _ (by decide)
  · rw [State.portDone, State.noteTrained_mgmt]
    exact (BitVec.getLsbD_or ..).trans (by rw [bit_pow16 n, Bool.or_true])

theorem portPeerWindowEnd_idle {n : PortNo} (h : s.portState n ≠ 2) : exec (.portPeerWindowEnd n) s = .next s := by
  change execPortPeerWindowEnd n s = _
  unfold execPortPeerWindowEnd
  rw [if_pos h]

end

end Sys2Proof.Machine
end

section
/-! SUPPORT. READY with the site record and the plan, and the settings saved behind it (R507, R509, R513, R519-R521, R525). -/

namespace Sys2Proof.Machine

section
variable {s : State}

/-! ## READY -/

/-- A flag of BENCH_PWR cleared where a write has its bit. -/
def State.clearFlag (s : State) (b : Bid) (v : Word) (f : Fld) : State := if bit v f.lo then s.setRb (K.BENCH_PWR b) f false else s

/-- GATE as a write of BENCH_PWR leaves it, its flags cleared. -/
def State.setGate (s : State) (b : Bid) (v : Word) : State :=
  let k := K.BENCH_PWR b
  let on := bit v 0
  if on = s.rb k F.BENCH_PWR_GATE then s
  else if !on then ((s.setRb k F.BENCH_PWR_GATE false).setRb k F.BENCH_PWR_WAKING (s.rb k F.BENCH_PWR_GATED))
  else if s.rb k F.BENCH_PWR_WAKING || (s.fm b).st != .stopped || !(s.bench b).idle then s.setRb k F.BENCH_PWR_REFUSED true
  else (s.setRb k F.BENCH_PWR_GATE true).gated b true

theorem State.writeGate_eq (s : State) (b : Bid) (v : Word) : s.writeGate b v = (((s.clearFlag b v F.BENCH_PWR_REFUSED).clearFlag b v
    F.BENCH_PWR_HOT).clearFlag b v F.BENCH_PWR_CRIT).setGate b v := rfl

/-- What the site record writes leaves memory and the management side. -/
structure State.SiteKept (s t : State) : Prop where
  mem : t.mem = s.mem
  mgmt : t.mgmt = s.mgmt

namespace State.SiteKept

variable {s0 s : State}

theorem setReg (h : s0.SiteKept s) (k : Nat) (v : Word) : s0.SiteKept (s.setReg k v) := ⟨(s.setReg_mem k v).trans h.mem, h.mgmt⟩
theorem setRb (h : s0.SiteKept s) (k : Nat) (f : Fld) (v : Bool) : s0.SiteKept (s.setRb k f v) := h.setReg _ _

theorem foldl {α : Type} {f : State → α → State} (hf : ∀ s x, s0.SiteKept s → s0.SiteKept (f s x)) (l : List α)
    (h : s0.SiteKept s) : s0.SiteKept (l.foldl f s) := by
  induction l generalizing s with
  | nil => exact h
  | cons x xs ih => exact ih (hf s x h)

theorem publish (h : s0.SiteKept s) (gen : Nat) : s0.SiteKept (s.publish gen) := by
  unfold State.publish
  split
  · exact h
  · exact foldl (fun _ _ h => (h.setReg _ _).setReg _ _) _ ((h.setReg _ _).setReg _ _)

theorem planChanged (h : s0.SiteKept s) : s0.SiteKept s.planChanged := by
  unfold State.planChanged
  dsimp only
  split
  · exact h
  · exact h.publish _

theorem clearFlag (h : s0.SiteKept s) (b : Bid) (v : Word) (f : Fld) : s0.SiteKept (s.clearFlag b v f) := by
  unfold State.clearFlag
  split
  · exact h.setRb _ _ _
  · exact h

theorem setGate (h : s0.SiteKept s) (b : Bid) (v : Word) : s0.SiteKept (s.setGate b v) := by
  unfold State.setGate
  dsimp only
  split
  · exact h
  · split
    · exact (h.setRb _ _ _).setRb _ _ _
    · split
      · exact h.setRb _ _ _
      · exact (((h.setRb _ _ _).setRb _ _ _).setRb _ _ _).planChanged

theorem writeGate (h : s0.SiteKept s) (b : Bid) (v : Word) : s0.SiteKept (s.writeGate b v) := by
  rw [State.writeGate_eq]
  exact (((h.clearFlag b v _).clearFlag b v _).clearFlag b v _).setGate b v

theorem loadSite (h : s0.SiteKept s) (e : Nat × Word) : s0.SiteKept (s.loadSite e) := by
  unfold State.loadSite
  split
  · exact h
  · split
    · exact h.writeGate _ _
    · exact h.setReg _ _

end State.SiteKept

/-- The site record in force applied (R509). -/
def State.applySite (s : State) : State :=
  match s.siteRec with
  | some x => (x.regs.foldl (fun (s : State) e => s.loadSite e) s).setRb K.BOOT_STAT F.BOOT_STAT_SITE_APPLIED true
  | none => s.setRb K.BOOT_STAT F.BOOT_STAT_SITE_APPLIED false

theorem State.applySite_kept (s : State) : s.SiteKept s.applySite := by
  have h : s.SiteKept s := ⟨rfl, rfl⟩
  unfold State.applySite
  split
  · exact (State.SiteKept.foldl (fun _ e h => h.loadSite e) _ h).setRb _ _ _
  · exact h.setRb _ _ _

theorem State.applySite_applied (s : State) : s.applySite.rb K.BOOT_STAT F.BOOT_STAT_SITE_APPLIED = s.siteRec.isSome := by
  unfold State.applySite
  split
  · next h => rw [h]; exact State.rb_setRb_same _ _ _ _ (by decide) (by decide)
  · next h => rw [h]; exact State.rb_setRb_same _ _ _ _ (by decide) (by decide)

/-- The plan published, and what BOOT_STAT says of this boot. -/
def State.readyShown (s : State) (ms : Nat) : State :=
  ((s.applySite.publishPlan).setRb K.BOOT_STAT F.BOOT_STAT_FAST s.applySite.mgmt.allSaved).setRf K.BOOT_STAT F.BOOT_STAT_BOOT_MS
    (Nat.min ms 65535)

/-- A tried image ACTIVE, and nothing staged (R513, R533). -/
def State.readyFlash (s : State) : State :=
  (if s.mgmt.flash.tried then
    s.onFlash fun f => { f with active := f.pendingSlot.getD f.active, pendingSlot := none, tried := false }
  else s).onMgmt fun m => { m with stageOpen := false }

theorem ready_eq (h : s.bringUpDone = true) (ms : Nat) :
    exec (.ready ms) s = .next (s.reseat (((s.readyShown ms).readyFlash).showSlots.setStage stageReady)) := by
  change execReady ms s = _
  unfold execReady
  rw [h]
  rfl

theorem ready_idle (h : s.bringUpDone = false) (ms : Nat) : exec (.ready ms) s = .next s := by
  change execReady ms s = _
  unfold execReady
  rw [h]
  rfl

theorem State.publishPlan_kept (s : State) : s.SiteKept s.publishPlan ∧ BootKept s s.publishPlan := by
  unfold State.publishPlan
  split
  · exact ⟨State.SiteKept.publish ⟨rfl, rfl⟩ 1, (BootKept.refl s).publish 1⟩
  · exact ⟨State.SiteKept.planChanged ⟨rfl, rfl⟩, (BootKept.refl s).planChanged⟩

theorem State.readyShown_kept (s : State) (ms : Nat) : s.SiteKept (s.readyShown ms) :=
  have hk := s.applySite.publishPlan_kept.1
  have ha := s.applySite_kept
  State.SiteKept.setReg (State.SiteKept.setReg ⟨hk.mem.trans ha.mem, hk.mgmt.trans ha.mgmt⟩ _ _) _ _

/-- What BOOT_STAT shows at READY: the time, whether all was saved, and whether a site record was applied. -/
theorem State.readyShown_shows (s : State) (ms : Nat) :
    (s.readyShown ms).rf K.BOOT_STAT F.BOOT_STAT_BOOT_MS = Nat.min ms 65535
      ∧ (s.readyShown ms).rb K.BOOT_STAT F.BOOT_STAT_FAST = s.mgmt.allSaved
      ∧ (s.readyShown ms).rb K.BOOT_STAT F.BOOT_STAT_SITE_APPLIED = s.siteRec.isSome := by
  unfold State.readyShown
  refine ⟨?_, ?_, ?_⟩
  · rw [State.rf_setRf_same _ _ _ _ (by decide)]
    exact Nat.mod_eq_of_lt (Nat.lt_succ_of_le (Nat.min_le_right ms 65535))
  · rw [State.rb_setRf_beside _ _ _ (by decide) (by decide), State.rb_setRb_same _ _ _ _ (by decide) (by decide),
      s.applySite_kept.mgmt]
  · rw [State.rb_setRf_beside _ _ _ (by decide) (by decide), State.rb_setRb_beside _ _ _ (by decide) (by decide),
      ← s.applySite_applied, State.rb, State.rf, s.applySite.publishPlan_kept.2.boot, State.rb, State.rf]

theorem State.readyFlash_mem (s : State) : s.readyFlash.mem = s.mem := by
  unfold State.readyFlash; split <;> rfl

theorem State.readyFlash_regs (s : State) : s.readyFlash.regs = s.regs := by
  unfold State.readyFlash; split <;> rfl

theorem State.readyFlash_rf (s : State) (k : Nat) (f : Fld) : s.readyFlash.rf k f = s.rf k f := by
  rw [State.rf, State.reg, s.readyFlash_regs]; rfl

/-- A tried image becomes ACTIVE and is PENDING no longer; without one the flash stands (R513). -/
theorem State.readyFlash_flash (s : State) : (s.mgmt.flash.tried = true → s.readyFlash.mgmt.flash.pendingSlot = none
      ∧ s.readyFlash.mgmt.flash.tried = false
      ∧ ∀ slot, s.mgmt.flash.pendingSlot = some slot → s.readyFlash.mgmt.flash.active = slot)
    ∧ (s.mgmt.flash.tried = false → s.readyFlash.mgmt.flash = s.mgmt.flash) ∧ s.readyFlash.mgmt.stageOpen = false := by
  unfold State.readyFlash
  refine ⟨fun h => ?_, fun h => ?_, ?_⟩
  · rw [if_pos h]
    exact ⟨rfl, rfl, fun slot hs => congrArg (Option.getD · s.mgmt.flash.active) hs⟩
  · rw [h]; rfl
  · split <;> rfl

theorem relocate_none {α : Type} [DecidableEq α] (d : α) (t : Tab α) {moved : Nat → Bool} (g : Nat → Nat) (h : ∀ k, moved k = false) :
    relocate d t moved g = t := by
  have hmoved : t.filter (fun e => moved e.1) = [] := List.filter_eq_nil_iff.mpr fun e _ => by rw [h]; decide
  have hstay : t.filter (fun e => !moved e.1) = t := List.filter_eq_self.mpr fun e _ => by rw [h]; rfl
  rw [relocate, hmoved, hstay, List.foldl_nil]

/-- Rows that keep their order keep their bytes where they lie. -/
theorem State.reseat_mem_of_rowInter {t : State} (h : ∀ r, t.rowInter r = s.rowInter r) : (s.reseat t).mem = t.mem :=
  relocate_none 0 t.mem _ fun a => by rw [State.modeMoves, h, bne_self_eq_false, Bool.and_false]

theorem State.reseat_rowInter (s t : State) (r : Nat) : (s.reseat t).rowInter r = t.rowInter r := rfl

theorem State.modeMoves_inSram {t : State} {a : Nat} (h : inSram a = true) : s.modeMoves t a = false := by
  have hlt : ¬ bulkBase ≤ a := by
    rw [inSram, decide_eq_true_eq, sramEnd] at h
    rw [bulkBase]
    omega
  rw [State.modeMoves, decide_eq_false hlt, Bool.false_and]

/-- READY once the rest of bring-up is done (R509, R513, R520, R521). -/
theorem ready_publishes (hi : s.Inv) (h : s.bringUpDone = true) (ms : Nat) : ∃ t, exec (.ready ms) s = .next t ∧ t.stage = stageReady
    ∧ t.rf K.BOOT_STAT F.BOOT_STAT_BOOT_MS = Nat.min ms 65535 ∧ t.rb K.BOOT_STAT F.BOOT_STAT_FAST = s.mgmt.allSaved
    ∧ t.rb K.BOOT_STAT F.BOOT_STAT_SITE_APPLIED = s.siteRec.isSome
    ∧ (s.mgmt.flash.tried = true → t.mgmt.flash.pendingSlot = none ∧ t.mgmt.flash.tried = false
      ∧ ∀ slot, s.mgmt.flash.pendingSlot = some slot → t.mgmt.flash.active = slot)
    ∧ (s.mgmt.flash.tried = false → t.mgmt.flash = s.mgmt.flash) ∧ t.mgmt.stageOpen = false
    ∧ (∀ a, inSram a = true → mget t.mem a = mget s.mem a)
    ∧ ((∀ r, t.rowInter r = s.rowInter r) → t.mem = s.mem) := by
  let u := s.readyShown ms
  let v := u.readyFlash.showSlots.setStage stageReady
  have hk := s.readyShown_kept ms
  have hmem : v.mem = s.mem := by
    rw [State.setStage_mem, State.showSlots_mem, State.readyFlash_mem, hk.mem]
  have hrf {f : Fld} (hlo : 3 ≤ f.lo) (hf : f.lo + f.w ≤ 9 ∨ 12 ≤ f.lo ∧ f.lo + f.w ≤ 32) :
      v.rf K.BOOT_STAT f = u.rf K.BOOT_STAT f := by
    rw [State.setStage_rf _ _ hlo (by omega), State.showSlots_rf _ hf, State.readyFlash_rf]
  obtain ⟨hms, hfast, hsite⟩ := s.readyShown_shows ms
  obtain ⟨htried, hstands, hopen⟩ := u.readyFlash_flash
  rw [hk.mgmt] at htried hstands
  refine ⟨s.reseat v, ready_eq h ms, State.setStage_stage _ (by decide), (hrf (by decide) (by decide)).trans hms, ?_, ?_, htried, hstands,
    hopen, fun a ha => ?_, fun hr => ?_⟩
  · exact (congrArg (· != 0) (hrf (f := F.BOOT_STAT_FAST) (by decide) (by decide))).trans hfast
  · exact (congrArg (· != 0) (hrf (f := F.BOOT_STAT_SITE_APPLIED) (by decide) (by decide))).trans hsite
  · rw [mget_reseat_fixed s v a (hmem ▸ hi.1.1) (State.modeMoves_inSram ha), hmem]
  · rw [State.reseat_mem_of_rowInter fun r => (State.reseat_rowInter s v r).symm.trans (hr r), hmem]

/-! ## SAVED_SETTINGS_WRITE (R507, R519, R525) -/

theorem find?_tput_other {α : Type} (l : Tab α) {k j : Nat} (v : α) (h : k ≠ j) :
    (tput l k v).find? (fun e => e.1 == j) = l.find? (fun e => e.1 == j) := by
  induction l with
  | nil => simp [tput, h]
  | cons e l ih =>
    obtain ⟨n, w⟩ := e
    rw [tput]
    split
    · rw [List.find?_cons, List.find?_cons, ih]
    · split
      · next hn => rw [List.find?_cons_of_neg (by simpa using h), List.find?_cons_of_neg (by simp; omega)]
      · rw [List.find?_cons_of_neg (by simpa using h)]

/-- Entries with keys of their own are all found in the table they are put in. -/
theorem find?_tputs {α : Type} (l : List (Nat × α)) (t : Tab α) (h : (l.map Prod.fst).Nodup) {e : Nat × α} (he : e ∈ l) :
    (l.foldl (fun t e => tput t e.1 e.2) t).find? (fun x => x.1 == e.1) = some e := by
  have hkeep (l : List (Nat × α)) (t : Tab α) (k : Nat) (hk : k ∉ l.map Prod.fst) :
      (l.foldl (fun t e => tput t e.1 e.2) t).find? (fun x => x.1 == k) = t.find? (fun x => x.1 == k) := by
    induction l generalizing t with
    | nil => rfl
    | cons x xs ih =>
      rw [List.map_cons, List.mem_cons, not_or] at hk
      rw [List.foldl_cons, ih _ hk.2, find?_tput_other _ _ (Ne.symm hk.1)]
  induction l generalizing t with
  | nil => cases he
  | cons x xs ih =>
    rw [List.map_cons, List.nodup_cons] at h
    rw [List.foldl_cons]
    obtain rfl | hxs := List.mem_cons.mp he
    · rw [hkeep _ _ _ h.1, find?_tput]
    · exact ih _ h.2 hxs

theorem keys_filterMap {ι β : Type} (c : ι → Bool) (key : ι → Nat) (v : ι → β) (l : List ι) :
    (l.filterMap fun k => if c k then some (key k, v k) else none).map Prod.fst = (l.filter c).map key := by
  induction l with
  | nil => rfl
  | cons k l ih => cases hc : c k <;> simp [hc, ih]

/-- Stacks and ports have keys of their own among the settings (R509). -/
theorem State.settingsNow_nodup (s : State) : (s.settingsNow.map Prod.fst).Nodup := by
  have hkeys : s.settingsNow.map Prod.fst = ((List.finRange 8).filter fun k => s.mgmt.stacksDone.getLsbD k.val).map Fin.val
      ++ ((List.finRange 16).filter fun n => s.portUp n).map savedPort := by
    unfold State.settingsNow
    rw [List.map_append, ← keys_filterMap _ Fin.val fun k => (flatLanes (s.stk k).lanes, tget 0 s.mgmt.equal k.val),
      ← keys_filterMap _ savedPort fun n => ((s.port n).lanes, tget 0 s.mgmt.equal (savedPort n))]
  have hport : Function.Injective savedPort := fun m n h => Fin.ext (Nat.add_left_cancel h)
  rw [hkeys, List.nodup_append]
  refine ⟨((List.nodup_finRange 8).filter _).map Fin.val_injective, ((List.nodup_finRange 16).filter _).map hport, fun a ha b hb hab => ?_⟩
  obtain ⟨k, -, rfl⟩ := List.mem_map.mp ha
  obtain ⟨n, -, rfl⟩ := List.mem_map.mp hb
  simp only [savedPort] at hab
  omega

theorem copy_cases : ∀ i : Fin 2, i = 0 ∨ i = 1 := by decide
theorem copy_other : ∀ (i : Fin 2) (c : Bool), (i ≠ if c then 0 else 1) → i = if c then 1 else 0 := by decide

/-- The copy of the saved settings at a place, where it is authentic (R507, R509, R525). -/
def State.savedAt (s : State) (i : Fin 2) : Option SavedRec :=
  s.mgmt.flash.saved[i].filter fun x => s.mgmt.identityOk && x.auth == s.mgmt.helper

theorem State.savedRec_eq (s : State) : s.savedRec = match s.savedAt 0, s.savedAt 1 with
    | some a, some b => some (if a.seq < b.seq then b else a)
    | some a, none => some a
    | none, b => b := rfl

theorem State.mem_savedAt {i : Fin 2} {r : SavedRec} (h : s.savedAt i = some r) : s.mgmt.flash.saved[i] = some r :=
  (Option.filter_eq_some_iff.mp h).1

/-- What is in force is one of the copies. -/
theorem State.savedRec_at {r : SavedRec} (h : s.savedRec = some r) : ∃ i, s.savedAt i = some r := by
  rw [State.savedRec_eq] at h
  split at h
  · next a b ha hb =>
    split at h
    · cases h; exact ⟨1, hb⟩
    · cases h; exact ⟨0, ha⟩
  · next a ha _ => cases h; exact ⟨0, ha⟩
  · exact ⟨1, h⟩

/-- The sequence number in force; zero without settings. -/
def State.savedSeq (s : State) : Nat := match s.savedRec with | some r => r.seq | none => 0

/-- The place that the next copy goes to: the one that does not hold the newest (R507). -/
def State.savedPlace (s : State) : Fin 2 := if s.savedCopy.1 then 1 else 0

theorem State.savedPlace_eq (s : State) :
    s.savedPlace = if newest ((s.savedAt 0).map SavedRec.seq) ((s.savedAt 1).map SavedRec.seq) then 0 else 1 := by
  have hc : s.savedCopy.1 = !newest ((s.savedAt 0).map SavedRec.seq) ((s.savedAt 1).map SavedRec.seq) := rfl
  rw [State.savedPlace, hc]
  cases newest ((s.savedAt 0).map SavedRec.seq) ((s.savedAt 1).map SavedRec.seq) <;> rfl

/-- The copy in force is not at the place that is written next. -/
theorem State.savedAt_of_ne_place {r : SavedRec} {i : Fin 2} (h : s.savedRec = some r) (hi : i ≠ s.savedPlace) :
    s.savedAt i = some r := by
  rw [State.savedPlace_eq] at hi
  rw [State.savedRec_eq] at h
  rw [copy_other _ _ hi]
  cases ha : s.savedAt 0 with
  | none =>
    rw [ha] at h
    cases hb : s.savedAt 1 with
    | none => rw [hb] at h; cases h
    | some b => rw [hb] at h; exact hb.trans h
  | some a =>
    rw [ha] at h
    cases hb : s.savedAt 1 with
    | none => rw [hb] at h; exact ha.trans h
    | some b =>
      rw [hb] at h
      have hnew : newest ((some a).map SavedRec.seq) ((some b).map SavedRec.seq) = decide (a.seq < b.seq) := rfl
      rw [hnew]
      by_cases hlt : a.seq < b.seq
      · rw [if_pos (decide_eq_true hlt), hb, ← h]
        exact congrArg some (if_pos hlt).symm
      · rw [if_neg (by rw [Bool.not_eq_true]; exact decide_eq_false hlt), ha, ← h]
        exact congrArg some (if_neg hlt).symm

/-- No authentic copy has a greater sequence number than the one in force. -/
theorem State.seq_le_savedSeq {r : SavedRec} {i : Fin 2} (h : s.savedAt i = some r) : r.seq ≤ s.savedSeq := by
  rw [State.savedSeq, State.savedRec_eq]
  obtain rfl | rfl := copy_cases i
  · rw [h]
    cases s.savedAt 1 with
    | none => exact Nat.le_refl _
    | some b => dsimp only; split <;> omega
  · rw [h]
    cases s.savedAt 0 with
    | none => exact Nat.le_refl _
    | some a => dsimp only; split <;> omega

/-- An authentic copy newer than the other is in force. -/
theorem State.savedRec_of_newer {r : SavedRec} {i : Fin 2} (h : s.savedAt i = some r)
    (hlt : ∀ j ≠ i, ∀ x, s.savedAt j = some x → x.seq < r.seq) : s.savedRec = some r := by
  rw [State.savedRec_eq]
  obtain rfl | rfl := copy_cases i
  · rw [h]
    cases hb : s.savedAt 1 with
    | none => rfl
    | some b => exact congrArg some (if_neg (Nat.lt_asymm (hlt 1 (by decide) b hb)))
  · rw [h]
    cases ha : s.savedAt 0 with
    | none => rfl
    | some a => exact congrArg some (if_pos (hlt 0 (by decide) a ha))

/-- The settings in use, as the next copy holds them. -/
def State.newSaved (s : State) : SavedRec :=
  ⟨s.savedSeq + 1, s.mgmt.helper,
    s.settingsNow.foldl (fun t e => tput t e.1 e.2) (match s.savedRec with | some r => r.sets | none => [])⟩

/-- The copies with the settings in use written at the place that does not hold the newest. -/
def State.settingsWritten (s : State) : State :=
  (s.onFlash fun f => { f with saved := if s.savedCopy.1 then f.saved.set 1 (some s.newSaved) else f.saved.set 0 (some s.newSaved) }).onMgmt
    fun m => { m with newSettings := false }

theorem State.settingsWritten_saved (s : State) (i : Fin 2) :
    s.settingsWritten.mgmt.flash.saved[i] = if i = s.savedPlace then some s.newSaved else s.mgmt.flash.saved[i] := by
  have hf : s.settingsWritten.mgmt.flash.saved
      = if s.savedCopy.1 then s.mgmt.flash.saved.set 1 (some s.newSaved) else s.mgmt.flash.saved.set 0 (some s.newSaved) := rfl
  rw [hf, State.savedPlace]
  cases s.savedCopy.1 <;> obtain rfl | rfl := copy_cases i <;> simp

theorem State.settingsWritten_savedAt (hid : s.mgmt.identityOk = true) (i : Fin 2) :
    s.settingsWritten.savedAt i = if i = s.savedPlace then some s.newSaved else s.savedAt i := by
  have hat : s.settingsWritten.savedAt i
      = s.settingsWritten.mgmt.flash.saved[i].filter fun x => s.mgmt.identityOk && x.auth == s.mgmt.helper := rfl
  rw [hat, s.settingsWritten_saved]
  split
  · have hauth : (s.mgmt.identityOk && s.newSaved.auth == s.mgmt.helper) = true := by rw [hid]; exact beq_self_eq_true _
    exact Option.filter_some_pos hauth
  · rfl

theorem State.settingsWritten_savedRec (hid : s.mgmt.identityOk = true) : s.settingsWritten.savedRec = some s.newSaved := by
  refine State.savedRec_of_newer (i := s.savedPlace) ((State.settingsWritten_savedAt hid _).trans (if_pos rfl)) fun j hj x hx => ?_
  rw [State.settingsWritten_savedAt hid, if_neg hj] at hx
  exact Nat.lt_succ_of_le (State.seq_le_savedSeq hx)

theorem savedSettingsWrite_writes (hr : s.ready = true) (hn : s.mgmt.newSettings = true) (hid : s.mgmt.identityOk = true) :
    exec .savedSettingsWrite s = .next s.settingsWritten := by
  change execSavedSettingsWrite s = _
  unfold execSavedSettingsWrite
  rw [hr, hn, hid]
  rfl

theorem savedSettingsWrite_idle (h : ¬ (s.ready = true ∧ s.mgmt.newSettings = true ∧ s.mgmt.identityOk = true)) :
    exec .savedSettingsWrite s = .next s := by
  change execSavedSettingsWrite s = _
  unfold execSavedSettingsWrite
  rw [if_pos]
  simp only [Bool.or_eq_true, Bool.not_eq_true']
  by_contra hno
  simp only [not_or, Bool.not_eq_false] at hno
  exact h ⟨hno.1.1, hno.1.2, hno.2⟩

/-- Each setting in use is found in the settings in force. -/
theorem State.settingsWritten_savedSet (hid : s.mgmt.identityOk = true) {e : Nat × List Nat × Word} (he : e ∈ s.settingsNow) :
    s.settingsWritten.savedSet e.1 = some e.2 := by
  have hfind := find?_tputs s.settingsNow (match s.savedRec with | some r => r.sets | none => []) s.settingsNow_nodup he
  rw [State.savedSet, State.settingsWritten_savedRec hid]
  exact congrArg (Option.map Prod.snd) hfind

/-- The copy that was in force stands. -/
theorem State.settingsWritten_keeps {r : SavedRec} (h : s.savedRec = some r) :
    s.settingsWritten.mgmt.flash.saved[0] = some r ∨ s.settingsWritten.mgmt.flash.saved[1] = some r := by
  have hother : ∃ i : Fin 2, i ≠ s.savedPlace := ⟨1 - s.savedPlace, by generalize s.savedPlace = i; revert i; decide⟩
  obtain ⟨i, hi⟩ := hother
  have hkept : s.settingsWritten.mgmt.flash.saved[i] = some r := by
    rw [s.settingsWritten_saved, if_neg hi]
    exact State.mem_savedAt (State.savedAt_of_ne_place h hi)
  obtain rfl | rfl := copy_cases i
  exacts [.inl hkept, .inr hkept]

end

end Sys2Proof.Machine
end

section
/-! The settlement of O54. -/

open Sys2Proof Sys2Proof.Machine

/-- Settles O54, command by command: what the ROM chooses, what the broadcast begins, how units end their training, and what READY
and the saved settings leave. -/
theorem bringUp : Obligations.BringUp := by
  unfold Obligations.BringUp
  refine fun s hi => ⟨fun h ok l => boot_idle h, fun hon h0 => ⟨?noRecord, fun r hr => ⟨?noImage, ?image, ?invalid⟩⟩,
    fun hon h1 ok l => boot_broadcasts hon h1 ok l, ?timeout, fun hs hd l => startupProgramDone_zeroes hs hd l,
    fun h2 h3 l => startupProgramDone_idle h2 h3 l, fun k r hs hp hd hc => ⟨?saved, ?spares, ?absent⟩,
    fun n => ⟨portPeerWindowEnd_down, portPeerWindowEnd_idle⟩, fun ms => ⟨fun h => ready_idle h ms, fun h => ready_publishes hi h ms⟩,
    ?settings⟩
  case noRecord =>
    intro hr ok l
    refine ⟨(s.romReady ok).setStage stageRecovery, ?_, State.setStage_stage _ (by decide), ?_⟩
    · rw [boot_rom hon h0, hr]
    · rw [State.setStage_mem, State.romReady_mem]
  case noImage =>
    exact fun ok hp hc l => ⟨_, boot_noImage hon h0 hr hp hc, State.setStage_stage _ (by decide), rfl⟩
  case image => exact fun ok slot l h => boot_image hon h0 hr h
  case invalid =>
    intro ok slot l hp hbad
    obtain ⟨u, hu⟩ := boot_fallBack (ok := ok) (l := l) hon h0 hr hp hbad
    obtain ⟨hstage, hpending, -, hflag, hscope⟩ := u.fallBack_gives
    exact ⟨_, hu, hstage, hpending, hflag, hscope⟩
  case timeout =>
    refine ⟨fun h => ⟨s.fallBack, ?_, ?_⟩, fun h => ?_⟩
    · rw [pendingBootTimeout_eq, if_pos ((late_iff s).mpr h)]
    · obtain ⟨hstage, hpending, htried, hflag, -⟩ := s.fallBack_gives
      exact ⟨hstage, hpending, htried, hflag⟩
    · rw [pendingBootTimeout_eq, if_neg (mt (late_iff s).mp h)]
  case saved => exact fun l w hok hset => stackTraining_saved hs hp hd hc hok hset
  case spares => exact fun l hok hl => stackTraining_spares hs hp hd hc hok hl
  case absent => exact fun hok hl => stackTraining_absent hs hp hd hc hok hl
  case settings =>
    refine ⟨fun ⟨hr, hn, hid⟩ => ⟨s.settingsWritten, savedSettingsWrite_writes hr hn hid, rfl, rfl,
      ⟨s.newSaved, State.settingsWritten_savedRec hid, rfl⟩, fun e he => State.settingsWritten_savedSet hid he,
      fun r h => State.settingsWritten_keeps h⟩, savedSettingsWrite_idle⟩

end

section
/-! SUPPORT. START, STOP and CLEAR of a Foreman and writes of its instruction memory (R292, R298, R299, R303, R476). -/

namespace Sys2Proof.Machine

section
variable {s : State} {b : Bid}

/-! ## The crossing of a Bench's clock domain (R476) -/

/-- A write from outside is held in a Bench's crossing with some word. -/
def State.Held (s : State) (b : Bid) (k : Nat) (t : State) : Prop :=
  ∃ x, t = s.onBench b fun y => { y with xing := y.xing ++ [(k, x)] }

theorem State.cross_running (h : s.rb (K.CLK_BENCH b) F.CLK_BENCH_STOPPED = false) (k : Nat) (v : Word) (done : State) :
    s.cross b k v done = done := by
  rw [State.cross, if_neg (by rw [h]; exact Bool.false_ne_true)]

theorem State.fmCommand_running (h : s.rb (K.CLK_BENCH b) F.CLK_BENCH_STOPPED = false) (f : Fld) (done : State) :
    s.fmCommand b f done = done := State.cross_running h _ _ _

theorem State.cross_held (h : s.rb (K.CLK_BENCH b) F.CLK_BENCH_STOPPED = true) (k : Nat) (v : Word) (done : State) :
    s.Held b k (s.cross b k v done) := by
  rw [State.cross, if_pos h]
  exact ⟨_, rfl⟩

theorem State.cross_imem (h : s.rb (K.CLK_BENCH b) F.CLK_BENCH_STOPPED = true) {w : Nat} (hw : w < 32768) (v : Word)
    (done : State) : s.cross b (K.IMEM b w) v done
      = s.onBench b fun y => { y with xing := y.xing ++ [(K.IMEM b w, v)] } := by
  have hk : K.IMEM b w ≠ K.FM_CTL b := by simp only [K.IMEM, K.FM_CTL]; omega
  rw [State.cross, if_pos h]
  simp [hk]

/-! ## START (R292, R298) -/

/-- The step history at a START: emptied where every Foreman of the partition is STOPPED (R292). -/
def State.historyAtStart (s : State) (b : Bid) : State :=
  match s.partOf b with
  | some p => if (s.benchesOf p).all (fun x => decide ((s.fm x).st = FmState.stopped)) then s.emptyHistory p else s
  | none => s

/-- A Foreman RUNNING at ENTRY (R298). -/
def State.runAtEntry (s : State) (b : Bid) : State :=
  s.onFm b fun f => { f with st := .running, pc := BitVec.ofNat 15 (s.rf (K.FM_CTL b) F.FM_CTL_ENTRY) }

theorem State.fmStart_starts (hst : (s.fm b).st = .stopped) (hload : s.loading b = false)
    (hpres : s.present b ucForeman 0 = true) (hready : s.ready = true) (htest : s.mgmt.testMode = 0)
    (hreset : s.inReset b = false) : s.fmStart b = (s.leaveIdle.historyAtStart b).runAtEntry b := by
  rw [State.fmStart, if_neg (by simp [hst, hload, hpres, hready, htest, hreset])]
  rfl

theorem State.leaveIdle_reg {k : Nat} (hk : K.PWR_STAT ≠ k) : s.leaveIdle.reg k = s.reg k := by
  rw [State.leaveIdle]
  split
  · exact State.setReg_other _ _ _ _ hk
  · rfl

/-- The partition, the Benches and the Foremen are those of the state before IDLE ends. -/
theorem State.leaveIdle_rest : s.leaveIdle.mem = s.mem ∧ s.leaveIdle.benches = s.benches ∧ s.SameWindows s.leaveIdle := by
  rw [State.leaveIdle]
  split
  · exact ⟨s.setRf_mem _ _ _, s.setRf_benches _ _ _,
      (State.SameWindows.refl s).setReg _ (by simp only [decidesWindows, K.PWR_STAT]; omega)⟩
  · exact ⟨rfl, rfl, .refl s⟩

/-- PHASE of a Bench that shows an attempt in progress cleared. -/
def State.showIdle (s : State) (b : Nat) : State :=
  if s.rf (K.STEP_STATE b) F.STEP_STATE_PHASE = 1 ∨ s.rf (K.STEP_STATE b) F.STEP_STATE_PHASE = 2
  then s.setRf (K.STEP_STATE b) F.STEP_STATE_PHASE 0 else s

/-- The numbers of some Benches. -/
def numbersOf (l : List Bid) : List Nat := do
  let b ← l
  pure b.val

theorem mem_numbersOf {l : List Bid} {c : Bid} (h : c ∈ l) : c.val ∈ numbersOf l :=
  List.mem_flatMap.mpr ⟨c, h, List.mem_singleton.mpr rfl⟩

theorem State.emptyHistory_eq (p : Part) :
    s.emptyHistory p = (numbersOf (s.benchesOf p)).foldl State.showIdle (s.onCtl p StepCtl.emptied) := rfl

/-- A Bench's PHASE shows an attempt in progress. -/
def State.showsAttempt (s : State) (b : Nat) : Prop :=
  s.rf (K.STEP_STATE b) F.STEP_STATE_PHASE = 1 ∨ s.rf (K.STEP_STATE b) F.STEP_STATE_PHASE = 2

theorem State.showIdle_reg_other {n k : Nat} (hk : K.STEP_STATE n ≠ k) : (s.showIdle n).reg k = s.reg k := by
  rw [State.showIdle]
  split
  · exact State.setReg_other _ _ _ _ hk
  · rfl

theorem State.showIdle_same (n : Nat) : ¬ (s.showIdle n).showsAttempt n := by
  rw [State.showIdle, State.showsAttempt]
  split
  · rw [State.rf_setRf_same _ _ _ _ (by decide)]
    decide
  · next h => exact h

theorem K.STEP_STATE_inj {m n : Nat} : K.STEP_STATE m = K.STEP_STATE n ↔ m = n := by simp only [K.STEP_STATE]; omega

theorem State.showIdle_mono {m n : Nat} (h : ¬ s.showsAttempt m) : ¬ (s.showIdle n).showsAttempt m := by
  by_cases hmn : n = m
  · subst hmn; exact State.showIdle_same n
  · rw [State.showsAttempt, State.rf, State.showIdle_reg_other (K.STEP_STATE_inj.not.mpr hmn)]
    exact h

theorem State.showIdle_rest (n : Nat) :
    (s.showIdle n).mem = s.mem ∧ (s.showIdle n).benches = s.benches ∧ (s.showIdle n).steps = s.steps := by
  rw [State.showIdle]
  split
  · exact ⟨s.setRf_mem _ _ _, s.setRf_benches _ _ _, s.setRf_steps _ _ _⟩
  · exact ⟨rfl, rfl, rfl⟩

theorem State.showIdles_reg {k : Nat} (hk : ∀ n, K.STEP_STATE n ≠ k) (l : List Nat) :
    (l.foldl State.showIdle s).reg k = s.reg k :=
  foldl_leaves (fun s => s.reg k) (fun _ n => State.showIdle_reg_other (hk n)) l s

theorem State.showIdles_rest (l : List Nat) : (l.foldl State.showIdle s).mem = s.mem
    ∧ (l.foldl State.showIdle s).benches = s.benches ∧ (l.foldl State.showIdle s).steps = s.steps :=
  ⟨foldl_leaves (fun s => s.mem) (fun _ n => (State.showIdle_rest n).1) l s,
    foldl_leaves (fun s => s.benches) (fun _ n => (State.showIdle_rest n).2.1) l s,
    foldl_leaves (fun s => s.steps) (fun _ n => (State.showIdle_rest n).2.2) l s⟩

theorem State.showIdles_none (l : List Nat) (m : Nat) (h : m ∈ l ∨ ¬ s.showsAttempt m) :
    ¬ (l.foldl State.showIdle s).showsAttempt m := by
  induction l generalizing s with
  | nil => exact h.resolve_left (by simp)
  | cons n rest ih =>
    refine ih ?_
    rcases h with h | h
    · rcases List.mem_cons.mp h with rfl | h
      · exact .inr (State.showIdle_same _)
      · exact .inl h
    · exact .inr (State.showIdle_mono h)

/-- With the history emptied no outcome is remembered, no attempt is in progress, and no Bench of the partition shows one. -/
theorem State.emptyHistory_empties (p : Part) : ((s.emptyHistory p).ctl p).last = none
    ∧ ((s.emptyHistory p).ctl p).live = false ∧ ∀ c ∈ s.benchesOf p, ¬ (s.emptyHistory p).showsAttempt c := by
  have hctl : (s.emptyHistory p).ctl p = (s.ctl p).emptied := by
    rw [State.emptyHistory_eq, State.ctl, (State.showIdles_rest _).2.2]
    exact s.onCtl_ctl_same p _
  rw [hctl]
  refine ⟨rfl, rfl, fun c hc => ?_⟩
  rw [State.emptyHistory_eq]
  exact State.showIdles_none _ _ (.inl (mem_numbersOf hc))

theorem State.emptyHistory_rest (p : Part) : (s.emptyHistory p).mem = s.mem ∧ (s.emptyHistory p).benches = s.benches
    ∧ ∀ k, (∀ n, K.STEP_STATE n ≠ k) → (s.emptyHistory p).reg k = s.reg k := by
  rw [State.emptyHistory_eq]
  obtain ⟨hmem, hbenches, -⟩ := State.showIdles_rest (s := s.onCtl p StepCtl.emptied) (numbersOf (s.benchesOf p))
  exact ⟨hmem, hbenches, fun k hk => State.showIdles_reg hk _⟩

theorem State.historyAtStart_rest : (s.historyAtStart b).mem = s.mem ∧ (s.historyAtStart b).benches = s.benches
    ∧ ∀ k, (∀ n, K.STEP_STATE n ≠ k) → (s.historyAtStart b).reg k = s.reg k := by
  unfold State.historyAtStart
  split
  · split
    · exact State.emptyHistory_rest _
    · exact ⟨rfl, rfl, fun _ _ => rfl⟩
  · exact ⟨rfl, rfl, fun _ _ => rfl⟩

theorem State.historyAtStart_stopped {p : Part} (hp : s.partOf b = some p) (h : ∀ c ∈ s.benchesOf p, (s.fm c).st = .stopped) :
    s.historyAtStart b = s.emptyHistory p := by
  rw [State.historyAtStart, hp]
  exact if_pos (List.all_eq_true.mpr fun c hc => decide_eq_true (h c hc))

theorem State.fm_of_benches {t : State} (h : t.benches = s.benches) (c : Bid) : t.fm c = s.fm c := by
  rw [State.fm, State.bench, h]; rfl

theorem State.leaveIdle_benchesOf (p : Part) : s.leaveIdle.benchesOf p = s.benchesOf p := by
  simp only [State.benchesOf, State.leaveIdle_rest.2.2.owns]

/-- START of a Foreman that nothing refuses (R292, R298). -/
theorem State.start_runs {t : State} (ht : t = (s.leaveIdle.historyAtStart b).runAtEntry b) : (t.fm b).st = .running
    ∧ t.mem = s.mem ∧ (t.fm b).pc.toNat = s.rf (K.FM_CTL b) F.FM_CTL_ENTRY ∧ (t.fm b).s = (s.fm b).s
    ∧ ∀ p, s.partOf b = some p → (∀ c ∈ s.benchesOf p, (s.fm c).st = .stopped) →
      (t.ctl p).last = none ∧ (t.ctl p).live = false ∧ ∀ c ∈ s.benchesOf p,
        t.rf (K.STEP_STATE c) F.STEP_STATE_PHASE ≠ 1 ∧ t.rf (K.STEP_STATE c) F.STEP_STATE_PHASE ≠ 2 := by
  obtain ⟨hmem, hbenches, hwin⟩ := s.leaveIdle_rest
  obtain ⟨hmem', hbenches', hreg'⟩ := State.historyAtStart_rest (s := s.leaveIdle) (b := b)
  have hfm (c : Bid) : (s.leaveIdle.historyAtStart b).fm c = s.fm c := State.fm_of_benches (hbenches'.trans hbenches) c
  have hentry : (s.leaveIdle.historyAtStart b).rf (K.FM_CTL b) F.FM_CTL_ENTRY = s.rf (K.FM_CTL b) F.FM_CTL_ENTRY := by
    rw [State.rf, State.rf, hreg' _ fun n => by simp only [K.STEP_STATE, K.FM_CTL]; omega,
      State.leaveIdle_reg (by simp only [K.PWR_STAT, K.FM_CTL]; omega)]
  have htfm : t.fm b = { s.fm b with st := .running, pc := BitVec.ofNat 15 (s.rf (K.FM_CTL b) F.FM_CTL_ENTRY) } := by
    rw [ht, State.runAtEntry, State.onFm_fm_same, hfm, hentry]
  rw [htfm]
  refine ⟨rfl, ?_, (BitVec.toNat_ofNat _ _).trans (Nat.mod_eq_of_lt (fld_lt _ _ _)), rfl, fun p hp hall => ?_⟩
  · rw [ht]
    exact hmem'.trans hmem
  · have hhist : s.leaveIdle.historyAtStart b = s.leaveIdle.emptyHistory p := by
      refine State.historyAtStart_stopped ((hwin.partOf b).trans hp) fun c hc => ?_
      rw [State.fm_of_benches hbenches]
      exact hall c (s.leaveIdle_benchesOf p ▸ hc)
    obtain ⟨hlast, hlive, hshow⟩ := State.emptyHistory_empties (s := s.leaveIdle) p
    rw [ht, hhist]
    exact ⟨hlast, hlive, fun c hc => not_or.mp (hshow c (s.leaveIdle_benchesOf p ▸ hc))⟩

/-! ## CLEAR and its end (R303) -/

theorem keepItems_none {l : List QItem} {i : QItem} (h : i ∈ keepItems l) : (∀ e, i ≠ .instr e) ∧ ∀ g, i ≠ .gate g := by
  have hi := (List.mem_filter.mp h).2
  refine ⟨?_, ?_⟩ <;> rintro x rfl <;> simp at hi

/-- A Foreman being cleared keeps no fence, gate, signal or vote and no parked instruction. -/
def Foreman.cleared (f : Foreman) : Foreman :=
  { f with clearing := true, fences := [], gates := [], sigs := [], voteReq := none, parked := none }

/-- What a Bench holds after CLEAR: of each queue what is neither an instruction nor a gate (R303). -/
def Bench.cleared (x : Bench) : Bench :=
  { x with q := x.q.map keepItems, arr := x.arr.map fun a => { a with checked := none }, fm := x.fm.cleared }

/-- The instructions that wait in a Bench's queues, by their ids. -/
def State.waiting (s : State) (b : Bid) : List Nat :=
  (List.finRange 8).flatMap fun q => (s.queue b q).filterMap fun i => match i with | .instr e => some e.id | _ => none

theorem State.fmClear_clears (h : (s.fm b).st = .faulted ∨ (s.fm b).st = .halted) (hc : (s.fm b).clearing = false) :
    s.fmClear b = (((s.waiting b).foldl (fun s id => s.completed b id) s).onBench b Bench.cleared).flushDeposits b := by
  rw [State.fmClear, if_neg (by rcases h with h | h <;> simp [h, hc])]
  rfl

/-- Completions change the Foreman alone. -/
theorem State.completions_rest (l : List Nat) : (l.foldl (fun s id => s.completed b id) s).mem = s.mem
    ∧ (l.foldl (fun s id => s.completed b id) s).regs = s.regs
    ∧ ((l.foldl (fun s id => s.completed b id) s).bench b).deposits = (s.bench b).deposits :=
  ⟨foldl_leaves (fun s => s.mem) (fun s id => s.completed_mem b id) l s,
    foldl_leaves (fun s => s.regs) (f := fun s id => s.completed b id) (fun _ _ => rfl) l s,
    foldl_leaves (fun s => (s.bench b).deposits) (fun s id => by simp [State.completed, State.onFm]) l s⟩

theorem State.flushDeposits_queue (q : Fin 8) : (s.flushDeposits b).queue b q = s.queue b q := by
  have hadd (s : State) (d : Nat × Nat × List Word) : (s.addPartial b d.2.1 d.2.2).queue b q = s.queue b q := by
    simp [State.addPartial, State.queue]
  refine (foldl_leaves (fun s => s.queue b q) hadd _ _).trans ?_
  simp [State.queue]

theorem State.flushDeposits_none (h : (s.bench b).deposits = []) : (s.flushDeposits b).regs = s.regs := by
  unfold State.flushDeposits
  dsimp only
  rw [h]
  rfl

/-- What CLEAR leaves of a FAULTED or HALTED Foreman (R303). -/
theorem State.fmClear_leaves (h : (s.fm b).st = .faulted ∨ (s.fm b).st = .halted) (hc : (s.fm b).clearing = false) :
    ((s.fmClear b).fm b).clearing = true ∧ ((s.fmClear b).fm b).fences = [] ∧ ((s.fmClear b).fm b).gates = []
    ∧ ((s.fmClear b).fm b).sigs = [] ∧ ((s.fmClear b).fm b).voteReq = none ∧ ((s.fmClear b).fm b).parked = none
    ∧ (s.fmClear b).mem = s.mem ∧ ((s.bench b).deposits = [] → (s.fmClear b).regs = s.regs)
    ∧ ∀ q, ∀ i ∈ (s.fmClear b).queue b q, (∀ e, i ≠ .instr e) ∧ ∀ g, i ≠ .gate g := by
  obtain ⟨hmem, hregs, hdep⟩ := State.completions_rest (s := s) (b := b) (s.waiting b)
  rw [State.fmClear_clears h hc]
  generalize (s.waiting b).foldl (fun s id => s.completed b id) s = d at hmem hregs hdep
  have hbench : (d.onBench b Bench.cleared).bench b = (d.bench b).cleared := d.onBench_bench_same _ _
  have hfm : ((d.onBench b Bench.cleared).flushDeposits b).fm b = (d.fm b).cleared :=
    (State.flushDeposits_bench _ b).2.trans (congrArg Bench.fm hbench)
  rw [hfm]
  refine ⟨rfl, rfl, rfl, rfl, rfl, rfl, (State.flushDeposits_mem _ b).trans hmem, fun hnone => ?_, fun q i hi => ?_⟩
  · refine (State.flushDeposits_none ?_).trans hregs
    rw [hbench]
    exact hdep.trans hnone
  · rw [State.flushDeposits_queue, State.queue, hbench] at hi
    exact keepItems_none (l := (d.bench b).q[q]) (by simpa [Bench.cleared] using hi)

/-- A Bench at the end of a CLEAR: its Foreman STOPPED, with nothing noted. -/
def Bench.clearDone (x : Bench) : Bench :=
  { x with
    stopped := 0
    fm := { x.fm with st := .stopped, clearing := false, marks := [], sigs := [], ninth := none, faultVote := none, ending := false } }

theorem State.barsRest_leaves : (s.barsRest b).mem = s.mem ∧ (s.barsRest b).benches = s.benches
    ∧ ∀ k, (∀ p : Part, ¬ (K.BAR_GEN p 0 ≤ k ∧ k < K.BAR_GEN p 16)) → (s.barsRest b).reg k = s.reg k := by
  unfold State.barsRest
  split
  · exact ⟨rfl, rfl, fun _ _ => rfl⟩
  · split
    · exact ⟨State.resetRegs_mem _ _ _, State.resetRegs_benches _ _ _,
        fun k hk => (State.resetRegs_reg _ _ _ _).trans (if_neg (hk _))⟩
    · exact ⟨rfl, rfl, fun _ _ => rfl⟩

/-- The state at the end of a CLEAR, but for the barrier counts. -/
def State.clearEnded (s : State) (b : Bid) : State :=
  ((s.onBench b Bench.clearDone).setReg (K.FM_FAULT b) 0).setRb (K.FM_STAT b) F.FM_STAT_ENDED false

theorem State.clearEnded_leaves (s : State) (b : Bid) : (s.clearEnded b).bench b = (s.bench b).clearDone
    ∧ (s.clearEnded b).reg (K.FM_FAULT b) = 0 ∧ (s.clearEnded b).mem = s.mem := by
  have hk : K.FM_STAT b ≠ K.FM_FAULT b := by simp only [K.FM_STAT, K.FM_FAULT]; omega
  refine ⟨?_, ?_, (State.setRb_mem _ _ _ _).trans (State.setReg_mem _ _ _)⟩
  · simp [State.clearEnded, State.setRb, State.setRf]
  · exact (State.setReg_other _ _ _ _ hk).trans (((s.onBench b _).reg_setReg _ _ _).trans (if_pos rfl))

/-- FM_CLEAR_DONE with nothing left in progress (R303). -/
theorem fmClearDone_ends (hc : (s.fm b).clearing = true) (hw : (s.bench b).working = false) :
    ∃ t, execFmClearDone b s = .next t ∧ (t.fm b).st = .stopped ∧ (t.fm b).clearing = false ∧ (t.fm b).marks = []
      ∧ (t.fm b).faultVote = none ∧ (t.bench b).stopped = 0 ∧ t.reg (K.FM_FAULT b) = 0 ∧ t.mem = s.mem := by
  refine ⟨(s.clearEnded b).barsRest b, ?_, ?_⟩
  · rw [execFmClearDone, if_neg (by simp [hc, hw])]
    rfl
  · obtain ⟨hmem, hbenches, hreg⟩ := State.barsRest_leaves (s := s.clearEnded b) (b := b)
    obtain ⟨hbench, hfault, hmem'⟩ := State.clearEnded_leaves s b
    have hb : ((s.clearEnded b).barsRest b).bench b = (s.bench b).clearDone := by
      rw [State.bench, hbenches]
      exact hbench
    rw [State.fm, hb]
    refine ⟨rfl, rfl, rfl, rfl, rfl, (hreg _ fun p => ?_).trans hfault, hmem.trans hmem'⟩
    simp only [K.BAR_GEN, K.FM_FAULT]; omega

/-! ## Instruction memory (R299) -/

theorem State.writeImem_stopped (h : (s.fm b).st = .stopped) (w : Nat) (v : Word) :
    s.writeImem b w v = s.setReg (K.IMEM b w) v := by rw [State.writeImem, if_pos h]

theorem State.writeImem_refused (h : (s.fm b).st ≠ .stopped) (w : Nat) (v : Word) :
    s.writeImem b w v = s.setRb (K.FM_STAT b) F.FM_STAT_IMEM_REFUSED true := by rw [State.writeImem, if_neg h]

end

end Sys2Proof.Machine
end

section
/-! SUPPORT. Program loads: GO and the end of the oldest copy (R252, R300, R309, R473, R476). -/

namespace Sys2Proof.Machine

/-! ## Keys -/

theorem imem_eq_iff {b c m n : Nat} (hm : m < 32768) (hn : n < 32768) : K.IMEM b m = K.IMEM c n ↔ b = c ∧ m = n := by
  simp only [K.IMEM]; omega

theorem imem_ne_progLoad (b : Bid) {n : Nat} (hn : n < 32768) (p : Nat) : K.PROG_LOAD1 p ≠ K.IMEM b n := by
  have := b.isLt
  simp only [K.PROG_LOAD1, K.IMEM]; omega

section
variable {s : State} {p : Part}

/-! ## GO (R300) -/

/-- The conditions of R300 on the Benches that a copy would name: owned and STOPPED. -/
def State.loadable (s : State) (p : Part) : Prop :=
  ∀ c : Bid, (s.loadMask p).testBit c.val = true → s.owns p c = true ∧ (s.fm c).st = .stopped

/-- The conditions of R300 on a copy's source and length. -/
def State.sourceOk (s : State) (p : Part) : Prop :=
  s.loadSrc p % 4096 = 0 ∧ 1 ≤ s.loadLen p ∧ s.loadLen p ≤ 32768 ∧ s.rangeOk p (s.loadSrc p) (8 * s.loadLen p) = true

/-- A copy begun behind the partition's others. -/
def State.beginLoad (s : State) (p : Part) : State :=
  { s with loads := s.loads.set p (s.loads[p] ++ [⟨s.loadMask p, s.loadSrc p, s.loadLen p⟩]) }

theorem State.loadable_iff : s.loadable p
    ↔ (allBids.all fun b => !(s.loadMask p).testBit b.val || (s.owns p b && (s.fm b).st == .stopped)) = true := by
  have hone (c : Bid) : (!(s.loadMask p).testBit c.val || (s.owns p c && (s.fm c).st == .stopped)) = true
      ↔ ((s.loadMask p).testBit c.val = true → s.owns p c = true ∧ (s.fm c).st = .stopped) := by
    cases (s.loadMask p).testBit c.val <;> simp
  simp only [List.all_eq_true, hone]
  exact ⟨fun h c _ => h c, fun h c => h c (mem_allBids c)⟩

theorem State.progGo_begins (hb : s.loadable p) (hs : s.sourceOk p) : s.progGo p = s.beginLoad p := by
  obtain ⟨halign, hlow, hhigh, hrange⟩ := hs
  unfold State.progGo
  dsimp only
  rw [if_pos (by simp [State.loadable_iff.mp hb, halign, hlow, hhigh, hrange])]
  rfl

theorem State.progGo_refused (h : ¬ (s.loadable p ∧ s.sourceOk p)) :
    s.progGo p = s.setRb (K.PROG_LOAD1 p) F.PROG_LOAD1_ERROR true := by
  unfold State.progGo
  dsimp only
  rw [if_neg]
  simp only [Bool.and_eq_true, ← State.loadable_iff, beq_iff_eq, decide_eq_true_eq]
  rintro ⟨⟨⟨⟨hb, halign⟩, hlow⟩, hhigh⟩, hrange⟩
  exact h ⟨hb, halign, hlow, hhigh, hrange⟩

theorem State.beginLoad_loads : (s.beginLoad p).loads[p] = s.loads[p] ++ [⟨s.loadMask p, s.loadSrc p, s.loadLen p⟩] := by
  simp [State.beginLoad]

theorem State.setRb_set (k : Nat) (f : Fld) (hf : f.lo + f.w ≤ 64) (hw : 0 < f.w) : (s.setRb k f true).rb k f = true :=
  State.rb_setRb_same _ _ _ _ hf hw

/-! ## The words of a copy -/

/-- The instruction word at a byte address of memory. -/
def State.instrAt (s : State) (a : Nat) : Word := BitVec.ofNat 64 (ofBytes (mread s.mem a 8))

/-- A word of memory has no upset and no poison. -/
def State.sound (s : State) (w : Nat) : Prop := (s.mark w).upset = .clean ∧ (s.mark w).poison = false

theorem State.loadWord_sound {a : Nat} (h : s.sound (a / 16)) : s.loadWord a = (s.instrAt a, s) := by
  obtain ⟨hclean, hpoison⟩ := h
  have hread : (s.decodeWord (a / 16) .clean).poisonRead (a / 16) = s := by
    rw [State.decodeWord_clean _ _ hclean, State.poisonRead, hpoison, Bool.and_false, if_neg Bool.false_ne_true]
  unfold State.loadWord
  rw [hread]
  dsimp only
  rw [hpoison, if_neg Bool.false_ne_true, State.instrAt]

/-- A word written to the instruction memories of some Benches. -/
def State.copyWord (s : State) (bs : List Nat) (n : Nat) (v : Word) : State :=
  bs.foldl (fun s b => s.setReg (K.IMEM b n) v) s

theorem State.loadWords_succ (bs : List Bid) (src n : Nat) : s.loadWords bs src (n + 1)
    = ((s.loadWords bs src n).loadWord (src + 8 * n)).2.copyWord (numbersOf bs) n
        ((s.loadWords bs src n).loadWord (src + 8 * n)).1 := rfl

theorem State.copyWord_rest (bs : List Nat) (n : Nat) (v : Word) : (s.copyWord bs n v).mem = s.mem
    ∧ (s.copyWord bs n v).marks = s.marks ∧ (s.copyWord bs n v).loads = s.loads :=
  ⟨foldl_leaves (fun s => s.mem) (fun _ _ => State.setReg_mem _ _ _) bs s,
    foldl_leaves (fun s => s.marks) (fun _ _ => State.setReg_marks _ _ _) bs s,
    foldl_leaves (fun s => s.loads) (fun _ _ => State.setReg_loads _ _ _) bs s⟩

theorem State.copyWord_reg_other (bs : List Nat) {n k : Nat} (v : Word) (h : ∀ b, K.IMEM b n ≠ k) :
    (s.copyWord bs n v).reg k = s.reg k :=
  foldl_leaves (fun s => s.reg k) (fun _ b => State.setReg_other _ _ _ _ (h b)) bs s

theorem State.copyWord_reg {bs : List Nat} {n c : Nat} (v : Word) (h : c ∈ bs ∨ s.reg (K.IMEM c n) = v) :
    (s.copyWord bs n v).reg (K.IMEM c n) = v := by
  induction bs generalizing s with
  | nil => exact h.resolve_left (by simp)
  | cons b rest ih =>
    refine ih ?_
    rw [State.reg_setReg]
    split
    · exact .inr rfl
    · next hne =>
      refine h.imp_left fun hc => (List.mem_cons.mp hc).resolve_left ?_
      rintro rfl
      exact hne rfl

/-- Sound words copied leave memory, the marks and the copies in progress, and every Bench named holds them. -/
theorem State.loadWords_copies (bs : List Bid) (src : Nat) {n : Nat} (hn : n ≤ 32768)
    (hsound : ∀ i < n, s.sound ((src + 8 * i) / 16)) : (s.loadWords bs src n).mem = s.mem
    ∧ (s.loadWords bs src n).marks = s.marks ∧ (s.loadWords bs src n).loads = s.loads
    ∧ ∀ c ∈ bs, ∀ i < n, (s.loadWords bs src n).reg (K.IMEM c i) = s.instrAt (src + 8 * i) := by
  induction n with
  | zero => exact ⟨rfl, rfl, rfl, fun _ _ i hi => absurd hi (Nat.not_lt_zero i)⟩
  | succ n ih =>
    obtain ⟨hmem, hmarks, hloads, himem⟩ := ih (Nat.le_of_succ_le hn) fun i hi => hsound i (Nat.lt_succ_of_lt hi)
    have hword : (s.loadWords bs src n).loadWord (src + 8 * n) = (s.instrAt (src + 8 * n), s.loadWords bs src n) := by
      rw [State.loadWord_sound, State.instrAt, State.instrAt, hmem]
      rw [State.sound, State.mark, hmarks]
      exact hsound n (Nat.lt_succ_self n)
    rw [State.loadWords_succ, hword]
    obtain ⟨hmem', hmarks', hloads'⟩ :=
      State.copyWord_rest (s := s.loadWords bs src n) (numbersOf bs) n (s.instrAt (src + 8 * n))
    refine ⟨hmem'.trans hmem, hmarks'.trans hmarks, hloads'.trans hloads, fun c hc i hi => ?_⟩
    by_cases hin : i = n
    · subst hin
      exact State.copyWord_reg _ (.inl (mem_numbersOf hc))
    · rw [State.copyWord_reg_other]
      · exact himem c hc i (by omega)
      · intro b heq
        exact hin ((imem_eq_iff (by omega) (by omega)).mp heq).2.symm

/-! ## The end of a copy (R252, R300) -/

/-- A partition's oldest copy leaves the copies in progress. -/
def State.dropLoad (s : State) (p : Part) (rest : List ProgLoad) : State := { s with loads := s.loads.set p rest }

/-- The Benches that a copy names. -/
def ProgLoad.benches (l : ProgLoad) : List Bid := allBids.filter fun b => l.mask.testBit b.val

/-- The words of a copy's source that are not served. -/
def State.unservedWords (s : State) (p : Part) (l : ProgLoad) : List Nat :=
  (wordsOf l.src (8 * l.len)).filter fun w => !s.served p (16 * w)

/-- A copy's words copied. -/
def State.copyLoad (s : State) (p : Part) (l : ProgLoad) : State :=
  (s.charge p true ((wordsOf l.src (8 * l.len)).map fun w => (w, 1, 16))).loadWords l.benches l.src l.len

/-- DONE where no other copy is left. -/
def State.noteDone (s : State) (p : Part) (rest : List ProgLoad) : State :=
  if rest.isEmpty then s.setRb (K.PROG_LOAD1 p) F.PROG_LOAD1_DONE true else s

/-- The words of a source refused. -/
def State.refuseWords (s : State) (p : Part) (l : List Nat) : State := l.foldl (fun s w => s.refuseAt p none (16 * w)) s

theorem ProgLoad.mem_benches {l : ProgLoad} {c : Bid} (h : l.mask.testBit c.val = true) : c ∈ l.benches :=
  List.mem_filter.mpr ⟨mem_allBids c, h⟩

/-- While a clock of a Bench it names is stopped, a copy waits (R473, R476). -/
theorem progLoadDone_waits {l : ProgLoad} {rest : List ProgLoad} (hl : s.loads[p] = l :: rest)
    (h : ∃ c : Bid, l.mask.testBit c.val = true ∧ s.rb (K.CLK_BENCH c) F.CLK_BENCH_STOPPED = true) :
    execProgLoadDone p s = .next s := by
  obtain ⟨c, hc, hstop⟩ := h
  unfold execProgLoadDone
  rw [hl]
  exact if_pos (List.any_eq_true.mpr ⟨c, mem_allBids c, by rw [hc, hstop]; rfl⟩)

section
variable {l : ProgLoad} {rest : List ProgLoad} (hl : s.loads[p] = l :: rest)
  (hrun : ∀ c : Bid, l.mask.testBit c.val = true → s.rb (K.CLK_BENCH c) F.CLK_BENCH_STOPPED = false)
include hl hrun

theorem progLoadDone_eq : execProgLoadDone p s = .next (if (s.unservedWords p l).isEmpty
    then ((s.dropLoad p rest).copyLoad p l).noteDone p rest
    else ((s.dropLoad p rest).refuseWords p (s.unservedWords p l)).setRb (K.PROG_LOAD1 p) F.PROG_LOAD1_ERROR true) := by
  unfold execProgLoadDone
  rw [hl]
  dsimp only
  rw [if_neg]
  · exact (apply_ite Host.Outcome.next _ _ _).symm
  · rw [Bool.not_eq_true, List.any_eq_false]
    intro c _ hc
    obtain ⟨hbit, hstop⟩ := Bool.and_eq_true_iff.mp hc
    rw [hrun c hbit] at hstop
    cases hstop

theorem progLoadDone_served (h : ∀ w ∈ wordsOf l.src (8 * l.len), s.served p (16 * w) = true) :
    execProgLoadDone p s = .next (((s.dropLoad p rest).copyLoad p l).noteDone p rest) := by
  rw [progLoadDone_eq hl hrun, if_pos]
  rw [List.isEmpty_iff, State.unservedWords, List.filter_eq_nil_iff]
  intro w hw
  rw [h w hw]
  exact Bool.false_ne_true

theorem progLoadDone_unserved (h : ∃ w ∈ wordsOf l.src (8 * l.len), s.served p (16 * w) = false) :
    execProgLoadDone p s = .next
      (((s.dropLoad p rest).refuseWords p (s.unservedWords p l)).setRb (K.PROG_LOAD1 p) F.PROG_LOAD1_ERROR true) := by
  obtain ⟨w, hw, hserved⟩ := h
  have hmem : w ∈ s.unservedWords p l := List.mem_filter.mpr ⟨hw, by rw [hserved]; rfl⟩
  rw [progLoadDone_eq hl hrun, if_neg]
  rw [List.isEmpty_iff]
  exact List.ne_nil_of_mem hmem

end

theorem State.charge_marks (read : Bool) (l : List (Nat × Nat × Nat)) : (s.charge p read l).marks = s.marks :=
  foldl_leaves (fun s => s.marks) (fun s _ => s.slotsUsed_marks _ _ _ _) _ s

theorem State.slotsUsed_loads (k : Fin 8) (cls cost bytes : Nat) : (s.slotsUsed k cls cost bytes).loads = s.loads := by
  rw [State.slotsUsed, State.onStk_loads, State.countH, State.count_loads, State.countH, State.count_loads]

theorem State.charge_loads (read : Bool) (l : List (Nat × Nat × Nat)) : (s.charge p read l).loads = s.loads :=
  foldl_leaves (fun s => s.loads) (fun _ _ => State.slotsUsed_loads _ _ _ _) _ s

/-- The words that a program's words lie in, of a source at a word's start. -/
theorem instrWord_mem {src len i : Nat} (hi : i < len) : (src + 8 * i) / 16 ∈ wordsOf src (8 * len) :=
  mem_wordsOf.mpr (by omega)

/-- A copy of sound words leaves memory and the copies in progress, and every Bench it names holds its source. -/
theorem State.copyLoad_copies {l : ProgLoad} (hlen : l.len ≤ 32768) (hsound : ∀ w ∈ wordsOf l.src (8 * l.len), s.sound w) :
    (s.copyLoad p l).mem = s.mem ∧ (s.copyLoad p l).loads = s.loads ∧ ∀ c : Bid, l.mask.testBit c.val = true → ∀ i < l.len,
      (s.copyLoad p l).reg (K.IMEM c i) = s.instrAt (l.src + 8 * i) := by
  let u := s.charge p true ((wordsOf l.src (8 * l.len)).map fun w => (w, 1, 16))
  have hmem : u.mem = s.mem := State.charge_mem _ _ _ _
  have hmarks : u.marks = s.marks := State.charge_marks _ _
  obtain ⟨hmem', -, hloads', himem⟩ := State.loadWords_copies (s := u) l.benches l.src hlen fun i hi => by
    rw [State.sound, State.mark, hmarks]
    exact hsound _ (instrWord_mem hi)
  refine ⟨hmem'.trans hmem, hloads'.trans (State.charge_loads _ _), fun c hc i hi => ?_⟩
  exact (himem c (ProgLoad.mem_benches hc) i hi).trans (by rw [State.instrAt, State.instrAt, hmem])

theorem State.noteDone_leaves {rest : List ProgLoad} : (s.noteDone p rest).mem = s.mem ∧ (s.noteDone p rest).loads = s.loads
    ∧ (rest = [] → (s.noteDone p rest).rb (K.PROG_LOAD1 p) F.PROG_LOAD1_DONE = true)
    ∧ ∀ k, K.PROG_LOAD1 p ≠ k → (s.noteDone p rest).reg k = s.reg k := by
  cases rest with
  | nil =>
    exact ⟨State.setRb_mem _ _ _ _, State.setRb_loads _ _ _ _, fun _ => State.setRb_set _ _ (by decide) (by decide),
      fun k hk => State.setReg_other _ _ _ _ hk⟩
  | cons l rest => exact ⟨rfl, rfl, nofun, fun _ _ => rfl⟩

theorem State.dropLoad_loads (rest : List ProgLoad) : (s.dropLoad p rest).loads[p] = rest := by simp [State.dropLoad]

/-! ## A source that is not served (R252) -/

theorem State.noteFault_loads (r : RecInfo) : (s.noteFault r).loads = s.loads := rfl

theorem State.emit_loads (r : RecInfo) : (s.emit r).loads = s.loads := by
  unfold State.emit
  dsimp only
  split <;> split <;> simp [State.drawWord, State.noteFault_loads]

theorem State.unmapped_loads (a : Nat) : (s.unmapped a).loads = s.loads := by
  rw [State.unmapped]
  split
  · exact State.setRf_loads _ _ _ _
  · rfl

theorem State.unmapped_imem (a : Nat) (c : Bid) {n : Nat} (hn : n < 32768) :
    (s.unmapped a).reg (K.IMEM c n) = s.reg (K.IMEM c n) := by
  rw [State.unmapped]
  split
  · refine State.setReg_other _ _ _ _ ?_
    have := c.isLt
    simp only [K.BMC_STAT, K.IMEM]; omega
  · rfl

theorem State.refusal_event (a : Nat) : (s.refusal p none a).event = 0x0F := by
  unfold State.refusal
  dsimp only
  split
  · rfl
  · split <;> rfl

theorem State.emit_imem {r : RecInfo} (hr : r.event < 256) (c : Bid) {n : Nat} (hn : n < 32768) :
    (s.emit r).reg (K.IMEM c n) = s.reg (K.IMEM c n) := by
  refine State.emit_reg _ _ fun b => ?_
  have := b.isLt
  simp only [K.BENCH_CTR, K.IMEM]; omega

/-- Refused words leave memory, the copies in progress and instruction memory. -/
theorem State.refuseWords_leaves (l : List Nat) : (s.refuseWords p l).mem = s.mem ∧ (s.refuseWords p l).loads = s.loads
    ∧ ∀ c : Bid, ∀ n < 32768, (s.refuseWords p l).reg (K.IMEM c n) = s.reg (K.IMEM c n) := by
  refine ⟨foldl_leaves (fun s => s.mem) (fun s w => s.refuseAt_mem _ _ _) l s,
    foldl_leaves (fun s => s.loads) (fun s w => ?_) l s,
    fun c n hn => foldl_leaves (fun s => s.reg (K.IMEM c n)) (fun s w => ?_) l s⟩
  · exact (State.unmapped_loads _).trans (State.emit_loads _)
  · refine (State.unmapped_imem _ c hn).trans (State.emit_imem ?_ c hn)
    rw [State.refusal_event]
    decide

end

end Sys2Proof.Machine
end

section
/-! The settlement of O23. -/

open Sys2Proof Sys2Proof.Machine

/-- Settles O23, command by command: START, STOP and CLEAR of a Bench whose clock runs reach their effect and with the clock
stopped are held in the crossing; a load's words are copied one by one, or all refused. -/
theorem foremanControl : Obligations.ForemanControl := by
  unfold Obligations.ForemanControl
  intro s b _
  dsimp only
  refine ⟨fun hrun => ⟨fun hst hload hpres hready htest hreset => ?start, fun hst => ?stop, fun hst hc => ?clear,
    fun w v => ⟨fun hst => ?write, fun hst => ?refused⟩⟩, fun hstop w v => ?held, fmClearDone_ends, fun p =>
    ⟨⟨fun h => ?begins, fun h => ?error⟩, fun l rest hl hlen => ⟨fun h => progLoadDone_waits hl h,
      fun hrun => ⟨fun hsound _ => ?done, fun hbad => ?unserved⟩⟩⟩⟩
  case start =>
    refine ⟨s.fmStart b, congrArg Host.Outcome.next (State.fmCommand_running hrun _ _), ?_⟩
    exact State.start_runs (State.fmStart_starts hst hload hpres hready htest hreset)
  case stop =>
    refine congrArg Host.Outcome.next ((State.fmCommand_running hrun _ _).trans ?_)
    rw [State.fmStop, if_pos hst]
  case clear =>
    exact ⟨s.fmClear b, congrArg Host.Outcome.next (State.fmCommand_running hrun _ _), State.fmClear_leaves hst hc⟩
  case write =>
    refine ⟨s.setReg (K.IMEM b w.toNat) v, congrArg Host.Outcome.next ?_, ?_, fun k hk => State.setReg_other _ _ _ _ hk.symm,
      State.setReg_benches _ _ _, State.setReg_mem _ _ _⟩
    · exact (State.cross_running hrun _ _ _).trans (State.writeImem_stopped hst _ _)
    · rw [State.reg_setReg, if_pos rfl]
  case refused =>
    refine ⟨s.setRb (K.FM_STAT b) F.FM_STAT_IMEM_REFUSED true, congrArg Host.Outcome.next ?_, ?_,
      fun k hk => State.setReg_other _ _ _ _ hk.symm⟩
    · exact (State.cross_running hrun _ _ _).trans (State.writeImem_refused hst _ _)
    · exact State.setRb_set _ _ (by decide) (by decide)
  case held =>
    have hheld (k : Nat) (x : Word) (done : State) : ∃ y, Host.Outcome.next (s.cross b k x done)
        = (Host.Outcome.next (s.onBench b fun z => { z with xing := z.xing ++ [(k, y)] }) : Out) :=
      (State.cross_held hstop k x done).imp fun _ => congrArg Host.Outcome.next
    exact ⟨hheld _ _ _, hheld _ _ _, hheld _ _ _, congrArg Host.Outcome.next (State.cross_imem hstop w.isLt _ _)⟩
  case begins =>
    obtain ⟨hb, hs⟩ := h
    exact ⟨s.beginLoad p, congrArg Host.Outcome.next (State.progGo_begins hb hs), State.beginLoad_loads, rfl⟩
  case error =>
    refine ⟨s.setRb (K.PROG_LOAD1 p) F.PROG_LOAD1_ERROR true, congrArg Host.Outcome.next (State.progGo_refused ?_),
      State.setRb_loads _ _ _ _, State.setRb_set _ _ (by decide) (by decide)⟩
    rintro ⟨hb, halign, hlow, hhigh, hrange⟩
    rcases h with h | h | h | h | ⟨c, hc, h⟩
    · exact h halign
    · omega
    · omega
    · rw [hrange] at h; cases h
    · obtain ⟨howns, hst⟩ := hb c hc
      rw [howns] at h
      exact h.elim nofun fun h => h hst
  case done =>
    let d := s.dropLoad p rest
    obtain ⟨hmem, hloads, himem⟩ := State.copyLoad_copies (s := d) (p := p) hlen fun w hw => (hsound w hw).2
    obtain ⟨hmem', hloads', hdone, hreg⟩ := State.noteDone_leaves (s := d.copyLoad p l) (p := p) (rest := rest)
    refine ⟨(d.copyLoad p l).noteDone p rest, progLoadDone_served hl hrun fun w hw => (hsound w hw).1, ?_,
      hmem'.trans hmem, hdone, fun c hc n hn => ?_⟩
    · rw [hloads', hloads]
      exact State.dropLoad_loads rest
    · rw [hreg _ (imem_ne_progLoad c (by omega) p), himem c hc n hn]
      rfl
  case unserved =>
    obtain ⟨hmem, hloads, himem⟩ := State.refuseWords_leaves (s := s.dropLoad p rest) (p := p) (s.unservedWords p l)
    refine ⟨_, progLoadDone_unserved hl hrun hbad, ?_, State.setRb_set _ _ (by decide) (by decide),
      (State.setRb_mem _ _ _ _).trans hmem, fun c n hn => ?_⟩
    · rw [State.setRb_loads, hloads]
      exact State.dropLoad_loads rest
    · rw [State.setRb, State.setRf, State.setReg_other _ _ _ _ (imem_ne_progLoad c hn p)]
      exact himem c n hn

end

section
/-! SUPPORT. A step answers a next state that keeps the invariant: each command does, and so does a tick, whose Foreman runs one. -/

namespace Sys2Proof.Machine

/-- Every command answers a next state that keeps the queue and the invariant. -/
theorem exec_keeps {s0 s : State} (i : Instr) (h : Keeps s0 s) : OutKeeps s0 (exec i s) := by
  cases i with
  | nop => exact execNop_keeps h
  | add => exact execAdd_keeps h
  | sub => exact execSub_keeps h
  | and_ => exact execAnd_keeps h
  | or_ => exact execOr_keeps h
  | xor_ => exact execXor_keeps h
  | shl => exact execShl_keeps h
  | shr => exact execShr_keeps h
  | sar => exact execSar_keeps h
  | mul => exact execMul_keeps h
  | mulhu => exact execMulhu_keeps h
  | min_ => exact execMin_keeps h
  | minu => exact execMinu_keeps h
  | max_ => exact execMax_keeps h
  | maxu => exact execMaxu_keeps h
  | divu => exact execDivu_keeps h
  | remu => exact execRemu_keeps h
  | ceq => exact execCeq_keeps h
  | cne => exact execCne_keeps h
  | clt => exact execClt_keeps h
  | cltu => exact execCltu_keeps h
  | cge => exact execCge_keeps h
  | cgeu => exact execCgeu_keeps h
  | pand => exact execPand_keeps h
  | por => exact execPor_keeps h
  | pxor => exact execPxor_keeps h
  | pandn => exact execPandn_keeps h
  | addi => exact execAddi_keeps h
  | andi => exact execAndi_keeps h
  | ori => exact execOri_keeps h
  | xori => exact execXori_keeps h
  | shli => exact execShli_keeps h
  | shri => exact execShri_keeps h
  | sari => exact execSari_keeps h
  | muli => exact execMuli_keeps h
  | ceqi => exact execCeqi_keeps h
  | clti => exact execClti_keeps h
  | cltui => exact execCltui_keeps h
  | imm64 => exact execImm64_keeps h
  | ld => exact execLd_keeps h
  | st => exact execSt_keeps h
  | tld => exact execTld_keeps h
  | tst => exact execTst_keeps h
  | tmov => exact execTmov_keeps h
  | tset => exact execTset_keeps h
  | tget => exact execTget_keeps h
  | pendingValueArrives => exact execPendingValueArrives_keeps h
  | br => exact execBr_keeps h
  | call => exact execCall_keeps h
  | jr => exact execJr_keeps h
  | callr => exact execCallr_keeps h
  | end_ => exact execEnd_keeps h
  | foremanDrainComplete => exact execForemanDrainComplete_keeps h
  | cutMm => exact execCutMm_keeps h
  | drsMm => exact execDrsMm_keeps h
  | arrayHeadCheck => exact execArrayHeadCheck_keeps h
  | tileLoadStart => exact execTileLoadStart_keeps h
  | tileLoadDone => exact execTileLoadDone_keeps h
  | streamStart => exact execStreamStart_keeps h
  | accumRowUpdate => exact execAccumRowUpdate_keeps h
  | accumDrainRow => exact execAccumDrainRow_keeps h
  | arrayInstrComplete => exact execArrayInstrComplete_keeps h
  | operandWaitRetry => exact execOperandWaitRetry_keeps h
  | cutCtlModeWrite => exact execCutCtlModeWrite_keeps h
  | cutModeSwitchDone => exact execCutModeSwitchDone_keeps h
  | wdgCvt => exact execWdgCvt_keeps h
  | wdgRot => exact execWdgRot_keeps h
  | wdgBegin => exact execWdgBegin_keeps h
  | wdgComplete => exact execWdgComplete_keeps h
  | vtabEntryWrite => exact execVtabEntryWrite_keeps h
  | validate => exact execValidate_keeps h
  | invalidate => exact execInvalidate_keeps h
  | exportOpen => exact execExportOpen_keeps h
  | exportClose => exact execExportClose_keeps h
  | exportSessionActivate => exact execExportSessionActivate_keeps h
  | exportSessionClosed => exact execExportSessionClosed_keeps h
  | plmEval => exact execPlmEval_keeps h
  | plmSnapshot => exact execPlmSnapshot_keeps h
  | plmPartitionSums => exact execPlmPartitionSums_keeps h
  | plmEvaluate => exact execPlmEvaluate_keeps h
  | apply => exact execApply_keeps h
  | resetLoss => exact execResetLoss_keeps h
  | plmLossWrite => exact execPlmLossWrite_keeps h
  | plmSetCmd => exact execPlmSetCmd_keeps h
  | scrMapCopy => exact execScrMapCopy_keeps h
  | scrMapAdd => exact execScrMapAdd_keeps h
  | scrMapSub => exact execScrMapSub_keeps h
  | scrMapMul => exact execScrMapMul_keeps h
  | scrMapFma => exact execScrMapFma_keeps h
  | scrMapMax => exact execScrMapMax_keeps h
  | scrMapMin => exact execScrMapMin_keeps h
  | scrMapAbs => exact execScrMapAbs_keeps h
  | scrMapNeg => exact execScrMapNeg_keeps h
  | scrMapScale => exact execScrMapScale_keeps h
  | scrMapSqrt => exact execScrMapSqrt_keeps h
  | scrMapRecip => exact execScrMapRecip_keeps h
  | scrMapRsqrt => exact execScrMapRsqrt_keeps h
  | scrMapRsum => exact execScrMapRsum_keeps h
  | scrMapRssq => exact execScrMapRssq_keeps h
  | scrMapRmax => exact execScrMapRmax_keeps h
  | scrMapRamax => exact execScrMapRamax_keeps h
  | scrCurve => exact execScrCurve_keeps h
  | scrDcurve => exact execScrDcurve_keeps h
  | scrSmax => exact execScrSmax_keeps h
  | scrTopk => exact execScrTopk_keeps h
  | scrOpt => exact execScrOpt_keeps h
  | scrBegin => exact execScrBegin_keeps h
  | scrComplete => exact execScrComplete_keeps h
  | crvValidate => exact execCrvValidate_keeps h
  | crvInvalidate => exact execCrvInvalidate_keeps h
  | crvSlotWrite => exact execCrvSlotWrite_keeps h
  | haulLd => exact execHaulLd_keeps h
  | haulSt => exact execHaulSt_keeps h
  | haulGth => exact execHaulGth_keeps h
  | haulSct => exact execHaulSct_keeps h
  | haulBegin => exact execHaulBegin_keeps h
  | haulComplete => exact execHaulComplete_keeps h
  | stkPush => exact execStkPush_keeps h
  | stkPop => exact execStkPop_keeps h
  | stkPushPlace => exact execStkPushPlace_keeps h
  | stkPopExecute => exact execStkPopExecute_keeps h
  | stkPopEscalate => exact execStkPopEscalate_keeps h
  | stkTierWrite => exact execStkTierWrite_keeps h
  | bankRequestGrant => exact execBankRequestGrant_keeps h
  | correctedWordRewrite => exact execCorrectedWordRewrite_keeps h
  | sramPatrolRead => exact execSramPatrolRead_keeps h
  | waitTimeout => exact execWaitTimeout_keeps h
  | stackSlotGrant => exact execStackSlotGrant_keeps h
  | stackPatrolRead => exact execStackPatrolRead_keeps h
  | cowPageCopy => exact execCowPageCopy_keeps h
  | cowCopyDone => exact execCowCopyDone_keeps h
  | viewRead => exact execViewRead_keeps h
  | arm => exact execArm_keeps h
  | release => exact execRelease_keeps h
  | cowReleaseEffect => exact execCowReleaseEffect_keeps h
  | bmcRowWrite => exact execBmcRowWrite_keeps h
  | rowZeroDone => exact execRowZeroDone_keeps h
  | bmcPartWrite => exact execBmcPartWrite_keeps h
  | bmcShareWrite => exact execBmcShareWrite_keeps h
  | syncFence => exact execSyncFence_keeps h
  | fenceRetire => exact execFenceRetire_keeps h
  | set_ => exact execSet_keeps h
  | sigAdd => exact execSigAdd_keeps h
  | clear => exact execClear_keeps h
  | signalIssue => exact execSignalIssue_keeps h
  | full => exact execFull_keeps h
  | take => exact execTake_keeps h
  | empty => exact execEmpty_keeps h
  | ge => exact execGe_keeps h
  | waitGatesOpen => exact execWaitGatesOpen_keeps h
  | syncBar => exact execSyncBar_keeps h
  | barrierArrival => exact execBarrierArrival_keeps h
  | barrierTimeout => exact execBarrierTimeout_keeps h
  | stepBegin => exact execStepBegin_keeps h
  | stepVote => exact execStepVote_keeps h
  | stepVoteSend => exact execStepVoteSend_keeps h
  | markBegin => exact execMarkBegin_keeps h
  | markEnd => exact execMarkEnd_keeps h
  | start => exact execStart_keeps h
  | stop => exact execStop_keeps h
  | fmClear => exact execFmClear_keeps h
  | fmClearDone => exact execFmClearDone_keeps h
  | imemWrite => exact execImemWrite_keeps h
  | go => exact execGo_keeps h
  | progLoadDone => exact execProgLoadDone_keeps h
  | programFault => exact execProgramFault_keeps h
  | wghRed => exact execWghRed_keeps h
  | wghSparse => exact execWghSparse_keeps h
  | bucketOpen => exact execBucketOpen_keeps h
  | grant => exact execGrant_keeps h
  | contrib => exact execContrib_keeps h
  | sums => exact execSums_keeps h
  | shardResultSend => exact execShardResultSend_keeps h
  | result => exact execResult_keeps h
  | rsums => exact execRsums_keeps h
  | abandon => exact execAbandon_keeps h
  | drain => exact execDrain_keeps h
  | reduceDeadlineExpiry => exact execReduceDeadlineExpiry_keeps h
  | reduceTimeout => exact execReduceTimeout_keeps h
  | wghComplete => exact execWghComplete_keeps h
  | wghStageWrite => exact execWghStageWrite_keeps h
  | install => exact execInstall_keeps h
  | vote => exact execVote_keeps h
  | voteTimeout => exact execVoteTimeout_keeps h
  | outcome => exact execOutcome_keeps h
  | stepOutcomeAct => exact execStepOutcomeAct_keeps h
  | cancel => exact execCancel_keeps h
  | alert => exact execAlert_keeps h
  | alertSend => exact execAlertSend_keeps h
  | mirStart => exact execMirStart_keeps h
  | mirrorBeginReceive => exact execMirrorBeginReceive_keeps h
  | mirrorPageReceive => exact execMirrorPageReceive_keeps h
  | mirrorManifestReceive => exact execMirrorManifestReceive_keeps h
  | mirrorAckReceive => exact execMirrorAckReceive_keeps h
  | mirrorAckTimeout => exact execMirrorAckTimeout_keeps h
  | mirRxWrite => exact execMirRxWrite_keeps h
  | portTraining => exact execPortTraining_keeps h
  | laneWindowEnd => exact execLaneWindowEnd_keeps h
  | frameReceive => exact execFrameReceive_keeps h
  | nakReceive => exact execNakReceive_keeps h
  | frameTransmit => exact execFrameTransmit_keeps h
  | creditReturn => exact execCreditReturn_keeps h
  | portDown => exact execPortDown_keeps h
  | write => exact execWrite_keeps h
  | ack => exact execAck_keeps h
  | reject => exact execReject_keeps h
  | fabricAckTimeout => exact execFabricAckTimeout_keeps h
  | arrive => exact execArrive_keeps h
  | barrierTreeRelease => exact execBarrierTreeRelease_keeps h
  | lost => exact execLost_keeps h
  | fabRouteWrite => exact execFabRouteWrite_keeps h
  | fabTreeWrite => exact execFabTreeWrite_keeps h
  | bar0Access => exact execBar0Access_keeps h
  | bar2Access => exact execBar2Access_keeps h
  | sqTail => exact execSqTail_keeps h
  | cqHead => exact execCqHead_keeps h
  | queueEnableWrite => exact execQueueEnableWrite_keeps h
  | queueEntryFetch => exact execQueueEntryFetch_keeps h
  | queueNop => exact execQueueNop_keeps h
  | queueStart => exact execQueueStart_keeps h
  | copyIn => exact execCopyIn_keeps h
  | copyOut => exact execCopyOut_keeps h
  | signal => exact execSignal_keeps h
  | wait => exact execWait_keeps h
  | queueWaitTimeout => exact execQueueWaitTimeout_keeps h
  | queueCommandComplete => exact execQueueCommandComplete_keeps h
  | completionCoalesceTimer => exact execCompletionCoalesceTimer_keeps h
  | hostFlushComplete => exact execHostFlushComplete_keeps h
  | hostAckTimeout => exact execHostAckTimeout_keeps h
  | mbDoorbell => exact execMbDoorbell_keeps h
  | queueAbort => exact execQueueAbort_keeps h
  | partCfgWrite => exact execPartCfgWrite_keeps h
  | hostLinkDown => exact execHostLinkDown_keeps h
  | errBctlModeWrite => exact execErrBctlModeWrite_keeps h
  | checkModeSwitchDone => exact execCheckModeSwitchDone_keeps h
  | errorRecordDelivery => exact execErrorRecordDelivery_keeps h
  | recordMergeWindowEnd => exact execRecordMergeWindowEnd_keeps h
  | errHeadWrite => exact execErrHeadWrite_keeps h
  | faultHistoryEntry => exact execFaultHistoryEntry_keeps h
  | unitRetired => exact execUnitRetired_keeps h
  | proofPeriodicTimer => exact execProofPeriodicTimer_keeps h
  | proofStart => exact execProofStart_keeps h
  | proofYield => exact execProofYield_keeps h
  | proofPreempt => exact execProofPreempt_keeps h
  | proofComplete => exact execProofComplete_keeps h
  | viewDisagree => exact execViewDisagree_keeps h
  | bckRateCommand => exact execBckRateCommand_keeps h
  | bckRateSwitch => exact execBckRateSwitch_keeps h
  | rstEngine => exact execRstEngine_keeps h
  | rstBench => exact execRstBench_keeps h
  | rstPartition => exact execRstPartition_keeps h
  | rstModule => exact execRstModule_keeps h
  | perst => exact execPerst_keeps h
  | functionLevelReset => exact execFunctionLevelReset_keeps h
  | resetComplete => exact execResetComplete_keeps h
  | inputVoltageFault => exact execInputVoltageFault_keeps h
  | overcurrentTrip => exact execOvercurrentTrip_keeps h
  | prsntAssert => exact execPrsntAssert_keeps h
  | prsntDebounceDone => exact execPrsntDebounceDone_keeps h
  | prsntBreak => exact execPrsntBreak_keeps h
  | attnBtn => exact execAttnBtn_keeps h
  | attnWindowExpiry => exact execAttnWindowExpiry_keeps h
  | remReleaseWrite => exact execRemReleaseWrite_keeps h
  | removalGraceEnd => exact execRemovalGraceEnd_keeps h
  | removalFlushDone => exact execRemovalFlushDone_keeps h
  | thermalSample => exact execThermalSample_keeps h
  | powerSample => exact execPowerSample_keeps h
  | pwrLimitWrite => exact execPwrLimitWrite_keeps h
  | gate => exact execGate_keeps h
  | benchWakeDone => exact execBenchWakeDone_keeps h
  | idleEntryTimer => exact execIdleEntryTimer_keeps h
  | boot => exact execBoot_keeps h
  | pendingBootTimeout => exact execPendingBootTimeout_keeps h
  | startupProgramDone => exact execStartupProgramDone_keeps h
  | stackTraining => exact execStackTraining_keeps h
  | portPeerWindowEnd => exact execPortPeerWindowEnd_keeps h
  | ready => exact execReady_keeps h
  | savedSettingsWrite => exact execSavedSettingsWrite_keeps h
  | getInfo => exact execGetInfo_keeps h
  | getFloorplan => exact execGetFloorplan_keeps h
  | setHostTime => exact execSetHostTime_keeps h
  | readRecords => exact execReadRecords_keeps h
  | requestProof => exact execRequestProof_keeps h
  | requestRemoval => exact execRequestRemoval_keeps h
  | authBegin => exact execAuthBegin_keeps h
  | authProve => exact execAuthProve_keeps h
  | authEnd => exact execAuthEnd_keeps h
  | authIdleExpiry => exact execAuthIdleExpiry_keeps h
  | regWrite => exact execRegWrite_keeps h
  | fwStage => exact execFwStage_keeps h
  | fwActivate => exact execFwActivate_keeps h
  | fwCommit => exact execFwCommit_keeps h
  | retireUnit => exact execRetireUnit_keeps h
  | retrainPort => exact execRetrainPort_keeps h
  | standby => exact execStandby_keeps h
  | remove => exact execRemove_keeps h
  | auditRead => exact execAuditRead_keeps h
  | writeBuildRecord => exact execWriteBuildRecord_keeps h
  | clearHistory => exact execClearHistory_keeps h
  | testMode => exact execTestMode_keeps h
  | getVersion => exact execGetVersion_keeps h
  | getCapabilities => exact execGetCapabilities_keeps h
  | negotiateAlgorithms => exact execNegotiateAlgorithms_keeps h
  | getDigests => exact execGetDigests_keeps h
  | getCertificate => exact execGetCertificate_keeps h
  | challenge => exact execChallenge_keeps h
  | getMeasurements => exact execGetMeasurements_keeps h
  | auditCheckpointTimer => exact execAuditCheckpointTimer_keeps h
  | traceEnWrite => exact execTraceEnWrite_keeps h
  | traceSampleTimer => exact execTraceSampleTimer_keeps h
  | traceFlushTimer => exact execTraceFlushTimer_keeps h
  | traceGranuleWrite => exact execTraceGranuleWrite_keeps h
  | mkSlotIdWrite => exact execMkSlotIdWrite_keeps h
  | powerMaxRead => exact execPowerMaxRead_keeps h
  | counterLowHalfRead => exact execCounterLowHalfRead_keeps h
  | registerWrite => exact execRegisterWrite_keeps h
  | hostLinkTrained => exact execHostLinkTrained_keeps h
  | mailboxOperationEnd => exact execMailboxOperationEnd_keeps h
  | hostReadCompletionTimeout => exact execHostReadCompletionTimeout_keeps h
  | cyclesLowWrapAnchor => exact execCyclesLowWrapAnchor_keeps h
  | removalQuiesceDone => exact execRemovalQuiesceDone_keeps h

theorem State.fetch_keeps {s0 s : State} {b : Bid} (h : Keeps s0 s) : OutKeeps s0 (s.fetch b) := by
  unfold State.fetch
  split
  · exact h
  · dsimp only
    split
    · exact exec_keeps _ h
    · split
      · exact execScrMapReserved_keeps h
      · split
        · exact issue_keeps (fun _ _ h => h) h
        · exact State.fault_keeps h

theorem State.tick_keeps {s0 s : State} (h : Keeps s0 s) : OutKeeps s0 s.tick := by
  have hc : Keeps s0 ({ s with turn := ⟨(s.turn.val + 1) % 16, by omega⟩ } : State) := h.lit
  exact State.fetch_keeps (State.noteStall_keeps (Keeps.ite
    (fun _ => State.cycleHub_keeps (State.cycleBench_keeps hc)) fun _ => State.cycleBench_keeps hc))

/-- A step answers a next state, which keeps the queue's rest and the invariant. -/
theorem step_keeps (s : State) : OutKeeps { s with pending := s.pending.tail } (step s) := by
  unfold step
  split
  next c rest hp => rw [hp]; exact exec_keeps c (Keeps.refl _)
  next hp =>
    rw [hp, List.tail_nil, ← hp]; exact State.tick_keeps (Keeps.refl s)

end Sys2Proof.Machine
end

section
/-! The settlement of O2, O3 and O6. -/

open Sys2Proof Sys2Proof.Machine

/-- Settles O2: what a step answers keeps the invariant of the state that it began in, less the command taken. -/
theorem invariantKept : Obligations.InvariantKept := by
  unfold Obligations.InvariantKept
  intro s t hs ht
  have hk := step_keeps s
  rw [ht] at hk
  exact hk.inv hs

/-- Settles O3: every table of the reset state is empty, and every Foreman is the one at reset. -/
theorem resetInvariant : Obligations.ResetInvariant := State.reset_inv

/-- Settles O6: every command and every tick answers a next state. -/
theorem neverStops : Obligations.NeverStops := by
  unfold Obligations.NeverStops
  intro s
  obtain ⟨t, ht, -⟩ := (step_keeps s).exists
  exact ⟨t, ht⟩

end

section
/-!
SUPPORT. Words laid down field by field, and read back: a read at a field's place gives its value, and a read that meets no field, or
none but zeros, gives zero (R7, R274, R311).
-/

namespace Sys2Proof

/-! ## Cells -/

/-- A field of a word: its lowest bit, its width, and a value that fits it. -/
structure Cell where
  lo : Nat
  width : Nat
  val : Nat
  fits : val < 2 ^ width

/-- A field that holds a bit vector. -/
abbrev cellOf {n : Nat} (v : BitVec n) (lo : Nat) : Cell := ⟨lo, n, v.toNat, v.isLt⟩

/-- A field of one bit. -/
abbrev flagOf (x : Bool) (lo : Nat) : Cell := ⟨lo, 1, x.toNat, Bool.toNat_lt x⟩

/-- What a read of `n` bits from `lo` on sees of a cell. -/
def Cell.seen (c : Cell) (lo n : Nat) : Nat := c.val * 2 ^ c.lo / 2 ^ lo % 2 ^ n

theorem Cell.place_lt (c : Cell) : c.val * 2 ^ c.lo < 2 ^ (c.lo + c.width) := by
  rw [pow_add, Nat.mul_comm]; exact Nat.mul_lt_mul_of_pos_left c.fits (by positivity)

theorem Cell.seen_apart {c : Cell} {lo n : Nat} (h : c.lo + c.width ≤ lo ∨ lo + n ≤ c.lo) : c.seen lo n = 0 := by
  rcases h with h | h
  · rw [Cell.seen, Nat.div_eq_of_lt (c.place_lt.trans_le (Nat.pow_le_pow_right (by decide) h)), Nat.zero_mod]
  · obtain ⟨d, hd⟩ := Nat.exists_eq_add_of_le h
    rw [Cell.seen, hd, show c.val * 2 ^ (lo + n + d) = 2 ^ lo * (2 ^ n * (c.val * 2 ^ d)) by ring,
      Nat.mul_div_cancel_left _ (by positivity), Nat.mul_mod_right]

theorem Cell.seen_self (c : Cell) : c.seen c.lo c.width = c.val := by
  rw [Cell.seen, Nat.mul_div_cancel _ (by positivity), Nat.mod_eq_of_lt c.fits]

/-- Cells in rising order from bit `m` on that do not overlap, within a word. -/
def Rising : Nat → List Cell → Prop
  | m, [] => m ≤ 64
  | m, c :: cs => m ≤ c.lo ∧ Rising (c.lo + c.width) cs

theorem Rising.of_mem {m : Nat} {cs : List Cell} (h : Rising m cs) {c : Cell} (hc : c ∈ cs) : m ≤ c.lo := by
  induction cs generalizing m with
  | nil => cases hc
  | cons d cs ih =>
    obtain ⟨hd, hcs⟩ := h
    rcases List.mem_cons.mp hc with rfl | hc
    · exact hd
    · exact hd.trans ((Nat.le_add_right _ _).trans (ih hcs hc))

theorem Rising.le {m : Nat} {cs : List Cell} (h : Rising m cs) : m ≤ 64 := by
  induction cs generalizing m with
  | nil => exact h
  | cons d cs ih => exact h.1.trans ((Nat.le_add_right _ _).trans (ih h.2))

theorem Rising.end_le {m : Nat} {cs : List Cell} (h : Rising m cs) {c : Cell} (hc : c ∈ cs) : c.lo + c.width ≤ 64 := by
  induction cs generalizing m with
  | nil => cases hc
  | cons d cs ih =>
    rcases List.mem_cons.mp hc with rfl | hc
    · exact h.2.le
    · exact ih h.2 hc

/-! ## The word of cells -/

/-- A cell as `lay` takes it. -/
abbrev Cell.pair (c : Cell) : Nat × Nat := (c.lo, c.val)

/-- The number that cells lay down. -/
def total (cs : List Cell) : Nat := (cs.map Cell.pair).foldr (fun f a => f.2 * 2 ^ f.1 + a) 0

theorem Rising.dvd_total {m : Nat} {cs : List Cell} (h : Rising m cs) : 2 ^ m ∣ total cs := by
  induction cs generalizing m with
  | nil => exact dvd_zero _
  | cons c cs ih =>
    obtain ⟨hc, hcs⟩ := h
    exact dvd_add ((Nat.pow_dvd_pow 2 hc).mul_left _) ((Nat.pow_dvd_pow 2 (by omega)).trans (ih hcs))

/-- A read of the number sees what it sees of each cell. -/
theorem Rising.total_seen {m : Nat} {cs : List Cell} (h : Rising m cs) (lo n : Nat) :
    total cs / 2 ^ lo % 2 ^ n = cs.foldr (fun c a => c.seen lo n ||| a) 0 := by
  induction cs generalizing m with
  | nil => simp [total]
  | cons c cs ih =>
    obtain ⟨-, hcs⟩ := h
    obtain ⟨r, hr⟩ := hcs.dvd_total
    change (c.val * 2 ^ c.lo + total cs) / 2 ^ lo % 2 ^ n = _
    rw [List.foldr_cons, ← ih hcs, hr, Nat.add_comm, Nat.two_pow_add_eq_or_of_lt c.place_lt, Nat.or_comm, Cell.seen]
    simp only [← Nat.shiftRight_eq_div_pow, Nat.shiftRight_or_distrib, Nat.or_mod_two_pow]

/-- A read that meets no cell, or none but zeros, sees zero. -/
theorem seen_none {cs : List Cell} {lo n : Nat} (h : ∀ c ∈ cs, c.val = 0 ∨ c.lo + c.width ≤ lo ∨ lo + n ≤ c.lo) :
    cs.foldr (fun c a => c.seen lo n ||| a) 0 = 0 := by
  induction cs with
  | nil => rfl
  | cons c cs ih =>
    have hc : c.seen lo n = 0 := by
      rcases h c List.mem_cons_self with h | h
      · simp [Cell.seen, h]
      · exact Cell.seen_apart h
    rw [List.foldr_cons, hc, ih fun d hd => h d (List.mem_cons_of_mem _ hd), Nat.or_zero]

/-- A read at a cell's place sees its value. -/
theorem Rising.seen_mem {m : Nat} {cs : List Cell} (h : Rising m cs) {c : Cell} (hc : c ∈ cs) :
    cs.foldr (fun d a => d.seen c.lo c.width ||| a) 0 = c.val := by
  induction cs generalizing m with
  | nil => cases hc
  | cons d cs ih =>
    obtain ⟨-, hcs⟩ := h
    rw [List.foldr_cons]
    rcases List.mem_cons.mp hc with rfl | hc
    · rw [c.seen_self, seen_none fun d hd => .inr (.inr (hcs.of_mem hd)), Nat.or_zero]
    · rw [Cell.seen_apart (.inl (hcs.of_mem hc)), ih hcs hc, Nat.zero_or]

theorem mod_word (x : Nat) {lo n : Nat} (hn : lo + n ≤ 64) : x % 2 ^ 64 / 2 ^ lo % 2 ^ n = x / 2 ^ lo % 2 ^ n := by
  obtain ⟨d, hd⟩ := Nat.exists_eq_add_of_le hn
  rw [hd, Nat.add_assoc, pow_add, Nat.mod_mul_right_div_self, pow_add, Nat.mod_mul_right_mod]

/-- A word holds cells, and zero beside them. -/
structure Holds (w : Word) (cs : List Cell) : Prop where
  rising : Rising 0 cs
  laid : w = lay (cs.map Cell.pair)

theorem Holds.wn_eq {w : Word} {cs : List Cell} (h : Holds w cs) {lo n : Nat} (hn : lo + n ≤ 64) :
    wn w lo n = cs.foldr (fun c a => c.seen lo n ||| a) 0 := by
  rw [Sys2Proof.wn_eq, h.laid, lay_toNat, mod_word _ hn]
  exact h.rising.total_seen lo n

theorem Holds.num {w : Word} {cs : List Cell} (h : Holds w cs) (k : Nat) {c : Cell} (hc : cs[k]? = some c) :
    wn w c.lo c.width = c.val := by
  have hm := List.mem_of_getElem? hc
  rw [h.wn_eq (h.rising.end_le hm), h.rising.seen_mem hm]

/-- A field reads as the bit vector that it holds. -/
theorem Holds.field {w : Word} {cs : List Cell} (h : Holds w cs) (k : Nat) {n lo : Nat} {v : BitVec n}
    (hc : cs[k]? = some (cellOf v lo)) : wf w lo n = v := wf_of_wn (h.num k hc)

/-- Whether a field reads as zero. -/
theorem Holds.isZero {w : Word} {cs : List Cell} (h : Holds w cs) (k : Nat) {n lo : Nat} {v : BitVec n}
    (hc : cs[k]? = some (cellOf v lo)) : wz w lo n = (v == 0#n) := by
  rw [wz, show wn w lo n = v.toNat from h.num k hc, Bool.eq_iff_iff]
  simp [← BitVec.toNat_inj]

theorem Holds.flag {w : Word} {cs : List Cell} (h : Holds w cs) (k : Nat) {x : Bool} {lo : Nat}
    (hc : cs[k]? = some (flagOf x lo)) : w.getLsbD lo = x := by
  have hx : wn w lo 1 = x.toNat := h.num k hc
  rw [Sys2Proof.wn_eq, pow_one] at hx
  rw [bit_eq, hx]
  cases x <;> rfl

theorem Holds.zero {w : Word} {cs : List Cell} (h : Holds w cs) {lo n : Nat} (hn : lo + n ≤ 64)
    (hc : ∀ c ∈ cs, c.val = 0 ∨ c.lo + c.width ≤ lo ∨ lo + n ≤ c.lo) : wz w lo n = true := by
  rw [wz, h.wn_eq hn, seen_none hc]; rfl

/-! ## Instruction words -/

/-- The cells of a header (R274). -/
abbrev headerOf (eng op : Nat) (x : Bool) (h : Issue) (he : eng < 2 ^ 4) (ho : op < 2 ^ 6) : List Cell :=
  [⟨0, 4, eng, he⟩, ⟨4, 6, op, ho⟩, flagOf x 10, cellOf h.pred 11, flagOf h.pneg 14]

/-- An instruction word: a header, and cells behind it. -/
structure Spells (w : Word) (eng op : Nat) (x : Bool) (h : Issue) (cs : List Cell) : Prop where
  eng_lt : eng < 2 ^ 4
  op_lt : op < 2 ^ 6
  holds : Holds w (headerOf eng op x h eng_lt op_lt ++ cs)

section
variable {w : Word} {eng op : Nat} {x : Bool} {h : Issue} {cs : List Cell} (hw : Spells w eng op x h cs)
include hw

theorem Spells.issue : issueOf h.bench w = h := issueOf_eq (hw.holds.num 3 rfl) (hw.holds.flag 4 rfl)
theorem Spells.eng_eq : wn w 0 4 = eng := hw.holds.num 0 rfl
theorem Spells.op_eq : wn w 4 6 = op := hw.holds.num 1 rfl
theorem Spells.ext_eq : w.getLsbD 10 = x := hw.holds.flag 2 rfl

theorem Spells.num (k : Nat) {c : Cell} (hc : cs[k]? = some c) : wn w c.lo c.width = c.val := hw.holds.num (k + 5) hc
theorem Spells.field (k : Nat) {n lo : Nat} {v : BitVec n} (hc : cs[k]? = some (cellOf v lo)) : wf w lo n = v :=
  hw.holds.field (k + 5) hc
theorem Spells.isZero (k : Nat) {n lo : Nat} {v : BitVec n} (hc : cs[k]? = some (cellOf v lo)) : wz w lo n = (v == 0#n) :=
  hw.holds.isZero (k + 5) hc
theorem Spells.flag (k : Nat) {b : Bool} {lo : Nat} (hc : cs[k]? = some (flagOf b lo)) : w.getLsbD lo = b :=
  hw.holds.flag (k + 5) hc

theorem Spells.zero {lo n : Nat} (hlo : 15 ≤ lo) (hn : lo + n ≤ 64) (hc : ∀ c ∈ cs, c.val = 0 ∨ c.lo + c.width ≤ lo ∨ lo + n ≤ c.lo) :
    wz w lo n = true := by
  refine hw.holds.zero hn fun c hm => ?_
  rcases List.mem_append.mp hm with hm | hm
  · have : c.lo + c.width ≤ 15 := by
      simp only [List.mem_cons, List.not_mem_nil, or_false] at hm
      rcases hm with rfl | rfl | rfl | rfl | rfl <;> simp
    exact .inr (.inl (this.trans hlo))
  · exact hc c hm

end

/-- An instruction of one word encoded: its word spells its cells. -/
theorem enc1_spells {eng op : Nat} {h : Issue} {b : Bid} {w : Word} {x : Option Word} (cs : List Cell)
    (e : enc1 eng op h (cs.map Cell.pair) = some (b, w, x)) (he : eng < 2 ^ 4) (ho : op < 2 ^ 6) (hr : Rising 15 cs) :
    b = h.bench ∧ Spells w eng op false h cs := by
  simp only [enc1, Option.some.injEq, Prod.mk.injEq] at e
  obtain ⟨rfl, rfl, -⟩ := e
  exact ⟨rfl, he, ho, ⟨by simpa [Rising] using hr, by rw [List.map_append]; rfl⟩⟩

/-- An instruction with an extension word encoded: both words spell their cells. -/
theorem enc2_spells {eng op : Nat} {h : Issue} {b : Bid} {w : Word} {x : Option Word} (cs xs : List Cell)
    (e : enc2 eng op h (cs.map Cell.pair) (xs.map Cell.pair) = some (b, w, x)) (he : eng < 2 ^ 4) (ho : op < 2 ^ 6)
    (hr : Rising 15 cs) (hx : Rising 0 xs) :
    b = h.bench ∧ Spells w eng op true h cs ∧ ∃ v, x = some v ∧ Holds v xs := by
  simp only [enc2, Option.some.injEq, Prod.mk.injEq] at e
  obtain ⟨rfl, rfl, rfl⟩ := e
  exact ⟨rfl, ⟨he, ho, ⟨by simpa [Rising] using hr, by rw [List.map_append]; rfl⟩⟩, _, rfl, ⟨hx, rfl⟩⟩

/-! ## The decoder by its engines (R274) -/

section
variable {w y : Word} {op : Nat} {x : Bool} {h : Issue} {cs : List Cell}

theorem decodeInstr_foreman (hw : Spells w 0 op x h cs) : decodeInstr h.bench w y = decodeForeman h op w y := by
  rw [decodeInstr]; simp only [hw.issue, hw.op_eq, hw.eng_eq]

theorem decodeInstr_haul (hw : Spells w 1 op false h cs) : decodeInstr h.bench w y = decodeHaul h op w := by
  rw [decodeInstr]; simp only [hw.issue, hw.op_eq, hw.eng_eq, hw.ext_eq, Bool.false_eq_true, if_false]

theorem decodeInstr_cutMm (hw : Spells w 2 op false h cs) : decodeInstr h.bench w y = decodeMm h false op w := by
  rw [decodeInstr]; simp only [hw.issue, hw.op_eq, hw.eng_eq, hw.ext_eq, Bool.false_eq_true, if_false]

theorem decodeInstr_drsMm (hw : Spells w 3 op false h cs) : decodeInstr h.bench w y = decodeMm h true op w := by
  rw [decodeInstr]; simp only [hw.issue, hw.op_eq, hw.eng_eq, hw.ext_eq, Bool.false_eq_true, if_false]

theorem decodeInstr_wdg (hw : Spells w 4 op x h cs) : decodeInstr h.bench w y = decodeWdg h op w y := by
  rw [decodeInstr]; simp only [hw.issue, hw.op_eq, hw.eng_eq]

theorem decodeInstr_scr (hw : Spells w 5 op x h cs) : decodeInstr h.bench w y = decodeScr h op w y := by
  rw [decodeInstr]; simp only [hw.issue, hw.op_eq, hw.eng_eq]

theorem decodeInstr_wgh (hw : Spells w 6 op false h cs) : decodeInstr h.bench w y = decodeWgh h op w := by
  rw [decodeInstr]; simp only [hw.issue, hw.op_eq, hw.eng_eq, hw.ext_eq, Bool.false_eq_true, if_false]

theorem decodeInstr_stk (hw : Spells w 7 op x h cs) : decodeInstr h.bench w y = decodeStk h op w y := by
  rw [decodeInstr]; simp only [hw.issue, hw.op_eq, hw.eng_eq]

theorem decodeInstr_sync (hw : Spells w 8 op false h cs) : decodeInstr h.bench w y = decodeSync h op w := by
  rw [decodeInstr]; simp only [hw.issue, hw.op_eq, hw.eng_eq, hw.ext_eq, Bool.false_eq_true, if_false]

theorem decodeInstr_step (hw : Spells w 9 op false h cs) : decodeInstr h.bench w y = decodeStep h op w := by
  rw [decodeInstr]; simp only [hw.issue, hw.op_eq, hw.eng_eq, hw.ext_eq, Bool.false_eq_true, if_false]

theorem decodeInstr_mark (hw : Spells w 10 op x h cs) : decodeInstr h.bench w y = decodeMark h op w y := by
  rw [decodeInstr]; simp only [hw.issue, hw.op_eq, hw.eng_eq]

theorem decodeInstr_plm (hw : Spells w 11 op false h cs) : decodeInstr h.bench w y = if op = 1 then given (wz w 15 49) (.plmEval h) else none := by
  rw [decodeInstr]; simp only [hw.issue, hw.op_eq, hw.eng_eq, hw.ext_eq, Bool.false_eq_true, if_false]

end

end Sys2Proof
end

section
/-! SUPPORT. Every Foreman instruction, decoded from the words that its encoding gives it, is given back (R274, R310-R334). -/

namespace Sys2Proof

/-- The words that an instruction's encoding gives it decode to it. -/
def Decodes (i : Instr) : Prop :=
  i.wellFormed = true → ∀ b w x y, encode i = some (b, w, x) → decodeInstr b w (x.getD y) = some i

theorem Decodes.of_enc1 {i : Instr} {eng op : Nat} {h : Issue} (cs : List Cell) (e : encode i = enc1 eng op h (cs.map Cell.pair))
    (he : eng < 2 ^ 4) (ho : op < 2 ^ 6) (hr : Rising 15 cs)
    (hd : ∀ w y, i.wellFormed = true → Spells w eng op false h cs → decodeInstr h.bench w y = some i) : Decodes i := by
  intro hf b w x y hi
  obtain ⟨rfl, hw⟩ := enc1_spells cs (e.symm.trans hi) he ho hr
  exact hd w _ hf hw

theorem Decodes.of_enc2 {i : Instr} {eng op : Nat} {h : Issue} (cs xs : List Cell)
    (e : encode i = enc2 eng op h (cs.map Cell.pair) (xs.map Cell.pair)) (he : eng < 2 ^ 4) (ho : op < 2 ^ 6) (hr : Rising 15 cs)
    (hx : Rising 0 xs)
    (hd : ∀ w y, i.wellFormed = true → Spells w eng op true h cs → Holds y xs → decodeInstr h.bench w y = some i) : Decodes i := by
  intro hf b w x y hi
  obtain ⟨rfl, hw, v, rfl, hv⟩ := enc2_spells cs xs (e.symm.trans hi) he ho hr hx
  exact hd w v hf hw hv

/-- A word that one field fills is its value. -/
theorem holds_whole {w v : Word} (h : Holds w [cellOf v 0]) : w = v := by
  have hv : wf w 0 64 = v := h.field 0 rfl
  simpa [wf] using hv

theorem waitOk_iff {rd : BitVec 5} {gate : BitVec 8} :
    waitOk rd gate = true ↔ ¬ gate = 0#8 ∧ (gate.getLsbD 0 = false → rd = 0#5) := by
  simp only [waitOk, Bool.and_eq_true, bne_iff_ne, Bool.or_eq_true, beq_iff_eq, or_iff_not_imp_left, Bool.not_eq_true]
  rfl

/-- What WDG.CVT ignores reads as the zero that it holds (R327). -/
theorem cvtOk_reads {f : CvtFields} (hf : cvtOk f = true) :
    (if f.dual = true then f.dc else 0#4) = f.dc ∧ (if f.dual = true then f.tid1 else 0#32) = f.tid1 := by
  cases hd : f.dual
  · obtain ⟨hdc, htid⟩ : f.dc = 0 ∧ f.tid1 = 0 := by simpa [cvtOk, hd] using hf
    exact ⟨hdc.symm, htid.symm⟩
  · exact ⟨rfl, rfl⟩

theorem voteCode_lt (v : Vote) : voteCode v < 2 ^ 2 := by cases v <;> decide

theorem voteCoded_voteCode (v : Vote) : voteCoded (voteCode v) = v := by cases v <;> rfl

/-! ## Foreman instructions (R276, R315-R322) -/

theorem decodes_alu (h : Issue) (rd ra rb : BitVec 5) : ∀ i ∈ [Instr.add h rd ra rb, .sub h rd ra rb, .and_ h rd ra rb,
    .or_ h rd ra rb, .xor_ h rd ra rb, .shl h rd ra rb, .shr h rd ra rb, .sar h rd ra rb, .mul h rd ra rb, .mulhu h rd ra rb,
    .min_ h rd ra rb, .minu h rd ra rb, .max_ h rd ra rb, .maxu h rd ra rb, .divu h rd ra rb, .remu h rd ra rb], Decodes i := by
  intro i hi
  fin_cases hi <;>
  · refine .of_enc1 [cellOf rd 15, cellOf ra 20, cellOf rb 25, ⟨30, 8, _, by decide⟩] rfl (by decide) (by decide)
      (by simp [Rising]) fun w y _ hw => ?_
    simp [decodeInstr_foreman hw, decodeForeman, decodeAlu, hw.field 0 rfl, hw.field 1 rfl, hw.field 2 rfl, hw.num 3 rfl,
      hw.ext_eq, hw.zero, -BitVec.getLsbD_eq_getElem]

theorem decodes_cmp (h : Issue) (pd : BitVec 3) (ra rb : BitVec 5) : ∀ i ∈ [Instr.ceq h pd ra rb, .cne h pd ra rb,
    .clt h pd ra rb, .cltu h pd ra rb, .cge h pd ra rb, .cgeu h pd ra rb], Decodes i := by
  intro i hi
  fin_cases hi <;>
  · refine .of_enc1 [cellOf pd 15, cellOf ra 20, cellOf rb 25, ⟨30, 8, _, by decide⟩] rfl (by decide) (by decide)
      (by simp [Rising]) fun w y _ hw => ?_
    simp [decodeInstr_foreman hw, decodeForeman, decodeCmp, hw.field 0 rfl, hw.field 1 rfl, hw.field 2 rfl, hw.num 3 rfl,
      hw.ext_eq, hw.zero, -BitVec.getLsbD_eq_getElem]

theorem decodes_plog (h : Issue) (pd pa pb : BitVec 3) : ∀ i ∈ [Instr.pand h pd pa pb, .por h pd pa pb, .pxor h pd pa pb,
    .pandn h pd pa pb], Decodes i := by
  intro i hi
  fin_cases hi <;>
  · refine .of_enc1 [cellOf pd 15, cellOf pa 20, cellOf pb 25, ⟨30, 8, _, by decide⟩] rfl (by decide) (by decide)
      (by simp [Rising]) fun w y _ hw => ?_
    simp [decodeInstr_foreman hw, decodeForeman, decodePlog, hw.field 0 rfl, hw.field 1 rfl, hw.field 2 rfl, hw.num 3 rfl,
      hw.ext_eq, hw.zero, -BitVec.getLsbD_eq_getElem]

theorem decodes_tmov (h : Issue) (td ta : BitVec 4) : Decodes (.tmov h td ta) := by
  refine .of_enc1 [cellOf td 15, cellOf ta 20] rfl (by decide) (by decide) (by simp [Rising]) fun w y _ hw => ?_
  simp [decodeInstr_foreman hw, decodeForeman, given, hw.field 0 rfl, hw.field 1 rfl, hw.ext_eq, hw.zero,
    -BitVec.getLsbD_eq_getElem]

theorem decodes_tset (h : Issue) (td : BitVec 4) (ra : BitVec 5) (k : BitVec 3) : Decodes (.tset h td ra k) := by
  refine .of_enc1 [cellOf td 15, cellOf ra 20, cellOf k 30] rfl (by decide) (by decide) (by simp [Rising]) fun w y _ hw => ?_
  simp [decodeInstr_foreman hw, decodeForeman, given, hw.field 0 rfl, hw.field 1 rfl, hw.field 2 rfl, hw.ext_eq, hw.zero,
    -BitVec.getLsbD_eq_getElem]

theorem decodes_tget (h : Issue) (rd : BitVec 5) (ta : BitVec 4) (k : BitVec 3) : Decodes (.tget h rd ta k) := by
  refine .of_enc1 [cellOf rd 15, cellOf ta 20, cellOf k 30] rfl (by decide) (by decide) (by simp [Rising]) fun w y _ hw => ?_
  simp [decodeInstr_foreman hw, decodeForeman, given, hw.field 0 rfl, hw.field 1 rfl, hw.field 2 rfl, hw.ext_eq, hw.zero,
    -BitVec.getLsbD_eq_getElem]

theorem decodes_imm (h : Issue) (rd ra : BitVec 5) (imm : BitVec 39) : ∀ i ∈ [Instr.addi h rd ra imm, .andi h rd ra imm,
    .ori h rd ra imm, .xori h rd ra imm, .muli h rd ra imm], Decodes i := by
  intro i hi
  fin_cases hi <;>
  · refine .of_enc1 [cellOf rd 15, cellOf ra 20, cellOf imm 25] rfl (by decide) (by decide) (by simp [Rising])
      fun w y _ hw => ?_
    simp [decodeInstr_foreman hw, decodeForeman, decodeImm, hw.field 0 rfl, hw.field 1 rfl, hw.field 2 rfl, hw.ext_eq,
      -BitVec.getLsbD_eq_getElem]

theorem decodes_shift (h : Issue) (rd ra : BitVec 5) (sh : BitVec 6) : ∀ i ∈ [Instr.shli h rd ra sh, .shri h rd ra sh,
    .sari h rd ra sh], Decodes i := by
  intro i hi
  fin_cases hi <;>
  · refine .of_enc1 [cellOf rd 15, cellOf ra 20, cellOf sh 25] rfl (by decide) (by decide) (by simp [Rising]) fun w y _ hw => ?_
    simp [decodeInstr_foreman hw, decodeForeman, decodeImm, given, hw.field 0 rfl, hw.field 1 rfl, hw.field 2 rfl, hw.ext_eq,
      hw.zero, -BitVec.getLsbD_eq_getElem]

theorem decodes_cmpImm (h : Issue) (pd : BitVec 3) (ra : BitVec 5) (imm : BitVec 39) : ∀ i ∈ [Instr.ceqi h pd ra imm,
    .clti h pd ra imm, .cltui h pd ra imm], Decodes i := by
  intro i hi
  fin_cases hi <;>
  · refine .of_enc1 [cellOf pd 15, cellOf ra 20, cellOf imm 25] rfl (by decide) (by decide) (by simp [Rising])
      fun w y _ hw => ?_
    simp [decodeInstr_foreman hw, decodeForeman, decodeImm, given, hw.field 0 rfl, hw.field 1 rfl, hw.field 2 rfl, hw.ext_eq,
      hw.zero, -BitVec.getLsbD_eq_getElem]

theorem decodes_imm64 (h : Issue) (rd : BitVec 5) (v : Word) : Decodes (.imm64 h rd v) := by
  refine .of_enc2 [cellOf rd 15] [cellOf v 0] rfl (by decide) (by decide) (by simp [Rising]) (by simp [Rising])
    fun w y _ hw hx => ?_
  simp [decodeInstr_foreman hw, decodeForeman, given, hw.field 0 rfl, hw.ext_eq, hw.zero, holds_whole hx,
    -BitVec.getLsbD_eq_getElem]

theorem decodes_mem (h : Issue) (r ra : BitVec 5) (fe : BitVec 2) (off : BitVec 37) : ∀ i ∈ [Instr.ld h r ra fe off,
    .st h r ra fe off], Decodes i := by
  intro i hi
  fin_cases hi <;>
  · refine .of_enc1 [cellOf r 15, cellOf ra 20, cellOf fe 25, cellOf off 27] rfl (by decide) (by decide) (by simp [Rising])
      fun w y hf hw => ?_
    have hfe : ¬ fe = 3#2 := by simpa [Instr.wellFormed, feOk] using hf
    simp [decodeInstr_foreman hw, decodeForeman, decodeMemBranch, given, hw.field 0 rfl, hw.field 1 rfl, hw.field 2 rfl,
      hw.field 3 rfl, hw.ext_eq, hfe, -BitVec.getLsbD_eq_getElem]

theorem decodes_memDesc (h : Issue) (r : BitVec 4) (ra : BitVec 5) (fe : BitVec 2) (off : BitVec 37) :
    ∀ i ∈ [Instr.tld h r ra fe off, .tst h r ra fe off], Decodes i := by
  intro i hi
  fin_cases hi <;>
  · refine .of_enc1 [cellOf r 15, cellOf ra 20, cellOf fe 25, cellOf off 27] rfl (by decide) (by decide) (by simp [Rising])
      fun w y hf hw => ?_
    have hfe : ¬ fe = 3#2 := by simpa [Instr.wellFormed, feOk] using hf
    simp [decodeInstr_foreman hw, decodeForeman, decodeMemBranch, given, hw.field 0 rfl, hw.field 1 rfl, hw.field 2 rfl,
      hw.field 3 rfl, hw.ext_eq, hw.zero, hfe, -BitVec.getLsbD_eq_getElem]

theorem decodes_branch (h : Issue) (off : BitVec 20) : ∀ i ∈ [Instr.br h off, .call h off], Decodes i := by
  intro i hi
  fin_cases hi <;>
  · refine .of_enc1 [cellOf off 25] rfl (by decide) (by decide) (by simp [Rising]) fun w y _ hw => ?_
    simp [decodeInstr_foreman hw, decodeForeman, decodeMemBranch, given, hw.field 0 rfl, hw.ext_eq, hw.zero,
      -BitVec.getLsbD_eq_getElem]

theorem decodes_jump (h : Issue) (ra : BitVec 5) : ∀ i ∈ [Instr.jr h ra, .callr h ra], Decodes i := by
  intro i hi
  fin_cases hi <;>
  · refine .of_enc1 [cellOf ra 20] rfl (by decide) (by decide) (by simp [Rising]) fun w y _ hw => ?_
    simp [decodeInstr_foreman hw, decodeForeman, decodeMemBranch, given, hw.field 0 rfl, hw.ext_eq, hw.zero,
      -BitVec.getLsbD_eq_getElem]

theorem decodes_plain (h : Issue) : ∀ i ∈ [Instr.nop h, .end_ h], Decodes i := by
  intro i hi
  fin_cases hi <;>
  · refine .of_enc1 [] rfl (by decide) (by decide) (by simp [Rising]) fun w y _ hw => ?_
    simp [decodeInstr_foreman hw, decodeForeman, decodeMemBranch, given, hw.ext_eq, hw.zero, -BitVec.getLsbD_eq_getElem]

/-! ## Engine instructions (R323-R332) -/

theorem decodes_haulLd (h : Issue) (sel da db : BitVec 4) (perm : BitVec 15) : Decodes (.haulLd h sel da db perm) := by
  refine .of_enc1 [cellOf sel 15, cellOf da 19, cellOf db 23, cellOf perm 41] rfl (by decide) (by decide) (by simp [Rising])
    fun w y _ hw => ?_
  simp [decodeInstr_haul hw, decodeHaul, given, hw.field 0 rfl, hw.field 1 rfl, hw.field 2 rfl, hw.field 3 rfl, hw.zero,
    -BitVec.getLsbD_eq_getElem]

theorem decodes_haulSt (h : Issue) (sel da db : BitVec 4) (remote : BitVec 2) (ra : BitVec 5) (perm : BitVec 15) :
    Decodes (.haulSt h sel da db remote ra perm) := by
  refine .of_enc1 [cellOf sel 15, cellOf da 19, cellOf db 23, cellOf remote 34, cellOf ra 36, cellOf perm 41] rfl (by decide)
    (by decide) (by simp [Rising]) fun w y hf hw => ?_
  have hra : remote = 0#2 → ra = 0#5 := by simpa [Instr.wellFormed, or_iff_not_imp_left] using hf
  simpa [decodeInstr_haul hw, decodeHaul, given, hw.field 0 rfl, hw.field 1 rfl, hw.field 2 rfl, hw.field 3 rfl, hw.field 4 rfl,
    hw.field 5 rfl, hw.zero, hw.isZero 3 rfl, hw.isZero 4 rfl, -BitVec.getLsbD_eq_getElem] using hra

theorem decodes_haulRows (h : Issue) (sel da db dc : BitVec 4) (gd : BitVec 3) : ∀ i ∈ [Instr.haulGth h sel da db dc gd,
    .haulSct h sel da db dc gd], Decodes i := by
  intro i hi
  fin_cases hi <;>
  · refine .of_enc1 [cellOf sel 15, cellOf da 19, cellOf db 23, cellOf dc 27, cellOf gd 31] rfl (by decide) (by decide)
      (by simp [Rising]) fun w y _ hw => ?_
    simp [decodeInstr_haul hw, decodeHaul, given, hw.field 0 rfl, hw.field 1 rfl, hw.field 2 rfl, hw.field 3 rfl,
      hw.field 4 rfl, hw.zero, -BitVec.getLsbD_eq_getElem]

/-- The cells of CUT.MM and DRS.MM (R324). -/
abbrev mmCells (f : MMFields) : List Cell :=
  [cellOf f.usel 15, cellOf f.da 19, cellOf f.db 23, cellOf f.dc 27, cellOf f.ra 35, cellOf f.rb 40, flagOf f.ta 50, flagOf f.tb 51,
    flagOf f.acc 52, flagOf f.drain 53, flagOf f.reuse 54, cellOf f.passes 55, flagOf f.spl 57]

/-- What REUSE and PASSES make the decoder ignore reads as the zero that it holds (R311, R324). -/
theorem mmOf_spelled {w : Word} {eng op : Nat} {x : Bool} {h : Issue} {f : MMFields} (hw : Spells w eng op x h (mmCells f))
    (hf : mmOk f = true) : mmOf w = f ∧ (w.getLsbD 53 || wz w 27 4) = true := by
  obtain ⟨⟨hdrain, hreuse⟩, hspl⟩ : ((f.drain = true ∨ f.dc = 0) ∧ (f.reuse = false ∨ (f.db = 0 ∧ f.tb = false) ∧ f.passes = 0))
      ∧ (f.spl = false ∨ f.passes = 1) := by simpa [mmOk] using hf
  have hr : mmOf w = ⟨f.usel, f.da, if f.reuse then 0 else f.db, f.dc, f.ra, f.rb, f.ta, !f.reuse && f.tb, f.acc, f.drain, f.reuse,
      if f.reuse then 0 else f.passes, (if f.reuse then 0 else f.passes) == 1 && f.spl⟩ := by
    simp only [mmOf, hw.field 0 rfl, hw.field 1 rfl, hw.field 2 rfl, hw.field 3 rfl, hw.field 4 rfl, hw.field 5 rfl, hw.flag 6 rfl,
      hw.flag 7 rfl, hw.flag 8 rfl, hw.flag 9 rfl, hw.flag 10 rfl, hw.field 11 rfl, hw.flag 12 rfl]
  constructor
  · rw [hr]
    obtain ⟨usel, da, db, dc, ra, rb, ta, tb, acc, drain, reuse, passes, spl⟩ := f
    cases reuse <;> cases spl <;> simp_all
  · rw [hw.flag 9 rfl, hw.isZero 3 rfl]
    simpa using hdrain

theorem decodes_cutMm (h : Issue) (f : MMFields) : Decodes (.cutMm h f) := by
  refine .of_enc1 (mmCells f) rfl (by decide) (by decide) (by simp [Rising]) fun w y hf hw => ?_
  obtain ⟨⟨hok, hpasses⟩, hspl⟩ : (mmOk f = true ∧ f.passes = 0) ∧ f.spl = false := by simpa [Instr.wellFormed] using hf
  obtain ⟨hmm, hdc⟩ := mmOf_spelled hw hok
  simp only [decodeInstr_cutMm hw, decodeMm, hmm, hdc, ne_eq, not_true, if_false, Bool.false_eq_true]
  simp [given, hw.zero, hpasses, hspl]

theorem decodes_drsMm (h : Issue) (f : MMFields) : Decodes (.drsMm h f) := by
  refine .of_enc1 (mmCells f) rfl (by decide) (by decide) (by simp [Rising]) fun w y hf hw => ?_
  obtain ⟨hmm, hdc⟩ := mmOf_spelled hw hf
  simp only [decodeInstr_drsMm hw, decodeMm, hmm, hdc, ne_eq, not_true, if_false, if_true]
  simp [given, hw.zero]

theorem decodes_wdgCvt (h : Issue) (f : CvtFields) : Decodes (.wdgCvt h f) := by
  refine .of_enc2 [cellOf f.wsel 15, cellOf f.da 19, cellOf f.db 23, cellOf f.dc 27, flagOf f.dual 50,
    flagOf f.exp 51] [cellOf f.tid0 0, cellOf f.tid1 32] rfl (by decide) (by decide) (by simp [Rising]) (by simp [Rising])
    fun w y hf hw hx => ?_
  obtain ⟨hdc, htid⟩ := cvtOk_reads hf
  simp [decodeInstr_wdg hw, decodeWdg, given, hw.field 0 rfl, hw.field 1 rfl, hw.field 2 rfl, hw.field 3 rfl, hw.flag 4 rfl,
    hw.flag 5 rfl, hx.field 0 rfl, hx.field 1 rfl, hw.ext_eq, hw.zero, hdc, htid, -BitVec.getLsbD_eq_getElem]

theorem decodes_wdgRot (h : Issue) (f : RotFields) : Decodes (.wdgRot h f) := by
  refine .of_enc1 [cellOf f.wsel 15, cellOf f.da 19, cellOf f.db 23, cellOf f.rslot 50, flagOf f.inv 54] rfl (by decide)
    (by decide) (by simp [Rising]) fun w y _ hw => ?_
  simp [decodeInstr_wdg hw, decodeWdg, given, hw.field 0 rfl, hw.field 1 rfl, hw.field 2 rfl, hw.field 3 rfl, hw.flag 4 rfl,
    hw.ext_eq, hw.zero, -BitVec.getLsbD_eq_getElem]

theorem decodes_mapOne (h : Issue) (sel : BitVec 2) (a d : BitVec 4) (t : BitVec 32) : ∀ i ∈ [Instr.scrMapCopy h sel a d t,
    .scrMapAbs h sel a d t, .scrMapNeg h sel a d t, .scrMapSqrt h sel a d t, .scrMapRecip h sel a d t, .scrMapRsqrt h sel a d t,
    .scrMapRsum h sel a d t, .scrMapRssq h sel a d t, .scrMapRmax h sel a d t, .scrMapRamax h sel a d t], Decodes i := by
  intro i hi
  fin_cases hi <;>
  · refine .of_enc2 [cellOf sel 15, cellOf a 19, cellOf 0#4 23, cellOf 0#4 27, cellOf d 31, cellOf 0#5 35, ⟨50, 5, _,
      by decide⟩] [cellOf t 0] rfl (by decide) (by decide) (by simp [Rising]) (by simp [Rising]) fun w y _ hw hx => ?_
    simp [decodeInstr_scr hw, decodeScr, decodeMap, given, hw.field 0 rfl, hw.field 1 rfl, hw.field 4 rfl, hw.num 6 rfl,
      hx.field 0 rfl, hx.zero, hw.ext_eq, hw.zero, -BitVec.getLsbD_eq_getElem]

theorem decodes_mapTwo (h : Issue) (sel : BitVec 2) (a b d : BitVec 4) (t : BitVec 32) : ∀ i ∈ [Instr.scrMapAdd h sel a b d t,
    .scrMapSub h sel a b d t, .scrMapMul h sel a b d t, .scrMapMax h sel a b d t, .scrMapMin h sel a b d t], Decodes i := by
  intro i hi
  fin_cases hi <;>
  · refine .of_enc2 [cellOf sel 15, cellOf a 19, cellOf b 23, cellOf 0#4 27, cellOf d 31, cellOf 0#5 35, ⟨50, 5, _,
      by decide⟩] [cellOf t 0] rfl (by decide) (by decide) (by simp [Rising]) (by simp [Rising]) fun w y _ hw hx => ?_
    simp [decodeInstr_scr hw, decodeScr, decodeMap, given, hw.field 0 rfl, hw.field 1 rfl, hw.field 2 rfl, hw.field 4 rfl,
      hw.num 6 rfl, hx.field 0 rfl, hx.zero, hw.ext_eq, hw.zero, -BitVec.getLsbD_eq_getElem]

theorem decodes_mapFma (h : Issue) (sel : BitVec 2) (a b c d : BitVec 4) (t : BitVec 32) :
    Decodes (.scrMapFma h sel a b c d t) := by
  refine .of_enc2 [cellOf sel 15, cellOf a 19, cellOf b 23, cellOf c 27, cellOf d 31, cellOf 0#5 35, ⟨50, 5, _,
    by decide⟩] [cellOf t 0] rfl (by decide) (by decide) (by simp [Rising]) (by simp [Rising]) fun w y _ hw hx => ?_
  simp [decodeInstr_scr hw, decodeScr, decodeMap, given, hw.field 0 rfl, hw.field 1 rfl, hw.field 2 rfl, hw.field 3 rfl,
    hw.field 4 rfl, hw.num 6 rfl, hx.field 0 rfl, hx.zero, hw.ext_eq, hw.zero, -BitVec.getLsbD_eq_getElem]

theorem decodes_mapScale (h : Issue) (sel : BitVec 2) (a d : BitVec 4) (ra : BitVec 5) (t : BitVec 32) :
    Decodes (.scrMapScale h sel a d ra t) := by
  refine .of_enc2 [cellOf sel 15, cellOf a 19, cellOf 0#4 23, cellOf 0#4 27, cellOf d 31, cellOf ra 35, ⟨50, 5, _,
    by decide⟩] [cellOf t 0] rfl (by decide) (by decide) (by simp [Rising]) (by simp [Rising]) fun w y _ hw hx => ?_
  simp [decodeInstr_scr hw, decodeScr, decodeMap, given, hw.field 0 rfl, hw.field 1 rfl, hw.field 4 rfl, hw.field 5 rfl,
    hw.num 6 rfl, hx.field 0 rfl, hx.zero, hw.ext_eq, hw.zero, -BitVec.getLsbD_eq_getElem]

theorem decodes_curve (h : Issue) (sel : BitVec 2) (a d : BitVec 4) (slot : BitVec 5) (t : BitVec 32) :
    Decodes (.scrCurve h sel a none d slot t) := by
  refine .of_enc2 [cellOf sel 15, cellOf a 19, cellOf 0#4 23, cellOf d 31, cellOf slot 50, flagOf false 55] [cellOf t 0] rfl
    (by decide) (by decide) (by simp [Rising]) (by simp [Rising]) fun w y _ hw hx => ?_
  simp [decodeInstr_scr hw, decodeScr, given, hw.field 0 rfl, hw.field 1 rfl, hw.field 3 rfl, hw.field 4 rfl, hw.flag 5 rfl,
    hx.field 0 rfl, hx.zero, hw.ext_eq, hw.zero, -BitVec.getLsbD_eq_getElem]

theorem decodes_curveOfTwo (h : Issue) (sel : BitVec 2) (a b d : BitVec 4) (slot : BitVec 5) (t : BitVec 32) :
    Decodes (.scrCurve h sel a (some b) d slot t) := by
  refine .of_enc2 [cellOf sel 15, cellOf a 19, cellOf b 23, cellOf d 31, cellOf slot 50, flagOf true 55] [cellOf t 0] rfl
    (by decide) (by decide) (by simp [Rising]) (by simp [Rising]) fun w y _ hw hx => ?_
  simp [decodeInstr_scr hw, decodeScr, given, hw.field 0 rfl, hw.field 1 rfl, hw.field 2 rfl, hw.field 3 rfl, hw.field 4 rfl,
    hw.flag 5 rfl, hx.field 0 rfl, hx.zero, hw.ext_eq, hw.zero, -BitVec.getLsbD_eq_getElem]

theorem decodes_dcurve (h : Issue) (sel : BitVec 2) (a b d : BitVec 4) (slot : BitVec 5) (t : BitVec 32) :
    Decodes (.scrDcurve h sel a b none d slot t) := by
  refine .of_enc2 [cellOf sel 15, cellOf a 19, cellOf b 23, cellOf 0#4 27, cellOf d 31, cellOf slot 50,
    flagOf false 55] [cellOf t 0, cellOf 0#32 32] rfl (by decide) (by decide) (by simp [Rising]) (by simp [Rising])
    fun w y _ hw hx => ?_
  simp [decodeInstr_scr hw, decodeScr, given, hw.field 0 rfl, hw.field 1 rfl, hw.field 2 rfl, hw.field 4 rfl, hw.field 5 rfl,
    hw.flag 6 rfl, hx.field 0 rfl, hx.zero, hw.ext_eq, hw.zero, -BitVec.getLsbD_eq_getElem]

theorem decodes_dcurveGated (h : Issue) (sel : BitVec 2) (a b c d : BitVec 4) (slot : BitVec 5) (t : BitVec 32) (u : BitVec 32) :
    Decodes (.scrDcurve h sel a b (some (c, u)) d slot t) := by
  refine .of_enc2 [cellOf sel 15, cellOf a 19, cellOf b 23, cellOf c 27, cellOf d 31, cellOf slot 50,
    flagOf true 55] [cellOf t 0, cellOf u 32] rfl (by decide) (by decide) (by simp [Rising]) (by simp [Rising])
    fun w y _ hw hx => ?_
  simp [decodeInstr_scr hw, decodeScr, given, hw.field 0 rfl, hw.field 1 rfl, hw.field 2 rfl, hw.field 3 rfl, hw.field 4 rfl,
    hw.field 5 rfl, hw.flag 6 rfl, hx.field 0 rfl, hx.field 1 rfl, hw.ext_eq, hw.zero, -BitVec.getLsbD_eq_getElem]

theorem decodes_smax (h : Issue) (sel : BitVec 2) (a b c d : BitVec 4) (ra : BitVec 5) (slot : BitVec 5) (t : BitVec 32) :
    Decodes (.scrSmax h sel a b c d ra none slot t) := by
  refine .of_enc2 [cellOf sel 15, cellOf a 19, cellOf b 23, cellOf c 27, cellOf d 31, cellOf ra 35, cellOf 0#5 40,
    cellOf 0#5 45, cellOf slot 50, flagOf false 55] [cellOf t 0] rfl (by decide) (by decide) (by simp [Rising])
    (by simp [Rising]) fun w y _ hw hx => ?_
  simp [decodeInstr_scr hw, decodeScr, given, hw.field 0 rfl, hw.field 1 rfl, hw.field 2 rfl, hw.field 3 rfl, hw.field 4 rfl,
    hw.field 5 rfl, hw.field 8 rfl, hw.flag 9 rfl, hx.field 0 rfl, hx.zero, hw.ext_eq, hw.zero, -BitVec.getLsbD_eq_getElem]

theorem decodes_smaxMasked (h : Issue) (sel : BitVec 2) (a b c d : BitVec 4) (ra q k : BitVec 5) (slot : BitVec 5) (t : BitVec 32) :
    Decodes (.scrSmax h sel a b c d ra (some (q, k)) slot t) := by
  refine .of_enc2 [cellOf sel 15, cellOf a 19, cellOf b 23, cellOf c 27, cellOf d 31, cellOf ra 35, cellOf q 40, cellOf k 45,
    cellOf slot 50, flagOf true 55] [cellOf t 0] rfl (by decide) (by decide) (by simp [Rising]) (by simp [Rising])
    fun w y _ hw hx => ?_
  simp [decodeInstr_scr hw, decodeScr, given, hw.field 0 rfl, hw.field 1 rfl, hw.field 2 rfl, hw.field 3 rfl, hw.field 4 rfl,
    hw.field 5 rfl, hw.field 6 rfl, hw.field 7 rfl, hw.field 8 rfl, hw.flag 9 rfl, hx.field 0 rfl, hx.zero, hw.ext_eq, hw.zero,
    -BitVec.getLsbD_eq_getElem]

theorem decodes_topk (h : Issue) (sel : BitVec 2) (a b c : BitVec 4) (ra rb : BitVec 5) (key : Bool) (t : BitVec 32) :
    Decodes (.scrTopk h sel a b c none ra rb key t) := by
  refine .of_enc2 [cellOf sel 15, cellOf a 19, cellOf b 23, cellOf c 27, cellOf 0#4 31, cellOf ra 35, cellOf rb 40,
    flagOf key 50, flagOf false 51] [cellOf t 0] rfl (by decide) (by decide) (by simp [Rising]) (by simp [Rising])
    fun w y _ hw hx => ?_
  simp [decodeInstr_scr hw, decodeScr, given, hw.field 0 rfl, hw.field 1 rfl, hw.field 2 rfl, hw.field 3 rfl, hw.field 5 rfl,
    hw.field 6 rfl, hw.flag 7 rfl, hw.flag 8 rfl, hx.field 0 rfl, hx.zero, hw.ext_eq, hw.zero, -BitVec.getLsbD_eq_getElem]

theorem decodes_topkBoth (h : Issue) (sel : BitVec 2) (a b c d : BitVec 4) (ra rb : BitVec 5) (key : Bool) (t : BitVec 32) :
    Decodes (.scrTopk h sel a b c (some d) ra rb key t) := by
  refine .of_enc2 [cellOf sel 15, cellOf a 19, cellOf b 23, cellOf c 27, cellOf d 31, cellOf ra 35, cellOf rb 40, flagOf key 50,
    flagOf true 51] [cellOf t 0] rfl (by decide) (by decide) (by simp [Rising]) (by simp [Rising]) fun w y _ hw hx => ?_
  simp [decodeInstr_scr hw, decodeScr, given, hw.field 0 rfl, hw.field 1 rfl, hw.field 2 rfl, hw.field 3 rfl, hw.field 4 rfl,
    hw.field 5 rfl, hw.field 6 rfl, hw.flag 7 rfl, hw.flag 8 rfl, hx.field 0 rfl, hx.zero, hw.ext_eq, hw.zero,
    -BitVec.getLsbD_eq_getElem]

theorem decodes_opt (h : Issue) (sel : BitVec 2) (a : BitVec 4) (ra : BitVec 5) (norm : Bool) (t u : BitVec 32) :
    Decodes (.scrOpt h sel a ra norm t u) := by
  refine .of_enc2 [cellOf sel 15, cellOf a 19, cellOf ra 35, flagOf norm 50] [cellOf t 0, cellOf u 32] rfl (by decide)
    (by decide) (by simp [Rising]) (by simp [Rising]) fun w y _ hw hx => ?_
  simp [decodeInstr_scr hw, decodeScr, given, hw.field 0 rfl, hw.field 1 rfl, hw.field 2 rfl, hw.flag 3 rfl, hx.field 0 rfl,
    hx.field 1 rfl, hw.ext_eq, hw.zero, -BitVec.getLsbD_eq_getElem]

theorem decodes_wghRed (h : Issue) (da db : BitVec 4) (ra rb : BitVec 5) (axis : BitVec 3) (noise : Bool) :
    Decodes (.wghRed h da db ra rb axis noise) := by
  refine .of_enc1 [cellOf da 19, cellOf db 23, cellOf ra 35, cellOf rb 40, cellOf axis 50, flagOf noise 53] rfl (by decide)
    (by decide) (by simp [Rising]) fun w y _ hw => ?_
  simp [decodeInstr_wgh hw, decodeWgh, given, hw.field 0 rfl, hw.field 1 rfl, hw.field 2 rfl, hw.field 3 rfl, hw.field 4 rfl,
    hw.flag 5 rfl, hw.zero, -BitVec.getLsbD_eq_getElem]

theorem decodes_wghSparse (h : Issue) (da db dc dd : BitVec 4) (ra rb : BitVec 5) (axis : BitVec 3) :
    Decodes (.wghSparse h da db dc dd ra rb axis) := by
  refine .of_enc1 [cellOf da 19, cellOf db 23, cellOf dc 27, cellOf dd 31, cellOf ra 35, cellOf rb 40, cellOf axis 50] rfl
    (by decide) (by decide) (by simp [Rising]) fun w y _ hw => ?_
  simp [decodeInstr_wgh hw, decodeWgh, given, hw.field 0 rfl, hw.field 1 rfl, hw.field 2 rfl, hw.field 3 rfl, hw.field 4 rfl,
    hw.field 5 rfl, hw.field 6 rfl, hw.zero, -BitVec.getLsbD_eq_getElem]

theorem decodes_stkPush (h : Issue) (da db : BitVec 4) (ra : BitVec 5) (t : BitVec 32) : Decodes (.stkPush h da db ra t) := by
  refine .of_enc2 [cellOf da 19, cellOf db 23, cellOf ra 35] [cellOf t 0] rfl (by decide) (by decide) (by simp [Rising])
    (by simp [Rising]) fun w y _ hw hx => ?_
  simp [decodeInstr_stk hw, decodeStk, given, hw.field 0 rfl, hw.field 1 rfl, hw.field 2 rfl, hx.field 0 rfl, hx.zero,
    hw.ext_eq, hw.zero, -BitVec.getLsbD_eq_getElem]

theorem decodes_stkPop (h : Issue) (da : BitVec 4) (ra rb : BitVec 5) : Decodes (.stkPop h da ra rb) := by
  refine .of_enc1 [cellOf da 19, cellOf ra 35, cellOf rb 40] rfl (by decide) (by decide) (by simp [Rising]) fun w y _ hw => ?_
  simp [decodeInstr_stk hw, decodeStk, given, hw.field 0 rfl, hw.field 1 rfl, hw.field 2 rfl, hw.ext_eq, hw.zero,
    -BitVec.getLsbD_eq_getElem]

/-! ## SYNC, STEP, MARK and PLM (R334) -/

theorem decodes_syncFence (h : Issue) (cover gate : BitVec 8) : Decodes (.syncFence h cover gate) := by
  refine .of_enc1 [cellOf cover 15, cellOf gate 23] rfl (by decide) (by decide) (by simp [Rising]) fun w y _ hw => ?_
  simp [decodeInstr_sync hw, decodeSync, given, hw.field 0 rfl, hw.field 1 rfl, hw.zero, -BitVec.getLsbD_eq_getElem]

theorem decodes_signal (h : Issue) (ra rb : BitVec 5) : ∀ i ∈ [Instr.set_ h ra rb, .sigAdd h ra rb], Decodes i := by
  intro i hi
  fin_cases hi <;>
  · refine .of_enc1 [cellOf ra 20, cellOf rb 25, ⟨30, 2, _, by decide⟩] rfl (by decide) (by decide) (by simp [Rising])
      fun w y _ hw => ?_
    simp [decodeInstr_sync hw, decodeSync, hw.field 0 rfl, hw.field 1 rfl, hw.num 2 rfl, hw.zero, -BitVec.getLsbD_eq_getElem]

theorem decodes_signalClear (h : Issue) (ra : BitVec 5) : Decodes (.clear h ra) := by
  refine .of_enc1 [cellOf ra 20, cellOf 0#5 25, ⟨30, 2, _, by decide⟩] rfl (by decide) (by decide) (by simp [Rising])
    fun w y _ hw => ?_
  simp [decodeInstr_sync hw, decodeSync, given, hw.field 0 rfl, hw.num 2 rfl, hw.zero, -BitVec.getLsbD_eq_getElem]

theorem decodes_wait (h : Issue) (rd ra : BitVec 5) (gate : BitVec 8) : ∀ i ∈ [Instr.full h rd ra gate, .take h rd ra gate,
    .empty h rd ra gate], Decodes i := by
  intro i hi
  fin_cases hi <;>
  · refine .of_enc1 [cellOf rd 15, cellOf ra 20, cellOf 0#5 25, ⟨30, 2, _, by decide⟩, cellOf gate 32] rfl (by decide)
      (by decide) (by simp [Rising]) fun w y hf hw => ?_
    obtain ⟨hg, hrd⟩ := waitOk_iff.mp hf
    simpa [decodeInstr_sync hw, decodeSync, given, hw.field 0 rfl, hw.field 1 rfl, hw.field 2 rfl, hw.num 3 rfl, hw.field 4 rfl,
      hw.zero, hw.isZero 0 rfl, hg, -BitVec.getLsbD_eq_getElem] using hrd

theorem decodes_waitGe (h : Issue) (rd ra rb : BitVec 5) (gate : BitVec 8) : Decodes (.ge h rd ra rb gate) := by
  refine .of_enc1 [cellOf rd 15, cellOf ra 20, cellOf rb 25, ⟨30, 2, _, by decide⟩, cellOf gate 32] rfl (by decide) (by decide)
    (by simp [Rising]) fun w y hf hw => ?_
  obtain ⟨hg, hrd⟩ := waitOk_iff.mp hf
  simpa [decodeInstr_sync hw, decodeSync, hw.field 0 rfl, hw.field 1 rfl, hw.field 2 rfl, hw.num 3 rfl, hw.field 4 rfl, hw.zero,
    hw.isZero 0 rfl, hg, -BitVec.getLsbD_eq_getElem] using hrd

theorem decodes_syncBar (h : Issue) (fabric : Bool) (bid : Fin 16) (gate : BitVec 8) :
    Decodes (.syncBar h fabric bid gate) := by
  refine .of_enc1 [flagOf fabric 15, cellOf (BitVec.ofFin bid : BitVec 4) 16, cellOf gate 20] rfl (by decide) (by decide)
    (by simp [Rising]) fun w y _ hw => ?_
  simp [decodeInstr_sync hw, decodeSync, given, hw.flag 0 rfl, hw.field 1 rfl, hw.field 2 rfl, hw.zero,
    -BitVec.getLsbD_eq_getElem]

theorem decodes_stepBegin (h : Issue) (ra : BitVec 5) : Decodes (.stepBegin h ra) := by
  refine .of_enc1 [cellOf ra 20] rfl (by decide) (by decide) (by simp [Rising]) fun w y _ hw => ?_
  simp [decodeInstr_step hw, decodeStep, given, hw.field 0 rfl, hw.zero, -BitVec.getLsbD_eq_getElem]

theorem decodes_stepVote (h : Issue) (rd : BitVec 5) (vote : Vote) (cover : BitVec 8) :
    Decodes (.stepVote h rd vote cover) := by
  refine .of_enc1 [cellOf rd 15, ⟨20, 2, voteCode vote, voteCode_lt vote⟩, cellOf cover 22] rfl (by decide) (by decide)
    (by simp [Rising]) fun w y _ hw => ?_
  simp [decodeInstr_step hw, decodeStep, given, voteCoded_voteCode, hw.field 0 rfl, hw.num 1 rfl, hw.field 2 rfl, hw.zero,
    -BitVec.getLsbD_eq_getElem]

theorem decodes_markBegin (h : Issue) (id : BitVec 32) : Decodes (.markBegin h id) := by
  refine .of_enc2 [] [cellOf id 0] rfl (by decide) (by decide) (by simp [Rising]) (by simp [Rising]) fun w y _ hw hx => ?_
  simp [decodeInstr_mark hw, decodeMark, given, hx.field 0 rfl, hx.zero, hw.ext_eq, hw.zero, -BitVec.getLsbD_eq_getElem]

theorem decodes_markEnd (h : Issue) : Decodes (.markEnd h) := by
  refine .of_enc1 [] rfl (by decide) (by decide) (by simp [Rising]) fun w y _ hw => ?_
  simp [decodeInstr_mark hw, decodeMark, given, hw.ext_eq, hw.zero, -BitVec.getLsbD_eq_getElem]

theorem decodes_plmEval (h : Issue) : Decodes (.plmEval h) := by
  refine .of_enc1 [] rfl (by decide) (by decide) (by simp [Rising]) fun w y _ hw => ?_
  simp [decodeInstr_plm hw, given, hw.zero, -BitVec.getLsbD_eq_getElem]

/-- Every instruction that has an encoding is decoded from it. -/
theorem decodes_all (i : Instr) : Decodes i := by
  cases i with
  | add h rd ra rb | sub h rd ra rb | and_ h rd ra rb | or_ h rd ra rb | xor_ h rd ra rb | shl h rd ra rb | shr h rd ra rb
    | sar h rd ra rb | mul h rd ra rb | mulhu h rd ra rb | min_ h rd ra rb | minu h rd ra rb | max_ h rd ra rb | maxu h rd ra rb
    | divu h rd ra rb | remu h rd ra rb => exact decodes_alu h rd ra rb _ (by simp)
  | ceq h pd ra rb | cne h pd ra rb | clt h pd ra rb | cltu h pd ra rb | cge h pd ra rb
    | cgeu h pd ra rb => exact decodes_cmp h pd ra rb _ (by simp)
  | pand h pd pa pb | por h pd pa pb | pxor h pd pa pb | pandn h pd pa pb => exact decodes_plog h pd pa pb _ (by simp)
  | tmov h td ta => exact decodes_tmov h td ta
  | tset h td ra k => exact decodes_tset h td ra k
  | tget h rd ta k => exact decodes_tget h rd ta k
  | addi h rd ra imm | andi h rd ra imm | ori h rd ra imm | xori h rd ra imm | muli h rd ra imm =>
    exact decodes_imm h rd ra imm _ (by simp)
  | shli h rd ra sh | shri h rd ra sh | sari h rd ra sh => exact decodes_shift h rd ra sh _ (by simp)
  | ceqi h pd ra imm | clti h pd ra imm | cltui h pd ra imm => exact decodes_cmpImm h pd ra imm _ (by simp)
  | imm64 h rd v => exact decodes_imm64 h rd v
  | ld h r ra fe off | st h r ra fe off => exact decodes_mem h r ra fe off _ (by simp)
  | tld h r ra fe off | tst h r ra fe off => exact decodes_memDesc h r ra fe off _ (by simp)
  | br h off | call h off => exact decodes_branch h off _ (by simp)
  | jr h ra | callr h ra => exact decodes_jump h ra _ (by simp)
  | nop h | end_ h => exact decodes_plain h _ (by simp)
  | haulLd h sel da db perm => exact decodes_haulLd h sel da db perm
  | haulSt h sel da db remote ra perm => exact decodes_haulSt h sel da db remote ra perm
  | haulGth h sel da db dc gd | haulSct h sel da db dc gd => exact decodes_haulRows h sel da db dc gd _ (by simp)
  | cutMm h f => exact decodes_cutMm h f
  | drsMm h f => exact decodes_drsMm h f
  | wdgCvt h f => exact decodes_wdgCvt h f
  | wdgRot h f => exact decodes_wdgRot h f
  | scrMapCopy h sel a d t | scrMapAbs h sel a d t | scrMapNeg h sel a d t | scrMapSqrt h sel a d t | scrMapRecip h sel a d t
    | scrMapRsqrt h sel a d t | scrMapRsum h sel a d t | scrMapRssq h sel a d t | scrMapRmax h sel a d t
    | scrMapRamax h sel a d t => exact decodes_mapOne h sel a d t _ (by simp)
  | scrMapAdd h sel a b d t | scrMapSub h sel a b d t | scrMapMul h sel a b d t | scrMapMax h sel a b d t
    | scrMapMin h sel a b d t => exact decodes_mapTwo h sel a b d t _ (by simp)
  | scrMapFma h sel a b c d t => exact decodes_mapFma h sel a b c d t
  | scrMapScale h sel a d ra t => exact decodes_mapScale h sel a d ra t
  | scrCurve h sel a b d slot t =>
    cases b with
    | none => exact decodes_curve h sel a d slot t
    | some b => exact decodes_curveOfTwo h sel a b d slot t
  | scrDcurve h sel a b g d slot t =>
    cases g with
    | none => exact decodes_dcurve h sel a b d slot t
    | some g => exact decodes_dcurveGated h sel a b g.1 d slot t g.2
  | scrSmax h sel a b c d ra mask slot t =>
    cases mask with
    | none => exact decodes_smax h sel a b c d ra slot t
    | some m => exact decodes_smaxMasked h sel a b c d ra m.1 m.2 slot t
  | scrTopk h sel a b c comp ra rb key t =>
    cases comp with
    | none => exact decodes_topk h sel a b c ra rb key t
    | some d => exact decodes_topkBoth h sel a b c d ra rb key t
  | scrOpt h sel a ra norm t u => exact decodes_opt h sel a ra norm t u
  | wghRed h da db ra rb axis noise => exact decodes_wghRed h da db ra rb axis noise
  | wghSparse h da db dc dd ra rb axis => exact decodes_wghSparse h da db dc dd ra rb axis
  | stkPush h da db ra t => exact decodes_stkPush h da db ra t
  | stkPop h da ra rb => exact decodes_stkPop h da ra rb
  | syncFence h cover gate => exact decodes_syncFence h cover gate
  | set_ h ra rb | sigAdd h ra rb => exact decodes_signal h ra rb _ (by simp)
  | clear h ra => exact decodes_signalClear h ra
  | full h rd ra gate | take h rd ra gate | empty h rd ra gate => exact decodes_wait h rd ra gate _ (by simp)
  | ge h rd ra rb gate => exact decodes_waitGe h rd ra rb gate
  | syncBar h fabric bid gate => exact decodes_syncBar h fabric bid gate
  | stepBegin h ra => exact decodes_stepBegin h ra
  | stepVote h rd vote cover => exact decodes_stepVote h rd vote cover
  | markBegin h id => exact decodes_markBegin h id
  | markEnd h => exact decodes_markEnd h
  | plmEval h => exact decodes_plmEval h
  | _ => intro _ b w x y he; cases he

end Sys2Proof
end

section
/-! The settlement of O1. -/

open Sys2Proof Sys2Proof.Machine

/-- Settles O1: both words are laid down field by field, so the decoder reads each field that it asks for as it was laid, and zero
everywhere else. -/
theorem decodeOfEncode : Obligations.DecodeOfEncode := by
  unfold Obligations.DecodeOfEncode
  exact fun i b w x y hf he => decodes_all i hf b w x y he

end

section
/-! SUPPORT. Results that arrive later, and the arrival of pending values (R277, R316, R318, R319). -/

namespace Sys2Proof.Machine

/-- s0 is never pending (R319). -/
@[simp] theorem Foreman.pendS_zero (f : Foreman) : f.pendS 0 = false := rfl

/-- A result that arrives later is pending when its instruction retires; s0 takes none (R316, R319). -/
theorem pendsS_of_aluLate {i : Instr} {h : Issue} {opcode : BitVec 10} {f : Word → Word → Word} {rd ra rb : BitVec 5} {s : State}
    (he : exec i s = issue h 1 opcode (aluLate f rd ra rb) s) (hi : s.Issues h 1) (ha : s.Arrived h.bench [ra, rb, rd]) :
    PendsS i h s rd (f (s.sreg h ra) (s.sreg h rb)) := by
  obtain ⟨t, ht, hfm, honly⟩ := issue_onFm h 1 opcode (aluLate f rd ra rb) s _ hi (waitS_arrived s h opcode [ra, rb, rd] _ ha)
  refine ⟨t, he.trans ht, hfm.trans ?_, honly⟩
  dsimp only
  by_cases hrd : rd = 0
  · simp [hrd]
  · rw [if_neg hrd, if_neg hrd]; rfl

theorem ofNat_div {n : Nat} (a b : BitVec n) : BitVec.ofNat n (a.toNat / b.toNat) = a / b := by
  rw [← BitVec.toNat_udiv, BitVec.ofNat_toNat, BitVec.setWidth_eq]

theorem ofNat_mod {n : Nat} (a b : BitVec n) : BitVec.ofNat n (a.toNat % b.toNat) = a % b := by
  rw [← BitVec.toNat_umod, BitVec.ofNat_toNat, BitVec.setWidth_eq]

/-- The oldest pending value of a register leaves the list (R319). -/
theorem takePend_head_s (r : BitVec 5) (v : Word) (rest : List Pend) :
    takePend (.s r v :: rest) false r = some (.s r v, rest) := by
  simp [takePend]

theorem takePend_head_t (r : BitVec 4) (v : Desc) (rest : List Pend) :
    takePend (.t r v :: rest) true (r.setWidth 5) = some (.t r v, rest) := by
  simp [takePend]

end Sys2Proof.Machine
end

section
/-! The settlement of O10. -/

open Sys2Proof Sys2Proof.Machine

/-- Settles O10: each of the five issues with a body that leaves its result pending, and the head of the pending list is the oldest
value of its register. -/
theorem lateResults : Obligations.LateResults := by
  unfold Obligations.LateResults
  constructor
  · intro s h rd ra rb imm hi ha a b
    have hmuli : s.Arrived h.bench [ra, 0, rd] := by
      simp only [State.Arrived, List.forall_mem_cons] at ha ⊢
      exact ⟨ha.1, Foreman.pendS_zero _, ha.2.2⟩
    refine ⟨pendsS_of_aluLate (f := fun a b => a * b) rfl hi ha,
      pendsS_of_aluLate (f := fun a b => BitVec.ofNat 64 (a.toNat * b.toNat / 2 ^ 64)) rfl hi ha, ?_, ?_,
      pendsS_of_aluLate (f := fun a _ => a * imm39 imm) rfl hi hmuli⟩
    · have hd := pendsS_of_aluLate (i := .divu h rd ra rb) rfl hi ha
      simpa only [ofNat_div] using hd
    · have hd := pendsS_of_aluLate (i := .remu h rd ra rb) rfl hi ha
      simpa only [ofNat_mod] using hd
  · intro s b rest
    refine ⟨fun r v hp => ?_, fun r v hp => ?_⟩
    · change execPendingValueArrives b false r s = _
      rw [execPendingValueArrives, hp, takePend_head_s]
    · change execPendingValueArrives b true (r.setWidth 5) s = _
      rw [execPendingValueArrives, hp, takePend_head_t]

end

section
/-! SUPPORT. Packed words read back, and what taking a program fault leaves (R301, R302, R306, R449). -/

namespace Sys2Proof.Machine

/-! ## Packed words -/

/-- A field to pack as a cell of the word. -/
abbrev packCell (f : Nat × Nat × Nat) : Cell := ⟨f.1, f.2.1, f.2.2 % 2 ^ f.2.1, Nat.mod_lt _ (by positivity)⟩

theorem pack_eq_lay (fs : List (Nat × Nat × Nat)) : pack fs = lay ((fs.map packCell).map Cell.pair) := by
  have h (a : Nat) : fs.foldl (fun a f => a + (f.2.2 % 2 ^ f.2.1) <<< f.1) a
      = a + ((fs.map packCell).map Cell.pair).foldr (fun f a => f.2 * 2 ^ f.1 + a) 0 := by
    induction fs generalizing a with
    | nil => rfl
    | cons f fs ih =>
      rw [List.foldl_cons, ih]
      simp only [List.map_cons, List.foldr_cons, Nat.shiftLeft_eq, Nat.add_assoc]
  rw [pack, lay, h 0, Nat.zero_add]

theorem fld_eq_wn (w : Word) (lo n : Nat) : fld w lo n = wn w lo n := by
  rw [wn_eq, fld, bits, Nat.shiftRight_eq_div_pow]

/-- A packed field is read back. -/
theorem fld_pack {fs : List (Nat × Nat × Nat)} (hr : Rising 0 (fs.map packCell)) (k : Nat) {lo n v : Nat}
    (hk : fs[k]? = some (lo, n, v)) : fld (pack fs) lo n = v % 2 ^ n := by
  have hc : (fs.map packCell)[k]? = some (packCell (lo, n, v)) := by rw [List.getElem?_map, hk]; rfl
  rw [fld_eq_wn]
  exact Holds.num ⟨hr, pack_eq_lay fs⟩ k hc

/-- A bit beside the packed fields is zero. -/
theorem fld_pack_zero {fs : List (Nat × Nat × Nat)} (hr : Rising 0 (fs.map packCell)) {lo n : Nat} (hn : lo + n ≤ 64)
    (hz : ∀ c ∈ fs.map packCell, c.val = 0 ∨ c.lo + c.width ≤ lo ∨ lo + n ≤ c.lo) : fld (pack fs) lo n = 0 := by
  rw [fld_eq_wn]
  exact beq_iff_eq.mp (Holds.zero ⟨hr, pack_eq_lay fs⟩ hn hz)

/-! ## FM_FAULT (R306) -/

/-- FM_FAULT captures the first fault. -/
theorem faultWord_first {old : Word} (f : FaultAt) {code : Nat} (hold : fld old 0 8 = 0) (hcode : code < 256) :
    let w := faultWord old f code
    fld w 0 8 = code ∧ fld w 8 1 = 0 ∧ fld w 9 3 = f.q.val ∧ fld w 12 4 = f.unit % 16 ∧ fld w 16 15 = f.op.pc.toNat
      ∧ fld w 32 32 = f.op.mark.toNat := by
  intro w
  have hw : w = pack [(0, 8, code), (9, 3, f.q.val), (12, 4, f.unit), (16, 15, f.op.pc.toNat), (32, 32, f.op.mark.toNat)] :=
    if_pos hold
  have hr : Rising 0 ([(0, 8, code), (9, 3, f.q.val), (12, 4, f.unit), (16, 15, f.op.pc.toNat),
      (32, 32, f.op.mark.toNat)].map packCell) := by simp [Rising]
  rw [hw]
  refine ⟨(fld_pack hr 0 rfl).trans (Nat.mod_eq_of_lt hcode), fld_pack_zero hr (by decide) (by simp),
    (fld_pack hr 1 rfl).trans (Nat.mod_eq_of_lt f.q.isLt), fld_pack hr 2 rfl,
    (fld_pack hr 3 rfl).trans (Nat.mod_eq_of_lt f.op.pc.isLt), (fld_pack hr 4 rfl).trans (Nat.mod_eq_of_lt f.op.mark.isLt)⟩

/-- A later fault sets MORE and leaves the first one's code. -/
theorem faultWord_later {old : Word} (f : FaultAt) (code : Nat) (hold : fld old 0 8 ≠ 0) :
    fld (faultWord old f code) 0 8 = fld old 0 8 ∧ fld (faultWord old f code) 8 1 = 1 := by
  rw [faultWord, if_neg hold]
  exact ⟨fld_setFld_beside (lo := 8) (n := 1) _ _ (by decide) (by decide), fld_setFld_same _ _ _ _ (by decide)⟩

/-! ## What a fault leaves (R301) -/

@[simp] theorem State.voteNow_regs (s : State) (b : Bid) (v : Vote) (cause : Nat) : (s.voteNow b v cause).regs = s.regs := by
  unfold State.voteNow
  split
  · rfl
  · split <;> rfl

@[simp] theorem State.voteNow_marks (s : State) (b : Bid) (v : Vote) (cause : Nat) : (s.voteNow b v cause).marks = s.marks := by
  unfold State.voteNow
  split
  · rfl
  · split <;> rfl

@[simp] theorem State.voteNow_errs (s : State) (b : Bid) (v : Vote) (cause : Nat) : (s.voteNow b v cause).errs = s.errs := by
  unfold State.voteNow
  split
  · rfl
  · split <;> rfl

/-- A record written sets out for the aggregator (R452). -/
theorem State.emit_coming (s : State) (i : RecInfo) : ∃ r, (s.emit i).errs.coming = s.errs.coming ++ [r] := by
  refine ⟨s.drawWord.2.recordWords i s.drawWord.1, ?_⟩
  unfold State.emit
  dsimp only
  split
  · rw [State.countB, State.count, State.setReg_errs]
    split <;> rfl
  · split <;> rfl

@[simp] theorem State.emit_steps (s : State) (i : RecInfo) : (s.emit i).steps = s.steps := by
  unfold State.emit
  dsimp only
  split
  · rw [State.countB, State.count, State.setReg_steps]
    split <;> rfl
  · split <;> rfl

/-- A vote sent at once while an attempt is in progress is among the Benches' votes (R301). -/
theorem State.voteNow_holds {s : State} {b : Bid} {p : Part} (v : Vote) (cause : Nat) (hp : s.partOf b = some p)
    (hl : (s.ctl p).live = true) :
    ∃ w, (b.val, w) ∈ ((s.voteNow b v cause).ctl p).benchVotes ∧ voteRank v ≤ voteRank w := by
  obtain ⟨w, hw, hle⟩ := s.castVote_holds p b v
  refine ⟨w, ?_, hle⟩
  unfold State.voteNow
  rw [hp]
  dsimp only
  rw [if_pos hl, State.onCtl_ctl_same]
  exact hw

/-- The record that a program fault writes. -/
def State.faultRec (s : State) (f : FaultAt) (code : Nat) : RecInfo :=
  { benchRec 2 f.b (queueUclass f.q) f.unit 0x0A (s.partOf f.b) with
    fault := code, op := some f.op
    vote := if (match s.partOf f.b with | some p => (s.ctl p).live | none => false) then voteRec (codeVote code) else 0 }

/-- The state in which a program fault has stopped its queue and its Foreman, and FM_FAULT captures it. -/
def State.faultTaken (s : State) (f : FaultAt) (code : Nat) : State :=
  (s.onBench f.b (Bench.faulted f.q (codeVote code))).setReg (K.FM_FAULT f.b) (faultWord (s.reg (K.FM_FAULT f.b)) f code)

theorem State.faultCode_eq (s : State) (f : FaultAt) (code : Nat) : s.faultCode f code =
    ((s.faultTaken f code).emit ((s.faultTaken f code).faultRec f code)).voteNow f.b (codeVote code) causeFault := rfl

section
variable (s : State) (f : FaultAt) (code : Nat)

theorem State.faultTaken_sameWindows : s.SameWindows (s.faultTaken f code) := by
  refine ⟨fun k hk => ?_, ?_, ?_, ?_, ?_⟩
  · rw [State.faultTaken, State.setReg_other, State.onBench_reg]
    rintro rfl
    simp only [decidesWindows, K.FM_FAULT] at hk
    omega
  all_goals simp [State.faultTaken]

theorem State.faultTaken_emit_partOf (i : RecInfo) (hi : i.event < 256) (b : Bid) :
    ((s.faultTaken f code).emit i).partOf b = s.partOf b := by
  rw [((Accessed.refl (s.faultTaken f code)).emit i hi).sameWindows.partOf, (s.faultTaken_sameWindows f code).partOf]

theorem State.faultCode_marks : (s.faultCode f code).marks = s.marks := by
  rw [State.faultCode_eq, State.voteNow_marks, State.emit_marks]
  simp [State.faultTaken]

theorem State.faultCode_bench : (s.faultCode f code).bench f.b = Bench.faulted f.q (codeVote code) (s.bench f.b) := by
  rw [State.bench, State.faultCode_benches]
  exact s.onBench_bench_same f.b _

/-- The queue of a fault begins nothing further; a fault of the Foreman itself names no queue (R301). -/
theorem faulted_stopped {q : Fin 8} (hq : q ≠ 0) (v : Vote) (x : Bench) : (Bench.faulted q v x).stopped.getLsbD q.val = true := by
  rw [Bench.faulted, if_neg hq, BitVec.getLsbD_or, BitVec.getLsbD_ofNat]
  simp

theorem State.faultCode_coming : ∃ r, (s.faultCode f code).errs.coming = s.errs.coming ++ [r] := by
  obtain ⟨r, hr⟩ := (s.faultTaken f code).emit_coming ((s.faultTaken f code).faultRec f code)
  refine ⟨r, ?_⟩
  rw [State.faultCode_eq, State.voteNow_errs, hr]
  simp [State.faultTaken]

/-- A fault writes FM_FAULT, and counts its record in the Bench's counters. -/
theorem State.faultCode_reg {k : Nat} (hk : ∀ b : Bid, K.BENCH_CTR b (256 + 0x0A) ≠ k) :
    (s.faultCode f code).reg k = (s.faultTaken f code).reg k := by
  rw [State.faultCode_eq]
  refine Eq.trans ?_ ((s.faultTaken f code).emit_reg ((s.faultTaken f code).faultRec f code) hk)
  rw [State.reg, State.voteNow_regs]
  rfl

theorem State.faultCode_faultWord :
    (s.faultCode f code).reg (K.FM_FAULT f.b) = faultWord (s.reg (K.FM_FAULT f.b)) f code := by
  rw [s.faultCode_reg f code fun b => by simp only [K.BENCH_CTR, K.FM_FAULT]; omega, State.faultTaken, State.reg_setReg, if_pos rfl]

theorem State.faultCode_votes {p : Part} (hp : s.partOf f.b = some p) (hl : (s.ctl p).live = true) :
    ∃ v, (f.b.val, v) ∈ ((s.faultCode f code).ctl p).benchVotes ∧ voteRank (codeVote code) ≤ voteRank v := by
  rw [State.faultCode_eq]
  refine State.voteNow_holds _ _ ((s.faultTaken_emit_partOf f code _ (show 0x0A < 256 by decide) f.b).trans hp) ?_
  rw [State.ctl, State.emit_steps]
  simpa [State.faultTaken, State.ctl] using hl

end

end Sys2Proof.Machine
end

section
/-! The settlement of O16. -/

open Sys2Proof Sys2Proof.Machine

/-- Settles O16: a listed code is taken as a fault of the Bench, whose word FM_FAULT holds, whose record sets out and whose vote is
cast; any other code is told apart at once. -/
theorem programFault : Obligations.ProgramFault := by
  unfold Obligations.ProgramFault
  intro s b code q unit pc mark listed vote
  let f : FaultAt := ⟨b, q, unit, ⟨(s.reg (K.IMEM b pc.toNat)).setWidth 10, pc, mark⟩⟩
  have hexec : exec (.programFault b code q unit pc mark) s = if listed then .next (s.faultCode f code) else .next s := by
    change execProgramFault b code q unit pc mark s = _
    unfold execProgramFault
    refine ite_congr ?_ (fun _ => rfl) fun _ => rfl
    simp only [listed, Bool.or_eq_true, Bool.and_eq_true, decide_eq_true_eq, beq_iff_eq, eq_iff_iff]
    tauto
  have hvote : codeVote code = vote := by
    refine ite_congr ?_ (fun _ => rfl) fun _ => rfl
    simp
  refine ⟨fun hno => by rw [hexec, if_neg hno], fun hl _ => ?_⟩
  have hcode : code < 256 := by simp only [listed] at hl; omega
  have hbench : (s.faultCode f code).bench b = Bench.faulted q vote (s.bench b) := hvote ▸ s.faultCode_bench f code
  have hword (g : Fld) : (s.faultCode f code).rf (K.FM_FAULT b) g = fld (faultWord (s.reg (K.FM_FAULT b)) f code) g.lo g.w :=
    congrArg (fld · g.lo g.w) (s.faultCode_faultWord f code)
  refine ⟨s.faultCode f code, by rw [hexec, if_pos hl], s.faultCode_mem f code, s.faultCode_marks f code, ?_, fun hq => ?_, ?_,
    fun h0 => ?_, fun h0 => ?_, s.faultCode_coming f code, fun p hp hlive => hvote ▸ s.faultCode_votes f code hp hlive⟩
  · rw [State.fm, hbench]; rfl
  · rw [hbench]
    exact faulted_stopped hq _ _
  · rw [State.fm, hbench]; rfl
  · obtain ⟨h1, h2, h3, h4, h5, h6⟩ := faultWord_first f h0 hcode
    exact ⟨(hword _).trans h1, (hword _).trans h2, (hword _).trans h3, (hword _).trans h4, (hword _).trans h5, (hword _).trans h6⟩
  · obtain ⟨h1, h2⟩ := faultWord_later f code h0
    exact ⟨(hword _).trans h1, (hword _).trans h2⟩

end

section
/-! SUPPORT. Where the fetch goes on: inside instruction memory, and outside it, where it faults (R276, R315, R322). -/

namespace Sys2Proof.Machine

/-- FM_FAULT is no register that a retiring instruction counts or traces in. -/
theorem State.OnlyForeman.fmFault {b : Bid} {s t : State} (h : s.OnlyForeman b t) :
    t.reg (K.FM_FAULT b) = s.reg (K.FM_FAULT b) := by
  obtain ⟨-, -, -, hreg⟩ := h
  refine hreg _ ?_
  simp only [retireRegs, K.FM_FAULT, K.BENCH_CTR, K.TRC_STAT, K.MK_CNT, List.mem_append, List.mem_cons, List.mem_map,
    List.not_mem_nil, or_false, not_or, not_exists, not_and]
  exact ⟨by omega, fun i _ => by omega⟩

/-- A Foreman that issues is RUNNING (R298). -/
theorem State.running_of_canIssue {s : State} {b : Bid} (h : s.canIssue b = true) : (s.fm b).st = .running := by
  simp only [State.canIssue, Bool.and_eq_true, beq_iff_eq] at h
  exact h.1.1.2

/-- A fault leaves the Foreman's registers. -/
theorem State.fault_s (s : State) (f : FaultAt) (c : FCode) : ((s.fault f c).fm f.b).s = (s.fm f.b).s := by
  rw [State.fault, State.fm, s.faultCode_bench]; rfl

/-- What a fetch outside instruction memory leaves of a state s with the Foreman's registers as in g: the Foreman FAULTED with
PC_RANGE, and memory as it was (R276). -/
def State.RangeFaulted (s : State) (b : Bid) (g : Foreman) (t : State) : Prop :=
  (t.fm b).st = .faulted ∧ (t.fm b).s = g.s ∧ t.mem = s.mem
    ∧ (s.rf (K.FM_FAULT b) F.FM_FAULT_CODE = 0 → t.rf (K.FM_FAULT b) F.FM_FAULT_CODE = 0x16)

theorem State.OnlyForeman.goto_outside {s u : State} {c : Fm} {target : Int} (h : s.OnlyForeman c.b u)
    (hrun : (u.fm c.b).st = .running) (ht : target < 0 ∨ 32768 ≤ target) :
    s.RangeFaulted c.b (u.fm c.b) (u.goto c target) := by
  let v := u.onFm c.b fun f => { f with pc := BitVec.ofInt 15 target }
  let f : FaultAt := ⟨c.b, 0, 0, { c.op with pc := BitVec.ofInt 15 target }⟩
  have hv : v.fm c.b = { u.fm c.b with pc := BitVec.ofInt 15 target } := u.onFm_fm_same c.b _
  have hgoto : u.goto c target = v.fault f .pcRange := by
    refine if_neg ?_
    rintro (⟨h0, h1⟩ | hst)
    · omega
    · exact hst ((congrArg Foreman.st hv).trans hrun)
  rw [hgoto]
  refine ⟨v.fault_st f _, (v.fault_s f _).trans (congrArg Foreman.s (u.onFm_fm_same c.b _) :), (v.faultCode_mem f _).trans h.mem, fun h0 => ?_⟩
  have hold : fld (v.reg (K.FM_FAULT c.b)) 0 8 = 0 := by
    refine Eq.trans ?_ h0
    exact congrArg (fld · 0 8) h.fmFault
  exact (congrArg (fld · 0 8) (v.faultCode_faultWord f _)).trans (faultWord_first f hold (by decide)).1

section
variable {s t : State} {h : Issue} {opcode : BitVec 10} {body : Fm → State → Disp} {target : Int} {i : Instr}

/-- A body that jumps with nothing but the Foreman changed: it has retired where the fetch goes on. -/
theorem issue_jump (hi : s.Issues h 1) (hb : body (s.fmCtx h opcode) s = .jump t target) (ht : s.OnlyForeman h.bench t) :
    ∃ u, issue h 1 opcode body s = .next (u.goto (s.fmCtx h opcode) target) ∧ u.fm h.bench = t.fm h.bench
      ∧ s.OnlyForeman h.bench u := by
  rw [issue_eq _ _ _ _ _ hi, hb]
  exact ⟨_, rfl, t.retired_fm (s.fmCtx h opcode) _ _, State.OnlyForeman.retired (c := s.fmCtx h opcode) ht _ _⟩

theorem retires_of_jump (he : exec i s = issue h 1 opcode body s) (hi : s.Issues h 1)
    (hb : body (s.fmCtx h opcode) s = .jump t target) (ht : s.OnlyForeman h.bench t) (h0 : 0 ≤ target) (h1 : target < 32768) :
    Retires i h s (t.fm h.bench) (BitVec.ofInt 15 target) := by
  obtain ⟨u, hu, hfm, honly⟩ := issue_jump hi hb ht
  rw [State.goto_inside _ _ _ h0 h1] at hu
  refine ⟨_, he.trans hu, ?_, honly.onFm _⟩
  exact (u.onFm_fm_same h.bench _).trans (by rw [hfm])

theorem rangeFaulted_of_jump (he : exec i s = issue h 1 opcode body s) (hi : s.Issues h 1)
    (hb : body (s.fmCtx h opcode) s = .jump t target) (ht : s.OnlyForeman h.bench t) (hst : (t.fm h.bench).st = (s.fm h.bench).st)
    (hout : target < 0 ∨ 32768 ≤ target) : ∃ u, exec i s = .next u ∧ s.RangeFaulted h.bench (t.fm h.bench) u := by
  obtain ⟨u, hu, hfm, honly⟩ := issue_jump hi hb ht
  refine ⟨_, he.trans hu, hfm ▸ honly.goto_outside (c := s.fmCtx h opcode) ?_ hout⟩
  exact (congrArg Foreman.st hfm).trans (hst.trans (State.running_of_canIssue hi.1))

/-- NOP at the last word of instruction memory goes on behind it, whatever its guard. -/
theorem nop_lastWord (hcan : s.canIssue h.bench = true) (hpc : (s.fm h.bench).pc = 32767) :
    ∃ u, exec (.nop h) s = .next (u.goto (s.fmCtx h (opcodeOf 0 0)) 32768) ∧ u.fm h.bench = s.fm h.bench
      ∧ s.OnlyForeman h.bench u := by
  have hafter : ((s.fm h.bench).pc.toNat : Int) + ((1 : Nat) : Int) = 32768 := by rw [hpc]; rfl
  have hretired (taken : Bool) (mark : BitVec 32) : (s.retired (s.fmCtx h (opcodeOf 0 0)) taken mark).fm h.bench = s.fm h.bench
      ∧ s.OnlyForeman h.bench (s.retired (s.fmCtx h (opcodeOf 0 0)) taken mark) :=
    ⟨s.retired_fm (s.fmCtx h (opcodeOf 0 0)) _ _, State.OnlyForeman.retired (c := s.fmCtx h (opcodeOf 0 0)) (.refl _ _) _ _⟩
  change ∃ u, issue h 1 (opcodeOf 0 0) (fun _ s => .done s) s = _ ∧ _
  unfold issue
  rw [if_neg (by simp [hcan])]
  dsimp only [State.fmCtx]
  rw [hafter, if_neg (by decide)]
  split
  · exact ⟨_, rfl, hretired _ _⟩
  · exact ⟨_, rfl, hretired _ _⟩

end

end Sys2Proof.Machine
end

section
/-! The settlement of O11. -/

open Sys2Proof Sys2Proof.Machine

/-- Settles O11: each form jumps to its target with the link written before it, and what lies outside instruction memory faults. -/
theorem branchTargets : Obligations.BranchTargets := by
  unfold Obligations.BranchTargets
  intro s h off ra f link target a code ranges
  let t := s.onFm h.bench fun x => x.setS 31 (BitVec.ofNat 64 (f.pc.toNat + 1))
  have ht : s.OnlyForeman h.bench t := (State.OnlyForeman.refl _ _).onFm _
  have htfm : t.fm h.bench = link := s.onFm_fm_same _ _
  have hst : (t.fm h.bench).st = (s.fm h.bench).st := (congrArg Foreman.st htfm :)
  have hs : s.OnlyForeman h.bench s := .refl _ _
  refine ⟨fun hi ha => ?_, fun _ hcan hpc => ?_⟩
  · have hjr : waitS [ra] (fun c s => .jump s (((s.fm c.b).getS ra).toNat : Int)) (s.fmCtx h (opcodeOf 0 0x22)) s
        = .jump s (a.toNat : Int) :=
      waitS_arrived s h _ [ra] _ fun r hr => ha r (List.mem_cons.mpr (.inl (List.mem_singleton.mp hr)))
    have hcall : waitS [31] (fun c s => .jump (s.link c) (branchTarget c.op.pc off)) (s.fmCtx h (opcodeOf 0 0x21)) s
        = .jump t target :=
      waitS_arrived s h _ [31] _ fun r hr => ha r (List.mem_cons_of_mem ra hr)
    have hcallr : waitS [ra, 31] (fun c s => .jump (s.link c) (((s.fm c.b).getS ra).toNat : Int)) (s.fmCtx h (opcodeOf 0 0x23)) s
        = .jump t (a.toNat : Int) :=
      waitS_arrived s h _ [ra, 31] _ ha
    rw [← htfm]
    refine ⟨?_, fun h0 h1 => ⟨?_, ?_⟩, fun h1 => ⟨?_, ?_⟩, fun _ ht' => ⟨?_, ?_⟩, fun _ ht' => ⟨?_, ?_⟩⟩
    · obtain ⟨u, hu, hfm, honly⟩ := issue_done h 1 (opcodeOf 0 0) (fun _ s => .done s) s s hi rfl
      exact ⟨u, hu, hfm, honly hs⟩
    · exact retires_of_jump (opcode := opcodeOf 0 0x20) (body := fun c s => .jump s (branchTarget c.op.pc off)) rfl hi rfl hs h0 h1
    · exact retires_of_jump rfl hi hcall ht h0 h1
    · exact retires_of_jump rfl hi hjr hs (by omega) (by omega)
    · exact retires_of_jump rfl hi hcallr ht (by omega) (by omega)
    · exact rangeFaulted_of_jump (opcode := opcodeOf 0 0x20) (body := fun c s => .jump s (branchTarget c.op.pc off)) rfl hi rfl hs rfl ht'
    · exact rangeFaulted_of_jump rfl hi hcall ht hst ht'
    · exact rangeFaulted_of_jump rfl hi hjr hs rfl (.inr (by omega))
    · exact rangeFaulted_of_jump rfl hi hcallr ht hst (.inr (by omega))
  · obtain ⟨u, hu, hfm, honly⟩ := nop_lastWord hcan hpc
    refine ⟨_, hu, ?_⟩
    have hfault := honly.goto_outside (c := s.fmCtx h (opcodeOf 0 0)) ((congrArg Foreman.st hfm).trans (State.running_of_canIssue hcan))
      (target := 32768) (.inr (by decide))
    rw [show u.fm (s.fmCtx h (opcodeOf 0 0)).b = f from hfm] at hfault
    exact hfault

end

section
/-! SUPPORT. The marker forms' issue, and the end of a drain (R296, R298). -/

namespace Sys2Proof.Machine

section
variable {s : State} {h : Issue} {n : Nat} {opcode : BitVec 10} {body : Fm → State → Disp} {i : Instr}

/-- A body that changes the Foreman alone and names the identifier of its trace entry (R549). -/
theorem retires_of_marked {f : Foreman → Foreman} {mark : BitVec 32} (he : exec i s = issue h n opcode body s) (hi : s.Issues h n)
    (hb : body (s.fmCtx h opcode) s = .marked (s.onFm h.bench f) mark) :
    Retires i h s (f (s.fm h.bench)) ((s.fm h.bench).pc + BitVec.ofNat 15 n) := by
  rw [issue_eq _ _ _ _ _ hi, hb] at he
  dsimp only at he
  rw [State.goto_behind hi] at he
  have hfm : ((s.onFm h.bench f).retired (s.fmCtx h opcode) true mark).fm h.bench = f (s.fm h.bench) :=
    ((s.onFm h.bench f).retired_fm (s.fmCtx h opcode) _ _).trans (s.onFm_fm_same _ _)
  refine ⟨_, he, ?_, (State.OnlyForeman.retired (c := s.fmCtx h opcode) ((State.OnlyForeman.refl _ _).onFm f) _ _).onFm _⟩
  rw [State.onFm_fm_same, hfm]

/-- A body that changes nothing. -/
theorem retires_of_done (he : exec i s = issue h n opcode body s) (hi : s.Issues h n) (hb : body (s.fmCtx h opcode) s = .done s) :
    Retires i h s (s.fm h.bench) ((s.fm h.bench).pc + BitVec.ofNat 15 n) := by
  obtain ⟨u, hu, hfm, honly⟩ := issue_done _ _ _ _ _ _ hi hb
  exact ⟨u, he.trans hu, hfm, honly (.refl _ _)⟩

end

/-- A drained Foreman enters STOPPED, and ENDED says whether END brought it there. -/
theorem foremanDrainComplete_stops {s : State} {b : Bid} (hst : (s.fm b).st = .draining) (hidle : (s.bench b).idle = true) :
    ∃ t, exec (.foremanDrainComplete b) s = .next t ∧ t.fm b = { s.fm b with st := .stopped, ending := false }
      ∧ t.rb (K.FM_STAT b) F.FM_STAT_ENDED = (s.fm b).ending ∧ t.mem = s.mem := by
  let u := (s.onFm b fun x => { x with st := .stopped, ending := false }).setRb (K.FM_STAT b) F.FM_STAT_ENDED (s.fm b).ending
  obtain ⟨hmem, hbenches, hreg⟩ := State.barsRest_leaves (s := u) (b := b)
  refine ⟨u.barsRest b, if_pos ⟨hst, hidle⟩, ?_, ?_, hmem.trans (State.setRb_mem _ _ _ _)⟩
  · rw [State.fm, State.bench, hbenches]
    exact (congrArg (fun x : Vector Bench 16 => x[b].fm) (State.setRb_benches _ _ _ _)).trans (s.onFm_fm_same b _)
  · have hstat : (u.barsRest b).reg (K.FM_STAT b) = u.reg (K.FM_STAT b) :=
      hreg _ fun p => by simp only [K.BAR_GEN, K.FM_STAT]; omega
    rw [State.rb, State.rf, hstat]
    exact State.rb_setRb_same _ (K.FM_STAT b) F.FM_STAT_ENDED _ (by decide) (by decide)

end Sys2Proof.Machine
end

section
/-! The settlement of O12. -/

open Sys2Proof Sys2Proof.Machine

/-- Settles O12: END and the marker forms change their Foreman alone, and a drained Foreman stops. -/
theorem endAndMarkers : Obligations.EndAndMarkers := by
  unfold Obligations.EndAndMarkers
  refine ⟨fun s h hi => ?_, fun s b _ hst hidle => foremanDrainComplete_stops hst hidle, fun s h id hi => ?_⟩
  · exact issue_onFm h 1 (opcodeOf 0 0x24) (fun c s => .done (s.onFm c.b fun x => { x with st := .draining, ending := true })) s
      (fun x => { x with st := .draining, ending := true }) hi rfl
  intro f job
  have hi1 : s.Issues h 1 := ⟨hi.1, hi.2.1, by have := hi.2.2; omega⟩
  refine ⟨fun hjob hlen => ?_, fun hjob hne => ?_, fun hjob => ⟨?_, ?_⟩⟩
  · refine retires_of_marked (f := fun x => { x with marks := id :: x.marks }) (mark := id) (Eq.refl (execMarkBegin h id s)) hi ?_
    exact (if_neg (by simpa [State.fmCtx] using hjob)).trans (if_neg (Nat.not_le.mpr hlen))
  · refine retires_of_marked (f := fun x => { x with marks := x.marks.tail }) (mark := f.marks.headD 0) (Eq.refl (execMarkEnd h s)) hi1 ?_
    exact (if_neg (by simpa [State.fmCtx] using hjob)).trans (if_neg (by simpa [State.fmCtx] using hne))
  · exact retires_of_done (Eq.refl (execMarkBegin h id s)) hi (if_pos (by simpa [State.fmCtx] using hjob))
  · exact retires_of_done (Eq.refl (execMarkEnd h s)) hi1 (if_pos (by simpa [State.fmCtx] using hjob))

end

section
/-! SUPPORT. Instruction memory in the register map, and what a write to it leaves (R299, R308, R476). -/

namespace Sys2Proof.Machine

/-! ## The family IMEM -/

/-- A key that a family of the map holds has a register. -/
theorem regAt_isSome {l : List RegRow} {k : Nat} {r : RegRow} {is : List Nat} (hr : r ∈ l) (hle : r.base ≤ k)
    (hidx : idxOf r.idx (k - r.base) = some is) : ∃ x, regAt l k = some x := by
  induction l with
  | nil => cases hr
  | cons q l ih =>
    rw [regAt]
    rcases List.mem_cons.mp hr with rfl | hr
    · rw [if_pos hle, hidx]
      exact ⟨_, rfl⟩
    · split
      · split
        · exact ⟨_, rfl⟩
        · exact ih hr
      · exact ih hr

theorem imem_row : ∃ r ∈ regMap, r.base = K.IMEM 0 0 ∧ r.idx = [(0x1000000, 16), (8, 32768)] := by
  have h : (regMap.any fun r => r.base == K.IMEM 0 0 && r.idx == [(0x1000000, 16), (8, 32768)]) = true := by decide +kernel
  obtain ⟨r, hr, hx⟩ := List.any_eq_true.mp h
  simp only [Bool.and_eq_true, beq_iff_eq] at hx
  exact ⟨r, hr, hx⟩

/-- Every word of instruction memory is a register of the map. -/
theorem regAt_imem (b : Bid) {n : Nat} (hn : n < 32768) : ∃ x, regAt regMap (K.IMEM b n) = some x := by
  obtain ⟨r, hr, hbase, hidx⟩ := imem_row
  have hb := b.isLt
  have hoff : K.IMEM b n - r.base = b.val * 0x1000000 + n * 8 := by rw [hbase]; simp only [K.IMEM]; omega
  refine regAt_isSome (is := [b.val, n]) hr (by rw [hbase]; simp only [K.IMEM]; omega) ?_
  have h1 : (b.val * 0x1000000 + n * 8) / 0x1000000 = b.val := by omega
  have h2 : (b.val * 0x1000000 + n * 8) % 0x1000000 = n * 8 := by omega
  have h3 : n * 8 / 8 = n := by omega
  have h4 : n * 8 % 8 = 0 := by omega
  simp only [hoff, hidx, idxOf, h1, h2, h3, h4, hb, hn, if_true, Option.map_some]

/-- Whether a family of registers is IMEM, or lies outside instruction memory. -/
def RegRow.besideImem (r : RegRow) : Bool :=
  r.base == K.IMEM 0 0 || hubKey ≤ r.base
    || (r.idx.all (fun e => e.1 % 8 == 0) && r.idx.head? == some (0x1000000, 16)
      && (r.base + idxExtent r.idx.tail < 0x400000 || (0x440000 ≤ r.base && r.base + idxExtent r.idx.tail < 0x1400000)))

theorem rows_besideImem : ∀ r ∈ regMap, r.besideImem = true := by
  have h : (regMap.all RegRow.besideImem) = true := by decide +kernel
  exact List.all_eq_true.mp h

/-- A word of instruction memory is of the family IMEM. -/
theorem base_of_regAt_imem {b : Bid} {n : Nat} (hn : n < 32768) {r : RegRow} {is : List Nat}
    (h : regAt regMap (K.IMEM b n) = some (r, is)) : r.base = K.IMEM 0 0 := by
  obtain ⟨hr, hle, hidx⟩ := regAt_mem h
  have hbeside := rows_besideImem r hr
  simp only [RegRow.besideImem, Bool.or_eq_true, Bool.and_eq_true, beq_iff_eq, decide_eq_true_eq, List.all_eq_true] at hbeside
  obtain (hz | hhub) | ⟨⟨h8, hhead⟩, hout⟩ := hbeside
  · exact hz
  · exact absurd (hhub.trans hle) (Nat.not_le.mpr (imem_lt_hub b hn))
  · exact (RegRow.not_idxOf_imem hn h8 hhead hout (K.IMEM_eq b n ▸ hle) (K.IMEM_eq b n ▸ hidx)).elim

/-- No field of an instruction word shows the machine's state. -/
theorem State.liveBench_imem (s : State) (b : Bid) (i : Nat) : s.liveBench b (K.IMEM 0 0) i = [] := by
  simp [State.liveBench, K.IMEM, K.FM_STAT, K.MARK_STAT, K.HAUL_CTL, K.HAUL_STAT, K.CUT_CTL, K.CUT_STAT, K.DRS_CTL, K.DRS_STAT,
    K.WDG_CTL, K.WDG_STAT, K.VTAB_VALID, K.SCR_CTL, K.SCR_STAT, K.STK_STATUS, K.WGH_STAT, K.ERR_BSTAT]

/-- At reset every register reads its reset value. -/
theorem State.reset_reg (k : Nat) : State.reset.reg k = regReset k := by
  rw [State.reg, State.reset, tget]

/-- A word of instruction memory reads as its register holds (R308). -/
theorem State.view_imem (s : State) (b : Bid) {n : Nat} (hn : n < 32768) : s.view (K.IMEM b n) = s.reg (K.IMEM b n) := by
  obtain ⟨⟨r, is⟩, hat⟩ := regAt_imem b hn
  rw [State.view, hat]
  dsimp only
  rw [base_of_regAt_imem hn hat, if_pos (by decide), State.liveBench_imem]
  rfl

/-! ## A write to instruction memory (R299) -/

/-- An instruction word written leaves all but the word, or all but IMEM_REFUSED. -/
theorem State.writeImem_apart (s : State) (b : Bid) (w : Nat) (v : Word) :
    (s.writeImem b w v).apart = s.apart ∧ (s.writeImem b w v).benches = s.benches := by
  by_cases h : (s.fm b).st = .stopped
  · rw [State.writeImem_stopped h]
    exact ⟨s.setReg_apart _ _, s.setReg_benches _ _⟩
  · rw [State.writeImem_refused h]
    exact ⟨s.setReg_apart _ _, s.setReg_benches _ _⟩

end Sys2Proof.Machine
end

section
/-! The settlement of O56. -/

open Sys2Proof Sys2Proof.Machine

/-- Settles O56: instruction memory reads as its registers hold, and takes a write while its Foreman is STOPPED. -/
theorem instructionMemory : Obligations.InstructionMemory := by
  unfold Obligations.InstructionMemory
  intro s b n v _ k
  have hn : n.toNat < 32768 := n.isLt
  refine ⟨by simp only [k, K.IMEM]; omega, (State.reset.view_imem b hn).trans ((State.reset_reg _).trans (regReset_imem b hn)), s.view_imem b hn,
    fun hstop => ?_, fun hrun => ?_⟩
  · refine ⟨_, congrArg Host.Outcome.next (State.cross_imem hstop hn v _), rfl, rfl, s.onBench_bench_same _ _⟩
  · obtain ⟨hapart, hbenches⟩ := s.writeImem_apart b n.toNat v
    refine ⟨_, congrArg Host.Outcome.next (State.cross_running hrun _ _ _), hapart, hbenches, fun hst => ?_, fun hst => ?_⟩
    · rw [State.writeImem_stopped hst]
      refine ⟨?_, fun j hj => s.setReg_other _ _ _ hj.symm⟩
      rw [State.view_imem _ b hn, State.reg_setReg, if_pos rfl]
    · rw [State.writeImem_refused hst]
      exact ⟨State.rb_setRb_same _ _ _ _ (by decide) (by decide), fun j hj => s.setReg_other _ _ _ hj.symm⟩

end

section
/-! SUPPORT. Foreman accesses that fault as they are dispatched, and the retirement of a false guard (R275, R281, R320, R321). -/

namespace Sys2Proof.Machine

section
variable {s : State} {h : Issue} {n : Nat} {opcode : BitVec 10} {body : Fm → State → Disp} {i : Instr}

/-- An instruction whose guard is false retires without effect (R275). -/
theorem retires_of_guardFalse (he : exec i s = issue h n opcode body s) (hcan : s.canIssue h.bench = true)
    (hguard : (s.fm h.bench).guard h = false) (hpc : (s.fm h.bench).pc.toNat + n < 32768) :
    Retires i h s (s.fm h.bench) ((s.fm h.bench).pc + BitVec.ofNat 15 n) := by
  let c := s.fmCtx h opcode
  have hissue : issue h n opcode body s = .next ((s.retired c false c.op.mark).goto c (((s.fm h.bench).pc.toNat : Int) + n)) := by
    unfold issue
    rw [if_neg (by simp [hcan])]
    dsimp only [State.fmCtx, c]
    rw [if_neg (by omega), if_pos (by simp [hguard])]
  rw [State.goto_inside _ _ _ (by omega) (by omega), pc_behind] at hissue
  have hfm : (s.retired c false c.op.mark).fm h.bench = s.fm h.bench := s.retired_fm c _ _
  refine ⟨_, he.trans hissue, ((s.retired c false c.op.mark).onFm_fm_same h.bench _).trans ?_,
    (State.OnlyForeman.retired (c := c) (.refl _ _) _ _).onFm _⟩
  rw [hfm]

end

section
variable {s : State} {h : Issue} {ra r : BitVec 5} {td : BitVec 4} {fe : BitVec 2} {off : BitVec 37} {A : Nat} {c : FCode}

theorem ld_faults (hi : s.Issues h 1) (ha : s.Arrived h.bench [ra, r]) (hfe : fe ≠ 3)
    (hc : fm8 .ld r (s.sreg h ra + off.signExtend 64).toNat fe 0 (s.fmCtx h (opcodeOf 0 0x18)) s = .fault c) :
    exec (.ld h r ra fe off) s = .next (s.fault (s.fmCtx h (opcodeOf 0 0x18)).at_ c) := by
  refine issue_fault hi ?_
  rw [valid_ok (by simpa using hfe), waitS_arrived _ _ _ _ _ ha]
  exact hc

theorem st_faults (hi : s.Issues h 1) (ha : s.Arrived h.bench [ra, r]) (hfe : fe ≠ 3)
    (hc : fm8 .st r (s.sreg h ra + off.signExtend 64).toNat fe (s.sreg h r) (s.fmCtx h (opcodeOf 0 0x19)) s = .fault c) :
    exec (.st h r ra fe off) s = .next (s.fault (s.fmCtx h (opcodeOf 0 0x19)).at_ c) := by
  refine issue_fault hi ?_
  rw [valid_ok (by simpa using hfe), waitS_arrived _ _ _ _ _ ha]
  exact hc

theorem tld_faults (hi : s.Issues h 1) (ha : s.Arrived h.bench [ra]) (hat : s.ArrivedT h.bench [td]) (hfe : fe ≠ 3)
    (hc : fm64 .tld td (s.sreg h ra + off.signExtend 64).toNat fe 0 (s.fmCtx h (opcodeOf 0 0x1A)) s = .fault c) :
    exec (.tld h td ra fe off) s = .next (s.fault (s.fmCtx h (opcodeOf 0 0x1A)).at_ c) := by
  refine issue_fault hi ?_
  rw [valid_ok (by simpa using hfe), waitT_arrived _ _ _ _ _ hat, waitS_arrived _ _ _ _ _ ha]
  exact hc

theorem tst_faults (hi : s.Issues h 1) (ha : s.Arrived h.bench [ra]) (hat : s.ArrivedT h.bench [td]) (hfe : fe ≠ 3)
    (hc : fm64 .tst td (s.sreg h ra + off.signExtend 64).toNat fe ((s.fm h.bench).getT td) (s.fmCtx h (opcodeOf 0 0x1B)) s
      = .fault c) :
    exec (.tst h td ra fe off) s = .next (s.fault (s.fmCtx h (opcodeOf 0 0x1B)).at_ c) := by
  refine issue_fault hi ?_
  rw [valid_ok (by simpa using hfe), waitT_arrived _ _ _ _ _ hat, waitS_arrived _ _ _ _ _ ha]
  exact hc

/-- An address outside the windows that is no control block's is no address of an access (R558). -/
theorem fm8_unmapped {opcode : BitVec 10} (op : FmOp) (v : Word) (hal : A % 8 = 0) (hk : ctrlKey A = none)
    (hw : s.inWindow ((s.partOf h.bench).getD 0) A = false) :
    fm8 op r A fe v (s.fmCtx h opcode) s = .fault .addrUnmapped := by
  rw [fm8, if_neg (fun hne => hne hal), hk]
  exact if_neg (by rw [show (s.fmCtx h opcode).part = (s.partOf h.bench).getD 0 from rfl, hw]; simp)

theorem fm64_unmapped {opcode : BitVec 10} (op : FmOp) (v : Desc) (hal : A % 64 = 0)
    (hw : s.inWindow ((s.partOf h.bench).getD 0) A = false) :
    fm64 op td A fe v (s.fmCtx h opcode) s = .fault .addrUnmapped := by
  rw [fm64, if_neg (fun hne => hne hal)]
  exact if_neg (by rw [show (s.fmCtx h opcode).part = (s.partOf h.bench).getD 0 from rfl, hw]; simp)

end

end Sys2Proof.Machine
end

section
/-! The settlement of O15. -/

open Sys2Proof Sys2Proof.Machine

/-- Settles O15: alignment is checked before the windows, both before any word is touched, and FE before either. -/
theorem accessFaults : Obligations.AccessFaults := by
  unfold Obligations.AccessFaults
  intro s h r ra td fe off A faults
  refine ⟨fun hi ha hat hfe => ?_, fun hi => ?_, fun hcan hguard hpc => ?_⟩
  · have ha1 : s.Arrived h.bench [ra] := fun x hx => ha x (List.mem_cons.mpr (.inl (List.mem_singleton.mp hx)))
    refine ⟨fun hal => ⟨?_, ?_⟩, fun hal => ⟨?_, ?_⟩, fun hal hw hk => ?_⟩
    · exact ld_faults hi ha hfe (if_pos hal)
    · exact st_faults hi ha hfe (if_pos hal)
    · exact tld_faults hi ha1 hat hfe (if_pos hal)
    · exact tst_faults hi ha1 hat hfe (if_pos hal)
    · have hal8 : A % 8 = 0 := by omega
      exact ⟨ld_faults hi ha hfe (fm8_unmapped _ _ hal8 hk hw), st_faults hi ha hfe (fm8_unmapped _ _ hal8 hk hw),
        tld_faults hi ha1 hat hfe (fm64_unmapped _ _ hal hw), tst_faults hi ha1 hat hfe (fm64_unmapped _ _ hal hw)⟩
  · exact ⟨(issue_fault hi rfl : execLd h r ra 3 off s = _), (issue_fault hi rfl : execSt h r ra 3 off s = _),
      (issue_fault hi rfl : execTld h td ra 3 off s = _), (issue_fault hi rfl : execTst h td ra 3 off s = _)⟩
  · exact ⟨retires_of_guardFalse (Eq.refl (execLd h r ra 3 off s)) hcan hguard hpc,
      retires_of_guardFalse (Eq.refl (execSt h r ra 3 off s)) hcan hguard hpc,
      retires_of_guardFalse (Eq.refl (execTld h td ra 3 off s)) hcan hguard hpc,
      retires_of_guardFalse (Eq.refl (execTst h td ra 3 off s)) hcan hguard hpc⟩

end

section
/-! SUPPORT. The field checks of CUT.MM and DRS.MM, and CUT.MM's dispatch (R86, R273, R310, R311). -/

namespace Sys2Proof.Machine

theorem mmFieldsOk_of_cutMm {h : Issue} {f : MMFields} (hw : (Instr.cutMm h f).wellFormed = true) : mmFieldsOk false f = true := by
  simp only [Instr.wellFormed, mmOk, Bool.and_eq_true] at hw
  obtain ⟨⟨⟨⟨hdc, -⟩, -⟩, hpasses⟩, hspl⟩ := hw
  rw [mmFieldsOk, hdc, hpasses, hspl]; rfl

theorem mmFieldsOk_of_drsMm {h : Issue} {f : MMFields} (hw : (Instr.drsMm h f).wellFormed = true) : mmFieldsOk true f = true := by
  simp only [Instr.wellFormed, mmOk, Bool.and_eq_true] at hw
  obtain ⟨⟨hdc, -⟩, -⟩ := hw
  rw [mmFieldsOk, hdc]; rfl

/-- HAUL.ST without a remote destination (R311, R331). -/
theorem exec_haulSt_local (h : Issue) (sel da db : BitVec 4) (perm : BitVec 15) (s : State) :
    exec (.haulSt h sel da db 0 0 perm) s
      = issue h 1 (opcodeOf 1 2) (dispatch 1 (.haul .st 0 0 perm) sel.toNat [da, db] []) s := rfl

/-- HAUL.ST with a remote destination captures its base (R331). -/
theorem exec_haulSt_remote (h : Issue) (sel da db : BitVec 4) {remote : BitVec 2} (ra : BitVec 5) (perm : BitVec 15) (s : State)
    (hr : remote ≠ 0) : exec (.haulSt h sel da db remote ra perm) s
      = issue h 1 (opcodeOf 1 2) (dispatch 1 (.haul .st 0 remote perm) sel.toNat [da, db] [ra]) s := by
  have hx : exec (.haulSt h sel da db remote ra perm) s = execHaulSt h sel da db remote ra perm s := rfl
  rw [hx, execHaulSt, issueIf_ok (by rw [bne_iff_ne.mpr hr, Bool.true_or]), if_neg hr]

/-- With no mode switch in progress CUT.MM enters its queue (R86). -/
theorem cutMm_dispatches {s : State} {h : Issue} {f : MMFields} (hd : s.Dispatchable h 1 2 (mmRegs f) [f.ra, f.rb])
    (hw : (Instr.cutMm h f).wellFormed = true) (hsw : s.rb (K.CUT_CTL h.bench) F.CUT_CTL_SWITCHING = false) :
    Dispatches (.cutMm h f) h 1 (opcodeOf 2 1) 2 (.mm false f) f.usel.toNat (mmRegs f) [f.ra, f.rb] s := by
  have hx : exec (.cutMm h f) s = execCutMm h f s := rfl
  rw [execCutMm, issueIf_ok (mmFieldsOk_of_cutMm hw)] at hx
  refine dispatchesAt_of_done hd.1 hx ?_ (fun _ => rfl) (fun _ => rfl) (State.enqueued_apart ..)
  exact (if_neg (by simp [State.fmCtx, hsw])).trans (dispatch_eq _ _ _ _ _ _ _ _ _ hd)

end Sys2Proof.Machine
end

section
/-! The settlement of O18. -/

open Sys2Proof Sys2Proof.Machine

/-- Settles O18: each form's body is a dispatch, behind the field checks that its operands pass. -/
theorem enginesDispatch : Obligations.EnginesDispatch := by
  unfold Obligations.EnginesDispatch
  intro s h sel da db dc dd gd axis ra rb perm tid noise f c r
  refine ⟨?haul, ?haulRemote, ?haulIndexed, ?cut, ?drs, ?cvt, ?rot, ?red, ?sparse, ?push, ?pop⟩
  case haul => exact fun hd => ⟨dispatches_of_dispatch rfl hd, dispatches_of_dispatch (exec_haulSt_local h sel da db perm s) hd⟩
  case haulRemote =>
    intro hd remote hr
    exact dispatches_of_dispatch (exec_haulSt_remote h sel da db ra perm s hr) hd
  case haulIndexed => exact fun hd => ⟨dispatches_of_dispatch rfl hd, dispatches_of_dispatch rfl hd⟩
  case cut => exact cutMm_dispatches
  case drs => exact fun hd hw => dispatches_of_dispatch (issueIf_ok (mmFieldsOk_of_drsMm hw)) hd
  case cvt => exact dispatches_of_dispatch rfl
  case rot => exact dispatches_of_dispatch rfl
  case red => exact dispatches_of_dispatch rfl
  case sparse => exact dispatches_of_dispatch rfl
  case push => exact dispatches_of_dispatch rfl
  case pop => exact dispatches_of_dispatch rfl

end

section
/-! SUPPORT. A Foreman whose instruction memory a counter of the cycle writes, as the refutation starts from (R308, R544). -/

namespace Sys2Proof.Machine

/-- Foreman 0 runs with empty instruction memory, and its Bench has an instruction of queue HAUL in progress on a unit of number
425,902, whose counter of BUSY cycles has the key of word 0 of IMEM. -/
def strayCounter : State :=
  (atWork.onFm 0 (Foreman.runningWith 0)).onBench 0 fun x =>
    { x with run := [⟨State.reset.newEntry (State.reset.fmCtx ⟨0, 0, false⟩ 0) .pop 0 [] [], 1, 425902, false, [], [], [], [],
        true, [], [], none, false⟩] }

theorem strayCounter_key : K.BENCH_CTR 0 (82 + 425902) = K.IMEM 0 0 := by decide

/-- It issues, and fetches NOP at word 0. -/
theorem strayCounter_fetches : strayCounter.pending = [] ∧ strayCounter.turn = 0 ∧ strayCounter.canIssue 0 = true
    ∧ strayCounter.rb (K.CLK_BENCH 0) F.CLK_BENCH_STOPPED = false ∧ (strayCounter.fm 0).st = .running ∧ (strayCounter.fm 0).pc = 0
    ∧ decodeInstr 0 (strayCounter.fetched 0).1 (strayCounter.fetched 0).2 = some (.nop ⟨0, 0, false⟩) := by
  decide +kernel

/-- The Foreman's state after a step. -/
def stAfter (b : Bid) : Out → Option FmState
  | .next t => some (t.fm b).st
  | _ => none

/-- Its tick has counted in word 0 of IMEM, which then holds no instruction. -/
theorem strayCounter_faults : stAfter 0 (step strayCounter) = some .faulted := by decide +kernel

/-- NOP leaves a RUNNING Foreman at word 0 RUNNING, whether it issues or not. -/
theorem nop_runs {s : State} (hst : (s.fm 0).st = .running) (hpc : (s.fm 0).pc = 0) :
    stAfter 0 (exec (.nop ⟨0, 0, false⟩) s) = some .running := by
  by_cases hcan : s.canIssue 0 = true
  · have hpc0 : (s.fm 0).pc.toNat + 1 < 32768 := by rw [hpc]; decide
    obtain ⟨t, ht, hfm, -⟩ : Retires (.nop ⟨0, 0, false⟩) ⟨0, 0, false⟩ s (s.fm 0) ((s.fm 0).pc + 1) := by
      cases hguard : (s.fm 0).guard ⟨0, 0, false⟩ with
      | true => exact retires_of_done (Eq.refl (execNop ⟨0, 0, false⟩ s)) ⟨hcan, hguard, hpc0⟩ rfl
      | false => exact retires_of_guardFalse (Eq.refl (execNop ⟨0, 0, false⟩ s)) hcan hguard hpc0
    rw [ht]
    exact congrArg some ((congrArg Foreman.st hfm).trans hst)
  · have hstays : exec (.nop ⟨0, 0, false⟩) s = .next s := if_pos (by simp [hcan])
    rw [hstays]
    exact congrArg some hst

end Sys2Proof.Machine
end

section
/-! The settlement of O17. -/

open Sys2Proof Sys2Proof.Machine

/-- Refutes O17: it speaks of every state, and in one whose instruction in progress names unit 425,902 the cycle's BUSY counter of that
unit is word 0 of IMEM. The word fetched before the tick is NOP, but the tick has counted in it before the Foreman fetches, and
INSTR_INVALID is taken. -/
theorem not_tickIssues : ¬ Obligations.TickIssues := by
  unfold Obligations.TickIssues
  intro h
  obtain ⟨hpend, hturn, hcan, hclk, hst, hpc, hdec⟩ := strayCounter_fetches
  obtain ⟨s1, hfm, -, -, -, -, -, hexec, -, -⟩ := h strayCounter hpend (by rwa [hturn]) (by rwa [hturn])
  rw [hturn] at hfm hexec
  have hruns := nop_runs (s := s1) (by rw [hfm, hst]) (by rw [hfm, hpc])
  rw [← hexec _ hdec, strayCounter_faults] at hruns
  exact absurd hruns (by decide)

end

section
/-! SUPPORT. Gates placed, fences and signals buffered (R279, R282-R285, R289). -/

namespace Sys2Proof.Machine

/-! ## Gates (R284) -/

/-- A queue after an item went to the end of each of some queues. -/
theorem foldl_append_getElem {x : QItem} {l : List (Fin 8)} (hl : l.Nodup) (v : Vector (List QItem) 8) (j : Fin 8) :
    (l.foldl (fun (q : Vector (List QItem) 8) (i : Fin 8) => q.set i (q[i] ++ [x])) v)[j]
      = v[j] ++ (if j ∈ l then [x] else []) := by
  induction l generalizing v with
  | nil => simp
  | cons i l ih =>
    obtain ⟨hi, hnodup⟩ := List.nodup_cons.mp hl
    rw [List.foldl_cons, ih hnodup]
    by_cases hj : j = i
    · subst hj
      simp [hi]
    · have hne : i.val ≠ j.val := fun h => hj (Fin.ext h.symm)
      simp [hj, Vector.getElem_set_ne _ _ hne]

theorem mem_maskQueues {gate : BitVec 8} {q : Fin 8} : q ∈ maskQueues gate ↔ q ≠ 0 ∧ gate.getLsbD q.val = true := by
  simp [maskQueues]

theorem nodup_maskQueues (gate : BitVec 8) : (maskQueues gate).Nodup := (List.nodup_finRange 8).filter _

section
variable (s : State) (c : Fm) (kind : GateKind) (gate : BitVec 8) (rd : BitVec 5)

theorem State.placeGate_fm : (s.placeGate c kind gate rd).fm c.b = { s.fm c.b with
    nextId := (s.fm c.b).nextId + 1
    gates := (s.fm c.b).gates ++ [⟨(s.fm c.b).nextId, kind, gate.getLsbD 0, rd, c.op.pc, c.op.mark⟩] } :=
  congrArg Bench.fm (s.onBench_bench_same c.b _)

theorem State.placeGate_queue (q : Fin 8) : (s.placeGate c kind gate rd).queue c.b q
    = s.queue c.b q ++ (if q ≠ 0 ∧ gate.getLsbD q.val = true then [.gate (s.fm c.b).nextId] else []) := by
  refine (congrArg (fun x : Bench => x.q[q]) (s.onBench_bench_same c.b _)).trans ?_
  refine (foldl_append_getElem (nodup_maskQueues gate) (s.bench c.b).q q).trans ?_
  simp only [mem_maskQueues]
  rfl

end

/-- Gates placed with the Foreman's gates and queues as before are so in every state with the same gates and queues. -/
theorem GatePlaced.of_placeGate {s s' u : State} {h : Issue} {opcode : BitVec 10} {kind : GateKind} {gate : BitVec 8} {rd : BitVec 5}
    (hgates : (s'.fm h.bench).gates = (s.fm h.bench).gates) (hqueue : ∀ q, s'.queue h.bench q = s.queue h.bench q)
    (hu : (u.fm h.bench).gates = ((s'.placeGate (s.fmCtx h opcode) kind gate rd).fm h.bench).gates)
    (huq : ∀ q, u.queue h.bench q = (s'.placeGate (s.fmCtx h opcode) kind gate rd).queue h.bench q) :
    GatePlaced s u h kind gate rd := by
  refine ⟨(s'.fm h.bench).nextId, ?_, fun q => ?_⟩
  · rw [hu, ← hgates]
    exact congrArg Foreman.gates (s'.placeGate_fm (s.fmCtx h opcode) kind gate rd)
  · rw [huq, ← hqueue]
    exact s'.placeGate_queue (s.fmCtx h opcode) kind gate rd q

/-! ## SYNC.FENCE (R285) -/

section
variable {s : State} {h : Issue} {cover gate : BitVec 8}

/-- The state with one fence more (R285). -/
def State.fenced (s : State) (c : Fm) (cover : BitVec 8) : State :=
  s.onFm c.b fun x => { x with
    nextId := (s.fm c.b).nextId + 1
    ninth := none
    fences := x.fences ++ [⟨(s.fm c.b).nextId, (s.bench c.b).covered cover, c.op.pc, c.op.mark⟩] }

theorem syncFence_ninth (hi : s.Issues h 1) (hw : (s.fm h.bench).ninthWaits = true) : exec (.syncFence h cover gate) s = .next s := by
  change execSyncFence h cover gate s = _
  rw [execSyncFence]
  dsimp only
  rw [if_neg (by simp [hw])]
  exact issue_stall hi (if_pos (by simp [State.fmCtx, hw]))

theorem syncFence_full (hi : s.Issues h 1) (hw : (s.fm h.bench).ninthWaits = false) (h8 : 8 ≤ (s.fm h.bench).fences.length) :
    exec (.syncFence h cover gate) s = .next (s.onFm h.bench fun x => { x with ninth := (s.fm h.bench).fenceIds.head? }) := by
  obtain ⟨hcan, hguard, -⟩ := hi
  exact if_pos (by simp [hcan, hguard, hw, h8])

/-- A fence that finds room is outstanding, with its gates placed. -/
theorem syncFence_enters (hi : s.Issues h 1) (hroom : s.gateRoom h.bench gate = true) (hw : (s.fm h.bench).ninthWaits = false)
    (h8 : (s.fm h.bench).fences.length < 8) :
    let c := s.fmCtx h (opcodeOf 8 1)
    let t := if gate = 0 then s.fenced c cover else (s.fenced c cover).placeGate c (.fence (s.fm h.bench).nextId) gate 0
    ∃ u, exec (.syncFence h cover gate) s = .next u ∧ u.fm h.bench = { t.fm h.bench with pc := (s.fm h.bench).pc + 1 }
      ∧ t.OnlyForeman h.bench u := by
  intro c t
  have hx : exec (.syncFence h cover gate) s = execSyncFence h cover gate s := rfl
  rw [execSyncFence] at hx
  dsimp only at hx
  have hlt : decide (8 ≤ (s.fm h.bench).fences.length) = false := decide_eq_false (Nat.not_le.mpr h8)
  rw [if_neg (by rw [hlt, Bool.and_false]; exact Bool.false_ne_true)] at hx
  rw [hx]
  refine issue_later (n := 1) hi (if_neg ?_)
  simp [State.fmCtx, hw, hroom]
  exact hlt

end

/-! ## SYNC.SIG and SYNC.WAIT (R282-R284) -/

section
variable {s : State} {h : Issue} {opcode : BitVec 10} {ra rb rd : BitVec 5}

/-- A signal that finds room enters the buffer, behind the outstanding fences. -/
theorem retires_of_signalOp {i : Instr} (mode : BitVec 2) (hx : exec i s = issue h 1 opcode (signalOp mode ra rb) s)
    (hi : s.Issues h 1) (ha : s.Arrived h.bench [ra, rb]) (hp : s.SigPlace ((s.partOf h.bench).getD 0) (s.sreg h ra))
    (h8 : (s.fm h.bench).sigs.length < 8) :
    let f := s.fm h.bench
    Retires i h s { f with
      sigs := f.sigs ++ [⟨.sig mode (s.sreg h ra).toNat
        (signalImage (s.sreg h rb) (s.rf (K.STEP_STATE h.bench) F.STEP_STATE_STEP) h.bench.val), (s.partOf h.bench).getD 0, f.fenceIds,
          f.pc, s.markOf h.bench⟩] } (f.pc + 1) := by
  intro f
  have hb : signalOp mode ra rb (s.fmCtx h opcode) s = .done (s.pushSig (s.fmCtx h opcode) (.sig mode (s.sreg h ra).toNat
      (signalImage (s.sreg h rb) (s.rf (K.STEP_STATE h.bench) F.STEP_STATE_STEP) h.bench.val))) := by
    have haddr := hp.sigAddr
    rw [State.sreg] at haddr
    rw [signalOp, waitS_arrived _ _ _ _ _ ha]
    simp only [State.fmCtx]
    rw [haddr]
    exact if_neg (Nat.not_le.mpr h8)
  obtain ⟨t, ht, hfm, honly⟩ := issue_onFm h 1 opcode _ s _ hi hb
  exact ⟨t, hx.trans ht, hfm, honly⟩

@[simp] theorem State.park_mem (s : State) (wn : Nat) (was : Bool) : (s.park wn was).mem = s.mem := by
  unfold State.park
  split
  · rfl
  · exact State.setReg_mem _ _ _

@[simp] theorem State.park_marks (s : State) (wn : Nat) (was : Bool) : (s.park wn was).marks = s.marks := by
  unfold State.park
  split
  · rfl
  · exact State.setReg_marks _ _ _

@[simp] theorem State.park_bench (s : State) (wn : Nat) (was : Bool) (b : Bid) : (s.park wn was).bench b = s.bench b := by
  unfold State.park
  split
  · rfl
  · exact s.countB_bench _ _ _ _

/-- A wait at a signal's place whose queues have room places its gates. -/
theorem waitOp_places {i : Instr} {gate : BitVec 8} (cond : BitVec 2)
    (hx : exec i s = issue h 1 opcode (waitOp cond rd ra rb gate) s) (hi : s.Issues h 1) (ha : s.Arrived h.bench [ra, rb, rd])
    (hp : s.SigPlace ((s.partOf h.bench).getD 0) (s.sreg h ra)) (hroom : s.gateRoom h.bench gate = true) :
    ∃ t, exec i s = .next t ∧ GatePlaced s t h (.word (s.sreg h ra).toNat cond (s.sreg h rb)) gate rd ∧ t.mem = s.mem
      ∧ t.marks = s.marks ∧ (t.fm h.bench).pc = (s.fm h.bench).pc + 1 := by
  let c := s.fmCtx h opcode
  let s' := s.park ((s.sreg h ra).toNat / 16) (s.waitHolds (s.sreg h ra).toNat cond (s.sreg h rb))
  let t := s'.placeGate c (.word (s.sreg h ra).toNat cond (s.sreg h rb)) gate rd
  have hb : waitOp cond rd ra rb gate c s = .done t := by
    have haddr := hp.sigAddr
    rw [State.sreg] at haddr
    rw [waitOp, waitS_arrived _ _ _ _ _ ha]
    simp only [State.fmCtx]
    rw [haddr]
    exact if_neg (by simp [hroom])
  obtain ⟨u, hu, hfm, honly⟩ := issue_done_from hi hb
  have hbench : s'.bench h.bench = s.bench h.bench := s.park_bench _ _ _
  refine ⟨u, hx.trans hu, ?_, honly.mem.trans (s.park_mem _ _), (congrArg State.marks honly.1 :).trans (s.park_marks _ _),
    congrArg Foreman.pc hfm⟩
  exact GatePlaced.of_placeGate (s' := s') (opcode := opcode) (congrArg (fun x : Bench => x.fm.gates) hbench)
    (fun q => congrArg (fun x : Bench => x.q[q]) hbench) (congrArg Foreman.gates hfm :) fun q => honly.queue q

end

/-! ## SYNC.BAR (R288, R289) -/

theorem State.pushSig_fm (s : State) (c : Fm) (k : SigKind) : (s.pushSig c k).fm c.b = { s.fm c.b with
    sigs := (s.fm c.b).sigs ++ [⟨k, c.part, (s.fm c.b).fenceIds, c.op.pc, c.op.mark⟩] } := s.onFm_fm_same c.b _

theorem State.pushSig_queue (s : State) (c : Fm) (k : SigKind) (q : Fin 8) : (s.pushSig c k).queue c.b q = s.queue c.b q :=
  s.onFm_queue c.b _ _ _

/-- A barrier's arrival that finds room enters the signal buffer, with its gates placed. -/
theorem syncBar_enters {s : State} {h : Issue} {gate : BitVec 8} {fabric : Bool} {bid : Fin 16} (hi : s.Issues h 1)
    (hroom : s.gateRoom h.bench gate = true) (hin : s.inBarrier ((s.partOf h.bench).getD 0) h.bench = true)
    (hepoch : fabric = true → s.epochOn ((s.partOf h.bench).getD 0) = true) (h8 : (s.fm h.bench).sigs.length < 8) :
    let c := s.fmCtx h (opcodeOf 8 4)
    let t := if gate = 0 then s else s.placeGate c (.barrier c.part fabric bid (s.nextGen c.part h.bench bid)) gate 0
    ∃ u, exec (.syncBar h fabric bid gate) s = .next u
      ∧ u.fm h.bench = { (t.pushSig c (.bar fabric bid)).fm h.bench with pc := (s.fm h.bench).pc + 1 }
      ∧ (t.pushSig c (.bar fabric bid)).OnlyForeman h.bench u := by
  intro c t
  refine (issue_done_from hi ?_ : ∃ u, execSyncBar h fabric bid gate s = .next u ∧ _)
  refine (if_neg ?_).trans (if_neg ?_)
  · simp only [State.fmCtx, hin, Bool.not_true, Bool.false_or, Bool.and_eq_true, Bool.not_eq_true', not_and, Bool.not_eq_false]
    exact hepoch
  · simp [State.fmCtx, hroom]
    exact decide_eq_false (Nat.not_le.mpr h8)

end Sys2Proof.Machine
end

section
/-! The settlement of O20. -/

open Sys2Proof Sys2Proof.Machine

/-- Settles O20: fences, signals, waits and barriers enter their buffers as they issue, and each gate is its queues' last entry. -/
theorem syncIssues : Obligations.SyncIssues := by
  unfold Obligations.SyncIssues
  intro s h ra rb rd cover gate fabric bid hi ha hroom f p a pc' image sig waits
  have ha2 : s.Arrived h.bench [ra, rb] := fun r hr => ha r (List.mem_append_left [rd] hr)
  have haz : s.Arrived h.bench [ra, 0] := fun r hr => by
    rcases List.mem_pair.mp hr with rfl | rfl
    · exact ha _ List.mem_cons_self
    · exact Foreman.pendS_zero _
  have hazd : s.Arrived h.bench [ra, 0, rd] := fun r hr => by
    rcases List.mem_cons.mp hr with rfl | hr
    · exact ha _ List.mem_cons_self
    · rcases List.mem_pair.mp hr with rfl | rfl
      · exact Foreman.pendS_zero _
      · exact ha _ (by simp)
  refine ⟨syncFence_ninth hi, syncFence_full hi, fun hw h8 => ?fence, fun hp h8 => ⟨?_, ?_, ?_⟩, fun hp hgate hrd => ?wait,
    fun hin hepoch h8 => ?bar⟩
  case fence =>
    obtain ⟨u, hu, hfm, honly⟩ := syncFence_enters (cover := cover) hi hroom hw h8
    have hfenced : (s.fenced (s.fmCtx h (opcodeOf 8 1)) cover).fm h.bench = _ := s.onFm_fm_same h.bench _
    have hq (q : Fin 8) : (s.fenced (s.fmCtx h (opcodeOf 8 1)) cover).queue h.bench q = s.queue h.bench q := s.onFm_queue _ _ _ _
    have hplaced := (s.fenced (s.fmCtx h (opcodeOf 8 1)) cover).placeGate_fm (s.fmCtx h (opcodeOf 8 1)) (.fence f.nextId) gate 0
    by_cases hg : gate = 0
    · rw [if_pos hg] at hfm honly
      refine ⟨u, hu, honly.mem, (congrArg Foreman.pc hfm :), (congrArg Foreman.fences hfm :).trans (congrArg Foreman.fences hfenced :),
        fun _ => ⟨(congrArg Foreman.gates hfm :).trans (congrArg Foreman.gates hfenced :), fun q => (honly.queue q).trans (hq q)⟩,
        fun hne => absurd hg hne⟩
    · rw [if_neg hg] at hfm honly
      refine ⟨u, hu, honly.mem, (congrArg Foreman.pc hfm :), ?_, fun he => absurd he hg, fun _ => ?_⟩
      · exact (congrArg Foreman.fences hfm :).trans ((congrArg Foreman.fences hplaced :).trans (congrArg Foreman.fences hfenced :))
      · exact GatePlaced.of_placeGate (congrArg Foreman.gates hfenced :) hq (congrArg Foreman.gates hfm :) fun q => honly.queue q
  case wait =>
    have hx (cond : BitVec 2) (r : BitVec 5) :
        issueIf (waitFieldsOk rd gate) h 1 (opcodeOf 8 3) (valid (gate != 0) (waitOp cond rd ra r gate)) s
          = issue h 1 (opcodeOf 8 3) (waitOp cond rd ra r gate) s := by
      rw [valid_ok (by simpa using hgate), issueIf_ok (by simpa [waitFieldsOk] using hrd)]
    exact ⟨waitOp_places 0 (hx 0 0) hi hazd hp hroom, waitOp_places 1 (hx 1 0) hi hazd hp hroom,
      waitOp_places 2 (hx 2 0) hi hazd hp hroom, waitOp_places 3 (hx 3 rb) hi ha hp hroom⟩
  case bar =>
    obtain ⟨u, hu, hfm, honly⟩ := syncBar_enters (fabric := fabric) (bid := bid) hi hroom hin hepoch h8
    have hpush (t : State) := t.pushSig_fm (s.fmCtx h (opcodeOf 8 4)) (.bar fabric bid)
    by_cases hg : gate = 0
    · rw [if_pos hg] at hfm honly
      exact ⟨u, hu, honly.mem, (congrArg Foreman.pc hfm :), (congrArg Foreman.sigs hfm :).trans (congrArg Foreman.sigs (hpush s) :),
        fun hne => absurd hg hne⟩
    · rw [if_neg hg] at hfm honly
      let t := s.placeGate (s.fmCtx h (opcodeOf 8 4)) (.barrier p fabric bid (s.nextGen p h.bench bid)) gate 0
      have ht : t.fm h.bench = _ := s.placeGate_fm (s.fmCtx h (opcodeOf 8 4)) _ gate 0
      refine ⟨u, hu, honly.mem, (congrArg Foreman.pc hfm :), ?_, fun _ => ?_⟩
      · refine (congrArg Foreman.sigs hfm :).trans ((congrArg Foreman.sigs (hpush t) :).trans ?_)
        rw [show t.fm (s.fmCtx h (opcodeOf 8 4)).b = t.fm h.bench from rfl, ht]
        rfl
      · exact GatePlaced.of_placeGate (opcode := opcodeOf 8 4) rfl (fun _ => rfl)
          ((congrArg Foreman.gates hfm :).trans (congrArg Foreman.gates (hpush t) :))
          fun q => (honly.queue q).trans (t.pushSig_queue (s.fmCtx h (opcodeOf 8 4)) _ q)
  · exact retires_of_signalOp 0 rfl hi ha2 hp h8
  · exact retires_of_signalOp 1 rfl hi ha2 hp h8
  · exact retires_of_signalOp 2 rfl hi haz hp h8

end

section
/-! SUPPORT. Gates opened, fences retired, signals performed and waits answered (R269, R270, R282-R285). -/

namespace Sys2Proof.Machine

/-! ## Gates opened (R284, R285, R289) -/

section
variable {s : State} {b : Bid}

theorem State.openGate_fm (s : State) (b : Bid) (i : Nat) :
    (s.openGate b i).fm b = { s.fm b with gates := (s.fm b).gates.filter fun g => g.id != i } :=
  congrArg Bench.fm (s.onBench_bench_same b _)

theorem State.mem_openGate_gates {i : Nat} {x : Gate} :
    x ∈ ((s.openGate b i).fm b).gates ↔ x ∈ (s.fm b).gates ∧ x.id ≠ i := by
  rw [State.fm, State.openGate, State.onBench_bench_same]
  simp [State.fm]

theorem State.gate_mem_openGate_queue {i j : Nat} {q : Fin 8} :
    .gate j ∈ (s.openGate b i).queue b q ↔ .gate j ∈ s.queue b q ∧ j ≠ i := by
  rw [State.queue, State.openGate, State.onBench_bench_same]
  simp [State.queue]

theorem State.mem_openAll_gates {l : List Gate} {x : Gate} :
    x ∈ ((l.foldl (fun s g => s.openGate b g.id) s).fm b).gates ↔ x ∈ (s.fm b).gates ∧ ∀ g ∈ l, x.id ≠ g.id := by
  induction l generalizing s with
  | nil => simp
  | cons g l ih => rw [List.foldl_cons, ih, State.mem_openGate_gates, List.forall_mem_cons, and_assoc]

theorem State.gate_mem_openAll_queue {l : List Gate} {j : Nat} {q : Fin 8} :
    .gate j ∈ (l.foldl (fun s g => s.openGate b g.id) s).queue b q ↔ .gate j ∈ s.queue b q ∧ ∀ g ∈ l, j ≠ g.id := by
  induction l generalizing s with
  | nil => simp
  | cons g l ih => rw [List.foldl_cons, ih, State.gate_mem_openGate_queue, List.forall_mem_cons, and_assoc]

/-- What no write of its Bench changes, the opening of gates leaves. -/
theorem State.openGates_leaves {β : Type} (π : State → β) (h : ∀ s f, π (State.onBench s b f) = π s) (want : GateKind → Bool) :
    π (s.openGates b want) = π s := foldl_leaves π (fun _ _ => h _ _) _ s

/-- What a Foreman is but for its gates, the opening of gates leaves. -/
theorem State.openGates_fm {β : Type} (φ : Foreman → β) (h : ∀ f g, φ { f with gates := g } = φ f) (want : GateKind → Bool) :
    φ ((s.openGates b want).fm b) = φ (s.fm b) := by
  refine foldl_leaves (fun s => φ (s.fm b)) (fun s g => ?_) _ s
  rw [State.fm, State.openGate, State.onBench_bench_same]
  exact h _ _

/-- A gate of a kind that opens is gone, from the Foreman and from every queue. -/
theorem State.openGates_opens {want : GateKind → Bool} {g : Gate} (hg : g ∈ (s.fm b).gates) (hw : want g.kind = true) :
    (∀ x ∈ ((s.openGates b want).fm b).gates, x.id ≠ g.id) ∧ ∀ q, .gate g.id ∉ (s.openGates b want).queue b q := by
  have hmem : g ∈ (s.fm b).gates.filter fun g => want g.kind := List.mem_filter.mpr ⟨hg, hw⟩
  exact ⟨fun x hx => (State.mem_openAll_gates.mp hx).2 g hmem, fun q hq => (State.gate_mem_openAll_queue.mp hq).2 g hmem rfl⟩

theorem State.gates_of_openGates {want : GateKind → Bool} {x : Gate} (hx : x ∈ ((s.openGates b want).fm b).gates) :
    x ∈ (s.fm b).gates ∧ want x.kind = false := by
  obtain ⟨hmem, hids⟩ := State.mem_openAll_gates.mp hx
  refine ⟨hmem, Bool.eq_false_iff.mpr fun hw => hids x (List.mem_filter.mpr ⟨hmem, hw⟩) rfl⟩

end

/-! ## FENCE_RETIRE (R270, R285) -/

/-- A fence that has retired is waited for no longer. -/
def Foreman.fenceGone (f : Foreman) (id : Nat) : Foreman :=
  { f with
    fences := f.fences.filter fun x => x.id != id
    sigs := f.sigs.map fun g => { g with after := g.after.filter (· != id) }
    voteReq := f.voteReq.map fun v => { v with after := v.after.filter (· != id) } }

theorem fenceRetire_retires {s : State} {b : Bid} {e : Fence} {rest : List Fence} (hf : (s.fm b).fences = e :: rest)
    (hc : e.covers = []) :
    ∃ t, exec (.fenceRetire b) s = .next t ∧ t.mem = s.mem ∧ (∀ k, k ∉ retireRegs b → t.reg k = s.reg k)
      ∧ (t.fm b).fences = (s.fm b).fences.filter (fun x => x.id != e.id)
      ∧ (∀ g ∈ (t.fm b).sigs, e.id ∉ g.after)
      ∧ ∀ g ∈ (s.fm b).gates, g.kind = .fence e.id → (∀ x ∈ (t.fm b).gates, x.id ≠ g.id) ∧ ∀ q, .gate g.id ∉ t.queue b q := by
  let u := s.onFm b fun f => f.fenceGone e.id
  let v := u.openGates b fun k => k == .fence e.id
  have hexec : exec (.fenceRetire b) s = .next (v.retireOp b true ⟨opcodeOf 8 1, e.pc, e.mark⟩) := by
    change execFenceRetire b s = _
    rw [execFenceRetire, hf, List.find?_cons_of_pos (by simp [hc])]
    rfl
  have hu : u.fm b = (s.fm b).fenceGone e.id := s.onFm_fm_same _ _
  have honly : v.OnlyForeman b (v.retireOp b true ⟨opcodeOf 8 1, e.pc, e.mark⟩) := (State.OnlyForeman.refl b v).retireOp _ _
  have hfm : (v.retireOp b true ⟨opcodeOf 8 1, e.pc, e.mark⟩).fm b = v.fm b := State.retireOp_fm _ _ _ _
  refine ⟨_, hexec, ?_, fun k hk => ?_, ?_, fun g hg => ?_, fun g hg hkind => ?_⟩
  · exact honly.mem.trans (State.openGates_leaves State.mem (fun _ _ => rfl) _)
  · exact (honly.2.2.2 k hk).trans (State.openGates_leaves (fun s => s.reg k) (fun _ _ => rfl) _)
  · rw [hfm, State.openGates_fm Foreman.fences (fun _ _ => rfl), hu]
    rfl
  · rw [hfm, State.openGates_fm Foreman.sigs (fun _ _ => rfl), hu] at hg
    obtain ⟨g', -, rfl⟩ := List.mem_map.mp hg
    simp
  · have hmem : g ∈ (u.fm b).gates := by rw [hu]; exact hg
    obtain ⟨hgates, hqueue⟩ := State.openGates_opens (want := fun k => k == .fence e.id) hmem (by simp [hkind])
    exact ⟨fun x hx => hgates x (hfm ▸ hx), fun q hq => hqueue q (honly.queue q ▸ hq)⟩

/-! ## Words read and written by a signal (R282) -/

section
variable (s : State) (wn : Nat)

/-- A mark set is read back, and no other changes. -/
theorem State.mark_setMark (n : Nat) (m : WordMark) : (s.setMark wn m).mark n = if n = wn then m else s.mark n := by
  unfold State.mark State.setMark
  split
  · next h => rw [h]; exact tget_tset_same _ _ _ _
  · next h => exact tget_tset_other _ _ _ fun e => h e.symm

/-- A whole word written reads back. -/
theorem State.word_putWord (d : Line16) (hm : Memory.wf s.mem) : (s.putWord wn d allBits).word wn = d := by
  refine BitVec.eq_of_getLsbD_eq fun j hj => ?_
  have hdiv : (128 * wn + j) / 128 = wn := by omega
  have hmod : (128 * wn + j) % 128 = j := by omega
  rw [State.getLsbD_word _ _ hj, State.putWord_memBit _ _ _ _ _ hm, hdiv, hmod, if_pos ⟨rfl, (BitVec.getLsbD_allOnes ..).trans (decide_eq_true hj)⟩]

@[simp] theorem State.memStat_benches (i : Nat) : (s.memStat wn i).benches = s.benches := by
  unfold State.memStat
  dsimp only
  split <;> exact State.setRf_benches _ _ _ _

/-- Reading a poisoned word notes it in a register alone. -/
theorem State.poisonRead_leaves : (s.poisonRead wn).mem = s.mem ∧ (s.poisonRead wn).marks = s.marks
    ∧ (s.poisonRead wn).benches = s.benches := by
  unfold State.poisonRead
  split
  · exact ⟨s.memStat_mem _ _, s.memStat_marks _ _, s.memStat_benches _ _⟩
  · exact ⟨rfl, rfl, rfl⟩

/-- The low half of a word of memory. -/
theorem low_eq_setWidth (x : Line16) : x.extractLsb' 0 64 = x.setWidth 64 :=
  BitVec.eq_of_getLsbD_eq fun j hj => by simp [hj]

/-- The sum's low half, and the rest of the image above it. -/
theorem sumWord_halves (a : Word) (image : Line16) :
    ((((image >>> 64) <<< 64) ||| a.setWidth 128 : Line16).extractLsb' 0 64 = a)
      ∧ ((((image >>> 64) <<< 64) ||| a.setWidth 128 : Line16).extractLsb' 64 64 = image.extractLsb' 64 64) := by
  constructor <;> refine BitVec.eq_of_getLsbD_eq fun j hj => ?_
  · simp [hj]
    omega
  · simp [hj]
    omega

/-- What a signal writes: a whole word and its mark, in its one access (R282). -/
theorem State.signalWord_writes (mode : BitVec 2) (image : Line16) (hu : (s.mark wn).upset = .clean) :
    ∃ (s' : State) (v : Line16) (m : WordMark), s'.mem = s.mem ∧ s'.marks = s.marks ∧ s'.benches = s.benches
      ∧ s.signalWord mode wn image = (s'.putWord wn v allBits).setMark wn m
      ∧ (mode = 0 → v = image ∧ m.full = true ∧ m.poison = false)
      ∧ (mode = 1 → v.extractLsb' 0 64 = (s.word wn).extractLsb' 0 64 + image.extractLsb' 0 64
          ∧ v.extractLsb' 64 64 = image.extractLsb' 64 64 ∧ m.full = true)
      ∧ (mode = 2 → v = 0 ∧ m.full = false) := by
  unfold State.signalWord
  split
  · next h2 => exact ⟨s, _, _, rfl, rfl, rfl, rfl, by simp [h2], by simp [h2], fun _ => ⟨rfl, WordMark.full_setFull (s.mark wn) false⟩⟩
  · next h2 =>
    split
    · next h1 =>
      obtain ⟨hmem, hmarks, hbenches⟩ := s.poisonRead_leaves wn
      have hword : (s.poisonRead wn).word wn = s.word wn := by rw [State.word, hmem, State.word]
      refine ⟨s.poisonRead wn, _, _, hmem, hmarks, hbenches, by rw [s.decodeWord_clean _ hu], by simp [h1], fun _ => ?_, by simp [h1]⟩
      rw [hword]
      obtain ⟨hlow, hhigh⟩ := sumWord_halves ((s.word wn).setWidth 64 + image.setWidth 64) image
      refine ⟨hlow.trans ?_, hhigh, WordMark.full_setFull ((s.poisonRead wn).mark wn) true⟩
      rw [low_eq_setWidth, low_eq_setWidth]
    · next h1 => exact ⟨s, _, _, rfl, rfl, rfl, rfl, fun _ => ⟨rfl, WordMark.full_setFull (s.mark wn) true, rfl⟩, fun h => absurd h h1, fun h => absurd h h2⟩

end

/-! ## SIGNAL_ISSUE (R269, R282, R283) -/

@[simp] theorem State.onBar_bar_same (s : State) (p : Part) (f : Barrier → Barrier) : (s.onBar p f).bar p = f (s.bar p) := by
  simp [State.onBar, State.bar]

section
variable {s : State} {b : Bid} {g : Sig} {rest : List Sig} (hs : (s.fm b).sigs = g :: rest) (ha : g.after = [])
include hs ha

/-- The state once the oldest signal has left the buffer. -/
theorem signalIssue_sig {mode : BitVec 2} {a : Nat} {image : Line16} (hk : g.kind = .sig mode a image)
    (hm : s.mayAccess g.part a = true) : exec (.signalIssue b) s
      = .next (((s.onFm b fun f => { f with sigs := rest }).signalWord mode (a / 16) image).slotCount b g.mark 2 1) := by
  have hm' : (s.onFm b fun f => { f with sigs := rest }).mayAccess g.part a = true := hm
  change execSignalIssue b s = _
  rw [execSignalIssue, hs]
  dsimp only
  rw [if_neg (by simp [ha]), hk]
  exact if_pos hm'

theorem signalIssue_bar {fabric : Bool} {bid : Fin 16} (hk : g.kind = .bar fabric bid) : exec (.signalIssue b) s
      = .next ((s.onFm b fun f => { f with sigs := rest }).onBar g.part fun k => { k with coming := k.coming ++ [(b, fabric, bid)] }) := by
  change execSignalIssue b s = _
  rw [execSignalIssue, hs]
  dsimp only
  rw [if_neg (by simp [ha]), hk]

end

/-- What the oldest signal's access leaves: its word as its mode says, its mark, and nothing else of memory. -/
theorem signalWord_acts {s : State} {b : Bid} {a : Nat} (mode : BitVec 2) (image : Line16) (mark : BitVec 32) (hw : Memory.wf s.mem)
    (hu : (s.mark (a / 16)).upset = .clean) :
    let wn := a / 16
    let t := (s.signalWord mode wn image).slotCount b mark 2 1
    t.benches = s.benches ∧ (∀ k, k / 16 ≠ wn → mget t.mem k = mget s.mem k) ∧ (∀ n, n ≠ wn → t.mark n = s.mark n)
      ∧ (mode = 0 → t.word wn = image ∧ t.full wn = true ∧ (t.mark wn).poison = false)
      ∧ (mode = 1 → (t.word wn).extractLsb' 0 64 = (s.word wn).extractLsb' 0 64 + image.extractLsb' 0 64
          ∧ (t.word wn).extractLsb' 64 64 = image.extractLsb' 64 64 ∧ t.full wn = true)
      ∧ (mode = 2 → t.word wn = 0 ∧ t.full wn = false) := by
  intro wn t
  obtain ⟨s', v, m, hmem, hmarks, hbenches, hsig, hset, hadd, hclear⟩ := s.signalWord_writes wn mode image hu
  have hwf : Memory.wf s'.mem := hmem ▸ hw
  have htmem : t.mem = (s'.putWord wn v allBits).mem := (State.slotCount_mem _ _ _ _ _).trans (by rw [hsig]; rfl)
  have htmarks : t.marks = ((s'.putWord wn v allBits).setMark wn m).marks :=
    (State.slotCount_of (P := fun u => u.marks = (s.signalWord mode wn image).marks)
      (fun u x _ _ h => by rw [State.setReg_marks, h]) _ _ rfl).trans (by rw [hsig])
  have htbenches : t.benches = s.benches :=
    (State.slotCount_of (P := fun u => u.benches = (s.signalWord mode wn image).benches)
      (fun u x _ _ h => by rw [State.setReg_benches, h]) _ _ rfl).trans (by rw [hsig]; exact hbenches)
  have hword : t.word wn = v := by
    rw [State.word, htmem]
    exact s'.word_putWord wn v hwf
  have hmark (n : Nat) : t.mark n = if n = wn then m else s.mark n := by
    rw [State.mark, htmarks]
    refine (State.mark_setMark _ wn n m).trans ?_
    rw [show (s'.putWord wn v allBits).mark n = s.mark n by rw [State.mark, State.putWord_marks, hmarks]; rfl]
  have hsame : t.mark wn = m := (hmark wn).trans (if_pos rfl)
  refine ⟨htbenches, fun k hk => ?_, fun n hn => (hmark n).trans (if_neg hn), ?_⟩
  · rw [htmem, s'.putWord_mget _ _ _ _ hwf hk, hmem]
  · rw [hword, State.full, hsame]
    exact ⟨hset, hadd, hclear⟩

/-- SIGNAL_ISSUE acts on the oldest signal: on its word, or sends its barrier's arrival out (R269, R282, R289). -/
theorem signalIssue_acts {s : State} {b : Bid} {g : Sig} {rest : List Sig} (hw : Memory.wf s.mem) (hs : (s.fm b).sigs = g :: rest)
    (ha : g.after = []) :
    ∃ t, exec (.signalIssue b) s = .next t
      ∧ (∀ mode a image, g.kind = .sig mode a image → s.mayAccess g.part a = true → (s.mark (a / 16)).upset = .clean →
          let wn := a / 16
          (t.fm b).sigs = rest ∧ (∀ k, k / 16 ≠ wn → mget t.mem k = mget s.mem k) ∧ (∀ n, n ≠ wn → t.mark n = s.mark n)
          ∧ (mode = 0 → t.word wn = image ∧ t.full wn = true ∧ (t.mark wn).poison = false)
          ∧ (mode = 1 → (t.word wn).extractLsb' 0 64 = (s.word wn).extractLsb' 0 64 + image.extractLsb' 0 64
              ∧ (t.word wn).extractLsb' 64 64 = image.extractLsb' 64 64 ∧ t.full wn = true)
          ∧ (mode = 2 → t.word wn = 0 ∧ t.full wn = false))
      ∧ (∀ fabric bid, g.kind = .bar fabric bid →
          (t.fm b).sigs = rest ∧ (t.bar g.part).coming = (s.bar g.part).coming ++ [(b, fabric, bid)] ∧ t.mem = s.mem) := by
  let u := s.onFm b fun f => { f with sigs := rest }
  have hu : (u.fm b).sigs = rest := congrArg Foreman.sigs (s.onFm_fm_same b _)
  cases hk : g.kind with
  | bar fabric bid =>
    refine ⟨_, signalIssue_bar hs ha hk, fun _ _ _ h => (by cases h), fun f i h => ?_⟩
    cases h
    exact ⟨hu, congrArg Barrier.coming (u.onBar_bar_same _ _), rfl⟩
  | sig mode a image =>
    by_cases hm : s.mayAccess g.part a = true
    · refine ⟨_, signalIssue_sig hs ha hk hm, fun mode' a' image' h _ hclean => ?_, fun _ _ h => (by cases h)⟩
      cases h
      obtain ⟨hbenches, hrest⟩ := signalWord_acts (s := u) (b := b) mode image g.mark hw hclean
      refine ⟨?_, hrest⟩
      rw [State.fm, State.bench, hbenches]
      exact hu
    · have hno : exec (.signalIssue b) s = .next ((u.refuse ⟨b, g.part, ucForeman, 0, some ⟨opcodeOf 8 2, g.pc, g.mark⟩, false⟩ a).fault
          ⟨b, 0, 0, ⟨opcodeOf 8 2, g.pc, g.mark⟩⟩ .addrUnmapped) := by
        have hm' : ¬ u.mayAccess g.part a = true := hm
        change execSignalIssue b s = _
        rw [execSignalIssue, hs]
        dsimp only
        rw [if_neg (by simp [ha]), hk]
        exact if_neg hm'
      exact ⟨_, hno, fun _ _ _ h hm' => (by cases h; exact absurd hm' hm), fun _ _ h => (by cases h)⟩

/-! ## WAIT_GATES_OPEN (R284) -/

theorem Foreman.setS_gates (f : Foreman) (r : BitVec 5) (v : Word) : (f.setS r v).gates = f.gates := by
  unfold Foreman.setS
  split <;> rfl

theorem Foreman.setS_s_of_gates (f : Foreman) (r : BitVec 5) (v : Word) (l : List Gate) :
    ({ f with gates := l }.setS r v).s = (f.setS r v).s := by
  unfold Foreman.setS
  split <;> rfl

section
variable {s : State} {b : Bid} {g : Nat} {x : Gate} {a : Nat} {cond : BitVec 2} {cmp : Word}
  (hx : (s.fm b).gates.find? (fun y => y.id == g) = some x) (hk : x.kind = .word a cond cmp)
include hx hk

theorem waitGatesOpen_waits (hc : s.waitHolds a cond cmp = false) : exec (.waitGatesOpen b g) s = .next s := by
  change Host.Outcome.next (s.waitTry b g) = _
  rw [State.waitTry, hx]
  dsimp only
  rw [hk]
  dsimp only
  rw [if_neg (by simp [hc])]

/-- A wait whose condition holds has its gates opened in one access of its word. -/
theorem waitGatesOpen_opens (hc : s.waitHolds a cond cmp = true) (hm : s.mayAccess ((s.partOf b).getD 0) a = true)
    (hu : (s.mark (a / 16)).upset = .clean) (hp : (s.mark (a / 16)).poison = false) :
    ∃ t, exec (.waitGatesOpen b g) s = .next t ∧ t.mem = s.mem
      ∧ (∀ y ∈ (t.fm b).gates, y.id ≠ g) ∧ (∀ q, .gate g ∉ t.queue b q)
      ∧ (∀ n, t.full n = (s.full n && !(n = a / 16 && cond = 1)))
      ∧ (t.fm b).s = (if x.fmStall then (s.fm b).setS x.rd ((s.word (a / 16)).setWidth 64) else s.fm b).s := by
  let wn := a / 16
  have hread : (s.decodeWord wn .clean).poisonRead wn = s := by
    rw [s.decodeWord_clean _ hu, State.poisonRead, if_neg (by simp [wn, hp])]
  let u := s.slotCount b x.mark 2 1
  obtain ⟨r, hr⟩ := s.slotCount_onlyRegs b x.mark 2 1
  let v := if cond = 1 then u.setMark wn ((u.mark wn).setFull false) else u
  let w := v.openGate b g
  have hmark : u.mark wn = s.mark wn := by simp only [u, hr]; rfl
  have hword : u.word wn = s.word wn := by simp only [u, hr]; rfl
  have hexec : exec (.waitGatesOpen b g) s
      = .next (if x.fmStall then w.onFm b fun f => f.setS x.rd ((s.word wn).setWidth 64) else w) := by
    change Host.Outcome.next (s.waitTry b g) = _
    rw [State.waitTry, hx]
    dsimp only
    rw [hk]
    dsimp only
    rw [if_pos (by simp [hc, hm]), hread]
    simp only [show s.slotCount b x.mark 2 1 = u from rfl, hmark, hp, Bool.false_and, Bool.false_eq_true, if_false, hword, w, v, wn]
  have hmem : w.mem = s.mem := by
    have h1 : v.mem = u.mem := by simp only [v]; split <;> rfl
    exact h1.trans (State.slotCount_mem _ _ _ _ _)
  have hbench : v.benches = s.benches := by
    have h1 : v.benches = u.benches := by simp only [v]; split <;> rfl
    rw [h1, show u.benches = (s.slotCount b x.mark 2 1).benches from rfl, hr]
  have hvfm : v.fm b = s.fm b := by rw [State.fm, State.bench, hbench]; rfl
  have hwfm : w.fm b = { s.fm b with gates := (w.fm b).gates } := by
    rw [show w.fm b = _ from v.openGate_fm b g, hvfm]
  have hfull (n : Nat) : v.full n = (s.full n && !(n = wn && cond = 1)) := by
    have hun (n : Nat) : u.full n = s.full n := by simp only [u, hr]; rfl
    simp only [v]
    split
    · next h1 =>
      rw [State.full, State.mark_setMark]
      split
      · next hn => rw [WordMark.full_setFull]; simp [hn, h1]
      · next hn => rw [← State.full, hun]; simp [hn]
    · next h1 => rw [hun, decide_eq_false h1, Bool.and_false, Bool.not_false, Bool.and_true]
  have hgates : ∀ y ∈ (w.fm b).gates, y.id ≠ g := fun y hy => (State.mem_openGate_gates.mp hy).2
  have hqueue (q : Fin 8) : .gate g ∉ w.queue b q := fun hq => (State.gate_mem_openGate_queue.mp hq).2 rfl
  by_cases hst : x.fmStall = true
  · rw [if_pos hst] at hexec ⊢
    refine ⟨_, hexec, hmem, fun y hy => hgates y ?_, fun q hq => hqueue q ?_, hfull, ?_⟩
    · rw [State.onFm_fm_same] at hy
      exact (Foreman.setS_gates _ _ _ ▸ hy)
    · rwa [State.onFm_queue] at hq
    · rw [State.onFm_fm_same, hwfm]
      exact Foreman.setS_s_of_gates _ _ _ _
  · rw [if_neg hst] at hexec ⊢
    exact ⟨_, hexec, hmem, hgates, hqueue, hfull, (congrArg Foreman.s hwfm :)⟩

end

end Sys2Proof.Machine
end

section
/-! SUPPORT. Barriers: arrivals counted, generations released, and timeouts (R289-R291, R351). -/

namespace Sys2Proof.Machine

/-! ## Arrivals (R289) -/

@[simp] theorem State.setReg_bar (s : State) (k : Nat) (v : Word) (p : Part) : (s.setReg k v).bar p = s.bar p := by
  rw [State.bar, State.setReg_bars]; rfl

section
variable {β : Type} (π : State → β) (hfab : ∀ (s : State) f, π { s with fab := f } = π s)
  (hreg : ∀ s k v, π (State.setReg s k v) = π s) (hbench : ∀ s b f, π (State.onBench s b f) = π s) (p : Part)
  (hbar : ∀ (s : State) f, (∀ k, (f k).coming = k.coming ∧ (f k).arrived = k.arrived) → π (s.onBar p f) = π s)

section
include hfab hreg

theorem State.sendBar_leaves (s : State) (n : PortNo) (op : Nat) (bid : Fin 16) (g : BitVec 16) :
    π (s.sendBar p n op bid g) = π s := s.sendPort_leaves π hfab hreg _ _ _

theorem State.barDown_leaves (s : State) (bid : Fin 16) (n : BitVec 16) : π (s.barDown p bid n) = π s :=
  foldl_leaves π (fun s _ => State.sendBar_leaves π hfab hreg p s _ _ _ _) _ s

end

/-- A generation released as BAR_GEN shows it, before its gates open (R289, R290). -/
def State.barShown (s : State) (p : Part) (bid : Fin 16) (n : BitVec 16) : State :=
  let s := s.setRf (K.BAR_GEN p bid.val) F.BAR_GEN_RELEASED n.toNat
  s.onBar p fun k =>
    { k with
      fabric := k.fabric.filter (· != (bid.val, n.toNat))
      sentUp := tset 0 k.sentUp bid.val (genFollow (tget 0 k.sentUp bid.val) n)
      kids := (s.treeKids p).foldl (fun t c => tset 0 t (bid.val * 16 + c.val) (genFollow (tget 0 t (bid.val * 16 + c.val)) n))
        k.kids }

/-- Whether a gate waits for generation n of a barrier. -/
def GateKind.ofGen (p : Part) (bid : Fin 16) (n : BitVec 16) (k : GateKind) : Bool :=
  match k with
  | .barrier q _ i g => q == p && i == bid && g == n
  | _ => false

theorem State.barRelease_eq (s : State) (bid : Fin 16) (n : BitVec 16) : s.barRelease p bid n
    = ((s.barShown p bid n).benchesOf p).foldl (fun s b => s.openGates b (GateKind.ofGen p bid n)) (s.barShown p bid n) := rfl

section
include hreg hbar

theorem State.barShown_leaves (s : State) (bid : Fin 16) (n : BitVec 16) : π (s.barShown p bid n) = π s := by
  unfold State.barShown
  dsimp only
  rw [hbar _ _ (by intro k; exact ⟨rfl, rfl⟩)]
  exact hreg _ _ _

include hbench

theorem State.barRelease_leaves (s : State) (bid : Fin 16) (n : BitVec 16) : π (s.barRelease p bid n) = π s := by
  rw [State.barRelease_eq]
  exact (foldl_leaves π (fun s b => State.openGates_leaves π (fun s f => hbench s b f) _) _ _).trans
    (State.barShown_leaves π hreg p hbar s bid n)

end

include hfab hreg hbench hbar

/-- A barrier that goes on releases and passes up; it counts no arrival (R289, R351). -/
theorem State.barAdvance_leaves (s : State) (bid : Fin 16) : π (s.barAdvance p bid) = π s := by
  have hrelease (s : State) (n : BitVec 16) : π (s.barRelease p bid n) = π s :=
    State.barRelease_leaves π hreg hbench p hbar s bid n
  unfold State.barAdvance
  dsimp only
  split
  · rfl
  · split
    · split
      · rfl
      · exact hrelease _ _
    · split
      · rfl
      · split
        · exact (hrelease _ _).trans (State.barDown_leaves π hfab hreg p s bid _)
        · rw [hbar _ _ (by intro k; exact ⟨rfl, rfl⟩)]
          exact State.sendBar_leaves π hfab hreg p s _ _ _ _

end

@[simp] theorem State.barAdvance_mem (s : State) (p : Part) (bid : Fin 16) : (s.barAdvance p bid).mem = s.mem :=
  s.barAdvance_leaves State.mem (fun _ _ => rfl) State.setReg_mem (fun _ _ _ => rfl) p (fun _ _ _ => rfl) bid

theorem State.barAdvance_coming (s : State) (p : Part) (bid : Fin 16) :
    ((s.barAdvance p bid).bar p).coming = (s.bar p).coming ∧ ((s.barAdvance p bid).bar p).arrived = (s.bar p).arrived := by
  have h := s.barAdvance_leaves (fun s => ((s.bar p).coming, (s.bar p).arrived)) (fun _ _ => rfl)
    (fun s k v => by rw [State.setReg_bar]) (fun _ _ _ => rfl) p
    (fun s f hf => by rw [State.onBar_bar_same, (hf _).1, (hf _).2]) bid
  exact ⟨congrArg Prod.fst h, congrArg Prod.snd h⟩

theorem State.byCore_on {s : State} {i : Nat} (h : s.hubCore i = true) (f : State → Out) : s.byCore i f = f s := if_pos h

theorem State.byCore_off {s : State} {i : Nat} (h : s.hubCore i = false) (f : State → Out) : s.byCore i f = .next s :=
  if_neg (by rw [h]; exact Bool.false_ne_true)

/-- An arrival taken from those on their way, and counted (R289). -/
def Barrier.arrive (k : Barrier) (b : Bid) (fabric : Bool) (bid : Fin 16) (rest : List (Bid × Bool × Fin 16)) : Barrier :=
  let n := tget 0 k.arrived (bid.val * 16 + b.val) + 1
  { k with
    coming := rest
    arrived := tset 0 k.arrived (bid.val * 16 + b.val) n
    fabric := if fabric && !k.fabric.contains (bid.val, n.toNat) then k.fabric ++ [(bid.val, n.toNat)] else k.fabric }

/-- An arrival on its way counts. -/
theorem barrierArrival_counts {s : State} {p : Part} {bid : Fin 16} {b : Bid} {fabric : Bool} {rest : List (Bid × Bool × Fin 16)}
    (hcore : s.hubCore barrierCore = true) (hc : (s.bar p).coming = (b, fabric, bid) :: rest) :
    ∃ t, exec (.barrierArrival p bid) s = .next t ∧ (t.bar p).coming = rest ∧ t.mem = s.mem
      ∧ tget 0 (t.bar p).arrived (bid.val * 16 + b.val) = tget 0 (s.bar p).arrived (bid.val * 16 + b.val) + 1 := by
  have htake : takeComing bid (s.bar p).coming = some ((b, fabric, bid), rest) := by rw [hc]; exact if_pos rfl
  let u := s.onBar p fun k => k.arrive b fabric bid rest
  have hu : u.bar p = (s.bar p).arrive b fabric bid rest := s.onBar_bar_same _ _
  have hexec : exec (.barrierArrival p bid) s = .next (u.barAdvance p bid) := by
    change execBarrierArrival p bid s = _
    rw [execBarrierArrival, State.byCore_on hcore, htake]
    rfl
  obtain ⟨hcoming, harrived⟩ := u.barAdvance_coming p bid
  refine ⟨_, hexec, hcoming.trans (congrArg Barrier.coming hu), u.barAdvance_mem p bid, ?_⟩
  rw [harrived, hu]
  exact tget_tset_same _ _ _ _

/-! ## Generations released (R289, R290) -/

/-- The next generation's number as BAR_GEN counts it (R290). -/
def State.dueGen (s : State) (p : Part) (bid : Fin 16) : BitVec 16 :=
  BitVec.ofNat 16 (s.rf (K.BAR_GEN p bid.val) F.BAR_GEN_RELEASED + 1)

/-- A released generation is what BAR_GEN shows. -/
theorem State.barRelease_gen (s : State) (p : Part) (bid : Fin 16) (n : BitVec 16) :
    (s.barRelease p bid n).rf (K.BAR_GEN p bid.val) F.BAR_GEN_RELEASED = n.toNat := by
  rw [State.barRelease_eq]
  refine (foldl_leaves (fun s => s.rf (K.BAR_GEN p bid.val) F.BAR_GEN_RELEASED)
    (fun s b => State.openGates_leaves (fun s => s.rf (K.BAR_GEN p bid.val) F.BAR_GEN_RELEASED) (fun _ _ => rfl) _) _ _).trans ?_
  exact (s.rf_setRf_same (K.BAR_GEN p bid.val) F.BAR_GEN_RELEASED n.toNat (by decide)).trans (Nat.mod_eq_of_lt n.isLt)

/-- Gates that one Bench's opening leaves to another. -/
theorem State.openGates_fm_other (s : State) {b c : Bid} (h : c ≠ b) (want : GateKind → Bool) :
    (s.openGates b want).fm c = s.fm c :=
  foldl_leaves (fun s => s.fm c) (fun s _ => congrArg Bench.fm (s.onBench_bench_other b c _ h)) _ s

/-- A kind of gate opened at each of some Benches is gone from all of them. -/
theorem foldl_openGates_gone {want : GateKind → Bool} {l : List Bid} {s : State} {b : Bid} {g : Gate}
    (hg : g ∈ ((l.foldl (fun s b => s.openGates b want) s).fm b).gates) :
    g ∈ (s.fm b).gates ∧ (b ∈ l → want g.kind = false) := by
  induction l generalizing s with
  | nil => exact ⟨hg, fun h => absurd h List.not_mem_nil⟩
  | cons c l ih =>
    obtain ⟨hmem, hgone⟩ := ih hg
    by_cases hc : b = c
    · subst hc
      obtain ⟨hgates, hwant⟩ := State.gates_of_openGates hmem
      exact ⟨hgates, fun _ => hwant⟩
    · rw [State.openGates_fm_other s hc] at hmem
      exact ⟨hmem, fun h => hgone ((List.mem_cons.mp h).resolve_left hc)⟩

theorem State.barShown_benchesOf (s : State) (p : Part) (bid : Fin 16) (n : BitVec 16) :
    (s.barShown p bid n).benchesOf p = s.benchesOf p := by
  have hsame : s.SameWindows (s.setRf (K.BAR_GEN p bid.val) F.BAR_GEN_RELEASED n.toNat) :=
    (State.SameWindows.refl s).setReg (k := K.BAR_GEN p bid.val) _ (by simp only [decidesWindows, K.BAR_GEN]; omega)
  exact congrArg (fun f => allBids.filter f) (funext fun b => hsame.owns p b)

/-- The gates of a released generation are gone from every Bench of its partition. -/
theorem State.barRelease_gates {s : State} {p : Part} {bid : Fin 16} {n : BitVec 16} {b : Bid} (hb : b ∈ s.benchesOf p) {g : Gate}
    (hg : g ∈ ((s.barRelease p bid n).fm b).gates) (fabric : Bool) : g.kind ≠ .barrier p fabric bid n := by
  rw [State.barRelease_eq] at hg
  have hbs : b ∈ (s.barShown p bid n).benchesOf p := by
    rwa [State.barShown_benchesOf]
  intro hkind
  have hgone := (foldl_openGates_gone hg).2 hbs
  simp [hkind, GateKind.ofGen] at hgone

/-- A complete generation of Bench scope is released. -/
theorem State.barAdvance_releases {s : State} {p : Part} {bid : Fin 16}
    (hup : genReached (tget 0 (s.bar p).sentUp bid.val) (s.dueGen p bid) = false) (hne : s.barBenches p ≠ [])
    (hhere : s.barHere p bid (s.dueGen p bid) = true) (hfab : (bid.val, (s.dueGen p bid).toNat) ∉ (s.bar p).fabric) :
    s.barAdvance p bid = s.barRelease p bid (s.dueGen p bid) := by
  have hnext : s.barNext p bid = s.dueGen p bid := if_neg (by rw [← State.dueGen, hup]; exact Bool.false_ne_true)
  have hbench : s.barFabric p bid (s.dueGen p bid) = false := by simp [State.barFabric, hfab, hne]
  have hgen : (s.dueGen p bid).toNat = (s.rf (K.BAR_GEN p bid.val) F.BAR_GEN_RELEASED + 1) % 65536 := by
    simp [State.dueGen]
  rw [State.barAdvance, hnext]
  rw [if_neg (by simp [hhere]), if_pos (by simp [hbench]), if_neg (by simp [hne, hgen])]

/-! ## Timeouts (R291) -/

theorem State.fault_fm (s : State) (f : FaultAt) (c : FCode) (b : Bid) :
    (s.fault f c).fm b = if b = f.b then (Bench.faulted f.q (codeVote c.code) (s.bench f.b)).fm else s.fm b := by
  rw [State.fault, State.fm, State.bench, State.faultCode_benches]
  refine (congrArg Bench.fm (s.onBench_bench f.b _ b)).trans ?_
  split <;> rfl

/-- A Bench's gate of a barrier of partition p. -/
def Foreman.barGate (f : Foreman) (p : Part) (bid : Fin 16) : Option Gate :=
  f.gates.find? fun g => match g.kind with | .barrier q _ i _ => q == p && i == bid | _ => false

/-- A Bench that holds a gate of the barrier faults. -/
def State.barFault (p : Part) (bid : Fin 16) (s : State) (b : Bid) : State :=
  match (s.fm b).barGate p bid with
  | some g => s.fault ⟨b, 0, 0, ⟨opcodeOf 8 4, g.pc, g.mark⟩⟩ .barrierTimeout
  | none => s

section
variable {s : State} {p : Part} {bid : Fin 16}

theorem State.barFault_mem (s : State) (b : Bid) : (s.barFault p bid b).mem = s.mem := by
  unfold State.barFault
  split
  · exact s.faultCode_mem _ _
  · rfl

theorem State.barFault_fm (s : State) (b c : Bid) : ((s.barFault p bid b).fm c).gates = (s.fm c).gates
    ∧ ((s.fm c).st = .faulted → ((s.barFault p bid b).fm c).st = .faulted)
    ∧ (c = b → ((s.fm c).barGate p bid).isSome = true → ((s.barFault p bid b).fm c).st = .faulted) := by
  unfold State.barFault
  split
  · rw [State.fault_fm]
    split
    · next h => subst h; exact ⟨rfl, fun _ => rfl, fun _ _ => rfl⟩
    · next h => exact ⟨rfl, id, fun e => absurd e h⟩
  · next hnone => exact ⟨rfl, id, fun e hsome => by subst e; rw [hnone] at hsome; cases hsome⟩

/-- Every Bench among some that holds a gate of the barrier has faulted. -/
theorem foldl_barFault_st {l : List Bid} {b : Bid}
    (h : (s.fm b).st = .faulted ∨ (b ∈ l ∧ ((s.fm b).barGate p bid).isSome = true)) :
    ((l.foldl (State.barFault p bid) s).fm b).st = .faulted := by
  induction l generalizing s with
  | nil => exact h.resolve_right fun h => absurd h.1 List.not_mem_nil
  | cons c l ih =>
    obtain ⟨hgates, hstays, hfaults⟩ := s.barFault_fm (p := p) (bid := bid) c b
    refine ih ?_
    rcases h with hst | ⟨hmem, hsome⟩
    · exact .inl (hstays hst)
    · rcases List.mem_cons.mp hmem with rfl | hmem
      · exact .inl (hfaults rfl hsome)
      · exact .inr ⟨hmem, by rw [Foreman.barGate, hgates]; exact hsome⟩

theorem barrierTimeout_faults (hcore : s.hubCore barrierCore = true) (ht : s.rf (K.BAR_CTL p) F.BAR_CTL_TIMEOUT ≠ 0) :
    exec (.barrierTimeout p bid) s = .next ((s.benchesOf p).foldl (State.barFault p bid) s) := by
  change execBarrierTimeout p bid s = _
  rw [execBarrierTimeout, State.byCore_on hcore, if_neg ht]
  rfl

theorem barGate_isSome {f : Foreman} {g : Gate} (hg : g ∈ f.gates) {fabric : Bool} {n : BitVec 16}
    (hk : g.kind = .barrier p fabric bid n) : (f.barGate p bid).isSome = true := by
  rw [Foreman.barGate, List.find?_isSome]
  exact ⟨g, hg, by simp [hk]⟩

end

end Sys2Proof.Machine
end

section
/-! The settlement of O21. -/

open Sys2Proof Sys2Proof.Machine

/-- Settles O21: each event by what its one access leaves, and a generation by the gates that its release opens. -/
theorem syncEvents : Obligations.SyncEvents := by
  unfold Obligations.SyncEvents
  refine ⟨fun s b e rest => fenceRetire_retires, fun s b g rest hinv hs ha => signalIssue_acts hinv.1.1 hs ha,
    fun s b g x a cond cmp _ hx hk => ⟨waitGatesOpen_waits hx hk, waitGatesOpen_opens hx hk⟩,
    fun s p bid b fabric rest => barrierArrival_counts, fun s p bid _ hcore hc => ?release,
    fun s p bid => ⟨fun hcore i hi => ?stopped, fun h0 => ?never, fun hcore ht => ?timeout⟩⟩
  case release =>
    intro n hup hne hhere hfab
    have hexec : exec (.barrierArrival p bid) s = .next (s.barAdvance p bid) := by
      change execBarrierArrival p bid s = _
      rw [execBarrierArrival, State.byCore_on hcore, hc]
      rfl
    rw [State.barAdvance_releases hup hne hhere hfab] at hexec
    exact ⟨_, hexec, s.barRelease_gen p bid n, fun b hb g hg fabric => State.barRelease_gates hb hg fabric⟩
  case stopped =>
    simp only [List.mem_cons, List.not_mem_nil, or_false] at hi
    rcases hi with rfl | rfl | rfl | rfl
    · exact (State.byCore_off hcore _ : execBarrierArrival p bid s = _)
    · exact (State.byCore_off hcore _ : execBarrierTimeout p bid s = _)
    · exact (State.byCore_off hcore _ : execArrive p s = _)
    · exact (State.byCore_off hcore _ : execBarrierTreeRelease p s = _)
  case never =>
    change execBarrierTimeout p bid s = _
    by_cases hcore : s.hubCore barrierCore = true
    · rw [execBarrierTimeout, State.byCore_on hcore, if_pos h0]
    · exact State.byCore_off (Bool.eq_false_iff.mpr hcore) _
  case timeout =>
    refine ⟨_, barrierTimeout_faults hcore ht, foldl_leaves State.mem (fun s b => s.barFault_mem b) _ s, ?_⟩
    intro b hb g hg fabric n hk
    exact foldl_barFault_st (.inr ⟨hb, barGate_isSome hg hk⟩)

end

section
/-! SUPPORT. An acting root that its own ALERT deposes, as the refutation starts from (R396, R397, R400). -/

namespace Sys2Proof.Machine

/-- A module number that no image gives: its bit of the lost set would lie in STEP_CAUSE of partition 0, as bit 0 of FIRST_MOD. -/
def strayMod : Nat := 64 * 0x1E005 + 32

theorem strayMod_key : K.FAB_LOST 0 (strayMod / 64) = K.STEP_CAUSE 0 ∧ strayMod % 64 = F.STEP_CAUSE_FIRST_MOD.lo := by decide

/-- Partition 0 has an attempt open whose Plumbs vote HALT, and a tree whose root is that module. FIRST_MOD holds 1 with
FIRST_VALID at 0, so the root reads as lost and this module is the acting root. -/
def strayRoot : State :=
  (atWork.onCtl 0 fun c => { c with
    phase := .opened, plumbVote := some .halt
    mapping := some ⟨[⟨strayMod, 0, true, 0⟩, ⟨0, 0, false, strayMod⟩], []⟩ }).setRf (K.STEP_CAUSE 0) F.STEP_CAUSE_FIRST_MOD 1

theorem strayRoot_inv : strayRoot.Inv :=
  (State.setRf_keeps (State.onCtl_keeps atWork_keeps)).inv State.reset_inv

/-- It acts, and has an ALERT to send. -/
theorem strayRoot_alerts : strayRoot.hubCore stepCore = true ∧ (strayRoot.ctl 0).live = true ∧ (strayRoot.ctl 0).alerted = false
    ∧ (strayRoot.ctl 0).outcome = none ∧ strayRoot.acting 0 = true ∧ 2 ≤ voteRank (strayRoot.runningVote 0) := by
  decide +kernel

/-- Whether partition 0's controller has sent CANCEL after a step. -/
def cancelledAfter : Out → Option Bool
  | .next t => some (t.ctl 0).cancelled
  | _ => none

/-- Its ALERT writes 0 over FIRST_MOD: the root no longer reads as lost, and no CANCEL is sent. -/
theorem strayRoot_deposed : cancelledAfter (exec (.alertSend 0) strayRoot) = some false := by decide +kernel

end Sys2Proof.Machine
end

section
/-! The settlement of O40. -/

open Sys2Proof Sys2Proof.Machine

/-- Refutes O40: it speaks of every mapping, and in a state whose tree table names a root of number 7,864,672 that module's bit of the
lost set lies in STEP_CAUSE, where ALERT_SEND shows the ALERT's origin. This module is the acting root before, the root is
no longer lost once FIRST_MOD is written, and the ALERT goes to the root where the statement has a CANCEL sent. -/
theorem not_stepOutcomes : ¬ Obligations.StepOutcomes := by
  unfold Obligations.StepOutcomes
  intro h
  obtain ⟨hcore, hlive, halerted, hopen, hacting, hrank⟩ := strayRoot_alerts
  obtain ⟨-, hworks⟩ := h strayRoot 0 strayRoot_inv
  obtain ⟨-, -, -, -, -, -, -, -, hsend⟩ := hworks hcore
  obtain ⟨t, ht, -, hcancels⟩ := (hsend hlive halerted hopen).1 hrank
  have hnot := strayRoot_deposed
  rw [ht] at hnot
  have hcancelled : some (t.ctl 0).cancelled = some false := hnot
  rw [hcancels hacting] at hcancelled
  cases hcancelled

end

section
/-! SUPPORT. A host queue's commands: how an event takes one in hand, and how one ends (R424, R427-R429). -/

namespace Sys2Proof.Machine

section
variable (s : State) (q i : Nat)

@[simp] theorem State.setHq_hq (x : QState) : (s.setHq q x).hq q = x := tget_tset_same _ _ _ _

@[simp] theorem State.setCmd_hq (c : QCmd) : (s.setCmd q i c).hq q = { s.hq q with cmds := (s.hq q).cmds.set i c } :=
  s.setHq_hq q _

end

section
variable {s : State} {q i : Nat} {c : QCmd} {p : Part}

/-- A command rewritten stands in its place. -/
theorem State.setCmd_cmds (h : (s.hq q).cmds[i]? = some c) (d : QCmd) : ((s.setCmd q i d).hq q).cmds[i]? = some d := by
  obtain ⟨hlen, -⟩ := List.getElem?_eq_some_iff.mp h
  rw [State.setCmd_hq]
  exact List.getElem?_set_self hlen

/-- The number that a command ending now has: above those of all that ended before it (R429). -/
def doneNext (l : List QCmd) : Nat := l.foldl (fun n d => if d.status.isSome then Nat.max n (d.doneNo + 1) else n) 0

theorem lt_doneNext {l : List QCmd} {d : QCmd} (hd : d ∈ l) (hs : d.status.isSome = true) : d.doneNo < doneNext l := by
  suffices ∀ (l : List QCmd) (n : Nat), (d.doneNo < n ∨ d ∈ l) →
      d.doneNo < l.foldl (fun n d => if d.status.isSome then Nat.max n (d.doneNo + 1) else n) n from this l 0 (.inr hd)
  intro l
  induction l with
  | nil => intro n h; exact h.resolve_right List.not_mem_nil
  | cons x l ih =>
    intro n h
    refine ih _ ?_
    dsimp only
    rcases h with h | h
    · left
      split
      · exact Nat.lt_of_lt_of_le h (Nat.le_max_left _ _)
      · exact h
    · rcases List.mem_cons.mp h with rfl | h
      · left
        rw [if_pos hs]
        exact Nat.le_max_right n _
      · exact .inr h

/-- A command that has ended with a status. -/
def QCmd.ended (c : QCmd) (status n : Nat) : QCmd := { c with begun := true, status := some status, flushing := none, doneNo := n }

theorem State.endCmd_eq (h : (s.hq q).cmds[i]? = some c) (status : Nat) :
    s.endCmd q i status = s.setCmd q i (c.ended status (doneNext (s.hq q).cmds)) := by
  rw [State.endCmd, h]
  rfl

theorem State.endCmd_status (h : (s.hq q).cmds[i]? = some c) (status : Nat) : (s.endCmd q i status).cmdStatus q i = some status := by
  rw [State.endCmd_eq h, State.cmdStatus, State.setCmd_cmds h]
  rfl

theorem State.endCmd_mem (status : Nat) : (s.endCmd q i status).mem = s.mem := by
  unfold State.endCmd
  split <;> rfl

theorem State.endCmd_regs (status : Nat) : (s.endCmd q i status).regs = s.regs := by
  unfold State.endCmd
  split <;> rfl

theorem State.endCmd_marks (status : Nat) : (s.endCmd q i status).marks = s.marks := by
  unfold State.endCmd
  split <;> rfl

theorem State.endCmd_benches (status : Nat) : (s.endCmd q i status).benches = s.benches := by
  unfold State.endCmd
  split <;> rfl

/-! ## A command taken in hand -/

variable {want : Nat → Bool} {f : Part → QCmd → State → State}

/-- A command that begins: the event acts on it, begun. -/
theorem State.onCmd_begins (h : s.CmdBegins q i p c) (hwant : want c.opc = true) :
    s.onCmd q i want f = f p { c with begun := true } (s.setCmd q i { c with begun := true }) := by
  obtain ⟨hcmd, howner, hserved, hstatus, hbegun, hmay, hcheck⟩ := h
  simp [State.onCmd, State.takeCmd, hcmd, howner, hserved, hwant, hstatus, hbegun, hmay, hcheck]

/-- A command that fails its checks ends with their status (R427). -/
theorem State.onCmd_fails {st : Nat} (hcmd : (s.hq q).cmds[i]? = some c) (howner : s.qOwner q = some p)
    (hserved : s.qServed q = true) (hstatus : c.status = none) (hbegun : c.begun = false) (hmay : s.mayBegin q i = true)
    (hcheck : s.cmdCheck p c = some st) (hwant : want c.opc = true) : s.onCmd q i want f = s.endCmd q i st := by
  simp [State.onCmd, State.takeCmd, hcmd, howner, hserved, hwant, hstatus, hbegun, hmay, hcheck]

/-- A command that may not begin waits. -/
theorem State.onCmd_waits (hcmd : (s.hq q).cmds[i]? = some c) (hbegun : c.begun = false) (hmay : s.mayBegin q i = false) :
    s.onCmd q i want f = s := by
  unfold State.onCmd State.takeCmd
  rw [hcmd]
  cases s.qOwner q with
  | none => rfl
  | some p =>
    by_cases hgo : (!s.qServed q || !want c.opc || c.status.isSome) = true
    · simp only [hgo, if_true]
    · simp only [hgo, hbegun, hmay, Bool.false_eq_true, if_false, Bool.not_false, if_true]

/-- No command begins while the completion ring is full or a completion is held (R429). -/
theorem State.mayBegin_full (h : (s.hq q).held ≠ [] ∨ s.cqRoom q = false) : s.mayBegin q i = false := by
  unfold State.mayBegin
  dsimp only
  split
  · rfl
  · rcases h with h | h
    · simp [h]
    · simp [h]

end

end Sys2Proof.Machine
end

section
/-! SUPPORT. A word's signal and what a queue holds (R282, R427). -/

namespace Sys2Proof.Machine

section
variable {s t : State}

theorem State.emit_host (r : RecInfo) : (s.emit r).host = s.host := by
  unfold State.emit
  dsimp only
  split
  · rw [State.countB, State.count, State.setReg_host]
    split <;> rfl
  · split <;> rfl

theorem State.memStat_host (wn i : Nat) : (s.memStat wn i).host = s.host := by
  unfold State.memStat
  dsimp only
  split <;> exact State.setReg_host _ _ _

theorem State.memEvent_host (wn event : Nat) (syn : Word) : (s.memEvent wn event syn).host = s.host := State.emit_host _

theorem State.decodeWord_host (wn : Nat) : (s.decodeWord wn .clean).host = s.host := by
  have hdraw (u : State) : u.drawWord.2.host = u.host := rfl
  have hfault (u : State) (r : RecInfo) : (u.noteFault r).host = u.host := rfl
  unfold State.decodeWord
  simp only [reduceCtorEq, if_false]
  split
  · rfl
  · rfl
  · split
    · rw [apply_ite State.host]
      exact (ite_congr rfl (fun _ => rfl) fun _ => (State.memEvent_host _ _ _).trans (State.memStat_host _ _)).trans (ite_self _)
    · simp [apply_ite State.host, State.memEvent_host, State.memStat_host, hdraw, hfault]
  · rw [apply_ite State.host]
    simp [State.memEvent_host, State.memStat_host, hdraw]

theorem State.signalWord_host (mode : BitVec 2) (wn : Nat) (image : Line16) : (s.signalWord mode wn image).host = s.host := by
  have hput (u : State) (d : Line16) (m : WordMark) : ((u.putWord wn d allBits).setMark wn m).host = u.host := rfl
  have hpoison (u : State) : (u.poisonRead wn).host = u.host := by
    unfold State.poisonRead
    split
    · exact State.memStat_host _ _
    · rfl
  unfold State.signalWord
  split
  · exact hput _ _ _
  · split
    · exact (hput _ _ _).trans ((hpoison _).trans (State.decodeWord_host wn))
    · exact hput _ _ _

theorem State.park_leaves (s : State) (wn : Nat) (was : Bool) : (s.park wn was).mem = s.mem ∧ (s.park wn was).host = s.host := by
  unfold State.park
  split
  · exact ⟨rfl, rfl⟩
  · exact ⟨State.setReg_mem _ _ _, State.setReg_host _ _ _⟩

/-- What a queue holds is the host interface's. -/
theorem State.hq_congr (h : t.host = s.host) (q : Nat) : t.hq q = s.hq q := by rw [State.hq, h, State.hq]

/-- What a decode marks depends on the marks alone. -/
theorem State.decodeWord_marks_congr (hm : t.marks = s.marks) (wn : Nat) :
    (t.decodeWord wn .clean).marks = (s.decodeWord wn .clean).marks := by
  have hset (m : WordMark) : (t.setMark wn m).marks = (s.setMark wn m).marks := by simp [State.setMark, hm]
  have hdraw (u : State) (m : WordMark) : (u.drawWord.2.setMark wn m).marks = (u.setMark wn m).marks := rfl
  unfold State.decodeWord
  simp only [reduceCtorEq, if_false, State.mark_congr hm]
  split
  · exact hm
  · exact hm
  · split
    · rw [apply_ite State.marks, apply_ite State.marks]
      simp [hm]
    · simp [apply_ite State.marks, hset]
  · rw [apply_ite State.marks, apply_ite State.marks]
    simp [hset, hdraw, hm]

/-- What a signal writes and marks depends on memory and marks alone (R282). -/
theorem State.signalWord_congr (hmem : t.mem = s.mem) (hm : t.marks = s.marks) (mode : BitVec 2) (wn : Nat) (image : Line16) :
    (t.signalWord mode wn image).mem = (s.signalWord mode wn image).mem
      ∧ (t.signalWord mode wn image).marks = (s.signalWord mode wn image).marks := by
  have hwrites {u v : State} (hmem : u.mem = v.mem) (hm : u.marks = v.marks) (d : Line16) (k : WordMark) :
      ((u.putWord wn d allBits).setMark wn k).mem = ((v.putWord wn d allBits).setMark wn k).mem
        ∧ ((u.putWord wn d allBits).setMark wn k).marks = ((v.putWord wn d allBits).setMark wn k).marks :=
    ⟨by simp [State.putWord, State.word, hmem], by simp [State.setMark, State.putWord, hm]⟩
  have hput (u : State) (d : Line16) : (u.putWord wn d allBits).mark wn = u.mark wn := rfl
  unfold State.signalWord
  split
  · rw [State.mark_congr hm]
    exact hwrites hmem hm _ _
  · split
    · have hdec : ((t.decodeWord wn .clean).poisonRead wn).mem = ((s.decodeWord wn .clean).poisonRead wn).mem := by
        rw [((t.decodeWord wn .clean).poisonRead_leaves wn).1, ((s.decodeWord wn .clean).poisonRead_leaves wn).1,
          State.decodeWord_mem, State.decodeWord_mem, hmem]
      have hdecm : ((t.decodeWord wn .clean).poisonRead wn).marks = ((s.decodeWord wn .clean).poisonRead wn).marks := by
        rw [((t.decodeWord wn .clean).poisonRead_leaves wn).2.1, ((s.decodeWord wn .clean).poisonRead_leaves wn).2.1,
          State.decodeWord_marks_congr hm]
      dsimp only
      rw [State.mark_congr hdecm, State.word, hdec, ← State.word]
      exact hwrites hdec hdecm _ _
    · rw [State.mark_congr hm]
      exact hwrites hmem hm _ _

end

end Sys2Proof.Machine
end

section
/-! SUPPORT. Commands that end at once, SIGNAL, WAIT, and the ends that a timeout or a refusal brings (R427, R429). -/

namespace Sys2Proof.Machine

section
variable {s : State} {q8 : BitVec 8} {i : Nat} {c : QCmd} {p : Part}

/-- The event of each command, on the first one that has not ended, and the command's OPC (R427). -/
def cmdEvents (q8 : BitVec 8) (i : Nat) : List (Instr × Nat) :=
  [(.queueNop q8, 0), (.queueStart q8, 1), (.copyIn q8 i (.ok []), 2), (.copyOut q8 i, 3), (.signal q8, 4), (.wait q8, 5)]

theorem cmdEvents_fail {st : Nat} (hcmd : (s.hq q8.toNat).cmds[i]? = some c) (howner : s.qOwner q8.toNat = some p)
    (hserved : s.qServed q8.toNat = true) (hstatus : c.status = none) (hbegun : c.begun = false)
    (hmay : s.mayBegin q8.toNat i = true) (hcheck : s.cmdCheck p c = some st) (hfirst : i = s.firstCmd q8.toNat)
    {ev : Instr} (hev : (ev, c.opc) ∈ cmdEvents q8 i) : exec ev s = .next (s.endCmd q8.toNat i st) := by
  have hfails {want : Nat → Bool} (f : Part → QCmd → State → State) (hwant : want c.opc = true) :=
    State.onCmd_fails (f := f) hcmd howner hserved hstatus hbegun hmay hcheck hwant
  simp only [cmdEvents, List.mem_cons, Prod.mk.injEq, List.not_mem_nil, or_false] at hev
  rcases hev with ⟨rfl, hopc⟩ | ⟨rfl, hopc⟩ | ⟨rfl, hopc⟩ | ⟨rfl, hopc⟩ | ⟨rfl, hopc⟩ | ⟨rfl, hopc⟩
  · subst hfirst; exact congrArg Host.Outcome.next (hfails _ (by simp [hopc]))
  · subst hfirst; exact congrArg Host.Outcome.next (hfails _ (by simp [hopc]))
  · exact congrArg Host.Outcome.next (hfails _ (by simp [hopc]))
  · exact congrArg Host.Outcome.next (hfails _ (by simp [hopc]))
  · subst hfirst; exact congrArg Host.Outcome.next (hfails _ (by simp [hopc]))
  · subst hfirst; exact congrArg Host.Outcome.next (hfails _ (by simp [hopc]))

theorem cmdEvents_wait (hcmd : (s.hq q8.toNat).cmds[i]? = some c) (hbegun : c.begun = false)
    (hfull : (s.hq q8.toNat).held ≠ [] ∨ s.cqRoom q8.toNat = false) :
    (i = s.firstCmd q8.toNat → ∀ ev ∈ [Instr.queueNop q8, .queueStart q8, .signal q8, .wait q8], exec ev s = .next s)
      ∧ ∀ a, exec (.copyIn q8 i a) s = .next s ∧ exec (.copyOut q8 i) s = .next s := by
  have hwaits {want : Nat → Bool} (f : Part → QCmd → State → State) :=
    State.onCmd_waits (want := want) (f := f) hcmd hbegun (State.mayBegin_full hfull)
  refine ⟨fun hfirst ev hev => ?_, fun a => ⟨congrArg Host.Outcome.next (hwaits _), congrArg Host.Outcome.next (hwaits _)⟩⟩
  subst hfirst
  simp only [List.mem_cons, List.not_mem_nil, or_false] at hev
  rcases hev with rfl | rfl | rfl | rfl
  · exact congrArg Host.Outcome.next (hwaits _)
  · exact congrArg Host.Outcome.next (hwaits _)
  · exact congrArg Host.Outcome.next (hwaits _)
  · exact congrArg Host.Outcome.next (hwaits _)

variable (hb : s.CmdBegins q8.toNat i p c)
include hb

theorem nop_ends (hopc : c.opc = 0) (hfirst : i = s.firstCmd q8.toNat) : ∃ t, exec (.queueNop q8) s = .next t
    ∧ t.cmdStatus q8.toNat i = some 0 ∧ t.mem = s.mem ∧ t.regs = s.regs := by
  subst hfirst
  have hexec : exec (.queueNop q8) s = .next _ := congrArg Host.Outcome.next (State.onCmd_begins hb (by simp [hopc]))
  exact ⟨_, hexec, State.endCmd_status (State.setCmd_cmds hb.1 _) _, State.endCmd_mem _, State.endCmd_regs _⟩

theorem copyIn_refused (hopc : c.opc = 2) : ∃ t, exec (.copyIn q8 i .refused) s = .next t
    ∧ t.cmdStatus q8.toNat i = some 4 ∧ t.mem = s.mem := by
  have hexec : exec (.copyIn q8 i .refused) s = .next _ := congrArg Host.Outcome.next (State.onCmd_begins hb (by simp [hopc]))
  exact ⟨_, hexec, State.endCmd_status (State.setCmd_cmds hb.1 _) _, State.endCmd_mem _⟩

theorem signal_ends (hopc : c.opc = 4) (hfirst : i = s.firstCmd q8.toNat) (hacc : s.mayAccess p c.wordAt = true) :
    ∃ t, exec (.signal q8) s = .next t ∧ t.cmdStatus q8.toNat i = some 0
      ∧ t.mem = (s.signalWord (BitVec.ofNat 2 c.mode) (c.wordAt / 16) (signalImage (c.w 2) 0 0)).mem
      ∧ t.marks = (s.signalWord (BitVec.ofNat 2 c.mode) (c.wordAt / 16) (signalImage (c.w 2) 0 0)).marks := by
  subst hfirst
  let i := s.firstCmd q8.toNat
  let c' : QCmd := { c with begun := true }
  let u := s.setCmd q8.toNat i c'
  have hexec : exec (.signal q8) s = .next ((u.signalWord (BitVec.ofNat 2 c.mode) (c.wordAt / 16) (signalImage (c.w 2) 0 0)).endCmd
      q8.toNat i 0) :=
    congrArg Host.Outcome.next ((State.onCmd_begins hb (by simp [hopc])).trans (if_pos hacc))
  obtain ⟨hmem, hmarks⟩ := State.signalWord_congr (s := s) (t := u) rfl rfl (BitVec.ofNat 2 c.mode) (c.wordAt / 16)
    (signalImage (c.w 2) 0 0)
  refine ⟨_, hexec, State.endCmd_status (c := c') ?_ _, (State.endCmd_mem _).trans hmem, ?_⟩
  · rw [State.hq_congr (State.signalWord_host _ _ _)]
    exact State.setCmd_cmds hb.1 c'
  · exact (State.endCmd_marks _).trans hmarks

omit hb in
theorem State.endWait_clean {q : Nat} (hb : (s.mark (c.wordAt / 16)).poison = false) (status : Nat) : s.endWait q i c status
    = (s.setCmd q i { c with result := (s.word (c.wordAt / 16)).setWidth 64 }).endCmd q i status := by
  rw [State.endWait, hb]
  rfl

theorem wait_ends (hopc : c.opc = 5) (hfirst : i = s.firstCmd q8.toNat) (hacc : s.mayAccess p c.wordAt = true)
    (hpoison : (s.mark (c.wordAt / 16)).poison = false) : let q := q8.toNat
    let holds := s.waitHolds c.wordAt (BitVec.ofNat 2 c.mode) (c.w 2)
    ∃ t, exec (.wait q8) s = .next t ∧ t.mem = s.mem
      ∧ (holds = true → t.regs = s.regs ∧ ∃ n, (∀ d ∈ (s.hq q).cmds, d.status.isSome = true → d.doneNo < n) ∧ (t.hq q).cmds[i]? = some
          { c with begun := true, status := some 0, result := (s.word (c.wordAt / 16)).setWidth 64, flushing := none, doneNo := n })
      ∧ (holds = false → (t.hq q).cmds[i]? = some { c with begun := true, parked := true }) := by
  intro q holds
  let c' : QCmd := { c with begun := true }
  let u := s.setCmd q i c'
  have hu : (u.hq q).cmds[i]? = some c' := State.setCmd_cmds hb.1 c'
  have hexec : exec (.wait q8) s = .next (if holds then u.endWait q i c' 0 else u.parkCmd q i (c.wordAt / 16) c') := by
    subst hfirst
    refine congrArg Host.Outcome.next ((State.onCmd_begins hb (by simp [hopc])).trans ?_)
    exact if_neg (by rw [Bool.not_eq_true, Bool.not_eq_false']; exact hacc)
  rw [hexec]
  cases hholds : holds with
  | true =>
    rw [if_pos rfl, State.endWait_clean (s := u) (c := c') hpoison, State.endCmd_eq (State.setCmd_cmds hu _)]
    refine ⟨_, rfl, rfl, fun _ => ⟨rfl, _, fun d hd hsome => lt_doneNext ?_ hsome, State.setCmd_cmds (State.setCmd_cmds hu _) _⟩,
      fun h => by cases h⟩
    obtain ⟨j, hj⟩ := List.mem_iff_getElem?.mp hd
    have hne : i ≠ j := by
      rintro rfl
      rw [hb.1] at hj
      obtain rfl := Option.some.inj hj
      rw [hb.2.2.2.1] at hsome
      cases hsome
    rw [State.setCmd_hq, State.setCmd_hq]
    exact List.mem_iff_getElem?.mpr ⟨j, by rw [List.getElem?_set_ne hne, List.getElem?_set_ne hne, hj]⟩
  | false =>
    rw [if_neg Bool.false_ne_true]
    obtain ⟨hmem, hhost⟩ := u.park_leaves (c.wordAt / 16) c'.parked
    exact ⟨_, rfl, hmem, (fun h => by cases h), fun _ => State.setCmd_cmds (by rw [State.hq_congr hhost]; exact hu) _⟩

omit hb

theorem waitTimeout_ends (hcmd : (s.hq q8.toNat).cmds[i]? = some c) (hfirst : i = s.firstCmd q8.toNat) (hbegun : c.begun = true)
    (hopc : c.opc = 5) (hlen : c.len ≠ 0) : ∃ t, exec (.queueWaitTimeout q8) s = .next t ∧ t.cmdStatus q8.toNat i = some 6
      ∧ t.mem = s.mem ∧ t.regs = s.regs
      ∧ ((s.mark (c.wordAt / 16)).poison = false →
        ((t.hq q8.toNat).cmds[i]?).map QCmd.result = some ((s.word (c.wordAt / 16)).setWidth 64)) := by
  have hexec : exec (.queueWaitTimeout q8) s = .next (s.endWait q8.toNat i c 6) := by
    subst hfirst
    change execQueueWaitTimeout q8 s = _
    rw [execQueueWaitTimeout, State.cmd, hcmd]
    simp [hbegun, hopc, hlen, stTimeout]
  have hends (u : State) (v : Word) (hmem : u.mem = s.mem) (hregs : u.regs = s.regs) (hq : u.hq q8.toNat = s.hq q8.toNat) :
      let t := (u.setCmd q8.toNat i { c with result := v }).endCmd q8.toNat i 6
      t.cmdStatus q8.toNat i = some 6 ∧ t.mem = s.mem ∧ t.regs = s.regs
        ∧ ((t.hq q8.toNat).cmds[i]?).map QCmd.result = some v := by
    have hset := State.setCmd_cmds (s := u) (by rw [hq]; exact hcmd) { c with result := v }
    refine ⟨State.endCmd_status hset _, (State.endCmd_mem _).trans hmem, (State.endCmd_regs _).trans hregs, ?_⟩
    rw [State.endCmd_eq hset, State.setCmd_cmds hset]
    rfl
  cases hpoison : (s.mark (c.wordAt / 16)).poison with
  | true =>
    obtain ⟨hstatus, hmem, hregs, -⟩ := hends s.drawWord.2 s.drawWord.1 rfl rfl rfl
    rw [State.endWait, hpoison] at hexec
    exact ⟨_, hexec, hstatus, hmem, hregs, fun h => by cases h⟩
  | false =>
    obtain ⟨hstatus, hmem, hregs, hresult⟩ := hends s _ rfl rfl rfl
    rw [State.endWait_clean hpoison] at hexec
    exact ⟨_, hexec, hstatus, hmem, hregs, fun _ => hresult⟩

/-- A START whose Bench has not left STOPPED waits on (R427). -/
theorem start_waits (hcmd : (s.hq q8.toNat).cmds[i]? = some c) (hserved : s.qServed q8.toNat = true) (hbegun : c.begun = true)
    (hstatus : c.status = none) (hopc : c.opc = 1)
    (hstays : ∃ b ∈ c.names, c.left.getLsbD b.val = false ∧ (s.fm b).st = .stopped) (a : HostAnswer) :
    exec (.queueCommandComplete q8 i a) s = .next s := by
  obtain ⟨b, hb, hleft, hst⟩ := hstays
  have hall : (c.names.all fun b => c.left.getLsbD b.val || (s.fm b).st != .stopped) = false :=
    List.all_eq_false.mpr ⟨b, hb, by rw [hleft, hst]; decide⟩
  have hfinish : s.finishCmd q8.toNat i c a = s := by
    unfold State.finishCmd
    rw [if_neg (by simp [hstatus, hbegun]), if_pos hopc]
    exact if_pos (by rw [hall]; rfl)
  change execQueueCommandComplete q8 i a s = _
  simp only [execQueueCommandComplete, hserved, hcmd, hfinish, State.postCmd, hstatus]
  simp

theorem readTimeout_ends (hfind : (s.hq q8.toNat).cmds.findIdx? (fun c => c.begun && c.status.isNone && (c.opc == 2 || c.flushing.isSome))
      = some i) : ∃ t, exec (.hostReadCompletionTimeout q8) s = .next t ∧ t.cmdStatus q8.toNat i = some 4 ∧ t.mem = s.mem
        ∧ t.regs = s.regs := by
  obtain ⟨hlen, -, -⟩ := List.findIdx?_eq_some_iff_getElem.mp hfind
  have hexec : exec (.hostReadCompletionTimeout q8) s = .next (s.endCmd q8.toNat i 4) := by
    change execHostReadCompletionTimeout q8 s = _
    rw [execHostReadCompletionTimeout, hfind]
    rfl
  exact ⟨_, hexec, State.endCmd_status (List.getElem?_eq_getElem hlen) _, State.endCmd_mem _, State.endCmd_regs _⟩

end

end Sys2Proof.Machine
end

section
/-! SUPPORT. A queue's START: what every Foreman's START leaves, and the Foremen that it sets going (R298, R427). -/

namespace Sys2Proof.Machine

section
variable {β : Type} (π : State → β) (hreg : ∀ s k v, π (State.setReg s k v) = π s) (hctl : ∀ s p f, π (State.onCtl s p f) = π s)
  (hbench : ∀ s b f, π (State.onBench s b f) = π s)
include hreg hctl hbench

/-- What neither registers, controllers nor Benches hold, a START leaves. -/
theorem State.fmStart_leaves (s : State) (b : Bid) : π (s.fmStart b) = π s := by
  have hidle (s : State) : π s.leaveIdle = π s := by
    unfold State.leaveIdle
    split
    · exact hreg _ _ _
    · rfl
  have hshow (s : State) (n : Nat) : π (s.showIdle n) = π s := by
    unfold State.showIdle
    split
    · exact hreg _ _ _
    · rfl
  have hempty (s : State) (p : Part) : π (s.emptyHistory p) = π s := by
    rw [State.emptyHistory_eq]
    exact (foldl_leaves π hshow _ _).trans (hctl _ _ _)
  unfold State.fmStart
  split
  · rfl
  · refine (hbench _ _ _).trans (Eq.trans ?_ (hidle s))
    split
    · split
      · exact hempty _ _
      · rfl
    · rfl

theorem State.fmCommand_leaves (s : State) (b : Bid) : π (s.fmCommand b F.FM_CTL_START (s.fmStart b)) = π s := by
  unfold State.fmCommand State.cross
  split
  · exact hbench _ _ _
  · exact State.fmStart_leaves π hreg hctl hbench s b

end

/-- A START performed, or held in the crossing (R298, R476). -/
def State.startOne (s : State) (b : Bid) : State := s.fmCommand b F.FM_CTL_START (s.fmStart b)

/-- What decides whether a Foreman may start, beside its own state, stands. -/
structure State.StartsAlike (s t : State) : Prop where
  loads : t.loads = s.loads
  mgmt : t.mgmt = s.mgmt
  health : t.health = s.health
  mainOn : t.pwr.mainOn = s.pwr.mainOn
  reg : ∀ k, K.PWR_STAT ≠ k → (∀ n, K.STEP_STATE n ≠ k) → t.reg k = s.reg k
  power : s.rf K.PWR_STAT F.PWR_STAT_STATE ≠ 2 → t.rf K.PWR_STAT F.PWR_STAT_STATE ≠ 2

/-- A Foreman that nothing refuses to start (R292, R298, R300, R477, R520, R532), in a Bench whose clock runs. -/
structure State.MayStart (s : State) (b : Bid) : Prop where
  stopped : (s.fm b).st = .stopped
  loading : s.loading b = false
  present : s.present b ucForeman 0 = true
  ready : s.ready = true
  testMode : s.mgmt.testMode = 0
  inReset : s.inReset b = false
  clock : s.rb (K.CLK_BENCH b) F.CLK_BENCH_STOPPED = false

section
variable {r s t : State} {b c : Bid}

theorem State.StartsAlike.refl (s : State) : s.StartsAlike s := ⟨rfl, rfl, rfl, rfl, fun _ _ _ => rfl, id⟩

theorem State.StartsAlike.trans (h : r.StartsAlike s) (g : s.StartsAlike t) : r.StartsAlike t :=
  ⟨g.loads.trans h.loads, g.mgmt.trans h.mgmt, g.health.trans h.health, g.mainOn.trans h.mainOn,
    fun k hk hn => (g.reg k hk hn).trans (h.reg k hk hn), fun hp => g.power (h.power hp)⟩

theorem State.StartsAlike.rf (h : s.StartsAlike t) {k : Nat} (hk : k % 0x1000000 ≠ 0x20) (hp : K.PWR_STAT ≠ k) (f : Fld) :
    t.rf k f = s.rf k f := by
  rw [State.rf, State.rf, h.reg k hp fun n => by simp only [K.STEP_STATE]; omega]

theorem State.MayStart.of_alike (h : s.MayStart b) (ha : s.StartsAlike t) (hfm : (t.fm b).st = (s.fm b).st) : t.MayStart b := by
  obtain ⟨hst, hload, hpres, hready, htest, hreset, hclock⟩ := h
  have hrf (k : Nat) (hk : k % 0x1000000 ≠ 0x20) (hp : K.PWR_STAT ≠ k) (f : Fld) := ha.rf hk hp f
  have hrb (k : Nat) (hk : k % 0x1000000 ≠ 0x20) (hp : K.PWR_STAT ≠ k) (f : Fld) : t.rb k f = s.rb k f := by
    rw [State.rb, State.rb, ha.rf hk hp f]
  have hpart : t.partOf b = s.partOf b := by
    have howns (p : Part) : t.owns p b = s.owns p b := by
      have h1 : K.PART_CFG p % 0x1000000 ≠ 0x20 := by simp only [K.PART_CFG]; omega
      have h2 : K.PWR_STAT ≠ K.PART_CFG p := by simp only [K.PART_CFG, K.PWR_STAT]; omega
      rw [State.owns, State.owns, State.partValid, State.partValid, hrb _ h1 h2, hrf _ h1 h2]
    simp only [State.partOf, howns]
  refine ⟨hfm.trans hst, ?_, ?_, ?_, by rw [ha.mgmt, htest], ?_, ?_⟩
  · rw [State.loading, ha.loads]
    exact hload
  · have h1 : K.FP_BENCH0 b % 0x1000000 ≠ 0x20 := by simp only [K.FP_BENCH0]; omega
    have h2 : K.PWR_STAT ≠ K.FP_BENCH0 b := by simp only [K.FP_BENCH0, K.PWR_STAT]; omega
    have h3 : K.BENCH_PWR b % 0x1000000 ≠ 0x20 := by simp only [K.BENCH_PWR]; omega
    have h4 : K.PWR_STAT ≠ K.BENCH_PWR b := by simp only [K.BENCH_PWR, K.PWR_STAT]; omega
    have hplan : t.planUnit b ucForeman 0 = s.planUnit b ucForeman 0 := by simp only [State.planUnit, hrf _ h1 h2]
    have hheld : t.heldFailed b ucForeman 0 = s.heldFailed b ucForeman 0 := by simp only [State.heldFailed, ha.health]
    simp only [State.present, State.computeOk, Bool.and_eq_true, bne_iff_ne] at hpres ⊢
    obtain ⟨⟨hp, hc, hpow⟩, hf⟩ := hpres
    exact ⟨⟨by rw [hplan, hp], by rw [hrb _ h1 h2, hrb _ h1 h2, hrb _ h3 h4]; exact hc, ha.power hpow⟩, by rw [hheld, hf]⟩
  · rw [State.ready, State.stage, ha.mainOn, hrf _ (by decide) (by decide)]
    exact hready
  · rw [State.inReset, ha.mgmt, hpart]
    exact hreset
  · rw [hrb _ (by simp only [K.CLK_BENCH]; omega) (by simp only [K.CLK_BENCH, K.PWR_STAT]; omega)]
    exact hclock

theorem State.startOne_mem (s : State) (b : Bid) : (s.startOne b).mem = s.mem :=
  s.fmCommand_leaves State.mem State.setReg_mem State.onCtl_mem State.onBench_mem b

theorem State.startOne_host (s : State) (b : Bid) : (s.startOne b).host = s.host :=
  s.fmCommand_leaves State.host State.setReg_host (fun _ _ _ => rfl) (fun _ _ _ => rfl) b

theorem State.leaveIdle_power (hp : s.rf K.PWR_STAT F.PWR_STAT_STATE ≠ 2) : s.leaveIdle.rf K.PWR_STAT F.PWR_STAT_STATE ≠ 2 := by
  unfold State.leaveIdle
  split
  · rw [State.rf_setRf_same _ _ _ _ (by decide)]
    decide
  · exact hp

/-- A START touches no register but PWR_STAT and the PHASEs of Benches. -/
theorem State.fmStart_reg (s : State) (b : Bid) {k : Nat} (hn : ∀ n, K.STEP_STATE n ≠ k) :
    (s.fmStart b).reg k = s.reg k ∨ (s.fmStart b).reg k = s.leaveIdle.reg k := by
  unfold State.fmStart
  split
  · exact .inl rfl
  · exact .inr ((State.historyAtStart_rest (s := s.leaveIdle) (b := b)).2.2 k hn)

theorem State.startOne_alike (s : State) (b : Bid) : s.StartsAlike (s.startOne b) := by
  have hpwr (n : Nat) : K.STEP_STATE n ≠ K.PWR_STAT := by simp only [K.STEP_STATE, K.PWR_STAT]; omega
  have hreg {k : Nat} (hn : ∀ n, K.STEP_STATE n ≠ k) :
      (s.startOne b).reg k = s.reg k ∨ (s.startOne b).reg k = s.leaveIdle.reg k := by
    unfold State.startOne State.fmCommand State.cross
    split
    · exact .inl rfl
    · exact s.fmStart_reg b hn
  refine ⟨?_, ?_, ?_, ?_, fun k hk hn => (hreg hn).elim id fun h => h.trans (State.leaveIdle_reg hk), fun hp => ?_⟩
  · exact s.fmCommand_leaves State.loads State.setReg_loads (fun _ _ _ => rfl) (fun _ _ _ => rfl) b
  · exact s.fmCommand_leaves State.mgmt State.setReg_mgmt (fun _ _ _ => rfl) (fun _ _ _ => rfl) b
  · exact s.fmCommand_leaves State.health State.setReg_health (fun _ _ _ => rfl) (fun _ _ _ => rfl) b
  · exact congrArg Power.mainOn (s.fmCommand_leaves State.pwr State.setReg_pwr (fun _ _ _ => rfl) (fun _ _ _ => rfl) b)
  · rcases hreg hpwr with h | h
    · rw [State.rf, h]; exact hp
    · rw [State.rf, h]; exact State.leaveIdle_power hp

/-- A START leaves every other Foreman. -/
theorem State.startOne_fm_other (s : State) (h : c ≠ b) : (s.startOne b).fm c = s.fm c := by
  unfold State.startOne State.fmCommand State.cross
  split
  · exact congrArg Bench.fm (State.onBench_bench_other _ _ _ _ h)
  · unfold State.fmStart
    split
    · rfl
    · refine (State.onFm_fm_other _ _ _ _ h).trans ?_
      have hhist := (State.historyAtStart_rest (s := s.leaveIdle) (b := b)).2.1
      exact State.fm_of_benches (hhist.trans s.leaveIdle_rest.2.1) c

theorem State.startOne_runs (h : s.MayStart b) : ((s.startOne b).fm b).st = .running
    ∧ ((s.startOne b).fm b).pc = BitVec.ofNat 15 (s.rf (K.FM_CTL b) F.FM_CTL_ENTRY) := by
  obtain ⟨hst, hload, hpres, hready, htest, hreset, hclock⟩ := h
  have hstart := State.fmStart_starts hst hload hpres hready htest hreset
  obtain ⟨hrun, -, hpc, -, -⟩ := State.start_runs hstart
  rw [State.startOne, State.fmCommand_running hclock]
  refine ⟨hrun, BitVec.eq_of_toNat_eq (hpc.trans ?_)⟩
  exact ((BitVec.toNat_ofNat _ _).trans (Nat.mod_eq_of_lt (fld_lt _ _ _))).symm

/-- STARTs of some Benches: the others' Foremen stand, and each that nothing refuses runs at its ENTRY. -/
theorem State.starts_run {l : List Bid} (hl : l.Nodup) (s : State) :
    (∀ c, c ∉ l → (l.foldl State.startOne s).fm c = s.fm c)
      ∧ ∀ c ∈ l, s.MayStart c → ((l.foldl State.startOne s).fm c).st = .running
        ∧ ((l.foldl State.startOne s).fm c).pc = BitVec.ofNat 15 (s.rf (K.FM_CTL c) F.FM_CTL_ENTRY) := by
  induction l generalizing s with
  | nil => exact ⟨fun _ _ => rfl, by simp⟩
  | cons b l ih =>
    obtain ⟨hb, hl⟩ := List.nodup_cons.mp hl
    obtain ⟨hothers, hruns⟩ := ih hl (s.startOne b)
    refine ⟨fun c hc => ?_, fun c hc hmay => ?_⟩
    · obtain ⟨hne, hnot⟩ := not_or.mp (mt List.mem_cons.mpr hc)
      exact (hothers c hnot).trans (s.startOne_fm_other hne)
    · rcases List.mem_cons.mp hc with rfl | hc
      · rw [List.foldl_cons, hothers c hb]
        exact State.startOne_runs hmay
      · have hne : c ≠ b := fun e => hb (e ▸ hc)
        have halike := s.startOne_alike b
        have hentry : (s.startOne b).rf (K.FM_CTL c) F.FM_CTL_ENTRY = s.rf (K.FM_CTL c) F.FM_CTL_ENTRY :=
          halike.rf (by simp only [K.FM_CTL]; omega) (by simp only [K.FM_CTL, K.PWR_STAT]; omega) _
        rw [List.foldl_cons, ← hentry]
        exact hruns c hc (hmay.of_alike halike (congrArg Foreman.st (s.startOne_fm_other hne)))

end

section
variable {s : State} {q8 : BitVec 8} {i : Nat} {c : QCmd} {p : Part}

theorem State.ready_of_served {q : Nat} (h : s.qServed q = true) : s.ready = true := by
  unfold State.qServed at h
  split at h
  · simp only [Bool.and_eq_true] at h
    exact h.1.1.2
  · cases h

theorem State.cmdCheck_start (hopc : c.opc = 1) : s.cmdCheck p c = if !c.fieldsOk then some stInvalid
    else if c.names.any fun b => !s.owns p b then some stNotOwned
    else if c.names.any fun b => (s.fm b).st != .stopped || s.rb (K.BENCH_PWR b) F.BENCH_PWR_GATED then some stState
    else none := by
  unfold State.cmdCheck
  rw [hopc]
  rfl

/-- A START that begins finds every Bench it names STOPPED (R427). -/
theorem State.stopped_of_check (hcheck : s.cmdCheck p c = none) (hopc : c.opc = 1) : ∀ b ∈ c.names, (s.fm b).st = .stopped := by
  intro b hb
  rw [State.cmdCheck_start hopc] at hcheck
  split at hcheck
  · cases hcheck
  · split at hcheck
    · cases hcheck
    · split at hcheck
      · cases hcheck
      · next hnone =>
        by_contra hst
        exact hnone (List.any_eq_true.mpr ⟨b, hb, by rw [bne_iff_ne.mpr hst, Bool.true_or]⟩)

theorem start_starts (hb : s.CmdBegins q8.toNat i p c) (hopc : c.opc = 1) (hfirst : i = s.firstCmd q8.toNat) :
    ∃ t, exec (.queueStart q8) s = .next t ∧ t.mem = s.mem
      ∧ ((t.hq q8.toNat).cmds[i]?).map (fun d => (d.begun, d.status)) = some (true, none)
      ∧ (∀ b, b ∉ c.names → t.fm b = s.fm b)
      ∧ ∀ b ∈ c.names, s.loading b = false → s.present b ucForeman 0 = true → s.mgmt.testMode = 0 → s.inReset b = false →
          s.rb (K.CLK_BENCH b) F.CLK_BENCH_STOPPED = false →
          (t.fm b).st = .running ∧ (t.fm b).pc = BitVec.ofNat 15 (s.rf (K.FM_CTL b) F.FM_CTL_ENTRY) := by
  obtain ⟨hcmd, -, hserved, hstatus, hbegun, -, hcheck⟩ := id hb
  let c' : QCmd := { c with begun := true }
  let u := s.setCmd q8.toNat i c'
  let v := c.names.foldl State.startOne u
  let left : BitVec 16 := BitVec.ofNat 16 ((c.names.filter fun b => (v.fm b).st != .stopped).map fun b => 2 ^ b.val).sum
  have hexec : exec (.queueStart q8) s = .next (v.setCmd q8.toNat i { c' with left := left }) := by
    subst hfirst
    have hfresh : (match (s.hq q8.toNat).cmds[s.firstCmd q8.toNat]? with | some c => !c.begun | none => false) = true := by
      rw [hcmd]
      simp [hbegun]
    refine congrArg Host.Outcome.next ((State.onCmd_begins hb (by simp [hopc])).trans ?_)
    exact if_neg (by rw [Bool.not_eq_true, Bool.not_eq_false']; exact hfresh)
  obtain ⟨hothers, hruns⟩ := State.starts_run (List.Nodup.filter _ (List.nodup_finRange 16)) u
  have hhost : v.host = u.host := foldl_leaves State.host State.startOne_host _ _
  have hvcmd : (v.hq q8.toNat).cmds[i]? = some c' := by
    rw [State.hq_congr hhost]
    exact State.setCmd_cmds hcmd c'
  refine ⟨_, hexec, foldl_leaves State.mem State.startOne_mem c.names u, ?_, hothers, ?_⟩
  · rw [State.setCmd_cmds hvcmd]
    exact congrArg (fun st => some (true, st)) hstatus
  · intro b hmem hload hpres htest hreset hclock
    exact hruns b hmem ⟨State.stopped_of_check hcheck hopc b hmem, hload, hpres, State.ready_of_served hserved, htest, hreset, hclock⟩

end

end Sys2Proof.Machine
end

section
/-! SUPPORT. A queue's COPY commands: the words of one transfer moved (R427, R429, R432). -/

namespace Sys2Proof.Machine

/-! ## Bytes in order -/

theorem mwrite_append (m : List Host.Cell) (a : Nat) (l l' : List Byte) :
    mwrite m a (l ++ l') = mwrite (mwrite m a l) (a + l.length) l' := by
  induction l generalizing m a with
  | nil => rfl
  | cons b l ih => rw [List.cons_append, mwrite, ih, mwrite, List.length_cons, show a + 1 + l.length = a + (l.length + 1) by omega]

/-- Sixteen bytes are the bytes of the word that they spell. -/
theorem toBytes_wordOf {l : List Byte} (h : l.length = 16) : toBytes 16 (BitVec.ofNat 128 (ofBytes l)).toNat = l := by
  have hlt : ofBytes l < 2 ^ 128 := by
    have := ofBytes_lt l
    rw [h] at this
    exact this
  rw [BitVec.toNat_ofNat, Nat.mod_eq_of_lt hlt, ← h, toBytes_ofBytes]

/-- The bytes of a transfer as a host write takes them: each with its address, none poisoned (R432). -/
def hostPieces (a : Nat) (l : List Byte) : List (Nat × Byte × Bool) := l.zipIdx.map fun x => (a + x.2, x.1, false)

theorem hostPieces_append (a : Nat) (l l' : List Byte) :
    hostPieces a (l ++ l') = hostPieces a l ++ hostPieces (a + l.length) l' := by
  have hshift : (l'.zipIdx l.length).map (fun x => (a + x.2, x.1, false)) = hostPieces (a + l.length) l' := by
    rw [hostPieces, List.zipIdx_eq_map_add, List.map_map]
    refine List.map_congr_left fun x _ => ?_
    simp only [Function.comp_apply, Prod.mk.injEq, and_true]
    omega
  rw [hostPieces, List.zipIdx_append, List.map_append, Nat.zero_add, hshift]
  rfl

/-- A host's memory holds the bytes written to it. -/
theorem tget_hostPieces (m : Tab Byte) (a : Nat) (l : List Byte) {k : Nat} (hk : k < l.length) :
    tget 0 ((hostPieces a l).foldl (fun m x => tset 0 m x.1 x.2.1) m) (a + k) = l.getD k 0 := by
  induction l using List.reverseRecOn with
  | nil => exact absurd hk (Nat.not_lt_zero k)
  | append_singleton l b ih =>
    rw [hostPieces_append, List.foldl_append]
    generalize hm : (hostPieces a l).foldl (fun m x => tset 0 m x.1 x.2.1) m = m' at ih ⊢
    simp only [hostPieces, List.zipIdx_singleton, List.map_cons, List.map_nil, List.foldl_cons, List.foldl_nil]
    rw [Nat.add_zero]
    by_cases h : k = l.length
    · subst h
      rw [tget_tset_same]
      simp
    · rw [List.length_append, List.length_singleton] at hk
      rw [tget_tset_other _ _ _ (by omega)]
      refine (ih (by omega)).trans ?_
      rw [List.getD_append _ _ _ _ (by omega)]

section
variable {s t : State} {q i : Nat} {c : QCmd} {p : Part}

/-! ## Slots charged -/

theorem State.charge_host (s : State) (p : Part) (read : Bool) (l : List (Nat × Nat × Nat)) : (s.charge p read l).host = s.host := by
  refine foldl_leaves State.host (fun s g => ?_) _ s
  have hcount (s : State) (n k : Nat) : (s.countH n k).host = s.host := State.setReg_host _ _ _
  have hstk (s : State) (k : Fin 8) (f : Stack → Stack) : (s.onStk k f).host = s.host := rfl
  have hslots (s : State) (k : Fin 8) (cls cost bytes : Nat) : (s.slotsUsed k cls cost bytes).host = s.host := by
    rw [State.slotsUsed, hstk, hcount, hcount]
  exact hslots _ _ _ _ _

theorem State.chargeCopy_leaves (s : State) (q i : Nat) (p : Part) (read : Bool) (from_ : Nat) :
    (s.chargeCopy q i p read from_).mem = s.mem ∧ (s.chargeCopy q i p read from_).host = s.host := by
  unfold State.chargeCopy
  split
  · exact ⟨State.charge_mem _ _ _ _, State.charge_host _ _ _ _⟩
  · exact ⟨rfl, rfl⟩

/-! ## COPY_IN -/

/-- A whole word of Bench SRAM written by a Hub unit under FILL or PLAIN (R212). -/
theorem State.hubWrite_whole {r : WrReq} (ucls index : Nat) (hacc : s.mayAccess p (16 * r.word) = true)
    (hsram : inSram (16 * r.word) = true) (hmask : r.mask = allBits) (hfe : r.fe.getLsbD 0 = false) :
    ∃ m, s.hubWrite p ucls index r = .ok () ((s.putWord r.word r.data allBits).setMark r.word m) := by
  have hput : ∃ m, s.hubPut p r = .ok () ((s.putWord r.word r.data allBits).setMark r.word m) := by
    rw [State.hubPut, if_pos hsram, State.writeWord]
    dsimp only
    rw [if_neg (by rw [hfe, Bool.and_false, Bool.false_and]; exact Bool.false_ne_true), hmask]
    exact ⟨_, rfl⟩
  obtain ⟨m, hput⟩ := hput
  refine ⟨m, ?_⟩
  rw [State.hubWrite, if_neg (by rw [hacc]; decide), if_neg (by rw [hsram]; simp), hput]

/-- The units of a transfer written, where each may be accessed. -/
theorem State.copyWords_all (n : Nat) {l : List Byte} (hcmd : (s.hq q).cmds[i]? = some c) (hl : l.length = 16 * n)
    (hmode : (BitVec.ofNat 2 c.mode).getLsbD 0 = false)
    (hacc : ∀ k < n, s.mayAccess p (16 * (c.dev / 16 + c.moved + k)) = true ∧ inSram (16 * (c.dev / 16 + c.moved + k)) = true) :
    ((s.copyWords q i p c l n).hq q).cmds[i]? = some { c with moved := c.moved + n }
      ∧ (s.copyWords q i p c l n).mem = mwrite s.mem (16 * (c.dev / 16 + c.moved)) l := by
  induction n generalizing s c l with
  | zero =>
    rw [Nat.mul_zero] at hl
    rw [List.eq_nil_of_length_eq_zero hl]
    exact ⟨hcmd, rfl⟩
  | succ n ih =>
    obtain ⟨hacc0, hsram0⟩ := hacc 0 (Nat.succ_pos n)
    rw [Nat.add_zero] at hacc0 hsram0
    let r : WrReq := ⟨c.dev / 16 + c.moved, BitVec.ofNat 128 (ofBytes (l.take 16)), allBits, BitVec.ofNat 2 c.mode, false, c.memClass⟩
    obtain ⟨m, hput⟩ := State.hubWrite_whole (s := s) (p := p) (r := r) ucHubCore (queueCore p) hacc0 hsram0 rfl hmode
    let d : QCmd := { c with moved := c.moved + 1 }
    let u : State := ((s.putWord r.word r.data allBits).setMark r.word m).setCmd q i d
    have hstep : s.copyWords q i p c l (n + 1) = u.copyWords q i p d (l.drop 16) n := by
      rw [State.copyWords]
      dsimp only
      rw [show s.hubWrite p ucHubCore (queueCore p) ⟨c.dev / 16 + c.moved, BitVec.ofNat 128 (ofBytes (l.take 16)), allBits,
        BitVec.ofNat 2 c.mode, false, c.memClass⟩ = _ from hput]
    have htake : (l.take 16).length = 16 := by rw [List.length_take, hl]; omega
    have hmem : u.mem = mwrite s.mem (16 * (c.dev / 16 + c.moved)) (l.take 16) := by
      refine (State.putWord_whole s _ _).trans ?_
      rw [toBytes_wordOf htake]
    obtain ⟨hcmds, hall⟩ := ih (s := u) (c := d) (l := l.drop 16) (State.setCmd_cmds hcmd d)
      (by rw [List.length_drop, hl]; omega) hmode fun k hk => by
        have hnext := hacc (k + 1) (by omega)
        rw [show c.dev / 16 + c.moved + (k + 1) = c.dev / 16 + (c.moved + 1) + k by omega] at hnext
        exact hnext
    rw [hstep]
    refine ⟨hcmds.trans (congrArg some ?_), hall.trans ?_⟩
    · simp only [d]
      rw [Nat.add_right_comm c.moved 1 n]
      rfl
    · rw [hmem, show 16 * (d.dev / 16 + d.moved) = 16 * (c.dev / 16 + c.moved) + (l.take 16).length by
        rw [htake]; change 16 * (c.dev / 16 + (c.moved + 1)) = _; omega, ← mwrite_append, List.take_append_drop]

/-- The fields that a COPY's checks ask for (R426, R427). -/
theorem QCmd.copyFields (hok : c.fieldsOk = true) (hcopy : c.opc = 2 ∨ c.opc = 3) :
    (c.mode = 0 ∨ c.mode = 2) ∧ c.dev % 16 = 0 ∧ c.len ≠ 0 := by
  unfold QCmd.fieldsOk at hok
  rcases hcopy with h | h
  · rw [h] at hok
    simp only [Bool.and_eq_true, Bool.or_eq_true, beq_iff_eq, bne_iff_ne] at hok
    obtain ⟨-, ⟨⟨⟨⟨-, hmode⟩, -⟩, -⟩, hdev⟩, hlen⟩ := hok
    exact ⟨hmode, hdev, hlen⟩
  · rw [h] at hok
    simp only [Bool.and_eq_true, Bool.or_eq_true, beq_iff_eq, bne_iff_ne] at hok
    obtain ⟨-, ⟨⟨⟨⟨-, hmode⟩, -⟩, -⟩, hdev⟩, hlen⟩ := hok
    exact ⟨hmode, hdev, hlen⟩

theorem State.cmdCheck_copy (hcopy : c.opc = 2 ∨ c.opc = 3) (hcheck : s.cmdCheck p c = none) :
    c.fieldsOk = true ∧ s.rangeOk p c.dev (16 * c.len) = true := by
  have heq : s.cmdCheck p c = if !c.fieldsOk then some stInvalid
      else if s.rangeOk p c.dev (16 * c.len) then none else some stNotOwned := by
    unfold State.cmdCheck
    rcases hcopy with h | h
    · rw [h]; rfl
    · rw [h]; rfl
  rw [heq] at hcheck
  split at hcheck
  · cases hcheck
  · next hok =>
    split at hcheck
    · next hrange => exact ⟨by simpa using hok, hrange⟩
    · cases hcheck

end

end Sys2Proof.Machine
end

section
/-! SUPPORT. COPY_IN and COPY_OUT of one transfer (R427, R432). -/

namespace Sys2Proof.Machine

section
variable {s t : State} {q8 : BitVec 8} {q i : Nat} {c : QCmd} {p : Part}

/-- The words of a range at a multiple of 16. -/
theorem mem_wordsOf_copy {a n k : Nat} (ha : a % 16 = 0) (hk : k < n) : a / 16 + k ∈ wordsOf a (16 * n) :=
  mem_wordsOf.mpr (by omega)

/-- A range that begins in Bench SRAM and lies in one window lies in it whole (R218). -/
theorem State.rangeOk_inSram {a n k : Nat} (hrange : s.rangeOk p a (16 * n) = true) (hs : inSram a = true) (ha : a % 16 = 0)
    (hk : k < n) : inSram (16 * (a / 16 + k)) = true := by
  unfold State.rangeOk at hrange
  dsimp only at hrange
  rw [if_neg (by omega), if_pos hs, Bool.and_eq_true, Bool.and_eq_true] at hrange
  obtain ⟨⟨hhi, -⟩, -⟩ := hrange
  rw [inSram_iff] at hhi ⊢
  omega

theorem copyIn_moves (hi : s.Inv) (hb : s.CmdBegins q8.toNat i p c) (hopc : c.opc = 2) {l : List Byte} (hmoved : c.moved = 0)
    (hlen : c.len ≤ 256) (hl : l.length = 16 * c.len) (hs : inSram c.dev = true)
    (hacc : ∀ w ∈ wordsOf c.dev (16 * c.len), s.mayAccess p (16 * w) = true) :
    ∃ t, exec (.copyIn q8 i (.ok l)) s = .next t ∧ t.cmdStatus q8.toNat i = some 0 ∧ mread t.mem c.dev (16 * c.len) = l
      ∧ ∀ a, a < c.dev ∨ c.dev + 16 * c.len ≤ a → mget t.mem a = mget s.mem a := by
  obtain ⟨hcmd, -, -, hstatus, -, -, hcheck⟩ := id hb
  obtain ⟨hok, hrange⟩ := State.cmdCheck_copy (.inl hopc) hcheck
  obtain ⟨hmode, hdev, hne⟩ := QCmd.copyFields hok (.inl hopc)
  let q := q8.toNat
  let c' : QCmd := { c with begun := true }
  let u := s.setCmd q i c'
  have hn : Nat.min copyUnits (Nat.min (c'.len - c'.moved) (l.length / 16)) = c.len := by
    change min 256 (min (c.len - c.moved) (l.length / 16)) = c.len
    rw [hmoved, hl]
    omega
  have hfe : (BitVec.ofNat 2 c'.mode).getLsbD 0 = false := by
    change (BitVec.ofNat 2 c.mode).getLsbD 0 = false
    rcases hmode with h | h <;> rw [h] <;> rfl
  have hplace : c'.dev / 16 + c'.moved = c.dev / 16 := by
    change c.dev / 16 + c.moved = _
    rw [hmoved, Nat.add_zero]
  obtain ⟨hcmds, hmem⟩ := State.copyWords_all (s := u) (p := p) c.len (State.setCmd_cmds hcmd c') hl hfe fun k hk => by
    rw [hplace]
    exact ⟨hacc _ (mem_wordsOf_copy hdev hk), State.rangeOk_inSram hrange hs hdev hk⟩
  let v := (u.copyWords q i p c' l c.len).chargeCopy q i p false c'.moved
  obtain ⟨hvmem, hvhost⟩ := (u.copyWords q i p c' l c.len).chargeCopy_leaves q i p false c'.moved
  have hvcmd : (v.hq q).cmds[i]? = some { c' with moved := c'.moved + c.len } := by
    rw [State.hq_congr hvhost]
    exact hcmds
  have hexec : exec (.copyIn q8 i (.ok l)) s = .next (v.endCmd q i 0) := by
    refine congrArg Host.Outcome.next ((State.onCmd_begins hb (by simp [hopc])).trans ?_)
    dsimp only
    rw [hn]
    refine (show _ = (match (v.hq q).cmds[i]? with
      | some c => if c.status.isNone && c.len ≤ c.moved then v.endCmd q i stOk else v
      | none => v) from rfl).trans ?_
    rw [hvcmd]
    refine if_pos ?_
    change (c.status.isNone && decide (c.len ≤ c.moved + c.len)) = true
    rw [hstatus]
    simp
  have hfinal : (v.endCmd q i 0).mem = mwrite s.mem c.dev l := by
    rw [State.endCmd_mem, hvmem, hmem, hplace, Nat.mul_div_cancel' (Nat.dvd_of_mod_eq_zero hdev)]
    rfl
  have hwf : Memory.wf s.mem := hi.1.1
  refine ⟨_, hexec, State.endCmd_status hvcmd _, ?_, fun a ha => ?_⟩
  · rw [hfinal, ← hl]
    exact mread_mwrite _ _ _ hwf
  · rw [hfinal]
    exact mget_mwrite_outside _ _ _ _ hwf (by rw [hl]; exact ha)

/-! ## COPY_OUT -/

/-- A sound word that a Hub unit reads under PLAIN, or under WAIT-FULL where it is full, is read, and nothing changes (R212). -/
theorem State.hubRead_clean {wn : Nat} {fe : BitVec 2} (ucls index : Nat) (hacc : s.mayAccess p (16 * wn) = true)
    (hclean : (s.mark wn).upset = .clean) (hpoison : (s.mark wn).poison = false) (hfe : fe = 0 ∨ fe = 2)
    (hfull : inSram (16 * wn) = true → fe = 2 ∨ s.full wn = true) :
    s.hubRead p ucls index wn fe = .ok ⟨s.word wn, false⟩ s := by
  have hread : s.readWord wn fe = .ok ⟨s.word wn, false⟩ s := by
    rw [State.readWord, s.decodeWord_clean wn hclean, hpoison]
    split
    · rfl
    · next hgo =>
      have hgo' : inSram (16 * wn) = true ∧ fe ≠ 2 := by simpa using hgo
      have hbit : (s.mark wn).full = true := (hfull hgo'.1).resolve_left hgo'.2
      rw [hbit, if_neg (by decide), if_neg (by rcases hfe with h | h <;> rw [h] <;> decide)]
  rw [State.hubRead, if_neg (by rw [hacc]; decide), hread]
  rfl

/-- A COPY that has moved n units more. -/
def QCmd.copied (c : QCmd) (n : Nat) : QCmd := { c with moved := c.moved + n, parked := c.parked && n == 0 }

/-- The units of a transfer read, where each is sound and may be accessed. -/
theorem State.copyRead_all (n : Nat) (hcmd : (s.hq q).cmds[i]? = some c) (hpois : c.poison = false)
    (hmode : BitVec.ofNat 2 c.mode = 0 ∨ BitVec.ofNat 2 c.mode = 2)
    (hall : ∀ k < n, let w := c.dev / 16 + c.moved + k
      s.mayAccess p (16 * w) = true ∧ (s.mark w).upset = .clean ∧ (s.mark w).poison = false
        ∧ (inSram (16 * w) = true → BitVec.ofNat 2 c.mode = 2 ∨ s.full w = true)) :
    (s.copyRead q i p c n).1 = hostPieces (c.hostAddr + 16 * c.moved) (mread s.mem (16 * (c.dev / 16 + c.moved)) (16 * n))
      ∧ ((s.copyRead q i p c n).2.hq q).cmds[i]? = some (c.copied n) ∧ (s.copyRead q i p c n).2.mem = s.mem
      ∧ (s.copyRead q i p c n).2.host.ports = s.host.ports := by
  induction n generalizing s c with
  | zero =>
    refine ⟨rfl, hcmd.trans (congrArg some ?_), rfl, rfl⟩
    cases c
    simp [QCmd.copied]
  | succ n ih =>
    obtain ⟨hacc, hclean, hpoison, hfull⟩ := hall 0 (Nat.succ_pos n)
    rw [Nat.add_zero] at hacc hclean hpoison hfull
    have hread := State.hubRead_clean (s := s) (p := p) ucHubCore (queueCore p) hacc hclean hpoison hmode hfull
    let d : QCmd := { c with moved := c.moved + 1, poison := c.poison || false, parked := false }
    let u := s.setCmd q i d
    have hstep : s.copyRead q i p c (n + 1)
        = ((toBytes 16 (s.word (c.dev / 16 + c.moved)).toNat).zipIdx.map (fun x => (c.hostAddr + 16 * c.moved + x.2, x.1, false))
          ++ (u.copyRead q i p d n).1, (u.copyRead q i p d n).2) := by
      rw [State.copyRead]
      dsimp only
      rw [hread]
    have hdp : d.poison = false := by rw [show d.poison = (c.poison || false) from rfl, hpois]; rfl
    obtain ⟨hl, hcmds, hmem, hports⟩ := ih (s := u) (c := d) (State.setCmd_cmds hcmd d) hdp hmode fun k hk => by
      have hnext := hall (k + 1) (by omega)
      rw [show c.dev / 16 + c.moved + (k + 1) = c.dev / 16 + (c.moved + 1) + k by omega] at hnext
      exact hnext
    rw [hstep]
    refine ⟨?_, hcmds.trans (congrArg some ?_), hmem, hports⟩
    · dsimp only
      rw [hl, State.toBytes_word, show 16 * (n + 1) = 16 + 16 * n by omega, mread_add, hostPieces_append, length_mread]
      change _ ++ hostPieces (c.hostAddr + 16 * (c.moved + 1)) (mread s.mem (16 * (c.dev / 16 + (c.moved + 1))) (16 * n)) = _
      rw [show c.hostAddr + 16 * (c.moved + 1) = c.hostAddr + 16 * c.moved + 16 by omega,
        show 16 * (c.dev / 16 + (c.moved + 1)) = 16 * (c.dev / 16 + c.moved) + 16 by omega]
      rfl
    · simp only [QCmd.copied, d, hpois]
      congr 1
      · omega
      · simp

theorem State.hostWrite_hq (s : State) (l : List (Nat × Byte × Bool)) : (s.hostWrite p l).hq q = s.hq q := by
  rw [State.hostWrite, State.countP, State.count, State.hq_congr (State.setReg_host _ _ _)]
  rfl

theorem State.hostWrite_port (s : State) (l : List (Nat × Byte × Bool)) :
    ((s.hostWrite p l).hport p).mem = l.foldl (fun m x => tset 0 m x.1 x.2.1) (s.hport p).mem := by
  rw [State.hostWrite, State.countP, State.count, State.hport, State.setReg_host, State.onHport]
  simp [State.hport]

theorem copyOut_moves (hb : s.CmdBegins q8.toNat i p c) (hopc : c.opc = 3) (hmoved : c.moved = 0) (hflush : c.flushing = none)
    (hpois : c.poison = false) (hlen : c.len ≤ 256)
    (hall : ∀ w ∈ wordsOf c.dev (16 * c.len), s.mayAccess p (16 * w) = true ∧ (s.mark w).upset = .clean
      ∧ (s.mark w).poison = false ∧ (inSram (16 * w) = true → c.mode = 2 ∨ s.full w = true)) :
    ∃ t, exec (.copyOut q8 i) s = .next t ∧ t.mem = s.mem
      ∧ (t.hq q8.toNat).cmds[i]? = some { c with begun := true, moved := c.len, flushing := some (c.hostAddr + 16 * c.len - 1), parked := false }
      ∧ (twf (fun _ => (0 : Byte)) (s.hport p).mem →
        ∀ k < 16 * c.len, tget 0 (t.hport p).mem (c.hostAddr + k) = mget s.mem (c.dev + k)) := by
  obtain ⟨hcmd, -, -, hstatus, -, -, hcheck⟩ := id hb
  obtain ⟨hok, -⟩ := State.cmdCheck_copy (.inr hopc) hcheck
  obtain ⟨hmode, hdev, hne⟩ := QCmd.copyFields hok (.inr hopc)
  let q := q8.toNat
  let c' : QCmd := { c with begun := true }
  let u := s.setCmd q i c'
  have hn : Nat.min copyUnits (c'.len - c'.moved) = c.len := by
    change min 256 (c.len - c.moved) = c.len
    rw [hmoved]
    omega
  have hplace : c'.dev / 16 + c'.moved = c.dev / 16 := by
    change c.dev / 16 + c.moved = _
    rw [hmoved, Nat.add_zero]
  have hfe : BitVec.ofNat 2 c'.mode = 0 ∨ BitVec.ofNat 2 c'.mode = 2 := by
    change BitVec.ofNat 2 c.mode = 0 ∨ BitVec.ofNat 2 c.mode = 2
    rcases hmode with h | h
    · exact .inl (by rw [h]; rfl)
    · exact .inr (by rw [h]; rfl)
  obtain ⟨hl, hcmds, hmem, hports⟩ := State.copyRead_all (s := u) (p := p) (c := c') c.len (State.setCmd_cmds hcmd c') hpois hfe
    fun k hk => by
      rw [hplace]
      obtain ⟨hacc, hclean, hpoison, hfull⟩ := hall _ (mem_wordsOf_copy hdev hk)
      exact ⟨hacc, hclean, hpoison, fun h => (hfull h).imp (fun h => by rw [show c'.mode = c.mode from rfl, h]; rfl) id⟩
  let x := u.copyRead q i p c' c.len
  let v := (x.2.hostWrite p x.1).chargeCopy q i p true c'.moved
  obtain ⟨hvmem, hvhost⟩ := (x.2.hostWrite p x.1).chargeCopy_leaves q i p true c'.moved
  have hvcmd : (v.hq q).cmds[i]? = some (c'.copied c.len) := by
    rw [State.hq_congr hvhost, State.hostWrite_hq]
    exact hcmds
  have hexec : exec (.copyOut q8 i) s
      = .next (v.setCmd q i { c'.copied c.len with flushing := some (c.hostAddr + 16 * c.len - 1) }) := by
    refine congrArg Host.Outcome.next ((State.onCmd_begins hb (by simp [hopc])).trans ?_)
    dsimp only
    rw [if_neg (by rw [hflush]; decide), hn]
    refine (show _ = (match v.cmd q i with
      | some c => if c.status.isNone && c.len ≤ c.moved then v.setCmd q i { c with flushing := some (c.hostAddr + 16 * c.len - 1) } else v
      | none => v) from rfl).trans ?_
    rw [State.cmd, hvcmd]
    refine if_pos ?_
    change (c.status.isNone && decide (c.len ≤ c.moved + c.len)) = true
    rw [hstatus]
    simp
  refine ⟨_, hexec, ?_, ?_, ?_⟩
  · exact hvmem.trans ((State.hostWrite_mem _ _ _).trans hmem)
  · rw [State.setCmd_cmds hvcmd]
    have hparked : (c.parked && c.len == 0) = false := by simp [hne]
    simp only [QCmd.copied, c', hparked, hmoved, Nat.zero_add]
  · intro _ k hk
    have hport : ((v.setCmd q i { c'.copied c.len with flushing := some (c.hostAddr + 16 * c.len - 1) }).hport p).mem
        = x.1.foldl (fun m x => tset 0 m x.1 x.2.1) (x.2.hport p).mem := by
      change (v.hport p).mem = _
      rw [← State.hostWrite_port]
      exact congrArg (fun h : HostIf => h.ports[p].mem) hvhost
    have hfrom : c'.hostAddr + 16 * c'.moved = c.hostAddr := by
      change c.hostAddr + 16 * c.moved = _
      rw [hmoved, Nat.mul_zero, Nat.add_zero]
    have hread : x.1 = hostPieces c.hostAddr (mread s.mem c.dev (16 * c.len)) := by
      refine hl.trans ?_
      rw [hplace, hfrom, Nat.mul_div_cancel' (Nat.dvd_of_mod_eq_zero hdev)]
      rfl
    rw [hport, hread, tget_hostPieces _ _ _ (by rw [length_mread]; exact hk), getD_mread _ _ hk]

end

end Sys2Proof.Machine
end

section
/-! The settlement of O46. -/

open Sys2Proof Sys2Proof.Machine

/-- Settles O46: each event of a command takes it in hand as `State.onCmd` does, begun after its checks; the commands' own work is
said by the lemmas on START, COPY, SIGNAL and WAIT above. -/
theorem queueCommands : Obligations.QueueCommands := by
  unfold Obligations.QueueCommands
  intro s p q8 i c hi q
  refine ⟨?fails, ?full, ?begins, ?waitTimeout, ?starting, ?readTimeout⟩
  case fails =>
    intro st hcmd howner hserved hstatus hbegun hmay hcheck hfirst ev opc hev hopc
    have hexec := cmdEvents_fail hcmd howner hserved hstatus hbegun hmay hcheck hfirst (ev := ev) (by rw [hopc]; exact hev)
    exact ⟨_, hexec, State.endCmd_status hcmd _, State.endCmd_mem _, State.endCmd_benches _⟩
  case full => exact fun hcmd hbegun hfull => cmdEvents_wait hcmd hbegun hfull
  case begins =>
    intro hb
    exact ⟨nop_ends hb, start_starts hb,
      fun hopc => ⟨copyIn_refused hb hopc, fun l hmoved hlen hl hs hacc => copyIn_moves hi hb hopc hmoved hlen hl hs hacc⟩,
      copyOut_moves hb, signal_ends hb, wait_ends hb⟩
  case waitTimeout => exact fun hcmd hfirst hbegun hopc hlen => waitTimeout_ends hcmd hfirst hbegun hopc hlen
  case starting =>
    exact fun hcmd hserved hbegun hstatus hopc hstays a => start_waits hcmd hserved hbegun hstatus hopc hstays a
  case readTimeout => exact readTimeout_ends

end

section
/-!
SUPPORT. What a false guard leaves of each encoded instruction: its words name its header and their own number, and it issues by the
one rule of R275.
-/

namespace Sys2Proof.Machine

/-! ## The header of an encoded word (R274) -/

theorem dvd_foldr_lay {m : Nat} {fs : List (Nat × Nat)} (hf : ∀ f ∈ fs, m ≤ f.1) :
    2 ^ m ∣ fs.foldr (fun f a => f.2 * 2 ^ f.1 + a) 0 := by
  induction fs with
  | nil => exact dvd_zero _
  | cons f fs ih =>
    exact dvd_add ((Nat.pow_dvd_pow 2 (hf f List.mem_cons_self)).mul_left _) (ih fun g hg => hf g (List.mem_cons_of_mem _ hg))

/-- Fields behind the header leave its guard as it was laid down. -/
theorem issueOf_lay {eng op : Nat} {x : Bool} {h : Issue} {fs : List (Nat × Nat)} (he : eng < 2 ^ 4) (ho : op < 2 ^ 6)
    (hf : ∀ f ∈ fs, 15 ≤ f.1) : issueOf h.bench (lay (header eng op x h ++ fs)) = h := by
  obtain ⟨r, hr⟩ := dvd_foldr_lay hf
  have hx := Bool.toNat_lt x
  have hp := h.pred.isLt
  have hn := Bool.toNat_lt h.pneg
  have hword : (lay (header eng op x h ++ fs)).toNat
      = (eng + op * 16 + x.toNat * 1024 + h.pred.toNat * 2048 + h.pneg.toNat * 16384 + 32768 * r) % 2 ^ 64 := by
    rw [lay_toNat, List.foldr_append, hr]
    simp only [header, List.foldr]
    congr 1
    ring
  refine issueOf_eq ?_ ?_
  · rw [wn_eq, hword]
    omega
  · rw [bit_eq, hword]
    cases h.pneg
    all_goals
      simp only [Bool.toNat_true, Bool.toNat_false, decide_eq_true_eq, decide_eq_false_iff_not]
      omega

/-! ## Retirement by form -/

/-- With its guard false an encoded instruction retires without effect, and fetch goes on behind its words. -/
def Skips (i : Instr) : Prop :=
  i.wellFormed = true → ∀ b w x s, encode i = some (b, w, x) → s.canIssue b = true → (s.fm b).guard (issueOf b w) = false →
    (s.fm b).pc.toNat + (if x.isSome then 2 else 1) < 32768 →
    Retires i (issueOf b w) s (s.fm b) ((s.fm b).pc + (if x.isSome then 2 else 1))

section
variable {i : Instr} {eng op : Nat} {h : Issue} {fs xs : List (Nat × Nat)} {opcode : BitVec 10} {body : Fm → State → Disp}

theorem Skips.of_enc1 (e : encode i = enc1 eng op h fs)
    (hx : i.wellFormed = true → ∀ s, (s.fm h.bench).guard h = false → exec i s = issue h 1 opcode body s)
    (he : eng < 2 ^ 4 := by decide) (ho : op < 2 ^ 6 := by decide) (hf : ∀ f ∈ fs, 15 ≤ f.1 := by simp) : Skips i := by
  intro hw b w x s hi hcan hguard hpc
  rw [e, enc1, Option.some.injEq, Prod.mk.injEq, Prod.mk.injEq] at hi
  obtain ⟨rfl, rfl, rfl⟩ := hi
  rw [issueOf_lay he ho hf] at hguard ⊢
  exact retires_of_guardFalse (hx hw s hguard) hcan hguard hpc

theorem Skips.of_enc2 (e : encode i = enc2 eng op h fs xs)
    (hx : i.wellFormed = true → ∀ s, (s.fm h.bench).guard h = false → exec i s = issue h 2 opcode body s)
    (he : eng < 2 ^ 4 := by decide) (ho : op < 2 ^ 6 := by decide) (hf : ∀ f ∈ fs, 15 ≤ f.1 := by simp) : Skips i := by
  intro hw b w x s hi hcan hguard hpc
  rw [e, enc2, Option.some.injEq, Prod.mk.injEq, Prod.mk.injEq] at hi
  obtain ⟨rfl, rfl, rfl⟩ := hi
  rw [issueOf_lay he ho hf] at hguard ⊢
  exact retires_of_guardFalse (hx hw s hguard) hcan hguard hpc

end

theorem waitFieldsOk_of_waitOk {rd : BitVec 5} {gate : BitVec 8} (hw : waitOk rd gate = true) : waitFieldsOk rd gate = true :=
  (Bool.and_eq_true _ _ ▸ hw).2

/-- Every instruction with an encoding issues by the one rule, for as many words as it has. -/
theorem skips_all (i : Instr) : Skips i := by
  cases i with
  | add | sub | and_ | or_ | xor_ | shl | shr | sar | mul | mulhu | min_ | minu | max_ | maxu | divu | remu | ceq | cne | clt | cltu
    | cge | cgeu | tmov | tset | tget | addi | andi | ori | xori | shli | shri | sari | muli | ceqi | clti | cltui | ld | st | tld
    | tst | call | jr | callr | haulLd | haulGth | haulSct | wdgRot | wghRed | wghSparse | stkPop | set_ | sigAdd | clear =>
    exact .of_enc1 rfl fun _ _ _ => rfl
  | imm64 | wdgCvt | scrMapCopy | scrMapAbs | scrMapNeg | scrMapSqrt | scrMapRecip | scrMapRsqrt | scrMapRsum | scrMapRssq
    | scrMapRmax | scrMapRamax | scrMapAdd | scrMapSub | scrMapMul | scrMapMax | scrMapMin | scrMapFma | scrMapScale | scrCurve
    | scrDcurve | scrSmax | scrTopk | scrOpt | stkPush =>
    exact .of_enc2 rfl fun _ _ _ => rfl
  | nop h => exact .of_enc1 rfl fun _ s _ => Eq.refl (execNop h s)
  | pand h pd pa pb => exact .of_enc1 rfl fun _ s _ => Eq.refl (execPand h pd pa pb s)
  | por h pd pa pb => exact .of_enc1 rfl fun _ s _ => Eq.refl (execPor h pd pa pb s)
  | pxor h pd pa pb => exact .of_enc1 rfl fun _ s _ => Eq.refl (execPxor h pd pa pb s)
  | pandn h pd pa pb => exact .of_enc1 rfl fun _ s _ => Eq.refl (execPandn h pd pa pb s)
  | br h off => exact .of_enc1 rfl fun _ s _ => Eq.refl (execBr h off s)
  | end_ h => exact .of_enc1 rfl fun _ s _ => Eq.refl (execEnd h s)
  | syncBar h fabric bid gate => exact .of_enc1 rfl fun _ s _ => Eq.refl (execSyncBar h fabric bid gate s)
  | stepBegin h ra => exact .of_enc1 rfl fun _ s _ => Eq.refl (execStepBegin h ra s)
  | stepVote h rd vote cover => exact .of_enc1 rfl fun _ s _ => Eq.refl (execStepVote h rd vote cover s)
  | markBegin h id => exact .of_enc2 rfl fun _ s _ => Eq.refl (execMarkBegin h id s)
  | markEnd h => exact .of_enc1 rfl fun _ s _ => Eq.refl (execMarkEnd h s)
  | plmEval h => exact .of_enc1 rfl fun _ s _ => Eq.refl (execPlmEval h s)
  | syncFence h cover gate =>
    exact .of_enc1 rfl fun _ s hguard => show execSyncFence h cover gate s = _ from if_neg (by simp [hguard])
  | haulSt => exact .of_enc1 rfl fun hw _ _ => issueIf_ok hw
  | cutMm => exact .of_enc1 rfl fun hw _ _ => issueIf_ok (mmFieldsOk_of_cutMm hw)
  | drsMm => exact .of_enc1 rfl fun hw _ _ => issueIf_ok (mmFieldsOk_of_drsMm hw)
  | full | take | empty | ge => exact .of_enc1 rfl fun hw _ _ => issueIf_ok (waitFieldsOk_of_waitOk hw)
  | _ =>
    intro _ b w x s he
    cases he

end Sys2Proof.Machine
end

section
/-! The settlement of O7. -/

open Sys2Proof Sys2Proof.Machine

/-- Settles O7: each form's words are laid behind one header, and its guard is looked at before its body. -/
theorem guardFalse : Obligations.GuardFalse := by
  unfold Obligations.GuardFalse
  exact fun i b w x s hw he => skips_all i hw b w x s he

end

section
/-! SUPPORT. A lost module's bit that an optimiser deposit takes back, as the refutation starts from (R194, R348, R352, R353). -/

namespace Sys2Proof.Machine

/-- A class that no tensor has: its partials in Bench 0 would lie in the lost set of partition 0. -/
def strayClass : Nat := 0x82E800

theorem strayClass_key : K.OPT_PART 0 strayClass 0 = K.FAB_LOST 0 0 := by decide

/-- A HAUL.ST in progress with a write outstanding to module 0. -/
def remoteStore : Running :=
  ⟨State.reset.newEntry (State.reset.fmCtx ⟨0, 0, false⟩ 0) (.haul .st 0 2 0) 0 [] [], 1, 0, false, [], [], [], [],
    true, [], [(0, 0)], none, false⟩

/-- A Bench with that instruction in progress, and with a deposit of the smallest negative binary64 number in that class. -/
def Bench.storingRemotely (x : Bench) : Bench :=
  { x with run := [remoteStore], deposits := [(0, strayClass, [0x8000000000000001])] }

/-- Port 0 is READY with module 0 as its peer, to which Bench 0 stores. -/
def strayDeposit : State :=
  ((atWork.setRf (K.FAB_PORT 0) F.FAB_PORT_STATE portReady).setRb (K.FAB_PORT 0) F.FAB_PORT_PEER_VALID true).onBench 0
    Bench.storingRemotely

theorem strayDeposit_inv : strayDeposit.Inv :=
  (Keeps.onBench (State.setRb_keeps (State.setRf_keeps atWork_keeps)) fun x =>
    BenchKeeps.same (y := x.storingRemotely) rfl).inv State.reset_inv

/-- Partition 0 owns the READY port, whose peer is known to be module 0. -/
theorem strayDeposit_ready : strayDeposit.portState 0 = portReady ∧ strayDeposit.portOwner 0 = some 0
    ∧ strayDeposit.rb (K.FAB_PORT 0) F.FAB_PORT_PEER_VALID = true ∧ strayDeposit.rf (K.FAB_PORT 0) F.FAB_PORT_PEER_MOD = 0 := by
  decide +kernel

/-- Whether partition 0 has module 0 marked lost after a step. -/
def lostAfter : Out → Option Bool
  | .next t => some (t.isLost 0 0)
  | _ => none

/-- The HAUL.ST's fault lets the deposit go on, and its sum with the lost set's word is 0. -/
theorem strayDeposit_unmarks : lostAfter (exec (.portDown 0 0) strayDeposit) = some false := by decide +kernel

end Sys2Proof.Machine
end

section
/-! The settlement of O44. -/

open Sys2Proof Sys2Proof.Machine

/-- Refutes O44: it speaks of every state, and in one whose Bench 0 holds an optimiser deposit of class 8,579,072 that class's partial
is the word of the lost set with module 0's bit. PORT_DOWN marks the module, whose HAUL.ST faults with PEER_LOST; the deposit is
then added to that word, as binary64, and the bit is gone. -/
theorem not_lostPeers : ¬ Obligations.LostPeers := by
  unfold Obligations.LostPeers
  intro h
  obtain ⟨hready, howner, hvalid, hpeer⟩ := strayDeposit_ready
  obtain ⟨hports, -⟩ := h strayDeposit strayDeposit_inv
  obtain ⟨t, ht, -, hmarks⟩ := (hports 0 0).2 hready
  have hlost : t.isLost 0 (strayDeposit.rf (K.FAB_PORT 0) F.FAB_PORT_PEER_MOD) = true := hmarks 0 howner hvalid
  rw [hpeer] at hlost
  have hnot := strayDeposit_unmarks
  rw [ht] at hnot
  have hunmarked : some (t.isLost 0 0) = some false := hnot
  rw [hlost] at hunmarked
  cases hunmarked

end
